-- ==== Sys2Proof/Word.lean ====
section
/-! DEFINITION. Sys2Proof/Word.lean: the word types. -/
namespace Sys2Proof

/-- A register value or an instruction word (R236, R288). -/
abbrev Word := BitVec 32

/-- A byte of memory. -/
abbrev Byte := BitVec 8

/-- A 64-bit value: an address, a register pair, a system register. -/
abbrev DWord := BitVec 64

/-- A register field of 7 bits (Table 6.3). -/
abbrev RField := BitVec 7

end Sys2Proof
end

