-- ==== Sys2Proof/Config.lean ====
section
/-! DEFINITION. Sys2Proof/Config.lean: what one part fixes and the spec does not state (fuses, firmware images), the
functions the spec names by another standard, and the free values. All are constants with no body: nothing about
them can be evaluated or proved, so a statement holds whatever they are. -/
namespace Sys2Proof.Config

/-! ## Time (log 5, 6) -/

/-- Ticks that pass during step n. -/
opaque tickAdvance : Nat → Nat
/-- Core cycles that pass during step n. -/
opaque cycleAdvance : Nat → Nat
/-- Offset of a unit's local copy of TICK, read modulo 3 and less 1 (R29). -/
opaque tickSkew : Nat → Nat

/-! ## Results within an error bound (log 14, 15) -/

/-- What FEXP2, FLOG2, FSIN and FCOS return for an operand that is no special case, where it lies within the bound of
Table 9.6 (R240, R384). -/
opaque exp2 : Word → Word
opaque log2 : Word → Word
opaque sin : Word → Word
opaque cos : Word → Word
/-- What FRCP, FRSQ, or an NBV 1 FDIV or FSQRT returns, by operation number and operands, where it lies within the
bound of Table 9.6 or 9.8. -/
opaque ulpPick : Nat → Word → Word → Word

/-! ## Functions of other standards (log 16) -/

/-- SHAKE256 of an input, with an output of the given number of bytes. -/
opaque shake256 : List Byte → Nat → List Byte
/-- KMAC256 with 128-bit output: key, customisation string, input (R54). -/
opaque kmac256 : BitVec 256 → List Byte → List Byte → BitVec 128
/-- SLH-DSA-SHAKE-256s, deterministic: public key from SK.seed, SK.prf, PK.seed; signature; verification (FIPS 205). -/
opaque slhPublic : List Byte → List Byte
opaque slhSign : List Byte → List Byte → List Byte
opaque slhVerify : List Byte → List Byte → List Byte → Bool

/-! ## Fuses and firmware of the part (R60, R61; log 16) -/

/-- A signed boot stage (R61). -/
structure Stage where
  version : Nat
  length : Nat
  digest : BitVec 512
  key : List Byte
  sig : List Byte
  image : List Byte
  deriving Inhabited, Repr

/-- The header fields that a stage's signature covers, as bytes: version, length, digest and key (R61 gives them no
layout). -/
opaque headerBytes : Nat → Nat → BitVec 512 → List Byte → List Byte

opaque fuseRootDigest : BitVec 512
opaque fuseRomDigest : BitVec 512
opaque fuseParityOk : Bool
/-- Blown steps of the security version, 0 to 64. -/
opaque fuseVersion : Fin 65
opaque fuseSerial : BitVec 64
opaque fuseSecret : BitVec 256
opaque romImage : List Byte
opaque stage : Nat → Stage
/-- Chroith's root public key and the time and signature of the device certificate (R63, Table 2.15). -/
opaque rootKey : List Byte
opaque madeAt : BitVec 64
opaque deviceCertSig : List Byte

/-! ## Values the spec does not state -/

/-- Where the count of a counter that the PF claims starts (R282; log 40). -/
opaque claimedCount : Nat → Nat

/-- MAC address of a fabric port, derived from the device identity (R27). -/
opaque portMac : BitVec 64 → Nat → BitVec 48

/-- What a byte of the device-internal window reads as, outside the handler record slots, in a step (Table 1.2; log 18). -/
opaque internalByte : Nat → Nat → Byte

/-- Frames that a transfer with a peer package takes, and the fabric port they leave through (log 48). -/
opaque peerFrames : Nat → Nat
opaque peerPort : Nat → Nat

/-! ## Choices the spec leaves to the implementation -/

/-- Set index of a line in its L2 slice (log 20). -/
opaque l2Set : Nat → Nat
/-- The two hashes of the Bloom filter: context and VA[56:26] (R199; log 19). -/
opaque bloom1 : Nat → Nat → Nat
opaque bloom2 : Nat → Nat → Nat
/-- Which entry a full translation cache replaces (log 19). -/
opaque tlbVictim : Nat → Nat
/-- Which line an L1 with no free place evicts (log 21). -/
opaque l1Victim : Nat → Nat
/-- How many rows of an instruction issue before another path or a halt comes in between (R146, R311; log 10). -/
opaque rowsNow : Nat → Nat

/-- Place of the handler record slots within the device-internal window, in units of 256 KiB (R106, Table 1.2; log 18). -/
opaque recordBase : Nat

end Sys2Proof.Config
end

