-- ==== Sys2Proof/Machine/Float.lean ====
section
/-! DEFINITION. Sys2Proof/Machine/Float.lean: binary floating point computed exactly and rounded once (R234 to R240), the
operations within error bounds (Table 9.6), and nested integers (R241, R242, R389 to R391). -/
namespace Sys2Proof.Machine

/-! ## Formats and values (Table 9.4) -/

/-- A binary format: exponent bits, fraction bits, and whether NBV 1 flushes its subnormals (R238). -/
structure Fmt where
  eb : Nat
  mb : Nat
  flushes : Bool
  deriving DecidableEq, Repr

def Fmt.fp32 : Fmt := ⟨8, 23, true⟩
def Fmt.bf16 : Fmt := ⟨8, 7, true⟩
def Fmt.fp16 : Fmt := ⟨5, 10, false⟩
def Fmt.fp64 : Fmt := ⟨11, 52, false⟩

def Fmt.bias (f : Fmt) : Nat := 2 ^ (f.eb - 1) - 1
/-- Exponent of the smallest normal. -/
def Fmt.emin (f : Fmt) : Int := 1 - (f.bias : Int)
def Fmt.inf (f : Fmt) : Nat := (2 ^ f.eb - 1) * 2 ^ f.mb
def Fmt.maxFin (f : Fmt) : Nat := f.inf - 1
def Fmt.nan (f : Fmt) : Nat := f.inf + 2 ^ (f.mb - 1)
def Fmt.sign (f : Fmt) (neg : Bool) : Nat := if neg then 2 ^ (f.eb + f.mb) else 0

/-- A value: NaN, an infinity, or (-1)^neg * m * 2^e, zeros keeping their sign. -/
inductive Fv where
  | nan
  | inf (neg : Bool)
  | fin (neg : Bool) (m : Nat) (e : Int)
  deriving DecidableEq, Repr

/-- The value a format's bits stand for. -/
def Fmt.val (f : Fmt) (x : Nat) : Fv :=
  let neg := x / 2 ^ (f.eb + f.mb) % 2 == 1
  let ex := x / 2 ^ f.mb % 2 ^ f.eb
  let m := x % 2 ^ f.mb
  if ex = 2 ^ f.eb - 1 then (if m = 0 then .inf neg else .nan)
  else if ex = 0 then .fin neg m (f.emin - f.mb)
  else .fin neg (m + 2 ^ f.mb) ((ex : Int) - f.bias - f.mb)

/-- Does the format flush under a generation (R238)? -/
def Fmt.fl (f : Fmt) (nbv : Nat) : Bool := f.flushes && nbv == 1

/-- The bits of an operand after the input flush of R238. -/
def Fmt.flushIn (f : Fmt) (nbv x : Nat) : Nat :=
  if f.fl nbv ∧ x / 2 ^ f.mb % 2 ^ f.eb = 0 then x / 2 ^ (f.eb + f.mb) % 2 * 2 ^ (f.eb + f.mb) else x
/-- The value of an operand after the flush. -/
def Fmt.operand (f : Fmt) (nbv x : Nat) : Fv := f.val (f.flushIn nbv x)

/-! ## Rounding (R234) -/

/-- Does a mode round a quotient `n` with remainder `rem` of `2^s` away from zero? -/
def roundsUp (mode : Nat) (neg : Bool) (n rem half : Nat) : Bool :=
  if rem = 0 then false
  else if mode = 1 then false
  else if mode = 2 then !neg
  else if mode = 3 then neg
  else if mode = 4 then decide (half ≤ rem)
  else decide (half < rem) || (rem == half && n % 2 == 1)

/-- m * 2^e in units of 2^q, rounded. -/
def roundAt (mode : Nat) (neg : Bool) (m : Nat) (e q : Int) : Nat :=
  if q ≤ e then m * 2 ^ (e - q).toNat
  else
    let s := (q - e).toNat
    if Nat.log2 m + 1 < s then (if m ≠ 0 ∧ roundsUp mode neg 0 1 2 then 1 else 0)   -- less than half a unit
    else
    let n := m / 2 ^ s
    if roundsUp mode neg n (m % 2 ^ s) (2 ^ (s - 1)) then n + 1 else n

/-- Exponent of the leading bit of m * 2^e. -/
def topExp (m : Nat) (e : Int) : Int := (Nat.log2 m : Int) + e

/-- Overflow results of Table 9.3. -/
def Fmt.overflow (f : Fmt) (mode : Nat) (neg : Bool) : Nat :=
  if mode = 1 ∨ (mode = 2 ∧ neg) ∨ (mode = 3 ∧ ¬neg) then f.maxFin else f.inf

/-- Round a finite nonzero exact value, with the result flush when `fl` (R234, R238). -/
def Fmt.round (f : Fmt) (mode : Nat) (fl neg : Bool) (m : Nat) (e : Int) : Nat :=
  let top := topExp m e
  let free := roundAt mode neg m e (top - f.mb)
  if fl ∧ top < f.emin ∧ ¬(top = f.emin - 1 ∧ free = 2 ^ (f.mb + 1)) then f.sign neg
  else
    let q := max top f.emin - f.mb
    let n := roundAt mode neg m e q
    let mag :=
      if n < 2 ^ f.mb then n
      else
        let ex := (q + f.mb + f.bias).toNat
        let b := ex * 2 ^ f.mb + (n - 2 ^ f.mb)
        if f.inf ≤ b then f.overflow mode neg else b
    f.sign neg + mag

/-- The bits of an exact value rounded once (R237). -/
def Fmt.bits (f : Fmt) (mode nbv : Nat) : Fv → Nat
  | .nan => f.nan
  | .inf neg => f.sign neg + f.inf
  | .fin neg m e => if m = 0 then f.sign neg else f.round mode (f.fl nbv) neg m e

/-! ## Exact operations -/

def Fv.neg : Fv → Fv
  | .nan => .nan
  | .inf n => .inf (!n)
  | .fin n m e => .fin (!n) m e
/-- Signed magnitude at exponent q, q no greater than the value's. -/
def atExp (neg : Bool) (m : Nat) (e q : Int) : Int :=
  let v : Int := m * 2 ^ (e - q).toNat
  if neg then -v else v

/-- Exact sum; a zero sum takes its sign by R235. -/
def Fv.add (mode : Nat) : Fv → Fv → Fv
  | .nan, _ => .nan
  | _, .nan => .nan
  | .inf a, .inf b => if a = b then .inf a else .nan
  | .inf a, .fin .. => .inf a
  | .fin .., .inf b => .inf b
  | .fin a m e, .fin b n g =>
    let q := min e g
    let s := atExp a m e q + atExp b n g q
    if s = 0 then .fin (if a = b then a else mode == 3) 0 q
    else .fin (decide (s < 0)) s.natAbs q
/-- Exact product. -/
def Fv.mul : Fv → Fv → Fv
  | .nan, _ => .nan
  | _, .nan => .nan
  | .inf a, .inf b => .inf (a != b)
  | .inf a, .fin b n _ => if n = 0 then .nan else .inf (a != b)
  | .fin a m _, .inf b => if m = 0 then .nan else .inf (a != b)
  | .fin a m e, .fin b n g => .fin (a != b) (m * n) (e + g)

/-- Are two values ordered, and how: none where either is NaN. +0 equals -0. -/
def Fv.compare : Fv → Fv → Option Ordering
  | .nan, _ => none
  | _, .nan => none
  | .inf a, .inf b => some (if a = b then .eq else if a then .lt else .gt)
  | .inf a, .fin .. => some (if a then .lt else .gt)
  | .fin .., .inf b => some (if b then .gt else .lt)
  | .fin a m e, .fin b n g =>
    let q := min e g
    some (Ord.compare (atExp a m e q) (atExp b n g q))

def Fv.isNan : Fv → Bool
  | .nan => true
  | _ => false
def Fv.negative : Fv → Bool
  | .nan => false
  | .inf n => n
  | .fin n _ _ => n
def Fv.isZero : Fv → Bool
  | .fin _ m _ => m == 0
  | _ => false

/-! ## Arithmetic on bits (R380 to R386) -/

def Fmt.add (f : Fmt) (mode nbv a b : Nat) : Nat :=
  f.bits mode nbv ((f.operand nbv a).add mode (f.operand nbv b))
def Fmt.sub (f : Fmt) (mode nbv a b : Nat) : Nat :=
  f.bits mode nbv ((f.operand nbv a).add mode (f.operand nbv b).neg)
def Fmt.mul (f : Fmt) (mode nbv a b : Nat) : Nat := f.bits mode nbv ((f.operand nbv a).mul (f.operand nbv b))
def Fmt.fma (f : Fmt) (mode nbv a b d : Nat) : Nat :=
  f.bits mode nbv (((f.operand nbv a).mul (f.operand nbv b)).add mode (f.operand nbv d))

/-- Is x below y, with -0 below +0 (R381)? -/
def Fv.below (x y : Fv) : Bool :=
  match x.compare y with
  | some .lt => true
  | some .eq => x.isZero && x.negative && !y.negative
  | _ => false
def Fmt.minmax (f : Fmt) (isMax : Bool) (nbv a b : Nat) : Nat :=
  let a := f.flushIn nbv a
  let b := f.flushIn nbv b
  let x := f.val a
  let y := f.val b
  if x.isNan ∧ y.isNan then f.nan else if x.isNan then b else if y.isNan then a
  else if (if isMax then x.below y else y.below x) then b else a

/-- FSCALE (R382). -/
def Fmt.scale (f : Fmt) (mode nbv a : Nat) (k : Int) : Nat :=
  let a := f.flushIn nbv a
  match f.val a with
  | .nan => f.nan
  | .inf _ => a
  | .fin n m e => if m = 0 then a else f.bits mode nbv (.fin n m (e + k))

/-- The quotient of two finite nonzero values, rounded: 128 bits of it and a sticky bit. -/
def Fmt.quot (f : Fmt) (mode nbv : Nat) (neg : Bool) (m : Nat) (e : Int) (n : Nat) (g : Int) : Nat :=
  let s := 128 + Nat.log2 n
  let q := m * 2 ^ s / n
  let r := m * 2 ^ s % n
  f.round mode (f.fl nbv) neg (2 * q + (if r = 0 then 0 else 1)) (e - g - s - 1)

/-- a / b (R383), every case but the bound of NBV 1. -/
def Fmt.div (f : Fmt) (mode nbv a b : Nat) : Nat :=
  match f.operand nbv a, f.operand nbv b with
  | .nan, _ => f.nan
  | _, .nan => f.nan
  | .inf _, .inf _ => f.nan
  | .inf x, .fin y _ _ => f.sign (x != y) + f.inf
  | .fin x _ _, .inf y => f.sign (x != y)
  | .fin x m e, .fin y n g =>
    if n = 0 then (if m = 0 then f.nan else f.sign (x != y) + f.inf)
    else if m = 0 then f.sign (x != y)
    else f.quot mode nbv (x != y) m e n g

/-- Integer square root of n, by bits from 2^k down. -/
def isqrt : Nat → Nat → Nat → Nat
  | 0, _, r => r
  | k + 1, n, r => if (r + 2 ^ k) * (r + 2 ^ k) ≤ n then isqrt k n (r + 2 ^ k) else isqrt k n r

/-- The square root, every case but the bound of NBV 1 (Table 9.5). -/
def Fmt.sqrt (f : Fmt) (mode nbv a : Nat) : Nat :=
  match f.operand nbv a with
  | .nan => f.nan
  | .inf n => if n then f.nan else f.inf
  | .fin n m e =>
    if m = 0 then f.sign n
    else if n then f.nan
    else
      let s := 200 + (e - 200) % 2
      let x := m * 2 ^ s.toNat
      let r := isqrt (Nat.log2 x / 2 + 1) x 0
      f.round mode (f.fl nbv) false (2 * r + (if r * r = x then 0 else 1)) ((e - s) / 2 - 1)

/-! ## Results within a bound (Table 9.6, Table 9.8) -/

/-- Unit in the last place at a leading exponent, as an exponent. -/
def Fmt.ulpExp (f : Fmt) (top : Int) : Int := max top f.emin - f.mb

/-- |x| <= |y| for dyadics as (mantissa, exponent). -/
def dyLe (x y : Int × Int) : Bool :=
  let q := min x.2 y.2
  decide (x.1 * 2 ^ (x.2 - q).toNat ≤ y.1 * 2 ^ (y.2 - q).toNat)
def dySub (x y : Int × Int) : Int × Int :=
  let q := min x.2 y.2
  (x.1 * 2 ^ (x.2 - q).toNat - y.1 * 2 ^ (y.2 - q).toNat, q)
def dyMul (x y : Int × Int) : Int × Int := (x.1 * y.1, x.2 + y.2)
def dyAbs (x : Int × Int) : Int × Int := (x.1.natAbs, x.2)

/-- A finite FP32 value as a dyadic. -/
def fin32 (v : Nat) : Option (Int × Int) :=
  match Fmt.fp32.val v with
  | .fin n m e => some (if n then -(m : Int) else m, e)
  | _ => none

/-- Does v lie within k units in the last place of x / y, exact leading exponent `top`? -/
def nearQuot (v : Nat) (k : Nat) (x y : Int × Int) (top : Int) : Bool :=
  match fin32 v with
  | none => false
  | some d => dyLe (dyAbs (dySub (dyMul d y) x)) (dyMul (dyAbs y) ((k : Int), Fmt.fp32.ulpExp top))

/-- Does v lie within k units of the square root of x (y = 1), or of 1 / sqrt x (y = x), with leading exponent `top`? -/
def nearRoot (v : Nat) (k : Nat) (x : Int × Int) (inv : Bool) (top : Int) : Bool :=
  match fin32 v with
  | none => false
  | some d =>
    let u : Int × Int := ((k : Int), Fmt.fp32.ulpExp top)
    let lo := dySub d u
    let hi := dySub d (-u.1, u.2)
    let sq (a : Int × Int) : Int × Int := if inv then dyMul (dyMul a a) x else dyMul a a
    let one : Int × Int := if inv then (1, 0) else x
    (decide (lo.1 ≤ 0) || dyLe (sq lo) one) && decide (0 ≤ hi.1) && dyLe one (sq hi)

/-- A result of the part where it is within its bound, else the correctly rounded one; flushed under NBV 1. -/
def pickOr (ok : Bool) (nbv v r : Nat) : Nat := Fmt.fp32.flushIn nbv (if ok then v else r)

/-- FDIV under each generation (Table 9.8). -/
def fdiv32 (mode nbv a b : Nat) : Nat :=
  let r := Fmt.fp32.div (if nbv = 3 then mode else 0) nbv a b
  if nbv ≠ 1 then r
  else
    match fin32 (Fmt.fp32.flushIn 1 a), fin32 (Fmt.fp32.flushIn 1 b) with
    | some x, some y =>
      if x.1 = 0 ∨ y.1 = 0 then r
      else
        let v := (Config.ulpPick 0 (BitVec.ofNat 32 a) (BitVec.ofNat 32 b)).toNat
        let t0 := topExp x.1.natAbs x.2 - topExp y.1.natAbs y.2
        let top := if dyLe (dyMul (dyAbs y) (1, t0)) (dyAbs x) then t0 else t0 - 1
        pickOr (nearQuot v 2 x y top) nbv v r
    | _, _ => r

/-- FSQRT under each generation. -/
def fsqrt32 (mode nbv a : Nat) : Nat :=
  let r := Fmt.fp32.sqrt (if nbv = 3 then mode else 0) nbv a
  if nbv ≠ 1 then r
  else
    match fin32 (Fmt.fp32.flushIn 1 a) with
    | some x =>
      if x.1 ≤ 0 then r
      else
        let v := (Config.ulpPick 1 (BitVec.ofNat 32 a) 0#32).toNat
        pickOr (nearRoot v 2 x false (topExp x.1.natAbs x.2 / 2)) nbv v r
    | none => r

/-- FRCP: 1 ulp, RMODE ignored. -/
def frcp32 (nbv a : Nat) : Nat :=
  let r := Fmt.fp32.div 0 nbv 0x3F800000 a
  match fin32 (Fmt.fp32.flushIn nbv a) with
  | some y =>
    if y.1 = 0 then r
    else
      let v := (Config.ulpPick 2 (BitVec.ofNat 32 a) 0#32).toNat
      let t0 := - topExp y.1.natAbs y.2
      let top := if dyLe (dyMul (dyAbs y) (1, t0)) (1, 0) then t0 else t0 - 1
      pickOr (nearQuot v 1 (1, 0) y top) nbv v r
  | none => r

/-- FRSQ: 1 ulp, RMODE ignored; special inputs of Table 9.5. -/
def frsq32 (nbv a : Nat) : Nat :=
  let f := Fmt.fp32
  match f.operand nbv a with
  | .nan => f.nan
  | .inf n => if n then f.nan else 0
  | .fin n m e =>
    if m = 0 then f.sign n + f.inf
    else if n then f.nan
    else
      let odd := e % 2
      let y := if odd = 0 then 2 ^ 800 / m else 2 ^ 800 / m / 2
      let r := isqrt (Nat.log2 y / 2 + 1) y 0
      let ex := -400 - (e - odd) / 2
      let best := f.round 0 (f.fl nbv) false (2 * r + 1) (ex - 1)
      let v := (Config.ulpPick 3 (BitVec.ofNat 32 a) 0#32).toNat
      pickOr (nearRoot v 1 ((m : Int), e) true (topExp (2 * r + 1) (ex - 1))) nbv v best

/-! ## Transcendentals, to a fixed point far beyond their bounds (R240, R384) -/

def fixP : Nat := 320
/-- 2 pi and ln 2 in units of 2^-320 and 2^-160. -/
def twoPi : Nat := 13420802360424337830311681948440006481608388178854297901454212848703426437343610760199000777828079
def ln2 : Nat := 1013035739299659071135698605846798551586536899366

/-- Sum of x^k / k! from term k on, x in units of 2^-P; `sgn` -1 alternates every second term's sign by caller. -/
def expSeries : Nat → Nat → Int → Int → Int
  | 0, _, _, _ => 0
  | n + 1, k, x, t => t + expSeries n (k + 1) x (t * x / 2 ^ fixP / (k + 1))

/-- x^k/k! - x^(k+2)/(k+2)! + ... -/
def trigSeries : Nat → Nat → Int → Int → Int
  | 0, _, _, _ => 0
  | n + 1, k, x, t => t + trigSeries n (k + 2) x (-(t * x / 2 ^ fixP * x / 2 ^ fixP / ((k + 1) * (k + 2))))

/-- A dyadic in units of 2^-320. -/
def toFix (x : Int × Int) : Int :=
  if 0 ≤ x.2 + fixP then x.1 * 2 ^ (x.2 + fixP).toNat else x.1 / 2 ^ (-(x.2 + fixP)).toNat

/-- 2^x for x in units of 2^-320, as a dyadic. -/
def exp2Fix (x : Int) : Int × Int :=
  let n := x / 2 ^ fixP
  let fr := x % 2 ^ fixP
  (expSeries 100 0 (fr * ln2 / 2 ^ 160) (2 ^ fixP), n - fixP)

/-- Bits of log2 of y in [1, 2), y in units of 2^-320: `n` more bits below those of `acc`. -/
def log2Bits : Nat → Nat → Nat → Nat
  | 0, _, acc => acc
  | n + 1, y, acc =>
    let z := y * y / 2 ^ fixP
    if 2 ^ (fixP + 1) ≤ z then log2Bits n (z / 2) (2 * acc + 1) else log2Bits n z (2 * acc)

/-- log2 of a positive dyadic, in units of 2^-120. -/
def log2Fix (m : Nat) (e : Int) : Int :=
  let k := Nat.log2 m
  (k + e) * 2 ^ 120 + log2Bits 120 (m * 2 ^ (fixP - k)) 0

/-- sin or cos of a dyadic, in units of 2^-320. -/
def trigFix (cos : Bool) (x : Int × Int) : Int :=
  let r := toFix x % (twoPi : Int)
  if cos then trigSeries 60 0 r (2 ^ fixP) else trigSeries 60 1 r r

/-- |v - exact| <= bound, for FP32 bits v. -/
def nearFix (v : Nat) (exact bound : Int × Int) : Bool :=
  match fin32 v with
  | none => false
  | some d => dyLe (dyAbs (dySub d exact)) bound

/-- The nearest FP32 to a dyadic. -/
def nearest32 (nbv : Nat) (x : Int × Int) : Nat :=
  Fmt.fp32.bits 0 nbv (.fin (decide (x.1 < 0)) x.1.natAbs x.2)

def fexp2_32 (nbv a : Nat) : Nat :=
  let f := Fmt.fp32
  match f.operand nbv a with
  | .nan => f.nan
  | .inf n => if n then 0 else f.inf
  | .fin n m e =>
    let x : Int × Int := (if n then -(m : Int) else m, e)
    if dyLe (128, 0) x then f.inf
    else
      let y := if dyLe x (-200, 0) then (1, -300) else exp2Fix (toFix x)
      let top := topExp y.1.natAbs y.2
      let v := (Config.exp2 (BitVec.ofNat 32 a)).toNat
      let bound : Int × Int := if top < f.emin then (1, -149) else (2, f.ulpExp top)
      pickOr (nearFix v y bound && decide (v < 0x80000000)) nbv v (nearest32 nbv y)

def flog2_32 (nbv a : Nat) : Nat :=
  let f := Fmt.fp32
  match f.operand nbv a with
  | .nan => f.nan
  | .inf n => if n then f.nan else f.inf
  | .fin n m e =>
    if m = 0 then f.sign true + f.inf
    else if n then f.nan
    else
      let y : Int × Int := (log2Fix m e, -120)
      let v := (Config.log2 (BitVec.ofNat 32 a)).toNat
      let near1 := dyLe (1, -1) ((m : Int), e) && dyLe ((m : Int), e) (2, 0)
      let bound : Int × Int := if near1 then (1, -22) else (2, f.ulpExp (topExp y.1.natAbs y.2))
      pickOr (nearFix v y bound) nbv v (nearest32 nbv y)

/-- FSIN and FCOS, in [-1, 1] for every finite input. -/
def ftrig32 (cos : Bool) (nbv a : Nat) : Nat :=
  let f := Fmt.fp32
  let a' := f.flushIn nbv a
  match f.val a' with
  | .nan => f.nan
  | .inf _ => f.nan
  | .fin n m e =>
    if m = 0 ∧ ¬cos then a'
    else
      let x : Int × Int := (if n then -(m : Int) else m, e)
      let y : Int × Int := (trigFix cos x, -(fixP : Int))
      let v := (if cos then Config.cos (BitVec.ofNat 32 a) else Config.sin (BitVec.ofNat 32 a)).toNat
      let small := dyLe (dyAbs x) (1, 15)
      let inRange := decide (v % 0x80000000 ≤ 0x3F800000)
      pickOr (inRange && nearFix v y (1, if small then -21 else -8)) nbv v (nearest32 nbv y)

/-! ## Integers (R239, R387, R388) -/

/-- Round a value to an integer by a mode; infinities and NaN are the caller's. -/
def roundInt (mode : Nat) (neg : Bool) (m : Nat) (e : Int) : Int :=
  let n := roundAt mode neg m e 0
  if neg then -(n : Int) else n

/-- Saturate. -/
def clampI (lo hi x : Int) : Int := max lo (min hi x)

/-- Float to integer, in [lo, hi]; `nan1` is the NBV 1 result of a NaN. -/
def Fmt.toInt (f : Fmt) (mode nbv a : Nat) (lo hi nan1 : Int) : Int :=
  match f.operand nbv a with
  | .nan => if nbv = 1 then nan1 else 0
  | .inf n => if n then lo else hi
  | .fin n m e => clampI lo hi (roundInt mode n m e)

/-- An integer as a float. -/
def Fmt.ofInt (f : Fmt) (mode nbv : Nat) (x : Int) : Nat :=
  f.bits mode nbv (.fin (decide (x < 0)) x.natAbs 0)

/-- From one format to another. -/
def Fmt.convert (f g : Fmt) (mode nbv a : Nat) : Nat := g.bits mode nbv (f.operand nbv a)

/-- FRND (R388). -/
def frnd32 (mode nbv a : Nat) : Nat :=
  let f := Fmt.fp32
  let a := f.flushIn nbv a
  match f.val a with
  | .nan => f.nan
  | .inf _ => a
  | .fin n m e =>
    if m = 0 ∨ 0 ≤ e then a
    else
      let k := roundAt mode n m e 0
      if k = 0 then f.sign n else f.round 0 false n k 0

/-! ## Nested integers (R241, R242, R389 to R392) -/

/-- Value of an element x of s planes read at p planes (Table 9.7). -/
def niValue (nbv s p : Nat) (x : Int) : Int :=
  if p = s then x
  else
    let q := x / 2 ^ (s - p)
    if nbv = 3 then (2 * q + 1) * 2 ^ (s - p - 1) else q * 2 ^ (s - p)

def niS (d : Nat) : Nat := d % 16
def niP (d : Nat) : Nat := d / 16 % 16
def niE (d : Nat) : Int := (BitVec.ofNat 8 (d / 256)).toInt

/-- NIQ (R390). -/
def niq32 (mode nbv a d : Nat) : Nat :=
  let s := niS d
  if s < 2 ∨ 8 < s then 0
  else
    let hi : Int := 2 ^ (s - 1) - 1
    let lo : Int := -(2 ^ (s - 1))
    let q := match Fmt.fp32.operand nbv a with
      | .nan => if nbv = 1 then lo else 0
      | .inf n => if n then lo else hi
      | .fin n m e => clampI lo hi (roundInt mode n m (e - niE d))
    (BitVec.ofInt 32 q).toNat

/-- NIDQ (R391). -/
def nidq32 (mode nbv a d : Nat) : Nat :=
  let s := niS d
  let p := if niP d = 0 then s else niP d
  if s < 2 ∨ 8 < s ∨ p < 2 ∨ s < p then 0
  else
    let x : Int := (BitVec.ofNat s a).toInt
    let v := niValue nbv s p x
    Fmt.fp32.bits mode nbv (.fin (decide (v < 0)) v.natAbs (niE d))

/-- Exponent of SEXP for a group's largest magnitude m * 2^e (R392). -/
def sexpOf (s m : Nat) (e : Int) : Int :=
  if m = 0 then -128
  else
    -- smallest k with m * 2^(e - k) <= 2^(s-1) - 1
    let fits (k : Int) : Bool := dyLe ((m : Int), e - k) ((2 : Int) ^ (s - 1) - 1, 0)
    let k0 := topExp m e - (s - 1)
    let k := if fits k0 then k0 else if fits (k0 + 1) then k0 + 1 else k0 + 2
    clampI (-128) 127 k

end Sys2Proof.Machine
end

