-- ==== Sys2Proof/Syntax.lean ====
section
/-! DEFINITION. Sys2Proof/Syntax.lean: the instructions. One constructor per row of spec/opcode_table.json: the 221
instructions of the Zhety set with their encoded fields, then the 104 steps of the package, whose rows have no
encoding and no field. What a step is about (which function, which command) is `Hw.occ` in Machine/State.lean. -/
namespace Sys2Proof

/-- An instruction or step. Register fields hold the field value of Table 6.3; `i`, `x` and `y` are the bits I, ea
and eb; `s` is the scope code {I, ea, eb} of Table 12.3; the other letters are the table's field names. -/
inductive Instr where
  | add (i : Bool) (d : BitVec 7) (a : BitVec 7) (b : BitVec 7) (x : Bool) (y : Bool)
  | sub (i : Bool) (d : BitVec 7) (a : BitVec 7) (b : BitVec 7) (x : Bool) (y : Bool)
  | min (i : Bool) (d : BitVec 7) (a : BitVec 7) (b : BitVec 7) (x : Bool) (y : Bool)
  | max (i : Bool) (d : BitVec 7) (a : BitVec 7) (b : BitVec 7) (x : Bool) (y : Bool)
  | minu (i : Bool) (d : BitVec 7) (a : BitVec 7) (b : BitVec 7) (x : Bool) (y : Bool)
  | maxu (i : Bool) (d : BitVec 7) (a : BitVec 7) (b : BitVec 7) (x : Bool) (y : Bool)
  | absd (i : Bool) (d : BitVec 7) (a : BitVec 7) (b : BitVec 7) (x : Bool) (y : Bool)
  | addsat (i : Bool) (d : BitVec 7) (a : BitVec 7) (b : BitVec 7) (x : Bool) (y : Bool)
  | mul (i : Bool) (d : BitVec 7) (a : BitVec 7) (b : BitVec 7) (x : Bool) (y : Bool)
  | mulh (i : Bool) (d : BitVec 7) (a : BitVec 7) (b : BitVec 7) (x : Bool) (y : Bool)
  | mulhu (i : Bool) (d : BitVec 7) (a : BitVec 7) (b : BitVec 7) (x : Bool) (y : Bool)
  | mad (i : Bool) (d : BitVec 7) (a : BitVec 7) (b : BitVec 7) (x : Bool) (y : Bool)
  | and (i : Bool) (d : BitVec 7) (a : BitVec 7) (b : BitVec 7) (x : Bool) (y : Bool)
  | or (i : Bool) (d : BitVec 7) (a : BitVec 7) (b : BitVec 7) (x : Bool) (y : Bool)
  | xor (i : Bool) (d : BitVec 7) (a : BitVec 7) (b : BitVec 7) (x : Bool) (y : Bool)
  | andn (i : Bool) (d : BitVec 7) (a : BitVec 7) (b : BitVec 7) (x : Bool) (y : Bool)
  | shl (i : Bool) (d : BitVec 7) (a : BitVec 7) (b : BitVec 7) (x : Bool) (y : Bool)
  | shr (i : Bool) (d : BitVec 7) (a : BitVec 7) (b : BitVec 7) (x : Bool) (y : Bool)
  | sha (i : Bool) (d : BitVec 7) (a : BitVec 7) (b : BitVec 7) (x : Bool) (y : Bool)
  | rot (i : Bool) (d : BitVec 7) (a : BitVec 7) (b : BitVec 7) (x : Bool) (y : Bool)
  | div (i : Bool) (d : BitVec 7) (a : BitVec 7) (b : BitVec 7) (x : Bool) (y : Bool)
  | divu (i : Bool) (d : BitVec 7) (a : BitVec 7) (b : BitVec 7) (x : Bool) (y : Bool)
  | rem (i : Bool) (d : BitVec 7) (a : BitVec 7) (b : BitVec 7) (x : Bool) (y : Bool)
  | remu (i : Bool) (d : BitVec 7) (a : BitVec 7) (b : BitVec 7) (x : Bool) (y : Bool)
  | clz (i : Bool) (d : BitVec 7) (a : BitVec 7) (x : Bool)
  | popc (i : Bool) (d : BitVec 7) (a : BitVec 7) (x : Bool)
  | brev (i : Bool) (d : BitVec 7) (a : BitVec 7) (x : Bool)
  | ffs (i : Bool) (d : BitVec 7) (a : BitVec 7) (x : Bool)
  | bfx (i : Bool) (d : BitVec 7) (a : BitVec 7) (b : BitVec 7) (x : Bool) (y : Bool)
  | bfxz (i : Bool) (d : BitVec 7) (a : BitVec 7) (b : BitVec 7) (x : Bool) (y : Bool)
  | bfi (i : Bool) (d : BitVec 7) (a : BitVec 7) (b : BitVec 7) (x : Bool) (y : Bool)
  | permb (i : Bool) (d : BitVec 7) (a : BitVec 7) (b : BitVec 7) (x : Bool) (y : Bool)
  | addi (d : BitVec 7) (a : BitVec 7) (x : Bool) (k : BitVec 11)
  | muli (d : BitVec 7) (a : BitVec 7) (x : Bool) (k : BitVec 11)
  | andi (d : BitVec 7) (a : BitVec 7) (x : Bool) (k : BitVec 11)
  | ori (d : BitVec 7) (a : BitVec 7) (x : Bool) (k : BitVec 11)
  | xori (d : BitVec 7) (a : BitVec 7) (x : Bool) (k : BitVec 11)
  | shi (d : BitVec 7) (a : BitVec 7) (x : Bool) (h : BitVec 2) (n : BitVec 5)
  | cmpi (c : BitVec 4) (p : BitVec 3) (a : BitVec 7) (x : Bool) (k : BitVec 11)
  | lui (d : BitVec 7) (k : BitVec 19)
  | cmp (i : Bool) (c : BitVec 4) (p : BitVec 3) (a : BitVec 7) (b : BitVec 7) (x : Bool) (y : Bool)
  | fcmp (i : Bool) (c : BitVec 4) (p : BitVec 3) (a : BitVec 7) (b : BitVec 7) (x : Bool) (y : Bool)
  | dcmp (i : Bool) (c : BitVec 4) (p : BitVec 3) (a : BitVec 7) (b : BitVec 7) (x : Bool) (y : Bool)
  | fclass (i : Bool) (p : BitVec 3) (a : BitVec 7) (m : BitVec 7) (x : Bool)
  | sel (i : Bool) (d : BitVec 7) (a : BitVec 7) (b : BitVec 7) (x : Bool) (y : Bool) (c : BitVec 2)
  | pand (p : BitVec 3) (q : BitVec 3) (r : BitVec 3)
  | por (p : BitVec 3) (q : BitVec 3) (r : BitVec 3)
  | pxor (p : BitVec 3) (q : BitVec 3) (r : BitVec 3)
  | pandn (p : BitVec 3) (q : BitVec 3) (r : BitVec 3)
  | ptov (d : BitVec 7) (p : BitVec 3)
  | vtop (i : Bool) (p : BitVec 3) (a : BitVec 7) (x : Bool)
  | voteAny (p : BitVec 3) (q : BitVec 3)
  | voteAll (p : BitVec 3) (q : BitVec 3)
  | mov (i : Bool) (d : BitVec 7) (a : BitVec 7) (x : Bool)
  | movx (d : BitVec 7) (a : BitVec 7) (x : Bool)
  | ballot (d : BitVec 7) (p : BitVec 3) (b : BitVec 7) (y : Bool)
  | nlanes (d : BitVec 7)
  | shflIdx (i : Bool) (d : BitVec 7) (a : BitVec 7) (b : BitVec 7) (x : Bool) (y : Bool)
  | shflUp (i : Bool) (d : BitVec 7) (a : BitVec 7) (b : BitVec 7) (x : Bool) (y : Bool)
  | shflDn (i : Bool) (d : BitVec 7) (a : BitVec 7) (b : BitVec 7) (x : Bool) (y : Bool)
  | shflXor (i : Bool) (d : BitVec 7) (a : BitVec 7) (b : BitVec 7) (x : Bool) (y : Bool)
  | elect (p : BitVec 3)
  | firstl (d : BitVec 7)
  | pack
  | rdlane (i : Bool) (d : BitVec 7) (a : BitVec 7) (b : BitVec 7) (x : Bool) (y : Bool)
  | bcast (i : Bool) (d : BitVec 7) (a : BitVec 7) (b : BitVec 7) (x : Bool) (y : Bool)
  | wrlane (i : Bool) (d : BitVec 7) (a : BitVec 7) (b : BitVec 7) (x : Bool) (y : Bool)
  | rdxAdd (i : Bool) (d : BitVec 7) (a : BitVec 7) (x : Bool)
  | rdxMax (i : Bool) (d : BitVec 7) (a : BitVec 7) (x : Bool)
  | rdxMin (i : Bool) (d : BitVec 7) (a : BitVec 7) (x : Bool)
  | rdxOr (i : Bool) (d : BitVec 7) (a : BitVec 7) (x : Bool)
  | rdxAnd (i : Bool) (d : BitVec 7) (a : BitVec 7) (x : Bool)
  | rdxFadd (i : Bool) (d : BitVec 7) (a : BitVec 7) (x : Bool)
  | fadd (i : Bool) (d : BitVec 7) (a : BitVec 7) (b : BitVec 7) (x : Bool) (y : Bool)
  | fsub (i : Bool) (d : BitVec 7) (a : BitVec 7) (b : BitVec 7) (x : Bool) (y : Bool)
  | fmul (i : Bool) (d : BitVec 7) (a : BitVec 7) (b : BitVec 7) (x : Bool) (y : Bool)
  | ffma (i : Bool) (d : BitVec 7) (a : BitVec 7) (b : BitVec 7) (x : Bool) (y : Bool)
  | fmin (i : Bool) (d : BitVec 7) (a : BitVec 7) (b : BitVec 7) (x : Bool) (y : Bool)
  | fmax (i : Bool) (d : BitVec 7) (a : BitVec 7) (b : BitVec 7) (x : Bool) (y : Bool)
  | fcpys (i : Bool) (d : BitVec 7) (a : BitVec 7) (b : BitVec 7) (x : Bool) (y : Bool)
  | fscale (i : Bool) (d : BitVec 7) (a : BitVec 7) (b : BitVec 7) (x : Bool) (y : Bool)
  | fdiv (i : Bool) (d : BitVec 7) (a : BitVec 7) (b : BitVec 7) (x : Bool) (y : Bool)
  | fsqrt (i : Bool) (d : BitVec 7) (a : BitVec 7) (x : Bool)
  | frcp (i : Bool) (d : BitVec 7) (a : BitVec 7) (x : Bool)
  | frsq (i : Bool) (d : BitVec 7) (a : BitVec 7) (x : Bool)
  | fexp2 (i : Bool) (d : BitVec 7) (a : BitVec 7) (x : Bool)
  | flog2 (i : Bool) (d : BitVec 7) (a : BitVec 7) (x : Bool)
  | fsin (i : Bool) (d : BitVec 7) (a : BitVec 7) (x : Bool)
  | fcos (i : Bool) (d : BitVec 7) (a : BitVec 7) (x : Bool)
  | badd2 (i : Bool) (d : BitVec 7) (a : BitVec 7) (b : BitVec 7) (x : Bool) (y : Bool)
  | bmul2 (i : Bool) (d : BitVec 7) (a : BitVec 7) (b : BitVec 7) (x : Bool) (y : Bool)
  | bfma2 (i : Bool) (d : BitVec 7) (a : BitVec 7) (b : BitVec 7) (x : Bool) (y : Bool)
  | bmax2 (i : Bool) (d : BitVec 7) (a : BitVec 7) (b : BitVec 7) (x : Bool) (y : Bool)
  | hadd2 (i : Bool) (d : BitVec 7) (a : BitVec 7) (b : BitVec 7) (x : Bool) (y : Bool)
  | hmul2 (i : Bool) (d : BitVec 7) (a : BitVec 7) (b : BitVec 7) (x : Bool) (y : Bool)
  | hfma2 (i : Bool) (d : BitVec 7) (a : BitVec 7) (b : BitVec 7) (x : Bool) (y : Bool)
  | hmax2 (i : Bool) (d : BitVec 7) (a : BitVec 7) (b : BitVec 7) (x : Bool) (y : Bool)
  | dadd (i : Bool) (d : BitVec 7) (a : BitVec 7) (b : BitVec 7) (x : Bool) (y : Bool)
  | dmul (i : Bool) (d : BitVec 7) (a : BitVec 7) (b : BitVec 7) (x : Bool) (y : Bool)
  | dfma (i : Bool) (d : BitVec 7) (a : BitVec 7) (b : BitVec 7) (x : Bool) (y : Bool)
  | ddiv (i : Bool) (d : BitVec 7) (a : BitVec 7) (b : BitVec 7) (x : Bool) (y : Bool)
  | cvtFI (i : Bool) (d : BitVec 7) (a : BitVec 7) (x : Bool)
  | cvtFZ (i : Bool) (d : BitVec 7) (a : BitVec 7) (x : Bool)
  | cvtIF (i : Bool) (d : BitVec 7) (a : BitVec 7) (x : Bool)
  | cvtZF (i : Bool) (d : BitVec 7) (a : BitVec 7) (x : Bool)
  | cvtBfF (i : Bool) (d : BitVec 7) (a : BitVec 7) (x : Bool)
  | cvtHF (i : Bool) (d : BitVec 7) (a : BitVec 7) (x : Bool)
  | cvtFBf (i : Bool) (d : BitVec 7) (a : BitVec 7) (x : Bool)
  | cvtFH (i : Bool) (d : BitVec 7) (a : BitVec 7) (x : Bool)
  | cvtDF (i : Bool) (d : BitVec 7) (a : BitVec 7) (x : Bool)
  | cvtFD (i : Bool) (d : BitVec 7) (a : BitVec 7) (x : Bool)
  | cvtI8F (i : Bool) (d : BitVec 7) (a : BitVec 7) (x : Bool)
  | frnd (i : Bool) (d : BitVec 7) (a : BitVec 7) (x : Bool)
  | niq (i : Bool) (d : BitVec 7) (a : BitVec 7) (b : BitVec 7) (x : Bool) (y : Bool)
  | nidq (i : Bool) (d : BitVec 7) (a : BitVec 7) (b : BitVec 7) (x : Bool) (y : Bool)
  | sexp (i : Bool) (d : BitVec 7) (a : BitVec 7) (m : BitVec 7) (x : Bool)
  | nipl (i : Bool) (d : BitVec 7) (a : BitVec 7) (b : BitVec 7) (x : Bool) (y : Bool)
  | ld (t : BitVec 7) (a : BitVec 7) (l : BitVec 3) (z : BitVec 3) (o : BitVec 6)
  | st (t : BitVec 7) (a : BitVec 7) (l : BitVec 3) (z : BitVec 3) (o : BitVec 6)
  | ldxW (i : Bool) (d : BitVec 7) (a : BitVec 7) (b : BitVec 7) (x : Bool) (y : Bool)
  | ldxD (i : Bool) (d : BitVec 7) (a : BitVec 7) (b : BitVec 7) (x : Bool) (y : Bool)
  | stxW (i : Bool) (d : BitVec 7) (a : BitVec 7) (b : BitVec 7) (x : Bool) (y : Bool)
  | stxD (i : Bool) (d : BitVec 7) (a : BitVec 7) (b : BitVec 7) (x : Bool) (y : Bool)
  | atomAdd (s : BitVec 3) (d : BitVec 7) (a : BitVec 7) (b : BitVec 7)
  | atomMin (s : BitVec 3) (d : BitVec 7) (a : BitVec 7) (b : BitVec 7)
  | atomMax (s : BitVec 3) (d : BitVec 7) (a : BitVec 7) (b : BitVec 7)
  | atomAnd (s : BitVec 3) (d : BitVec 7) (a : BitVec 7) (b : BitVec 7)
  | atomOr (s : BitVec 3) (d : BitVec 7) (a : BitVec 7) (b : BitVec 7)
  | atomXor (s : BitVec 3) (d : BitVec 7) (a : BitVec 7) (b : BitVec 7)
  | atomMinu (s : BitVec 3) (d : BitVec 7) (a : BitVec 7) (b : BitVec 7)
  | atomMaxu (s : BitVec 3) (d : BitVec 7) (a : BitVec 7) (b : BitVec 7)
  | xchg (s : BitVec 3) (d : BitVec 7) (a : BitVec 7) (b : BitVec 7)
  | cas (s : BitVec 3) (d : BitVec 7) (a : BitVec 7) (b : BitVec 7)
  | xchgD (s : BitVec 3) (d : BitVec 7) (a : BitVec 7) (b : BitVec 7)
  | casD (s : BitVec 3) (d : BitVec 7) (a : BitVec 7) (b : BitVec 7)
  | redAdd (s : BitVec 3) (a : BitVec 7) (b : BitVec 7)
  | redMin (s : BitVec 3) (a : BitVec 7) (b : BitVec 7)
  | redMax (s : BitVec 3) (a : BitVec 7) (b : BitVec 7)
  | redOr (s : BitVec 3) (a : BitVec 7) (b : BitVec 7)
  | atomFadd (s : BitVec 3) (d : BitVec 7) (a : BitVec 7) (b : BitVec 7)
  | redFadd (s : BitVec 3) (a : BitVec 7) (b : BitVec 7)
  | redBfadd2 (s : BitVec 3) (a : BitVec 7) (b : BitVec 7)
  | atomAddD (s : BitVec 3) (d : BitVec 7) (a : BitVec 7) (b : BitVec 7)
  | bararr (i : Bool) (d : BitVec 7) (a : BitVec 7) (x : Bool)
  | barwait (i : Bool) (a : BitVec 7) (b : BitVec 7) (x : Bool) (y : Bool)
  | barsync (i : Bool) (a : BitVec 7) (x : Bool)
  | barexp (i : Bool) (d : BitVec 7) (a : BitVec 7) (b : BitVec 7) (x : Bool) (y : Bool)
  | barinit (i : Bool) (a : BitVec 7) (b : BitVec 7) (x : Bool) (y : Bool)
  | barinv (i : Bool) (a : BitVec 7) (x : Bool)
  | barqry (i : Bool) (d : BitVec 7) (a : BitVec 7) (x : Bool)
  | bartry (i : Bool) (p : BitVec 3) (a : BitVec 7) (b : BitVec 7) (x : Bool) (y : Bool)
  | fenceAcq (s : BitVec 3)
  | fenceRel (s : BitVec 3)
  | fenceAr (s : BitVec 3)
  | fenceSc (s : BitVec 3)
  | mon (s : BitVec 3) (a : BitVec 7)
  | mwait (d : BitVec 7)
  | swait (s : BitVec 3) (d : BitVec 7) (a : BitVec 7) (b : BitVec 7)
  | twait (i : Bool) (a : BitVec 7) (x : Bool)
  | cbatch (d : BitVec 7)
  | cwait (i : Bool) (a : BitVec 7) (x : Bool)
  | cpoll (i : Bool) (p : BitVec 3) (a : BitVec 7) (x : Bool)
  | cstamp (d : BitVec 7)
  | bra (k : BitVec 19)
  | brp (u : Bool) (n : Bool) (p : BitVec 3) (k : BitVec 19)
  | call (a : BitVec 7) (k : BitVec 19)
  | jpt (k : BitVec 19)
  | join
  | brkj (a : BitVec 7) (n : BitVec 4) (x : Bool)
  | exit
  | jmpr (a : BitVec 7) (x : Bool)
  | mma (d : BitVec 7) (a : BitVec 7) (b : BitVec 7)
  | mmaP (d : BitVec 7) (a : BitVec 7) (b : BitVec 7)
  | mmaZ (d : BitVec 7) (a : BitVec 7) (b : BitVec 7)
  | mmaPz (d : BitVec 7) (a : BitVec 7) (b : BitVec 7)
  | drain (d : BitVec 7) (a : BitVec 7)
  | mzero (d : BitVec 7)
  | mload (d : BitVec 7) (a : BitVec 7)
  | mwaita
  | copy (d : BitVec 7) (a : BitVec 7) (b : BitVec 7)
  | copyo (d : BitVec 7) (a : BitVec 7) (b : BitVec 7)
  | copyAt (d : BitVec 7) (a : BitVec 7) (b : BitVec 7)
  | gather (d : BitVec 7) (a : BitVec 7) (b : BitVec 7)
  | send (d : BitVec 7) (a : BitVec 7)
  | sendAt (d : BitVec 7) (a : BitVec 7)
  | rred (d : BitVec 7) (a : BitVec 7)
  | rbcast (d : BitVec 7) (a : BitVec 7)
  | tagrd (d : BitVec 7) (a : BitVec 7) (x : Bool)
  | tagwr (a : BitVec 7) (b : BitVec 7) (x : Bool) (y : Bool)
  | tagchk (a : BitVec 7) (b : BitVec 7) (x : Bool) (y : Bool)
  | mdisp (d : BitVec 7) (a : BitVec 7) (x : Bool)
  | task (a : BitVec 7) (b : BitVec 7)
  | tready (a : BitVec 7)
  | resid (i : Bool) (a : BitVec 7) (x : Bool)
  | gchk (p : BitVec 3)
  | enter (h : BitVec 2) (m : BitVec 7) (l : BitVec 7)
  | leave
  | bkpt
  | trace (i : Bool) (a : BitVec 7) (b : BitVec 7) (x : Bool) (y : Bool)
  | trap (n : BitVec 7)
  | srd (d : BitVec 7) (n : BitVec 7)
  | swr (n : BitVec 7) (b : BitVec 7) (y : Bool)
  | win (w : BitVec 5) (u : BitVec 2)
  | rdctr (i : Bool) (d : BitVec 7) (a : BitVec 7) (x : Bool)
  | ctrctl (i : Bool) (a : BitVec 7) (b : BitVec 7) (x : Bool) (y : Bool)
  | tick (d : BitVec 7)
  | yield
  | eret
  | imask (d : BitVec 7) (a : BitVec 7)
  | tlbir (a : BitVec 7)
  | tlbia (a : BitVec 7)
  | shoot (a : BitVec 7)
  | l1wb (a : BitVec 7)
  | l1inv (a : BitVec 7)
  | l2cln (a : BitVec 7)
  | haltb (d : BitVec 7) (a : BitVec 7)
  | ctxsv (a : BitVec 7)
  | ctxld (a : BitVec 7)
  | dumpw (a : BitVec 7)
  | racew
  | setmt (d : BitVec 7) (a : BitVec 7)
  | packageReset
  | timedActionFire
  | ucieRetrain
  | packageFatalEvent
  | patrolScrub
  | thermalTrip
  | hbmHotRefresh
  | throttleStepDown
  | throttleStepUp
  | creditLapse
  | fabricLaunch
  | bar2Read
  | bar2Write
  | hostAtomicop
  | heldAccessTimeout
  | registerWrite
  | fctlAbort
  | sqEnable
  | sqDoorbell
  | sqGeometryWrite
  | sqReset
  | commandFetch
  | fetchTimeout
  | nop
  | launchCommand
  | taskCommand
  | gslaunchCommand
  | queueCopy
  | writeval
  | waitval
  | waitvalTimeout
  | intr
  | functionLevelReset
  | attestRequest
  | attestDone
  | pctlCommit
  | pctlQuiesce
  | quiesceComplete
  | pctlResume
  | pclkBreak
  | vbBind
  | vbUnbind
  | vbFieldWrite
  | vbWindowWrite
  | pfbindEn
  | trRootWrite
  | sliceEnd
  | haltComplete
  | worldSwitchRestore
  | loadReturn
  | idleCollapse
  | colctlNow
  | wakeGo
  | wakeComplete
  | blockPlacement
  | placementWaitLimit
  | resourceReport
  | blockFree
  | pathPromotion
  | watchdogExpiry
  | dependencyTaskIssue
  | handlerTaskEntry
  | writeBackMerge
  | retrieverElement
  | monitorTimeout
  | migrationStart
  | migrationSwitch
  | migrationEnd
  | accessCountHalving
  | shootComplete
  | rebaseComplete
  | arrayMma
  | arrayDrain
  | arrayMzero
  | arrayMload
  | matrixRetire
  | engineCopy
  | engineCopyo
  | engineGather
  | byteCredit
  | copyCommandEnd
  | engineSend
  | engineRred
  | engineRbcast
  | packetHop
  | packetEject
  | ringCommandEnd
  | unitCommit
  | exactKernelEnd
  | routineEnd
  | dbgctlStopreq
  | dbgctlStopall
  | clkctlLock
  | counterSelect
  | counterHold
  | pcSample
  | traceForward
  | registerReadClear
  | hostSnoop
  | fabricFrameReceive
  | fabricLinkUp
  | hostLinkTrain
  | iterativePassResult
  | yieldEnd
  deriving DecidableEq, Repr

end Sys2Proof
end

