-- ==== Sys2Proof/Machine/Shape.lean ====
section
/-! DEFINITION. Sys2Proof/Machine/Shape.lean: the operands of every instruction (Tables 12.2, 12.7, 14.2, 16.2 and
16.8) and the encodings that raise ILLEGAL from their bits and xi (Table 12.8). -/
namespace Sys2Proof.Machine

/-- What a field may name besides the limits of Table 6.3. -/
inductive RKind where
  | any       -- any register
  | noQ       -- no queue register
  | noQL      -- no queue register and not lane (R420)
  | vec       -- a vector register (WRLANE, R331)
  | vecEven   -- an even vector register (CALL, R295)
  | uni       -- a uniform register (R394)
  | uniEven   -- an even uniform register (R394)
  deriving DecidableEq, Repr

/-- One register operand: the field, how many registers it takes, whether it is read and written, whether xi is
added to it (I bit, MOVX), its choice bit, and what it may name. -/
structure Use where
  r    : RField
  n    : Nat
  rd   : Bool
  wr   : Bool
  idx  : Bool
  trap : Bool
  kind : RKind
  deriving DecidableEq, Repr

/-- A source that blocks. -/
def Use.src (r : RField) : Use := ⟨r, 1, true, false, false, false, .any⟩
/-- A source with its choice bit and the I bit. -/
def Use.srcC (r : RField) (trap idx : Bool) : Use := ⟨r, 1, true, false, idx, trap, .any⟩
/-- A destination. -/
def Use.dst (r : RField) : Use := ⟨r, 1, false, true, false, false, .any⟩
/-- A source that is also the destination (MAD, BFI, the FMA forms, CAS). -/
def Use.both (r : RField) : Use := ⟨r, 1, true, true, false, false, .any⟩
/-- The same operand over `n` registers. -/
def Use.wide (u : Use) (n : Nat) : Use := { u with n := n }
/-- The same operand limited to a kind. -/
def Use.of (u : Use) (k : RKind) : Use := { u with kind := k }
/-- A group of `n` uniform registers, read. -/
def Use.group (r : RField) (n : Nat) : Use := ⟨r, n, true, false, false, false, .uni⟩
/-- A group of `n` uniform registers from an even field, read. -/
def Use.groupEven (r : RField) (n : Nat) : Use := ⟨r, n, true, false, false, false, .uniEven⟩

/-- Registers of the access of size code `sz` (Table 12.5). -/
def szRegs (sz : BitVec 3) : Nat :=
  if sz = 5#3 then 2 else if sz = 6#3 then 4 else 1

/-- Width of a system register, by number; none where Table 16.7 has no such number. -/
def sysWidth (n : Nat) : Option Nat :=
  if n = 0x00 ∨ (0x07 ≤ n ∧ n ≤ 0x0B) ∨ (0x20 ≤ n ∧ n ≤ 0x25) ∨ (0x31 ≤ n ∧ n ≤ 0x34) ∨ (0x36 ≤ n ∧ n ≤ 0x39)
  then some 64
  else if n ≤ 0x10 ∨ n = 0x30 ∨ n = 0x35 then some 32
  else none

/-- Registers an SRD or SWR of register `n` takes. -/
def sysRegs (n : BitVec 7) : Nat := if sysWidth n.toNat = some 64 then 2 else 1

/-- System registers that user mode may not touch (Table 16.7). -/
def sysPriv (n : Nat) : Bool := decide (0x20 ≤ n)
/-- System registers that no mode writes, and those only user mode may not write (Table 16.7). -/
def sysReadOnly (n : Nat) : Bool :=
  n == 0x00 || n == 0x03 || n == 0x05 || n == 0x06 || n == 0x07 || n == 0x08 || n == 0x09 || n == 0x0A || n == 0x0B
    || n == 0x0D || n == 0x0F

/-- The register operands of an instruction, in the order d, a, b (R164). -/
def Instr.uses : Instr → List Use
  | .add i d a b x y => [.dst d, .srcC a x i, .srcC b y false]
  | .sub i d a b x y => [.dst d, .srcC a x i, .srcC b y false]
  | .min i d a b x y => [.dst d, .srcC a x i, .srcC b y false]
  | .max i d a b x y => [.dst d, .srcC a x i, .srcC b y false]
  | .minu i d a b x y => [.dst d, .srcC a x i, .srcC b y false]
  | .maxu i d a b x y => [.dst d, .srcC a x i, .srcC b y false]
  | .absd i d a b x y => [.dst d, .srcC a x i, .srcC b y false]
  | .addsat i d a b x y => [.dst d, .srcC a x i, .srcC b y false]
  | .mul i d a b x y => [.dst d, .srcC a x i, .srcC b y false]
  | .mulh i d a b x y => [.dst d, .srcC a x i, .srcC b y false]
  | .mulhu i d a b x y => [.dst d, .srcC a x i, .srcC b y false]
  | .mad i d a b x y => [.both d, .srcC a x i, .srcC b y false]
  | .and i d a b x y => [.dst d, .srcC a x i, .srcC b y false]
  | .or i d a b x y => [.dst d, .srcC a x i, .srcC b y false]
  | .xor i d a b x y => [.dst d, .srcC a x i, .srcC b y false]
  | .andn i d a b x y => [.dst d, .srcC a x i, .srcC b y false]
  | .shl i d a b x y => [.dst d, .srcC a x i, .srcC b y false]
  | .shr i d a b x y => [.dst d, .srcC a x i, .srcC b y false]
  | .sha i d a b x y => [.dst d, .srcC a x i, .srcC b y false]
  | .rot i d a b x y => [.dst d, .srcC a x i, .srcC b y false]
  | .div i d a b x y => [.dst d, .srcC a x i, .srcC b y false]
  | .divu i d a b x y => [.dst d, .srcC a x i, .srcC b y false]
  | .rem i d a b x y => [.dst d, .srcC a x i, .srcC b y false]
  | .remu i d a b x y => [.dst d, .srcC a x i, .srcC b y false]
  | .clz i d a x => [.dst d, .srcC a x i]
  | .popc i d a x => [.dst d, .srcC a x i]
  | .brev i d a x => [.dst d, .srcC a x i]
  | .ffs i d a x => [.dst d, .srcC a x i]
  | .bfx i d a b x y => [.dst d, .srcC a x i, .srcC b y false]
  | .bfxz i d a b x y => [.dst d, .srcC a x i, .srcC b y false]
  | .bfi i d a b x y => [.both d, .srcC a x i, .srcC b y false]
  | .permb i d a b x y => [.dst d, .srcC a x i, .srcC b y false]
  | .addi d a x _ => [.dst d, .srcC a x false]
  | .muli d a x _ => [.dst d, .srcC a x false]
  | .andi d a x _ => [.dst d, .srcC a x false]
  | .ori d a x _ => [.dst d, .srcC a x false]
  | .xori d a x _ => [.dst d, .srcC a x false]
  | .shi d a x _ _ => [.dst d, .srcC a x false]
  | .cmpi _ _ a x _ => [.srcC a x false]
  | .lui d _ => [.dst d]
  | .cmp i _ _ a b x y => [.srcC a x i, .srcC b y false]
  | .fcmp i _ _ a b x y => [.srcC a x i, .srcC b y false]
  | .dcmp i _ _ a b x y => [(Use.srcC a x i).wide 2, (Use.srcC b y false).wide 2]
  | .fclass i _ a _ x => [.srcC a x i]
  | .sel i d a b x y _ => [.dst d, .srcC a x i, .srcC b y false]
  | .pand _ _ _ => []
  | .por _ _ _ => []
  | .pxor _ _ _ => []
  | .pandn _ _ _ => []
  | .ptov d _ => [.dst d]
  | .vtop i _ a x => [.srcC a x i]
  | .voteAny _ _ => []
  | .voteAll _ _ => []
  | .mov i d a x => [.dst d, .srcC a x i]
  | .movx d a x => [{ Use.dst d with idx := true }, .srcC a x false]
  | .ballot d _ b y => [.dst d, .srcC b y false]
  | .nlanes d => [.dst d]
  | .shflIdx i d a b x y => [.dst d, .srcC a x i, .srcC b y false]
  | .shflUp i d a b x y => [.dst d, .srcC a x i, .srcC b y false]
  | .shflDn i d a b x y => [.dst d, .srcC a x i, .srcC b y false]
  | .shflXor i d a b x y => [.dst d, .srcC a x i, .srcC b y false]
  | .elect _ => []
  | .firstl d => [.dst d]
  | .pack => []
  | .rdlane i d a b x y => [.dst d, .srcC a x i, .srcC b y false]
  | .bcast i d a b x y => [.dst d, .srcC a x i, .srcC b y false]
  | .wrlane i d a b x y => [(Use.dst d).of .vec, .srcC a x i, .srcC b y false]
  | .rdxAdd i d a x => [.dst d, .srcC a x i]
  | .rdxMax i d a x => [.dst d, .srcC a x i]
  | .rdxMin i d a x => [.dst d, .srcC a x i]
  | .rdxOr i d a x => [.dst d, .srcC a x i]
  | .rdxAnd i d a x => [.dst d, .srcC a x i]
  | .rdxFadd i d a x => [.dst d, .srcC a x i]
  | .fadd i d a b x y => [.dst d, .srcC a x i, .srcC b y false]
  | .fsub i d a b x y => [.dst d, .srcC a x i, .srcC b y false]
  | .fmul i d a b x y => [.dst d, .srcC a x i, .srcC b y false]
  | .ffma i d a b x y => [.both d, .srcC a x i, .srcC b y false]
  | .fmin i d a b x y => [.dst d, .srcC a x i, .srcC b y false]
  | .fmax i d a b x y => [.dst d, .srcC a x i, .srcC b y false]
  | .fcpys i d a b x y => [.dst d, .srcC a x i, .srcC b y false]
  | .fscale i d a b x y => [.dst d, .srcC a x i, .srcC b y false]
  | .fdiv i d a b x y => [.dst d, .srcC a x i, .srcC b y false]
  | .fsqrt i d a x => [.dst d, .srcC a x i]
  | .frcp i d a x => [.dst d, .srcC a x i]
  | .frsq i d a x => [.dst d, .srcC a x i]
  | .fexp2 i d a x => [.dst d, .srcC a x i]
  | .flog2 i d a x => [.dst d, .srcC a x i]
  | .fsin i d a x => [.dst d, .srcC a x i]
  | .fcos i d a x => [.dst d, .srcC a x i]
  | .badd2 i d a b x y => [.dst d, .srcC a x i, .srcC b y false]
  | .bmul2 i d a b x y => [.dst d, .srcC a x i, .srcC b y false]
  | .bfma2 i d a b x y => [.both d, .srcC a x i, .srcC b y false]
  | .bmax2 i d a b x y => [.dst d, .srcC a x i, .srcC b y false]
  | .hadd2 i d a b x y => [.dst d, .srcC a x i, .srcC b y false]
  | .hmul2 i d a b x y => [.dst d, .srcC a x i, .srcC b y false]
  | .hfma2 i d a b x y => [.both d, .srcC a x i, .srcC b y false]
  | .hmax2 i d a b x y => [.dst d, .srcC a x i, .srcC b y false]
  | .dadd i d a b x y => [(Use.dst d).wide 2, (Use.srcC a x i).wide 2, (Use.srcC b y false).wide 2]
  | .dmul i d a b x y => [(Use.dst d).wide 2, (Use.srcC a x i).wide 2, (Use.srcC b y false).wide 2]
  | .dfma i d a b x y => [(Use.both d).wide 2, (Use.srcC a x i).wide 2, (Use.srcC b y false).wide 2]
  | .ddiv i d a b x y => [(Use.dst d).wide 2, (Use.srcC a x i).wide 2, (Use.srcC b y false).wide 2]
  | .cvtFI i d a x => [.dst d, .srcC a x i]
  | .cvtFZ i d a x => [.dst d, .srcC a x i]
  | .cvtIF i d a x => [.dst d, .srcC a x i]
  | .cvtZF i d a x => [.dst d, .srcC a x i]
  | .cvtBfF i d a x => [.dst d, .srcC a x i]
  | .cvtHF i d a x => [.dst d, .srcC a x i]
  | .cvtFBf i d a x => [.dst d, .srcC a x i]
  | .cvtFH i d a x => [.dst d, .srcC a x i]
  | .cvtDF i d a x => [(Use.dst d).wide 2, .srcC a x i]
  | .cvtFD i d a x => [.dst d, (Use.srcC a x i).wide 2]
  | .cvtI8F i d a x => [.dst d, .srcC a x i]
  | .frnd i d a x => [.dst d, .srcC a x i]
  | .niq i d a b x y => [.dst d, .srcC a x i, .srcC b y false]
  | .nidq i d a b x y => [.dst d, .srcC a x i, .srcC b y false]
  | .sexp i d a _ x => [.dst d, .srcC a x i]
  | .nipl i d a b x y => [.dst d, .srcC a x i, .srcC b y false]
  | .ld t a _ z _ => [((Use.dst t).wide (szRegs z)).of .noQ, (Use.src a).wide 2]
  | .st t a _ z _ => [((Use.src t).wide (szRegs z)).of .noQ, (Use.src a).wide 2]
  | .ldxW i d a b x y => [.dst d, (Use.srcC a x i).wide 2, .srcC b y false]
  | .ldxD i d a b x y => [(Use.dst d).wide 2, (Use.srcC a x i).wide 2, .srcC b y false]
  | .stxW i d a b x y => [.src d, (Use.srcC a x i).wide 2, .srcC b y false]
  | .stxD i d a b x y => [(Use.src d).wide 2, (Use.srcC a x i).wide 2, .srcC b y false]
  | .atomAdd _ d a b => [.dst d, (Use.src a).wide 2, .src b]
  | .atomMin _ d a b => [.dst d, (Use.src a).wide 2, .src b]
  | .atomMax _ d a b => [.dst d, (Use.src a).wide 2, .src b]
  | .atomAnd _ d a b => [.dst d, (Use.src a).wide 2, .src b]
  | .atomOr _ d a b => [.dst d, (Use.src a).wide 2, .src b]
  | .atomXor _ d a b => [.dst d, (Use.src a).wide 2, .src b]
  | .atomMinu _ d a b => [.dst d, (Use.src a).wide 2, .src b]
  | .atomMaxu _ d a b => [.dst d, (Use.src a).wide 2, .src b]
  | .xchg _ d a b => [.dst d, (Use.src a).wide 2, .src b]
  | .cas _ d a b => [.both d, (Use.src a).wide 2, .src b]
  | .xchgD _ d a b => [(Use.dst d).wide 2, (Use.src a).wide 2, (Use.src b).wide 2]
  | .casD _ d a b => [(Use.both d).wide 2, (Use.src a).wide 2, (Use.src b).wide 2]
  | .redAdd _ a b => [(Use.src a).wide 2, .src b]
  | .redMin _ a b => [(Use.src a).wide 2, .src b]
  | .redMax _ a b => [(Use.src a).wide 2, .src b]
  | .redOr _ a b => [(Use.src a).wide 2, .src b]
  | .atomFadd _ d a b => [.dst d, (Use.src a).wide 2, .src b]
  | .redFadd _ a b => [(Use.src a).wide 2, .src b]
  | .redBfadd2 _ a b => [(Use.src a).wide 2, .src b]
  | .atomAddD _ d a b => [(Use.dst d).wide 2, (Use.src a).wide 2, (Use.src b).wide 2]
  | .bararr i d a x => [.dst d, .srcC a x i]
  | .barwait i a b x y => [.srcC a x i, .srcC b y false]
  | .barsync i a x => [.srcC a x i]
  | .barexp i d a b x y => [.dst d, .srcC a x i, .srcC b y false]
  | .barinit i a b x y => [.srcC a x i, .srcC b y false]
  | .barinv i a x => [.srcC a x i]
  | .barqry i d a x => [.dst d, .srcC a x i]
  | .bartry i _ a b x y => [.srcC a x i, .srcC b y false]
  | .fenceAcq _ => []
  | .fenceRel _ => []
  | .fenceAr _ => []
  | .fenceSc _ => []
  | .mon _ a => [(Use.src a).wide 2]
  | .mwait d => [(Use.dst d).wide 2]
  | .swait _ d a b => [(Use.dst d).wide 2, (Use.src a).wide 2, .src b]
  | .twait i a x => [(Use.srcC a x i).wide 2]
  | .cbatch d => [.dst d]
  | .cwait i a x => [.srcC a x i]
  | .cpoll i _ a x => [.srcC a x i]
  | .cstamp d => [.dst d]
  | .bra _ => []
  | .brp _ _ _ _ => []
  | .call a _ => [((Use.dst a).wide 2).of .vecEven]
  | .jpt _ => []
  | .join => []
  | .brkj a _ x => [(Use.srcC a x false).wide 2]
  | .exit => []
  | .jmpr a x => [(Use.srcC a x false).wide 2]
  | .mma d a b => [.groupEven d 2, .group a 1, .group b 1]
  | .mmaP d a b => [.groupEven d 2, .group a 1, .group b 1]
  | .mmaZ d a b => [.groupEven d 2, .group a 1, .group b 1]
  | .mmaPz d a b => [.groupEven d 2, .group a 1, .group b 1]
  | .drain d a => [.groupEven d 2, .group a 1]
  | .mzero d => [.groupEven d 2]
  | .mload d a => [.groupEven d 2, .group a 1]
  | .mwaita => []
  | .copy d a b => [(Use.dst d).of .noQ, .groupEven a 7, .groupEven b 4]
  | .copyo d a b => [(Use.dst d).of .noQ, .groupEven a 7, .groupEven b 4]
  | .copyAt d a b => [(Use.dst d).of .noQ, .groupEven a 10, .groupEven b 4]
  | .gather d a b => [(Use.dst d).of .noQ, .groupEven a 7, .groupEven b 4]
  | .send d a => [(Use.dst d).of .noQ, .groupEven a 7]
  | .sendAt d a => [(Use.dst d).of .noQ, .groupEven a 10]
  | .rred d a => [(Use.dst d).of .noQ, .groupEven a 7]
  | .rbcast d a => [(Use.dst d).of .noQ, .groupEven a 7]
  | .tagrd d a x => [(Use.dst d).of .noQ, (Use.srcC a x false).wide 2]
  | .tagwr a b x y => [(Use.srcC a x false).wide 2, .srcC b y false]
  | .tagchk a b x y => [(Use.srcC a x false).wide 2, .srcC b y false]
  | .mdisp d a x => [(Use.dst d).of .noQ, (Use.srcC a x false).wide 2]
  | .task a b => [.groupEven a 2, .groupEven b 1]
  | .tready a => [.group a 1]
  | .resid i a x => [.srcC a x i]
  | .gchk _ => []
  | .enter _ _ _ => []
  | .leave => []
  | .bkpt => []
  | .trace i a b x y => [.srcC a x i, .srcC b y false]
  | .trap _ => []
  | .srd d n => [((Use.dst d).wide (sysRegs n)).of .noQ]
  | .swr n b y => [((Use.srcC b y false).wide (sysRegs n)).of .noQ]
  | .win _ _ => []
  | .rdctr i d a x => [((Use.dst d).wide 2).of .noQ, (Use.srcC a x i).of .noQ]
  | .ctrctl i a b x y => [.srcC a x i, .srcC b y false]
  | .tick d => [((Use.dst d).wide 2).of .noQ]
  | .yield => []
  | .eret => []
  | .imask d a => [(Use.dst d).of .noQL, (Use.src a).of .noQL]
  | .tlbir a => [.groupEven a 5]
  | .tlbia a => [(Use.src a).of .noQL]
  | .shoot a => [.groupEven a 5]
  | .l1wb a => [(Use.src a).of .noQL]
  | .l1inv a => [(Use.src a).of .noQL]
  | .l2cln a => [.groupEven a 4]
  | .haltb d a => [(Use.dst d).of .noQL, .groupEven a 2]
  | .ctxsv a => [((Use.src a).wide 2).of .noQL]
  | .ctxld a => [((Use.src a).wide 2).of .noQL]
  | .dumpw a => [((Use.src a).wide 2).of .noQL]
  | .racew => []
  | .setmt d a => [(Use.dst d).of .noQL, .groupEven a 3]
  | .packageReset => []
  | .timedActionFire => []
  | .ucieRetrain => []
  | .packageFatalEvent => []
  | .patrolScrub => []
  | .thermalTrip => []
  | .hbmHotRefresh => []
  | .throttleStepDown => []
  | .throttleStepUp => []
  | .creditLapse => []
  | .fabricLaunch => []
  | .bar2Read => []
  | .bar2Write => []
  | .hostAtomicop => []
  | .heldAccessTimeout => []
  | .registerWrite => []
  | .fctlAbort => []
  | .sqEnable => []
  | .sqDoorbell => []
  | .sqGeometryWrite => []
  | .sqReset => []
  | .commandFetch => []
  | .fetchTimeout => []
  | .nop => []
  | .launchCommand => []
  | .taskCommand => []
  | .gslaunchCommand => []
  | .queueCopy => []
  | .writeval => []
  | .waitval => []
  | .waitvalTimeout => []
  | .intr => []
  | .functionLevelReset => []
  | .attestRequest => []
  | .attestDone => []
  | .pctlCommit => []
  | .pctlQuiesce => []
  | .quiesceComplete => []
  | .pctlResume => []
  | .pclkBreak => []
  | .vbBind => []
  | .vbUnbind => []
  | .vbFieldWrite => []
  | .vbWindowWrite => []
  | .pfbindEn => []
  | .trRootWrite => []
  | .sliceEnd => []
  | .haltComplete => []
  | .worldSwitchRestore => []
  | .loadReturn => []
  | .idleCollapse => []
  | .colctlNow => []
  | .wakeGo => []
  | .wakeComplete => []
  | .blockPlacement => []
  | .placementWaitLimit => []
  | .resourceReport => []
  | .blockFree => []
  | .pathPromotion => []
  | .watchdogExpiry => []
  | .dependencyTaskIssue => []
  | .handlerTaskEntry => []
  | .writeBackMerge => []
  | .retrieverElement => []
  | .monitorTimeout => []
  | .migrationStart => []
  | .migrationSwitch => []
  | .migrationEnd => []
  | .accessCountHalving => []
  | .shootComplete => []
  | .rebaseComplete => []
  | .arrayMma => []
  | .arrayDrain => []
  | .arrayMzero => []
  | .arrayMload => []
  | .matrixRetire => []
  | .engineCopy => []
  | .engineCopyo => []
  | .engineGather => []
  | .byteCredit => []
  | .copyCommandEnd => []
  | .engineSend => []
  | .engineRred => []
  | .engineRbcast => []
  | .packetHop => []
  | .packetEject => []
  | .ringCommandEnd => []
  | .unitCommit => []
  | .exactKernelEnd => []
  | .routineEnd => []
  | .dbgctlStopreq => []
  | .dbgctlStopall => []
  | .clkctlLock => []
  | .counterSelect => []
  | .counterHold => []
  | .pcSample => []
  | .traceForward => []
  | .registerReadClear => []
  | .hostSnoop => []
  | .fabricFrameReceive => []
  | .fabricLinkUp => []
  | .hostLinkTrain => []
  | .iterativePassResult => []
  | .yieldEnd => []

/-- Scope codes (Table 12.3): I = 1 only with ea = eb = 1. -/
def scopeLegal (s : BitVec 3) : Bool := s.toNat < 4 || s == 7#3
/-- Conditions of CMP and CMPI, and of FCMP and DCMP (Table 12.4). -/
def intCond (c : BitVec 4) : Bool := c.toNat ≤ 9
def floatCond (c : BitVec 4) : Bool := c.toNat ≤ 5 || c == 10#4 || c == 11#4
/-- Labels, sizes and scopes of LD and ST (R177, R178, Table 12.5). -/
def lblScope (l : BitVec 3) (o : BitVec 6) : Bool := l == 0#3 || (o.extractLsb' 3 3).toNat ≤ 4
def ldLegal (l z : BitVec 3) (o : BitVec 6) : Bool :=
  (l == 0#3 || l == 1#3 || l == 5#3) && z != 7#3 && lblScope l o
def stLegal (l z : BitVec 3) (o : BitVec 6) : Bool :=
  (l == 0#3 || l == 2#3 || l == 5#3) && z != 7#3 && z != 1#3 && z != 3#3 && lblScope l o
/-- SEXP's literal: G in [2:0] up to 5, S in [6:3] from 2 to 8 (R392). -/
def sexpLegal (m : BitVec 7) : Bool :=
  (m.extractLsb' 0 3).toNat ≤ 5 && 2 ≤ (m.extractLsb' 3 4).toNat && (m.extractLsb' 3 4).toNat ≤ 8

/-- The limits of Table 12.8 on what is no register field. -/
def Instr.literalsLegal : Instr → Bool
  | .add _ _ _ _ _ _ => true
  | .sub _ _ _ _ _ _ => true
  | .min _ _ _ _ _ _ => true
  | .max _ _ _ _ _ _ => true
  | .minu _ _ _ _ _ _ => true
  | .maxu _ _ _ _ _ _ => true
  | .absd _ _ _ _ _ _ => true
  | .addsat _ _ _ _ _ _ => true
  | .mul _ _ _ _ _ _ => true
  | .mulh _ _ _ _ _ _ => true
  | .mulhu _ _ _ _ _ _ => true
  | .mad _ _ _ _ _ _ => true
  | .and _ _ _ _ _ _ => true
  | .or _ _ _ _ _ _ => true
  | .xor _ _ _ _ _ _ => true
  | .andn _ _ _ _ _ _ => true
  | .shl _ _ _ _ _ _ => true
  | .shr _ _ _ _ _ _ => true
  | .sha _ _ _ _ _ _ => true
  | .rot _ _ _ _ _ _ => true
  | .div _ _ _ _ _ _ => true
  | .divu _ _ _ _ _ _ => true
  | .rem _ _ _ _ _ _ => true
  | .remu _ _ _ _ _ _ => true
  | .clz _ _ _ _ => true
  | .popc _ _ _ _ => true
  | .brev _ _ _ _ => true
  | .ffs _ _ _ _ => true
  | .bfx _ _ _ _ _ _ => true
  | .bfxz _ _ _ _ _ _ => true
  | .bfi _ _ _ _ _ _ => true
  | .permb _ _ _ _ _ _ => true
  | .addi _ _ _ _ => true
  | .muli _ _ _ _ => true
  | .andi _ _ _ _ => true
  | .ori _ _ _ _ => true
  | .xori _ _ _ _ => true
  | .shi _ _ _ _ _ => true
  | .cmpi c _ _ _ _ => intCond c
  | .lui _ _ => true
  | .cmp _ c _ _ _ _ _ => intCond c
  | .fcmp _ c _ _ _ _ _ => floatCond c
  | .dcmp _ c _ _ _ _ _ => floatCond c
  | .fclass _ _ _ _ _ => true
  | .sel _ _ _ _ _ _ _ => true
  | .pand _ _ _ => true
  | .por _ _ _ => true
  | .pxor _ _ _ => true
  | .pandn _ _ _ => true
  | .ptov _ _ => true
  | .vtop _ _ _ _ => true
  | .voteAny _ _ => true
  | .voteAll _ _ => true
  | .mov _ _ _ _ => true
  | .movx _ _ _ => true
  | .ballot _ _ _ _ => true
  | .nlanes _ => true
  | .shflIdx _ _ _ _ _ _ => true
  | .shflUp _ _ _ _ _ _ => true
  | .shflDn _ _ _ _ _ _ => true
  | .shflXor _ _ _ _ _ _ => true
  | .elect _ => true
  | .firstl _ => true
  | .pack => true
  | .rdlane _ _ _ _ _ _ => true
  | .bcast _ _ _ _ _ _ => true
  | .wrlane _ _ _ _ _ _ => true
  | .rdxAdd _ _ _ _ => true
  | .rdxMax _ _ _ _ => true
  | .rdxMin _ _ _ _ => true
  | .rdxOr _ _ _ _ => true
  | .rdxAnd _ _ _ _ => true
  | .rdxFadd _ _ _ _ => true
  | .fadd _ _ _ _ _ _ => true
  | .fsub _ _ _ _ _ _ => true
  | .fmul _ _ _ _ _ _ => true
  | .ffma _ _ _ _ _ _ => true
  | .fmin _ _ _ _ _ _ => true
  | .fmax _ _ _ _ _ _ => true
  | .fcpys _ _ _ _ _ _ => true
  | .fscale _ _ _ _ _ _ => true
  | .fdiv _ _ _ _ _ _ => true
  | .fsqrt _ _ _ _ => true
  | .frcp _ _ _ _ => true
  | .frsq _ _ _ _ => true
  | .fexp2 _ _ _ _ => true
  | .flog2 _ _ _ _ => true
  | .fsin _ _ _ _ => true
  | .fcos _ _ _ _ => true
  | .badd2 _ _ _ _ _ _ => true
  | .bmul2 _ _ _ _ _ _ => true
  | .bfma2 _ _ _ _ _ _ => true
  | .bmax2 _ _ _ _ _ _ => true
  | .hadd2 _ _ _ _ _ _ => true
  | .hmul2 _ _ _ _ _ _ => true
  | .hfma2 _ _ _ _ _ _ => true
  | .hmax2 _ _ _ _ _ _ => true
  | .dadd _ _ _ _ _ _ => true
  | .dmul _ _ _ _ _ _ => true
  | .dfma _ _ _ _ _ _ => true
  | .ddiv _ _ _ _ _ _ => true
  | .cvtFI _ _ _ _ => true
  | .cvtFZ _ _ _ _ => true
  | .cvtIF _ _ _ _ => true
  | .cvtZF _ _ _ _ => true
  | .cvtBfF _ _ _ _ => true
  | .cvtHF _ _ _ _ => true
  | .cvtFBf _ _ _ _ => true
  | .cvtFH _ _ _ _ => true
  | .cvtDF _ _ _ _ => true
  | .cvtFD _ _ _ _ => true
  | .cvtI8F _ _ _ _ => true
  | .frnd _ _ _ _ => true
  | .niq _ _ _ _ _ _ => true
  | .nidq _ _ _ _ _ _ => true
  | .sexp _ _ _ m _ => sexpLegal m
  | .nipl _ _ _ _ _ _ => true
  | .ld _ _ l z o => ldLegal l z o
  | .st _ _ l z o => stLegal l z o
  | .ldxW _ _ _ _ _ _ => true
  | .ldxD _ _ _ _ _ _ => true
  | .stxW _ _ _ _ _ _ => true
  | .stxD _ _ _ _ _ _ => true
  | .atomAdd s _ _ _ => scopeLegal s
  | .atomMin s _ _ _ => scopeLegal s
  | .atomMax s _ _ _ => scopeLegal s
  | .atomAnd s _ _ _ => scopeLegal s
  | .atomOr s _ _ _ => scopeLegal s
  | .atomXor s _ _ _ => scopeLegal s
  | .atomMinu s _ _ _ => scopeLegal s
  | .atomMaxu s _ _ _ => scopeLegal s
  | .xchg s _ _ _ => scopeLegal s
  | .cas s _ _ _ => scopeLegal s
  | .xchgD s _ _ _ => scopeLegal s
  | .casD s _ _ _ => scopeLegal s
  | .redAdd s _ _ => scopeLegal s
  | .redMin s _ _ => scopeLegal s
  | .redMax s _ _ => scopeLegal s
  | .redOr s _ _ => scopeLegal s
  | .atomFadd s _ _ _ => scopeLegal s
  | .redFadd s _ _ => scopeLegal s
  | .redBfadd2 s _ _ => scopeLegal s
  | .atomAddD s _ _ _ => scopeLegal s
  | .bararr _ _ _ _ => true
  | .barwait _ _ _ _ _ => true
  | .barsync _ _ _ => true
  | .barexp _ _ _ _ _ _ => true
  | .barinit _ _ _ _ _ => true
  | .barinv _ _ _ => true
  | .barqry _ _ _ _ => true
  | .bartry _ _ _ _ _ _ => true
  | .fenceAcq s => scopeLegal s
  | .fenceRel s => scopeLegal s
  | .fenceAr s => scopeLegal s
  | .fenceSc s => scopeLegal s
  | .mon s _ => scopeLegal s
  | .mwait _ => true
  | .swait s _ _ _ => scopeLegal s
  | .twait _ _ _ => true
  | .cbatch _ => true
  | .cwait _ _ _ => true
  | .cpoll _ _ _ _ => true
  | .cstamp _ => true
  | .bra _ => true
  | .brp _ _ _ _ => true
  | .call _ _ => true
  | .jpt _ => true
  | .join => true
  | .brkj _ n _ => n != 0#4
  | .exit => true
  | .jmpr _ _ => true
  | .mma _ _ _ => true
  | .mmaP _ _ _ => true
  | .mmaZ _ _ _ => true
  | .mmaPz _ _ _ => true
  | .drain _ _ => true
  | .mzero _ => true
  | .mload _ _ => true
  | .mwaita => true
  | .copy _ _ _ => true
  | .copyo _ _ _ => true
  | .copyAt _ _ _ => true
  | .gather _ _ _ => true
  | .send _ _ => true
  | .sendAt _ _ => true
  | .rred _ _ => true
  | .rbcast _ _ => true
  | .tagrd _ _ _ => true
  | .tagwr _ _ _ _ => true
  | .tagchk _ _ _ _ => true
  | .mdisp _ _ _ => true
  | .task _ _ => true
  | .tready _ => true
  | .resid _ _ _ => true
  | .gchk _ => true
  | .enter _ _ _ => true
  | .leave => true
  | .bkpt => true
  | .trace _ _ _ _ _ => true
  | .trap _ => true
  | .srd _ n => (sysWidth n.toNat).isSome
  | .swr n _ _ => (sysWidth n.toNat).isSome
  | .win _ _ => true
  | .rdctr _ _ _ _ => true
  | .ctrctl _ _ _ _ _ => true
  | .tick _ => true
  | .yield => true
  | .eret => true
  | .imask _ _ => true
  | .tlbir _ => true
  | .tlbia _ => true
  | .shoot _ => true
  | .l1wb _ => true
  | .l1inv _ => true
  | .l2cln _ => true
  | .haltb _ _ => true
  | .ctxsv _ => true
  | .ctxld _ => true
  | .dumpw _ => true
  | .racew => true
  | .setmt _ _ => true
  | .packageReset => true
  | .timedActionFire => true
  | .ucieRetrain => true
  | .packageFatalEvent => true
  | .patrolScrub => true
  | .thermalTrip => true
  | .hbmHotRefresh => true
  | .throttleStepDown => true
  | .throttleStepUp => true
  | .creditLapse => true
  | .fabricLaunch => true
  | .bar2Read => true
  | .bar2Write => true
  | .hostAtomicop => true
  | .heldAccessTimeout => true
  | .registerWrite => true
  | .fctlAbort => true
  | .sqEnable => true
  | .sqDoorbell => true
  | .sqGeometryWrite => true
  | .sqReset => true
  | .commandFetch => true
  | .fetchTimeout => true
  | .nop => true
  | .launchCommand => true
  | .taskCommand => true
  | .gslaunchCommand => true
  | .queueCopy => true
  | .writeval => true
  | .waitval => true
  | .waitvalTimeout => true
  | .intr => true
  | .functionLevelReset => true
  | .attestRequest => true
  | .attestDone => true
  | .pctlCommit => true
  | .pctlQuiesce => true
  | .quiesceComplete => true
  | .pctlResume => true
  | .pclkBreak => true
  | .vbBind => true
  | .vbUnbind => true
  | .vbFieldWrite => true
  | .vbWindowWrite => true
  | .pfbindEn => true
  | .trRootWrite => true
  | .sliceEnd => true
  | .haltComplete => true
  | .worldSwitchRestore => true
  | .loadReturn => true
  | .idleCollapse => true
  | .colctlNow => true
  | .wakeGo => true
  | .wakeComplete => true
  | .blockPlacement => true
  | .placementWaitLimit => true
  | .resourceReport => true
  | .blockFree => true
  | .pathPromotion => true
  | .watchdogExpiry => true
  | .dependencyTaskIssue => true
  | .handlerTaskEntry => true
  | .writeBackMerge => true
  | .retrieverElement => true
  | .monitorTimeout => true
  | .migrationStart => true
  | .migrationSwitch => true
  | .migrationEnd => true
  | .accessCountHalving => true
  | .shootComplete => true
  | .rebaseComplete => true
  | .arrayMma => true
  | .arrayDrain => true
  | .arrayMzero => true
  | .arrayMload => true
  | .matrixRetire => true
  | .engineCopy => true
  | .engineCopyo => true
  | .engineGather => true
  | .byteCredit => true
  | .copyCommandEnd => true
  | .engineSend => true
  | .engineRred => true
  | .engineRbcast => true
  | .packetHop => true
  | .packetEject => true
  | .ringCommandEnd => true
  | .unitCommit => true
  | .exactKernelEnd => true
  | .routineEnd => true
  | .dbgctlStopreq => true
  | .dbgctlStopall => true
  | .clkctlLock => true
  | .counterSelect => true
  | .counterHold => true
  | .pcSample => true
  | .traceForward => true
  | .registerReadClear => true
  | .hostSnoop => true
  | .fabricFrameReceive => true
  | .fabricLinkUp => true
  | .hostLinkTrain => true
  | .iterativePassResult => true
  | .yieldEnd => true

/-- Is `m` aligned for an operand of `n` registers (R159)? -/
def alignedFor (n m : Nat) : Bool :=
  if n = 2 then m % 2 = 0 else if n = 4 then m % 4 = 0 else true

/-- May the kind name field value `v`? -/
def RKind.allows : RKind → Nat → Bool
  | .any, _ => true
  | .noQ, v => v < 120 || 126 ≤ v
  | .noQL, v => v < 120 || v == 126
  | .vec, v => v < 96
  | .vecEven, v => v < 96 && v % 2 == 0
  | .uni, v => 96 ≤ v && v < 120
  | .uniEven, v => 96 ≤ v && v < 120 && v % 2 == 0

/-- Is a register operand legal, with index register `xi` (Table 6.3, R159, R162)? -/
def Use.legal (xi : Nat) (u : Use) : Bool :=
  let v := u.r.toNat
  let x := if u.idx then xi else 0
  u.kind.allows v &&
  (if v < 96 then alignedFor u.n (v + x)
   else if v < 120 then (u.kind == .uni || u.kind == .uniEven || alignedFor u.n (v - 96 + x))
   else if v < 126 then u.n == 1 && !u.idx && (!u.rd || v % 2 == 1) && (!u.wr || v % 2 == 0)
   else if v = 126 then !u.idx
   else u.n == 1 && !u.idx && !u.wr)

/-- Is an instruction one that does not raise ILLEGAL from its bits and xi (Table 12.8)? -/
def Instr.legal (xi : Nat) (i : Instr) : Bool := Instr.literalsLegal i && (Instr.uses i).all (Use.legal xi)

/-- Sub-operations of major 0x3F: handler mode only (R420). -/
def Instr.handlerOnly : Instr → Bool
  | .eret | .imask _ _ | .tlbir _ | .tlbia _ | .shoot _ | .l1wb _ | .l1inv _ | .l2cln _ | .haltb _ _ | .ctxsv _
  | .ctxld _ | .dumpw _ | .racew | .setmt _ _ => true
  | _ => false

end Sys2Proof.Machine
end

