-- ==== Sys2Proof/Machine/Tab.lean ====
section
/-! DEFINITION. Sys2Proof/Machine/Tab.lean: finite tables as lists with strictly rising keys, and the canonical form
of memory: no entry equal to what an unlisted key reads as. -/
namespace Sys2Proof.Machine

/-- A finite table. -/
abbrev Tab (α : Type) := List (Nat × α)

namespace Tab

variable {α : Type}

/-- The entry of key `k`. -/
def find? : Tab α → Nat → Option α
  | [], _ => none
  | (j, v) :: t, k => if j = k then some v else find? t k

/-- The entry of key `k`, or `d` where there is none. -/
def getD (t : Tab α) (k : Nat) (d : α) : α :=
  match find? t k with
  | some v => v
  | none => d

/-- Is there an entry of key `k`? -/
def has (t : Tab α) (k : Nat) : Bool := (find? t k).isSome

/-- Put `v` at key `k`, in order, in place of any entry of `k`. -/
def put : Tab α → Nat → α → Tab α
  | [], k, v => [(k, v)]
  | (j, w) :: t, k, v =>
    if k < j then (k, v) :: (j, w) :: t
    else if k = j then (k, v) :: t
    else (j, w) :: put t k v

/-- Remove every entry of key `k`. -/
def del : Tab α → Nat → Tab α
  | [], _ => []
  | (j, w) :: t, k => if j = k then del t k else (j, w) :: del t k

/-- Put `v` at key `k`, where an unlisted key reads as `d`: storing `d` removes the entry. -/
def store [DecidableEq α] (d : α) (t : Tab α) (k : Nat) (v : α) : Tab α :=
  if v = d then del t k else put t k v

/-- Change the entry of key `k`, if there is one. -/
def modify (t : Tab α) (k : Nat) (f : α → α) : Tab α :=
  match find? t k with
  | some v => put t k (f v)
  | none => t

/-- Change every entry. -/
def mapVals (f : Nat → α → α) : Tab α → Tab α
  | [] => []
  | (j, v) :: t => (j, f j v) :: mapVals f t

/-- Keep the entries that meet `p`. -/
def keep (p : Nat → α → Bool) : Tab α → Tab α
  | [] => []
  | (j, v) :: t => if p j v then (j, v) :: keep p t else keep p t

/-- The keys, rising. -/
def keys : Tab α → List Nat
  | [] => []
  | (j, _) :: t => j :: keys t

/-- Every key of `t` exceeds `b`, and keys rise strictly. -/
def above : Nat → Tab α → Bool
  | _, [] => true
  | b, (j, _) :: t => decide (b < j) && above j t

/-- Keys rise strictly. -/
def rising : Tab α → Bool
  | [] => true
  | (j, _) :: t => above j t

/-- The canonical form where an unlisted key reads as `d`. -/
def wf [DecidableEq α] (d : α) (t : Tab α) : Bool := rising t && t.all fun e => decide (e.2 ≠ d)

/-- Elementwise maximum of two tables of intervals, an unlisted entry being 0. -/
def maxMerge (t : Tab Nat) : Tab Nat → Tab Nat
  | [] => t
  | (j, v) :: u => maxMerge (if getD t j 0 < v then put t j v else t) u

end Tab
end Sys2Proof.Machine
end

