-- ==== Sys2Proof/Machine/State.lean ====
section
/-! DEFINITION. Sys2Proof/Machine/State.lean: everything the spec gives the Yutal 3160 package, as plain data,
with the reasons a step can stop and the state right after reset. INVENTORY.md lists every field with its rule. -/
namespace Sys2Proof.Machine

/-! ## Small kinds -/

/-- Scope of a release, acquire, atomic or engine command (R179, Table 12.3). -/
inductive Scope where | warp | block | cluster | device | system
  deriving DecidableEq, Repr

/-- Class of an access in a mark record (Table 8.3); `eng` is the engine class 5. -/
inductive Cls where | data | flg | cnt | red | xch | eng
  deriving DecidableEq, Repr

/-- State of an HBM channel (R19). -/
inductive ChanState where | active | powerDown | selfRefresh
  deriving DecidableEq, Repr

/-- COLSTAT.STATE (Table 3.8). -/
inductive ColState where | active | collapsing | collapsed | waking
  deriving DecidableEq, Repr

/-- User mode or handler mode (R413). -/
inductive Mode where | user | handler
  deriving DecidableEq, Repr

/-- The three engines of a core, by queue (q0, q2, q4), in the KIND order of Table 5.4. -/
inductive EngKind where | matrix | copy | ring
  deriving DecidableEq, Repr

/-- Where an access lands after decoding and translation (R169 to R171). -/
inductive Loc where
  | scr (core off : Nat)     -- scratchpad byte of a core
  | alias_ (off : Nat)       -- the block's barrier alias (R363)
  | mem (pa : Nat)           -- HBM, peer or host memory, by physical address
  deriving DecidableEq, Repr

/-! ## Race marks, release records -/

/-- A mark record (Table 8.3), with the program counter kept under RC.PCREC (R215). -/
structure Mark where
  party : BitVec 20
  intv  : Nat
  cls   : Cls
  w     : Bool
  pc    : Option (BitVec 32)
  deriving DecidableEq, Repr

/-- The marks of one 4-byte word (R210): its writer record and its others. -/
structure WordMarks where
  writer : Option Mark
  others : List Mark
  deriving DecidableEq, Repr

/-- Spare-bit form of a line's marks outside L2 (Table 8.4). -/
inductive SpareForm where | none | compact | pointer
  deriving DecidableEq, Repr

/-- A release record (Table 8.6): a frontier snapshot, the releaser's slot and generation with its intra row
(absent when ROW is not valid), its scope and its cluster. -/
structure RelRec where
  fn      : Nat
  snap    : Tab Nat
  row     : Option (Nat × Nat)
  intra   : Tab Nat
  scope   : Scope
  block   : Nat
  gen     : Nat                     -- generation of that block
  cluster : Nat
  recycled : Bool                 -- its pool record was recycled: an acquire merges the retired record (R220)
  deriving DecidableEq, Repr

/-! ## Traps -/

/-- A trap to be taken: TRAPC with its detail, TRAPPC, TRAPA, TRAPO and RACEOPC (R301, Table 8.9). -/
structure Trap where
  c   : BitVec 64
  pc  : BitVec 64
  a   : BitVec 64
  o   : BitVec 64
  opc : BitVec 64
  deriving DecidableEq, Repr

/-- An undelivered failure of an engine command (R254): its sequence number, where its stamp lies, the trap it stands
for. -/
structure Failure where
  seq   : Nat
  stamp : Option Loc
  trap  : Trap
  deriving DecidableEq, Repr

/-! ## Paths and warps -/

/-- Lanes of a warp: bit n is lane n (R145); the row summary and row masks are read from it. -/
abbrev Mask := BitVec 1024

/-- A join-stack entry (R149): `defer none` is a JOIN entry (t, m); `some pc` a DEFER entry (t, pc, n). -/
structure JEntry where
  t     : BitVec 64
  defer : Option (BitVec 64)
  m     : Mask
  deriving DecidableEq, Repr

/-- A path's monitor (R370, R371). -/
structure Monitor where
  va    : BitVec 64
  loc   : Loc
  scope : Scope
  armed : Bool
  trig  : Bool
  since : Nat
  deriving DecidableEq, Repr

/-- Words that an instruction held midway has still to push, with RMODE and NBV as its first pass sampled them (R166, R233). -/
structure Pushing where
  kind  : EngKind
  words : List (BitVec 32)
  rmode : BitVec 32
  nbv   : BitVec 32
  deriving DecidableEq, Repr

/-- One path of a warp (R148 to R153) with what it waits for. -/
structure Path where
  live     : Bool
  pc       : BitVec 64
  mask     : Mask
  stack    : List JEntry          -- top first
  base     : Nat
  atJoin   : Bool                 -- waits at the split join
  stall    : Nat                  -- Table 11.3, as it last stood
  resume   : BitVec 32            -- resume-row mask (R76 step 2): rows of the instruction at pc not yet issued; 0 for a fresh one
  later    : BitVec 32            -- rows that the issue under way leaves to a later pass (R146, R311)
  packed   : Bool
  mon      : Option Monitor
  barTok   : Option (BitVec 32 × Nat) -- BARSYNC after its arrival: barrier word and token (Table 14.3)
  barOn    : Option (Nat × Nat)   -- the barrier it is blocked on: holding block and index (R365)
  yieldTo  : Option Nat           -- YIELD: the cycle at which it may issue again
  wakeAt   : Option Nat           -- TWAIT: the tick it waits for
  ticket   : Option (Nat × List Nat) -- since when it waits for `stall`, as a number, and for what (R189, R450)
  hold     : Option Nat           -- the operation in flight that holds every later instruction (R160, R352)
  pushing  : Option Pushing       -- what a held instruction has still to push (R166)
  suppress : Option (BitVec 64)   -- instruction for which breakpoints and watchpoints are suppressed (R275)
  waiver   : Option (BitVec 64)   -- RACEW: address whose next execution is waived (R226)
  ready    : Nat                  -- counted ready cycles without issue (R138)
  promoted : Bool
  count    : Nat                  -- instructions since the last progress event (R157)
  fresh    : Bool                 -- the instruction it is issuing was itself a progress event
  deriving DecidableEq, Repr

/-- Staging buffer, token queue and failure of one engine queue of a warp (R166, R167, R254). -/
structure WarpQueue where
  staging : List (BitVec 32)          -- oldest first
  tokens  : List (BitVec 32 × RelRec) -- token and the release it carries (R253), oldest first
  reserved : Nat                      -- token places reserved by commands in flight (R252)
  failure : Option Failure            -- undelivered failure (R254)
  deriving DecidableEq, Repr

/-- The trap frame of R413: the paths and the split join as they stood, and TRAPPC at the entry (`orig`). -/
structure Frame where
  p0    : Path
  p1    : Path
  split : Option (BitVec 64 × Mask)
  trapPath : Bool
  orig  : BitVec 64
  deriving DecidableEq, Repr

/-- A warp (R142 to R168) with its registers and system registers. -/
structure Warp where
  -- shape, fixed at placement (Table 6.1)
  k       : Nat
  role    : Bool                 -- true: producer
  vallot  : Nat
  uwin    : Nat
  ctx     : Nat                  -- warp context 0 to 31 (R121)
  vrBase  : Nat                  -- register-file allocation, KiB offset (R124)
  vrSize  : Nat
  -- registers
  vregs   : Tab (BitVec 32)      -- key 1024 * register + lane, zero when unlisted
  empty   : List Nat             -- keys of empty registers, rising (R163)
  uregs   : Tab (BitVec 32)      -- w0 to w95
  preds   : Tab Mask             -- p1 to p7, lane masks
  xi      : BitVec 8
  wbase   : Nat
  ubase   : Nat
  -- control
  p0      : Path
  p1      : Path
  split   : Option (BitVec 64 × Mask)    -- split join (t, m), present while the warp has two paths
  exited  : Mask
  done    : Bool                         -- the warp has exited
  mode    : Mode
  frame   : Option Frame
  held    : Option (Trap × Bool)         -- trap waiting for IMASK bit 0, with the trapping path (R413)
  owed    : List Trap                    -- failed table entries to be taken before the next instruction (R449)
  stopped : Bool                         -- halted by HALTB, DUMPW or a killed function
  replayFirst : List Nat                 -- replay packets to reissue first, oldest first (R77)
  progressAt : Nat                       -- cycle of the last progress event (R157)
  -- numeric and engine control
  rmode   : BitVec 32
  nbv     : BitVec 32
  chint   : BitVec 32
  ehdr    : BitVec 32
  -- trap and debug registers (Table 16.7)
  trapc   : BitVec 64
  trappc  : BitVec 64
  trapa   : BitVec 64
  trapo   : BitVec 64
  raceopc : BitVec 64
  bpctl   : BitVec 32
  bpaddr  : Tab (BitVec 64)
  wpctl   : BitVec 32
  wpaddr  : Tab (BitVec 64)
  region  : List (BitVec 16)             -- top first (R272)
  lost    : Nat
  -- engines
  q0      : WarpQueue
  q2      : WarpQueue
  q4      : WarpQueue
  seq     : Nat                          -- q2 and q4 commands pushed (R252)
  mseq    : Nat                          -- q0 commands pushed and not yet retired
  batch   : Nat                          -- last closed batch number (R375)
  batchOf : Tab Nat                      -- sequence number to batch number; the open batch is batch + 1
  acqDone : List (Nat × Scope × RelRec)  -- completed commands' releases, by sequence number, for CWAIT (R222)
  macqDone : List (Scope × RelRec)       -- retired matrix commands' releases, for MWAITA (R400)
  -- synchronisation per lane
  pend    : Tab Scope                    -- pending release of a lane (R360)
  sync    : Tab (List RelRec)            -- records that the value of the lane's last flag access came with (R182)
  deriving DecidableEq, Repr

/-! ## Blocks, barriers, grids, units -/

/-- A barrier of a block (R364), with the contributions of the current phase and the values its last completion
formed (R221). -/
structure Barrier where
  init    : Bool
  exp     : Nat
  arr     : Nat
  phase   : Nat
  bytes   : Int
  bcnt    : Bool
  cluster : Bool
  credited : Nat                   -- bytes credited in the current phase (Table 11.5)
  last    : BitVec 20               -- party that arrived last (Table 11.5)
  pendRow : Tab Nat
  pendF   : Tab Nat
  done    : Tab (Tab Nat × Tab Nat) -- by phase: rows and F as its completion combined them (R221)
  deriving DecidableEq, Repr

/-- A launch shape (Table 2.7, Table 4.7). -/
structure Shape where
  entry  : BitVec 64
  params : BitVec 64
  gx : Nat
  gy : Nat
  gz : Nat
  wpb : Nat
  k : Nat
  cregs : Nat
  pregs : Nat
  pwarps : Nat
  uwin : Nat
  spad : Nat
  bars : Nat
  bpc : Nat
  wdog : Nat
  deriving DecidableEq, Repr

/-- What a grid is (R116). -/
inductive GridKind where
  | launch | routine | conversion | units | exact
  deriving DecidableEq, Repr

/-- A grid in dispatch order (R120). -/
structure Grid where
  kind    : GridKind
  fn      : Nat
  seq     : Nat                     -- journal sequence of its command, 0 for MDISP
  gridid  : BitVec 64
  shape   : Shape
  cons    : Option Shape            -- units: the check kernel's record (R108)
  startAt : Option Nat              -- TIMED tick (R135)
  next    : Nat                     -- next linear block index to place
  total   : Nat
  freed   : Nat
  cause   : Nat                     -- first unresolved trap cause, 0 for none
  waitSince : Option Nat            -- tick since which its next block has not fitted (R120)
  limited : Bool                    -- the 100 us wait limit has passed (R120)
  outs    : List (Nat × BitVec 16)  -- output tiles (physical tile number) and their tag (R91)
  waits   : List Nat                -- conversions that must complete first (R104)
  next_   : Option Nat              -- a conversion's routine (R104)
  exitF   : Tab Nat                 -- merged exit frontiers of its ended blocks (R218)
  descs   : List (BitVec 64)        -- effective descriptor addresses (R105)
  task    : BitVec 32               -- task word (R105)
  unit    : Option Nat              -- exact kernels: their unit
  deriving DecidableEq, Repr

/-- A placed block (R118 to R126). -/
structure Block where
  gen     : Nat
  core    : Nat
  grid    : Nat
  lin     : Nat                     -- linear block index
  shape   : Shape
  cons    : Option Shape
  order   : Nat                     -- placement order (R137 rank 4)
  spBase  : Nat                     -- scratchpad offset from offset 0 of the core
  spBytes : Nat                     -- allocation in bytes after rounding
  barBase : Nat
  bars    : Tab Barrier
  front   : Tab Nat                 -- F[s] (R217)
  intra   : Tab Nat                 -- 32 * w + u (R217)
  st      : Nat
  c       : Nat
  ready   : Tab RelRec              -- set ready bits of its 4 KiB units, with the release of the event that set each (R131, R133)
  halted  : Bool                    -- halted by HALTB (R424)
  dump    : Option (Nat × Nat × Nat) -- dump under way or resting (R286): its warp, TSTART, DRAINED
  killed  : Bool
  cause   : Nat                     -- cause of an unresolved fault, 0 for none
  startAt : Option Nat
  unit    : Option Nat
  rebasing : Bool                   -- interval rebase in progress (R209)
  deriving DecidableEq, Repr

/-- A guarded unit (R108 to R113). -/
structure GUnit where
  fn      : Nat
  seq     : Nat
  idx     : Nat
  grid    : Nat
  exact   : Shape
  gtol    : BitVec 32
  base    : Nat
  nt      : Nat
  outtag  : BitVec 16
  status  : Nat
  tiles   : List Nat                -- physical tile numbers, in range order
  ring    : Option Nat              -- reservation (R109)
  res     : BitVec 32
  sealed  : Bool
  verdict : Bool
  faulted : Bool
  poisoned : Bool
  outcome : Nat                     -- Table 4.13; 0 while undecided
  ecause  : Nat
  ended   : Bool
  gmem    : List Host.Cell          -- guarded dirty bytes by physical address (R110)
  gmarks  : Tab WordMarks           -- guarded marks by physical word
  ends    : List (Nat × Block)      -- its ended blocks as they stood at their end, by block key (R112, R218)
  deriving DecidableEq, Repr

/-! ## Operations in flight -/

/-- What returns later: a load of LD or LDX, an iterative or long-latency pass, a lane exchange across a packed placement
(R163), an atomic's reply. -/
inductive FlightKind where
  | load (label : Nat) (scope : Scope) (size : Nat) (signed : Bool)
  | iter
  | late
  | atomic
  deriving DecidableEq, Repr

/-- An operation in flight, which a halt turns into a replay packet (R76 steps 1 and 5). -/
structure Flight where
  wk    : Nat
  path  : Bool
  kind  : FlightKind
  tag   : Nat                       -- generation tag of its context at issue (R77)
  dreg  : Nat                       -- destination: 0 to 255 v, 256 + n for w n, 999 for zr, 1000 + n for q n
  nreg  : Nat                       -- registers it takes
  lanes : List (Nat × BitVec 64)    -- lane and virtual address (loads)
  locs  : List (Loc × BitVec 64)    -- place and leaf entry of each lane's access, as an acquire translated it at its issue
  vals  : Tab (BitVec 128)          -- value per lane, when captured at issue
  pc    : BitVec 64
  intv  : Nat
  waived : Bool
  handler : Bool                    -- issued in handler mode
  chint : BitVec 32
  replay : Bool
  held  : List Nat                  -- lines at whose homes it waits (R189)
  deriving DecidableEq, Repr

/-- Atomic operation of an element (R355). -/
inductive AtomOp where
  | add | min | max | minu | maxu | and | or | xor | fadd | bfadd2 | addD | xchg | cas | xchgD | casD
  deriving DecidableEq, Repr

/-- An element in a retriever's queue (R194). -/
structure Elem where
  op    : AtomOp
  loc   : Loc
  b     : BitVec 64
  cmp   : BitVec 64
  ret   : Option Nat                -- flight that takes the reply
  closes : Bool                     -- the last element of a release: the interval advances with it (R348)
  ticket : Option Nat               -- since when its line's home holds it, as a number (R189)
  host  : Bool                      -- a host AtomicOp (R42): no party, answered to the host
  far   : Bool                      -- performed at a peer package's home (Table 7.4)
  wk    : Nat
  path  : Bool
  pc    : BitVec 64                 -- address of the instruction that sent it
  declared : List Nat               -- tiles its grid declared as output (R93)
  lane  : Nat
  fn    : Nat
  core  : Nat
  intv  : Nat
  rmode : BitVec 32
  nbv   : BitVec 32
  rel   : Option RelRec
  chint : BitVec 32
  ctx   : Nat
  va    : BitVec 64
  leaf  : BitVec 64
  deriving DecidableEq, Repr

/-- An engine command from its push to its end (R251 to R266). -/
structure Cmd where
  fn    : Nat
  wk    : Nat
  core  : Nat
  kind  : EngKind
  opc   : Nat
  words : List (BitVec 32)
  rec_  : Option (BitVec 512)       -- layout record captured at issue (R248)
  intv  : Nat                       -- engine interval (Table 8.2)
  snap  : RelRec                    -- stamp record (R222)
  front : Tab Nat                   -- F of the block at issue, for the checks of its accesses
  ctx   : Nat                       -- context of its global accesses
  chint : BitVec 32                 -- CHINT at issue (R203)
  rmode : BitVec 32
  nbv   : BitVec 32
  scope : Scope
  tok   : Bool
  tag   : BitVec 8
  bc    : Bool
  at_   : Option Nat                -- start tick
  fired : Bool
  late  : Bool
  seq   : Nat
  batch : Nat
  size  : Nat                       -- payload bytes of a copy or gather as its record gave them at issue (R78)
  started : Bool
  moved : Bool                      -- payload done (or failed)
  status : Nat                      -- Table 10.6 reason, 0 for success
  failW : Bool
  failA : BitVec 64
  failO : BitVec 64
  failP : BitVec 64
  owned : List Nat                  -- line numbers it owns
  tiles : List (Nat × Bool × Nat)   -- tiles taken: (tile or scratchpad unit, scratchpad?, core)
  outTag : BitVec 16
  units : List Nat                  -- ready bits to set again (R131)
  credit : List (Nat × Nat)         -- byte credits not yet made, line by line: block and bytes
  unwritten : List (Nat × Nat)      -- per block whose barrier takes the credit: bytes not yet written
  paid  : Nat                       -- payload bytes written
  packets : Nat                     -- ring packets not yet ejected
  data  : List (BitVec 8)           -- RRED: its contribution
  paired : Bool
  pc    : Option (BitVec 64)        -- address of the instruction that pushed it
  deriving DecidableEq, Repr

/-- Where a ring packet stands (R268). -/
inductive Hold where | source | shared | escape
  deriving DecidableEq, Repr

/-- Activity classes, highest first (R139, Table 5.6). -/
inductive Activity where | timed | sync | data | trace
  deriving DecidableEq, Repr

/-- A packet of the core ring (R266 to R268). -/
structure Packet where
  cmd   : Nat
  ring  : Nat
  at_   : Nat
  dest  : Nat
  up    : Bool                      -- towards higher stops
  vc1   : Bool
  hold  : Hold
  flits : Nat
  off   : Nat                       -- destination offset
  bytes : List (BitVec 8)
  cls   : Activity
  last  : Bool
  deriving DecidableEq, Repr

/-- A reduction (R267): the fields of word 3 as its first member names them, with its cluster above them, that member's warp index,
the stops that any member names or has pushed from, the stops that have pushed, the contributions that have arrived by stop, and
whether its members disagree. -/
structure Rred where
  fields : Nat
  warp   : Nat
  named  : List Nat
  pushed : List (Nat × Nat)         -- stop and command
  data   : List (Nat × List (BitVec 8))
  bad    : Bool
  deriving DecidableEq, Repr

/-- A dependency-table entry (Table 5.4). -/
structure DepEntry where
  kind  : Nat
  wk    : Nat
  path  : Bool
  ins   : List Nat
  cmd   : List (BitVec 32)
  rmode : BitVec 32
  nbv   : BitVec 32
  age   : Nat
  deriving DecidableEq, Repr

/-! ## Cores -/

/-- One line of an L1 (R185): valid and dirty byte masks and the bytes. -/
structure L1Line where
  valid : BitVec 128
  dirty : BitVec 128
  bytes : List (Nat × BitVec 8)
  hint  : BitVec 32
  leaf  : BitVec 64                 -- leaf entry of the last store: where the home is
  recs  : List (Nat × Mark)         -- its copy of the records: word and mark, newest first (R210, R211)
  deriving DecidableEq, Repr

/-- A cached translation (R199): context, virtual frame base, log2 of the page size, the leaf entry. -/
structure Tlb where
  ctx  : Nat
  base : Nat
  lg   : Nat
  leaf : BitVec 64
  deriving DecidableEq, Repr

/-- A trace record (Table 11.4), with the function it belongs to. -/
structure TraceRec where
  ty   : Nat
  src  : Nat
  ctx  : Nat
  tick : Nat
  pay  : BitVec 128
  deriving DecidableEq, Repr

/-- A trace buffer of 16 records with its drop count (R279). -/
structure TraceBuf where
  recs : List TraceRec
  drops : Nat
  deriving DecidableEq, Repr

/-- A core: what belongs to it whatever function runs. -/
structure Core where
  l1      : Tab L1Line              -- key 2 ^ 45 * context + line number
  tlb     : List Tlb
  bloom   : List Nat                -- set bits of the 2048-bit filter (R199)
  gens    : Tab Nat                 -- generation tag per context (R77)
  trace   : TraceBuf
  samplePtr : Tab Nat               -- per slot: context sampled last; per 8 + context: its path sampled last (R277)
  served  : Tab Nat                 -- per slot: promoted path served last (R137)
  deriving DecidableEq, Repr

/-- Resources of a freed block that have not been reported (R117): its slot, lanes, contexts, and its register,
scratchpad and barrier allocations as (offset, size). -/
structure Ghost where
  slot  : Nat
  lanes : Nat
  ctxs  : List Nat
  vr    : List (Nat × Nat)
  sp    : Nat × Nat
  bar   : Nat × Nat
  deriving DecidableEq, Repr

/-- What a function holds on a core: scratchpad, its marks and tags, accumulators, dependency table, engine queues.
It is the save image of R78 while the function is switched out. -/
structure FCore where
  split  : Nat                      -- scratchpad size in KiB (R125)
  spad   : List (Nat × BitVec 8)    -- zero when unlisted
  marks  : Tab WordMarks            -- by word offset
  ovf    : Tab (List Nat)           -- overflow entries a scratchpad line holds (R216)
  tags   : Tab (BitVec 16)          -- by 4 KiB unit, 0x1000 when unlisted (R87)
  recs   : Tab RelRec               -- release records attached to scratchpad words
  acc    : Tab (BitVec 32)          -- accumulators: 2048 * unit + 16 * row + column
  deps   : List DepEntry            -- oldest first
  age    : Nat
  mq     : List Nat                 -- matrix, copy and gather/collective hardware queues (command numbers)
  cq     : List Nat
  gq     : List Nat
  latchA : Option (Nat × Nat × BitVec 512)   -- operand collector (R258): record offset, BASE, record
  latchB : Option (Nat × Nat × BitVec 512)
  latchAB : List (Nat × BitVec 8)   -- latched fragment bytes of A
  latchBB : List (Nat × BitVec 8)
  poison : List Nat                 -- poisoned scratchpad lines
  lent   : Option Nat               -- paired command holding a follower's array (R259)
  ghosts : List Ghost               -- freed resources the distributor does not see yet (R117)
  report : List Nat                 -- the last report, in the order of Table 5.1
  deriving DecidableEq, Repr

/-! ## Homes -/

/-- Replacement class of an L2 line (R204). -/
inductive LineClass where | normal | first | last
  deriving DecidableEq, Repr

/-- A line resident in L2 (R72, R204), most recently used first in its list. -/
structure L2Line where
  line  : Nat
  ctx   : Nat
  fill  : Nat
  cls   : LineClass
  dirty : Bool
  slice : Nat                       -- the slice that holds it (R23)
  deriving DecidableEq, Repr

/-- A page whose home moves (R197). -/
structure Migration where
  ctx   : Nat
  base  : Nat                       -- virtual page base
  lg    : Nat
  entry : Nat                       -- physical address of its first leaf entry
  old   : BitVec 64                 -- leaf as it stood
  ndie  : Nat
  nhost : Bool
  shootDone : Bool
  switched : Bool
  since : Nat
  deriving DecidableEq, Repr

/-- An entry of a slice's access-counter cache (R196): page, five counts. -/
structure AccEntry where
  ctx  : Nat
  page : Nat
  cnt  : List Nat
  deriving DecidableEq, Repr

/-! ## Functions -/

/-- A submission queue (Table 2.4). -/
structure SQ where
  base : BitVec 64
  log2 : Nat
  en   : Bool
  vec  : Nat
  wr   : Nat
  rd   : Nat
  err  : Bool
  held : Bool
  code : Nat
  seq  : Nat
  deriving DecidableEq, Repr

/-- A journal entry (Table 2.11). -/
structure JEnt where
  seq    : Nat
  kind   : Nat
  state  : Nat
  src    : Nat
  status : Nat
  cause  : Nat
  late   : Bool
  tag    : Nat
  opc    : Nat
  tstamp : Nat
  deriving DecidableEq, Repr

/-- A command from acceptance to its terminal state. -/
structure QCmd where
  queue  : Nat
  bytes  : List (BitVec 8)          -- 64 bytes
  disp   : Bool                     -- dispatched
  waitAt : Option Nat               -- WAITVAL: tick of its dispatch
  nomSlot : Option (Nat × Nat × List (BitVec 16)) -- TASK waiting for a slot: NOMETHOD reason, operand, key tags
  left   : Nat                      -- grids or units still to end
  cause  : Nat
  recs   : List (List (BitVec 8))   -- GSLAUNCH: its three launch records, as read at acceptance (R107)
  list   : List (BitVec 8)          -- GSLAUNCH: its tile list, as read at acceptance (R107)
  deriving DecidableEq, Repr

/-- Binding entry (Table 3.3); for the PF, PFBIND. -/
structure Bind where
  en     : Bool
  part   : Nat
  wclass : Nat
  slice  : Nat
  quota  : Nat
  winlo  : BitVec 64
  winhi  : BitVec 64
  bound  : Bool
  err    : Nat
  deriving DecidableEq, Repr

/-- Fabric validation entry (Table 2.10). -/
structure FabEntry where
  en    : Bool
  plen  : Nat
  ops   : BitVec 8
  queue : Nat
  src   : BitVec 128
  key   : BitVec 256
  last  : Nat
  drops : Nat
  logged : Tab Nat                  -- tick of the last journal entry per reason (R56)
  deriving DecidableEq, Repr

/-- A counter of a session (Table 11.6), the PF's claim, and the function's frozen value. -/
structure Ctr where
  sel    : BitVec 32
  val    : Nat
  ovf    : Bool
  lost   : Bool
  hold   : Bool
  pfSel  : BitVec 32
  pfVal  : Nat
  pfOvf  : Bool
  deriving DecidableEq, Repr

/-- The debug block (Table 11.1). -/
structure Debug where
  sampEn  : Bool
  sampK   : Nat
  stopReq : Bool
  stopAll : Bool
  slot    : Nat
  warp    : Nat
  opp     : Nat
  lock    : Bool
  locks   : List Nat                -- rings on which the lock stands
  broken  : Bool
  bcause  : Nat
  tren    : BitVec 4
  deriving DecidableEq, Repr

/-- Attestation mailbox (Table 2.13). -/
structure Attest where
  go    : Bool
  stat  : Nat
  addr  : BitVec 64
  nonce : BitVec 256
  cert  : BitVec 64
  deriving DecidableEq, Repr

/-- Function race registers (Table 8.8) and the slot counters and generations (R206, R121). -/
structure Race where
  frbase : BitVec 64
  rrbase : BitVec 64
  rrcnt  : Nat
  pcrec  : Bool
  lost   : Nat
  ctr    : Tab Nat
  gen    : Tab Nat
  order  : List (Bool × Nat)        -- attached pool records, least recently attached first (R219)
  retired : Option RelRec           -- pool record 0
  deriving DecidableEq, Repr

/-- Wake and collapse registers (Table 3.8). -/
structure Wake where
  en     : Bool
  idle   : Nat                      -- COLIDLE
  state  : ColState
  cause  : Nat
  ticks  : Nat
  count  : Nat
  credit : Nat
  paid   : Nat
  earned : List (Nat × Nat)         -- unpaid credit by the tick that earned it, oldest first (R75)
  rivalAt : Nat                     -- last tick at which another function of its partition had work (R75)
  since  : Nat                      -- tick since which the function is idle, or its wake began
  spill  : List (Nat × Tlb)         -- TLB entries spilled by a collapse: core, or 1000 + die (R81)
  deriving DecidableEq, Repr

/-- A function (R33). -/
structure Fn where
  b2va    : BitVec 64
  b2sz    : Nat
  intstat : BitVec 8
  inten   : BitVec 8
  jfull   : Bool
  queues  : Tab SQ
  jnext   : Nat
  jlost   : Nat
  journal : Tab JEnt                -- by index, sequence mod 8192
  jbuf    : List JEnt               -- waiting entries, oldest first (R451)
  cmds    : Tab QCmd                -- by sequence number
  bind    : Bind
  fab     : FabEntry
  race    : Race
  wake    : Wake
  dbg   : Debug
  ctrs    : Tab Ctr
  attest  : Attest
  gridCount : Nat                   -- MDISP launches (GRIDID)
  deriving DecidableEq, Repr

/-! ## Partitions -/

/-- Ownership bitmaps (R65). -/
structure Owns where
  rings  : BitVec 20
  eng    : BitVec 40
  slices : BitVec 96
  chans  : BitVec 384
  deriving DecidableEq, Repr

/-- A task entry of the handler warp (R106, R414): the command and its record slot. -/
structure HEntry where
  fn    : Nat
  seq   : Nat
  slot  : Nat
  trapo : BitVec 64
  deriving DecidableEq, Repr

/-- A partition (Table 3.1, 4.6, 8.7, 16.6). -/
structure Part where
  en      : Bool
  staged  : Owns
  live    : Bool
  quiet   : Bool
  quiescing : Bool
  err     : Nat
  owns    : Owns
  tagged  : BitVec 384              -- channels whose tiles have been tagged for it (R85)
  pmtbase : BitVec 64
  pmtcnt  : Nat
  pcvbase : BitVec 64
  pcvcnt  : Nat
  pnometh : Nat
  slots   : List Nat                -- handler record slots in use, of 64 (R106); their bytes are memory (log 18)
  phvec   : BitVec 64
  imask   : BitVec 2
  heldTraps : List Nat              -- warps held at handler entry, oldest first (R450)
  tasks   : List HEntry             -- entries for the handler warp, oldest first
  serving : Option HEntry
  pmobase : BitVec 64
  pmosize : Nat
  pmolost : Nat
  running : Option Nat              -- function whose slice runs (R73)
  sliceAt : Nat                     -- tick at which the slice began
  sliceCycle : Nat                  -- cycle at which it began (R277)
  bonus   : Nat                     -- microseconds by which credit lengthens it (R75)
  halting : Bool                    -- halt broadcast, drains under way (R76)
  saved   : Option Nat              -- the function to restore next (R75, R78)
  turn    : Nat                     -- the function whose slice began last (R73)
  shooting : List (Nat × Nat × Nat × Nat × Bool)  -- SHOOTs under way: context, base, length, warp, path
  deriving DecidableEq, Repr

/-! ## Package -/

/-- UCIe link (R15). -/
inductive LinkState where | up | retraining (since : Nat) | failed
  deriving DecidableEq, Repr

/-- A core ring's thermal and clock state (R32, R74, R285). -/
structure Ring where
  step   : Nat
  opp    : Nat
  retq   : List Elem                -- the retriever's queue of 512 elements, oldest first (R194)
  pend   : List Elem                -- elements that met a full queue and stall their warps, oldest first
  guard  : Nat                      -- guard-store bytes reserved (R109)
  grants : Tab (Nat × Nat)          -- per link (2 * stop + direction): grants in a row to the timed class, and above data (R140)
  deriving DecidableEq, Repr

/-- A fabric port (R27, R28). -/
structure Port where
  up     : Bool
  fast   : Bool                     -- 1.6 Tb/s
  sent   : Nat
  recv   : Nat
  drop   : Nat
  stamps : List Nat                 -- TICK stamps of the frames' completion records, newest first
  trace  : TraceBuf
  deriving DecidableEq, Repr

/-- The host link as trained (R25). -/
structure HostLink where
  rate  : Nat
  width : Nat
  deriving DecidableEq, Repr

/-- What the package has sent to the host side, newest first. -/
inductive Out where
  | msix (fn vec : Nat)
  | data (bytes : List (BitVec 8))
  | poisoned (bytes : List (BitVec 8))  -- a poisoned completion (R18)
  | unsupported
  | unsupportedOnes (bytes : List (BitVec 8))  -- a held read that timed out: all ones with Unsupported Request (R39)
  | fabricDrop (port : Nat)
  | toManager (port : Nat)
  deriving DecidableEq, Repr

/-- A BAR 2 access held at a home (R39). -/
structure HeldAccess where
  fn    : Nat
  write : Bool
  off   : Nat
  bytes : List (BitVec 8)
  size  : Nat
  atom  : Option Nat                -- a host AtomicOp: 0 FetchAdd, 1 Swap, 2 CAS (R42)
  cmp   : BitVec 64
  since : Nat                       -- tick of its arrival
  homes : List Nat                  -- home slices of its lines (R38)
  ticket : Nat                      -- number of its arrival (R189)
  lines : List Nat                  -- lines it needs
  deriving DecidableEq, Repr

/-- PF trace control (Table 11.1) and the carve-out. -/
structure TraceCtl where
  ctl   : BitVec 4                  -- EN, PORT, CARVE, WRAP
  wr    : Nat
  drop  : Nat
  carve : Tab TraceRec              -- by slot of 32 bytes
  port  : List TraceRec             -- sent to the port, newest first
  last  : Option Nat                -- tick of the last forward (R279)
  io    : TraceBuf                  -- the I/O die's own buffer
  deriving DecidableEq, Repr

/-- Root of trust and boot (R60 to R63). -/
structure Boot where
  ready  : Bool
  failed : Option Nat
  meas   : List (BitVec 512)
  idcert : Option Nat               -- TICK at which the identity certificate was issued
  deriving DecidableEq, Repr

/-- What a step of the package is about; each step's meaning says which parts it reads. `unit` is a function,
partition, core, ring, die-wide unit or command number; `id` a number within it (queue, sequence, slot, warp);
`aux` a further number (offset, size, second unit); the rest is the data of a host or fabric access. -/
structure Occasion where
  unit  : Nat
  id    : Nat
  aux   : Nat
  flag  : Bool
  val   : BitVec 256
  cmp   : BitVec 64
  bytes : List (BitVec 8)
  deriving DecidableEq, Repr

/-- What moves next (the model's own agenda): a path issues, or a step of the table takes place. -/
inductive Move where
  | issue (wk : Nat) (path : Bool)
  | event (i : Instr) (o : Occasion)
  deriving DecidableEq, Repr

/-- The path an instruction is being issued for. -/
structure PathId where
  wk   : Nat
  path : Bool
  deriving DecidableEq, Repr

/-! ## The machine -/

/-- The clock: TICK (R29) and core cycles, and the step count that numbers the free values of time. -/
structure Clock where
  tick  : Nat
  cycle : Nat
  step  : Nat
  deriving DecidableEq, Repr

/-- Everything but the clock and the bytes of memory. -/
structure Hw where
  boot    : Boot
  links   : Tab LinkState
  chans   : Tab (ChanState × Nat)         -- state and corrected-error count
  rings   : Tab Ring
  ports   : Tab Port
  host    : Option HostLink
  hotHbm  : List Nat
  trip    : Bool
  fatal   : Bool
  poison  : List Nat                      -- poisoned lines (R18)
  trace   : TraceCtl
  out     : List Out
  heldAcc : List HeldAccess
  fns     : Tab Fn
  parts   : Tab Part
  roots   : Tab (BitVec 64 × Bool)        -- by context: TR word, MIGEN
  cores   : Tab Core
  dieTlb  : Tab (List Tlb)
  fcores  : Tab FCore                     -- key 256 * function + core
  blocks  : Tab Block                     -- key 4096 * function + block slot
  warps   : Tab Warp                      -- key 32 * block key + warp index
  grids   : List (Nat × Grid)             -- dispatch order (R120)
  units   : Tab GUnit
  flights : Tab Flight
  cmds    : Tab Cmd
  packets : Tab Packet
  rred    : Tab (List Rred)               -- reductions of a ring, oldest first: key 256 * function + its first core
  marks   : Tab WordMarks                 -- by physical word
  mctx    : Tab Nat                       -- by line: the context its marks belong to (R213)
  spare   : Tab (BitVec 64)               -- spare bits by line, zero when unlisted (R214)
  ovf     : Tab (List Nat)                -- overflow entries a line holds, by index (R215)
  recs    : Tab RelRec                    -- release records attached to memory words
  owners  : Tab Nat                       -- by line: the engine command that owns it (R188)
  tags    : Tab (BitVec 16)               -- tag table by tile; 0x1000 when unlisted (R85)
  l2      : List L2Line
  access  : Tab (List AccEntry)           -- per slice (R196), most recently used first
  migs    : Tab Migration                 -- per slice
  -- the model's own
  agenda  : List Move
  cur     : Option PathId
  occ     : Occasion
  tried   : List (Nat × Bool)
  slotPtr : Nat
  nextId  : Nat
  free    : Nat                           -- counter of free values
  wq      : List Host.Cell                -- bytes written in this step, newest first
  deriving DecidableEq, Repr

/-- The whole machine. -/
structure State where
  clk : Clock
  mem : List Host.Cell                    -- HBM, peer and host memory by physical address
  hw  : Hw
  deriving DecidableEq, Repr

/-! ## Why a step stops -/

/-- A fault of the model. -/
inductive Fault where
  /-- Raised by every encoded instruction executed while no path is issuing (`Hw.cur` is none, or names no warp). No
  run reaches it: `step` sets the path first. Safe. -/
  | noIssuer
  deriving DecidableEq, Repr

/-- A refusal of the model. -/
inductive Refusal where
  /-- Raised by an arm of Dispatch.lean for an instruction that has no meaning yet. Safe. -/
  | notModelled (mnemonic : String)
  deriving DecidableEq, Repr


/-! ## Reset -/

def SQ.reset : SQ := ⟨0#64, 0, false, 0, 0, 0, false, false, 0, 0⟩
def Bind.reset : Bind := ⟨false, 0, 0, 1000, 0, 0#64, 0#64, false, 0⟩
def FabEntry.reset : FabEntry := ⟨false, 0, 0#8, 0, 0#128, 0#256, 0, 0, []⟩
def Ctr.reset : Ctr := ⟨0#32, 0, false, false, false, 0#32, 0, false⟩
def Debug.reset : Debug := ⟨false, 16, false, false, 0, 0, 0, false, [], false, 0, 0#4⟩
def Attest.reset : Attest := ⟨false, 0, 0#64, 0#256, 0#64⟩
def Race.reset : Race := ⟨0#64, 0#64, 0, false, 0, [], [], [], none⟩
def Wake.reset : Wake := ⟨true, 1000, .active, 0, 0, 0, 0, 0, [], 0, 0, []⟩

/-- A function at reset (Tables 2.2 to 2.4, 2.10, 2.12, 2.13, 3.3, 3.8, 8.8, 11.1, 11.6). -/
def Fn.reset : Fn :=
  { b2va := 0#64, b2sz := 20, intstat := 0#8, inten := 0#8, jfull := false, queues := [], jnext := 1,
    jlost := 0, journal := [], jbuf := [], cmds := [], bind := Bind.reset, fab := FabEntry.reset, race := Race.reset,
    wake := Wake.reset, dbg := Debug.reset, ctrs := [], attest := Attest.reset, gridCount := 0 }

def Owns.none : Owns := ⟨0#20, 0#40, 0#96, 0#384⟩

/-- A partition at reset (Tables 3.1, 4.6, 8.7, 16.6). -/
def Part.reset : Part :=
  { en := false, staged := Owns.none, live := false, quiet := false, quiescing := false, err := 0, owns := Owns.none,
    tagged := 0#384, pmtbase := 0#64, pmtcnt := 0, pcvbase := 0#64, pcvcnt := 0, pnometh := 0, slots := [],
    phvec := 0#64, imask := 0#2, heldTraps := [], tasks := [], serving := Option.none, pmobase := 0#64, pmosize := 0,
    pmolost := 0, running := Option.none, sliceAt := 0, sliceCycle := 0, bonus := 0, halting := false, saved := Option.none, turn := 0,
    shooting := [] }

def TraceBuf.reset : TraceBuf := ⟨[], 0⟩

def Core.reset : Core :=
  { l1 := [], tlb := [], bloom := [], gens := [], trace := TraceBuf.reset, samplePtr := [], served := [] }

/-- A core that holds nothing of a function: a scratchpad of 128 KiB (R125). -/
def FCore.reset : FCore :=
  { split := 128, spad := [], marks := [], ovf := [], tags := [], recs := [], acc := [], deps := [], age := 0, mq := [], cq := [],
    gq := [], latchA := Option.none, latchB := Option.none, latchAB := [], latchBB := [], poison := [],
    lent := Option.none, ghosts := [], report := [] }

def Ring.reset : Ring := ⟨0, 0, [], [], 0, []⟩
def Port.reset : Port := ⟨false, false, 0, 0, 0, [], TraceBuf.reset⟩
def Boot.reset : Boot := ⟨false, Option.none, [0#512, 0#512, 0#512, 0#512], Option.none⟩
def TraceCtl.reset : TraceCtl := ⟨0#4, 0, 0, [], [], Option.none, TraceBuf.reset⟩
def Occasion.none : Occasion := ⟨0, 0, 0, false, 0#256, 0#64, []⟩

/-- The package as it leaves reset: boot has still to run, nothing is bound, placed or in flight. -/
def Hw.reset : Hw :=
  { boot := Boot.reset, links := [], chans := [], rings := [], ports := [], host := Option.none, hotHbm := [],
    trip := false, fatal := false, poison := [], trace := TraceCtl.reset, out := [], heldAcc := [], fns := [],
    parts := [], roots := [], cores := [], dieTlb := [], fcores := [], blocks := [], warps := [], grids := [],
    units := [], flights := [], cmds := [], packets := [], rred := [], marks := [], mctx := [], spare := [], ovf := [],
    recs := [], owners := [], tags := [], l2 := [], access := [], migs := [],
    agenda := [.event .packageReset Occasion.none], cur := Option.none, occ := Occasion.none, tried := [],
    slotPtr := 0, nextId := 0, free := 0, wq := [] }

/-- The machine right after reset: TICK 0 (R29), memory with nothing listed, the boot chain about to run (R61). -/
def State.reset : State := { clk := ⟨0, 0, 0⟩, mem := [], hw := Hw.reset }

end Sys2Proof.Machine
end

