-- ==== Sys2Proof/Machine/Operands.lean ====
section
/-! DEFINITION. Sys2Proof/Machine/Operands.lean: a warp's lanes and registers, the operand forms of Table 6.3, and the
checks of rank 2 (R158 to R167, R276, R300) that every instruction makes before it changes anything. -/
namespace Sys2Proof.Machine

/-! ## Lanes and masks (R144, R145) -/

/-- Lane numbers of a warp of k rows. -/
def Warp.lanes (w : Warp) : List Nat := List.range (32 * w.k)

/-- Every lane of a warp of k rows. -/
def allMask (k : Nat) : Mask := BitVec.ofNat 1024 (2 ^ (32 * k) - 1)

/-- The mask of the lanes that meet `f`. -/
def maskOf (l : List Nat) (f : Nat → Bool) : Mask :=
  l.foldl (fun m n => if f n then m ||| (1#1024 <<< n) else m) 0#1024

/-- The row mask M[r] of a mask (R145). -/
def rowMask (m : Mask) (r : Nat) : BitVec 32 := m.extractLsb' (32 * r) 32

/-- The lanes an instruction of the path issues for: the active lanes, those of the resume rows where some have issued before,
without the rows left to a later pass (R76 step 2, R146). -/
def Path.issueMask (p : Path) : Nat → Bool := fun n =>
  p.mask.getLsbD n && (p.resume == 0#32 || p.resume.getLsbD (n / 32)) && !p.later.getLsbD (n / 32)

/-- Active lanes of a path, rising. -/
def Warp.active (w : Warp) (p : Path) : List Nat := w.lanes.filter p.issueMask

/-- The lowest-numbered of the lanes, 0 for none. -/
def lowest : List Nat → Nat
  | [] => 0
  | n :: _ => n

def Warp.path (w : Warp) (x : Bool) : Path := if x then w.p1 else w.p0
def Warp.setPath (w : Warp) (x : Bool) (p : Path) : Warp := if x then { w with p1 := p } else { w with p0 := p }

/-! ## Registers (R159 to R163) -/

def Warp.getV (w : Warp) (r lane : Nat) : Word := Tab.getD w.vregs (1024 * r + lane) 0#32
def Warp.setV (w : Warp) (r lane : Nat) (v : Word) : Warp :=
  { w with vregs := Tab.store 0#32 w.vregs (1024 * r + lane) v }
def Warp.getU (w : Warp) (r : Nat) : Word := Tab.getD w.uregs r 0#32
def Warp.setU (w : Warp) (r : Nat) (v : Word) : Warp := { w with uregs := Tab.store 0#32 w.uregs r v }
def Warp.isEmpty (w : Warp) (r lane : Nat) : Bool := w.empty.contains (1024 * r + lane)
def Warp.setEmpty (w : Warp) (r lane : Nat) : Warp :=
  if w.isEmpty r lane then w else { w with empty := (1024 * r + lane) :: w.empty }
def Warp.setFull (w : Warp) (r lane : Nat) : Warp :=
  { w with empty := w.empty.filter (· != 1024 * r + lane) }

/-- Predicates: p0 reads true and ignores writes (R161). -/
def Warp.getP (w : Warp) (p : Nat) : Mask := if p = 0 then BitVec.allOnes 1024 else Tab.getD w.preds p 0#1024
def Warp.setP (w : Warp) (p : Nat) (lanes : List Nat) (f : Nat → Bool) : Warp :=
  if p = 0 then w
  else
    let act := maskOf lanes fun _ => true
    { w with preds := Tab.store 0#1024 w.preds p ((w.getP p &&& ~~~act) ||| maskOf lanes f) }

/-- The queue a queue field belongs to: q0 and q1, q2 and q3, q4 and q5. -/
def Warp.queue (w : Warp) (e : EngKind) : WarpQueue :=
  match e with
  | .matrix => w.q0
  | .copy => w.q2
  | .ring => w.q4
def Warp.setQueue (w : Warp) (e : EngKind) (q : WarpQueue) : Warp :=
  match e with
  | .matrix => { w with q0 := q }
  | .copy => { w with q2 := q }
  | .ring => { w with q4 := q }
/-- Engine of a queue field value 120 to 125. -/
def queueKind (v : Nat) : EngKind := if v < 122 then .matrix else if v < 124 then .copy else .ring

/-! ## Operands (Table 6.3) -/

/-- xi as it enters the operand (R162). -/
def Warp.xiOf (w : Warp) (u : Use) : Nat := if u.idx then w.xi.toNat else 0

/-- Absolute vector register of the operand's first register. -/
def Warp.vIndex (w : Warp) (u : Use) : Nat := w.wbase + u.r.toNat + w.xiOf u
/-- Absolute uniform register of the operand's first register. -/
def Warp.uIndex (w : Warp) (u : Use) : Nat := w.ubase + (u.r.toNat - 96) + w.xiOf u

/-- Register `j` of an operand, as lane `lane` reads it (R158, R160, R167). -/
def Warp.readAt (w : Warp) (u : Use) (j lane : Nat) : Word :=
  let v := u.r.toNat
  if v < 96 then w.getV (w.vIndex u + j) lane
  else if v < 120 then w.getU (w.uIndex u + j)
  else if v < 126 then ((w.queue (queueKind v)).tokens.head?.map (·.1)).getD 0#32
  else if v = 126 then 0#32
  else BitVec.ofNat 32 lane

/-- A 32-bit operand. -/
def Warp.read (w : Warp) (u : Use) (lane : Nat) : Word := w.readAt u 0 lane
/-- A 64-bit operand, low half first (R159). -/
def Warp.read64 (w : Warp) (u : Use) (lane : Nat) : DWord := w.readAt u 1 lane ++ w.readAt u 0 lane
/-- A 128-bit operand. -/
def Warp.read128 (w : Warp) (u : Use) (lane : Nat) : BitVec 128 :=
  w.readAt u 3 lane ++ (w.readAt u 2 lane ++ (w.readAt u 1 lane ++ w.readAt u 0 lane))

/-- The allotment check (R158 to R160). -/
def Warp.inBounds (w : Warp) (u : Use) : Bool :=
  let v := u.r.toNat
  if v < 96 then decide (w.vIndex u + u.n - 1 < w.vallot)
  else if v < 120 then decide (w.uIndex u + u.n - 1 < 24 * w.uwin)
  else true

/-- Is some register of the operand empty in some of the lanes? -/
def Warp.anyEmpty (w : Warp) (u : Use) (lanes : List Nat) : Bool :=
  decide (u.r.toNat < 96) &&
    lanes.any fun n => (List.range u.n).any fun j => w.isEmpty (w.vIndex u + j) n

/-- Is the operand read and empty (R163, R164, R167)? -/
def Warp.srcEmpty (w : Warp) (u : Use) (lanes : List Nat) : Bool :=
  u.rd && (w.anyEmpty u lanes ||
    (decide (120 ≤ u.r.toNat) && decide (u.r.toNat < 126) &&
      (w.queue (queueKind u.r.toNat)).tokens.isEmpty))

/-- The first empty source in the order d, a, b (R164). -/
def Warp.firstEmpty (w : Warp) (lanes : List Nat) : List Use → Option Use
  | [] => none
  | u :: us => if w.srcEmpty u lanes then some u else w.firstEmpty lanes us

/-! ## Why an instruction does not complete -/

/-- What ends an attempt to issue: a trap (TRAPC, TRAPA, TRAPO, RACEOPC; no TRAPO means the path number, R154), a
wait with its stall reason, or a fault of the model. The forms with a state leave that state behind; `turn` and `turnFrom` join those who
wait for the things `keys`, served in the order in which they began to wait (R189, R450). -/
inductive Stop where
  | trap (c a : DWord) (o : Option DWord) (opc : DWord)
  | trapFrom (h : Hw) (c a : DWord) (o : Option DWord) (opc : DWord)
  | wait (reason : Nat)
  | waitFrom (h : Hw) (reason : Nat)
  | turn (reason : Nat) (keys : List Nat)
  | turnFrom (h : Hw) (reason : Nat) (keys : List Nat)
  | fault (f : Fault)
  deriving DecidableEq, Repr

/-- A trap with nothing in TRAPA and the path number in TRAPO. -/
def Stop.plain (cause : Nat) : Stop := .trap (BitVec.ofNat 64 cause) 0#64 none 0#64
/-- A trap with its address. -/
def Stop.at (cause : Nat) (a : DWord) : Stop := .trap (BitVec.ofNat 64 cause) a none 0#64

/-- Trap cause codes (Table 12.9). -/
def cILLEGAL := 0x01
def cREGBOUND := 0x02
def cFEMPTY := 0x03
def cALIGN := 0x04
def cNOTPRESENT := 0x05
def cPROTECT := 0x06
def cRACE := 0x07
def cATOMSYS := 0x08
def cBARBUSY := 0x09
def cBARWORD := 0x0A
def cWDOG := 0x0B
def cNOMETHOD := 0x0C
def cTAGMISMATCH := 0x0D
def cBKPT := 0x0E
def cWATCH := 0x0F
def cREGIONSTOP := 0x10
def cDIVERGE := 0x11
def cJOINOVF := 0x12
def cPRIV := 0x13
def cCOPYERR := 0x14
def cMMAERR := 0x15
def cINTVWRAP := 0x16
def cECC := 0x17
def cTRAPI := 0x18
def cDOUBLE := 0x19

/-- Privilege (Table 16.7, Table 16.8): the cause a mode meets at an instruction, if any. -/
def privStop (i : Instr) (m : Mode) : Option Nat :=
  match i with
  | .srd _ n => if m = .user ∧ sysPriv n.toNat then some cPRIV else none
  | .swr n _ _ =>
    if m = .user then
      if sysPriv n.toNat || sysReadOnly n.toNat || n == 0x04#7 then some cPRIV else none
    else if sysReadOnly n.toNat then some cILLEGAL else none
  | i => if Instr.handlerOnly i ∧ m = .user then some cPRIV else none

/-- The checks of rank 2, in the order ILLEGAL, PRIV, REGBOUND, FEMPTY (R276, R300), then the waits: an empty source
that blocks (R164) and a destination still empty (R163). `bad` and `deny` say whether the instruction is ILLEGAL or PRIV for
what its state or operands hold. -/
def rank2 (bad deny : Bool) (i : Instr) (w : Warp) (lanes : List Nat) : Except Stop Unit :=
  if Instr.legal w.xi.toNat i && !bad then
    match (privStop i w.mode).or (if deny then some cPRIV else none) with
    | some c => .error (.plain c)
    | none =>
      if (Instr.uses i).all w.inBounds then
        match w.firstEmpty lanes (Instr.uses i) with
        | some u =>
          if u.trap then .error (.trap (BitVec.ofNat 64 cFEMPTY) 0#64 (some (u.r.setWidth 64)) 0#64)
          else .error (.wait 1)
        | none =>
          if (Instr.uses i).any fun u => u.wr && w.anyEmpty u lanes then .error (.wait 1) else .ok ()
      else .error (.plain cREGBOUND)
  else .error (.plain cILLEGAL)

/-! ## Writing a destination (R160, R163, R310) -/

/-- Write `n` words per lane from register `r` on, marking them full. -/
def Warp.writeV (w : Warp) (r : Nat) (lanes : List Nat) (val : Nat → List Word) : Warp :=
  lanes.foldl (fun w n =>
    (val n).zipIdx.foldl (fun w (x : Word × Nat) => w.setV (r + x.2) n x.1) w) w

/-- Write `n` words to uniform registers from `r` on. -/
def Warp.writeU (w : Warp) (r : Nat) (ws : List Word) : Warp :=
  ws.zipIdx.foldl (fun w (x : Word × Nat) => w.setU (r + x.2) x.1) w

/-- Write a destination in registers: per lane in a vector register, the lowest lane's value in a uniform register,
nothing for zr. A queue destination changes no register (`pushes` gives its words). -/
def Warp.writeDst (w : Warp) (u : Use) (lanes : List Nat) (val : Nat → List Word) : Warp :=
  let v := u.r.toNat
  if v < 96 then w.writeV (w.vIndex u) lanes val
  else if v < 120 then w.writeU (w.uIndex u) (val (lowest lanes))
  else w

/-- The words a queue destination pushes, in rising lane order (R166). -/
def dstPushes (u : Use) (lanes : List Nat) (val : Nat → List Word) : Option (EngKind × List Word) :=
  if 120 ≤ u.r.toNat ∧ u.r.toNat < 126 then some (queueKind u.r.toNat, lanes.flatMap val) else none

/-- Mark a destination empty in the lanes (R163). -/
def Warp.markEmpty (w : Warp) (u : Use) (lanes : List Nat) : Warp :=
  if u.r.toNat < 96 then
    lanes.foldl (fun w n => (List.range u.n).foldl (fun w j => w.setEmpty (w.vIndex u + j) n) w) w
  else w

/-- Remove one token from every queue that a source of the instruction names (R167). -/
def Warp.popTokens (w : Warp) (i : Instr) : Warp :=
  let pop (w : Warp) (v : Nat) : Warp :=
    if (Instr.uses i).any fun u => u.rd && u.r.toNat == v then
      let q := w.queue (queueKind v)
      w.setQueue (queueKind v) { q with tokens := q.tokens.tail }
    else w
  pop (pop (pop w 121) 123) 125

/-- The releases of the tokens an instruction pops (R253). -/
def Warp.poppedRels (w : Warp) (i : Instr) : List RelRec :=
  [121, 123, 125].filterMap fun v =>
    if (Instr.uses i).any fun u => u.rd && u.r.toNat == v then
      ((w.queue (queueKind v)).tokens.head?.map (·.2))
    else none

/-- The two halves of a 64-bit result, low first. -/
def halves (x : DWord) : List Word := [x.extractLsb' 0 32, x.extractLsb' 32 32]
/-- The four words of a 128-bit result. -/
def quarters (x : BitVec 128) : List Word :=
  [x.extractLsb' 0 32, x.extractLsb' 32 32, x.extractLsb' 64 32, x.extractLsb' 96 32]

end Sys2Proof.Machine
end

