-- ==== Sys2Proof/Machine/Base.lean ====
section
/-! DEFINITION. Sys2Proof/Machine/Base.lean: access to the parts of the package, numbers and keys, the agenda, free
values, event counters (R280 to R284) and trace records (R278, R279). -/
namespace Sys2Proof.Machine

/-- What a meaning reads and cannot change: the clock, and memory as it stood before the step. -/
structure Env where
  clk : Clock
  mem : List Host.Cell

/-! ## Numbers (R13, R71, R121) -/

def bkOf (fn slot : Nat) : Nat := 4096 * fn + slot
def wkOf (fn slot widx : Nat) : Nat := 32 * bkOf fn slot + widx
def wkBlock (wk : Nat) : Nat := wk / 32
def wkFn (wk : Nat) : Nat := wk / 32 / 4096
def wkSlot (wk : Nat) : Nat := wk / 32 % 4096
def wkIdx (wk : Nat) : Nat := wk % 32
def bkFn (bk : Nat) : Nat := bk / 4096
def bkSlot (bk : Nat) : Nat := bk % 4096
def ringOf (core : Nat) : Nat := core / 8
def stopOf (core : Nat) : Nat := core % 8
def dieOf (core : Nat) : Nat := core / 40
def lineOf (pa : Nat) : Nat := pa / 128
def wordOf (pa : Nat) : Nat := pa / 4
def tileOf (pa : Nat) : Nat := pa / 4096
/-- Slot number that stands for the handler warp (log 29). -/
def handlerSlot : Nat := 0xFFF
/-- Function number under which a partition's handler warp is kept; also its context (Table 3.4). -/
def handlerFn (p : Nat) : Nat := 320 + p
/-- Context identifier of a function (Table 3.4). -/
def ctxOf (fn : Nat) : Nat := if fn = 0 then 257 else fn

/-! ## Parts -/

def Hw.fn (h : Hw) (f : Nat) : Fn := Tab.getD h.fns f Fn.reset
def Hw.setFn (h : Hw) (f : Nat) (x : Fn) : Hw := { h with fns := Tab.put h.fns f x }
def Hw.onFn (h : Hw) (f : Nat) (g : Fn → Fn) : Hw := h.setFn f (g (h.fn f))
def Hw.part (h : Hw) (p : Nat) : Part := Tab.getD h.parts p Part.reset
def Hw.setPart (h : Hw) (p : Nat) (x : Part) : Hw := { h with parts := Tab.put h.parts p x }
def Hw.onPart (h : Hw) (p : Nat) (g : Part → Part) : Hw := h.setPart p (g (h.part p))
def Hw.core (h : Hw) (c : Nat) : Core := Tab.getD h.cores c Core.reset
def Hw.onCore (h : Hw) (c : Nat) (g : Core → Core) : Hw := { h with cores := Tab.put h.cores c (g (h.core c)) }
def fcKey (fn core : Nat) : Nat := 256 * fn + core
def Hw.fcore (h : Hw) (fn core : Nat) : FCore := Tab.getD h.fcores (fcKey fn core) FCore.reset
def Hw.onFCore (h : Hw) (fn core : Nat) (g : FCore → FCore) : Hw :=
  { h with fcores := Tab.put h.fcores (fcKey fn core) (g (h.fcore fn core)) }
def Hw.ring (h : Hw) (r : Nat) : Ring := Tab.getD h.rings r Ring.reset
def Hw.onRing (h : Hw) (r : Nat) (g : Ring → Ring) : Hw := { h with rings := Tab.put h.rings r (g (h.ring r)) }
def Hw.port (h : Hw) (p : Nat) : Port := Tab.getD h.ports p Port.reset
def Hw.onPort (h : Hw) (p : Nat) (g : Port → Port) : Hw := { h with ports := Tab.put h.ports p (g (h.port p)) }
def Hw.block? (h : Hw) (bk : Nat) : Option Block := Tab.find? h.blocks bk
def Hw.onBlock (h : Hw) (bk : Nat) (g : Block → Block) : Hw := { h with blocks := Tab.modify h.blocks bk g }
def Hw.warp? (h : Hw) (wk : Nat) : Option Warp := Tab.find? h.warps wk
def Hw.setWarp (h : Hw) (wk : Nat) (w : Warp) : Hw := { h with warps := Tab.put h.warps wk w }
def Hw.onWarp (h : Hw) (wk : Nat) (g : Warp → Warp) : Hw := { h with warps := Tab.modify h.warps wk g }
def Hw.onPath (h : Hw) (wk : Nat) (x : Bool) (g : Path → Path) : Hw :=
  h.onWarp wk fun w => w.setPath x (g (w.path x))
def Hw.onCmd (h : Hw) (id : Nat) (g : Cmd → Cmd) : Hw := { h with cmds := Tab.modify h.cmds id g }
def Hw.onUnit (h : Hw) (u : Nat) (g : GUnit → GUnit) : Hw := { h with units := Tab.modify h.units u g }
def Hw.grid? (h : Hw) (g : Nat) : Option Grid := Tab.find? h.grids g
def Hw.onGrid (h : Hw) (g : Nat) (f : Grid → Grid) : Hw :=
  { h with grids := h.grids.map fun e => if e.1 = g then (e.1, f e.2) else e }

/-- Partition of a function: the one its binding entry names; a handler's own. -/
def Hw.partOf (h : Hw) (fn : Nat) : Nat := if 320 ≤ fn then fn - 320 else (h.fn fn).bind.part
/-- Warps of a block, rising. -/
def Hw.warpsOf (h : Hw) (bk : Nat) : List (Nat × Warp) := h.warps.filter fun e => wkBlock e.1 == bk
/-- Functions bound to a partition. -/
def Hw.fnsOf (h : Hw) (p : Nat) : List Nat := (h.fns.filter fun e => e.2.bind.bound && e.2.bind.part == p).map (·.1)

/-! ## The agenda, numbers given out, free values -/

def Hw.plan (h : Hw) (i : Instr) (o : Occasion) : Hw := { h with agenda := h.agenda ++ [.event i o] }
/-- Plan a step about one numbered thing. -/
def Hw.planOn (h : Hw) (i : Instr) (unit : Nat) (id : Nat := 0) : Hw :=
  h.plan i { Occasion.none with unit := unit, id := id }
/-- Something moved: paths that could not issue may be tried again. -/
def Hw.moved (h : Hw) : Hw := { h with tried := [] }

/-- The local copy of TICK of a unit: within 1 of the I/O die's, at a constant distance (R29; log 6). -/
def localTick (e : Env) (unit : Nat) : Nat := e.clk.tick + Config.tickSkew unit % 3 - 1

/-! ## Output to the host (R36) -/

def Hw.send (h : Hw) (o : Out) : Hw := { h with out := o :: h.out }

/-- INTSTAT bits (Table 2.3). -/
def iCMPL := 0
def iQERR := 1
def iJFULL := 2
def iFABDROP := 3
def iHOSTUR := 4
def iCTROVF := 5
def iWOKEN := 6
def iATTEST := 7

/-- Set an INTSTAT bit; its transition from 0 to 1 with its INTEN bit set sends one MSI-X message (R36). -/
def Hw.raiseInt (h : Hw) (f bit vec : Nat) : Hw :=
  let x := h.fn f
  if x.intstat.getLsbD bit then h
  else
    let h := h.setFn f { x with intstat := x.intstat ||| (1#8 <<< bit) }
    if x.inten.getLsbD bit then h.send (.msix f vec) else h

/-! ## Counters (R280 to R284) -/

/-- Does the selection count event `ev` of class `cls` at `unit` (Table 11.6)? -/
def selCounts (sel : Word) (cls unit ev reason : Nat) : Bool :=
  sel.getLsbD 27 && (sel.extractLsb' 0 4).toNat == cls && (sel.extractLsb' 14 8).toNat == ev &&
    (sel.getLsbD 13 || (sel.extractLsb' 4 9).toNat == unit) &&
    (!(cls == 0 && ev == 3) || (sel.extractLsb' 22 5).toNat == reason)

/-- Add `n` to a count of 48 bits: the value and whether it wrapped (R284). -/
def count48 (v n : Nat) : Nat × Bool := ((v + n) % 2 ^ 48, decide (2 ^ 48 ≤ v + n))

/-- Count an event for a function: each counter whose selection names it, the PF's selection while it holds the
counter (R282); a wrap sets OVF and, with OVFIE, INTSTAT.CTROVF of the holder (R284). -/
def Hw.count (h : Hw) (f cls unit ev reason n : Nat) : Hw :=
  (h.fn f).ctrs.foldl (fun h (e : Nat × Ctr) =>
    let c := e.2
    if c.hold then
      if selCounts c.pfSel cls unit ev reason then
        let (v, o) := count48 c.pfVal n
        let h := h.onFn f fun x => { x with ctrs := Tab.put x.ctrs e.1 { c with pfVal := v, pfOvf := c.pfOvf || o } }
        if o && c.pfSel.getLsbD 28 then h.raiseInt 0 iCTROVF 0 else h
      else h
    else if selCounts c.sel cls unit ev reason && !c.lost then
      let (v, o) := count48 c.val n
      let h := h.onFn f fun x => { x with ctrs := Tab.put x.ctrs e.1 { c with val := v, ovf := c.ovf || o } }
      if o && c.sel.getLsbD 28 then h.raiseInt f iCTROVF 0 else h
    else h) h

/-! ## Trace (R278, R279) -/

/-- A record takes one of a trace buffer's 16 places, or is dropped and counted. -/
def TraceBuf.add (b : TraceBuf) (r : TraceRec) : TraceBuf × Bool :=
  if b.recs.length < 16 then (⟨b.recs ++ [r], b.drops⟩, true) else (⟨b.recs, b.drops + 1⟩, false)
/-- The oldest record, `r`, has left: a source that has dropped records puts a DROP record, of the context of `r`, into the place
that is free (log 40). -/
def TraceBuf.freed (b : TraceBuf) (r : TraceRec) (tick : Nat) : TraceBuf :=
  if b.drops = 0 then ⟨b.recs.tail, 0⟩ else ⟨b.recs.tail ++ [⟨0x08, r.src, r.ctx, tick, BitVec.ofNat 128 b.drops⟩], 0⟩

/-- Emit a record at a core: only while TRCTL.EN is 1 and the function's TREN bit is set (R278); a full buffer drops
it and counts it (R279). -/
def Hw.emit (h : Hw) (e : Env) (fn core bit ty : Nat) (pay : BitVec 128) : Hw :=
  if h.trace.ctl.getLsbD 0 && (h.fn fn).dbg.tren.getLsbD bit then
    let c := h.core core
    let (b, ok) := c.trace.add ⟨ty, core, ctxOf fn, localTick e core, pay⟩
    let h := h.onCore core fun c => { c with trace := b }
    if ok then h.planOn .traceForward core
    else { h with trace := { h.trace with drop := (h.trace.drop + 1) % 2 ^ 48 } }
  else h

/-- Put a value in bytes [lo, ...) of a 16-byte payload (Table 11.5). -/
def payAt (lo : Nat) (v : Nat) : BitVec 128 := BitVec.ofNat 128 (v * 2 ^ (8 * (lo - 16)))

/-! ## Memory bytes -/

/-- A byte of memory: written in this step, else as it stood, else 0 (log 1). -/
def Hw.byte (h : Hw) (e : Env) (pa : Nat) : Byte :=
  match Tab.find? h.wq pa with
  | some b => b
  | none => Tab.getD e.mem pa 0#8

/-- Write a byte at its home. -/
def Hw.putByte (h : Hw) (pa : Nat) (b : Byte) : Hw := { h with wq := (pa, b) :: h.wq }
/-- Write bytes from `pa` on. -/
def Hw.putBytes (h : Hw) (pa : Nat) (bs : List Byte) : Hw :=
  { h with wq := (bs.zipIdx.map fun (x : Byte × Nat) => (pa + x.2, x.1)).reverse ++ h.wq }
def Hw.bytes (h : Hw) (e : Env) (pa n : Nat) : List Byte := (List.range n).map fun j => h.byte e (pa + j)

/-- A number from bytes, the first least significant (R3). -/
def leNat : List Byte → Nat
  | [] => 0
  | b :: bs => b.toNat + 256 * leNat bs
/-- The `n` little-endian bytes of a number. -/
def natLe : Nat → Nat → List Byte
  | 0, _ => []
  | n + 1, v => BitVec.ofNat 8 v :: natLe n (v / 256)

/-- A number of `n` bytes read from `pa`. -/
def Hw.read (h : Hw) (e : Env) (pa n : Nat) : Nat := leNat (h.bytes e pa n)

/-- Put the bytes written in a step into memory, oldest first, keeping the canonical form: an address not listed
reads as 0. -/
def flush : List Host.Cell → List Host.Cell → List Host.Cell
  | [], mem => mem
  | (a, b) :: ws, mem => Tab.store 0#8 (flush ws mem) a b

/-- A byte of the machine's memory between steps. -/
def State.byte (s : State) (pa : Nat) : Byte := Tab.getD s.mem pa 0#8

/-- Memory is in canonical form: addresses strictly rising, no entry equal to 0. -/
def Memory.wf (mem : List Host.Cell) : Bool := Tab.wf 0#8 mem

/-- Run a meaning on the package: it reads the clock and memory, and what it writes is put into memory at its end.
Only PACKAGE_RESET sets the clock, and only `step` advances it. -/
def State.run (s : State) (f : Env → Hw → Host.Outcome Hw Fault Refusal) : Host.Outcome State Fault Refusal :=
  match f ⟨s.clk, s.mem⟩ s.hw with
  | .next h => .next { s with mem := flush h.wq s.mem, hw := { h with wq := [] } }
  | .fault r => .fault r
  | .refused r => .refused r

/-- A step of the package: a meaning that always goes on. -/
def State.event (s : State) (f : Env → Hw → Hw) : Host.Outcome State Fault Refusal :=
  s.run fun e h => .next (f e h)

end Sys2Proof.Machine
end

