-- ==== Sys2Proof/Machine/Mem.lean ====
section
/-! DEFINITION. Sys2Proof/Machine/Mem.lean: the physical map and channels (R16, R20, R21, R67), homes (R23, R193),
translation and its caches (R172 to R174, R199 to R202), the L2 (R72, R204), the L1 (R185 to R187), tile tags
(R84 to R93). -/
namespace Sys2Proof.Machine

/-! ## The physical map (Table 1.2) -/

inductive PaKind where | hbm | peer | host | internal | hole
  deriving DecidableEq, Repr

def paKind (pa : Nat) : PaKind :=
  if pa < 0x9000000000 then .hbm
  else if pa < 0x4000000000000 then .hole
  else if pa < 0x8000000000000 then .peer
  else if pa < 0xC000000000000 then .host
  else if pa < 0xF000000000000 then .hole
  else if pa < 0x10000000000000 then .internal
  else .hole

/-- Address of handler record slot `k` of a partition (R106; log 18). -/
def recordSlot (p k : Nat) : Nat := 0xF000000000000 + Config.recordBase % 2 ^ 30 * 2 ^ 18 + 4096 * (p % 64) + 64 * (k % 64)
/-- Is an address in the handler record slots? -/
def inRecords (pa : Nat) : Bool := decide (recordSlot 0 0 ≤ pa) && decide (pa < recordSlot 0 0 + 2 ^ 18)

/-- Global channel of an HBM address (R21). -/
def chanOf (pa : Nat) : Nat := 32 * (pa / 0xC00000000) + pa % 0xC00000000 / 0x60000000
/-- The die that owns an HBM address's stack (R13). -/
def stackDie (pa : Nat) : Nat := pa / 0xC00000000 / 3
/-- Is the address in the top 64 MiB of its channel (R67)? -/
def inSaveReserve (pa : Nat) : Bool := decide (0x60000000 - 0x4000000 ≤ pa % 0xC00000000 % 0x60000000)

/-- Does the partition own the channel of an HBM address? -/
def Part.ownsAddr (p : Part) (pa : Nat) : Bool := paKind pa == .hbm && p.owns.chans.getLsbD (chanOf pa)

/-! ## Homes (R14, R23, R193) -/

/-- Die crossings between two compute dies (Table 1.1): neighbours 0-1, 1-3, 3-2, 2-0. -/
def crossings (a b : Nat) : Nat := if a = b then 0 else if a + b = 3 then 2 else 1

/-- The I/O die, in the numbering of links: it follows the compute dies 0 to 3. -/
def ioDie : Nat := 4
/-- The link between two neighbour dies, of the eight (R14): 0 to 3 join 0-1, 1-3, 3-2, 2-0, and 4 + d joins die d to the I/O
die. -/
def linkOf (a b : Nat) : Nat :=
  if a = ioDie then 4 + b else if b = ioDie then 4 + a
  else if a + b = 1 then 0 else if a + b = 4 then 1 else if a + b = 5 then 2 else 3
/-- The links from a die to another: a diagonal pair goes through the intermediate die with the lower number (R14). -/
def linkPath (a b : Nat) : List Nat :=
  if a = b then []
  else if a ≠ ioDie ∧ b ≠ ioDie ∧ a + b = 3 then
    let m := if a = 0 ∨ b = 0 then 1 else 0
    [linkOf a m, linkOf m b]
  else [linkOf a b]
/-- Do all links between two dies carry requests: none retrains or has failed (R15)? -/
def Hw.carries (h : Hw) (a b : Nat) : Bool := (linkPath a b).all fun k => Tab.getD h.links k .up == .up

/-- The nearest die that meets `ok`, the lower number on a tie. -/
def nearestDie (ok : Nat → Bool) (d : Nat) : Option Nat :=
  ((List.range 4).filter fun x => ok x && crossings d x == 0).head?.or
    (((List.range 4).filter fun x => ok x && crossings d x == 1).head?.or
      ((List.range 4).filter fun x => ok x && crossings d x == 2).head?)

/-- Slices and rings a partition owns on a die, rising. -/
def Part.slicesOn (p : Part) (d : Nat) : List Nat :=
  (List.range 24).filterMap fun j => if p.owns.slices.getLsbD (24 * d + j) then some (24 * d + j) else none
def Part.ringsOn (p : Part) (d : Nat) : List Nat :=
  (List.range 5).filterMap fun j => if p.owns.rings.getLsbD (5 * d + j) then some (5 * d + j) else none
def Part.rings (p : Part) : List Nat := (List.range 20).filter fun r => p.owns.rings.getLsbD r

/-- The home die a mapper gives a page (R23): the die of its stack, or the lowest die with a slice for a peer or host
page; the nearest die with a slice where that die has none. -/
def Part.homeDie (p : Part) (pa : Nat) : Nat :=
  let d := if paKind pa = .hbm then stackDie pa else 0
  if paKind pa = .hbm then (nearestDie (fun x => !(p.slicesOn x).isEmpty) d).getD d
  else (((List.range 4).filter fun x => !(p.slicesOn x).isEmpty).head?).getD 0

/-- The home slice of a line whose page has home die `d` (R23). -/
def Part.homeSlice (p : Part) (d pa : Nat) : Nat :=
  let d := (nearestDie (fun x => !(p.slicesOn x).isEmpty) d).getD d
  let l := p.slicesOn d
  l.getD (lineOf pa % max 1 l.length) 0

/-- The ring whose retriever serves a slice (R193). -/
def Part.retriever (p : Part) (slice : Nat) : Option Nat :=
  let d := slice / 24
  match nearestDie (fun x => !(p.ringsOn x).isEmpty) d with
  | none => none
  | some rd =>
    let l := p.ringsOn rd
    l[((p.slicesOn d).idxOf slice) % max 1 l.length]?

/-- Function of a context (Table 3.4). -/
def fnOfCtx (c : Nat) : Nat := if c = 257 then 0 else c

/-! ## Translation entries (Table 7.3) -/

abbrev Leaf := BitVec 64

def Leaf.w (l : Leaf) : Bool := l.getLsbD 4
def Leaf.x (l : Leaf) : Bool := l.getLsbD 5
def Leaf.priv (l : Leaf) : Bool := l.getLsbD 6
def Leaf.ha (l : Leaf) : Bool := l.getLsbD 7
def Leaf.sysatom (l : Leaf) : Bool := l.getLsbD 8
def Leaf.sharedro (l : Leaf) : Bool := l.getLsbD 9
def Leaf.hwb (l : Leaf) : Bool := l.getLsbD 10
def Leaf.fcls (l : Leaf) : Nat := (l.extractLsb' 11 3).toNat
def Leaf.geom (l : Leaf) : Nat := (l.extractLsb' 14 2).toNat
def Leaf.frame (l : Leaf) : Nat := (l.extractLsb' 16 36).toNat * 65536
def Leaf.lg (l : Leaf) : Nat := let sz := (l.extractLsb' 2 2).toNat; if sz = 0 then 16 else if sz = 1 then 21 else 26
def Leaf.hdie (l : Leaf) : Nat := (l.extractLsb' 52 2).toNat
def Leaf.hhost (l : Leaf) : Bool := l.getLsbD 54
def Leaf.mig (l : Leaf) : Bool := l.getLsbD 55
def Leaf.ndie (l : Leaf) : Nat := (l.extractLsb' 56 2).toNat
def Leaf.nhost (l : Leaf) : Bool := l.getLsbD 58

/-- Is a leaf entry malformed (R174)? -/
def leafBad (l : Leaf) : Bool :=
  l.getLsbD 1 || l.extractLsb' 59 5 != 0#5 || l.extractLsb' 2 2 == 3#2 ||
  (l.extractLsb' 2 2 == 1#2 && l.extractLsb' 16 5 != 0#5) || (l.extractLsb' 2 2 == 2#2 && l.extractLsb' 16 10 != 0#10) ||
  (l.sharedro && l.w) || ((l.hhost || l.nhost) && paKind l.frame != .host)

/-- Is a table entry malformed (R173, R174)? -/
def tableBad (p : Part) (l : BitVec 64) : Bool :=
  !l.getLsbD 1 || l.extractLsb' 2 14 != 0#14 || l.extractLsb' 52 12 != 0#12 || !p.ownsAddr (Leaf.frame l)

/-- One step of the walk through a table at `tab`: the entry's address, its value, or the cause. -/
def walkTable (rd : Nat → Nat) (p : Part) (tab idx : Nat) : Except Nat Nat :=
  let l := BitVec.ofNat 64 (rd (tab + 8 * idx))
  if !l.getLsbD 0 then .error cNOTPRESENT
  else if tableBad p l then .error cPROTECT
  else .ok (Leaf.frame l)

/-- The walk of R173 and R174: the leaf and its address, NOTPRESENT or PROTECT. -/
def walk (rd : Nat → Nat) (p : Part) (root va : Nat) : Except Nat (Leaf × Nat) :=
  if !p.ownsAddr root then .error cPROTECT
  else do
    let t2 ← walkTable rd p root (va / 2 ^ 55 % 4)
    let t1 ← walkTable rd p t2 (va / 2 ^ 42 % 8192)
    let t0 ← walkTable rd p t1 (va / 2 ^ 29 % 8192)
    let at_ := t0 + 8 * (va / 2 ^ 16 % 8192)
    let l := BitVec.ofNat 64 (rd at_)
    if !l.getLsbD 0 then .error cNOTPRESENT
    else if leafBad l then .error cPROTECT
    else .ok (l, at_)

/-- Translation root of a context (Table 7.2): table address and enable. -/
def Hw.root (h : Hw) (ctx : Nat) : Nat × Bool :=
  match Tab.find? h.roots ctx with
  | none => (0, false)
  | some (w, _) => ((w.extractLsb' 16 36).toNat * 65536, w.getLsbD 0)

def Tlb.hits (ctx va : Nat) (t : Tlb) : Bool := t.ctx == ctx && va / 2 ^ t.lg == t.base / 2 ^ t.lg

/-- The cached translation a core uses, its own cache before its die's (R199). -/
def Hw.cached (h : Hw) (core ctx va : Nat) : Option Leaf :=
  (((h.core core).tlb.find? (Tlb.hits ctx va)).or
    ((Tab.getD h.dieTlb (dieOf core) []).find? (Tlb.hits ctx va))).map (·.leaf)

/-- Is a 64-bit address canonical (Table 7.1)? -/
def canonical (a : DWord) : Bool := a.extractLsb' 57 7 == (if a.getLsbD 56 then 127#7 else 0#7)

/-- The partition a context belongs to. -/
def Hw.ctxPart (h : Hw) (ctx : Nat) : Nat :=
  if 320 ≤ ctx then ctx - 320 else h.partOf (if ctx = 257 then 0 else ctx)

/-- Addresses of the entries that a walk reads (R173). -/
def walkReads (rd : Nat → Nat) (root va : Nat) : List Nat :=
  let frame (a : Nat) : Nat := Leaf.frame (BitVec.ofNat 64 (rd a))
  let a3 := root + 8 * (va / 2 ^ 55 % 4)
  let a2 := frame a3 + 8 * (va / 2 ^ 42 % 8192)
  let a1 := frame a2 + 8 * (va / 2 ^ 29 % 8192)
  [a3, a2, a1, frame a1 + 8 * (va / 2 ^ 16 % 8192)]

/-- Is a walk for a virtual address held at a home, because an engine owns the line of an entry that it reads (R189)? -/
def Hw.walkHeld (h : Hw) (e : Env) (core ctx va : Nat) : Bool :=
  !h.owners.isEmpty && (h.cached core ctx va).isNone &&
    (walkReads (fun a => h.read e a 8) (h.root ctx).1 va).any fun a => Tab.has h.owners (lineOf a)

/-- The leaf for a virtual address: a cached entry, else the walk. A context with TR.EN 0 has no page (Table 7.2). -/
def Hw.leafFor (h : Hw) (e : Env) (core ctx va : Nat) : Except Nat Leaf :=
  match h.cached core ctx va with
  | some l => .ok l
  | none =>
    let (root, en) := h.root ctx
    if !en then .error cNOTPRESENT
    else (walk (fun a => h.read e a 8) (h.part (h.ctxPart ctx)) root va).map (·.1)

/-- What an access needs of its page. -/
structure Need where
  write   : Bool
  fetch   : Bool
  handler : Bool
  bar2    : Bool
  deriving DecidableEq, Repr

/-- The permission checks (R174 item 3) and a page of GEOM 3 (R88). -/
def leafPermits (n : Need) (l : Leaf) : Bool :=
  !(n.write && !l.w) && !(n.fetch && !l.x) && !(!n.handler && l.priv) && !(n.bar2 && !l.ha) && l.geom != 3
/-- The checks of the address map (R20, R67, R171). -/
def mapPermits (n : Need) (pa : Nat) : Bool :=
  paKind pa != .hole && !(paKind pa == .hbm && inSaveReserve pa) && (paKind pa != .internal || n.handler)
def permitted (n : Need) (l : Leaf) (pa : Nat) : Bool := leafPermits n l && mapPermits n pa

/-- Translate a canonical global address for an access: the leaf and physical address, or the cause. -/
def Hw.translate (h : Hw) (e : Env) (core ctx : Nat) (n : Need) (va : DWord) : Except Nat (Leaf × Nat) :=
  if !canonical va then .error cPROTECT
  else
    let v := va.toNat % 2 ^ 57
    match h.leafFor e core ctx v with
    | .error c => .error c
    | .ok l =>
      let pa := l.frame + v % 2 ^ l.lg
      if permitted n l pa then .ok (l, pa) else .error cPROTECT

/-- A core caches an entry, under the key of the address `v` that met it: a core whose filter would have more than 1024 bits
set empties its cache and clears the filter (R199). -/
def Core.cacheTlb (c : Core) (t : Tlb) (v : Nat) : Core :=
  let bits := (Config.bloom1 t.ctx (v / 2 ^ 26) % 2048) :: (Config.bloom2 t.ctx (v / 2 ^ 26) % 2048) :: c.bloom
  if bits.length ≤ 1024 ∨ bits.eraseDups.length ≤ 1024 then { c with tlb := t :: c.tlb, bloom := bits }
  else { c with tlb := [], bloom := [] }
/-- A die's TLB takes an entry: a full one replaces another (R199). -/
def Hw.dieCache (h : Hw) (die : Nat) (t : Tlb) : Hw :=
  let d := Tab.getD h.dieTlb die []
  let d := if d.length < 6144 then d else d.eraseIdx (Config.tlbVictim h.free % 6144)
  { h with dieTlb := Tab.put h.dieTlb die (t :: d) }

/-- Cache a translation at a core and its die (R199). -/
def Hw.fillTlb (h : Hw) (core ctx : Nat) (va : DWord) (l : Leaf) : Hw :=
  let v := va.toNat % 2 ^ 57
  let t : Tlb := ⟨ctx, v / 2 ^ l.lg * 2 ^ l.lg, l.lg, l⟩
  let h := if (h.core core).tlb.any (Tlb.hits ctx v) then h else h.onCore core fun c => c.cacheTlb t v
  if (Tab.getD h.dieTlb (dieOf core) []).any (Tlb.hits ctx v) then h else h.dieCache (dieOf core) t

/-- Does a cached entry overlap a virtual range of a context? -/
def Tlb.overlaps (ctx base len : Nat) (t : Tlb) : Bool :=
  t.ctx == ctx && decide (t.base < base + len) && decide (base < t.base + 2 ^ t.lg)

/-- Drop the entries that meet `p` from a core's cache and from its die's TLB (R200). -/
def Hw.dropTlb (h : Hw) (core : Nat) (p : Tlb → Bool) : Hw :=
  let h := h.onCore core fun c =>
    let t := c.tlb.filter fun x => !p x
    { c with tlb := t, bloom := if t.isEmpty then [] else c.bloom }
  { h with dieTlb := Tab.modify h.dieTlb (dieOf core) fun d => d.filter fun x => !p x }

/-- Drop them everywhere (R172, R201). -/
def Hw.dropTlbAll (h : Hw) (p : Tlb → Bool) : Hw :=
  { h with
    cores := Tab.mapVals (fun _ (c : Core) =>
      let t := c.tlb.filter fun x => !p x
      { c with tlb := t, bloom := if t.isEmpty then [] else c.bloom }) h.cores
    dieTlb := Tab.mapVals (fun _ d => d.filter fun x => !p x) h.dieTlb }

/-! ## L2 lines: quota, hints, replacement (R72, R204; log 20) -/

/-- Table 7.12. -/
def mergeHint (c : LineClass) (hint : Nat) : LineClass :=
  if hint = 1 then (if c = .last then .last else .first)
  else if hint = 2 then .last
  else if hint = 3 then .normal
  else c

/-- Lines of the same set of a slice (in a list of at most 16 lines no set is full). A slice of 4 MiB holds 32,768 lines in
2048 sets of 16 ways (R1, R204). -/
def sameSet (l : List L2Line) (slice line : Nat) : List L2Line :=
  l.filter fun x => x.slice == slice && Config.l2Set x.line % 2048 == Config.l2Set line % 2048
/-- Is it the same resident line: its address and its context (R71)? -/
def L2Line.same (a b : L2Line) : Bool := a.line == b.line && a.ctx == b.ctx

/-- The victim among lines given most recently used first: the least recently used FIRST line, else NORMAL, else
LAST (R204). -/
def victim (l : List L2Line) : Option L2Line :=
  ((l.filter fun x => x.cls == .first).getLast?).or
    (((l.filter fun x => x.cls == .normal).getLast?).or ((l.filter fun x => x.cls == .last).getLast?))

/-- Class after a hint, at most 12 ways of a set holding LAST. -/
def hintedClass (l : List L2Line) (slice line : Nat) (c : LineClass) (hint : Nat) : LineClass :=
  let hint := if hint = 2 ∧ c ≠ .last ∧ 12 ≤ l.length ∧
    12 ≤ ((sameSet l slice line).filter fun x => x.cls == .last).length then 0 else hint
  mergeHint c hint

/-- An access performed at a line's home touches the line in L2: recency, class, fill, quota; it hits an equal context or
context 0 only (R71). `quota` is 0 for none. Answers the line evicted, if any. -/
def l2Touch (l : List L2Line) (slice line ctx fill hint quota : Nat) (dirty : Bool) : List L2Line × Option L2Line × Bool :=
  match l.find? fun x => x.line == line && (x.ctx == ctx || x.ctx == 0) with
  | some x =>
    if x.ctx = 0 ∧ x.fill ≠ fill then (l, none, true)
    else
      let rest := l.filter fun y => !y.same x
      ({ x with cls := hintedClass rest slice line x.cls hint, dirty := x.dirty || dirty } :: rest, none, true)
  | none =>
    let new : L2Line := ⟨line, ctx, fill, hintedClass l slice line .normal hint, dirty, slice⟩
    let isOver := quota ≠ 0 ∧ quota * 8192 ≤ (l.filter fun x => x.fill == fill).length
    if isOver then
      match ((sameSet l slice line).filter fun x => x.fill == fill).getLast? with
      | some v => (new :: l.filter (fun y => !y.same v), some v, false)
      | none => (l, none, false)
    else if l.length < 16 then (new :: l, none, false)
    else
      let s := sameSet l slice line
      if s.length < 16 then (new :: l, none, false)
      else match victim s with
        | some v => (new :: l.filter (fun y => !y.same v), some v, false)
        | none => (new :: l, none, false)

/-! ## Spare bits (R214) -/

/-- All records of a line, without repeats, and whether one record in one role fills whole sectors. -/
def lineMarks (marks : Tab WordMarks) (line : Nat) : List (Nat × WordMarks) := marks.filter fun e => e.1 / 32 == line
def WordMarks.records (m : WordMarks) : List Mark := (match m.writer with | some r => [r] | none => []) ++ m.others
def lineRecords (marks : Tab WordMarks) (line : Nat) : List Mark :=
  ((lineMarks marks line).flatMap fun e => e.2.records).eraseDups

/-- The form in which a line's marks go to its spare bits (R214). -/
def spareForm (marks : Tab WordMarks) (line : Nat) : SpareForm :=
  let ws := (lineMarks marks line).filter fun e => !e.2.records.isEmpty
  match ws with
  | [] => .none
  | (_, m) :: _ =>
    let sectors := (ws.map fun e => e.1 % 32 / 8).eraseDups
    if m.records.length = 1 ∧ ws.all (fun e => e.2 == m) ∧ ws.length = 8 * sectors.length then .compact else .pointer

/-- CLASS of a mark record (Table 8.3). -/
def clsCode : Cls → Nat
  | .data => 0
  | .flg => 1
  | .cnt => 2
  | .red => 3
  | .xch => 4
  | .eng => 5
/-- The spare bits of a line in compact form: its one record, its marked sectors, its context (Table 8.4). -/
def compactWord (marks : Tab WordMarks) (line ctx : Nat) : BitVec 64 :=
  let sectors := ((lineMarks marks line).map fun e => e.1 % 32 / 8).eraseDups
  match (lineRecords marks line).head? with
  | none => 0#64
  | some r => BitVec.ofNat 64 (1 + r.party.toNat * 2 ^ 2 + r.intv % 2 ^ 24 * 2 ^ 22 + clsCode r.cls * 2 ^ 46 +
      (if r.w then 2 ^ 49 else 0) + (sectors.map (2 ^ ·)).sum * 2 ^ 50 + ctx % 1024 * 2 ^ 54)
/-- The spare bits of a line in pointer form (Table 8.4). -/
def pointerWord (entry ctx : Nat) : BitVec 64 := BitVec.ofNat 64 (2 + entry % 2 ^ 40 * 2 ^ 2 + ctx % 1024 * 2 ^ 42)
/-- Spare bits that no line may hold: FORM 3, or a reserved CLASS (R214). -/
def spareBad (x : BitVec 64) : Bool :=
  x.extractLsb' 0 2 == 3#2 || (x.extractLsb' 0 2 == 1#2 && decide (6 ≤ (x.extractLsb' 46 3).toNat))

/-- Overflow entries in use in a partition, whose number is PMOUSED, and how many its area holds (Table 8.7). -/
def Hw.pmoTaken (h : Hw) (p : Nat) : List Nat :=
  (h.ovf.flatMap fun e => if h.ctxPart (Tab.getD h.mctx e.1 0) = p then e.2 else []) ++
    h.fcores.flatMap fun e => if h.partOf (e.1 / 256) = p then e.2.ovf.flatMap (·.2) else []
def Hw.pmoUsed (h : Hw) (p : Nat) : Nat := (h.pmoTaken p).length
def Part.pmoSize (p : Part) : Nat := if p.pmosize < 16 then 0 else 2 ^ p.pmosize / 256

/-- The read record with the lowest interval that no word references as its writer (R215). -/
def dropCandidate (rs ws : List Mark) : Option Mark :=
  (rs.filter fun r => !r.w && !ws.contains r).foldl (fun b r =>
    match b with
    | none => some r
    | some x => if r.intv < x.intv then some r else some x) none

/-- Remove a record from every word of a line, and words left without records. -/
def dropRecord (marks : Tab WordMarks) (line : Nat) (r : Mark) : Tab WordMarks :=
  Tab.keep (fun _ m => !m.records.isEmpty) (Tab.mapVals (fun k (m : WordMarks) =>
    if k / 32 = line then ⟨if m.writer = some r then none else m.writer, m.others.filter (· != r)⟩ else m) marks)

/-- A mark record was dropped: PMOLOST counts it (R215). -/
def Hw.lostMark (h : Hw) (p : Nat) : Hw :=
  h.onPart p fun x => { x with pmolost := min (x.pmolost + 1) 0xFFFFFFFF }

/-- Take `n` free entries of an area of `size`: the lowest for scratchpad lines, a line's first entry (`first`) below 2^24, the
highest for global lines (R216). -/
def takeEntries (taken : List Nat) (size n : Nat) (scr first : Bool) : Option (List Nat) :=
  let cand := (List.range (taken.length + n)).map fun j => if scr then j else size - 1 - j
  let free := (cand.filter fun j => j < size && !taken.contains j).take n
  if size < taken.length + n ∨ free.length < n ∨ (first ∧ 2 ^ 24 ≤ free.headD 0) then none else some free

/-- Entries that `n` records take. -/
def entriesFor (n : Nat) : Nat := (n + 11) / 12

/-- Event 0x14: overflow entries taken at a line's home (Table 11.7). -/
def Hw.tookEntries (h : Hw) (p line n : Nat) : Hw :=
  let c := Tab.getD h.mctx line 0
  let q := h.part p
  h.count (if c = 257 then 0 else c) 1 (q.homeSlice (q.homeDie (128 * line)) (128 * line)) 0x14 0 n

/-- A line in pointer form has no entry and takes one; with none free, records are dropped until none is needed (R215;
log 22). -/
def Hw.takePointer : Nat → Hw → Nat → Hw
  | 0, h, _ => h
  | n + 1, h, line =>
    let p := h.ctxPart (Tab.getD h.mctx line 0)
    if Tab.has h.ovf line ∨ spareForm h.marks line ≠ .pointer then h
    else
      let rs := lineRecords h.marks line
      match takeEntries (h.pmoTaken p) (h.part p).pmoSize (entriesFor rs.length) false false with
      | some l => ({ h with ovf := Tab.put h.ovf line l }).tookEntries p line l.length
      | none =>
        let ws := (lineMarks h.marks line).filterMap fun e => e.2.writer
        match (dropCandidate rs ws).or rs.head? with
        | some r => Hw.takePointer n ({ h with marks := dropRecord h.marks line r }.lostMark p) line
        | none => h

/-- The spare bits of a line as they are written when it leaves L2 (R214). -/
def Hw.spareWord (h : Hw) (line : Nat) : BitVec 64 :=
  let ctx := Tab.getD h.mctx line 0
  match Tab.find? h.ovf line with
  | some es => pointerWord (es.headD 0) ctx
  | none => if spareForm h.marks line = .compact then compactWord h.marks line ctx else 0#64

/-- A line leaves L2: its marks go to the spare bits; the compact form keeps no program counter (R214, Table 8.9). A
line that holds overflow entries keeps them in pointer form. -/
def Hw.leaveL2 (h : Hw) (line : Nat) : Hw :=
  if Tab.has h.ovf line then { h with spare := Tab.put h.spare line (h.spareWord line) }
  else
    let h := h.takePointer ((lineRecords h.marks line).length + 1) line
    let f := spareForm h.marks line
    let strip (m : Mark) : Mark := { m with pc := none }
    { h with
      spare := Tab.store 0#64 h.spare line (h.spareWord line)
      marks := if f = .compact then
          Tab.mapVals (fun k (m : WordMarks) => if k / 32 = line then ⟨m.writer.map strip, m.others.map strip⟩ else m)
            h.marks
        else h.marks }

/-! ## Accesses performed at homes -/

/-- What a home needs to know of an access: requester's context (R280), hint, page, and whether the access is
performed beyond the home, at a peer package's home or at the host (Table 7.4). -/
structure HomeReq where
  ctx  : Nat
  hint : Nat
  leaf : Leaf
  far  : Bool
  deriving DecidableEq, Repr

/-- Is a synchronising access of a page performed beyond this package's home (Table 7.4): at system scope at the peer
package's home, and at the host where HWB is 0; an atomic to host memory stays at the home (R41)? -/
def farOf (leaf : Leaf) (pa : Nat) (system atomic : Bool) : Bool :=
  match paKind pa with
  | .peer => system
  | .host => !atomic && !leaf.hwb
  | _ => false

/-- The die that performs a page's accesses: the home its leaf names, or the new home once a migration of the page has
switched (R197). -/
def Hw.homeDieOf (h : Hw) (l : Leaf) (pa : Nat) : Nat :=
  match List.find? (fun (m : Nat × Migration) => m.2.switched && decide (Leaf.frame m.2.old ≤ pa) && decide (pa < Leaf.frame m.2.old + 2 ^ m.2.lg)) h.migs with
  | some m => m.2.ndie
  | none => l.hdie
/-- Is the host the home of a page (R197)? -/
def Hw.hostHome (h : Hw) (l : Leaf) (pa : Nat) : Bool :=
  match List.find? (fun (m : Nat × Migration) => m.2.switched && decide (Leaf.frame m.2.old ≤ pa) && decide (pa < Leaf.frame m.2.old + 2 ^ m.2.lg)) h.migs with
  | some m => m.2.nhost
  | none => l.hhost

/-- The slice that is home of a line for a context (R23). -/
def Hw.sliceOf (h : Hw) (ctx : Nat) (l : Leaf) (pa : Nat) : Nat := (h.part (h.ctxPart ctx)).homeSlice (h.homeDieOf l pa) pa

/-- Is a channel in self-refresh (R19)? -/
def Hw.asleep (h : Hw) (c : Nat) : Bool := (Tab.getD h.chans c (.active, 0)).1 == .selfRefresh

/-- Does a request of die `d` for a line wait on its way: for a link that retrains (R15), or for a channel in self-refresh
that it has to reach (R19)? A line in L2 is served at its home. -/
def Hw.waitsOnWay (h : Hw) (ctx d : Nat) (l : Leaf) (pa : Nat) : Bool :=
  let home := h.sliceOf ctx l pa / 24
  !h.carries d home || (!(h.l2.any fun x => x.line == lineOf pa) &&
    match paKind pa with
    | .hbm => !h.carries home (stackDie pa) || h.asleep (chanOf pa)
    | .peer => !h.carries home ioDie
    | .host => !h.carries home ioDie
    | _ => false)

/-- The device sends the frames of a transfer with a peer package: how many, and through which port, is free; they are
counted (Table 11.7; log 48) and stamped as the step ends (R28). Frames that come back come as FABRIC_FRAME_RECEIVE, if at all:
the transfer itself brings none (DESIGN CHOICE: R28 does not say what frames a transfer takes; log 48). -/
def Hw.peerFrames (h : Hw) : Hw :=
  let p := Config.peerPort h.free % 12
  let n := Config.peerFrames h.free
  ({ (h.onPort p fun x => { x with sent := x.sent + n }) with free := h.free + 1 }).count 0 3 p 0x30 0 n

/-- The bytes of a dirty line of L2 go to its memory. -/
def Hw.writtenOut (h : Hw) (x : L2Line) : Hw :=
  if !x.dirty then h
  else match paKind (128 * x.line) with
    | .hbm => h.count (fnOfCtx x.fill) 2 (chanOf (128 * x.line)) 0x21 0 2
    | .peer => h.peerFrames
    | _ => h

/-- A line has left L2: its dirty bytes are written out, and its marks go unless another context's copy stays. -/
def Hw.evicted (h : Hw) (v : L2Line) : Hw :=
  let h := h.writtenOut v
  if h.l2.any fun x => x.line == v.line then h else h.leaveL2 v.line
/-- Every copy of a line leaves L2. -/
def Hw.takenOut (h : Hw) (line : Nat) : Hw :=
  (h.l2.filter fun x => x.line == line).foldl (fun h x => h.evicted x) { h with l2 := h.l2.filter fun x => x.line != line }

/-- What an access does at a line's home: it touches the line in L2 and is counted (Table 11.7). A home that is the host holds
no data of the page (R197); spare bits that no line may hold, read from memory, poison the line (R214); a non-cached write to a host page passes L2 by and leaves no copy there (R26, Table 7.3). -/
def Hw.touchHome (h : Hw) (q : HomeReq) (pa : Nat) (write : Bool) : Hw :=
  let slice := h.sliceOf q.ctx q.leaf pa
  let fn := fnOfCtx q.ctx
  let ctx := if q.leaf.sharedro then 0 else q.ctx
  let past := paKind pa == .host && write && !q.leaf.hwb
  let h := if past then h.takenOut (lineOf pa) else h
  let (l2, ev, hit) := if h.hostHome q.leaf pa || past then (h.l2, none, false)
    else l2Touch h.l2 slice (lineOf pa) ctx q.ctx q.hint (h.fn fn).bind.quota write
  let h := { h with
    l2 := l2, spare := Tab.del h.spare (lineOf pa)
    poison := if !hit && spareBad (Tab.getD h.spare (lineOf pa) 0#64) then lineOf pa :: h.poison else h.poison }
  let h := match ev with | some v => h.evicted v | none => h
  let h := h.count fn 1 slice 0x10 0 1
  if hit then h
  else
    let h := h.count fn 1 slice 0x11 0 1
    if paKind pa = .hbm then h.count fn 2 (chanOf pa) 0x20 0 2 else if paKind pa = .peer then h.peerFrames else h

/-- An access performed at its home, or beyond it where Table 7.4 says so. -/
def Hw.atHome (h : Hw) (q : HomeReq) (pa : Nat) (write : Bool) : Hw :=
  if q.far then (if paKind pa = .peer then h.peerFrames else h) else h.touchHome q pa write

/-! ## Tags (R84 to R93) -/

def tagSt (t : BitVec 16) : Nat := (t.extractLsb' 12 2).toNat
def tagFmt (t : BitVec 16) : Nat := (t.extractLsb' 0 5).toNat
def tagSpar (t : BitVec 16) : Nat := (t.extractLsb' 5 3).toNat
def tagLay (t : BitVec 16) : Nat := (t.extractLsb' 8 4).toNat
def withSt (t : BitVec 16) (st : Nat) : BitVec 16 := (t &&& 0xCFFF#16) ||| BitVec.ofNat 16 (st * 4096)
/-- Is a format code one of Table 4.2? -/
def fmtOk (f : Nat) : Bool := f ≤ 6 || (0x12 ≤ f && f ≤ 0x18)
/-- Has a tag no reserved code (R84)? -/
def tagOk (t : BitVec 16) : Bool :=
  fmtOk (tagFmt t) && tagSpar t ≤ 3 && tagLay t ≤ 3 && t.extractLsb' 14 2 == 0#2
/-- An ordinary store into a tile (R92): raw, unless poisoned. -/
def rawTag (t : BitVec 16) : BitVec 16 := if tagSt t = 3 then t else withSt t 1

/-- Tag of a tile of memory: 0x1000 for peer and host memory (R86). -/
def Hw.tag (h : Hw) (pa : Nat) : BitVec 16 :=
  if paKind pa = .hbm then Tab.getD h.tags (tileOf pa) 0x1000#16 else 0x1000#16
def Hw.setTag (h : Hw) (pa : Nat) (t : BitVec 16) : Hw :=
  if paKind pa = .hbm then { h with tags := Tab.store 0x1000#16 h.tags (tileOf pa) t } else h
def Hw.spTag (h : Hw) (fn core off : Nat) : BitVec 16 := Tab.getD (h.fcore fn core).tags (off / 4096) 0x1000#16
def Hw.setSpTag (h : Hw) (fn core off : Nat) (t : BitVec 16) : Hw :=
  h.onFCore fn core fun c => { c with tags := Tab.store 0x1000#16 c.tags (off / 4096) t }

/-- The upkeep of an ordinary store to memory (R92), unless the tile is one the storing grid declared (R93). -/
def Hw.upkeep (h : Hw) (declared : List Nat) (pa : Nat) : Hw :=
  if declared.contains (tileOf pa) then h else h.setTag pa (rawTag (h.tag pa))
def Hw.upkeepSp (h : Hw) (fn core off : Nat) : Hw := h.setSpTag fn core off (rawTag (h.spTag fn core off))

/-! ## The L1 (R185 to R187) -/

def l1Key (ctx line : Nat) : Nat := ctx * 2 ^ 45 + line
def L1Line.empty : L1Line := ⟨0#128, 0#128, [], 0#32, 0#64, []⟩
/-- The bits of bytes [lo, lo + n) of a line. -/
def lineBits (lo n : Nat) : BitVec 128 := BitVec.ofNat 128 ((2 ^ n - 1) * 2 ^ lo)

/-- A .d store: its bytes become valid and dirty; an absent line is allocated without a fill (R185). -/
def L1Line.write (l : L1Line) (lo : Nat) (bs : List Byte) (hint : Word) (leaf : Leaf) : L1Line :=
  let m := lineBits lo bs.length
  { valid := l.valid ||| m, dirty := l.dirty ||| m, hint := hint, leaf := leaf, recs := l.recs
    bytes := bs.zipIdx.foldl (fun t (x : Byte × Nat) => Tab.put t (lo + x.2) x.1) l.bytes }

/-- Fill a 32-byte sector: only bytes that are not valid are taken from the home (R185). -/
def L1Line.fill (l : L1Line) (sector : Nat) (home : Nat → Byte) : L1Line :=
  { l with
    valid := l.valid ||| lineBits (32 * sector) 32
    bytes := (List.range 32).foldl (fun t j =>
      let k := 32 * sector + j
      if l.valid.getLsbD k then t else Tab.put t k (home k)) l.bytes }

/-- Bytes as the L1 or, where not valid, the home has them. -/
def L1Line.read (l : L1Line) (home : Nat → Byte) (lo n : Nat) : List Byte :=
  (List.range n).map fun j => if l.valid.getLsbD (lo + j) then Tab.getD l.bytes (lo + j) 0#8 else home (lo + j)

def Hw.l1 (h : Hw) (core ctx line : Nat) : L1Line := Tab.getD (h.core core).l1 (l1Key ctx line) L1Line.empty
def Hw.setL1 (h : Hw) (core ctx line : Nat) (l : L1Line) : Hw :=
  h.onCore core fun c =>
    { c with l1 := if l.valid = 0#128 ∧ l.dirty = 0#128 then Tab.del c.l1 (l1Key ctx line)
      else Tab.put c.l1 (l1Key ctx line) l }

/-- Context number under which an L1 keeps the lines that a unit guards (R110). -/
def guardCtx (u : Nat) : Nat := 2 ^ 20 + u
/-- Dirty bytes of a line, by physical address. -/
def L1Line.dirtyBytes (l : L1Line) (line : Nat) : List (Nat × Byte) :=
  (List.range 128).filterMap fun k => if l.dirty.getLsbD k then some (128 * line + k, Tab.getD l.bytes k 0#8) else none

/-- Write back one line's dirty bytes: the home merges them under their mask (R186). A guarded line goes to its unit's guard store
instead (R110). -/
def Hw.writeBackLine (h : Hw) (core ctx line : Nat) : Hw :=
  let l := h.l1 core ctx line
  if l.dirty = 0#128 then h
  else if 2 ^ 20 ≤ ctx then
    (h.onUnit (ctx - 2 ^ 20) fun x =>
      { x with gmem := (l.dirtyBytes line).foldl (fun t (y : Nat × Byte) => Tab.put t y.1 y.2) x.gmem }).setL1 core ctx line L1Line.empty
  else
    let h := { h with wq := l.dirtyBytes line ++ h.wq }
    let h := h.atHome ⟨ctx, (l.hint.extractLsb' 0 2).toNat, l.leaf, false⟩ (128 * line) true
    let h := h.count (fnOfCtx ctx) 1 (h.sliceOf ctx l.leaf (128 * line)) 0x12 0 1
    h.setL1 core ctx line { l with dirty := 0#128 }

/-- Lines that a core's L1 holds beside a scratchpad of `split` KiB: they share 768 KiB (R1). -/
def l1Lines (split : Nat) : Nat := 8 * (768 - split)
/-- Size of a core's scratchpad as it stands: that of the function which runs there (R79, R125). -/
def Hw.splitAt (h : Hw) (core : Nat) : Nat :=
  match (List.find? (fun (x : Nat × Part) => x.2.live && x.2.owns.rings.getLsbD (ringOf core)) h.parts).bind fun x => x.2.running with
  | some f => (h.fcore f core).split
  | none => 128
/-- Evict lines of a core's L1, any of them (log 21), until `cap` remain: dirty bytes are written back (R186). -/
def Hw.fitL1 : Nat → Hw → Nat → Nat → Hw
  | 0, h, _, _ => h
  | n + 1, h, core, cap =>
    let l := (h.core core).l1
    if l.length ≤ cap then h
    else match (l[Config.l1Victim h.free % l.length]?).map (·.1) with
      | none => h
      | some k =>
        let h := { h with free := h.free + 1 }
        Hw.fitL1 n ((h.writeBackLine core (k / 2 ^ 45) (k % 2 ^ 45)).setL1 core (k / 2 ^ 45) (k % 2 ^ 45)
          L1Line.empty) core cap
/-- The L1 of a core gives up what a scratchpad of `split` KiB leaves no room for (R79, R125, R186). -/
def Hw.shrinkL1 (h : Hw) (core split : Nat) : Hw := h.fitL1 (h.core core).l1.length core (l1Lines split)
/-- Put a line into a core's L1; where it is new and the L1 is full, another line is evicted. -/
def Hw.fillL1 (h : Hw) (core ctx line : Nat) (l : L1Line) : Hw :=
  let h := if Tab.has (h.core core).l1 (l1Key ctx line) then h
    else h.fitL1 (h.core core).l1.length core (l1Lines (h.splitAt core) - 1)
  h.setL1 core ctx line l

/-- Lines of a context in a core's L1. -/
def Hw.l1Lines (h : Hw) (core ctx : Nat) : List Nat :=
  (h.core core).l1.filterMap fun e => if e.1 / 2 ^ 45 = ctx then some (e.1 % 2 ^ 45) else none

/-- Write back every dirty byte of a core's L1 under a context (R186), and with a function's own context the lines that its units
guard (R110). -/
def Hw.writeBack (h : Hw) (core ctx : Nat) : Hw :=
  let h := (h.l1Lines core ctx).foldl (fun h line => h.writeBackLine core ctx line) h
  (h.units.filter fun x => ctxOf x.2.fn == ctx).foldl (fun h x =>
    (h.l1Lines core (guardCtx x.1)).foldl (fun h line => h.writeBackLine core (guardCtx x.1) line) h) h

/-- Clear every valid byte that is not dirty under a context, and context-0 lines (R187). -/
def Hw.clearClean (h : Hw) (core ctx : Nat) : Hw :=
  h.onCore core fun c =>
    { c with l1 := Tab.keep (fun _ (l : L1Line) => l.valid != 0#128 || l.dirty != 0#128) (Tab.mapVals (fun k (l : L1Line) =>
        if k / 2 ^ 45 = ctx ∨ k / 2 ^ 45 = 0 then { l with valid := l.dirty } else l) c.l1) }

/-- A core's L1 forgets what is clean among bytes [pa, pa + n) of a context: a later read goes to the home. -/
def Hw.forgetL1 (h : Hw) (core ctx pa n : Nat) : Hw :=
  let line := lineOf pa
  if Tab.has (h.core core).l1 (l1Key ctx line) then
    let l := h.l1 core ctx line
    h.setL1 core ctx line { l with valid := l.valid &&& (~~~lineBits (pa % 128) n ||| l.dirty) }
  else h
/-- Has a core's L1 dirty bytes of a context in a line that an engine owns, whose write-back the home holds (R189)? -/
def Hw.backHeld (h : Hw) (core ctx : Nat) : Bool :=
  !h.owners.isEmpty && (h.core core).l1.any fun x => x.1 / 2 ^ 45 == ctx && x.2.dirty != 0#128 && Tab.has h.owners (x.1 % 2 ^ 45)

/-- Drop every line of a context from a core's L1. -/
def Hw.dropL1 (h : Hw) (core ctx : Nat) : Hw :=
  h.onCore core fun c => { c with l1 := Tab.keep (fun k _ => decide (k / 2 ^ 45 ≠ ctx)) c.l1 }

/-- A system-scope release writes back the package's dirty peer lines; an acquire invalidates the clean ones (R187). -/
def Hw.peerWriteBack (h : Hw) : Hw :=
  let isPeer (x : L2Line) : Bool := paKind (128 * x.line) == .peer
  let h := (h.l2.filter isPeer).foldl (fun h x => h.writtenOut x) h
  { h with l2 := h.l2.map fun x => if isPeer x then { x with dirty := false } else x }
def Hw.peerInvalidate (h : Hw) : Hw :=
  { h with l2 := h.l2.filter fun x => x.dirty || paKind (128 * x.line) != .peer }

end Sys2Proof.Machine
end

