-- ==== Sys2Proof/Machine/Race.lean ====
section
/-! DEFINITION. Sys2Proof/Machine/Race.lean: marks, the conflict test, frontiers, releases, acquires and barrier
contributions (R205 to R231). -/
namespace Sys2Proof.Machine

/-! ## Parties and intervals -/

/-- PARTY (Table 8.1). -/
def partyOf (slot widx gen : Nat) : BitVec 20 := BitVec.ofNat 20 (slot + 4096 * widx + 131072 * gen)
def Mark.slot (m : Mark) : Nat := (m.party.extractLsb' 0 12).toNat
def Mark.widx (m : Mark) : Nat := (m.party.extractLsb' 12 5).toNat
/-- The record as Table 8.3 lays it out. -/
def Mark.bits (m : Mark) : BitVec 48 :=
  BitVec.ofNat 48 (m.party.toNat + m.intv * 2 ^ 20 + clsCode m.cls * 2 ^ 44 + (if m.w then 2 ^ 47 else 0))

/-- Does a flight make an interval event when it is performed: an acquire wider than warp scope, of anything but the barrier
alias (R208, Table 14.4)? -/
def Flight.acquires (f : Flight) : Bool :=
  match f.kind with
  | .load 1 sc _ _ => sc != .warp && f.lanes.any fun x => !(x.2.extractLsb' 56 8 == 0xFE#8 && x.2.extractLsb' 0 20 ≥ 0xF8000#20)
  | _ => false
/-- Acquires of a block that have been issued and not performed. -/
def Hw.acqsOf (h : Hw) (bk : Nat) : Nat := (h.flights.filter fun f => wkBlock f.2.wk == bk && f.2.acquires).length
/-- Releases of a block whose last element a retriever has still to perform (R348). -/
def Hw.relsOf (h : Hw) (bk : Nat) : Nat :=
  (h.rings.map fun r => ((r.2.retq ++ r.2.pend).filter fun x => x.closes && wkBlock x.wk == bk).length).sum
/-- Would `n` more interval events of a block, after those under way, pass 0xFF_FFFF (R209)? -/
def Hw.wraps (h : Hw) (bk n : Nat) : Bool :=
  n != 0 && match h.block? bk with
  | some b => decide (0xFFFFFF < b.c + (h.acqsOf bk + h.relsOf bk) + n)
  | none => false
/-- Advance the counter (R208). -/
def Hw.advance (h : Hw) (bk : Nat) : Hw := h.onBlock bk fun b => { b with c := b.c + 1 }

/-! ## The conflict test (R223) -/

/-- Table 7.6. -/
def compatible : Cls → Cls → Bool
  | .cnt, .cnt => true
  | .cnt, .red => true
  | .red, .cnt => true
  | .red, .red => true
  | .flg, .flg => true
  | .flg, .xch => true
  | .xch, .flg => true
  | .xch, .xch => true
  | _, _ => false

/-- An access as its marks and checks see it: the party, its slot and start interval, the interval it is marked with,
what its warp is ordered after, its class, write flag, and program counter under RC.PCREC. -/
structure Claim where
  party : BitVec 20
  slot  : Nat
  st    : Nat
  intv  : Nat
  front : Tab Nat
  row   : Tab Nat
  cls   : Cls
  w     : Bool
  pc    : Option (BitVec 32)
  deriving DecidableEq, Repr

def Claim.mark (q : Claim) : Mark := ⟨q.party, q.intv, q.cls, q.w, q.pc⟩

/-- The highest interval of the record's party that the accessing warp is ordered after. -/
def Claim.limit (q : Claim) (r : Mark) : Nat :=
  if r.slot = q.slot ∧ q.st ≤ r.intv then Tab.getD q.row r.widx 0 else Tab.getD q.front r.slot 0
def Claim.ordered (q : Claim) (r : Mark) : Bool := decide (r.intv ≤ q.limit r)
/-- Does the access conflict with the record? -/
def Claim.hits (q : Claim) (r : Mark) : Bool :=
  r.party != q.party && (q.w || r.w) && !compatible q.cls r.cls && !q.ordered r

/-- The conflict a word reports: its writer first, else the record with the highest interval (R224). -/
def Claim.conflict (q : Claim) (m : WordMarks) : Option Mark :=
  match m.writer.filter q.hits with
  | some r => some r
  | none => (m.others.filter q.hits).foldl (fun b r =>
      match b with
      | none => some r
      | some x => if x.intv < r.intv then some r else some x) none

/-- A waived access removes the records it conflicts with (R226). -/
def Claim.waive (q : Claim) (m : WordMarks) : WordMarks :=
  ⟨m.writer.filter fun r => !q.hits r, m.others.filter fun r => !q.hits r⟩

/-- The update of a word by an access that passed (R212). -/
def Claim.install (q : Claim) (m : WordMarks) : WordMarks :=
  let new := q.mark
  if q.w then
    let stays (r : Mark) : Bool := r.party != q.party && !q.ordered r
    let rest := (match m.writer with | some r => [r] | none => []) ++ m.others
    ⟨some new, (rest.filter stays).eraseDups⟩
  else
    let goes (r : Mark) : Bool := !r.w && (r.party == q.party || q.ordered r)
    ⟨m.writer, (m.others.filter fun r => !goes r) ++ [new]⟩

/-! ## Marks at homes and in scratchpad -/

/-- Where a word's marks are: memory (by physical word), a core's scratchpad under a function, a guarded unit. -/
inductive Site where
  | mem (word : Nat)
  | scr (fn core word : Nat)
  | guard (unit word : Nat)
  deriving DecidableEq, Repr

def WordMarks.none : WordMarks := ⟨Option.none, []⟩
def putMarks (t : Tab WordMarks) (w : Nat) (m : WordMarks) : Tab WordMarks :=
  if m.records.isEmpty then Tab.del t w else Tab.put t w m

def Hw.marksAt (h : Hw) : Site → WordMarks
  | .mem w => Tab.getD h.marks w WordMarks.none
  | .scr fn core w => Tab.getD (h.fcore fn core).marks w WordMarks.none
  | .guard u w => match Tab.find? h.units u with
    | some x => Tab.getD x.gmarks w WordMarks.none
    | none => WordMarks.none

/-- A line without marks holds no overflow entry and belongs to no context (R213, R215). -/
def Hw.tidyLine (h : Hw) (line : Nat) : Hw :=
  if (lineMarks h.marks line).isEmpty then
    { h with mctx := Tab.del h.mctx line, ovf := Tab.del h.ovf line, spare := Tab.del h.spare line }
  else h

def Hw.setMarks (h : Hw) (s : Site) (m : WordMarks) : Hw :=
  match s with
  | .mem w => { h with marks := putMarks h.marks w m }.tidyLine (w / 32)
  | .scr fn core w => h.onFCore fn core fun c =>
      let t := putMarks c.marks w m
      { c with marks := t, ovf := if (lineMarks t (w / 32)).isEmpty then Tab.del c.ovf (w / 32) else c.ovf }
  | .guard u w => h.onUnit u fun x => { x with gmarks := putMarks x.gmarks w m }

/-- Is the word's access checked under context `ctx` (R213)? -/
def Hw.checks (h : Hw) (ctx : Nat) : Site → Bool
  | .mem w => match Tab.find? h.mctx (w / 32) with
    | some c => c == ctx
    | none => true
  | _ => true

/-- Entries a line lacks once it has `n` records, with `own` records kept in the line itself. -/
def entriesLack (held n own : Nat) : Nat :=
  if held = 0 ∧ n ≤ own then 0 else max 1 (entriesFor n) - held

/-- A new access reuses a record of the line with an equal PARTY, INTV and CLASS+W, which keeps its program counter (R212; log
22). -/
def Claim.reuse (q : Claim) (rs : List Mark) : Claim :=
  match rs.find? fun r => r.party == q.party && r.intv == q.intv && r.cls == q.cls && r.w == q.w with
  | some r => { q with pc := r.pc }
  | none => q

/-- Install a mark at a word (R212), taking overflow entries as R215 and R216 say; with none free, a record is dropped
or the mark is not installed. -/
def Hw.install (h : Hw) (ctx : Nat) (s : Site) (q : Claim) : Hw :=
  match s with
  | .mem w =>
    let line := w / 32
    let m := (q.reuse (lineRecords h.marks line)).install (h.marksAt s)
    let h' := { h with mctx := Tab.put h.mctx line ctx, marks := putMarks h.marks w m }
    let held := Tab.getD h.ovf line []
    let lack := entriesLack held.length (lineRecords h'.marks line).length 4
    let p := h.ctxPart ctx
    if lack = 0 then h'
    else
      match takeEntries (h.pmoTaken p) (h.part p).pmoSize lack false false with
      | some l => ({ h' with ovf := Tab.put h'.ovf line (held ++ l) }).tookEntries p line l.length
      | none =>
        match dropCandidate (lineRecords h.marks line) ((lineMarks h'.marks line).filterMap fun e => e.2.writer) with
        | some r => ({ h' with marks := dropRecord h'.marks line r }).lostMark p
        | none => h
  | .scr fn core w =>
    let c := h.fcore fn core
    let line := w / 32
    let m := (q.reuse (lineRecords c.marks line)).install (h.marksAt s)
    let t := putMarks c.marks w m
    let held := Tab.getD c.ovf line []
    let lack := entriesLack held.length (lineRecords t line).length 2
    let p := h.partOf fn
    if lack = 0 then h.onFCore fn core fun c => { c with marks := t }
    else
      match takeEntries (h.pmoTaken p) (h.part p).pmoSize lack true held.isEmpty with
      | some l => h.onFCore fn core fun c => { c with marks := t, ovf := Tab.put c.ovf line (held ++ l) }
      | none =>
        match dropCandidate (lineRecords c.marks line) ((lineMarks t line).filterMap fun e => e.2.writer) with
        | some r => (h.onFCore fn core fun c => { c with marks := dropRecord t line r }).lostMark p
        | none => h
  | .guard .. => h.setMarks s (q.install (h.marksAt s))

/-- Words of a range of bytes. -/
def wordsOf (a n : Nat) : List Nat := (List.range ((a % 4 + n + 3) / 4)).map fun j => a / 4 + j

/-- Does a core's L1 copy of the records of a word's line carry a mark (R211)? A mark of an earlier interval of its party is
none: every advance clears them. -/
def Hw.seenHas (h : Hw) (core ctx w : Nat) (m : Mark) : Bool := (h.l1 core ctx (w / 32)).recs.contains (w, m)
/-- The L1 copy of a line takes a record: it holds four, and the oldest goes first (R210; log 22). -/
def L1Line.noteMark (l : L1Line) (w : Nat) (m : Mark) : L1Line :=
  let rs := (w, m) :: l.recs.filter fun x => x.2.slot != m.slot || x.2.intv == m.intv
  let keep := ((rs.map (·.2)).eraseDups).take 4
  { l with recs := (rs.filter fun x => keep.contains x.2).eraseDups }
/-- A word's mark goes into the copy of a line that the core's L1 holds. -/
def Hw.seenAdd (h : Hw) (core ctx w : Nat) (m : Mark) : Hw :=
  h.onCore core fun c => { c with l1 := Tab.modify c.l1 (l1Key ctx (w / 32)) fun l => l.noteMark w m }

/-! ## Frontiers, releases and acquires -/

/-- Cluster number of a block: its grid and its cluster within the grid. -/
def Block.clusterId (b : Block) : Nat := b.grid * 2 ^ 40 + b.lin / max 1 b.shape.bpc
/-- Warps of the block, consumers of a unit's check kernel included (R108). -/
def Block.nWarps (b : Block) : Nat :=
  b.shape.wpb + (match b.cons with | some c => c.wpb | none => 0)

/-- A warp's intra row with its own entry at c (R218). -/
def Block.row (b : Block) (u : Nat) : Tab Nat :=
  Tab.put ((List.range 32).filterMap fun x =>
    (Tab.find? b.intra (32 * u + x)).map fun v => (x, v)) u b.c
/-- Publication interval of warp u (R218): the least of intra[u] over the block's warps. -/
def pubOf (n : Nat) (row : Tab Nat) : Nat :=
  ((List.range n).map fun x => Tab.getD row x 0).foldl min 0xFFFFFF

/-- What the claims of a warp of a block carry. -/
def Block.claim (b : Block) (slot u intv : Nat) (cls : Cls) (w : Bool) (pc : Option (BitVec 32)) : Claim :=
  ⟨partyOf slot u b.gen, slot, b.st, intv, b.front, b.row u, cls, w, pc⟩

/-- The snapshot a release takes (R219). -/
def Block.snapshot (b : Block) (fn slot u : Nat) (scope : Scope) (bk : Nat) : RelRec :=
  let pub := pubOf b.nWarps (b.row u)
  { fn := fn, snap := Tab.put b.front slot (max (Tab.getD b.front slot 0) pub), row := some (slot, b.gen)
    intra := b.row u, scope := scope, block := bk, gen := b.gen, cluster := b.clusterId, recycled := false }

def Scope.rank : Scope → Nat
  | .warp => 0
  | .block => 1
  | .cluster => 2
  | .device => 3
  | .system => 4
def Scope.wider (a b : Scope) : Scope := if a.rank < b.rank then b else a
/-- Cluster scope or wider. -/
def Scope.far (s : Scope) : Bool := decide (2 ≤ s.rank)

/-- A release read-modify-write merges its snapshot into the record (R219). -/
def RelRec.merge (old new : RelRec) : RelRec :=
  let o := if old.scope.rank < new.scope.rank then old else new
  { fn := new.fn, snap := Tab.maxMerge old.snap new.snap, row := new.row
    intra := if old.row = new.row then Tab.maxMerge old.intra new.intra else new.intra
    scope := o.scope, block := o.block, gen := o.gen, cluster := o.cluster, recycled := false }

/-- Is the acquiring warp in the release's scope instance, and the releaser in the acquire's (R179, R181)? -/
def inScope (r : RelRec) (s : Scope) (fn : Nat) (b : Block) (bk : Nat) : Bool :=
  let one (s : Scope) : Bool := match s with
    | .warp => false
    | .block => r.block == bk && r.gen == b.gen
    | .cluster => r.fn == fn && r.cluster == b.clusterId
    | .device => true
    | .system => true
  one r.scope && one s

/-- The merge of R220. -/
def Block.acquire (b : Block) (slot u : Nat) (r : RelRec) : Block :=
  let b := { b with front := Tab.maxMerge b.front r.snap }
  let b := if r.row = some (slot, b.gen) then
      { b with intra := r.intra.foldl (fun t e =>
          if Tab.getD t (32 * u + e.1) 0 < e.2 then Tab.put t (32 * u + e.1) e.2 else t) b.intra }
    else b
  let v := Tab.getD r.snap slot 0
  if b.st ≤ v then
    { b with intra := (List.range 32).foldl (fun t x =>
        if Tab.getD t (32 * u + x) 0 < v then Tab.put t (32 * u + x) v else t) b.intra }
  else b

/-- Warp u of block bk acquires, at scope s, what a record published (R220). -/
def Hw.acquireRec (h : Hw) (bk u : Nat) (s : Scope) (r : RelRec) : Hw :=
  if r.fn ≠ bkFn bk then h
  else
    match (if r.recycled then (h.fn (bkFn bk)).race.retired else some r) with
    | none => h
    | some r =>
      match h.block? bk with
      | none => h
      | some b => if inScope r s (bkFn bk) b bk then h.onBlock bk fun b => b.acquire (bkSlot bk) u r else h

/-- Words a release record can be attached to. -/
inductive RecAt where
  | mem (word : Nat)
  | scr (fn core word : Nat)
  deriving DecidableEq, Repr

def Hw.recAt (h : Hw) : RecAt → Option RelRec
  | .mem w => Tab.find? h.recs w
  | .scr fn core w => Tab.find? (h.fcore fn core).recs w
def RecAt.key (fn : Nat) : RecAt → Nat × (Bool × Nat)
  | .mem w => (fn, (false, w))
  | .scr f core w => (f, (true, core * 2 ^ 20 + w))
def Hw.putRec (h : Hw) (a : RecAt) (r : Option RelRec) : Hw :=
  match a with
  | .mem w => { h with recs := match r with | some r => Tab.put h.recs w r | none => Tab.del h.recs w }
  | .scr fn core w => h.onFCore fn core fun c =>
      { c with recs := match r with | some r => Tab.put c.recs w r | none => Tab.del c.recs w }

/-- Where a function's pool record is attached. -/
def recSite (fn : Nat) (k : Bool × Nat) : RecAt :=
  if k.1 then .scr fn (k.2 / 2 ^ 20) (k.2 % 2 ^ 20) else .mem k.2

/-- A store that is not a release, or a write by no party, removes the record (R219). -/
def Hw.dropRec (h : Hw) (a : RecAt) : Hw :=
  match h.recAt a with
  | none => h
  | some r =>
    (h.onFn r.fn fun f => { f with race := { f.race with order := f.race.order.filter (· != (a.key r.fn).2) } }).putRec
      a none

/-- The host, a queue command or the device writes: the marks and the records of the words go (R38, R51, R112, R213,
R219). -/
def Hw.clearWord (h : Hw) (w : Nat) : Hw := (h.dropRec (.mem w)).setMarks (.mem w) WordMarks.none
def Hw.clearMarks (h : Hw) (pa n : Nat) : Hw := (wordsOf pa n).foldl Hw.clearWord h

/-- The pool has no free record: the least recently attached one goes into the retired record (R219). -/
def Hw.recycle (h : Hw) (fn : Nat) : Hw :=
  let f := h.fn fn
  if f.race.order.length + 1 < f.race.rrcnt then h
  else match f.race.order with
    | [] => h
    | k :: ks =>
      let a := recSite fn k
      match h.recAt a with
      | none => h.onFn fn fun f => { f with race := { f.race with order := ks } }
      | some r =>
        let ret := match f.race.retired with
          | some o => o.merge r
          | none => r
        let race : Race := { f.race with order := ks, lost := min (f.race.lost + 1) 0xFFFFFFFF, retired := some ret }
        (h.onFn fn fun f => { f with race := race }).putRec a (some { r with recycled := true })

/-- Attach a release to a word (R219): a store replaces the record, a read-modify-write merges into it. -/
def Hw.attach (h : Hw) (a : RecAt) (r : RelRec) (rmw : Bool) : Hw :=
  let old := (h.recAt a).filter fun o => o.fn == r.fn
  let base := match old with
    | none => none
    | some o => if o.recycled then (h.fn r.fn).race.retired else some o
  let new := if rmw then (match base with | some o => o.merge r | none => r) else r
  let h := h.dropRec a
  let h := h.recycle r.fn
  (h.onFn r.fn fun f => { f with race := { f.race with order := f.race.order ++ [(a.key r.fn).2] } }).putRec a
    (some { new with recycled := false })

/-- Attach a release to every word it wrote, and acquire what some words' records published. -/
def Hw.attachAll (h : Hw) (l : List RecAt) (r : RelRec) (rmw : Bool) : Hw := l.foldl (fun h a => h.attach a r rmw) h
def Hw.acquireAll (h : Hw) (bk u : Nat) (s : Scope) (l : List RelRec) : Hw :=
  l.foldl (fun h r => h.acquireRec bk u s r) h

/-- Write back before a release and invalidate after an acquire (R186, R187). -/
def Hw.releaseSync (h : Hw) (core ctx : Nat) (s : Scope) : Hw :=
  let h := if s.far then h.writeBack core ctx else h
  if s = .system then h.peerWriteBack else h
def Hw.acquireSync (h : Hw) (core ctx : Nat) (s : Scope) : Hw :=
  let h := if s.far then h.clearClean core ctx else h
  if s = .system then h.peerInvalidate else h

/-! ## Barriers (R221) -/

/-- Keep the greater value of each key. -/
def putMax (t : Tab Nat) (k v : Nat) : Tab Nat := if Tab.getD t k 0 < v then Tab.put t k v else t

/-- The contribution of an arrival by warp u of block bk, whose block is b (R221). -/
def Barrier.contribute (x : Barrier) (b : Block) (bk u : Nat) : Barrier :=
  let rows := (b.row u).foldl (fun t e => putMax t (32 * bk + e.1) e.2) x.pendRow
  if x.cluster then
    let pub := pubOf b.nWarps ((List.range 32).map fun i => (i, Tab.getD rows (32 * bk + i) 0))
    { x with pendRow := rows, pendF := putMax (Tab.maxMerge x.pendF b.front) (bkSlot bk) pub }
  else { x with pendRow := rows }

/-- The contribution of a byte credit of a command of warp u of block bk (R221, R222). -/
def Barrier.credit (x : Barrier) (own bk u intv : Nat) (r : RelRec) : Barrier :=
  if x.cluster ∨ own ≠ bk then { x with pendF := Tab.maxMerge x.pendF r.snap }
  else
    let rows := r.intra.foldl (fun t e => putMax t (32 * bk + e.1) e.2) x.pendRow
    { x with pendRow := putMax rows (32 * bk + u) intv }

/-- Complete the phase when it may (R364). -/
def Barrier.complete (x : Barrier) : Barrier :=
  if x.init ∧ x.arr = x.exp ∧ x.bytes = 0 then
    { x with phase := (x.phase + 1) % 256, arr := 0, bcnt := false, credited := 0,
             done := Tab.put x.done x.phase (x.pendRow, x.pendF), pendRow := [], pendF := [] }
  else x

/-- Warp u of block bk takes the values combined at one completion (R221). -/
def Block.takeDone (b : Block) (d : Tab Nat × Tab Nat) (bk u : Nat) : Block :=
  { b with
    front := Tab.maxMerge b.front d.2
    intra := (List.range 32).foldl (fun t i => putMax t (32 * u + i) (Tab.getD d.1 (32 * bk + i) 0)) b.intra }
/-- Warp u of block bk, with a token, observes the completions from the token's phase to the last one (R367). -/
def Block.observe (b : Block) (x : Barrier) (bk u token : Nat) : Block :=
  (List.range ((x.phase + 256 - token) % 256)).foldl (fun b j =>
    b.takeDone (Tab.getD x.done ((token + j) % 256) ([], [])) bk u) b

end Sys2Proof.Machine
end

