-- ==== Sys2Proof/Machine/Ops.lean ====
section
/-! DEFINITION. Sys2Proof/Machine/Ops.lean: waiting, taking an exception and returning from one (R413 to R415, R421),
the end of a warp and the killing of a block (R123, R134, R415, R424). -/
namespace Sys2Proof.Machine

/-! ## Paths -/

/-- A path at `pc` with a mask and an empty stack. -/
def freshPath (pc : DWord) (m : Mask) : Path :=
  { live := true, pc := pc, mask := m, stack := [], base := 0, atJoin := false, stall := 0, resume := 0#32
    later := 0#32, packed := false, mon := none, barTok := none, barOn := none, yieldTo := none, wakeAt := none, ticket := none
    hold := none, pushing := none, suppress := none, waiver := none, ready := 0, promoted := false, count := 0, fresh := false }
/-- A path that does not exist. -/
def deadPath : Path := { freshPath 0#64 0#1024 with live := false }

/-- An empty queue of a warp. -/
def WarpQueue.empty : WarpQueue := ⟨[], [], 0, none⟩

/-- A warp as placement leaves it (R143, R159 to R163, R207, R232, R252, R274, R375, Tables 6.1, 7.11, 16.3): k rows, its
role, allotments and context, the entry address of its one path. -/
def newWarp (k : Nat) (role : Bool) (vallot uwin ctx vrBase vrSize : Nat) (entry : DWord) (cycle : Nat) : Warp :=
  { k := k, role := role, vallot := vallot, uwin := uwin, ctx := ctx, vrBase := vrBase, vrSize := vrSize
    vregs := [], empty := [], uregs := [], preds := [], xi := 0#8, wbase := 0, ubase := 0
    p0 := freshPath entry (allMask k), p1 := deadPath, split := none, exited := 0#1024, done := false, mode := .user
    frame := none, held := none, owed := [], stopped := false, replayFirst := [], progressAt := cycle
    rmode := 0#32, nbv := 3#32, chint := 0#32, ehdr := 0x200#32
    trapc := 0#64, trappc := 0#64, trapa := 0#64, trapo := 0#64, raceopc := 0#64, bpctl := 0#32, bpaddr := []
    wpctl := 0#32, wpaddr := [], region := [], lost := 0
    q0 := WarpQueue.empty, q2 := WarpQueue.empty, q4 := WarpQueue.empty, seq := 0, mseq := 0, batch := 0
    batchOf := [], acqDone := [], macqDone := [], pend := [], sync := [] }

/-- A block as placement leaves it (R121, R125, R126, R131, R207). -/
def newBlock (gen core grid lin : Nat) (shape : Shape) (cons : Option Shape) (order spBase spBytes barBase st : Nat) :
    Block :=
  { gen := gen, core := core, grid := grid, lin := lin, shape := shape, cons := cons, order := order, spBase := spBase
    spBytes := spBytes, barBase := barBase, bars := [], front := [], intra := [], st := st, c := st
    ready := [], halted := false, dump := none, killed := false, cause := 0, startAt := none, unit := none
    rebasing := false }

/-- Lanes that have not exited. -/
def Warp.remaining (w : Warp) : Mask := allMask w.k &&& ~~~w.exited

/-- The path waits, with a reason of Table 11.3, and is not tried again before something moves. -/
def Hw.waitOn (h : Hw) (wk : Nat) (x : Bool) (reason : Nat) : Hw :=
  let h := h.onPath wk x fun p => { p with stall := reason, later := 0#32, ticket := none }
  { h with tried := (wk, x) :: h.tried }
/-- The path joins, or stays among, those who wait for `keys`, in the order in which they began to wait (R189, R450). -/
def Hw.waitTurn (h : Hw) (wk : Nat) (x : Bool) (reason : Nat) (keys : List Nat) : Hw :=
  let h := { h with nextId := h.nextId + 1 }.onPath wk x fun p =>
    { p with stall := reason, later := 0#32, ticket := match p.ticket with
        | some t => if p.stall = reason then some (t.1, keys) else some (h.nextId, keys)
        | none => some (h.nextId, keys) }
  { h with tried := (wk, x) :: h.tried }
/-- Does a path of a warp that can go on wait for one of `keys`, as `reason`, since before number `n`? -/
def Warp.queuedBefore (w : Warp) (reason n : Nat) (keys : List Nat) : Bool :=
  let one (p : Path) : Bool := p.live && p.stall == reason && match p.ticket with
    | some t => decide (t.1 < n) && t.2.any keys.contains
    | none => false
  !w.done && !w.stopped && w.held.isNone && (one w.p0 || one w.p1)
/-- The number under which a path waits for `reason`, or the next one. -/
def Hw.ticketOf (h : Hw) (p : Path) (reason : Nat) : Nat :=
  if p.stall = reason then (p.ticket.map (·.1)).getD h.nextId else h.nextId

/-- A progress event of the warp (R157), made by the instruction of path `x` if it is one's. -/
def Warp.progress (w : Warp) (x : Option Bool) (cycle : Nat) : Warp :=
  { w with
    progressAt := cycle
    p0 := { w.p0 with count := 0, fresh := w.p0.fresh || x == some false }
    p1 := { w.p1 with count := 0, fresh := w.p1.fresh || x == some true } }

/-- Does a planned step return one of these flights? -/
def Move.returns (ids : List Nat) : Move → Bool
  | .event .loadReturn o => ids.contains o.unit
  | .event .iterativePassResult o => ids.contains o.unit
  | _ => false
/-- Does a flight of a warp become a replay packet where the warp stops: an outstanding load or iterative pass? What is sent to a
retriever or crosses lanes runs to its end (R76 steps 1, 4 and 5). -/
def Flight.packs (f : Flight) (wk : Nat) : Bool := f.wk == wk && f.kind != .atomic && f.kind != .late
/-- The flights of a warp that meet `sel` become replay packets, in the order of their issue after those there are (R76, R77). -/
def Hw.toPackets (h : Hw) (wk : Nat) (sel : Flight → Bool) : Hw :=
  let hit (f : Flight) : Bool := f.packs wk && sel f
  let ids := (h.flights.filter fun f => hit f.2).map (·.1)
  if ids.isEmpty then h
  else
    { (h.onWarp wk fun w => { w with replayFirst := w.replayFirst ++ ids.filter fun k => !w.replayFirst.contains k }) with
      flights := Tab.mapVals (fun _ (f : Flight) => if hit f then { f with replay := true, held := [] } else f) h.flights }
/-- The same where no generation tag tells the late returns apart: they are dropped at once. -/
def Hw.packetise (h : Hw) (wk : Nat) (sel : Flight → Bool) : Hw :=
  let ids := (h.flights.filter fun f => f.2.packs wk && sel f.2).map (·.1)
  { (h.toPackets wk sel) with agenda := h.agenda.filter fun m => !m.returns ids }

/-! ## The end of warps and blocks -/

/-- A warp ends: no path remains, and what it still held per lane is discarded (R123, R360). -/
def Warp.finish (w : Warp) : Warp :=
  { w with done := true, p0 := deadPath, p1 := deadPath, split := none, exited := allMask w.k, frame := none
           held := none, owed := [], pend := [], sync := [], mode := .user }

/-- Have all warps of a block ended? -/
def Hw.blockDone (h : Hw) (bk : Nat) : Bool := (h.warpsOf bk).all fun e => e.2.done

/-- When the last warp of a block has ended, its unissued table entries are discarded (R134) and the block is to be
freed (R123). -/
def Hw.afterEnd (h : Hw) (bk : Nat) : Hw :=
  if h.blockDone bk then
    match h.block? bk with
    | none => h
    | some b =>
      let h := h.onFCore (bkFn bk) b.core fun c => { c with deps := c.deps.filter fun d => wkBlock d.wk != bk }
      h.planOn .blockFree (bkFn bk) (bkSlot bk)
  else h

/-- A stop request for a warp that exits clears (Table 11.1). -/
def Hw.clearStop (h : Hw) (wk : Nat) : Hw :=
  let d := (h.fn (wkFn wk)).dbg
  if d.stopReq ∧ d.slot = wkSlot wk ∧ d.warp = wkIdx wk then
    h.onFn (wkFn wk) fun f => { f with dbg := { f.dbg with stopReq := false } }
  else h

/-- A warp ends. -/
def Hw.endWarp (h : Hw) (wk : Nat) : Hw :=
  ((((h.onWarp wk Warp.finish).clearStop wk).onPart (h.partOf (wkFn wk)) fun p =>
    { p with heldTraps := p.heldTraps.filter (· != wk) }).afterEnd (wkBlock wk)).moved

/-- Tiles a command still holds converting are poisoned or take the declared tag (R91). -/
def Hw.settleTiles (h : Hw) (fn : Nat) (c : Cmd) (ok : Bool) : Hw :=
  c.tiles.foldl (fun h (t : Nat × Bool × Nat) =>
    let old := if t.2.1 then h.spTag fn t.2.2 (4096 * t.1) else h.tag (4096 * t.1)
    if tagSt old = 2 then
      let new := if ok then withSt c.outTag 0 else withSt old 3
      if t.2.1 then h.setSpTag fn t.2.2 (4096 * t.1) new else h.setTag (4096 * t.1) new
    else h) h

/-- A command that has not started is dropped from its queues (log 36). -/
def Hw.dropCmd (h : Hw) (id : Nat) : Hw :=
  match Tab.find? h.cmds id with
  | none => h
  | some c =>
    let h := h.settleTiles c.fn c false
    { h with
      cmds := Tab.del h.cmds id
      fcores := Tab.mapVals (fun _ (f : FCore) =>
        { f with mq := f.mq.filter (· != id), cq := f.cq.filter (· != id), gq := f.gq.filter (· != id) }) h.fcores }

/-- Kill a block as HALTB does (R415, R424): its warps end, started commands drain, the others and its unissued table
entries are discarded, and the cause stands for the block's command. -/
def Hw.killBlock (h : Hw) (bk cause : Nat) : Hw :=
  let h := h.onBlock bk fun b => { b with killed := true, halted := false, dump := none, cause := if b.cause = 0 then cause else b.cause }
  let h := (h.cmds.filter fun e => wkBlock e.2.wk == bk && !e.2.started).foldl (fun h e => h.dropCmd e.1) h
  let h := (h.warpsOf bk).foldl (fun h e => (h.onWarp e.1 Warp.finish).clearStop e.1) h
  let h := { h with flights := Tab.keep (fun _ (f : Flight) => wkBlock f.wk != bk) h.flights }
  let h := h.onPart (h.partOf (bkFn bk)) fun p => { p with heldTraps := p.heldTraps.filter fun k => wkBlock k != bk }
  (h.afterEnd bk).moved

/-! ## Exceptions -/

/-- The warp stops and the management controller acts (R415). The end of a handler entry as DECLINE is the next step
of the handler warp's partition. -/
def Hw.double (h : Hw) (wk : Nat) : Hw :=
  if wkSlot wk = handlerSlot then
    let h := h.onWarp wk fun w => { w with p0 := deadPath, p1 := deadPath, split := none }
    h.plan .handlerTaskEntry { Occasion.none with unit := wkFn wk - 320, flag := true }
  else h.killBlock (wkBlock wk) cDOUBLE

/-- Does a cause fill RACEOPC (Table 8.9, R254)? -/
def fillsOpc (c : DWord) : Bool :=
  c.extractLsb' 0 8 == 0x07#8 || ((c.extractLsb' 0 8 == 0x14#8 || c.extractLsb' 0 8 == 0x15#8) &&
    c.extractLsb' 24 8 == 0x07#8)

/-- Enter handler mode (R413 steps 2 to 4). -/
def Warp.enter (w : Warp) (t : Trap) (x : Bool) (vec : DWord) (cycle : Nat) : Warp :=
  { w with
    frame := some ⟨{ w.p0 with later := 0#32 }, { w.p1 with later := 0#32 }, w.split, x, t.pc⟩
    trapc := t.c, trappc := t.pc, trapa := t.a, trapo := t.o
    raceopc := if fillsOpc t.c then t.opc else w.raceopc
    mode := .handler, split := none, held := none
    p0 := freshPath vec w.remaining, p1 := deadPath, progressAt := cycle }

/-- A trap raised by path x of a warp leads to its entry, its wait for IMASK bit 0, or DOUBLE (R413 to R415); the other path's
outstanding operations are left as R76 leaves them (R154). -/
def Hw.enterTrap (h : Hw) (e : Env) (wk : Nat) (x : Bool) (t : Trap) : Hw :=
  match h.warp? wk with
  | none => h
  | some w =>
    let p := h.partOf (wkFn wk)
    if w.mode = .handler ∨ (h.part p).phvec = 0#64 then h.double wk
    else if (h.part p).imask.getLsbD 0 then
      let h := (h.packetise wk fun f => f.path != x).onWarp wk fun w => { w with held := some (t, x) }
      let h := h.onPart p fun q => { q with heldTraps := q.heldTraps ++ [wk] }
      ((h.onPath wk false fun q => { q with stall := 24 }).onPath wk true fun q => { q with stall := 24 }).moved
    else ((h.packetise wk fun f => f.path != x).onWarp wk fun w => w.enter t x (h.part p).phvec e.clk.cycle).moved

/-- Taking an exception: a RACE is counted (Table 11.7), and the trap enters (R413 to R415). -/
def Hw.takeTrap (h : Hw) (e : Env) (wk : Nat) (x : Bool) (t : Trap) : Hw :=
  (if t.c.extractLsb' 0 8 = 0x07#8 then
    match h.block? (wkBlock wk) with
    | some b => h.count (wkFn wk) 0 b.core 0x08 0 1
    | none => h
  else h).enterTrap e wk x t

/-- The trap an issuing path raises at its instruction: TRAPO is the path number unless the cause gives it (R154). -/
def Path.trapAt (p : Path) (x : Bool) (c a : DWord) (o : Option DWord) (opc : DWord) : Trap :=
  ⟨c, p.pc, a, o.getD (if x then 1#64 else 0#64), opc⟩

/-- Where ERET resumes the trapping path (R421 step 3). Where the trap was a replay packet's, TRAPPC names its instruction: the
packet is issued again, and the path goes on from its own program counter (log 12). -/
def Warp.resumeAt (w : Warp) (f : Frame) : DWord :=
  if w.trapc.extractLsb' 0 8 = 0x18#8 ∨ (w.trapc.extractLsb' 0 8 = 0x0E#8 ∧ w.trapo.extractLsb' 0 4 = 0#4)
  then w.trappc + 4#64
  else if w.trappc = f.orig then (if f.trapPath then f.p1.pc else f.p0.pc) else w.trappc

/-- Does the cause leave a suppression at TRAPPC (R275)? -/
def Warp.suppresses (w : Warp) : Bool := w.trapc.extractLsb' 0 8 == 0x0F#8 || w.trapc.extractLsb' 0 8 == 0x0E#8

/-- A path goes on at an address: where that is not the instruction it stood at, nothing of that one is left. -/
def Path.goOn (p : Path) (pc : DWord) : Path :=
  if pc = p.pc then { p with stall := 0, ticket := none }
  else { p with
    pc := pc, stall := 0, ticket := none, resume := 0#32, later := 0#32, pushing := none, barTok := none, barOn := none
    wakeAt := none, fresh := false, hold := p.hold.filter fun k => decide (k < 2 ^ 60) }

/-- Return from an exception in a user warp (R421). -/
def Warp.leave (w : Warp) (f : Frame) (cycle : Nat) : Warp :=
  let back (p : Path) (trapped : Bool) : Path :=
    let p := p.goOn (if trapped then w.resumeAt f else p.pc)
    { p with count := 0, suppress := if trapped && w.suppresses then some w.trappc else p.suppress }
  { w with
    frame := none, mode := .user, split := f.split, p0 := back f.p0 (!f.trapPath), p1 := back f.p1 f.trapPath, progressAt := cycle }

/-- Warps held at handler entry enter when IMASK bit 0 clears, strictly in the order they were raised (R422, R450). -/
def Hw.enterHeld (h : Hw) (e : Env) (p : Nat) : Hw :=
  if (h.part p).imask.getLsbD 0 then h
  else
    let l := (h.part p).heldTraps
    let h := h.onPart p fun q => { q with heldTraps := [] }
    l.foldl (fun h wk =>
      match h.warp? wk with
      | none => h
      | some w =>
        match w.held with
        | none => h
        | some (t, x) => h.enterTrap e wk x t) h

end Sys2Proof.Machine
end

