-- ==== Sys2Proof/Machine/Access.lean ====
section
/-! DEFINITION. Sys2Proof/Machine/Access.lean: the issuing path, addresses (R169 to R171), the checks of an access in
the order of R276, marking, and the bytes read and written at their point of performance (R175, R185, R110). -/
namespace Sys2Proof.Machine

/-! ## The issuing path -/

/-- The path an instruction issues for: warp and path numbers, the warp and block as they stand, the lanes. -/
structure Iss where
  wk    : Nat
  x     : Bool
  w     : Warp
  b     : Block
  lanes : List Nat
  deriving DecidableEq, Repr

def Iss.p (s : Iss) : Path := s.w.path s.x
def Iss.fn (s : Iss) : Nat := wkFn s.wk
def Iss.bk (s : Iss) : Nat := wkBlock s.wk
def Iss.slot (s : Iss) : Nat := wkSlot s.wk
def Iss.widx (s : Iss) : Nat := wkIdx s.wk
def Iss.core (s : Iss) : Nat := s.b.core
/-- The lowest-numbered active lane (R345, R394). -/
def Iss.lane0 (s : Iss) : Nat := lowest s.lanes
/-- Context of the warp's global accesses (R413): the partition's handler context in handler mode. -/
def Iss.ctx (h : Hw) (s : Iss) : Nat :=
  if s.w.mode = .handler then handlerFn (h.partOf s.fn) else ctxOf s.fn
/-- Is the instruction's execution waived (R226)? -/
def Iss.waived (s : Iss) : Bool := s.p.waiver == some s.p.pc
/-- Are breakpoints and watchpoints disabled here (R275)? -/
def Iss.quiet (s : Iss) : Bool :=
  s.w.mode == .handler || s.p.suppress == some s.p.pc

/-! ## Addresses -/

/-- Why an access is made. -/
structure Want where
  write  : Bool
  atomic : Bool
  deriving DecidableEq, Repr

/-- One lane's access: its address, size, place and page (0 for scratchpad). -/
structure Acc where
  lane : Nat
  va   : DWord
  size : Nat
  loc  : Loc
  leaf : Leaf
  deriving DecidableEq, Repr

/-- Does a block hold scratchpad bytes [off, off + n) of its core? -/
def Block.holds (b : Block) (off n : Nat) : Bool := decide (b.spBase ≤ off) && decide (off + n ≤ b.spBase + b.spBytes)

/-- Is [off, off + n) of a core inside the allocation of a block of the same cluster (R170)? -/
def Hw.clusterHolds (h : Hw) (fn : Nat) (b : Block) (core off n : Nat) : Bool :=
  h.blocks.any fun e => bkFn e.1 == fn && e.2.clusterId == b.clusterId && e.2.core == core && e.2.holds off n

/-- The range a unit's warps guard (R110), by virtual address (log 27). -/
def Hw.guarded (h : Hw) (b : Block) (va : DWord) (n : Nat) : Option Nat :=
  match b.unit with
  | none => none
  | some u =>
    match Tab.find? h.units u with
    | none => none
    | some x =>
      let v := va.toNat % 2 ^ 57
      if x.base % 2 ^ 57 < v + n ∧ v < x.base % 2 ^ 57 + 4096 * x.nt then some u else none

/-- The unit that guards an access of the issuing warp: none in handler mode, whose addresses are of another context. -/
def Iss.guardOf (h : Hw) (s : Iss) (va : DWord) (n : Nat) : Option Nat :=
  if s.w.mode = .handler then none else h.guarded s.b va n

/-- A scratchpad address of a block, of kind 0xFE or 0xFD (R169, R170, R363). -/
def Hw.locateScr (h : Hw) (fn : Nat) (b : Block) (va : DWord) (n : Nat) : Except Nat Loc :=
  let off := (va.extractLsb' 0 20).toNat
  if va.extractLsb' 56 8 = 0xFE#8 then
    if va.extractLsb' 20 36 ≠ 0#36 then .error cPROTECT
    else if 0xF8000 ≤ off then .ok (.alias_ (off - 0xF8000))
    else if off + n ≤ b.spBytes then .ok (.scr b.core (b.spBase + off)) else .error cPROTECT
  else
    let core := 8 * ringOf b.core + (va.extractLsb' 20 3).toNat
    if va.extractLsb' 23 33 ≠ 0#33 then .error cPROTECT
    else if h.clusterHolds fn b core off n then .ok (.scr core off) else .error cPROTECT

def isScr (va : DWord) : Bool := va.extractLsb' 56 8 == 0xFE#8 || va.extractLsb' 56 8 == 0xFD#8

/-- Where one lane's access lands, or NOTPRESENT or PROTECT. A kernel's own access to a host page meets the page's attributes and not the
function's window (DESIGN CHOICE: R34 names queue bases, completion addresses and command operands, and leaves a kernel's own accesses
open; log 66). -/
def Iss.locate (h : Hw) (e : Env) (s : Iss) (want : Want) (va : DWord) (n : Nat) : Except Nat (Loc × Leaf) :=
  if isScr va then (h.locateScr s.fn s.b va n).map fun l => (l, 0#64)
  else
    match h.translate e s.core (Iss.ctx h s) ⟨want.write, false, s.w.mode = .handler, false⟩ va with
    | .error c => .error c
    | .ok (l, pa) =>
      if want.atomic ∧ (Iss.guardOf h s va n).isSome then .error cPROTECT else .ok (.mem pa, l)

/-- Locate every lane's access; the lowest failing lane's cause and address. -/
def Iss.locateAll (h : Hw) (e : Env) (s : Iss) (want : Want) (n : Nat) (addr : Nat → DWord) :
    List Nat → Except (Nat × DWord) (List Acc)
  | [] => .ok []
  | l :: ls =>
    match Iss.locate h e s want (addr l) n with
    | .error c => .error (c, addr l)
    | .ok (loc, leaf) =>
      match Iss.locateAll h e s want n addr ls with
      | .error r => .error r
      | .ok as => .ok (⟨l, addr l, n, loc, leaf⟩ :: as)

/-- Cache the translations that were used. -/
def Iss.fill (h : Hw) (s : Iss) (as : List Acc) : Hw :=
  as.foldl (fun h a => match a.loc with
    | .mem _ => h.fillTlb s.core (Iss.ctx h s) a.va a.leaf
    | _ => h) h

/-! ## Watchpoints, barrier alias, poison, owned lines -/

/-- The lowest watchpoint that an access of [va, va + n) matches (R275). -/
def Warp.watch (w : Warp) (r wr : Bool) (va : DWord) (n : Nat) : Option Nat :=
  (List.range 4).find? fun k =>
    let f := (w.wpctl.extractLsb' (8 * k) 8)
    let kind := (f.extractLsb' 1 2).toNat
    let sz := 2 ^ (f.extractLsb' 3 5).toNat
    let base := (Tab.getD w.wpaddr k 0#64).toNat / sz * sz
    f.getLsbD 0 && ((r && kind != 1) || (wr && kind != 0)) && decide (base < va.toNat + n) && decide (va.toNat < base + sz)

/-- Does an access touch a poisoned line (R18)? -/
def Hw.isPoisoned (h : Hw) (fn : Nat) (a : Acc) : Bool :=
  match a.loc with
  | .mem pa => h.poison.contains (lineOf pa)
  | .scr core off => (h.fcore fn core).poison.contains (lineOf off)
  | .alias_ _ => false

/-- Is an access held because an engine owns its line (R189)? -/
def Hw.isOwned (h : Hw) (a : Acc) : Bool :=
  match a.loc with
  | .mem pa => Tab.has h.owners (lineOf pa)
  | _ => false

/-- Bytes an atomic element accesses (R354). -/
def AtomOp.size : AtomOp → Nat
  | .addD => 8
  | .xchgD => 8
  | .casD => 8
  | _ => 4

/-- The ring whose retriever takes an element. -/
def Hw.elemRing (h : Hw) (ctx : Nat) (leaf : Leaf) (pa core : Nat) : Nat :=
  ((h.part (h.ctxPart ctx)).retriever (h.sliceOf ctx leaf pa)).getD (ringOf core)

/-- Was another access held for a line before number `n`: a path's, a retriever's, a host's, a load's on its return? -/
def Hw.heldBefore (h : Hw) (n line : Nat) : Bool :=
  (h.warps.any fun e => e.2.queuedBefore 18 n [line]) ||
  (h.rings.any fun r => match r.2.retq with
    | x :: _ => (match x.ticket, x.loc with
      | some t, .mem pa => decide (t < n) && lineOf pa == line
      | _, _ => false)
    | [] => false) ||
  (h.heldAcc.any fun a => decide (a.ticket < n) && a.lines.contains line) ||
  (h.flights.any fun f => decide (f.1 < n) && f.2.held.contains line)
/-- Does a line's home hold an access that came as number `n`: an engine owns the line, or an earlier one is held (R189)? -/
def Hw.lineHeld (h : Hw) (n line : Nat) : Bool := Tab.has h.owners line || h.heldBefore n line
/-- The lines at whose homes accesses are held. -/
def Hw.heldLines (h : Hw) (n : Nat) (as : List Acc) : List Nat :=
  as.filterMap fun a => match a.loc with
    | .mem pa => if h.lineHeld n (lineOf pa) then some (lineOf pa) else none
    | _ => none

/-- Accesses that begin to be held by an engine's ownership are counted at their homes (Table 11.7). -/
def Hw.countHeld (h : Hw) (fn ctx : Nat) (as : List Acc) : Hw :=
  (as.filter h.isOwned).foldl (fun h a => match a.loc with
    | .mem pa => h.count fn 1 (h.sliceOf ctx a.leaf pa) 0x13 0 1
    | _ => h) h

/-! ## Race checks and marks of an instruction's accesses -/

/-- The claim of the issuing warp for a class and direction, at the block's present interval. -/
def Iss.claim (h : Hw) (s : Iss) (cls : Cls) (w : Bool) : Claim :=
  s.b.claim s.slot s.widx s.b.c cls w
    (if (h.fn s.fn).race.pcrec then some (s.p.pc.extractLsb' 0 32) else none)

/-- Words whose marks an access is checked against, and words it marks (R110, R211, R213, R230). -/
def Iss.sites (h : Hw) (s : Iss) (w : Bool) (a : Acc) : List Site × List Site :=
  match a.loc with
  | .alias_ _ => ([], [])
  | .scr core off => let l := (wordsOf off a.size).map fun k => Site.scr s.fn core k; (l, l)
  | .mem pa =>
    if !w && !a.leaf.w then ([], [])
    else
      let ws := wordsOf pa a.size
      match Iss.guardOf h s a.va a.size with
      | some u =>
        let g := ws.map fun k => Site.guard u k
        (if w then g else g ++ ws.map Site.mem, g)
      | none => (ws.map Site.mem, ws.map Site.mem)

/-- Is the check of a word not sent, because the L1 copy already has the record (R211)? An access performed at its home finds
none: the core keeps no copy of the line for it (log 49). -/
def Iss.skip (h : Hw) (s : Iss) (q : Claim) : Site → Bool
  | .mem w => q.cls == .data && h.seenHas s.core (Iss.ctx h s) w { q.mark with pc := none }
  | _ => false

/-- The conflict that one access reports: a writer record before others, then the highest interval (R224). -/
def Iss.conflictOf (h : Hw) (s : Iss) (q : Claim) (sites : List Site) : Option Mark :=
  let found := sites.filterMap fun t =>
    if Iss.skip h s q t || !h.checks (Iss.ctx h s) t then none
    else
      let m := h.marksAt t
      (q.conflict m).map fun r => (m.writer == some r, r)
  let better (l : List (Bool × Mark)) : Option Mark :=
    (l.foldl (fun b x => match b with
      | none => some x.2
      | some y => if y.intv < x.2.intv then some x.2 else some y) none)
  (better (found.filter (·.1))).or (better found)

/-- The lowest conflicting lane's access with the other party's record. -/
def Iss.race (h : Hw) (s : Iss) (cls : Cls) (w : Bool) (as : List Acc) : Option (Acc × Mark) :=
  let q := Iss.claim h s cls w
  as.findSome? fun a => (Iss.conflictOf h s q (Iss.sites h s w a).1).map fun r => (a, r)

/-- RACE with its fault record (Table 8.9). -/
def raceStop (lane : Nat) (cls : Cls) (w : Bool) (va : DWord) (r : Mark) : Stop :=
  .trap (BitVec.ofNat 64 (0x07 + lane * 2 ^ 8 + clsCode cls * 2 ^ 18 + (if w then 2 ^ 21 else 0))) va
    (some (r.bits.setWidth 64))
    (match r.pc with
     | some p => p.setWidth 64 ||| (1#64 <<< 63)
     | none => 0#64)

/-- Mark the accesses (R212); a waived access first removes what it conflicts with (R226). A write by another context
clears the marks of the words it writes (R213). -/
def Iss.markAll (h : Hw) (s : Iss) (cls : Cls) (w : Bool) (as : List Acc) : Hw :=
  let q := Iss.claim h s cls w
  let ctx := Iss.ctx h s
  as.foldl (fun h a =>
    let ss := Iss.sites h s w a
    let h := if s.waived then ss.1.foldl (fun h t =>
        if h.checks ctx t then h.setMarks t (q.waive (h.marksAt t)) else h) h
      else h
    ss.2.foldl (fun h t =>
      if Iss.skip h s q t then h
      else if h.checks ctx t then h.install ctx t q
      else if w then h.setMarks t WordMarks.none else h) h) h

/-- The lines that the accesses left in the core's L1 keep a copy of their records (R211). -/
def Iss.noteSeen (h : Hw) (s : Iss) (w : Bool) (as : List Acc) : Hw :=
  let m := (Iss.claim h s .data w).mark
  as.foldl (fun h a => (Iss.sites h s w a).2.foldl (fun h t => match t with
    | .mem k => if h.checks (Iss.ctx h s) t then h.seenAdd s.core (Iss.ctx h s) k { m with pc := none } else h
    | _ => h) h) h

/-! ## The checks of an access, in the order of R276 -/

/-- What a memory instruction asks for. `events` is how many interval events it makes at most. -/
structure Ask where
  cls    : Cls
  write  : Bool
  atomic : Bool
  size   : Nat
  events : Nat
  sysAtom : Bool              -- atomics: system scope
  silent : Bool               -- the read of a wait, which no watchpoint matches (R275)
  who    : Option Nat         -- the number of its arrival at the homes, where it is no path's own attempt
  deriving DecidableEq, Repr

/-- Does an access meet a mark of a slot that is being rebased (R209)? -/
def Iss.meetsRebase (h : Hw) (s : Iss) (w : Bool) (a : Acc) : Bool :=
  let slots := h.blocks.filterMap fun e => if bkFn e.1 == s.fn && e.2.rebasing then some (bkSlot e.1) else none
  !slots.isEmpty && (Iss.sites h s w a).1.any fun t => (h.marksAt t).records.any fun r => slots.contains r.slot

/-- Address of a lowest lane that meets `f`. -/
def firstBad (as : List Acc) (f : Acc → Bool) : Option DWord := (as.find? f).map (·.va)

/-- Does an access wait for an element of its lane that a retriever has not performed yet? Two accesses of one lane to the same
word keep their order; a .flg access or an atomic also keeps its order after an element to another word, but for a load after a
reduction. Elements of one retriever are performed in their order anyway (R184, R190, R194; log 49). -/
def Iss.isBehind (h : Hw) (s : Iss) (q : Ask) (a : Acc) : Bool :=
  let same (x : Elem) : Bool := match a.loc, x.loc with
    | .mem pa, .mem b => decide (b / 4 * 4 < pa + a.size) && decide (pa / 4 * 4 < b + x.op.size)
    | _, _ => false
  h.rings.any fun r =>
    !(match a.loc with
      | .mem pa => q.atomic && h.elemRing (Iss.ctx h s) a.leaf pa s.core == r.1
      | _ => false) &&
    (r.2.retq ++ r.2.pend).any fun x => x.wk == s.wk && x.lane == a.lane && !x.host &&
      (same x || (q.cls != .data && !(x.ret.isNone && !q.write && !q.atomic)))

/-- Why accesses that may be made wait: for a link or a channel (R15, R19), at a home (R189), for elements of their lanes, or for
a rebase. -/
def Iss.held (h : Hw) (s : Iss) (q : Ask) (as : List Acc) : Option Stop :=
  if as.any fun a => match a.loc with
      | .mem pa => h.waitsOnWay (Iss.ctx h s) (dieOf s.core) a.leaf pa
      | _ => false
  then some (.wait 31)
  else
    let ks := h.heldLines (q.who.getD (h.ticketOf s.p 18)) as
    if !ks.isEmpty then
      some (.turnFrom (if q.who.isSome ∨ (s.p.stall = 18 ∧ s.p.ticket.isSome) then h else h.countHeld (fnOfCtx (Iss.ctx h s)) (Iss.ctx h s) as) 18 ks)
    else if as.any (Iss.isBehind h s q) then some (.wait 16)
    else if as.any (Iss.meetsRebase h s (q.write || q.atomic)) then some (.wait 29)
    else none

/-- The causes that accesses meet, in order, after their translation: ALIGN, WATCH, BARWORD, ATOMSYS, INTVWRAP, and poisoned
lines (log 26). -/
def Iss.causes (h : Hw) (s : Iss) (q : Ask) (as : List Acc) : Option Stop :=
  let rd := !q.write || q.atomic
  let wr := q.write || q.atomic
  match firstBad as (fun a => a.va.toNat % q.size != 0) with
  | some va => some (.at cALIGN va)
  | none =>
    match (if s.quiet || q.silent then none else as.findSome? fun a => (s.w.watch rd wr a.va a.size).map fun k => (a.va, k)) with
    | some (va, k) => some (.trap (BitVec.ofNat 64 cWATCH) va (some (BitVec.ofNat 64 k)) 0#64)
    | none =>
      match firstBad as (fun a => wr && (match a.loc with | .alias_ _ => true | _ => false)) with
      | some va => some (.at cBARWORD va)
      | none =>
        match firstBad as (fun a => q.atomic && (match a.loc with
            | .mem pa => (paKind pa == .host || q.sysAtom) && !a.leaf.sysatom
            | _ => false)) with
        | some va => some (.at cATOMSYS va)
        | none =>
          if h.wraps s.bk q.events then some (.plain cINTVWRAP)
          else (firstBad as (h.isPoisoned s.fn)).map fun va => .at cECC va

/-- Why an instruction that reads a record of `a.size` aligned bytes at its home does not read it now (R18, R189, R276). -/
def Iss.recordStop (h : Hw) (s : Iss) (a : Acc) : Option Stop :=
  (Iss.causes h s ⟨.data, false, false, a.size, 0, false, true, none⟩ [a]).or (Iss.held h s ⟨.data, false, false, a.size, 0, false, true, none⟩ [a])

/-- Does a translation that the accesses need wait at the home of a table's line (R189)? -/
def Iss.walkWaits (h : Hw) (e : Env) (s : Iss) (addr : Nat → DWord) : Bool :=
  s.lanes.any fun n => !isScr (addr n) && h.walkHeld e s.core (Iss.ctx h s) ((addr n).toNat % 2 ^ 57)

/-- Make every check of the accesses, in the order of R276: NOTPRESENT and PROTECT, the other causes, what they wait for, and
RACE. -/
def Iss.check (h : Hw) (e : Env) (s : Iss) (q : Ask) (addr : Nat → DWord) : Except Stop (List Acc) :=
  if Iss.walkWaits h e s addr then .error (.wait 17)
  else
    match Iss.locateAll h e s ⟨q.write || q.atomic, q.atomic⟩ q.size addr s.lanes with
    | .error (c, va) => .error (.at c va)
    | .ok as =>
      match Iss.causes h s q as with
      | some t => .error t
      | none =>
        match Iss.held h s q as with
        | some t => .error t
        | none =>
          if s.waived then .ok as
          else
            match Iss.race h s q.cls (q.write || q.atomic) as with
            | some (a, r) => .error (raceStop a.lane q.cls (q.write || q.atomic) a.va r)
            | none => .ok as

/-! ## Monitors, latches, scratchpad bytes -/

/-- Trigger the monitors that meet `f` (R371). -/
def Hw.trigger (h : Hw) (f : Monitor → Bool) : Hw :=
  let one (p : Path) : Path := match p.mon with
    | some m => if m.armed && f m then { p with mon := some { m with trig := true } } else p
    | none => p
  { h with
    warps := Tab.mapVals (fun _ (w : Warp) =>
      if (w.p0.mon.isSome || w.p1.mon.isSome || w.frame.isSome) then
        { w with p0 := one w.p0, p1 := one w.p1, frame := w.frame.map fun f => { f with p0 := one f.p0, p1 := one f.p1 } }
      else w) h.warps
    tried := [] }
def Hw.triggerMem (h : Hw) (pa n : Nat) : Hw := h.trigger fun m => match m.loc with
  | .mem a => decide (a < pa + n) && decide (pa < a + 8)
  | _ => false
def Hw.triggerScr (h : Hw) (fn core off n : Nat) : Hw :=
  let one (p : Path) : Path := match p.mon with
    | some m => match m.loc with
      | .scr c o => if m.armed && c == core && decide (o < off + n) && decide (off < o + 8) then
          { p with mon := some { m with trig := true } } else p
      | _ => p
    | none => p
  { h with
    warps := Tab.mapVals (fun k (w : Warp) =>
      if wkFn k == fn && (w.p0.mon.isSome || w.p1.mon.isSome || w.frame.isSome) then
        { w with p0 := one w.p0, p1 := one w.p1, frame := w.frame.map fun f => { f with p0 := one f.p0, p1 := one f.p1 } }
      else w) h.warps
    tried := [] }

/-- Does a latch cover any of the bytes or of its record (R258)? -/
def latchHit (l : Option (Nat × Nat × BitVec 512)) (bs : List (Nat × Byte)) (off n : Nat) : Bool :=
  match l with
  | none => false
  | some (r, _, _) => (decide (r < off + n) && decide (off < r + 64)) ||
      bs.any fun x => decide (off ≤ x.1) && decide (x.1 < off + n)

/-- Write bytes of a core's scratchpad. -/
def Hw.putScr (h : Hw) (fn core off : Nat) (bs : List Byte) : Hw :=
  let n := bs.length
  let h := h.onFCore fn core fun c =>
    let la := latchHit c.latchA c.latchAB off n
    let lb := latchHit c.latchB c.latchBB off n
    { c with
      spad := bs.zipIdx.foldl (fun t (x : Byte × Nat) => Tab.store 0#8 t (off + x.2) x.1) c.spad
      latchA := if la then none else c.latchA, latchAB := if la then [] else c.latchAB
      latchB := if lb then none else c.latchB, latchBB := if lb then [] else c.latchBB }
  h.triggerScr fn core off n
def Hw.scrBytes (h : Hw) (fn core off n : Nat) : List Byte :=
  (List.range n).map fun j => Tab.getD (h.fcore fn core).spad (off + j) 0#8

/-- A barrier as the alias and the Barriers section show it (Table 11.9): [15:0] EXP, [31:16] ARR, [39:32] PHASE,
[40] initialised, [41] byte counting, [42] credit pending, then BYTES. -/
def Barrier.words (x : Barrier) (pending : Bool) : List Byte :=
  natLe 8 (x.exp + x.arr * 2 ^ 16 + x.phase * 2 ^ 32 + (if x.init then 2 ^ 40 else 0) + (if x.bcnt then 2 ^ 41 else 0) +
      (if pending then 2 ^ 42 else 0)) ++
    natLe 8 (BitVec.ofInt 64 x.bytes).toNat

/-! ## Bytes at their point of performance -/

/-- A byte as its home holds it: in the device-internal window, outside the handler record slots, a free value (Table 1.2; log
18). -/
def Hw.homeByte (h : Hw) (e : Env) (pa : Nat) : Byte :=
  if paKind pa = .internal ∧ inRecords pa = false then Config.internalByte e.clk.step pa else h.byte e pa
/-- Bytes of an ordinary line as a home holds them, by physical address. -/
def Hw.homeBytes (h : Hw) (e : Env) (pa n : Nat) : List Byte := (List.range n).map fun j => h.homeByte e (pa + j)

/-- Guarded bytes merged over the ordinary ones, for a unit's own loads: those of the core's own guarded line, else those of the
guard store (R110). -/
def Hw.overGuard (h : Hw) (s : Iss) (a : Acc) (pa : Nat) (bs : List Byte) : List Byte :=
  match Iss.guardOf h s a.va a.size with
  | none => bs
  | some u => match Tab.find? h.units u with
    | none => bs
    | some x =>
      let l := h.l1 s.core (guardCtx u) (lineOf pa)
      bs.zipIdx.map fun (y : Byte × Nat) =>
        if l.dirty.getLsbD (pa % 128 + y.2) then Tab.getD l.bytes (pa % 128 + y.2) 0#8
        else (Tab.find? x.gmem (pa + y.2)).getD y.1

/-- Write to a home: bytes, L2, monitors (R24, R371). -/
def Hw.homeWrite (h : Hw) (q : HomeReq) (pa : Nat) (bs : List Byte) : Hw :=
  ((h.putBytes pa bs).atHome q pa true).triggerMem pa bs.length

/-- The request an access of the warp makes at a home; `far` where it is performed beyond it (Table 7.4). -/
def Iss.homeReq (h : Hw) (s : Iss) (a : Acc) (far : Bool) : HomeReq :=
  ⟨Iss.ctx h s, (s.w.chint.extractLsb' 0 2).toNat, a.leaf, far⟩

/-- Context of an access's L1 line: 0 for a SHAREDRO page (R71). -/
def Iss.lineCtx (h : Hw) (s : Iss) (a : Acc) : Nat := if a.leaf.sharedro then 0 else Iss.ctx h s

/-- A .d load of one lane: through the L1, filling the sector unless L1H says no allocation (R185, R203). -/
def Iss.readD (h : Hw) (e : Env) (s : Iss) (a : Acc) : Hw × List Byte :=
  match a.loc with
  | .alias_ _ => (h, [])
  | .scr core off => (h, h.scrBytes s.fn core off a.size)
  | .mem pa =>
    let ctx := Iss.lineCtx h s a
    let line := lineOf pa
    let l := h.l1 s.core ctx line
    let m := lineBits (pa % 128) a.size
    if l.valid &&& m = m then
      (h.count s.fn 0 s.core 0x06 0 1, h.overGuard s a pa (l.read (fun _ => 0#8) (pa % 128) a.size))
    else
      let h := (h.count s.fn 0 s.core 0x07 0 1).atHome (Iss.homeReq h s a false) pa false
      let home (k : Nat) : Byte := h.homeByte e (128 * line + k)
      let l' := l.fill (pa % 128 / 32) home
      let bs := l'.read home (pa % 128) a.size
      let h := if (s.w.chint.extractLsb' 2 2).toNat = 1 then h else h.fillL1 s.core ctx line l'
      (h, h.overGuard s a pa bs)

/-- Before an access that is performed at the home, the core writes back its own dirty bytes of the line, a guarded one among them,
and keeps no byte of it, so that the accesses of one lane to one word keep their order (R181, R190; log 49). -/
def Iss.homeward (h : Hw) (s : Iss) (a : Acc) : Hw :=
  match a.loc with
  | .mem pa =>
    let ctx := Iss.lineCtx h s a
    let h := match Iss.guardOf h s a.va a.size with
      | some u => h.writeBackLine s.core (guardCtx u) (lineOf pa)
      | none => h
    if (h.l1 s.core ctx (lineOf pa)).valid = 0#128 then h
    else (h.writeBackLine s.core ctx (lineOf pa)).setL1 s.core ctx (lineOf pa) L1Line.empty
  | _ => h

/-- A .flg or .acq load of one lane: at the home, or beyond it (Table 7.4). -/
def Iss.readHome (h : Hw) (e : Env) (s : Iss) (sys : Bool) (a : Acc) : Hw × List Byte :=
  let h := Iss.homeward h s a
  match a.loc with
  | .mem pa => (h.atHome (Iss.homeReq h s a (farOf a.leaf pa sys false)) pa false, h.overGuard s a pa (h.homeBytes e pa a.size))
  | _ => Iss.readD h e s a

/-- Key of a guarded word's release record: the guarded word is not the ordinary one (R110). -/
def guardKey (u word : Nat) : Nat := word + 2 ^ 52 * (u + 1)

/-- Words of a place that release records are attached to. -/
def recWords (fn : Nat) (l : Loc) (n : Nat) : List RecAt :=
  match l with
  | .mem pa => (wordsOf pa n).map fun w => .mem w
  | .scr core off => (wordsOf off n).map fun w => .scr fn core w
  | .alias_ _ => []

/-- Where the release records of an access's words are attached. -/
def Iss.recSites (h : Hw) (s : Iss) (a : Acc) : List RecAt :=
  match a.loc, Iss.guardOf h s a.va a.size with
  | .mem pa, some u => (wordsOf pa a.size).map fun w => .mem (guardKey u w)
  | l, _ => recWords s.fn l a.size

/-- The records of the words an access reads: a guarded word's if it has one. -/
def Iss.recsOf (h : Hw) (s : Iss) (a : Acc) : List RelRec :=
  ((Iss.recSites h s a).zip (recWords s.fn a.loc a.size)).filterMap fun x => (h.recAt x.1).or (h.recAt x.2)

/-- Tiles a warp's stores leave converting: the declared outputs of its routine or exact kernel (R93). -/
def Hw.declared (h : Hw) (b : Block) : List Nat :=
  match h.grid? b.grid with
  | none => []
  | some g => g.outs.map (·.1) ++ (match g.unit with
    | some u => (match Tab.find? h.units u with | some x => x.tiles | none => [])
    | none => [])

/-- A store of one lane (R351): guarded, to L1 for .d, or at the home; with the tag upkeep of R92. -/
def Iss.writeAcc (h : Hw) (s : Iss) (d sys : Bool) (a : Acc) (bs : List Byte) : Hw :=
  match a.loc with
  | .alias_ _ => h
  | .scr core off => (h.upkeepSp s.fn core off).putScr s.fn core off bs
  | .mem pa =>
    match Iss.guardOf h s a.va a.size with
    | some u =>
      if d then
        (h.fillL1 s.core (guardCtx u) (lineOf pa) ((h.l1 s.core (guardCtx u) (lineOf pa)).write (pa % 128) bs s.w.chint a.leaf)).triggerMem
          pa bs.length
      else ((Iss.homeward h s a).onUnit u fun x =>
        { x with gmem := bs.zipIdx.foldl (fun t (y : Byte × Nat) => Tab.put t (pa + y.2) y.1) x.gmem }).triggerMem pa bs.length
    | none =>
      let h := h.upkeep (h.declared s.b) pa
      if d then
        let ctx := Iss.lineCtx h s a
        (h.fillL1 s.core ctx (lineOf pa) ((h.l1 s.core ctx (lineOf pa)).write (pa % 128) bs s.w.chint a.leaf)).triggerMem pa
          bs.length
      else (Iss.homeward h s a).homeWrite (Iss.homeReq h s a (farOf a.leaf pa sys false)) pa bs

/-- Remove the release records of the words a store that is no release writes (R219). -/
def Iss.dropRecs (h : Hw) (s : Iss) (a : Acc) : Hw :=
  match a.loc with
  | .mem pa => (wordsOf pa a.size).foldl (fun h w => h.dropRec (.mem (match Iss.guardOf h s a.va a.size with
      | some u => guardKey u w
      | none => w))) h
  | .scr core off => (wordsOf off a.size).foldl (fun h w => h.dropRec (.scr s.fn core w)) h
  | .alias_ _ => h

end Sys2Proof.Machine
end

