-- ==== Sys2Proof/Machine/Tensor.lean ====
section
/-! DEFINITION. Sys2Proof/Machine/Tensor.lean: layout records (R248, R249), the bytes a box covers (R262), and what an
engine command names: its pieces, destination lines and tiles (R91, R131, R188). -/
namespace Sys2Proof.Machine

/-! ## Layout records (Table 10.1) -/

structure Rec where
  base   : DWord
  fmt    : Nat
  rsv    : Bool            -- a reserved bit is set
  planes : Nat
  pread  : Nat
  geom   : Nat
  spar   : Nat
  swz    : Nat
  reuse  : Bool
  lay    : Nat
  otag   : BitVec 16
  ts     : Word
  box    : List Nat        -- BOX0 to BOX3
  ext    : List Nat        -- EXT0 to EXT3
  str    : List Nat        -- STRIDE1 to STRIDE3
  scb    : DWord
  deriving DecidableEq, Repr

/-- Bytes [lo, lo + n) of a record as a number. -/
def recNat (r : BitVec 512) (lo n : Nat) : Nat := (r.extractLsb' (8 * lo) (8 * n)).toNat

def Rec.of (r : BitVec 512) : Rec :=
  let b8 := recNat r 8 1
  let b9 := recNat r 9 1
  let b10 := recNat r 10 1
  let b11 := recNat r 11 1
  { base := BitVec.ofNat 64 (recNat r 0 8), fmt := b8 % 32, rsv := b8 / 32 != 0 || b11 / 16 != 0, planes := b9 % 16
    pread := b9 / 16, geom := b10 % 4, spar := b10 / 4 % 8, swz := b10 / 32 % 4, reuse := b10 / 128 == 1
    lay := b11 % 16, otag := BitVec.ofNat 16 (recNat r 12 2), ts := BitVec.ofNat 32 (recNat r 16 4)
    box := [recNat r 14 2, recNat r 52 2, recNat r 54 2, recNat r 51 1]
    ext := [recNat r 20 4, recNat r 24 4, recNat r 28 4, recNat r 32 4]
    str := [recNat r 36 5, recNat r 41 5, recNat r 46 5], scb := BitVec.ofNat 64 (recNat r 56 8) }

/-- Element size of Table 4.2. -/
def elemSize (fmt : Nat) : Nat :=
  if fmt = 2 ∨ fmt = 3 then 4 else if fmt = 4 ∨ fmt = 5 then 2 else if fmt = 6 then 8 else 1
def isNI (fmt : Nat) : Bool := decide (0x12 ≤ fmt) && decide (fmt ≤ 0x18)
/-- Plane size and index-plane size of Table 10.2. -/
def planeBytes (spar : Nat) : Nat := if spar = 0 then 1024 else if spar = 1 then 512 else if spar = 2 then 256 else 128
def indexBytes (spar : Nat) : Nat := if spar = 0 then 0 else if spar = 1 then 1024 else if spar = 2 then 512 else 384

/-- Effective format: the record's, or the page's FCLS (R89). -/
def Rec.effFmt (r : Rec) (fcls : Nat) : Nat :=
  if r.fmt ≠ 0 then r.fmt else if fcls = 7 then 0x10 + r.planes else fcls
/-- Effective geometry, none where record and page disagree (R89). -/
def Rec.effGeom (r : Rec) (page : Nat) : Option Nat :=
  if page = 0 then some r.geom else if r.geom = 0 ∨ r.geom = page then some page else none

/-- Is a record malformed (R248), its effective format being `f`? -/
def Rec.bad (r : Rec) (f : Nat) : Bool :=
  r.rsv || !fmtOk r.fmt || r.geom == 3 || decide (3 < r.spar) || decide (3 < r.lay) || r.swz == 3 || !tagOk r.otag ||
    r.box.any (· == 0) || r.ext.any (· == 0) ||
    (if isNI r.fmt then r.planes != r.fmt - 0x10 else r.fmt != 0 && r.planes != 0) ||
    (if isNI f then r.lay != 2 else r.lay == 2 || r.spar != 0) || !fmtOk f

/-- Swizzle of the 16-byte chunk index (R249 ROWSW). -/
def swizzle (swz o : Nat) : Nat :=
  let p := if swz = 0 then 8 else if swz = 1 then 4 else 2
  o / 128 * 128 + (Nat.xor (o / 16 % 8) (o / 128 % 8 % p)) * 16 + o % 16

def Rec.dim (l : List Nat) (k : Nat) : Nat := l.getD k 0

/-- Is a coordinate inside the tensor? -/
def Rec.inside (r : Rec) (c : List Int) : Bool :=
  (c.zip r.ext).all fun x => decide (0 ≤ x.1) && decide (x.1 < (x.2 : Int))

/-- Offset of an element from BASE (R249); a plane group in PLANE layout. -/
def Rec.offset (r : Rec) (f : Nat) (c : List Int) : Nat :=
  let e (k : Nat) : Nat := (c.getD k 0).toNat
  let s (k : Nat) : Nat := Rec.dim r.str (k - 1)
  let rest := e 2 * s 2 + e 3 * s 3
  if r.lay = 2 then
    e 0 * ((f - 0x10) * planeBytes r.spar + indexBytes r.spar) + e 1 * s 1 + rest
  else
    let z := elemSize f
    if r.lay = 1 then e 1 * z + e 0 * s 1 + rest
    else
      let o := e 0 * z + e 1 * s 1 + rest
      if r.lay = 3 then swizzle r.swz o else o

/-! ## Pieces: what moves where -/

/-- Some bytes of a transfer: the tensor side (none outside the tensor), the packed side, how many. -/
structure Piece where
  tensor : Option DWord
  packed : DWord
  n      : Nat
  deriving DecidableEq, Repr

/-- Box coordinates, b0 fastest. -/
def boxCoords (b : List Nat) : List (List Nat) :=
  (List.range (b.getD 3 0)).flatMap fun x3 => (List.range (b.getD 2 0)).flatMap fun x2 =>
    (List.range (b.getD 1 0)).flatMap fun x1 => (List.range (b.getD 0 0)).map fun x0 => [x0, x1, x2, x3]

/-- Scale bytes of one plane group: 128 for each K-block (R243). -/
def scaleBytes (geom : Nat) : Nat := 128 * (if geom = 2 then 2 else if geom = 1 then 1 else 0)

/-- Bytes of a packed box of `sp` planes. -/
def Rec.boxBytes (r : Rec) (f geom sp : Nat) : Nat :=
  let n := r.box.foldl (· * ·) 1
  if r.lay = 2 then
    n * (sp * planeBytes r.spar + indexBytes r.spar + (if r.scb = 0#64 then 0 else scaleBytes geom))
  else n * elemSize f

def addrOff (a : DWord) (o : Nat) : DWord := a + BitVec.ofNat 64 o

/-- The pieces of a box at origin `c` against a packed area at `pk`, in layout `olay` with `sp` planes (R262). -/
def Rec.boxPieces (r : Rec) (f geom sp olay : Nat) (c : List Int) (pk : DWord) : List Piece :=
  let b (k : Nat) : Nat := Rec.dim r.box k
  let at_ (x : List Nat) : List Int := (x.zip c).map fun y => (y.1 : Int) + y.2
  if r.lay = 2 then
    let g := planeBytes r.spar
    let ix := indexBytes r.spar
    let unit := sp * g + ix
    let coords := boxCoords r.box
    let planes := coords.zipIdx.flatMap fun (x : List Nat × Nat) =>
      let c := at_ x.1
      let o := if r.inside c then some (r.offset f c) else none
      let p := unit * x.2
      ⟨o.map fun o => addrOff r.base o, addrOff pk p, sp * g⟩ ::
        (if ix = 0 then [] else [⟨o.map fun o => addrOff r.base (o + (f - 0x10) * g), addrOff pk (p + sp * g), ix⟩])
    let nb := scaleBytes geom
    let scales := if r.scb = 0#64 ∨ nb = 0 then [] else coords.zipIdx.map fun (x : List Nat × Nat) =>
      let c := at_ x.1
      let e (k : Nat) : Nat := (c.getD k 0).toNat
      let gi := e 1 + Rec.dim r.ext 1 * (e 0 + Rec.dim r.ext 0 * (e 2 + Rec.dim r.ext 2 * e 3))
      (⟨if r.inside c then some (addrOff r.scb (gi * nb)) else none, addrOff pk (coords.length * unit + nb * x.2), nb⟩ : Piece)
    planes ++ scales
  else
    let z := elemSize f
    (boxCoords r.box).map fun x =>
      let c := at_ x
      let x0 := x.getD 0 0
      let x1 := x.getD 1 0
      let rest := x.getD 2 0 + b 2 * x.getD 3 0
      let o := if olay = 1 then z * (x1 + b 1 * (x0 + b 0 * rest)) else z * (x0 + b 0 * (x1 + b 1 * rest))
      ⟨if r.inside c then some (addrOff r.base (r.offset f c)) else none,
        addrOff pk (if olay = 3 then swizzle r.swz o else o), z⟩

/-- Cut a range at 128-byte boundaries. -/
def cutLines : Nat → DWord → Nat → List (DWord × Nat)
  | 0, _, _ => []
  | k + 1, a, n =>
    if n = 0 then []
    else
      let m := min n (128 - a.toNat % 128)
      (a, m) :: cutLines k (addrOff a m) (n - m)

/-! ## Command words -/

def Cmd.word (c : Cmd) (k : Nat) : Word := c.words.getD k 0#32
def Cmd.pair (c : Cmd) (k : Nat) : DWord := c.word (k + 1) ++ c.word k

/-- Bytes of a ring command's payload. -/
def Cmd.len (c : Cmd) : Nat := ((c.word 3).extractLsb' 0 16).toNat + 1
/-- Stops that a ring command writes at (Table 10.11). -/
def Cmd.destStops (c : Cmd) : List Nat :=
  let w := c.word 3
  let hops := (w.extractLsb' 16 3).toNat
  if c.opc = 0x21 then [(stopOf c.core + (if w.getLsbD 19 then 8 - hops else hops)) % 8]
  else if c.opc = 0x22 then [hops]
  else (List.range 8).filter fun s => w.getLsbD (19 + s)
/-- Barrier index of a copy, gather or ring command. -/
def Cmd.barIdx (c : Cmd) : Nat := ((if 0x21 ≤ c.opc then c.word 6 else c.word 11).extractLsb' 0 11).toNat
/-- The block of a command's cluster that holds a range of a core's scratchpad. -/
def Hw.blockAt (h : Hw) (fn : Nat) (b : Block) (core off n : Nat) : Option (Nat × Block) :=
  List.find? (fun (x : Nat × Block) =>
    bkFn x.1 == fn && x.2.clusterId == b.clusterId && x.2.core == core && x.2.holds off n) h.blocks
/-- Blocks whose barrier takes a command's credit: the issuing block's, or those that hold a ring command's destinations
(R264, R265). -/
def Hw.creditBlocks (h : Hw) (c : Cmd) : List Nat :=
  if c.opc < 0x21 then [wkBlock c.wk]
  else match h.block? (wkBlock c.wk) with
    | none => []
    | some b => c.destStops.filterMap fun s =>
      (h.blockAt c.fn b (8 * ringOf c.core + s) ((c.word 2).extractLsb' 0 20).toNat c.len).map fun (x : Nat × Block) => x.1

/-- Header fields (Table 10.3). -/
def hdrLen (w : Word) : Nat := (w.extractLsb' 0 5).toNat
def hdrOpc (w : Word) : Nat := (w.extractLsb' 5 7).toNat
def hdrScope (w : Word) : Nat := (w.extractLsb' 12 3).toNat

/-- The length Table 10.4 gives an opcode on a queue, none where the queue has no such opcode or timed form. -/
def opcLen (k : EngKind) (opc : Nat) (timed : Bool) : Option Nat :=
  match k with
  | .matrix =>
    if timed then none
    else if 1 ≤ opc ∧ opc ≤ 4 then some 4 else if opc = 5 ∨ opc = 7 then some 3 else if opc = 6 then some 2 else none
  | .copy => if opc = 0x10 ∨ opc = 0x11 then some (if timed then 14 else 12) else none
  | .ring =>
    if opc = 0x20 then (if timed then none else some 12)
    else if opc = 0x21 then some (if timed then 9 else 7)
    else if opc = 0x22 ∨ opc = 0x23 then (if timed then none else some 7) else none

/-- Is a header malformed for a queue (R251)? -/
def hdrBad (k : EngKind) (w : Word) : Bool :=
  hdrLen w == 0 || decide (16 < hdrLen w) || opcLen k (hdrOpc w) (w.getLsbD 24) != some (hdrLen w) ||
    decide (4 < hdrScope w) || (k == .matrix && w.getLsbD 25) || w.extractLsb' 26 6 != 0#6

def scopeOfNat (n : Nat) : Scope :=
  if n = 0 then .warp else if n = 1 then .block else if n = 2 then .cluster else if n = 3 then .device else .system

/-! ## Where an engine's accesses land -/

/-- Translate an engine's address: place and page, or a reason of Table 10.6. -/
def Hw.engLocate (h : Hw) (e : Env) (c : Cmd) (write : Bool) (va : DWord) (n : Nat) : Except Nat (Loc × Leaf) :=
  match h.block? (wkBlock c.wk) with
  | none => .error 0x06
  | some b =>
    if isScr va then
      match h.locateScr c.fn b va n with
      | .error _ => .error 0x06
      | .ok (.alias_ _) => .error (if write then 0x0A else 0x06)
      | .ok l => .ok (l, 0#64)
    else
      match h.translate e c.core c.ctx ⟨write, false, decide (320 ≤ c.ctx), false⟩ va with
      | .error k => .error k
      | .ok (l, pa) =>
        if paKind pa = .internal ∨ (write ∧ c.ctx < 320 ∧ (h.guarded b va n).isSome) then .error 0x06 else .ok (.mem pa, l)

/-- FCLS and GEOM of the page of an address; none for scratchpad or an address that does not translate. -/
def Hw.pageAttr (h : Hw) (e : Env) (c : Cmd) (va : DWord) : Nat × Nat :=
  match h.engLocate e c false va 1 with
  | .ok (.mem _, l) => (l.fcls, l.geom)
  | _ => (0, 0)

/-! ## What a copy or gather command does (R261, R262) -/

/-- A copy or gather as its words and captured record say: the reason it is refused (0 for none) with its address, its
pieces, whether the tensor side is the destination, the tag its wholly covered tiles take, the format that valid
source tiles must have (R90), and the bytes of its payload. -/
structure Job where
  bad    : Nat
  badA   : DWord
  pieces : List Piece
  out    : Bool
  tag    : Option (BitVec 16)
  fmt    : Option Nat
  total  : Nat
  deriving DecidableEq, Repr

/-- A refused command moves nothing; the bytes that its words and record name are still those that its barrier is credited with at
its end (R264). -/
def Job.refuse (reason : Nat) (a : DWord) (total : Nat) : Job := ⟨reason, a, [], false, none, none, total⟩
/-- A job whose command fails for another reason than its payload. -/
def Job.failing (j : Job) (reason : Nat) (a : DWord) : Job := if j.bad ≠ 0 then j else { j with bad := reason, badA := a }

/-- Pieces of a plain range, 4 KiB at a time. -/
def plainPieces (src dst : DWord) (n : Nat) : List Piece :=
  (List.range ((n + 4095) / 4096)).map fun k => ⟨some (addrOff src (4096 * k)), addrOff dst (4096 * k), min 4096 (n - 4096 * k)⟩

/-- The indices of a GATHER's list. -/
def Hw.gatherIndex (h : Hw) (fn : Nat) (b : Block) (core off k : Nat) : Int :=
  (BitVec.ofNat 32 (leNat (h.scrBytes fn core (b.spBase + off + 4 * k) 4))).toInt

/-- The payload of a copy, copyo or gather command. -/
def Hw.payloadOf (h : Hw) (e : Env) (c : Cmd) : Job :=
  let ra := c.pair 1
  match h.block? (wkBlock c.wk) with
  | none => .refuse 0x06 ra 0
  | some b =>
    if c.opc ≠ 0x20 ∧ ra = 0#64 then
      let n := (c.word 5).toNat
      if n = 0 ∨ 262144 < n ∨ c.word 8 ≠ 0#32 then .refuse 0x01 ra n
      else
        let other := c.pair 6
        let near := c.pair 3
        if c.opc = 0x10 then ⟨0, 0#64, plainPieces other near n, false, none, none, n⟩
        else ⟨0, 0#64, plainPieces near other n, false, none, none, n⟩
    else
      match c.rec_ with
      | none => .refuse 0x01 ra 0
      | some bits =>
        let r := Rec.of bits
        let (fcls, pg) := h.pageAttr e c r.base
        let f := r.effFmt fcls
        if r.bad f ∨ (r.effGeom pg).isNone then .refuse 0x01 ra 0
        else
          let g := (r.effGeom pg).getD 0
          let of_ := tagFmt r.otag
          let sp := if isNI of_ then of_ - 0x10 else 0
          let s := f - 0x10
          let fmtOk := of_ = f ∨ (c.opc = 0x10 ∧ isNI f ∧ isNI of_ ∧ sp ≤ s)
          let cnt := (c.word 6).toNat
          let z := if r.lay = 2 then s * planeBytes r.spar + indexBytes r.spar else elemSize f
          let n := Rec.dim r.box 0
          let total := if c.opc = 0x20 then cnt * n * z else r.boxBytes f g sp
          if ¬ fmtOk ∨ tagSpar r.otag ≠ r.spar ∨ ((tagLay r.otag = 2) ≠ (r.lay = 2)) then .refuse 0x01 ra total
          else if r.lay = 3 ∧ r.base.toNat % 1024 ≠ 0 then .refuse 0x04 r.base total
          else if c.opc = 0x20 then
            let off := (c.word 5).toNat
            if cnt = 0 ∨ 256 < cnt ∨ 2 ^ 20 ≤ off ∨ c.word 8 ≠ 0#32 ∨ 262144 < total then .refuse 0x01 ra total
            else if off % 4 ≠ 0 then .refuse 0x04 (addrOff 0xFE00000000000000#64 off) total
            else
              let c0 := (c.word 7).toInt
              let dst := c.pair 3
              let ps := (List.range cnt).flatMap fun (k : Nat) => (List.range n).map fun (j : Nat) =>
                let at_ : List Int := [c0 + (j : Int), h.gatherIndex c.fn b c.core off k, 0, 0]
                (⟨if r.inside at_ then some (addrOff r.base (r.offset f at_)) else none, addrOff dst ((k * n + j) * z), z⟩ : Piece)
              ⟨0, 0#64, ps, false, some (withSt r.otag 0), some f, total⟩
          else if 262144 < total then .refuse 0x01 ra total
          else
            let org := [(c.word 5).toInt, (c.word 6).toInt, (c.word 7).toInt, (c.word 8).toInt]
            let ps := r.boxPieces f g sp (tagLay r.otag) org (c.pair 3)
            if c.opc = 0x10 then ⟨0, 0#64, ps, false, some (withSt r.otag 0), some f, total⟩
            else ⟨0, 0#64, ps, true, some (BitVec.ofNat 16 (f + 32 * r.spar + 256 * r.lay)), none, total⟩

/-- The job of a copy, copyo or gather command: its payload, which a misaligned stamp address or a reserved bit of its last word
fails at its start (R263); what its record makes it take at issue it takes all the same (R91, R248). -/
def Hw.jobOf (h : Hw) (e : Env) (c : Cmd) : Job :=
  let j := h.payloadOf e c
  if (c.pair 9).toNat % 8 ≠ 0 then j.failing 0x04 (c.pair 9)
  else if (c.word 11).extractLsb' 11 21 ≠ 0#21 then j.failing 0x01 (c.pair 1)
  else j

/-- Source and destination ranges of a job's pieces. -/
def Job.srcs (j : Job) : List (DWord × Nat) :=
  j.pieces.filterMap fun p => if j.out then some (p.packed, p.n) else p.tensor.map fun t => (t, p.n)
def Job.dsts (j : Job) : List (DWord × Nat) :=
  j.pieces.filterMap fun p => if j.out then p.tensor.map fun t => (t, p.n) else some (p.packed, p.n)

/-- Places of some ranges, cut at lines; those that do not translate are left out. -/
def Hw.placesOf (h : Hw) (e : Env) (c : Cmd) (write : Bool) (rs : List (DWord × Nat)) : List (Loc × Nat) :=
  rs.flatMap fun r => (cutLines (r.2 / 128 + 2) r.1 r.2).filterMap fun x =>
    match h.engLocate e c write x.1 x.2 with
    | .ok (l, _) => some (l, x.2)
    | .error _ => none

/-- Memory lines of some places, rising and without repeats. -/
def memLines (ps : List (Loc × Nat)) : List Nat :=
  (ps.foldl (fun (t : Tab Nat) p => match p.1 with
    | .mem pa => Tab.put t (lineOf pa) 0
    | _ => t) []).map (·.1)

/-- The tiles that places cover wholly: memory tiles, or scratchpad units with their core. -/
def tilesOf (ps : List (Loc × Nat)) : List (Nat × Bool × Nat) :=
  let add (t : Tab Nat) (k n : Nat) : Tab Nat := Tab.put t k (Tab.getD t k 0 + n)
  let m := ps.foldl (fun t p => match p.1 with | .mem pa => add t (tileOf pa) p.2 | _ => t) []
  let s := ps.foldl (fun t p => match p.1 with
    | .scr core off => add t (core * 2 ^ 20 + off / 4096) p.2
    | _ => t) []
  (m.filterMap fun e => if 4096 ≤ e.2 then some (e.1, false, 0) else none) ++
    s.filterMap fun e => if 4096 ≤ e.2 then some (e.1 % 2 ^ 20, true, e.1 / 2 ^ 20) else none

/-! ## Destinations of DRAIN (R260) -/

/-- Ranges a drain of N columns writes, as offsets from BASE: float elements or planes of 1 KiB. -/
def Rec.drainRanges (r : Rec) (n : Nat) : List (Nat × Nat) :=
  let f := tagFmt r.otag
  if isNI f then
    (List.range (n / 64)).flatMap fun b => (List.range (f - 0x10)).map fun j => (b * Rec.dim r.str 0 + 1024 * j, 1024)
  else
    (List.range 128).flatMap fun i => (List.range n).map fun j =>
      let o := i * Rec.dim r.str 0 + j * elemSize f
      (if tagLay r.otag = 3 then swizzle r.swz o else o, elemSize f)

/-- Is an output record one DRAIN takes (R260)? -/
def Rec.drainOk (r : Rec) (n : Nat) : Bool :=
  let f := tagFmt r.otag
  let l := tagLay r.otag
  !r.bad (r.effFmt 0) && r.base.extractLsb' 56 8 == 0xFE#8 && r.geom == 0 && (f == 3 || f == 4 || isNI f) &&
    (if isNI f then l == 2 && n % 64 == 0 else l == 0 || l == 3)

end Sys2Proof.Machine
end

