-- ==== Sys2Proof/Machine/Push.lean ====
section
/-! DEFINITION. Sys2Proof/Machine/Push.lean: an engine's accesses, the issue of an engine command (R248, R251, R252, R91,
R131, R188), and pushes into the staging buffers (R166). -/
namespace Sys2Proof.Machine

/-! ## An engine's accesses -/

/-- The claim of a command's accesses: its party at the engine interval, ordered as its warp was at issue (R222). -/
def Cmd.claim (h : Hw) (c : Cmd) (cls : Cls) (w : Bool) : Claim :=
  let bk := wkBlock c.wk
  match h.block? bk with
  | none => ⟨0#20, 0, 0, c.intv, c.front, c.snap.intra, cls, w, none⟩
  | some b => ⟨partyOf (bkSlot bk) (wkIdx c.wk) b.gen, bkSlot bk, b.st, c.intv, c.front, c.snap.intra, cls, w,
      if (h.fn c.fn).race.pcrec then c.pc.map fun (p : DWord) => p.extractLsb' 0 32 else none⟩

def placeSites (fn : Nat) (w : Bool) (l : Loc) (leaf : Leaf) (n : Nat) : List Site :=
  match l with
  | .alias_ _ => []
  | .scr core off => (wordsOf off n).map fun k => .scr fn core k
  | .mem pa => if !w && !leaf.w then [] else (wordsOf pa n).map .mem

/-- Does an engine's access fail: poisoned data (0x17) or a conflict (0x07)? -/
def Hw.engCheck (h : Hw) (c : Cmd) (cls : Cls) (w : Bool) (l : Loc) (leaf : Leaf) (n : Nat) : Option (Nat × Option Mark) :=
  let bad := match l with
    | .mem pa => h.poison.contains (lineOf pa)
    | .scr core off => (h.fcore c.fn core).poison.contains (lineOf off)
    | .alias_ _ => false
  if bad && !w then some (0x17, none)
  else
    let q := c.claim h cls w
    ((placeSites c.fn w l leaf n).findSome? fun t =>
      if h.checks c.ctx t then q.conflict (h.marksAt t) else none).map fun r => (0x07, some r)

/-- Mark an engine's access (R222); a write by another context clears the marks (R213). -/
def Hw.engMark (h : Hw) (c : Cmd) (cls : Cls) (w : Bool) (l : Loc) (leaf : Leaf) (n : Nat) : Hw :=
  let q := c.claim h cls w
  (placeSites c.fn w l leaf n).foldl (fun h t =>
    if h.checks c.ctx t then h.install c.ctx t q else if w then h.setMarks t WordMarks.none else h) h

def Cmd.homeReq (c : Cmd) (leaf : Leaf) : HomeReq := ⟨c.ctx, (c.chint.extractLsb' 0 2).toNat, leaf, false⟩

/-- Bytes an engine reads, at the home or in scratchpad (R188). -/
def Hw.engRead (h : Hw) (e : Env) (c : Cmd) (l : Loc) (leaf : Leaf) (n : Nat) : Hw × List Byte :=
  match l with
  | .scr core off => (h, h.scrBytes c.fn core off n)
  | .mem pa => (h.atHome (c.homeReq leaf) pa false, h.homeBytes e pa n)
  | .alias_ _ => (h, [])

/-- Remove the release records of written words (R219). -/
def Hw.dropRecsAt (h : Hw) (fn : Nat) (l : Loc) (n : Nat) : Hw :=
  match l with
  | .mem pa => (wordsOf pa n).foldl (fun h w => h.dropRec (.mem w)) h
  | .scr core off => (wordsOf off n).foldl (fun h w => h.dropRec (.scr fn core w)) h
  | .alias_ _ => h

/-- Bytes an engine writes; `raw` for an ordinary store's tag upkeep (R92). -/
def Hw.engWrite (h : Hw) (c : Cmd) (l : Loc) (leaf : Leaf) (bs : List Byte) (raw : Bool) : Hw :=
  let h := h.dropRecsAt c.fn l bs.length
  match l with
  | .scr core off => (if raw then h.upkeepSp c.fn core off else h).putScr c.fn core off bs
  | .mem pa => (if raw then h.upkeep [] pa else h).homeWrite (c.homeReq leaf) pa bs
  | .alias_ _ => h

/-! ## Failures (R225, R254) -/

/-- A failing access or check of an engine: the reason of Table 10.6, its address, whether it wrote, the record it met. -/
structure EngFail where
  reason : Nat
  addr   : DWord
  w      : Bool
  mark   : Option Mark
  deriving DecidableEq, Repr

/-- A command's first failure stands. -/
def Cmd.fail (c : Cmd) (f : EngFail) : Cmd :=
  if c.status ≠ 0 then c
  else { c with
    status := f.reason, failW := f.w, failA := f.addr
    failO := match f.mark with
      | some m => m.bits.setWidth 64
      | none => BitVec.ofNat 64 f.reason
    failP := match f.mark.bind fun (m : Mark) => m.pc with
      | some p => p.setWidth 64 ||| (1#64 <<< 63)
      | none => 0#64 }

/-- An access of an engine that has to wait is no failure: the engine tries it again (R15, R19, R189, R209). -/
def EngFail.later (va : DWord) : EngFail := ⟨0, va, false, none⟩
def EngFail.isLater (f : EngFail) : Bool := f.reason == 0

/-- Does an engine's translation wait at the home of a table's line (R189)? A command that owns lines has translated its pages
before (R263 step 1). -/
def Hw.engWalkWaits (h : Hw) (e : Env) (c : Cmd) (va : DWord) : Bool :=
  c.owned.isEmpty && !isScr va && h.walkHeld e c.core c.ctx (va.toNat % 2 ^ 57)
/-- Does an engine's access wait: for a link or a channel (R15, R19), or for a rebase whose marks it meets (R209)? -/
def Hw.engWaits (h : Hw) (c : Cmd) (w : Bool) (l : Loc) (leaf : Leaf) (n : Nat) : Bool :=
  (match l with
    | .mem pa => h.waitsOnWay c.ctx (dieOf c.core) leaf pa
    | _ => false) ||
  let slots := h.blocks.filterMap fun e => if bkFn e.1 == c.fn && e.2.rebasing then some (bkSlot e.1) else none
  !slots.isEmpty && (placeSites c.fn w l leaf n).any fun t => (h.marksAt t).records.any fun r => slots.contains r.slot

/-- Read up to a line of an engine's source, checked and marked. -/
def Hw.engGet (h : Hw) (e : Env) (c : Cmd) (cls : Cls) (va : DWord) (n : Nat) : Except EngFail (Hw × List Byte) :=
  if h.engWalkWaits e c va then .error (.later va)
  else match h.engLocate e c false va n with
  | .error r => .error ⟨r, va, false, none⟩
  | .ok (l, leaf) =>
    if h.engWaits c false l leaf n then .error (.later va)
    else match h.engCheck c cls false l leaf n with
    | some (r, m) => .error ⟨r, va, false, m⟩
    | none => .ok ((h.engMark c cls false l leaf n).engRead e c l leaf n)

/-- What an engine's reads come to: the state they leave, with the failure that ended them or what they answer. The reads made
before a failure keep their marks. -/
abbrev Reads (α : Type) := Except (Hw × EngFail) (Hw × α)

/-- Read a range line by line. -/
def Hw.engGets (h : Hw) (e : Env) (c : Cmd) (va : DWord) (n : Nat) : Reads (List Byte) :=
  (cutLines (n / 128 + 2) va n).foldl (fun r x =>
    match r with
    | .error f => .error f
    | .ok (h, bs) => match h.engGet e c .eng x.1 x.2 with
      | .error f => .error (h, f)
      | .ok (h, b) => .ok (h, bs ++ b)) (.ok (h, []))

/-- Does any line of a range wait? -/
def Hw.rangeWaits (h : Hw) (e : Env) (c : Cmd) (write : Bool) (va : DWord) (n : Nat) : Bool :=
  (cutLines (n / 128 + 2) va n).any fun x => h.engWalkWaits e c x.1 || (match h.engLocate e c write x.1 x.2 with
    | .ok (l, leaf) => h.engWaits c write l leaf x.2
    | .error _ => false)

/-- Write up to a line, checked and marked; `raw` for an ordinary store's upkeep. -/
def Hw.engPut (h : Hw) (e : Env) (c : Cmd) (cls : Cls) (va : DWord) (bs : List Byte) (raw : Bool) : Except EngFail Hw :=
  if h.engWalkWaits e c va then .error (.later va)
  else match h.engLocate e c true va bs.length with
  | .error r => .error ⟨r, va, true, none⟩
  | .ok (l, leaf) =>
    if h.engWaits c true l leaf bs.length then .error (.later va)
    else match h.engCheck c cls true l leaf bs.length with
    | some (r, m) => .error ⟨r, va, true, m⟩
    | none => .ok ((h.engMark c cls true l leaf bs.length).engWrite c l leaf bs raw)

/-! ## Issue of a command -/

/-- The step that starts a command. -/
def startStep (opc : Nat) : Instr :=
  if opc ≤ 4 then .arrayMma else if opc = 5 then .arrayDrain else if opc = 6 then .arrayMzero
  else if opc = 7 then .arrayMload else if opc = 0x10 then .engineCopy else if opc = 0x11 then .engineCopyo
  else if opc = 0x20 then .engineGather else if opc = 0x21 then .engineSend else if opc = 0x22 then .engineRred
  else .engineRbcast

/-- Plan a step unless it is planned already. -/
def Hw.planOnce (h : Hw) (i : Instr) (o : Occasion) : Hw :=
  if h.agenda.contains (.event i o) then h else h.plan i o

/-- Is a command one that holds a follower's array (R259)? -/
def pairedCmd (opc : Nat) (w1 : Word) : Bool :=
  opc == 2 || opc == 4 || ((opc == 5 || opc == 6) && w1.getLsbD 11)

/-- May the engines start commands of a block: its function runs, and neither a halt nor a dump holds it (R76 step 6,
R286, R424)? -/
def Hw.enginesRun (h : Hw) (bk : Nat) : Bool :=
  let p := h.part (h.partOf (bkFn bk))
  p.live && !p.halting && !h.trip && (bkSlot bk == handlerSlot || p.running == some (bkFn bk)) &&
    (match h.block? bk with
     | some b => !b.halted && b.dump.isNone
     | none => false)

/-- Payload bytes that a core's copy engine has started. -/
def Hw.startedBytes (h : Hw) (f : FCore) : Nat :=
  (f.cq.map fun j => match Tab.find? h.cmds j with | some d => if d.started then d.size else 0 | none => 0).sum

/-- A command may start: in its warp's push order on the engine, its tick fired, the array free, at most 256 KiB of copy payload
started on a core (R78, R252, R259, R399). -/
def Hw.mayStart (h : Hw) (id : Nat) : Bool :=
  match Tab.find? h.cmds id with
  | none => false
  | some c =>
    let f := h.fcore c.fn c.core
    let ready := !c.started && (c.at_.isNone || c.fired) && h.enginesRun (wkBlock c.wk)
    match c.kind with
    | .matrix => ready && f.mq.head? == some id && (!c.paired || (h.fcore c.fn (c.core + 1)).mq.head? == some id)
    | .copy =>
      ready && ((f.cq.filter fun j => match Tab.find? h.cmds j with
          | some d => d.wk == c.wk && !d.started
          | none => false).head? == some id) &&
        decide ((f.cq.filter fun j => match Tab.find? h.cmds j with | some d => d.started | none => false).length < 4) &&
        decide (h.startedBytes f + c.size ≤ 262144)
    | .ring =>
      ready && ((f.gq.filter fun j => match Tab.find? h.cmds j with
          | some d => d.wk == c.wk && !d.started
          | none => false).head? == some id)

/-- Plan the start of every command of a function on a core that may start. -/
def Hw.kick (h : Hw) (fn core : Nat) : Hw :=
  let f := h.fcore fn core
  (f.mq ++ f.cq ++ f.gq).foldl (fun h id =>
    if h.mayStart id then
      match Tab.find? h.cmds id with
      | some c => h.planOnce (startStep c.opc) { Occasion.none with unit := id }
      | none => h
    else h) h

/-- Capture the layout record of a copy or gather at issue (R248): its bits, or the failure, which the start reports. A read that
has to wait holds the issue. -/
def Hw.capture (h : Hw) (e : Env) (c : Cmd) : Except Stop (Hw × Cmd) :=
  let ra := c.pair 1
  if c.kind = .matrix ∨ (c.opc ≠ 0x10 ∧ c.opc ≠ 0x11 ∧ c.opc ≠ 0x20) ∨ (c.opc ≠ 0x20 ∧ ra = 0#64) then .ok (h, c)
  else if ra.toNat % 64 ≠ 0 then .ok (h, c.fail ⟨0x04, ra, false, none⟩)
  else match h.engGet e c .eng ra 64 with
    | .error f => if f.isLater then .error (.wait 31) else .ok (h, c.fail f)
    | .ok (h, bs) => .ok (h, { c with rec_ := some (BitVec.ofNat 512 (leNat bs)) })

/-- Destination places of a drain, from its record as it stands at issue (R91). -/
def Hw.drainPlaces (h : Hw) (e : Env) (c : Cmd) (b : Block) : List (Loc × Nat) × BitVec 16 :=
  let off := (c.word 2).toNat
  if b.spBytes < off + 64 ∨ off % 64 ≠ 0 then ([], 0#16)
  else
    let r := Rec.of (BitVec.ofNat 512 (leNat (h.scrBytes c.fn c.core (b.spBase + off) 64)))
    let n := 16 * (((c.word 1).extractLsb' 6 5).toNat + 1)
    if !r.drainOk n then ([], 0#16)
    else
      let own := h.placesOf e c true ((r.drainRanges n).map fun x => (addrOff r.base x.1, x.2))
      let pair := if c.paired then own.filterMap fun p => match p.1 with
          | .scr _ o => some (Loc.scr (c.core + 1) o, p.2)
          | _ => none
        else []
      (own ++ pair, withSt r.otag 0)

/-- The issue-time actions of a command: L1 write-back and invalidation (R188), tiles taken (R91), ready bits cleared
(R131). -/
def Hw.issueActions (h : Hw) (e : Env) (c : Cmd) (b : Block) (bk : Nat) : Hw × Cmd :=
  if c.opc = 5 then
    let (ps, tag) := h.drainPlaces e c b
    let ts := tilesOf ps
    let h := ts.foldl (fun h t => h.setSpTag c.fn t.2.2 (4096 * t.1) (withSt (h.spTag c.fn t.2.2 (4096 * t.1)) 2)) h
    (h, { c with tiles := ts, outTag := tag })
  else if c.opc = 0x10 ∨ c.opc = 0x11 ∨ c.opc = 0x20 then
    let j := h.jobOf e c
    let src := memLines (h.placesOf e c false j.srcs)
    let dps := h.placesOf e c true j.dsts
    let dst := memLines dps
    let h := (src ++ dst).foldl (fun h l => h.writeBackLine c.core c.ctx l) h
    let h := dst.foldl (fun h l => h.setL1 c.core c.ctx l
      { (h.l1 c.core c.ctx l) with valid := (h.l1 c.core c.ctx l).dirty }) h
    let ts := match j.tag with | some _ => tilesOf dps | none => []
    let h := ts.foldl (fun h t =>
      if t.2.1 then h.setSpTag c.fn t.2.2 (4096 * t.1) (withSt (h.spTag c.fn t.2.2 (4096 * t.1)) 2)
      else h.setTag (4096 * t.1) (withSt (h.tag (4096 * t.1)) 2)) h
    let us := if c.opc = 0x11 then [] else (tilesOf dps).filterMap fun t =>
      if t.2.1 ∧ t.2.2 = b.core ∧ b.holds (4096 * t.1) 4096 then some (t.1 - b.spBase / 4096) else none
    let h := h.onBlock bk fun b => { b with ready := Tab.keep (fun u _ => !us.contains u) b.ready }
    (h, { c with tiles := ts.filter fun t => t.2.1 || paKind (4096 * t.1) == .hbm, outTag := j.tag.getD 0#16, units := us
                 size := if j.bad = 0 then j.total else 0 })
  else (h, c)

/-- Does the partition own the engine group of a queue on a core's ring (R68)? -/
def Hw.ownsEngine (h : Hw) (fn core : Nat) (k : EngKind) : Bool :=
  let o := (h.part (h.partOf fn)).owns.eng
  match k with
  | .matrix => true
  | .copy => o.getLsbD (2 * ringOf core)
  | .ring => o.getLsbD (2 * ringOf core + 1)

/-- Put a command into its hardware queue. -/
def Hw.enqueue (h : Hw) (c : Cmd) (id : Nat) : Hw :=
  match c.kind with
  | .matrix =>
    let h := h.onFCore c.fn c.core fun f => { f with mq := f.mq ++ [id] }
    if c.paired then h.onFCore c.fn (c.core + 1) fun f => { f with mq := f.mq ++ [id] } else h
  | .copy => h.onFCore c.fn c.core fun f => { f with cq := f.cq ++ [id] }
  | .ring => h.onFCore c.fn c.core fun f => { f with gq := f.gq ++ [id] }

/-- Commands that wait in a hardware queue: those that have started have left it (R252, R263). -/
def Hw.queued (h : Hw) (l : List Nat) : Nat :=
  (l.filter fun id => match Tab.find? h.cmds id with | some c => !c.started | none => false).length
/-- Has the hardware queue no room (R252)? -/
def Hw.queueFull (h : Hw) (fn core : Nat) (k : EngKind) (paired : Bool) : Bool :=
  let f := h.fcore fn core
  match k with
  | .matrix => decide (16 ≤ h.queued f.mq) || (paired && decide (16 ≤ h.queued (h.fcore fn (core + 1)).mq))
  | .copy => decide (32 ≤ h.queued f.cq)
  | .ring => decide (32 ≤ h.queued f.gq)
/-- What the paths of one core wait for: room in a hardware queue, or in the dependency table (R450). -/
def roomKey (core : Nat) (k : Option EngKind) : Nat :=
  4 * core + match k with | some .matrix => 0 | some .copy => 1 | some .ring => 2 | none => 3
/-- Does a path of the issuing warp's core wait for `key` since before the issuing path? -/
def Hw.roomTaken (h : Hw) (wk reason key : Nat) : Bool :=
  match h.cur, h.warp? wk with
  | some p, some w => p.wk == wk && h.warps.any fun e => e.2.queuedBefore reason (h.ticketOf (w.path p.path) reason) [key]
  | _, _ => false

/-- The push that completes a command, or the dependency table's issue of one, for a warp (R208, R222, R248, R252). -/
def Hw.issueCmd (h : Hw) (e : Env) (wk : Nat) (k : EngKind) (ws : List Word) (rm nbv : Word) : Except Stop Hw :=
  let bk := wkBlock wk
  let fn := wkFn wk
  match h.warp? wk, h.block? bk with
  | some w, some b =>
    let hd := ws.headD 0#32
    let opc := hdrOpc hd
    let tok := hd.getLsbD 15
    let paired := pairedCmd opc (ws.getD 1 0#32) && b.core % 2 == 0
    let q := w.queue k
    if !h.ownsEngine fn b.core k then .error (.plain cPROTECT)
    else if h.wraps bk 2 then .error (.plain cINTVWRAP)
    else
      let ctx := if w.mode = .handler then handlerFn (h.partOf fn) else ctxOf fn
      if tok && decide (16 ≤ q.tokens.length + q.reserved) then .error (.wait 11)
      else if h.queueFull fn b.core k paired || h.roomTaken wk 11 (roomKey b.core (some k)) then
        .error (.turn 11 [roomKey b.core (some k)])
      else if (opc = 0x10 ∨ opc = 0x11 ∨ opc = 0x20) ∧ h.backHeld b.core ctx then .error (.wait 16)
      else
      let h := h.advance bk
      match h.block? bk with
      | none => .ok h
      | some b1 =>
        let u := wkIdx wk
        let sc := scopeOfNat (hdrScope hd)
        let n := ws.length
        let id := h.nextId
        let timed := hd.getLsbD 24
        let at_ := (ws.getD (n - 1) 0#32 ++ ws.getD (n - 2) 0#32).toNat
        let seq := if k = .matrix then 0 else w.seq + 1
        let c : Cmd :=
          { fn := fn, wk := wk, core := b.core, kind := k, opc := opc, words := ws, rec_ := none
            intv := b1.c, snap := b1.snapshot fn (bkSlot bk) u sc bk, front := b1.front, ctx := ctx, chint := w.chint
            rmode := rm, nbv := nbv, scope := sc, tok := tok, tag := hd.extractLsb' 16 8, bc := hd.getLsbD 25
            at_ := if timed then some at_ else none, fired := false
            late := timed && decide (at_ < localTick e b.core), seq := seq, batch := w.batch + 1, size := 0, started := false
            moved := false, status := 0, failW := false, failA := 0#64, failO := 0#64, failP := 0#64
            owned := [], tiles := [], outTag := 0#16, units := [], credit := [], unwritten := [], paid := 0
            packets := 0, data := [], paired := paired
            pc := match h.cur with
              | some p => if p.wk = wk then some (w.path p.path).pc else none
              | none => none }
        let h := { h with nextId := id + 1 }
        match h.capture e c with
        | .error s => .error s
        | .ok (h, c) =>
          let (h, c) := h.issueActions e c b1 bk
          let h := h.advance bk
          let h := h.onWarp wk fun w =>
            let w := w.setQueue k { (w.queue k) with
              staging := (w.queue k).staging, reserved := (w.queue k).reserved + (if tok then 1 else 0) }
            if k = .matrix then { w with mseq := w.mseq + 1 }
            else { w with seq := seq, batchOf := Tab.put w.batchOf seq (w.batch + 1) }
          let h := ({ h with cmds := Tab.put h.cmds id c }).enqueue c id
          let h := if timed ∧ at_ ≤ localTick e b.core then h.onCmd id fun c => { c with fired := true } else h
          .ok (h.kick fn b.core)
  | _, _ => .ok h

/-! ## Pushes (R166) -/

def Hw.setStaging (h : Hw) (wk : Nat) (k : EngKind) (ws : List Word) : Hw :=
  h.onWarp wk fun w => w.setQueue k { (w.queue k) with staging := ws }

/-- Push one word. -/
def Hw.pushWord (h : Hw) (e : Env) (wk : Nat) (k : EngKind) (rm nbv v : Word) : Except Stop Hw :=
  match h.warp? wk with
  | some w =>
    let ws := (w.queue k).staging ++ [v]
    if ws.length = hdrLen (ws.headD 0#32) then
      match h.issueCmd e wk k ws rm nbv with
      | .ok h => .ok (h.setStaging wk k [])
      | .error s => .error s
    else .ok (h.setStaging wk k ws)
  | none => .ok h

/-- How many commands some words complete behind what is in the staging buffer; none where a command's first word is malformed. -/
def pushPlan (k : EngKind) : List Word → List Word → Option Nat
  | _, [] => some 0
  | st, v :: vs =>
    let ws := st ++ [v]
    let hd := ws.headD 0#32
    if ws.length = 1 ∧ hdrBad k hd then none
    else if ws.length = hdrLen hd then (pushPlan k [] vs).map (· + 1)
    else pushPlan k ws vs

/-- The causes that an instruction's push meets, before it changes anything: PROTECT (R68), a malformed header, which discards
the buffer (R166), INTVWRAP with `own` events of the instruction itself (R209). -/
def Hw.mayPush (h : Hw) (wk : Nat) (k : EngKind) (ws : List Word) (own : Nat) : Except Stop Unit :=
  match h.warp? wk, h.block? (wkBlock wk) with
  | some w, some b =>
    if !h.ownsEngine (wkFn wk) b.core k then .error (.plain cPROTECT)
    else match pushPlan k (w.queue k).staging ws with
      | none => .error (.trapFrom (h.setStaging wk k []) (BitVec.ofNat 64 cILLEGAL) 0#64 none 0#64)
      | some n => if h.wraps (wkBlock wk) (2 * n + own) then .error (.plain cINTVWRAP) else .ok ()
  | _, _ => .ok ()

/-- Push the words of an instruction. Held before its first word it has not begun; held later, it keeps the words that remain
(R166, R233). -/
def pushLoop (e : Env) (wk : Nat) (x : Bool) (k : EngKind) (rm nbv : Word) : Bool → Hw → List Word → Except Stop Hw
  | _, h, [] => .ok h
  | begun, h, v :: vs =>
    let rest := h.onPath wk x fun p => { p with pushing := some ⟨k, v :: vs, rm, nbv⟩ }
    match h.pushWord e wk k rm nbv v with
    | .ok h => pushLoop e wk x k rm nbv true h vs
    | .error (.wait r) => .error (if begun then .waitFrom rest r else .wait r)
    | .error (.turn r ks) => .error (if begun then .turnFrom rest r ks else .turn r ks)
    | .error s => .error s

def Hw.pushWords (h : Hw) (e : Env) (wk : Nat) (x : Bool) (k : EngKind) (ws : List Word) : Except Stop Hw :=
  match h.mayPush wk k ws 0, h.warp? wk with
  | .error s, _ => .error s
  | .ok (), some w => pushLoop e wk x k w.rmode w.nbv false h ws
  | .ok (), none => .ok h
/-- Push what is left of an instruction held midway. -/
def Hw.pushRest (h : Hw) (e : Env) (wk : Nat) (x : Bool) (p : Pushing) : Except Stop Hw :=
  pushLoop e wk x p.kind p.rmode p.nbv true h p.words

end Sys2Proof.Machine
end

