-- ==== Sys2Proof/Machine/Causes.lean ====
section
/-! DEFINITION. Sys2Proof/Machine/Causes.lean: the causes of rank 2 that depend on what the machine or an operand holds (R299,
R300), what SWR writes (R416), and the instructions that issue row by row (R146, R147) or exchange lanes (R155). -/
namespace Sys2Proof.Machine

/-- What SWR writes in a warp; none where the value is illegal (R203, R209, R232, Tables 9.1, 9.2, 16.3). -/
def Warp.sysWrite (w : Warp) (n : Nat) (v : DWord) : Option Warp :=
  let x := v.extractLsb' 0 32
  if n = 0x01 then if 5 ≤ (x.extractLsb' 0 3).toNat then none else some { w with rmode := x &&& 0xF#32 }
  else if n = 0x02 then if x.extractLsb' 0 2 = 0#2 then none else some { w with nbv := x &&& 3#32 }
  else if n = 0x0C then some { w with xi := x.extractLsb' 0 8 }
  else if n = 0x0E then some { w with chint := x &&& 0xF#32 }
  else if n = 0x10 then if 5 ≤ (x.extractLsb' 9 3).toNat then none else some { w with ehdr := x &&& 0xFFF#32 }
  else if n = 0x20 then some { w with trapc := v }
  else if n = 0x21 then some { w with trappc := v }
  else if n = 0x22 then some { w with trapa := v }
  else if n = 0x23 then some { w with trapo := v }
  else if n = 0x24 then some { w with raceopc := v }
  else if n = 0x30 then some { w with bpctl := x &&& 0xF#32 }
  else if 0x31 ≤ n ∧ n ≤ 0x34 then
    some { w with bpaddr := Tab.store 0#64 w.bpaddr (n - 0x31) (v &&& 0xFFFFFFFFFFFFFFFC#64) }
  else if n = 0x35 then some { w with wpctl := x }
  else if 0x36 ≤ n ∧ n ≤ 0x39 then some { w with wpaddr := Tab.store 0#64 w.wpaddr (n - 0x36) v }
  else some w

/-- Engine of a dependency-table entry's KIND; none for ARRIVE. -/
def depEngine (kind : Nat) : Option EngKind :=
  if kind = 0 then some .matrix else if kind = 1 then some .copy else if kind = 2 then some .ring else none

/-- The unit of a block, or of the exact kernel it belongs to (R108, R408; log 43). -/
def Hw.unitOf (h : Hw) (b : Block) : Option Nat := b.unit.or ((h.grid? b.grid).bind (·.unit))

/-- Are all operands in a field readable: within the allotment and full? A cause that depends on their value is met only then. -/
def Iss.readable (q : Iss) (i : Instr) (a : RField) : Bool :=
  (Instr.uses i).all fun u => u.r != a || !u.rd || (q.w.inBounds u && !q.w.srcEmpty u q.lanes)

/-- Is the instruction ILLEGAL for what the machine or its operands hold (R226, R299, R395, R406, R408, R421)? ERET and RACEW are so only
in handler mode; in user mode they are PRIV. -/
def Iss.bad (q : Iss) (h : Hw) (i : Instr) : Bool :=
  let part (k : EngKind) : Bool := !(q.w.queue k).staging.isEmpty
  match i with
  | .exit => q.w.mode == .handler
  | .mwait _ => q.p.mon.isNone
  | .resid _ _ _ => (h.unitOf q.b).isNone
  | .gchk _ => (h.unitOf q.b).isNone
  | .eret => q.w.mode == .handler && if q.slot = handlerSlot then (h.part (h.partOf q.fn)).serving.isNone else q.w.frame.isNone
  | .racew => q.w.mode == .handler && q.w.trapc.extractLsb' 0 8 != 0x07#8
  | .dumpw _ => q.slot == handlerSlot
  | .mma _ _ _ | .mmaP _ _ _ | .mmaZ _ _ _ | .mmaPz _ _ _ | .drain _ _ | .mzero _ | .mload _ _ => part .matrix
  | .copy _ _ _ | .copyo _ _ _ | .copyAt _ _ _ => part .copy
  | .gather _ _ _ | .send _ _ | .sendAt _ _ | .rred _ _ | .rbcast _ _ => part .ring
  | .tagwr _ b _ y => q.readable i b && q.lanes.any fun n => !tagOk ((q.w.read (Use.srcC b y false) n).extractLsb' 0 16)
  | .ctrctl _ _ b _ y => q.readable i b && (q.w.read (Use.srcC b y false) q.lane0).extractLsb' 29 3 != 0#3
  | .swr n b y =>
    let u := (Use.srcC b y false).wide (sysRegs n)
    let v := if sysRegs n = 2 then q.w.read64 u q.lane0 else (q.w.read u q.lane0).setWidth 64
    q.readable i b && (if n = 0x04#7 then v != 0#64 else n != 0x25#7 && (q.w.sysWrite n.toNat v).isNone)
  | .task a b =>
    let v := q.w.readAt (Use.src a) 0 q.lane0
    let hd := q.w.readAt (Use.src b) 0 q.lane0
    (q.readable i a && (v.extractLsb' 5 27 != 0#27 || decide (4 < (v.extractLsb' 2 3).toNat))) ||
      (q.readable i a && q.readable i b && match depEngine (v.extractLsb' 0 2).toNat with
        | some k => hdrBad k hd || part k
        | none => false)
  | _ => false

/-- Does the instruction raise PRIV for what its operands hold: TAGWR of a tag that user mode may not write (R96)? -/
def Iss.denied (q : Iss) (i : Instr) : Bool :=
  match i with
  | .tagwr _ b _ y =>
    q.w.mode == .user && q.readable i b &&
      q.lanes.any fun n => decide (2 ≤ tagSt ((q.w.read (Use.srcC b y false) n).extractLsb' 0 16))
  | _ => false

/-- The checks of rank 2 for the issuing path, before its first row: every active lane that has still to issue is covered (R164,
R300). -/
def Iss.rank2 (q : Iss) (h : Hw) (i : Instr) : Except Stop Unit :=
  Machine.rank2 (q.bad h i) (q.denied i) i q.w (q.w.active { q.p with later := 0#32 })

/-! ## Rows -/

/-- Instructions that issue the passes of the unpacked placement on a packed path (R155, R330, R392, R393). -/
def Instr.exchanges : Instr → Bool
  | .shflIdx .. | .shflUp .. | .shflDn .. | .shflXor .. | .bcast .. | .rdlane .. | .wrlane .. | .rdxAdd .. | .rdxMax .. | .rdxMin ..
  | .rdxOr .. | .rdxAnd .. | .rdxFadd .. | .sexp .. | .nipl .. => true
  | _ => false

/-- Instructions of one pass per row, none of them warp-wide (R146, R147). -/
def Instr.byRow : Instr → Bool
  | .add .. | .sub .. | .min .. | .max .. | .minu .. | .maxu .. | .absd .. | .addsat .. | .mul .. | .mulh .. | .mulhu .. | .mad ..
  | .and .. | .or .. | .xor .. | .andn .. | .shl .. | .shr .. | .sha .. | .rot .. | .clz .. | .popc .. | .brev .. | .ffs .. | .bfx ..
  | .bfxz .. | .bfi .. | .permb .. | .addi .. | .muli .. | .andi .. | .ori .. | .xori .. | .shi .. | .cmpi .. | .lui .. | .cmp ..
  | .fcmp .. | .dcmp .. | .fclass .. | .sel .. | .pand .. | .por .. | .pxor .. | .pandn .. | .ptov .. | .vtop .. | .mov .. | .movx ..
  | .shflIdx .. | .shflUp .. | .shflDn .. | .shflXor .. | .fadd .. | .fsub .. | .fmul .. | .ffma .. | .fmin .. | .fmax .. | .fcpys ..
  | .fscale .. | .badd2 .. | .bmul2 .. | .bfma2 .. | .bmax2 .. | .hadd2 .. | .hmul2 .. | .hfma2 .. | .hmax2 .. | .dadd .. | .dmul ..
  | .dfma .. | .cvtFI .. | .cvtFZ .. | .cvtIF .. | .cvtZF .. | .cvtBfF .. | .cvtHF .. | .cvtFBf .. | .cvtFH .. | .cvtDF .. | .cvtFD ..
  | .cvtI8F .. | .frnd .. | .niq .. | .nidq .. | .sexp .. | .nipl .. => true
  | _ => false

/-- Rows that an issue leaves to a later pass of the path: of the rows that remain, the first few issue now, how many is free; an
instruction that writes a uniform register, or names a queue, is warp-wide (R146, R147; log 10). -/
def Iss.laterRows (q : Iss) (i : Instr) (n : Nat) : BitVec 32 :=
  let rows := (q.lanes.map (· / 32)).eraseDups
  if Instr.byRow i && decide (1 < rows.length) && !q.p.packed && q.p.pushing.isNone && decide (0 < n) && decide (n < rows.length) &&
      (Instr.uses i).all fun u => decide (u.r.toNat < 96) || !u.wr && !(decide (120 ≤ u.r.toNat) && decide (u.r.toNat < 126))
  then (rows.drop n).foldl (fun m r => m ||| (1#32 <<< r)) 0#32
  else 0#32

end Sys2Proof.Machine
end

