-- ==== Sys2Proof/Machine/Exec.lean ====
section
/-! DEFINITION. Sys2Proof/Machine/Exec.lean: the frame every instruction shares: the checks of rank 2 before anything,
the destination, retirement, and results that return later (R76, R146, R160, R163, R310). -/
namespace Sys2Proof.Machine

/-! ## Issuing -/

/-- The path an instruction is issued for. -/
def Iss.of (h : Hw) : Option Iss :=
  match h.cur with
  | none => none
  | some c =>
    match h.warp? c.wk, h.block? (wkBlock c.wk) with
    | some w, some b => some ⟨c.wk, c.path, w, b, w.active (w.path c.path)⟩
    | _, _ => none

/-- What an attempt to issue leaves: the next state, a trap taken from the state before the instruction, or a wait. -/
def settle (e : Env) (h : Hw) (s : Iss) : Except Stop Hw → Host.Outcome Hw Fault Refusal
  | .ok h' => .next h'
  | .error (.trap c a o opc) => .next (h.takeTrap e s.wk s.x (s.p.trapAt s.x c a o opc))
  | .error (.trapFrom h' c a o opc) => .next (h'.takeTrap e s.wk s.x (s.p.trapAt s.x c a o opc))
  | .error (.wait r) => .next (h.waitOn s.wk s.x r)
  | .error (.waitFrom h' r) => .next (h'.waitOn s.wk s.x r)
  | .error (.turn r ks) => .next (h.waitTurn s.wk s.x r ks)
  | .error (.turnFrom h' r ks) => .next (h'.waitTurn s.wk s.x r ks)
  | .error (.fault f) => .fault f

/-- Passes an instruction issues (R146): fewer on a packed path, but for the lane exchanges of R155. -/
def Iss.passes (s : Iss) (i : Instr) : Nat :=
  if s.p.packed && !Instr.exchanges i then ((s.lanes.map (· / 8)).eraseDups.length + 3) / 4 else (s.lanes.map (· / 32)).eraseDups.length

/-- A path after its instruction at `pc` has issued the rows that were its turn: it has retired, its suppression and its waiver
end (R226, R275), unless later rows remain (R146, R311). -/
def Path.retired (p : Path) (pc : DWord) : Path :=
  let done := p.later == 0#32
  { p with
    resume := p.later, later := 0#32
    stall := if p.atJoin then 5 else if p.hold.isSome then 2 else if p.yieldTo.isSome then 31 else 0
    count := if p.fresh || !done then p.count else p.count + 1
    fresh := false, pushing := none, ticket := none, ready := 0, promoted := false, wakeAt := none
    suppress := if p.suppress = some pc ∧ done = true then none else p.suppress
    waiver := if p.waiver = some pc ∧ done = true then none else p.waiver }

/-- A warp after path x has retired the instruction at pc. -/
def Warp.retired (w : Warp) (x : Bool) (pc : DWord) : Warp := w.setPath x ((w.path x).retired pc)

/-- Retirement: popped tokens are acquiring waits (R253), each at its command's scope; the path's bookkeeping; the
passes are counted (Table 11.7). -/
def Iss.retire (s : Iss) (i : Instr) (h : Hw) : Except Stop Hw :=
  let rels := (s.w.poppedRels i).filter fun r => r.scope ≠ .warp
  if !rels.isEmpty && h.wraps s.bk 1 then .error (.plain cINTVWRAP)
  else
    let h := if rels.isEmpty then h
      else (rels.foldl (fun h r =>
        (h.acquireRec s.bk s.widx r.scope r).acquireSync s.core (Iss.ctx h s) r.scope) h).advance s.bk
    let h := h.onWarp s.wk fun w => (w.popTokens i).retired s.x s.p.pc
    .ok ({ (h.count s.fn 0 s.core 0x02 0 (s.passes i)) with tried := [] })

/-- Move the path to an address. -/
def Hw.goto (h : Hw) (wk : Nat) (x : Bool) (pc : DWord) : Hw := h.onPath wk x fun p => { p with pc := pc }
/-- Where the path goes on: at the same instruction while rows of it remain. -/
def Iss.next (s : Iss) : DWord := if s.p.later = 0#32 then s.p.pc + 4#64 else s.p.pc

/-- An instruction that sets its own program counter. -/
def issueCtl (i : Instr) (s : State) (f : Env → Hw → Iss → Except Stop Hw) : Host.Outcome State Fault Refusal :=
  s.run fun e h =>
    match Iss.of h with
    | none => .fault .noIssuer
    | some q => settle e h q (do
        q.rank2 h i
        let h ← f e h q
        q.retire i h)

/-- An instruction that goes on at pc + 4; held midway in its pushes, it goes on with them. -/
def issue (i : Instr) (s : State) (f : Env → Hw → Iss → Except Stop Hw) : Host.Outcome State Fault Refusal :=
  issueCtl i s fun e h q => do
    let h ← match q.p.pushing with
      | some p => h.pushRest e q.wk q.x p
      | none => f e h q
    .ok (h.goto q.wk q.x q.next)

/-! ## Destinations -/

/-- Write a destination: vector or uniform registers, nothing for zr, a push for a queue (R310). -/
def Iss.put (e : Env) (s : Iss) (u : Use) (val : Nat → List Word) (h : Hw) : Except Stop Hw :=
  match dstPushes u s.lanes val with
  | some (k, ws) => h.pushWords e s.wk s.x k ws
  | none => .ok (h.onWarp s.wk fun w => w.writeDst u s.lanes val)

/-- The causes that a push of a result meets, for an instruction that makes `own` interval events of its own: found before the
instruction changes anything (R166, R209, R276). -/
def Iss.mayPut (s : Iss) (h : Hw) (u : Use) (val : Nat → List Word) (own : Nat) : Except Stop Unit :=
  match dstPushes u s.lanes val with
  | some (k, ws) => h.mayPush s.wk k ws own
  | none => .ok ()

/-- Deliver a result after the instruction's own effects, which made `h` of `h0`: the causes that its push meets leave none of
them. -/
def Iss.putAfter (e : Env) (s : Iss) (h0 : Hw) (u : Use) (val : Nat → List Word) (own : Nat) (h : Hw) : Except Stop Hw :=
  match s.mayPut h0 u val own with
  | .error t => .error t
  | .ok () => s.put e u val h

/-- An instruction that computes one 32-bit result per active lane into d. -/
def alu (i : Instr) (d : RField) (s : State) (val : Iss → Nat → Word) : Host.Outcome State Fault Refusal :=
  issue i s fun e h q => q.put e (Use.dst d) (fun n => [val q n]) h

/-- An instruction that computes a register pair per active lane. -/
def alu64 (i : Instr) (d : RField) (s : State) (val : Iss → Nat → DWord) : Host.Outcome State Fault Refusal :=
  issue i s fun e h q => q.put e ((Use.dst d).wide 2) (fun n => halves (val q n)) h

/-- Field a of format A under its choice bit and the I bit, and field b, as a lane reads them. -/
def Iss.ra (q : Iss) (a : RField) (x i : Bool) (n : Nat) : Word := q.w.read (Use.srcC a x i) n
def Iss.rb (q : Iss) (b : RField) (y : Bool) (n : Nat) : Word := q.w.read (Use.srcC b y false) n
def Iss.rd (q : Iss) (d : RField) (n : Nat) : Word := q.w.read (Use.both d) n

/-- d := f(a, b) and d := f(a) per active lane. -/
def alu2 (ins : Instr) (d a b : RField) (i x y : Bool) (s : State) (f : Word → Word → Word) :
    Host.Outcome State Fault Refusal :=
  alu ins d s fun q n => f (q.ra a x i n) (q.rb b y n)
def alu1 (ins : Instr) (d a : RField) (i x : Bool) (s : State) (f : Word → Word) : Host.Outcome State Fault Refusal :=
  alu ins d s fun q n => f (q.ra a x i n)
/-- d := f(d, a, b) per active lane. -/
def alu3 (ins : Instr) (d a b : RField) (i x y : Bool) (s : State) (f : Word → Word → Word → Word) :
    Host.Outcome State Fault Refusal :=
  alu ins d s fun q n => f (q.rd d n) (q.ra a x i n) (q.rb b y n)

/-- An instruction that sets predicate p per active lane. -/
def setp (i : Instr) (p : BitVec 3) (s : State) (val : Iss → Nat → Bool) : Host.Outcome State Fault Refusal :=
  issue i s fun _ h q => .ok (h.onWarp q.wk fun w => w.setP p.toNat q.lanes (val q))

/-! ## Results that return later (R76, R163) -/

/-- A destination by number: 0 to 255 vector, 256 + n uniform, 999 none, 1000 + q queue field q. -/
def Warp.dregOf (w : Warp) (u : Use) : Nat :=
  let v := u.r.toNat
  if v < 96 then w.vIndex u else if v < 120 then 256 + w.uIndex u else if v < 126 then 1000 + v else 999

/-- Give a flight a number, mark its destination empty, and hold the path where its result must land before any later
instruction (R160). -/
def Hw.sendOff (h : Hw) (s : Iss) (u : Use) (f : Flight) : Hw :=
  let id := h.nextId
  let h := { h with nextId := id + 1, flights := Tab.put h.flights id f }
  let h := h.onWarp s.wk fun w => w.markEmpty u s.lanes
  if 256 ≤ f.dreg ∧ f.dreg ≠ 999 then h.onPath s.wk s.x fun p => { p with hold := some id, stall := 2 } else h

/-- Send off a flight and plan its return. -/
def Hw.fly (h : Hw) (s : Iss) (u : Use) (f : Flight) (back : Instr) : Hw :=
  (h.sendOff s u f).plan back { Occasion.none with unit := h.nextId, aux := f.tag }

/-- The path of a warp that holds flight `id` goes on. -/
def Warp.unhold (w : Warp) (id : Nat) : Warp :=
  let one (p : Path) : Path := if p.hold = some id then { p with hold := none, stall := 0 } else p
  { w with p0 := one w.p0, p1 := one w.p1
           frame := w.frame.map fun f => { f with p0 := one f.p0, p1 := one f.p1 } }

/-- Words of a value that takes n registers. -/
def wordsOfVal (n : Nat) (v : BitVec 128) : List Word := (quarters v).take n

/-- Land the value of one lane of a flight in its destination, or the lowest lane's in a uniform register. -/
def Warp.land (w : Warp) (f : Flight) (lane : Nat) (v : BitVec 128) : Warp :=
  if f.dreg < 256 then
    (wordsOfVal f.nreg v).zipIdx.foldl (fun w (x : Word × Nat) =>
      (w.setV (f.dreg + x.2) lane x.1).setFull (f.dreg + x.2) lane) w
  else if f.dreg < 999 then
    if (f.lanes.map (·.1)).headD 0 = lane then w.writeU (f.dreg - 256) (wordsOfVal f.nreg v) else w
  else w

/-- A flight has landed in all its lanes. -/
def Hw.landed (h : Hw) (id : Nat) : Hw :=
  match Tab.find? h.flights id with
  | none => h
  | some f => ({ h with flights := Tab.del h.flights id }.onWarp f.wk fun w =>
      { (w.unhold id) with replayFirst := w.replayFirst.filter (· != id) }).moved

/-- Generation tag of a context on a core (R77). -/
def Hw.genTag (h : Hw) (core ctx : Nat) : Nat := Tab.getD (h.core core).gens ctx 0

/-- A flight of the issuing instruction. -/
def Iss.flight (h : Hw) (s : Iss) (kind : FlightKind) (u : Use) (addr : Nat → DWord) (vals : Tab (BitVec 128)) : Flight :=
  { wk := s.wk, path := s.x, kind := kind, tag := h.genTag s.core (ctxOf s.fn), dreg := s.w.dregOf u, nreg := u.n
    lanes := s.lanes.map fun n => (n, addr n), locs := [], vals := vals, pc := s.p.pc, intv := s.b.c, waived := s.waived
    handler := s.w.mode = .handler, chint := s.w.chint, replay := false, held := [] }

/-- Values per lane of a flight that knows its results. -/
def Iss.flyVals (q : Iss) (val : Nat → List Word) : Tab (BitVec 128) :=
  q.lanes.map fun l => (l, (val l).reverse.foldl (fun (a : BitVec 128) w => (a <<< 32) ||| w.setWidth 128) 0#128)

/-- A lane exchange: on a packed path its result returns after its pass, into a destination that is empty until then (R163); a
queue destination is pushed at once. -/
def exchange (i : Instr) (d : RField) (s : State) (val : Iss → Nat → Word) : Host.Outcome State Fault Refusal :=
  issue i s fun e h q =>
    let u := Use.dst d
    if !q.p.packed || (dstPushes u q.lanes fun n => [val q n]).isSome then q.put e u (fun n => [val q n]) h
    else .ok (h.fly q u (Iss.flight h q .late u (fun _ => 0#64) (q.flyVals fun n => [val q n])) .iterativePassResult)

/-- An iterative operation: its result lands later (R76 step 1); a queue destination is pushed at once (log 30). -/
def iterative (i : Instr) (d : RField) (n : Nat) (s : State) (val : Iss → Nat → List Word) :
    Host.Outcome State Fault Refusal :=
  issue i s fun e h q =>
    let u := (Use.dst d).wide n
    if (dstPushes u q.lanes (val q)).isSome then q.put e u (val q) h
    else .ok (h.fly q u (Iss.flight h q .iter u (fun _ => 0#64) (q.flyVals (val q))) .iterativePassResult)

end Sys2Proof.Machine
end

