-- ==== Sys2Proof/Machine/Flags.lean ====
section
/-! DEFINITION. Sys2Proof/Machine/Flags.lean: condition codes (Table 12.4) and the class word of FCLASS (Table 13.3).
The machine has no flag register: what a compare finds goes into predicates. -/
namespace Sys2Proof.Machine

/-- Integer conditions 0x0 to 0x9; the other codes are ILLEGAL before this is reached (R323). -/
def intTest (cc : Nat) (a b : Word) : Bool :=
  match cc with
  | 0 => a == b
  | 1 => a != b
  | 2 => a.slt b
  | 3 => a.sle b
  | 4 => b.slt a
  | 5 => b.sle a
  | 6 => a.ult b
  | 7 => a.ule b
  | 8 => b.ult a
  | 9 => b.ule a
  | _ => false

/-- Floating-point conditions 0x0 to 0x5, 0xA and 0xB (R324). -/
def fpTest (cc : Nat) (x y : Fv) : Bool :=
  let c := x.compare y
  match cc with
  | 0 => c == some .eq
  | 1 => c != some .eq
  | 2 => c == some .lt
  | 3 => c == some .lt || c == some .eq
  | 4 => c == some .gt
  | 5 => c == some .gt || c == some .eq
  | 10 => c != none
  | 11 => c == none
  | _ => false

/-- The class word of FP32 bits (Table 13.3). -/
def classWord (a : Word) : BitVec 7 :=
  let neg := a.getLsbD 31
  let ex := a.extractLsb' 23 8
  let m := a.extractLsb' 0 23
  let nan := ex == 255#8 && m != 0#23
  let inf := ex == 255#8 && m == 0#23
  let zero := ex == 0#8 && m == 0#23
  let fin := !nan && !inf && !zero
  let bit (b : Bool) (n : Nat) : BitVec 7 := if b then 1#7 <<< n else 0#7
  bit nan 0 ||| bit (inf && neg) 1 ||| bit (fin && neg) 2 ||| bit zero 3 ||| bit (fin && !neg) 4 ||| bit (inf && !neg) 5 |||
    bit (ex == 0#8 && m != 0#23) 6

end Sys2Proof.Machine
end

