-- ==== Sys2Proof/Machine/LoadStore.lean ====
section
/-! DEFINITION. Sys2Proof/Machine/LoadStore.lean: LD, ST, LDX and STX (R349 to R353), the return of a load (R76, R77,
R163), and pending releases (R360). -/
namespace Sys2Proof.Machine

/-! ## Sizes, offsets, the barrier alias -/

/-- Bytes of size code z (Table 12.5). -/
def szBytes (z : Nat) : Nat :=
  match z with
  | 0 => 1
  | 1 => 1
  | 2 => 2
  | 3 => 2
  | 4 => 4
  | 5 => 8
  | _ => 16

/-- What LD delivers from the bytes read (R350). -/
def loadValue (z : Nat) (bs : List Byte) : BitVec 128 :=
  let m := leNat bs
  if z = 0 then ((BitVec.ofNat 8 m).signExtend 32).setWidth 128
  else if z = 2 then ((BitVec.ofNat 16 m).signExtend 32).setWidth 128
  else BitVec.ofNat 128 m

/-- Offset of format M: off6, or off6[2:0] where the label carries a scope (R178). -/
def mOffset (l : BitVec 3) (o : BitVec 6) : DWord :=
  if l = 0#3 then o.signExtend 64 else (o.extractLsb' 0 3).signExtend 64
def mScope (o : BitVec 6) : Scope := scopeOfNat (o.extractLsb' 3 3).toNat

/-- Effective address of format M (R349). -/
def Iss.mAddr (q : Iss) (a : RField) (l : BitVec 3) (z : Nat) (o : BitVec 6) (n : Nat) : DWord :=
  q.w.read64 ((Use.src a).wide 2) n + mOffset l o * BitVec.ofNat 64 (szBytes z)
/-- Effective address of the indexed forms (R353). -/
def Iss.xAddr (q : Iss) (a b : RField) (i x y : Bool) (size n : Nat) : DWord :=
  q.w.read64 ((Use.srcC a x i).wide 2) n + (q.rb b y n).signExtend 64 * BitVec.ofNat 64 size

/-- Does any issued or queued command name barrier i of the block for credit (R364)? -/
def Hw.creditPending (h : Hw) (bk i : Nat) : Bool :=
  h.cmds.any fun e => e.2.bc && e.2.fn == bkFn bk && e.2.barIdx == i && (h.creditBlocks e.2).contains bk

/-- A barrier nothing has touched since the block was placed. -/
def Barrier.fresh : Barrier := ⟨false, 0, 0, 0, 0, false, false, 0, 0#20, [], [], []⟩

/-- Bytes of the barrier alias (R363). -/
def Hw.aliasBytes (h : Hw) (s : Iss) (off n : Nat) : List Byte :=
  (List.range n).map fun j =>
    let k := off + j
    ((Tab.getD s.b.bars (k / 16) Barrier.fresh).words (h.creditPending s.bk (k / 16))).getD (k % 16) 0#8

/-- Read one lane: .d through the L1, otherwise at the home or, at system scope, beyond it (Table 7.4). -/
def Iss.readLane (h : Hw) (e : Env) (s : Iss) (d sys : Bool) (a : Acc) : Hw × List Byte :=
  match a.loc with
  | .alias_ off => (h, Hw.aliasBytes h s off a.size)
  | _ => if d then Iss.readD h e s a else Iss.readHome h e s sys a

/-- Read every lane, in rising lane order. -/
def Iss.readAll (e : Env) (s : Iss) (d sys : Bool) : List Acc → Hw → Hw × List (Nat × List Byte)
  | [], h => (h, [])
  | a :: as, h =>
    let (h, bs) := Iss.readLane h e s d sys a
    let (h, r) := Iss.readAll e s d sys as h
    (h, (a.lane, bs) :: r)

/-- Elements of a warp that a retriever has still to perform. -/
def Hw.elemsOf (h : Hw) (wk : Nat) : Bool :=
  h.rings.any fun r => (r.2.retq ++ r.2.pend).any fun x => x.wk == wk && !x.host

/-- Remember each lane's flag access with the record its value came with (R182). -/
def Iss.noteSync (h : Hw) (s : Iss) (as : List Acc) : Hw :=
  h.onWarp s.wk fun w => as.foldl (fun w a =>
    match a.loc with
    | .alias_ _ => w
    | _ => { w with sync := Tab.put w.sync a.lane (Iss.recsOf h s a) }) w

/-! ## Values for a push register (R344, R358) -/

/-- The flight of this instruction whose values have returned and wait to be pushed (R344). -/
def Iss.answered (h : Hw) (s : Iss) : Option (Nat × Flight) :=
  List.find? (fun (f : Nat × Flight) => f.2.wk == s.wk && f.2.path == s.x && f.2.kind == .atomic && decide (1000 ≤ f.2.dreg) &&
    f.2.pc == s.p.pc && decide (f.2.lanes.length ≤ f.2.vals.length)) h.flights

/-- Push the old values of a flight, which ends; what was performed stays (log 30). -/
def pushOld (e : Env) (s : Iss) (h : Hw) (id : Nat) (f : Flight) : Except Stop Hw :=
  let ws := f.lanes.flatMap fun l => wordsOfVal f.nreg (Tab.getD f.vals l.1 0#128)
  let h := { h with flights := Tab.del h.flights id }
  match h.pushWords e s.wk s.x (queueKind (f.dreg - 1000)) ws with
  | .error (.trap c a o opc) => .error (.trapFrom h c a o opc)
  | x => x

/-! ## Loads -/

/-- A load of label l (0 .d, 1 .acq, 5 .flg) into u (R350, R352): checked and marked now; the value of a .d or .flg
load is that of now, an acquire is performed when it returns (log 12). Into a push register the path waits for the values
and then pushes them (R344). -/
def loadInto (ins : Instr) (u : Use) (l : Nat) (scope : Scope) (z : Nat) (s : State) (addr : Iss → Nat → DWord) :
    Host.Outcome State Fault Refusal :=
  issue ins s fun e h q =>
    let queued := 120 ≤ u.r.toNat ∧ u.r.toNat < 126
    match (if queued then Iss.answered h q else none) with
    | some (id, f) => pushOld e q h id f
    | none => do
    let cls := if l = 0 then Cls.data else Cls.flg
    let acq := l = 1
    let kind := FlightKind.load l scope z false
    let f := Iss.flight h q kind u (addr q) []
    let as ← Iss.check h e q ⟨cls, false, false, szBytes z, f.acquires.toNat, false, false, none⟩ (addr q)
    let h := Iss.fill h q as
    let h := Iss.markAll h q cls false as
    if acq then
      let id := h.nextId
      let h := h.fly q u { f with locs := as.map fun a => (a.loc, a.leaf) } .loadReturn
      .ok (h.onPath q.wk q.x fun p => { p with hold := some id, stall := 2 })
    else
      let h := if l = 5 then Iss.noteSync h q as else h
      let (h, r) := Iss.readAll e q (l == 0) (scope == .system) as h
      let h := if l = 0 then Iss.noteSeen h q false as else h
      let vals : Tab (BitVec 128) := r.map fun x => (x.1, loadValue z x.2)
      let h := h.fly q u { f with vals := vals } .loadReturn
      if queued then .error (.waitFrom h 2) else .ok h

/-- LD (R349, R350). -/
def execLd (t a : RField) (l z : BitVec 3) (o : BitVec 6) (s : State) : Host.Outcome State Fault Refusal :=
  loadInto (.ld t a l z o) ((Use.dst t).wide (szRegs z)) l.toNat (mScope o) z.toNat s
    fun q n => q.mAddr a l z.toNat o n

/-- LDX.W (R353). -/
def execLdxW (i : Bool) (d a b : RField) (x y : Bool) (s : State) : Host.Outcome State Fault Refusal :=
  loadInto (.ldxW i d a b x y) (Use.dst d) 0 .warp 4 s fun q n => q.xAddr a b i x y 4 n

/-- LDX.D (R353). -/
def execLdxD (i : Bool) (d a b : RField) (x y : Bool) (s : State) : Host.Outcome State Fault Refusal :=
  loadInto (.ldxD i d a b x y) ((Use.dst d).wide 2) 0 .warp 5 s fun q n => q.xAddr a b i x y 8 n

/-! ## Stores -/

/-- Bytes of a register operand of n words. -/
def Warp.dataBytes (w : Warp) (u : Use) (lane size : Nat) : List Byte :=
  natLe size ((List.range u.n).foldr (fun j acc => (w.readAt u j lane).toNat + 2 ^ 32 * acc) 0)

/-- Scope of the release a lane's flag write at scope `acc` is performed with, if it is one: its own label makes it one (`own`),
or a fence left one pending, and then at the wider of the two scopes (R182, R360). -/
def Iss.relScope (s : Iss) (own : Bool) (acc : Scope) (lane : Nat) : Option Scope :=
  match Tab.find? s.w.pend lane with
  | some b => some (acc.wider b)
  | none => if own then some acc else none

/-- The widest of some scopes. -/
def widest : List Scope → Scope
  | [] => .warp
  | x :: xs => x.wider (widest xs)

/-- Does a release wait: for elements of its warp that are not performed (R352), or for the write-back of a line that an engine owns
(R186, R189)? -/
def Hw.releaseWaits (h : Hw) (wk core ctx : Nat) (s : Scope) : Bool := h.elemsOf wk || (s.far && h.backHeld core ctx)

/-- A store of u's words (R351, R352): l is 0 .d, 2 .rel, 5 .flg. -/
def storeFrom (ins : Instr) (u : Use) (l : Nat) (scope : Scope) (z : Nat) (s : State) (addr : Iss → Nat → DWord) :
    Host.Outcome State Fault Refusal :=
  issue ins s fun e h q => do
    let d := l == 0
    let cls := if d then Cls.data else Cls.flg
    let rels := if d then [] else q.lanes.filterMap fun n => q.relScope (l == 2) scope n
    let wide := widest rels
    let ev := wide ≠ .warp
    let as ← Iss.check h e q ⟨cls, true, false, szBytes z, if ev then 1 else 0, false, false, none⟩ (addr q)
    if !rels.isEmpty && h.releaseWaits q.wk q.core (Iss.ctx h q) wide then .error (.wait 16)
    else
      let h := Iss.fill h q as
      let h := Iss.markAll h q cls true as
      let h := if rels.isEmpty then h else h.releaseSync q.core (Iss.ctx h q) wide
      let h := as.foldl (fun h a =>
        let h := Iss.writeAcc h q d (scope == .system) a (q.w.dataBytes u a.lane a.size)
        match (if d then none else q.relScope (l == 2) scope a.lane) with
        | some sc =>
          if sc = .warp then Iss.dropRecs h q a
          else (Iss.dropRecs h q a).attachAll (Iss.recSites h q a) (q.b.snapshot q.fn q.slot q.widx sc q.bk) false
        | none => Iss.dropRecs h q a) h
      let h := if d then Iss.noteSeen h q true as else h
      let h := if d then h else h.onWarp q.wk fun w => { w with pend := Tab.keep (fun n _ => !q.lanes.contains n) w.pend }
      let h := if ev then h.advance q.bk else h
      .ok (if l = 2 then h.onWarp q.wk fun w => w.progress (some q.x) e.clk.cycle else h)

/-- ST (R349, R351). -/
def execSt (t a : RField) (l z : BitVec 3) (o : BitVec 6) (s : State) : Host.Outcome State Fault Refusal :=
  storeFrom (.st t a l z o) ((Use.src t).wide (szRegs z)) l.toNat (mScope o) z.toNat s
    fun q n => q.mAddr a l z.toNat o n

/-- STX.W (R353). -/
def execStxW (i : Bool) (d a b : RField) (x y : Bool) (s : State) : Host.Outcome State Fault Refusal :=
  storeFrom (.stxW i d a b x y) (Use.src d) 0 .warp 4 s fun q n => q.xAddr a b i x y 4 n

/-- STX.D (R353). -/
def execStxD (i : Bool) (d a b : RField) (x y : Bool) (s : State) : Host.Outcome State Fault Refusal :=
  storeFrom (.stxD i d a b x y) ((Use.src d).wide 2) 0 .warp 5 s fun q n => q.xAddr a b i x y 8 n

/-! ## Returns -/

/-- The issuing view of a flight: its warp with the flight's lanes, mode, hint and instruction. -/
def Flight.iss (f : Flight) (w : Warp) (b : Block) : Iss :=
  let w := { (w.setPath f.path { (w.path f.path) with pc := f.pc }) with mode := if f.handler then .handler else .user, chint := f.chint }
  ⟨f.wk, f.path, w, b, f.lanes.map (·.1)⟩
/-- Its accesses as they were translated at its issue. -/
def Flight.accs (f : Flight) (size : Nat) : List Acc :=
  (f.lanes.zip f.locs).map fun x => ⟨x.1.1, x.1.2, size, x.2.1, x.2.2⟩

/-- Land every lane's value of a flight, and end it; values for a push register wait for their path (R344). -/
def Hw.landAll (h : Hw) (id : Nat) (f : Flight) (vals : List (Nat × BitVec 128)) : Hw :=
  if 1000 ≤ f.dreg then
    { (h.onWarp f.wk fun w => { (w.unhold id) with replayFirst := w.replayFirst.filter (· != id) }).moved with
      flights := Tab.put h.flights id { f with kind := .atomic, vals := vals, replay := false } }
  else (h.onWarp f.wk fun w => vals.foldl (fun w v => w.land f v.1 v.2) w).landed id

/-- Is a replay packet the first of its warp's, among those of its mode (R77)? -/
def Hw.replayTurn (h : Hw) (w : Warp) (id : Nat) (f : Flight) : Bool :=
  (w.replayFirst.find? fun j => match Tab.find? h.flights j with
    | some g => g.handler == f.handler
    | none => false) == some id

/-- A load that may not be performed yet is tried again; the lines that hold it are noted, and counted as it comes (R189). -/
def Hw.againLater (h : Hw) (id : Nat) (f : Flight) (ctx : Nat) (as : List Acc) (back : Instr) : Hw :=
  let ks := h.heldLines id as
  let h := if f.held.isEmpty then h.countHeld (fnOfCtx ctx) ctx as else h
  { h with flights := Tab.put h.flights id { f with held := ks } }.plan back { Occasion.none with unit := id, aux := f.tag }

/-- A trap of a load on its return, at the load's own address: the load becomes a replay packet, or stays one (R77, R301; log 12). -/
def Hw.loadTrap (h : Hw) (e : Env) (id : Nat) (f : Flight) (t : Trap) : Hw :=
  let h := { h with flights := Tab.put h.flights id { f with replay := true, held := [] } }
  (h.onWarp f.wk fun w => if w.replayFirst.contains id then w else { w with replayFirst := id :: w.replayFirst }).takeTrap e f.wk f.path t

/-- A load performed at its return: an acquire, or a load reissued after a halt (R77, R352). A replayed load is translated and
checked afresh; an acquire is performed with its translation of its issue. -/
def Hw.performLoad (h : Hw) (e : Env) (id : Nat) (f : Flight) (l : Nat) (scope : Scope) (z : Nat) (back : Instr) : Hw :=
  match h.warp? f.wk, h.block? (wkBlock f.wk) with
  | some w, some b =>
    let q := f.iss w b
    let addr (n : Nat) : DWord := Tab.getD f.lanes n 0#64
    let cls := if l = 0 then Cls.data else Cls.flg
    if f.replay ∧ (w.stopped ∨ (!f.handler && w.mode == .handler) ∨ w.held.isSome) then h
    else if (l = 1 ∧ h.elemsOf f.wk) ∨ (f.replay ∧ ¬ h.replayTurn w id f) then h.againLater id f (Iss.ctx h q) [] back
    else
      let ask : Ask := ⟨cls, false, false, szBytes z, 0, false, !f.replay, some id⟩
      let got := if f.replay then Iss.check h e q ask addr
        else
          let as := f.accs (szBytes z)
          match (Iss.causes h q ask as).or (Iss.held h q ask as) with
          | some t => .error t
          | none => .ok as
      match got with
      | .error (.trap c a o opc) => h.loadTrap e id f (q.p.trapAt f.path c a o opc)
      | .error _ =>
        h.againLater id f (Iss.ctx h q) (if f.replay then
          (match Iss.locateAll h e q ⟨false, false⟩ (szBytes z) addr q.lanes with | .ok as => as | .error _ => [])
          else f.accs (szBytes z)) back
      | .ok as =>
        if (h.heldLines id as).isEmpty then
          let h := if f.replay then Iss.markAll (Iss.fill h q as) q cls false as else h
          let h := if f.replay then h.onPath f.wk f.path fun p =>
              { p with waiver := if p.waiver = some f.pc then none else p.waiver
                       suppress := if p.suppress = some f.pc then none else p.suppress }
            else h
          let h := if l = 0 then h else Iss.noteSync h q as
          let (h, r) := Iss.readAll e q (l == 0) (scope == .system) as h
          let h := if f.replay ∧ l = 0 then Iss.noteSeen h q false as else h
          let h := if f.acquires then
              ((as.foldl (fun h a => h.acquireAll q.bk q.widx scope (Iss.recsOf h q a)) h).advance q.bk).acquireSync q.core (Iss.ctx h q) scope
            else h
          h.landAll id { f with held := [] } (r.map fun x => (x.1, loadValue z x.2))
        else h.againLater id f (Iss.ctx h q) as back
  | _, _ => h.landed id

/-- LOAD_RETURN: the flight whose number is `unit`, if its generation tag is `aux`; another return is dropped (R77). -/
def loadReturn (e : Env) (h : Hw) : Hw :=
  match Tab.find? h.flights h.occ.unit with
  | none => h
  | some f =>
    if f.tag ≠ h.occ.aux then h
    else match f.kind with
      | .load l sc z _ =>
        if l = 1 ∨ f.replay then h.performLoad e h.occ.unit f l sc z .loadReturn
        else h.landAll h.occ.unit f f.vals
      | _ => h

/-- ITERATIVE_PASS_RESULT: the values computed from the operands as they were at issue (R76 step 1, R77). -/
def iterativeResult (h : Hw) : Hw :=
  match Tab.find? h.flights h.occ.unit with
  | none => h
  | some f =>
    if f.tag ≠ h.occ.aux then h
    else if !f.replay then h.landAll h.occ.unit f f.vals
    else match h.warp? f.wk with
      | none => h
      | some w =>
        if w.stopped ∨ (!f.handler && w.mode == .handler) ∨ w.held.isSome then h
        else if h.replayTurn w h.occ.unit f then h.landAll h.occ.unit f f.vals
        else h.plan .iterativePassResult h.occ

/-- LOAD_RETURN: a load's value lands, or a replayed or acquiring load is performed (R76, R77, R163, R352). -/
def execLoadReturn (s : State) : Host.Outcome State Fault Refusal := s.event loadReturn

/-- ITERATIVE_PASS_RESULT (R163, R316, R378). -/
def execIterativePassResult (s : State) : Host.Outcome State Fault Refusal := s.event fun _ h => iterativeResult h

end Sys2Proof.Machine
end

