-- ==== Sys2Proof/Machine/Atomics.lean ====
section
/-! DEFINITION. Sys2Proof/Machine/Atomics.lean: atomics and reductions (R354 to R358), the retriever (R193 to R195) and
the access counters that atomics drive (R196). -/
namespace Sys2Proof.Machine

/-! ## One element (R355, R356) -/

def low32 (x : DWord) : Word := x.extractLsb' 0 32
def smaller (a b : Word) : Word := if a.slt b then a else b
def larger (a b : Word) : Word := if b.slt a then a else b

/-- The value written; none for a compare that fails. -/
def AtomOp.apply (op : AtomOp) (rm nbv : Word) (old b cmp : DWord) : Option DWord :=
  let o := low32 old
  let x := low32 b
  let mode := (rm.extractLsb' 0 3).toNat
  let ver := (nbv.extractLsb' 0 2).toNat
  match op with
  | .add => some ((o + x).setWidth 64)
  | .min => some ((smaller o x).setWidth 64)
  | .max => some ((larger o x).setWidth 64)
  | .minu => some ((if o.ult x then o else x).setWidth 64)
  | .maxu => some ((if x.ult o then o else x).setWidth 64)
  | .and => some ((o &&& x).setWidth 64)
  | .or => some ((o ||| x).setWidth 64)
  | .xor => some ((o ^^^ x).setWidth 64)
  | .fadd => some (BitVec.ofNat 64 (Fmt.fp32.add mode ver o.toNat x.toNat))
  | .bfadd2 =>
    let e (k : Nat) : Nat := Fmt.bf16.add mode ver (o.extractLsb' k 16).toNat (x.extractLsb' k 16).toNat
    some (BitVec.ofNat 64 (e 0 + 65536 * e 16))
  | .addD => some (old + b)
  | .xchg => some (x.setWidth 64)
  | .xchgD => some b
  | .cas => if o = low32 cmp ∧ x ≠ o then some (x.setWidth 64) else none
  | .casD => if old = cmp ∧ b ≠ old then some b else none

/-! ## Access counters (R196) -/

/-- The least recently used entries go beyond 512. -/
def bumpCount (l : List AccEntry) (ctx page agent : Nat) : List AccEntry :=
  let old := (l.find? fun x => x.ctx == ctx && x.page == page).map (·.cnt)
  let c := old.getD [0, 0, 0, 0, 0]
  let c := c.zipIdx.map fun (y : Nat × Nat) => if y.2 = agent then min 255 (y.1 + 1) else y.1
  (⟨ctx, page, c⟩ :: l.filter fun x => !(x.ctx == ctx && x.page == page)).take 512

/-- Home die of a page as its leaf says, or the host (4). -/
def Leaf.homeAgent (l : Leaf) : Nat := if l.hhost then 4 else l.hdie

/-- Count an access for an agent (a die, or 4 for the host) at a line's home slice (R196). -/
def Hw.heat (h : Hw) (ctx : Nat) (va : DWord) (leaf : Leaf) (pa agent : Nat) : Hw :=
  let p := h.part (h.ctxPart ctx)
  let slice := p.homeSlice (h.homeDieOf leaf pa) pa
  let page := va.toNat % 2 ^ 57 / 2 ^ leaf.lg * 2 ^ leaf.lg
  { h with access := Tab.put h.access slice (bumpCount (Tab.getD h.access slice []) ctx page agent) }

/-! ## Performing an element -/

/-- A reply reaches its lane (R194); the last reply ends the flight, or lets the path push the old values to its queue
(R358). -/
def Hw.reply (h : Hw) (id lane : Nat) (old : DWord) : Hw :=
  match Tab.find? h.flights id with
  | none => h
  | some f =>
    let f := { f with vals := Tab.put f.vals lane (old.setWidth 128) }
    let h := { h with flights := Tab.put h.flights id f }
    let h := h.onWarp f.wk fun w => w.land f lane (old.setWidth 128)
    if f.lanes.length ≤ f.vals.length then
      if 1000 ≤ f.dreg then (h.onWarp f.wk fun w => w.unhold id).moved else h.landed id
    else h

/-- Perform one element: an indivisible read-modify-write, with the release it carries, the tag upkeep, the flag access the lane
remembers, and the reply. The core keeps no clean copy of its bytes (R184). A host AtomicOp is no party's: it clears the marks of
its words and is answered to the host (R42). The last element of a release closes its interval (R348). -/
def Hw.element (h : Hw) (e : Env) (x : Elem) : Hw :=
  let n := x.op.size
  let (h, old) : Hw × DWord := match x.loc with
    | .mem pa =>
      let g := h.atHome ⟨x.ctx, (x.chint.extractLsb' 0 2).toNat, x.leaf, x.far⟩ pa true
      (if x.host then g else g.forgetL1 x.core x.ctx pa n, BitVec.ofNat 64 (leNat (h.homeBytes e pa n)))
    | .scr core off => (h, BitVec.ofNat 64 (leNat (h.scrBytes x.fn core off n)))
    | .alias_ _ => (h, 0#64)
  let sites := recWords x.fn x.loc n
  let h := if x.ret.isNone then h else h.onWarp x.wk fun w =>
    if w.done then w else { w with sync := Tab.put w.sync x.lane (sites.filterMap h.recAt) }
  let h := match x.op.apply x.rmode x.nbv old x.b x.cmp with
    | none => h
    | some v => match x.loc with
      | .mem pa => ((h.upkeep x.declared pa).putBytes pa (natLe n v.toNat)).triggerMem pa n
      | .scr core off => (h.upkeepSp x.fn core off).putScr x.fn core off (natLe n v.toNat)
      | .alias_ _ => h
  let h := match x.rel with
    | some r => h.attachAll sites r true
    | none => h
  let h := if x.closes then h.advance (wkBlock x.wk) else h
  if x.host then
    match x.loc with
    | .mem pa => (h.clearMarks pa n).send (.data (natLe n old.toNat))
    | _ => h
  else match x.ret with
    | some id => h.reply id x.lane old
    | none => h

/-- What a flight's destination holds for a lane. -/
def Warp.landedAs (w : Warp) (f : Flight) (lane : Nat) : DWord :=
  if f.dreg < 256 then w.getV (f.dreg + 1) lane ++ w.getV f.dreg lane
  else if f.dreg < 999 then w.getU (f.dreg - 255) ++ w.getU (f.dreg - 256)
  else 0#64

/-- An element meets a poisoned line: it is not performed. A host AtomicOp is answered with a poisoned completion (R18, R39); a
path takes ECC at the instruction before its next one (R77), and a lane that waits keeps its register's value (log 26). -/
def Hw.elementFails (h : Hw) (x : Elem) : Hw :=
  if x.host then h.send (.poisoned (natLe x.op.size 0))
  else
    let h := if x.closes then h.advance (wkBlock x.wk) else h
    let t : Trap := ⟨BitVec.ofNat 64 cECC, x.pc, x.va, if x.path then 1#64 else 0#64, 0#64⟩
    let h := h.onWarp x.wk fun w => if w.done then w else { w with owed := w.owed ++ [t] }
    match x.ret, h.warp? x.wk with
    | some id, some w => match Tab.find? h.flights id with
      | some f => h.reply id x.lane (w.landedAs f x.lane)
      | none => h
    | _, _ => h

/-- An element arrives at a retriever: it takes a place of the queue's 512, or waits for one (R194). -/
def Hw.sendElem (h : Hw) (r : Nat) (x : Elem) : Hw :=
  (h.onRing r fun g => if g.pend.isEmpty ∧ g.retq.length < 512 then { g with retq := g.retq ++ [x] }
    else { g with pend := g.pend ++ [x] }).planOn .retrieverElement r
/-- The oldest element has left a retriever's queue; one that waited takes its place. -/
def Ring.shift (g : Ring) : Ring :=
  match g.pend with
  | [] => { g with retq := g.retq.tail }
  | y :: ys => { g with retq := g.retq.tail ++ [y], pend := ys }

/-- The element of lane `n` that an atomic sends, with its release if it makes one. -/
def Iss.elem (h : Hw) (q : Iss) (op : AtomOp) (cls : Cls) (ret : Option Use) (ub : Use) (scope : Scope) (id : Nat) (a : Acc) : Elem :=
  let rd (u : Use) : DWord := if op.size = 8 then q.w.read64 u a.lane else (q.w.read u a.lane).setWidth 64
  { op := op, loc := a.loc, b := rd ub, cmp := (match ret with | some u => if u.rd then rd u else 0#64 | none => 0#64)
    ret := ret.map fun _ => id, closes := false, ticket := none, host := false
    far := (match a.loc with | .mem pa => farOf a.leaf pa (scope == .system) true | _ => false)
    wk := q.wk, path := q.x, pc := q.p.pc, declared := h.declared q.b, lane := a.lane, fn := q.fn, core := q.core, intv := q.b.c
    rmode := q.w.rmode, nbv := q.w.nbv
    rel := if cls = .red then none else (q.relScope false scope a.lane).bind fun r =>
      if r = .warp then none else some (q.b.snapshot q.fn q.slot q.widx r q.bk)
    chint := q.w.chint, ctx := Iss.ctx h q, va := a.va, leaf := a.leaf }

/-- Does an element go to a retriever: not one of scratchpad (R195), nor one performed at a peer package's home (R357)? -/
def Elem.queues (x : Elem) : Bool := !x.far && match x.loc with | .mem _ => true | _ => false

/-- Perform or send off an instruction's elements in their order; the last one sent closes the interval of a release. -/
def Hw.sendAll (e : Env) (ev : Bool) : List Elem → Hw → Hw
  | [], h => h
  | x :: xs, h =>
    let h := match x.loc with
      | .mem pa =>
        if x.queues then h.sendElem (h.elemRing x.ctx x.leaf pa x.core) { x with closes := ev && !xs.any Elem.queues }
        else h.element e x
      | _ => h.element e x
    Hw.sendAll e ev xs h

/-- An atomic or reduction: `ret` is the destination, none for a reduction. -/
def atomic (ins : Instr) (op : AtomOp) (cls : Cls) (ret : Option Use) (ua ub : Use) (sc : BitVec 3) (s : State) :
    Host.Outcome State Fault Refusal :=
  issue ins s fun e h q =>
    match (if ret.isSome then Iss.answered h q else none) with
    | some (id, f) => pushOld e q h id f
    | none => do
      let scope := scopeOfNat sc.toNat
      let rels := if cls = .red then [] else q.lanes.filterMap fun n => q.relScope false scope n
      let ev := widest rels != .warp
      let as ← Iss.check h e q ⟨cls, true, true, op.size, ev.toNat, scope == .system, false, none⟩ (q.w.read64 ua)
      if !rels.isEmpty && h.releaseWaits q.wk q.core (Iss.ctx h q) (widest rels) then .error (.wait 16)
      else
        let h := Iss.fill h q as
        let h := Iss.markAll h q cls true as
        let h := as.foldl (fun h a => Iss.homeward h q a) h
        let h := if rels.isEmpty then h else h.releaseSync q.core (Iss.ctx h q) (widest rels)
        let id := h.nextId
        let h := match ret with
          | some u => h.sendOff q u (Iss.flight h q .atomic u (q.w.read64 ua) [])
          | none => h
        let xs := as.map (Iss.elem h q op cls ret ub scope id)
        let h := Hw.sendAll e ev xs h
        let h := if cls = .red then h else
          h.onWarp q.wk fun w => { w with pend := Tab.keep (fun n _ => !q.lanes.contains n) w.pend }
        let h := if ev && !xs.any Elem.queues then h.advance q.bk else h
        match Tab.find? h.flights id with
        | some f =>
          if 1000 ≤ f.dreg ∧ ret.isSome then
            if f.lanes.length ≤ f.vals.length then pushOld e q h id f else .error (.waitFrom h 2)
          else .ok h
        | none => .ok h

/-- RETRIEVER_ELEMENT: the retriever of ring `unit` performs the oldest element of its queue, unless it waits for a link or a
channel (R15, R19) or at its line's home (R189, R194), and counts it for the requester's die or the host (R196). -/
def retrieverElement (e : Env) (h : Hw) : Hw :=
  let r := h.occ.unit
  match (h.ring r).retq with
  | [] => h
  | x :: _ =>
    match x.loc with
    | .mem pa =>
      let again (h : Hw) : Hw := h.planOn .retrieverElement r
      if h.waitsOnWay x.ctx (r / 5) x.leaf pa then again h
      else if h.lineHeld (x.ticket.getD h.nextId) (lineOf pa) then
        match x.ticket with
        | some _ => again h
        | none =>
          let h := h.countHeld (fnOfCtx x.ctx) x.ctx [⟨x.lane, x.va, x.op.size, x.loc, x.leaf⟩]
          again ({ h with nextId := h.nextId + 1 }.onRing r fun g => { g with retq := { x with ticket := some h.nextId } :: g.retq.tail })
      else
        let poisoned := h.poison.contains (lineOf pa)
        let h := h.onRing r Ring.shift
        let h := if poisoned then h.elementFails x else h.element e x
        (h.heat x.ctx x.va x.leaf pa (if x.host then 4 else dieOf x.core)).moved
    | _ => ((h.onRing r Ring.shift).element e x).moved

/-- RETRIEVER_ELEMENT (R193 to R196, R355). -/
def execRetrieverElement (s : State) : Host.Outcome State Fault Refusal := s.event retrieverElement

/-! ## Instructions -/

/-- ATOM.ADD (R354, R355). -/
def execAtomAdd (s : BitVec 3) (d a b : RField) (m : State) : Host.Outcome State Fault Refusal :=
  atomic (.atomAdd s d a b) .add .cnt (some (Use.dst d)) ((Use.src a).wide 2) (.src b) s m

/-- ATOM.MIN (R354, R355). -/
def execAtomMin (s : BitVec 3) (d a b : RField) (m : State) : Host.Outcome State Fault Refusal :=
  atomic (.atomMin s d a b) .min .cnt (some (Use.dst d)) ((Use.src a).wide 2) (.src b) s m

/-- ATOM.MAX (R354, R355). -/
def execAtomMax (s : BitVec 3) (d a b : RField) (m : State) : Host.Outcome State Fault Refusal :=
  atomic (.atomMax s d a b) .max .cnt (some (Use.dst d)) ((Use.src a).wide 2) (.src b) s m

/-- ATOM.AND (R354, R355). -/
def execAtomAnd (s : BitVec 3) (d a b : RField) (m : State) : Host.Outcome State Fault Refusal :=
  atomic (.atomAnd s d a b) .and .cnt (some (Use.dst d)) ((Use.src a).wide 2) (.src b) s m

/-- ATOM.OR (R354, R355). -/
def execAtomOr (s : BitVec 3) (d a b : RField) (m : State) : Host.Outcome State Fault Refusal :=
  atomic (.atomOr s d a b) .or .cnt (some (Use.dst d)) ((Use.src a).wide 2) (.src b) s m

/-- ATOM.XOR (R354, R355). -/
def execAtomXor (s : BitVec 3) (d a b : RField) (m : State) : Host.Outcome State Fault Refusal :=
  atomic (.atomXor s d a b) .xor .cnt (some (Use.dst d)) ((Use.src a).wide 2) (.src b) s m

/-- ATOM.MINU (R354, R355). -/
def execAtomMinu (s : BitVec 3) (d a b : RField) (m : State) : Host.Outcome State Fault Refusal :=
  atomic (.atomMinu s d a b) .minu .cnt (some (Use.dst d)) ((Use.src a).wide 2) (.src b) s m

/-- ATOM.MAXU (R354, R355). -/
def execAtomMaxu (s : BitVec 3) (d a b : RField) (m : State) : Host.Outcome State Fault Refusal :=
  atomic (.atomMaxu s d a b) .maxu .cnt (some (Use.dst d)) ((Use.src a).wide 2) (.src b) s m

/-- XCHG (R354, R355). -/
def execXchg (s : BitVec 3) (d a b : RField) (m : State) : Host.Outcome State Fault Refusal :=
  atomic (.xchg s d a b) .xchg .xch (some (Use.dst d)) ((Use.src a).wide 2) (.src b) s m

/-- CAS (R354, R355). -/
def execCas (s : BitVec 3) (d a b : RField) (m : State) : Host.Outcome State Fault Refusal :=
  atomic (.cas s d a b) .cas .xch (some (Use.both d)) ((Use.src a).wide 2) (.src b) s m

/-- XCHG.D (R354, R355). -/
def execXchgD (s : BitVec 3) (d a b : RField) (m : State) : Host.Outcome State Fault Refusal :=
  atomic (.xchgD s d a b) .xchgD .xch (some ((Use.dst d).wide 2)) ((Use.src a).wide 2) ((Use.src b).wide 2) s m

/-- CAS.D (R354, R355). -/
def execCasD (s : BitVec 3) (d a b : RField) (m : State) : Host.Outcome State Fault Refusal :=
  atomic (.casD s d a b) .casD .xch (some ((Use.both d).wide 2)) ((Use.src a).wide 2) ((Use.src b).wide 2) s m

/-- RED.ADD (R354, R355). -/
def execRedAdd (s : BitVec 3) (a b : RField) (m : State) : Host.Outcome State Fault Refusal :=
  atomic (.redAdd s a b) .add .red none ((Use.src a).wide 2) (.src b) s m

/-- RED.MIN (R354, R355). -/
def execRedMin (s : BitVec 3) (a b : RField) (m : State) : Host.Outcome State Fault Refusal :=
  atomic (.redMin s a b) .min .red none ((Use.src a).wide 2) (.src b) s m

/-- RED.MAX (R354, R355). -/
def execRedMax (s : BitVec 3) (a b : RField) (m : State) : Host.Outcome State Fault Refusal :=
  atomic (.redMax s a b) .max .red none ((Use.src a).wide 2) (.src b) s m

/-- RED.OR (R354, R355). -/
def execRedOr (s : BitVec 3) (a b : RField) (m : State) : Host.Outcome State Fault Refusal :=
  atomic (.redOr s a b) .or .red none ((Use.src a).wide 2) (.src b) s m

/-- ATOM.FADD (R354, R355). -/
def execAtomFadd (s : BitVec 3) (d a b : RField) (m : State) : Host.Outcome State Fault Refusal :=
  atomic (.atomFadd s d a b) .fadd .cnt (some (Use.dst d)) ((Use.src a).wide 2) (.src b) s m

/-- RED.FADD (R354, R355). -/
def execRedFadd (s : BitVec 3) (a b : RField) (m : State) : Host.Outcome State Fault Refusal :=
  atomic (.redFadd s a b) .fadd .red none ((Use.src a).wide 2) (.src b) s m

/-- RED.BFADD2 (R354, R355). -/
def execRedBfadd2 (s : BitVec 3) (a b : RField) (m : State) : Host.Outcome State Fault Refusal :=
  atomic (.redBfadd2 s a b) .bfadd2 .red none ((Use.src a).wide 2) (.src b) s m

/-- ATOM.ADD.D (R354, R355). -/
def execAtomAddD (s : BitVec 3) (d a b : RField) (m : State) : Host.Outcome State Fault Refusal :=
  atomic (.atomAddD s d a b) .addD .cnt (some ((Use.dst d).wide 2)) ((Use.src a).wide 2) ((Use.src b).wide 2) s m

end Sys2Proof.Machine
end

