-- ==== Sys2Proof/Machine/Integer.lean ====
section
/-! DEFINITION. Sys2Proof/Machine/Integer.lean: integer and bit operations, immediates, compares and selection (R314 to R327). -/
namespace Sys2Proof.Machine

/-! ## The operations (R314 to R319) -/

def addSat (a b : Word) : Word :=
  let t := a.toInt + b.toInt
  if 2147483647 < t then 0x7FFFFFFF#32 else if t < -2147483648 then 0x80000000#32 else a + b
def mulHigh (a b : Word) : Word := BitVec.ofInt 32 (a.toInt * b.toInt / 2 ^ 32)
def mulHighU (a b : Word) : Word := BitVec.ofNat 32 (a.toNat * b.toNat / 2 ^ 32)
def absDiff (a b : Word) : Word := BitVec.ofNat 32 (a.toInt - b.toInt).natAbs
/-- Shifts by the whole 32-bit amount (R315). -/
def shiftL (a b : Word) : Word := if 32 ≤ b.toNat then 0#32 else a <<< b.toNat
def shiftR (a b : Word) : Word := if 32 ≤ b.toNat then 0#32 else a >>> b.toNat
def shiftA (a b : Word) : Word := a.sshiftRight (min b.toNat 31)
def rotL (a b : Word) : Word := a.rotateLeft (b.toNat % 32)
/-- Division (R316). -/
def divS (a b : Word) : Word :=
  if b = 0#32 then 0xFFFFFFFF#32
  else if a = 0x80000000#32 ∧ b = 0xFFFFFFFF#32 then 0x80000000#32
  else BitVec.ofInt 32 (a.toInt.tdiv b.toInt)
def remS (a b : Word) : Word :=
  if b = 0#32 then a
  else if a = 0x80000000#32 ∧ b = 0xFFFFFFFF#32 then 0#32
  else BitVec.ofInt 32 (a.toInt.tmod b.toInt)
def divU (a b : Word) : Word := if b = 0#32 then 0xFFFFFFFF#32 else BitVec.ofNat 32 (a.toNat / b.toNat)
def remU (a b : Word) : Word := if b = 0#32 then a else BitVec.ofNat 32 (a.toNat % b.toNat)
/-- Counts (R317). -/
def lowestOne (a : Word) : Nat := ((List.range 32).find? fun j => a.getLsbD j).getD 32
def leadingZeros (a : Word) : Nat := ((List.range 32).find? fun j => a.getLsbD (31 - j)).getD 32
def onesIn (a : Word) : Nat := ((List.range 32).filter fun j => a.getLsbD j).length
def reverse32 (a : Word) : Word := (List.range 32).foldl (fun r j => if a.getLsbD (31 - j) then r ||| (1#32 <<< j) else r) 0#32
/-- Bit fields (R318): position, width. -/
def bfPos (b : Word) : Nat := (b.extractLsb' 0 5).toNat
def bfWidth (b : Word) : Nat := min (b.extractLsb' 8 6).toNat (32 - bfPos b)
def bfExtractZ (a b : Word) : Word := BitVec.ofNat 32 (a.toNat / 2 ^ bfPos b % 2 ^ bfWidth b)
def bfExtract (a b : Word) : Word :=
  if bfWidth b = 0 then 0#32
  else
    let v := bfExtractZ a b
    if v.getLsbD (bfWidth b - 1) then v ||| (BitVec.allOnes 32 <<< bfWidth b) else v
def bfInsert (d a b : Word) : Word :=
  let m : Word := BitVec.ofNat 32 ((2 ^ bfWidth b - 1) * 2 ^ bfPos b)
  (d &&& ~~~m) ||| ((a <<< bfPos b) &&& m)
/-- PERMB (R319). -/
def permByte (a b : Word) (j : Nat) : Byte :=
  let n := b.extractLsb' (4 * j) 4
  let x := a.extractLsb' (8 * (n.extractLsb' 0 2).toNat) 8
  if n.getLsbD 3 then 0#8 else if n.getLsbD 2 then (if x.getLsbD 7 then 0xFF#8 else 0#8) else x
def permBytes (a b : Word) : Word := permByte a b 3 ++ (permByte a b 2 ++ (permByte a b 1 ++ permByte a b 0))
/-- A signed 11-bit immediate (R320). -/
def imm11 (k : BitVec 11) : Word := k.signExtend 32

/-! ## Majors 0x00 to 0x07 -/

/-- ADD: (a + b) mod 2^32 (R314). -/
def execAdd (i : Bool) (d a b : RField) (x y : Bool) (s : State) : Host.Outcome State Fault Refusal :=
  alu2 (.add i d a b x y) d a b i x y s fun a b => a + b

/-- SUB (R314). -/
def execSub (i : Bool) (d a b : RField) (x y : Bool) (s : State) : Host.Outcome State Fault Refusal :=
  alu2 (.sub i d a b x y) d a b i x y s fun a b => a - b

/-- MIN, signed (R314). -/
def execMin (i : Bool) (d a b : RField) (x y : Bool) (s : State) : Host.Outcome State Fault Refusal :=
  alu2 (.min i d a b x y) d a b i x y s fun a b => if a.slt b then a else b

/-- MAX, signed (R314). -/
def execMax (i : Bool) (d a b : RField) (x y : Bool) (s : State) : Host.Outcome State Fault Refusal :=
  alu2 (.max i d a b x y) d a b i x y s fun a b => if b.slt a then a else b

/-- MINU (R314). -/
def execMinu (i : Bool) (d a b : RField) (x y : Bool) (s : State) : Host.Outcome State Fault Refusal :=
  alu2 (.minu i d a b x y) d a b i x y s fun a b => if a.ult b then a else b

/-- MAXU (R314). -/
def execMaxu (i : Bool) (d a b : RField) (x y : Bool) (s : State) : Host.Outcome State Fault Refusal :=
  alu2 (.maxu i d a b x y) d a b i x y s fun a b => if b.ult a then a else b

/-- ABSD: the distance of the signed views (R314). -/
def execAbsd (i : Bool) (d a b : RField) (x y : Bool) (s : State) : Host.Outcome State Fault Refusal :=
  alu2 (.absd i d a b x y) d a b i x y s fun a b => absDiff a b

/-- ADDSAT (R314). -/
def execAddsat (i : Bool) (d a b : RField) (x y : Bool) (s : State) : Host.Outcome State Fault Refusal :=
  alu2 (.addsat i d a b x y) d a b i x y s fun a b => addSat a b

/-- MUL (R314). -/
def execMul (i : Bool) (d a b : RField) (x y : Bool) (s : State) : Host.Outcome State Fault Refusal :=
  alu2 (.mul i d a b x y) d a b i x y s fun a b => a * b

/-- MULH (R314). -/
def execMulh (i : Bool) (d a b : RField) (x y : Bool) (s : State) : Host.Outcome State Fault Refusal :=
  alu2 (.mulh i d a b x y) d a b i x y s fun a b => mulHigh a b

/-- MULHU (R314). -/
def execMulhu (i : Bool) (d a b : RField) (x y : Bool) (s : State) : Host.Outcome State Fault Refusal :=
  alu2 (.mulhu i d a b x y) d a b i x y s fun a b => mulHighU a b

/-- MAD: the addend is d (R314). -/
def execMad (i : Bool) (d a b : RField) (x y : Bool) (s : State) : Host.Outcome State Fault Refusal :=
  alu3 (.mad i d a b x y) d a b i x y s fun d a b => d + a * b

/-- AND (R315). -/
def execAnd (i : Bool) (d a b : RField) (x y : Bool) (s : State) : Host.Outcome State Fault Refusal :=
  alu2 (.and i d a b x y) d a b i x y s fun a b => a &&& b

/-- OR (R315). -/
def execOr (i : Bool) (d a b : RField) (x y : Bool) (s : State) : Host.Outcome State Fault Refusal :=
  alu2 (.or i d a b x y) d a b i x y s fun a b => a ||| b

/-- XOR (R315). -/
def execXor (i : Bool) (d a b : RField) (x y : Bool) (s : State) : Host.Outcome State Fault Refusal :=
  alu2 (.xor i d a b x y) d a b i x y s fun a b => a ^^^ b

/-- ANDN (R315). -/
def execAndn (i : Bool) (d a b : RField) (x y : Bool) (s : State) : Host.Outcome State Fault Refusal :=
  alu2 (.andn i d a b x y) d a b i x y s fun a b => a &&& ~~~b

/-- SHL (R315). -/
def execShl (i : Bool) (d a b : RField) (x y : Bool) (s : State) : Host.Outcome State Fault Refusal :=
  alu2 (.shl i d a b x y) d a b i x y s fun a b => shiftL a b

/-- SHR (R315). -/
def execShr (i : Bool) (d a b : RField) (x y : Bool) (s : State) : Host.Outcome State Fault Refusal :=
  alu2 (.shr i d a b x y) d a b i x y s fun a b => shiftR a b

/-- SHA (R315). -/
def execSha (i : Bool) (d a b : RField) (x y : Bool) (s : State) : Host.Outcome State Fault Refusal :=
  alu2 (.sha i d a b x y) d a b i x y s fun a b => shiftA a b

/-- ROT (R315). -/
def execRot (i : Bool) (d a b : RField) (x y : Bool) (s : State) : Host.Outcome State Fault Refusal :=
  alu2 (.rot i d a b x y) d a b i x y s fun a b => rotL a b

/-- DIV, iterative (R316). -/
def execDiv (i : Bool) (d a b : RField) (x y : Bool) (s : State) : Host.Outcome State Fault Refusal :=
  iterative (.div i d a b x y) d 1 s fun q l => [divS (q.ra a x i l) (q.rb b y l)]

/-- DIVU, iterative (R316). -/
def execDivu (i : Bool) (d a b : RField) (x y : Bool) (s : State) : Host.Outcome State Fault Refusal :=
  iterative (.divu i d a b x y) d 1 s fun q l => [divU (q.ra a x i l) (q.rb b y l)]

/-- REM, iterative (R316). -/
def execRem (i : Bool) (d a b : RField) (x y : Bool) (s : State) : Host.Outcome State Fault Refusal :=
  iterative (.rem i d a b x y) d 1 s fun q l => [remS (q.ra a x i l) (q.rb b y l)]

/-- REMU, iterative (R316). -/
def execRemu (i : Bool) (d a b : RField) (x y : Bool) (s : State) : Host.Outcome State Fault Refusal :=
  iterative (.remu i d a b x y) d 1 s fun q l => [remU (q.ra a x i l) (q.rb b y l)]

/-- CLZ (R317). -/
def execClz (i : Bool) (d a : RField) (x : Bool) (s : State) : Host.Outcome State Fault Refusal :=
  alu1 (.clz i d a x) d a i x s fun a => BitVec.ofNat 32 (leadingZeros a)

/-- POPC (R317). -/
def execPopc (i : Bool) (d a : RField) (x : Bool) (s : State) : Host.Outcome State Fault Refusal :=
  alu1 (.popc i d a x) d a i x s fun a => BitVec.ofNat 32 (onesIn a)

/-- BREV (R317). -/
def execBrev (i : Bool) (d a : RField) (x : Bool) (s : State) : Host.Outcome State Fault Refusal :=
  alu1 (.brev i d a x) d a i x s fun a => reverse32 a

/-- FFS (R317). -/
def execFfs (i : Bool) (d a : RField) (x : Bool) (s : State) : Host.Outcome State Fault Refusal :=
  alu1 (.ffs i d a x) d a i x s fun a => BitVec.ofNat 32 (lowestOne a)

/-- BFX (R318). -/
def execBfx (i : Bool) (d a b : RField) (x y : Bool) (s : State) : Host.Outcome State Fault Refusal :=
  alu2 (.bfx i d a b x y) d a b i x y s fun a b => bfExtract a b

/-- BFXZ (R318). -/
def execBfxz (i : Bool) (d a b : RField) (x y : Bool) (s : State) : Host.Outcome State Fault Refusal :=
  alu2 (.bfxz i d a b x y) d a b i x y s fun a b => bfExtractZ a b

/-- BFI (R318). -/
def execBfi (i : Bool) (d a b : RField) (x y : Bool) (s : State) : Host.Outcome State Fault Refusal :=
  alu3 (.bfi i d a b x y) d a b i x y s fun d a b => bfInsert d a b

/-- PERMB (R319). -/
def execPermb (i : Bool) (d a b : RField) (x y : Bool) (s : State) : Host.Outcome State Fault Refusal :=
  alu2 (.permb i d a b x y) d a b i x y s fun a b => permBytes a b

/-! ## Immediates, LUI (R320 to R322) -/

/-- ADDI (R320). -/
def execAddi (d a : RField) (x : Bool) (k : BitVec 11) (s : State) : Host.Outcome State Fault Refusal :=
  alu1 (.addi d a x k) d a false x s fun a => a + imm11 k

/-- MULI (R320). -/
def execMuli (d a : RField) (x : Bool) (k : BitVec 11) (s : State) : Host.Outcome State Fault Refusal :=
  alu1 (.muli d a x k) d a false x s fun a => a * imm11 k

/-- ANDI (R320). -/
def execAndi (d a : RField) (x : Bool) (k : BitVec 11) (s : State) : Host.Outcome State Fault Refusal :=
  alu1 (.andi d a x k) d a false x s fun a => a &&& imm11 k

/-- ORI (R320). -/
def execOri (d a : RField) (x : Bool) (k : BitVec 11) (s : State) : Host.Outcome State Fault Refusal :=
  alu1 (.ori d a x k) d a false x s fun a => a ||| imm11 k

/-- XORI (R320). -/
def execXori (d a : RField) (x : Bool) (k : BitVec 11) (s : State) : Host.Outcome State Fault Refusal :=
  alu1 (.xori d a x k) d a false x s fun a => a ^^^ imm11 k

/-- SHI: SHL, SHR, SHA or ROT by n (R321). -/
def execShi (d a : RField) (x : Bool) (h : BitVec 2) (n : BitVec 5) (s : State) : Host.Outcome State Fault Refusal :=
  alu1 (.shi d a x h n) d a false x s fun a =>
    let b : Word := n.setWidth 32
    if h = 0#2 then shiftL a b else if h = 1#2 then shiftR a b else if h = 2#2 then shiftA a b else rotL a b

/-- LUI (R322). -/
def execLui (d : RField) (k : BitVec 19) (s : State) : Host.Outcome State Fault Refusal :=
  alu (.lui d k) d s fun _ _ => k ++ 0#13

/-! ## Compares and selection (R323 to R326) -/

/-- CMPI (R323). -/
def execCmpi (c : BitVec 4) (p : BitVec 3) (a : RField) (x : Bool) (k : BitVec 11) (s : State) : Host.Outcome State Fault Refusal :=
  setp (.cmpi c p a x k) p s fun q n => intTest c.toNat (q.ra a x false n) (imm11 k)

/-- CMP (R323). -/
def execCmp (i : Bool) (c : BitVec 4) (p : BitVec 3) (a b : RField) (x y : Bool) (s : State) : Host.Outcome State Fault Refusal :=
  setp (.cmp i c p a b x y) p s fun q n => intTest c.toNat (q.ra a x i n) (q.rb b y n)

/-- The generation and rounding mode that an instruction samples at issue (R233). -/
def Iss.ver (q : Iss) : Nat := (q.w.nbv.extractLsb' 0 2).toNat
def Iss.mode (q : Iss) : Nat := (q.w.rmode.extractLsb' 0 3).toNat

/-- FCMP (R324). -/
def execFcmp (i : Bool) (c : BitVec 4) (p : BitVec 3) (a b : RField) (x y : Bool) (s : State) : Host.Outcome State Fault Refusal :=
  setp (.fcmp i c p a b x y) p s fun q n =>
    fpTest c.toNat (Fmt.fp32.operand q.ver (q.ra a x i n).toNat) (Fmt.fp32.operand q.ver (q.rb b y n).toNat)

/-- An FP64 pair in field a, and in field b. -/
def Iss.ra64 (q : Iss) (a : RField) (x i : Bool) (n : Nat) : DWord := q.w.read64 (Use.srcC a x i) n
def Iss.rb64 (q : Iss) (b : RField) (y : Bool) (n : Nat) : DWord := q.w.read64 (Use.srcC b y false) n

/-- DCMP (R324). -/
def execDcmp (i : Bool) (c : BitVec 4) (p : BitVec 3) (a b : RField) (x y : Bool) (s : State) : Host.Outcome State Fault Refusal :=
  setp (.dcmp i c p a b x y) p s fun q n =>
    fpTest c.toNat (Fmt.fp64.val (q.ra64 a x i n).toNat) (Fmt.fp64.val (q.rb64 b y n).toNat)

/-- FCLASS (R325). -/
def execFclass (i : Bool) (p : BitVec 3) (a : RField) (m : BitVec 7) (x : Bool) (s : State) : Host.Outcome State Fault Refusal :=
  setp (.fclass i p a m x) p s fun q n => classWord (q.ra a x i n) &&& m != 0#7

/-- SEL: the condition is p(4 + c) (R326). -/
def execSel (i : Bool) (d a b : RField) (x y : Bool) (c : BitVec 2) (s : State) : Host.Outcome State Fault Refusal :=
  alu (.sel i d a b x y c) d s fun q n =>
    if (q.w.getP (4 + c.toNat)).getLsbD n then q.ra a x i n else q.rb b y n

/-! ## Predicates (R327) -/

/-- PAND. (R327) -/
def execPand (p q r : BitVec 3) (s : State) : Host.Outcome State Fault Refusal :=
  setp (.pand p q r) p s fun z n =>
    let u := (z.w.getP q.toNat).getLsbD n
    let v := (z.w.getP r.toNat).getLsbD n
    u && v

/-- POR. (R327) -/
def execPor (p q r : BitVec 3) (s : State) : Host.Outcome State Fault Refusal :=
  setp (.por p q r) p s fun z n =>
    let u := (z.w.getP q.toNat).getLsbD n
    let v := (z.w.getP r.toNat).getLsbD n
    u || v

/-- PXOR. (R327) -/
def execPxor (p q r : BitVec 3) (s : State) : Host.Outcome State Fault Refusal :=
  setp (.pxor p q r) p s fun z n =>
    let u := (z.w.getP q.toNat).getLsbD n
    let v := (z.w.getP r.toNat).getLsbD n
    u != v

/-- PANDN. (R327) -/
def execPandn (p q r : BitVec 3) (s : State) : Host.Outcome State Fault Refusal :=
  setp (.pandn p q r) p s fun z n =>
    let u := (z.w.getP q.toNat).getLsbD n
    let v := (z.w.getP r.toNat).getLsbD n
    u && !v

/-- PTOV (R327). -/
def execPtov (d : RField) (p : BitVec 3) (s : State) : Host.Outcome State Fault Refusal :=
  alu (.ptov d p) d s fun q n => if (q.w.getP p.toNat).getLsbD n then 1#32 else 0#32

/-- VTOP (R327). -/
def execVtop (i : Bool) (p : BitVec 3) (a : RField) (x : Bool) (s : State) : Host.Outcome State Fault Refusal :=
  setp (.vtop i p a x) p s fun q n => q.ra a x i n != 0#32

end Sys2Proof.Machine
end

