-- ==== Sys2Proof/Machine/Control.lean ====
section
/-! DEFINITION. Sys2Proof/Machine/Control.lean: branches, calls, divergence, joins and exits (R148 to R152, R333 to
R340). -/
namespace Sys2Proof.Machine

/-! ## Divergence and joining -/

/-- Target of format J (R295). -/
def jTarget (pc : DWord) (k : BitVec 19) : DWord := pc + 4#64 + (k.signExtend 64 <<< 2)

/-- The stack entries above the path's base, top first, and those below it. -/
def Path.above (p : Path) : List JEntry := p.stack.take (p.stack.length - p.base)
def Path.below (p : Path) : List JEntry := p.stack.drop (p.stack.length - p.base)

/-- A path ends: nothing of its waiting state is left (R151); the entries below its base stay. -/
def Path.ended (p : Path) : Path := { freshPath p.pc 0#1024 with live := false, stack := p.below, base := p.base }

/-- The paths merge at the split join (R150): path 0 goes on after the JOIN. -/
def Warp.merge (w : Warp) (t : DWord) (m : Mask) : Warp :=
  { w with
    split := none, p1 := deadPath
    p0 := { w.p0 with
      live := true, mask := m &&& ~~~w.exited, pc := t + 4#64, stack := w.p0.below, base := 0, atJoin := false
      stall := 0, packed := false } }

/-- A one-path warp whose path 0 has no active lane: it unwinds to its top entry, or has exited (R151). -/
def Warp.unwind (w : Warp) : Warp × Bool :=
  match w.p0.stack with
  | [] => (w, true)
  | e :: _ => ({ w with p0 := { w.p0 with pc := e.t, packed := false } }, false)

/-- The outcome for path x after it may have lost its active lanes (R151): the warp, and whether it has exited. -/
def Warp.emptied (w : Warp) (x : Bool) : Warp × Bool :=
  let p := w.path x
  if p.mask ≠ 0#1024 then (w, false)
  else
    match p.above with
    | e :: _ => (w.setPath x { p with pc := e.t, packed := false }, false)
    | [] =>
      match w.split with
      | none => (w, true)
      | some (t, m) =>
        let w := w.setPath x p.ended
        let o := w.path (!x)
        if o.live && !o.atJoin then (w, false)
        else
          let w := w.merge t m
          if w.p0.mask = 0#1024 then w.unwind else (w, false)

/-- Put back a warp whose path x may have lost its lanes. -/
def Hw.afterMask (h : Hw) (wk : Nat) (x : Bool) (w : Warp) : Hw :=
  let (w, out) := w.emptied x
  let h := h.setWarp wk w
  if out then h.endWarp wk else h

/-- The split or deferral of a divergent branch (R150): taken lanes go to the target, the others to `next`. -/
def Warp.diverge (w : Warp) (x : Bool) (tk nt : Mask) (target next : DWord) : Except Nat Warp :=
  let p := w.path x
  match p.above with
  | ⟨t, none, m⟩ :: _ =>
    if w.split.isNone then
      let st := p.stack.tail
      .ok { w with
        split := some (t, m)
        p0 := { p with mask := nt, pc := next, stack := st, base := st.length, packed := false }
        p1 := freshPath target tk }
    else if 16 ≤ p.stack.length then .error cJOINOVF
    else .ok (w.setPath x { p with
      stack := ⟨t, some next, nt⟩ :: p.stack, mask := tk, pc := target, packed := false })
  | _ => .error cDIVERGE

/-- JOIN at the path's own address (R150). -/
def Warp.join (w : Warp) (x : Bool) : Except Nat Warp :=
  let p := w.path x
  match p.above with
  | [] =>
    match w.split with
    | none => .error cDIVERGE
    | some (t, m) =>
      if p.pc ≠ t then .error cDIVERGE
      else
        let o := w.path (!x)
        if o.live && !o.atJoin then .ok (w.setPath x { p with atJoin := true, stall := 5, packed := false })
        else .ok (w.merge t m)
  | e :: _ =>
    if p.pc ≠ e.t then .error cDIVERGE
    else match e.defer with
      | some pc => .ok (w.setPath x { p with stack := p.stack.tail, mask := e.m, pc := pc, packed := false })
      | none => .ok (w.setPath x { p with
          stack := p.stack.tail, mask := e.m &&& ~~~w.exited, pc := p.pc + 4#64, packed := false })

/-- Drop entries down to and including the nth JOIN entry: what is left and that entry's mask. -/
def popJoins : Nat → List JEntry → Option (List JEntry × Mask)
  | 0, _ => none
  | _, [] => none
  | n + 1, e :: es =>
    match e.defer with
    | some _ => popJoins (n + 1) es
    | none => if n = 0 then some (es, e.m) else popJoins n es

/-- BRKJ (R152). -/
def Warp.breakJoin (w : Warp) (x : Bool) (n : Nat) (target : DWord) : Except Nat Warp :=
  let p := w.path x
  match popJoins n p.above with
  | none => .error cDIVERGE
  | some (rest, m) =>
    let limit : Option DWord := match rest with
      | e :: _ => some e.t
      | [] => w.split.map (·.1)
    match limit with
    | some t => if target.ult t then
        .ok (w.setPath x { p with stack := rest ++ p.below, mask := m &&& ~~~w.exited, pc := target, packed := false })
      else .error cDIVERGE
    | none => .ok (w.setPath x { p with
        stack := rest ++ p.below, mask := m &&& ~~~w.exited, pc := target, packed := false })

/-! ## Instructions -/

/-- BRA: always uniform (R333). -/
def execBra (k : BitVec 19) (s : State) : Host.Outcome State Fault Refusal :=
  issueCtl (.bra k) s fun _ h q => .ok (h.goto q.wk q.x (jTarget q.p.pc k))

/-- BRP (R334): u asserts a uniform branch, n inverts the predicate. -/
def execBrp (u n : Bool) (p : BitVec 3) (k : BitVec 19) (s : State) : Host.Outcome State Fault Refusal :=
  issueCtl (.brp u n p k) s fun _ h q =>
    let m := q.p.mask
    let pm := q.w.getP p.toNat
    let tk := if n then m &&& ~~~pm else m &&& pm
    let nt := m &&& ~~~tk
    let target := jTarget q.p.pc k
    if nt = 0#1024 ∧ tk ≠ 0#1024 then .ok (h.goto q.wk q.x target)
    else if tk = 0#1024 then .ok (h.goto q.wk q.x q.next)
    else if u then .error (.plain cDIVERGE)
    else match q.w.diverge q.x tk nt target q.next with
      | .error c => .error (.plain c)
      | .ok w => .ok (h.setWarp q.wk w)

/-- CALL: the return address in a pair of every active lane (R335). -/
def execCall (a : RField) (k : BitVec 19) (s : State) : Host.Outcome State Fault Refusal :=
  issueCtl (.call a k) s fun _ h q =>
    let h := h.onWarp q.wk fun w => w.writeDst ((Use.dst a).wide 2) q.lanes fun _ => halves q.next
    .ok (h.goto q.wk q.x (jTarget q.p.pc k))

/-- JPT: pushes the JOIN entry (R337). -/
def execJpt (k : BitVec 19) (s : State) : Host.Outcome State Fault Refusal :=
  issue (.jpt k) s fun _ h q =>
    if 16 ≤ q.p.stack.length then .error (.plain cJOINOVF)
    else .ok (h.onPath q.wk q.x fun p => { p with stack := ⟨jTarget q.p.pc k, none, q.p.mask⟩ :: p.stack })

/-- JOIN: a progress event (R150, R338). -/
def execJoin (s : State) : Host.Outcome State Fault Refusal :=
  issueCtl .join s fun e h q =>
    match q.w.join q.x with
    | .error c => .error (.plain c)
    | .ok w => .ok (h.afterMask q.wk (if w.split.isNone then false else q.x) (w.progress (some q.x) e.clk.cycle))

/-- The target of BRKJ and JMPR: aligned and the same in every active lane (R336). -/
def Iss.target (q : Iss) (a : RField) (x : Bool) : Except Stop DWord :=
  let at_ (n : Nat) : DWord := q.w.read64 (Use.srcC a x false) n
  match q.lanes.find? fun n => (at_ n).extractLsb' 0 2 != 0#2 with
  | some n => .error (.at cALIGN (at_ n))
  | none =>
    if q.lanes.all fun n => at_ n == at_ q.lane0 then .ok (at_ q.lane0) else .error (.plain cDIVERGE)

/-- BRKJ (R152, R339). -/
def execBrkj (a : RField) (n : BitVec 4) (x : Bool) (s : State) : Host.Outcome State Fault Refusal :=
  issueCtl (.brkj a n x) s fun _ h q => do
    let t ← q.target a x
    match q.w.breakJoin q.x n.toNat t with
    | .error c => .error (.plain c)
    | .ok w => .ok (h.afterMask q.wk q.x w)

/-- The first undelivered failure of a warp, in queue order, and the warp without it (R254). -/
def Warp.failure (w : Warp) : Option (Trap × Warp) :=
  [EngKind.matrix, .copy, .ring].findSome? fun k =>
    (w.queue k).failure.map fun f => (f.trap, w.setQueue k { (w.queue k) with failure := none })

/-- Raise a held failure at the instruction that receives it (R254). -/
def Iss.deliver (q : Iss) (h : Hw) (f : Trap × Warp) : Stop :=
  .trapFrom (h.setWarp q.wk f.2) f.1.c f.1.a (some f.1.o) f.1.opc

/-- EXIT (R151, R340): in handler mode ILLEGAL (R312); a held engine failure is delivered first. -/
def execExit (s : State) : Host.Outcome State Fault Refusal :=
  issueCtl .exit s fun _ h q =>
    if q.w.mode = .handler then .error (.plain cILLEGAL)
    else match q.w.failure with
      | some f => .error (q.deliver h f)
      | none =>
        let m := q.p.mask
        let w := { q.w with
          exited := q.w.exited ||| m
          pend := Tab.keep (fun l _ => !m.getLsbD l) q.w.pend
          sync := Tab.keep (fun l _ => !m.getLsbD l) q.w.sync }
        .ok (h.afterMask q.wk q.x (w.setPath q.x { (w.path q.x) with mask := 0#1024, packed := false }))

/-- JMPR (R336). -/
def execJmpr (a : RField) (x : Bool) (s : State) : Host.Outcome State Fault Refusal :=
  issueCtl (.jmpr a x) s fun _ h q => do
    let t ← q.target a x
    .ok (h.goto q.wk q.x t)

end Sys2Proof.Machine
end

