-- ==== Sys2Proof/Machine/Sync.lean ====
section
/-! DEFINITION. Sys2Proof/Machine/Sync.lean: fences (R359 to R361), barriers (R362 to R368), monitors and waits (R370 to
R374) and copy batches (R375, R376). -/
namespace Sys2Proof.Machine

/-! ## Fences -/

/-- Is a load or atomic of the path still to return? -/
def Hw.returning (h : Hw) (wk : Nat) (x : Bool) : Bool :=
  h.flights.any fun f => f.2.wk == wk && f.2.path == x && f.2.kind != .iter && f.2.kind != .late

/-- Leave each active lane a pending release (R360). -/
def Warp.pending (w : Warp) (lanes : List Nat) (s : Scope) : Warp :=
  { w with pend := lanes.foldl (fun t n => Tab.put t n (match Tab.find? t n with
      | some o => s.wider o
      | none => s)) w.pend }

/-- Records of the accesses that the lanes' last flag accesses observed (R182). -/
def Iss.synced (q : Iss) : List (List RelRec) := q.lanes.filterMap fun n => Tab.find? q.w.sync n

/-- A fence: whether it acquires and releases (R359 to R361). -/
def fence (ins : Instr) (acq rel : Bool) (sc : BitVec 3) (s : State) : Host.Outcome State Fault Refusal :=
  issue ins s fun e h q =>
    let scope := scopeOfNat sc.toNat
    let got := if acq then q.synced else []
    let ev := !got.isEmpty && scope != .warp
    if (if rel then h.releaseWaits q.wk q.core (Iss.ctx h q) scope else h.elemsOf q.wk) || (acq && h.returning q.wk q.x) then .error (.wait 16)
    else if ev && h.wraps q.bk 1 then .error (.plain cINTVWRAP)
    else
      let ctx := Iss.ctx h q
      let h := if rel then h.releaseSync q.core ctx scope else h
      let h := if ev then
          (got.foldl (fun h g => h.acquireAll q.bk q.widx scope g) h).advance q.bk
        else h
      let h := if acq then h.acquireSync q.core ctx scope else h
      let h := if rel then h.onWarp q.wk fun w => (w.pending q.lanes scope).progress (some q.x) e.clk.cycle else h
      .ok h

/-- FENCE.ACQ (R359). -/
def execFenceAcq (s : BitVec 3) (m : State) : Host.Outcome State Fault Refusal := fence (.fenceAcq s) true false s m
/-- FENCE.REL (R359, R360). -/
def execFenceRel (s : BitVec 3) (m : State) : Host.Outcome State Fault Refusal := fence (.fenceRel s) false true s m
/-- FENCE.AR (R359, R360). -/
def execFenceAr (s : BitVec 3) (m : State) : Host.Outcome State Fault Refusal := fence (.fenceAr s) true true s m
/-- FENCE.SC: the steps of FENCE.AR; its place in the total order is the step in which it retires (R361). -/
def execFenceSc (s : BitVec 3) (m : State) : Host.Outcome State Fault Refusal := fence (.fenceSc s) true true s m

/-! ## Barriers -/

/-- The holding block of a block's cluster: the one with its lowest linear index (R362). -/
def Hw.holder (h : Hw) (bk : Nat) (b : Block) : Option Nat :=
  (List.find? (fun (e : Nat × Block) => bkFn e.1 == bkFn bk && e.2.clusterId == b.clusterId && e.2.lin % max 1 b.shape.bpc == 0) h.blocks).map (·.1)

/-- The barrier a word names (R362): the holding block, the index, the barrier; none for an index at or above its count. -/
def Hw.barrier (h : Hw) (bk : Nat) (b : Block) (word : Word) : Option (Nat × Nat × Barrier) :=
  let i := (word.extractLsb' 0 11).toNat
  match (if word.getLsbD 11 then h.holder bk b else some bk) with
  | none => none
  | some k => match h.block? k with
    | none => none
    | some o => if i < o.shape.bars then some (k, i, Tab.getD o.bars i Barrier.fresh) else none
/-- Does a word's cluster bit differ from the kind that the barrier was initialised with (R362)? -/
def Barrier.otherKind (x : Barrier) (word : Word) : Bool := x.init && x.cluster != word.getLsbD 11

/-- The paths blocked on barrier i of block k are so no longer (R364). -/
def Hw.wakeBarrier (h : Hw) (k i : Nat) : Hw :=
  let one (p : Path) : Path := if p.barOn = some (k, i) then { p with barOn := none } else p
  { h with warps := Tab.mapVals (fun _ (w : Warp) =>
      if w.p0.barOn.isSome || w.p1.barOn.isSome || w.frame.isSome then
        { w with p0 := one w.p0, p1 := one w.p1, frame := w.frame.map fun f => { f with p0 := one f.p0, p1 := one f.p1 } }
      else w) h.warps }

/-- The completion of a barrier wakes its waiters (R364) and emits a BARDONE record at the holding core (Table 11.5). -/
def Hw.barDone (h : Hw) (e : Env) (k i : Nat) (old new : Barrier) : Hw :=
  if old.phase = new.phase then h
  else match (h.wakeBarrier k i).block? k with
    | none => h.wakeBarrier k i
    | some b => (h.wakeBarrier k i).emit e (bkFn k) b.core 2 0x04
        (payAt 16 old.last.toNat ||| payAt 20 i ||| payAt 22 old.credited)

def Hw.setBarrier (h : Hw) (k i : Nat) (x : Barrier) : Hw := h.onBlock k fun b => { b with bars := Tab.put b.bars i x }

/-- PROTECT with the barrier word in TRAPA (R362). -/
def barStop (word : Word) : Stop := .at cPROTECT (word.setWidth 64)

/-- A barrier that an arrival, wait or test may use. -/
def Hw.liveBarrier (h : Hw) (bk : Nat) (b : Block) (word : Word) : Except Stop (Nat × Nat × Barrier) :=
  match h.barrier bk b word with
  | some (k, i, x) => if x.init && x.cluster == word.getLsbD 11 then .ok (k, i, x) else .error (barStop word)
  | none => .error (barStop word)

/-- The checks of an arrival by a warp that makes `events` interval events (R366). -/
def Hw.mayArrive (h : Hw) (bk : Nat) (b : Block) (word : Word) (events : Nat) : Except Stop (Nat × Nat × Barrier) :=
  match h.liveBarrier bk b word with
  | .error s => .error s
  | .ok (k, i, x) =>
    if x.arr = x.exp then .error (.plain cBARBUSY)
    else if h.wraps bk events then .error (.plain cINTVWRAP)
    else .ok (k, i, x)

/-- An arrival by warp u of block bk on barrier i of block k (R364, R366): the release at the barrier's scope, the
contribution, the count, the completion, the interval; `n` is what BAREXP adds to BYTES, `path` the path that arrives. -/
def Hw.arrive (h : Hw) (e : Env) (wk : Nat) (path : Option Bool) (k i : Nat) (x : Barrier) (n : Option Int) (ctx : Nat) : Hw :=
  let bk := wkBlock wk
  match h.block? bk with
  | none => h
  | some b =>
    let h := h.releaseSync b.core ctx (if x.cluster then .cluster else .block)
    let x := x.contribute b bk (wkIdx wk)
    let x := match n with
      | some n => { x with bytes := x.bytes + n, bcnt := true }
      | none => x
    let x := { x with arr := x.arr + 1, last := partyOf (bkSlot bk) (wkIdx wk) b.gen }
    let h := (h.setBarrier k i x.complete).barDone e k i x x.complete
    ((h.onWarp wk fun w => w.progress path e.clk.cycle).advance bk).moved

/-- A completion is observed (R367): an acquire at the barrier's scope. -/
def Iss.sees (h : Hw) (q : Iss) (x : Barrier) (token : Nat) : Hw :=
  let h := h.onBlock q.bk fun b => b.observe x q.bk q.widx token
  (h.acquireSync q.core (Iss.ctx h q) (if x.cluster then .cluster else .block)).advance q.bk

/-- Are there blocked waiters on barrier i of block k (R365)? -/
def Hw.waiters (h : Hw) (k i : Nat) : Bool :=
  let on (p : Path) : Bool := p.live && p.barOn == some (k, i)
  h.warps.any fun e => on e.2.p0 || on e.2.p1 || (match e.2.frame with
    | some f => on f.p0 || on f.p1
    | none => false)

/-- Does the barrier refuse to be initialised or invalidated (R229, R365)? -/
def Hw.barrierBusy (h : Hw) (k i : Nat) : Bool := h.waiters k i || h.creditPending k i

/-- The path's wait on a barrier ends. -/
def Hw.offBarrier (h : Hw) (q : Iss) : Hw := h.onPath q.wk q.x fun p => { p with barTok := none, barOn := none }

/-- Wait until PHASE differs from a token, then observe (R367). -/
def Iss.awaitPhase (h : Hw) (q : Iss) (word : Word) (token : Nat) : Except Stop Hw :=
  match h.block? q.bk with
  | none => .ok h
  | some b =>
    match h.liveBarrier q.bk b word with
    | .error s => .error s
    | .ok (k, i, x) =>
      if x.phase = token then .error (.waitFrom (h.onPath q.wk q.x fun p => { p with barOn := some (k, i) }) 6)
      else if h.wraps q.bk 1 then .error (.plain cINTVWRAP)
      else .ok ((Iss.sees h q x token).offBarrier q)

/-- Does an arrival on a barrier wait before its release (R352, R366)? -/
def Iss.arrivalWaits (h : Hw) (q : Iss) (r : Barrier) : Bool :=
  h.releaseWaits q.wk q.core (Iss.ctx h q) (if r.cluster then .cluster else .block)

/-- BARARR (R366). -/
def execBararr (i : Bool) (d a : RField) (x : Bool) (s : State) : Host.Outcome State Fault Refusal :=
  issue (.bararr i d a x) s fun e h q => do
    let word := q.ra a x i q.lane0
    let (k, n, r) ← h.mayArrive q.bk q.b word 1
    if Iss.arrivalWaits h q r then .error (.wait 16)
    else q.putAfter e h (Use.dst d) (fun _ => [BitVec.ofNat 32 r.phase]) 1 (h.arrive e q.wk (some q.x) k n r none (Iss.ctx h q))

/-- BAREXP (R366). -/
def execBarexp (i : Bool) (d a b : RField) (x y : Bool) (s : State) : Host.Outcome State Fault Refusal :=
  issue (.barexp i d a b x y) s fun e h q => do
    let word := q.ra a x i q.lane0
    let (k, n, r) ← h.mayArrive q.bk q.b word 1
    if Iss.arrivalWaits h q r then .error (.wait 16)
    else
      q.putAfter e h (Use.dst d) (fun _ => [BitVec.ofNat 32 r.phase]) 1
        (h.arrive e q.wk (some q.x) k n r (some ((q.rb b y q.lane0).toNat : Int)) (Iss.ctx h q))

/-- BARSYNC (R366, Table 14.3): the arrival is made once; the wait goes on from its token. -/
def execBarsync (i : Bool) (a : RField) (x : Bool) (s : State) : Host.Outcome State Fault Refusal :=
  issue (.barsync i a x) s fun e h q =>
    match q.p.barTok with
    | some (word, token) => Iss.awaitPhase h q word token
    | none => do
      let word := q.ra a x i q.lane0
      let (k, n, r) ← h.mayArrive q.bk q.b word 2
      if Iss.arrivalWaits h q r then .error (.wait 16)
      else
        let h := h.arrive e q.wk (some q.x) k n r none (Iss.ctx h q)
        let h := h.onPath q.wk q.x fun p => { p with barTok := some (word, r.phase) }
        match Iss.awaitPhase h q word r.phase with
        | .error (.trap c va o opc) => .error (.trapFrom h c va o opc)
        | r => r

/-- BARWAIT (R367). -/
def execBarwait (i : Bool) (a b : RField) (x y : Bool) (s : State) : Host.Outcome State Fault Refusal :=
  issue (.barwait i a b x y) s fun _ h q =>
    Iss.awaitPhase h q (q.ra a x i q.lane0) ((q.rb b y q.lane0).extractLsb' 0 8).toNat

/-- BARTRY (R367). -/
def execBartry (i : Bool) (p : BitVec 3) (a b : RField) (x y : Bool) (s : State) : Host.Outcome State Fault Refusal :=
  issue (.bartry i p a b x y) s fun _ h q => do
    let (_, _, r) ← h.liveBarrier q.bk q.b (q.ra a x i q.lane0)
    let token := ((q.rb b y q.lane0).extractLsb' 0 8).toNat
    let t := r.phase != token
    if t && h.wraps q.bk 1 then .error (.plain cINTVWRAP)
    else
      let h := if t then Iss.sees h q r token else h
      .ok (h.onWarp q.wk fun w => w.setP p.toNat q.lanes fun _ => t)

/-- BARINIT (R365). -/
def execBarinit (i : Bool) (a b : RField) (x y : Bool) (s : State) : Host.Outcome State Fault Refusal :=
  issue (.barinit i a b x y) s fun _ h q =>
    let word := q.ra a x i q.lane0
    let n := ((q.rb b y q.lane0).extractLsb' 0 16).toNat
    match h.barrier q.bk q.b word with
    | none => .error (barStop word)
    | some (k, j, r) =>
      if n = 0 ∨ r.otherKind word then .error (barStop word)
      else if h.barrierBusy k j then .error (.plain cBARBUSY)
      else .ok (h.setBarrier k j { r with
        init := true, exp := n, arr := 0, bytes := 0, bcnt := false, cluster := word.getLsbD 11
        credited := 0, pendRow := [], pendF := [] })

/-- BARINV (R365). -/
def execBarinv (i : Bool) (a : RField) (x : Bool) (s : State) : Host.Outcome State Fault Refusal :=
  issue (.barinv i a x) s fun _ h q =>
    let word := q.ra a x i q.lane0
    match h.barrier q.bk q.b word with
    | none => .error (barStop word)
    | some (k, j, r) =>
      if r.otherKind word then .error (barStop word)
      else if h.barrierBusy k j then .error (.plain cBARBUSY)
      else if !r.init then .ok h
      else .ok (h.setBarrier k j { r with init := false })

/-- The state word of Table 14.8. -/
def Barrier.query (x : Barrier) (pending : Bool) : Word :=
  BitVec.ofNat 32 ((if x.init then x.exp - x.arr else 0) + x.phase * 2 ^ 16 + (if x.init then 2 ^ 24 else 0) +
    (if x.bcnt then 2 ^ 25 else 0) + (if pending then 2 ^ 26 else 0) + (if x.cluster then 2 ^ 27 else 0) +
    (if x.bytes ≠ 0 then 2 ^ 28 else 0) + (if x.bytes < 0 then 2 ^ 29 else 0))

/-- BARQRY (R368): of the checks of R362 it makes only that of the index, so the other kind is read as well. -/
def execBarqry (i : Bool) (d a : RField) (x : Bool) (s : State) : Host.Outcome State Fault Refusal :=
  issue (.barqry i d a x) s fun e h q =>
    let word := q.ra a x i q.lane0
    match h.barrier q.bk q.b word with
    | none => .error (barStop word)
    | some (k, j, r) =>
      q.put e (Use.dst d) (fun _ => [r.query (h.creditPending k j)]) h

/-! ## Monitors and waits -/

/-- The instruction seen from its lowest active lane alone (R345). -/
def Iss.one (q : Iss) : Iss := { q with lanes := q.lanes.take 1 }

/-- MON (R370): arms the path's monitor; nothing is read, checked or marked. -/
def execMon (s : BitVec 3) (a : RField) (m : State) : Host.Outcome State Fault Refusal :=
  issue (.mon s a) m fun e h q =>
    let va := q.w.read64 ((Use.src a).wide 2) q.lane0
    match Iss.locate h e q ⟨false, false⟩ va 8 with
    | .error c => .error (.at c va)
    | .ok (.alias_ _, _) => .error (.at cPROTECT va)
    | .ok (loc, leaf) =>
      if va.toNat % 8 ≠ 0 then .error (.at cALIGN va)
      else
        let h := Iss.fill h q [⟨q.lane0, va, 8, loc, leaf⟩]
        let now := e.clk.cycle
        .ok (h.onPath q.wk q.x fun p => { p with mon := some ⟨va, loc, scopeOfNat s.toNat, true, false, now⟩ })

/-- The failure of the warp that a stamp read at a place stands for (R373). -/
def Warp.stampFailure (w : Warp) (loc : Loc) (v : DWord) : Option (Trap × Warp) :=
  [EngKind.matrix, .copy, .ring].findSome? fun k =>
    match (w.queue k).failure with
    | some f => if f.stamp = some loc ∧ f.seq % 2 ^ 32 = (v.extractLsb' 0 32).toNat then
        some (f.trap, w.setQueue k { (w.queue k) with failure := none })
      else none
    | none => none

/-- The read that ends an MWAIT or SWAIT (R371 to R373), which made `h` of `h0`: an acquire; a failure it observes is raised instead
and d keeps its value. -/
def Iss.waitRead (e : Env) (h0 : Hw) (q : Iss) (d : RField) (scope : Scope) (a : Acc) (v : DWord) (h : Hw) : Except Stop Hw :=
  match q.w.stampFailure a.loc v with
  | some f => .error (q.deliver h f)
  | none =>
    let h := if scope = Scope.warp then h else h.acquireAll q.bk q.widx scope (Iss.recsOf h q a)
    let h := if scope = .warp then h else h.advance q.bk
    let h := h.acquireSync q.core (Iss.ctx h q) scope
    let h := q.lanes.foldl (fun h n => Iss.noteSync h q [{ a with lane := n }]) h
    q.putAfter e h0 ((Use.dst d).wide 2) (fun _ => halves v) (if scope = .warp then 0 else 1) h

/-- MWAIT (R371, R373). -/
def execMwait (d : RField) (s : State) : Host.Outcome State Fault Refusal :=
  issue (.mwait d) s fun e h q =>
    match q.p.mon with
    | none => .error (.plain cILLEGAL)
    | some m =>
      if m.armed && !m.trig then .error (.wait 7)
      else if h.elemsOf q.wk then .error (.wait 7)
      else
        let z := q.one
        let ev := if m.scope = .warp then 0 else 1
        match Iss.check h e z ⟨.flg, false, false, 8, ev, false, true, none⟩ (fun _ => m.va) with
        | .error s => .error s
        | .ok [] => .ok h
        | .ok (a :: _) =>
          let h0 := h
          let h := h.onPath q.wk q.x fun p => { p with mon := some { m with armed := false } }
          let h := Iss.markAll (Iss.fill h z [a]) z .flg false [a]
          let (h, bs) := Iss.readHome h e z (m.scope == .system) a
          let q := { q with w := (h.warp? q.wk).getD q.w }
          q.waitRead e h0 d m.scope a (BitVec.ofNat 64 (leNat bs)) h

/-- SWAIT (R372, R373): each attempt reads the word; the read that satisfies the test is the acquire. -/
def execSwait (s : BitVec 3) (d a b : RField) (m : State) : Host.Outcome State Fault Refusal :=
  issue (.swait s d a b) m fun e h q =>
    let scope := scopeOfNat s.toNat
    let va := q.w.read64 ((Use.src a).wide 2) q.lane0
    let z := q.one
    let ev := if scope = .warp then 0 else 1
    match Iss.check h e z ⟨.flg, false, false, 8, ev, false, true, none⟩ (fun _ => va) with
    | .error s => .error s
    | .ok [] => .ok h
    | .ok (x :: _) =>
      let h0 := h
      let h := Iss.markAll (Iss.fill h z [x]) z .flg false [x]
      let (h, bs) := Iss.readLane h e z false (scope == .system) x
      let v := BitVec.ofNat 64 (leNat bs)
      if (v.extractLsb' 0 32 - q.w.read (.src b) q.lane0).toNat < 2 ^ 31 ∧ ¬ h.elemsOf q.wk then
        q.waitRead e h0 d scope x v h
      else .error (.waitFrom h 7)

/-- TWAIT (R374). -/
def execTwait (i : Bool) (a : RField) (x : Bool) (s : State) : Host.Outcome State Fault Refusal :=
  issue (.twait i a x) s fun e h q =>
    let t := (q.w.read64 ((Use.srcC a x i).wide 2) q.lane0).toNat
    if t ≤ localTick e q.core then .ok h
    else .error (.waitFrom (h.onPath q.wk q.x fun p => { p with wakeAt := some t }) 8)

/-- Has an armed monitor stood for 2^20 cycles (R371)? -/
def Path.monDue (p : Path) (cycle : Nat) : Bool :=
  match p.mon with
  | some m => m.armed && !m.trig && decide (m.since + 2 ^ 20 ≤ cycle)
  | none => false
def Path.monFire (p : Path) (cycle : Nat) : Path :=
  if p.monDue cycle then { p with mon := p.mon.map fun m => { m with trig := true } } else p

/-- MONITOR_TIMEOUT: the monitors of warp `unit` that have stood for 2^20 cycles are triggered. -/
def monitorTimeout (e : Env) (h : Hw) : Hw :=
  (h.onWarp h.occ.unit fun w =>
    { w with
      p0 := w.p0.monFire e.clk.cycle, p1 := w.p1.monFire e.clk.cycle
      frame := w.frame.map fun f => { f with p0 := f.p0.monFire e.clk.cycle, p1 := f.p1.monFire e.clk.cycle } }).moved

/-- MONITOR_TIMEOUT (R371). -/
def execMonitorTimeout (s : State) : Host.Outcome State Fault Refusal := s.event monitorTimeout

/-! ## Copy batches -/

/-- CBATCH (R375). -/
def execCbatch (d : RField) (s : State) : Host.Outcome State Fault Refusal :=
  issue (.cbatch d) s fun e h q =>
    let n := q.w.batch + 1
    q.putAfter e h (Use.dst d) (fun _ => [BitVec.ofNat 32 n]) 0 (h.onWarp q.wk fun w => { w with batch := n })

/-- CSTAMP (R375). -/
def execCstamp (d : RField) (s : State) : Host.Outcome State Fault Refusal :=
  alu (.cstamp d) d s fun q _ => BitVec.ofNat 32 q.w.seq

/-- Have all copy and ring commands of a warp's batches up to n completed (R264)? -/
def Hw.batchDone (h : Hw) (wk n : Nat) : Bool :=
  !h.cmds.any fun e => e.2.wk == wk && e.2.kind != .matrix && decide (e.2.batch ≤ n)

/-- An undelivered failure of a command in batches up to n, copy before ring. -/
def Warp.batchFailure (w : Warp) (n : Nat) : Option (Trap × Warp) :=
  [EngKind.copy, .ring].findSome? fun k =>
    match (w.queue k).failure with
    | some f => if Tab.getD w.batchOf f.seq 0 ≤ n then
        some (f.trap, w.setQueue k { (w.queue k) with failure := none })
      else none
    | none => none

/-- The effect of a satisfied CWAIT or CPOLL for batches up to n (R376). -/
def Iss.batched (q : Iss) (n : Nat) (h : Hw) : Except Stop Hw :=
  let rels := q.w.acqDone.filter fun r => decide (Tab.getD q.w.batchOf r.1 0 ≤ n) && r.2.1 != .warp
  if !rels.isEmpty && h.wraps q.bk 1 then .error (.plain cINTVWRAP)
  else match q.w.batchFailure n with
    | some f => .error (q.deliver h f)
    | none =>
      if rels.isEmpty then .ok h
      else
        let h := rels.foldl (fun h r => h.acquireRec q.bk q.widx r.2.1 r.2.2) h
        .ok ((h.acquireSync q.core (Iss.ctx h q) (widest (rels.map (·.2.1)))).advance q.bk)

/-- CWAIT (R376). -/
def execCwait (i : Bool) (a : RField) (x : Bool) (s : State) : Host.Outcome State Fault Refusal :=
  issue (.cwait i a x) s fun _ h q =>
    let n := min (q.ra a x i q.lane0).toNat q.w.batch
    if h.batchDone q.wk n then q.batched n h else .error (.wait 9)

/-- CPOLL (R376). -/
def execCpoll (i : Bool) (p : BitVec 3) (a : RField) (x : Bool) (s : State) : Host.Outcome State Fault Refusal :=
  issue (.cpoll i p a x) s fun _ h q =>
    let n := min (q.ra a x i q.lane0).toNat q.w.batch
    if h.batchDone q.wk n then do
      let h ← q.batched n h
      .ok (h.onWarp q.wk fun w => w.setP p.toNat q.lanes fun _ => true)
    else .ok (h.onWarp q.wk fun w => w.setP p.toNat q.lanes fun _ => false)

end Sys2Proof.Machine
end

