-- ==== Sys2Proof/Machine/EngineInstr.lean ====
section
/-! DEFINITION. Sys2Proof/Machine/EngineInstr.lean: the matrix, copy, gather and ring instructions (R394 to R402), MWAITA,
and the in-core dependency table: TASK, TREADY and the issue of an entry (R130 to R134, R406, R407, R449). -/
namespace Sys2Proof.Machine

/-! ## Building a command (R395, R396) -/

/-- Register `j` of the uniform group at field `a`. -/
def Iss.grp (q : Iss) (a : RField) (j : Nat) : Word := q.w.getU (q.w.uIndex (Use.group a 1) + j)

/-- The header of an instruction-built command: SCOPE, TOK and TAG from EHDR (Table 16.3). -/
def Warp.header (w : Warp) (len opc : Nat) (timed bc : Bool) : Word :=
  BitVec.ofNat 32 (len + opc * 2 ^ 5 + (w.ehdr.extractLsb' 9 3).toNat * 2 ^ 12 + (w.ehdr.extractLsb' 8 1).toNat * 2 ^ 15 +
    (w.ehdr.extractLsb' 0 8).toNat * 2 ^ 16 + timed.toNat * 2 ^ 24 + bc.toNat * 2 ^ 25)

/-- Word 1 of a matrix command (Table 10.7): a UNIT word or an N that does not fit makes it malformed (R396), which its
reserved bit 31 says. -/
def matrixWord (u n : Word) (pair : Bool) : Word :=
  let extra := if pair then u &&& 0xFFFFFEC0#32 else u &&& 0xFFFFFFC0#32
  let bad := extra != 0#32 || decide (n.toNat < 16) || decide (512 < n.toNat) || n.toNat % 16 != 0
  BitVec.ofNat 32 (u.toNat % 64 + (n.toNat / 16 + 31) % 32 * 2 ^ 6 + (if pair && u.getLsbD 8 then 2 ^ 11 else 0) +
    if bad then 2 ^ 31 else 0)

/-- Push a whole command (R395): ILLEGAL while the queue's staging buffer holds a partial one. -/
def Iss.pushCommand (e : Env) (q : Iss) (k : EngKind) (ws : List Word) (h : Hw) : Except Stop Hw :=
  if (q.w.queue k).staging.isEmpty then h.issueCmd e q.wk k ws q.w.rmode q.w.nbv else .error (.plain cILLEGAL)

/-- A matrix instruction. -/
def matrixPush (ins : Instr) (s : State) (ws : Iss → List Word) : Host.Outcome State Fault Refusal :=
  issue ins s fun e h q => q.pushCommand e .matrix (ws q) h

/-- A copy, gather or ring instruction: d takes the low half of the command's sequence number (R252, R401). -/
def sequencedPush (ins : Instr) (d : RField) (k : EngKind) (s : State) (ws : Iss → List Word) :
    Host.Outcome State Fault Refusal :=
  issue ins s fun e h q => do
    let h1 ← q.pushCommand e k (ws q) h
    q.putAfter e h (Use.dst d) (fun _ => [BitVec.ofNat 32 (q.w.seq + 1)]) 2 h1

/-! ## Matrix instructions (R397, R398) -/

/-- Words of an MMA form. -/
def Iss.mmaWords (q : Iss) (opc : Nat) (d a b : RField) : List Word :=
  [q.w.header 4 opc false false, matrixWord (q.grp d 0) (q.grp d 1) false, q.grp a 0, q.grp b 0]

/-- MMA (R397). -/
def execMma (d a b : RField) (s : State) : Host.Outcome State Fault Refusal :=
  matrixPush (.mma d a b) s fun q => q.mmaWords 1 d a b
/-- MMA.P (R397). -/
def execMmaP (d a b : RField) (s : State) : Host.Outcome State Fault Refusal :=
  matrixPush (.mmaP d a b) s fun q => q.mmaWords 2 d a b
/-- MMA.Z (R397). -/
def execMmaZ (d a b : RField) (s : State) : Host.Outcome State Fault Refusal :=
  matrixPush (.mmaZ d a b) s fun q => q.mmaWords 3 d a b
/-- MMA.PZ (R397). -/
def execMmaPz (d a b : RField) (s : State) : Host.Outcome State Fault Refusal :=
  matrixPush (.mmaPz d a b) s fun q => q.mmaWords 4 d a b
/-- DRAIN (R398). -/
def execDrain (d a : RField) (s : State) : Host.Outcome State Fault Refusal :=
  matrixPush (.drain d a) s fun q =>
    [q.w.header 3 5 false false, matrixWord (q.grp d 0) (q.grp d 1) true, q.grp a 0]
/-- MZERO (R398). -/
def execMzero (d : RField) (s : State) : Host.Outcome State Fault Refusal :=
  matrixPush (.mzero d) s fun q => [q.w.header 2 6 false false, matrixWord (q.grp d 0) (q.grp d 1) true]
/-- MLOAD (R398). -/
def execMload (d a : RField) (s : State) : Host.Outcome State Fault Refusal :=
  matrixPush (.mload d a) s fun q =>
    [q.w.header 3 7 false false, matrixWord (q.grp d 0) (q.grp d 1) false, q.grp a 0]

/-- MWAITA (R400): an acquiring wait on every matrix command the warp has pushed. -/
def execMwaita (s : State) : Host.Outcome State Fault Refusal :=
  issue .mwaita s fun _ h q =>
    let rels := q.w.macqDone.filter fun r => r.1 != .warp
    if q.w.mseq ≠ 0 then .error (.wait (if (h.fcore q.fn q.core).lent.isSome then 14 else 10))
    else if !rels.isEmpty && h.wraps q.bk 1 then .error (.plain cINTVWRAP)
    else match q.w.q0.failure with
      | some f => .error (q.deliver h (f.trap, q.w.setQueue .matrix { q.w.q0 with failure := none }))
      | none =>
        if rels.isEmpty then .ok h
        else
          let h := rels.foldl (fun h r => h.acquireRec q.bk q.widx r.1 r.2) h
          .ok ((h.acquireSync q.core (Iss.ctx h q) (widest (rels.map (·.1)))).advance q.bk)

/-! ## Copy, gather and ring instructions (R401, R402) -/

/-- Words of a copy or gather from its blocks (Table 16.4). -/
def Iss.copyWords (q : Iss) (len opc : Nat) (timed : Bool) (a b : RField) : List Word :=
  let c8 := if opc = 0x20 ∨ (q.grp a 0 = 0#32 ∧ q.grp a 1 = 0#32) then 0#32 else q.grp b 3
  [q.w.header len opc timed ((q.grp a 6).getLsbD 31), q.grp a 0, q.grp a 1, q.grp a 2, q.grp a 3, q.grp b 0, q.grp b 1,
    q.grp b 2, c8, q.grp a 4, q.grp a 5, q.grp a 6 &&& 0x7FF#32] ++ (if timed then [q.grp a 8, q.grp a 9] else [])

/-- Words of a ring command from its block (Table 16.5). -/
def Iss.ringWords (q : Iss) (len opc : Nat) (timed : Bool) (a : RField) : List Word :=
  [q.w.header len opc timed ((q.grp a 6).getLsbD 31), q.grp a 0, q.grp a 1, q.grp a 2, q.grp a 4, q.grp a 5,
    q.grp a 6 &&& 0x7FF#32] ++ (if timed then [q.grp a 8, q.grp a 9] else [])

/-- COPY (R401). -/
def execCopy (d a b : RField) (s : State) : Host.Outcome State Fault Refusal :=
  sequencedPush (.copy d a b) d .copy s fun q => q.copyWords 12 0x10 false a b
/-- COPYO (R401). -/
def execCopyo (d a b : RField) (s : State) : Host.Outcome State Fault Refusal :=
  sequencedPush (.copyo d a b) d .copy s fun q => q.copyWords 12 0x11 false a b
/-- COPY.AT (R401). -/
def execCopyAt (d a b : RField) (s : State) : Host.Outcome State Fault Refusal :=
  sequencedPush (.copyAt d a b) d .copy s fun q => q.copyWords 14 0x10 true a b
/-- GATHER (R401). -/
def execGather (d a b : RField) (s : State) : Host.Outcome State Fault Refusal :=
  sequencedPush (.gather d a b) d .ring s fun q => q.copyWords 12 0x20 false a b
/-- SEND (R402). -/
def execSend (d a : RField) (s : State) : Host.Outcome State Fault Refusal :=
  sequencedPush (.send d a) d .ring s fun q => q.ringWords 7 0x21 false a
/-- SEND.AT (R402). -/
def execSendAt (d a : RField) (s : State) : Host.Outcome State Fault Refusal :=
  sequencedPush (.sendAt d a) d .ring s fun q => q.ringWords 9 0x21 true a
/-- RRED (R402). -/
def execRred (d a : RField) (s : State) : Host.Outcome State Fault Refusal :=
  sequencedPush (.rred d a) d .ring s fun q => q.ringWords 7 0x22 false a
/-- RBCAST (R402). -/
def execRbcast (d a : RField) (s : State) : Host.Outcome State Fault Refusal :=
  sequencedPush (.rbcast d a) d .ring s fun q => q.ringWords 7 0x23 false a

/-! ## The dependency table -/

/-- TASK (R406): the entry's kind, inputs and command. -/
def execTask (a b : RField) (s : State) : Host.Outcome State Fault Refusal :=
  issue (.task a b) s fun _ h q =>
    let v := q.grp a 0
    let kind := (v.extractLsb' 0 2).toNat
    let nin := (v.extractLsb' 2 3).toNat
    let hd := q.grp b 0
    let ins := (List.range nin).map fun j => ((q.grp a 1).extractLsb' (8 * j) 8).toNat
    let bad := match depEngine kind with
      | some k => hdrBad k hd || !(q.w.queue k).staging.isEmpty
      | none => false
    let n := if kind = 3 then 1 else hdrLen hd
    if v.extractLsb' 5 27 ≠ 0#27 ∨ 4 < nin ∨ bad = true then .error (.plain cILLEGAL)
    else if !q.w.inBounds (Use.group b n) then .error (.plain cREGBOUND)
    else if (kind = 3 ∧ q.b.shape.bars ≤ (hd.extractLsb' 0 11).toNat) ∨ ins.any (fun u => decide (q.b.spBytes < 4096 * (u + 1))) = true then
      .error (.plain cPROTECT)
    else if 64 ≤ (h.fcore q.fn q.core).deps.length ∨ h.roomTaken q.wk 13 (roomKey q.core none) then
      .error (.turn 13 [roomKey q.core none])
    else
      .ok (h.onFCore q.fn q.core fun f =>
        { f with
          deps := f.deps ++ [⟨kind, q.wk, q.x, ins, (List.range n).map (q.grp b), q.w.rmode &&& 0xF#32, q.w.nbv &&& 3#32,
            f.age⟩]
          age := f.age + 1 })

/-- TREADY (R131, R133, R407): a block-scope release that each bit it sets carries. -/
def execTready (a : RField) (s : State) : Host.Outcome State Fault Refusal :=
  issue (.tready a) s fun _ h q =>
    let v := q.grp a 0
    let first := (v.extractLsb' 0 8).toNat
    let us := (List.range ((v.extractLsb' 8 8).toNat + 1)).map (first + ·)
    if q.b.spBytes < 4096 * (first + us.length) then .error (.plain cPROTECT)
    else if h.wraps q.bk 1 then .error (.plain cINTVWRAP)
    else if h.elemsOf q.wk then .error (.wait 16)
    else
      let r := q.b.snapshot q.fn q.slot q.widx .block q.bk
      let h := h.onBlock q.bk fun b =>
        { b with ready := us.foldl (fun t u => if v.getLsbD 31 then Tab.put t u r else Tab.del t u) b.ready }
      .ok (h.advance q.bk)

/-- Is every input of an entry ready, and can its target accept it (R132)? -/
def Hw.depReady (h : Hw) (fn core : Nat) (d : DepEntry) : Bool :=
  match h.block? (wkBlock d.wk) with
  | none => false
  | some b =>
    h.enginesRun (wkBlock d.wk) && d.ins.all (Tab.has b.ready) && (match depEngine d.kind with
      | some k => !h.queueFull fn core k (pairedCmd (hdrOpc (d.cmd.headD 0#32)) (d.cmd.getD 1 0#32) && core % 2 == 0) &&
          (match h.warp? d.wk with
           | some w => !((d.cmd.headD 0#32).getLsbD 15 && decide (16 ≤ (w.queue k).tokens.length + (w.queue k).reserved))
           | none => false)
      | none => true)

/-- The trap of an entry that failed its checks, for OWNER or the lowest warp that has not exited (R449). -/
def Hw.depTrap (h : Hw) (d : DepEntry) (c : DWord) : Hw :=
  let o := BitVec.ofNat 64 (d.kind + (d.cmd.headD 0#32).toNat * 2 ^ 16) ||| (1#64 <<< 63)
  let t : Trap := ⟨c, 0#64, 0#64, o, 0#64⟩
  let alive (k : Nat) : Bool := match h.warp? k with | some w => !w.done | none => false
  let k := if alive d.wk then some d.wk
    else ((h.warpsOf (wkBlock d.wk)).find? fun e => !e.2.done).map (·.1)
  match k with
  | some k => h.onWarp k fun w => { w with owed := w.owed ++ [t] }
  | none => h

/-- Interval events of an entry's issue: its acquire and the command's two events or the arrival. -/
def depEvents (kind : Nat) (acq : Bool) : Nat := acq.toNat + if kind = 3 then 1 else 2

/-- An entry whose inputs are ready is issued for OWNER (R132, R133, R449): a block-scope acquire of the releases that set
them, then the push or the arrival; one that fails a check has no effect but its trap. Nothing while it has to wait. -/
def Hw.issueDep (h : Hw) (e : Env) (d : DepEntry) : Option Hw :=
  let bk := wkBlock d.wk
  match h.block? bk with
  | none => some h
  | some b =>
    let rels := d.ins.filterMap fun u => Tab.find? b.ready u
    let acq (h : Hw) : Hw :=
      if rels.isEmpty then h
      else (rels.foldl (fun h r => h.acquireRec bk (wkIdx d.wk) .block r) h).advance bk
    let wrap := h.wraps bk (depEvents d.kind (!rels.isEmpty))
    match depEngine d.kind with
    | some k =>
      if !h.ownsEngine (bkFn bk) b.core k then some (h.depTrap d (BitVec.ofNat 64 cPROTECT))
      else if wrap then some (h.depTrap d (BitVec.ofNat 64 cINTVWRAP))
      else match (acq h).issueCmd e d.wk k d.cmd d.rmode d.nbv with
        | .ok h' => some h'
        | .error (.trap c ..) => some (h.depTrap d c)
        | .error _ => none
    | none =>
      match h.mayArrive bk b ((d.cmd.headD 0#32) &&& 0x7FF#32) 0 with
      | .error (.trap c ..) => some (h.depTrap d c)
      | .error _ => none
      | .ok (k, i, x) =>
        if wrap then some (h.depTrap d (BitVec.ofNat 64 cINTVWRAP))
        else some ((acq h).arrive e d.wk none k i x none (ctxOf (bkFn bk)))

/-- DEPENDENCY_TASK_ISSUE: the table of function `unit` on core `id` issues the ready entry with the smallest AGE whose
target can accept it, for no path; an ARRIVE waits while its warp's elements are in a retriever's queue. -/
def dependencyTaskIssue (e : Env) (h : Hw) : Hw :=
  let fn := h.occ.unit
  let core := h.occ.id
  let ready := (h.fcore fn core).deps.filter fun d => h.depReady fn core d && !(d.kind == 3 && h.elemsOf d.wk)
  match ready.findSome? fun d =>
    (({ h with cur := none }).onFCore fn core fun f => { f with deps := f.deps.filter fun x => x.age != d.age }).issueDep e d with
  | some h => h.moved
  | none => h

/-- DEPENDENCY_TASK_ISSUE (R132, R133, R449). -/
def execDependencyTaskIssue (s : State) : Host.Outcome State Fault Refusal := s.event dependencyTaskIssue

end Sys2Proof.Machine
end

