-- ==== Sys2Proof/Machine/Halt.lean ====
section
/-! DEFINITION. Sys2Proof/Machine/Halt.lean: the halt of a warp and its restore (R76, R77, R371). -/
namespace Sys2Proof.Machine

/-- A path as a halt leaves it: its packed placement is undone (R155). -/
def Path.halted (p : Path) : Path := { p with packed := false }
/-- A halted warp. -/
def Warp.halted (w : Warp) : Warp :=
  { w with
    stopped := true, p0 := w.p0.halted, p1 := w.p1.halted
    frame := w.frame.map fun f => { f with p0 := f.p0.halted, p1 := f.p1.halted } }

/-- A halt of one warp (R286, R424): its outstanding loads and iterative passes become replay packets; rows of an instruction that
have not issued stand in its resume-row mask; whatever else it has issued runs to its end (R76 steps 1 to 5). -/
def Hw.haltWarp (h : Hw) (wk : Nat) : Hw := (h.packetise wk fun _ => true).onWarp wk Warp.halted

/-- A core's generation tag of a context advances (R77). -/
def Hw.nextGen (h : Hw) (ctx core : Nat) : Hw :=
  h.onCore core fun c => { c with gens := Tab.put c.gens ctx ((Tab.getD c.gens ctx 0 + 1) % 65536) }

/-- Plan the return of a warp's replay packets that may be performed in its mode. -/
def Hw.replan (h : Hw) (wk : Nat) : Hw :=
  (h.flights.filter fun f => f.2.wk == wk && f.2.replay).foldl (fun h f =>
    h.planOnce (if f.2.kind = .iter then .iterativePassResult else .loadReturn)
      { Occasion.none with unit := f.1, aux := f.2.tag }) h

/-- Restored monitors are triggered (R371). -/
def Path.wake (p : Path) : Path := { p with mon := p.mon.map fun m => { m with trig := m.trig || m.armed } }

/-- A halted warp goes on: its replay packets are reissued first (R77). -/
def Hw.resumeWarp (h : Hw) (wk : Nat) : Hw :=
  ((h.onWarp wk fun w =>
    { w with
      stopped := false, p0 := w.p0.wake, p1 := w.p1.wake
      frame := w.frame.map fun f => { f with p0 := f.p0.wake, p1 := f.p1.wake } }).replan wk).moved

/-- Halt the warps of a block but one (R286 step 1, R424). -/
def Hw.haltBlock (h : Hw) (bk : Nat) (but : Option Nat) : Hw :=
  (h.warpsOf bk).foldl (fun h e => if some e.1 = but ∨ e.2.done ∨ e.2.stopped then h else h.haltWarp e.1) h

/-- Resume the halted warps of a block, and let its commands start. -/
def Hw.resumeBlock (h : Hw) (bk : Nat) : Hw :=
  let h := (h.warpsOf bk).foldl (fun h e => if e.2.stopped then h.resumeWarp e.1 else h) h
  match h.block? bk with
  | some b => (h.kick (bkFn bk) b.core).kick (bkFn bk) (b.core - b.core % 2)
  | none => h

end Sys2Proof.Machine
end

