-- ==== Sys2Proof/Machine/Journal.lean ====
section
/-! DEFINITION. Sys2Proof/Machine/Journal.lean: the journal (R57 to R59, R451), a command's end with its completion word
(R52), and which command of a queue is dispatched next (R46, R51). -/
namespace Sys2Proof.Machine

/-! ## Host addresses (R34, R49) -/

/-- Physical address of a host bus address. -/
def hostPa (a : DWord) : Nat := 0x8000000000000 + a.toNat % 2 ^ 50

/-- Does [a, a + n) lie in the function's host window? The PF's is the whole host range. -/
def Hw.inWindow (h : Hw) (f : Nat) (a : DWord) (n : Nat) : Bool :=
  if f = 0 then decide (a.toNat + n ≤ 2 ^ 50)
  else decide ((h.fn f).bind.winlo.toNat ≤ a.toNat) && decide (a.toNat + n ≤ (h.fn f).bind.winhi.toNat)

/-- A write made by no party: its words' marks and records go, and monitors are triggered (R38, R51, R213, R371). -/
def Hw.deviceWrite (h : Hw) (pa : Nat) (bs : List Byte) : Hw :=
  ((h.clearMarks pa bs.length).putBytes pa bs).triggerMem pa bs.length

/-! ## Entries -/

def JEnt.terminal (x : JEnt) : Bool := decide (3 ≤ x.state)

/-- Is the next index free for an entry (R59)? -/
def Fn.jFree (x : Fn) : Bool :=
  match Tab.find? x.journal (x.jnext % 8192) with
  | some j => j.terminal
  | none => true

/-- Write an entry at the next index. -/
def Fn.jPut (x : Fn) (j : JEnt) : Fn :=
  { x with journal := Tab.put x.journal (x.jnext % 8192) { j with seq := x.jnext }, jnext := x.jnext + 1 }

/-- Write the buffered entries whose index is free, in the order raised (R451). -/
def Fn.jDrain : Nat → Fn → Fn
  | 0, x => x
  | n + 1, x =>
    match x.jbuf with
    | [] => x
    | j :: js => if x.jFree then Fn.jDrain n (({ x with jbuf := js }).jPut j) else x

/-- Acceptance pauses while the next index holds an entry that is not terminal, or entries wait (R59, R451). -/
def Hw.jPause (h : Hw) (f : Nat) : Hw :=
  let x := h.fn f
  let stop := !x.jFree || !x.jbuf.isEmpty
  if stop then
    if x.jfull then h else (h.setFn f { x with jfull := true }).raiseInt f iJFULL 0
  else if x.jfull then
    let h := h.setFn f { x with jfull := false }
    let qs := List.range 16
    qs.foldl (fun h q =>
      if (Tab.getD x.queues q SQ.reset).en then h.planOnce .commandFetch { Occasion.none with unit := f, id := q }
      else h) h
  else h

/-- An entry of kind QERR, HOSTUR or FABDROP (R451): written, buffered, or lost and counted. -/
def Hw.jNote (h : Hw) (e : Env) (f kind src status tag : Nat) : Hw :=
  let x := h.fn f
  let j : JEnt := ⟨0, kind, 3, src, status, 0, false, tag, 0, e.clk.tick⟩
  let x := if x.jbuf.isEmpty && x.jFree then x.jPut j
    else if x.jbuf.length < 16 then { x with jbuf := x.jbuf ++ [j] }
    else { x with jlost := min (x.jlost + 1) 0xFFFFFFFF }
  (h.setFn f x).jPause f

/-- Rewrite a command's entry (R57, R58). -/
def Hw.jState (h : Hw) (e : Env) (f seq state status cause : Nat) (late : Bool) : Hw :=
  let h := h.onFn f fun x =>
    match Tab.find? x.journal (seq % 8192) with
    | some j =>
      if j.seq = seq ∧ !j.terminal then
        let j := { j with state := state, status := status, cause := cause, late := j.late || late, tstamp := e.clk.tick }
        Fn.jDrain 17 { x with journal := Tab.put x.journal (seq % 8192) j }
      else x
    | none => x
  h.jPause f

/-! ## Commands -/

def QCmd.byte (c : QCmd) (k : Nat) : Byte := c.bytes.getD k 0#8
/-- `n` bytes of a command from byte `k`, as a number. -/
def QCmd.num (c : QCmd) (k n : Nat) : Nat := leNat ((c.bytes.drop k).take n)
def QCmd.opc (c : QCmd) : Nat := (c.byte 0).toNat
def QCmd.irq (c : QCmd) : Bool := (c.byte 1).getLsbD 0
def QCmd.fence (c : QCmd) : Bool := (c.byte 1).getLsbD 1
def QCmd.timed (c : QCmd) : Bool := (c.byte 1).getLsbD 2
def QCmd.ctag (c : QCmd) : Nat := c.num 4 4
def QCmd.caddr (c : QCmd) : DWord := BitVec.ofNat 64 (c.num 8 8)

/-- The step that dispatches a command. -/
def dispatchStep (opc : Nat) : Instr :=
  if opc = 0 then .nop else if opc = 1 then .launchCommand else if opc = 2 then .taskCommand
  else if opc = 3 then .gslaunchCommand else if opc = 4 then .queueCopy else if opc = 5 then .writeval
  else if opc = 6 then .waitval else .intr

/-- The next command of a queue to dispatch, if it may be dispatched: no WAITVAL of the queue holds it, and with FENCE
every earlier command is terminal (R46, R51). -/
def Hw.nextCommand (h : Hw) (f q : Nat) : Option (Nat × QCmd) :=
  let l := (h.fn f).cmds.filter fun (c : Nat × QCmd) => c.2.queue == q
  match l.find? fun c => !c.2.disp with
  | none => none
  | some (s, c) =>
    if l.any (fun d => d.1 < s && (d.2.opc == 6 || c.fence)) then none else some (s, c)

/-- Plan the dispatch of the next command of a queue. -/
def Hw.planDispatch (h : Hw) (f q : Nat) : Hw :=
  match h.nextCommand f q with
  | some (s, c) => h.planOnce (dispatchStep c.opc) { Occasion.none with unit := f, id := s }
  | none => h

/-- Status values (Table 2.8). -/
def stOK := 0
def stBADOP := 1
def stBADFIELD := 2
def stADDR := 3
def stNORES := 4
def stFAULTED := 5
def stABORTED := 6
def stTIMEOUT := 7
def stHREJECT := 8
def stCOPYERR := 9

/-- The completion word (R52). -/
def completionWord (ctag status cause seq : Nat) : Nat :=
  ctag % 2 ^ 32 + status * 2 ^ 32 + (if status = stFAULTED then cause else 0) * 2 ^ 40 + seq % 65536 * 2 ^ 48

/-- Number under which a queue command owns lines. -/
def queueOwner (f seq : Nat) : Nat := 2 ^ 80 + f * 2 ^ 70 + seq

/-- A command reaches a terminal state: its journal entry, then its completion word, then its interrupt (R52). -/
def Hw.endCommand (h : Hw) (e : Env) (f seq status cause : Nat) (rejected : Bool := false) : Hw :=
  match Tab.find? (h.fn f).cmds seq with
  | none => h
  | some c =>
    let h := h.onFn f fun x => { x with cmds := Tab.del x.cmds seq }
    let h := { h with owners := Tab.keep (fun _ o => o != queueOwner f seq) h.owners }
    let state := if rejected then 5 else if status = stOK then 3 else 4
    let h := h.jState e f seq state status (if status = stFAULTED then cause else 0) false
    let h := if c.caddr = 0#64 ∨ c.caddr.toNat % 8 ≠ 0 ∨ ¬ h.inWindow f c.caddr 8 then h
      else h.deviceWrite (hostPa c.caddr) (natLe 8 (completionWord c.ctag status cause seq))
    let h := if c.irq then h.raiseInt f iCMPL (Tab.getD (h.fn f).queues c.queue SQ.reset).vec else h
    (h.planDispatch f c.queue).moved

/-- A command is dispatched. -/
def Hw.markDispatched (h : Hw) (e : Env) (f seq : Nat) : Hw :=
  (h.onFn f fun x => { x with cmds := Tab.modify x.cmds seq fun c => { c with disp := true } }).jState e f seq 2 0 0 false

def Hw.onQCmd (h : Hw) (f seq : Nat) (g : QCmd → QCmd) : Hw :=
  h.onFn f fun x => { x with cmds := Tab.modify x.cmds seq g }

/-- End every accepted, undispatched command that meets `p` (R45, FCTL.ABORT). -/
def Hw.abortPending (h : Hw) (e : Env) (f : Nat) (p : QCmd → Bool) : Hw :=
  (((h.fn f).cmds.filter fun (c : Nat × QCmd) => !c.2.disp && p c.2).foldl (fun h c => h.endCommand e f c.1 stABORTED 0) h)

end Sys2Proof.Machine
end

