-- ==== Sys2Proof/Machine/Fit.lean ====
section
/-! DEFINITION. Sys2Proof/Machine/Fit.lean: launch shapes (Table 2.7, R50), the allocators and the distributor's view of a
core (R117, R118, R121, R124 to R126; log 28), and the choice of cores (R119). -/
namespace Sys2Proof.Machine

/-! ## Shapes -/

/-- Field of bytes [k, k + n) of an image, and the same without its high bits. -/
def bytesNat (bs : List Byte) (k n : Nat) : Nat := leNat ((bs.drop k).take n)

/-- The shape of a LAUNCH image (Table 2.7). -/
def Shape.ofLaunch (bs : List Byte) : Shape :=
  let f (k n w : Nat) : Nat := bytesNat bs k n % 2 ^ w
  { entry := BitVec.ofNat 64 (bytesNat bs 16 8), params := BitVec.ofNat 64 (bytesNat bs 24 8), gx := f 32 2 16
    gy := f 34 2 16, gz := f 36 2 16, wpb := f 38 1 6, k := f 39 1 6, cregs := f 40 2 9, pregs := f 42 2 9, pwarps := f 44 1 6
    uwin := f 45 1 3, spad := f 46 2 10, bars := f 48 2 12, bpc := f 50 1 4, wdog := f 51 1 6 }

/-- Has a LAUNCH image a nonzero bit that Table 2.7 does not name in its body? Bytes 56 to 63 are the start tick, which only a TIMED
command uses. -/
def launchRsv (bs : List Byte) : Bool :=
  bytesNat bs 38 1 / 64 != 0 || bytesNat bs 39 1 / 64 != 0 || bytesNat bs 40 2 / 512 != 0 || bytesNat bs 42 2 / 512 != 0 ||
    bytesNat bs 44 1 / 64 != 0 || bytesNat bs 45 1 / 8 != 0 || bytesNat bs 46 2 / 1024 != 0 || bytesNat bs 48 2 / 4096 != 0 ||
    bytesNat bs 50 1 / 16 != 0 || bytesNat bs 51 1 / 64 != 0 || bytesNat bs 52 4 != 0

/-- Register counts of a role. -/
def regsOk (n : Nat) : Bool := decide (8 ≤ n) && decide (n ≤ 256) && n % 8 == 0
/-- The limits that Tables 2.7 and 4.7 give a launch shape. -/
def Shape.inLimits (s : Shape) : Bool :=
  decide (1 ≤ s.wpb) && decide (s.wpb ≤ 32) && decide (1 ≤ s.k) && decide (s.k ≤ 32) && regsOk s.cregs &&
    (s.pregs == 0 || regsOk s.pregs) && decide (s.pwarps ≤ s.wpb) && (s.pwarps == 0) == (s.pregs == 0) &&
    decide (1 ≤ s.uwin) && decide (s.uwin ≤ 4) && decide (s.spad ≤ 640) && decide (s.bars ≤ 2048) && decide (1 ≤ s.bpc) &&
    decide (s.bpc ≤ 8) && (s.wdog == 0 || (decide (20 ≤ s.wdog) && decide (s.wdog ≤ 40)))
/-- The limits of a grid. -/
def Shape.gridOk (s : Shape) : Bool :=
  decide (1 ≤ s.gx) && decide (1 ≤ s.gy) && decide (1 ≤ s.gz) && s.gx % max 1 s.bpc == 0
/-- An entry address: canonical, bits [1:0] zero. -/
def entryOk (a : DWord) : Bool := canonical a && a.extractLsb' 0 2 == 0#2

/-- Warps of a block in index order: role and registers per lane; a unit's block is the surrogate's warps as producers
with the check's as consumers (R108, R121). -/
def warpsOf (s : Shape) (cons : Option Shape) : List (Bool × Nat) :=
  match cons with
  | some c => List.replicate s.wpb (true, s.cregs) ++ List.replicate c.wpb (false, c.cregs)
  | none => List.replicate s.pwarps (true, s.pregs) ++ List.replicate (s.wpb - s.pwarps) (false, s.cregs)

/-! ## Allocators -/

/-- Round up to a power of two, at most 2 ^ 20. -/
def pow2Up (n : Nat) : Nat := 2 ^ ((List.range 21).find? fun o => decide (n ≤ 2 ^ o)).getD 20
/-- KiB of registers of a warp (R124). -/
def vrKib (k regs : Nat) : Nat := pow2Up ((128 * k * regs + 1023) / 1024)
/-- KiB of scratchpad after rounding (R125). -/
def spKib (q : Nat) : Nat := if q = 0 then 0 else pow2Up ((q + 3) / 4 * 4)
/-- Barriers after rounding (R126). -/
def barUp (n : Nat) : Nat := if n = 0 then 0 else max 16 (pow2Up n)

/-- Lowest free buddy block of a size in [0, limit) (log 28). -/
def buddy (used : List (Nat × Nat)) (limit size : Nat) : Option Nat :=
  ((List.range (limit / size)).find? fun i =>
    used.all fun u => decide (u.1 + u.2 ≤ i * size) || decide (i * size + size ≤ u.1)).map (· * size)

/-- The distributor's view of a core: what is taken of it. -/
structure View where
  core  : Nat
  lanes : Nat
  slots : List Nat
  ctxs  : List Nat
  vr    : List (Nat × Nat)
  split : Nat
  sp    : List (Nat × Nat)
  bars  : List (Nat × Nat)
  deriving DecidableEq, Repr

/-- Where a block goes on a core. -/
structure Spot where
  core : Nat
  slot : Nat
  ctxs : List Nat
  vr   : List (Nat × Nat)
  split : Nat
  sp   : Nat × Nat
  bar  : Nat × Nat
  deriving DecidableEq, Repr

def View.empty (core : Nat) : View := ⟨core, 0, [], [], [], 128, [], []⟩

/-- Contexts for `n` warps: the lowest free one of the slot with the fewest resident warps (R121). -/
def takeCtxs : Nat → List Nat → Option (List Nat)
  | 0, _ => some []
  | n + 1, used =>
    let count (s : Nat) : Nat := (used.filter fun c => c % 4 == s).length
    let s := [1, 2, 3].foldl (fun b s => if count s < count b then s else b) 0
    match ((List.range 8).map fun j => s + 4 * j).find? fun c => !used.contains c with
    | none => none
    | some c => (takeCtxs n (c :: used)).map (c :: ·)

/-- Register blocks for warps of given sizes. -/
def takeRegs : List Nat → List (Nat × Nat) → Option (List (Nat × Nat))
  | [], _ => some []
  | z :: zs, used =>
    match buddy used 2048 z with
    | none => none
    | some o => (takeRegs zs ((o, z) :: used)).map ((o, z) :: ·)

/-- Scratchpad for a request, with the size of the scratchpad after any growth (R125). -/
def View.takeSp (v : View) (q : Nat) : Option (Nat × (Nat × Nat)) :=
  if q = 0 then some (v.split, (0, 0))
  else
    let z := spKib q
    let sizes := ((List.range 5).map fun j => 128 * (j + 1)).filter fun x => decide (v.split ≤ x)
    if 512 < z then
      if v.sp.isEmpty then (sizes.find? fun x => decide (q ≤ x)).map fun x => (x, (0, x)) else none
    else sizes.findSome? fun x => (buddy v.sp x z).map fun o => (x, (o, z))

/-- Does a block fit the core (R118), and where? -/
def View.fit (v : View) (s : Shape) (cons : Option Shape) : Option Spot :=
  let ws := warpsOf s cons
  let lanes := ws.length * 32 * s.k
  match (List.range 16).find? fun x => !v.slots.contains x with
  | none => none
  | some slot =>
    if 8192 < v.lanes + lanes then none
    else do
      let ctxs ← takeCtxs ws.length v.ctxs
      let vr ← takeRegs (ws.map fun w => vrKib s.k w.2) v.vr
      let (split, sp) ← v.takeSp s.spad
      let bar ← if s.bars = 0 then some 0 else buddy v.bars 2048 (barUp s.bars)
      some ⟨v.core, slot, ctxs, vr, split, sp, (bar, barUp s.bars)⟩

/-- Book a block. -/
def View.book (v : View) (t : Spot) (lanes : Nat) : View :=
  { v with
    lanes := v.lanes + lanes, slots := t.slot :: v.slots, ctxs := t.ctxs ++ v.ctxs, vr := t.vr ++ v.vr, split := t.split
    sp := if t.sp.2 = 0 then v.sp else t.sp :: v.sp, bars := if t.bar.2 = 0 then v.bars else t.bar :: v.bars }

/-- Lanes of a block. -/
def blockLanes (s : Shape) (cons : Option Shape) : Nat := (warpsOf s cons).length * 32 * s.k

/-- The core with the smallest LANES where a block fits, the lower number on a tie (R119). -/
def bestCore (vs : List View) (s : Shape) (cons : Option Shape) : Option (View × Spot) :=
  vs.foldl (fun b v =>
    match v.fit s cons with
    | none => b
    | some t => match b with
      | some (x, _) => if v.lanes < x.lanes then some (v, t) else b
      | none => some (v, t)) none

/-- Place `n` blocks of a cluster on some cores, each booked before the next (R119). -/
def fitCluster : Nat → List View → Shape → Option Shape → Option (List Spot)
  | 0, _, _, _ => some []
  | n + 1, vs, s, cons =>
    match bestCore vs s cons with
    | none => none
    | some (_, t) =>
      let vs := vs.map fun v => if v.core = t.core then v.book t (blockLanes s cons) else v
      (fitCluster n vs s cons).map (t :: ·)

/-- Does a shape meet a case of R50 in a partition: no ring, or no room even on an empty ring? -/
def Part.neverFits (p : Part) (s : Shape) (cons : Option Shape) : Bool :=
  p.rings.isEmpty || (fitCluster s.bpc ((List.range 8).map View.empty) s cons).isNone

/-- The view of a core for a function: its blocks and what has not been reported free (R117). -/
def Hw.view (h : Hw) (fn core : Nat) : View :=
  let f := h.fcore fn core
  let bs := h.blocks.filter fun e => bkFn e.1 == fn && e.2.core == core
  let ws := h.warps.filter fun e => wkFn e.1 == fn && (match h.block? (wkBlock e.1) with
    | some b => b.core == core
    | none => false)
  { core := core
    lanes := (bs.map fun e => 32 * e.2.shape.k * e.2.nWarps).sum + (f.ghosts.map (·.lanes)).sum
    slots := (bs.map fun e => bkSlot e.1 % 16) ++ f.ghosts.map (·.slot)
    ctxs := ws.map (·.2.ctx) ++ f.ghosts.flatMap (·.ctxs)
    vr := (ws.map fun e => (e.2.vrBase, e.2.vrSize)) ++ f.ghosts.flatMap (·.vr)
    split := f.split
    sp := ((bs.filter fun e => e.2.spBytes != 0).map fun e => (e.2.spBase / 1024, e.2.spBytes / 1024)) ++
      (f.ghosts.map (·.sp)).filter fun x => x.2 != 0
    bars := ((bs.filter fun e => e.2.shape.bars != 0).map fun e => (e.2.barBase, barUp e.2.shape.bars)) ++
      (f.ghosts.map (·.bar)).filter fun x => x.2 != 0 }

end Sys2Proof.Machine
end

