-- ==== Sys2Proof/Machine/Tags.lean ====
section
/-! DEFINITION. Sys2Proof/Machine/Tags.lean: TAGRD, TAGWR and TAGCHK (R95, R96, R403, R404). -/
namespace Sys2Proof.Machine

/-- The tile of a lane's address, translated as a read or as a store; the barrier alias lies in no allocation. -/
def Iss.tile (h : Hw) (e : Env) (q : Iss) (write : Bool) (va : DWord) : Except Stop Acc :=
  match Iss.locate h e q ⟨write, false⟩ va 1 with
  | .error c => .error (.at c va)
  | .ok (.alias_ _, _) => .error (.at cPROTECT va)
  | .ok (.mem pa, l) =>
    if write ∧ paKind pa ≠ .hbm then .error (.at cPROTECT va)
    else .ok ⟨0, va, 1, .mem pa, l⟩
  | .ok (loc, l) => .ok ⟨0, va, 1, loc, l⟩

/-- The tiles of the lanes' addresses, or the lowest failing lane's cause. -/
def Iss.tiles (h : Hw) (e : Env) (q : Iss) (write : Bool) (a : Use) : List Nat → Except Stop (List Acc)
  | [] => .ok []
  | n :: ns => do
    let t ← Iss.tile h e q write (q.w.read64 a n)
    let ts ← Iss.tiles h e q write a ns
    .ok ({ t with lane := n } :: ts)

/-- The tag of a tile (R86, R87). -/
def Hw.tagOf (h : Hw) (fn : Nat) : Loc → BitVec 16
  | .mem pa => h.tag pa
  | .scr core off => h.spTag fn core off
  | .alias_ _ => 0x1000#16
def Hw.setTagOf (h : Hw) (fn : Nat) (l : Loc) (t : BitVec 16) : Hw :=
  match l with
  | .mem pa => h.setTag pa t
  | .scr core off => h.setSpTag fn core off t
  | .alias_ _ => h

/-- TAGRD (R404). -/
def execTagrd (d a : RField) (x : Bool) (s : State) : Host.Outcome State Fault Refusal :=
  issue (.tagrd d a x) s fun e h q => do
    let ts ← Iss.tiles h e q false ((Use.srcC a x false).wide 2) q.lanes
    let val (n : Nat) : Word := match ts.find? fun t => t.lane == n with
      | some t => (h.tagOf q.fn t.loc).setWidth 32
      | none => 0#32
    q.put e (Use.dst d) (fun n => [val n]) (Iss.fill h q ts)

/-- TAGWR (R96, R404): every lane is checked before any tag is written; the highest lane of a tile stands. -/
def execTagwr (a b : RField) (x y : Bool) (s : State) : Host.Outcome State Fault Refusal :=
  issue (.tagwr a b x y) s fun e h q =>
    let tag (n : Nat) : BitVec 16 := (q.rb b y n).extractLsb' 0 16
    let user := q.w.mode = .user
    if q.lanes.any fun n => !tagOk (tag n) then .error (.plain cILLEGAL)
    else if user ∧ (q.lanes.any fun n => decide (2 ≤ tagSt (tag n))) = true then .error (.plain cPRIV)
    else do
      let ts ← Iss.tiles h e q true ((Use.srcC a x false).wide 2) q.lanes
      match (if user then ts.find? fun t => decide (2 ≤ tagSt (h.tagOf q.fn t.loc)) else none) with
      | some t => .error (.at cPRIV t.va)
      | none => .ok (ts.foldl (fun h t => h.setTagOf q.fn t.loc (tag t.lane)) (Iss.fill h q ts))

/-- TAGCHK (R96, R404). -/
def execTagchk (a b : RField) (x y : Bool) (s : State) : Host.Outcome State Fault Refusal :=
  issue (.tagchk a b x y) s fun e h q => do
    let ts ← Iss.tiles h e q false ((Use.srcC a x false).wide 2) q.lanes
    let bad (t : Acc) : Bool :=
      let v := q.rb b y t.lane
      (h.tagOf q.fn t.loc ^^^ v.extractLsb' 0 16) &&& v.extractLsb' 16 16 != 0#16
    match ts.find? bad with
    | some t => .error (.at cTAGMISMATCH (t.va &&& 0xFFFFFFFFFFFFF000#64))
    | none => .ok (Iss.fill h q ts)

end Sys2Proof.Machine
end

