-- ==== Sys2Proof/Machine/Lookup.lean ====
section
/-! DEFINITION. Sys2Proof/Machine/Lookup.lean: addresses that the device translates for a command (R49), the method and
conversion tables (R97, R98), one lookup (R99 to R103, R106), the launch of a routine with its conversions (R91, R104,
R105), MDISP and SETMT (R405, R426). -/
namespace Sys2Proof.Machine

/-! ## Addresses the device uses for a function (R49, R100) -/

/-- Core number under which the device itself translates: it has no cache of translations. -/
def frontEnd : Nat := 1000

/-- Place of [va, va + n), which lies in one page, in a function's context; `cmd` for a command's address, which meets
HA and the host window as well (R49). A scratchpad address has no place here. -/
def Hw.devAt (h : Hw) (e : Env) (f : Nat) (cmd write : Bool) (va : DWord) (n : Nat) : Option (Nat × Leaf) :=
  if isScr va then none
  else match h.translate e frontEnd (ctxOf f) ⟨write, false, decide (320 ≤ f), cmd⟩ va with
    | .error _ => none
    | .ok (l, pa) =>
      if paKind pa = .internal ∨ (cmd ∧ paKind pa = .host ∧ ¬ h.inWindow f (BitVec.ofNat 64 (pa - 0x8000000000000)) n) then
        none
      else some (pa, l)

/-- Cut a range at the boundaries of 64 KiB, the smallest page. -/
def cutPages : Nat → DWord → Nat → List (DWord × Nat)
  | 0, _, _ => []
  | k + 1, a, n =>
    if n = 0 then []
    else
      let m := min n (65536 - a.toNat % 65536)
      (a, m) :: cutPages k (addrOff a m) (n - m)

/-- Places of a whole range, none where some part has none. -/
def Hw.devRange (h : Hw) (e : Env) (f : Nat) (cmd write : Bool) (va : DWord) (n : Nat) : Option (List (Nat × Nat)) :=
  (cutPages (n / 65536 + 2) va n).mapM fun x => (h.devAt e f cmd write x.1 x.2).map fun p => (p.1, x.2)

/-- Bytes of a range, as their homes hold them. -/
def Hw.devRead (h : Hw) (e : Env) (f : Nat) (cmd : Bool) (va : DWord) (n : Nat) : Option (List Byte) :=
  (h.devRange e f cmd false va n).map fun l => l.flatMap fun x => h.bytes e x.1 x.2

/-! ## Entries (Tables 4.7, 4.8) -/

structure Method where
  op      : Nat
  nops    : Nat
  v       : Bool
  outmask : Nat
  outtag  : BitVec 16
  keys    : List Word
  shape   : Shape
  tpb     : Nat
  deriving DecidableEq, Repr

structure Conv where
  pat   : BitVec 16
  mask  : BitVec 16
  tag   : BitVec 16
  op    : Nat
  v     : Bool
  deriving DecidableEq, Repr

/-- A method entry from its 64 bytes. -/
def Method.of (bs : List Byte) : Method :=
  let f (k n w : Nat) : Nat := bytesNat bs k n % 2 ^ w
  { op := f 0 2 12, nops := bytesNat bs 0 2 / 4096 % 8, v := (bs.getD 1 0#8).getLsbD 7, outmask := f 2 1 4
    outtag := BitVec.ofNat 16 (bytesNat bs 4 2)
    keys := (List.range 4).map fun i => BitVec.ofNat 32 (bytesNat bs (8 + 4 * i) 4)
    shape := { entry := BitVec.ofNat 64 (bytesNat bs 24 8), params := 0#64, gx := 1, gy := 1, gz := 1, wpb := f 32 1 6
               k := f 33 1 6, cregs := f 34 2 9, pregs := f 36 2 9, pwarps := f 38 1 6, uwin := f 39 1 3, spad := f 40 2 10
               bars := f 42 2 12, bpc := f 44 1 4, wdog := f 45 1 6 }
    tpb := bytesNat bs 48 2 }

/-- A conversion entry from its 16 bytes. -/
def Conv.of (bs : List Byte) : Conv :=
  { pat := BitVec.ofNat 16 (bytesNat bs 0 2), mask := BitVec.ofNat 16 (bytesNat bs 2 2)
    tag := BitVec.ofNat 16 (bytesNat bs 4 2), op := bytesNat bs 6 2 % 4096, v := (bs.getD 7 0#8).getLsbD 7 }

/-- Has a method image a nonzero bit that Table 4.7 does not name? -/
def methodRsv (bs : List Byte) : Bool :=
  bytesNat bs 2 1 / 16 != 0 || bytesNat bs 3 1 != 0 || bytesNat bs 6 2 != 0 || bytesNat bs 32 1 / 64 != 0 ||
    bytesNat bs 33 1 / 64 != 0 || bytesNat bs 34 2 / 512 != 0 || bytesNat bs 36 2 / 512 != 0 || bytesNat bs 38 1 / 64 != 0 ||
    bytesNat bs 39 1 / 8 != 0 || bytesNat bs 40 2 / 1024 != 0 || bytesNat bs 42 2 / 4096 != 0 || bytesNat bs 44 1 / 16 != 0 ||
    bytesNat bs 45 1 / 64 != 0 || bytesNat bs 46 2 != 0 || bytesNat bs 50 14 != 0
/-- The same for a conversion image (Table 4.8). -/
def convRsv (bs : List Byte) : Bool := bytesNat bs 6 2 / 4096 % 8 != 0 || bytesNat bs 8 8 != 0

def Part.pmtN (p : Part) : Nat := min p.pmtcnt 4096
def Part.pcvN (p : Part) : Nat := min p.pcvcnt 256

/-- The method entry at an index, as the table stands. -/
def Hw.method (h : Hw) (e : Env) (p : Part) (i : Nat) : Method := .of (h.bytes e (p.pmtbase.toNat + 64 * i) 64)
def Hw.conv (h : Hw) (e : Env) (p : Part) (i : Nat) : Conv := .of (h.bytes e (p.pcvbase.toNat + 16 * i) 16)

/-- Does a table lie in owned channels, unpoisoned (R97)? -/
def Hw.tableOk (h : Hw) (p : Part) (base n : Nat) : Bool :=
  (List.range ((n + 127) / 128)).all fun k => p.ownsAddr (base + 128 * k) && !h.poison.contains (lineOf (base + 128 * k))

/-! ## SETMT (R98, R426) -/

/-- Checks 2 to 6 of Table 4.9 on a method image. -/
def methodCode (bs : List Byte) : Nat :=
  let m := Method.of bs
  if methodRsv bs then 2
  else if !tagOk m.outtag || tagSt m.outtag != 0 then 3
  else if m.nops = 0 ∨ 4 < m.nops ∨ m.outmask = 0 ∨ 2 ^ m.nops ≤ m.outmask then 4
  else if !m.shape.inLimits || m.tpb == 0 then 5
  else if !entryOk m.shape.entry then 6
  else 0
/-- Checks 2 and 3 on a conversion image. -/
def convCode (bs : List Byte) : Nat :=
  let c := Conv.of bs
  if convRsv bs then 2 else if !tagOk c.tag || tagSt c.tag != 0 then 3 else 0

/-- SETMT: an image with V 0 passes every check after code 1 and removes the entry (log 42). Where the entry's own bytes lie
outside the partition's channels, code 0 comes back and nothing is written (DESIGN CHOICE: R98 does not name this case; log
42). -/
def execSetmt (d a : RField) (s : State) : Host.Outcome State Fault Refusal :=
  issue (.setmt d a) s fun e h q =>
    let va := q.grp a 1 ++ q.grp a 0
    let idx := ((q.grp a 2).extractLsb' 0 12).toNat
    let isConv := (q.grp a 2).getLsbD 31
    let n := if isConv then 16 else 64
    let pn := h.partOf q.fn
    let p := h.part pn
    match Iss.locate h e q ⟨false, false⟩ va n with
    | .error c => .error (.at c va)
    | .ok (loc, leaf) =>
      match Iss.recordStop h q ⟨q.lane0, va, n, loc, leaf⟩ with
      | some c => .error c
      | none =>
        let h0 := h
        let (h, bs) := Iss.readHome h e q false ⟨q.lane0, va, n, loc, leaf⟩
        let v := (bs.getD (if isConv then 7 else 1) 0#8).getLsbD 7
        let code := if (if isConv then p.pcvN else p.pmtN) ≤ idx then 1
          else if !v then 0 else if isConv then convCode bs else methodCode bs
        let at_ := (if isConv then p.pcvbase else p.pmtbase).toNat + n * idx
        let h := if code = 0 ∧ p.ownsAddr at_ = true then
            h.deviceWrite at_ (if v then bs else List.replicate n 0#8)
          else h
        q.putAfter e h0 (Use.dst d) (fun _ => [BitVec.ofNat 32 code]) 0 h

/-! ## Lookup -/

/-- An operand of a lookup: its descriptor, its record with the effective format and key tag, its buffer. -/
structure Operand where
  desc : DWord
  rec_ : Rec
  fmt  : Nat
  key  : BitVec 16
  buf  : Option (Rec × Nat × BitVec 16)
  deriving DecidableEq, Repr

/-- Why a lookup ends without an entry, or what it found: the entry's index and form, the operands, and for each operand
the index and form of the method entry that converts it. -/
inductive Found where
  | noMethod (reason operand : Nat) (keys : List (BitVec 16))
  | bad (status : Nat)
  | entry (i : Nat) (m : Method) (ops : List Operand) (steps : List (Option (Nat × Method)))
  deriving DecidableEq, Repr

/-- A layout record of a descriptor, with its effective format and the tag at its base: malformed with a scratchpad base
(R100). -/
def Hw.operandRec (h : Hw) (e : Env) (f : Nat) (cmd : Bool) (bs : List Byte) : Except Nat (Rec × Nat × BitVec 16) :=
  let r := Rec.of (BitVec.ofNat 512 (leNat bs))
  if isScr r.base ∨ r.bad (if r.fmt = 0 then 1 else r.fmt) = true ∧ r.fmt ≠ 0 then .error stBADFIELD
  else match h.devAt e f cmd false r.base 1 with
    | none => .error stADDR
    | some (pa, l) =>
      let g := r.effFmt l.fcls
      if r.bad g then .error stBADFIELD else .ok (r, g, h.tag pa)

/-- One operand (R100). -/
def Hw.operand (h : Hw) (e : Env) (f : Nat) (cmd : Bool) (d : DWord) : Except Nat Operand :=
  if d.toNat % 128 ≠ 0 then .error stADDR
  else match h.devRead e f cmd d 128 with
    | none => .error stADDR
    | some bs => do
      let (r, g, t) ← h.operandRec e f cmd (bs.take 64)
      if (bs.drop 64).all (· == 0#8) then .ok ⟨d, r, g, t, none⟩
      else
        let b ← h.operandRec e f cmd (bs.drop 64)
        .ok ⟨d, r, g, t, some b⟩

/-- Does an entry's key match a tag (R101)? -/
def Method.matches_ (m : Method) (i : Nat) (t : BitVec 16) : Bool :=
  let k := m.keys.getD i 0#32
  (t ^^^ k.extractLsb' 0 16) &&& k.extractLsb' 16 16 == 0#16

/-- The conversion step of operand i towards entry m (R102): the lowest usable conversion entry, and the lowest method
entry that runs it. -/
def stepFor (p : Part) (ms : List Method) (cs : List Conv) (m : Method) (i : Nat) (o : Operand) : Option (Nat × Method) :=
  match o.buf with
  | none => none
  | some (b, _, bt) =>
    cs.findSome? fun c =>
      if c.v && (o.key ^^^ c.pat) &&& c.mask == 0#16 && b.otag == c.tag && m.matches_ i c.tag then
        (ms.zipIdx.find? fun (x : Method × Nat) =>
          x.1.v && x.1.op == c.op && x.1.nops == 2 && x.1.outmask == 2 && x.1.matches_ 0 o.key && x.1.matches_ 1 bt &&
            x.1.outtag == c.tag && !p.neverFits x.1.shape none).map fun x => (x.2, x.1)
      else none

/-- The steps of all operands, none where one has neither a match nor a step. -/
def stepsFor (p : Part) (ms : List Method) (cs : List Conv) (m : Method) (ops : List Operand) :
    Option (List (Option (Nat × Method))) :=
  ops.zipIdx.mapM fun (x : Operand × Nat) =>
    if m.matches_ x.2 x.1.key then some none else (stepFor p ms cs m x.2 x.1).map some

/-- The choice of R103: fewest conversions, then the lowest index. -/
def bestEntry (p : Part) (ms : List Method) (cs : List Conv) (op : Nat) (ops : List Operand) :
    Option (Nat × Method × List (Option (Nat × Method))) :=
  ms.zipIdx.foldl (fun b (x : Method × Nat) =>
    if x.1.v && x.1.op == op && x.1.nops == ops.length && !p.neverFits x.1.shape none then
      match stepsFor p ms cs x.1 ops with
      | none => b
      | some ss =>
        let n := (ss.filter (·.isSome)).length
        match b with
        | some (_, _, old) => if n < (old.filter (·.isSome)).length then some (x.2, x.1, ss) else b
        | none => some (x.2, x.1, ss)
    else b) none

/-- First tile address and tile count of a record's tensor (R105). -/
def Rec.tileSpan (r : Rec) (f : Nat) : Nat × Nat :=
  let last : List Int := r.ext.map fun (x : Nat) => (x : Int) - 1
  let z := if r.lay = 2 then (f - 0x10) * planeBytes r.spar + indexBytes r.spar else elemSize f
  let b := r.base.toNat
  (b / 4096 * 4096, (b + r.offset f last + z - 1) / 4096 - b / 4096 + 1)

/-- Runs of adjacent bytes, as offset from BASE and length, that the elements of a record take, before any swizzle (R249). -/
def Rec.runs (r : Rec) (f : Nat) : List (Nat × Nat) :=
  let x (k : Nat) : Nat := Rec.dim r.ext k
  let z := if r.lay = 2 then (f - 0x10) * planeBytes r.spar + indexBytes r.spar else elemSize f
  let (fixed, len) := if r.lay = 1 then ([x 0, 1], x 1 * z) else ([1, x 1], x 0 * z)
  (boxCoords (fixed ++ [x 2, x 3])).map fun c =>
    (Rec.offset (if r.lay = 3 then { r with lay := 0 } else r) f (c.map fun (n : Nat) => (n : Int)), len)

/-- Do runs cover [lo, hi)? -/
def coveredBy (runs : List (Nat × Nat)) : Nat → Nat → Nat → Bool
  | 0, lo, hi => decide (hi ≤ lo)
  | n + 1, lo, hi =>
    decide (hi ≤ lo) || match runs.find? fun r => decide (r.1 ≤ lo) && decide (lo < r.1 + r.2) with
      | some r => coveredBy runs n (r.1 + r.2) hi
      | none => false

/-- Do the elements of a record take every byte of the tile at `t` (R91)? In a swizzled layout a byte is looked up chunk by
chunk, the swizzle being its own inverse. -/
def Rec.fillsTile (r : Rec) (f t : Nat) : Bool :=
  let b := r.base.toNat
  let o := t - b
  let runs := r.runs f
  decide (b ≤ t) && if r.lay = 3 then
      let first := o / 16
      (List.range (4096 / 16 + 1)).all fun k =>
        let lo := max o (16 * (first + k))
        let hi := min (o + 4096) (16 * (first + k + 1))
        let lo' := swizzle r.swz lo
        decide (hi ≤ lo) || coveredBy runs 16 lo' (lo' + (hi - lo))
    else coveredBy runs 4096 o (o + 4096)

/-- The record an operand is served by: its buffer where a conversion is inserted. -/
def Operand.served (o : Operand) (step : Bool) : Rec × Nat :=
  match o.buf with
  | some (b, g, _) => if step then (b, g) else (o.rec_, o.fmt)
  | none => (o.rec_, o.fmt)

/-- Records that an entry with its steps writes: the operands in OUTMASK, as served. -/
def outRecs (m : Method) (l : List (Rec × Nat)) : List (Rec × Nat) :=
  l.zipIdx.filterMap fun (x : (Rec × Nat) × Nat) => if m.outmask.testBit x.2 then some x.1 else none

/-- Are all tiles of a record mapped and writable? -/
def Hw.tilesWritable (h : Hw) (e : Env) (f : Nat) (cmd : Bool) (r : Rec × Nat) : Bool :=
  let (base, n) := r.1.tileSpan r.2
  (List.range n).all fun k => (h.devAt e f cmd true (BitVec.ofNat 64 (base + 4096 * k)) 4096).isSome

/-- One lookup, its checks in the order of R103; `bad` says that MDISP's task record is malformed. -/
def Hw.lookup (h : Hw) (e : Env) (f : Nat) (cmd bad : Bool) (op : Nat) (descs : List DWord) : Found :=
  let p := h.part (h.partOf f)
  if !(h.tableOk p p.pmtbase.toNat (64 * p.pmtN) && h.tableOk p p.pcvbase.toNat (16 * p.pcvN)) then .noMethod 4 0 []
  else if bad then .bad stBADFIELD
  else match descs.mapM (h.operand e f cmd) with
    | .error st => .bad st
    | .ok ops =>
      let keys := ops.map (·.key)
      match ops.findIdx? fun o => tagSt o.key == 3 with
      | some i => .noMethod 2 i keys
      | none =>
        let ms := (List.range p.pmtN).map (h.method e p)
        let cs := (List.range p.pcvN).map (h.conv e p)
        match bestEntry p ms cs op ops with
        | none => .noMethod 1 0 keys
        | some (i, m, ss) =>
          let served := (ops.zip ss).map fun x => x.1.served x.2.isSome
          let bufs := (ops.zip ss).filterMap fun x => if x.2.isSome then some (x.1.served true) else none
          if (outRecs m served ++ bufs).all (h.tilesWritable e f cmd) then .entry i m ops ss else .bad stADDR

/-- Count a NOMETHOD event (Table 4.6). -/
def Hw.countNoMethod (h : Hw) (p : Nat) : Hw := h.onPart p fun x => { x with pnometh := (x.pnometh + 1) % 2 ^ 32 }

/-! ## Launches of routines and conversions (R91, R104, R105) -/

/-- Add a grid in dispatch order. -/
def Hw.addGrid (h : Hw) (g : Grid) : Hw × Nat := ({ h with nextId := h.nextId + 1, grids := h.grids ++ [(h.nextId, g)] }, h.nextId)

/-- A grid of a shape with nothing special about it. -/
def Grid.plain (kind : GridKind) (f seq : Nat) (gridid : DWord) (s : Shape) : Grid :=
  { kind := kind, fn := f, seq := seq, gridid := gridid, shape := s, cons := none, startAt := none, next := 0
    total := s.gx * s.gy * s.gz, freed := 0, cause := 0, waitSince := none, limited := false, outs := []
    waits := [], next_ := none, exitF := [], descs := [], task := 0#32, unit := none }

/-- Plan a placement attempt for a partition. -/
def Hw.place (h : Hw) (p : Nat) : Hw := h.planOnce .blockPlacement { Occasion.none with unit := p }

/-- A tag-setting grid takes its tiles (R91). -/
def Hw.takeTiles (h : Hw) (ts : List Nat) : Hw :=
  ts.foldl (fun h t => h.setTag (4096 * t) (withSt (h.tag (4096 * t)) 2)) h

/-- The grid of a method entry: x from the tiles of the lowest operand it writes (R105); its outputs are the tiles that the
records it writes fill wholly, each with its tag (R91): a store into any other tile is an ordinary one. -/
def Hw.methodGrid (h : Hw) (e : Env) (kind : GridKind) (f seq : Nat) (cmd : Bool) (gridid : DWord) (i nconv : Nat)
    (m : Method) (descs : List DWord) (recs : List (Rec × Nat)) : Grid :=
  let outs := outRecs m recs
  let t := match outs with
    | r :: _ => (r.1.tileSpan r.2).2
    | [] => 0
  let b := max 1 m.shape.bpc
  let x := ((t + max 1 m.tpb - 1) / max 1 m.tpb + b - 1) / b * b
  let tiles := outs.flatMap fun r =>
    let s := r.1.tileSpan r.2
    ((List.range s.2).filter fun k => r.1.fillsTile r.2 (s.1 + 4096 * k)).filterMap fun k =>
      (h.devAt e f cmd false (BitVec.ofNat 64 (s.1 + 4096 * k)) 4096).map fun p => (tileOf p.1, m.outtag)
  { Grid.plain kind f seq gridid { m.shape with gx := x } with
    outs := tiles, descs := descs
    task := BitVec.ofNat 32 (i + 4096 * nconv) }

/-- Launch what a lookup found: the conversions take their tiles now; the routine takes its own when the last of them
has completed, at once where there is none. -/
def Hw.launchFound (h : Hw) (e : Env) (f seq : Nat) (cmd : Bool) (gridid : DWord) (i : Nat) (m : Method)
    (ops : List Operand) (ss : List (Option (Nat × Method))) : Hw :=
  let pairs := ops.zip ss
  let n := (ss.filter (·.isSome)).length
  let descs := pairs.map fun x => if x.2.isSome then x.1.desc + 64#64 else x.1.desc
  let routine := h.methodGrid e .routine f seq cmd gridid i n m descs (pairs.map fun x => x.1.served x.2.isSome)
  let rid := h.nextId + n
  let (h, ids) := pairs.foldl (fun (a : Hw × List Nat) x =>
    match x.2 with
    | none => a
    | some (ci, cm) =>
      let g := { (a.1.methodGrid e .conversion f seq cmd gridid ci 0 cm [x.1.desc, x.1.desc + 64#64]
        [x.1.served false, x.1.served true]) with next_ := some rid }
      let (h, id) := (a.1.takeTiles (g.outs.map (·.1))).addGrid g
      (h, a.2 ++ [id])) (h, [])
  let h := if ids.isEmpty then h.takeTiles (routine.outs.map (·.1)) else h
  ((h.addGrid { routine with waits := ids }).1).place (h.partOf f)

/-! ## MDISP (R100, R106, R405) -/

/-- Is MDISP's task record malformed (R100)? A nonzero byte of REASON, KEYTAG or SEQ, which only a handler's copy uses, makes it
so (DESIGN CHOICE: R100 does not say; log 42). -/
def taskRecBad (bs : List Byte) : Bool :=
  let n := bytesNat bs 0 2 / 4096 % 8
  let d (i : Nat) : Nat := bytesNat bs (8 + 8 * i) 8
  decide (2 ^ 15 ≤ bytesNat bs 0 2) || bytesNat bs 2 6 != 0 || bytesNat bs 40 24 != 0 || n == 0 || decide (4 < n) ||
    (List.range 4).any fun i => if i < n then d i == 0 || d i % 128 != 0 else d i != 0

/-- NOMETHOD at MDISP: TRAPA the record's address. -/
def noMethodStop (h : Hw) (p : Nat) (va : DWord) (reason operand : Nat) : Stop :=
  .trapFrom (h.countNoMethod p) (BitVec.ofNat 64 cNOMETHOD) va (some (BitVec.ofNat 64 (reason + 256 * operand))) 0#64

/-- MDISP: d takes the task word at issue. -/
def execMdisp (d a : RField) (x : Bool) (s : State) : Host.Outcome State Fault Refusal :=
  issue (.mdisp d a x) s fun e h q =>
    let va := q.w.read64 ((Use.srcC a x false).wide 2) q.lane0
    let pn := h.partOf q.fn
    match Iss.locate h e q ⟨false, false⟩ va 64 with
    | .error c => .error (.at c va)
    | .ok (loc, leaf) =>
      match Iss.recordStop h q ⟨q.lane0, va, 64, loc, leaf⟩ with
      | some c => .error c
      | none =>
        let (h1, bs) := Iss.readHome h e q false ⟨q.lane0, va, 64, loc, leaf⟩
        let n := bytesNat bs 0 2 / 4096 % 8
        let descs := (List.range n).map fun i => BitVec.ofNat 64 (bytesNat bs (8 + 8 * i) 8)
        match h1.lookup e q.fn false (taskRecBad bs) (bytesNat bs 0 2 % 4096) descs with
        | .noMethod r i _ => .error (noMethodStop h pn va r (if r = 2 then i else 0))
        | .bad _ => .error (noMethodStop h pn va 3 0)
        | .entry i m ops ss =>
          let k := (h1.fn q.fn).gridCount
          let h1 := h1.onFn q.fn fun f => { f with gridCount := k + 1 }
          let h1 := h1.launchFound e q.fn 0 false (BitVec.ofNat 64 (k % 2 ^ 48 + 2 ^ 63)) i m ops ss
          q.putAfter e h (Use.dst d) (fun _ => [BitVec.ofNat 32 (i + 4096 * (ss.filter (·.isSome)).length)]) 0 h1

end Sys2Proof.Machine
end

