-- ==== Sys2Proof/Machine/Grids.lean ====
section
/-! DEFINITION. Sys2Proof/Machine/Grids.lean: RESID and GCHK (R111, R408), and the end of blocks, grids, routines, units
and exact kernels (R91, R104, R112 to R114, R117, R123, R218). -/
namespace Sys2Proof.Machine

/-! ## Guarded units -/

/-- res := max(res, |x|) on FP32 bits; a NaN stays (R111). -/
def residOf (nbv : Nat) (res x : Word) : Word :=
  let m := (Fmt.fp32.flushIn nbv x.toNat) % 2 ^ 31
  if 0x7F800000 < res.toNat then res
  else if 0x7F800000 < m then 0x7FC00000#32
  else if res.toNat < m then BitVec.ofNat 32 m else res

/-- RESID (R111, R408). The warps of a unit's exact kernel change its residual too (DESIGN CHOICE: R111 names the unit's blocks
only; log 43). -/
def execResid (i : Bool) (a : RField) (x : Bool) (s : State) : Host.Outcome State Fault Refusal :=
  issue (.resid i a x) s fun _ h q =>
    match h.unitOf q.b with
    | none => .error (.plain cILLEGAL)
    | some u =>
      .ok (h.onUnit u fun g =>
        if g.sealed then g
        else { g with res := q.lanes.foldl (fun r n => residOf q.w.nbv.toNat r (q.ra a x i n)) g.res })

/-- The verdict of the seal: res at most GTOL, which a NaN is not. -/
def GUnit.seal (g : GUnit) : GUnit :=
  if g.sealed then g
  else { g with
    sealed := true, verdict := decide (g.res.toNat ≤ 0x7F800000) && decide (g.res.toNat ≤ g.gtol.toNat % 2 ^ 31) }

/-- GCHK (R111, R408); in a unit's exact kernel it seals the unit's residual as well (DESIGN CHOICE; log 43). -/
def execGchk (p : BitVec 3) (s : State) : Host.Outcome State Fault Refusal :=
  issue (.gchk p) s fun _ h q =>
    match h.unitOf q.b with
    | none => .error (.plain cILLEGAL)
    | some u =>
      let h := h.onUnit u GUnit.seal
      let v := match Tab.find? h.units u with
        | some g => g.verdict
        | none => false
      .ok (h.onWarp q.wk fun w => w.setP p.toNat q.lanes fun _ => v)

/-! ## The end of a block (R117, R123, R218) -/

/-- A block's exit frontier: F with F[s] at its final c. -/
def Block.exitFrontier (b : Block) (slot : Nat) : Tab Nat := putMax b.front slot b.c

/-- What a freed block leaves until its core reports. -/
def Hw.ghostOf (h : Hw) (bk : Nat) (b : Block) : Ghost :=
  let ws := h.warpsOf bk
  { slot := bkSlot bk % 16, lanes := 32 * b.shape.k * b.nWarps, ctxs := ws.map (·.2.ctx)
    vr := ws.map fun w => (w.2.vrBase, w.2.vrSize), sp := (b.spBase / 1024, b.spBytes / 1024)
    bar := (b.barBase, barUp b.shape.bars) }

/-- Remove a block with its warps and what was in flight for them. -/
def Hw.removeBlock (h : Hw) (bk : Nat) : Hw :=
  { h with
    blocks := Tab.del h.blocks bk
    warps := Tab.keep (fun k _ => wkBlock k != bk) h.warps
    flights := Tab.keep (fun _ (f : Flight) => wkBlock f.wk != bk) h.flights }

def Hw.dropGrid (h : Hw) (g : Nat) : Hw := { h with grids := h.grids.filter fun e => e.1 != g }

/-- A command's grid or unit has ended with a cause, 0 for none: the first cause stands, and the last end ends the
command (R114, R123). -/
def Hw.partEnded (h : Hw) (e : Env) (f seq cause : Nat) : Hw :=
  match Tab.find? (h.fn f).cmds seq with
  | none => h
  | some c =>
    let cause := if c.cause = 0 then cause else c.cause
    if c.left ≤ 1 then h.endCommand e f seq (if cause = 0 then stOK else stFAULTED) cause
    else h.onQCmd f seq fun c => { c with left := c.left - 1, cause := cause }

/-- What follows when a block of a grid has been freed. -/
def Hw.gridStep (h : Hw) (e : Env) (gid : Nat) (g : Grid) (unit : Option Nat) : Hw :=
  let o : Occasion := { Occasion.none with unit := gid }
  let last := decide (g.total ≤ g.freed)
  match g.kind with
  | .launch => if last then (h.dropGrid gid).partEnded e g.fn g.seq g.cause else h
  | .routine => if last then h.plan .routineEnd o else h
  | .conversion => if last then h.plan .routineEnd o else h
  | .exact => if last then h.planOn .exactKernelEnd (g.unit.getD 0) else h
  | .units =>
    let h := match unit with
      | some u => match Tab.find? h.units u with
        | some x => if g.shape.bpc ≤ x.ends.length then h.planOn .unitCommit u else h
        | none => h
      | none => h
    if last then h.dropGrid gid else h

/-- BLOCK_FREE: the block of function `unit` in slot `id`, all of whose warps have ended and whose engine commands have
completed. The stores of a conversion, unit or exact kernel are written back, so that what the device orders after
them sees them (log 43). -/
def blockFree (e : Env) (h : Hw) : Hw :=
  let f := h.occ.unit
  let slot := h.occ.id
  let bk := bkOf f slot
  match h.block? bk with
  | none => h
  | some b =>
    if !h.blockDone bk || h.cmds.any (fun c => wkBlock c.2.wk == bk) then h
    else
      let ghost := h.ghostOf bk b
      let h := h.onFCore f b.core fun c => { c with ghosts := ghost :: c.ghosts }
      let h := h.onFn f fun x => { x with race := { x.race with ctr := Tab.put x.race.ctr slot b.c } }
      let h := (h.removeBlock bk).planOnce .resourceReport { Occasion.none with unit := f, id := b.core }
      match h.grid? b.grid with
      | none => h.moved
      | some g =>
        let h := if g.kind = .launch ∨ g.kind = .routine then h else h.writeBack b.core (ctxOf f)
        let h := match b.unit with
          | some u => h.onUnit u fun x => { x with ends := x.ends ++ [(bk, b)], faulted := x.faulted || b.killed }
          | none => h
        let g := { g with
          freed := g.freed + 1, cause := if g.cause = 0 then b.cause else g.cause
          exitF := if g.kind = .conversion ∨ g.kind = .exact then Tab.maxMerge g.exitF (b.exitFrontier slot) else g.exitF }
        ((h.onGrid b.grid fun _ => g).gridStep e b.grid g b.unit).moved

/-- BLOCK_FREE (R123). -/
def execBlockFree (s : State) : Host.Outcome State Fault Refusal := s.event blockFree

/-! ## Tiles at a tag-setting grid's end (R91) -/

/-- Tiles still converting take their tag, or are poisoned. -/
def Hw.settleGrid (h : Hw) (ts : List (Nat × BitVec 16)) (ok : Bool) : Hw :=
  ts.foldl (fun h t =>
    let old := h.tag (4096 * t.1)
    if tagSt old = 2 then h.setTag (4096 * t.1) (if ok then withSt t.2 0 else withSt old 3) else h) h

/-- ROUTINE_END: grid `unit`, a routine or a conversion whose last block has been freed. The last conversion of a routine
hands it their exit frontiers and starts it (R104). -/
def routineEnd (e : Env) (h : Hw) : Hw :=
  let gid := h.occ.unit
  match h.grid? gid with
  | none => h
  | some g =>
    if g.freed < g.total then h
    else
      let h := (h.settleGrid g.outs (decide (g.cause = 0))).dropGrid gid
      let h := match g.next_ with
        | some n =>
          let h := h.onGrid n fun r =>
            { r with waits := r.waits.filter (· != gid), exitF := Tab.maxMerge r.exitF g.exitF }
          match h.grid? n with
          | some r => if r.waits.isEmpty then h.takeTiles (r.outs.map fun (t : Nat × BitVec 16) => t.1) else h
          | none => h
        | none => h
      (h.partEnded e g.fn g.seq g.cause).place (h.partOf g.fn)

/-- ROUTINE_END (R91, R104, R105). -/
def execRoutineEnd (s : State) : Host.Outcome State Fault Refusal := s.event routineEnd

/-! ## The end of a unit (R112, R113) -/

/-- The status word (Table 4.13). -/
def GUnit.statusWord (g : GUnit) : Nat :=
  g.outcome % 256 + g.ecause % 256 * 2 ^ 8 + (if g.sealed then g.res.toNat else 0x7FC00000) * 2 ^ 32

/-- The status word is written as a device-scope release made by no party, its record the given frontier. -/
def Hw.writeStatus (h : Hw) (e : Env) (g : GUnit) (front : Tab Nat) : Hw :=
  if g.status = 0 then h
  else match h.devAt e g.fn true true (BitVec.ofNat 64 g.status) 8 with
    | none => h
    | some (pa, _) =>
      let r : RelRec := { fn := g.fn, snap := front, row := none, intra := [], scope := .device, block := 2 ^ 60, gen := 0, cluster := 0, recycled := false }
      let h := (h.deviceWrite pa (natLe 8 g.statusWord)).upkeep [] pa
      (h.attach (.mem (wordOf pa)) r false).attach (.mem (wordOf pa + 1)) r false

/-- The claim that a guarded record makes at the merge: its party and interval, ordered as its block was at its end. -/
def GUnit.claim (g : GUnit) (r : Mark) : Claim :=
  match List.find? (fun (x : Nat × Block) => bkSlot x.1 == r.slot) g.ends with
  | some (_, b) => ⟨r.party, r.slot, b.st, r.intv, b.front, b.row r.widx, r.cls, r.w, r.pc⟩
  | none => ⟨r.party, r.slot, 0, r.intv, [], [], r.cls, r.w, r.pc⟩

/-- Does a guarded record conflict with the live marks at its word's home? -/
def Hw.mergeConflict (h : Hw) (g : GUnit) : Bool :=
  g.gmarks.any fun x => h.checks (ctxOf g.fn) (.mem x.1) &&
    x.2.records.any fun r => ((g.claim r).conflict (h.marksAt (.mem x.1))).isSome

/-- Frontier of a unit's ended blocks. -/
def GUnit.exitFrontier (g : GUnit) : Tab Nat :=
  g.ends.foldl (fun t x => Tab.maxMerge t (x.2.exitFrontier (bkSlot x.1))) []

/-- Commit the guarded bytes and marks (R112 step 1). -/
def Hw.commitGuard (h : Hw) (u : Nat) (g : GUnit) : Hw :=
  let ctx := ctxOf g.fn
  let h := g.gmarks.foldl (fun h x => x.2.records.reverse.foldl (fun h r =>
    if h.checks ctx (.mem x.1) then h.install ctx (.mem x.1) (g.claim r)
    else if r.w then h.setMarks (.mem x.1) WordMarks.none else h) h) h
  let h := g.gmem.foldl (fun h (x : Host.Cell) => (h.putByte x.1 x.2).triggerMem x.1 1) h
  (g.gmem.map fun x => wordOf x.1).eraseDups.foldl (fun h w =>
    let k := guardKey u w
    match h.recAt (.mem k) with
    | some r => (h.dropRec (.mem k)).attach (.mem w) r false
    | none => h.dropRec (.mem w)) h

/-- The guarded lines, their marks and release records are gone, and the reservation is free (R109, R112). -/
def Hw.clearGuard (h : Hw) (u : Nat) (g : GUnit) : Hw :=
  let h := ((Tab.keys h.recs).filter fun k => k / 2 ^ 52 == u + 1).foldl (fun h k => h.dropRec (.mem k)) h
  let h := (Tab.keys h.cores).foldl (fun h k => h.dropL1 k (guardCtx u)) h
  let h := match g.ring with
    | some r => h.onRing r fun x => { x with guard := x.guard - 4096 * g.nt }
    | none => h
  h.onUnit u fun x => { x with gmem := [], gmarks := [], ring := none }

/-- A unit is over: its command's part has ended; the units of a command stay until it is terminal. -/
def Hw.unitOver (h : Hw) (e : Env) (u : Nat) (g : GUnit) : Hw :=
  let h := h.onUnit u fun x => { x with ended := true }
  let all := h.units.filter fun x => x.2.fn == g.fn && x.2.seq == g.seq
  if all.all (·.2.ended) then
    let cause := ((all.find? fun x => x.2.ecause != 0).map (·.2.ecause)).getD 0
    let h := { h with units := Tab.keep (fun _ x => !(x.fn == g.fn && x.seq == g.seq)) h.units }
    h.endCommand e g.fn g.seq (if cause = 0 then stOK else stFAULTED) cause
  else h

/-- The unit goes to its exact kernel (R113). -/
def Hw.launchExact (h : Hw) (u : Nat) (g : GUnit) (gridid : DWord) : Hw :=
  ((h.addGrid { Grid.plain .exact g.fn g.seq gridid g.exact with unit := some u }).1).place (h.partOf g.fn)

/-- UNIT_COMMIT: unit `unit`, whose last block has ended, commits or is discarded. It waits while an engine owns a line it
would merge into. -/
def unitCommit (e : Env) (h : Hw) : Hw :=
  let u := h.occ.unit
  match Tab.find? h.units u with
  | none => h
  | some g =>
    if g.outcome ≠ 0 then h
    else
      let out := if g.faulted || g.poisoned then 5 else if !(g.sealed && g.verdict) then 2
        else if h.mergeConflict g then 4 else 1
      if out = 1 ∧ ((g.gmem.any fun x => Tab.has h.owners (lineOf x.1)) || g.status != 0 && (match h.devAt e g.fn true true (BitVec.ofNat 64 g.status) 8 with
          | some (pa, _) => Tab.has h.owners (lineOf pa)
          | none => false)) = true then h.planOn .unitCommit u
      else
        let g := { g with outcome := out }
        let h := h.onUnit u fun _ => g
        let gid := ((h.grid? g.grid).map (·.gridid)).getD (BitVec.ofNat 64 g.seq)
        if out = 1 then
          let h := (h.commitGuard u g).clearGuard u g
          let h := h.settleGrid (g.tiles.map fun t => (t, g.outtag)) true
          (((h.writeStatus e g g.exitFrontier).unitOver e u g).place (h.partOf g.fn)).moved
        else ((h.clearGuard u g).launchExact u g gid).moved

/-- UNIT_COMMIT (R112). -/
def execUnitCommit (s : State) : Host.Outcome State Fault Refusal := s.event unitCommit

/-- EXACT_KERNEL_END: the exact kernel of unit `unit` has ended. -/
def exactKernelEnd (e : Env) (h : Hw) : Hw :=
  let u := h.occ.unit
  match Tab.find? h.units u with
  | none => h
  | some g =>
    match List.find? (fun (x : Nat × Grid) => x.2.kind == .exact && x.2.unit == some u) h.grids with
    | none => h
    | some (gid, x) =>
      if x.freed < x.total then h
      else
        let g := { g with ecause := x.cause }
        let h := (h.onUnit u fun _ => g).dropGrid gid
        let h := h.settleGrid (g.tiles.map fun t => (t, g.outtag)) (x.cause = 0)
        (((h.writeStatus e g x.exitF).unitOver e u g).place (h.partOf g.fn)).moved

/-- EXACT_KERNEL_END (R113). -/
def execExactKernelEnd (s : State) : Host.Outcome State Fault Refusal := s.event exactKernelEnd

end Sys2Proof.Machine
end

