-- ==== Sys2Proof/Machine/System.lean ====
section
/-! DEFINITION. Sys2Proof/Machine/System.lean: system registers and windows (R416, R417), the return from an exception
(R421), the entry mask (R422), translation and cache sub-operations (R199 to R202, R423), HALTB (R424), RACEW (R226)
and the interval rebase (R209). -/
namespace Sys2Proof.Machine

/-! ## System registers (Table 16.7) -/

/-- WSHAPE (Table 6.1). -/
def Iss.wshape (q : Iss) : Word :=
  BitVec.ofNat 32 (q.w.k + q.widx * 2 ^ 6 + (if q.w.role then 2 ^ 11 else 0) + q.b.nWarps * 2 ^ 12 + q.w.vallot * 2 ^ 18 +
    q.w.uwin * 2 ^ 27)

/-- PARAMS: of the warp's launch record, its role's in a unit (R108). -/
def Iss.params (q : Iss) : DWord :=
  match q.b.cons with
  | some c => if q.w.role then q.b.shape.params else c.params
  | none => q.b.shape.params

/-- The value SRD gives. -/
def Iss.sysRead (e : Env) (h : Hw) (q : Iss) (n : Nat) : DWord :=
  let sh := q.b.shape
  let lin := q.b.lin
  let unit := (h.unitOf q.b).bind fun u => Tab.find? h.units u
  let w := q.w
  if n = 0x00 then BitVec.ofNat 64 (localTick e q.core)
  else if n = 0x01 then w.rmode.setWidth 64
  else if n = 0x02 then w.nbv.setWidth 64
  else if n = 0x03 then (match unit with | some u => u.gtol.setWidth 64 | none => 0#64)
  else if n = 0x04 then BitVec.ofNat 64 (q.b.c % 2 ^ 24)
  else if n = 0x05 then (partyOf q.slot q.widx q.b.gen).setWidth 64
  else if n = 0x06 then q.wshape.setWidth 64
  else if n = 0x07 then BitVec.ofNat 64 (lin % max 1 sh.gx + lin / max 1 sh.gx % max 1 sh.gy * 2 ^ 16 +
    lin / (max 1 sh.gx * max 1 sh.gy) * 2 ^ 32)
  else if n = 0x08 then BitVec.ofNat 64 (lin / max 1 sh.bpc % 2 ^ 48 + lin % max 1 sh.bpc * 2 ^ 48)
  else if n = 0x09 then (match h.grid? q.b.grid with | some g => g.gridid | none => 0#64)
  else if n = 0x0A then BitVec.ofNat 64 (sh.gx + sh.gy * 2 ^ 16 + sh.gz * 2 ^ 32 + sh.bpc * 2 ^ 48)
  else if n = 0x0B then q.params
  else if n = 0x0C then w.xi.setWidth 64
  else if n = 0x0D then BitVec.ofNat 64 (stopOf q.core * 2 ^ 20 + q.b.spBase)
  else if n = 0x0E then w.chint.setWidth 64
  else if n = 0x0F then (match unit with | some u => BitVec.ofNat 64 (u.idx % 2 ^ 16 + 2 ^ 16) | none => 0#64)
  else if n = 0x10 then w.ehdr.setWidth 64
  else if n = 0x20 then w.trapc
  else if n = 0x21 then w.trappc
  else if n = 0x22 then w.trapa
  else if n = 0x23 then w.trapo
  else if n = 0x24 then w.raceopc
  else if n = 0x25 then (h.part (h.partOf q.fn)).phvec
  else if n = 0x30 then w.bpctl.setWidth 64
  else if n ≤ 0x34 then Tab.getD w.bpaddr (n - 0x31) 0#64
  else if n = 0x35 then w.wpctl.setWidth 64
  else Tab.getD w.wpaddr (n - 0x36) 0#64

/-- SRD (R416). -/
def execSrd (d : RField) (n : BitVec 7) (s : State) : Host.Outcome State Fault Refusal :=
  issue (.srd d n) s fun e h q =>
    let v := q.sysRead e h n.toNat
    q.put e ((Use.dst d).wide (sysRegs n)) (fun _ => (halves v).take (sysRegs n)) h

/-- SWR (R416): INTV starts a rebase of the slot, HVEC is the partition's PHVEC (R412). -/
def execSwr (n : BitVec 7) (b : RField) (y : Bool) (s : State) : Host.Outcome State Fault Refusal :=
  issue (.swr n b y) s fun _ h q =>
    let u := (Use.srcC b y false).wide (sysRegs n)
    let v := if sysRegs n = 2 then q.w.read64 u q.lane0 else (q.w.read u q.lane0).setWidth 64
    if n = 0x04#7 then
      if v ≠ 0#64 then .error (.plain cILLEGAL)
      else .ok ((h.onBlock q.bk fun b => { b with rebasing := true }).plan .rebaseComplete
        { Occasion.none with unit := q.fn, id := q.slot })
    else if n = 0x25#7 then
      .ok (h.onPart (h.partOf q.fn) fun p => { p with phvec := v &&& 0xFFFFFFFFFFFFFFFC#64 })
    else match q.w.sysWrite n.toNat v with
      | none => .error (.plain cILLEGAL)
      | some w => .ok (h.setWarp q.wk w)

/-- WIN (R159, R160, R417). -/
def execWin (w : BitVec 5) (u : BitVec 2) (s : State) : Host.Outcome State Fault Refusal :=
  issue (.win w u) s fun _ h q =>
    let wb := 8 * w.toNat
    let ub := 24 * u.toNat
    if q.w.vallot ≤ wb ∨ 24 * q.w.uwin ≤ ub then .error (.plain cREGBOUND)
    else .ok (h.onWarp q.wk fun w => { w with wbase := wb, ubase := ub })

/-! ## The interval rebase (R209) -/

def Tab.zeroAt (t : Tab Nat) (k : Nat) : Tab Nat := Tab.del t k
def RelRec.zeroSlot (r : RelRec) (s : Nat) : RelRec := { r with snap := Tab.zeroAt r.snap s }

/-- Remove the marks of slot s. -/
def killSlotMarks (s : Nat) (t : Tab WordMarks) : Tab WordMarks :=
  Tab.keep (fun _ m => !m.records.isEmpty) (Tab.mapVals (fun _ (m : WordMarks) =>
    ⟨m.writer.filter fun r => r.slot != s, m.others.filter fun r => r.slot != s⟩) t)

def WarpQueue.zeroSlot (q : WarpQueue) (s : Nat) : WarpQueue :=
  { q with tokens := q.tokens.map fun t => (t.1, t.2.zeroSlot s) }

/-- Entry s of every release record that a warp still holds. -/
def Warp.zeroSlot (w : Warp) (s : Nat) : Warp :=
  { w with
    q0 := w.q0.zeroSlot s, q2 := w.q2.zeroSlot s, q4 := w.q4.zeroSlot s
    acqDone := w.acqDone.map fun x => (x.1, x.2.1, x.2.2.zeroSlot s)
    macqDone := w.macqDone.map fun x => (x.1, x.2.zeroSlot s)
    sync := Tab.mapVals (fun _ (y : List RelRec) => y.map fun r => r.zeroSlot s) w.sync }

def Block.zeroSlot (b : Block) (s : Nat) : Block :=
  { b with
    front := Tab.zeroAt b.front s, ready := Tab.mapVals (fun _ (r : RelRec) => r.zeroSlot s) b.ready
    bars := Tab.mapVals (fun _ (x : Barrier) => { x with
      pendF := Tab.zeroAt x.pendF s, done := Tab.mapVals (fun _ (d : Tab Nat × Tab Nat) => (d.1, Tab.zeroAt d.2 s)) x.done }) b.bars }

/-- Entry s of the release that an element of a function carries. -/
def Elem.zeroSlot (f s : Nat) (x : Elem) : Elem :=
  if x.fn = f then { x with rel := x.rel.map fun (r : RelRec) => r.zeroSlot s } else x

/-- REBASE_COMPLETE: the rebase of slot `id` of function `unit`, in the four steps of R209. -/
def rebaseComplete (_e : Env) (h : Hw) : Hw :=
  let f := h.occ.unit
  let s := h.occ.id
  let bk := bkOf f s
  match h.block? bk with
  | none => h
  | some b =>
    if !b.rebasing then h
    else
      let mine (w : Nat) : Bool := Tab.getD h.mctx (w / 32) 0 == ctxOf f || Tab.getD h.mctx (w / 32) 0 == 0
      let dead := h.marks.filter fun x => mine x.1
      let live := killSlotMarks s dead
      let h := dead.foldl (fun h x => h.setMarks (.mem x.1) (Tab.getD live x.1 WordMarks.none)) h
      let h := { h with
        fcores := Tab.mapVals (fun k (c : FCore) =>
          if k / 256 = f then
            let m := killSlotMarks s c.marks
            { c with
              marks := m, ovf := Tab.keep (fun l _ => !(lineMarks m l).isEmpty) c.ovf
              recs := Tab.mapVals (fun _ (r : RelRec) => r.zeroSlot s) c.recs }
          else c) h.fcores
        units := Tab.mapVals (fun _ (g : GUnit) =>
          if g.fn = f then { g with gmarks := killSlotMarks s g.gmarks, ends := g.ends.map fun (x : Nat × Block) => (x.1, x.2.zeroSlot s) }
          else g) h.units
        recs := Tab.mapVals (fun _ (r : RelRec) => if r.fn = f then r.zeroSlot s else r) h.recs
        blocks := Tab.mapVals (fun k (b : Block) => if bkFn k = f then b.zeroSlot s else b) h.blocks
        warps := Tab.mapVals (fun k (w : Warp) => if wkFn k = f then w.zeroSlot s else w) h.warps
        cmds := Tab.mapVals (fun _ (c : Cmd) =>
          if c.fn = f then { c with snap := c.snap.zeroSlot s, front := Tab.zeroAt c.front s } else c) h.cmds
        rings := Tab.mapVals (fun _ (r : Ring) => { r with retq := r.retq.map (Elem.zeroSlot f s), pend := r.pend.map (Elem.zeroSlot f s) }) h.rings
        cores := Tab.mapVals (fun _ (c : Core) => { c with l1 := Tab.mapVals (fun k (l : L1Line) =>
          if k / 2 ^ 45 = ctxOf f ∨ k / 2 ^ 45 = 0 then { l with recs := l.recs.filter fun (x : Nat × Mark) => x.2.slot != s } else l) c.l1 }) h.cores
        grids := h.grids.map fun (x : Nat × Grid) =>
          if x.2.fn = f then (x.1, { x.2 with exitF := Tab.zeroAt x.2.exitF s }) else x }
      let h := h.onFn f fun x => { x with race := { x.race with retired := x.race.retired.map fun (r : RelRec) => r.zeroSlot s } }
      (h.onBlock bk fun b => { b with intra := [], c := 1, st := 1, rebasing := false }).moved

/-- REBASE_COMPLETE (R209). -/
def execRebaseComplete (s : State) : Host.Outcome State Fault Refusal := s.event rebaseComplete

/-! ## Entries and returns (R421, R422) -/

/-- The handler warp of a partition ends its entry: its paths are gone, and the entry ends with DISP as the record
holds it, once the core's own bytes of the record have been written back (R106). -/
def Hw.endEntry (h : Hw) (e : Env) (q : Iss) (p : Nat) : Hw :=
  let slot := ((h.part p).serving.map (·.slot)).getD 0
  let pa := recordSlot p slot
  let h := h.writeBackLine q.core (ctxOf q.fn) (lineOf pa)
  let disp := (h.byte e (pa + 2)).toNat
  (h.onWarp q.wk fun w => { w with p0 := deadPath, p1 := deadPath, split := none }).plan .handlerTaskEntry
    { Occasion.none with unit := p, flag := true, aux := disp }

/-- A block's dump, at rest since its DUMPW, ends with the return of the warp that made it (R286). -/
def Hw.dumpOver (h : Hw) (wk : Nat) : Hw :=
  match h.block? (wkBlock wk) with
  | none => h
  | some b =>
    match b.dump with
    | some (w, _, _) => if w = wk then
        let h := h.onBlock (wkBlock wk) fun b => { b with dump := none }
        if b.halted then h else h.resumeBlock (wkBlock wk)
      else h
    | none => h

/-- ERET (R421): the return from an exception, or the end of the handler warp's entry. -/
def execEret (s : State) : Host.Outcome State Fault Refusal :=
  s.run fun e h =>
    match Iss.of h with
    | none => .fault .noIssuer
    | some q =>
      let r : Except Stop Hw := do
        q.rank2 h .eret
        let h := h.count q.fn 0 q.core 0x02 0 (q.passes .eret)
        if q.slot = handlerSlot then
          let p := h.partOf q.fn
          if (h.part p).serving.isNone then .error (.plain cILLEGAL) else .ok (h.endEntry e q p).moved
        else match q.w.frame with
          | none => .error (.plain cILLEGAL)
          | some f =>
            let h := (h.setWarp q.wk (q.w.leave f e.clk.cycle)).dumpOver q.wk
            .ok (h.replan q.wk).moved
      settle e h q r

/-- IMASK (R422). -/
def execImask (d a : RField) (s : State) : Host.Outcome State Fault Refusal :=
  issue (.imask d a) s fun e h q =>
    let p := h.partOf q.fn
    let old := (h.part p).imask
    let new := (q.w.read (.src a) q.lane0).extractLsb' 0 2
    let h1 := (h.onPart p fun x => { x with imask := new }).enterHeld e p
    let h1 := if old.getLsbD 1 && !new.getLsbD 1 then h1.planOnce .handlerTaskEntry { Occasion.none with unit := p } else h1
    q.putAfter e h (Use.dst d) (fun _ => [old.setWidth 32]) 0 h1

/-! ## Translation (R200, R201, R423) -/

/-- Contexts of a partition: its functions' and its handler's. -/
def Hw.contexts (h : Hw) (p : Nat) : List Nat := (h.fnsOf p).map ctxOf ++ [handlerFn p]

/-- A range block: start, length, context. -/
def Iss.rangeBlock (q : Iss) (a : RField) : Nat × Nat × Nat :=
  ((q.grp a 1 ++ q.grp a 0).toNat % 2 ^ 57, (q.grp a 3 ++ q.grp a 2).toNat, ((q.grp a 4).extractLsb' 0 10).toNat)

/-- The entries that a range names: none for length 0, the whole context for a length of all ones. -/
def rangeHits (ctx base len : Nat) (t : Tlb) : Bool :=
  if len = 2 ^ 64 - 1 then t.ctx == ctx else len != 0 && Tlb.overlaps ctx base len t

/-- TLBIR (R200). -/
def execTlbir (a : RField) (s : State) : Host.Outcome State Fault Refusal :=
  issue (.tlbir a) s fun _ h q =>
    let (base, len, ctx) := q.rangeBlock a
    if !(h.contexts (h.partOf q.fn)).contains ctx then .error (.plain cPROTECT)
    else .ok (h.dropTlb q.core (rangeHits ctx base len))

/-- TLBIA (R200). -/
def execTlbia (a : RField) (s : State) : Host.Outcome State Fault Refusal :=
  issue (.tlbia a) s fun _ h q =>
    let ctx := ((q.w.read (.src a) q.lane0).extractLsb' 0 10).toNat
    if !(h.contexts (h.partOf q.fn)).contains ctx then .error (.plain cPROTECT)
    else .ok (h.dropTlb q.core fun t => t.ctx == ctx)

/-- What holds a path while its SHOOT is under way. -/
def shootToken (wk : Nat) (x : Bool) : Nat := 2 ^ 60 + 2 * wk + x.toNat

/-- SHOOT (R201, R423): the path waits, with reason 31, and SHOOT retires when the shootdown completes. -/
def execShoot (a : RField) (s : State) : Host.Outcome State Fault Refusal :=
  issue (.shoot a) s fun _ h q =>
    let (base, len, ctx) := q.rangeBlock a
    let p := h.partOf q.fn
    if !(h.contexts p).contains ctx then .error (.plain cPROTECT)
    else if len = 0 then .ok h
    else
      let h := h.onPart p fun x => { x with shooting := x.shooting ++ [(ctx, base, len, q.wk, q.x)] }
      let h := h.onPath q.wk q.x fun x => { x with hold := some (shootToken q.wk q.x) }
      .error (.waitFrom (h.planOnce .shootComplete { Occasion.none with unit := p }) 31)

/-- The path that waits for its SHOOT retires it. -/
def Path.shot (p : Path) (t : Nat) : Path :=
  if p.hold = some t then { ({ p with hold := none }.retired p.pc) with pc := p.pc + 4#64 } else p
def Warp.shot (w : Warp) (t : Nat) : Warp :=
  { w with
    p0 := w.p0.shot t, p1 := w.p1.shot t
    frame := w.frame.map fun f => { f with p0 := f.p0.shot t, p1 := f.p1.shot t } }

/-- Has an access of context `c` at `va`, through leaf `l`, used an entry that a range names? -/
def usesEntry (ctx base len c : Nat) (va : DWord) (l : Leaf) : Bool :=
  rangeHits ctx base len ⟨c, va.toNat % 2 ^ 57 / 2 ^ l.lg * 2 ^ l.lg, l.lg, l⟩
/-- Is an access that used an entry of a range still to be performed: a retriever's element, or an acquire on its way (R201)? -/
def Hw.undrained (h : Hw) (ctx base len : Nat) : Bool :=
  (h.rings.any fun r => (r.2.retq ++ r.2.pend).any fun x => usesEntry ctx base len x.ctx x.va x.leaf) ||
  h.flights.any fun f => !f.2.replay && (f.2.lanes.zip f.2.locs).any fun x => match x.2.1 with
    | .mem _ => usesEntry ctx base len (if f.2.handler then handlerFn (h.partOf (wkFn f.2.wk)) else ctxOf (wkFn f.2.wk)) x.1.2 x.2.2
    | _ => false

/-- Every cached translation of a range goes, spilled ones too, and monitors on its words are triggered (R201, R371). -/
def Hw.shootDown (h : Hw) (ctx base len : Nat) : Hw :=
  let hit := rangeHits ctx base len
  let h := h.dropTlbAll hit
  let h := { h with fns := Tab.mapVals (fun _ (f : Fn) =>
    { f with wake := { f.wake with spill := f.wake.spill.filter fun (t : Nat × Tlb) => !hit t.2 } }) h.fns }
  h.trigger fun m =>
    let v := m.va.toNat % 2 ^ 57
    match m.loc with
    | .mem _ => len == 2 ^ 64 - 1 || decide (v / 65536 * 65536 < base + len) && decide (base < v / 65536 * 65536 + 65536)
    | _ => false

/-- SHOOT_COMPLETE: with `flag` false, the oldest SHOOT of partition `unit` completes once it has drained; with `flag`
true, the device's own SHOOT for the page that slice `aux` migrates does (R197). -/
def shootComplete (_e : Env) (h : Hw) : Hw :=
  let p := h.occ.unit
  if h.occ.flag then
    match Tab.find? h.migs h.occ.aux with
    | none => h
    | some m =>
      if h.undrained m.ctx m.base (2 ^ m.lg) then h.plan .shootComplete h.occ
      else { (h.shootDown m.ctx m.base (2 ^ m.lg)) with migs := Tab.put h.migs h.occ.aux { m with shootDone := true } }
  else match (h.part p).shooting with
    | [] => h
    | (ctx, base, len, wk, x) :: l =>
      if h.undrained ctx base len then h.plan .shootComplete h.occ
      else
        let h := (h.shootDown ctx base len).onPart p fun y => { y with shooting := l }
        let h := (h.onWarp wk fun w => w.shot (shootToken wk x)).moved
        let h := match h.block? (wkBlock wk) with
          | some b => h.count (wkFn wk) 0 b.core 0x02 0 1
          | none => h
        if l.isEmpty then h else h.planOnce .shootComplete { Occasion.none with unit := p }

/-- SHOOT_COMPLETE (R201). -/
def execShootComplete (s : State) : Host.Outcome State Fault Refusal := s.event shootComplete

/-! ## Caches (R423) -/

/-- The contexts that the operand of L1WB and L1INV names. -/
def Iss.ctxArg (h : Hw) (q : Iss) (a : RField) : Option (List Nat) :=
  let c := ((q.w.read (.src a) q.lane0).extractLsb' 0 10).toNat
  let l := h.contexts (h.partOf q.fn)
  if c = 0x3FF then some l else if l.contains c then some [c] else none

/-- L1WB; a line that an engine owns holds it (R189). -/
def execL1wb (a : RField) (s : State) : Host.Outcome State Fault Refusal :=
  issue (.l1wb a) s fun _ h q =>
    match q.ctxArg h a with
    | none => .error (.plain cPROTECT)
    | some l =>
      if l.any (h.backHeld q.core) then .error (.wait 18)
      else .ok (l.foldl (fun h c => h.writeBack q.core c) h)

/-- L1INV. -/
def execL1inv (a : RField) (s : State) : Host.Outcome State Fault Refusal :=
  issue (.l1inv a) s fun _ h q =>
    match q.ctxArg h a with
    | none => .error (.plain cPROTECT)
    | some l => .ok (l.foldl (fun h c => h.clearClean q.core c) h)

/-- Does [a, a + n) lie in the channels a partition owns? -/
def Part.ownsRange (p : Part) (a n : Nat) : Bool :=
  decide (n < 0x9000000000) && p.ownsAddr a && p.ownsAddr (a + n - 1) &&
    (List.range (n / 0x60000000 + 1)).all fun k => p.ownsAddr (min (a + k * 0x60000000) (a + n - 1))

/-- Write back a line of L2 with its marks; it stays valid. -/
def Hw.cleanL2 (h : Hw) (line : Nat) : Hw :=
  let h := (h.l2.filter fun x => x.line == line).foldl (fun h x => h.writtenOut x) h
  let h := h.takePointer ((lineRecords h.marks line).length + 1) line
  { h with
    l2 := h.l2.map fun x => if x.line = line then { x with dirty := false } else x
    spare := Tab.store 0#64 h.spare line (h.spareWord line) }

/-- L2CLN: physical start in w(a), w(a + 1), length in w(a + 2), w(a + 3). -/
def execL2cln (a : RField) (s : State) : Host.Outcome State Fault Refusal :=
  issue (.l2cln a) s fun _ h q =>
    let base := (q.grp a 1 ++ q.grp a 0).toNat
    let len := (q.grp a 3 ++ q.grp a 2).toNat
    let p := h.part (h.partOf q.fn)
    let all := len = 2 ^ 64 - 1
    if len = 0 then .ok h
    else if ¬ all ∧ p.ownsRange base len = false then .error (.plain cPROTECT)
    else
      let ls := h.l2.filter fun x => p.owns.slices.getLsbD x.slice &&
        (decide all || decide (128 * x.line < base + len) && decide (base < 128 * x.line + 128))
      .ok (ls.foldl (fun h x => h.cleanL2 x.line) h)

/-! ## HALTB (R424) -/

/-- The function whose blocks HALTB names: a user warp's own, for the handler warp the one that runs. -/
def Iss.haltFn (h : Hw) (q : Iss) : Option Nat :=
  if q.slot = handlerSlot then (h.part (h.partOf q.fn)).running else some q.fn

/-- HALTB's effect and status. -/
def Hw.haltb (h : Hw) (q : Iss) (slot gen widx op cause : Nat) : Hw × Nat :=
  if slot < 2560 ∧ (h.part (h.partOf q.fn)).owns.rings.getLsbD (slot / 128) = false then (h, 2)
  else match (q.haltFn h).bind fun f => (h.block? (bkOf f slot)).map fun b => (bkOf f slot, b) with
    | none => (h, 1)
    | some (bk, b) =>
      if b.gen ≠ gen ∨ slot = handlerSlot then (h, 1)
      else if op = 0 then
        if b.halted then (h, 3) else ((h.onBlock bk fun b => { b with halted := true }).haltBlock bk (some q.wk), 0)
      else if op = 1 then
        if !b.halted then (h, 3)
        else
          let h := h.onBlock bk fun b => { b with halted := false }
          (if b.dump.isSome then h else h.resumeBlock bk, 0)
      else if op = 2 then (h.killBlock bk (if cause = 0 then cTRAPI else cause), 0)
      else if b.nWarps ≤ widx then (h, 1)
      else (h.endWarp (32 * bk + widx), 0)

/-- HALTB. -/
def execHaltb (d a : RField) (s : State) : Host.Outcome State Fault Refusal :=
  issue (.haltb d a) s fun e h q =>
    let t := q.grp a 0
    let o := q.grp a 1
    let (h1, st) := h.haltb q (t.extractLsb' 0 12).toNat (t.extractLsb' 12 3).toNat (t.extractLsb' 15 5).toNat
      (o.extractLsb' 0 2).toNat (o.extractLsb' 8 8).toNat
    q.putAfter e h (Use.dst d) (fun _ => [BitVec.ofNat 32 st]) 0 h1

/-! ## RACEW (R226) -/

/-- RACEW. -/
def execRacew (s : State) : Host.Outcome State Fault Refusal :=
  issue .racew s fun _ h q =>
    if q.w.trapc.extractLsb' 0 8 ≠ 0x07#8 then .error (.plain cILLEGAL)
    else .ok (h.onWarp q.wk fun w =>
      { w with frame := w.frame.map fun f =>
          if f.trapPath then { f with p1 := { f.p1 with waiver := some w.trappc } }
          else { f with p0 := { f.p0 with waiver := some w.trappc } } })

end Sys2Proof.Machine
end

