-- ==== Sys2Proof/Machine/Dump.lean ====
section
/-! DEFINITION. Sys2Proof/Machine/Dump.lean: DUMPW (R286, R287, R426, R446, Tables 11.8 and 11.9), CTXSV and CTXLD
(R425). -/
namespace Sys2Proof.Machine

/-! ## The per-warp layout (Table 11.9) -/

def zeros (n : Nat) : List Byte := List.replicate n 0#8
/-- Pad a list of bytes to a multiple of `n`. -/
def padTo (n : Nat) (bs : List Byte) : List Byte := bs ++ zeros ((n - bs.length % n) % n)

/-- Row summary and row masks: S, M[0] to M[31]. -/
def maskBytes (m : Mask) : List Byte :=
  natLe 4 ((List.range 32).foldl (fun s r => if rowMask m r = 0#32 then s else s + 2 ^ r) 0) ++ natLe 128 m.toNat

/-- A join-stack entry, 160 bytes. -/
def JEntry.bytes (j : JEntry) : List Byte :=
  [if j.defer.isSome then 2#8 else 1#8] ++ zeros 7 ++ natLe 8 j.t.toNat ++ natLe 8 (j.defer.getD 0#64).toNat ++ zeros 8 ++
    natLe 128 j.m.toNat

/-- A path's join stack, bottom first (log 45). -/
def Path.stackBytes (p : Path) : List Byte :=
  (List.range 16).flatMap fun i => match p.stack.reverse[i]? with
    | some j => j.bytes
    | none => zeros 160

/-- A path's mask and resume rows, 160 bytes. -/
def Path.maskImage (p : Path) : List Byte := maskBytes p.mask ++ natLe 4 p.resume.toNat ++ zeros 24

/-- The paths and split join that an image shows: the trap frame's, or the warp's own. -/
def Warp.shown (w : Warp) : Path × Path × Option (DWord × Mask) :=
  match w.frame with
  | some f => (f.p0, f.p1, f.split)
  | none => (w.p0, w.p1, w.split)

/-- State of a warp in an image: 0 halted, 1 trapped, 2 exited. -/
def Warp.stateCode (w : Warp) : Nat := if w.done then 2 else if w.mode = .handler ∨ w.held.isSome then 1 else 0

/-- The fixed part, 6 KiB. -/
def Warp.fixedBytes (w : Warp) (shape : Word) (party : BitVec 20) : List Byte :=
  let (p0, p1, sp) := w.shown
  let live (p : Path) : Nat := if p.live then 1 else 0
  natLe 4 shape.toNat ++ natLe 4 party.toNat ++ natLe 1 w.stateCode ++ natLe 1 (live p0 + live p1) ++
    natLe 1 w.xi.toNat ++ natLe 1 w.ubase ++ natLe 2 w.wbase ++ zeros 2 ++ natLe 8 p0.pc.toNat ++ natLe 8 p1.pc.toNat ++
    natLe 1 p0.stack.length ++ natLe 1 p1.stack.length ++ natLe 1 p0.base ++ natLe 1 p1.base ++ zeros 4 ++
    natLe 8 ((sp.map fun x => x.1.toNat).getD 0) ++ zeros 16 ++
    ((List.range 96).flatMap fun r => natLe 4 (w.getU r).toNat) ++ p0.maskImage ++ p1.maskImage ++ p0.stackBytes ++
    p1.stackBytes ++ ((List.range 16).flatMap fun i => natLe 2 (w.region.reverse.getD i 0#16).toNat) ++ natLe 1 w.lost ++
    zeros 223

/-- A warp's part of the registers section: fixed part, predicates, vector registers, full bits. -/
def Warp.image (w : Warp) (shape : Word) (party : BitVec 20) : List Byte :=
  let n := 32 * w.k
  let full := (List.range w.vallot).flatMap fun r => (List.range n).map fun l => !w.isEmpty r l
  w.fixedBytes shape party ++
    ((List.range n).map fun l => (List.range 8).foldl (fun b i =>
      if (w.getP i).getLsbD l then b ||| (1#8 <<< i) else b) 0#8) ++
    ((List.range w.vallot).flatMap fun r => (List.range n).flatMap fun l => natLe 4 (w.getV r l).toNat) ++
    padTo 8 ((List.range ((full.length + 7) / 8)).map fun k => (List.range 8).foldl (fun b i =>
      if full.getD (8 * k + i) false then b ||| (1#8 <<< i) else b) 0#8)

/-- WSHAPE and PARTY of warp `u` of a block. -/
def Hw.wshapeOf (wk : Nat) (w : Warp) (b : Block) : Word := Iss.wshape ⟨wk, false, w, b, []⟩
def partyOfWarp (wk : Nat) (b : Block) : BitVec 20 := partyOf (wkSlot wk) (wkIdx wk) b.gen

/-! ## The scratchpad and barrier sections -/

/-- The side array of one line as it stands (R216; log 22). -/
def sideLine (marks : Tab WordMarks) (ovf : Tab (List Nat)) (line : Nat) : List Byte :=
  match Tab.find? ovf line with
  | some (k :: _) => natLe 6 0 ++ natLe 6 (0xFFFFF + k % 2 ^ 24 * 2 ^ 20) ++ zeros 20
  | _ =>
    let rs := lineRecords marks line
    let idx (r : Mark) : Nat := rs.idxOf r % 2
    let word (j : Nat) : Nat :=
      let m := Tab.getD marks (32 * line + j) WordMarks.none
      (match m.writer with | some r => 1 + 2 * idx r | none => 0) +
        (m.others.map idx).eraseDups.foldl (fun s i => s + 2 ^ (2 + i)) 0
    ((List.range 2).flatMap fun i => natLe 6 (match rs[i]? with | some r => r.bits.toNat | none => 0)) ++
      natLe 20 ((List.range 32).foldl (fun s j => s + word j * 2 ^ (5 * j)) 0)

/-- Poisoned lines of a block's scratchpad. -/
def Hw.poisonedLines (h : Hw) (fn : Nat) (b : Block) : List Nat :=
  ((h.fcore fn b.core).poison.filter fun l => b.holds (128 * l) 128).eraseDups

/-- The scratchpad section. -/
def Hw.scrSection (h : Hw) (fn : Nat) (b : Block) : List Byte :=
  let c := h.fcore fn b.core
  let bad := h.poisonedLines fn b
  ((List.range (b.spBytes / 128)).flatMap fun k =>
    if bad.contains (b.spBase / 128 + k) then List.replicate 128 0xFF#8 else h.scrBytes fn b.core (b.spBase + 128 * k) 128) ++
    ((List.range (b.spBytes / 128)).flatMap fun k => sideLine c.marks c.ovf (b.spBase / 128 + k)) ++
    (List.range (b.spBytes / 4096)).flatMap fun u => natLe 2 (h.spTag fn b.core (b.spBase + 4096 * u)).toNat

/-- The barriers section. -/
def Hw.barSection (h : Hw) (bk : Nat) (b : Block) : List Byte :=
  (List.range b.shape.bars).flatMap fun i =>
    (Tab.getD b.bars i Barrier.fresh).words (h.creditPending bk i)

/-! ## Writing a buffer -/

/-- Write a line's part of a buffer in the context of the executing warp: its own L1 copy goes first. -/
def Iss.bufWrite (e : Env) (q : Iss) (h : Hw) (va : DWord) (bs : List Byte) : Except Nat Hw :=
  match Iss.locate h e q ⟨true, false⟩ va bs.length with
  | .error c => .error c
  | .ok (.alias_ _, _) => .error cBARWORD
  | .ok (.scr core off, _) => .ok ((h.upkeepSp q.fn core off).putScr q.fn core off bs)
  | .ok (.mem pa, l) =>
    if paKind pa = .internal then .error cPROTECT
    else
      let ctx := Iss.ctx h q
      let h := (h.writeBackLine q.core ctx (lineOf pa)).setL1 q.core ctx (lineOf pa) L1Line.empty
      let h := (h.clearMarks pa bs.length).upkeep [] pa
      .ok (h.homeWrite (Iss.homeReq h q ⟨0, va, bs.length, .mem pa, l⟩ (farOf l pa false false)) pa bs)

/-- Does a part of a buffer wait for a link, a channel or a table's line (R15, R19, R189), or for an engine that owns its line (R189)? -/
def Iss.bufWaits (h : Hw) (e : Env) (q : Iss) (write : Bool) (va : DWord) (n : Nat) : Bool :=
  (cutLines (n / 128 + 2) va n).any fun x =>
    (!isScr x.1 && h.walkHeld e q.core (Iss.ctx h q) (x.1.toNat % 2 ^ 57)) ||
    match Iss.locate h e q ⟨write, false⟩ x.1 x.2 with
    | .ok (.mem pa, l) => h.waitsOnWay (Iss.ctx h q) (dieOf q.core) l pa || Tab.has h.owners (lineOf pa)
    | _ => false

/-- Write bytes from `va` on, in rising order; a failing byte's state, cause and address. -/
def Iss.bufWrites (e : Env) (q : Iss) : List (DWord × Nat) → List Byte → Hw → Except (Hw × Nat × DWord) Hw
  | [], _, h => .ok h
  | (va, n) :: l, bs, h =>
    match q.bufWrite e h va (bs.take n) with
    | .error c => .error (h, c, va)
    | .ok h => Iss.bufWrites e q l (bs.drop n) h

def Iss.putBuf (e : Env) (q : Iss) (va : DWord) (bs : List Byte) (h : Hw) : Except (Hw × Nat × DWord) Hw :=
  Iss.bufWrites e q (cutLines (bs.length / 128 + 2) va bs.length) bs h

/-- Bytes of a buffer. -/
def Iss.getBuf (h : Hw) (e : Env) (q : Iss) (va : DWord) (n : Nat) : Except (Nat × DWord) (List Byte) :=
  (cutLines (n / 128 + 2) va n).foldl (fun r x =>
    match r with
    | .error s => .error s
    | .ok bs => match Iss.locate h e q ⟨false, false⟩ x.1 x.2 with
      | .error c => .error (c, x.1)
      | .ok (.alias_ off, _) => .ok (bs ++ Hw.aliasBytes h q off x.2)
      | .ok (.scr core off, _) => .ok (bs ++ h.scrBytes q.fn core off x.2)
      | .ok (.mem pa, _) =>
        if paKind pa = .internal then .error (cPROTECT, x.1)
        else .ok (bs ++ (h.l1 q.core (Iss.ctx h q) (lineOf pa)).read (fun k => h.byte e (128 * lineOf pa + k)) (pa % 128) x.2)) (.ok [])

/-! ## DUMPW -/

/-- Up to the next 256-byte boundary. -/
def up256 (n : Nat) : Nat := (n + 255) / 256 * 256

/-- The header with STATE 0 (Table 11.8). -/
def Iss.dumpHeader (q : Iss) (h : Hw) (tstart drained : Nat) (regs scr bars : Nat) : List Byte :=
  let w := q.w
  let so := up256 (0x100 + regs)
  let bo := up256 (so + scr)
  natLe 4 0x50444D59 ++ natLe 2 1 ++ [0#8] ++ natLe 1 q.b.nWarps ++ natLe 8 tstart ++ natLe 8 0 ++
    natLe 4 (q.slot + q.b.gen * 2 ^ 12) ++ natLe 4 (h.poisonedLines q.fn q.b).length ++ natLe 8 w.trapc.toNat ++
    natLe 8 w.trappc.toNat ++ natLe 8 w.trapa.toNat ++ natLe 8 w.trapo.toNat ++
    natLe 4 (partyOf q.slot q.widx q.b.gen).toNat ++ natLe 4 q.b.spBytes ++ natLe 2 q.b.shape.bars ++ zeros 2 ++
    natLe 4 drained ++ natLe 8 0x100 ++ natLe 8 regs ++ natLe 8 so ++ natLe 8 scr ++ natLe 8 bo ++ natLe 8 bars ++ zeros 128

/-- Write the dump, complete or up to the first fault. -/
def Iss.writeDump (e : Env) (q : Iss) (buf : DWord) (tstart drained : Nat) (h : Hw) : Except (Hw × Nat × DWord) Hw := do
  let regs := (h.warpsOf q.bk).flatMap fun x => x.2.image (Hw.wshapeOf x.1 x.2 q.b) (partyOfWarp x.1 q.b)
  let scr := h.scrSection q.fn q.b
  let bars := h.barSection q.bk q.b
  let so := up256 (0x100 + regs.length)
  let bo := up256 (so + scr.length)
  let h ← q.putBuf e buf (q.dumpHeader h tstart drained regs.length scr.length bars.length) h
  let h ← q.putBuf e (addrOff buf 0x100) regs h
  let h ← q.putBuf e (addrOff buf so) scr h
  let h ← q.putBuf e (addrOff buf bo) bars h
  let h := h.releaseSync q.core (Iss.ctx h q) .device
  let h ← q.putBuf e (addrOff buf 16) (natLe 8 (localTick e q.core)) h
  let h ← q.putBuf e (addrOff buf 6) [1#8] h
  let r := q.b.snapshot q.fn q.slot q.widx .device q.bk
  let h := match Iss.locate h e q ⟨true, false⟩ (addrOff buf 4) 4 with
    | .ok (.mem pa, _) => h.attach (.mem (wordOf pa)) r false
    | _ => h
  .ok (h.advance q.bk)

/-- Bytes of a block's dump. -/
def Hw.dumpBytes (h : Hw) (q : Iss) : Nat :=
  let regs := ((h.warpsOf q.bk).map fun x => 6144 + 32 * x.2.k + 128 * x.2.k * x.2.vallot + (x.2.vallot * 32 * x.2.k + 63) / 64 * 8).sum
  up256 (up256 (0x100 + regs) + (h.scrSection q.fn q.b).length) + (h.barSection q.bk q.b).length

/-- Engine commands of a block that have started. -/
def Hw.startedCmds (h : Hw) (bk : Nat) : Nat := (h.cmds.filter fun c => wkBlock c.2.wk == bk && c.2.started).length
/-- Elements of a block in a retriever's queue. -/
def Hw.blockElems (h : Hw) (bk : Nat) : Bool :=
  h.rings.any fun r => (r.2.retq ++ r.2.pend).any fun x => wkBlock x.wk == bk && !x.host

/-- DUMPW: halts the block's other warps, waits for its drains with reason 31, then dumps it (R286, R426). -/
def execDumpw (a : RField) (s : State) : Host.Outcome State Fault Refusal :=
  issue (.dumpw a) s fun e h q =>
    let buf := q.w.read64 ((Use.src a).wide 2) q.lane0
    if q.slot = handlerSlot then .error (.plain cILLEGAL)
    else if buf.toNat % 4096 ≠ 0 then .error (.at cALIGN buf)
    else if h.wraps q.bk 1 then .error (.plain cINTVWRAP)
    else
      let (h, t0, dr) := match q.b.dump with
        | some (w, t, d) => if w = q.wk then (h, t, d) else (h, localTick e q.core, h.startedCmds q.bk)
        | none => (h, localTick e q.core, h.startedCmds q.bk)
      let h := (h.onBlock q.bk fun b => { b with dump := some (q.wk, t0, dr) }).haltBlock q.bk (some q.wk)
      if h.startedCmds q.bk ≠ 0 ∨ h.blockElems q.bk ∨ (h.flights.any fun f => f.2.kind == .late && wkBlock f.2.wk == q.bk) then
        .error (.waitFrom h 31)
      else if isScr buf then .error (.trapFrom h (BitVec.ofNat 64 cPROTECT) buf none 0#64)
      else if q.bufWaits h e true buf (h.dumpBytes q) || h.backHeld q.core (Iss.ctx h q) then .error (.waitFrom h 18)
      else match q.writeDump e buf t0 dr h with
        | .ok h => .ok h
        | .error (h, c, va) => .error (.trapFrom h (BitVec.ofNat 64 c) va none 0#64)

/-! ## CTXSV and CTXLD (R425) -/

/-- Length of a warp's image. -/
def Warp.imageLen (w : Warp) : Nat :=
  6144 + 32 * w.k + 128 * w.k * w.vallot + (w.vallot * 32 * w.k + 63) / 64 * 8

/-- CTXSV: every page is checked before a byte is written. -/
def execCtxsv (a : RField) (s : State) : Host.Outcome State Fault Refusal :=
  issue (.ctxsv a) s fun e h q =>
    let va := q.w.read64 ((Use.src a).wide 2) q.lane0
    let bs := q.w.image q.wshape (partyOf q.slot q.widx q.b.gen)
    match (cutLines (bs.length / 128 + 2) va bs.length).findSome? fun x =>
        match Iss.locate h e q ⟨true, false⟩ x.1 x.2 with
        | .error c => some (c, x.1)
        | .ok _ => none with
    | some (c, x) => .error (.at c x)
    | none =>
      if va.toNat % 256 ≠ 0 then .error (.at cALIGN va)
      else if q.bufWaits h e true va bs.length then .error (.wait 18)
      else match q.putBuf e va bs h with
        | .ok h => .ok h
        | .error (_, c, x) => .error (.at c x)

/-- A number of `n` bytes at `k` of an image. -/
def imgNat (bs : List Byte) (k n : Nat) : Nat := bytesNat bs k n

/-- Path `i` of an image. -/
def pathOf (bs : List Byte) (i : Nat) : Path :=
  let n := min 16 (imgNat bs (32 + i) 1)
  let o := 448 + 160 * i
  let m : Mask := BitVec.ofNat 1024 (imgNat bs (o + 4) 128)
  let entry (j : Nat) : JEntry :=
    let k := 768 + 160 * (16 * i + j)
    { t := BitVec.ofNat 64 (imgNat bs (k + 8) 8)
      defer := if imgNat bs k 1 = 2 then some (BitVec.ofNat 64 (imgNat bs (k + 16) 8)) else none
      m := BitVec.ofNat 1024 (imgNat bs (k + 32) 128) }
  let st := ((List.range n).map entry).reverse
  let base := imgNat bs (34 + i) 1
  { freshPath (BitVec.ofNat 64 (imgNat bs (16 + 8 * i) 8)) m with
    live := decide (m ≠ 0#1024) || decide (base < n), stack := st, base := base
    resume := BitVec.ofNat 32 (imgNat bs (o + 132) 4) }

/-- The split mask of a loaded frame: the lanes that its two paths hold (log 44). -/
def splitMask (p0 p1 : Path) (exited : Mask) : Mask :=
  let own (p : Path) : Mask := p.above.foldl (fun m e => m ||| e.m) p.mask
  (own p0 ||| own p1) &&& ~~~exited

/-- Load an image into a warp and its trap frame. -/
def Warp.load (w : Warp) (bs : List Byte) : Warp :=
  let n := 32 * w.k
  let q0 := pathOf bs 0
  let q1 := pathOf bs 1
  let two := imgNat bs 9 1 = 2
  let preds (i : Nat) : Mask := maskOf (List.range n) fun l => (bs.getD (6144 + l) 0#8).getLsbD i
  let vr := 6144 + n
  let fe := vr + 4 * n * w.vallot
  let region := ((List.range 16).map fun i => BitVec.ofNat 16 (imgNat bs (5888 + 2 * i) 2)).reverse.dropWhile (· == 0#16)
  let cells := (List.range w.vallot).flatMap fun r => (List.range n).map fun l => (r, l)
  { w with
    xi := BitVec.ofNat 8 (imgNat bs 10 1), ubase := imgNat bs 11 1, wbase := imgNat bs 12 2
    uregs := (List.range 96).foldl (fun t r => Tab.store 0#32 t r (BitVec.ofNat 32 (imgNat bs (64 + 4 * r) 4))) []
    preds := (List.range 7).foldl (fun t i => Tab.store 0#1024 t (i + 1) (preds (i + 1))) []
    vregs := cells.foldl (fun t x => Tab.store 0#32 t (1024 * x.1 + x.2)
      (BitVec.ofNat 32 (imgNat bs (vr + 4 * (x.1 * n + x.2)) 4))) []
    empty := (cells.filter fun x => !(bs.getD (fe + (x.1 * n + x.2) / 8) 0#8).getLsbD ((x.1 * n + x.2) % 8)).map
      fun x => 1024 * x.1 + x.2
    region := region, lost := imgNat bs 5920 1
    frame := w.frame.map fun f =>
      { f with p0 := q0, p1 := if q1.live then q1 else deadPath
               split := if two then some (BitVec.ofNat 64 (imgNat bs 40 8), splitMask q0 q1 w.exited) else none } }

/-- The first part of a buffer that lies in a poisoned line (R18). -/
def Iss.bufPoisoned (h : Hw) (e : Env) (q : Iss) (va : DWord) (n : Nat) : Option DWord :=
  ((cutLines (n / 128 + 2) va n).find? fun x => match Iss.locate h e q ⟨false, false⟩ x.1 x.2 with
    | .ok (loc, leaf) => h.isPoisoned q.fn ⟨q.lane0, x.1, x.2, loc, leaf⟩
    | .error _ => false).map (·.1)

/-- CTXLD: a poisoned image raises ECC (R18), one whose WSHAPE differs PROTECT. -/
def execCtxld (a : RField) (s : State) : Host.Outcome State Fault Refusal :=
  issue (.ctxld a) s fun e h q =>
    let va := q.w.read64 ((Use.src a).wide 2) q.lane0
    if q.bufWaits h e false va q.w.imageLen then .error (.wait 18) else
    match Iss.getBuf h e q va q.w.imageLen with
    | .error (c, x) => .error (.at c x)
    | .ok bs =>
      if va.toNat % 256 ≠ 0 then .error (.at cALIGN va)
      else if let some x := q.bufPoisoned h e va q.w.imageLen then .error (.at cECC x)
      else if imgNat bs 0 4 ≠ q.wshape.toNat then .error (.at cPROTECT va)
      else .ok (h.setWarp q.wk (q.w.load bs))

end Sys2Proof.Machine
end

