-- ==== Sys2Proof/Machine/Copy.lean ====
section
/-! DEFINITION. Sys2Proof/Machine/Copy.lean: what copies and gathers do from their start (R262 to R264), byte credits
(R221, R264), and the completion that every engine command shares: tiles, ready bits, stamp, token, failure (R91, R131,
R222, R252 to R254). -/
namespace Sys2Proof.Machine

/-! ## Byte credits (R221, R264, R364) -/

/-- Credit n bytes of a command to its barrier of block bk: a release of the issuing warp. -/
def Hw.creditBarrier (h : Hw) (e : Env) (c : Cmd) (bk n : Nat) : Hw :=
  match h.block? bk with
  | none => h
  | some b =>
    if b.shape.bars ≤ c.barIdx then h
    else
      let h := h.releaseSync c.core c.ctx c.scope
      let x := Tab.getD b.bars c.barIdx Barrier.fresh
      let x := { x with bytes := x.bytes - n, credited := x.credited + n }
      let x := if c.scope = .warp then x else x.credit (wkBlock c.wk) bk (wkIdx c.wk) c.intv c.snap
      ((h.setBarrier bk c.barIdx x.complete).barDone e bk c.barIdx x x.complete).moved

/-- The bytes written for block bk await their credit. -/
def Cmd.wrote (c : Cmd) (bk n : Nat) : Cmd :=
  { c with
    paid := c.paid + n, credit := if c.bc then c.credit ++ [(bk, n)] else c.credit
    unwritten := c.unwritten.map fun (x : Nat × Nat) => if x.1 = bk then (bk, x.2 - n) else x }

/-- The step that ends a command. -/
def endStep (opc : Nat) : Instr := if opc ≤ 7 then .matrixRetire else if opc ≤ 0x20 then .copyCommandEnd else .ringCommandEnd

/-- A command's payload is over: its credits and its end are to come. -/
def Hw.payloadOver (h : Hw) (id : Nat) : Hw :=
  match Tab.find? h.cmds id with
  | none => h
  | some c => ((h.onCmd id fun c => { c with moved := true })).planOnce (endStep c.opc) { Occasion.none with unit := id }

/-- BYTE_CREDIT: the oldest credit of command `unit` that has not been made. -/
def byteCredit (e : Env) (h : Hw) : Hw :=
  match Tab.find? h.cmds h.occ.unit with
  | none => h
  | some c =>
    match c.credit with
    | [] => h
    | (bk, n) :: l => (h.onCmd h.occ.unit fun c => { c with credit := l }).creditBarrier e c bk n

/-- BYTE_CREDIT (R264). -/
def execByteCredit (s : State) : Host.Outcome State Fault Refusal := s.event byteCredit

/-! ## Completion -/

/-- Address of a command's stamp, 0 for none. -/
def Cmd.stampVa (c : Cmd) : DWord := if c.kind = .matrix then 0#64 else if 0x21 ≤ c.opc then c.pair 4 else c.pair 9

/-- Where the stamp goes: none where there is no stamp or its address fails. -/
def Hw.stampPlace (h : Hw) (e : Env) (c : Cmd) : Option (Loc × Leaf) :=
  if c.stampVa = 0#64 ∨ c.stampVa.toNat % 8 ≠ 0 then none
  else match h.engLocate e c true c.stampVa 8 with
    | .ok x => some x
    | .error _ => none

/-- The checks of a stamp address. -/
def Hw.stampBad (h : Hw) (e : Env) (c : Cmd) : Option EngFail :=
  if c.stampVa = 0#64 then none
  else if c.stampVa.toNat % 8 ≠ 0 then some ⟨0x04, c.stampVa, true, none⟩
  else match h.engLocate e c true c.stampVa 8 with
    | .ok _ => none
    | .error r => some ⟨r, c.stampVa, true, none⟩

/-- The stamp word (Table 10.9). -/
def Cmd.stampWord (c : Cmd) : Nat := c.seq % 2 ^ 48 + c.status % 256 * 2 ^ 48 + c.late.toNat * 2 ^ 56
/-- The completion token (Table 10.5). -/
def Cmd.token (c : Cmd) : Word :=
  BitVec.ofNat 32 (c.tag.toNat + c.status % 256 * 2 ^ 8 + c.opc * 2 ^ 16 + c.late.toNat * 2 ^ 23)
/-- The trap a failed command stands for (Table 10.6). -/
def Cmd.trap (c : Cmd) : Trap :=
  let m := c.kind = .matrix
  { c := BitVec.ofNat 64 ((if m then cMMAERR else cCOPYERR) + 5 * 2 ^ 18 + c.failW.toNat * 2 ^ 21 + c.status % 256 * 2 ^ 24 +
      (if m then 0 else c.seq % 2 ^ 32 * 2 ^ 32))
    pc := 0#64, a := c.failA, o := c.failO, opc := c.failP }

/-- Lines are released and the tiles still converting are settled (R91, R263 step 4). -/
def Hw.releaseLines (h : Hw) (id : Nat) (c : Cmd) : Hw :=
  let h := { h with owners := Tab.keep (fun _ o => o != id) h.owners }
  (h.settleTiles c.fn c (decide (c.status = 0))).onCmd id fun c => { c with owned := [], tiles := [] }

/-- The stamp is written last, a release of class .flg, and sets the command's ready bits again (R131, R263 step 5); a
stamp that meets a conflict is not written (log 36). -/
def Hw.writeStamp (h : Hw) (c : Cmd) : Option (Loc × Leaf) → Hw × Cmd × Option Loc
  | none => (h, c, none)
  | some (l, leaf) =>
    match h.engCheck c .flg true l leaf 8 with
    | some (r, m) => (h, c.fail ⟨r, c.stampVa, true, m⟩, none)
    | none =>
      let h := (h.engMark c .flg true l leaf 8).engWrite c l leaf (natLe 8 c.stampWord) true
      let h := if c.scope = .warp then h else h.attachAll (recWords c.fn l 8) c.snap false
      let h := h.onBlock (wkBlock c.wk) fun b => { b with ready := c.units.foldl (fun t u => Tab.put t u c.snap) b.ready }
      (h, c, some l)

/-- What the issuing warp keeps of a completed command: its token, its failure, its release. -/
def Warp.completed (w : Warp) (c : Cmd) (stamp : Option Loc) : Warp :=
  let q := w.queue c.kind
  let q := if c.tok then { q with tokens := q.tokens ++ [(c.token, c.snap)], reserved := q.reserved - 1 } else q
  let q := if c.status ≠ 0 ∧ q.failure.isNone then { q with failure := some ⟨c.seq, stamp, c.trap⟩ } else q
  let w := w.setQueue c.kind q
  if c.kind = .matrix then { w with mseq := w.mseq - 1, macqDone := w.macqDone ++ [(c.scope, c.snap)] }
  else { w with acqDone := w.acqDone ++ [(c.seq, c.scope, c.snap)] }

/-- A command leaves its queues; an array lent to it goes back (R259). -/
def Hw.dequeue (h : Hw) (id : Nat) : Hw :=
  { h with
    cmds := Tab.del h.cmds id
    fcores := Tab.mapVals (fun _ (f : FCore) =>
      { f with mq := f.mq.filter (· != id), cq := f.cq.filter (· != id), gq := f.gq.filter (· != id)
               lent := if f.lent = some id then none else f.lent }) h.fcores }

/-- Does a command's stamp wait: for its translation, for another engine that owns its line, for a link, a channel or a rebase (R15,
R19, R189, R209)? -/
def Hw.stampWaits (h : Hw) (e : Env) (c : Cmd) : Bool :=
  c.stampVa != 0#64 && (h.engWalkWaits e c c.stampVa || match h.stampPlace e c with
    | some (l, leaf) => h.engWaits c true l leaf 8 || (match l with | .mem pa => Tab.has h.owners (lineOf pa) | _ => false)
    | none => false)

/-- The end of a command whose payload is over and whose credits have been made, once its stamp need not wait. -/
def Hw.finishCmd (h : Hw) (e : Env) (id : Nat) (c : Cmd) : Hw :=
  let h := h.releaseLines id c
  let at_ := h.stampPlace e c
  if h.stampWaits e c then
    h.plan (endStep c.opc) { Occasion.none with unit := id }
  else
    let h := h.releaseSync c.core c.ctx c.scope
    let (h, c, stamp) := h.writeStamp c at_
    let h := if c.bc then c.unwritten.foldl (fun h (x : Nat × Nat) => if x.2 = 0 then h else h.creditBarrier e c x.1 x.2) h else h
    let h := h.onWarp c.wk fun w => w.completed c stamp
    let h := if c.kind = .copy then
        h.emit e c.fn c.core 1 0x03 (payAt 16 (c.claim h .eng false).party.toNat ||| payAt 20 (c.seq % 2 ^ 48) |||
          payAt 26 (c.status % 256) ||| payAt 27 c.late.toNat)
      else h
    let h := if c.kind = .copy ∧ 64 ≤ c.paid then h.count c.fn 0 c.core 0x05 0 (c.paid / 64) else h
    let h := (h.dequeue id).kick c.fn c.core
    let h := if c.kind = .matrix then (h.kick c.fn (c.core + 1)).kick c.fn (c.core - c.core % 2) else h
    (h.afterEnd (wkBlock c.wk)).moved

/-- The end of command `unit` by the step that is its own, once its payload is over and its credits have been made. -/
def commandEnd (step : Instr) (e : Env) (h : Hw) : Hw :=
  match Tab.find? h.cmds h.occ.unit with
  | none => h
  | some c =>
    if !c.moved || endStep c.opc != step then h
    else if !c.credit.isEmpty || c.packets != 0 then h.plan step h.occ
    else h.finishCmd e h.occ.unit c

/-- COPY_COMMAND_END (R263 steps 4 and 5). -/
def execCopyCommandEnd (s : State) : Host.Outcome State Fault Refusal := s.event (commandEnd .copyCommandEnd)
/-- MATRIX_RETIRE (R91, R222, R252, R259). -/
def execMatrixRetire (s : State) : Host.Outcome State Fault Refusal := s.event (commandEnd .matrixRetire)
/-- RING_COMMAND_END (R222, R252, R266). -/
def execRingCommandEnd (s : State) : Host.Outcome State Fault Refusal := s.event (commandEnd .ringCommandEnd)

/-! ## Copies and gathers -/

/-- Bytes that move together: a source (none reads zero), a destination with its place, how many; neither side crosses a
line. -/
structure Xfer where
  src : Option DWord
  dst : DWord
  loc : Loc
  n   : Nat
  deriving DecidableEq, Repr

/-- Cut a move where either side meets a line boundary. -/
def cutBoth : Nat → Option DWord → DWord → Nat → List (Option DWord × DWord × Nat)
  | 0, _, _, _ => []
  | k + 1, s, d, n =>
    if n = 0 then []
    else
      let m := min n (128 - d.toNat % 128)
      let m := match s with
        | some a => min m (128 - a.toNat % 128)
        | none => m
      (s, d, m) :: cutBoth k (s.map fun a => addrOff a m) (addrOff d m) (n - m)

/-- Source and destination of a job's pieces; a destination outside the tensor is skipped. -/
def Job.moves (j : Job) : List (Option DWord × DWord × Nat) :=
  j.pieces.flatMap fun p =>
    if j.out then match p.tensor with
      | some t => cutBoth (p.n / 64 + 3) (some p.packed) t p.n
      | none => []
    else cutBoth (p.n / 64 + 3) p.tensor p.packed p.n

/-- Places of the moves, or the first that fails (R263 step 1). -/
def Hw.placeMoves (h : Hw) (e : Env) (c : Cmd) : List (Option DWord × DWord × Nat) → Except EngFail (List Xfer)
  | [] => .ok []
  | (s, d, n) :: l =>
    match (match s with
      | some a => (match h.engLocate e c false a n with
        | .error r => some (⟨r, a, false, none⟩ : EngFail)
        | .ok _ => none)
      | none => none) with
    | some f => .error f
    | none => match h.engLocate e c true d n with
      | .error r => .error ⟨r, d, true, none⟩
      | .ok (loc, _) => match h.placeMoves e c l with
        | .error f => .error f
        | .ok ms => .ok (⟨s, d, loc, n⟩ :: ms)

/-- Do n bytes at a place and the 8 of a stamp overlap? -/
def Loc.meets (a : Loc) (n : Nat) (b : Loc) : Bool :=
  match a, b with
  | .mem x, .mem y => decide (x < y + 8) && decide (y < x + n)
  | .scr c x, .scr d y => c == d && decide (x < y + 8) && decide (y < x + n)
  | _, _ => false

/-- The checks before ownership (R263, R264): the captured record, every page, the stamp's, its overlap with the
destination, the barrier index. -/
def Hw.copyChecks (h : Hw) (e : Env) (c : Cmd) (j : Job) : Except EngFail (List Xfer) :=
  if j.bad ≠ 0 then .error ⟨j.bad, j.badA, false, none⟩
  else match h.placeMoves e c j.moves with
    | .error f => .error f
    | .ok ms =>
      match h.stampBad e c with
      | some f => .error f
      | none =>
        let bars := match h.block? (wkBlock c.wk) with
          | some b => b.shape.bars
          | none => 0
        if (match h.stampPlace e c with
            | some (l, _) => ms.any fun m => m.loc.meets m.n l
            | none => false) then .error ⟨0x01, c.pair 1, true, none⟩
        else if c.bc ∧ bars ≤ c.barIdx then .error ⟨0x06, 0#64, true, none⟩
        else .ok ms

/-- Does a source tile refuse (R90): poisoned, or valid with another format? -/
def Hw.tagRefuses (h : Hw) (fn fmt : Nat) (l : Loc) : Bool :=
  let t := h.tagOf fn l
  tagSt t == 3 || (tagSt t == 0 && tagFmt t != fmt)

/-- Read the sources of one destination line. -/
def Hw.lineReads (h : Hw) (e : Env) (c : Cmd) (fmt : Option Nat) : List Xfer → Reads (List (Xfer × List Byte))
  | [] => .ok (h, [])
  | m :: ms =>
    match m.src with
    | none => match h.lineReads e c fmt ms with
      | .error f => .error f
      | .ok (h, l) => .ok (h, (m, zeros m.n) :: l)
    | some a =>
      if (match h.engLocate e c false a m.n, fmt with
          | .ok (l, _), some f => h.tagRefuses c.fn f l
          | _, _ => false) then .error (h, ⟨0x0D, a, false, none⟩)
      else match h.engGet e c .eng a m.n with
        | .error f => .error (h, f)
        | .ok (h, bs) => match h.lineReads e c fmt ms with
          | .error f => .error f
          | .ok (h, l) => .ok (h, (m, bs) :: l)

/-- Is a place in a tile that the command took? -/
def Cmd.took (c : Cmd) : Loc → Bool
  | .mem pa => c.tiles.contains (tileOf pa, false, 0)
  | .scr core off => c.tiles.contains (off / 4096, true, core)
  | .alias_ _ => false

/-- One destination line: nothing of it is written if any of its accesses fails (R225). -/
def Hw.copyLine (h : Hw) (e : Env) (c : Cmd) (fmt : Option Nat) (ms : List Xfer) : Except (Hw × EngFail) Hw :=
  match h.lineReads e c fmt ms with
  | .error f => .error f
  | .ok (h, l) =>
    match ms.findSome? fun m =>
        if h.engWalkWaits e c m.dst then some (EngFail.later m.dst)
        else match h.engLocate e c true m.dst m.n with
        | .error r => some (⟨r, m.dst, true, none⟩ : EngFail)
        | .ok (loc, leaf) =>
          if h.engWaits c true loc leaf m.n then some (.later m.dst)
          else (h.engCheck c .eng true loc leaf m.n).map fun x => ⟨x.1, m.dst, true, x.2⟩ with
    | some f => .error (h, f)
    | none => .ok (l.foldl (fun h x =>
        match h.engLocate e c true x.1.dst x.1.n with
        | .error _ => h
        | .ok (loc, leaf) => (h.engMark c .eng true loc leaf x.1.n).engWrite c loc leaf x.2 (!c.took loc)) h)

/-- Key of the line of a place: memory lines by address, then scratchpad lines. -/
def lineKey : Loc → Nat
  | .mem pa => lineOf pa
  | .scr core off => 2 ^ 60 + core * 2 ^ 20 + lineOf off
  | .alias_ _ => 2 ^ 61

/-- The moves by destination line, rising. -/
def byLine (ms : List Xfer) : Tab (List Xfer) :=
  ms.foldl (fun (t : Tab (List Xfer)) m => Tab.put t (lineKey m.loc) (Tab.getD t (lineKey m.loc) [] ++ [m])) []

/-- Move the payload line by line up to the first failure (R263 step 3); each line written plans its credit. None where an access
has to wait: the payload then moves later, from its first line. -/
def Hw.payload (h : Hw) (e : Env) (id : Nat) (fmt : Option Nat) (ms : List Xfer) : Option Hw :=
  (byLine ms).foldl (fun r l => r.bind fun h =>
    match Tab.find? h.cmds id with
    | none => some h
    | some c =>
      if c.status ≠ 0 then some h
      else match h.copyLine e c fmt l.2 with
        | .error (h, f) => if f.isLater then none else some (h.onCmd id fun c => c.fail f)
        | .ok h =>
          let h := h.onCmd id fun c => c.wrote (wkBlock c.wk) (l.2.map (·.n)).sum
          some (if c.bc then h.plan .byteCredit { Occasion.none with unit := id } else h)) (some h)

/-- Take the destination lines in rising order, up to one that another engine owns (R188): are all taken? -/
def Hw.takeLines (h : Hw) (id : Nat) : List Nat → Hw × Bool
  | [] => (h, true)
  | l :: ls =>
    match Tab.find? h.owners l with
    | some o => if o = id then h.takeLines id ls else (h, false)
    | none => ({ h with owners := Tab.put h.owners l id }.onCmd id fun c => { c with owned := c.owned ++ [l] }).takeLines id ls

/-- Does the translation of an address that a job names wait (R189)? -/
def Hw.movesWait (h : Hw) (e : Env) (c : Cmd) (j : Job) : Bool :=
  j.moves.any fun m => h.engWalkWaits e c m.2.1 || (match m.1 with | some a => h.engWalkWaits e c a | none => false)

/-- The first step of a copy's or gather's start: it leaves the queue's unstarted commands, emits COPYSTART, and a gather
reads its list as an engine access. None where that read has to wait. -/
def Hw.beginCopy (h : Hw) (e : Env) (id : Nat) (c : Cmd) (j : Job) : Option Hw :=
  let bk := wkBlock c.wk
  let h := h.onCmd id fun c => { c with started := true, unwritten := if c.bc then [(bk, j.total)] else [] }
  let h := if c.kind = .copy then
      h.emit e c.fn c.core 1 0x02 (payAt 16 (c.claim h .eng false).party.toNat ||| payAt 20 (c.seq % 2 ^ 48) ||| payAt 26 c.opc)
    else h
  if c.opc ≠ 0x20 ∨ j.bad ≠ 0 then some h
  else match h.engGets e c (addrOff 0xFE00000000000000#64 (c.word 5).toNat) (4 * (c.word 6).toNat) with
    | .error (h, f) => if f.isLater then none else some (h.onCmd id fun c => c.fail f)
    | .ok (h, _) => some h

/-- The start of a copy or gather: it may come back to this step to take a line that another engine owned, or for an access that had
to wait. -/
def engineCopy (opc : Nat) (step : Instr) (e : Env) (h : Hw) : Hw :=
  let id := h.occ.unit
  match Tab.find? h.cmds id with
  | none => h
  | some c =>
    if c.opc ≠ opc ∨ c.moved ∨ (¬ c.started ∧ h.mayStart id = false) then h
    else
      let j := h.jobOf e c
      let again (h : Hw) : Hw := h.plan step { Occasion.none with unit := id }
      if h.movesWait e c j then again h
      else match (if c.started then some h else h.beginCopy e id c j) with
      | none => again h
      | some h =>
        match Tab.find? h.cmds id with
        | none => h
        | some c =>
          if c.status ≠ 0 then (h.payloadOver id).moved
          else match h.copyChecks e c j with
            | .error f => ((h.onCmd id fun c => c.fail f).payloadOver id).moved
            | .ok ms =>
              match h.takeLines id (memLines (ms.map fun m => (m.loc, m.n))) with
              | (h, false) => again h
              | (h, true) => match h.payload e id j.fmt ms with
                | none => again h
                | some h => ((h.payloadOver id).kick c.fn c.core).moved

/-- ENGINE_COPY (R262, R263). -/
def execEngineCopy (s : State) : Host.Outcome State Fault Refusal := s.event (engineCopy 0x10 .engineCopy)
/-- ENGINE_COPYO (R262, R263). -/
def execEngineCopyo (s : State) : Host.Outcome State Fault Refusal := s.event (engineCopy 0x11 .engineCopyo)
/-- ENGINE_GATHER (R262, R263). -/
def execEngineGather (s : State) : Host.Outcome State Fault Refusal := s.event (engineCopy 0x20 .engineGather)

/-! ## Write-backs (R186) -/

/-- WRITE_BACK_MERGE: line `id` of context `aux` leaves the L1 of core `unit`; an owned line waits (R189). -/
def writeBackMerge (_e : Env) (h : Hw) : Hw :=
  let core := h.occ.unit
  let ctx := h.occ.aux
  let line := h.occ.id
  if (h.l1 core ctx line).dirty ≠ 0#128 ∧ Tab.has h.owners line = true then h.plan .writeBackMerge h.occ
  else (h.writeBackLine core ctx line).setL1 core ctx line L1Line.empty

/-- WRITE_BACK_MERGE (R186). -/
def execWriteBackMerge (s : State) : Host.Outcome State Fault Refusal := s.event writeBackMerge

end Sys2Proof.Machine
end

