-- ==== Sys2Proof/Machine/Array.lean ====
section
/-! DEFINITION. Sys2Proof/Machine/Array.lean: the matrix array: acceptance of MMA, DRAIN, MZERO and MLOAD (R241 to R246, R250,
R255 to R260; log 46). -/
namespace Sys2Proof.Machine

/-! ## Words and records -/

/-- A local scratchpad address, and an address of another core's scratchpad. -/
def localVa (off : Nat) : DWord := 0xFE00000000000000#64 ||| BitVec.ofNat 64 (off % 2 ^ 20)
def peerVa (core off : Nat) : DWord := 0xFD00000000000000#64 ||| BitVec.ofNat 64 (stopOf core * 2 ^ 20 + off % 2 ^ 20)
def isLocal (a : DWord) : Bool := a.extractLsb' 56 8 == 0xFE#8

def Cmd.unit (c : Cmd) : Nat := ((c.word 1).extractLsb' 0 6).toNat
/-- N div 16. -/
def Cmd.steps (c : Cmd) : Nat := ((c.word 1).extractLsb' 6 5).toNat + 1
/-- Is a word of a matrix command malformed (R255, R259)? -/
def Cmd.arrayBad (c : Cmd) : Bool :=
  let w := c.word 1
  (if c.opc == 5 || c.opc == 6 then w.extractLsb' 12 20 != 0#20 else w.extractLsb' 11 21 != 0#21) ||
    decide (64 < c.unit + c.steps) || (c.words.drop 2).any (fun x => x.extractLsb' 20 12 != 0#12 || x.extractLsb' 0 6 != 0#6) ||
    (pairedCmd c.opc w && !c.paired)
/-- Address of the record that word k names. -/
def Cmd.recVa (c : Cmd) (k : Nat) : DWord := localVa (c.word k).toNat

/-- A malformed word or record. -/
def malformed (a : DWord) : EngFail := ⟨0x01, a, false, none⟩

/-- Read the record that word k names, at acceptance (R248). -/
def Hw.arrayRec (h : Hw) (e : Env) (c : Cmd) (k : Nat) : Reads (BitVec 512) :=
  (h.engGets e c (c.recVa k) 64).map fun x => (x.1, BitVec.ofNat 512 (leNat x.2))

/-! ## Operands (R89, R90, R250, R256) -/

/-- Is a record no MMA operand? -/
def Rec.operandBad (r : Rec) (isB : Bool) : Bool :=
  let f := r.effFmt 0
  r.bad f || !isLocal r.base || !isNI f || decide (r.pread < 2) || decide (f - 0x10 < r.pread) ||
    (r.geom != 0 && !isLocal r.scb) || (isB && r.spar != 0)
def Rec.planesOf (r : Rec) : Nat := r.effFmt 0 - 0x10

/-- Bytes of one plane group as the array reads them. -/
structure Frag where
  planes : List Byte
  index  : List Byte
  scale  : List Byte
  deriving DecidableEq, Repr

/-- Lengths of a fragment's parts. -/
def Rec.fragLens (r : Rec) : Nat × Nat × Nat := (r.pread * planeBytes r.spar, indexBytes r.spar, scaleBytes r.geom)
/-- Ranges of group g. -/
def Rec.fragRanges (r : Rec) (g : Nat) : List (DWord × Nat) :=
  let base := addrOff r.base (g * Rec.dim r.str 0)
  let (p, i, s) := r.fragLens
  [(base, p), (addrOff base (r.planesOf * planeBytes r.spar), i), (addrOff r.scb (g * s), s)]

/-- Does a tile's tag refuse an operand read (R90)? -/
def Hw.operandClash (h : Hw) (fn : Nat) (r : Rec) (l : Loc) : Bool :=
  let t := h.tagOf fn l
  tagSt t == 3 || (tagSt t == 0 && (tagFmt t != r.effFmt 0 || tagLay t != r.lay))

/-- Read a range of an operand line by line. -/
def Hw.operandGets (h : Hw) (e : Env) (c : Cmd) (r : Rec) (va : DWord) (n : Nat) : Reads (List Byte) :=
  (cutLines (n / 128 + 2) va n).foldl (fun x a =>
    match x with
    | .error f => .error f
    | .ok (h, bs) =>
      if (match h.engLocate e c false a.1 a.2 with
          | .ok (l, _) => h.operandClash c.fn r l
          | .error _ => false) then .error (h, ⟨0x0D, a.1, false, none⟩)
      else match h.engGet e c .eng a.1 a.2 with
        | .error f => .error (h, f)
        | .ok (h, b) => .ok (h, bs ++ b)) (.ok (h, []))

/-- Read a fragment; `at_` says where an address of the record lies. -/
def Hw.readFrag (h : Hw) (e : Env) (c : Cmd) (r : Rec) (g : Nat) (at_ : DWord → DWord) : Reads Frag :=
  match (r.fragRanges g).foldl (fun (x : Reads (List (List Byte))) a =>
    match x with
    | .error f => .error f
    | .ok (h, l) => match h.operandGets e c r (at_ a.1) a.2 with
      | .error f => .error f
      | .ok (h, b) => .ok (h, l ++ [b])) (.ok (h, [])) with
  | .error f => .error f
  | .ok (h, l) => .ok (h, ⟨l.getD 0 [], l.getD 1 [], l.getD 2 []⟩)

/-- Bytes of a fragment by their place in the core's scratchpad, and the fragment back from them (R258). -/
def Frag.cells (f : Frag) (r : Rec) (spBase : Nat) : List (Nat × Byte) :=
  ((r.fragRanges 0).zip [f.planes, f.index, f.scale]).flatMap fun x =>
    x.2.zipIdx.map fun (y : Byte × Nat) => (spBase + (x.1.1.extractLsb' 0 20).toNat + y.2, y.1)
def Frag.ofCells (r : Rec) (l : List (Nat × Byte)) : Frag :=
  let b := l.map (·.2)
  let (p, i, s) := r.fragLens
  ⟨b.take p, (b.drop p).take i, (b.drop (p + i)).take s⟩

/-! ## Values (R241 to R243, R250) -/

def bitAt (a : Array Byte) (n : Nat) : Nat := if (a.getD (n / 8) 0#8).getLsbD (n % 8) then 1 else 0
/-- Kept elements of a row of 64. -/
def keptOf (spar : Nat) : Nat := 64 / 2 ^ spar
/-- Index of kept element n of a group. -/
def indexAt (spar : Nat) (a : Array Byte) (n : Nat) : Nat :=
  let b := if spar = 3 then 3 else 2
  (List.range b).foldl (fun s j => s + bitAt a (n * b + j) * 2 ^ j) 0
/-- Column of kept element m of row i. -/
def columnOf (spar : Nat) (a : Array Byte) (i m : Nat) : Nat :=
  let x := indexAt spar a (i * keptOf spar + m)
  if spar = 0 then m else if spar = 1 then m / 2 * 4 + x else if spar = 2 then 4 * m + x else 8 * m + x
/-- Do the indices of every group rise strictly? -/
def indexOk (spar : Nat) (a : Array Byte) : Bool :=
  spar != 1 || (List.range 2048).all fun g => decide (indexAt 1 a (2 * g) < indexAt 1 a (2 * g + 1))

/-- The 128 rows of 64 values of a fragment. -/
def Frag.rows (f : Frag) (r : Rec) (nbv : Nat) : Array (Array Int) :=
  let s := r.planesOf
  let p := r.pread
  let a := f.planes.toArray
  let ix := f.index.toArray
  let g := planeBytes r.spar
  let k := keptOf r.spar
  let val (n : Nat) : Int :=
    let u := (List.range p).foldl (fun u j => 2 * u + bitAt a (8 * g * j + n)) 0
    niValue nbv s p ((BitVec.ofNat p u).toInt * 2 ^ (s - p))
  ((List.range 128).map fun i =>
    (List.range k).foldl (fun (row : Array Int) m => row.setIfInBounds (columnOf r.spar ix i m) (val (i * k + m)))
      (Array.replicate 64 0)).toArray

/-- An operand's rows of values with their exponents for K-blocks 0 and 1. -/
structure Side where
  vals : Array (Array Int)
  exps : Array (Int × Int)

def Frag.side (f : Frag) (r : Rec) (nbv : Nat) : Side :=
  let sc := f.scale.toArray
  let ex (i b : Nat) : Int := if r.geom = 0 then 0 else (sc.getD (128 * (if r.geom = 2 then b else 0) + i) 0#8).toInt
  ⟨f.rows r nbv, ((List.range 128).map fun i => (ex i 0, ex i 1)).toArray⟩
def Side.append (x y : Side) : Side := ⟨x.vals ++ y.vals, x.exps ++ y.exps⟩

/-! ## MMA arithmetic (R244) -/

/-- Exact sum of products over [lo, hi). -/
def dot (a b : Array Int) (lo hi : Nat) : Int :=
  (List.range (hi - lo)).foldl (fun s k => s + a.getD (lo + k) 0 * b.getD (lo + k) 0) 0
def scaled (x : Int) (e : Int) : Fv := .fin (decide (x < 0)) x.natAbs e

/-- The update of one accumulator element. -/
def mmaElement (nb nbv : Nat) (zero : Bool) (a b : Array Int) (ea eb : Int × Int) (c : Word) : Word :=
  let f := Fmt.fp32
  let c := f.flushIn nbv (if zero then 0 else c.toNat)
  let t := if nb = 2 then
      (scaled (dot a b 0 32) (ea.1 + eb.1)).add 0 (scaled (dot a b 32 64) (ea.2 + eb.2))
    else scaled (dot a b 0 64) (ea.1 + eb.1)
  BitVec.ofNat 32 (f.flushIn nbv (f.bits 0 3 ((f.val c).add 0 t)))

/-- Accumulators of units [u, u + n) as an array, and back. -/
def FCore.accOf (f : FCore) (u n : Nat) : Array Word :=
  f.acc.foldl (fun (a : Array Word) x => if 2048 * u ≤ x.1 then a.setIfInBounds (x.1 - 2048 * u) x.2 else a)
    (Array.replicate (2048 * n) 0#32)
def FCore.setAcc (f : FCore) (u n : Nat) (val : Nat → Nat → Word) : FCore :=
  { f with acc := (f.acc.filter fun x => decide (x.1 < 2048 * u)) ++
      ((List.range (2048 * n)).filterMap fun k =>
        let v := val (k / 16 % 128) (k / 2048 * 16 + k % 16)
        if v = 0#32 then none else some (2048 * u + k, v)) ++
      f.acc.filter fun x => decide (2048 * (u + n) ≤ x.1) }

/-- An MMA's update of one core's units. -/
def FCore.mma (f : FCore) (u n nb nbv : Nat) (zero : Bool) (a b : Side) : FCore :=
  let old := f.accOf u n
  f.setAcc u n fun i j => mmaElement nb nbv zero (a.vals.getD i #[]) (b.vals.getD j #[]) (a.exps.getD i (0, 0))
    (b.exps.getD j (0, 0)) (old.getD (j / 16 * 2048 + 16 * i + j % 16) 0#32)

/-! ## Latches (R258) -/

/-- An MMA that names another offset drops a latch. -/
def Hw.unlatch (h : Hw) (c : Cmd) (a b : Nat) : Hw :=
  let other (l : Option (Nat × Nat × BitVec 512)) (o : Nat) : Bool := match l with
    | some (x, _) => x != o
    | none => false
  h.onFCore c.fn c.core fun f =>
    let da := other f.latchA a
    let db := other f.latchB b
    { f with latchA := if da then none else f.latchA, latchAB := if da then [] else f.latchAB
             latchB := if db then none else f.latchB, latchBB := if db then [] else f.latchBB }

/-- An operand's record, its first fragment, where its block's scratchpad starts, and whether it was latched. -/
structure Taken where
  bits : BitVec 512
  frag : Frag
  base : Nat
  hit  : Bool

def Taken.rec_ (t : Taken) : Rec := Rec.of t.bits

/-- Take an operand: from its latch, or by reading record and first fragment. -/
def Hw.takeOperand (h : Hw) (e : Env) (c : Cmd) (k spBase : Nat) : Reads Taken :=
  let isB := k == 3
  let f := h.fcore c.fn c.core
  match (if isB then f.latchB else f.latchA) with
  | some (_, base, bits) => .ok (h, ⟨bits, .ofCells (Rec.of bits) (if isB then f.latchBB else f.latchAB), base, true⟩)
  | none =>
    match h.arrayRec e c k with
    | .error x => .error x
    | .ok (h, bits) =>
      let r := Rec.of bits
      if r.operandBad isB then .error (h, malformed (c.recVa k))
      else match h.readFrag e c r 0 id with
        | .error x => .error x
        | .ok (h, fr) =>
          if !indexOk r.spar fr.index.toArray then .error (h, malformed (c.recVa k)) else .ok (h, ⟨bits, fr, spBase, false⟩)

/-- Keep what was read where its record asks for it. -/
def Hw.latch (h : Hw) (c : Cmd) (k spBase : Nat) (t : Taken) : Hw :=
  if t.hit ∨ ¬ t.rec_.reuse then h
  else
    let l := some (spBase + (c.word k).toNat, spBase, t.bits)
    let bs := t.frag.cells t.rec_ spBase
    h.onFCore c.fn c.core fun f => if k = 3 then { f with latchB := l, latchBB := bs } else { f with latchA := l, latchAB := bs }

/-! ## MMA (R256, R259) -/

/-- The follower's A: each of its ranges lies wholly in an allocation of the cluster. -/
def Hw.followerA (h : Hw) (e : Env) (c : Cmd) (b : Block) (a : Taken) : Reads Frag :=
  let at_ (va : DWord) : DWord := peerVa (c.core + 1) (a.base + (va.extractLsb' 0 20).toNat)
  match (a.rec_.fragRanges 0).find? fun x =>
      x.2 != 0 && (h.blockAt c.fn b (c.core + 1) (a.base + (x.1.extractLsb' 0 20).toNat) x.2).isNone with
  | some x => .error (h, ⟨0x06, at_ x.1, false, none⟩)
  | none =>
    match h.readFrag e c a.rec_ 0 at_ with
    | .error f => .error f
    | .ok (h, fr) =>
      if !indexOk a.rec_.spar fr.index.toArray then .error (h, malformed (c.recVa 2)) else .ok (h, fr)

/-- The rows of B: its first fragment and those of its further groups, which lie where the latching block's scratchpad lay; an
offset beyond every scratchpad fails as a local address does. -/
def Hw.restOfB (h : Hw) (e : Env) (c : Cmd) (t : Taken) (nbv : Nat) : Reads Side :=
  let r := t.rec_
  let groups := (16 * c.steps + 127) / 128
  let at_ (va : DWord) : DWord :=
    let off := t.base + (va.extractLsb' 0 20).toNat
    if va.extractLsb' 20 36 ≠ 0#36 then va
    else if off < 2 ^ 20 then peerVa c.core off else 0xFE00000000000000#64 ||| BitVec.ofNat 64 off
  (List.range (groups - 1)).foldl (fun x g =>
    match x with
    | .error f => .error f
    | .ok (h, s) => match h.readFrag e c r (g + 1) (if t.hit then at_ else id) with
      | .error f => .error f
      | .ok (h, fr) => .ok (h, s.append (fr.side r nbv))) (.ok (h, t.frag.side r nbv))

/-- Cycles of an MMA's steps (R257). -/
def mmaCycles (steps : Nat) (a b : Rec) : Nat := steps * max 1 ((a.pread * b.pread + 4 * 2 ^ a.spar - 1) / (4 * 2 ^ a.spar))

/-- Array cycles of a command count on its core, and on its follower where it holds both arrays (Table 11.7). -/
def Hw.arrayCycles (h : Hw) (c : Cmd) (n : Nat) : Hw :=
  let h := h.count c.fn 0 c.core 0x04 0 n
  if c.paired then h.count c.fn 0 (c.core + 1) 0x04 0 n else h

/-- The reads and the update of an MMA. -/
def Hw.mma (h : Hw) (e : Env) (c : Cmd) (b : Block) : Except (Hw × EngFail) Hw := do
  let nbv := c.nbv.toNat
  let n := c.steps
  let (h, ta) ← h.takeOperand e c 2 b.spBase
  let (h, tb) ← h.takeOperand e c 3 b.spBase
  let ra := ta.rec_
  let rb := tb.rec_
  if ra.geom ≠ 0 ∧ rb.geom ≠ 0 ∧ ra.geom ≠ rb.geom then .error (h, malformed (c.recVa 2))
  else
    let nb := if ra.geom = 2 ∨ rb.geom = 2 then 2 else 1
    let (h, sb) ← h.restOfB e c tb nbv
    let zero := c.opc == 3 || c.opc == 4
    let (h, own) ← (if c.paired then (h.followerA e c b ta).map fun x => (x.1, some x.2) else .ok (h, none))
    let h := (h.latch c 2 b.spBase ta).latch c 3 b.spBase tb
    let h := h.onFCore c.fn c.core fun f => f.mma c.unit n nb nbv zero (ta.frag.side ra nbv) sb
    let h := match own with
      | some fr => h.onFCore c.fn (c.core + 1) fun f => f.mma c.unit n nb nbv zero (fr.side ra nbv) sb
      | none => h
    .ok (h.arrayCycles c (mmaCycles n ra rb))

/-! ## DRAIN (R246, R260) -/

/-- The mode of a drain. -/
def drainMode (rmode nbv : Word) : Nat :=
  if nbv = 1#32 then 1 else if nbv = 2#32 then 0 else if rmode.getLsbD 3 then 1 else (rmode.extractLsb' 0 3).toNat

/-- One element drained to a format: its bits, or the low bits of its integer. -/
def drainElement (f mode nbv : Nat) (ts c : Word) : Nat :=
  let y := (Fmt.fp32.operand nbv c.toNat).mul (Fmt.fp32.val ts.toNat)
  if isNI f then
    let s := f - 0x10
    let hi : Int := 2 ^ (s - 1) - 1
    let lo : Int := -(2 ^ (s - 1))
    let q := match y with
      | .nan => 0
      | .inf n => if n then lo else hi
      | .fin n m e => clampI lo hi (roundInt mode n m e)
    (BitVec.ofInt s q).toNat
  else if f = 3 then Fmt.fp32.bits mode nbv y else Fmt.bf16.bits mode nbv y

/-- A TS that ends a drain. -/
def tsBad (ts : Word) : Bool := ts.extractLsb' 23 8 == 0#8 || ts.extractLsb' 23 8 == 255#8

/-- Join a piece to the run it continues. -/
def addRun (l : List (Nat × List Byte)) (p : Nat × List Byte) : List (Nat × List Byte) :=
  match l with
  | (o, bs) :: r => if o + bs.length = p.1 then (o, bs ++ p.2) :: r else p :: l
  | [] => [p]

/-- Bytes a drain writes, as runs from offsets of BASE. -/
def Rec.drainRuns (r : Rec) (n : Nat) (val : Nat → Nat → Nat) : List (Nat × List Byte) :=
  let f := tagFmt r.otag
  if isNI f then
    (r.drainRanges n).zipIdx.map fun (x : (Nat × Nat) × Nat) =>
      let s := f - 0x10
      let b := x.2 / s
      let j := x.2 % s
      (x.1.1, (List.range 1024).map fun k => (List.range 8).foldl (fun (v : Byte) t =>
        if (val (k / 8) (64 * b + 8 * (k % 8) + t)).testBit (s - 1 - j) then v ||| (1#8 <<< t) else v) 0#8)
  else
    (List.range 128).flatMap fun i =>
      ((List.range n).foldl (fun l j =>
        let o := i * Rec.dim r.str 0 + j * elemSize f
        addRun l (if tagLay r.otag = 3 then swizzle r.swz o else o, natLe (elemSize f) (val i j))) []).reverse

/-- Write runs line by line up to the first failure; a tile the command took keeps its tag. -/
def Hw.drainWrite (h : Hw) (e : Env) (c : Cmd) (runs : List (DWord × List Byte)) : Hw × Option EngFail :=
  (runs.flatMap fun x => (cutLines (x.2.length / 128 + 2) x.1 x.2.length).map fun y =>
      (y.1, (x.2.drop (y.1 - x.1).toNat).take y.2)).foldl (fun r x =>
    match r.2 with
    | some _ => r
    | none =>
      let raw := match r.1.engLocate e c true x.1 x.2.length with
        | .ok (l, _) => !c.took l
        | .error _ => true
      match r.1.engPut e c .eng x.1 x.2 raw with
      | .ok h => (h, none)
      | .error f => (r.1, some f)) (h, none)

/-- The drain of a command: its writes, up to the first failure. -/
def Hw.drain (h : Hw) (e : Env) (c : Cmd) (b : Block) : Except (Hw × EngFail) (Hw × Option EngFail) := do
  let (h, bits) ← h.arrayRec e c 2
  let r := Rec.of bits
  let n := 16 * c.steps
  if !r.drainOk n || tsBad r.ts then .error (h, malformed (c.recVa 2))
  else if tagLay r.otag = 3 ∧ r.base.toNat % 1024 ≠ 0 then .error (h, ⟨0x04, r.base, true, none⟩)
  else
    let mode := drainMode c.rmode c.nbv
    let val (acc : Array Word) (i j : Nat) : Nat := drainElement (tagFmt r.otag) mode c.nbv.toNat r.ts
      (acc.getD (j / 16 * 2048 + 16 * i + j % 16) 0#32)
    let acc (core : Nat) : Array Word := (h.fcore c.fn core).accOf c.unit c.steps
    let own := (r.drainRuns n (val (acc c.core))).map fun x => (addrOff r.base x.1, x.2)
    let far := if c.paired then (r.drainRuns n (val (acc (c.core + 1)))).map fun x =>
        (peerVa (c.core + 1) (b.spBase + (r.base.extractLsb' 0 20).toNat + x.1), x.2)
      else []
    .ok ((h.arrayCycles c c.steps).drainWrite e c (own ++ far))

/-! ## MZERO and MLOAD (R260) -/

def Hw.mzero (h : Hw) (c : Cmd) : Hw :=
  let h := (h.arrayCycles c c.steps).onFCore c.fn c.core fun f => f.setAcc c.unit c.steps fun _ _ => 0#32
  if c.paired then h.onFCore c.fn (c.core + 1) fun f => f.setAcc c.unit c.steps fun _ _ => 0#32 else h

/-- Rows of an MLOAD. -/
def Hw.mload (h : Hw) (e : Env) (c : Cmd) : Except (Hw × EngFail) Hw := do
  let (h, bits) ← h.arrayRec e c 2
  let r := Rec.of bits
  if r.bad (r.effFmt 0) || r.effFmt 0 != 3 || r.lay != 0 || !isLocal r.base then .error (h, malformed (c.recVa 2))
  else
    let n := 16 * c.steps
    let (h, rows) ← (List.range 128).foldl (fun (x : Reads (Array (Array Byte))) i =>
      match x with
      | .error f => .error f
      | .ok (h, rows) => match h.engGets e c (addrOff r.base (i * Rec.dim r.str 0)) (4 * n) with
        | .error f => .error f
        | .ok (h, bs) => .ok (h, rows.push bs.toArray)) (.ok (h, #[]))
    let val (i j : Nat) : Word :=
      let row := rows.getD i #[]
      BitVec.ofNat 32 (leNat ((List.range 4).map fun k => row.getD (4 * j + k) 0#8))
    .ok ((h.arrayCycles c c.steps).onFCore c.fn c.core fun f => f.setAcc c.unit c.steps val)

/-! ## Acceptance -/

/-- What a command does once the array has accepted it: an MMA that names another offset drops a latch even where it then fails
(R258), and what was read before a failure stays marked (R248). -/
def Hw.arrayDo (h : Hw) (e : Env) (c : Cmd) (b : Block) : Reads (Option EngFail) :=
  let isMma := decide (1 ≤ c.opc) && decide (c.opc ≤ 4)
  let h := if isMma then h.unlatch c (b.spBase + (c.word 2).toNat) (b.spBase + (c.word 3).toNat) else h
  if c.arrayBad then .error (h, malformed (if c.words.length < 3 then 0#64 else c.recVa 2))
  else if c.opc = 5 then h.drain e c b
  else if c.opc = 6 then .ok (h.mzero c, none)
  else if c.opc = 7 then (h.mload e c).map fun h => (h, none)
  else (h.mma e c b).map fun h => (h, none)

/-- The array accepts command `unit` and does what it says; retirement follows. Where a read or a write has to wait, the array
accepts it later. -/
def arrayStep (ok : Nat → Bool) (e : Env) (h : Hw) : Hw :=
  let id := h.occ.unit
  match Tab.find? h.cmds id with
  | none => h
  | some c =>
    match h.block? (wkBlock c.wk) with
    | none => h
    | some b =>
      if !ok c.opc || h.mayStart id = false then h
      else
        let h1 := h.onCmd id fun c => { c with started := true }
        let h1 := if c.paired then h1.onFCore c.fn (c.core + 1) fun f => { f with lent := some id } else h1
        let failed (k : Hw) (f : EngFail) : Hw :=
          if f.isLater then h.plan (startStep c.opc) { Occasion.none with unit := id }
          else (k.onCmd id fun c => c.fail f).payloadOver id
        match h1.arrayDo e c b with
        | .error (k, f) => failed k f
        | .ok (k, none) => k.payloadOver id
        | .ok (k, some f) => failed k f

/-- ARRAY_MMA (R244, R255 to R259). -/
def execArrayMma (s : State) : Host.Outcome State Fault Refusal := s.event (arrayStep fun o => decide (1 ≤ o) && decide (o ≤ 4))
/-- ARRAY_DRAIN (R246, R260). -/
def execArrayDrain (s : State) : Host.Outcome State Fault Refusal := s.event (arrayStep (· == 5))
/-- ARRAY_MZERO (R260). -/
def execArrayMzero (s : State) : Host.Outcome State Fault Refusal := s.event (arrayStep (· == 6))
/-- ARRAY_MLOAD (R260). -/
def execArrayMload (s : State) : Host.Outcome State Fault Refusal := s.event (arrayStep (· == 7))

end Sys2Proof.Machine
end

