-- ==== Sys2Proof/Machine/DebugInstr.lean ====
section
/-! DEFINITION. Sys2Proof/Machine/DebugInstr.lean: ENTER, LEAVE, BKPT, TRACE and TRAP (R272, R273, R409 to R411), the
counter session's registers (R280 to R284, R418), TICK and YIELD (R419). -/
namespace Sys2Proof.Machine

/-! ## Regions -/

/-- Push a region identifier (R272). -/
def Warp.enterRegion (w : Warp) (id : BitVec 16) : Warp :=
  if w.region.length < 16 then { w with region := id :: w.region }
  else { w with region := id :: w.region.take 15, lost := min 255 (w.lost + 1) }

/-- Pop a region identifier (R272). -/
def Warp.leaveRegion (w : Warp) : Warp :=
  match w.region with
  | _ :: l => { w with region := l }
  | [] => { w with lost := w.lost - 1 }

/-- Is the warp told to stop at its next region edge, and by STOPREQ (R273)? -/
def Hw.stopAsked (h : Hw) (wk : Nat) : Bool × Bool :=
  let d := (h.fn (wkFn wk)).dbg
  let named := d.stopReq && d.slot == wkSlot wk && d.warp == wkIdx wk
  (named || d.stopAll, named)

/-- ENTER and LEAVE: a region edge and a progress event in user mode; REGIONSTOP follows the retirement (R273, R409). -/
def regionEdge (ins : Instr) (s : State) (f : Warp → Warp) : Host.Outcome State Fault Refusal :=
  s.run fun e h =>
    match Iss.of h with
    | none => .fault .noIssuer
    | some q =>
      let user := q.w.mode = .user
      let r : Except Stop Hw := do
        q.rank2 h ins
        let h := h.onWarp q.wk fun w => if user then (f w).progress (some q.x) e.clk.cycle else f w
        q.retire ins (h.goto q.wk q.x q.next)
      match r with
      | .ok h =>
        let (stop, named) := h.stopAsked q.wk
        if user ∧ stop = true then
          let h := if named then h.onFn q.fn fun g => { g with dbg := { g.dbg with stopReq := false } } else h
          .next (h.takeTrap e q.wk q.x ⟨BitVec.ofNat 64 cREGIONSTOP, q.next, 0#64, if q.x then 1#64 else 0#64, 0#64⟩)
        else .next h
      | r => settle e h q r

/-- ENTER (R272, R409). -/
def execEnter (h : BitVec 2) (m l : BitVec 7) (s : State) : Host.Outcome State Fault Refusal :=
  regionEdge (.enter h m l) s fun w => w.enterRegion (h ++ (m ++ l))

/-- LEAVE (R272, R409). -/
def execLeave (s : State) : Host.Outcome State Fault Refusal := regionEdge .leave s Warp.leaveRegion

/-! ## Breakpoint, trace, trap -/

/-- BKPT (R275, R410). -/
def execBkpt (s : State) : Host.Outcome State Fault Refusal :=
  issue .bkpt s fun _ _ _ => .error (.trap (BitVec.ofNat 64 cBKPT) 0#64 (some 0#64) 0#64)

/-- TRACE (R278, R410): a USER record. -/
def execTrace (i : Bool) (a b : RField) (x y : Bool) (s : State) : Host.Outcome State Fault Refusal :=
  issue (.trace i a b x y) s fun e h q =>
    let party := partyOf q.slot q.widx q.b.gen
    .ok (h.emit e q.fn q.core 3 0x05 (payAt 16 party.toNat ||| payAt 20 (q.p.pc.extractLsb' 0 32).toNat |||
      payAt 24 (q.ra a x i q.lane0).toNat ||| payAt 28 (q.rb b y q.lane0).toNat))

/-- TRAP (R411). -/
def execTrap (n : BitVec 7) (s : State) : Host.Outcome State Fault Refusal :=
  issue (.trap n) s fun _ _ _ => .error (.trap (BitVec.ofNat 64 cTRAPI) 0#64 (some (n.setWidth 64)) 0#64)

/-! ## Counter sessions (Table 11.6) -/

def Hw.ctr (h : Hw) (f n : Nat) : Ctr := Tab.getD (h.fn f).ctrs n Ctr.reset
def Hw.setCtr (h : Hw) (f n : Nat) (c : Ctr) : Hw := h.onFn f fun x => { x with ctrs := Tab.put x.ctrs n c }

/-- Is an event of a class one of Table 11.7? -/
def eventOk (cls ev : Nat) : Bool :=
  (cls == 0 && decide (1 ≤ ev) && decide (ev ≤ 8)) || (cls == 1 && decide (0x10 ≤ ev) && decide (ev ≤ 0x14)) ||
    (cls == 2 && decide (0x20 ≤ ev) && decide (ev ≤ 0x22)) || (cls == 3 && decide (0x30 ≤ ev) && decide (ev ≤ 0x32))

/-- Is a selection of a function available (R281, R283)? -/
def Hw.selAvailable (h : Hw) (f : Nat) (sel : Word) : Bool :=
  let cls := (sel.extractLsb' 0 4).toNat
  let unit := (sel.extractLsb' 4 9).toNat
  let o := (h.part (h.partOf f)).owns
  let all := sel.getLsbD 13
  eventOk cls (sel.extractLsb' 14 8).toNat &&
    (match cls with
     | 0 => all || (decide (unit < 160) && o.rings.getLsbD (ringOf unit))
     | 1 => all || o.slices.getLsbD unit
     | 2 => all || o.chans.getLsbD unit
     | _ => true)

/-- Write a function's selection (Table 11.6 +0x00): ignored while the PF claims the counter (R282, R283). -/
def Hw.selectCtr (h : Hw) (f n : Nat) (sel : Word) : Hw :=
  let c := h.ctr f n
  if c.hold then h
  else
    let sel := sel &&& 0x1FFFFFFF#32
    let ok := h.selAvailable f sel
    h.setCtr f n { c with sel := sel, lost := !ok, val := if c.lost && ok then 0 else c.val }

/-- What is available to a function has changed: a counter whose selection no longer is becomes LOST (R283). -/
def Hw.recheckCtrs (h : Hw) (f : Nat) : Hw :=
  h.onFn f fun x => { x with ctrs := Tab.mapVals (fun _ (c : Ctr) => { c with lost := c.lost || (c.sel != 0#32 && !h.selAvailable f c.sel) }) x.ctrs }

/-- What a function reads of its counter: CTRVAL, OVF, SEIZED, LOST (R281 to R283). -/
def Hw.readCtr (h : Hw) (f n : Nat) : Nat × Bool × Bool × Bool :=
  let c := h.ctr f n
  let val := if c.lost then 0xFFFFFFFFFFFF
    else if f ≠ 0 ∧ c.sel.extractLsb' 0 4 = 3#4 then 0 else c.val
  (val, c.ovf, c.hold, c.lost)

/-- RDCTR (R418). -/
def execRdctr (i : Bool) (d a : RField) (x : Bool) (s : State) : Host.Outcome State Fault Refusal :=
  issue (.rdctr i d a x) s fun e h q =>
    let (v, ovf, hold, lost) := h.readCtr q.fn ((q.ra a x i q.lane0).extractLsb' 0 2).toNat
    q.put e ((Use.dst d).wide 2) (fun _ =>
      halves (BitVec.ofNat 64 (v + ovf.toNat * 2 ^ 48 + hold.toNat * 2 ^ 49 + lost.toNat * 2 ^ 50))) h

/-- CTRCTL (R418). -/
def execCtrctl (i : Bool) (a b : RField) (x y : Bool) (s : State) : Host.Outcome State Fault Refusal :=
  issue (.ctrctl i a b x y) s fun _ h q =>
    let n := ((q.ra a x i q.lane0).extractLsb' 0 2).toNat
    let v := q.rb b y q.lane0
    if v.extractLsb' 29 3 ≠ 0#3 then .error (.plain cILLEGAL)
    else if (h.ctr q.fn n).hold then .ok h
    else
      let h := h.selectCtr q.fn n v
      .ok (h.setCtr q.fn n { (h.ctr q.fn n) with val := 0, ovf := false })

/-! ## Time -/

/-- TICK (R419). -/
def execTick (d : RField) (s : State) : Host.Outcome State Fault Refusal :=
  issue (.tick d) s fun e h q =>
    q.put e ((Use.dst d).wide 2) (fun _ => halves (BitVec.ofNat 64 (localTick e q.core))) h

/-- YIELD: the path issues again after 64 cycles (R419). -/
def execYield (s : State) : Host.Outcome State Fault Refusal :=
  issue .yield s fun e h q =>
    .ok (h.onPath q.wk q.x fun p => { p with yieldTo := some (e.clk.cycle + 64) })

/-- YIELD_END: the paths of warp `id` whose 64 cycles have passed may issue again. -/
def yieldEnd (e : Env) (h : Hw) : Hw :=
  let one (p : Path) : Path := match p.yieldTo with
    | some t => if t ≤ e.clk.cycle then { p with yieldTo := none, stall := 0 } else p
    | none => p
  (h.onWarp h.occ.id fun w =>
    { w with
      p0 := one w.p0, p1 := one w.p1
      frame := w.frame.map fun f => { f with p0 := one f.p0, p1 := one f.p1 } }).moved

/-- YIELD_END (R419). -/
def execYieldEnd (s : State) : Host.Outcome State Fault Refusal := s.event yieldEnd

end Sys2Proof.Machine
end

