-- ==== Sys2Proof/Decode.lean ====
section
/-! DEFINITION. Sys2Proof/Decode.lean: from instruction words to instructions and back (chapters 12 to 16).
A word is first taken apart by its format (Table 12.1); each major opcode then names its instruction and checks its
reserved bits. The value limits that Table 12.8 adds (register kinds, labels, conditions, scope codes) are in
Machine/Shape.lean: a word that breaks them is an instruction that raises ILLEGAL when it issues, as any other. -/
namespace Sys2Proof

/-- Why a word names no instruction: a nonzero reserved field, or a reserved sub-operation (R6, R296). Either
raises ILLEGAL. -/
inductive Reject where
  | rsvField (major : Nat)
  | rsvSub (sub : Nat)
  deriving DecidableEq, Repr

/-! ## The six formats (Table 12.1) -/

/-- Format A. -/
structure FmtA where
  i : Bool
  d : BitVec 7
  a : BitVec 7
  b : BitVec 7
  ea : Bool
  eb : Bool
  f : BitVec 2
  deriving DecidableEq, Repr

/-- Format I. -/
structure FmtI where
  d : BitVec 7
  a : BitVec 7
  ea : Bool
  imm : BitVec 11
  deriving DecidableEq, Repr

/-- Format L. -/
structure FmtL where
  d : BitVec 7
  imm : BitVec 19
  deriving DecidableEq, Repr

/-- Format J. -/
structure FmtJ where
  a : BitVec 7
  off : BitVec 19
  deriving DecidableEq, Repr

/-- Format M. -/
structure FmtM where
  t : BitVec 7
  a : BitVec 7
  lbl : BitVec 3
  sz : BitVec 3
  off : BitVec 6
  deriving DecidableEq, Repr

/-- Format X. -/
structure FmtX where
  sub : BitVec 6
  d : BitVec 7
  a : BitVec 7
  rsv : BitVec 6
  deriving DecidableEq, Repr

/-- The major opcode, bits [31:26]. -/
def majorOf (w : Word) : BitVec 6 := w.extractLsb' 26 6

def unpackA (w : Word) : FmtA :=
  ⟨w.getLsbD 25, w.extractLsb' 18 7, w.extractLsb' 11 7, w.extractLsb' 4 7, w.getLsbD 3, w.getLsbD 2,
    w.extractLsb' 0 2⟩
def unpackI (w : Word) : FmtI := ⟨w.extractLsb' 19 7, w.extractLsb' 12 7, w.getLsbD 11, w.extractLsb' 0 11⟩
def unpackL (w : Word) : FmtL := ⟨w.extractLsb' 19 7, w.extractLsb' 0 19⟩
def unpackJ (w : Word) : FmtJ := ⟨w.extractLsb' 19 7, w.extractLsb' 0 19⟩
def unpackM (w : Word) : FmtM :=
  ⟨w.extractLsb' 19 7, w.extractLsb' 12 7, w.extractLsb' 9 3, w.extractLsb' 6 3, w.extractLsb' 0 6⟩
def unpackX (w : Word) : FmtX := ⟨w.extractLsb' 20 6, w.extractLsb' 13 7, w.extractLsb' 6 7, w.extractLsb' 0 6⟩

def packA (op : BitVec 6) (x : FmtA) : Word :=
  op ++ (BitVec.ofBool x.i ++ (x.d ++ (x.a ++ (x.b ++ (BitVec.ofBool x.ea ++ (BitVec.ofBool x.eb ++ x.f))))))
def packI (op : BitVec 6) (x : FmtI) : Word := op ++ (x.d ++ (x.a ++ (BitVec.ofBool x.ea ++ x.imm)))
def packL (op : BitVec 6) (x : FmtL) : Word := op ++ (x.d ++ x.imm)
def packJ (op : BitVec 6) (x : FmtJ) : Word := op ++ (x.a ++ x.off)
def packM (op : BitVec 6) (x : FmtM) : Word := op ++ (x.t ++ (x.a ++ (x.lbl ++ (x.sz ++ x.off))))
def packX (op : BitVec 6) (x : FmtX) : Word := op ++ (x.sub ++ (x.d ++ (x.a ++ x.rsv)))

/-! ## Fields inside a field (Table 12.2, Table 16.2) -/

/-- A predicate number in bits [2:0] of a register field, bits [6:3] reserved. -/
def pred3? (x : BitVec 7) : Option (BitVec 3) :=
  if x.extractLsb' 3 4 = 0#4 then some (x.extractLsb' 0 3) else none
def pred3 (p : BitVec 3) : BitVec 7 := 0#4 ++ p

/-- Destination predicate in d[2:0] with the condition code in d[6:3]. -/
def ccOf (x : BitVec 7) : BitVec 4 := x.extractLsb' 3 4
def ccPred (x : BitVec 7) : BitVec 3 := x.extractLsb' 0 3
def ccPack (c : BitVec 4) (p : BitVec 3) : BitVec 7 := c ++ p

/-- BRP's field a: predicate, invert, uniform assertion. -/
def brp? (x : BitVec 7) : Option (Bool × Bool × BitVec 3) :=
  if x.extractLsb' 5 2 = 0#2 then some (x.getLsbD 4, x.getLsbD 3, x.extractLsb' 0 3) else none
def brpPack (u n : Bool) (p : BitVec 3) : BitVec 7 := 0#2 ++ (BitVec.ofBool u ++ (BitVec.ofBool n ++ p))

/-- A literal in the low bits of a field, the bits above reserved. -/
def lit4? (x : BitVec 7) : Option (BitVec 4) :=
  if x.extractLsb' 4 3 = 0#3 then some (x.extractLsb' 0 4) else none
def lit4 (n : BitVec 4) : BitVec 7 := 0#3 ++ n
def lit2? (x : BitVec 7) : Option (BitVec 2) :=
  if x.extractLsb' 2 5 = 0#5 then some (x.extractLsb' 0 2) else none
def lit2 (n : BitVec 2) : BitVec 7 := 0#5 ++ n
def lit5? (x : BitVec 7) : Option (BitVec 5) :=
  if x.extractLsb' 5 2 = 0#2 then some (x.extractLsb' 0 5) else none
def lit5 (n : BitVec 5) : BitVec 7 := 0#2 ++ n

/-- SHI's immediate: kind in [10:9], amount in [4:0], [8:5] reserved. -/
def shi? (x : BitVec 11) : Option (BitVec 2 × BitVec 5) :=
  if x.extractLsb' 5 4 = 0#4 then some (x.extractLsb' 9 2, x.extractLsb' 0 5) else none
def shiPack (h : BitVec 2) (n : BitVec 5) : BitVec 11 := h ++ (0#4 ++ n)

/-- The scope code {I, ea, eb} (Table 12.3). -/
def scopeOf (x : FmtA) : BitVec 3 := BitVec.ofBool x.i ++ (BitVec.ofBool x.ea ++ BitVec.ofBool x.eb)

/-- Answer `v` if the reserved bits are zero. -/
def guardRsv (major : Nat) (ok : Bool) (v : Instr) : Except Reject Instr :=
  if ok then .ok v else .error (.rsvField major)

/-- Answer `f v` if the reserved bits beside `v` are zero. -/
def guardSome {α : Type} (major : Nat) (v : Option α) (f : α → Except Reject Instr) : Except Reject Instr :=
  match v with
  | some x => f x
  | none => .error (.rsvField major)

/-- Major 0x00 (Table 12.6). -/
def major00 (x : FmtA) : Except Reject Instr :=
  match x.f.toNat with
  | 0 => guardRsv 0 (true) (.add x.i x.d x.a x.b x.ea x.eb)
  | 1 => guardRsv 0 (true) (.sub x.i x.d x.a x.b x.ea x.eb)
  | 2 => guardRsv 0 (true) (.min x.i x.d x.a x.b x.ea x.eb)
  | _ => guardRsv 0 (true) (.max x.i x.d x.a x.b x.ea x.eb)

/-- Major 0x01 (Table 12.6). -/
def major01 (x : FmtA) : Except Reject Instr :=
  match x.f.toNat with
  | 0 => guardRsv 1 (true) (.minu x.i x.d x.a x.b x.ea x.eb)
  | 1 => guardRsv 1 (true) (.maxu x.i x.d x.a x.b x.ea x.eb)
  | 2 => guardRsv 1 (true) (.absd x.i x.d x.a x.b x.ea x.eb)
  | _ => guardRsv 1 (true) (.addsat x.i x.d x.a x.b x.ea x.eb)

/-- Major 0x02 (Table 12.6). -/
def major02 (x : FmtA) : Except Reject Instr :=
  match x.f.toNat with
  | 0 => guardRsv 2 (true) (.mul x.i x.d x.a x.b x.ea x.eb)
  | 1 => guardRsv 2 (true) (.mulh x.i x.d x.a x.b x.ea x.eb)
  | 2 => guardRsv 2 (true) (.mulhu x.i x.d x.a x.b x.ea x.eb)
  | _ => guardRsv 2 (true) (.mad x.i x.d x.a x.b x.ea x.eb)

/-- Major 0x03 (Table 12.6). -/
def major03 (x : FmtA) : Except Reject Instr :=
  match x.f.toNat with
  | 0 => guardRsv 3 (true) (.and x.i x.d x.a x.b x.ea x.eb)
  | 1 => guardRsv 3 (true) (.or x.i x.d x.a x.b x.ea x.eb)
  | 2 => guardRsv 3 (true) (.xor x.i x.d x.a x.b x.ea x.eb)
  | _ => guardRsv 3 (true) (.andn x.i x.d x.a x.b x.ea x.eb)

/-- Major 0x04 (Table 12.6). -/
def major04 (x : FmtA) : Except Reject Instr :=
  match x.f.toNat with
  | 0 => guardRsv 4 (true) (.shl x.i x.d x.a x.b x.ea x.eb)
  | 1 => guardRsv 4 (true) (.shr x.i x.d x.a x.b x.ea x.eb)
  | 2 => guardRsv 4 (true) (.sha x.i x.d x.a x.b x.ea x.eb)
  | _ => guardRsv 4 (true) (.rot x.i x.d x.a x.b x.ea x.eb)

/-- Major 0x05 (Table 12.6). -/
def major05 (x : FmtA) : Except Reject Instr :=
  match x.f.toNat with
  | 0 => guardRsv 5 (true) (.div x.i x.d x.a x.b x.ea x.eb)
  | 1 => guardRsv 5 (true) (.divu x.i x.d x.a x.b x.ea x.eb)
  | 2 => guardRsv 5 (true) (.rem x.i x.d x.a x.b x.ea x.eb)
  | _ => guardRsv 5 (true) (.remu x.i x.d x.a x.b x.ea x.eb)

/-- Major 0x06 (Table 12.6). -/
def major06 (x : FmtA) : Except Reject Instr :=
  match x.f.toNat with
  | 0 => guardRsv 6 (x.b == 0#7 && !x.eb) (.clz x.i x.d x.a x.ea)
  | 1 => guardRsv 6 (x.b == 0#7 && !x.eb) (.popc x.i x.d x.a x.ea)
  | 2 => guardRsv 6 (x.b == 0#7 && !x.eb) (.brev x.i x.d x.a x.ea)
  | _ => guardRsv 6 (x.b == 0#7 && !x.eb) (.ffs x.i x.d x.a x.ea)

/-- Major 0x07 (Table 12.6). -/
def major07 (x : FmtA) : Except Reject Instr :=
  match x.f.toNat with
  | 0 => guardRsv 7 (true) (.bfx x.i x.d x.a x.b x.ea x.eb)
  | 1 => guardRsv 7 (true) (.bfxz x.i x.d x.a x.b x.ea x.eb)
  | 2 => guardRsv 7 (true) (.bfi x.i x.d x.a x.b x.ea x.eb)
  | _ => guardRsv 7 (true) (.permb x.i x.d x.a x.b x.ea x.eb)

/-- Major 0x08 (Table 12.6). -/
def major08 (x : FmtI) : Except Reject Instr :=
  guardRsv 8 (true) (.addi x.d x.a x.ea x.imm)

/-- Major 0x09 (Table 12.6). -/
def major09 (x : FmtI) : Except Reject Instr :=
  guardRsv 9 (true) (.muli x.d x.a x.ea x.imm)

/-- Major 0x0A (Table 12.6). -/
def major0A (x : FmtI) : Except Reject Instr :=
  guardRsv 10 (true) (.andi x.d x.a x.ea x.imm)

/-- Major 0x0B (Table 12.6). -/
def major0B (x : FmtI) : Except Reject Instr :=
  guardRsv 11 (true) (.ori x.d x.a x.ea x.imm)

/-- Major 0x0C (Table 12.6). -/
def major0C (x : FmtI) : Except Reject Instr :=
  guardRsv 12 (true) (.xori x.d x.a x.ea x.imm)

/-- Major 0x0D (Table 12.6). -/
def major0D (x : FmtI) : Except Reject Instr :=
  guardSome 13 (shi? x.imm) fun (h, n) => guardRsv 13 (true) (.shi x.d x.a x.ea h n)

/-- Major 0x0E (Table 12.6). -/
def major0E (x : FmtI) : Except Reject Instr :=
  guardRsv 14 (true) (.cmpi (ccOf x.d) (ccPred x.d) x.a x.ea x.imm)

/-- Major 0x0F (Table 12.6). -/
def major0F (x : FmtL) : Except Reject Instr :=
  guardRsv 15 (true) (.lui x.d x.imm)

/-- Major 0x10 (Table 12.6). -/
def major10 (x : FmtA) : Except Reject Instr :=
  match x.f.toNat with
  | 0 => guardRsv 16 (true) (.cmp x.i (ccOf x.d) (ccPred x.d) x.a x.b x.ea x.eb)
  | 1 => guardRsv 16 (true) (.fcmp x.i (ccOf x.d) (ccPred x.d) x.a x.b x.ea x.eb)
  | 2 => guardRsv 16 (true) (.dcmp x.i (ccOf x.d) (ccPred x.d) x.a x.b x.ea x.eb)
  | _ => guardSome 16 (pred3? x.d) fun p => guardRsv 16 (!x.eb) (.fclass x.i p x.a x.b x.ea)

/-- Major 0x11 (Table 12.6). -/
def major11 (x : FmtA) : Except Reject Instr :=
  guardRsv 17 (true) (.sel x.i x.d x.a x.b x.ea x.eb x.f)

/-- Major 0x12 (Table 12.6). -/
def major12 (x : FmtA) : Except Reject Instr :=
  match x.f.toNat with
  | 0 => guardSome 18 (pred3? x.d) fun p => guardSome 18 (pred3? x.a) fun q => guardSome 18 (pred3? x.b) fun r => guardRsv 18 (!x.i && !x.ea && !x.eb) (.pand p q r)
  | 1 => guardSome 18 (pred3? x.d) fun p => guardSome 18 (pred3? x.a) fun q => guardSome 18 (pred3? x.b) fun r => guardRsv 18 (!x.i && !x.ea && !x.eb) (.por p q r)
  | 2 => guardSome 18 (pred3? x.d) fun p => guardSome 18 (pred3? x.a) fun q => guardSome 18 (pred3? x.b) fun r => guardRsv 18 (!x.i && !x.ea && !x.eb) (.pxor p q r)
  | _ => guardSome 18 (pred3? x.d) fun p => guardSome 18 (pred3? x.a) fun q => guardSome 18 (pred3? x.b) fun r => guardRsv 18 (!x.i && !x.ea && !x.eb) (.pandn p q r)

/-- Major 0x13 (Table 12.6). -/
def major13 (x : FmtA) : Except Reject Instr :=
  match x.f.toNat with
  | 0 => guardSome 19 (pred3? x.a) fun p => guardRsv 19 (!x.i && x.b == 0#7 && !x.ea && !x.eb) (.ptov x.d p)
  | 1 => guardSome 19 (pred3? x.d) fun p => guardRsv 19 (x.b == 0#7 && !x.eb) (.vtop x.i p x.a x.ea)
  | 2 => guardSome 19 (pred3? x.d) fun p => guardSome 19 (pred3? x.a) fun q => guardRsv 19 (!x.i && x.b == 0#7 && !x.ea && !x.eb) (.voteAny p q)
  | _ => guardSome 19 (pred3? x.d) fun p => guardSome 19 (pred3? x.a) fun q => guardRsv 19 (!x.i && x.b == 0#7 && !x.ea && !x.eb) (.voteAll p q)

/-- Major 0x14 (Table 12.6). -/
def major14 (x : FmtA) : Except Reject Instr :=
  match x.f.toNat with
  | 0 => guardRsv 20 (x.b == 0#7 && !x.eb) (.mov x.i x.d x.a x.ea)
  | 1 => guardRsv 20 (!x.i && x.b == 0#7 && !x.eb) (.movx x.d x.a x.ea)
  | 2 => guardSome 20 (pred3? x.a) fun p => guardRsv 20 (!x.i && !x.ea) (.ballot x.d p x.b x.eb)
  | _ => guardRsv 20 (!x.i && x.a == 0#7 && x.b == 0#7 && !x.ea && !x.eb) (.nlanes x.d)

/-- Major 0x15 (Table 12.6). -/
def major15 (x : FmtA) : Except Reject Instr :=
  match x.f.toNat with
  | 0 => guardRsv 21 (true) (.shflIdx x.i x.d x.a x.b x.ea x.eb)
  | 1 => guardRsv 21 (true) (.shflUp x.i x.d x.a x.b x.ea x.eb)
  | 2 => guardRsv 21 (true) (.shflDn x.i x.d x.a x.b x.ea x.eb)
  | _ => guardRsv 21 (true) (.shflXor x.i x.d x.a x.b x.ea x.eb)

/-- Major 0x16 (Table 12.6). -/
def major16 (x : FmtA) : Except Reject Instr :=
  match x.f.toNat with
  | 0 => guardSome 22 (pred3? x.d) fun p => guardRsv 22 (!x.i && x.a == 0#7 && x.b == 0#7 && !x.ea && !x.eb) (.elect p)
  | 1 => guardRsv 22 (!x.i && x.a == 0#7 && x.b == 0#7 && !x.ea && !x.eb) (.firstl x.d)
  | 2 => guardRsv 22 (!x.i && x.d == 0#7 && x.a == 0#7 && x.b == 0#7 && !x.ea && !x.eb) (.pack)
  | _ => guardRsv 22 (true) (.rdlane x.i x.d x.a x.b x.ea x.eb)

/-- Major 0x17 (Table 12.6). -/
def major17 (x : FmtA) : Except Reject Instr :=
  match x.f.toNat with
  | 0 => guardRsv 23 (true) (.bcast x.i x.d x.a x.b x.ea x.eb)
  | 1 => guardRsv 23 (true) (.wrlane x.i x.d x.a x.b x.ea x.eb)
  | 2 => guardRsv 23 (x.b == 0#7 && !x.eb) (.rdxAdd x.i x.d x.a x.ea)
  | _ => guardRsv 23 (x.b == 0#7 && !x.eb) (.rdxMax x.i x.d x.a x.ea)

/-- Major 0x18 (Table 12.6). -/
def major18 (x : FmtA) : Except Reject Instr :=
  match x.f.toNat with
  | 0 => guardRsv 24 (x.b == 0#7 && !x.eb) (.rdxMin x.i x.d x.a x.ea)
  | 1 => guardRsv 24 (x.b == 0#7 && !x.eb) (.rdxOr x.i x.d x.a x.ea)
  | 2 => guardRsv 24 (x.b == 0#7 && !x.eb) (.rdxAnd x.i x.d x.a x.ea)
  | _ => guardRsv 24 (x.b == 0#7 && !x.eb) (.rdxFadd x.i x.d x.a x.ea)

/-- Major 0x19 (Table 12.6). -/
def major19 (x : FmtA) : Except Reject Instr :=
  match x.f.toNat with
  | 0 => guardRsv 25 (true) (.fadd x.i x.d x.a x.b x.ea x.eb)
  | 1 => guardRsv 25 (true) (.fsub x.i x.d x.a x.b x.ea x.eb)
  | 2 => guardRsv 25 (true) (.fmul x.i x.d x.a x.b x.ea x.eb)
  | _ => guardRsv 25 (true) (.ffma x.i x.d x.a x.b x.ea x.eb)

/-- Major 0x1A (Table 12.6). -/
def major1A (x : FmtA) : Except Reject Instr :=
  match x.f.toNat with
  | 0 => guardRsv 26 (true) (.fmin x.i x.d x.a x.b x.ea x.eb)
  | 1 => guardRsv 26 (true) (.fmax x.i x.d x.a x.b x.ea x.eb)
  | 2 => guardRsv 26 (true) (.fcpys x.i x.d x.a x.b x.ea x.eb)
  | _ => guardRsv 26 (true) (.fscale x.i x.d x.a x.b x.ea x.eb)

/-- Major 0x1B (Table 12.6). -/
def major1B (x : FmtA) : Except Reject Instr :=
  match x.f.toNat with
  | 0 => guardRsv 27 (true) (.fdiv x.i x.d x.a x.b x.ea x.eb)
  | 1 => guardRsv 27 (x.b == 0#7 && !x.eb) (.fsqrt x.i x.d x.a x.ea)
  | 2 => guardRsv 27 (x.b == 0#7 && !x.eb) (.frcp x.i x.d x.a x.ea)
  | _ => guardRsv 27 (x.b == 0#7 && !x.eb) (.frsq x.i x.d x.a x.ea)

/-- Major 0x1C (Table 12.6). -/
def major1C (x : FmtA) : Except Reject Instr :=
  match x.f.toNat with
  | 0 => guardRsv 28 (x.b == 0#7 && !x.eb) (.fexp2 x.i x.d x.a x.ea)
  | 1 => guardRsv 28 (x.b == 0#7 && !x.eb) (.flog2 x.i x.d x.a x.ea)
  | 2 => guardRsv 28 (x.b == 0#7 && !x.eb) (.fsin x.i x.d x.a x.ea)
  | _ => guardRsv 28 (x.b == 0#7 && !x.eb) (.fcos x.i x.d x.a x.ea)

/-- Major 0x1D (Table 12.6). -/
def major1D (x : FmtA) : Except Reject Instr :=
  match x.f.toNat with
  | 0 => guardRsv 29 (true) (.badd2 x.i x.d x.a x.b x.ea x.eb)
  | 1 => guardRsv 29 (true) (.bmul2 x.i x.d x.a x.b x.ea x.eb)
  | 2 => guardRsv 29 (true) (.bfma2 x.i x.d x.a x.b x.ea x.eb)
  | _ => guardRsv 29 (true) (.bmax2 x.i x.d x.a x.b x.ea x.eb)

/-- Major 0x1E (Table 12.6). -/
def major1E (x : FmtA) : Except Reject Instr :=
  match x.f.toNat with
  | 0 => guardRsv 30 (true) (.hadd2 x.i x.d x.a x.b x.ea x.eb)
  | 1 => guardRsv 30 (true) (.hmul2 x.i x.d x.a x.b x.ea x.eb)
  | 2 => guardRsv 30 (true) (.hfma2 x.i x.d x.a x.b x.ea x.eb)
  | _ => guardRsv 30 (true) (.hmax2 x.i x.d x.a x.b x.ea x.eb)

/-- Major 0x1F (Table 12.6). -/
def major1F (x : FmtA) : Except Reject Instr :=
  match x.f.toNat with
  | 0 => guardRsv 31 (true) (.dadd x.i x.d x.a x.b x.ea x.eb)
  | 1 => guardRsv 31 (true) (.dmul x.i x.d x.a x.b x.ea x.eb)
  | 2 => guardRsv 31 (true) (.dfma x.i x.d x.a x.b x.ea x.eb)
  | _ => guardRsv 31 (true) (.ddiv x.i x.d x.a x.b x.ea x.eb)

/-- Major 0x20 (Table 12.6). -/
def major20 (x : FmtA) : Except Reject Instr :=
  match x.f.toNat with
  | 0 => guardRsv 32 (x.b == 0#7 && !x.eb) (.cvtFI x.i x.d x.a x.ea)
  | 1 => guardRsv 32 (x.b == 0#7 && !x.eb) (.cvtFZ x.i x.d x.a x.ea)
  | 2 => guardRsv 32 (x.b == 0#7 && !x.eb) (.cvtIF x.i x.d x.a x.ea)
  | _ => guardRsv 32 (x.b == 0#7 && !x.eb) (.cvtZF x.i x.d x.a x.ea)

/-- Major 0x21 (Table 12.6). -/
def major21 (x : FmtA) : Except Reject Instr :=
  match x.f.toNat with
  | 0 => guardRsv 33 (x.b == 0#7 && !x.eb) (.cvtBfF x.i x.d x.a x.ea)
  | 1 => guardRsv 33 (x.b == 0#7 && !x.eb) (.cvtHF x.i x.d x.a x.ea)
  | 2 => guardRsv 33 (x.b == 0#7 && !x.eb) (.cvtFBf x.i x.d x.a x.ea)
  | _ => guardRsv 33 (x.b == 0#7 && !x.eb) (.cvtFH x.i x.d x.a x.ea)

/-- Major 0x22 (Table 12.6). -/
def major22 (x : FmtA) : Except Reject Instr :=
  match x.f.toNat with
  | 0 => guardRsv 34 (x.b == 0#7 && !x.eb) (.cvtDF x.i x.d x.a x.ea)
  | 1 => guardRsv 34 (x.b == 0#7 && !x.eb) (.cvtFD x.i x.d x.a x.ea)
  | 2 => guardRsv 34 (x.b == 0#7 && !x.eb) (.cvtI8F x.i x.d x.a x.ea)
  | _ => guardRsv 34 (x.b == 0#7 && !x.eb) (.frnd x.i x.d x.a x.ea)

/-- Major 0x23 (Table 12.6). -/
def major23 (x : FmtA) : Except Reject Instr :=
  match x.f.toNat with
  | 0 => guardRsv 35 (true) (.niq x.i x.d x.a x.b x.ea x.eb)
  | 1 => guardRsv 35 (true) (.nidq x.i x.d x.a x.b x.ea x.eb)
  | 2 => guardRsv 35 (!x.eb) (.sexp x.i x.d x.a x.b x.ea)
  | _ => guardRsv 35 (true) (.nipl x.i x.d x.a x.b x.ea x.eb)

/-- Major 0x24 (Table 12.6). -/
def major24 (x : FmtM) : Except Reject Instr :=
  guardRsv 36 (true) (.ld x.t x.a x.lbl x.sz x.off)

/-- Major 0x25 (Table 12.6). -/
def major25 (x : FmtM) : Except Reject Instr :=
  guardRsv 37 (true) (.st x.t x.a x.lbl x.sz x.off)

/-- Major 0x26 (Table 12.6). -/
def major26 (x : FmtA) : Except Reject Instr :=
  match x.f.toNat with
  | 0 => guardRsv 38 (true) (.ldxW x.i x.d x.a x.b x.ea x.eb)
  | 1 => guardRsv 38 (true) (.ldxD x.i x.d x.a x.b x.ea x.eb)
  | 2 => guardRsv 38 (true) (.stxW x.i x.d x.a x.b x.ea x.eb)
  | _ => guardRsv 38 (true) (.stxD x.i x.d x.a x.b x.ea x.eb)

/-- Major 0x27 (Table 12.6). -/
def major27 (x : FmtA) : Except Reject Instr :=
  match x.f.toNat with
  | 0 => guardRsv 39 (true) (.atomAdd (scopeOf x) x.d x.a x.b)
  | 1 => guardRsv 39 (true) (.atomMin (scopeOf x) x.d x.a x.b)
  | 2 => guardRsv 39 (true) (.atomMax (scopeOf x) x.d x.a x.b)
  | _ => guardRsv 39 (true) (.atomAnd (scopeOf x) x.d x.a x.b)

/-- Major 0x28 (Table 12.6). -/
def major28 (x : FmtA) : Except Reject Instr :=
  match x.f.toNat with
  | 0 => guardRsv 40 (true) (.atomOr (scopeOf x) x.d x.a x.b)
  | 1 => guardRsv 40 (true) (.atomXor (scopeOf x) x.d x.a x.b)
  | 2 => guardRsv 40 (true) (.atomMinu (scopeOf x) x.d x.a x.b)
  | _ => guardRsv 40 (true) (.atomMaxu (scopeOf x) x.d x.a x.b)

/-- Major 0x29 (Table 12.6). -/
def major29 (x : FmtA) : Except Reject Instr :=
  match x.f.toNat with
  | 0 => guardRsv 41 (true) (.xchg (scopeOf x) x.d x.a x.b)
  | 1 => guardRsv 41 (true) (.cas (scopeOf x) x.d x.a x.b)
  | 2 => guardRsv 41 (true) (.xchgD (scopeOf x) x.d x.a x.b)
  | _ => guardRsv 41 (true) (.casD (scopeOf x) x.d x.a x.b)

/-- Major 0x2A (Table 12.6). -/
def major2A (x : FmtA) : Except Reject Instr :=
  match x.f.toNat with
  | 0 => guardRsv 42 (x.d == 0#7) (.redAdd (scopeOf x) x.a x.b)
  | 1 => guardRsv 42 (x.d == 0#7) (.redMin (scopeOf x) x.a x.b)
  | 2 => guardRsv 42 (x.d == 0#7) (.redMax (scopeOf x) x.a x.b)
  | _ => guardRsv 42 (x.d == 0#7) (.redOr (scopeOf x) x.a x.b)

/-- Major 0x2B (Table 12.6). -/
def major2B (x : FmtA) : Except Reject Instr :=
  match x.f.toNat with
  | 0 => guardRsv 43 (true) (.atomFadd (scopeOf x) x.d x.a x.b)
  | 1 => guardRsv 43 (x.d == 0#7) (.redFadd (scopeOf x) x.a x.b)
  | 2 => guardRsv 43 (x.d == 0#7) (.redBfadd2 (scopeOf x) x.a x.b)
  | _ => guardRsv 43 (true) (.atomAddD (scopeOf x) x.d x.a x.b)

/-- Major 0x2C (Table 12.6). -/
def major2C (x : FmtA) : Except Reject Instr :=
  match x.f.toNat with
  | 0 => guardRsv 44 (x.b == 0#7 && !x.eb) (.bararr x.i x.d x.a x.ea)
  | 1 => guardRsv 44 (x.d == 0#7) (.barwait x.i x.a x.b x.ea x.eb)
  | 2 => guardRsv 44 (x.d == 0#7 && x.b == 0#7 && !x.eb) (.barsync x.i x.a x.ea)
  | _ => guardRsv 44 (true) (.barexp x.i x.d x.a x.b x.ea x.eb)

/-- Major 0x2D (Table 12.6). -/
def major2D (x : FmtA) : Except Reject Instr :=
  match x.f.toNat with
  | 0 => guardRsv 45 (x.d == 0#7) (.barinit x.i x.a x.b x.ea x.eb)
  | 1 => guardRsv 45 (x.d == 0#7 && x.b == 0#7 && !x.eb) (.barinv x.i x.a x.ea)
  | 2 => guardRsv 45 (x.b == 0#7 && !x.eb) (.barqry x.i x.d x.a x.ea)
  | _ => guardSome 45 (pred3? x.d) fun p => guardRsv 45 (true) (.bartry x.i p x.a x.b x.ea x.eb)

/-- Major 0x2E (Table 12.6). -/
def major2E (x : FmtA) : Except Reject Instr :=
  match x.f.toNat with
  | 0 => guardRsv 46 (x.d == 0#7 && x.a == 0#7 && x.b == 0#7) (.fenceAcq (scopeOf x))
  | 1 => guardRsv 46 (x.d == 0#7 && x.a == 0#7 && x.b == 0#7) (.fenceRel (scopeOf x))
  | 2 => guardRsv 46 (x.d == 0#7 && x.a == 0#7 && x.b == 0#7) (.fenceAr (scopeOf x))
  | _ => guardRsv 46 (x.d == 0#7 && x.a == 0#7 && x.b == 0#7) (.fenceSc (scopeOf x))

/-- Major 0x2F (Table 12.6). -/
def major2F (x : FmtA) : Except Reject Instr :=
  match x.f.toNat with
  | 0 => guardRsv 47 (x.d == 0#7 && x.b == 0#7) (.mon (scopeOf x) x.a)
  | 1 => guardRsv 47 (!x.i && x.a == 0#7 && x.b == 0#7 && !x.ea && !x.eb) (.mwait x.d)
  | 2 => guardRsv 47 (true) (.swait (scopeOf x) x.d x.a x.b)
  | _ => guardRsv 47 (x.d == 0#7 && x.b == 0#7 && !x.eb) (.twait x.i x.a x.ea)

/-- Major 0x30 (Table 12.6). -/
def major30 (x : FmtA) : Except Reject Instr :=
  match x.f.toNat with
  | 0 => guardRsv 48 (!x.i && x.a == 0#7 && x.b == 0#7 && !x.ea && !x.eb) (.cbatch x.d)
  | 1 => guardRsv 48 (x.d == 0#7 && x.b == 0#7 && !x.eb) (.cwait x.i x.a x.ea)
  | 2 => guardSome 48 (pred3? x.d) fun p => guardRsv 48 (x.b == 0#7 && !x.eb) (.cpoll x.i p x.a x.ea)
  | _ => guardRsv 48 (!x.i && x.a == 0#7 && x.b == 0#7 && !x.ea && !x.eb) (.cstamp x.d)

/-- Major 0x31 (Table 12.6). -/
def major31 (x : FmtJ) : Except Reject Instr :=
  guardRsv 49 (x.a == 0#7) (.bra x.off)

/-- Major 0x32 (Table 12.6). -/
def major32 (x : FmtJ) : Except Reject Instr :=
  guardSome 50 (brp? x.a) fun (u, n, p) => guardRsv 50 (true) (.brp u n p x.off)

/-- Major 0x33 (Table 12.6). -/
def major33 (x : FmtJ) : Except Reject Instr :=
  guardRsv 51 (true) (.call x.a x.off)

/-- Major 0x34 (Table 12.6). -/
def major34 (x : FmtJ) : Except Reject Instr :=
  guardRsv 52 (x.a == 0#7) (.jpt x.off)

/-- Major 0x35 (Table 12.6). -/
def major35 (x : FmtA) : Except Reject Instr :=
  match x.f.toNat with
  | 0 => guardRsv 53 (!x.i && x.d == 0#7 && x.a == 0#7 && x.b == 0#7 && !x.ea && !x.eb) (.join)
  | 1 => guardSome 53 (lit4? x.b) fun n => guardRsv 53 (!x.i && x.d == 0#7 && !x.eb) (.brkj x.a n x.ea)
  | 2 => guardRsv 53 (!x.i && x.d == 0#7 && x.a == 0#7 && x.b == 0#7 && !x.ea && !x.eb) (.exit)
  | _ => guardRsv 53 (!x.i && x.d == 0#7 && x.b == 0#7 && !x.eb) (.jmpr x.a x.ea)

/-- Major 0x36 (Table 12.6). -/
def major36 (x : FmtA) : Except Reject Instr :=
  match x.f.toNat with
  | 0 => guardRsv 54 (!x.i && !x.ea && !x.eb) (.mma x.d x.a x.b)
  | 1 => guardRsv 54 (!x.i && !x.ea && !x.eb) (.mmaP x.d x.a x.b)
  | 2 => guardRsv 54 (!x.i && !x.ea && !x.eb) (.mmaZ x.d x.a x.b)
  | _ => guardRsv 54 (!x.i && !x.ea && !x.eb) (.mmaPz x.d x.a x.b)

/-- Major 0x37 (Table 12.6). -/
def major37 (x : FmtA) : Except Reject Instr :=
  match x.f.toNat with
  | 0 => guardRsv 55 (!x.i && x.b == 0#7 && !x.ea && !x.eb) (.drain x.d x.a)
  | 1 => guardRsv 55 (!x.i && x.a == 0#7 && x.b == 0#7 && !x.ea && !x.eb) (.mzero x.d)
  | 2 => guardRsv 55 (!x.i && x.b == 0#7 && !x.ea && !x.eb) (.mload x.d x.a)
  | _ => guardRsv 55 (!x.i && x.d == 0#7 && x.a == 0#7 && x.b == 0#7 && !x.ea && !x.eb) (.mwaita)

/-- Major 0x38 (Table 12.6). -/
def major38 (x : FmtA) : Except Reject Instr :=
  match x.f.toNat with
  | 0 => guardRsv 56 (!x.i && !x.ea && !x.eb) (.copy x.d x.a x.b)
  | 1 => guardRsv 56 (!x.i && !x.ea && !x.eb) (.copyo x.d x.a x.b)
  | 2 => guardRsv 56 (!x.i && !x.ea && !x.eb) (.copyAt x.d x.a x.b)
  | _ => guardRsv 56 (!x.i && !x.ea && !x.eb) (.gather x.d x.a x.b)

/-- Major 0x39 (Table 12.6). -/
def major39 (x : FmtA) : Except Reject Instr :=
  match x.f.toNat with
  | 0 => guardRsv 57 (!x.i && x.b == 0#7 && !x.ea && !x.eb) (.send x.d x.a)
  | 1 => guardRsv 57 (!x.i && x.b == 0#7 && !x.ea && !x.eb) (.sendAt x.d x.a)
  | 2 => guardRsv 57 (!x.i && x.b == 0#7 && !x.ea && !x.eb) (.rred x.d x.a)
  | _ => guardRsv 57 (!x.i && x.b == 0#7 && !x.ea && !x.eb) (.rbcast x.d x.a)

/-- Major 0x3A (Table 12.6). -/
def major3A (x : FmtA) : Except Reject Instr :=
  match x.f.toNat with
  | 0 => guardRsv 58 (!x.i && x.b == 0#7 && !x.eb) (.tagrd x.d x.a x.ea)
  | 1 => guardRsv 58 (!x.i && x.d == 0#7) (.tagwr x.a x.b x.ea x.eb)
  | 2 => guardRsv 58 (!x.i && x.d == 0#7) (.tagchk x.a x.b x.ea x.eb)
  | _ => guardRsv 58 (!x.i && x.b == 0#7 && !x.eb) (.mdisp x.d x.a x.ea)

/-- Major 0x3B (Table 12.6). -/
def major3B (x : FmtA) : Except Reject Instr :=
  match x.f.toNat with
  | 0 => guardRsv 59 (!x.i && x.d == 0#7 && !x.ea && !x.eb) (.task x.a x.b)
  | 1 => guardRsv 59 (!x.i && x.d == 0#7 && x.b == 0#7 && !x.ea && !x.eb) (.tready x.a)
  | 2 => guardRsv 59 (x.d == 0#7 && x.b == 0#7 && !x.eb) (.resid x.i x.a x.ea)
  | _ => guardSome 59 (pred3? x.d) fun p => guardRsv 59 (!x.i && x.a == 0#7 && x.b == 0#7 && !x.ea && !x.eb) (.gchk p)

/-- Major 0x3C (Table 12.6). -/
def major3C (x : FmtA) : Except Reject Instr :=
  match x.f.toNat with
  | 0 => guardSome 60 (lit2? x.d) fun h => guardRsv 60 (!x.i && !x.ea && !x.eb) (.enter h x.a x.b)
  | 1 => guardRsv 60 (!x.i && x.d == 0#7 && x.a == 0#7 && x.b == 0#7 && !x.ea && !x.eb) (.leave)
  | 2 => guardRsv 60 (!x.i && x.d == 0#7 && x.a == 0#7 && x.b == 0#7 && !x.ea && !x.eb) (.bkpt)
  | _ => guardRsv 60 (x.d == 0#7) (.trace x.i x.a x.b x.ea x.eb)

/-- Major 0x3D (Table 12.6). -/
def major3D (x : FmtA) : Except Reject Instr :=
  match x.f.toNat with
  | 0 => guardRsv 61 (!x.i && x.d == 0#7 && x.a == 0#7 && !x.ea && !x.eb) (.trap x.b)
  | 1 => guardRsv 61 (!x.i && x.b == 0#7 && !x.ea && !x.eb) (.srd x.d x.a)
  | 2 => guardRsv 61 (!x.i && x.d == 0#7 && !x.ea) (.swr x.a x.b x.eb)
  | _ => guardSome 61 (lit5? x.a) fun w => guardSome 61 (lit2? x.b) fun u => guardRsv 61 (!x.i && x.d == 0#7 && !x.ea && !x.eb) (.win w u)

/-- Major 0x3E (Table 12.6). -/
def major3E (x : FmtA) : Except Reject Instr :=
  match x.f.toNat with
  | 0 => guardRsv 62 (x.b == 0#7 && !x.eb) (.rdctr x.i x.d x.a x.ea)
  | 1 => guardRsv 62 (x.d == 0#7) (.ctrctl x.i x.a x.b x.ea x.eb)
  | 2 => guardRsv 62 (!x.i && x.a == 0#7 && x.b == 0#7 && !x.ea && !x.eb) (.tick x.d)
  | _ => guardRsv 62 (!x.i && x.d == 0#7 && x.a == 0#7 && x.b == 0#7 && !x.ea && !x.eb) (.yield)

/-- Major 0x3F: the sub-operations (Table 16.8). -/
def major3F (x : FmtX) : Except Reject Instr :=
  match x.sub.toNat with
  | 0 => guardRsv 63 (x.d == 0#7 && x.a == 0#7 && x.rsv == 0#6) (.eret)
  | 1 => guardRsv 63 (x.rsv == 0#6) (.imask x.d x.a)
  | 2 => guardRsv 63 (x.d == 0#7 && x.rsv == 0#6) (.tlbir x.a)
  | 3 => guardRsv 63 (x.d == 0#7 && x.rsv == 0#6) (.tlbia x.a)
  | 4 => guardRsv 63 (x.d == 0#7 && x.rsv == 0#6) (.shoot x.a)
  | 5 => guardRsv 63 (x.d == 0#7 && x.rsv == 0#6) (.l1wb x.a)
  | 6 => guardRsv 63 (x.d == 0#7 && x.rsv == 0#6) (.l1inv x.a)
  | 7 => guardRsv 63 (x.d == 0#7 && x.rsv == 0#6) (.l2cln x.a)
  | 8 => guardRsv 63 (x.rsv == 0#6) (.haltb x.d x.a)
  | 9 => guardRsv 63 (x.d == 0#7 && x.rsv == 0#6) (.ctxsv x.a)
  | 10 => guardRsv 63 (x.d == 0#7 && x.rsv == 0#6) (.ctxld x.a)
  | 11 => guardRsv 63 (x.d == 0#7 && x.rsv == 0#6) (.dumpw x.a)
  | 12 => guardRsv 63 (x.d == 0#7 && x.a == 0#7 && x.rsv == 0#6) (.racew)
  | 13 => guardRsv 63 (x.rsv == 0#6) (.setmt x.d x.a)
  | n => .error (.rsvSub n)

/-- The instruction a word names, or why it names none; total on every word (R297, R299). -/
def decode (w : Word) : Except Reject Instr :=
  match (majorOf w).toNat with
  | 0 => major00 (unpackA w)
  | 1 => major01 (unpackA w)
  | 2 => major02 (unpackA w)
  | 3 => major03 (unpackA w)
  | 4 => major04 (unpackA w)
  | 5 => major05 (unpackA w)
  | 6 => major06 (unpackA w)
  | 7 => major07 (unpackA w)
  | 8 => major08 (unpackI w)
  | 9 => major09 (unpackI w)
  | 10 => major0A (unpackI w)
  | 11 => major0B (unpackI w)
  | 12 => major0C (unpackI w)
  | 13 => major0D (unpackI w)
  | 14 => major0E (unpackI w)
  | 15 => major0F (unpackL w)
  | 16 => major10 (unpackA w)
  | 17 => major11 (unpackA w)
  | 18 => major12 (unpackA w)
  | 19 => major13 (unpackA w)
  | 20 => major14 (unpackA w)
  | 21 => major15 (unpackA w)
  | 22 => major16 (unpackA w)
  | 23 => major17 (unpackA w)
  | 24 => major18 (unpackA w)
  | 25 => major19 (unpackA w)
  | 26 => major1A (unpackA w)
  | 27 => major1B (unpackA w)
  | 28 => major1C (unpackA w)
  | 29 => major1D (unpackA w)
  | 30 => major1E (unpackA w)
  | 31 => major1F (unpackA w)
  | 32 => major20 (unpackA w)
  | 33 => major21 (unpackA w)
  | 34 => major22 (unpackA w)
  | 35 => major23 (unpackA w)
  | 36 => major24 (unpackM w)
  | 37 => major25 (unpackM w)
  | 38 => major26 (unpackA w)
  | 39 => major27 (unpackA w)
  | 40 => major28 (unpackA w)
  | 41 => major29 (unpackA w)
  | 42 => major2A (unpackA w)
  | 43 => major2B (unpackA w)
  | 44 => major2C (unpackA w)
  | 45 => major2D (unpackA w)
  | 46 => major2E (unpackA w)
  | 47 => major2F (unpackA w)
  | 48 => major30 (unpackA w)
  | 49 => major31 (unpackJ w)
  | 50 => major32 (unpackJ w)
  | 51 => major33 (unpackJ w)
  | 52 => major34 (unpackJ w)
  | 53 => major35 (unpackA w)
  | 54 => major36 (unpackA w)
  | 55 => major37 (unpackA w)
  | 56 => major38 (unpackA w)
  | 57 => major39 (unpackA w)
  | 58 => major3A (unpackA w)
  | 59 => major3B (unpackA w)
  | 60 => major3C (unpackA w)
  | 61 => major3D (unpackA w)
  | 62 => major3E (unpackA w)
  | _ => major3F (unpackX w)

/-! ## The encoder, from the same tables -/

/-- The word of an encoded instruction; the steps of the package have none. -/
def encode? : Instr → Option Word
  | .add i d a b x y => some (packA 0x00#6 ⟨i, d, a, b, x, y, 0#2⟩)
  | .sub i d a b x y => some (packA 0x00#6 ⟨i, d, a, b, x, y, 1#2⟩)
  | .min i d a b x y => some (packA 0x00#6 ⟨i, d, a, b, x, y, 2#2⟩)
  | .max i d a b x y => some (packA 0x00#6 ⟨i, d, a, b, x, y, 3#2⟩)
  | .minu i d a b x y => some (packA 0x01#6 ⟨i, d, a, b, x, y, 0#2⟩)
  | .maxu i d a b x y => some (packA 0x01#6 ⟨i, d, a, b, x, y, 1#2⟩)
  | .absd i d a b x y => some (packA 0x01#6 ⟨i, d, a, b, x, y, 2#2⟩)
  | .addsat i d a b x y => some (packA 0x01#6 ⟨i, d, a, b, x, y, 3#2⟩)
  | .mul i d a b x y => some (packA 0x02#6 ⟨i, d, a, b, x, y, 0#2⟩)
  | .mulh i d a b x y => some (packA 0x02#6 ⟨i, d, a, b, x, y, 1#2⟩)
  | .mulhu i d a b x y => some (packA 0x02#6 ⟨i, d, a, b, x, y, 2#2⟩)
  | .mad i d a b x y => some (packA 0x02#6 ⟨i, d, a, b, x, y, 3#2⟩)
  | .and i d a b x y => some (packA 0x03#6 ⟨i, d, a, b, x, y, 0#2⟩)
  | .or i d a b x y => some (packA 0x03#6 ⟨i, d, a, b, x, y, 1#2⟩)
  | .xor i d a b x y => some (packA 0x03#6 ⟨i, d, a, b, x, y, 2#2⟩)
  | .andn i d a b x y => some (packA 0x03#6 ⟨i, d, a, b, x, y, 3#2⟩)
  | .shl i d a b x y => some (packA 0x04#6 ⟨i, d, a, b, x, y, 0#2⟩)
  | .shr i d a b x y => some (packA 0x04#6 ⟨i, d, a, b, x, y, 1#2⟩)
  | .sha i d a b x y => some (packA 0x04#6 ⟨i, d, a, b, x, y, 2#2⟩)
  | .rot i d a b x y => some (packA 0x04#6 ⟨i, d, a, b, x, y, 3#2⟩)
  | .div i d a b x y => some (packA 0x05#6 ⟨i, d, a, b, x, y, 0#2⟩)
  | .divu i d a b x y => some (packA 0x05#6 ⟨i, d, a, b, x, y, 1#2⟩)
  | .rem i d a b x y => some (packA 0x05#6 ⟨i, d, a, b, x, y, 2#2⟩)
  | .remu i d a b x y => some (packA 0x05#6 ⟨i, d, a, b, x, y, 3#2⟩)
  | .clz i d a x => some (packA 0x06#6 ⟨i, d, a, 0#7, x, false, 0#2⟩)
  | .popc i d a x => some (packA 0x06#6 ⟨i, d, a, 0#7, x, false, 1#2⟩)
  | .brev i d a x => some (packA 0x06#6 ⟨i, d, a, 0#7, x, false, 2#2⟩)
  | .ffs i d a x => some (packA 0x06#6 ⟨i, d, a, 0#7, x, false, 3#2⟩)
  | .bfx i d a b x y => some (packA 0x07#6 ⟨i, d, a, b, x, y, 0#2⟩)
  | .bfxz i d a b x y => some (packA 0x07#6 ⟨i, d, a, b, x, y, 1#2⟩)
  | .bfi i d a b x y => some (packA 0x07#6 ⟨i, d, a, b, x, y, 2#2⟩)
  | .permb i d a b x y => some (packA 0x07#6 ⟨i, d, a, b, x, y, 3#2⟩)
  | .addi d a x k => some (packI 0x08#6 ⟨d, a, x, k⟩)
  | .muli d a x k => some (packI 0x09#6 ⟨d, a, x, k⟩)
  | .andi d a x k => some (packI 0x0A#6 ⟨d, a, x, k⟩)
  | .ori d a x k => some (packI 0x0B#6 ⟨d, a, x, k⟩)
  | .xori d a x k => some (packI 0x0C#6 ⟨d, a, x, k⟩)
  | .shi d a x h n => some (packI 0x0D#6 ⟨d, a, x, (shiPack h n)⟩)
  | .cmpi c p a x k => some (packI 0x0E#6 ⟨(ccPack c p), a, x, k⟩)
  | .lui d k => some (packL 0x0F#6 ⟨d, k⟩)
  | .cmp i c p a b x y => some (packA 0x10#6 ⟨i, (ccPack c p), a, b, x, y, 0#2⟩)
  | .fcmp i c p a b x y => some (packA 0x10#6 ⟨i, (ccPack c p), a, b, x, y, 1#2⟩)
  | .dcmp i c p a b x y => some (packA 0x10#6 ⟨i, (ccPack c p), a, b, x, y, 2#2⟩)
  | .fclass i p a m x => some (packA 0x10#6 ⟨i, (pred3 p), a, m, x, false, 3#2⟩)
  | .sel i d a b x y c => some (packA 0x11#6 ⟨i, d, a, b, x, y, c⟩)
  | .pand p q r => some (packA 0x12#6 ⟨false, (pred3 p), (pred3 q), (pred3 r), false, false, 0#2⟩)
  | .por p q r => some (packA 0x12#6 ⟨false, (pred3 p), (pred3 q), (pred3 r), false, false, 1#2⟩)
  | .pxor p q r => some (packA 0x12#6 ⟨false, (pred3 p), (pred3 q), (pred3 r), false, false, 2#2⟩)
  | .pandn p q r => some (packA 0x12#6 ⟨false, (pred3 p), (pred3 q), (pred3 r), false, false, 3#2⟩)
  | .ptov d p => some (packA 0x13#6 ⟨false, d, (pred3 p), 0#7, false, false, 0#2⟩)
  | .vtop i p a x => some (packA 0x13#6 ⟨i, (pred3 p), a, 0#7, x, false, 1#2⟩)
  | .voteAny p q => some (packA 0x13#6 ⟨false, (pred3 p), (pred3 q), 0#7, false, false, 2#2⟩)
  | .voteAll p q => some (packA 0x13#6 ⟨false, (pred3 p), (pred3 q), 0#7, false, false, 3#2⟩)
  | .mov i d a x => some (packA 0x14#6 ⟨i, d, a, 0#7, x, false, 0#2⟩)
  | .movx d a x => some (packA 0x14#6 ⟨false, d, a, 0#7, x, false, 1#2⟩)
  | .ballot d p b y => some (packA 0x14#6 ⟨false, d, (pred3 p), b, false, y, 2#2⟩)
  | .nlanes d => some (packA 0x14#6 ⟨false, d, 0#7, 0#7, false, false, 3#2⟩)
  | .shflIdx i d a b x y => some (packA 0x15#6 ⟨i, d, a, b, x, y, 0#2⟩)
  | .shflUp i d a b x y => some (packA 0x15#6 ⟨i, d, a, b, x, y, 1#2⟩)
  | .shflDn i d a b x y => some (packA 0x15#6 ⟨i, d, a, b, x, y, 2#2⟩)
  | .shflXor i d a b x y => some (packA 0x15#6 ⟨i, d, a, b, x, y, 3#2⟩)
  | .elect p => some (packA 0x16#6 ⟨false, (pred3 p), 0#7, 0#7, false, false, 0#2⟩)
  | .firstl d => some (packA 0x16#6 ⟨false, d, 0#7, 0#7, false, false, 1#2⟩)
  | .pack => some (packA 0x16#6 ⟨false, 0#7, 0#7, 0#7, false, false, 2#2⟩)
  | .rdlane i d a b x y => some (packA 0x16#6 ⟨i, d, a, b, x, y, 3#2⟩)
  | .bcast i d a b x y => some (packA 0x17#6 ⟨i, d, a, b, x, y, 0#2⟩)
  | .wrlane i d a b x y => some (packA 0x17#6 ⟨i, d, a, b, x, y, 1#2⟩)
  | .rdxAdd i d a x => some (packA 0x17#6 ⟨i, d, a, 0#7, x, false, 2#2⟩)
  | .rdxMax i d a x => some (packA 0x17#6 ⟨i, d, a, 0#7, x, false, 3#2⟩)
  | .rdxMin i d a x => some (packA 0x18#6 ⟨i, d, a, 0#7, x, false, 0#2⟩)
  | .rdxOr i d a x => some (packA 0x18#6 ⟨i, d, a, 0#7, x, false, 1#2⟩)
  | .rdxAnd i d a x => some (packA 0x18#6 ⟨i, d, a, 0#7, x, false, 2#2⟩)
  | .rdxFadd i d a x => some (packA 0x18#6 ⟨i, d, a, 0#7, x, false, 3#2⟩)
  | .fadd i d a b x y => some (packA 0x19#6 ⟨i, d, a, b, x, y, 0#2⟩)
  | .fsub i d a b x y => some (packA 0x19#6 ⟨i, d, a, b, x, y, 1#2⟩)
  | .fmul i d a b x y => some (packA 0x19#6 ⟨i, d, a, b, x, y, 2#2⟩)
  | .ffma i d a b x y => some (packA 0x19#6 ⟨i, d, a, b, x, y, 3#2⟩)
  | .fmin i d a b x y => some (packA 0x1A#6 ⟨i, d, a, b, x, y, 0#2⟩)
  | .fmax i d a b x y => some (packA 0x1A#6 ⟨i, d, a, b, x, y, 1#2⟩)
  | .fcpys i d a b x y => some (packA 0x1A#6 ⟨i, d, a, b, x, y, 2#2⟩)
  | .fscale i d a b x y => some (packA 0x1A#6 ⟨i, d, a, b, x, y, 3#2⟩)
  | .fdiv i d a b x y => some (packA 0x1B#6 ⟨i, d, a, b, x, y, 0#2⟩)
  | .fsqrt i d a x => some (packA 0x1B#6 ⟨i, d, a, 0#7, x, false, 1#2⟩)
  | .frcp i d a x => some (packA 0x1B#6 ⟨i, d, a, 0#7, x, false, 2#2⟩)
  | .frsq i d a x => some (packA 0x1B#6 ⟨i, d, a, 0#7, x, false, 3#2⟩)
  | .fexp2 i d a x => some (packA 0x1C#6 ⟨i, d, a, 0#7, x, false, 0#2⟩)
  | .flog2 i d a x => some (packA 0x1C#6 ⟨i, d, a, 0#7, x, false, 1#2⟩)
  | .fsin i d a x => some (packA 0x1C#6 ⟨i, d, a, 0#7, x, false, 2#2⟩)
  | .fcos i d a x => some (packA 0x1C#6 ⟨i, d, a, 0#7, x, false, 3#2⟩)
  | .badd2 i d a b x y => some (packA 0x1D#6 ⟨i, d, a, b, x, y, 0#2⟩)
  | .bmul2 i d a b x y => some (packA 0x1D#6 ⟨i, d, a, b, x, y, 1#2⟩)
  | .bfma2 i d a b x y => some (packA 0x1D#6 ⟨i, d, a, b, x, y, 2#2⟩)
  | .bmax2 i d a b x y => some (packA 0x1D#6 ⟨i, d, a, b, x, y, 3#2⟩)
  | .hadd2 i d a b x y => some (packA 0x1E#6 ⟨i, d, a, b, x, y, 0#2⟩)
  | .hmul2 i d a b x y => some (packA 0x1E#6 ⟨i, d, a, b, x, y, 1#2⟩)
  | .hfma2 i d a b x y => some (packA 0x1E#6 ⟨i, d, a, b, x, y, 2#2⟩)
  | .hmax2 i d a b x y => some (packA 0x1E#6 ⟨i, d, a, b, x, y, 3#2⟩)
  | .dadd i d a b x y => some (packA 0x1F#6 ⟨i, d, a, b, x, y, 0#2⟩)
  | .dmul i d a b x y => some (packA 0x1F#6 ⟨i, d, a, b, x, y, 1#2⟩)
  | .dfma i d a b x y => some (packA 0x1F#6 ⟨i, d, a, b, x, y, 2#2⟩)
  | .ddiv i d a b x y => some (packA 0x1F#6 ⟨i, d, a, b, x, y, 3#2⟩)
  | .cvtFI i d a x => some (packA 0x20#6 ⟨i, d, a, 0#7, x, false, 0#2⟩)
  | .cvtFZ i d a x => some (packA 0x20#6 ⟨i, d, a, 0#7, x, false, 1#2⟩)
  | .cvtIF i d a x => some (packA 0x20#6 ⟨i, d, a, 0#7, x, false, 2#2⟩)
  | .cvtZF i d a x => some (packA 0x20#6 ⟨i, d, a, 0#7, x, false, 3#2⟩)
  | .cvtBfF i d a x => some (packA 0x21#6 ⟨i, d, a, 0#7, x, false, 0#2⟩)
  | .cvtHF i d a x => some (packA 0x21#6 ⟨i, d, a, 0#7, x, false, 1#2⟩)
  | .cvtFBf i d a x => some (packA 0x21#6 ⟨i, d, a, 0#7, x, false, 2#2⟩)
  | .cvtFH i d a x => some (packA 0x21#6 ⟨i, d, a, 0#7, x, false, 3#2⟩)
  | .cvtDF i d a x => some (packA 0x22#6 ⟨i, d, a, 0#7, x, false, 0#2⟩)
  | .cvtFD i d a x => some (packA 0x22#6 ⟨i, d, a, 0#7, x, false, 1#2⟩)
  | .cvtI8F i d a x => some (packA 0x22#6 ⟨i, d, a, 0#7, x, false, 2#2⟩)
  | .frnd i d a x => some (packA 0x22#6 ⟨i, d, a, 0#7, x, false, 3#2⟩)
  | .niq i d a b x y => some (packA 0x23#6 ⟨i, d, a, b, x, y, 0#2⟩)
  | .nidq i d a b x y => some (packA 0x23#6 ⟨i, d, a, b, x, y, 1#2⟩)
  | .sexp i d a m x => some (packA 0x23#6 ⟨i, d, a, m, x, false, 2#2⟩)
  | .nipl i d a b x y => some (packA 0x23#6 ⟨i, d, a, b, x, y, 3#2⟩)
  | .ld t a l z o => some (packM 0x24#6 ⟨t, a, l, z, o⟩)
  | .st t a l z o => some (packM 0x25#6 ⟨t, a, l, z, o⟩)
  | .ldxW i d a b x y => some (packA 0x26#6 ⟨i, d, a, b, x, y, 0#2⟩)
  | .ldxD i d a b x y => some (packA 0x26#6 ⟨i, d, a, b, x, y, 1#2⟩)
  | .stxW i d a b x y => some (packA 0x26#6 ⟨i, d, a, b, x, y, 2#2⟩)
  | .stxD i d a b x y => some (packA 0x26#6 ⟨i, d, a, b, x, y, 3#2⟩)
  | .atomAdd s d a b => some (packA 0x27#6 ⟨(s.getLsbD 2), d, a, b, (s.getLsbD 1), (s.getLsbD 0), 0#2⟩)
  | .atomMin s d a b => some (packA 0x27#6 ⟨(s.getLsbD 2), d, a, b, (s.getLsbD 1), (s.getLsbD 0), 1#2⟩)
  | .atomMax s d a b => some (packA 0x27#6 ⟨(s.getLsbD 2), d, a, b, (s.getLsbD 1), (s.getLsbD 0), 2#2⟩)
  | .atomAnd s d a b => some (packA 0x27#6 ⟨(s.getLsbD 2), d, a, b, (s.getLsbD 1), (s.getLsbD 0), 3#2⟩)
  | .atomOr s d a b => some (packA 0x28#6 ⟨(s.getLsbD 2), d, a, b, (s.getLsbD 1), (s.getLsbD 0), 0#2⟩)
  | .atomXor s d a b => some (packA 0x28#6 ⟨(s.getLsbD 2), d, a, b, (s.getLsbD 1), (s.getLsbD 0), 1#2⟩)
  | .atomMinu s d a b => some (packA 0x28#6 ⟨(s.getLsbD 2), d, a, b, (s.getLsbD 1), (s.getLsbD 0), 2#2⟩)
  | .atomMaxu s d a b => some (packA 0x28#6 ⟨(s.getLsbD 2), d, a, b, (s.getLsbD 1), (s.getLsbD 0), 3#2⟩)
  | .xchg s d a b => some (packA 0x29#6 ⟨(s.getLsbD 2), d, a, b, (s.getLsbD 1), (s.getLsbD 0), 0#2⟩)
  | .cas s d a b => some (packA 0x29#6 ⟨(s.getLsbD 2), d, a, b, (s.getLsbD 1), (s.getLsbD 0), 1#2⟩)
  | .xchgD s d a b => some (packA 0x29#6 ⟨(s.getLsbD 2), d, a, b, (s.getLsbD 1), (s.getLsbD 0), 2#2⟩)
  | .casD s d a b => some (packA 0x29#6 ⟨(s.getLsbD 2), d, a, b, (s.getLsbD 1), (s.getLsbD 0), 3#2⟩)
  | .redAdd s a b => some (packA 0x2A#6 ⟨(s.getLsbD 2), 0#7, a, b, (s.getLsbD 1), (s.getLsbD 0), 0#2⟩)
  | .redMin s a b => some (packA 0x2A#6 ⟨(s.getLsbD 2), 0#7, a, b, (s.getLsbD 1), (s.getLsbD 0), 1#2⟩)
  | .redMax s a b => some (packA 0x2A#6 ⟨(s.getLsbD 2), 0#7, a, b, (s.getLsbD 1), (s.getLsbD 0), 2#2⟩)
  | .redOr s a b => some (packA 0x2A#6 ⟨(s.getLsbD 2), 0#7, a, b, (s.getLsbD 1), (s.getLsbD 0), 3#2⟩)
  | .atomFadd s d a b => some (packA 0x2B#6 ⟨(s.getLsbD 2), d, a, b, (s.getLsbD 1), (s.getLsbD 0), 0#2⟩)
  | .redFadd s a b => some (packA 0x2B#6 ⟨(s.getLsbD 2), 0#7, a, b, (s.getLsbD 1), (s.getLsbD 0), 1#2⟩)
  | .redBfadd2 s a b => some (packA 0x2B#6 ⟨(s.getLsbD 2), 0#7, a, b, (s.getLsbD 1), (s.getLsbD 0), 2#2⟩)
  | .atomAddD s d a b => some (packA 0x2B#6 ⟨(s.getLsbD 2), d, a, b, (s.getLsbD 1), (s.getLsbD 0), 3#2⟩)
  | .bararr i d a x => some (packA 0x2C#6 ⟨i, d, a, 0#7, x, false, 0#2⟩)
  | .barwait i a b x y => some (packA 0x2C#6 ⟨i, 0#7, a, b, x, y, 1#2⟩)
  | .barsync i a x => some (packA 0x2C#6 ⟨i, 0#7, a, 0#7, x, false, 2#2⟩)
  | .barexp i d a b x y => some (packA 0x2C#6 ⟨i, d, a, b, x, y, 3#2⟩)
  | .barinit i a b x y => some (packA 0x2D#6 ⟨i, 0#7, a, b, x, y, 0#2⟩)
  | .barinv i a x => some (packA 0x2D#6 ⟨i, 0#7, a, 0#7, x, false, 1#2⟩)
  | .barqry i d a x => some (packA 0x2D#6 ⟨i, d, a, 0#7, x, false, 2#2⟩)
  | .bartry i p a b x y => some (packA 0x2D#6 ⟨i, (pred3 p), a, b, x, y, 3#2⟩)
  | .fenceAcq s => some (packA 0x2E#6 ⟨(s.getLsbD 2), 0#7, 0#7, 0#7, (s.getLsbD 1), (s.getLsbD 0), 0#2⟩)
  | .fenceRel s => some (packA 0x2E#6 ⟨(s.getLsbD 2), 0#7, 0#7, 0#7, (s.getLsbD 1), (s.getLsbD 0), 1#2⟩)
  | .fenceAr s => some (packA 0x2E#6 ⟨(s.getLsbD 2), 0#7, 0#7, 0#7, (s.getLsbD 1), (s.getLsbD 0), 2#2⟩)
  | .fenceSc s => some (packA 0x2E#6 ⟨(s.getLsbD 2), 0#7, 0#7, 0#7, (s.getLsbD 1), (s.getLsbD 0), 3#2⟩)
  | .mon s a => some (packA 0x2F#6 ⟨(s.getLsbD 2), 0#7, a, 0#7, (s.getLsbD 1), (s.getLsbD 0), 0#2⟩)
  | .mwait d => some (packA 0x2F#6 ⟨false, d, 0#7, 0#7, false, false, 1#2⟩)
  | .swait s d a b => some (packA 0x2F#6 ⟨(s.getLsbD 2), d, a, b, (s.getLsbD 1), (s.getLsbD 0), 2#2⟩)
  | .twait i a x => some (packA 0x2F#6 ⟨i, 0#7, a, 0#7, x, false, 3#2⟩)
  | .cbatch d => some (packA 0x30#6 ⟨false, d, 0#7, 0#7, false, false, 0#2⟩)
  | .cwait i a x => some (packA 0x30#6 ⟨i, 0#7, a, 0#7, x, false, 1#2⟩)
  | .cpoll i p a x => some (packA 0x30#6 ⟨i, (pred3 p), a, 0#7, x, false, 2#2⟩)
  | .cstamp d => some (packA 0x30#6 ⟨false, d, 0#7, 0#7, false, false, 3#2⟩)
  | .bra k => some (packJ 0x31#6 ⟨0#7, k⟩)
  | .brp u n p k => some (packJ 0x32#6 ⟨(brpPack u n p), k⟩)
  | .call a k => some (packJ 0x33#6 ⟨a, k⟩)
  | .jpt k => some (packJ 0x34#6 ⟨0#7, k⟩)
  | .join => some (packA 0x35#6 ⟨false, 0#7, 0#7, 0#7, false, false, 0#2⟩)
  | .brkj a n x => some (packA 0x35#6 ⟨false, 0#7, a, (lit4 n), x, false, 1#2⟩)
  | .exit => some (packA 0x35#6 ⟨false, 0#7, 0#7, 0#7, false, false, 2#2⟩)
  | .jmpr a x => some (packA 0x35#6 ⟨false, 0#7, a, 0#7, x, false, 3#2⟩)
  | .mma d a b => some (packA 0x36#6 ⟨false, d, a, b, false, false, 0#2⟩)
  | .mmaP d a b => some (packA 0x36#6 ⟨false, d, a, b, false, false, 1#2⟩)
  | .mmaZ d a b => some (packA 0x36#6 ⟨false, d, a, b, false, false, 2#2⟩)
  | .mmaPz d a b => some (packA 0x36#6 ⟨false, d, a, b, false, false, 3#2⟩)
  | .drain d a => some (packA 0x37#6 ⟨false, d, a, 0#7, false, false, 0#2⟩)
  | .mzero d => some (packA 0x37#6 ⟨false, d, 0#7, 0#7, false, false, 1#2⟩)
  | .mload d a => some (packA 0x37#6 ⟨false, d, a, 0#7, false, false, 2#2⟩)
  | .mwaita => some (packA 0x37#6 ⟨false, 0#7, 0#7, 0#7, false, false, 3#2⟩)
  | .copy d a b => some (packA 0x38#6 ⟨false, d, a, b, false, false, 0#2⟩)
  | .copyo d a b => some (packA 0x38#6 ⟨false, d, a, b, false, false, 1#2⟩)
  | .copyAt d a b => some (packA 0x38#6 ⟨false, d, a, b, false, false, 2#2⟩)
  | .gather d a b => some (packA 0x38#6 ⟨false, d, a, b, false, false, 3#2⟩)
  | .send d a => some (packA 0x39#6 ⟨false, d, a, 0#7, false, false, 0#2⟩)
  | .sendAt d a => some (packA 0x39#6 ⟨false, d, a, 0#7, false, false, 1#2⟩)
  | .rred d a => some (packA 0x39#6 ⟨false, d, a, 0#7, false, false, 2#2⟩)
  | .rbcast d a => some (packA 0x39#6 ⟨false, d, a, 0#7, false, false, 3#2⟩)
  | .tagrd d a x => some (packA 0x3A#6 ⟨false, d, a, 0#7, x, false, 0#2⟩)
  | .tagwr a b x y => some (packA 0x3A#6 ⟨false, 0#7, a, b, x, y, 1#2⟩)
  | .tagchk a b x y => some (packA 0x3A#6 ⟨false, 0#7, a, b, x, y, 2#2⟩)
  | .mdisp d a x => some (packA 0x3A#6 ⟨false, d, a, 0#7, x, false, 3#2⟩)
  | .task a b => some (packA 0x3B#6 ⟨false, 0#7, a, b, false, false, 0#2⟩)
  | .tready a => some (packA 0x3B#6 ⟨false, 0#7, a, 0#7, false, false, 1#2⟩)
  | .resid i a x => some (packA 0x3B#6 ⟨i, 0#7, a, 0#7, x, false, 2#2⟩)
  | .gchk p => some (packA 0x3B#6 ⟨false, (pred3 p), 0#7, 0#7, false, false, 3#2⟩)
  | .enter h m l => some (packA 0x3C#6 ⟨false, (lit2 h), m, l, false, false, 0#2⟩)
  | .leave => some (packA 0x3C#6 ⟨false, 0#7, 0#7, 0#7, false, false, 1#2⟩)
  | .bkpt => some (packA 0x3C#6 ⟨false, 0#7, 0#7, 0#7, false, false, 2#2⟩)
  | .trace i a b x y => some (packA 0x3C#6 ⟨i, 0#7, a, b, x, y, 3#2⟩)
  | .trap n => some (packA 0x3D#6 ⟨false, 0#7, 0#7, n, false, false, 0#2⟩)
  | .srd d n => some (packA 0x3D#6 ⟨false, d, n, 0#7, false, false, 1#2⟩)
  | .swr n b y => some (packA 0x3D#6 ⟨false, 0#7, n, b, false, y, 2#2⟩)
  | .win w u => some (packA 0x3D#6 ⟨false, 0#7, (lit5 w), (lit2 u), false, false, 3#2⟩)
  | .rdctr i d a x => some (packA 0x3E#6 ⟨i, d, a, 0#7, x, false, 0#2⟩)
  | .ctrctl i a b x y => some (packA 0x3E#6 ⟨i, 0#7, a, b, x, y, 1#2⟩)
  | .tick d => some (packA 0x3E#6 ⟨false, d, 0#7, 0#7, false, false, 2#2⟩)
  | .yield => some (packA 0x3E#6 ⟨false, 0#7, 0#7, 0#7, false, false, 3#2⟩)
  | .eret => some (packX 0x3F#6 ⟨0#6, 0#7, 0#7, 0#6⟩)
  | .imask d a => some (packX 0x3F#6 ⟨1#6, d, a, 0#6⟩)
  | .tlbir a => some (packX 0x3F#6 ⟨2#6, 0#7, a, 0#6⟩)
  | .tlbia a => some (packX 0x3F#6 ⟨3#6, 0#7, a, 0#6⟩)
  | .shoot a => some (packX 0x3F#6 ⟨4#6, 0#7, a, 0#6⟩)
  | .l1wb a => some (packX 0x3F#6 ⟨5#6, 0#7, a, 0#6⟩)
  | .l1inv a => some (packX 0x3F#6 ⟨6#6, 0#7, a, 0#6⟩)
  | .l2cln a => some (packX 0x3F#6 ⟨7#6, 0#7, a, 0#6⟩)
  | .haltb d a => some (packX 0x3F#6 ⟨8#6, d, a, 0#6⟩)
  | .ctxsv a => some (packX 0x3F#6 ⟨9#6, 0#7, a, 0#6⟩)
  | .ctxld a => some (packX 0x3F#6 ⟨10#6, 0#7, a, 0#6⟩)
  | .dumpw a => some (packX 0x3F#6 ⟨11#6, 0#7, a, 0#6⟩)
  | .racew => some (packX 0x3F#6 ⟨12#6, 0#7, 0#7, 0#6⟩)
  | .setmt d a => some (packX 0x3F#6 ⟨13#6, d, a, 0#6⟩)
  | .packageReset => none
  | .timedActionFire => none
  | .ucieRetrain => none
  | .packageFatalEvent => none
  | .patrolScrub => none
  | .thermalTrip => none
  | .hbmHotRefresh => none
  | .throttleStepDown => none
  | .throttleStepUp => none
  | .creditLapse => none
  | .fabricLaunch => none
  | .bar2Read => none
  | .bar2Write => none
  | .hostAtomicop => none
  | .heldAccessTimeout => none
  | .registerWrite => none
  | .fctlAbort => none
  | .sqEnable => none
  | .sqDoorbell => none
  | .sqGeometryWrite => none
  | .sqReset => none
  | .commandFetch => none
  | .fetchTimeout => none
  | .nop => none
  | .launchCommand => none
  | .taskCommand => none
  | .gslaunchCommand => none
  | .queueCopy => none
  | .writeval => none
  | .waitval => none
  | .waitvalTimeout => none
  | .intr => none
  | .functionLevelReset => none
  | .attestRequest => none
  | .attestDone => none
  | .pctlCommit => none
  | .pctlQuiesce => none
  | .quiesceComplete => none
  | .pctlResume => none
  | .pclkBreak => none
  | .vbBind => none
  | .vbUnbind => none
  | .vbFieldWrite => none
  | .vbWindowWrite => none
  | .pfbindEn => none
  | .trRootWrite => none
  | .sliceEnd => none
  | .haltComplete => none
  | .worldSwitchRestore => none
  | .loadReturn => none
  | .idleCollapse => none
  | .colctlNow => none
  | .wakeGo => none
  | .wakeComplete => none
  | .blockPlacement => none
  | .placementWaitLimit => none
  | .resourceReport => none
  | .blockFree => none
  | .pathPromotion => none
  | .watchdogExpiry => none
  | .dependencyTaskIssue => none
  | .handlerTaskEntry => none
  | .writeBackMerge => none
  | .retrieverElement => none
  | .monitorTimeout => none
  | .migrationStart => none
  | .migrationSwitch => none
  | .migrationEnd => none
  | .accessCountHalving => none
  | .shootComplete => none
  | .rebaseComplete => none
  | .arrayMma => none
  | .arrayDrain => none
  | .arrayMzero => none
  | .arrayMload => none
  | .matrixRetire => none
  | .engineCopy => none
  | .engineCopyo => none
  | .engineGather => none
  | .byteCredit => none
  | .copyCommandEnd => none
  | .engineSend => none
  | .engineRred => none
  | .engineRbcast => none
  | .packetHop => none
  | .packetEject => none
  | .ringCommandEnd => none
  | .unitCommit => none
  | .exactKernelEnd => none
  | .routineEnd => none
  | .dbgctlStopreq => none
  | .dbgctlStopall => none
  | .clkctlLock => none
  | .counterSelect => none
  | .counterHold => none
  | .pcSample => none
  | .traceForward => none
  | .registerReadClear => none
  | .hostSnoop => none
  | .fabricFrameReceive => none
  | .fabricLinkUp => none
  | .hostLinkTrain => none
  | .iterativePassResult => none
  | .yieldEnd => none

/-- The instruction of 32 bits given by the opcode table's numbering: bit 0 is the least significant bit of the
first byte in memory (R3, R288). -/
def wordOfBytes (b0 b1 b2 b3 : Byte) : Word := b3 ++ (b2 ++ (b1 ++ b0))

/-- The four bytes of a word in memory order. -/
def bytesOfWord (w : Word) : List Byte :=
  [w.extractLsb' 0 8, w.extractLsb' 8 8, w.extractLsb' 16 8, w.extractLsb' 24 8]

/-- What the decoder reads from an instruction of `nbits` bits `w`, the bits above `nbits` zero. -/
def decodeTableWord (nbits w : Nat) : Option Instr :=
  let v : Word := BitVec.ofNat 32 (w % 2 ^ nbits)
  match decode (wordOfBytes (v.extractLsb' 0 8) (v.extractLsb' 8 8) (v.extractLsb' 16 8) (v.extractLsb' 24 8)) with
  | .ok i => some i
  | .error _ => none

end Sys2Proof
end

