-- ==== Sys2Proof/Machine/Fetch.lean ====
section
/-! DEFINITION. Sys2Proof/Machine/Fetch.lean: which path issues (R73, R135 to R138), the fetch of its instruction (R288)
with what comes before it (R275, R276, R299, R449), and the layout of an instruction word in memory. -/
namespace Sys2Proof.Machine

/-! ## Readiness (R136) -/

/-- Is a warp stalled with reason 12: an element of it met a full retriever queue and waits for its place (R194)? -/
def Hw.queueStalls (h : Hw) (wk : Nat) : Bool := h.rings.any fun r => r.2.pend.any fun x => x.wk == wk && !x.host

/-- May the warp's paths issue: its function runs, and no halt, stop, timed start or replay holds it (R73, R76, R77,
R135, R413, R414)? -/
def Hw.mayIssue (h : Hw) (e : Env) (wk : Nat) (w : Warp) (b : Block) : Bool :=
  let p := h.part (h.partOf (wkFn wk))
  p.live && !p.halting && !h.trip && !w.done && !w.stopped && w.held.isNone && !h.queueStalls wk &&
    w.replayFirst.all (fun id => match Tab.find? h.flights id with
      | some f => f.handler != (w.mode == .handler)
      | none => true) &&
    !b.killed &&
    (if wkSlot wk = handlerSlot then p.serving.isSome else p.running == some (wkFn wk)) &&
    (match b.startAt with
     | some t => decide (t ≤ localTick e b.core)
     | none => true)

/-- Is a path not waiting for anything? -/
def Path.free (p : Path) : Bool := p.live && !p.atJoin && p.hold.isNone && p.yieldTo.isNone

/-- A path that may issue, with what the choice needs: its slot (four per core) and its rank. -/
structure Cand where
  wk   : Nat
  path : Bool
  slot : Nat
  rank : List Nat
  deriving DecidableEq, Repr

/-- Rank of a path among those of its slot, the least first (Table 5.5). -/
def Hw.rankOf (h : Hw) (wk : Nat) (w : Warp) (b : Block) (x : Bool) : List Nat :=
  let p := w.path x
  let n := 2 * w.ctx + x.toNat
  let last := Tab.getD (h.core b.core).served (w.ctx % 4) 65
  [if w.mode = .handler then 0 else 1, if p.promoted then 0 else 1,
   if p.promoted then (n + 66 - last - 1) % 66 else 0, if w.role then 0 else 1, b.order, wkIdx wk, x.toNat]

/-- The candidates of a warp. -/
def Hw.candsOf (h : Hw) (e : Env) (wk : Nat) (w : Warp) : List Cand :=
  match h.block? (wkBlock wk) with
  | none => []
  | some b =>
    if h.mayIssue e wk w b then
      [false, true].filterMap fun x =>
        if (w.path x).free && !h.tried.contains (wk, x) then
          some ⟨wk, x, 4 * b.core + w.ctx % 4, h.rankOf wk w b x⟩
        else none
    else []

/-- Lexicographic order. -/
def ranksBefore : List Nat → List Nat → Bool
  | a :: as, b :: bs => decide (a < b) || (decide (a = b) && ranksBefore as bs)
  | _, _ => false

/-- The candidate that comes first: slots in turn after the last one served, then Table 5.5 (log 7). -/
def Hw.choose (h : Hw) (e : Env) : Option Cand :=
  let key (c : Cand) : List Nat := (c.slot + 640 - h.slotPtr - 1) % 640 :: c.rank
  (h.warps.flatMap fun x => h.candsOf e x.1 x.2).foldl (fun m c =>
    match m with
    | none => some c
    | some d => if ranksBefore (key c) (key d) then some c else some d) none

/-! ## What a step does -/

/-- What the machine does next. -/
inductive Next where
  | event (i : Instr) (o : Occasion) (h : Hw)
  | issue (c : Cand) (h : Hw)
  | idle (h : Hw)
  deriving DecidableEq, Repr

/-- What comes from the host, the fabric or the board, which a thermal trip does not stop (R32; log 64). -/
def Instr.outer : Instr → Bool
  | .packageReset | .ucieRetrain | .packageFatalEvent | .patrolScrub | .thermalTrip | .hbmHotRefresh | .throttleStepDown
  | .throttleStepUp | .fabricFrameReceive | .fabricLinkUp | .hostLinkTrain | .registerWrite | .registerReadClear => true
  | _ => false
/-- Split a list at its first element that meets `f`. -/
def firstOf {α : Type} (f : α → Bool) : List α → Option (α × List α)
  | [] => none
  | x :: l => if f x then some (x, l) else (firstOf f l).map fun y => (y.1, x :: y.2)
def Move.outer : Move → Bool
  | .event i _ => Instr.outer i
  | .issue _ _ => false
/-- The next step of a package that a thermal trip has halted: one from outside, if there is one (R32). -/
def Hw.nextHalted (h : Hw) : Next :=
  match firstOf Move.outer h.agenda with
  | some (.event i o, l) => .event i o { h with agenda := l }
  | _ => .idle { h with tried := [] }

/-- The next step of the agenda and the next path to issue take turns; with neither, time passes and the waiting paths
may try again (log 7). -/
def Hw.next (h : Hw) (e : Env) : Next :=
  if h.trip then h.nextHalted else
  let path := h.choose e
  match h.agenda, path, e.clk.step % 2 with
  | [], none, _ => .idle { h with tried := [] }
  | [], some c, _ => .issue c h
  | .event i o :: l, none, _ => .event i o { h with agenda := l }
  | .event i o :: l, some c, k => if k = 0 then .event i o { h with agenda := l } else .issue c h
  | .issue wk x :: l, _, _ =>
    .issue ⟨wk, x, 0, []⟩ { h with agenda := l }

/-- Start a step of the package. -/
def Hw.begin (h : Hw) (o : Occasion) : Hw := { h with occ := o, cur := none }

/-- Start the issue of a path. -/
def Hw.take (h : Hw) (c : Cand) : Hw := { h with slotPtr := c.slot, cur := some ⟨c.wk, c.path⟩ }

/-- A promoted path that has issued is the one its slot served last (R137); `old` is the machine as it stood before. -/
def Hw.serve (h old : Hw) (c : Cand) : Hw :=
  match old.warp? c.wk, h.warp? c.wk, old.block? (wkBlock c.wk) with
  | some v, some w, some b =>
    if (v.path c.path).promoted && !(w.path c.path).promoted && w.frame == v.frame then
      h.onCore b.core fun k => { k with served := Tab.put k.served (w.ctx % 4) (2 * w.ctx + c.path.toNat) }
    else h
  | _, _, _ => h

/-! ## Fetch -/

/-- The lowest code breakpoint enabled at an address (R275). -/
def Warp.breakAt (w : Warp) (pc : DWord) : Option Nat :=
  (List.range 4).find? fun n => w.bpctl.getLsbD n && Tab.getD w.bpaddr n 0#64 == pc

/-- The instruction a path is about to issue, or the trap in its place: a breakpoint, a fetch fault, ILLEGAL; or what the fetch
waits for: a table's line (R189), a link or a channel (R15, R19), an engine that owns its line (R189). An instruction of which rows
remain has met its breakpoint. The word is the one that the line's home holds (log 65). -/
def Iss.fetch (h : Hw) (e : Env) (q : Iss) : Except Stop (Instr × Hw) :=
  let pc := q.p.pc
  match (if q.quiet || q.p.resume != 0#32 || q.p.pushing.isSome then none else q.w.breakAt pc) with
  | some n => .error (.trap (BitVec.ofNat 64 cBKPT) 0#64 (some (BitVec.ofNat 64 (8 + n))) 0#64)
  | none =>
    if isScr pc then .error (.at cPROTECT pc)
    else if h.walkHeld e q.core (Iss.ctx h q) (pc.toNat % 2 ^ 57) then .error (.wait 17)
    else match h.translate e q.core (Iss.ctx h q) ⟨false, true, q.w.mode = .handler, false⟩ pc with
      | .error c => .error (.at c pc)
      | .ok (leaf, pa) =>
        if h.waitsOnWay (Iss.ctx h q) (dieOf q.core) leaf pa then .error (.wait 21)
        else if h.lineHeld (h.ticketOf q.p 18) (lineOf pa) then .error (.turn 18 [lineOf pa])
        else if h.poison.contains (lineOf pa) then .error (.at cECC pc)
        else match decode (wordOfBytes (h.byte e pa) (h.byte e (pa + 1)) (h.byte e (pa + 2)) (h.byte e (pa + 3))) with
          | .error _ => .error (.plain cILLEGAL)
          | .ok i => .ok (i, h.fillTlb q.core (Iss.ctx h q) pc leaf)

/-- The trap a path owes before its next instruction: a failed table entry's (R449), or one of its own that came late (R77). -/
def Iss.owedNow (q : Iss) : Option Trap :=
  if q.w.mode = .handler then none else q.w.owed.find? fun t => t.pc == 0#64 || t.o.getLsbD 0 == q.x

/-- What comes before an instruction: a failed table entry's trap (R449), then the fetch. -/
def Hw.fetched (h : Hw) (e : Env) : Except Hw (Instr × Hw) :=
  match Iss.of h with
  | none => .error h
  | some q =>
    match q.owedNow with
    | some t =>
      .error ((h.onWarp q.wk fun w => { w with owed := w.owed.erase t }).takeTrap e q.wk q.x
        (if t.pc = 0#64 then { t with pc := q.p.pc } else t))
    | none =>
      match Iss.fetch h e q with
      | .ok r => .ok r
      | .error (.trap c a o opc) => .error (h.takeTrap e q.wk q.x (q.p.trapAt q.x c a o opc))
      | .error (.wait r) => .error (h.waitOn q.wk q.x r)
      | .error (.turn r ks) => .error (h.waitTurn q.wk q.x r ks)
      | .error _ => .error h

/-- The issuing path takes the rows that issue now; the others are left to a later pass (R146). -/
def Hw.withRows (h : Hw) (e : Env) (i : Instr) : Hw :=
  match Iss.of h with
  | none => h
  | some q =>
    let m := q.laterRows i (Config.rowsNow e.clk.step % 33)
    if m = 0#32 then h else h.onPath q.wk q.x fun p => { p with later := m }

/-! ## A machine that is about to run one word -/

/-- Put the bytes of a little-endian number into memory. -/
def pokeBytes (mem : List Host.Cell) (pa n v : Nat) : List Host.Cell :=
  (natLe n v).zipIdx.foldl (fun m (x : Byte × Nat) => Tab.store 0#8 m (pa + x.2) x.1) mem

/-- The launch shape of that machine's one block: one warp of one row, 64 registers, one barrier. -/
def soloShape : Shape :=
  { entry := 0x10000#64, params := 0#64, gx := 1, gy := 1, gz := 1, wpb := 1, k := 1, cregs := 64, pregs := 0
    pwarps := 0, uwin := 4, spad := 4, bars := 16, bpc := 1, wdog := 0 }

/-- Partition 0 with ring 0 and the slices of die 0 and channel 0, running VF 1, which has one block of one
warp at virtual address 0x10000; its page of code is at physical address 0x40000, its tables at 0x10000, 0x20000,
0x30000 and 0x50000 (log 8). -/
def Hw.solo (h : Hw) : Hw :=
  let part : Part := { Part.reset with
    en := true, live := true, quiet := true, owns := ⟨1#20, 3#40, 0xFFFFFF#96, 1#384⟩, running := some 1 }
  let fn : Fn := { Fn.reset with
    bind := { Bind.reset with en := true, bound := true }, race := { Race.reset with rrcnt := 2, ctr := [(0, 1)] } }
  { h with
    agenda := [], cur := none, occ := Occasion.none, tried := [], slotPtr := 0, trip := false, fatal := false, wq := []
    poison := [], fns := [(1, fn)], parts := [(0, part)], roots := [(1, (0x10001#64, false))], cores := [], dieTlb := []
    fcores := [], blocks := [(bkOf 1 0, newBlock 0 0 0 0 soloShape none 0 0 4096 0 1)]
    warps := [(wkOf 1 0 0, newWarp 1 false 64 4 0 0 8 0x10000#64 0)], flights := [], cmds := [] }

/-- Memory of that machine: the tables and the word, at the page's first byte. -/
def soloMem (mem : List Host.Cell) (w : Word) : List Host.Cell :=
  pokeBytes (pokeBytes (pokeBytes (pokeBytes (pokeBytes mem 0x10000 8 0x20003) 0x20000 8 0x30003) 0x30000 8 0x50003)
    0x50008 8 0x40031) 0x40000 4 w.toNat

end Sys2Proof.Machine
end

