-- ==== Sys2Proof/Machine/Queues.lean ====
section
/-! DEFINITION. Sys2Proof/Machine/Queues.lean: submission queues (R43 to R46), acceptance with its checks (R47 to R50, R107),
FCTL.ABORT and queue resets (R45, Table 2.2). -/
namespace Sys2Proof.Machine

/-! ## Queues (R44) -/

def Hw.sq (h : Hw) (f q : Nat) : SQ := Tab.getD (h.fn f).queues q SQ.reset
def Hw.onSq (h : Hw) (f q : Nat) (g : SQ → SQ) : Hw :=
  h.onFn f fun x => { x with queues := Tab.put x.queues q (g (Tab.getD x.queues q SQ.reset)) }

/-- Partition of a function as far as it is bound: an unbound function owns nothing. -/
def Hw.partFor (h : Hw) (f : Nat) : Part := if (h.fn f).bind.bound then h.part (h.partOf f) else Part.reset
/-- Does a function exist for the host (R33)? -/
def Hw.exists_ (h : Hw) (f : Nat) : Bool := f == 0 || (h.fn f).bind.bound

/-- Window of a function: the PF's is the whole host range (R34). -/
def Hw.winLo (h : Hw) (f : Nat) : Nat := if f = 0 then 0 else (h.fn f).bind.winlo.toNat
def Hw.winHi (h : Hw) (f : Nat) : Nat := if f = 0 then 2 ^ 50 else (h.fn f).bind.winhi.toNat

/-- The checks of Table 2.5 from SIZE to WRIDX; 0 where all pass. -/
def Hw.queueCode (h : Hw) (f : Nat) (q : SQ) : Nat :=
  let b := q.base.toNat
  if q.log2 < 6 ∨ 16 < q.log2 then 2
  else if b < h.winLo f ∨ h.winHi f ≤ b then 3
  else if h.winHi f < b + 64 * 2 ^ q.log2 ∨ 2 ^ 64 < b + 64 * 2 ^ q.log2 then 4
  else if 2 ^ q.log2 ≤ q.wr then 5
  else 0

/-- A queue enters the error state; one that is in it already keeps its code (log 33). -/
def Hw.queueError (h : Hw) (e : Env) (f q code : Nat) : Hw :=
  if (h.sq f q).err then h
  else ((h.onSq f q fun x => { x with err := true, code := code }).jNote e f 2 q code 0).raiseInt f iQERR 0

/-- FSTAT.READY: the firmware is verified and the function accepts commands (Table 2.2, Table 3.1, R32). A collapsed function
does: its doorbells are taken and held (R81). -/
def Hw.ready (h : Hw) (f : Nat) : Bool :=
  h.boot.ready && !h.trip && h.exists_ f &&
    !((h.fn f).bind.bound && ((h.part (h.partOf f)).quiescing || (h.part (h.partOf f)).quiet))

/-- Does the function fetch what it accepts? Not while it is collapsed (R81). -/
def Hw.accepts (h : Hw) (f : Nat) : Bool := h.ready f && (h.fn f).wake.state == .active

/-- May a queue fetch? -/
def Hw.fetches (h : Hw) (f q : Nat) : Bool :=
  let x := h.sq f q
  x.en && !x.err && x.rd != x.wr && h.accepts f

def Hw.planFetch (h : Hw) (f q : Nat) : Hw :=
  if h.fetches f q then h.planOnce .commandFetch { Occasion.none with unit := f, id := q } else h
/-- Plan the fetches of every queue of a function. -/
def Hw.planFetches (h : Hw) (f : Nat) : Hw := (List.range 16).foldl (fun h q => h.planFetch f q) h

/-- Validate a queue: it errs, or fetches; nothing is fetched while the function is collapsed (R81). -/
def Hw.validate (h : Hw) (e : Env) (f q : Nat) : Hw :=
  if (h.sq f q).err then h
  else
    let code := h.queueCode f (h.sq f q)
    if code ≠ 0 then h.queueError e f q code
    else h.planFetch f q

/-- The checks that a change of the window runs. -/
def Hw.recheckQueues (h : Hw) (e : Env) (f : Nat) : Hw :=
  (List.range 16).foldl (fun h q =>
    let x := h.sq f q
    if x.en && !x.err then
      let code := h.queueCode f x
      if code = 0 then h else h.queueError e f q code
    else h) h

/-- EN goes from 0 to 1. -/
def Hw.enableQueue (h : Hw) (e : Env) (f q : Nat) : Hw :=
  if (h.sq f q).en then h else (h.onSq f q fun x => { x with en := true }).validate e f q
/-- A write to SQWR; while the function is collapsed, a doorbell that a queue which is on takes is held (R43, R81). -/
def Hw.doorbell (h : Hw) (e : Env) (f q v : Nat) : Hw :=
  let h := h.onSq f q fun x => { x with wr := v % 65536 }
  if (h.sq f q).en then
    let h := h.validate e f q
    if (h.fn f).wake.state = .active ∨ (h.sq f q).err = true then h else h.onSq f q fun x => { x with held := true }
  else h
/-- SQCTL.RESET. -/
def Hw.resetQueue (h : Hw) (e : Env) (f q : Nat) : Hw :=
  (h.onSq f q fun x => { x with en := false, err := false, code := 0, rd := 0, wr := 0 }).abortPending e f
    fun c => c.queue == q

/-- SQ_ENABLE: SQCTL.EN of queue `id` of function `unit` is written as 1. -/
def execSqEnable (s : State) : Host.Outcome State Fault Refusal := s.event fun e h => h.enableQueue e h.occ.unit (h.occ.id % 16)
/-- SQ_DOORBELL: `val` is written to SQWR of queue `id` of function `unit`. -/
def execSqDoorbell (s : State) : Host.Outcome State Fault Refusal :=
  s.event fun e h => h.doorbell e h.occ.unit (h.occ.id % 16) h.occ.val.toNat
/-- SQ_GEOMETRY_WRITE: SQBASE or SQSIZE of queue `id` of function `unit` is written while EN is 1. -/
def execSqGeometryWrite (s : State) : Host.Outcome State Fault Refusal := s.event fun e h =>
  if (h.sq h.occ.unit (h.occ.id % 16)).en then h.queueError e h.occ.unit (h.occ.id % 16) 1 else h
/-- SQ_RESET: SQCTL.RESET of queue `id` of function `unit` is written as 1 (R45). -/
def execSqReset (s : State) : Host.Outcome State Fault Refusal := s.event fun e h => h.resetQueue e h.occ.unit (h.occ.id % 16)
/-- FCTL_ABORT: every accepted, undispatched command of function `unit` ends. -/
def execFctlAbort (s : State) : Host.Outcome State Fault Refusal := s.event fun e h => h.abortPending e h.occ.unit fun _ => true

/-! ## Acceptance: header and body (Tables 2.6, 2.7) -/

/-- Are the bytes [lo, hi) of a command all zero? -/
def zeroBytes (bs : List Byte) (lo hi : Nat) : Bool := bytesNat bs lo (hi - lo) == 0

/-- Is a header field out of range? -/
def headerBad (bs : List Byte) : Bool :=
  bytesNat bs 1 1 / 8 != 0 || bytesNat bs 2 2 != 0 || ((bs.getD 1 0#8).getLsbD 2 && bytesNat bs 0 1 != 1)

/-- Is a LAUNCH body out of range? -/
def launchBad (bs : List Byte) : Bool :=
  let s := Shape.ofLaunch bs
  launchRsv bs || !s.inLimits || !s.gridOk || !entryOk s.entry

/-- Does [a, a + n) meet [b, b + n)? -/
def rangesMeet (a b n : Nat) : Bool := decide (a < b + n) && decide (b < a + n)

/-- Is a body field out of range? -/
def bodyBad (bs : List Byte) : Bool :=
  let opc := bytesNat bs 0 1
  if opc = 0 then !zeroBytes bs 16 64
  else if opc = 1 then launchBad bs
  else if opc = 2 then
    let n := bytesNat bs 18 1
    decide (4096 ≤ bytesNat bs 16 2) || n == 0 || decide (4 < n) || !zeroBytes bs 19 24 || !zeroBytes bs (24 + 8 * n) 64
  else if opc = 3 then
    let g := bytesNat bs 40 4
    g / 2 ^ 23 % 256 == 255 || decide (2 ^ 31 < g) || bytesNat bs 44 4 == 0 || decide (65536 < bytesNat bs 44 4) ||
      !zeroBytes bs 56 64
  else if opc = 4 then
    let n := bytesNat bs 32 8
    n == 0 || decide (2 ^ 40 < n) || rangesMeet (bytesNat bs 16 8) (bytesNat bs 24 8) n || !zeroBytes bs 40 64
  else if opc = 5 then decide (1 < bytesNat bs 32 1) || !zeroBytes bs 33 64
  else if opc = 6 then decide (7 < bytesNat bs 32 1) || bytesNat bs 32 1 % 4 == 3 || !zeroBytes bs 33 36 || !zeroBytes bs 40 64
  else decide (31 < bytesNat bs 16 1) || !zeroBytes bs 17 64

/-! ## Acceptance: addresses (R49) -/

/-- Size of a WRITEVAL's or WAITVAL's word. -/
def QCmd.wordSize (c : QCmd) : Nat := if (if c.opc = 5 then c.byte 32 else c.byte 32 >>> 2).getLsbD 0 then 8 else 4
def QCmd.addr (c : QCmd) (k : Nat) : DWord := BitVec.ofNat 64 (c.num k 8)
/-- Descriptor addresses of a TASK. -/
def QCmd.descs (c : QCmd) : List DWord := (List.range (c.num 18 1)).map fun i => c.addr (24 + 8 * i)

/-- What a command accesses: address, length, alignment, and whether it is a destination. -/
def QCmd.accesses (c : QCmd) : List (DWord × Nat × Nat × Bool) :=
  if c.opc = 2 then c.descs.map fun a => (a, 128, 128, false)
  else if c.opc = 3 then [(c.addr 16, 64, 1, false), (c.addr 24, 64, 1, false), (c.addr 32, 64, 1, false),
    (c.addr 48, 32 * c.num 44 4, 1, false)]
  else if c.opc = 4 then [(c.addr 16, c.num 32 8, 1, false), (c.addr 24, c.num 32 8, 1, true)]
  else if c.opc = 5 ∨ c.opc = 6 then [(c.addr 16, c.wordSize, c.wordSize, c.opc == 5)]
  else []

/-- An entry of a tile list (Table 4.12). -/
structure TileEntry where
  base   : DWord
  nt     : Nat
  outtag : BitVec 16
  status : DWord
  rsv    : Bool
  deriving DecidableEq, Repr

def TileEntry.of (bs : List Byte) : TileEntry :=
  { base := BitVec.ofNat 64 (bytesNat bs 0 8), nt := bytesNat bs 8 4 % 1024, outtag := BitVec.ofNat 16 (bytesNat bs 12 2)
    status := BitVec.ofNat 64 (bytesNat bs 16 8)
    rsv := bytesNat bs 8 4 / 1024 != 0 || bytesNat bs 14 2 != 0 || bytesNat bs 24 8 != 0 }

/-- Does an entry pass Table 4.12? -/
def TileEntry.ok (t : TileEntry) : Bool :=
  !t.rsv && canonical t.base && t.base.extractLsb' 0 12 == 0#12 && decide (1 ≤ t.nt) && decide (t.nt ≤ 512) && tagOk t.outtag &&
    tagSt t.outtag == 0 && t.status.toNat % 8 == 0

/-- The tile list of a GSLAUNCH, as it was read. -/
def QCmd.tileList (c : QCmd) : List TileEntry :=
  (List.range (c.list.length / 32)).map fun j => .of ((c.list.drop (32 * j)).take 32)

/-- Does part of a COPY's range, which lies in one page, pass? A hole and a save reserve are no case of R49: a transfer there ends
with COPYERR (R20, R67). -/
def Hw.copyPage (h : Hw) (e : Env) (f : Nat) (write : Bool) (va : DWord) (n : Nat) : Bool :=
  !isScr va && canonical va && match h.leafFor e frontEnd (ctxOf f) (va.toNat % 2 ^ 57) with
    | .error _ => false
    | .ok l =>
      let pa := l.frame + va.toNat % 2 ^ 57 % 2 ^ l.lg
      leafPermits ⟨write, false, false, true⟩ l && paKind pa != .internal &&
        (paKind pa != .host || h.inWindow f (BitVec.ofNat 64 (pa - 0x8000000000000)) n)
/-- Does an address that a command accesses pass, over its whole range? -/
def Hw.rangeOk (h : Hw) (e : Env) (f opc : Nat) (write : Bool) (va : DWord) (n : Nat) : Bool :=
  if opc = 4 then (cutPages (n / 65536 + 2) va n).all fun x => h.copyPage e f write x.1 x.2
  else (h.devRange e f true write va n).isSome

/-- Do all the addresses that the device accesses for a command pass? -/
def Hw.addressesOk (h : Hw) (e : Env) (f : Nat) (c : QCmd) : Bool :=
  c.accesses.all (fun a => a.1.toNat % a.2.2.1 == 0 && h.rangeOk e f c.opc a.2.2.2 a.1 a.2.1) &&
    (c.opc != 3 || c.tileList.all fun t =>
      (h.devRange e f true true t.base (4096 * t.nt)).isSome &&
        (t.status == 0#64 || t.status.toNat % 8 == 0 && (h.devRange e f true true t.status 8).isSome))

/-! ## Acceptance: shapes (R50, R107) -/

/-- The launch record images of a GSLAUNCH, surrogate, check, exact, and its tile list: read once, at acceptance. -/
def Hw.withRecords (h : Hw) (e : Env) (f : Nat) (c : QCmd) : QCmd :=
  if c.opc ≠ 3 then c
  else { c with
    recs := [16, 24, 32].map fun k => (h.devRead e f true (c.addr k) 64).getD []
    list := (h.devRead e f true (c.addr 48) (32 * c.num 44 4)).getD [] }
/-- Can its launch records be read? -/
def QCmd.recsRead (c : QCmd) : Bool := c.recs.all fun b => !b.isEmpty

/-- Is an image no LAUNCH command that passes R47? -/
def Hw.recordBad (h : Hw) (f : Nat) (bs : List Byte) : Bool :=
  let a := BitVec.ofNat 64 (bytesNat bs 8 8)
  bytesNat bs 0 1 != 1 || headerBad bs || launchBad bs || (a != 0#64 && (a.toNat % 8 != 0 || !h.inWindow f a 8))

/-- The conditions of R107. -/
def gsShapesOk (s c : Shape) (tiles : Nat) : Bool :=
  s.gx == c.gx && s.gy == c.gy && s.gz == c.gz && s.bpc == c.bpc && s.k == c.k && s.pwarps == 0 && c.pwarps == 0 &&
    c.spad == 0 && c.bars == 0 && decide (s.wpb + c.wpb ≤ 32) && decide ((s.wpb + c.wpb) * 32 * s.k ≤ 8192) &&
    s.gx * s.gy * s.gz == tiles * s.bpc

/-- Do two entries' ranges overlap? -/
def entriesMeet : List TileEntry → Bool
  | [] => false
  | t :: ts => ts.any (fun u => decide (t.base.toNat < u.base.toNat + 4096 * u.nt) &&
      decide (u.base.toNat < t.base.toNat + 4096 * t.nt)) || entriesMeet ts

/-- The last check: NORES, and for GSLAUNCH R107. -/
def Hw.shapeStatus (h : Hw) (f : Nat) (c : QCmd) : Nat :=
  let p := h.partFor f
  if c.opc = 1 then (if p.neverFits (Shape.ofLaunch c.bytes) none then stNORES else stOK)
  else if c.opc = 3 then
    match c.recs with
    | [sb, cb, eb] =>
      let s := Shape.ofLaunch sb
      let k := Shape.ofLaunch cb
      let l := c.tileList
      let timed := [sb, cb, eb].any fun b => (b.getD 1 0#8).getLsbD 2
      if timed || !gsShapesOk s k l.length || !(l.all TileEntry.ok) || entriesMeet l then stBADFIELD
      else if p.neverFits s (some k) || p.neverFits (Shape.ofLaunch eb) none then stNORES
      else stOK
    | _ => stBADFIELD
  else stOK

/-- Does CADDR fail (R52)? -/
def Hw.caddrBad (h : Hw) (f : Nat) (c : QCmd) : Bool :=
  c.caddr != 0#64 && (c.caddr.toNat % 8 != 0 || !h.inWindow f c.caddr 8)

/-- Status at acceptance in the order of R47, 0 where the command is accepted. The values of launch records, which have to be read,
come before every other address. -/
def Hw.acceptStatus (h : Hw) (e : Env) (f : Nat) (c : QCmd) : Nat :=
  if h.caddrBad f c then stADDR
  else if 7 < c.opc then stBADOP
  else if headerBad c.bytes || bodyBad c.bytes then stBADFIELD
  else if c.opc = 3 ∧ !c.recsRead then stADDR
  else if c.opc = 3 ∧ c.recs.any (h.recordBad f) then stBADFIELD
  else if !h.addressesOk e f c then stADDR
  else h.shapeStatus f c

/-- Accept 64 bytes as a command of queue q, or reject them (R46, R47, R57); acceptance pauses where the next index is taken (R59). A
rejected command with CADDR 0, which asks for no word, does not set INTSTAT.QERR (DESIGN CHOICE: Table 2.3 speaks of a command
rejected without a completion word, R47 of a bad CADDR; log 66). -/
def Hw.accept (h : Hw) (e : Env) (f q : Nat) (bytes : List Byte) : Hw :=
  let c : QCmd := h.withRecords e f
    { queue := q, bytes := bytes, disp := false, waitAt := none, nomSlot := none, left := 0, cause := 0, recs := [], list := [] }
  let x := h.fn f
  let seq := x.jnext
  let st := h.acceptStatus e f c
  let x := x.jPut ⟨0, 1, 1, q, 0, 0, false, c.ctag, c.opc, e.clk.tick⟩
  let h := h.setFn f { x with cmds := Tab.put x.cmds seq c }
  if st ≠ stOK then
    let h := if h.caddrBad f c then h.raiseInt f iQERR 0 else h
    h.endCommand e f seq st 0 true
  else ((h.onSq f q fun y => { y with seq := seq }).planDispatch f q).jPause f

/-- COMMAND_FETCH: queue `id` of function `unit` fetches its next entry; a poisoned line ends the fetch with an error. -/
def commandFetch (e : Env) (h : Hw) : Hw :=
  let f := h.occ.unit
  let q := h.occ.id
  if !h.fetches f q then h
  else
    let h := h.jPause f
    if (h.fn f).jfull then h
    else
      let x := h.sq f q
      let pa := hostPa x.base + 64 * x.rd
      if h.poison.contains (lineOf pa) then h.queueError e f q 6
      else
        let h := h.onSq f q fun y => { y with rd := (y.rd + 1) % 2 ^ y.log2 }
        ((h.accept e f q (h.bytes e pa 64)).planFetch f q).moved

/-- COMMAND_FETCH (R46, R47, R59). -/
def execCommandFetch (s : State) : Host.Outcome State Fault Refusal := s.event commandFetch

/-- FETCH_TIMEOUT: the fetch that queue `id` of function `unit` has to make is not answered. -/
def execFetchTimeout (s : State) : Host.Outcome State Fault Refusal := s.event fun e h =>
  if h.fetches h.occ.unit h.occ.id then h.queueError e h.occ.unit h.occ.id 6 else h

end Sys2Proof.Machine
end

