-- ==== Sys2Proof/Machine/Commands.lean ====
section
/-! DEFINITION. Sys2Proof/Machine/Commands.lean: the dispatch of the eight queue commands (R46, R49 to R53, R99 to R109),
and the entries of the handler warp that TASK makes (R106, R414). -/
namespace Sys2Proof.Machine

/-! ## Dispatch (R46, R49) -/

/-- Dispatch command `id` of function `unit`, whose opcode is `opc`, if it is the next of its queue: a mapping that
changed since acceptance ends it with ADDR. A command that a line's owner held comes back here. -/
def dispatched (opc : Nat) (k : Env → Hw → Nat → Nat → QCmd → Hw) (e : Env) (h : Hw) : Hw :=
  let f := h.occ.unit
  let seq := h.occ.id
  match Tab.find? (h.fn f).cmds seq with
  | none => h
  | some c =>
    if c.opc ≠ opc ∨ h.trip = true then h
    else if (h.fn f).wake.state ≠ .active then h.plan (dispatchStep opc) h.occ
    else if c.disp then k e h f seq c
    else if (h.nextCommand f c.queue).map (·.1) ≠ some seq then h
    else
      let h := h.markDispatched e f seq
      let h := if h.addressesOk e f c then (k e h f seq c).planDispatch f c.queue else h.endCommand e f seq stADDR 0
      h.moved

/-- NOP. -/
def goNop (e : Env) (h : Hw) (f seq : Nat) (_c : QCmd) : Hw := h.endCommand e f seq stOK 0
/-- NOP: the command completes at its dispatch. -/
def execNop (s : State) : Host.Outcome State Fault Refusal := s.event (dispatched 0 goNop)

/-- INTR. -/
def goIntr (e : Env) (h : Hw) (f seq : Nat) (c : QCmd) : Hw :=
  (h.send (.msix f (c.num 16 1 % 32))).endCommand e f seq stOK 0
/-- INTR: its vector is sent at dispatch. -/
def execIntr (s : State) : Host.Outcome State Fault Refusal := s.event (dispatched 7 goIntr)

/-! ## LAUNCH (R48, R50, R135) -/

/-- A LAUNCH becomes a grid; a TIMED one whose tick has passed, by the I/O die's own count (DESIGN CHOICE: R30 does not say which copy
of TICK decides at dispatch; log 66), is late. A function without slot areas or with fewer than two
pool records launches nothing (Table 8.8). -/
def goLaunch (e : Env) (h : Hw) (f seq : Nat) (c : QCmd) : Hw :=
  let s := Shape.ofLaunch c.bytes
  let r := (h.fn f).race
  if (h.partFor f).neverFits s none || r.frbase == 0#64 || decide (r.rrcnt < 2) then h.endCommand e f seq stNORES 0
  else
    let t := c.num 56 8
    let gone := c.timed && decide (t < e.clk.tick)
    let g := { Grid.plain .launch f seq (BitVec.ofNat 64 seq) s with startAt := if c.timed && !gone then some t else none }
    let h := if gone then h.jState e f seq 2 0 0 true else h
    ((h.onQCmd f seq fun c => { c with left := 1 }).addGrid g).1.place (h.partOf f)
/-- LAUNCH_COMMAND (R48, R50, R116). -/
def execLaunchCommand (s : State) : Host.Outcome State Fault Refusal := s.event (dispatched 1 goLaunch)

/-! ## TASK (R99 to R106) -/

/-- The handler copy of a task record (Table 4.10). -/
def handlerRecord (c : QCmd) (seq reason : Nat) (keys : List (BitVec 16)) : List Byte :=
  natLe 2 (c.num 16 2 % 4096 + c.num 18 1 % 8 * 4096) ++ natLe 1 0 ++ natLe 1 reason ++ natLe 4 0 ++
    ((List.range 4).flatMap fun i => natLe 8 (c.num (24 + 8 * i) 8)) ++
    ((List.range 4).flatMap fun i => natLe 2 (keys.getD i 0#16).toNat) ++ natLe 8 seq ++ natLe 8 0

/-- TRAPO of NOMETHOD. -/
def noMethodO (reason operand : Nat) : DWord := BitVec.ofNat 64 (reason + (if reason = 2 then 256 * operand else 0))

/-- A TASK met NOMETHOD: its record goes into the lowest free slot and its entry is raised, or it waits for one; a
partition that has no handler warp declines it. -/
def Hw.raiseTask (h : Hw) (e : Env) (f seq reason operand : Nat) (keys : List (BitVec 16)) : Hw :=
  match Tab.find? (h.fn f).cmds seq with
  | none => h
  | some c =>
    let p := h.partOf f
    if (h.partFor f).rings.isEmpty then h.endCommand e f seq stHREJECT 0
    else match (List.range 64).find? fun k => !(h.part p).slots.contains k with
      | none => h.onQCmd f seq fun c => { c with nomSlot := some (reason, operand, keys) }
      | some k =>
        let h := h.putBytes (recordSlot p k) (handlerRecord c seq reason keys)
        let h := h.onQCmd f seq fun c => { c with nomSlot := none }
        let h := h.onPart p fun x =>
          { x with slots := k :: x.slots, tasks := x.tasks ++ [⟨f, seq, k, noMethodO reason operand⟩] }
        h.planOnce .handlerTaskEntry { Occasion.none with unit := p }

/-- One lookup of a TASK and what follows from it. -/
def Hw.taskLookup (h : Hw) (e : Env) (f seq : Nat) (c : QCmd) : Hw :=
  if !(h.fn f).bind.bound then h.endCommand e f seq stNORES 0
  else match h.lookup e f true false (c.num 16 2 % 4096) c.descs with
    | .bad st => h.endCommand e f seq st 0
    | .noMethod r i keys => (h.countNoMethod (h.partOf f)).raiseTask e f seq r i keys
    | .entry i m ops ss =>
      let n := (ss.filter (·.isSome)).length
      (h.onQCmd f seq fun c => { c with left := 1 + n }).launchFound e f seq true (BitVec.ofNat 64 seq) i m ops ss

def goTask (e : Env) (h : Hw) (f seq : Nat) (c : QCmd) : Hw := if c.disp then h else h.taskLookup e f seq c
/-- TASK_COMMAND (R99 to R106). -/
def execTaskCommand (s : State) : Host.Outcome State Fault Refusal := s.event (dispatched 2 goTask)

/-- The handler warp of a partition enters its next task entry. -/
def Hw.enterTask (h : Hw) (e : Env) (p : Nat) (x : HEntry) : Hw :=
  let q := h.part p
  let wk := wkOf (handlerFn p) handlerSlot 0
  let h := h.setPart p { q with serving := some x, tasks := q.tasks.drop 1 }
  h.onWarp wk fun w =>
    { w with
      mode := .handler, done := false, p0 := freshPath q.phvec (allMask w.k), p1 := deadPath, split := none
      trapc := BitVec.ofNat 64 cNOMETHOD, trappc := 0#64, trapa := BitVec.ofNat 64 (recordSlot p x.slot), trapo := x.trapo
      progressAt := e.clk.cycle }

/-- The oldest commands of a partition's functions that wait for a record slot. -/
def Hw.waitingTask (h : Hw) (p : Nat) : Option (Nat × Nat × Nat × Nat × List (BitVec 16)) :=
  (h.fnsOf p).findSome? fun f => (h.fn f).cmds.findSome? fun (c : Nat × QCmd) => c.2.nomSlot.map fun n => (f, c.1, n)

/-- The served entry of a partition ends: RETRY starts a new lookup, anything else declines the command; a waiting command
takes the slot. -/
def Hw.leaveTask (h : Hw) (e : Env) (p disp : Nat) : Hw :=
  match (h.part p).serving with
  | none => h
  | some x =>
    let h := h.onPart p fun q => { q with serving := none, slots := q.slots.filter (· != x.slot) }
    let h := h.onWarp (wkOf (handlerFn p) handlerSlot 0) fun w => { w with p0 := deadPath, p1 := deadPath, split := none }
    let h := match Tab.find? (h.fn x.fn).cmds x.seq with
      | none => h
      | some c => if disp = 1 then h.taskLookup e x.fn x.seq c else h.endCommand e x.fn x.seq stHREJECT 0
    let h := match h.waitingTask p with
      | some (f, seq, r, i, keys) => h.raiseTask e f seq r i keys
      | none => h
    (if (h.part p).tasks.isEmpty then h else h.planOnce .handlerTaskEntry { Occasion.none with unit := p }).moved

/-- HANDLER_TASK_ENTRY: with `flag` false, the handler warp of partition `unit` takes its next held entry once IMASK bit 1 is
clear, and an entry that meets PHVEC 0 is declined; with `flag` true, the entry it serves ends with DISP `aux`. -/
def handlerTaskEntry (e : Env) (h : Hw) : Hw :=
  let p := h.occ.unit
  let q := h.part p
  if h.occ.flag then h.leaveTask e p h.occ.aux
  else if q.serving.isSome || q.imask.getLsbD 1 || !q.live then h
  else match q.tasks with
    | [] => h
    | x :: _ =>
      if q.phvec = 0#64 then (h.setPart p { q with serving := some x, tasks := q.tasks.drop 1 }).leaveTask e p 2
      else (h.enterTask e p x).moved

/-- HANDLER_TASK_ENTRY (R106, R414). -/
def execHandlerTaskEntry (s : State) : Host.Outcome State Fault Refusal := s.event handlerTaskEntry

/-! ## GSLAUNCH (R107 to R109) -/

/-- The units of a GSLAUNCH, by their tile list. -/
def Hw.addUnits (h : Hw) (f seq gid : Nat) (exact : Shape) (gtol : Word) (l : List TileEntry) : Hw :=
  l.zipIdx.foldl (fun h (x : TileEntry × Nat) =>
    let g : GUnit :=
      { fn := f, seq := seq, idx := x.2, grid := gid, exact := exact, gtol := gtol, base := x.1.base.toNat, nt := x.1.nt
        outtag := x.1.outtag, status := x.1.status.toNat, tiles := [], ring := none, res := 0#32, sealed := false
        verdict := false, faulted := false, poisoned := false, outcome := 0, ecause := 0, ended := false, gmem := []
        gmarks := [], ends := [] }
    { h with nextId := h.nextId + 1, units := Tab.put h.units h.nextId g }) h

/-- GSLAUNCH: one grid whose blocks are the units', composed as R108 says from the records read at acceptance. -/
def goGslaunch (e : Env) (h : Hw) (f seq : Nat) (c : QCmd) : Hw :=
  if c.disp then h
  else
    let st := h.shapeStatus f c
    if st ≠ stOK then h.endCommand e f seq st 0
    else match c.recs.map Shape.ofLaunch with
      | [s, k, x] =>
        let (h, gid) := h.addGrid { Grid.plain .units f seq (BitVec.ofNat 64 seq) s with cons := some k }
        ((h.addUnits f seq gid x (BitVec.ofNat 32 (c.num 40 4)) c.tileList).onQCmd f seq fun c =>
          { c with left := 1 }).place (h.partOf f)
      | _ => h.endCommand e f seq stBADFIELD 0

/-- GSLAUNCH_COMMAND (R107, R108). -/
def execGslaunchCommand (s : State) : Host.Outcome State Fault Refusal := s.event (dispatched 3 goGslaunch)

/-! ## COPY, WRITEVAL, WAITVAL (R51) -/

/-- Do a queue's bytes at a place: no party's write, an ordinary store for its tile. -/
def Hw.queueWrite (h : Hw) (pa : Nat) (bs : List Byte) : Hw := (h.deviceWrite pa bs).upkeep [] pa

/-- Copy the pieces that lie in one destination line each, up to the first poisoned source line. -/
def Hw.queuePieces (h : Hw) (e : Env) (f : Nat) (src dst : DWord) : List (DWord × Nat) → Hw × Bool
  | [] => (h, true)
  | (d, n) :: l =>
    match h.devRange e f true false (src + (d - dst)) n, h.devAt e f true true d n with
    | some ss, some (pa, _) =>
      if ss.any fun x => (List.range (x.2 / 128 + 2)).any fun k => decide (lineOf x.1 + k ≤ lineOf (x.1 + x.2 - 1)) &&
          h.poison.contains (lineOf x.1 + k) then (h, false)
      else Hw.queuePieces (h.queueWrite pa (ss.flatMap fun x => h.bytes e x.1 x.2)) e f src dst l
    | _, _ => (h, false)

/-- Does a copy engine of die `d` wait for a link or a channel on the way to part of a range (R15, R19)? -/
def Hw.copyWaits (h : Hw) (e : Env) (f d : Nat) (write : Bool) (va : DWord) (n : Nat) : Bool :=
  (!h.links.isEmpty || !h.chans.isEmpty) && (cutLines (n / 128 + 2) va n).any fun x => match h.devAt e f true write x.1 x.2 with
    | some (pa, l) => h.waitsOnWay (ctxOf f) d l pa
    | none => false

/-- COPY: a copy engine of an owned group takes ownership of the destination lines, moves the payload, and ends the
command; its completion word is written after the payload, a system-scope release. -/
def goQueueCopy (e : Env) (h : Hw) (f seq : Nat) (c : QCmd) : Hw :=
  let src := c.addr 16
  let dst := c.addr 24
  let n := c.num 32 8
  match (List.range 20).find? fun r => (h.partFor f).owns.eng.getLsbD (2 * r) with
  | none => h.endCommand e f seq stNORES 0
  | some ring =>
    if h.copyWaits e f (ring / 5) false src n || h.copyWaits e f (ring / 5) true dst n then
      h.plan .queueCopy { Occasion.none with unit := f, id := seq }
    else
    let cuts := cutLines (n / 128 + 2) dst n
    let lines := memLines (cuts.filterMap fun x => (h.devAt e f true true x.1 x.2).map fun p => (.mem p.1, x.2))
    let id := queueOwner f seq
    match lines.find? fun l => match Tab.find? h.owners l with | some o => o != id | none => false with
    | some _ =>
      let free := lines.takeWhile fun l => match Tab.find? h.owners l with | some o => o == id | none => true
      { h with owners := free.foldl (fun t l => Tab.put t l id) h.owners }.plan .queueCopy
        { Occasion.none with unit := f, id := seq }
    | none =>
      let (h, ok) := h.queuePieces e f src dst cuts
      let h := { h with owners := Tab.keep (fun _ o => o != id) h.owners }
      (h.peerWriteBack.endCommand e f seq (if ok then stOK else stCOPYERR) 0).moved

/-- QUEUE_COPY (R51, R68). -/
def execQueueCopy (s : State) : Host.Outcome State Fault Refusal := s.event (dispatched 4 goQueueCopy)

/-- Where a WRITEVAL's or WAITVAL's word is, and whether it waits: an engine owns its line, or a link or a channel holds it (R15, R19,
R189). -/
def Hw.wordPlace (h : Hw) (e : Env) (f : Nat) (c : QCmd) (write : Bool) : Option (Nat × Bool) :=
  (h.devAt e f true write (c.addr 16) c.wordSize).map fun p =>
    (p.1, Tab.has h.owners (lineOf p.1) || h.waitsOnWay (ctxOf f) ioDie p.2 p.1)

/-- WRITEVAL: a system-scope release store at the word's home. -/
def goWriteval (e : Env) (h : Hw) (f seq : Nat) (c : QCmd) : Hw :=
  match h.wordPlace e f c true with
  | none => h.endCommand e f seq stADDR 0
  | some (_, true) => h.plan .writeval { Occasion.none with unit := f, id := seq }
  | some (pa, false) => ((h.queueWrite pa (natLe c.wordSize (c.num 24 8))).peerWriteBack.endCommand e f seq stOK 0).moved
/-- WRITEVAL (R51, R213, R219). -/
def execWriteval (s : State) : Host.Outcome State Fault Refusal := s.event (dispatched 5 goWriteval)

/-- Does a WAITVAL's condition hold of a value? -/
def QCmd.holds (c : QCmd) (v : Nat) : Bool :=
  let want := c.num 24 8 % 2 ^ (8 * c.wordSize)
  let cond := (c.byte 32).toNat % 4
  if cond = 0 then v == want else if cond = 1 then v != want else decide (want ≤ v)

/-- WAITVAL: one poll of its word at the home; it polls again until its condition holds. -/
def goWaitval (e : Env) (h : Hw) (f seq : Nat) (c : QCmd) : Hw :=
  let h := if c.waitAt.isNone then h.onQCmd f seq fun c => { c with waitAt := some e.clk.tick } else h
  match h.wordPlace e f c false with
  | none => h.endCommand e f seq stADDR 0
  | some (pa, owned) =>
    if !owned && c.holds (h.read e pa c.wordSize) then (h.endCommand e f seq stOK 0).moved
    else h.planOnce .waitval { Occasion.none with unit := f, id := seq }
/-- WAITVAL (R51). -/
def execWaitval (s : State) : Host.Outcome State Fault Refusal := s.event (dispatched 6 goWaitval)

/-- WAITVAL_TIMEOUT: the timeout of command `id` of function `unit` has passed before its condition held. -/
def waitvalTimeout (e : Env) (h : Hw) : Hw :=
  match Tab.find? (h.fn h.occ.unit).cmds h.occ.id with
  | none => h
  | some c =>
    match c.waitAt with
    | none => h
    | some t =>
      if c.opc = 6 ∧ c.num 36 4 ≠ 0 ∧ t + 1000 * c.num 36 4 ≤ e.clk.tick then
        (h.endCommand e h.occ.unit h.occ.id stTIMEOUT 0).moved
      else h
/-- WAITVAL_TIMEOUT (R51). -/
def execWaitvalTimeout (s : State) : Host.Outcome State Fault Refusal := s.event waitvalTimeout

end Sys2Proof.Machine
end

