-- ==== Sys2Proof/Machine/Place.lean ====
section
/-! DEFINITION. Sys2Proof/Machine/Place.lean: the work distributor (R116 to R123, R135), the guard store of a unit (R108,
R109), and the compactor (R127 to R129). -/
namespace Sys2Proof.Machine

/-! ## The view and the choice of cores (R117 to R119) -/

/-- Views of the cores of some rings, in ascending core number. -/
def Hw.views (h : Hw) (f : Nat) (rings : List Nat) : List View :=
  rings.flatMap fun r => (List.range 8).map fun s => h.view f (8 * r + s)

/-- The ring of a cluster: all its blocks fit, the smallest sum of LANES, the lower number on a tie. -/
def Hw.clusterSpots (h : Hw) (f : Nat) (rings : List Nat) (s : Shape) (cons : Option Shape) : Option (List Spot) :=
  let best : Option (Nat × List Spot) := rings.foldl (fun b r =>
    let vs := h.views f [r]
    match fitCluster s.bpc vs s cons with
    | none => b
    | some l =>
      let n := (vs.map (·.lanes)).sum
      match b with
      | some (m, _) => if n < m then some (n, l) else b
      | none => some (n, l)) none
  best.map (·.2)

/-- Where the next block or cluster of a shape goes among some rings, if it fits as the cores stand. -/
def Hw.spots (h : Hw) (f : Nat) (rings : List Nat) (s : Shape) (cons : Option Shape) : Option (List Spot) :=
  if s.bpc ≤ 1 then (bestCore (h.views f rings) s cons).map fun x => [x.2] else h.clusterSpots f rings s cons

/-! ## The compactor (R127 to R129) -/

/-- Would a block fit if the free register file and the free scratchpad were each contiguous? -/
def View.loose (v : View) (s : Shape) (cons : Option Shape) : Bool :=
  let ws := warpsOf s cons
  v.slots.eraseDups.length < 16 && decide (v.lanes + blockLanes s cons ≤ 8192) && (takeCtxs ws.length v.ctxs).isSome &&
    decide ((ws.map fun w => vrKib s.k w.2).sum + (v.vr.map (·.2)).sum ≤ 2048) &&
    (s.spad == 0 || (if 512 < spKib s.spad then v.sp.isEmpty else decide (spKib s.spad + (v.sp.map (·.2)).sum ≤ 640))) &&
    (s.bars == 0 || (buddy v.bars 2048 (barUp s.bars)).isSome)

/-- Where a unit of `u` bytes lies once [old, old + n) has moved to `new`. -/
def shift (old new n u k : Nat) : Nat := if old / u ≤ k ∧ k < (old + n) / u then k - old / u + new / u else k
/-- Move the entries of a table that lie in [old, old + n); what the new range held goes. -/
def moveTab {α : Type} (old new n u : Nat) (t : Tab α) : Tab α :=
  let rest := Tab.keep (fun k _ => !(decide (new / u ≤ k) && decide (k < (new + n) / u))) t
  rest.foldl (fun t x => Tab.put t (shift old new n u x.1) x.2) []

def Loc.shift (core old new n : Nat) : Loc → Loc
  | .scr c off => if c = core then .scr c (Sys2Proof.Machine.shift old new n 1 off) else .scr c off
  | l => l
def WarpQueue.shift (core old new n : Nat) (q : WarpQueue) : WarpQueue :=
  { q with failure := q.failure.map fun f => { f with stamp := f.stamp.map (Loc.shift core old new n) } }
def Path.shift (core old new n : Nat) (p : Path) : Path :=
  { p with mon := p.mon.map fun m => { m with loc := m.loc.shift core old new n } }
/-- The owner of a range that moves stalls for it (R128): a path that could issue stands with the reason "compacting". -/
def Path.compacting (p : Path) : Path := if p.live ∧ p.stall = 0 then { p with stall := 15 } else p
def Warp.compacting (w : Warp) : Warp := { w with p0 := w.p0.compacting, p1 := w.p1.compacting }
/-- The tiles that a command took, after a move. -/
def Cmd.shift (core old new n : Nat) (c : Cmd) : Cmd :=
  { c with tiles := c.tiles.map fun t => if t.2.1 ∧ t.2.2 = core then (Sys2Proof.Machine.shift old new n 4096 t.1, t.2) else t }

/-- Move a block's scratchpad with its marks, tags and records, and what commands have taken of it: the owner's base changes, so no
scratchpad address does (R128). -/
def Hw.moveSp (h : Hw) (bk : Nat) (b : Block) (new : Nat) : Hw :=
  let f := bkFn bk
  let old := b.spBase
  let n := b.spBytes
  let h := h.onFCore f b.core fun c =>
    { c with
      spad := moveTab old new n 1 c.spad, marks := moveTab old new n 4 c.marks, ovf := moveTab old new n 128 c.ovf
      tags := moveTab old new n 4096 c.tags, recs := moveTab old new n 4 c.recs
      poison := c.poison.map (shift old new n 128)
      latchA := c.latchA.filter fun x => !(decide (old ≤ x.1) && decide (x.1 < old + n))
      latchB := c.latchB.filter fun x => !(decide (old ≤ x.1) && decide (x.1 < old + n)) }
  let h := h.onFn f fun x => { x with race := { x.race with
    order := x.race.order.map fun (k : Bool × Nat) =>
      if k.1 ∧ k.2 / 2 ^ 20 = b.core then (true, b.core * 2 ^ 20 + shift old new n 4 (k.2 % 2 ^ 20)) else k } }
  let h := { h with cmds := Tab.mapVals (fun _ (c : Cmd) => if c.fn = f then c.shift b.core old new n else c) h.cmds }
  let h := (h.warpsOf bk).foldl (fun h x => h.onWarp x.1 fun w =>
    Warp.compacting { w with
      p0 := w.p0.shift b.core old new n, p1 := w.p1.shift b.core old new n
      frame := w.frame.map fun fr => { fr with p0 := fr.p0.shift b.core old new n, p1 := fr.p1.shift b.core old new n }
      q0 := w.q0.shift b.core old new n, q2 := w.q2.shift b.core old new n, q4 := w.q4.shift b.core old new n }) h
  h.onBlock bk fun b => { b with spBase := new }

/-- May a block's scratchpad move (R127, R129)? -/
def Hw.spMovable (h : Hw) (bk : Nat) (b : Block) : Bool :=
  b.shape.bpc ≤ 1 && (h.fcore (bkFn bk) b.core).lent.isNone &&
    !h.cmds.any (fun c => c.2.started && wkBlock c.2.wk == bk) &&
    !h.flights.any (fun f => f.2.replay && wkBlock f.2.wk == bk)

/-- Move one warp's registers, or one block's scratchpad, to the lowest free place of its size that lies lower. -/
def Hw.packRegs (h : Hw) (f core wk : Nat) (w : Warp) : Hw :=
  match buddy ((h.view f core).vr.erase (w.vrBase, w.vrSize)) 2048 w.vrSize with
  | some o => if o < w.vrBase then h.onWarp wk fun w => Warp.compacting { w with vrBase := o } else h
  | none => h
def Hw.packSp (h : Hw) (f core bk : Nat) (b : Block) : Hw :=
  let me := (b.spBase / 1024, b.spBytes / 1024)
  if me.2 = 0 ∨ 512 < me.2 ∨ !h.spMovable bk b then h
  else match buddy ((h.view f core).sp.erase me) (h.fcore f core).split me.2 with
    | some o => if o < me.1 then h.moveSp bk b (1024 * o) else h
    | none => h

/-- A core's free resources of a function have changed: it reports them (R117). -/
def Hw.planReport (h : Hw) (f core : Nat) : Hw := h.planOnce .resourceReport { Occasion.none with unit := f, id := core }

/-- Keys by a measure, least first. -/
def sortOn {α : Type} (m : α → Nat) (l : List α) : List α :=
  l.foldr (fun x acc => (acc.takeWhile fun y => decide (m y < m x)) ++ x :: acc.dropWhile fun y => decide (m y < m x)) []

/-- Repack a core in ascending offset order until the block fits; nothing where it never does (log 10). -/
def Hw.compact (h : Hw) (f core : Nat) (s : Shape) (cons : Option Shape) : Option (Hw × Spot) :=
  let ws := sortOn (fun (x : Nat × Warp) => x.2.vrBase) (h.warps.filter fun x => wkFn x.1 == f &&
    (match h.block? (wkBlock x.1) with | some b => b.core == core | none => false))
  let bs := sortOn (fun (x : Nat × Block) => x.2.spBase) (h.blocks.filter fun x => bkFn x.1 == f && x.2.core == core)
  let go (a : Hw × Option Spot) (move : Hw → Hw) : Hw × Option Spot :=
    if a.2.isSome then a else let h := move a.1; (h, (h.view f core).fit s cons)
  let a := ws.foldl (fun a x => go a fun h => h.packRegs f core x.1 x.2) (h, none)
  let a := bs.foldl (fun a x => go a fun h => h.packSp f core x.1 x.2) a
  a.2.map fun t => (a.1.planReport f core, t)

/-- The core the compactor serves, of those that do not fit the block as they stand: the smallest LANES, the lower number on a tie. -/
def Hw.compactCore (h : Hw) (f : Nat) (rings : List Nat) (s : Shape) (cons : Option Shape) : Option Nat :=
  (((h.views f rings).filter fun v => v.loose s cons && (v.fit s cons).isNone).foldl (fun (b : Option View) v =>
    match b with
    | some x => if v.lanes < x.lanes then some v else b
    | none => some v) none).map (·.core)

/-- Cores of a ring are compacted one after the other until a whole cluster fits it; a ring has eight (log 10). -/
def Hw.compactRing (f : Nat) (s : Shape) (cons : Option Shape) (ring : Nat) : Nat → Hw → Option (Hw × List Spot)
  | 0, _ => none
  | k + 1, h =>
    match h.clusterSpots f [ring] s cons with
    | some l => some (h, l)
    | none =>
      match h.compactCore f [ring] s cons with
      | none => none
      | some c => match h.compact f c s cons with
        | none => none
        | some x => Hw.compactRing f s cons ring k x.1

/-- Rings by the sum of LANES of their cores, least first, the lower number on a tie. -/
def Hw.byLanes (h : Hw) (f : Nat) (rings : List Nat) : List Nat :=
  sortOn (fun r => ((h.views f [r]).map (·.lanes)).sum) rings

/-- Where the next block or cluster goes, after compaction where that is needed (R127). -/
def Hw.find (h : Hw) (f : Nat) (rings : List Nat) (s : Shape) (cons : Option Shape) : Option (Hw × List Spot) :=
  match h.spots f rings s cons with
  | some l => some (h, l)
  | none =>
    if 1 < s.bpc then (h.byLanes f rings).findSome? fun r => h.compactRing f s cons r 9
    else match h.compactCore f rings s cons with
      | none => none
      | some c => (h.compact f c s cons).map fun x => (x.1, [x.2])

/-! ## Placing a block (R121 to R126) -/

/-- The scratchpad of a new block: no marks, no ready bits, raw tags (R87, R216). -/
def Hw.freshSp (h : Hw) (f core base n : Nat) : Hw :=
  let inn (u k : Nat) : Bool := decide (base / u ≤ k) && decide (k < (base + n) / u)
  let h := h.onFCore f core fun c =>
    { c with
      marks := Tab.keep (fun k _ => !inn 4 k) c.marks, ovf := Tab.keep (fun k _ => !inn 128 k) c.ovf
      tags := Tab.keep (fun k _ => !inn 4096 k) c.tags, recs := Tab.keep (fun k _ => !inn 4 k) c.recs
      latchA := c.latchA.filter fun x => !inn 1 x.1, latchB := c.latchB.filter fun x => !inn 1 x.1 }
  h.onFn f fun x => { x with race := { x.race with
    order := x.race.order.filter fun (k : Bool × Nat) => !(k.1 && k.2 / 2 ^ 20 == core && inn 4 (k.2 % 2 ^ 20)) } }

/-- What the launch gives a warp in its uniform registers: effective descriptor addresses and the task word (R105). -/
def launchRegs (g : Grid) : Tab (BitVec 32) :=
  if g.kind = .routine ∨ g.kind = .conversion then
    let l := (List.range 4).flatMap fun i => halves (g.descs.getD i 0#64)
    ((l ++ [g.task]).zipIdx.foldl (fun t (x : BitVec 32 × Nat) => Tab.store 0#32 t x.2 x.1) [])
  else []

/-- The warps of a block: S's warps start at S's entry and C's at C's, each role with its own windows (R108). -/
def placeWarp (e : Env) (g : Grid) (t : Spot) (i : Nat) (role : Bool) (regs : Nat) : Warp :=
  let uwin := match g.cons with
    | some c => if role then g.shape.uwin else c.uwin
    | none => g.shape.uwin
  let entry := match g.cons with
    | some c => if role then g.shape.entry else c.entry
    | none => g.shape.entry
  let vr := t.vr.getD i (0, 0)
  { newWarp g.shape.k role regs uwin (t.ctxs.getD i 0) vr.1 vr.2 entry e.clk.cycle with uregs := launchRegs g }

/-- A record that names a generation of a slot no longer does. -/
def RelRec.forget (slot gen : Nat) (r : RelRec) : RelRec := if r.row = some (slot, gen) then { r with row := none } else r
/-- No release record of a function names the block that a slot is about to take: records of an earlier block of the same generation
lose their row (R207). -/
def Hw.forgetBlock (h : Hw) (f slot gen : Nat) : Hw :=
  let one (r : RelRec) : RelRec := if r.fn = f then r.forget slot gen else r
  let h := { h with
    recs := Tab.mapVals (fun _ r => one r) h.recs
    fcores := Tab.mapVals (fun k (c : FCore) => if k / 256 = f then { c with recs := Tab.mapVals (fun _ r => one r) c.recs } else c) h.fcores }
  h.onFn f fun x => { x with race := { x.race with retired := x.race.retired.map one } }

/-- Place block `lin` of grid `gid` at a spot. A growing scratchpad takes ways of the L1 (R125). -/
def Hw.putBlock (h : Hw) (e : Env) (gid : Nat) (g : Grid) (unit : Option Nat) (lin : Nat) (t : Spot) : Hw :=
  let f := g.fn
  let slot := 16 * t.core + t.slot
  let bk := bkOf f slot
  let race := (h.fn f).race
  let gen := (Tab.getD race.gen slot 0 + 1) % 8
  let st := Tab.getD race.ctr slot 0 + 1
  let h := if (h.fcore f t.core).split < t.split then
      (h.shrinkL1 t.core t.split).onFCore f t.core fun c => { c with split := t.split }
    else h
  let h := h.forgetBlock f slot gen
  let h := h.onFn f fun x => { x with race := { x.race with gen := Tab.put x.race.gen slot gen, ctr := Tab.put x.race.ctr slot st } }
  let h := h.freshSp f t.core (1024 * t.sp.1) (1024 * t.sp.2)
  let late := match g.startAt with
    | some n => decide (n < localTick e t.core)
    | none => false
  let b := { newBlock gen t.core gid lin g.shape g.cons h.nextId (1024 * t.sp.1) (1024 * t.sp.2) t.bar.1 st with
    front := if g.kind = .routine then g.exitF else [], startAt := if late then none else g.startAt, unit := unit }
  let h := { h with nextId := h.nextId + 1, blocks := Tab.put h.blocks bk b }
  let h := (Sys2Proof.Machine.warpsOf g.shape g.cons).zipIdx.foldl (fun h (x : (Bool × Nat) × Nat) =>
    h.setWarp (32 * bk + x.2) (placeWarp e g t x.2 x.1.1 x.1.2)) h
  let h := if g.kind = .routine ∧ g.exitF ≠ [] then h.clearClean t.core (ctxOf f) else h
  if late then h.jState e f g.seq 2 0 0 true else h

/-- Place a whole block or cluster. -/
def Hw.putCluster (h : Hw) (e : Env) (gid : Nat) (g : Grid) (unit : Option Nat) (l : List Spot) : Hw :=
  let h := l.zipIdx.foldl (fun h (x : Spot × Nat) => (h.putBlock e gid g unit (g.next + x.2) x.1).planReport g.fn x.1.core) h
  (h.onGrid gid fun g => { g with next := g.next + l.length, waitSince := none, limited := false }).moved

/-! ## Units (R108, R109, R113) -/

/-- Tiles of a unit's range, in range order. -/
def Hw.unitTiles (h : Hw) (e : Env) (g : GUnit) : List Nat :=
  (List.range g.nt).filterMap fun k =>
    (h.devAt e g.fn true false (BitVec.ofNat 64 (g.base + 4096 * k)) 4096).map fun p => tileOf p.1

/-- Rings of a partition whose guard store has room for a unit. -/
def Hw.guardRings (h : Hw) (p : Part) (g : GUnit) : List Nat :=
  p.rings.filter fun r => decide ((h.ring r).guard + 4096 * g.nt ≤ 2 ^ 21)

/-- The next unit has no room on any ring: it goes to its exact kernel. -/
def Hw.unitOverflow (h : Hw) (e : Env) (gid : Nat) (grid : Grid) (u : Nat) (g : GUnit) : Hw :=
  let ts := h.unitTiles e g
  let g := { g with outcome := 3, tiles := ts }
  let h := (h.onUnit u fun _ => g).takeTiles ts
  let n := grid.freed + grid.shape.bpc
  let h := h.onGrid gid fun x => { x with next := x.next + grid.shape.bpc, freed := n, waitSince := none, limited := false }
  (if grid.total ≤ n then h.dropGrid gid else h).launchExact u g grid.gridid

/-- Reserve a placed unit's part of the guard store and take its tiles. -/
def Hw.admitUnit (h : Hw) (e : Env) (u ring : Nat) (g : GUnit) : Hw :=
  let ts := h.unitTiles e g
  ((h.onUnit u fun x => { x with ring := some ring, tiles := ts }).onRing ring fun r =>
    { r with guard := r.guard + 4096 * g.nt }).takeTiles ts

/-! ## The distributor (R116, R120) -/

/-- Try to place the next block, cluster or unit of a grid. -/
def Hw.placeOne (h : Hw) (e : Env) (gid : Nat) (g : Grid) : Option Hw :=
  let p := h.part (h.partOf g.fn)
  match g.kind with
  | .units =>
    match List.find? (fun (x : Nat × GUnit) => x.2.fn == g.fn && x.2.grid == gid && x.2.idx == g.next / max 1 g.shape.bpc) h.units with
    | none => none
    | some (u, x) =>
      let rings := h.guardRings p x
      if rings.isEmpty then some (h.unitOverflow e gid g u x)
      else match h.find g.fn rings g.shape g.cons with
        | none => none
        | some (h, l) =>
          some ((h.admitUnit e u (ringOf ((l.map (·.core)).headD 0)) x).putCluster e gid g (some u) l)
  | _ => (h.find g.fn p.rings g.shape g.cons).map fun x => x.1.putCluster e gid g none x.2

/-- Grids of a function that have a block waiting for room, in dispatch order. -/
def Hw.waitingGrids (h : Hw) (f : Nat) : List (Nat × Grid) :=
  h.grids.filter fun x => x.2.fn == f && decide (x.2.next < x.2.total) && x.2.waits.isEmpty

/-- The first grid of a list whose next block fits. -/
def Hw.placeFirst (h : Hw) (e : Env) : List (Nat × Grid) → Option Hw
  | [] => none
  | (gid, g) :: l =>
    match h.placeOne e gid g with
    | some h => some h
    | none => Hw.placeFirst h e l

/-- A function whose blocks the distributor of a partition may place: the one whose slice runs. -/
def Hw.placing (h : Hw) (p : Nat) : Option Nat :=
  let q := h.part p
  if q.live && !q.halting && !h.trip then q.running else none

/-- BLOCK_PLACEMENT: the distributor of partition `unit` places the next block or cluster of the oldest grid that has one
and that fits; once the oldest has waited its limit, nothing is placed for a later one. -/
def blockPlacement (e : Env) (h : Hw) : Hw :=
  match h.placing h.occ.unit with
  | none => h
  | some f =>
    let l := h.waitingGrids f
    let l := match l with
      | g :: _ => if g.2.limited then [g] else l
      | [] => []
    let wait (k : Hw) : Hw := match l with
      | (gid, g) :: _ =>
        if (h.placeOne e gid g).isNone && g.waitSince.isNone then k.onGrid gid fun g => { g with waitSince := some e.clk.tick }
        else k
      | [] => k
    match h.placeFirst e l with
    | some k => let k := wait k; if (k.waitingGrids f).isEmpty then k else k.place k.occ.unit
    | none => wait h

/-- BLOCK_PLACEMENT (R116 to R129). -/
def execBlockPlacement (s : State) : Host.Outcome State Fault Refusal := s.event blockPlacement

/-- PLACEMENT_WAIT_LIMIT: the oldest waiting grid of partition `unit`'s running function has not fitted for 100 us. -/
def placementWaitLimit (e : Env) (h : Hw) : Hw :=
  match h.placing h.occ.unit with
  | none => h
  | some f =>
    match h.waitingGrids f with
    | (gid, g) :: _ =>
      match g.waitSince with
      | some t => if t + 100000 ≤ e.clk.tick then h.onGrid gid fun g => { g with limited := true } else h
      | none => h
    | [] => h

/-- PLACEMENT_WAIT_LIMIT (R120). -/
def execPlacementWaitLimit (s : State) : Host.Outcome State Fault Refusal := s.event placementWaitLimit

/-! ## Reports (R117, R125) -/

/-- Largest order n for which a buddy block of `unit` × 2 ^ n is free; 15 for none. -/
def maxOrder (used : List (Nat × Nat)) (limit unit top : Nat) : Nat :=
  (((List.range (top + 1)).reverse).find? fun o => (buddy used limit (unit * 2 ^ o)).isSome).getD 15

/-- A core's report in the order of Table 5.1. -/
def View.report (v : View) : List Nat :=
  let maskOf (n : Nat) (used : List Nat) : Nat :=
    (List.range n).foldl (fun s i => if used.contains i then s else s + 2 ^ i) 0
  [v.lanes, maskOf 16 v.slots, maskOf 32 v.ctxs, maxOrder v.vr 2048 1 11, 2048 - (v.vr.map (·.2)).sum, v.split,
   maxOrder v.sp v.split 4 7, v.split - (v.sp.map (·.2)).sum, maxOrder v.bars 2048 16 7]

/-- RESOURCE_REPORT: core `id` reports what is free of function `unit`: what freed blocks held appears, and a core that
holds no block of the function returns its scratchpad to 128 KiB. -/
def resourceReport (_e : Env) (h : Hw) : Hw :=
  let f := h.occ.unit
  let c := h.occ.id
  let none_ := !h.blocks.any fun x => bkFn x.1 == f && x.2.core == c
  let h := h.onFCore f c fun x => { x with ghosts := [], split := if none_ then 128 else x.split }
  let h := h.onFCore f c fun x => { x with report := (h.view f c).report }
  if (h.waitingGrids f).isEmpty then h else h.place (h.partOf f)

/-- RESOURCE_REPORT (R117, R125). -/
def execResourceReport (s : State) : Host.Outcome State Fault Refusal := s.event resourceReport

end Sys2Proof.Machine
end

