-- ==== Sys2Proof/Machine/Sched.lean ====
section
/-! DEFINITION. Sys2Proof/Machine/Sched.lean: slices and world switches (R73, R76 to R79), throttling, credits and the clock
lock (R74, R75, R285), timed actions (R30, R135), promotion and the watchdog (R138, R157). -/
namespace Sys2Proof.Machine

/-! ## Clock lock (R285) -/

/-- Emit a record at the I/O die, which no TREN bit names: while TRCTL.EN is 1 (R278). -/
def Hw.emitIo (h : Hw) (e : Env) (f ty : Nat) (pay : BitVec 128) : Hw :=
  if h.trace.ctl.getLsbD 0 then
    let (b, ok) := h.trace.io.add ⟨ty, 0x400, ctxOf f, e.clk.tick, pay⟩
    let h := { h with trace := { h.trace with io := b } }
    if ok then h.planOnce .traceForward { Occasion.none with unit := 172 }
    else { h with trace := { h.trace with drop := (h.trace.drop + 1) % 2 ^ 48 } }
  else h

/-- The operating point a value stands for (Table 11.7). -/
def oppOf (n : Nat) : Nat := if n < 4 then n else 0

/-- Set a ring's operating point for a function; a change of point, or a lock, emits CLKLOCK. -/
def Hw.setPoint (h : Hw) (e : Env) (f r opp : Nat) (lock : Bool) : Hw :=
  let changed := (h.ring r).opp ≠ opp
  let h := h.onRing r fun x => { x with opp := opp }
  if changed ∨ lock = true then h.emitIo e f 0x06 (payAt 16 (if lock then oppOf (h.fn f).dbg.opp else opp) ||| payAt 17 r) else h

/-- The points of a partition's rings while a function's slice runs: its own on the rings it has locked, else 0. -/
def Hw.slicePoints (h : Hw) (e : Env) (p f : Nat) : Hw :=
  let d := (h.fn f).dbg
  (h.part p).rings.foldl (fun h r => h.setPoint e f r (if d.locks.contains r then oppOf d.opp else 0) false) h

/-- CLKCTL.LOCK is written as 1: the partition's rings, but for throttled ones, are locked at OPP, each with its record; the point
is set while the function's slice runs. -/
def Hw.clkLock (h : Hw) (e : Env) (f opp : Nat) : Hw :=
  let p := h.partOf f
  let rs := if (h.fn f).bind.bound then (h.part p).rings.filter fun r => (h.ring r).step == 0 else []
  let h := h.onFn f fun x => { x with dbg := { x.dbg with opp := opp % 8, lock := true, locks := rs } }
  rs.foldl (fun h r => h.setPoint e f r (if (h.part p).running = some f then oppOf (opp % 8) else (h.ring r).opp) true) h

/-- CLKCTL.LOCK is written as 0. -/
def Hw.clkUnlock (h : Hw) (e : Env) (f opp : Nat) : Hw :=
  let h := h.onFn f fun x => { x with dbg := { x.dbg with opp := opp % 8, lock := false, locks := [] } }
  if (h.fn f).bind.bound ∧ (h.part (h.partOf f)).running = some f then h.slicePoints e (h.partOf f) f else h

/-- Break every lock on a ring: the functions that hold one, BROKEN, BCAUSE, a CLKBREAK record, and the return to OPP 0 as a change
of point. -/
def Hw.clkBreak (h : Hw) (e : Env) (r cause : Nat) : Hw :=
  let held := (h.fns.filter fun x => x.2.dbg.locks.contains r).map (·.1)
  let h := held.foldl (fun h f =>
    let d := (h.fn f).dbg
    (h.onFn f fun x => { x with dbg :=
      { x.dbg with locks := x.dbg.locks.filter (· != r), broken := true, bcause := cause } }).emitIo e f 0x07
        (payAt 16 (oppOf d.opp) ||| payAt 17 r ||| payAt 18 cause)) h
  match held with
  | [] => h
  | f :: _ => h.setPoint e f r 0 false

/-! ## Throttling (R32, R74) -/

/-- THROTTLE_STEP_DOWN: ring `unit` descends one step, and any clock lock on it is broken. -/
def execThrottleStepDown (s : State) : Host.Outcome State Fault Refusal := s.event fun e h =>
  (h.onRing h.occ.unit fun r => { r with step := min 6 (r.step + 1) }).clkBreak e h.occ.unit 1

/-- THROTTLE_STEP_UP: ring `unit` climbs one step. -/
def execThrottleStepUp (s : State) : Host.Outcome State Fault Refusal := s.event fun _ h =>
  (h.onRing h.occ.unit fun r => { r with step := r.step - 1 }).moved

/-! ## Work and turns (R73) -/

/-- Does a function have work: a resident block, a grid still to place, a command accepted or dispatched? A pending timed
action is one of these. -/
def Hw.hasWork (h : Hw) (f : Nat) : Bool :=
  (h.blocks.any fun x => bkFn x.1 == f) || (h.grids.any fun x => x.2.fn == f) || !(h.fn f).cmds.isEmpty

/-- The function whose turn is next after `f` among those of a partition that have work, in ascending number. -/
def Hw.nextTurn (h : Hw) (p f : Nat) : Option Nat :=
  let l := (h.fnsOf p).filter h.hasWork
  (l.find? fun g => decide (f < g)).or l.head?

/-- Has another function of the partition work? -/
def Hw.otherWork (h : Hw) (p f : Nat) : Bool := (h.fnsOf p).any fun g => g != f && h.hasWork g

/-- Is a running function's slice over: another has work, and the time has run out, or it has none itself, or a repayment
falls due? -/
def Hw.sliceOver (h : Hw) (e : Env) (p f : Nat) : Bool :=
  let q := h.part p
  h.otherWork p f && (decide (q.sliceAt + 1000 * ((h.fn f).bind.slice + q.bonus) ≤ e.clk.tick) || !h.hasWork f ||
    q.saved.isSome)

/-! ## The world switch (R76 to R79) -/

/-- A flight that has become a replay packet carries the new generation tag of its context (R77). -/
def Hw.retag (h : Hw) (f : Nat) : Hw :=
  { h with flights := Tab.mapVals (fun _ (x : Flight) =>
      if wkFn x.wk = f ∧ x.replay = true then
        { x with tag := h.genTag (((h.block? (wkBlock x.wk)).map (·.core)).getD 0) (ctxOf f) } else x) h.flights }

/-- Halt every warp of a function: the generation tag of its context advances on every core of its partition, so that what
still returns is dropped, outstanding loads and iterative passes become replay packets, packed placements are undone, and what
an array had latched goes (R76, R77, R155). A warp that HALTB or DUMPW has halted stays so. -/
def Hw.haltFn (h : Hw) (f : Nat) : Hw :=
  let cores := (h.part (h.partOf f)).rings.flatMap fun r => (List.range 8).map fun k => 8 * r + k
  let h := cores.foldl (fun h c => h.nextGen (ctxOf f) c) h
  let h := h.warps.foldl (fun h x =>
    if wkFn x.1 ≠ f ∨ x.2.done = true ∨ x.2.stopped = true then h
    else (h.toPackets x.1 fun _ => true).onWarp x.1 fun w => { w.halted with stopped := false }) h
  let h := h.retag f
  { h with fcores := Tab.mapVals (fun k (c : FCore) =>
      if k / 256 = f then { c with latchA := none, latchB := none, latchAB := [], latchBB := [] } else c) h.fcores }

/-- SLICE_END: the slice of the function that partition `unit` runs is over: a halt goes to every core of its rings. -/
def sliceEnd (e : Env) (h : Hw) : Hw :=
  let p := h.occ.unit
  let q := h.part p
  match q.running with
  | none => h
  | some f => if q.halting || !h.sliceOver e p f then h else ((h.onPart p fun q => { q with halting := true }).haltFn f).moved

/-- SLICE_END (R73, R76). -/
def execSliceEnd (s : State) : Host.Outcome State Fault Refusal := s.event sliceEnd

/-- Is a started command a root's RRED that waits for members which have not pushed (R267; log 36)? -/
def Cmd.waitsForPeers (c : Cmd) : Bool := c.kind == .ring && c.opc == 0x22 && c.packets == 0 && !c.moved && c.status == 0

/-- Have a function's stores, atomics, passes under way and started engine commands drained (R76 steps 1, 4 and 6)? -/
def Hw.drained (h : Hw) (f : Nat) : Bool :=
  (h.rings.all fun r => (r.2.retq ++ r.2.pend).all fun x => x.host || x.fn != f) &&
    !(h.flights.any fun x => x.2.kind == .late && wkFn x.2.wk == f) &&
    (h.cmds.all fun c => c.2.fn != f || !c.2.started || c.2.waitsForPeers)

/-! ### Frontier and release records in memory (R217, R219, Table 8.6) -/

/-- The 3-byte entries of a table of intervals. -/
def triples (n : Nat) (t : Tab Nat) : List Byte := (List.range n).flatMap fun s => natLe 3 (Tab.getD t s 0)
/-- SUM of a frontier: one bit for each 40 slots. -/
def frontSum (t : Tab Nat) : Nat :=
  ((List.range 64).map fun g => if t.any fun x => decide (x.1 / 40 = g) && x.2 != 0 then 2 ^ g else 0).sum
/-- The frontier record of a block, then its intra-block table (12 KiB). -/
def Block.area (b : Block) : List Byte :=
  triples 2560 b.front ++ natLe 8 (frontSum b.front) ++ natLe 4 (b.st % 2 ^ 24) ++ natLe 4 (b.c % 2 ^ 24) ++
    List.replicate 496 0#8 ++ ((List.range 32).flatMap fun w => (List.range 32).flatMap fun u => natLe 3 (Tab.getD b.intra (32 * w + u) 0)) ++
    List.replicate 1024 0#8
/-- A release record (8 KiB). -/
def RelRec.image (r : RelRec) : List Byte :=
  triples 2560 r.snap ++ natLe 8 (frontSum r.snap) ++
    natLe 4 (match r.row with | some (s, g) => s % 4096 + g % 8 * 2 ^ 12 + 2 ^ 15 | none => 0) ++
    natLe 4 (r.scope.rank + r.cluster % 2 ^ 28 * 8) ++ triples 32 r.intra ++ List.replicate 400 0#8
/-- At a halt the areas of a function's resident blocks, and its pool of release records (the retired one first, the others in the
order of their attachment), are written to its memory (log 23). -/
def Hw.writeFronts (h : Hw) (f : Nat) : Hw :=
  let r := (h.fn f).race
  let h := if r.frbase = 0#64 then h
    else (h.blocks.filter fun b => bkFn b.1 == f).foldl (fun h b => h.putBytes (r.frbase.toNat + 16384 * bkSlot b.1) b.2.area) h
  if r.rrbase = 0#64 then h
  else
    let l := (match r.retired with | some x => [(0, x)] | none => []) ++
      (r.order.filterMap fun k => h.recAt (recSite f k)).zipIdx.map fun (x : RelRec × Nat) => (x.2 + 1, x.1)
    (l.filter fun x => decide (x.1 < r.rrcnt)).foldl (fun h x => h.putBytes (r.rrbase.toNat + 8192 * x.1) x.2.image) h

/-! ### Overflow entries in memory (R215, Table 8.5) -/

/-- One overflow entry: at most twelve records of a line, and per word the writer's index and the mask of the others. -/
def entryImage (line ctx next : Nat) (rs : List Mark) (ws : Nat → WordMarks) (pcs : Bool) : List Byte :=
  let pad (n : Nat) (l : List Byte) : List Byte := (l ++ List.replicate n 0#8).take n
  let word (k : Nat) : Nat :=
    let m := ws k
    (match m.writer.bind fun r => rs.idxOf? r with | some i => i + 16 | none => 0) +
      ((rs.zipIdx.filter fun (x : Mark × Nat) => m.others.contains x.1).map fun (x : Mark × Nat) => 2 ^ (x.2 + 5)).sum
  natLe 8 line ++ natLe 2 ctx ++ natLe 2 rs.length ++ natLe 4 next ++ pad 72 (rs.flatMap fun r => natLe 6 r.bits.toNat) ++
    ((List.range 32).flatMap fun k => natLe 3 (word k)) ++
    pad 48 (if pcs then rs.flatMap fun r => natLe 4 (match r.pc with | some p => p.toNat | none => 0) else []) ++ List.replicate 24 0#8
/-- The entries `es` of a line, whose words' marks are `ws`: their numbers with their bytes. -/
def entryImages (es : List Nat) (line ctx : Nat) (rs : List Mark) (ws : Nat → WordMarks) (pcs : Bool) : List (Nat × List Byte) :=
  es.zipIdx.map fun (x : Nat × Nat) =>
    (x.1, entryImage line ctx (es.getD (x.2 + 1) 0) ((rs.drop (12 * x.2)).take 12) ws pcs)
/-- At a halt the overflow entries of a partition are written to its area (log 22). -/
def Hw.writeEntries (h : Hw) (p : Nat) : Hw :=
  let q := h.part p
  if q.pmosize < 16 then h
  else
    let glob := h.ovf.flatMap fun (x : Nat × List Nat) =>
      let c := Tab.getD h.mctx x.1 0
      if h.ctxPart c = p then
        entryImages x.2 (128 * x.1) c (lineRecords h.marks x.1) (fun k => Tab.getD h.marks (32 * x.1 + k) WordMarks.none) (h.fn (fnOfCtx c)).race.pcrec
      else []
    let scr := h.fcores.flatMap fun (y : Nat × FCore) =>
      if h.partOf (y.1 / 256) = p then y.2.ovf.flatMap fun (x : Nat × List Nat) =>
        entryImages x.2 (2 ^ 63 + y.1 % 256 * 2 ^ 20 + 128 * x.1) (ctxOf (y.1 / 256)) (lineRecords y.2.marks x.1)
          (fun k => Tab.getD y.2.marks (32 * x.1 + k) WordMarks.none) (h.fn (y.1 / 256)).race.pcrec
      else []
    (glob ++ scr).foldl (fun h x => h.putBytes (q.pmobase.toNat + 256 * x.1) x.2) h

/-- HALT_COMPLETE: every drain of partition `unit` has ended; the outgoing function's state is its image. -/
def haltComplete (_e : Env) (h : Hw) : Hw :=
  let p := h.occ.unit
  let q := h.part p
  match q.running with
  | none => h
  | some f =>
    if !q.halting || !h.drained f then h
    else ((h.writeFronts f).writeEntries p).onPart p fun q => { q with running := none, halting := false }

/-- HALT_COMPLETE (R76, R78). -/
def execHaltComplete (s : State) : Host.Outcome State Fault Refusal := s.event haltComplete

/-- Pay a function's throttle credit with time of the slice that begins or runs, in microseconds (R75). -/
def Hw.payCredit (h : Hw) (p f : Nat) : Hw :=
  let c := (h.fn f).wake.credit
  let h := h.onFn f fun x => { x with wake := { x.wake with credit := 0, earned := [], paid := (x.wake.paid + c) % 2 ^ 48 } }
  h.onPart p fun q => { q with bonus := q.bonus + c / 2500 }

/-- WORLD_SWITCH_RESTORE: the function whose turn it is on partition `unit`, or one whose credit falls due (R75), comes back: each
core takes its split between scratchpad and L1 (R79), its warps that no HALTB or DUMPW holds go on, their replay packets first,
its rings take its operating point, its credit lengthens the slice. -/
def worldSwitchRestore (e : Env) (h : Hw) : Hw :=
  let p := h.occ.unit
  let q := h.part p
  if !q.live || q.running.isSome || h.trip then h
  else
    let due := q.saved.filter h.hasWork
    match due.or (h.nextTurn p q.turn) with
    | none => h.onPart p fun q => { q with saved := none }
    | some f =>
      let cores := q.rings.flatMap fun r => (List.range 8).map fun k => 8 * r + k
      let h := cores.foldl (fun h c => h.shrinkL1 c (h.fcore f c).split) h
      let h := h.onPart p fun q =>
        { q with
          running := some f, saved := none, sliceAt := e.clk.tick, sliceCycle := e.clk.cycle, bonus := 0
          turn := if due.isSome then q.turn else f }
      let h := (h.payCredit p f).slicePoints e p f
      let h := h.warps.foldl (fun h x =>
        if wkFn x.1 ≠ f ∨ x.2.done = true ∨ x.2.stopped = true then h else h.resumeWarp x.1) h
      let h := ((h.fcores.filter fun x => x.1 / 256 == f).map fun x => x.1 % 256).foldl (fun h c => h.kick f c) h
      (if (h.waitingGrids f).isEmpty then h else h.place p).moved

/-- WORLD_SWITCH_RESTORE (R77, R79, R281). -/
def execWorldSwitchRestore (s : State) : Host.Outcome State Fault Refusal := s.event worldSwitchRestore

/-- What a function earned 100 ms ago or more, and has not been paid (R75). -/
def Wake.dueCredit (k : Wake) (now : Nat) : List (Nat × Nat) := k.earned.filter fun x => decide (x.1 + 100000000 ≤ now)
/-- Some of a function's credit lapses. -/
def Wake.lapse (k : Wake) (l : List (Nat × Nat)) : Wake :=
  { k with credit := k.credit - (l.map (·.2)).sum, earned := k.earned.filter fun x => !l.contains x }

/-- CREDIT_LAPSE: 100 ms after the cycles that earned it, a part of the credit of function `unit` lapses where no other function
of its partition has had work in that time, or it has none itself; otherwise its credit is paid now, in the running slice or in
one that the scheduler starts for it. -/
def creditLapse (e : Env) (h : Hw) : Hw :=
  let f := h.occ.unit
  let k := (h.fn f).wake
  let due := k.dueCredit e.clk.tick
  if due.isEmpty then h
  else
    let p := h.partOf f
    let lost := if h.hasWork f then due.filter fun x => decide (k.rivalAt < x.1) else due
    let h := h.onFn f fun x => { x with wake := x.wake.lapse lost }
    if lost.length = due.length then h
    else if (h.part p).running = some f then h.payCredit p f
    else (h.onPart p fun q => { q with saved := some f }).planOnce .sliceEnd { Occasion.none with unit := p }

/-- CREDIT_LAPSE (R75). -/
def execCreditLapse (s : State) : Host.Outcome State Fault Refusal := s.event creditLapse

/-! ## Timed actions (R30, R135) -/

/-- Does a function's slice run? -/
def Hw.runs (h : Hw) (f : Nat) : Bool :=
  let q := h.part (h.partOf f)
  decide (320 ≤ f) || (q.running == some f && !q.halting)

/-- TIMED_ACTION_FIRE: with `aux` 0, the TWAIT of path `flag` of warp `id`; with 1, engine command `id`; with 2, the timed
grid `id`. The local TICK has reached its tick; where its function's slice does not run it starts with the next one and
is late (R73). -/
def timedActionFire (e : Env) (h : Hw) : Hw :=
  let id := h.occ.id
  if h.occ.aux = 0 then
    match h.warp? id, h.block? (wkBlock id) with
    | some w, some b =>
      match (w.path h.occ.flag).wakeAt with
      | some t => if t ≤ localTick e b.core then (h.onPath id h.occ.flag fun p => { p with wakeAt := none }).moved else h
      | none => h
    | _, _ => h
  else if h.occ.aux = 1 then
    match Tab.find? h.cmds id with
    | some c =>
      match c.at_ with
      | some t =>
        if c.fired || decide (localTick e c.core < t) then h
        else (h.onCmd id fun c => { c with fired := true, late := c.late || !h.runs c.fn }).kick c.fn c.core
      | none => h
    | none => h
  else
    match h.grid? id with
    | some g =>
      match g.startAt with
      | some t =>
        let h := { h with blocks := Tab.mapVals (fun _ (b : Block) =>
          if b.grid = id ∧ t ≤ localTick e b.core then { b with startAt := none } else b) h.blocks }
        if t ≤ e.clk.tick ∧ h.runs g.fn = false then
          ((h.onGrid id fun g => { g with startAt := none }).jState e g.fn g.seq 2 0 0 true).moved
        else h.moved
      | none => h
    | none => h

/-- TIMED_ACTION_FIRE (R30, R73, R135). -/
def execTimedActionFire (s : State) : Host.Outcome State Fault Refusal := s.event timedActionFire

/-! ## Promotion and watchdog (R138, R157) -/

/-- PATH_PROMOTION: path `flag` of warp `id` has been ready for 16,384 counted cycles without issue. -/
def execPathPromotion (s : State) : Host.Outcome State Fault Refusal := s.event fun _ h =>
  h.onPath h.occ.id h.occ.flag fun p => if p.live ∧ 16384 ≤ p.ready then { p with promoted := true } else p

/-- Watchdog exponent of a warp: that of its launch record. -/
def Block.watchdog (b : Block) (w : Warp) : Nat :=
  let n := match b.cons with
    | some c => if w.role then b.shape.wdog else c.wdog
    | none => b.shape.wdog
  if n = 0 then 40 else n

/-- Has a warp's watchdog count passed its limit? -/
def Hw.watchdogDue (e : Env) (b : Block) (w : Warp) : Bool :=
  !w.done && w.held.isNone && !w.stopped && decide (w.progressAt + 2 ^ b.watchdog w < e.clk.cycle)

/-- The path that has issued more since the last progress event, path 0 on a tie. -/
def Warp.looping (w : Warp) : Bool := w.p1.live && (!w.p0.live || decide (w.p0.count < w.p1.count))

/-- WATCHDOG_EXPIRY: warp `id` is stopped with WDOG at its looping path. -/
def watchdogExpiry (e : Env) (h : Hw) : Hw :=
  let wk := h.occ.id
  match h.warp? wk, h.block? (wkBlock wk) with
  | some w, some b =>
    if !Hw.watchdogDue e b w || !h.runs (wkFn wk) then h
    else
      let x := w.looping
      let p := w.path x
      let two := w.split.isSome
      let o := (if x then 1 else 0) + (if two then 2 else 0) + 2 ^ 32 * min p.count 0xFFFFFFFF
      h.takeTrap e wk x ⟨BitVec.ofNat 64 cWDOG, p.pc, 0#64, BitVec.ofNat 64 o, 0#64⟩
  | _, _ => h

/-- WATCHDOG_EXPIRY (R157). -/
def execWatchdogExpiry (s : State) : Host.Outcome State Fault Refusal := s.event watchdogExpiry

end Sys2Proof.Machine
end

