-- ==== Sys2Proof/Machine/Tenancy.lean ====
section
/-! DEFINITION. Sys2Proof/Machine/Tenancy.lean: partitions (R65 to R67, R85), bindings (R69, R70), the function-level reset
(R59), quiescence (Table 3.1), translation roots (R172). -/
namespace Sys2Proof.Machine

/-! ## Channels in use (R19) -/

/-- Are all functions of a partition collapsed at W2? -/
def Hw.allDeep (h : Hw) (p : Nat) : Bool :=
  (h.fnsOf p).all fun f => (h.fn f).wake.state == .collapsed && (h.fn f).bind.wclass == 2
/-- Set the state of the channels a partition owns. -/
def Hw.setChans (h : Hw) (p : Nat) (s : ChanState) : Hw :=
  ((List.range 384).filter fun c => (h.part p).owns.chans.getLsbD c && (Tab.getD h.chans c (.active, 0)).1 != s).foldl (fun h c =>
    { h with chans := Tab.put h.chans c (s, (Tab.getD h.chans c (.active, 0)).2) }) h
/-- The channels of a partition are active unless it has functions that are all collapsed at W2 (R19). -/
def Hw.wakeChans (h : Hw) (p : Nat) : Hw :=
  if !(h.fnsOf p).isEmpty && h.allDeep p then h else h.setChans p .active

/-! ## Commit (R66) -/

/-- Do the save images fit: `n` functions on the rings and channels of an ownership (R67, R78), in KiB? -/
def saveFits (o : Owns) (n : Nat) : Bool :=
  let bits (w : Nat) (f : Nat → Bool) : Nat := ((List.range w).filter f).length
  decide (bits 20 o.rings.getLsbD * (8 * 3512) + n * 448 ≤ bits 384 o.chans.getLsbD * 65536)

/-- Does an ownership share a bit with another? -/
def Owns.overlaps (a b : Owns) : Bool :=
  a.rings &&& b.rings != 0#20 || a.eng &&& b.eng != 0#40 || a.slices &&& b.slices != 0#96 || a.chans &&& b.chans != 0#384
/-- Is the ring of an engine group of `a` one of `b`'s? -/
def Owns.engOnRing (a b : Owns) : Bool :=
  (List.range 20).any fun r => (a.eng.getLsbD (2 * r) || a.eng.getLsbD (2 * r + 1)) && b.rings.getLsbD r

/-- Result of a commit, in the order of Table 3.2; 0 where it passes. -/
def Hw.commitCode (h : Hw) (p : Nat) : Nat :=
  let q := h.part p
  let s := q.staged
  let others := (h.parts.filter fun x => x.1 != p && x.2.live).map fun (x : Nat × Part) => x.2.owns
  let busy := q.live && !(h.fnsOf p).isEmpty && !q.quiet
  if q.en then
    if others.any s.overlaps then 1
    else if others.any s.engOnRing then 2
    else if (s.rings != 0#20 || s.chans != 0#384) && s.slices == 0#96 then 3
    else if busy then 4
    else if !saveFits s (h.fnsOf p).length then 5
    else 0
  else if busy then 4 else 0

/-- Shape of a partition's handler warp: one row, 64 registers, every uniform window (log 29). -/
def handlerShape : Shape :=
  { entry := 0#64, params := 0#64, gx := 1, gy := 1, gz := 1, wpb := 1, k := 1, cregs := 64, pregs := 0, pwarps := 0
    uwin := 4, spad := 0, bars := 0, bpc := 1, wdog := 0 }

/-- The handler warp of a partition, on the core at stop 0 of its lowest ring; none without a ring (R414; log 29). -/
def Hw.makeHandler (h : Hw) (e : Env) (p : Nat) : Hw :=
  let bk := bkOf (handlerFn p) handlerSlot
  let h := h.removeBlock bk
  match (h.part p).rings with
  | [] => h
  | r :: _ =>
    let b := newBlock 0 (8 * r) (2 ^ 40 + p) 0 handlerShape none 0 0 0 0 1
    let w := newWarp 1 false 64 4 32 0 8 0#64 e.clk.cycle
    { h with blocks := Tab.put h.blocks bk b }.setWarp (32 * bk) { w with p0 := deadPath, mode := .handler }

/-- Tag every tile of the channels that come to a partition for the first time (R85); the tag table of another partition
that had them is over. -/
def Hw.tagNew (h : Hw) (p : Nat) (chans : BitVec 384) : Hw :=
  let new := chans &&& ~~~(h.part p).tagged
  let h := { h with
    tags := Tab.keep (fun t _ => !new.getLsbD (chanOf (4096 * t))) h.tags
    parts := Tab.mapVals (fun k (x : Part) => if k = p then x else { x with tagged := x.tagged &&& ~~~new }) h.parts }
  h.onPart p fun x => { x with tagged := x.tagged ||| chans }

/-- The counters of a partition's functions, after a change of what it owns (R283). -/
def Hw.recheckPart (h : Hw) (p : Nat) : Hw := (h.fnsOf p).foldl (fun h f => h.recheckCtrs f) h

/-- PCTL.COMMIT is written as 1. -/
def Hw.commit (h : Hw) (e : Env) (p : Nat) : Hw :=
  let code := h.commitCode p
  if code ≠ 0 then h.onPart p fun q => { q with err := code }
  else if (h.part p).en then
    let h := h.onPart p fun q => { q with err := 0, live := true, owns := q.staged, imask := 0#2 }
    ((((h.tagNew p (h.part p).owns.chans).makeHandler e p).wakeChans p).recheckPart p).moved
  else
    let h := h.onPart p fun q => { q with err := 0, live := false, owns := Owns.none, running := none, halting := false }
    ((h.makeHandler e p).recheckPart p).moved

/-- PCTL_COMMIT: the staged fields of partition `unit` are checked and applied (R66, R85, R422). -/
def execPctlCommit (s : State) : Host.Outcome State Fault Refusal := s.event fun e h => h.commit e (h.occ.unit % 64)

/-! ## Quiescence (Table 3.1) -/

def Hw.quiesce (h : Hw) (p : Nat) : Hw := h.onPart p fun q => { q with quiescing := true }
/-- PCTL_QUIESCE: acceptance stops for every function of partition `unit`. -/
def execPctlQuiesce (s : State) : Host.Outcome State Fault Refusal := s.event fun _ h => h.quiesce (h.occ.unit % 64)

/-- Is every function of a partition idle: no work, nothing guarded, converting or in an engine? -/
def Hw.partIdle (h : Hw) (p : Nat) : Bool :=
  (h.fnsOf p).all fun f => !h.hasWork f && !(h.units.any fun u => u.2.fn == f) && !(h.cmds.any fun c => c.2.fn == f)

/-- Write back every L1 and L2 line of some contexts; they stay valid (R81). -/
def Hw.cleanContexts (h : Hw) (ctxs : List Nat) : Hw :=
  let h := (Tab.keys h.cores).foldl (fun h c => ctxs.foldl (fun h x => h.writeBack c x) h) h
  (h.l2.filter fun x => ctxs.contains x.ctx).foldl (fun h x => h.cleanL2 x.line) h

/-- Write back every L1 and L2 line of a partition: its cores and its slices, whatever their contexts (Table 3.1). -/
def Hw.cleanPart (h : Hw) (p : Nat) : Hw :=
  let q := h.part p
  let h := ((Tab.keys h.cores).filter fun c => q.owns.rings.getLsbD (ringOf c)).foldl (fun h c =>
    (Tab.keys (h.core c).l1).foldl (fun h k => h.writeBackLine c (k / 2 ^ 45) (k % 2 ^ 45)) h) h
  (h.l2.filter fun x => q.owns.slices.getLsbD x.slice).foldl (fun h x => h.cleanL2 x.line) h

/-- QUIESCE_COMPLETE: partition `unit`, which quiesces and is idle, has every line written back. -/
def execQuiesceComplete (s : State) : Host.Outcome State Fault Refusal := s.event fun _ h =>
  let p := h.occ.unit
  if (h.part p).quiescing && !(h.part p).quiet && h.partIdle p then
    (h.cleanPart p).onPart p fun q => { q with quiet := true }
  else h

/-- PCTL.RESUME is written as 1. -/
def Hw.resume (h : Hw) (p : Nat) : Hw :=
  let h := h.onPart p fun q => { q with quiescing := false, quiet := false }
  (h.fnsOf p).foldl (fun h f => h.planFetches f) h
/-- PCTL_RESUME: quiescence of partition `unit` ends. -/
def execPctlResume (s : State) : Host.Outcome State Fault Refusal := s.event fun _ h => h.resume (h.occ.unit % 64)

/-- PCLK.BREAK is written as 1 (R285). -/
def Hw.breakAll (h : Hw) (e : Env) (p : Nat) : Hw := (h.part p).rings.foldl (fun h r => h.clkBreak e r 2) h
/-- PCLK_BREAK: the clock locks of partition `unit`'s functions are broken. -/
def execPclkBreak (s : State) : Host.Outcome State Fault Refusal := s.event fun e h => h.breakAll e (h.occ.unit % 64)

/-! ## Function-level reset (R59, R451) -/

/-- Every non-terminal command ends, buffered entries are written, then the FLR entry; the handler's entries for the
function's commands go with them (log 47). -/
def Hw.flr (h : Hw) (e : Env) (f : Nat) : Hw :=
  let p := h.partOf f
  let h := ((h.fn f).cmds.map (·.1)).foldl (fun h seq => h.endCommand e f seq stABORTED 0) h
  let gone := (h.part p).tasks.filter fun x => x.fn == f
  let h := h.onPart p fun q =>
    { q with tasks := q.tasks.filter fun x => x.fn != f, slots := q.slots.filter fun k => !(gone.any fun x => x.slot == k) }
  let h := h.onFn f fun x =>
    { x with wake := { x.wake with count := 0, paid := 0 } }
  (h.onFn f fun x => (Fn.jDrain 17 x).jPut ⟨0, 5, 3, 18, 0, 0, false, 0, 0, e.clk.tick⟩).jPause f

/-- FUNCTION_LEVEL_RESET: function `unit` is reset. -/
def execFunctionLevelReset (s : State) : Host.Outcome State Fault Refusal := s.event fun e h => (h.flr e h.occ.unit).moved

/-! ## Bindings (R69, R70) -/

/-- What an unbound function had on the hardware is gone (log 47). -/
def Hw.clearFn (h : Hw) (f : Nat) : Hw :=
  { h with
    blocks := Tab.keep (fun k _ => bkFn k != f) h.blocks
    warps := Tab.keep (fun k _ => wkFn k != f) h.warps
    grids := h.grids.filter fun x => x.2.fn != f
    flights := Tab.keep (fun _ (x : Flight) => wkFn x.wk != f) h.flights
    owners := Tab.keep (fun _ o => !(match Tab.find? h.cmds o with | some c => c.fn == f | none => false)) h.owners
    packets := Tab.keep (fun _ (x : Packet) => !(match Tab.find? h.cmds x.cmd with | some c => c.fn == f | none => false)) h.packets
    rings := Tab.mapVals (fun r (x : Ring) =>
      { x with guard := x.guard - (h.units.filter fun (u : Nat × GUnit) => u.2.fn == f && u.2.ring == some r).foldl (fun n u => n + 4096 * u.2.nt) 0 }) h.rings
    cmds := Tab.keep (fun _ (c : Cmd) => c.fn != f) h.cmds
    rred := Tab.keep (fun k _ => k / 256 != f) h.rred
    units := Tab.keep (fun _ (u : GUnit) => u.fn != f) h.units
    fcores := Tab.keep (fun k _ => k / 256 != f) h.fcores }

/-- Unbind a function after its reset. -/
def Hw.unbind (h : Hw) (e : Env) (f : Nat) : Hw :=
  let p := h.partOf f
  let h := (h.flr e f).clearFn f
  let h := h.onFn f fun x =>
    { x with bind := { x.bind with en := false, bound := false }, wake := { x.wake with state := .active, since := e.clk.tick } }
  let h := h.onPart p fun q =>
    { q with
      running := if q.running = some f then none else q.running
      halting := if q.running = some f then false else q.halting
      saved := if q.saved = some f then none else q.saved }
  ((h.wakeChans p).recheckCtrs f).moved

/-- The checks of a bind: 0 where it passes, else the code of VB.STAT.ERR. -/
def Hw.bindCode (h : Hw) (f part wclass slice : Nat) : Nat :=
  let q := h.part part
  if !q.live then 1
  else if (f ≠ 0 ∧ wclass = 3) ∨ slice < 100 then 2
  else if !saveFits q.owns ((h.fnsOf part).length + 1) then 3
  else 0

/-- No release record of a function is left (R207). -/
def Hw.dropFnRecs (h : Hw) (f : Nat) : Hw :=
  { h with
    recs := Tab.keep (fun _ (r : RelRec) => r.fn != f) h.recs
    fcores := Tab.mapVals (fun k (c : FCore) => if k / 256 = f then { c with recs := [] } else c) h.fcores }

/-- Bind a function: a VF's slot counters and generations start at 0, and no release record names a block (R207); it is active,
and so are its partition's channels (R19). -/
def Hw.bindTo (h : Hw) (e : Env) (f : Nat) (b : Bind) : Hw :=
  let h := h.onFn f fun x =>
    { x with
      bind := { b with en := true, bound := true, err := 0 }
      race := if f = 0 then x.race else { x.race with ctr := [], gen := [], order := [], retired := none }
      wake := { x.wake with state := .active, since := e.clk.tick, spill := [] } }
  let h := if f = 0 then h else h.dropFnRecs f
  (h.wakeChans b.part).recheckCtrs f

/-- A write of the first word of a VF's binding entry. -/
def Hw.vbWord (h : Hw) (e : Env) (f : Nat) (w : Word) : Hw :=
  let b := (h.fn f).bind
  let en := w.getLsbD 0
  let part := (w.extractLsb' 1 6).toNat
  let wclass := (w.extractLsb' 7 2).toNat
  let slice := (w.extractLsb' 16 16).toNat
  if b.bound then
    let h := if b.part = part ∧ b.wclass = wclass ∧ b.slice = slice then h
      else h.onFn f fun x => { x with bind := { x.bind with err := 4 } }
    if en then h else h.unbind e f
  else
    let b' := { b with en := en, part := part, wclass := wclass, slice := slice }
    if en && !b.en then
      let code := h.bindCode f part wclass slice
      if code = 0 then h.bindTo e f b' else h.onFn f fun x => { x with bind := { b' with err := code } }
    else h.onFn f fun x => { x with bind := b' }

/-- A write to PFBIND: the PF binds when PART is live and SLICE at least 100; a refused bind changes nothing and EN reads back 0
(R69). -/
def Hw.pfBind (h : Hw) (e : Env) (w : Word) : Hw :=
  let b := (h.fn 0).bind
  let en := w.getLsbD 0
  let part := (w.extractLsb' 1 6).toNat
  let slice := (w.extractLsb' 16 16).toNat
  if b.bound then (if en then h else h.unbind e 0)
  else if en then (if (h.part part).live && decide (100 ≤ slice) then h.bindTo e 0 { b with part := part, slice := slice, wclass := 0 } else h)
  else h.onFn 0 fun x => { x with bind := { b with part := part, slice := slice } }

/-- Is a function number a VF's (R33)? -/
def isVf (f : Nat) : Bool := decide (1 ≤ f) && decide (f ≤ 256)

/-- VB_BIND: the first word `val` of VF `unit`'s entry is written with EN going from 0 to 1. -/
def execVbBind (s : State) : Host.Outcome State Fault Refusal := s.event fun e h =>
  if isVf h.occ.unit && !(h.fn h.occ.unit).bind.en && h.occ.val.getLsbD 0 then h.vbWord e h.occ.unit (h.occ.val.setWidth 32) else h

/-- VB_UNBIND: EN of VF `unit`'s entry is cleared. -/
def execVbUnbind (s : State) : Host.Outcome State Fault Refusal := s.event fun e h =>
  let f := h.occ.unit
  let b := (h.fn f).bind
  if isVf f && b.en then (if b.bound then h.unbind e f else h.onFn f fun x => { x with bind := { x.bind with en := false } }) else h

/-- VB_FIELD_WRITE: `val` is written to the first word of bound VF `unit`'s entry, EN staying 1. -/
def execVbFieldWrite (s : State) : Host.Outcome State Fault Refusal := s.event fun e h =>
  if isVf h.occ.unit && (h.fn h.occ.unit).bind.bound && h.occ.val.getLsbD 0 then h.vbWord e h.occ.unit (h.occ.val.setWidth 32) else h

/-- VB.WINLO or, with `high`, VB.WINHI takes a value: bits [11:0] are zero, and the queues are checked (R44, R70). -/
def Hw.vbWindow (h : Hw) (e : Env) (f : Nat) (high : Bool) (v : DWord) : Hw :=
  let v := v &&& 0xFFFFFFFFFFFFF000#64
  let h := h.onFn f fun x =>
    { x with bind := if high then { x.bind with winhi := v } else { x.bind with winlo := v } }
  h.recheckQueues e f

/-- VB_WINDOW_WRITE: `val` is written to VF `unit`'s VB.WINLO, or with `flag` VB.WINHI. -/
def execVbWindowWrite (s : State) : Host.Outcome State Fault Refusal := s.event fun e h =>
  if isVf h.occ.unit then h.vbWindow e h.occ.unit h.occ.flag (h.occ.val.setWidth 64) else h

/-- PFBIND_EN: `val` is written to PFBIND. -/
def execPfbindEn (s : State) : Host.Outcome State Fault Refusal := s.event fun e h => h.pfBind e (h.occ.val.setWidth 32)

/-! ## Translation roots (R172) -/

/-- A write to TR.EN and TR.ROOT of a context: every cached translation of it goes, spilled ones too. -/
def Hw.trRoot (h : Hw) (ctx : Nat) (v : DWord) : Hw :=
  let mig := match Tab.find? h.roots ctx with
    | some x => x.2
    | none => false
  let h := h.dropTlbAll fun t => t.ctx == ctx
  { h with
    roots := Tab.put h.roots ctx (v &&& 0x000FFFFFFFFF0001#64, mig)
    fns := Tab.mapVals (fun _ (f : Fn) => { f with wake := { f.wake with spill := f.wake.spill.filter fun (t : Nat × Tlb) => t.2.ctx != ctx } }) h.fns }

/-- TR_ROOT_WRITE: `val` is written to the first word of context `unit`'s translation root. -/
def execTrRootWrite (s : State) : Host.Outcome State Fault Refusal := s.event fun _ h =>
  if 1 ≤ h.occ.unit ∧ h.occ.unit ≤ 383 then h.trRoot h.occ.unit (h.occ.val.setWidth 64) else h

end Sys2Proof.Machine
end

