-- ==== Sys2Proof/Machine/Collapse.lean ====
section
/-! DEFINITION. Sys2Proof/Machine/Collapse.lean: idle collapse and wake (R80 to R83, R19). -/
namespace Sys2Proof.Machine

/-- Has a function a queue with an entry between SQRD and SQWR while it is active (R80)? -/
def Fn.queued (x : Fn) : Bool := x.queues.any fun (q : Nat × SQ) => q.2.en && !q.2.err && q.2.rd != q.2.wr

/-- Is a function idle (R80, R198)? -/
def Hw.idle (h : Hw) (f : Nat) : Bool :=
  !h.hasWork f && !(h.fn f).queued && (h.fn f).journal.all (fun (j : Nat × JEnt) => j.2.terminal) &&
    !(h.units.any fun u => u.2.fn == f) && !(h.cmds.any fun c => c.2.fn == f) &&
    !(h.migs.any fun m => m.2.ctx == ctxOf f)

/-- Spill the cached translations of a context (R81, Table 3.7). -/
def Hw.spillTlb (h : Hw) (f : Nat) : Hw :=
  let c := ctxOf f
  let l := h.cores.flatMap (fun (x : Nat × Core) => (x.2.tlb.filter fun t => t.ctx == c).map fun t => (x.1, t)) ++
    h.dieTlb.flatMap fun (x : Nat × List Tlb) => (x.2.filter fun t => t.ctx == c).map fun t => (1000 + x.1, t)
  (h.dropTlbAll fun t => t.ctx == c).onFn f fun x => { x with wake := { x.wake with spill := l } }

/-- Give the spilled translations back, under the rules of every fill (R83, R199). -/
def Hw.unspillTlb (h : Hw) (f : Nat) : Hw :=
  let l := (h.fn f).wake.spill
  let h := l.reverse.foldl (fun h (x : Nat × Tlb) =>
    if x.1 < 1000 then h.onCore x.1 fun c => c.cacheTlb x.2 x.2.base else h.dieCache (x.1 - 1000) x.2) h
  h.onFn f fun x => { x with wake := { x.wake with spill := [] } }

/-- Invalidate every line of a context in every L1 and in L2; the marks of an evicted line travel with it. Lines of SHAREDRO pages
are context 0's, and stay (Table 3.4). -/
def Hw.dropLines (h : Hw) (c : Nat) : Hw :=
  let h := (Tab.keys h.cores).foldl (fun h k => h.dropL1 k c) h
  (h.l2.filter fun x => x.ctx == c).foldl (fun h x => h.evicted x) { h with l2 := h.l2.filter fun x => x.ctx != c }

/-- The next step of a collapse is planned, `n` steps being done. -/
def Hw.planCollapse (h : Hw) (f n : Nat) : Hw := h.plan .idleCollapse { Occasion.none with unit := f, aux := n }
/-- A collapse starts: its first step stops the queues (Table 3.7). -/
def Hw.collapse (h : Hw) (f : Nat) : Hw :=
  (h.onFn f fun x => { x with wake := { x.wake with state := .collapsing } }).planCollapse f 1
/-- Step `n` of a collapse, in the order of its wake class (Table 3.7): write back, spill the translations, invalidate, and the end,
with self-refresh where every function of the partition is collapsed at W2. No mark, tag or release record changes (R82). A wake in
between has stopped it (R83). -/
def Hw.collapseStep (h : Hw) (f n : Nat) : Hw :=
  let c := (h.fn f).bind.wclass
  if (h.fn f).wake.state ≠ .collapsing then h
  else if c ≠ 0 ∧ n = 1 then (h.cleanContexts [ctxOf f]).planCollapse f 2
  else if c ≠ 0 ∧ n = 2 then (h.spillTlb f).planCollapse f 3
  else if c ≠ 0 ∧ n = 3 then (h.dropLines (ctxOf f)).planCollapse f 4
  else
    let h := h.onFn f fun x => { x with wake := { x.wake with state := .collapsed, count := (x.wake.count + 1) % 2 ^ 32 } }
    if c = 2 ∧ h.allDeep (h.partOf f) = true then h.setChans (h.partOf f) .selfRefresh else h

/-- May a VF collapse: bound, active and idle? -/
def Hw.collapsible (h : Hw) (f : Nat) : Bool :=
  isVf f && (h.fn f).bind.bound && (h.fn f).wake.state == .active && h.idle f

/-- Has an idle VF been idle for COLIDLE microseconds? -/
def Hw.idleDue (h : Hw) (e : Env) (f : Nat) : Bool :=
  let k := (h.fn f).wake
  k.en && h.collapsible f && decide (k.since + 1000 * max 10 k.idle ≤ e.clk.tick)

/-- IDLE_COLLAPSE: VF `unit` has been idle without a break for COLIDLE; with `aux` n above 0, step n of its collapse. -/
def execIdleCollapse (s : State) : Host.Outcome State Fault Refusal := s.event fun e h =>
  if 0 < h.occ.aux then h.collapseStep h.occ.unit h.occ.aux
  else if h.idleDue e h.occ.unit then h.collapse h.occ.unit else h

/-- COLCTL.NOW is written as 1. -/
def Hw.collapseNow (h : Hw) (f : Nat) : Hw := if h.collapsible f then h.collapse f else h
/-- COLCTL_NOW: COLCTL.NOW of VF `unit` is written as 1. -/
def execColctlNow (s : State) : Host.Outcome State Fault Refusal := s.event fun _ h => h.collapseNow h.occ.unit

/-- A wake begins, from WAKE.GO (cause 1) or a fabric launch (2); on an active or waking function nothing changes. -/
def Hw.wake (h : Hw) (e : Env) (f cause : Nat) : Hw :=
  let k := (h.fn f).wake
  if !isVf f || k.state == .active || k.state == .waking then h
  else (h.onFn f fun x => { x with wake := { x.wake with state := .waking, cause := cause, since := e.clk.tick } }).planOnce
    .wakeComplete { Occasion.none with unit := f }
/-- WAKE_GO: WAKE.GO of VF `unit` is written as 1. -/
def execWakeGo (s : State) : Host.Outcome State Fault Refusal := s.event fun e h => h.wake e h.occ.unit 1

/-- WAKE_COMPLETE: VF `unit` is active again: translations and channels come back, held queues fetch, WOKEN is set. With
`flag`, the spill was found poisoned and is discarded; with `aux` 1, the queue and control state was, and every held queue
errs. -/
def wakeComplete (e : Env) (h : Hw) : Hw :=
  let f := h.occ.unit
  let k := (h.fn f).wake
  if k.state ≠ .waking then h
  else
    let p := h.partOf f
    let h := if h.occ.flag then h.onFn f fun x => { x with wake := { x.wake with spill := [] } } else h.unspillTlb f
    let h := h.setChans p .active
    let held := ((h.fn f).queues.filter fun (q : Nat × SQ) => q.2.held).map (·.1)
    let h := h.onFn f fun x =>
      { x with
        wake := { x.wake with state := .active, ticks := (e.clk.tick - k.since) % 2 ^ 32, since := e.clk.tick }
        queues := Tab.mapVals (fun _ (q : SQ) => { q with held := false }) x.queues }
    let h := if h.occ.aux = 1 then held.foldl (fun h q => h.queueError e f q 6) h else h
    ((h.planFetches f).raiseInt f iWOKEN 0).moved

/-- WAKE_COMPLETE (R83). -/
def execWakeComplete (s : State) : Host.Outcome State Fault Refusal := s.event wakeComplete

end Sys2Proof.Machine
end

