-- ==== Sys2Proof/Machine/HostAccess.lean ====
section
/-! DEFINITION. Sys2Proof/Machine/HostAccess.lean: BAR 2 accesses, host AtomicOps and snoops (R37 to R42, R196), the journal and
carve-out windows (R57, R58, R279), fabric launches and frames (R27, R28, R54 to R56). -/
namespace Sys2Proof.Machine

/-! ## Windows at the end of BAR 2 -/

/-- A journal entry (Table 2.11). -/
def JEnt.bytes (j : JEnt) : List Byte :=
  natLe 8 j.seq ++ natLe 1 j.kind ++ natLe 1 j.state ++ natLe 1 j.src ++ natLe 1 j.status ++ natLe 1 j.cause ++
    natLe 1 (if j.late then 1 else 0) ++ natLe 2 0 ++ natLe 4 j.tag ++ natLe 1 j.opc ++ natLe 3 0 ++ natLe 8 j.tstamp
/-- A trace record (Table 11.4). -/
def TraceRec.bytes (r : TraceRec) : List Byte :=
  natLe 1 r.ty ++ natLe 1 0 ++ natLe 2 r.src ++ natLe 2 r.ctx ++ natLe 2 0 ++ natLe 8 r.tick ++ natLe 16 r.pay.toNat

/-- Byte k of the journal: an index nothing was written to holds an empty entry. -/
def Fn.journalByte (x : Fn) (k : Nat) : Byte :=
  match Tab.find? x.journal (k / 32) with
  | some j => j.bytes.getD (k % 32) 0#8
  | none => 0#8
def Hw.carveByte (h : Hw) (k : Nat) : Byte :=
  match Tab.find? h.trace.carve (k / 32) with
  | some r => r.bytes.getD (k % 32) 0#8
  | none => 0#8

/-- Where a BAR 2 offset lies. -/
inductive Window where | journal (k : Nat) | carve (k : Nat) | memory
  deriving DecidableEq, Repr

/-- The journal takes the last 256 KiB, the carve-out for the PF the 512 MiB before them when B2SZ is at least 30. -/
def Hw.window (h : Hw) (f off : Nat) : Window :=
  let z := (h.fn f).b2sz
  let j := 2 ^ z - 2 ^ 18
  if j ≤ off then .journal (off - j)
  else if f = 0 ∧ 30 ≤ z ∧ j - 2 ^ 29 ≤ off then .carve (off - (j - 2 ^ 29))
  else .memory

/-! ## Refusals (R39, R42) -/

def urUNMAPPED := 1
def urDENIED := 2
def urCOLLAPSED := 3
def urHELD := 4
def urATOMIC := 5

/-- Journal source of an access: BAR 2, or a host AtomicOp. -/
def HeldAccess.src (a : HeldAccess) : Nat := if a.atom.isSome then 17 else 16
/-- An access completes with Unsupported Request, a HOSTUR entry and its interrupt. -/
def Hw.refuse (h : Hw) (e : Env) (a : HeldAccess) (reason : Nat) : Hw :=
  ((h.jNote e a.fn 3 a.src 0 reason).send .unsupported).raiseInt a.fn iHOSTUR 0

/-! ## Accesses to memory -/

/-- Place of an access, or the reason for its refusal (log 35). -/
def Hw.hostPlace (h : Hw) (e : Env) (a : HeldAccess) : Except Nat (Nat × Leaf × DWord) :=
  let va := (h.fn a.fn).b2va + BitVec.ofNat 64 a.off
  if (h.fn a.fn).wake.state ≠ .active then .error urCOLLAPSED
  else if isScr va then .error urUNMAPPED
  else match h.translate e frontEnd (ctxOf a.fn) ⟨a.write, false, false, true⟩ va with
    | .error c => .error (if c = cNOTPRESENT then urUNMAPPED else urDENIED)
    | .ok (l, pa) =>
      if paKind pa = .host ∧ ¬ h.inWindow a.fn (BitVec.ofNat 64 (pa - 0x8000000000000)) a.size then .error urDENIED
      else if a.atom.isSome ∧ (l.sysatom = false ∨ 8 < a.size ∨ (h.partFor a.fn).rings.isEmpty = true) then .error urATOMIC
      else .ok (pa, l, va)

/-- Lines of [pa, pa + n). -/
def linesOf (pa n : Nat) : List Nat := (List.range (lineOf (pa + n - 1) - lineOf pa + 1)).map fun k => lineOf pa + k

/-- Home slices of the lines of [pa, pa + n) for a function's page. -/
def Hw.homesOf (h : Hw) (f : Nat) (l : Leaf) (pa n : Nat) : List Nat :=
  ((linesOf pa n).map fun x => h.sliceOf (ctxOf f) l (128 * x)).eraseDups

/-- The die on which the accesses of the host arrive. -/
def hostDie : Nat := ioDie
/-- Is an access held: an engine owns a line or an earlier access to it is held (R189), it has to reach a channel in self-refresh
(R19), or a link on its way retrains (R15)? -/
def Hw.blocked (h : Hw) (f n : Nat) (l : Leaf) (pa size : Nat) : Bool :=
  (linesOf pa size).any fun x => h.lineHeld n x || h.waitsOnWay (ctxOf f) hostDie l (128 * x)

/-- Does an earlier access of the function to one of its homes wait there: held, or an AtomicOp in a retriever's queue (R38)? -/
def Hw.behindHost (h : Hw) (l : List HeldAccess) (a : HeldAccess) : Bool :=
  (l.any fun b => b.fn == a.fn && b.homes.any a.homes.contains) ||
    (h.rings.any fun r => (r.2.retq ++ r.2.pend).any fun x => x.host && x.fn == a.fn && a.atom.isNone && (match x.loc with
      | .mem pa => a.homes.contains (h.sliceOf x.ctx x.leaf pa)
      | _ => false))

/-- Operation of a host AtomicOp: 0 FetchAdd, 1 Swap, 2 CAS, of 4 or 8 bytes (R42). -/
def hostAtom (op size : Nat) : AtomOp :=
  if size = 8 then (if op = 0 then .addD else if op = 1 then .xchgD else .casD)
  else if op = 0 then .add else if op = 1 then .xchg else .cas
/-- A host AtomicOp as an element of a retriever; `intv` is the tick of its arrival, from which its 40 us count (R39). -/
def Hw.hostElem (h : Hw) (a : HeldAccess) (op pa : Nat) (l : Leaf) (va : DWord) : Elem :=
  { op := hostAtom op a.size, loc := .mem pa, b := BitVec.ofNat 64 (leNat a.bytes), cmp := a.cmp, ret := none, closes := false
    ticket := none, host := true, far := false, wk := 0, path := false, pc := 0#64, declared := [], lane := 0, fn := a.fn
    core := 40 * (h.sliceOf (ctxOf a.fn) l pa / 24), intv := a.since, rmode := 0#32, nbv := 3#32, rel := none, chint := 0#32
    ctx := ctxOf a.fn, va := va, leaf := l }

/-- Perform an access at its home (R38, R40): a host write is no party, and touches only ordinary bytes. An AtomicOp takes its place
in the queue of the home ring's retriever (R42). -/
def Hw.perform (h : Hw) (e : Env) (a : HeldAccess) (pa : Nat) (l : Leaf) (va : DWord) : Hw :=
  match a.atom with
  | some op => h.sendElem (h.elemRing (ctxOf a.fn) l pa 0) (h.hostElem a op pa l va)
  | none =>
    let h := (linesOf pa a.size).foldl (fun h x => h.atHome ⟨ctxOf a.fn, 0, l, false⟩ (128 * x) a.write) h
    if a.write then ((h.deviceWrite pa a.bytes).upkeep [] pa).moved
    else if (linesOf pa a.size).any h.poison.contains then h.send (.poisoned (List.replicate a.size 0xFF#8))
    else h.send (.data (h.bytes e pa a.size))

/-- A BAR 2 access to memory: refused, held, or performed. -/
def Hw.bar2 (h : Hw) (e : Env) (a : HeldAccess) : Hw :=
  match h.hostPlace e a with
  | .error r => h.refuse e a r
  | .ok (pa, l, va) =>
    let a := { a with homes := h.homesOf a.fn l pa a.size, ticket := h.nextId, lines := linesOf pa a.size }
    let h := { h with nextId := h.nextId + 1 }
    if h.blocked a.fn a.ticket l pa a.size || h.behindHost h.heldAcc a then { h with heldAcc := h.heldAcc ++ [a] }
    else h.perform e a pa l va

/-- The first held access that may be performed, with the accesses before and after it. -/
def Hw.readyHeld (h : Hw) (e : Env) : List HeldAccess → List HeldAccess → Option (List HeldAccess × HeldAccess × List HeldAccess)
  | _, [] => none
  | pre, a :: l =>
    let free := !h.behindHost pre a && (match h.hostPlace e a with
      | .ok (pa, lf, _) => !h.blocked a.fn a.ticket lf pa a.size
      | .error _ => true)
    if free then some (pre, a, l) else Hw.readyHeld h e (pre ++ [a]) l

/-- A held access is performed once nothing holds it. -/
def Hw.releaseHeld (h : Hw) (e : Env) : Hw :=
  match h.readyHeld e [] h.heldAcc with
  | none => h
  | some (pre, a, l) =>
    let h := { h with heldAcc := pre ++ l }
    match h.hostPlace e a with
    | .error r => h.refuse e a r
    | .ok (pa, lf, va) => h.perform e a pa lf va

/-- Can a BAR 2 access of a size at an offset be made at all: the function exists and answers, and the access lies in the
BAR and in one 4 KiB block? -/
def Hw.reaches (h : Hw) (f off n : Nat) : Bool :=
  h.exists_ f && h.boot.ready && decide (0 < n) && decide (off / 4096 = (off + n - 1) / 4096) && decide (off + n ≤ 2 ^ (h.fn f).b2sz)

/-- BAR2_READ: function `unit` reads `aux` bytes at BAR 2 offset `id`; with `flag`, a held access goes on. -/
def bar2Read (e : Env) (h : Hw) : Hw :=
  let f := h.occ.unit
  let a : HeldAccess :=
    { fn := f, write := false, off := h.occ.id, bytes := [], size := h.occ.aux, atom := none, cmp := 0#64, since := e.clk.tick
      homes := [], ticket := 0, lines := [] }
  if h.occ.flag then h.releaseHeld e
  else if !h.reaches f a.off a.size then h.send .unsupported
  else if (h.fn f).wake.state ≠ .active then h.refuse e a urCOLLAPSED
  else match h.window f a.off with
    | .journal k => h.send (.data ((List.range a.size).map fun j => (h.fn f).journalByte (k + j)))
    | .carve k => h.send (.data ((List.range a.size).map fun j => h.carveByte (k + j)))
    | .memory => h.bar2 e a
/-- BAR2_READ (R37 to R39, R58). -/
def execBar2Read (s : State) : Host.Outcome State Fault Refusal := s.event bar2Read

/-- BAR2_WRITE: function `unit` writes `bytes` at BAR 2 offset `id`; with `flag`, a held access goes on. A write to a
read-only window is dropped. -/
def bar2Write (e : Env) (h : Hw) : Hw :=
  let f := h.occ.unit
  let a : HeldAccess :=
    { fn := f, write := true, off := h.occ.id, bytes := h.occ.bytes, size := h.occ.bytes.length, atom := none, cmp := 0#64
      since := e.clk.tick, homes := [], ticket := 0, lines := [] }
  if h.occ.flag then h.releaseHeld e
  else if !h.reaches f a.off a.size then h.send .unsupported
  else if (h.fn f).wake.state ≠ .active then h.refuse e a urCOLLAPSED
  else if h.window f a.off = .memory then h.bar2 e a
  else (h.send .unsupported).raiseInt f iHOSTUR 0
/-- BAR2_WRITE (R37 to R40, R57). -/
def execBar2Write (s : State) : Host.Outcome State Fault Refusal := s.event bar2Write

/-- HOST_ATOMICOP: operation `aux` (0 FetchAdd, 1 Swap, 2 CAS) of function `unit` at BAR 2 offset `id`, its operand `bytes`, 4 or
8 of them, 16 for the CAS that is refused, compared with `cmp`. -/
def hostAtomicop (e : Env) (h : Hw) : Hw :=
  let f := h.occ.unit
  let a : HeldAccess :=
    { fn := f, write := true, off := h.occ.id, bytes := h.occ.bytes, size := h.occ.bytes.length, atom := some h.occ.aux
      cmp := h.occ.cmp, since := e.clk.tick, homes := [], ticket := 0, lines := [] }
  if h.occ.flag then h.releaseHeld e
  else if !h.reaches f a.off a.size || !([4, 8, 16].contains a.size) || a.off % a.size != 0 then h.send .unsupported
  else if (h.fn f).wake.state ≠ .active then h.refuse e a urCOLLAPSED
  else if h.window f a.off = .memory then h.bar2 e a
  else (h.send .unsupported).raiseInt f iHOSTUR 0
/-- HOST_ATOMICOP (R42). -/
def execHostAtomicop (s : State) : Host.Outcome State Fault Refusal := s.event hostAtomicop

/-- A held access gives up: a read returns all ones, a write is dropped (R39). -/
def Hw.giveUp (h : Hw) (e : Env) (a : HeldAccess) : Hw :=
  let h := h.jNote e a.fn 3 a.src 0 urHELD
  (h.send (if a.write && a.atom.isNone then .unsupported else .unsupportedOnes (List.replicate a.size 0xFF#8))).raiseInt a.fn iHOSTUR 0
/-- The access that an element of the host stands for. -/
def Elem.access (x : Elem) : HeldAccess :=
  { fn := x.fn, write := true, off := 0, bytes := [], size := x.op.size, atom := some 0, cmp := 0#64, since := x.intv, homes := []
    ticket := 0, lines := [] }
/-- A host AtomicOp that has waited 40 us in the queue of a retriever whose oldest element is held: its ring and itself. -/
def Hw.staleAtom (h : Hw) (e : Env) : Option (Nat × Elem) :=
  h.rings.findSome? fun r => match r.2.retq with
    | y :: _ =>
      let held := y.ticket.isSome || match y.loc with
        | .mem pa => h.waitsOnWay y.ctx (r.1 / 5) y.leaf pa
        | _ => false
      if held then ((r.2.retq ++ r.2.pend).find? fun x => x.host && decide (x.intv + 40000 ≤ e.clk.tick)).map fun x => (r.1, x) else none
    | [] => none
/-- HELD_ACCESS_TIMEOUT: the oldest held access that has waited 40 us completes with Unsupported Request. -/
def execHeldAccessTimeout (s : State) : Host.Outcome State Fault Refusal := s.event fun e h =>
  match h.heldAcc.find? fun a => decide (a.since + 40000 ≤ e.clk.tick) with
  | some a => ({ h with heldAcc := h.heldAcc.erase a }).giveUp e a
  | none => match h.staleAtom e with
    | some (r, x) => (h.onRing r fun g => { g with retq := g.retq.erase x, pend := g.pend.erase x }).giveUp e x.access
    | none => h

/-- HOST_SNOOP: the host takes ownership of the line at virtual address `val` of context `unit`, a line of a host page that the
device holds: L2 gives it up, and the access counts for the host (R196). -/
def hostSnoop (e : Env) (h : Hw) : Hw :=
  let c := h.occ.unit
  let va := h.occ.val.setWidth 64
  match h.leafFor e frontEnd c (va.toNat % 2 ^ 57) with
  | .error _ => h
  | .ok l =>
    let pa := l.frame + va.toNat % 2 ^ 57 % 2 ^ l.lg
    if paKind pa = .host ∧ (h.l2.any fun x => x.line == lineOf pa) = true then
      (h.takenOut (lineOf pa)).heat c va l pa 4
    else h
/-- HOST_SNOOP (R26, R196). -/
def execHostSnoop (s : State) : Host.Outcome State Fault Refusal := s.event hostSnoop

/-! ## The fabric (R27, R28, R54 to R56) -/

/-- A port receives a frame: stamped and counted (R28, Table 11.7). -/
def Hw.frameIn (h : Hw) (e : Env) (p : Nat) : Hw :=
  (h.onPort p fun x => { x with recv := x.recv + 1, stamps := localTick e (160 + p) :: x.stamps }).count 0 3 p 0x31 0 1
/-- A port drops a frame. -/
def Hw.frameDrop (h : Hw) (p : Nat) : Hw :=
  ((h.onPort p fun x => { x with drop := x.drop + 1 }).count 0 3 p 0x32 0 1).send (.fabricDrop p)

/-- A fabric datagram for a VF is dropped: counted, INTSTAT.FABDROP, and at most one entry per reason per millisecond. The entry's SRC is
18, function (DESIGN CHOICE: Table 2.11 gives FABDROP no source of its own; log 66). -/
def Hw.fabDrop (h : Hw) (e : Env) (f reason : Nat) : Hw :=
  let v := (h.fn f).fab
  let h := h.onFn f fun x => { x with fab := { x.fab with drops := (x.fab.drops + 1) % 2 ^ 32 } }
  let quiet := match Tab.find? v.logged reason with
    | some t => decide (e.clk.tick < t + 1000000)
    | none => false
  let h := if quiet then h else (h.onFn f fun x => { x with fab := { x.fab with logged := Tab.put x.fab.logged reason e.clk.tick } }).jNote e f 4 18 0 reason
  h.raiseInt f iFABDROP 0

/-- Bytes of a number, the most significant first. -/
def natBe (n v : Nat) : List Byte := (natLe n v).reverse

/-- Does a source address match an entry's address and length? -/
def FabEntry.admits (v : FabEntry) (src : BitVec 128) : Bool :=
  let n := 128 - min 128 v.plen
  src >>> n == v.src >>> n

/-- The check a datagram fails, numbered LEN 1 to SEQ 7; 0 where it passes (R56). A nonzero rsv byte of Table 2.9 rejects it (R6) as
VER, the check of the fields around it (DESIGN CHOICE; log 66). The MAC covers the source address and
port, in network order, and bytes 0 to 79 (log 16). -/
def Hw.fabCode (h : Hw) (src : BitVec 128) (sport : Nat) (bs : List Byte) : Nat :=
  let f := bytesNat bs 2 2
  let v := (h.fn f).fab
  let opc := bytesNat bs 16 1
  if bs.length ≠ 96 then 1
  else if bytesNat bs 0 1 ≠ 1 ∨ isVf f = false ∨ bytesNat bs 1 1 ≠ 0 ∨ bytesNat bs 4 4 ≠ 0 then 2
  else if !v.en || !(h.fn f).bind.bound then 3
  else if !v.admits src then 4
  else if 5 < opc ∨ v.ops.getLsbD opc = false then 5
  else if Config.kmac256 v.key ("YUTAL-FL".toUTF8.toList.map fun c => BitVec.ofNat 8 c.toNat)
      (natBe 16 src.toNat ++ natBe 2 sport ++ bs.take 80) ≠ BitVec.ofNat 128 (leNat (bs.drop 80)) then 6
  else if bytesNat bs 8 8 ≤ v.last then 7
  else 0

/-- FABRIC_LAUNCH: a datagram to port 50161 arrives at fabric port `unit` from address `val`, port `aux`, with payload `bytes`. It
waits while acceptance of its function is paused (R59, Table 3.1). A datagram of wrong length is charged to the VF that bytes 2 and 3
name, where it has four bytes (DESIGN CHOICE: R54 and R56 do not say whose it is; log 66). -/
def fabricLaunch (e : Env) (h : Hw) : Hw :=
  let bs := h.occ.bytes
  let code := h.fabCode (h.occ.val.setWidth 128) h.occ.aux bs
  let f := bytesNat bs 2 2
  let q := h.part (h.partOf f)
  let paused := code = 0 ∧ (q.quiescing || q.quiet || !(h.fn f).jFree || !(h.fn f).jbuf.isEmpty) = true
  if !h.boot.ready then h
  else if paused then
    let h := h.jPause f
    h.plan .fabricLaunch { h.occ with flag := true }
  else
    let h := if h.occ.flag then h else h.frameIn e h.occ.unit
    if code ≠ 0 then
      let h := h.frameDrop h.occ.unit
      if 4 ≤ bs.length ∧ isVf f = true then h.fabDrop e f code else h
    else
      let h := h.onFn f fun x => { x with fab := { x.fab with last := bytesNat bs 8 8 } }
      ((h.accept e f (h.fn f).fab.queue ((bs.drop 16).take 64)).wake e f 2).moved
/-- FABRIC_LAUNCH (R28, R54 to R56, R83). -/
def execFabricLaunch (s : State) : Host.Outcome State Fault Refusal := s.event fabricLaunch

/-- FABRIC_FRAME_RECEIVE: a frame that is no launch datagram arrives at port `unit`: with `aux` 0 it fails the transfer protocol's
checks and is dropped, otherwise it is of another protocol and passes to the management controller. -/
def execFabricFrameReceive (s : State) : Host.Outcome State Fault Refusal := s.event fun e h =>
  let p := h.occ.unit
  let h := h.frameIn e p
  if h.occ.aux = 0 then h.frameDrop p else h.send (.toManager p)

/-- FABRIC_LINK_UP: port `unit` comes up, with `flag` in 1.6 Tb/s mode (R27). -/
def execFabricLinkUp (s : State) : Host.Outcome State Fault Refusal := s.event fun _ h =>
  h.onPort h.occ.unit fun x => { x with up := true, fast := h.occ.flag }

end Sys2Proof.Machine
end

