-- ==== Sys2Proof/Machine/Migration.lean ====
section
/-! DEFINITION. Sys2Proof/Machine/Migration.lean: page-home migration and the access counters' decay (R196 to R198). -/
namespace Sys2Proof.Machine

/-- A leaf entry with MIG, NDIE and NHOST set. -/
def leafOpen (l : Leaf) (ndie : Nat) (nhost : Bool) : Leaf :=
  (l &&& ~~~(0xF#64 <<< 55)) ||| (1#64 <<< 55) ||| (BitVec.ofNat 64 (ndie % 4) <<< 56) ||| (if nhost then 1#64 <<< 58 else 0#64)
/-- A leaf entry with HDIE and HHOST taken from NDIE and NHOST, and MIG cleared. -/
def leafClose (l : Leaf) (ndie : Nat) (nhost : Bool) : Leaf :=
  (l &&& ~~~(0xF#64 <<< 52)) ||| (BitVec.ofNat 64 (ndie % 4) <<< 52) ||| (if nhost then 1#64 <<< 54 else 0#64)

/-- Leaf entries of a page: one for each 64 KiB of it. -/
def leafEntries (entry lg : Nat) : List Nat := (List.range (2 ^ (lg - 16))).map fun k => entry + 8 * k

/-- Write every leaf entry of a page, if each still holds `was`. -/
def Hw.swapLeaves (h : Hw) (e : Env) (entry lg : Nat) (was new : Leaf) : Option Hw :=
  let l := leafEntries entry lg
  if l.all fun a => h.read e a 8 == was.toNat then some (l.foldl (fun h a => h.deviceWrite a (natLe 8 new.toNat)) h) else none

/-- The home an agent stands for: a die without slices of the partition gives way to the nearest that has some. -/
def Part.legalHome (p : Part) (agent : Nat) : Nat :=
  if agent = 4 then 4 else (nearestDie (fun d => !(p.slicesOn d).isEmpty) agent).getD agent

/-- What a migration of a counted page towards an agent takes, where all that R196 asks holds: the leaf, the address of its first
entry, the new home. -/
def Hw.migTo (h : Hw) (e : Env) (slice : Nat) (a : AccEntry) (agent : Nat) : Option (Leaf × Nat × Nat) :=
  let p := h.part (h.ctxPart a.ctx)
  let on := match Tab.find? h.roots a.ctx with
    | some x => x.2
    | none => false
  let n := a.cnt.getD agent 0
  if n < 128 ∨ on = false ∨ Tab.has h.migs slice = true then none
  else match walk (fun x => h.read e x 8) p (h.root a.ctx).1 a.page with
    | .error _ => none
    | .ok (l, entry) =>
      let home := p.legalHome agent
      if l.mig || a.page % 2 ^ l.lg != 0 || home == l.homeAgent || (home == 4 && paKind l.frame != .host) ||
          decide (n < a.cnt.getD l.homeAgent 0 + 64) then none
      else some (l, entry, home)

/-- The first page among a slice's counts, with its agent, whose migration may begin. -/
def Hw.migFrom (h : Hw) (e : Env) (slice : Nat) (l : List AccEntry) : Option (AccEntry × Nat) :=
  l.findSome? fun a => ((List.range 5).find? fun g => (h.migTo e slice a g).isSome).map fun g => (a, g)

/-- MIGRATION_START: slice `unit` finds that agent `aux` (a die, or 4 for the host) has come to need the page at `val` of context
`id` more than its home: MIG, NDIE and NHOST are set in its leaf entries and a SHOOT goes out. -/
def migrationStart (e : Env) (h : Hw) : Hw :=
  let slice := h.occ.unit
  match (Tab.getD h.access slice []).find? fun x => x.ctx == h.occ.id && x.page == h.occ.val.toNat with
  | none => h
  | some a => match h.migTo e slice a h.occ.aux with
    | none => h
    | some (l, entry, home) =>
      let die := if home = 4 then l.hdie else home
      match h.swapLeaves e entry l.lg l (leafOpen l die (home == 4)) with
      | none => h
      | some h =>
        let m : Migration :=
          { ctx := a.ctx, base := a.page, lg := l.lg, entry := entry, old := l, ndie := die, nhost := home == 4, shootDone := false
            switched := false, since := e.clk.tick }
        { h with migs := Tab.put h.migs slice m }.plan .shootComplete
          { Occasion.none with unit := h.ctxPart a.ctx, flag := true, aux := slice }

/-- MIGRATION_START (R196, R197 step 1). -/
def execMigrationStart (s : State) : Host.Outcome State Fault Refusal := s.event migrationStart

/-- Does an engine own a line of a frame? -/
def Hw.frameOwned (h : Hw) (frame lg : Nat) : Bool :=
  h.owners.any fun o => decide (frame ≤ 128 * o.1) && decide (128 * o.1 < frame + 2 ^ lg)

/-- May the migration of a slice switch? -/
def Hw.mayMove (h : Hw) (m : Migration) : Bool := m.shootDone && !m.switched && !h.frameOwned (Leaf.frame m.old) m.lg

/-- MIGRATION_SWITCH: the old home of the page that slice `unit` migrates sends its switch message: the new home performs every
access, and monitors on the page's words are triggered (R371). -/
def migrationSwitch (_e : Env) (h : Hw) : Hw :=
  match Tab.find? h.migs h.occ.unit with
  | none => h
  | some m =>
    if !h.mayMove m then h
    else
      let f := Leaf.frame m.old
      let inn (pa : Nat) : Bool := decide (f ≤ pa) && decide (pa < f + 2 ^ m.lg)
      let h := { h with
        migs := Tab.put h.migs h.occ.unit { m with switched := true }
        l2 := if m.nhost then h.l2.filter fun x => !inn (128 * x.line) else h.l2 }
      (h.trigger fun x => match x.loc with
        | .mem pa => inn pa
        | _ => false).planOnce .migrationEnd { Occasion.none with unit := h.occ.unit }
/-- MIGRATION_SWITCH (R197 step 3). -/
def execMigrationSwitch (s : State) : Host.Outcome State Fault Refusal := s.event migrationSwitch

/-- The dirty lines of L1 in a page that has migrated have the new home. -/
def Hw.rehome (h : Hw) (m : Migration) : Hw :=
  let f := Leaf.frame m.old
  { h with cores := Tab.mapVals (fun _ (c : Core) => { c with l1 := Tab.mapVals (fun k (l : L1Line) =>
      let pa := 128 * (k % 2 ^ 45)
      if f ≤ pa ∧ pa < f + 2 ^ m.lg then { l with leaf := leafClose l.leaf m.ndie m.nhost } else l) c.l1 }) h.cores }

/-- MIGRATION_END: the leaf entries of the page that slice `unit` migrates name the new home, and the second SHOOT ends
forwarding; entries that software has written end the migration without effect. -/
def migrationEnd (e : Env) (h : Hw) : Hw :=
  match Tab.find? h.migs h.occ.unit with
  | none => h
  | some m =>
    if !m.switched then h
    else if h.undrained m.ctx m.base (2 ^ m.lg) then h.plan .migrationEnd h.occ
    else
      let was := leafOpen m.old m.ndie m.nhost
      let h' := { h with migs := Tab.del h.migs h.occ.unit }
      match h'.swapLeaves e m.entry m.lg was (leafClose was m.ndie m.nhost) with
      | none => h'
      | some h => ((h.rehome m).shootDown m.ctx m.base (2 ^ m.lg)).moved
/-- MIGRATION_END (R197 step 4). -/
def execMigrationEnd (s : State) : Host.Outcome State Fault Refusal := s.event migrationEnd

/-- ACCESS_COUNT_HALVING: `aux` periods of 1,000,000 ticks have ended, and every count is halved for each (R196). -/
def execAccessCountHalving (s : State) : Host.Outcome State Fault Refusal := s.event fun _ h =>
  { h with access := Tab.mapVals (fun _ (l : List AccEntry) => l.map fun x => { x with cnt := x.cnt.map (· / 2 ^ h.occ.aux) }) h.access }

end Sys2Proof.Machine
end

