-- ==== Sys2Proof/Machine/Boot.lean ====
section
/-! DEFINITION. Sys2Proof/Machine/Boot.lean: leaving reset and the boot chain (R29, R60 to R63), attestation (R64), links, memory
errors, heat and the host link (R15, R18, R25, R32). -/
namespace Sys2Proof.Machine

/-! ## Boot (R60 to R63) -/

def strBytes (s : String) : List Byte := s.toUTF8.toList.map fun c => BitVec.ofNat 8 c.toNat
/-- A list cut or padded with zeros to `n` bytes. -/
def fixLen (n : Nat) (l : List Byte) : List Byte := (l ++ List.replicate (n - l.length) 0#8).take n

/-- The device-unique secret as bytes (R60). -/
def secretBytes : List Byte := natLe 32 Config.fuseSecret.toNat
/-- The 96-byte seeds of the device key and of the identity key (R63). -/
def deviceSeed : List Byte := Config.shake256 (secretBytes ++ strBytes "YUTAL-DEV") 96
def identitySeed : List Byte :=
  Config.shake256 (secretBytes ++ strBytes "YUTAL-ID" ++ [BitVec.ofNat 8 Config.fuseVersion.val]) 96

/-- A SHAKE256 digest of 64 bytes, as a number (R3). -/
def digest64 (bs : List Byte) : BitVec 512 := BitVec.ofNat 512 (leNat (Config.shake256 bs 64))

/-- The ROM runs on: its digest is the fused one, and the fuses read without a parity error. -/
def romOk : Bool := digest64 Config.romImage == Config.fuseRomDigest && Config.fuseParityOk
/-- Stage i of 1 to 3 may run (R61): its key's digest is the fused one, its signature, of 29,792 bytes, verifies over the header
fields before it, its body, of the header's length, has the header's digest, and its version is not below the fused one. -/
def stageOk (i : Nat) : Bool :=
  let s := Config.stage i
  digest64 s.key == Config.fuseRootDigest && s.sig.length == 29792 &&
    Config.slhVerify s.key (Config.headerBytes s.version s.length s.digest s.key) s.sig && decide (s.length ≤ s.image.length) &&
    digest64 (s.image.take s.length) == s.digest && decide (Config.fuseVersion.val ≤ s.version)

/-- MEASi := SHAKE256(MEASi, digest) (R62). -/
def measured (m digest : BitVec 512) : BitVec 512 := digest64 (natLe 64 m.toNat ++ natLe 64 digest.toNat)

/-- Run stages from `i`, each measured before it runs; the first that fails ends the chain. -/
def bootFrom : Nat → Nat → Boot → Boot
  | 0, _, b => { b with ready := true, idcert := some 0 }
  | n + 1, i, b =>
    if (if i = 0 then romOk else stageOk i) then
      let d := if i = 0 then Config.fuseRomDigest else (Config.stage i).digest
      bootFrom n (i + 1) { b with meas := b.meas.modify i fun m => measured m d }
    else { b with failed := some i }

/-- PACKAGE_RESET: the package leaves reset and boots; TICK starts at 0, and memory keeps what it holds (log 9). -/
def execPackageReset (s : State) : Host.Outcome State Fault Refusal :=
  .next { s with
    clk := ⟨0, 0, s.clk.step⟩
    hw := { Hw.reset with agenda := [], boot := bootFrom 4 0 Boot.reset } }

/-! ## Attestation (R64) -/

/-- ATCTL.GO is written as 1; nothing is signed after a boot failure. -/
def Hw.attestRequest (h : Hw) (f : Nat) : Hw :=
  if !h.boot.ready then h
  else (h.onFn f fun x =>
    { x with attest := if x.attest.go then { x.attest with stat := 3 } else { x.attest with go := true, stat := 1 } }).planOnce .attestDone
      { Occasion.none with unit := f }
/-- ATTEST_REQUEST: ATCTL.GO of function `unit` is written as 1. -/
def execAttestRequest (s : State) : Host.Outcome State Fault Refusal := s.event fun _ h => h.attestRequest h.occ.unit

/-- MAC address of a fabric port (R27). -/
def macOf (p : Nat) : BitVec 48 := Config.portMac Config.fuseSerial p

/-- The digest of a partition's applied ownership (Table 2.14). -/
def Owns.digest (o : Owns) : List Byte :=
  Config.shake256 (natLe 3 o.rings.toNat ++ natLe 5 o.eng.toNat ++ natLe 12 o.slices.toNat ++ natLe 48 o.chans.toNat) 64

/-- Bytes 0 to 511 of a report. -/
def reportBody (h : Hw) (e : Env) (f : Nat) : List Byte :=
  natLe 4 0x52415459 ++ natLe 2 1 ++ natLe 2 f ++ natLe 8 e.clk.tick ++ natLe 32 (h.fn f).attest.nonce.toNat ++
    ((List.range 4).flatMap fun i => natLe 64 (h.boot.meas.getD i 0#512).toNat) ++ fixLen 64 (h.partFor f).owns.digest ++
    natLe 1 Config.fuseVersion.val ++ natLe 15 0 ++ fixLen 64 (Config.slhPublic identitySeed) ++ natLe 4 29792 ++ natLe 60 0

/-- Bytes 0 to 255 of a certificate (Table 2.15). -/
def certBody (kind secver : Nat) (subject issuer : List Byte) (issued : Nat) : List Byte :=
  natLe 4 0x54435459 ++ natLe 1 kind ++ natLe 1 secver ++ natLe 2 0 ++ natLe 8 Config.fuseSerial.toNat ++ fixLen 64 subject ++
    fixLen 64 issuer ++ natLe 8 issued ++ natLe 104 0

/-- The device certificate, signed at manufacture, and the identity certificate, signed with the device key. -/
def deviceCert : List Byte :=
  certBody 1 0 (Config.slhPublic deviceSeed) Config.rootKey Config.madeAt.toNat ++ fixLen 29792 Config.deviceCertSig
def identityCert (issued : Nat) : List Byte :=
  let b := certBody 2 Config.fuseVersion.val (Config.slhPublic identitySeed) (Config.slhPublic deviceSeed) issued
  b ++ fixLen 29792 (Config.slhSign deviceSeed b)

/-- ATTEST_DONE: the report of function `unit` is signed and written, with the certificates where ATCERT asks for them. ATADDR, ATCERT and
ATNONCE are read now, as the report is done, and its status replaces that of a request refused meanwhile (DESIGN CHOICE: R64 does not
say when they are sampled nor which status stands; log 58). -/
def attestDone (e : Env) (h : Hw) : Hw :=
  let f := h.occ.unit
  let a := (h.fn f).attest
  if !a.go then h
  else
    let ok := h.inWindow f a.addr 32768 && (a.cert == 0#64 || h.inWindow f a.cert 65536)
    let h := if !ok then h
      else
        let b := reportBody h e f
        let h := h.deviceWrite (hostPa a.addr) (b ++ fixLen 29792 (Config.slhSign identitySeed b))
        if a.cert = 0#64 then h
        else (h.deviceWrite (hostPa a.cert) deviceCert).deviceWrite (hostPa a.cert + 0x8000) (identityCert (h.boot.idcert.getD 0))
    (h.onFn f fun x => { x with attest := { x.attest with go := false, stat := if ok then 2 else 4 } }).raiseInt f iATTEST 0
/-- ATTEST_DONE (R63, R64). -/
def execAttestDone (s : State) : Host.Outcome State Fault Refusal := s.event attestDone

/-! ## Links, memory, heat -/

/-- UCIE_RETRAIN: link `unit` of the eight begins to retrain, or with `flag` ends; requests that need it wait, none is lost (R14,
R15). -/
def execUcieRetrain (s : State) : Host.Outcome State Fault Refusal := s.event fun e h =>
  if 8 ≤ h.occ.unit ∨ Tab.getD h.links h.occ.unit .up = .failed then h
  else ({ h with links := if h.occ.flag then Tab.del h.links h.occ.unit else Tab.put h.links h.occ.unit (.retraining e.clk.tick) }).moved

/-- PACKAGE_FATAL_EVENT: link `unit` has failed, by an uncorrectable error or by 1 ms of retraining: recorded, and FSTAT.FATAL reads 1 on
every function (R15). -/
def execPackageFatalEvent (s : State) : Host.Outcome State Fault Refusal := s.event fun _ h =>
  if 8 ≤ h.occ.unit then h else { h with links := Tab.put h.links h.occ.unit .failed, fatal := true }

/-- PATROL_SCRUB: line `unit` is visited. `aux` 0: clean; 1: a corrected error, counted on its channel and, where the request of
context `id` met it, in that function's counters; 2: an uncorrectable one poisons the line, with `flag` the guarded copy of
unit `id`; 3: an uncorrectable error in line `unit` of the scratchpad that function `val` has on core `id`; 4: one in
the tag-table entry of tile `unit`, which then reads as poisoned (R18, R85, R115). -/
def execPatrolScrub (s : State) : Host.Outcome State Fault Refusal := s.event fun _ h =>
  let o := h.occ
  if o.aux = 1 then
    let c := chanOf (128 * o.unit)
    let x := Tab.getD h.chans c (.active, 0)
    let h := { h with chans := Tab.put h.chans c (x.1, x.2 + 1) }
    if o.id = 0 then h else h.count (fnOfCtx o.id) 2 c 0x22 0 1
  else if o.aux = 2 then
    if o.flag then h.onUnit o.id fun u => { u with poisoned := true }
    else if h.poison.contains o.unit then h else { h with poison := o.unit :: h.poison }
  else if o.aux = 3 then h.onFCore o.val.toNat o.id fun c => { c with poison := o.unit :: c.poison }
  else if o.aux = 4 then h.setTag (4096 * o.unit) (withSt (h.tag (4096 * o.unit)) 3)
  else h

/-- THERMAL_TRIP: the package is halted, the trip recorded, every clock lock broken (R32, R285). -/
def execThermalTrip (s : State) : Host.Outcome State Fault Refusal := s.event fun e h =>
  (List.range 20).foldl (fun h r => h.clkBreak e r 3) { h with trip := true }

/-- HBM_HOT_REFRESH: stack `unit` reaches 95 degrees and doubles its refresh rate, or with `flag` has cooled (R32). -/
def execHbmHotRefresh (s : State) : Host.Outcome State Fault Refusal := s.event fun _ h =>
  let l := h.hotHbm.filter fun x => x != h.occ.unit
  { h with hotHbm := if h.occ.flag then l else h.occ.unit :: l }

/-- HOST_LINK_TRAIN: the host link trains at PCI Express generation `unit`, width `id` (R25). -/
def execHostLinkTrain (s : State) : Host.Outcome State Fault Refusal := s.event fun _ h =>
  if 1 ≤ h.occ.unit ∧ h.occ.unit ≤ 7 ∧ [1, 2, 4, 8, 16].contains h.occ.id = true then
    { h with host := some ⟨h.occ.unit, h.occ.id⟩ }
  else h

end Sys2Proof.Machine
end

