-- ==== Sys2Proof/Machine/DebugEvents.lean ====
section
/-! DEFINITION. Sys2Proof/Machine/DebugEvents.lean: stop requests, the clock lock, counters, PC samples and trace forwarding
(R273, R277 to R285). -/
namespace Sys2Proof.Machine

/-- DBGCTL_STOPREQ: warp `aux` of the block in slot `id` of function `unit` is to stop at its next region edge. -/
def execDbgctlStopreq (s : State) : Host.Outcome State Fault Refusal := s.event fun _ h =>
  h.onFn h.occ.unit fun x =>
    { x with dbg := { x.dbg with stopReq := true, slot := h.occ.id % 4096, warp := h.occ.aux % 32 } }

/-- DBGCTL_STOPALL: STOPALL of function `unit` is written as `flag`. -/
def execDbgctlStopall (s : State) : Host.Outcome State Fault Refusal := s.event fun _ h =>
  h.onFn h.occ.unit fun x => { x with dbg := { x.dbg with stopAll := h.occ.flag } }

/-- CLKCTL_LOCK: CLKCTL of function `unit` is written with LOCK 1 and OPP `aux` (R285). -/
def execClkctlLock (s : State) : Host.Outcome State Fault Refusal := s.event fun e h => h.clkLock e h.occ.unit (h.occ.aux % 8)

/-- COUNTER_SELECT: `val` is written to the selection of counter `id` of function `unit` (R283). -/
def execCounterSelect (s : State) : Host.Outcome State Fault Refusal := s.event fun _ h =>
  h.selectCtr h.occ.unit (h.occ.id % 4) (h.occ.val.setWidth 32)

/-- A PF write to the selection of a VF's counter through the alias (R282): HOLD claims it, and its count starts at a free value
(log 40), and at 0 where the claim goes from an unavailable selection to an available one (R283); without HOLD a claimed counter is
released, and nothing else happens. -/
def Hw.holdCtr (h : Hw) (f n : Nat) (w : Word) : Hw :=
  let c := h.ctr f n
  if w.getLsbD 29 then
    let gone := c.hold && !h.selAvailable f c.pfSel && h.selAvailable f (w &&& 0x1FFFFFFF#32)
    let start := if gone then 0 else if c.hold then c.pfVal else Config.claimedCount h.free % 2 ^ 48
    let h := if c.hold then h else { h with free := h.free + 1 }
    h.setCtr f n { c with hold := true, pfSel := w &&& 0x1FFFFFFF#32, pfVal := start, pfOvf := c.hold && c.pfOvf }
  else if c.hold then h.setCtr f n { c with hold := false }
  else h
/-- COUNTER_HOLD: the PF writes `val` to the selection of counter `id` of VF `unit`. -/
def execCounterHold (s : State) : Host.Outcome State Fault Refusal := s.event fun _ h =>
  if isVf h.occ.unit then h.holdCtr h.occ.unit (h.occ.id % 4) (h.occ.val.setWidth 32) else h

/-! ## PC samples (R277) -/

/-- Does a function take samples? -/
def Hw.samples (h : Hw) (f : Nat) : Bool :=
  let d := (h.fn f).dbg
  d.sampEn && d.tren.getLsbD 0 && h.trace.ctl.getLsbD 0
/-- The sample period in cycles. -/
def Debug.period (d : Debug) : Nat := 2 ^ max 8 (min 24 d.sampK)

/-- Resident warps of a function whose contexts belong to a slot of a core, by context. -/
def Hw.slotWarps (h : Hw) (f core slot : Nat) : List (Nat × Warp) :=
  sortOn (fun (x : Nat × Warp) => x.2.ctx) (h.warps.filter fun x => wkFn x.1 == f && x.2.ctx % 4 == slot && !x.2.done &&
    (match h.block? (wkBlock x.1) with | some b => b.core == core | none => false))

/-- A path's stall reason as it stands (Table 11.3), but for gated cycles. -/
def Hw.stallOf (h : Hw) (e : Env) (wk : Nat) (w : Warp) (x : Bool) : Nat :=
  let p := w.path x
  let waits := match h.block? (wkBlock wk) with
    | some b => (match b.startAt with | some t => decide (localTick e b.core < t) | none => false)
    | none => false
  if waits then 22
  else match w.held with
    | some (t, _) => if t.c.extractLsb' 0 8 = 0x0B#8 then 23 else if t.c.extractLsb' 0 8 = 0x10#8 then 26 else 24
    | none =>
      if w.stopped then 31
      else if !w.replayFirst.isEmpty then 19
      else if h.queueStalls wk then 12
      else if w.mode = .handler ∧ p.stall = 0 then 25
      else if p.stall = 0 then 4 else p.stall
/-- The reason in one cycle: a ready path in a gated cycle has reason 20. -/
def Hw.stallNow (h : Hw) (e : Env) (wk : Nat) (w : Warp) (x : Bool) : Nat :=
  let r := h.stallOf e wk w x
  if r = 4 ∧ ((h.block? (wkBlock wk)).any fun b => decide (e.clk.cycle % 8 < (h.ring (ringOf b.core)).step)) = true then 20 else r

/-- PC_SAMPLE: issue slot `id` of core `unit` samples the next resident warp of the function that runs there; with `flag`, path
`aux` (twice the warp's key, plus the path) issued in the sampled cycle. -/
def pcSample (e : Env) (h : Hw) : Hw :=
  let core := h.occ.unit
  let slot := h.occ.id % 4
  match List.find? (fun (x : Nat × Part) => x.2.live && x.2.owns.rings.getLsbD (ringOf core)) h.parts with
  | none => h
  | some (_, q) =>
    match q.running with
    | none => h
    | some f =>
      if !h.samples f then h
      else
        let ws := h.slotWarps f core slot
        let last := Tab.getD (h.core core).samplePtr slot 99
        match (ws.find? fun x => decide (last < x.2.ctx)).or ws.head? with
        | none => h
        | some (wk, w) =>
          let old := Tab.getD (h.core core).samplePtr (8 + w.ctx) 1
          let x := if w.p0.live && w.p1.live then old == 0 else w.p1.live
          let p := w.path x
          let issued := h.occ.flag && h.occ.aux == 2 * wk + x.toNat
          let reason := if issued then 0 else h.stallNow e wk w x
          let h := h.onCore core fun c => { c with samplePtr := Tab.put (Tab.put c.samplePtr slot w.ctx) (8 + w.ctx) x.toNat }
          h.emit e f core 0 0x01 (payAt 16 p.pc.toNat ||| payAt 24 (reason + (if issued then 32 else 0) + (if x then 64 else 0)) |||
            payAt 25 w.ctx ||| payAt 26 (w.region.headD 0#16).toNat ||| payAt 28 ((w.region.drop 1).headD 0#16).toNat)
/-- PC_SAMPLE (R277). -/
def execPcSample (s : State) : Host.Outcome State Fault Refusal := s.event pcSample

/-! ## Forwarding (R279) -/

/-- The trace buffer of a source: core 0 to 159, fabric port 160 + n, the I/O die 172. -/
def Hw.traceBuf (h : Hw) (src : Nat) : TraceBuf :=
  if src < 160 then (h.core src).trace else if src < 172 then (h.port (src - 160)).trace else h.trace.io
def Hw.setTraceBuf (h : Hw) (src : Nat) (b : TraceBuf) : Hw :=
  if src < 160 then h.onCore src fun c => { c with trace := b }
  else if src < 172 then h.onPort (src - 160) fun p => { p with trace := b }
  else { h with trace := { h.trace with io := b } }

/-- A record leaves for the port and the carve-out as TRCTL says; a full carve-out without WRAP drops it. -/
def TraceCtl.take (t : TraceCtl) (r : TraceRec) : TraceCtl :=
  let t := if t.ctl.getLsbD 1 then { t with port := r :: t.port } else t
  if t.ctl.getLsbD 2 then
    if t.ctl.getLsbD 3 || decide (t.wr < 2 ^ 29) then
      { t with carve := Tab.put t.carve (t.wr % 2 ^ 29 / 32) r, wr := t.wr + 32 }
    else { t with drop := (t.drop + 1) % 2 ^ 48 }
  else t

/-- TRACE_FORWARD: the I/O die forwards the oldest record of source `unit`, at most one record per tick; the source fills the place
with a DROP record where it has dropped some. -/
def traceForward (e : Env) (h : Hw) : Hw :=
  let src := h.occ.unit
  match (h.traceBuf src).recs with
  | [] => h
  | r :: _ =>
    if h.trace.last = some e.clk.tick then h.plan .traceForward h.occ
    else
      let b := (h.traceBuf src).freed r (localTick e src)
      let h := h.setTraceBuf src b
      let h := { h with trace := { (h.trace.take r) with last := some e.clk.tick } }
      if b.recs.isEmpty then h else h.planOnce .traceForward { Occasion.none with unit := src }
/-- TRACE_FORWARD (R279). -/
def execTraceForward (s : State) : Host.Outcome State Fault Refusal := s.event traceForward

end Sys2Proof.Machine
end

