-- ==== Sys2Proof/Machine/Lane.lean ====
section
/-! DEFINITION. Sys2Proof/Machine/Lane.lean: votes, moves, shuffles, lane operations and warp reductions (R155, R328 to R332). -/
namespace Sys2Proof.Machine

/-- Predicate q of a lane. -/
def Iss.pred (q : Iss) (p : BitVec 3) (n : Nat) : Bool := (q.w.getP p.toNat).getLsbD n

/-- VOTE.ANY (R328). -/
def execVoteAny (p q : BitVec 3) (s : State) : Host.Outcome State Fault Refusal :=
  setp (.voteAny p q) p s fun z _ => z.lanes.any fun n => z.pred q n

/-- VOTE.ALL (R328). -/
def execVoteAll (p q : BitVec 3) (s : State) : Host.Outcome State Fault Refusal :=
  setp (.voteAll p q) p s fun z _ => z.lanes.all fun n => z.pred q n

/-- BALLOT (R328): the row is u(b) of the lowest active lane. -/
def execBallot (d : RField) (p : BitVec 3) (b : RField) (y : Bool) (s : State) : Host.Outcome State Fault Refusal :=
  alu (.ballot d p b y) d s fun q _ =>
    let r := (q.rb b y q.lane0).toNat
    if r < q.w.k then
      (List.range 32).foldl (fun v j =>
        if q.lanes.contains (32 * r + j) && q.pred p (32 * r + j) then v ||| (1#32 <<< j) else v) 0#32
    else 0#32

/-- NLANES (R328). -/
def execNlanes (d : RField) (s : State) : Host.Outcome State Fault Refusal :=
  alu (.nlanes d) d s fun q _ => BitVec.ofNat 32 q.lanes.length

/-- FIRSTL (R328). -/
def execFirstl (d : RField) (s : State) : Host.Outcome State Fault Refusal :=
  alu (.firstl d) d s fun q _ => BitVec.ofNat 32 q.lane0

/-- ELECT (R328). -/
def execElect (p : BitVec 3) (s : State) : Host.Outcome State Fault Refusal :=
  setp (.elect p) p s fun q n => n == q.lane0

/-- MOV (R329). -/
def execMov (i : Bool) (d a : RField) (x : Bool) (s : State) : Host.Outcome State Fault Refusal :=
  alu1 (.mov i d a x) d a i x s fun a => a

/-- MOVX: xi is added to the destination's index (R329). -/
def execMovx (d a : RField) (x : Bool) (s : State) : Host.Outcome State Fault Refusal :=
  issue (.movx d a x) s fun e h q => q.put e { Use.dst d with idx := true } (fun n => [q.ra a x false n]) h

/-- PACK (R155): the placement of the active lanes' quarters in the fewest rows; with nothing to gain it does nothing. -/
def execPack (s : State) : Host.Outcome State Fault Refusal :=
  issue .pack s fun _ h q =>
    let quarters := (q.lanes.map (· / 8)).eraseDups.length
    let rows := (q.lanes.map (· / 32)).eraseDups.length
    .ok (if (quarters + 3) / 4 < rows then h.onPath q.wk q.x fun p => { p with packed := true } else h)

/-! ## SHFL (R330) -/

/-- A shuffle: `src` gives the source position in the row, if any. -/
def shuffle (ins : Instr) (i : Bool) (d a b : RField) (x y : Bool) (s : State) (src : Nat → Word → Option Nat) : Host.Outcome State Fault Refusal :=
  exchange ins d s fun q n =>
    match src (n % 32) (q.rb b y n) with
    | none => q.ra a x i n
    | some j => if q.lanes.contains (32 * (n / 32) + j) then q.ra a x i (32 * (n / 32) + j) else q.ra a x i n

/-- SHFL.IDX (R330). -/
def execShflIdx (i : Bool) (d a b : RField) (x y : Bool) (s : State) : Host.Outcome State Fault Refusal :=
  shuffle (.shflIdx i d a b x y) i d a b x y s fun _ b => some (b.extractLsb' 0 5).toNat

/-- SHFL.UP (R330). -/
def execShflUp (i : Bool) (d a b : RField) (x y : Bool) (s : State) : Host.Outcome State Fault Refusal :=
  shuffle (.shflUp i d a b x y) i d a b x y s fun j b => if j < b.toNat then none else some (j - b.toNat)

/-- SHFL.DN (R330). -/
def execShflDn (i : Bool) (d a b : RField) (x y : Bool) (s : State) : Host.Outcome State Fault Refusal :=
  shuffle (.shflDn i d a b x y) i d a b x y s fun j b => if 31 < j + b.toNat then none else some (j + b.toNat)

/-- SHFL.XOR (R330). -/
def execShflXor (i : Bool) (d a b : RField) (x y : Bool) (s : State) : Host.Outcome State Fault Refusal :=
  shuffle (.shflXor i d a b x y) i d a b x y s fun j b => some (Nat.xor j (b.extractLsb' 0 5).toNat)

/-! ## RDLANE, BCAST, WRLANE (R331) -/

/-- RDLANE (R331). -/
def execRdlane (i : Bool) (d a b : RField) (x y : Bool) (s : State) : Host.Outcome State Fault Refusal :=
  alu (.rdlane i d a b x y) d s fun q _ =>
    let sel := (q.rb b y q.lane0).toNat
    if q.lanes.contains sel then q.ra a x i sel else 0#32

/-- BCAST: the active lane of rank sel (R331). -/
def execBcast (i : Bool) (d a b : RField) (x y : Bool) (s : State) : Host.Outcome State Fault Refusal :=
  alu (.bcast i d a b x y) d s fun q _ =>
    match q.lanes[(q.rb b y q.lane0).toNat]? with
    | some n => q.ra a x i n
    | none => 0#32

/-- WRLANE: only lane sel's d changes (R331). -/
def execWrlane (i : Bool) (d a b : RField) (x y : Bool) (s : State) : Host.Outcome State Fault Refusal :=
  issue (.wrlane i d a b x y) s fun _ h q =>
    let sel := (q.rb b y q.lane0).toNat
    let v := q.ra a x i q.lane0
    .ok (if q.lanes.contains sel then h.onWarp q.wk fun w => w.setV (w.vIndex (Use.dst d)) sel v else h)

/-! ## Reductions (R332) -/

/-- A reduction over the active lanes in ascending number. -/
def reduce (ins : Instr) (d : RField) (i : Bool) (a : RField) (x : Bool) (s : State) (f : Iss → Word → Word → Word)
    (one : Iss → Word → Word) : Host.Outcome State Fault Refusal :=
  alu ins d s fun q _ =>
    match q.lanes with
    | [] => 0#32
    | [n] => one q (q.ra a x i n)
    | n :: ns => ns.foldl (fun v m => f q v (q.ra a x i m)) (q.ra a x i n)

/-- RDX.ADD (R332). -/
def execRdxAdd (i : Bool) (d a : RField) (x : Bool) (s : State) : Host.Outcome State Fault Refusal :=
  reduce (.rdxAdd i d a x) d i a x s (fun _ u v => u + v) fun _ v => v

/-- RDX.MAX, signed (R332). -/
def execRdxMax (i : Bool) (d a : RField) (x : Bool) (s : State) : Host.Outcome State Fault Refusal :=
  reduce (.rdxMax i d a x) d i a x s (fun _ u v => if u.slt v then v else u) fun _ v => v

/-- RDX.MIN, signed (R332). -/
def execRdxMin (i : Bool) (d a : RField) (x : Bool) (s : State) : Host.Outcome State Fault Refusal :=
  reduce (.rdxMin i d a x) d i a x s (fun _ u v => if v.slt u then v else u) fun _ v => v

/-- RDX.OR (R332). -/
def execRdxOr (i : Bool) (d a : RField) (x : Bool) (s : State) : Host.Outcome State Fault Refusal :=
  reduce (.rdxOr i d a x) d i a x s (fun _ u v => u ||| v) fun _ v => v

/-- RDX.AND (R332). -/
def execRdxAnd (i : Bool) (d a : RField) (x : Bool) (s : State) : Host.Outcome State Fault Refusal :=
  reduce (.rdxAnd i d a x) d i a x s (fun _ u v => u &&& v) fun _ v => v

/-- RDX.FADD: FP32 sums in ascending lane order, each rounded; one lane's value flushed and canonicalised (R332). -/
def execRdxFadd (i : Bool) (d a : RField) (x : Bool) (s : State) : Host.Outcome State Fault Refusal :=
  reduce (.rdxFadd i d a x) d i a x s
    (fun q u v => BitVec.ofNat 32 (Fmt.fp32.add q.mode q.ver u.toNat v.toNat))
    fun q v =>
      let r := Fmt.fp32.flushIn q.ver v.toNat
      BitVec.ofNat 32 (if (Fmt.fp32.val r).isNan then Fmt.fp32.nan else r)

end Sys2Proof.Machine
end

