-- ==== Sys2Proof/Machine/FloatInstr.lean ====
section
/-! DEFINITION. Sys2Proof/Machine/FloatInstr.lean: floating point, packed forms, FP64, conversions and nested integers (R378 to R393). -/
namespace Sys2Proof.Machine

/-! ## Forms -/

/-- d := f(mode, nbv, a, b) on FP32 bits. -/
def fp2 (ins : Instr) (d a b : RField) (i x y : Bool) (s : State) (f : Nat → Nat → Nat → Nat → Nat) : Host.Outcome State Fault Refusal :=
  alu ins d s fun q n => BitVec.ofNat 32 (f q.mode q.ver (q.ra a x i n).toNat (q.rb b y n).toNat)
def fp1 (ins : Instr) (d a : RField) (i x : Bool) (s : State) (f : Nat → Nat → Nat → Nat) : Host.Outcome State Fault Refusal :=
  alu ins d s fun q n => BitVec.ofNat 32 (f q.mode q.ver (q.ra a x i n).toNat)
/-- The two elements of packed pairs (R385). -/
def pair2 (f : Nat → Nat → Nat) (x y : Nat) : Nat :=
  f (x % 65536) (y % 65536) + 65536 * f (x / 65536) (y / 65536)
def pair3 (f : Nat → Nat → Nat → Nat) (x y z : Nat) : Nat :=
  f (x % 65536) (y % 65536) (z % 65536) + 65536 * f (x / 65536) (y / 65536) (z / 65536)

/-! ## FP32 (R380 to R384) -/

/-- FADD (R380). -/
def execFadd (i : Bool) (d a b : RField) (x y : Bool) (s : State) : Host.Outcome State Fault Refusal :=
  fp2 (.fadd i d a b x y) d a b i x y s fun m v a b => Fmt.fp32.add m v a b

/-- FSUB (R380). -/
def execFsub (i : Bool) (d a b : RField) (x y : Bool) (s : State) : Host.Outcome State Fault Refusal :=
  fp2 (.fsub i d a b x y) d a b i x y s fun m v a b => Fmt.fp32.sub m v a b

/-- FMUL (R380). -/
def execFmul (i : Bool) (d a b : RField) (x y : Bool) (s : State) : Host.Outcome State Fault Refusal :=
  fp2 (.fmul i d a b x y) d a b i x y s fun m v a b => Fmt.fp32.mul m v a b

/-- FFMA (R380). -/
def execFfma (i : Bool) (d a b : RField) (x y : Bool) (s : State) : Host.Outcome State Fault Refusal :=
  alu (.ffma i d a b x y) d s fun q n =>
    let (m, v, a, b, d) := (q.mode, q.ver, (q.ra a x i n).toNat, (q.rb b y n).toNat, (q.rd d n).toNat)
    BitVec.ofNat 32 (Fmt.fp32.fma m v a b d)

/-- FMIN (R381). -/
def execFmin (i : Bool) (d a b : RField) (x y : Bool) (s : State) : Host.Outcome State Fault Refusal :=
  fp2 (.fmin i d a b x y) d a b i x y s fun _ v a b => Fmt.fp32.minmax false v a b

/-- FMAX (R381). -/
def execFmax (i : Bool) (d a b : RField) (x y : Bool) (s : State) : Host.Outcome State Fault Refusal :=
  fp2 (.fmax i d a b x y) d a b i x y s fun _ v a b => Fmt.fp32.minmax true v a b

/-- FCPYS (R382). -/
def execFcpys (i : Bool) (d a b : RField) (x y : Bool) (s : State) : Host.Outcome State Fault Refusal :=
  alu2 (.fcpys i d a b x y) d a b i x y s fun a b => (a &&& 0x7FFFFFFF#32) ||| (b &&& 0x80000000#32)

/-- FSCALE (R382). -/
def execFscale (i : Bool) (d a b : RField) (x y : Bool) (s : State) : Host.Outcome State Fault Refusal :=
  alu (.fscale i d a b x y) d s fun q n =>
    BitVec.ofNat 32 (Fmt.fp32.scale q.mode q.ver (q.ra a x i n).toNat (q.rb b y n).toInt)

/-- FDIV, iterative (R383). -/
def execFdiv (i : Bool) (d a b : RField) (x y : Bool) (s : State) : Host.Outcome State Fault Refusal :=
  iterative (.fdiv i d a b x y) d 1 s fun q n =>
    [BitVec.ofNat 32 (fdiv32 q.mode q.ver (q.ra a x i n).toNat (q.rb b y n).toNat)]

/-- FSQRT, iterative (R383). -/
def execFsqrt (i : Bool) (d a : RField) (x : Bool) (s : State) : Host.Outcome State Fault Refusal :=
  iterative (.fsqrt i d a x) d 1 s fun q n => [BitVec.ofNat 32 (fsqrt32 q.mode q.ver (q.ra a x i n).toNat)]

/-- FRCP (R383). -/
def execFrcp (i : Bool) (d a : RField) (x : Bool) (s : State) : Host.Outcome State Fault Refusal :=
  fp1 (.frcp i d a x) d a i x s fun _ v a => frcp32 v a

/-- FRSQ (R383). -/
def execFrsq (i : Bool) (d a : RField) (x : Bool) (s : State) : Host.Outcome State Fault Refusal :=
  fp1 (.frsq i d a x) d a i x s fun _ v a => frsq32 v a

/-- FEXP2, iterative (R384). -/
def execFexp2 (i : Bool) (d a : RField) (x : Bool) (s : State) : Host.Outcome State Fault Refusal :=
  iterative (.fexp2 i d a x) d 1 s fun q n => [BitVec.ofNat 32 (fexp2_32 q.ver (q.ra a x i n).toNat)]

/-- FLOG2, iterative (R384). -/
def execFlog2 (i : Bool) (d a : RField) (x : Bool) (s : State) : Host.Outcome State Fault Refusal :=
  iterative (.flog2 i d a x) d 1 s fun q n => [BitVec.ofNat 32 (flog2_32 q.ver (q.ra a x i n).toNat)]

/-- FSIN, iterative (R384). -/
def execFsin (i : Bool) (d a : RField) (x : Bool) (s : State) : Host.Outcome State Fault Refusal :=
  iterative (.fsin i d a x) d 1 s fun q n => [BitVec.ofNat 32 (ftrig32 false q.ver (q.ra a x i n).toNat)]

/-- FCOS, iterative (R384). -/
def execFcos (i : Bool) (d a : RField) (x : Bool) (s : State) : Host.Outcome State Fault Refusal :=
  iterative (.fcos i d a x) d 1 s fun q n => [BitVec.ofNat 32 (ftrig32 true q.ver (q.ra a x i n).toNat)]

/-! ## Packed BF16 and FP16 (R385) -/

/-- BADD2 (R385). -/
def execBadd2 (i : Bool) (d a b : RField) (x y : Bool) (s : State) : Host.Outcome State Fault Refusal :=
  fp2 (.badd2 i d a b x y) d a b i x y s fun m v a b => pair2 (Fmt.bf16.add m v) a b

/-- BMUL2 (R385). -/
def execBmul2 (i : Bool) (d a b : RField) (x y : Bool) (s : State) : Host.Outcome State Fault Refusal :=
  fp2 (.bmul2 i d a b x y) d a b i x y s fun m v a b => pair2 (Fmt.bf16.mul m v) a b

/-- BFMA2 (R385). -/
def execBfma2 (i : Bool) (d a b : RField) (x y : Bool) (s : State) : Host.Outcome State Fault Refusal :=
  alu (.bfma2 i d a b x y) d s fun q n =>
    let (m, v, a, b, d) := (q.mode, q.ver, (q.ra a x i n).toNat, (q.rb b y n).toNat, (q.rd d n).toNat)
    BitVec.ofNat 32 (pair3 (Fmt.bf16.fma m v) a b d)

/-- BMAX2 (R385). -/
def execBmax2 (i : Bool) (d a b : RField) (x y : Bool) (s : State) : Host.Outcome State Fault Refusal :=
  fp2 (.bmax2 i d a b x y) d a b i x y s fun _ v a b => pair2 (Fmt.bf16.minmax true v) a b

/-- HADD2 (R385). -/
def execHadd2 (i : Bool) (d a b : RField) (x y : Bool) (s : State) : Host.Outcome State Fault Refusal :=
  fp2 (.hadd2 i d a b x y) d a b i x y s fun m v a b => pair2 (Fmt.fp16.add m v) a b

/-- HMUL2 (R385). -/
def execHmul2 (i : Bool) (d a b : RField) (x y : Bool) (s : State) : Host.Outcome State Fault Refusal :=
  fp2 (.hmul2 i d a b x y) d a b i x y s fun m v a b => pair2 (Fmt.fp16.mul m v) a b

/-- HFMA2 (R385). -/
def execHfma2 (i : Bool) (d a b : RField) (x y : Bool) (s : State) : Host.Outcome State Fault Refusal :=
  alu (.hfma2 i d a b x y) d s fun q n =>
    let (m, v, a, b, d) := (q.mode, q.ver, (q.ra a x i n).toNat, (q.rb b y n).toNat, (q.rd d n).toNat)
    BitVec.ofNat 32 (pair3 (Fmt.fp16.fma m v) a b d)

/-- HMAX2 (R385). -/
def execHmax2 (i : Bool) (d a b : RField) (x y : Bool) (s : State) : Host.Outcome State Fault Refusal :=
  fp2 (.hmax2 i d a b x y) d a b i x y s fun _ v a b => pair2 (Fmt.fp16.minmax true v) a b

/-! ## FP64 (R386) -/

/-- DADD (R386). -/
def execDadd (i : Bool) (d a b : RField) (x y : Bool) (s : State) : Host.Outcome State Fault Refusal :=
  alu64 (.dadd i d a b x y) d s fun q n =>
    BitVec.ofNat 64 (Fmt.fp64.add q.mode q.ver (q.ra64 a x i n).toNat (q.rb64 b y n).toNat)

/-- DMUL (R386). -/
def execDmul (i : Bool) (d a b : RField) (x y : Bool) (s : State) : Host.Outcome State Fault Refusal :=
  alu64 (.dmul i d a b x y) d s fun q n =>
    BitVec.ofNat 64 (Fmt.fp64.mul q.mode q.ver (q.ra64 a x i n).toNat (q.rb64 b y n).toNat)

/-- DFMA (R386). -/
def execDfma (i : Bool) (d a b : RField) (x y : Bool) (s : State) : Host.Outcome State Fault Refusal :=
  alu64 (.dfma i d a b x y) d s fun q n =>
    BitVec.ofNat 64 (Fmt.fp64.fma q.mode q.ver (q.ra64 a x i n).toNat (q.rb64 b y n).toNat
      (q.w.read64 (Use.both d) n).toNat)

/-- DDIV, iterative (R386). -/
def execDdiv (i : Bool) (d a b : RField) (x y : Bool) (s : State) : Host.Outcome State Fault Refusal :=
  iterative (.ddiv i d a b x y) d 2 s fun q n =>
    halves (BitVec.ofNat 64 (Fmt.fp64.div q.mode q.ver (q.ra64 a x i n).toNat (q.rb64 b y n).toNat))

/-! ## Conversions (Table 15.4) -/

/-- CVT.F.I (R387). -/
def execCvtFI (i : Bool) (d a : RField) (x : Bool) (s : State) : Host.Outcome State Fault Refusal :=
  alu (.cvtFI i d a x) d s fun q n => BitVec.ofNat 32 (Fmt.fp32.ofInt q.mode q.ver (q.ra a x i n).toInt)

/-- CVT.F.Z (R387). -/
def execCvtFZ (i : Bool) (d a : RField) (x : Bool) (s : State) : Host.Outcome State Fault Refusal :=
  fp1 (.cvtFZ i d a x) d a i x s fun m v a => Fmt.fp32.ofInt m v a

/-- CVT.I.F (R387). -/
def execCvtIF (i : Bool) (d a : RField) (x : Bool) (s : State) : Host.Outcome State Fault Refusal :=
  alu (.cvtIF i d a x) d s fun q n =>
    BitVec.ofInt 32 (Fmt.fp32.toInt q.mode q.ver (q.ra a x i n).toNat (-2147483648) 2147483647 (-2147483648))

/-- CVT.Z.F (R387). -/
def execCvtZF (i : Bool) (d a : RField) (x : Bool) (s : State) : Host.Outcome State Fault Refusal :=
  alu (.cvtZF i d a x) d s fun q n =>
    BitVec.ofInt 32 (Fmt.fp32.toInt q.mode q.ver (q.ra a x i n).toNat (0) 4294967295 (0))

/-- CVT.BF.F (R387). -/
def execCvtBfF (i : Bool) (d a : RField) (x : Bool) (s : State) : Host.Outcome State Fault Refusal :=
  fp1 (.cvtBfF i d a x) d a i x s fun m v a => Fmt.fp32.convert Fmt.bf16 m v a

/-- CVT.H.F (R387). -/
def execCvtHF (i : Bool) (d a : RField) (x : Bool) (s : State) : Host.Outcome State Fault Refusal :=
  fp1 (.cvtHF i d a x) d a i x s fun m v a => Fmt.fp32.convert Fmt.fp16 m v a

/-- CVT.F.BF (R387). -/
def execCvtFBf (i : Bool) (d a : RField) (x : Bool) (s : State) : Host.Outcome State Fault Refusal :=
  fp1 (.cvtFBf i d a x) d a i x s fun m v a => Fmt.bf16.convert Fmt.fp32 m v (a % 65536)

/-- CVT.F.H (R387). -/
def execCvtFH (i : Bool) (d a : RField) (x : Bool) (s : State) : Host.Outcome State Fault Refusal :=
  fp1 (.cvtFH i d a x) d a i x s fun m v a => Fmt.fp16.convert Fmt.fp32 m v (a % 65536)

/-- CVT.D.F (R387). -/
def execCvtDF (i : Bool) (d a : RField) (x : Bool) (s : State) : Host.Outcome State Fault Refusal :=
  alu64 (.cvtDF i d a x) d s fun q n => BitVec.ofNat 64 (Fmt.fp32.convert Fmt.fp64 q.mode q.ver (q.ra a x i n).toNat)

/-- CVT.F.D (R387). -/
def execCvtFD (i : Bool) (d a : RField) (x : Bool) (s : State) : Host.Outcome State Fault Refusal :=
  alu (.cvtFD i d a x) d s fun q n => BitVec.ofNat 32 (Fmt.fp64.convert Fmt.fp32 q.mode q.ver (q.ra64 a x i n).toNat)

/-- CVT.I8.F (R387). -/
def execCvtI8F (i : Bool) (d a : RField) (x : Bool) (s : State) : Host.Outcome State Fault Refusal :=
  alu (.cvtI8F i d a x) d s fun q n =>
    BitVec.ofInt 32 (Fmt.fp32.toInt q.mode q.ver (q.ra a x i n).toNat (-128) 127 (-128))

/-- FRND (R388). -/
def execFrnd (i : Bool) (d a : RField) (x : Bool) (s : State) : Host.Outcome State Fault Refusal :=
  fp1 (.frnd i d a x) d a i x s fun m v a => frnd32 m v a

/-! ## Nested integers (R389 to R393) -/

/-- NIQ (R390). -/
def execNiq (i : Bool) (d a b : RField) (x y : Bool) (s : State) : Host.Outcome State Fault Refusal :=
  fp2 (.niq i d a b x y) d a b i x y s fun m v a b => niq32 m v a b

/-- NIDQ (R391). -/
def execNidq (i : Bool) (d a b : RField) (x y : Bool) (s : State) : Host.Outcome State Fault Refusal :=
  fp2 (.nidq i d a b x y) d a b i x y s fun m v a b => nidq32 m v a b

/-- The larger of two finite magnitudes, as (m, e). -/
def maxMag (x y : Nat × Int) : Nat × Int := if dyLe ((y.1 : Int), y.2) ((x.1 : Int), x.2) then x else y

/-- SEXP (R392): the literal gives G in [2:0] and S in [6:3]. -/
def execSexp (i : Bool) (d a : RField) (m : BitVec 7) (x : Bool) (s : State) : Host.Outcome State Fault Refusal :=
  exchange (.sexp i d a m x) d s fun q n =>
    let g := 2 ^ (m.extractLsb' 0 3).toNat
    let group := q.lanes.filter fun l => l / 32 == n / 32 && l % 32 / g == n % 32 / g
    let top := group.foldl (fun b l =>
      match Fmt.fp32.operand q.ver (q.ra a x i l).toNat with
      | .fin _ k e => maxMag b (k, e)
      | _ => b) (0, 0)
    BitVec.ofInt 32 (sexpOf (m.extractLsb' 3 4).toNat top.1 top.2)

/-- NIPL (R393): the descriptor is that of the row's lowest active lane. -/
def execNipl (i : Bool) (d a b : RField) (x y : Bool) (s : State) : Host.Outcome State Fault Refusal :=
  exchange (.nipl i d a b x y) d s fun q n =>
    let row := q.lanes.filter fun l => l / 32 == n / 32
    let ds := (q.rb b y (lowest row)).toNat
    let sp := niS ds
    let j := niP ds
    if sp < 2 ∨ 8 < sp ∨ sp ≤ j then 0#32
    else row.foldl (fun v l => if (q.ra a x i l).getLsbD (sp - 1 - j) then v ||| (1#32 <<< (l % 32)) else v) 0#32

end Sys2Proof.Machine
end

