-- ==== Sys2Proof/Machine/Packets.lean ====
section
/-! DEFINITION. Sys2Proof/Machine/Packets.lean: the ring engine: SEND, RRED and RBCAST, and the way of a packet (R265 to
R269; log 36). -/
namespace Sys2Proof.Machine

/-! ## What a ring command names -/

def Cmd.srcOff (c : Cmd) : Nat := ((c.word 1).extractLsb' 0 20).toNat
def Cmd.dstOff (c : Cmd) : Nat := ((c.word 2).extractLsb' 0 20).toNat
def Cmd.ring (c : Cmd) : Nat := ringOf c.core
/-- Core at a stop of the command's ring. -/
def Cmd.coreAt (c : Cmd) (s : Nat) : Nat := 8 * c.ring + s
/-- Member mask of RRED and RBCAST, as stops. -/
def Cmd.members (c : Cmd) : List Nat := (List.range 8).filter fun s => (c.word 3).getLsbD (19 + s)
def Cmd.rootStop (c : Cmd) : Nat := ((c.word 3).extractLsb' 16 3).toNat
def Cmd.redOp (c : Cmd) : Nat := ((c.word 3).extractLsb' 27 3).toNat

/-- Is a word malformed (Table 10.11)? -/
def Cmd.ringBad (c : Cmd) : Bool :=
  let w := c.word 3
  (c.word 1).extractLsb' 20 12 != 0#12 || (c.word 2).extractLsb' 20 12 != 0#12 || (c.word 6).extractLsb' 11 21 != 0#21 ||
    c.len % 4 != 0 ||
    (if c.opc = 0x21 then w.extractLsb' 20 12 != 0#12 || w.extractLsb' 16 3 == 0#3
     else decide (16384 < c.len) || c.members.isEmpty ||
       (if c.opc = 0x22 then w.extractLsb' 30 2 != 0#2 || w.getLsbD 29 || (!c.members.contains (stopOf c.core) && c.rootStop != stopOf c.core)
        else w.extractLsb' 27 5 != 0#5 || w.extractLsb' 16 3 != 0#3))

/-- The checks before anything is sent. -/
def Hw.ringCheck (h : Hw) (e : Env) (c : Cmd) (b : Block) : Option EngFail :=
  match h.stampBad e c with
  | some f => some f
  | none =>
    if c.ringBad then some (malformed 0#64)
    else if !b.holds c.srcOff c.len then some ⟨0x06, peerVa c.core c.srcOff, false, none⟩
    else c.destStops.findSome? fun s => match h.blockAt c.fn b (c.coreAt s) c.dstOff c.len with
      | none => some (⟨0x06, peerVa (c.coreAt s) c.dstOff, true, none⟩ : EngFail)
      | some (_, d) => if c.bc ∧ d.shape.bars ≤ c.barIdx then some ⟨0x06, peerVa (c.coreAt s) c.dstOff, true, none⟩ else none

/-! ## Sending -/

/-- Number of stops from a to b towards higher stops. -/
def upHops (a b : Nat) : Nat := (b + 8 - a) % 8
/-- The direction with fewer hops, towards higher stops on a tie. -/
def shortUp (a b : Nat) : Bool := decide (upHops a b ≤ 4)

/-- Put a packet on its way: at the source's injection buffer, or straight to the ejection port of its own stop. -/
def Hw.inject (h : Hw) (id : Nat) (c : Cmd) (dest : Nat) (up : Bool) (off : Nat) (bs : List Byte) (last : Bool) : Hw :=
  let k := h.nextId
  let p : Packet :=
    { cmd := id, ring := c.ring, at_ := stopOf c.core, dest := dest, up := up, vc1 := false, hold := .source
      flits := max 1 ((bs.length + 63) / 64), off := off, bytes := bs, cls := if c.at_.isSome then .timed else .data, last := last }
  let h := { h with nextId := k + 1, packets := Tab.put h.packets k p }
  let h := h.onCmd id fun c => { c with packets := c.packets + 1 }
  h.planOn (if dest = stopOf c.core then .packetEject else .packetHop) k

/-- The offsets at which a payload of n bytes is cut into packets. -/
def packetCuts (n : Nat) : List (Nat × Nat) := (List.range ((n + 255) / 256)).map fun k => (256 * k, min 256 (n - 256 * k))

/-- Read a payload packet by packet and send each to every destination, up to the first read that fails. -/
def Hw.sendPayload (h : Hw) (e : Env) (id : Nat) (c : Cmd) (dests : List (Nat × Bool)) : Hw :=
  (packetCuts c.len).foldl (fun h x =>
    match Tab.find? h.cmds id with
    | none => h
    | some d =>
      if d.status ≠ 0 then h
      else match h.engGets e c (peerVa c.core (c.srcOff + x.1)) x.2 with
        | .error (h, f) => h.onCmd id fun c => c.fail f
        | .ok (h, bs) => dests.foldl (fun h s => h.inject id c s.1 s.2 (c.dstOff + x.1) bs (x.1 + x.2 == c.len)) h) h

/-- The bytes each destination's barrier is to be credited with. -/
def Hw.ringCredits (h : Hw) (id : Nat) : Hw :=
  match Tab.find? h.cmds id with
  | none => h
  | some c => if c.bc then
      let l := (h.creditBlocks c).map fun b => (b, c.len)
      h.onCmd id fun c => { c with unwritten := l }
    else h

/-- The payload is over when no packet is left. -/
def Hw.ringIdle (h : Hw) (id : Nat) : Hw :=
  match Tab.find? h.cmds id with
  | none => h
  | some c => if c.packets = 0 ∧ ¬ c.moved then h.payloadOver id else h

def rredKey (c : Cmd) : Nat := fcKey c.fn (8 * c.ring)
/-- The root stop that a reduction's fields name. -/
def Rred.root (r : Rred) : Nat := r.fields / 2 ^ 16 % 8
/-- Does the result of a reduction that the command is in have to wait where it is to be written? -/
def Hw.resultWaits (h : Hw) (e : Env) (c : Cmd) : Bool :=
  (Tab.getD h.rred (rredKey c) []).any fun r => r.pushed.any fun x => x.1 == r.root && (match Tab.find? h.cmds x.2 with
    | some d => h.rangeWaits e d true (peerVa d.core d.dstOff) d.len
    | none => false)

/-- The start of a ring command of the given opcode: what `go` does where the checks pass. It starts later where an access of it has
to wait. -/
def ringStart (opc : Nat) (go : Env → Hw → Nat → Cmd → Hw) (e : Env) (h : Hw) : Hw :=
  let id := h.occ.unit
  match Tab.find? h.cmds id with
  | none => h
  | some c =>
    match h.block? (wkBlock c.wk) with
    | none => h
    | some b =>
      if c.opc ≠ opc ∨ h.mayStart id = false then h
      else if h.rangeWaits e c false (peerVa c.core c.srcOff) c.len ||
          (c.opc == 0x22 && (h.rangeWaits e c true (peerVa c.core c.dstOff) c.len || h.resultWaits e c)) then
        h.plan (startStep c.opc) { Occasion.none with unit := id }
      else
        let h := h.onCmd id fun c => { c with started := true }
        let h := match h.ringCheck e c b with
          | some f =>
            let h := if c.opc = 0x22 ∧ c.rootStop ≠ stopOf c.core then h else h.ringCredits id
            (h.onCmd id fun c => c.fail f).payloadOver id
          | none => go e h id c
        (h.kick c.fn c.core).moved

/-- SEND and RBCAST send their range. -/
def goSend (e : Env) (h : Hw) (id : Nat) (c : Cmd) : Hw :=
  let s := stopOf c.core
  let dests := if c.opc = 0x21 then c.destStops.map fun d => (d, !(c.word 3).getLsbD 19)
    else c.destStops.map fun d => (d, shortUp s d)
  ((h.ringCredits id).sendPayload e id c dests).ringIdle id

/-- ENGINE_SEND (R265, R266). -/
def execEngineSend (s : State) : Host.Outcome State Fault Refusal := s.event (ringStart 0x21 goSend)
/-- ENGINE_RBCAST (R265, R267). -/
def execEngineRbcast (s : State) : Host.Outcome State Fault Refusal := s.event (ringStart 0x23 goSend)

/-! ## RRED (R267) -/

/-- The fields members must agree on, with their cluster above them. -/
def Hw.rredFields (h : Hw) (c : Cmd) : Nat :=
  (c.word 3).toNat + 2 ^ 32 * (match h.block? (wkBlock c.wk) with
    | some b => b.clusterId
    | none => 0)

/-- One element of a reduction. -/
def combine (op mode nbv : Nat) (a b : Word) : Word :=
  if op = 0 then a + b
  else if op = 1 then BitVec.ofNat 32 (Fmt.fp32.add mode nbv a.toNat b.toNat)
  else if op = 2 then BitVec.ofNat 32 (Fmt.fp32.minmax true nbv a.toNat b.toNat)
  else
    let f (k : Nat) : Nat := Fmt.bf16.add mode nbv (a.extractLsb' k 16).toNat (b.extractLsb' k 16).toNat
    BitVec.ofNat 32 (f 0 + 65536 * f 16)

/-- Words of a list of bytes. -/
def bytesWords : List Byte → List Word
  | a :: b :: c :: d :: l => BitVec.ofNat 32 (leNat [a, b, c, d]) :: bytesWords l
  | _ => []

/-- Combine contributions in ascending stop order from the root's stop. -/
def combineAll (op mode nbv root : Nat) (data : List (Nat × List Byte)) : List Byte :=
  let l := ((List.range 8).filterMap fun j => (data.find? fun x => x.1 == (root + j) % 8).map fun x => bytesWords x.2)
  match l with
  | [] => []
  | x :: xs => (xs.foldl (fun a b => List.zipWith (combine op mode nbv) a b) x).flatMap fun w => natLe 4 w.toNat

/-- Write bytes at an address line by line, each with its credit to block bk, up to the first failure. -/
def Hw.putCredited (h : Hw) (e : Env) (id : Nat) (c : Cmd) (bk : Nat) (va : DWord) (bs : List Byte) : Hw :=
  (cutLines (bs.length / 128 + 2) va bs.length).foldl (fun h x =>
    match Tab.find? h.cmds id with
    | none => h
    | some d =>
      if d.status ≠ 0 then h
      else match h.engPut e c .eng x.1 ((bs.drop (x.1 - va).toNat).take x.2) true with
        | .error f => h.onCmd id fun c => c.fail f
        | .ok h =>
          let h := h.onCmd id fun c => c.wrote bk x.2
          if c.bc then h.plan .byteCredit { Occasion.none with unit := id } else h) h

/-- The root combines and writes, once its own command and every member's contribution are there. -/
def Hw.rredTry (h : Hw) (e : Env) (key : Nat) : Hw :=
  let l := Tab.getD h.rred key []
  l.foldl (fun h r =>
    let root := r.root
    match r.pushed.find? fun x => x.1 == root with
    | none => h
    | some (_, id) =>
      match Tab.find? h.cmds id with
      | none => h
      | some c =>
        if r.bad || c.moved || c.members.any (fun s => !(r.data.any fun x => x.1 == s)) then h
        else
          let bs := combineAll c.redOp (c.rmode.extractLsb' 0 3).toNat c.nbv.toNat root r.data
          let h := match h.creditBlocks c with
            | bk :: _ => h.putCredited e id c bk (peerVa c.core c.dstOff) bs
            | [] => h.onCmd id fun c => c.fail ⟨0x06, peerVa c.core c.dstOff, true, none⟩
          let h := { h with rred := Tab.modify h.rred key fun l => l.filter fun x => x.pushed != r.pushed }
          h.payloadOver id) h

/-- A mismatch ends every member's command that has not ended. -/
def Hw.rredFail (h : Hw) (r : Rred) : Hw :=
  r.pushed.foldl (fun h x => (h.onCmd x.2 fun c => c.fail (malformed 0#64)).ringIdle x.2) h

/-- Stops that a member's command names: its mask and its root. -/
def Cmd.named (c : Cmd) : List Nat := c.rootStop :: c.members
/-- Is a command at stop s, with fields f, a member of a reduction that its stop is not in yet? Members agree on every field; a command
that disagrees is one where its cluster has the same warp's reduction, or one at the same root, and either names the other's stop
(log 36). -/
def Rred.takes (r : Rred) (c : Cmd) (f s : Nat) : Bool :=
  r.fields / 2 ^ 32 == f / 2 ^ 32 && !(r.pushed.any fun x => x.1 == s) &&
    (r.fields == f || ((r.warp == wkIdx c.wk || r.root == c.rootStop) &&
      (r.named.contains s || c.named.any fun t => r.pushed.any fun x => x.1 == t)))

/-- A member's command joins the oldest reduction that agrees with it, else the oldest that it disagrees with, which fails; a failed
one stays until every stop that its members name has pushed. -/
def Hw.rredJoin (h : Hw) (id : Nat) (c : Cmd) : Hw :=
  let key := rredKey c
  let s := stopOf c.core
  let f := h.rredFields c
  let l := Tab.getD h.rred key []
  match (l.findIdx? fun r => r.fields == f && r.takes c f s).or (l.findIdx? fun r => r.takes c f s) with
  | none => { h with rred := Tab.put h.rred key (l ++ [⟨f, wkIdx c.wk, c.named, [(s, id)], [], false⟩]) }
  | some i =>
    match l[i]? with
    | none => h
    | some r =>
      let r := { r with pushed := r.pushed ++ [(s, id)], bad := r.bad || r.fields != f, named := r.named ++ c.named }
      let all := r.named.all fun t => r.pushed.any fun x => x.1 == t
      let l := if r.bad && all then l.eraseIdx i else l.set i r
      let h := { h with rred := Tab.put h.rred key l }
      if r.bad then h.rredFail r else h

/-- A contribution has reached the root. -/
def Hw.rredArrive (h : Hw) (e : Env) (id : Nat) (c : Cmd) : Hw :=
  let key := rredKey c
  let s := stopOf c.core
  let h := { h with rred := Tab.modify h.rred key fun l => l.map fun (r : Rred) =>
    if r.pushed.contains (s, id) then { r with data := r.data ++ [(s, c.data)] } else r }
  h.rredTry e key

/-- RRED: a member in the mask reads its range and sends it to the root; the root's own contribution is there at once. -/
def goRred (e : Env) (h : Hw) (id : Nat) (c : Cmd) : Hw :=
  let s := stopOf c.core
  let root := c.rootStop
  let h := if s = root then h.ringCredits id else h
  let h := h.rredJoin id c
  let read : Reads (List Byte) := if c.members.contains s then h.engGets e c (peerVa c.core c.srcOff) c.len else .ok (h, [])
  match Tab.find? h.cmds id with
  | none => h
  | some d =>
    if d.status ≠ 0 then h
    else match read with
      | .error (h, f) => (h.onCmd id fun c => c.fail f).ringIdle id
      | .ok (h, bs) =>
        let h := h.onCmd id fun c => { c with data := bs }
        if s = root then
          if c.members.contains s then h.rredArrive e id { c with data := bs } else h.rredTry e (rredKey c)
        else (packetCuts c.len).foldl (fun h x =>
          h.inject id c root (shortUp s root) (c.dstOff + x.1) ((bs.drop x.1).take x.2) (x.1 + x.2 == c.len)) h

/-- ENGINE_RRED (R265, R267). -/
def execEngineRred (s : State) : Host.Outcome State Fault Refusal := s.event (ringStart 0x22 goRred)

/-! ## Packets (R268, R269) -/

/-- The stop after the one where a packet stands. -/
def Packet.next (p : Packet) : Nat := if p.up then (p.at_ + 1) % 8 else (p.at_ + 7) % 8
/-- Channel of a packet beyond its next link. -/
def Packet.vcNext (p : Packet) : Bool := p.vc1 || p.next == 0

/-- Flit slots taken in the shared pool of a stop. -/
def Hw.poolUsed (h : Hw) (ring stop : Nat) : Nat :=
  (h.packets.map fun x => if x.2.ring = ring ∧ x.2.at_ = stop ∧ x.2.hold = .shared then x.2.flits else 0).sum
/-- Is an escape slot of a stop taken? -/
def Hw.escapeTaken (h : Hw) (ring stop : Nat) (up vc1 : Bool) : Bool :=
  h.packets.any fun x => x.2.ring == ring && x.2.at_ == stop && x.2.hold == .escape && x.2.up == up && x.2.vc1 == vc1

/-- Where a packet goes at its next stop, none where it has to wait: packets of one command to one stop keep their order. -/
def Hw.placeNext (h : Hw) (id : Nat) (p : Packet) : Option Hold :=
  if h.packets.any fun x => decide (x.1 < id) && x.2.cmd == p.cmd && x.2.dest == p.dest && x.2.at_ == p.at_ then none
  else if p.next = p.dest then some .source
  else if h.poolUsed p.ring p.next + p.flits ≤ 8 then some .shared
  else if h.escapeTaken p.ring p.next p.up p.vcNext then none
  else some .escape

/-- Grants in a row of a packet's outgoing link. -/
def Hw.grantsOf (h : Hw) (p : Packet) : Nat × Nat := Tab.getD (h.ring p.ring).grants (2 * p.at_ + p.up.toNat) (0, 0)
/-- Place of a class in the order of grants, the least first: by Table 5.6, but for a data request after 32 grants to the classes above
it, and a synchronisation request after 8 to the timed class (R140). -/
def Activity.place (grants : Nat × Nat) : Activity → Nat
  | .data => if 32 ≤ grants.2 then 0 else 4
  | .sync => if 8 ≤ grants.1 then 1 else 3
  | .timed => 2
  | .trace => 5
/-- What one grant makes of the two counts of a link. -/
def Activity.granted (grants : Nat × Nat) : Activity → Nat × Nat
  | .timed => (grants.1 + 1, grants.2 + 1)
  | .sync => (0, grants.2 + 1)
  | .data | .trace => (0, 0)

/-- Rank of a packet at its outgoing link, the least first: class, VC1 before VC0, through traffic before injection. -/
def Packet.rank (grants : Nat × Nat) (p : Packet) : List Nat :=
  [p.cls.place grants, (!p.vcNext).toNat, (p.hold == .source).toNat]

/-- Does another packet that can move go first: on the same link by its rank, or into the pool of the next stop because it is bound for
a higher stop (R269)? -/
def Hw.yields (h : Hw) (id : Nat) (p : Packet) (hold : Hold) : Bool :=
  let g := h.grantsOf p
  h.packets.any fun x => x.1 != id && x.2.ring == p.ring && x.2.dest != x.2.at_ &&
    ((x.2.at_ == p.at_ && x.2.up == p.up && ranksBefore (x.2.rank g) (p.rank g) && (h.placeNext x.1 x.2).isSome) ||
      (hold == .shared && !p.up && x.2.up && x.2.next == p.next && h.placeNext x.1 x.2 == some .shared))

/-- PACKET_HOP: packet `unit` crosses its next link; it waits where the next stop has no room, and yields to a packet
that goes first and can move. -/
def packetHop (_e : Env) (h : Hw) : Hw :=
  let id := h.occ.unit
  match Tab.find? h.packets id with
  | none => h
  | some p =>
    match h.placeNext id p with
    | none => h.plan .packetHop h.occ
    | some hold =>
      if h.yields id p hold then h.plan .packetHop h.occ
      else
        let h := h.onRing p.ring fun r =>
          { r with grants := Tab.put r.grants (2 * p.at_ + p.up.toNat) (p.cls.granted (h.grantsOf p)) }
        let h := { h with packets := Tab.put h.packets id { p with at_ := p.next, vc1 := p.vcNext, hold := hold } }
        h.planOn (if p.next = p.dest then .packetEject else .packetHop) id

/-- PACKET_HOP (R268, R269). -/
def execPacketHop (s : State) : Host.Outcome State Fault Refusal := s.event packetHop

/-- PACKET_EJECT: packet `unit` leaves the ring at its destination; a SEND's or RBCAST's bytes are written there,
marked and credited; the last packet of an RRED's contribution delivers it. -/
def packetEject (e : Env) (h : Hw) : Hw :=
  let id := h.occ.unit
  match Tab.find? h.packets id with
  | none => h
  | some p =>
    let waits := match Tab.find? h.cmds p.cmd with
      | some c => if c.opc = 0x22 then h.resultWaits e c
        else h.rangeWaits e c true (peerVa (8 * p.ring + p.dest) p.off) p.bytes.length
      | none => false
    if p.at_ ≠ p.dest then h
    else if waits || h.packets.any fun x => decide (x.1 < id) && x.2.cmd == p.cmd && x.2.dest == p.dest then h.plan .packetEject h.occ
    else
      let h := { h with packets := Tab.del h.packets id }
      match Tab.find? h.cmds p.cmd with
      | none => h
      | some c =>
        let h := h.onCmd p.cmd fun c => { c with packets := c.packets - 1 }
        if c.opc = 0x22 then
          if c.status = 0 ∧ c.packets ≤ 1 then ((h.rredArrive e p.cmd c).ringIdle p.cmd).moved else h.ringIdle p.cmd
        else
          let core := 8 * p.ring + p.dest
          let bk := match h.block? (wkBlock c.wk) with
            | some b => ((h.blockAt c.fn b core p.off p.bytes.length).map fun (x : Nat × Block) => x.1).getD (wkBlock c.wk)
            | none => wkBlock c.wk
          ((h.putCredited e p.cmd c bk (peerVa core p.off) p.bytes).ringIdle p.cmd).moved

/-- PACKET_EJECT (R266, R267). -/
def execPacketEject (s : State) : Host.Outcome State Fault Refusal := s.event packetEject

end Sys2Proof.Machine
end

