-- ==== Sys2Proof/Machine/Registers.lean ====
section
/-! DEFINITION. Sys2Proof/Machine/Registers.lean: the register window BAR 0 (R5, R6, R33 to R36, Table 2.1 and the tables it
names): reads with their clearing, and writes under their access codes. -/
namespace Sys2Proof.Machine

/-! ## Units of eight bytes -/

/-- A write to an aligned unit of eight bytes: the value and the bits that are written. -/
structure RegWrite where
  v : DWord
  m : DWord
  deriving DecidableEq, Repr

/-- The new value of a register of 64 bits. -/
def RegWrite.merge (w : RegWrite) (old : DWord) : DWord := (old &&& ~~~w.m) ||| (w.v &&& w.m)
/-- Is the low word written, or the high word? -/
def RegWrite.lo (w : RegWrite) : Bool := w.m.getLsbD 0
def RegWrite.hi (w : RegWrite) : Bool := w.m.getLsbD 32
def RegWrite.low (w : RegWrite) : Word := w.v.extractLsb' 0 32
def RegWrite.high (w : RegWrite) : Word := w.v.extractLsb' 32 32

/-- Take 64 bits from, or merge a write into, part `k` of a wide register. -/
def part64 {n : Nat} (x : BitVec n) (k : Nat) : DWord := x.extractLsb' (64 * k) 64
def merge64 {n : Nat} (w : RegWrite) (x : BitVec n) (k : Nat) : BitVec n :=
  (x &&& ~~~((w.m.setWidth n) <<< (64 * k))) ||| (((w.v &&& w.m).setWidth n) <<< (64 * k))

/-- Two words side by side. -/
def wordPair (lo hi : Nat) : DWord := BitVec.ofNat 64 (lo % 2 ^ 32 + hi % 2 ^ 32 * 2 ^ 32)
/-- Sum of single bits, by position. -/
def bitsOf (l : List (Nat × Bool)) : Nat := l.foldl (fun n x => n + if x.2 then 2 ^ x.1 else 0) 0

/-! ## Reads (Tables 2.2 to 2.4, 2.12, 2.13, 3.8, 11.1, 11.6) -/

/-- FSTAT (Table 2.2): READY while the firmware is verified and the function accepts commands. -/
def Hw.fstat (h : Hw) (f : Nat) : Nat :=
  let x := h.fn f
  bitsOf [(0, h.ready f), (1, x.wake.state != .active), (4, x.jfull), (5, h.fatal)] + 4 * (x.bind.wclass % 4)

def Hw.readFunction (h : Hw) (f k : Nat) : DWord :=
  let x := h.fn f
  if k = 0 then wordPair (f + 512 * x.bind.part) 0
  else if k = 0x008 then wordPair (h.fstat f) 0
  else if k = 0x018 then BitVec.ofNat 64 (h.winLo f)
  else if k = 0x020 then BitVec.ofNat 64 (h.winHi f)
  else if k = 0x028 then x.b2va
  else if k = 0x030 then wordPair x.b2sz 0
  else 0#64

def Hw.readQueue (h : Hw) (f q k : Nat) : DWord :=
  let x := h.sq f q
  if k = 0x00 then x.base
  else if k = 0x08 then wordPair x.log2 (bitsOf [(0, x.en)] + 4 * x.vec)
  else if k = 0x10 then wordPair x.wr x.rd
  else if k = 0x18 then wordPair (bitsOf [(0, x.en && !x.err), (1, x.err), (2, x.held)] + 16 * x.code) 0
  else if k = 0x20 then BitVec.ofNat 64 x.seq
  else 0#64

/-- JOLDEST: the lowest sequence whose entry is not terminal (Table 2.12). -/
def Fn.jOldest (x : Fn) : Nat :=
  (x.journal.filter fun (j : Nat × JEnt) => !j.2.terminal).foldl (fun n j => min n j.2.seq) x.jnext

def Hw.readJournal (h : Hw) (f k : Nat) : DWord :=
  let x := h.fn f
  if k = 0 then BitVec.ofNat 64 x.jnext else if k = 0x008 then BitVec.ofNat 64 x.jOldest
  else if k = 0x010 then wordPair x.jlost 0 else 0#64

/-- COLSTAT.STATE (Table 3.8). -/
def ColState.code : ColState → Nat
  | .active => 0 | .collapsing => 1 | .collapsed => 2 | .waking => 3

def Hw.readWake (h : Hw) (f k : Nat) : DWord :=
  let x := (h.fn f).wake
  if k = 0x000 then wordPair (bitsOf [(0, f != 0 && x.state == .waking)]) 0
  else if k = 0x008 then wordPair (bitsOf [(0, f != 0 && x.en)]) x.idle
  else if k = 0x010 then wordPair (x.state.code + 4 * x.cause) 0
  else if k = 0x018 then wordPair x.ticks 0
  else if k = 0x020 then wordPair x.count 0
  else if k = 0x040 then BitVec.ofNat 64 (x.credit % 2 ^ 48)
  else if k = 0x048 then BitVec.ofNat 64 (x.paid % 2 ^ 48)
  else 0#64

/-- Registers of a counter as its function sees them (Table 11.6). -/
def Hw.readCounter (h : Hw) (f n k : Nat) : DWord :=
  let (v, ovf, hold, lost) := h.readCtr f n
  if k = 0x00 then wordPair (h.ctr f n).sel.toNat 0
  else if k = 0x08 then BitVec.ofNat 64 v
  else if k = 0x10 then wordPair (bitsOf [(0, ovf), (1, hold), (2, lost)]) 0
  else 0#64

/-- The same registers through the PF's view: the PF's own selection and count while it claims the counter (R282). -/
def Hw.readClaim (h : Hw) (f n k : Nat) : DWord :=
  let c := h.ctr f n
  if !c.hold then h.readCounter f n k
  else
    let lost := !h.selAvailable f c.pfSel
    if k = 0x00 then wordPair (c.pfSel.toNat + 2 ^ 29) 0
    else if k = 0x08 then BitVec.ofNat 64 (if lost then 0xFFFFFFFFFFFF else c.pfVal)
    else if k = 0x10 then wordPair (bitsOf [(0, c.pfOvf), (1, true), (2, lost)]) 0
    else 0#64

def Hw.readDebug (h : Hw) (f k : Nat) : DWord :=
  let d := (h.fn f).dbg
  if k < 0x80 then h.readCounter f (k / 32) (k % 32)
  else if k = 0x80 then wordPair (bitsOf [(0, d.sampEn)] + 2 * d.sampK) 0
  else if k = 0x88 then wordPair (bitsOf [(0, d.stopReq), (1, d.stopAll)] + 4 * d.slot + 2 ^ 14 * d.warp) 0
  else if k = 0x90 then
    wordPair (d.opp + bitsOf [(3, d.lock), (8, !d.locks.isEmpty), (9, d.broken)] + 2 ^ 10 * d.bcause) 0
  else if k = 0x98 then wordPair d.tren.toNat 0
  else if f ≠ 0 then 0#64
  else if k = 0x100 then wordPair h.trace.ctl.toNat 0
  else if k = 0x108 then wordPair (h.trace.wr % 2 ^ 29) 0
  else if k = 0x110 then BitVec.ofNat 64 h.trace.drop
  else if 0x8000 ≤ k then h.readClaim ((k - 0x8000) / 0x80 + 1) (k % 0x80 / 32) (k % 32)
  else 0#64

/-- ATSTAT (Table 2.13): after a boot failure, 8 plus the number of the stage. -/
def Hw.atstat (h : Hw) (f : Nat) : Nat :=
  match h.boot.failed with
  | some i => 8 + i
  | none => (h.fn f).attest.stat

def Hw.readMailbox (h : Hw) (f k : Nat) : DWord :=
  let a := (h.fn f).attest
  if k = 0 then wordPair (bitsOf [(0, a.go)]) (h.atstat f)
  else if k = 0x008 then a.addr
  else if 0x40 ≤ k ∧ k < 0x60 then part64 a.nonce ((k - 0x40) / 8)
  else if k = 0x80 then a.cert
  else 0#64

/-! ## Reads of the PF-only block (Tables 2.10, 3.1, 3.3, 4.6, 7.2, 8.7, 8.8, 16.6) -/

def Hw.readFab (h : Hw) (f k : Nat) : DWord :=
  let v := (h.fn f).fab
  if k = 0x00 then BitVec.ofNat 64 (bitsOf [(0, v.en)] + 2 ^ 8 * v.plen + 2 ^ 16 * v.ops.toNat + 2 ^ 24 * v.queue)
  else if k = 0x10 then part64 v.src 0
  else if k = 0x18 then part64 v.src 1
  else if k = 0x40 then BitVec.ofNat 64 v.last
  else if k = 0x48 then wordPair v.drops 0
  else 0#64

/-- The first word of a binding. -/
def Bind.word (b : Bind) : Nat := bitsOf [(0, b.en)] + 2 * b.part + 2 ^ 7 * b.wclass + 2 ^ 16 * b.slice

def Hw.readBind (h : Hw) (f k : Nat) : DWord :=
  let b := (h.fn f).bind
  if k = 0x00 then wordPair b.word b.quota
  else if k = 0x08 then b.winlo
  else if k = 0x10 then b.winhi
  else if k = 0x18 then wordPair f (bitsOf [(0, b.bound)] + 2 * b.err)
  else 0#64

def Hw.readRoot (h : Hw) (ctx k : Nat) : DWord :=
  match Tab.find? h.roots ctx with
  | some (v, m) => if k = 0 then v else wordPair (bitsOf [(0, m)]) 0
  | none => 0#64

/-- Guard-store bytes reserved across a partition (R109). -/
def Hw.guardBytes (h : Hw) (p : Nat) : Nat := (h.part p).rings.foldl (fun n r => n + (h.ring r).guard) 0

def Hw.readPart (h : Hw) (p k : Nat) : DWord :=
  let q := h.part p
  if k = 0x00 then wordPair (bitsOf [(0, q.en), (2, q.quiescing && !q.quiet)]) (bitsOf [(0, q.live), (1, q.quiet)] + 4 * q.err)
  else if k = 0x08 then part64 (q.staged.rings.setWidth 64) 0
  else if k = 0x10 then part64 (q.staged.eng.setWidth 64) 0
  else if 0x20 ≤ k ∧ k < 0x30 then part64 (q.staged.slices.setWidth 128) ((k - 0x20) / 8)
  else if 0x40 ≤ k ∧ k < 0x70 then part64 q.staged.chans ((k - 0x40) / 8)
  else if k = 0x70 then wordPair (320 + p) 0
  else if k = 0x78 then BitVec.ofNat 64 (h.guardBytes p)
  else if k = 0x80 then q.pmtbase
  else if k = 0x88 then BitVec.ofNat 64 q.pmtcnt
  else if k = 0x90 then q.pcvbase
  else if k = 0x98 then BitVec.ofNat 64 q.pcvcnt
  else if k = 0xA0 then wordPair q.pnometh q.slots.length
  else if k = 0xA8 then q.phvec
  else if k = 0xC0 then q.pmobase
  else if k = 0xC8 then BitVec.ofNat 64 q.pmosize
  else if k = 0xD0 then BitVec.ofNat 64 (h.pmoUsed p % 2 ^ 40)
  else if k = 0xD8 then wordPair q.pmolost 0
  else 0#64

def Hw.readRace (h : Hw) (f k : Nat) : DWord :=
  let r := (h.fn f).race
  if k = 0x00 then r.frbase
  else if k = 0x08 then r.rrbase
  else if k = 0x10 then wordPair r.rrcnt (bitsOf [(0, r.pcrec)])
  else if k = 0x18 then wordPair r.lost 0
  else 0#64

/-! ## The map (Table 2.1) -/

/-- A register block with the number of the thing it is about and the offset within it. -/
inductive Reg where
  | function (k : Nat) | intr (k : Nat) | queue (q k : Nat) | journal (k : Nat) | wake (k : Nat) | debug (k : Nat)
  | mailbox (k : Nat) | fab (f k : Nat) | pfBind | bind (f k : Nat) | root (ctx k : Nat) | part (p k : Nat) | race (f k : Nat)
  | rsv
  deriving DecidableEq, Repr

/-- Where an offset lies for a function; the PF-only block is rsv for a VF (R35). -/
def regAt (f off : Nat) : Reg :=
  if off < 0x1000 then .function off
  else if off < 0x2000 then .intr (off - 0x1000)
  else if off < 0x10000 then .rsv
  else if off < 0x10400 then .queue ((off - 0x10000) / 0x40) (off % 0x40)
  else if off < 0x20000 then .rsv
  else if off < 0x21000 then .journal (off - 0x20000)
  else if off < 0x30000 then .rsv
  else if off < 0x31000 then .wake (off - 0x30000)
  else if off < 0x40000 then .rsv
  else if off < 0x50000 then .debug (off - 0x40000)
  else if off < 0x80000 then .rsv
  else if off < 0x90000 then .mailbox (off - 0x80000)
  else if off < 0x100000 ∨ f ≠ 0 then .rsv
  else if off < 0x108000 then .fab ((off - 0x100000) / 0x80 + 1) (off % 0x80)
  else if off < 0x110000 then .rsv
  else if off < 0x110008 then .pfBind
  else if off < 0x120000 then .rsv
  else if off < 0x124000 then .bind ((off - 0x120000) / 0x40 + 1) (off % 0x40)
  else if off < 0x130000 then .rsv
  else if off < 0x131800 then (if off < 0x130010 then .rsv else .root ((off - 0x130000) / 0x10) (off % 0x10))
  else if off < 0x140000 then .rsv
  else if off < 0x144000 then .part ((off - 0x140000) / 0x100) (off % 0x100)
  else if off < 0x150000 then .rsv
  else if off < 0x152020 then .race ((off - 0x150000) / 0x20) (off % 0x20)
  else .rsv

/-- After a boot failure the PF offers only its function registers and the mailbox (R61). -/
def Hw.offers (h : Hw) (r : Reg) : Bool :=
  h.boot.ready || match r with
    | .function _ => true
    | .mailbox _ => true
    | _ => false

/-- Eight bytes of BAR 0 at an aligned offset. -/
def Hw.readReg (h : Hw) (f : Nat) (r : Reg) : DWord :=
  match r with
  | .function k => h.readFunction f k
  | .intr k => if k = 0 then wordPair (h.fn f).intstat.toNat 0 else if k = 8 then wordPair (h.fn f).inten.toNat 0 else 0#64
  | .queue q k => h.readQueue f q k
  | .journal k => h.readJournal f k
  | .wake k => h.readWake f k
  | .debug k => h.readDebug f k
  | .mailbox k => h.readMailbox f k
  | .fab g k => h.readFab g k
  | .pfBind => wordPair (h.fn 0).bind.word 0
  | .bind g k => h.readBind g k
  | .root c k => h.readRoot c k
  | .part p k => h.readPart p k
  | .race g k => h.readRace g k
  | .rsv => 0#64

/-- A read clears the RC registers among the bits it returns: JLOST, PMOLOST, RC.LOST, PNOMETH, FV.DROPS, TRDROP (R5). -/
def Hw.clearReg (h : Hw) (f : Nat) (r : Reg) (m : DWord) : Hw :=
  let low := m.getLsbD 0
  match r with
  | .journal k => if k = 0x010 ∧ low then h.onFn f fun x => { x with jlost := 0 } else h
  | .debug k =>
    if f = 0 ∧ k = 0x110 then { h with trace := { h.trace with drop := (BitVec.ofNat 64 h.trace.drop &&& ~~~m).toNat } } else h
  | .fab g k => if k = 0x48 ∧ low then h.onFn g fun x => { x with fab := { x.fab with drops := 0 } } else h
  | .part p k =>
    if k = 0xA0 ∧ low then h.onPart p fun q => { q with pnometh := 0 }
    else if k = 0xD8 ∧ low then h.onPart p fun q => { q with pmolost := 0 } else h
  | .race g k => if k = 0x18 ∧ low then h.onFn g fun x => { x with race := { x.race with lost := 0 } } else h
  | _ => h

/-! ## Writes -/

def Hw.writeQueue (h : Hw) (e : Env) (f q k : Nat) (w : RegWrite) : Hw :=
  if k = 0x00 then
    if (h.sq f q).en then h.queueError e f q 1
    else h.onSq f q fun x => { x with base := w.merge x.base &&& 0xFFFFFFFFFFFFF000#64 }
  else if k = 0x08 then
    let h := if !w.lo then h else if (h.sq f q).en then h.queueError e f q 1
      else h.onSq f q fun x => { x with log2 := w.low.toNat % 32 }
    if !w.hi then h
    else
      let h := h.onSq f q fun x => { x with vec := (w.high.extractLsb' 2 5).toNat }
      if w.high.getLsbD 1 then h.resetQueue e f q
      else if w.high.getLsbD 0 then h.enableQueue e f q
      else h.onSq f q fun x => { x with en := false }
  else if k = 0x10 then (if w.lo then h.doorbell e f q (w.low.toNat % 65536) else h)
  else h

def Hw.writeWake (h : Hw) (e : Env) (f k : Nat) (w : RegWrite) : Hw :=
  if k = 0x000 then (if w.lo && w.low.getLsbD 0 && f != 0 then h.wake e f 1 else h)
  else if k = 0x008 then
    let h := if w.hi then h.onFn f fun x => { x with wake := { x.wake with idle := w.high.toNat } } else h
    if w.lo && f != 0 then
      let h := h.onFn f fun x => { x with wake := { x.wake with en := w.low.getLsbD 0 } }
      if w.low.getLsbD 1 then h.collapseNow f else h
    else h
  else h

/-- A write to a counter of a function's own session: CTRVAL is ignored while the PF claims the counter (R282). -/
def Hw.writeCounter (h : Hw) (f n k : Nat) (w : RegWrite) : Hw :=
  let c := h.ctr f n
  if k = 0x00 then (if w.lo then h.selectCtr f n w.low else h)
  else if k = 0x08 then
    if c.hold then h else h.setCtr f n { c with val := (w.merge (BitVec.ofNat 64 c.val)).toNat % 2 ^ 48 }
  else if k = 0x10 then (if w.lo && w.low.getLsbD 0 then h.setCtr f n { c with ovf := false } else h)
  else h

/-- A PF write through its view of a VF's session: while the counter is not claimed only HOLD does anything (R282). -/
def Hw.writeClaim (h : Hw) (f n k : Nat) (w : RegWrite) : Hw :=
  let c := h.ctr f n
  if k = 0x00 then (if w.lo then h.holdCtr f n w.low else h)
  else if !c.hold then h
  else if k = 0x08 then h.setCtr f n { c with pfVal := (w.merge (BitVec.ofNat 64 c.pfVal)).toNat % 2 ^ 48 }
  else if k = 0x10 then (if w.lo && w.low.getLsbD 0 then h.setCtr f n { c with pfOvf := false } else h)
  else h

def Hw.writeDebug (h : Hw) (e : Env) (f k : Nat) (w : RegWrite) : Hw :=
  let v := w.low
  if k < 0x80 then h.writeCounter f (k / 32) (k % 32) w
  else if f = 0 ∧ 0x8000 ≤ k then h.writeClaim ((k - 0x8000) / 0x80 + 1) (k % 0x80 / 32) (k % 32) w
  else if !w.lo then h
  else if k = 0x80 then h.onFn f fun x =>
    { x with dbg := { x.dbg with sampEn := v.getLsbD 0, sampK := (v.extractLsb' 1 5).toNat } }
  else if k = 0x88 then h.onFn f fun x =>
    { x with dbg := { x.dbg with
      stopReq := x.dbg.stopReq || v.getLsbD 0, stopAll := v.getLsbD 1, slot := (v.extractLsb' 2 12).toNat,
      warp := (v.extractLsb' 14 5).toNat } }
  else if k = 0x90 then
    let h := if v.getLsbD 9 then h.onFn f fun x => { x with dbg := { x.dbg with broken := false } } else h
    let opp := (v.extractLsb' 0 3).toNat
    if v.getLsbD 3 then h.clkLock e f opp else h.clkUnlock e f opp
  else if k = 0x98 then h.onFn f fun x => { x with dbg := { x.dbg with tren := v.extractLsb' 0 4 } }
  else if f = 0 ∧ k = 0x100 then { h with trace := { h.trace with ctl := v.extractLsb' 0 4 } }
  else h

def Hw.writeMailbox (h : Hw) (f k : Nat) (w : RegWrite) : Hw :=
  if k = 0 then (if w.lo && w.low.getLsbD 0 then h.attestRequest f else h)
  else h.onFn f fun x =>
    let a := x.attest
    { x with attest :=
      if k = 0x008 then { a with addr := w.merge a.addr }
      else if 0x40 ≤ k ∧ k < 0x60 then { a with nonce := merge64 w a.nonce ((k - 0x40) / 8) }
      else if k = 0x80 then { a with cert := w.merge a.cert }
      else a }

def Hw.writeFab (h : Hw) (f k : Nat) (w : RegWrite) : Hw :=
  let now := h.readFab f 0
  h.onFn f fun x =>
    let v := x.fab
    { x with fab :=
      if k = 0x00 then
        let y := w.merge now
        { v with
          en := y.getLsbD 0, plen := (y.extractLsb' 8 8).toNat, ops := y.extractLsb' 16 8
          queue := (y.extractLsb' 24 4).toNat }
      else if k = 0x10 ∨ k = 0x18 then { v with src := merge64 w v.src ((k - 0x10) / 8) }
      else if 0x20 ≤ k ∧ k < 0x40 then { v with key := merge64 w v.key ((k - 0x20) / 8) }
      else v }

def Hw.writeBind (h : Hw) (e : Env) (f k : Nat) (w : RegWrite) : Hw :=
  if k = 0x00 then
    let h := if w.lo then h.vbWord e f w.low else h
    if w.hi then h.onFn f fun x => { x with bind := { x.bind with quota := w.high.toNat % 65536 } } else h
  else if k = 0x08 then h.vbWindow e f false (w.merge (h.fn f).bind.winlo)
  else if k = 0x10 then h.vbWindow e f true (w.merge (h.fn f).bind.winhi)
  else h

def Hw.writeRoot (h : Hw) (ctx k : Nat) (w : RegWrite) : Hw :=
  let (v, m) := match Tab.find? h.roots ctx with
    | some x => x
    | none => (0#64, false)
  if k = 0 then h.trRoot ctx (w.merge v)
  else if w.lo then { h with roots := Tab.put h.roots ctx (v, w.low.getLsbD 0) }
  else { h with roots := Tab.put h.roots ctx (v, m) }

/-- PCTL is written: EN is staged, then COMMIT, QUIESCE and RESUME take effect (Table 3.1). -/
def Hw.writePctl (h : Hw) (e : Env) (p : Nat) (v : Word) : Hw :=
  let h := h.onPart p fun q => { q with en := v.getLsbD 0 }
  let h := if v.getLsbD 1 then h.commit e p else h
  let h := if v.getLsbD 2 then h.quiesce p else h
  if v.getLsbD 3 then h.resume p else h

def Hw.writePart (h : Hw) (e : Env) (p k : Nat) (w : RegWrite) : Hw :=
  let now := h.readPart p k
  let y := w.merge now
  if k = 0x00 then (if w.lo then h.writePctl e p w.low else h)
  else if k = 0xB0 then (if w.lo && w.low.getLsbD 0 then h.breakAll e p else h)
  else h.onPart p fun q =>
    let s := q.staged
    if k = 0x08 then { q with staged := { s with rings := y.setWidth 20 } }
    else if k = 0x10 then { q with staged := { s with eng := y.setWidth 40 } }
    else if 0x20 ≤ k ∧ k < 0x30 then
      { q with staged := { s with slices := (merge64 w (s.slices.setWidth 128) ((k - 0x20) / 8)).setWidth 96 } }
    else if 0x40 ≤ k ∧ k < 0x70 then { q with staged := { s with chans := merge64 w s.chans ((k - 0x40) / 8) } }
    else if k = 0x80 then { q with pmtbase := y &&& 0xFFFFFFFFFFFFF000#64 }
    else if k = 0x88 then { q with pmtcnt := (y.extractLsb' 0 13).toNat }
    else if k = 0x90 then { q with pcvbase := y &&& 0xFFFFFFFFFFFFF000#64 }
    else if k = 0x98 then { q with pcvcnt := (y.extractLsb' 0 9).toNat }
    else if k = 0xA8 then { q with phvec := y &&& 0xFFFFFFFFFFFFFFFC#64 }
    else if k = 0xC0 then { q with pmobase := y &&& 0xFFFFFFFFFFFF0000#64 }
    else if k = 0xC8 then { q with pmosize := (y.extractLsb' 0 6).toNat }
    else q

def Hw.writeRace (h : Hw) (f k : Nat) (w : RegWrite) : Hw :=
  h.onFn f fun x =>
    let r := x.race
    { x with race :=
      if k = 0x00 then { r with frbase := w.merge r.frbase &&& 0xFFFFFFFFFC000000#64 }
      else if k = 0x08 then { r with rrbase := w.merge r.rrbase &&& 0xFFFFFFFFFFFFE000#64 }
      else if k = 0x10 then
        { r with rrcnt := if w.lo then w.low.toNat % 65536 else r.rrcnt, pcrec := if w.hi then w.high.getLsbD 0 else r.pcrec }
      else r }

/-- A write to an aligned unit of BAR 0, under its access codes; a write to a read-only field is ignored (R5, R6, R35). -/
def Hw.writeReg (h : Hw) (e : Env) (f : Nat) (r : Reg) (w : RegWrite) : Hw :=
  match r with
  | .function k =>
    if k = 0x010 then (if w.lo && w.low.getLsbD 0 then h.abortPending e f fun _ => true else h)
    else if k = 0x028 then h.onFn f fun x => { x with b2va := w.merge x.b2va >>> x.b2sz <<< x.b2sz }
    else h
  | .intr k =>
    if !w.lo then h
    else if k = 0 then h.onFn f fun x => { x with intstat := x.intstat &&& ~~~(w.low.setWidth 8) }
    else if k = 8 then h.onFn f fun x => { x with inten := w.low.setWidth 8 }
    else h
  | .queue q k => h.writeQueue e f q k w
  | .journal _ => h
  | .wake k => h.writeWake e f k w
  | .debug k => h.writeDebug e f k w
  | .mailbox k => h.writeMailbox f k w
  | .fab g k => h.writeFab g k w
  | .pfBind => if w.lo then h.pfBind e w.low else h
  | .bind g k => h.writeBind e g k w
  | .root c k => h.writeRoot c k w
  | .part p k => h.writePart e p k w
  | .race g k => h.writeRace g k w
  | .rsv => h

/-! ## Accesses of the host -/

/-- May an access of a size at an offset of a function's BAR 0 be made (R33, R35)? -/
def Hw.regOk (h : Hw) (f off size : Nat) : Bool :=
  h.exists_ f && (size == 4 || size == 8) && off % size == 0 && decide (off < 2 ^ 22) && h.offers (regAt f (off / 8 * 8))

/-- The bits of its unit of eight bytes that an access covers. -/
def regMask (off size : Nat) : DWord := if size = 8 then 0xFFFFFFFFFFFFFFFF#64 else 0xFFFFFFFF#64 <<< (8 * (off % 8))

/-- The host sets the size of a function's BAR 2 through its Resizable BAR capability, 1 MiB to 512 GiB (R33); the address that B2VA
holds keeps that alignment (Table 2.2). -/
def Hw.resizeBar (h : Hw) (f n : Nat) : Hw :=
  if h.exists_ f && decide (20 ≤ n) && decide (n ≤ 39) then h.onFn f fun x => { x with b2sz := n, b2va := x.b2va >>> n <<< n } else h

/-- REGISTER_WRITE: the host writes `aux` bytes of `val` at offset `id` of function `unit`'s BAR 0; with `flag`, it writes `val` as
the size in the function's Resizable BAR capability (log 17). -/
def registerWrite (e : Env) (h : Hw) : Hw :=
  let o := h.occ
  if o.flag then (h.resizeBar o.unit o.val.toNat).moved
  else if h.regOk o.unit o.id o.aux then
    (h.writeReg e o.unit (regAt o.unit (o.id / 8 * 8))
      ⟨o.val.setWidth 64 <<< (8 * (o.id % 8)), regMask o.id o.aux⟩).moved
  else h.send .unsupported
/-- REGISTER_WRITE (R5, R6, R35). -/
def execRegisterWrite (s : State) : Host.Outcome State Fault Refusal := s.event registerWrite

/-- REGISTER_READ_CLEAR: the host reads `aux` bytes at offset `id` of function `unit`'s BAR 0; what is RC among them is cleared in
the same step. -/
def registerRead (h : Hw) : Hw :=
  let o := h.occ
  if h.regOk o.unit o.id o.aux then
    let r := regAt o.unit (o.id / 8 * 8)
    let v := h.readReg o.unit r >>> (8 * (o.id % 8))
    (h.clearReg o.unit r (regMask o.id o.aux)).send (.data (natLe o.aux v.toNat))
  else h.send .unsupported
/-- REGISTER_READ_CLEAR (R5, R35). -/
def execRegisterReadClear (s : State) : Host.Outcome State Fault Refusal := s.event fun _ h => registerRead h

end Sys2Proof.Machine
end

