-- ==== Sys2Proof/Machine/Dispatch.lean ====
section
/-! DEFINITION. Sys2Proof/Machine/Dispatch.lean: one arm per row of the opcode table, each a call of its meaning. -/
namespace Sys2Proof.Machine

def exec (i : Instr) (s : State) : Host.Outcome State Fault Refusal :=
  match i with
  | .add im d a b x y => Sys2Proof.Machine.execAdd im d a b x y s
  | .sub im d a b x y => Sys2Proof.Machine.execSub im d a b x y s
  | .min im d a b x y => Sys2Proof.Machine.execMin im d a b x y s
  | .max im d a b x y => Sys2Proof.Machine.execMax im d a b x y s
  | .minu im d a b x y => Sys2Proof.Machine.execMinu im d a b x y s
  | .maxu im d a b x y => Sys2Proof.Machine.execMaxu im d a b x y s
  | .absd im d a b x y => Sys2Proof.Machine.execAbsd im d a b x y s
  | .addsat im d a b x y => Sys2Proof.Machine.execAddsat im d a b x y s
  | .mul im d a b x y => Sys2Proof.Machine.execMul im d a b x y s
  | .mulh im d a b x y => Sys2Proof.Machine.execMulh im d a b x y s
  | .mulhu im d a b x y => Sys2Proof.Machine.execMulhu im d a b x y s
  | .mad im d a b x y => Sys2Proof.Machine.execMad im d a b x y s
  | .and im d a b x y => Sys2Proof.Machine.execAnd im d a b x y s
  | .or im d a b x y => Sys2Proof.Machine.execOr im d a b x y s
  | .xor im d a b x y => Sys2Proof.Machine.execXor im d a b x y s
  | .andn im d a b x y => Sys2Proof.Machine.execAndn im d a b x y s
  | .shl im d a b x y => Sys2Proof.Machine.execShl im d a b x y s
  | .shr im d a b x y => Sys2Proof.Machine.execShr im d a b x y s
  | .sha im d a b x y => Sys2Proof.Machine.execSha im d a b x y s
  | .rot im d a b x y => Sys2Proof.Machine.execRot im d a b x y s
  | .div im d a b x y => Sys2Proof.Machine.execDiv im d a b x y s
  | .divu im d a b x y => Sys2Proof.Machine.execDivu im d a b x y s
  | .rem im d a b x y => Sys2Proof.Machine.execRem im d a b x y s
  | .remu im d a b x y => Sys2Proof.Machine.execRemu im d a b x y s
  | .clz im d a x => Sys2Proof.Machine.execClz im d a x s
  | .popc im d a x => Sys2Proof.Machine.execPopc im d a x s
  | .brev im d a x => Sys2Proof.Machine.execBrev im d a x s
  | .ffs im d a x => Sys2Proof.Machine.execFfs im d a x s
  | .bfx im d a b x y => Sys2Proof.Machine.execBfx im d a b x y s
  | .bfxz im d a b x y => Sys2Proof.Machine.execBfxz im d a b x y s
  | .bfi im d a b x y => Sys2Proof.Machine.execBfi im d a b x y s
  | .permb im d a b x y => Sys2Proof.Machine.execPermb im d a b x y s
  | .addi d a x k => Sys2Proof.Machine.execAddi d a x k s
  | .muli d a x k => Sys2Proof.Machine.execMuli d a x k s
  | .andi d a x k => Sys2Proof.Machine.execAndi d a x k s
  | .ori d a x k => Sys2Proof.Machine.execOri d a x k s
  | .xori d a x k => Sys2Proof.Machine.execXori d a x k s
  | .shi d a x h n => Sys2Proof.Machine.execShi d a x h n s
  | .cmpi c p a x k => Sys2Proof.Machine.execCmpi c p a x k s
  | .lui d k => Sys2Proof.Machine.execLui d k s
  | .cmp im c p a b x y => Sys2Proof.Machine.execCmp im c p a b x y s
  | .fcmp im c p a b x y => Sys2Proof.Machine.execFcmp im c p a b x y s
  | .dcmp im c p a b x y => Sys2Proof.Machine.execDcmp im c p a b x y s
  | .fclass im p a m x => Sys2Proof.Machine.execFclass im p a m x s
  | .sel im d a b x y c => Sys2Proof.Machine.execSel im d a b x y c s
  | .pand p q r => Sys2Proof.Machine.execPand p q r s
  | .por p q r => Sys2Proof.Machine.execPor p q r s
  | .pxor p q r => Sys2Proof.Machine.execPxor p q r s
  | .pandn p q r => Sys2Proof.Machine.execPandn p q r s
  | .ptov d p => Sys2Proof.Machine.execPtov d p s
  | .vtop im p a x => Sys2Proof.Machine.execVtop im p a x s
  | .voteAny p q => Sys2Proof.Machine.execVoteAny p q s
  | .voteAll p q => Sys2Proof.Machine.execVoteAll p q s
  | .mov im d a x => Sys2Proof.Machine.execMov im d a x s
  | .movx d a x => Sys2Proof.Machine.execMovx d a x s
  | .ballot d p b y => Sys2Proof.Machine.execBallot d p b y s
  | .nlanes d => Sys2Proof.Machine.execNlanes d s
  | .shflIdx im d a b x y => Sys2Proof.Machine.execShflIdx im d a b x y s
  | .shflUp im d a b x y => Sys2Proof.Machine.execShflUp im d a b x y s
  | .shflDn im d a b x y => Sys2Proof.Machine.execShflDn im d a b x y s
  | .shflXor im d a b x y => Sys2Proof.Machine.execShflXor im d a b x y s
  | .elect p => Sys2Proof.Machine.execElect p s
  | .firstl d => Sys2Proof.Machine.execFirstl d s
  | .pack => Sys2Proof.Machine.execPack s
  | .rdlane im d a b x y => Sys2Proof.Machine.execRdlane im d a b x y s
  | .bcast im d a b x y => Sys2Proof.Machine.execBcast im d a b x y s
  | .wrlane im d a b x y => Sys2Proof.Machine.execWrlane im d a b x y s
  | .rdxAdd im d a x => Sys2Proof.Machine.execRdxAdd im d a x s
  | .rdxMax im d a x => Sys2Proof.Machine.execRdxMax im d a x s
  | .rdxMin im d a x => Sys2Proof.Machine.execRdxMin im d a x s
  | .rdxOr im d a x => Sys2Proof.Machine.execRdxOr im d a x s
  | .rdxAnd im d a x => Sys2Proof.Machine.execRdxAnd im d a x s
  | .rdxFadd im d a x => Sys2Proof.Machine.execRdxFadd im d a x s
  | .fadd im d a b x y => Sys2Proof.Machine.execFadd im d a b x y s
  | .fsub im d a b x y => Sys2Proof.Machine.execFsub im d a b x y s
  | .fmul im d a b x y => Sys2Proof.Machine.execFmul im d a b x y s
  | .ffma im d a b x y => Sys2Proof.Machine.execFfma im d a b x y s
  | .fmin im d a b x y => Sys2Proof.Machine.execFmin im d a b x y s
  | .fmax im d a b x y => Sys2Proof.Machine.execFmax im d a b x y s
  | .fcpys im d a b x y => Sys2Proof.Machine.execFcpys im d a b x y s
  | .fscale im d a b x y => Sys2Proof.Machine.execFscale im d a b x y s
  | .fdiv im d a b x y => Sys2Proof.Machine.execFdiv im d a b x y s
  | .fsqrt im d a x => Sys2Proof.Machine.execFsqrt im d a x s
  | .frcp im d a x => Sys2Proof.Machine.execFrcp im d a x s
  | .frsq im d a x => Sys2Proof.Machine.execFrsq im d a x s
  | .fexp2 im d a x => Sys2Proof.Machine.execFexp2 im d a x s
  | .flog2 im d a x => Sys2Proof.Machine.execFlog2 im d a x s
  | .fsin im d a x => Sys2Proof.Machine.execFsin im d a x s
  | .fcos im d a x => Sys2Proof.Machine.execFcos im d a x s
  | .badd2 im d a b x y => Sys2Proof.Machine.execBadd2 im d a b x y s
  | .bmul2 im d a b x y => Sys2Proof.Machine.execBmul2 im d a b x y s
  | .bfma2 im d a b x y => Sys2Proof.Machine.execBfma2 im d a b x y s
  | .bmax2 im d a b x y => Sys2Proof.Machine.execBmax2 im d a b x y s
  | .hadd2 im d a b x y => Sys2Proof.Machine.execHadd2 im d a b x y s
  | .hmul2 im d a b x y => Sys2Proof.Machine.execHmul2 im d a b x y s
  | .hfma2 im d a b x y => Sys2Proof.Machine.execHfma2 im d a b x y s
  | .hmax2 im d a b x y => Sys2Proof.Machine.execHmax2 im d a b x y s
  | .dadd im d a b x y => Sys2Proof.Machine.execDadd im d a b x y s
  | .dmul im d a b x y => Sys2Proof.Machine.execDmul im d a b x y s
  | .dfma im d a b x y => Sys2Proof.Machine.execDfma im d a b x y s
  | .ddiv im d a b x y => Sys2Proof.Machine.execDdiv im d a b x y s
  | .cvtFI im d a x => Sys2Proof.Machine.execCvtFI im d a x s
  | .cvtFZ im d a x => Sys2Proof.Machine.execCvtFZ im d a x s
  | .cvtIF im d a x => Sys2Proof.Machine.execCvtIF im d a x s
  | .cvtZF im d a x => Sys2Proof.Machine.execCvtZF im d a x s
  | .cvtBfF im d a x => Sys2Proof.Machine.execCvtBfF im d a x s
  | .cvtHF im d a x => Sys2Proof.Machine.execCvtHF im d a x s
  | .cvtFBf im d a x => Sys2Proof.Machine.execCvtFBf im d a x s
  | .cvtFH im d a x => Sys2Proof.Machine.execCvtFH im d a x s
  | .cvtDF im d a x => Sys2Proof.Machine.execCvtDF im d a x s
  | .cvtFD im d a x => Sys2Proof.Machine.execCvtFD im d a x s
  | .cvtI8F im d a x => Sys2Proof.Machine.execCvtI8F im d a x s
  | .frnd im d a x => Sys2Proof.Machine.execFrnd im d a x s
  | .niq im d a b x y => Sys2Proof.Machine.execNiq im d a b x y s
  | .nidq im d a b x y => Sys2Proof.Machine.execNidq im d a b x y s
  | .sexp im d a m x => Sys2Proof.Machine.execSexp im d a m x s
  | .nipl im d a b x y => Sys2Proof.Machine.execNipl im d a b x y s
  | .ld t a l z o => Sys2Proof.Machine.execLd t a l z o s
  | .st t a l z o => Sys2Proof.Machine.execSt t a l z o s
  | .ldxW im d a b x y => Sys2Proof.Machine.execLdxW im d a b x y s
  | .ldxD im d a b x y => Sys2Proof.Machine.execLdxD im d a b x y s
  | .stxW im d a b x y => Sys2Proof.Machine.execStxW im d a b x y s
  | .stxD im d a b x y => Sys2Proof.Machine.execStxD im d a b x y s
  | .atomAdd sc d a b => Sys2Proof.Machine.execAtomAdd sc d a b s
  | .atomMin sc d a b => Sys2Proof.Machine.execAtomMin sc d a b s
  | .atomMax sc d a b => Sys2Proof.Machine.execAtomMax sc d a b s
  | .atomAnd sc d a b => Sys2Proof.Machine.execAtomAnd sc d a b s
  | .atomOr sc d a b => Sys2Proof.Machine.execAtomOr sc d a b s
  | .atomXor sc d a b => Sys2Proof.Machine.execAtomXor sc d a b s
  | .atomMinu sc d a b => Sys2Proof.Machine.execAtomMinu sc d a b s
  | .atomMaxu sc d a b => Sys2Proof.Machine.execAtomMaxu sc d a b s
  | .xchg sc d a b => Sys2Proof.Machine.execXchg sc d a b s
  | .cas sc d a b => Sys2Proof.Machine.execCas sc d a b s
  | .xchgD sc d a b => Sys2Proof.Machine.execXchgD sc d a b s
  | .casD sc d a b => Sys2Proof.Machine.execCasD sc d a b s
  | .redAdd sc a b => Sys2Proof.Machine.execRedAdd sc a b s
  | .redMin sc a b => Sys2Proof.Machine.execRedMin sc a b s
  | .redMax sc a b => Sys2Proof.Machine.execRedMax sc a b s
  | .redOr sc a b => Sys2Proof.Machine.execRedOr sc a b s
  | .atomFadd sc d a b => Sys2Proof.Machine.execAtomFadd sc d a b s
  | .redFadd sc a b => Sys2Proof.Machine.execRedFadd sc a b s
  | .redBfadd2 sc a b => Sys2Proof.Machine.execRedBfadd2 sc a b s
  | .atomAddD sc d a b => Sys2Proof.Machine.execAtomAddD sc d a b s
  | .bararr im d a x => Sys2Proof.Machine.execBararr im d a x s
  | .barwait im a b x y => Sys2Proof.Machine.execBarwait im a b x y s
  | .barsync im a x => Sys2Proof.Machine.execBarsync im a x s
  | .barexp im d a b x y => Sys2Proof.Machine.execBarexp im d a b x y s
  | .barinit im a b x y => Sys2Proof.Machine.execBarinit im a b x y s
  | .barinv im a x => Sys2Proof.Machine.execBarinv im a x s
  | .barqry im d a x => Sys2Proof.Machine.execBarqry im d a x s
  | .bartry im p a b x y => Sys2Proof.Machine.execBartry im p a b x y s
  | .fenceAcq sc => Sys2Proof.Machine.execFenceAcq sc s
  | .fenceRel sc => Sys2Proof.Machine.execFenceRel sc s
  | .fenceAr sc => Sys2Proof.Machine.execFenceAr sc s
  | .fenceSc sc => Sys2Proof.Machine.execFenceSc sc s
  | .mon sc a => Sys2Proof.Machine.execMon sc a s
  | .mwait d => Sys2Proof.Machine.execMwait d s
  | .swait sc d a b => Sys2Proof.Machine.execSwait sc d a b s
  | .twait im a x => Sys2Proof.Machine.execTwait im a x s
  | .cbatch d => Sys2Proof.Machine.execCbatch d s
  | .cwait im a x => Sys2Proof.Machine.execCwait im a x s
  | .cpoll im p a x => Sys2Proof.Machine.execCpoll im p a x s
  | .cstamp d => Sys2Proof.Machine.execCstamp d s
  | .bra k => Sys2Proof.Machine.execBra k s
  | .brp u n p k => Sys2Proof.Machine.execBrp u n p k s
  | .call a k => Sys2Proof.Machine.execCall a k s
  | .jpt k => Sys2Proof.Machine.execJpt k s
  | .join => Sys2Proof.Machine.execJoin s
  | .brkj a n x => Sys2Proof.Machine.execBrkj a n x s
  | .exit => Sys2Proof.Machine.execExit s
  | .jmpr a x => Sys2Proof.Machine.execJmpr a x s
  | .mma d a b => Sys2Proof.Machine.execMma d a b s
  | .mmaP d a b => Sys2Proof.Machine.execMmaP d a b s
  | .mmaZ d a b => Sys2Proof.Machine.execMmaZ d a b s
  | .mmaPz d a b => Sys2Proof.Machine.execMmaPz d a b s
  | .drain d a => Sys2Proof.Machine.execDrain d a s
  | .mzero d => Sys2Proof.Machine.execMzero d s
  | .mload d a => Sys2Proof.Machine.execMload d a s
  | .mwaita => Sys2Proof.Machine.execMwaita s
  | .copy d a b => Sys2Proof.Machine.execCopy d a b s
  | .copyo d a b => Sys2Proof.Machine.execCopyo d a b s
  | .copyAt d a b => Sys2Proof.Machine.execCopyAt d a b s
  | .gather d a b => Sys2Proof.Machine.execGather d a b s
  | .send d a => Sys2Proof.Machine.execSend d a s
  | .sendAt d a => Sys2Proof.Machine.execSendAt d a s
  | .rred d a => Sys2Proof.Machine.execRred d a s
  | .rbcast d a => Sys2Proof.Machine.execRbcast d a s
  | .tagrd d a x => Sys2Proof.Machine.execTagrd d a x s
  | .tagwr a b x y => Sys2Proof.Machine.execTagwr a b x y s
  | .tagchk a b x y => Sys2Proof.Machine.execTagchk a b x y s
  | .mdisp d a x => Sys2Proof.Machine.execMdisp d a x s
  | .task a b => Sys2Proof.Machine.execTask a b s
  | .tready a => Sys2Proof.Machine.execTready a s
  | .resid im a x => Sys2Proof.Machine.execResid im a x s
  | .gchk p => Sys2Proof.Machine.execGchk p s
  | .enter h m l => Sys2Proof.Machine.execEnter h m l s
  | .leave => Sys2Proof.Machine.execLeave s
  | .bkpt => Sys2Proof.Machine.execBkpt s
  | .trace im a b x y => Sys2Proof.Machine.execTrace im a b x y s
  | .trap n => Sys2Proof.Machine.execTrap n s
  | .srd d n => Sys2Proof.Machine.execSrd d n s
  | .swr n b y => Sys2Proof.Machine.execSwr n b y s
  | .win w u => Sys2Proof.Machine.execWin w u s
  | .rdctr im d a x => Sys2Proof.Machine.execRdctr im d a x s
  | .ctrctl im a b x y => Sys2Proof.Machine.execCtrctl im a b x y s
  | .tick d => Sys2Proof.Machine.execTick d s
  | .yield => Sys2Proof.Machine.execYield s
  | .eret => Sys2Proof.Machine.execEret s
  | .imask d a => Sys2Proof.Machine.execImask d a s
  | .tlbir a => Sys2Proof.Machine.execTlbir a s
  | .tlbia a => Sys2Proof.Machine.execTlbia a s
  | .shoot a => Sys2Proof.Machine.execShoot a s
  | .l1wb a => Sys2Proof.Machine.execL1wb a s
  | .l1inv a => Sys2Proof.Machine.execL1inv a s
  | .l2cln a => Sys2Proof.Machine.execL2cln a s
  | .haltb d a => Sys2Proof.Machine.execHaltb d a s
  | .ctxsv a => Sys2Proof.Machine.execCtxsv a s
  | .ctxld a => Sys2Proof.Machine.execCtxld a s
  | .dumpw a => Sys2Proof.Machine.execDumpw a s
  | .racew => Sys2Proof.Machine.execRacew s
  | .setmt d a => Sys2Proof.Machine.execSetmt d a s
  | .packageReset => Sys2Proof.Machine.execPackageReset s
  | .timedActionFire => Sys2Proof.Machine.execTimedActionFire s
  | .ucieRetrain => Sys2Proof.Machine.execUcieRetrain s
  | .packageFatalEvent => Sys2Proof.Machine.execPackageFatalEvent s
  | .patrolScrub => Sys2Proof.Machine.execPatrolScrub s
  | .thermalTrip => Sys2Proof.Machine.execThermalTrip s
  | .hbmHotRefresh => Sys2Proof.Machine.execHbmHotRefresh s
  | .throttleStepDown => Sys2Proof.Machine.execThrottleStepDown s
  | .throttleStepUp => Sys2Proof.Machine.execThrottleStepUp s
  | .creditLapse => Sys2Proof.Machine.execCreditLapse s
  | .fabricLaunch => Sys2Proof.Machine.execFabricLaunch s
  | .bar2Read => Sys2Proof.Machine.execBar2Read s
  | .bar2Write => Sys2Proof.Machine.execBar2Write s
  | .hostAtomicop => Sys2Proof.Machine.execHostAtomicop s
  | .heldAccessTimeout => Sys2Proof.Machine.execHeldAccessTimeout s
  | .registerWrite => Sys2Proof.Machine.execRegisterWrite s
  | .fctlAbort => Sys2Proof.Machine.execFctlAbort s
  | .sqEnable => Sys2Proof.Machine.execSqEnable s
  | .sqDoorbell => Sys2Proof.Machine.execSqDoorbell s
  | .sqGeometryWrite => Sys2Proof.Machine.execSqGeometryWrite s
  | .sqReset => Sys2Proof.Machine.execSqReset s
  | .commandFetch => Sys2Proof.Machine.execCommandFetch s
  | .fetchTimeout => Sys2Proof.Machine.execFetchTimeout s
  | .nop => Sys2Proof.Machine.execNop s
  | .launchCommand => Sys2Proof.Machine.execLaunchCommand s
  | .taskCommand => Sys2Proof.Machine.execTaskCommand s
  | .gslaunchCommand => Sys2Proof.Machine.execGslaunchCommand s
  | .queueCopy => Sys2Proof.Machine.execQueueCopy s
  | .writeval => Sys2Proof.Machine.execWriteval s
  | .waitval => Sys2Proof.Machine.execWaitval s
  | .waitvalTimeout => Sys2Proof.Machine.execWaitvalTimeout s
  | .intr => Sys2Proof.Machine.execIntr s
  | .functionLevelReset => Sys2Proof.Machine.execFunctionLevelReset s
  | .attestRequest => Sys2Proof.Machine.execAttestRequest s
  | .attestDone => Sys2Proof.Machine.execAttestDone s
  | .pctlCommit => Sys2Proof.Machine.execPctlCommit s
  | .pctlQuiesce => Sys2Proof.Machine.execPctlQuiesce s
  | .quiesceComplete => Sys2Proof.Machine.execQuiesceComplete s
  | .pctlResume => Sys2Proof.Machine.execPctlResume s
  | .pclkBreak => Sys2Proof.Machine.execPclkBreak s
  | .vbBind => Sys2Proof.Machine.execVbBind s
  | .vbUnbind => Sys2Proof.Machine.execVbUnbind s
  | .vbFieldWrite => Sys2Proof.Machine.execVbFieldWrite s
  | .vbWindowWrite => Sys2Proof.Machine.execVbWindowWrite s
  | .pfbindEn => Sys2Proof.Machine.execPfbindEn s
  | .trRootWrite => Sys2Proof.Machine.execTrRootWrite s
  | .sliceEnd => Sys2Proof.Machine.execSliceEnd s
  | .haltComplete => Sys2Proof.Machine.execHaltComplete s
  | .worldSwitchRestore => Sys2Proof.Machine.execWorldSwitchRestore s
  | .loadReturn => Sys2Proof.Machine.execLoadReturn s
  | .idleCollapse => Sys2Proof.Machine.execIdleCollapse s
  | .colctlNow => Sys2Proof.Machine.execColctlNow s
  | .wakeGo => Sys2Proof.Machine.execWakeGo s
  | .wakeComplete => Sys2Proof.Machine.execWakeComplete s
  | .blockPlacement => Sys2Proof.Machine.execBlockPlacement s
  | .placementWaitLimit => Sys2Proof.Machine.execPlacementWaitLimit s
  | .resourceReport => Sys2Proof.Machine.execResourceReport s
  | .blockFree => Sys2Proof.Machine.execBlockFree s
  | .pathPromotion => Sys2Proof.Machine.execPathPromotion s
  | .watchdogExpiry => Sys2Proof.Machine.execWatchdogExpiry s
  | .dependencyTaskIssue => Sys2Proof.Machine.execDependencyTaskIssue s
  | .handlerTaskEntry => Sys2Proof.Machine.execHandlerTaskEntry s
  | .writeBackMerge => Sys2Proof.Machine.execWriteBackMerge s
  | .retrieverElement => Sys2Proof.Machine.execRetrieverElement s
  | .monitorTimeout => Sys2Proof.Machine.execMonitorTimeout s
  | .migrationStart => Sys2Proof.Machine.execMigrationStart s
  | .migrationSwitch => Sys2Proof.Machine.execMigrationSwitch s
  | .migrationEnd => Sys2Proof.Machine.execMigrationEnd s
  | .accessCountHalving => Sys2Proof.Machine.execAccessCountHalving s
  | .shootComplete => Sys2Proof.Machine.execShootComplete s
  | .rebaseComplete => Sys2Proof.Machine.execRebaseComplete s
  | .arrayMma => Sys2Proof.Machine.execArrayMma s
  | .arrayDrain => Sys2Proof.Machine.execArrayDrain s
  | .arrayMzero => Sys2Proof.Machine.execArrayMzero s
  | .arrayMload => Sys2Proof.Machine.execArrayMload s
  | .matrixRetire => Sys2Proof.Machine.execMatrixRetire s
  | .engineCopy => Sys2Proof.Machine.execEngineCopy s
  | .engineCopyo => Sys2Proof.Machine.execEngineCopyo s
  | .engineGather => Sys2Proof.Machine.execEngineGather s
  | .byteCredit => Sys2Proof.Machine.execByteCredit s
  | .copyCommandEnd => Sys2Proof.Machine.execCopyCommandEnd s
  | .engineSend => Sys2Proof.Machine.execEngineSend s
  | .engineRred => Sys2Proof.Machine.execEngineRred s
  | .engineRbcast => Sys2Proof.Machine.execEngineRbcast s
  | .packetHop => Sys2Proof.Machine.execPacketHop s
  | .packetEject => Sys2Proof.Machine.execPacketEject s
  | .ringCommandEnd => Sys2Proof.Machine.execRingCommandEnd s
  | .unitCommit => Sys2Proof.Machine.execUnitCommit s
  | .exactKernelEnd => Sys2Proof.Machine.execExactKernelEnd s
  | .routineEnd => Sys2Proof.Machine.execRoutineEnd s
  | .dbgctlStopreq => Sys2Proof.Machine.execDbgctlStopreq s
  | .dbgctlStopall => Sys2Proof.Machine.execDbgctlStopall s
  | .clkctlLock => Sys2Proof.Machine.execClkctlLock s
  | .counterSelect => Sys2Proof.Machine.execCounterSelect s
  | .counterHold => Sys2Proof.Machine.execCounterHold s
  | .pcSample => Sys2Proof.Machine.execPcSample s
  | .traceForward => Sys2Proof.Machine.execTraceForward s
  | .registerReadClear => Sys2Proof.Machine.execRegisterReadClear s
  | .hostSnoop => Sys2Proof.Machine.execHostSnoop s
  | .fabricFrameReceive => Sys2Proof.Machine.execFabricFrameReceive s
  | .fabricLinkUp => Sys2Proof.Machine.execFabricLinkUp s
  | .hostLinkTrain => Sys2Proof.Machine.execHostLinkTrain s
  | .iterativePassResult => Sys2Proof.Machine.execIterativePassResult s
  | .yieldEnd => Sys2Proof.Machine.execYieldEnd s

end Sys2Proof.Machine
end

