-- ==== Sys2Proof/Machine/Due.lean ====
section
/-! DEFINITION. Sys2Proof/Machine/Due.lean: what the passing of time does: gated cycles and credits (R74, R75), cycle
counters (Table 11.7), waiting counts (R138), stamps (R28), and the steps that fall due. -/
namespace Sys2Proof.Machine

/-! ## Cycles that pass -/

/-- Gated cycles among the `n` cycles after cycle `c` on a ring at throttle step `k`: the first k of each eight (R74). -/
def gatedIn (c n k : Nat) : Nat :=
  n / 8 * k + ((List.range (n % 8)).filter fun j => decide ((c + 1 + j) % 8 < k)).length

/-- What cycles pass: from cycle `c`, `n` of them. -/
structure Span where
  c : Nat
  n : Nat
  deriving DecidableEq, Repr

def Hw.gated (h : Hw) (t : Span) (core : Nat) : Nat := gatedIn t.c t.n (h.ring (ringOf core)).step

/-- A running function with a resident block on a throttled ring earns its gated cycles (R75). -/
def Hw.earn (h : Hw) (e : Env) (t : Span) : Hw :=
  h.parts.foldl (fun h x =>
    match x.2.running with
    | none => h
    | some f =>
      x.2.rings.foldl (fun h r =>
        let g := gatedIn t.c t.n (h.ring r).step
        if g = 0 ∨ !(h.blocks.any fun b => bkFn b.1 == f && ringOf b.2.core == r) then h
        else h.onFn f fun y => { y with wake :=
          { y.wake with credit := y.wake.credit + g, earned := y.wake.earned ++ [(e.clk.tick, g)] } }) h) h

/-- Counts of cycles that gated cycles do not enter: the watchdog's, a yield's, a monitor's (R74). -/
def Path.delay (g : Nat) (p : Path) : Path :=
  { p with yieldTo := p.yieldTo.map (· + g), mon := p.mon.map fun m => { m with since := m.since + g } }
def Warp.delay (g : Nat) (w : Warp) : Warp :=
  { w with
    progressAt := w.progressAt + g, p0 := w.p0.delay g, p1 := w.p1.delay g
    frame := w.frame.map fun f => { f with p0 := f.p0.delay g, p1 := f.p1.delay g } }

/-- A ready path that has not issued has waited `n` cycles more (R138). -/
def Warp.waited (w : Warp) (x : Bool) (n : Nat) : Warp := w.setPath x { (w.path x) with ready := (w.path x).ready + n }

/-- Core of a warp's block. -/
def Hw.coreOf (h : Hw) (wk : Nat) : Nat := ((h.block? (wkBlock wk)).map (·.core)).getD 0

/-- The cycles as a warp counts them: a halted warp's watchdog does not count (R157). -/
def Hw.tickWarp (h : Hw) (e : Env) (t : Span) (wk : Nat) (w : Warp) : Warp :=
  let g := h.gated t (h.coreOf wk)
  let ready := (h.candsOf e wk w).filter fun c => h.cur != some ⟨wk, c.path⟩
  let w := ready.foldl (fun w c => w.waited c.path (t.n - g)) w
  if w.stopped ∨ h.runs (wkFn wk) = false then { w with progressAt := w.progressAt + t.n }
  else if g = 0 then w else w.delay g

/-- Events 0x01 and 0x03 of the cores on which a running function has blocks (R281, Table 11.7): a ready path's gated cycles have
reason 20. -/
def Hw.cycleCounts (h : Hw) (e : Env) (t : Span) (f : Nat) : Hw :=
  if (h.fn f).ctrs.isEmpty then h
  else
    let cores := ((h.blocks.filter fun b => bkFn b.1 == f).map fun (b : Nat × Block) => b.2.core).eraseDups
    let h := cores.foldl (fun h c => h.count f 0 c 0x01 0 (t.n - h.gated t c)) h
    (h.warps.filter fun w => wkFn w.1 == f && !w.2.done).foldl (fun h w =>
      let c := h.coreOf w.1
      let paths := [false, true].filter fun x => (w.2.path x).live && h.cur != some ⟨w.1, x⟩
      let rs := (paths.map fun x => h.stallOf e w.1 w.2 x).eraseDups
      let g := h.gated t c
      let h := if rs.contains 4 ∧ g ≠ 0 then h.count f 0 c 0x03 20 g else h
      rs.foldl (fun h r => h.count f 0 c 0x03 r (t.n - g)) h) h

/-- Frames that left in this step are stamped (R28). -/
def Hw.stampFrames (h : Hw) (e : Env) : Hw :=
  { h with ports := Tab.mapVals (fun p (x : Port) =>
      { x with stamps := List.replicate (x.sent + x.recv - x.stamps.length) (localTick e (160 + p)) ++ x.stamps }) h.ports }

/-! ## Steps that fall due -/

/-- Plan a step where a condition holds. -/
def Hw.dueIf (h : Hw) (b : Bool) (i : Instr) (o : Occasion) : Hw := if b then h.planOnce i o else h

/-- Does a path, live or in a trap frame, meet a condition? -/
def Warp.anyPath (w : Warp) (f : Path → Bool) : Bool :=
  f w.p0 || f w.p1 || (match w.frame with
    | some r => f r.p0 || f r.p1
    | none => false)

/-- Has the tick passed that an action waits for? -/
def reached (t : Option Nat) (now : Nat) : Bool :=
  match t with
  | some t => decide (t ≤ now)
  | none => false

/-- What falls due for a warp: yields, ticks, monitors, promotion, watchdog. -/
def Hw.dueWarp (h : Hw) (e : Env) (wk : Nat) (w : Warp) : Hw :=
  match h.block? (wkBlock wk) with
  | none => h
  | some b =>
    let at_ (x : Bool) : Occasion := { Occasion.none with id := wk, flag := x }
    let now := localTick e b.core
    let h := h.dueIf (w.anyPath fun p => reached p.yieldTo e.clk.cycle) .yieldEnd { Occasion.none with id := wk }
    let h := h.dueIf (w.anyPath fun p => p.monDue e.clk.cycle) .monitorTimeout { Occasion.none with unit := wk }
    let h := h.dueIf (Hw.watchdogDue e b w && h.runs (wkFn wk)) .watchdogExpiry { Occasion.none with id := wk }
    [false, true].foldl (fun h x =>
      let p := w.path x
      let h := h.dueIf (p.live && reached p.wakeAt now) .timedActionFire (at_ x)
      h.dueIf (p.live && !p.promoted && decide (16384 ≤ p.ready)) .pathPromotion (at_ x)) h

/-- Timed engine commands and grids (R30, R135, R262). -/
def Hw.dueTimed (h : Hw) (e : Env) : Hw :=
  let h := h.cmds.foldl (fun h c =>
    h.dueIf (!c.2.fired && reached c.2.at_ (localTick e c.2.core)) .timedActionFire { Occasion.none with id := c.1, aux := 1 }) h
  h.grids.foldl (fun h g =>
    let some_ := h.blocks.any fun b => b.2.grid == g.1 && reached b.2.startAt (localTick e b.2.core)
    h.dueIf (some_ || (reached g.2.startAt e.clk.tick && !h.runs g.2.fn)) .timedActionFire
      { Occasion.none with id := g.1, aux := 2 }) h

/-- What falls due for a partition. -/
def Hw.duePart (h : Hw) (e : Env) (p : Nat) (q : Part) : Hw :=
  let o : Occasion := { Occasion.none with unit := p }
  let h := match q.running with
    | some f =>
      let h := h.dueIf (!q.halting && h.sliceOver e p f) .sliceEnd o
      h.dueIf (q.halting && h.drained f) .haltComplete o
    | none => h.dueIf (q.live && (q.saved.isSome || (h.nextTurn p q.turn).isSome)) .worldSwitchRestore o
  let h := match h.placing p with
    | some f => h.dueIf (match h.waitingGrids f with
        | (_, g) :: _ => !g.limited && reached (g.waitSince.map (· + 100000)) e.clk.tick
        | [] => false) .placementWaitLimit o
    | none => h
  let h := h.dueIf (q.quiescing && !q.quiet && h.partIdle p) .quiesceComplete o
  h.dueIf (q.live && !q.tasks.isEmpty && q.serving.isNone && !q.imask.getLsbD 1) .handlerTaskEntry o

/-- What falls due for a function; while a VF is not idle its idle time does not run (R80). -/
def Hw.dueFn (h : Hw) (e : Env) (f : Nat) (x : Fn) : Hw :=
  let o : Occasion := { Occasion.none with unit := f }
  let h := if x.wake.credit != 0 && h.otherWork (h.partOf f) f then h.onFn f fun x => { x with wake := { x.wake with rivalAt := e.clk.tick } } else h
  let h := if x.wake.state = .active ∧ !h.collapsible f then
      h.onFn f fun x => { x with wake := { x.wake with since := e.clk.tick } }
    else h.dueIf (h.idleDue e f) .idleCollapse o
  let h := h.dueIf (!(x.wake.dueCredit e.clk.tick).isEmpty) .creditLapse o
  x.cmds.foldl (fun h c =>
    h.dueIf (c.2.opc == 6 && c.2.num 36 4 != 0 && reached (c.2.waitAt.map (· + 1000 * c.2.num 36 4)) e.clk.tick) .waitvalTimeout
      { o with id := c.1 }) h

/-- PC samples of a partition's running function, one for each period that ends (R277). The path that has issued in this step did so in
the cycle of the first (log 5). -/
def Hw.dueSamples (h : Hw) (t : Span) (q : Part) : Hw :=
  match q.running with
  | none => h
  | some f =>
    let d := (h.fn f).dbg
    let n := (t.c + t.n - q.sliceCycle) / d.period - (t.c - q.sliceCycle) / d.period
    if !h.samples f || n == 0 then h
    else
      let (issued, key) := match h.cur with
        | some c => (!h.tried.contains (c.wk, c.path), 2 * c.wk + c.path.toNat)
        | none => (false, 0)
      (q.rings.flatMap fun r => (List.range 8).map fun k => 8 * r + k).foldl (fun h core =>
        (List.range 4).foldl (fun h slot =>
          if (h.slotWarps f core slot).isEmpty then h
          else (List.range n).foldl (fun h k =>
            h.plan .pcSample { Occasion.none with unit := core, id := slot, flag := issued && k == 0, aux := key }) h) h) h

/-- Links that fail to retrain within 1 ms (R15), held host accesses, migrations, dependency tables, the decay of access counts (R15, R39, R132, R196, R197). -/
def Hw.dueShared (h : Hw) (c0 : Nat) (e : Env) : Hw :=
  let h := h.links.foldl (fun h l => match l.2 with
    | .retraining t => h.dueIf (decide (t + 1000000 ≤ e.clk.tick)) .packageFatalEvent { Occasion.none with unit := l.1 }
    | _ => h) h
  let h := h.dueIf ((h.heldAcc.any fun a => decide (a.since + 40000 ≤ e.clk.tick)) || (h.staleAtom e).isSome) .heldAccessTimeout Occasion.none
  let h := h.dueIf (h.readyHeld e [] h.heldAcc).isSome .bar2Read { Occasion.none with flag := true }
  let h := h.migs.foldl (fun h m => h.dueIf (h.mayMove m.2) .migrationSwitch { Occasion.none with unit := m.1 }) h
  let h := h.fcores.foldl (fun h c =>
    h.dueIf (c.2.deps.any fun d => h.depReady (c.1 / 256) (c.1 % 256) d && !(d.kind == 3 && h.elemsOf d.wk)) .dependencyTaskIssue
      { Occasion.none with unit := c.1 / 256, id := c.1 % 256 }) h
  let h := h.access.foldl (fun h x => match h.migFrom e x.1 x.2 with
    | some (a, agent) => h.planOnce .migrationStart { Occasion.none with unit := x.1, id := a.ctx, aux := agent, val := BitVec.ofNat 256 a.page }
    | none => h) h
  let periods := e.clk.tick / 1000000 - c0 / 1000000
  if !h.access.isEmpty && decide (0 < periods) then h.plan .accessCountHalving { Occasion.none with aux := periods } else h

/-- With nothing planned, whatever could go on is planned: engine commands, placement, fetches and dispatches. -/
def Hw.dueIdle (h : Hw) : Hw :=
  if !h.agenda.isEmpty then h
  else
    let h := h.fcores.foldl (fun h c => h.kick (c.1 / 256) (c.1 % 256)) h
    let h := h.parts.foldl (fun h q => match h.placing q.1 with
      | some f => if (h.waitingGrids f).isEmpty then h else h.place q.1
      | none => h) h
    h.fns.foldl (fun h f => if f.2.cmds.isEmpty && !f.2.queued then h
      else (List.range 16).foldl (fun h q => (h.planFetch f.1 q).planDispatch f.1 q) h) h

/-- Time passes from the clock `c0` to the clock of `e`. -/
def Hw.pass (h : Hw) (c0 : Clock) (e : Env) : Hw :=
  let t : Span := ⟨c0.cycle, e.clk.cycle - c0.cycle⟩
  let h := (h.stampFrames e).earn e t
  let h := h.parts.foldl (fun h q => match q.2.running with
    | some f => h.cycleCounts e t f
    | none => h) h
  let h := { h with warps := Tab.mapVals (fun k w => h.tickWarp e t k w) h.warps }
  if h.trip then h
  else
    let h := h.warps.foldl (fun h x => h.dueWarp e x.1 x.2) h
    let h := (h.dueTimed e).dueShared c0.tick e
    let h := h.parts.foldl (fun h x => (h.duePart e x.1 x.2).dueSamples t x.2) h
    let h := h.fns.foldl (fun h x => h.dueFn e x.1 x.2) h
    h.dueIdle

end Sys2Proof.Machine
end

