-- ==== Sys2Proof/Machine/Step.lean ====
section
/-! DEFINITION. Sys2Proof/Machine/Step.lean: one step: the next step of the package or the next instruction of a path,
then the passing of time. -/
namespace Sys2Proof.Machine

/-- The clock after a step: free amounts of ticks and cycles pass (log 5). -/
def Clock.after (c : Clock) : Clock :=
  ⟨c.tick + Config.tickAdvance c.step, c.cycle + Config.cycleAdvance c.step, c.step + 1⟩

/-- Time passes at the end of a step, and what falls due is planned. -/
def State.elapse (s : State) : State :=
  let c := s.clk.after
  { s with clk := c, hw := { (s.hw.pass s.clk ⟨c, s.mem⟩) with wq := [] } }

/-- A state that goes on, after its time has passed. -/
def elapsed : Host.Outcome State Fault Refusal → Host.Outcome State Fault Refusal
  | .next s => .next s.elapse
  | .fault r => .fault r
  | .refused r => .refused r

/-- A state that goes on, after a path's attempt to issue (R137). -/
def served (old : Hw) (c : Cand) : Host.Outcome State Fault Refusal → Host.Outcome State Fault Refusal
  | .next s => .next { s with hw := s.hw.serve old c }
  | .fault r => .fault r
  | .refused r => .refused r

/-- One step of the machine. -/
def step (s : State) : Host.Outcome State Fault Refusal :=
  let e : Env := ⟨s.clk, s.mem⟩
  match s.hw.next e with
  | .event i o h => elapsed (exec i { s with hw := h.begin o })
  | .issue c h =>
    match (h.take c).fetched e with
    | .ok (i, h') => elapsed (served h c (exec i { s with hw := h'.withRows e i }))
    | .error h => .next ({ s with mem := flush h.wq s.mem, hw := { h with wq := [] } }).elapse
  | .idle h => .next ({ s with hw := h }).elapse

/-- The machine about to run the instruction whose bits are w (log 8): the word stands at the address that the next step
fetches from. -/
def State.withFetchWord (s : State) (nbits w : Nat) : State :=
  { s with hw := s.hw.solo, mem := soloMem s.mem (BitVec.ofNat 32 (w % 2 ^ nbits)) }

end Sys2Proof.Machine
end

