-- ==== Sys2Proof/Safety.lean ====
section
/-! DEFINITION. Sys2Proof/Safety.lean: what counts as a safe state and a safe step. -/
namespace Sys2Proof

/-- A well-kept machine: memory in canonical form, and no byte waiting to be written between steps. -/
def Machine.State.Inv (s : Machine.State) : Prop := Machine.Memory.wf s.mem = true ∧ s.hw.wq = []

/-- A step is safe if it goes on, or stops for a reason that the model names. -/
def SafeStep (s : Machine.State) : Prop := ∃ t, Machine.step s = .next t

end Sys2Proof
end

