-- ==== Sys2Proof/Certificates/Slice0/Terms.lean ====
section
/-! DEFINITION. Sys2Proof/Certificates/Slice0/Terms.lean: the words the statements are written in: when an instruction
issues, what it leaves alone, and how it leaves its destination. -/
namespace Sys2Proof.Terms

open Sys2Proof.Machine

/-! ## Issuing -/

/-- The block's interval counter has room for `n` more events, after those of its acquires and releases under way (R209). -/
def Room (s : State) (q : Iss) (n : Nat) : Prop := s.hw.wraps q.bk n = false

/-- Path `q.x` of warp `q.wk` issues instruction `i` for the lanes `q.lanes`: no check of Table 12.8, of privilege, of
bounds or of empty registers stops it (R276, R300), the block's interval counter has room (R209), and the path is not held midway
in the pushes of this instruction (R166). -/
def Issues (i : Instr) (s : State) (q : Iss) : Prop :=
  s.Inv ∧ Iss.of s.hw = some q ∧ q.rank2 s.hw i = .ok () ∧ Room s q 1 ∧ q.p.pushing = none

/-- Where a path goes on: at pc + 4, or at the same instruction while rows of it are left to a later pass (R146, R311). -/
def after (q : Iss) : DWord := if q.p.later = 0#32 then q.p.pc + 4#64 else q.p.pc

/-- An operand that names a queue register. -/
def inQueue (u : Use) : Prop := 120 ≤ u.r.toNat ∧ u.r.toNat < 126

/-- Does the instruction pop a token of the engine's queue (R167)? -/
def pops (i : Instr) (e : EngKind) : Bool :=
  (Instr.uses i).any fun u => u.rd && u.r.toNat == (match e with | .matrix => 121 | .copy => 123 | .ring => 125)

/-! ## What stays -/

/-- What an instruction that touches only its own warp leaves alone: the clock, memory, every other warp, every
scratchpad and tag, every partition and control register, and of its own warp everything but the registers, the queues
and the path's progress. -/
structure Framed (i : Instr) (q : Iss) (s t : State) (w : Warp) : Prop where
  warp   : t.hw.warp? q.wk = some w
  others : ∀ k, k ≠ q.wk → t.hw.warp? k = s.hw.warp? k
  clock  : t.clk = s.clk
  memory : t.mem = s.mem
  rest   : t.hw = { s.hw with
    warps := t.hw.warps, fns := t.hw.fns, out := t.hw.out, blocks := t.hw.blocks, cores := t.hw.cores, l2 := t.hw.l2, tried := [] }
  fns    : ∀ f, t.hw.fn f = { s.hw.fn f with ctrs := (t.hw.fn f).ctrs, intstat := (t.hw.fn f).intstat }
  quiet  : q.w.poppedRels i = [] → t.hw.blocks = s.hw.blocks ∧ t.hw.cores = s.hw.cores ∧ t.hw.l2 = s.hw.l2
  kept   : w = { q.w with
    vregs := w.vregs, empty := w.empty, uregs := w.uregs, preds := w.preds, p0 := w.p0, p1 := w.p1, split := w.split, exited := w.exited
    q0 := w.q0, q2 := w.q2, q4 := w.q4 }
  other  : w.path (!q.x) = q.w.path (!q.x)

/-- Queues as an instruction leaves them that pushes nothing: one token less where it reads a pop register (R167). -/
def QueuesPopped (i : Instr) (q : Iss) (w : Warp) : Prop :=
  ∀ e, w.queue e = if pops i e then { q.w.queue e with tokens := (q.w.queue e).tokens.tail } else q.w.queue e

/-- The path goes on at `pc` with its mask, its join stack and its pending monitor, and with the rows that are left. -/
def GoesTo (q : Iss) (w : Warp) (pc : DWord) : Prop :=
  (w.path q.x).pc = pc ∧ (w.path q.x).resume = q.p.later ∧ (w.path q.x).mask = q.p.mask ∧ (w.path q.x).stack = q.p.stack ∧
    (w.path q.x).base = q.p.base ∧ (w.path q.x).mon = q.p.mon ∧ w.split = q.w.split ∧ w.exited = q.w.exited

/-- Registers after a destination `u` has received `val n` per lane: the active lanes' registers of a vector
destination, the lowest lane's value in a uniform one, nothing for zr; every other register as before (R160, R310). -/
def Holds (q : Iss) (w : Warp) (u : Use) (val : Nat → List Word) : Prop :=
  (∀ r n, n < 1024 → w.getV r n =
    if u.r.toNat < 96 ∧ n ∈ q.lanes ∧ q.w.vIndex u ≤ r ∧ r < q.w.vIndex u + u.n then
      (val n).getD (r - q.w.vIndex u) 0#32
    else q.w.getV r n) ∧
  (∀ r, w.getU r =
    if 96 ≤ u.r.toNat ∧ u.r.toNat < 120 ∧ q.w.uIndex u ≤ r ∧ r < q.w.uIndex u + u.n then
      (val (lowest q.lanes)).getD (r - q.w.uIndex u) 0#32
    else q.w.getU r)

/-- Registers as before. -/
def RegsKept (q : Iss) (w : Warp) : Prop := w.vregs = q.w.vregs ∧ w.uregs = q.w.uregs ∧ w.empty = q.w.empty

/-! ## What an instruction does -/

/-- `i` answers a next state in which destination `u` holds `val` (n words per lane) in every active lane and nothing
else has changed, and the path goes on (`after`). A destination that is a push register is `Pushes`'s. -/
def Delivers (i : Instr) (u : Use) (val : Iss → Nat → List Word) : Prop :=
  ∀ s q, Issues i s q → ¬ inQueue u → ∃ t w, exec i s = .next t ∧ Framed i q s t w ∧ QueuesPopped i q w ∧
    GoesTo q w (after q) ∧ w.preds = q.w.preds ∧ w.empty = q.w.empty ∧ Holds q w u (val q)

/-- Words `new`, put behind the words `old` of a staging buffer, begin no malformed command and complete none (R166). -/
def Stages (k : EngKind) (old new : List Word) : Prop :=
  (old = [] → hdrBad k (new.headD 0#32) = false) ∧ (old ++ new).length < hdrLen ((old ++ new).headD 0#32)

/-- The words that a result for destination u puts on queue e: the active lanes' in rising order, for a push register (R166, R310). -/
def stagedFor (q : Iss) (u : Use) (val : Nat → List Word) (e : EngKind) : List Word :=
  if 120 ≤ u.r.toNat ∧ u.r.toNat < 126 ∧ e = queueKind u.r.toNat then q.lanes.flatMap val else []
/-- A destination can take its result: registers always; a push register where the partition owns the engine and the words neither
begin a malformed command nor complete one (R68, R166). -/
def CanReceive (s : State) (q : Iss) (u : Use) (val : Nat → List Word) : Prop :=
  inQueue u → s.hw.ownsEngine q.fn q.core (queueKind u.r.toNat) = true ∧
    Stages (queueKind u.r.toNat) (q.w.queue (queueKind u.r.toNat)).staging (q.lanes.flatMap val)
/-- The registers after destination u has received its result (a push register's words are `stagedFor`). -/
def Receives (q : Iss) (w : Warp) (u : Use) (val : Nat → List Word) : Prop :=
  (inQueue u → RegsKept q w) ∧ (¬ inQueue u → Holds q w u val)
/-- Queues as an instruction leaves them that puts `staged` on them. -/
def QueuesStaged (i : Instr) (q : Iss) (w : Warp) (staged : EngKind → List Word) : Prop :=
  ∀ e, w.queue e = { q.w.queue e with
    staging := (q.w.queue e).staging ++ staged e
    tokens := if pops i e then (q.w.queue e).tokens.tail else (q.w.queue e).tokens }

/-- `i` with a push register as its destination appends each active lane's words to the staging buffer, in rising lane
order, where they do not complete a command (R166, R310). -/
def Pushes (i : Instr) (u : Use) (val : Iss → Nat → List Word) : Prop :=
  ∀ s q, Issues i s q → inQueue u → s.hw.ownsEngine q.fn q.core (queueKind u.r.toNat) = true →
    Stages (queueKind u.r.toNat) (q.w.queue (queueKind u.r.toNat)).staging (q.lanes.flatMap (val q)) →
    ∃ t w, exec i s = .next t ∧ Framed i q s t w ∧ GoesTo q w (after q) ∧ w.preds = q.w.preds ∧ RegsKept q w ∧
      ∀ e, w.queue e = { q.w.queue e with
        staging := if e = queueKind u.r.toNat then (q.w.queue e).staging ++ q.lanes.flatMap (val q) else (q.w.queue e).staging
        tokens := if pops i e then (q.w.queue e).tokens.tail else (q.w.queue e).tokens }

/-- `i` answers a next state in which predicate `p` holds `val` in every active lane and nothing else has changed; a write
to p0 is ignored (R161). -/
def SetsPred (i : Instr) (p : BitVec 3) (val : Iss → Nat → Bool) : Prop :=
  ∀ s q, Issues i s q → ∃ t w, exec i s = .next t ∧ Framed i q s t w ∧ QueuesPopped i q w ∧
    GoesTo q w (after q) ∧ RegsKept q w ∧
    ∀ r n, n < 1024 → (w.getP r).getLsbD n =
      if r = p.toNat ∧ r ≠ 0 ∧ n ∈ q.lanes then val q n else (q.w.getP r).getLsbD n

/-- `i` changes no register, no predicate and no queue, and the path goes on at `pc`. -/
def Goes (i : Instr) (pc : Iss → DWord) : Prop :=
  ∀ s q, Issues i s q → ∃ t w, exec i s = .next t ∧ Framed i q s t w ∧ QueuesPopped i q w ∧ GoesTo q w (pc q) ∧
    RegsKept q w ∧ w.preds = q.w.preds

/-- A result in every form of destination: register, zr or push register. -/
def Computes (i : Instr) (u : Use) (val : Iss → Nat → List Word) : Prop := Delivers i u val ∧ Pushes i u val

/-- Format A with three operands: `d := f a b` per active lane. -/
def Binary (mk : Bool → RField → RField → RField → Bool → Bool → Instr) (f : Word → Word → Word) : Prop :=
  ∀ i d a b x y, Computes (mk i d a b x y) (Use.dst d) fun q n => [f (q.ra a x i n) (q.rb b y n)]
/-- The same where d is read as well: `d := f d a b`. -/
def Ternary (mk : Bool → RField → RField → RField → Bool → Bool → Instr) (f : Word → Word → Word → Word) : Prop :=
  ∀ i d a b x y, Computes (mk i d a b x y) (Use.dst d) fun q n => [f (q.rd d n) (q.ra a x i n) (q.rb b y n)]
/-- Format A with two operands: `d := f a`. -/
def Unary (mk : Bool → RField → RField → Bool → Instr) (f : Word → Word) : Prop :=
  ∀ i d a x, Computes (mk i d a x) (Use.dst d) fun q n => [f (q.ra a x i n)]
/-- Format I: `d := f a imm`, the immediate sign-extended. -/
def Immediate (mk : RField → RField → Bool → BitVec 11 → Instr) (f : Word → Word → Word) : Prop :=
  ∀ d a x k, Computes (mk d a x k) (Use.dst d) fun q n => [f (q.ra a x false n) (BitVec.ofInt 32 k.toInt)]

/-- Floating point: `f mode generation a b`, the mode of RMODE and the generation of NBV as the warp samples them (R233). -/
def FpBinary (mk : Bool → RField → RField → RField → Bool → Bool → Instr) (f : Nat → Nat → Nat → Nat → Nat) : Prop :=
  ∀ i d a b x y, Computes (mk i d a b x y) (Use.dst d) fun q n =>
    [BitVec.ofNat 32 (f q.mode q.ver (q.ra a x i n).toNat (q.rb b y n).toNat)]
def FpTernary (mk : Bool → RField → RField → RField → Bool → Bool → Instr) (f : Nat → Nat → Nat → Nat → Nat → Nat) : Prop :=
  ∀ i d a b x y, Computes (mk i d a b x y) (Use.dst d) fun q n =>
    [BitVec.ofNat 32 (f q.mode q.ver (q.rd d n).toNat (q.ra a x i n).toNat (q.rb b y n).toNat)]
def FpUnary (mk : Bool → RField → RField → Bool → Instr) (f : Nat → Nat → Word → Word) : Prop :=
  ∀ i d a x, Computes (mk i d a x) (Use.dst d) fun q n => [f q.mode q.ver (q.ra a x i n)]

/-! ## Results that land later -/

/-- What an instruction leaves alone that sends off a flight: all that `Framed` names, every other flight, and the
agenda's earlier steps. -/
structure FramedFlight (q : Iss) (s t : State) (w : Warp) (f : Flight) (back : Instr) : Prop where
  warp   : t.hw.warp? q.wk = some w
  others : ∀ k, k ≠ q.wk → t.hw.warp? k = s.hw.warp? k
  clock  : t.clk = s.clk
  memory : t.mem = s.mem
  flight : Tab.find? t.hw.flights s.hw.nextId = some f
  flights : ∀ k, k ≠ s.hw.nextId → Tab.find? t.hw.flights k = Tab.find? s.hw.flights k
  nextId : t.hw.nextId = s.hw.nextId + 1
  agenda : t.hw.agenda = s.hw.agenda ++ [.event back { Occasion.none with unit := s.hw.nextId, aux := f.tag }]
  parts  : t.hw.parts = s.hw.parts
  scr    : t.hw.fcores = s.hw.fcores
  regs   : w.vregs = q.w.vregs ∧ w.uregs = q.w.uregs ∧ w.preds = q.w.preds
  kept   : w = { q.w with
    vregs := w.vregs, empty := w.empty, uregs := w.uregs, preds := w.preds, p0 := w.p0, p1 := w.p1
    q0 := w.q0, q2 := w.q2, q4 := w.q4 }

/-- The step that returns flight `id` of generation `tag`, about to run in `t`. -/
def returning (t : State) (id tag : Nat) : State :=
  { t with hw := { t.hw with occ := { Occasion.none with unit := id, aux := tag } } }

/-- `i` sends off `val`: exec answers a next state in which flight `f` carries `val` for every active lane, a vector destination is
empty in those lanes until it lands, every register keeps its value, and the path goes on (R76, R163). -/
structure Sent (i : Instr) (u : Use) (kind : FlightKind) (val : Iss → Nat → List Word) (s : State) (q : Iss) (t : State) (w : Warp)
    (f : Flight) : Prop where
  next   : exec i s = .next t
  frame  : FramedFlight q s t w f .iterativePassResult
  queues : QueuesPopped i q w
  goes   : GoesTo q w (after q)
  who    : f.wk = q.wk ∧ f.kind = kind ∧ f.nreg = u.n ∧ f.dreg = q.w.dregOf u ∧ f.replay = false ∧ f.lanes.map (·.1) = q.lanes
  vals   : f.vals.map (·.1) = q.lanes ∧ ∀ n ∈ q.lanes, wordsOfVal u.n (Tab.getD f.vals n 0#128) = val q n
  empty  : ∀ r n, n < 1024 → (w.isEmpty r n = true ↔ (q.w.isEmpty r n = true ∨
    (u.r.toNat < 96 ∧ n ∈ q.lanes ∧ q.w.vIndex u ≤ r ∧ r < q.w.vIndex u + u.n)))

/-- The destination's registers are among the 256 per lane, or the 256 uniform ones, that a warp can have (R158, R160). -/
def Numbered (q : Iss) (u : Use) : Prop := (u.r.toNat < 96 → q.w.vIndex u < 256) ∧ (u.r.toNat < 120 → q.w.uIndex u < 256)

/-- A result that returns after its pass: `i` sends off `val`, and the return of the flight, which the step after it has planned, answers
a next state in which `u` holds `val` and the flight has ended. -/
def Returns (i : Instr) (u : Use) (kind : FlightKind) (val : Iss → Nat → List Word) (s : State) (q : Iss) : Prop :=
  ∃ t w f, Sent i u kind val s q t w f ∧
    (q.lanes ≠ [] → Numbered q u → ∃ t' w', exec .iterativePassResult (returning t s.hw.nextId f.tag) = .next t' ∧
      t'.hw.warp? q.wk = some w' ∧ Holds q w' u (val q) ∧ w'.preds = q.w.preds ∧ Tab.find? t'.hw.flights s.hw.nextId = none)

/-- An iterative instruction: its result lands by a later step; a push register takes the values at once. -/
def Iterates (i : Instr) (u : Use) (val : Iss → Nat → List Word) : Prop :=
  (∀ s q, Issues i s q → ¬ inQueue u → Returns i u .iter val s q) ∧ Pushes i u val

/-- An exchange of lanes: at once on an unpacked path, by a later step on a packed one; a push register takes the values at once
(R155, R163). -/
def Exchanges (i : Instr) (u : Use) (val : Iss → Nat → List Word) : Prop :=
  (∀ s q, Issues i s q → ¬ inQueue u → q.p.packed = false → ∃ t w, exec i s = .next t ∧ Framed i q s t w ∧
    QueuesPopped i q w ∧ GoesTo q w (after q) ∧ w.preds = q.w.preds ∧ w.empty = q.w.empty ∧ Holds q w u (val q)) ∧
  (∀ s q, Issues i s q → ¬ inQueue u → q.p.packed = true → Returns i u .late val s q) ∧ Pushes i u val

/-! ## Words of the integer rules -/

/-- Position and width of a bit field in b (R318). -/
def fieldPos (b : Word) : Nat := b.toNat % 32
def fieldWidth (b : Word) : Nat := min (b.toNat / 256 % 64) (32 - fieldPos b)

/-- The integer conditions of Table 12.4. -/
def intHolds (c : BitVec 4) (a b : Word) : Bool :=
  match c.toNat with
  | 0 => decide (a = b)
  | 1 => decide (a ≠ b)
  | 2 => decide (a.toInt < b.toInt)
  | 3 => decide (a.toInt ≤ b.toInt)
  | 4 => decide (b.toInt < a.toInt)
  | 5 => decide (b.toInt ≤ a.toInt)
  | 6 => decide (a.toNat < b.toNat)
  | 7 => decide (a.toNat ≤ b.toNat)
  | 8 => decide (b.toNat < a.toNat)
  | 9 => decide (b.toNat ≤ a.toNat)
  | _ => false

/-- The floating-point conditions of Table 12.4, by how the operands compare: none where either is a NaN. -/
def fpHolds (c : BitVec 4) (o : Option Ordering) : Bool :=
  match c.toNat, o with
  | 0, some .eq => true
  | 1, some .eq => false
  | 1, _ => true
  | 2, some .lt => true
  | 3, some .lt => true
  | 3, some .eq => true
  | 4, some .gt => true
  | 5, some .gt => true
  | 5, some .eq => true
  | 10, some _ => true
  | 11, none => true
  | _, _ => false

/-- The bits of the class word of Table 13.3, from the fields of FP32 bits. -/
def inClass (j : Nat) (a : Word) : Bool :=
  let ex := a.toNat / 2 ^ 23 % 256
  let m := a.toNat % 2 ^ 23
  let neg := decide (2 ^ 31 ≤ a.toNat)
  match j with
  | 0 => decide (ex = 255 ∧ m ≠ 0)
  | 1 => decide (ex = 255 ∧ m = 0) && neg
  | 2 => decide (ex ≠ 255 ∧ ¬(ex = 0 ∧ m = 0)) && neg
  | 3 => decide (ex = 0 ∧ m = 0)
  | 4 => decide (ex ≠ 255 ∧ ¬(ex = 0 ∧ m = 0)) && !neg
  | 5 => decide (ex = 255 ∧ m = 0) && !neg
  | 6 => decide (ex = 0 ∧ m ≠ 0)
  | _ => false

/-- An instruction that raises ILLEGAL wherever it issues, whatever xi holds (rank 2: `RankTwoTraps`). -/
def Unlawful (i : Instr) : Prop := ∀ xi, Instr.legal xi i = false

/-- A shuffle within a row: `src` gives the source position from the lane's position and b, and the passes are those of the
unpacked placement, one for each row with an active lane (R330). -/
def Shuffles (mk : Bool → RField → RField → RField → Bool → Bool → Instr) (src : Nat → Word → Option Nat) : Prop :=
  ∀ i d a b x y, (Exchanges (mk i d a b x y) (Use.dst d) fun q n =>
    [match src (n % 32) (q.rb b y n) with
     | none => q.ra a x i n
     | some j => if 32 * (n / 32) + j ∈ q.lanes then q.ra a x i (32 * (n / 32) + j) else q.ra a x i n]) ∧
    ∀ q : Iss, q.passes (mk i d a b x y) = (q.lanes.map (· / 32)).eraseDups.length

/-! ## Words of the floating-point rules -/

/-- The lesser and the greater of two operands (R381): a NaN gives way, two NaNs give the canonical one, -0 lies below +0. -/
def lesser (f : Fmt) (a b : Nat) : Nat :=
  match f.val a, f.val b with
  | .nan, .nan => f.nan
  | .nan, _ => b
  | _, .nan => a
  | x, y => match y.compare x with
    | some .lt => b
    | some .eq => if y.isZero && y.negative && !x.negative then b else a
    | _ => a
def greater (f : Fmt) (a b : Nat) : Nat :=
  match f.val a, f.val b with
  | .nan, .nan => f.nan
  | .nan, _ => b
  | _, .nan => a
  | x, y => match x.compare y with
    | some .lt => b
    | some .eq => if x.isZero && x.negative && !y.negative then b else a
    | _ => a

/-- An operation on both 16-bit elements (R385). -/
def elements (f : Nat → Nat → Nat) (a b : Nat) : Nat :=
  f (a % 2 ^ 16) (b % 2 ^ 16) + 2 ^ 16 * f (a / 2 ^ 16) (b / 2 ^ 16)

/-- The two words of 64 bits, low first (R386). -/
def wordPair (v : Nat) : List Word := [BitVec.ofNat 32 v, BitVec.ofNat 32 (v / 2 ^ 32)]

/-- FP32 bits as an integer in [lo, hi] (R387). -/
def asInteger (m v a : Nat) (lo hi : Int) : Int :=
  match Fmt.fp32.operand v a with
  | .nan => if v = 1 then lo else 0
  | .inf n => if n then lo else hi
  | .fin n k e => max lo (min hi ((if n then -1 else 1) * (roundAt m n k e 0 : Int)))

/-- Two lanes in one group of `g` lanes of one row (R392). -/
def sameGroup (g n l : Nat) : Prop := n / 32 = l / 32 ∧ n % 32 / g = l % 32 / g

/-! ## Memory as a core sees it -/

/-- A byte of memory as a read delivers it: a free value in the device-internal window outside the handler record slots (Table 1.2,
log 18). -/
def asRead (s : State) (pa : Nat) (b : Byte) : Byte :=
  if paKind pa = .internal ∧ inRecords pa = false then Config.internalByte s.clk.step pa else b

/-- Byte k of a line as a core's L1 has it under a context, or as memory has it (R185, R186). -/
def coreByte (s : State) (core ctx line k : Nat) : Byte :=
  if (s.hw.l1 core ctx line).valid.getLsbD k then Tab.getD (s.hw.l1 core ctx line).bytes k 0#8
  else asRead s (128 * line + k) (s.byte (128 * line + k))

/-- A byte that unit `u` guards, as a core sees it: the core's own guarded line before the guard store (R110). -/
def unitByte (s : State) (core u pa : Nat) : Option Byte :=
  (Tab.find? s.hw.units u).bind fun x =>
    if (s.hw.l1 core (guardCtx u) (lineOf pa)).dirty.getLsbD (pa % 128) then
      some (Tab.getD (s.hw.l1 core (guardCtx u) (lineOf pa)).bytes (pa % 128) 0#8)
    else Tab.find? x.gmem pa
/-- Byte j of an access as the unit that guards it holds it. -/
def guardByte (s : State) (q : Iss) (a : Acc) (pa : Nat) : Option Byte :=
  (Iss.guardOf s.hw q a.va a.size).bind fun u => unitByte s q.core u pa

/-- Byte j of the access `a` as a .d load of the lane reads it: the barrier alias, scratchpad, the unit's guarded byte
where it has one, or the line as the core has it (R110, R169, R185, R363). -/
def loadByte (s : State) (q : Iss) (a : Acc) (j : Nat) : Byte :=
  match a.loc with
  | .alias_ off => (Hw.aliasBytes s.hw q off a.size).getD j 0#8
  | .scr core off => Tab.getD (s.hw.fcore q.fn core).spad (off + j) 0#8
  | .mem pa => (guardByte s q a (pa + j)).getD (coreByte s q.core (Iss.lineCtx s.hw q a) (lineOf pa) (pa % 128 + j))

/-- What LD of size code z delivers from its bytes: 8 and 16 bits sign-extended or zero-extended to 32, 32, 64 or 128 bits
as they are, the lowest address least significant (R350). -/
def loaded (z : Nat) (bs : List Byte) : BitVec 128 :=
  let n := (bs.zipIdx.map fun (x : Byte × Nat) => x.1.toNat * 256 ^ x.2).sum
  match z with
  | 0 => ((BitVec.ofInt 32 (BitVec.ofNat 8 n).toInt).setWidth 128)
  | 2 => ((BitVec.ofInt 32 (BitVec.ofNat 16 n).toInt).setWidth 128)
  | _ => BitVec.ofNat 128 n

/-- The warp's accesses are made in one of the package's contexts (R71). -/
def InContext (s : State) (q : Iss) : Prop := Iss.ctx s.hw q < 2 ^ 20
/-- Every access of an instruction passes every check of R276 and is located at `as`. -/
def Accesses (s : State) (q : Iss) (k : Ask) (addr : Nat → DWord) (as : List Acc) : Prop :=
  InContext s q ∧ Iss.check s.hw ⟨s.clk, s.mem⟩ q k addr = .ok as

/-! ## Memory instructions -/

/-- The byte that a list of stores leaves at a key: the last of its entries stands. -/
def lastAt {α : Type} [DecidableEq α] (l : List (α × Byte)) (k : α) : Option Byte :=
  (l.reverse.find? fun x => decide (x.1 = k)).map (·.2)

/-- A path, and a warp, apart from its monitors and its count towards the watchdog. -/
def calm (p : Path) : Path := { p with mon := none, count := 0 }
def calmWarp (w : Warp) : Warp :=
  { w with p0 := calm w.p0, p1 := calm w.p1, frame := w.frame.map fun f => { f with p0 := calm f.p0, p1 := calm f.p1 } }

/-- What a memory instruction leaves alone beside the bytes it stores: the clock; every other warp; every register,
predicate and special register of its own; the other path; every function's registers but counters, INTSTAT and release
records; every partition's but PMOLOST. -/
structure Around (i : Instr) (q : Iss) (s t : State) (w : Warp) : Prop where
  warp   : t.hw.warp? q.wk = some w
  clock  : t.clk = s.clk
  others : ∀ k, k ≠ q.wk → (t.hw.warp? k).map calmWarp = (s.hw.warp? k).map calmWarp
  kept   : calmWarp w = calmWarp { q.w with
    empty := w.empty, p0 := w.p0, p1 := w.p1, q0 := w.q0, q2 := w.q2, q4 := w.q4, pend := w.pend, sync := w.sync
    progressAt := w.progressAt }
  queues : QueuesPopped i q w
  path   : (w.path q.x).pc = after q ∧ (w.path q.x).mask = q.p.mask ∧ (w.path q.x).stack = q.p.stack ∧
    (w.path q.x).base = q.p.base
  other  : calm (w.path (!q.x)) = calm (q.w.path (!q.x))
  fns    : ∀ f, t.hw.fn f = { s.hw.fn f with
    ctrs := (t.hw.fn f).ctrs, intstat := (t.hw.fn f).intstat, race := (t.hw.fn f).race }
  parts  : ∀ p, t.hw.part p = { s.hw.part p with pmolost := (t.hw.part p).pmolost }

/-- Flight `f` left under the next number for destination `u`, its lanes empty in a vector destination. -/
structure Launches (q : Iss) (s t : State) (w : Warp) (u : Use) (k : FlightKind) (f : Flight) : Prop where
  at_     : Tab.find? t.hw.flights s.hw.nextId = some f
  flights : ∀ n, n ≠ s.hw.nextId → Tab.find? t.hw.flights n = Tab.find? s.hw.flights n
  nextId  : t.hw.nextId = s.hw.nextId + 1
  who     : f.wk = q.wk ∧ f.path = q.x ∧ f.kind = k ∧ f.nreg = u.n ∧ f.dreg = q.w.dregOf u ∧ f.replay = false
  lanes   : f.lanes.map (·.1) = q.lanes
  empty   : ∀ r n, n < 1024 → (w.isEmpty r n = true ↔ (q.w.isEmpty r n = true ∨
    (u.r.toNat < 96 ∧ n ∈ q.lanes ∧ q.w.vIndex u ≤ r ∧ r < q.w.vIndex u + u.n)))

/-- No byte of memory, of scratchpad, of a guarded unit or of an L1 as its core sees it has changed, where no token with a
release was popped; memory and scratchpad have not in any case. -/
structure BytesKept (i : Instr) (q : Iss) (s t : State) : Prop where
  memory : t.mem = s.mem
  scr    : ∀ f c, (t.hw.fcore f c).spad = (s.hw.fcore f c).spad
  units  : ∀ u, (Tab.find? t.hw.units u).map (·.gmem) = (Tab.find? s.hw.units u).map (·.gmem)
  cores  : q.w.poppedRels i = [] → ∀ c x l k, l < 2 ^ 45 → coreByte t c x l k = coreByte s c x l k

/-- The key under which a core's L1 keeps the line of an access, a store's guarded line among them (R71, R110). -/
def lineKey (s : State) (q : Iss) (write : Bool) (a : Acc) (pa : Nat) : Nat :=
  match Iss.guardOf s.hw q a.va a.size with
  | some u => if write then l1Key (guardCtx u) (lineOf pa) else l1Key (Iss.lineCtx s.hw q a) (lineOf pa)
  | none => l1Key (Iss.lineCtx s.hw q a) (lineOf pa)
/-- The core's L1 holds every line that the accesses touch, or has a place for each: nothing is evicted (R1, R185). -/
def L1Room (s : State) (q : Iss) (write : Bool) (as : List Acc) : Prop :=
  (∀ a ∈ as, ∀ pa, a.loc = .mem pa → Tab.has (s.hw.core q.core).l1 (lineKey s q write a pa) = true) ∨
  (s.hw.core q.core).l1.length + as.length ≤ l1Lines (s.hw.splitAt q.core)

/-- A byte of memory is as it was, or a dirty byte of the issuing core's L1 has been written back (R186). -/
def FromL1 (s : State) (q : Iss) (x : Nat) (b : Byte) : Prop :=
  b = s.byte x ∨ ∃ c, (s.hw.l1 q.core c (lineOf x)).dirty.getLsbD (x % 128) = true ∧
    b = Tab.getD (s.hw.l1 q.core c (lineOf x)).bytes (x % 128) 0#8

/-- A .d load of size code z into u from `addr` (R76, R185, R350): the values are those the core sees at issue, where no line has to
leave its L1 for them. -/
def LoadsPlain (i : Instr) (u : Use) (z : Nat) (addr : Iss → Nat → DWord) : Prop :=
  ∀ s q as, Issues i s q → ¬ inQueue u → Accesses s q ⟨.data, false, false, szBytes z, 0, false, false, none⟩ (addr q) as →
    ∃ t w f, exec i s = .next t ∧ Around i q s t w ∧ Launches q s t w u (.load 0 .warp z false) f ∧
      t.hw.agenda = s.hw.agenda ++ [.event .loadReturn { Occasion.none with unit := s.hw.nextId, aux := f.tag }] ∧
      (∀ x, FromL1 s q x (t.byte x)) ∧ (∀ f c, (t.hw.fcore f c).spad = (s.hw.fcore f c).spad) ∧
      (L1Room s q false as → BytesKept i q s t ∧
        ∀ a ∈ as, Tab.getD f.vals a.lane 0#128 = loaded z ((List.range a.size).map (loadByte s q a)))

/-- No line of memory is reached by two lanes through two L1 contexts (R71). -/
def OneView (s : State) (q : Iss) (as : List Acc) : Prop :=
  InContext s q ∧ ∀ a ∈ as, ∀ b ∈ as, ∀ pa pb, a.loc = .mem pa → b.loc = .mem pb → lineOf pa = lineOf pb →
    Iss.lineCtx s.hw q a = Iss.lineCtx s.hw q b

/-- Byte j of the access as an access at the home finds it: the core's own dirty byte of the line has been written back
first (R181, R190). -/
def flagByte (s : State) (q : Iss) (a : Acc) (j : Nat) : Byte :=
  match a.loc with
  | .mem pa =>
    let l := s.hw.l1 q.core (Iss.lineCtx s.hw q a) (lineOf pa)
    (guardByte s q a (pa + j)).getD (asRead s (pa + j)
      (if l.dirty.getLsbD (pa % 128 + j) then Tab.getD l.bytes (pa % 128 + j) 0#8 else s.byte (pa + j)))
  | _ => loadByte s q a j

/-- A byte of memory is as it was, or the issuing core has written its own dirty byte back. -/
def FromOwn (s : State) (q : Iss) (x : Nat) (b : Byte) : Prop :=
  b = s.byte x ∨ ∃ c, (c = Iss.ctx s.hw q ∨ c = 0) ∧ (s.hw.l1 q.core c (lineOf x)).dirty.getLsbD (x % 128) = true ∧
    b = Tab.getD (s.hw.l1 q.core c (lineOf x)).bytes (x % 128) 0#8

/-- Bytes of a lane's data operand, least significant first. -/
def dataOf (q : Iss) (u : Use) (a : Acc) : List Byte :=
  (List.range a.size).map fun j => (q.w.readAt u (j / 4) a.lane >>> (8 * (j % 4))).setWidth 8

/-- Bytes that lanes store, in lane order: to memory, by the key of the L1 context; to guarded memory of unit u; to a
scratchpad. -/
def toMemory (s : State) (q : Iss) (u : Use) (as : List Acc) : List ((Nat × Nat) × Byte) :=
  as.flatMap fun a => match a.loc with
    | .mem pa => if (Iss.guardOf s.hw q a.va a.size).isSome then []
      else (dataOf q u a).zipIdx.map fun x => ((Iss.lineCtx s.hw q a, pa + x.2), x.1)
    | _ => []
def toGuard (s : State) (q : Iss) (u : Use) (n : Nat) (as : List Acc) : List (Nat × Byte) :=
  as.flatMap fun a => match a.loc with
    | .mem pa => if Iss.guardOf s.hw q a.va a.size = some n then (dataOf q u a).zipIdx.map fun x => (pa + x.2, x.1) else []
    | _ => []
def toScratch (q : Iss) (u : Use) (as : List Acc) : List ((Nat × Nat) × Byte) :=
  as.flatMap fun a => match a.loc with
    | .scr core off => (dataOf q u a).zipIdx.map fun x => ((core, off + x.2), x.1)
    | _ => []

/-- Every byte of scratchpad and of guarded memory, as the storing core sees it, after lanes have stored u: the stored byte, or the
byte as it was. -/
structure Stored (q : Iss) (u : Use) (as : List Acc) (s t : State) : Prop where
  scr  : ∀ f c o, Tab.getD (t.hw.fcore f c).spad o 0#8 =
    if f = q.fn then (lastAt (toScratch q u as) (c, o)).getD (Tab.getD (s.hw.fcore f c).spad o 0#8)
    else Tab.getD (s.hw.fcore f c).spad o 0#8
  unit : ∀ n a, (Tab.find? s.hw.units n).isSome = true → unitByte t q.core n a =
    match lastAt (toGuard s q u n as) a with
    | some b => some b
    | none => unitByte s q.core n a

/-- A .d store of u (R185, R351): its bytes are the core's own from now on; where no line has to leave its L1 for them, no byte of
memory changes. -/
def StoresPlain (i : Instr) (u : Use) (z : Nat) (addr : Iss → Nat → DWord) : Prop :=
  ∀ s q as, Issues i s q → Accesses s q ⟨.data, true, false, szBytes z, 0, false, false, none⟩ (addr q) as →
    ∃ t w, exec i s = .next t ∧ Around i q s t w ∧ w.empty = q.w.empty ∧ w.pend = q.w.pend ∧ w.sync = q.w.sync ∧
      Stored q u as s t ∧
      (∀ x, FromL1 s q x (t.byte x) ∨ ∃ b ∈ toMemory s q u as, b.1.2 = x ∧ t.byte x = b.2) ∧
      (L1Room s q true as → t.mem = s.mem ∧
        (q.w.poppedRels i = [] → ∀ c x l k, x < 2 ^ 20 → l < 2 ^ 45 → k < 128 → coreByte t c x l k =
          if c = q.core then (lastAt (toMemory s q u as) (x, 128 * l + k)).getD (coreByte s c x l k) else coreByte s c x l k))

/-- Releases that a flag write of lanes carries at scope `sc`: the instruction's own, and those that a fence left pending, at the
wider of the two scopes (R182, R360). -/
def releases (q : Iss) (own : Bool) (sc : Scope) : List Scope := q.lanes.filterMap (q.relScope own sc)
/-- No release waits: for an element of its warp, or for the write-back of a line that an engine owns (R189, R352). -/
def ReleasesNow (s : State) (q : Iss) (rels : List Scope) : Prop :=
  rels = [] ∨ s.hw.releaseWaits q.wk q.core (Iss.ctx s.hw q) (widest rels) = false

/-- A .rel or .flg store (R351, R360): its bytes are at home, no lane keeps a pending release, and every other byte of
memory is as it was or was written back by the storing core. -/
def StoresHome (i : Instr) (u : Use) (own : Bool) (sc : Scope) (z : Nat) (addr : Iss → Nat → DWord) : Prop :=
  ∀ s q as, Issues i s q → Room s q 2 → ReleasesNow s q (releases q own sc) → OneView s q as →
    Accesses s q ⟨.flg, true, false, szBytes z, if widest (releases q own sc) ≠ .warp then 1 else 0, false, false, none⟩ (addr q) as →
    ∃ t w, exec i s = .next t ∧ Around i q s t w ∧ w.empty = q.w.empty ∧ w.sync = q.w.sync ∧
      w.pend = Tab.keep (fun n _ => !q.lanes.contains n) q.w.pend ∧ Stored q u as s t ∧
      ∀ x, match lastAt ((toMemory s q u as).map fun y => (y.1.2, y.2)) x with
        | some b => t.byte x = b
        | none => FromOwn s q x (t.byte x)

/-- A load performed at the home in the step that issues it, label .flg (R178, R181). -/
def LoadsFlag (i : Instr) (u : Use) (z : Nat) (sc : Scope) (addr : Iss → Nat → DWord) : Prop :=
  ∀ s q as, Issues i s q → ¬ inQueue u → Accesses s q ⟨.flg, false, false, szBytes z, 0, false, false, none⟩ (addr q) as →
    ∃ t w f, exec i s = .next t ∧ Around i q s t w ∧ Launches q s t w u (.load 5 sc z false) f ∧
      (∀ x, FromOwn s q x (t.byte x)) ∧
      (OneView s q as → ∀ a ∈ as, Tab.getD f.vals a.lane 0#128 = loaded z ((List.range a.size).map (flagByte s q a)))

/-- An address in the barrier alias, of which an acquire makes no interval event (Table 14.4). -/
def inAlias (va : DWord) : Bool := va.extractLsb' 56 8 == 0xFE#8 && decide (0xF8000 ≤ va.toNat % 2 ^ 20)

/-- A load of label .acq: nothing is read yet, and the path issues nothing more until it has been performed (R352). -/
def LoadsAcquire (i : Instr) (u : Use) (z : Nat) (sc : Scope) (addr : Iss → Nat → DWord) : Prop :=
  ∀ s q as, Issues i s q → Room s q 2 → ¬ inQueue u →
    Accesses s q ⟨.flg, false, false, szBytes z,
      if sc ≠ .warp ∧ q.lanes.all (fun n => inAlias (addr q n)) = false then 1 else 0, false, false, none⟩ (addr q) as →
    ∃ t w f, exec i s = .next t ∧ Around i q s t w ∧ BytesKept i q s t ∧ Launches q s t w u (.load 1 sc z false) f ∧
      f.vals = [] ∧ f.lanes = q.lanes.map (fun n => (n, addr q n)) ∧ f.locs = as.map (fun a => (a.loc, a.leaf)) ∧
      (w.path q.x).hold = some s.hw.nextId ∧
      t.hw.agenda = s.hw.agenda ++ [.event .loadReturn { Occasion.none with unit := s.hw.nextId, aux := f.tag }]

/-- The registers of a warp after the values of flight `f` have landed: `f.nreg` words from `f.dreg` on, of each lane in a
vector register and of the lowest in a uniform one; the landed registers are full (R76, R163). -/
structure Landed (f : Flight) (vals : List (Nat × BitVec 128)) (v w : Warp) : Prop where
  vec   : ∀ r n, n < 1024 → w.getV r n =
    match vals.find? fun x => x.1 == n with
    | some x => if f.dreg < 256 ∧ f.dreg ≤ r ∧ r < f.dreg + f.nreg then (wordsOfVal f.nreg x.2).getD (r - f.dreg) 0#32 else v.getV r n
    | none => v.getV r n
  full  : ∀ r n, n < 1024 → (w.isEmpty r n = true ↔
    (v.isEmpty r n = true ∧ ¬(f.dreg < 256 ∧ n ∈ vals.map (·.1) ∧ f.dreg ≤ r ∧ r < f.dreg + f.nreg)))
  uni   : ∀ r, w.getU r =
    match vals.find? fun x => x.1 == (f.lanes.map (·.1)).headD 0 with
    | some x => if 256 ≤ f.dreg ∧ f.dreg < 999 ∧ f.dreg - 256 ≤ r ∧ r < f.dreg - 256 + f.nreg then
        (wordsOfVal f.nreg x.2).getD (r - (f.dreg - 256)) 0#32 else v.getU r
    | none => v.getU r
  preds : w.preds = v.preds
  kept  : calmWarp w = calmWarp { v with
    vregs := w.vregs, empty := w.empty, uregs := w.uregs, p0 := w.p0, p1 := w.p1, frame := w.frame, replayFirst := w.replayFirst
    sync := w.sync }

/-- A return of flight `id`, f, for warp v: registers, the flight gone, nothing else moved. -/
def Lands (i : Instr) (s : State) (id : Nat) (f : Flight) (v : Warp) (vals : List (Nat × BitVec 128)) : Prop :=
  ∃ t w, exec i s = .next t ∧ t.hw.warp? f.wk = some w ∧ Landed f vals v w ∧
    Tab.find? t.hw.flights id = none ∧ (∀ n, n ≠ id → Tab.find? t.hw.flights n = Tab.find? s.hw.flights n) ∧
    (∀ k, k ≠ f.wk → t.hw.warp? k = s.hw.warp? k) ∧ t.mem = s.mem ∧ t.clk = s.clk ∧
    t.hw = { s.hw with warps := t.hw.warps, flights := t.hw.flights, tried := [] }

/-! ## Atomics -/

/-- What an operation of Table 14.5 writes, of the old value, b and the compare operand; none where nothing is written. -/
def rmw (op : AtomOp) (mode ver : Nat) (old b cmp : DWord) : Option DWord :=
  let o := BitVec.ofNat 32 old.toNat
  let x := BitVec.ofNat 32 b.toNat
  let word (n : Nat) : Option DWord := some (BitVec.ofNat 64 (n % 2 ^ 32))
  match op with
  | .add => word (o.toNat + x.toNat)
  | .min => word (if x.toInt < o.toInt then x.toNat else o.toNat)
  | .max => word (if o.toInt < x.toInt then x.toNat else o.toNat)
  | .minu => word (min o.toNat x.toNat)
  | .maxu => word (max o.toNat x.toNat)
  | .and => word (o &&& x).toNat
  | .or => word (o ||| x).toNat
  | .xor => word (o ^^^ x).toNat
  | .fadd => word (Fmt.fp32.bits mode ver ((Fmt.fp32.operand ver o.toNat).add mode (Fmt.fp32.operand ver x.toNat)))
  | .bfadd2 => word (elements (Fmt.bf16.add mode ver) o.toNat x.toNat)
  | .addD => some (BitVec.ofNat 64 (old.toNat + b.toNat))
  | .xchg => word x.toNat
  | .xchgD => some b
  | .cas => if o = BitVec.ofNat 32 cmp.toNat ∧ x ≠ o then word x.toNat else none
  | .casD => if old = cmp ∧ b ≠ old then some b else none

/-- The 32-bit or 64-bit value that a lane reads at an operand. -/
def operandOf (q : Iss) (n : Nat) (u : Use) (lane : Nat) : DWord :=
  if n = 8 then q.w.read64 u lane else (q.w.read u lane).setWidth 64

/-- What an atomic or reduction asks of its accesses (R276, R348). -/
def atomAsk (op : AtomOp) (cls : Cls) (q : Iss) (sc : Nat) : Ask :=
  ⟨cls, true, true, op.size, if cls ≠ .red ∧ widest (releases q false (scopeOfNat sc)) ≠ .warp then 1 else 0,
    scopeOfNat sc == .system, false, none⟩
/-- It may be made now: its releases do not wait, and its old values are no push register's. -/
def AtomNow (s : State) (q : Iss) (cls : Cls) (ret : Option Use) (sc : Nat) : Prop :=
  Room s q 2 ∧ (cls = .red ∨ ReleasesNow s q (releases q false (scopeOfNat sc))) ∧
  ∀ u, ret = some u → ¬ inQueue u ∧ Iss.answered s.hw q = none

/-- An atomic or reduction on memory that issues: one element per active lane goes to the retriever of the element's home, in lane
order, with its operands, into the queue or behind what waits for a place there; nothing is performed yet (R193, R194, R354, R358). -/
def Sends (i : Instr) (op : AtomOp) (cls : Cls) (ret : Option Use) (ua ub : Use) (sc : Nat) : Prop :=
  ∀ s q as, Issues i s q → AtomNow s q cls ret sc →
    (∀ a ∈ as, ∃ pa, a.loc = .mem pa ∧ farOf a.leaf pa (scopeOfNat sc == .system) true = false) →
    Accesses s q (atomAsk op cls q sc) (q.w.read64 ua) as →
    ∃ t w, exec i s = .next t ∧ Around i q s t w ∧ w.sync = q.w.sync ∧
      w.pend = (if cls = .red then q.w.pend else Tab.keep (fun n _ => !q.lanes.contains n) q.w.pend) ∧
      (∀ x, FromOwn s q x (t.byte x)) ∧ (∀ f c, (t.hw.fcore f c).spad = (s.hw.fcore f c).spad) ∧
      (match ret with
       | none => t.hw.flights = s.hw.flights ∧ w.empty = q.w.empty
       | some u => ∃ f, Launches q s t w u .atomic f ∧ f.vals = []) ∧
      ∀ r, ((t.hw.ring r).retq ++ (t.hw.ring r).pend).map (fun x => (x.op, x.loc, x.b, x.wk, x.lane, x.ret)) =
          ((s.hw.ring r).retq ++ (s.hw.ring r).pend).map (fun x => (x.op, x.loc, x.b, x.wk, x.lane, x.ret)) ++
        (as.filter fun a => match a.loc with
          | .mem pa => s.hw.elemRing (Iss.ctx s.hw q) a.leaf pa q.core == r
          | _ => false).map fun a => (op, a.loc, operandOf q op.size ub a.lane, q.wk, a.lane, ret.map fun _ => s.hw.nextId)

/-- The bytes of a lane's place in scratchpad, or in memory as a read delivers them after the core's own have gone home. -/
def placeByte (s : State) (q : Iss) (a : Acc) (j : Nat) : Byte := flagByte s q a j

/-- An atomic or reduction of one lane that no retriever serves - of scratchpad, or of a peer package's memory at system scope - is
performed in the step that issues it (R194, R355, R357): the place holds the new value, the old one has landed, and every other byte
of scratchpad and memory is unchanged but for the core's own bytes written back. -/
def PerformsAtOnce (i : Instr) (op : AtomOp) (cls : Cls) (ret : Option Use) (ua ub : Use) (sc : Nat) : Prop :=
  ∀ s q a, Issues i s q → AtomNow s q cls ret sc →
    (match a.loc with
     | .scr _ _ => True
     | .mem pa => farOf a.leaf pa (scopeOfNat sc == .system) true = true
     | .alias_ _ => False) →
    Accesses s q (atomAsk op cls q sc) (q.w.read64 ua) [a] →
    ∃ t w, exec i s = .next t ∧ t.hw.warp? q.wk = some w ∧ (w.path q.x).pc = after q ∧
      let old := BitVec.ofNat 64 (leNat ((List.range op.size).map (placeByte s q a)))
      let new := (rmw op (q.w.rmode.toNat % 8) (q.w.nbv.toNat % 4) old (operandOf q op.size ub a.lane)
        (match ret with | some u => operandOf q op.size u a.lane | none => 0#64)).getD old
      (∀ f c o, Tab.getD (t.hw.fcore f c).spad o 0#8 =
        match a.loc with
        | .scr core off => if f = q.fn ∧ c = core ∧ off ≤ o ∧ o < off + op.size then BitVec.ofNat 8 (new.toNat / 256 ^ (o - off))
          else Tab.getD (s.hw.fcore f c).spad o 0#8
        | _ => Tab.getD (s.hw.fcore f c).spad o 0#8) ∧
      (∀ x, match a.loc with
        | .mem pa => if pa ≤ x ∧ x < pa + op.size then t.byte x = BitVec.ofNat 8 (new.toNat / 256 ^ (x - pa)) else FromOwn s q x (t.byte x)
        | _ => FromOwn s q x (t.byte x)) ∧
      match ret with
      | none => RegsKept q w
      | some u => Holds q w u fun n => if n = a.lane then (List.range u.n).map fun j => old.extractLsb' (32 * j) 32 else []

/-- An atomic or reduction, wherever it is performed. -/
def Atomics (i : Instr) (op : AtomOp) (cls : Cls) (ret : Option Use) (ua ub : Use) (sc : Nat) : Prop :=
  Sends i op cls ret ua ub sc ∧ PerformsAtOnce i op cls ret ua ub sc

/-! ## Barriers and waits -/

/-- A warp apart from its monitors, its counts towards the watchdog and what barriers it is blocked on, which a completion ends (R364). -/
def unblocked (p : Path) : Path := { calm p with barOn := none }
def unblockedWarp (w : Warp) : Warp :=
  { w with p0 := unblocked w.p0, p1 := unblocked w.p1
           frame := w.frame.map fun f => { f with p0 := unblocked f.p0, p1 := unblocked f.p1 } }

/-- `Around` for an instruction that also writes registers or predicates, closes a batch, or puts `staged` on the queues. -/
structure Beside (i : Instr) (q : Iss) (s t : State) (w : Warp) (staged : EngKind → List Word := fun _ => []) : Prop where
  warp   : t.hw.warp? q.wk = some w
  clock  : t.clk = s.clk
  others : ∀ k, k ≠ q.wk → (t.hw.warp? k).map unblockedWarp = (s.hw.warp? k).map unblockedWarp
  kept   : unblockedWarp w = unblockedWarp { q.w with
    vregs := w.vregs, uregs := w.uregs, preds := w.preds, p0 := w.p0, p1 := w.p1, q0 := w.q0, q2 := w.q2, q4 := w.q4
    sync := w.sync, progressAt := w.progressAt, batch := w.batch }
  queues : QueuesStaged i q w staged
  path   : (w.path q.x).pc = after q ∧ (w.path q.x).mask = q.p.mask ∧ (w.path q.x).stack = q.p.stack ∧
    (w.path q.x).base = q.p.base
  other  : unblocked (w.path (!q.x)) = unblocked (q.w.path (!q.x))
  fns    : ∀ f, t.hw.fn f = { s.hw.fn f with ctrs := (t.hw.fn f).ctrs, intstat := (t.hw.fn f).intstat }
  parts  : ∀ p, t.hw.part p = { s.hw.part p with pmolost := (t.hw.part p).pmolost }
  scr    : ∀ f c, (t.hw.fcore f c).spad = (s.hw.fcore f c).spad
  bytes  : ∀ x, FromOwn s q x (t.byte x)

/-- Barrier n of block k. -/
def barrierAt (s : State) (k n : Nat) : Option Barrier := (s.hw.block? k).map fun b => Tab.getD b.bars n Barrier.fresh

/-- What Table 11.9 shows of a barrier. -/
def face (x : Barrier) : Bool × Nat × Nat × Nat × Int × Bool × Bool := (x.init, x.exp, x.arr, x.phase, x.bytes, x.bcnt, x.cluster)

/-- A barrier after an arrival that adds `n` bytes, if any (R364): the phase completes when the last party has arrived
and no byte is missing. -/
def afterArrival (x : Barrier) (n : Option Nat) : Bool × Nat × Nat × Nat × Int × Bool × Bool :=
  let bytes : Int := x.bytes + ((n.getD 0 : Nat) : Int)
  if x.arr + 1 = x.exp ∧ bytes = 0 then (x.init, x.exp, 0, (x.phase + 1) % 256, 0, false, x.cluster)
  else (x.init, x.exp, x.arr + 1, x.phase, bytes, n.isSome || x.bcnt, x.cluster)

/-- Every barrier but n of block k is as before. -/
def OtherBarriers (s t : State) (k n : Nat) : Prop := ∀ k' n', (k', n') ≠ (k, n) → barrierAt t k' n' = barrierAt s k' n'

/-- The path waits at its instruction: nothing else of its warp has changed. -/
def Waits (q : Iss) (t : State) (reason : Nat) : Prop :=
  ∃ w, t.hw.warp? q.wk = some w ∧ (w.path q.x).pc = q.p.pc ∧ (w.path q.x).stall = reason ∧ (w.path q.x).mask = q.p.mask ∧
    w.vregs = q.w.vregs ∧ w.uregs = q.w.uregs ∧ w.preds = q.w.preds ∧ w.mode = q.w.mode ∧ (q.wk, q.x) ∈ t.hw.tried

/-! ## Control flow -/

/-- What a control-flow instruction leaves alone: the clock, memory, every other warp, every block but through popped
tokens, and of its own warp all but its paths, its lanes and its watchdog time. -/
structure Steered (i : Instr) (q : Iss) (s t : State) (w : Warp) : Prop where
  warp   : t.hw.warp? q.wk = some w
  others : ∀ k, k ≠ q.wk → t.hw.warp? k = s.hw.warp? k
  clock  : t.clk = s.clk
  memory : t.mem = s.mem
  quiet  : q.w.poppedRels i = [] → t.hw.blocks = s.hw.blocks ∧ t.hw.cores = s.hw.cores
  parts  : t.hw.parts = s.hw.parts
  scr    : t.hw.fcores = s.hw.fcores
  kept   : w = { q.w with
    p0 := w.p0, p1 := w.p1, split := w.split, exited := w.exited, q0 := w.q0, q2 := w.q2, q4 := w.q4
    progressAt := w.progressAt, pend := w.pend, sync := w.sync }
  queues : QueuesPopped i q w

/-- Where a path stands: address, active lanes, join stack, base. -/
def stands (p : Path) : DWord × Mask × List JEntry × Nat := (p.pc, p.mask, p.stack, p.base)

/-- `i` moves the path to `pc`, its lanes and its join stack as they were, and changes nothing else. -/
def Jumps (i : Instr) (s : State) (q : Iss) (pc : DWord) : Prop :=
  ∃ t w, exec i s = .next t ∧ Steered i q s t w ∧ stands (w.path q.x) = (pc, q.p.mask, q.p.stack, q.p.base) ∧
    w.path (!q.x) = q.w.path (!q.x) ∧ w.split = q.w.split ∧ w.exited = q.w.exited

/-- `i` leaves the path at `p`'s place, the other path and the warp's split join as they were. -/
def Steers (i : Instr) (s : State) (q : Iss) (pl : DWord × Mask × List JEntry × Nat) : Prop :=
  ∃ t w, exec i s = .next t ∧ Steered i q s t w ∧ stands (w.path q.x) = pl ∧ (w.path q.x).atJoin = q.p.atJoin ∧
    calm (w.path (!q.x)) = calm (q.w.path (!q.x)) ∧ w.split = q.w.split ∧ w.exited = q.w.exited

/-- Branch target (R295): the next instruction plus four times the signed offset. -/
def branchTarget (q : Iss) (k : BitVec 19) : DWord := q.p.pc + 4#64 + BitVec.ofInt 64 (4 * k.toInt)

/-! ## Exceptions -/

/-- A warp in user mode whose partition has a handler that takes entries (R413). -/
def CanEnter (q : Iss) (s : State) : Prop :=
  q.w.mode = .user ∧ (s.hw.part (s.hw.partOf q.fn)).phvec ≠ 0#64 ∧ (s.hw.part (s.hw.partOf q.fn)).imask.getLsbD 0 = false

/-- A flight of the warp's other path that becomes a replay packet at a trap of path q.x: a load or an iterative pass (R76, R154). -/
def Packs (q : Iss) (f : Flight) : Prop := f.wk = q.wk ∧ f.path ≠ q.x ∧ f.kind ≠ .atomic ∧ f.kind ≠ .late

/-- The warp has entered handler mode with trap registers c, its instruction's address, a and o (R413, R154): both paths
and the split join are in the trap frame; one path goes on at PHVEC with every lane that has not exited, an empty stack,
the unpacked placement and a count of 0; the other path's loads and iterative passes are replay packets; nothing else of the warp,
and nothing else at all, has changed. -/
structure Enters (q : Iss) (s t : State) (w : Warp) (c a o : DWord) : Prop where
  warp   : t.hw.warp? q.wk = some w
  regs   : w.mode = .handler ∧ w.trapc = c ∧ w.trappc = q.p.pc ∧ w.trapa = a ∧ w.trapo = o
  frame  : w.frame = some ⟨{ q.w.p0 with later := 0#32 }, { q.w.p1 with later := 0#32 }, q.w.split, q.x, q.p.pc⟩
  path   : stands w.p0 = ((s.hw.part (s.hw.partOf q.fn)).phvec, q.w.remaining, [], 0)
  fresh  : w.p0.live = true ∧ w.p0.packed = false ∧ w.p0.count = 0 ∧ w.p1.live = false ∧ w.split = none ∧ w.held = none
  kept   : w = { q.w with
    mode := w.mode, trapc := w.trapc, trappc := w.trappc, trapa := w.trapa, trapo := w.trapo, raceopc := w.raceopc
    frame := w.frame, p0 := w.p0, p1 := w.p1, split := w.split, held := w.held, progressAt := w.progressAt
    replayFirst := w.replayFirst }
  opc    : c.toNat % 256 ≠ 0x07 → c.toNat % 256 ≠ 0x14 → c.toNat % 256 ≠ 0x15 → w.raceopc = q.w.raceopc
  others : ∀ k, k ≠ q.wk → t.hw.warp? k = s.hw.warp? k
  packs  : ∀ id f, Tab.find? s.hw.flights id = some f → Packs q f →
    Tab.find? t.hw.flights id = some { f with replay := true, held := [] } ∧ id ∈ w.replayFirst
  flies  : ∀ id f, Tab.find? s.hw.flights id = some f → ¬ Packs q f → Tab.find? t.hw.flights id = some f
  lone   : (∀ x ∈ s.hw.flights, ¬ Packs q x.2) → t.hw.flights = s.hw.flights ∧ t.hw.agenda = s.hw.agenda ∧ w.replayFirst = q.w.replayFirst
  rest   : t.mem = s.mem ∧ t.clk = s.clk ∧ (c.toNat % 256 ≠ 0x07 → t.hw = { s.hw with
    warps := t.hw.warps, flights := t.hw.flights, agenda := t.hw.agenda, tried := [] })

/-- TRAPO where the cause gives nothing for it: the path's number (R154). -/
def pathNumber (q : Iss) : DWord := if q.x then 1#64 else 0#64

/-- A block killed with a cause (R415, R424): every warp of it has ended, no started command of it is lost, its first cause
stands, and its freeing is planned. -/
structure Killed (s t : State) (bk cause : Nat) (b : Block) : Prop where
  warps  : ∀ k w, wkBlock k = bk → t.hw.warp? k = some w → w.done = true
  others : ∀ k, wkBlock k ≠ bk → t.hw.warp? k = s.hw.warp? k
  block  : ∃ c, t.hw.block? bk = some c ∧ c.killed = true ∧ c.cause = (if b.cause = 0 then cause else b.cause)
  cmds   : ∀ n c, Tab.find? s.hw.cmds n = some c → (c.started = true ∨ wkBlock c.wk ≠ bk) → Tab.find? t.hw.cmds n = some c
  memory : t.mem = s.mem ∧ t.clk = s.clk

/-! ## Engine commands -/

/-- Register j of a group of uniform registers at a field (R394). -/
def groupAt (q : Iss) (a : RField) (j : Nat) : Word := q.w.getU (q.w.ubase + (a.toNat - 96) + j)

/-- First word of a command (Table 10.3), its SCOPE, TOK and TAG from EHDR (Table 16.3). -/
def commandHeader (ehdr : Word) (len opc : Nat) (timed bc : Bool) : Word :=
  0#6 ++ BitVec.ofBool bc ++ BitVec.ofBool timed ++ ehdr.extractLsb' 0 8 ++ ehdr.extractLsb' 8 1 ++ ehdr.extractLsb' 9 3 ++
    BitVec.ofNat 7 opc ++ BitVec.ofNat 5 len

/-- Word 1 of a matrix command from its unit word and N (Table 10.7, Table 16.2). -/
def unitWord (u n : Word) (pair : Bool) : Word :=
  BitVec.ofNat 32 (u.toNat % 64 + 64 * (n.toNat / 16 - 1) + if pair && u.getLsbD 8 then 2048 else 0)
/-- A unit word and an N that a matrix command can hold (R396). -/
def unitFits (u n : Word) (pair : Bool) : Prop :=
  (u.toNat < 64 ∨ (pair = true ∧ 256 ≤ u.toNat ∧ u.toNat < 320)) ∧ 16 ≤ n.toNat ∧ n.toNat ≤ 512 ∧ n.toNat % 16 = 0

/-- Words of a copy or gather command from its blocks (Table 16.4), of a ring command from its block (Table 16.5). -/
def copyCommand (q : Iss) (len opc : Nat) (timed : Bool) (a b : RField) : List Word :=
  [commandHeader q.w.ehdr len opc timed ((groupAt q a 6).getLsbD 31), groupAt q a 0, groupAt q a 1, groupAt q a 2, groupAt q a 3,
    groupAt q b 0, groupAt q b 1, groupAt q b 2,
    if opc = 0x20 ∨ (groupAt q a 0 = 0#32 ∧ groupAt q a 1 = 0#32) then 0#32 else groupAt q b 3,
    groupAt q a 4, groupAt q a 5, BitVec.ofNat 32 ((groupAt q a 6).toNat % 2 ^ 11)] ++
    if timed then [groupAt q a 8, groupAt q a 9] else []
def ringCommand (q : Iss) (len opc : Nat) (timed : Bool) (a : RField) : List Word :=
  [commandHeader q.w.ehdr len opc timed ((groupAt q a 6).getLsbD 31), groupAt q a 0, groupAt q a 1, groupAt q a 2, groupAt q a 4,
    groupAt q a 5, BitVec.ofNat 32 ((groupAt q a 6).toNat % 2 ^ 11)] ++ if timed then [groupAt q a 8, groupAt q a 9] else []

/-- Nothing that an access meets makes it wait: no engine owns a line, every link carries requests, no channel is in self-refresh,
no block is rebased (R15, R19, R189, R209). -/
def AtRest (s : State) : Prop :=
  s.hw.owners = [] ∧ (∀ a b, s.hw.carries a b = true) ∧ (∀ c, s.hw.asleep c = false) ∧ ∀ x ∈ s.hw.blocks, x.2.rebasing = false

/-- The engine of a warp's queue can take a command of these words (R68, R252, R395, R450). -/
def CanPush (s : State) (q : Iss) (k : EngKind) (ws : List Word) : Prop :=
  AtRest s ∧ (q.w.queue k).staging = [] ∧ s.hw.ownsEngine q.fn q.core k = true ∧
    s.hw.roomTaken q.wk 11 (roomKey q.core (some k)) = false ∧
    s.hw.queueFull q.fn q.core k (pairedCmd (hdrOpc (ws.headD 0#32)) (ws.getD 1 0#32) && q.core % 2 == 0) = false ∧
    ((ws.headD 0#32).getLsbD 15 = true → (q.w.queue k).tokens.length + (q.w.queue k).reserved < 16)

/-- The command numbered `id` that a push of `ws` on queue k makes (R248, R251, R252), at the end of its queue. -/
structure Pushed (s t : State) (q : Iss) (k : EngKind) (ws : List Word) (c : Cmd) : Prop where
  at_    : Tab.find? t.hw.cmds s.hw.nextId = some c
  others : ∀ n, n ≠ s.hw.nextId → Tab.find? t.hw.cmds n = Tab.find? s.hw.cmds n
  words  : c.words = ws ∧ c.kind = k ∧ c.opc = hdrOpc (ws.headD 0#32)
  who    : c.fn = q.fn ∧ c.wk = q.wk ∧ c.core = q.core ∧ c.rmode = q.w.rmode ∧ c.nbv = q.w.nbv ∧ c.chint = q.w.chint
  head   : c.scope = scopeOfNat (hdrScope (ws.headD 0#32)) ∧ c.tok = (ws.headD 0#32).getLsbD 15 ∧
    c.tag = (ws.headD 0#32).extractLsb' 16 8 ∧ c.bc = (ws.headD 0#32).getLsbD 25
  start  : c.started = false ∧ c.moved = false ∧ c.batch = q.w.batch + 1 ∧
    c.at_ = if (ws.headD 0#32).getLsbD 24 then some (ws.getD (ws.length - 1) 0#32 ++ ws.getD (ws.length - 2) 0#32).toNat else none
  seq    : k ≠ .matrix → c.seq = q.w.seq + 1
  queue  : match k with
    | .matrix => (t.hw.fcore q.fn q.core).mq = (s.hw.fcore q.fn q.core).mq ++ [s.hw.nextId]
    | .copy => (t.hw.fcore q.fn q.core).cq = (s.hw.fcore q.fn q.core).cq ++ [s.hw.nextId]
    | .ring => (t.hw.fcore q.fn q.core).gq = (s.hw.fcore q.fn q.core).gq ++ [s.hw.nextId]

/-- What the push of a command leaves alone: every other warp, scratchpad, memory but for the core's own bytes written back
(R188); of the warp, all but counts of its commands and what retirement changes. -/
structure PushFrame (q : Iss) (s t : State) (w : Warp) (k : EngKind) (tok : Bool) : Prop where
  warp   : t.hw.warp? q.wk = some w
  clock  : t.clk = s.clk
  others : ∀ n, n ≠ q.wk → t.hw.warp? n = s.hw.warp? n
  bytes  : ∀ x, FromOwn s q x (t.byte x)
  scr    : ∀ f c, (t.hw.fcore f c).spad = (s.hw.fcore f c).spad
  goes   : stands (w.path q.x) = (after q, q.p.mask, q.p.stack, q.p.base)
  other  : w.path (!q.x) = q.w.path (!q.x)
  counts : w.mseq = q.w.mseq + (if k = .matrix then 1 else 0) ∧ w.seq = q.w.seq + (if k = .matrix then 0 else 1) ∧
    (w.queue k).reserved = (q.w.queue k).reserved + (if tok then 1 else 0) ∧ ∀ e, (w.queue e).staging = (q.w.queue e).staging
  kept   : w = { q.w with
    vregs := w.vregs, uregs := w.uregs, p0 := w.p0, p1 := w.p1, q0 := w.q0, q2 := w.q2, q4 := w.q4, mseq := w.mseq
    seq := w.seq, batchOf := w.batchOf }

/-- A matrix instruction pushes `ws` on q0 and changes no register. -/
def MatrixPush (i : Instr) (s : State) (q : Iss) (ws : List Word) : Prop :=
  Issues i s q → Room s q 3 → CanPush s q .matrix ws → ∃ t w c, exec i s = .next t ∧
    PushFrame q s t w .matrix ((ws.headD 0#32).getLsbD 15) ∧ Pushed s t q .matrix ws c ∧ RegsKept q w
/-- A copy, gather or ring instruction pushes `ws` and delivers the command's sequence number. -/
def SequencedPush (i : Instr) (d : RField) (k : EngKind) (s : State) (q : Iss) (ws : List Word) : Prop :=
  Issues i s q → Room s q 3 → CanPush s q k ws → ∃ t w c, exec i s = .next t ∧
    PushFrame q s t w k ((ws.headD 0#32).getLsbD 15) ∧ Pushed s t q k ws c ∧
    Holds q w (Use.dst d) fun _ => [BitVec.ofNat 32 (q.w.seq + 1)]

/-! ## Tags, tables, system registers -/

/-- The highest of the lanes that meets `p`. -/
def lastLane (q : Iss) (p : Nat → Bool) : Option Nat := q.lanes.reverse.find? p

/-- Every lane's address at an operand lies in memory or in scratchpad, at `loc` (R95, R404). -/
def TilesAt (s : State) (q : Iss) (write : Bool) (u : Use) (loc : Nat → Loc) : Prop :=
  ∀ n ∈ q.lanes, ∃ leaf, Iss.locate s.hw ⟨s.clk, s.mem⟩ q ⟨write, false⟩ (q.w.read64 u n) 1 = .ok (loc n, leaf) ∧
    match loc n with
    | .alias_ _ => False
    | .scr _ _ => True
    | .mem pa => write = true → paKind pa = .hbm

/-- The tag of the tile at a place (R86, R87). -/
def tagAt (s : State) (fn : Nat) : Loc → BitVec 16
  | .mem pa => if paKind pa = .hbm then Tab.getD s.hw.tags (pa / 4096) 0x1000#16 else 0x1000#16
  | .scr core off => Tab.getD (s.hw.fcore fn core).tags (off / 4096) 0x1000#16
  | .alias_ _ => 0x1000#16

/-- Two places in the same tile. -/
def sameTile : Loc → Loc → Bool
  | .mem a, .mem b => a / 4096 == b / 4096
  | .scr c a, .scr d b => c == d && a / 4096 == b / 4096
  | _, _ => false

/-- `Beside` without its clause on functions and partitions, for instructions that write their registers. -/
structure Serves (i : Instr) (q : Iss) (s t : State) (w : Warp) : Prop where
  warp   : t.hw.warp? q.wk = some w
  clock  : t.clk = s.clk
  path   : stands (w.path q.x) = (after q, q.p.mask, q.p.stack, q.p.base)
  regs   : RegsKept q w ∧ w.preds = q.w.preds ∧ w.mode = q.w.mode
  queues : QueuesPopped i q w
  scr    : ∀ f c, (t.hw.fcore f c).spad = (s.hw.fcore f c).spad

/-- No byte of memory and no other warp changes. -/
def Alone (q : Iss) (s t : State) : Prop := t.mem = s.mem ∧ ∀ k, k ≠ q.wk → t.hw.warp? k = s.hw.warp? k

/-- The number that `n` bytes of memory make from an address. -/
def numberAt (s : State) (pa n : Nat) : Nat := leNat ((List.range n).map fun j => s.byte (pa + j))

/-- The buffer of an instruction lies in ordinary memory from `pa` on: each part of a line translates to its place, by a
cached translation, which the writes themselves cannot change. -/
def BufferAt (s : State) (q : Iss) (write : Bool) (va : DWord) (len pa : Nat) : Prop :=
  pa % 256 = 0 ∧ pa + len ≤ 0x9000000000 ∧ ∀ x n, x + n ≤ len → n ≤ 128 →
    (s.hw.cached q.core (Iss.ctx s.hw q) ((va + BitVec.ofNat 64 x).toNat % 2 ^ 57)).isSome = true ∧ ∃ leaf, Iss.locate s.hw ⟨s.clk, s.mem⟩ q ⟨write, false⟩ (va + BitVec.ofNat 64 x) n = .ok (.mem (pa + x), leaf)

/-- Length of a block's dump (Tables 11.8, 11.9): header, registers, scratchpad, barriers. -/
def dumpLength (s : State) (q : Iss) : Nat :=
  up256 (up256 (0x100 + ((s.hw.warpsOf q.bk).map fun e => e.2.imageLen).sum) + (s.hw.scrSection q.fn q.b).length) +
    16 * q.b.shape.bars

/-! ## Steps of the package -/

/-- What the meaning of a step reads. -/
def env (s : State) : Env := ⟨s.clk, s.mem⟩

/-- The step changes the package to `h`, and nothing else at all. -/
def Turns (i : Instr) (s : State) (h : Hw) : Prop := exec i s = .next { s with hw := h }

/-- The step `i` about `o` is planned. -/
def Planned (t : State) (i : Instr) (o : Occasion) : Prop := Move.event i o ∈ t.hw.agenda

/-- The clock locks on the rings that meet `rs` are broken with a cause (R285): no function holds one of them, a function
that held one has BROKEN and the cause, and the ring is at operating point 0; every other lock and ring is as before. -/
structure Unlocked (s t : State) (rs : Nat → Bool) (cause : Nat) : Prop where
  fns  : ∀ f, t.hw.fn f = { s.hw.fn f with dbg := { (s.hw.fn f).dbg with
    locks := (s.hw.fn f).dbg.locks.filter fun r => !rs r
    broken := (s.hw.fn f).dbg.broken || (s.hw.fn f).dbg.locks.any rs
    bcause := if (s.hw.fn f).dbg.locks.any rs = true then cause else (s.hw.fn f).dbg.bcause } }
  open_ : ∀ r, rs r = true → (∃ f, r ∈ (s.hw.fn f).dbg.locks) → (t.hw.ring r).opp = 0
  kept : ∀ r, (rs r = false ∨ ∀ f, r ∉ (s.hw.fn f).dbg.locks) → (t.hw.ring r).opp = (s.hw.ring r).opp

/-- Stage i of the boot chain may run (R61). -/
def bootStep (i : Nat) : Bool := if i = 0 then romOk else stageOk i
/-- Its digest. -/
def bootDigest (i : Nat) : BitVec 512 := if i = 0 then Config.fuseRomDigest else (Config.stage i).digest

/-! ## Host accesses -/

/-- The BAR 2 access that the occasion is about. -/
def hostAccess (s : State) (write : Bool) (size : Nat) (atom : Option Nat) : HeldAccess :=
  { fn := s.hw.occ.unit, write := write, off := s.hw.occ.id, bytes := if write then s.hw.occ.bytes else [], size := size, atom := atom
    cmp := if atom.isSome then s.hw.occ.cmp else 0#64, since := s.clk.tick, homes := [], ticket := 0, lines := [] }

/-- It reaches memory at [pa, pa + size) by the page `l`, at `va`: the function answers and is active, the address is mapped and
allowed, no engine, link, channel or earlier access holds it, and no earlier access of its function waits at one of its homes (R15,
R19, R38, R39, R42, R189). -/
def HostReaches (s : State) (a : HeldAccess) (pa : Nat) (l : Leaf) (va : DWord) : Prop :=
  s.Inv ∧ s.hw.occ.flag = false ∧ s.hw.reaches a.fn a.off a.size = true ∧ (s.hw.fn a.fn).wake.state = .active ∧
  s.hw.window a.fn a.off = .memory ∧ s.hw.hostPlace (env s) a = .ok (pa, l, va) ∧
  s.hw.blocked a.fn s.hw.nextId l pa a.size = false ∧
  s.hw.behindHost s.hw.heldAcc { a with homes := s.hw.homesOf a.fn l pa a.size } = false

/-- Memory with `bs` written from `pa` on. -/
def Overwritten (s t : State) (pa : Nat) (bs : List Byte) : Prop :=
  ∀ x, t.byte x = if pa ≤ x ∧ x < pa + bs.length then bs.getD (x - pa) 0#8 else s.byte x

/-- Every warp as before, but that a monitor may have been triggered. -/
def WarpsCalm (s t : State) : Prop := ∀ k, (t.hw.warp? k).map calmWarp = (s.hw.warp? k).map calmWarp

/-! ## Queues and their commands -/

/-- Every queue but q of function f, and every other function's queues, are as before. -/
def OtherQueues (s t : State) (f q : Nat) : Prop := ∀ g r, (g, r) ≠ (f, q) → t.hw.sq g r = s.hw.sq g r

/-- Queue q of function f, changed to `x`, has been validated (Table 2.5): it stays in error, errs with the code of the first
check that fails, or fetches where it has entries; while its function is not active it is left as `y` (R81). -/
structure Validated (s t : State) (f q : Nat) (x y : SQ) : Prop where
  others : OtherQueues s t f q
  still  : t.mem = s.mem ∧ t.clk = s.clk
  inErr  : x.err = true → t.hw.sq f q = x
  errs   : x.err = false → s.hw.queueCode f x ≠ 0 →
    t.hw.sq f q = { x with err := true, code := s.hw.queueCode f x } ∧ (t.hw.fn f).intstat.getLsbD 1 = true
  held   : x.err = false → s.hw.queueCode f x = 0 → (s.hw.fn f).wake.state ≠ .active → t.hw.sq f q = y
  goes   : x.err = false → s.hw.queueCode f x = 0 → (s.hw.fn f).wake.state = .active → t.hw.sq f q = x ∧
    (x.en = true → x.rd ≠ x.wr → s.hw.accepts f = true → Planned t .commandFetch { Occasion.none with unit := f, id := q })

/-- Command `seq` of function f has ended (R52): it is gone, its journal entry is terminal, its completion word stands where it
asked for it, and its interrupt is raised. -/
structure Ended (s t : State) (f seq : Nat) (c : QCmd) (status cause : Nat) (rejected : Bool) : Prop where
  gone  : Tab.find? (t.hw.fn f).cmds seq = none
  entry : ∀ j, Tab.find? (s.hw.fn f).journal (seq % 8192) = some j → j.seq = seq → j.terminal = false → (s.hw.fn f).jbuf = [] →
    Tab.find? (t.hw.fn f).journal (seq % 8192) = some { j with
      state := if rejected then 5 else if status = 0 then 3 else 4
      status := status, cause := if status = 5 then cause else 0, tstamp := s.clk.tick }
  word  : c.caddr ≠ 0#64 → c.caddr.toNat % 8 = 0 → s.hw.inWindow f c.caddr 8 = true → ∀ k, k < 8 →
    t.byte (hostPa c.caddr + k) = (natLe 8 (completionWord c.ctag status cause seq)).getD k 0#8
  intr  : c.irq = true → (t.hw.fn f).intstat.getLsbD 0 = true

/-- The only bytes that may have changed are the completion word's. -/
def WordOnly (s t : State) (c : QCmd) : Prop := ∀ x, (x < hostPa c.caddr ∨ hostPa c.caddr + 8 ≤ x) → t.byte x = s.byte x

/-- The step dispatches command `seq` of function f, the next of its queue, whose addresses still pass (R46, R49). -/
def Dispatches (s : State) (f seq : Nat) (c : QCmd) (opc : Nat) : Prop :=
  s.Inv ∧ f = s.hw.occ.unit ∧ seq = s.hw.occ.id ∧ Tab.find? (s.hw.fn f).cmds seq = some c ∧ c.opc = opc ∧ c.disp = false ∧
  s.hw.trip = false ∧ (s.hw.fn f).wake.state = .active ∧ (s.hw.nextCommand f c.queue).map (·.1) = some seq ∧
  s.hw.addressesOk (env s) f c = true

/-- The command that queue q of function f fetches next, with the launch records and the tile list that its acceptance reads. -/
def nextFetch (s : State) (f q : Nat) : QCmd :=
  s.hw.withRecords (env s) f
    { queue := q, bytes := (List.range 64).map fun k => s.byte (hostPa (s.hw.sq f q).base + 64 * (s.hw.sq f q).rd + k)
      disp := false, waitAt := none, nomSlot := none, left := 0, cause := 0, recs := [], list := [] }

/-! ## Engines at work -/

/-- The command of the step stands first in its queue and may start (R252, R259, R399). -/
def Starts (s : State) (id : Nat) (c : Cmd) (b : Block) : Prop :=
  s.Inv ∧ id = s.hw.occ.unit ∧ Tab.find? s.hw.cmds id = some c ∧ s.hw.block? (wkBlock c.wk) = some b ∧ s.hw.mayStart id = true ∧
  c.status = 0 ∧ c.moved = false ∧ b.core = c.core ∧ c.core < 160 ∧
  (c.paired = true → c.core % 2 = 0) ∧ ∀ x ∈ s.hw.blocks, x.2.spBase + x.2.spBytes ≤ 0xA0000

/-- A byte of a core's scratchpad, and the number that n bytes make. -/
def scrByte (s : State) (fn core off : Nat) : Byte := Tab.getD (s.hw.fcore fn core).spad off 0#8
def scrNumber (s : State) (fn core off n : Nat) : Nat := leNat ((List.range n).map fun j => scrByte s fn core (off + j))
/-- Offset in its block of a local scratchpad address. -/
def offsetOf (va : DWord) : Nat := va.toNat % 2 ^ 20

/-- An accumulator: row i, column j of the units from u on (R239). -/
def accAt (s : State) (fn core u i j : Nat) : Word := Tab.getD (s.hw.fcore fn core).acc (2048 * (u + j / 16) + 16 * i + j % 16) 0#32

/-- The command `id`, as `c`, has started and its payload is over, with success or a failure; its words and flags stand. -/
def Moved (t : State) (id : Nat) (c d : Cmd) : Prop :=
  Tab.find? t.hw.cmds id = some d ∧ d.started = true ∧ d.moved = true ∧ d.words = c.words ∧ d.wk = c.wk ∧ d.core = c.core ∧
  d.kind = c.kind ∧ d.opc = c.opc ∧ d.tok = c.tok ∧ d.tag = c.tag ∧ d.seq = c.seq ∧ d.scope = c.scope

/-- What an array command's step leaves alone: every other command, the accumulators of other units, but for DRAIN all of
memory and scratchpad. -/
structure ArrayFrame (s t : State) (id : Nat) (c : Cmd) : Prop where
  clock  : t.clk = s.clk
  others : ∀ n, n ≠ id → Tab.find? t.hw.cmds n = Tab.find? s.hw.cmds n
  calm   : WarpsCalm s t
  retire : Planned t .matrixRetire { Occasion.none with unit := id }
  lent   : c.paired = true → (t.hw.fcore c.fn (c.core + 1)).lent = some id
  acc    : ∀ f k n, ¬(c.opc ≠ 5 ∧ f = c.fn ∧ (k = c.core ∨ (c.paired = true ∧ k = c.core + 1)) ∧ 2048 * c.unit ≤ n ∧
    n < 2048 * (c.unit + c.steps)) → k < 200 → Tab.getD (t.hw.fcore f k).acc n 0#32 = Tab.getD (s.hw.fcore f k).acc n 0#32
  memory : t.mem = s.mem
  scr    : c.opc ≠ 5 → ∀ f k, (t.hw.fcore f k).spad = (s.hw.fcore f k).spad

/-- What an operand's latch holds for its record offset (R258): where its block's scratchpad started, record and bytes. -/
def latched (s : State) (c : Cmd) (b : Block) (k : Nat) : Option (Nat × BitVec 512 × List (Nat × Byte)) :=
  let f := s.hw.fcore c.fn c.core
  match (if k = 3 then f.latchB else f.latchA) with
  | some (x, base, bits) => if x = b.spBase + (c.word k).toNat then some (base, bits, if k = 3 then f.latchBB else f.latchAB) else none
  | none => none
/-- The record of word k: latched, or in the block's scratchpad. -/
def operandBits (s : State) (c : Cmd) (b : Block) (k : Nat) : BitVec 512 :=
  match latched s c b k with
  | some x => x.2.1
  | none => BitVec.ofNat 512 (scrNumber s c.fn c.core (b.spBase + (c.word k).toNat % 2 ^ 20) 64)
def operandBase (s : State) (c : Cmd) (b : Block) (k : Nat) : Nat := ((latched s c b k).map fun x => x.1).getD b.spBase

/-- A latch holds local addresses, as every record has that was read before (R256, R258). -/
def LatchesLocal (s : State) (c : Cmd) (b : Block) : Prop :=
  let near (a : DWord) : Prop := a.toNat / 2 ^ 20 = 0xFE000000000 ∧ a.toNat % 2 ^ 20 < 0xA0000
  ∀ k x, latched s c b k = some x → x.1 ≤ 0xA0000 ∧ near (Rec.of x.2.1).base ∧ ((Rec.of x.2.1).geom ≠ 0 → near (Rec.of x.2.1).scb)

/-- The bytes of plane group g of a record in a core's scratchpad, its block starting at `base` (R242, R243, R256). -/
def groupBytes (s : State) (fn core base : Nat) (r : Rec) (g : Nat) : Frag :=
  let bytes (o n : Nat) : List Byte := (List.range n).map fun j => scrByte s fn core (base + o + j)
  let o := offsetOf r.base + g * Rec.dim r.str 0
  ⟨bytes o (r.pread * planeBytes r.spar), bytes (o + (r.effFmt 0 - 0x10) * planeBytes r.spar) (indexBytes r.spar),
    bytes (offsetOf r.scb + g * scaleBytes r.geom) (scaleBytes r.geom)⟩
/-- The first group of an operand: the latched bytes, or those in scratchpad. -/
def operandFrag (s : State) (c : Cmd) (b : Block) (k : Nat) : Frag :=
  match latched s c b k with
  | some x => Frag.ofCells (Rec.of x.2.1) x.2.2
  | none => groupBytes s c.fn c.core b.spBase (Rec.of (operandBits s c b k)) 0
/-- Group g of B. -/
def groupOfB (s : State) (c : Cmd) (b : Block) (g : Nat) : Frag :=
  if g = 0 then operandFrag s c b 3
  else groupBytes s c.fn c.core (operandBase s c b 3) (Rec.of (operandBits s c b 3)) g

/-- The new value of an accumulator element (R244): the old one plus the exact scaled sum of the products of two rows, rounded
once to nearest. -/
def matrixSum (nb ver : Nat) (zero : Bool) (a b : Array Int) (ea eb : Int × Int) (old : Word) : Word :=
  let dot (lo hi : Nat) : Int := ((List.range (hi - lo)).map fun k => a.getD (lo + k) 0 * b.getD (lo + k) 0).sum
  let part (x e : Int) : Fv := .fin (decide (x < 0)) x.natAbs e
  let sum := if nb = 2 then (part (dot 0 32) (ea.1 + eb.1)).add 0 (part (dot 32 64) (ea.2 + eb.2)) else part (dot 0 64) (ea.1 + eb.1)
  let c := Fmt.fp32.flushIn ver (if zero then 0 else old.toNat)
  BitVec.ofNat 32 (Fmt.fp32.flushIn ver (Fmt.fp32.bits 0 3 ((Fmt.fp32.val c).add 0 sum)))

/-- The sums of an MMA in one core, its A rows in `fa`: element (i, j) takes row i of A and row j of B. -/
def Multiplied (s t : State) (c : Cmd) (b : Block) (core : Nat) (fa : Frag) : Prop :=
  let ra := Rec.of (operandBits s c b 2)
  let rb := Rec.of (operandBits s c b 3)
  let sa := fa.side ra c.nbv.toNat
  let nb := if ra.geom = 2 ∨ rb.geom = 2 then 2 else 1
  ∀ i j, i < 128 → j < 16 * c.steps →
    let sb := (groupOfB s c b (j / 128)).side rb c.nbv.toNat
    accAt t c.fn core c.unit i j = matrixSum nb c.nbv.toNat (decide (3 ≤ c.opc)) (sa.vals.getD i #[]) (sb.vals.getD (j % 128) #[])
      (sa.exps.getD i (0, 0)) (sb.exps.getD (j % 128) (0, 0)) (accAt s c.fn core c.unit i j)

/-- A drained element (R246). -/
def drained (fmt : Nat) (c : Cmd) (ts x : Word) : Nat :=
  let ver := c.nbv.toNat
  let mode := if c.nbv = 1#32 then 1 else if c.nbv = 2#32 then 0 else if c.rmode.getLsbD 3 then 1 else c.rmode.toNat % 8
  let y := (Fmt.fp32.operand ver x.toNat).mul (Fmt.fp32.val ts.toNat)
  if fmt = 3 then Fmt.fp32.bits mode ver y
  else if fmt = 4 then Fmt.bf16.bits mode ver y
  else
    let s := fmt - 0x10
    let q : Int := match y with
      | .nan => 0
      | .inf n => if n then -(2 ^ (s - 1)) else 2 ^ (s - 1) - 1
      | .fin n m e => max (-(2 ^ (s - 1))) (min (2 ^ (s - 1) - 1) (roundInt mode n m e))
    (BitVec.ofInt s q).toNat

/-- The destination of a drain in one core: element (i, j) of a float format, or its bits in the planes (R246, R260). -/
def Drained (s t : State) (c : Cmd) (core base : Nat) (r : Rec) : Prop :=
  let f := tagFmt r.otag
  let z := f - 0x10
  let x (i j : Nat) : Nat := drained f c r.ts (accAt s c.fn core c.unit i j)
  (f = 3 ∨ f = 4 → ∀ i j k, i < 128 → j < 16 * c.steps → k < elemSize f →
    let o := i * Rec.dim r.str 0 + j * elemSize f
    scrByte t c.fn core (base + offsetOf r.base + (if tagLay r.otag = 3 then swizzle r.swz o else o) + k) =
      BitVec.ofNat 8 (x i j / 256 ^ k)) ∧
  (f ≠ 3 → f ≠ 4 → ∀ i j p, i < 128 → j < 16 * c.steps → p < z →
    (scrByte t c.fn core (base + offsetOf r.base + j / 64 * Rec.dim r.str 0 + 1024 * p + 8 * i + j % 64 / 8)).getLsbD (j % 8) =
      (x i j).testBit (z - 1 - p))

/-- A byte at a place. -/
def byteAt (s : State) (fn : Nat) : Loc → Nat → Byte
  | .mem pa, k => s.byte (pa + k)
  | .scr core off, k => scrByte s fn core (off + k)
  | .alias_ _, _ => 0#8
/-- Where an engine's access of n bytes lands: in scratchpad, or in memory by a cached translation, which no write of the
command can change. -/
def EngineAt (s : State) (c : Cmd) (write : Bool) (va : DWord) (n : Nat) (l : Loc) : Prop :=
  (isScr va = true ∨ (s.hw.cached c.core c.ctx (va.toNat % 2 ^ 57)).isSome = true) ∧
  ∃ leaf, s.hw.engLocate (env s) c write va n = .ok (l, leaf)
/-- Byte k of one place is not byte j of another. -/
def Apart (a : Loc) (n : Nat) (b : Loc) (m : Nat) : Prop :=
  match a, b with
  | .mem x, .mem y => x + n ≤ y ∨ y + m ≤ x
  | .scr p x, .scr q y => p ≠ q ∨ x + n ≤ y ∨ y + m ≤ x
  | _, _ => True
/-- Does a place hold byte x of memory, or byte o of a core's scratchpad? -/
def covers (l : Loc) (n x : Nat) : Prop := ∃ a, l = .mem a ∧ a ≤ x ∧ x < a + n
def coversScr (l : Loc) (n core o : Nat) : Prop := ∃ a, l = .scr core a ∧ a ≤ o ∧ o < a + n

/-- One move of a copy or gather with its places: a source (none for zeros), a destination, how many bytes. -/
structure Shift where
  src : Option Loc
  dst : Loc
  n   : Nat
/-- The moves of a job have these places; no destination meets another destination or a source. -/
def Placed (s : State) (c : Cmd) (j : Job) (l : List Shift) : Prop :=
  List.Forall₂ (fun (m : Option DWord × DWord × Nat) (x : Shift) => x.n = m.2.2 ∧ EngineAt s c true m.2.1 m.2.2 x.dst ∧
    (match m.1, x.src with
     | some a, some p => EngineAt s c false a m.2.2 p
     | none, none => True
     | _, _ => False)) j.moves l ∧
  l.Pairwise (fun x y => Apart x.dst x.n y.dst y.n) ∧
  (∀ x ∈ l, ∀ y ∈ l, ∀ p, y.src = some p → Apart x.dst x.n p y.n) ∧
  ∀ x ∈ l, ∀ pa, x.dst = .mem pa → Tab.find? s.hw.owners (lineOf pa) = none

/-- What a copy or gather does at its start: where nothing makes an access of it wait, its payload is over at once; else it starts
again later. -/
def Transfers (i : Instr) (opc : Nat) : Prop :=
  ∀ s id c b, Starts s id c b → c.opc = opc →
    let j := s.hw.jobOf (env s) c
    ∃ t d, exec i s = .next t ∧ t.clk = s.clk ∧ WarpsCalm s t ∧ Tab.find? t.hw.cmds id = some d ∧
      d.words = c.words ∧ (∀ n, n ≠ id → Tab.find? t.hw.cmds n = Tab.find? s.hw.cmds n) ∧ (AtRest s → d.moved = true) ∧
      (d.moved = true → d.started = true ∧ Planned t .copyCommandEnd { Occasion.none with unit := id }) ∧
      (d.moved = false → Planned t i { Occasion.none with unit := id } ∧ t.mem = s.mem ∧
        ∀ f k, (t.hw.fcore f k).spad = (s.hw.fcore f k).spad) ∧
      (j.bad ≠ 0 → d.moved = true → d.status = j.bad ∧ d.failA = j.badA ∧ t.mem = s.mem ∧
        (c.bc = true → d.unwritten = [(wkBlock c.wk, j.total)]) ∧ ∀ f k, (t.hw.fcore f k).spad = (s.hw.fcore f k).spad) ∧
      ∀ l, j.bad = 0 → Placed s c j l →
        (d.moved = true → d.status = 0 → ∀ x ∈ l, ∀ k, k < x.n → byteAt t c.fn x.dst k =
          match x.src with
          | some p => byteAt s c.fn p k
          | none => 0#8) ∧
        (∀ a, (∀ x ∈ l, ¬ covers x.dst x.n a) → t.byte a = s.byte a) ∧
        ∀ f k o, k < 200 → (f = c.fn → ∀ x ∈ l, ¬ coversScr x.dst x.n k o) → scrByte t f k o = scrByte s f k o

/-- What a warp keeps of a command that has ended (R222, R252): its token, its place in the counts. -/
structure Kept (c : Cmd) (v w : Warp) : Prop where
  token : (w.queue c.kind).tokens.map (·.1) = (v.queue c.kind).tokens.map (·.1) ++ (if c.tok then
    [BitVec.ofNat 32 (c.tag.toNat + c.status % 256 * 2 ^ 8 + c.opc * 2 ^ 16 + (if c.late then 2 ^ 23 else 0))] else [])
  room  : (w.queue c.kind).reserved = (v.queue c.kind).reserved - (if c.tok then 1 else 0)
  seq   : w.mseq = v.mseq - (if c.kind = .matrix then 1 else 0) ∧
    w.acqDone.map (fun x => x.1) = v.acqDone.map (fun x => x.1) ++ (if c.kind = .matrix then [] else [c.seq])
  fails : c.status ≠ 0 → (v.queue c.kind).failure = none → ∃ f, (w.queue c.kind).failure = some f ∧ f.trap = c.trap
  kept  : w = { v with q0 := w.q0, q2 := w.q2, q4 := w.q4, mseq := w.mseq, macqDone := w.macqDone, acqDone := w.acqDone }

/-- The end of a command whose payload is over and whose credits have been made. -/
def EndsCommand (i : Instr) : Prop :=
  ∀ s id c v, s.Inv → id = s.hw.occ.unit → Tab.find? s.hw.cmds id = some c → endStep c.opc = i → c.moved = true → c.credit = [] →
    c.packets = 0 → (c.bc = true → ∀ x ∈ c.unwritten, x.2 = 0) → c.stampVa = 0#64 → s.hw.warp? c.wk = some v →
    ∃ t w, exec i s = .next t ∧ t.clk = s.clk ∧ t.hw.warp? c.wk = some w ∧ Kept c v w ∧
      (∀ k, k ≠ c.wk → t.hw.warp? k = s.hw.warp? k) ∧ Tab.find? t.hw.cmds id = none ∧
      (∀ n, n ≠ id → Tab.find? t.hw.cmds n = Tab.find? s.hw.cmds n) ∧
      (∀ x ∈ t.hw.fcores, id ∉ x.2.mq ∧ id ∉ x.2.cq ∧ id ∉ x.2.gq ∧ x.2.lent ≠ some id) ∧ (∀ x ∈ t.hw.owners, x.2 ≠ id) ∧
      (∀ f k, (t.hw.fcore f k).spad = (s.hw.fcore f k).spad ∧ (t.hw.fcore f k).acc = (s.hw.fcore f k).acc) ∧
      (c.scope = .warp → t.mem = s.mem) ∧
      ∀ x, t.byte x = s.byte x ∨ ((s.hw.l1 c.core c.ctx (lineOf x)).dirty.getLsbD (x % 128) = true ∧
        t.byte x = Tab.getD (s.hw.l1 c.core c.ctx (lineOf x)).bytes (x % 128) 0#8)

/-- The packets that a payload of n bytes from `src` is cut into, sent from a core to a stop (R266). -/
def Injected (s t : State) (id : Nat) (c : Cmd) (dest : Nat) (up : Bool) : Prop :=
  ∀ k, 256 * k < c.len → ∃ m p, s.hw.nextId ≤ m ∧ Tab.find? t.hw.packets m = some p ∧ p.cmd = id ∧ p.ring = ringOf c.core ∧
    p.at_ = stopOf c.core ∧ p.dest = dest ∧ p.up = up ∧ p.hold = .source ∧ p.cls = (if c.at_.isSome then .timed else .data) ∧ p.off = c.dstOff + 256 * k ∧
    p.bytes = (List.range (min 256 (c.len - 256 * k))).map fun x => scrByte s c.fn c.core (c.srcOff + 256 * k + x)

/-- The element-wise reduction of contributions in ascending stop order from the root's stop (R267). -/
def reduced (op mode ver root : Nat) (data : List (Nat × List Byte)) (w : Nat) : Word :=
  let words := ((List.range 8).filterMap fun j => (data.find? fun x => x.1 == (root + j) % 8).map fun x =>
    BitVec.ofNat 32 (leNat ((x.2.drop (4 * w)).take 4)))
  match words with
  | [] => 0#32
  | x :: xs => xs.foldl (fun a b =>
    if op = 0 then BitVec.ofNat 32 (a.toNat + b.toNat)
    else if op = 1 then BitVec.ofNat 32 (Fmt.fp32.add mode ver a.toNat b.toNat)
    else if op = 2 then BitVec.ofNat 32 (greater Fmt.fp32 (Fmt.fp32.flushIn ver a.toNat) (Fmt.fp32.flushIn ver b.toNat))
    else BitVec.ofNat 32 (elements (Fmt.bf16.add mode ver) a.toNat b.toNat)) x

end Sys2Proof.Terms
end

