-- ==== Sys2Proof/Certificates/Slice0/Obligations.lean ====
section
/-! DEFINITION. Sys2Proof/Certificates/Slice0/Obligations.lean: the statements about the model. -/
section

open Sys2Proof Sys2Proof.Machine Sys2Proof.Terms

/-- O1. For every form of ADD, SUB, MIN, MAX, MINU, MAXU, ABSD, ADDSAT, MUL, MULH, MULHU and MAD that issues, exec answers a next state in which the destination holds the value R314 gives for every active lane (vector register, lowest lane for a uniform register, nothing for zr, a push for a push register), and registers, predicates, memory and everything else are unchanged but for the pc and popped tokens. For every form of ADDI, MULI, ANDI, ORI and XORI that issues, exec answers a next state in which the destination holds the operation on a and the sign-extended immediate; SHI that issues shifts or rotates a by n as R315 does, LUI sets d to imm19 shifted left by 13, and both answer a next state. Nothing else changes but the pc and popped tokens. A MAD whose d is a push register and a LUI whose d is a pop register or lane raise ILLEGAL. -/
def Obligations.IntegerAndImmediates : Prop :=
  (Binary .add (fun a b => BitVec.ofNat 32 (a.toNat + b.toNat)) ∧
  Binary .sub (fun a b => BitVec.ofInt 32 (a.toNat - b.toNat)) ∧
  Binary .min (fun a b => if a.toInt < b.toInt then a else b) ∧
  Binary .max (fun a b => if a.toInt > b.toInt then a else b) ∧
  Binary .minu (fun a b => if a.toNat < b.toNat then a else b) ∧
  Binary .maxu (fun a b => if a.toNat > b.toNat then a else b) ∧
  Binary .absd (fun a b => BitVec.ofInt 32 |a.toInt - b.toInt|) ∧
  Binary .addsat (fun a b => BitVec.ofInt 32 (max (-2 ^ 31) (min (2 ^ 31 - 1) (a.toInt + b.toInt)))) ∧
  Binary .mul (fun a b => BitVec.ofNat 32 (a.toNat * b.toNat)) ∧
  Binary .mulh (fun a b => BitVec.ofInt 32 (a.toInt * b.toInt / 2 ^ 32)) ∧
  Binary .mulhu (fun a b => BitVec.ofNat 32 (a.toNat * b.toNat / 2 ^ 32)) ∧
  Ternary .mad (fun d a b => BitVec.ofNat 32 (d.toNat + a.toNat * b.toNat)) ∧
  (∀ i d a b x y, d = 120#7 ∨ d = 122#7 ∨ d = 124#7 → Unlawful (.mad i d a b x y))) ∧
  (Immediate .addi (fun a k => BitVec.ofInt 32 (a.toInt + k.toInt)) ∧
  Immediate .muli (fun a k => BitVec.ofInt 32 (a.toInt * k.toInt)) ∧
  Immediate .andi (fun a k => a &&& k) ∧ Immediate .ori (fun a k => a ||| k) ∧ Immediate .xori (fun a k => a ^^^ k) ∧
  (∀ d a x n, Computes (.shi d a x 0#2 n) (Use.dst d) fun q l => [BitVec.ofNat 32 ((q.ra a x false l).toNat * 2 ^ n.toNat)]) ∧
  (∀ d a x n, Computes (.shi d a x 1#2 n) (Use.dst d) fun q l => [BitVec.ofNat 32 ((q.ra a x false l).toNat / 2 ^ n.toNat)]) ∧
  (∀ d a x n, Computes (.shi d a x 2#2 n) (Use.dst d) fun q l => [BitVec.ofInt 32 ((q.ra a x false l).toInt / 2 ^ n.toNat)]) ∧
  (∀ d a x n, Computes (.shi d a x 3#2 n) (Use.dst d) fun q l =>
    [BitVec.ofNat 32 ((q.ra a x false l).toNat * 2 ^ n.toNat + (q.ra a x false l).toNat / 2 ^ (32 - n.toNat))]) ∧
  (∀ d k, Computes (.lui d k) (Use.dst d) fun _ _ => [BitVec.ofNat 32 (k.toNat * 2 ^ 13)]) ∧
  (∀ d k, d = 121#7 ∨ d = 123#7 ∨ d = 125#7 ∨ d = 127#7 → Unlawful (.lui d k)))

/-- O2. For every form of AND, OR, XOR, ANDN, SHL, SHR, SHA and ROT that issues, exec answers a next state whose destination holds the value of R315, with the whole 32-bit shift amount read as unsigned, and nothing else changes but the pc and popped tokens. For every form of CLZ, POPC, BREV, FFS, BFX, BFXZ, BFI and PERMB that issues, exec answers a next state whose destination holds, bit by bit or as a number, the value of R317, R318 and R319, and nothing else changes but the pc and popped tokens. A BFI whose d is a push register raises ILLEGAL. -/
def Obligations.BitsAndFields : Prop :=
  (Binary .and (fun a b => BitVec.ofNat 32 (a.toNat &&& b.toNat)) ∧
  Binary .or (fun a b => BitVec.ofNat 32 (a.toNat ||| b.toNat)) ∧
  Binary .xor (fun a b => BitVec.ofNat 32 (a.toNat ^^^ b.toNat)) ∧
  Binary .andn (fun a b => a &&& (BitVec.allOnes 32 ^^^ b)) ∧
  Binary .shl (fun a b => if 32 ≤ b.toNat then 0#32 else BitVec.ofNat 32 (a.toNat * 2 ^ b.toNat)) ∧
  Binary .shr (fun a b => if 32 ≤ b.toNat then 0#32 else BitVec.ofNat 32 (a.toNat / 2 ^ b.toNat)) ∧
  Binary .sha (fun a b => BitVec.ofInt 32 (a.toInt / 2 ^ min b.toNat 31)) ∧
  Binary .rot (fun a b => BitVec.ofNat 32 (a.toNat * 2 ^ (b.toNat % 32) + a.toNat / 2 ^ (32 - b.toNat % 32)))) ∧
  ((∃ f : Word → Word, Unary .clz f ∧
    ∀ a, (f a).toNat = if a = 0#32 then 32 else 31 - Nat.log2 a.toNat) ∧
  (∃ f : Word → Word, Unary .popc f ∧ ∀ a, (f a).toNat = ((List.range 32).map fun j => (a.getLsbD j).toNat).sum) ∧
  (∃ f : Word → Word, Unary .brev f ∧ ∀ a i, i < 32 → (f a).getLsbD i = a.getLsbD (31 - i)) ∧
  (∃ f : Word → Word, Unary .ffs f ∧ ∀ a, (a = 0#32 → f a = 32#32) ∧
    ∀ i, i < 32 → a.getLsbD i = true → (∀ j, j < i → a.getLsbD j = false) → f a = BitVec.ofNat 32 i) ∧
  (∃ f : Word → Word → Word, Binary .bfxz f ∧ ∀ a b i, i < 32 → (f a b).getLsbD i =
    (decide (i < fieldWidth b) && a.getLsbD (fieldPos b + i))) ∧
  (∃ f : Word → Word → Word, Binary .bfx f ∧ ∀ a b i, i < 32 → (f a b).getLsbD i =
    (decide (0 < fieldWidth b) && a.getLsbD (fieldPos b + min i (fieldWidth b - 1)))) ∧
  (∃ f : Word → Word → Word → Word, Ternary .bfi f ∧ ∀ d a b i, i < 32 → (f d a b).getLsbD i =
    if fieldPos b ≤ i ∧ i < fieldPos b + fieldWidth b then a.getLsbD (i - fieldPos b) else d.getLsbD i) ∧
  (∀ i d a b x y, d = 120#7 ∨ d = 122#7 ∨ d = 124#7 → Unlawful (.bfi i d a b x y)) ∧
  (∃ f : Word → Word → Word, Binary .permb f ∧ ∀ a b i j, i < 4 → j < 8 → (f a b).getLsbD (8 * i + j) =
    (!b.getLsbD (4 * i + 3) && a.getLsbD (8 * (b.extractLsb' (4 * i) 2).toNat + if b.getLsbD (4 * i + 2) then 7 else j))))

/-- O3. Each compare (CMP, CMPI, FCMP, DCMP, FCLASS) and each predicate operation (VTOP, PAND, POR, PXOR, PANDN) that issues answers a next state: it sets its destination predicate, in every active lane and in no other, to the truth of its condition; a write to p0 is ignored; no register and nothing else changes but the pc and popped tokens. CMP and CMPI with ORD, UNO or a code of 0xC to 0xF raise ILLEGAL. The floating-point conditions are stated on the values of Table 9.4 after the flush of R238; FCLASS is stated on the FP32 fields. -/
def Obligations.Compares : Prop :=
  (∀ i c p a b x y, SetsPred (.cmp i c p a b x y) p fun q n => intHolds c (q.ra a x i n) (q.rb b y n)) ∧
  (∀ c p a x k, SetsPred (.cmpi c p a x k) p fun q n => intHolds c (q.ra a x false n) (BitVec.ofInt 32 k.toInt)) ∧
  (∀ i c p a b x y, 10 ≤ c.toNat → Unlawful (.cmp i c p a b x y)) ∧
  (∀ c p a x k, 10 ≤ c.toNat → Unlawful (.cmpi c p a x k)) ∧
  (∀ i c p a b x y, SetsPred (.fcmp i c p a b x y) p fun q n =>
    fpHolds c ((Fmt.fp32.operand q.ver (q.ra a x i n).toNat).compare (Fmt.fp32.operand q.ver (q.rb b y n).toNat))) ∧
  (∀ i c p a b x y, SetsPred (.dcmp i c p a b x y) p fun q n =>
    fpHolds c ((Fmt.fp64.val (q.ra64 a x i n).toNat).compare (Fmt.fp64.val (q.rb64 b y n).toNat))) ∧
  (∀ i p a m x, SetsPred (.fclass i p a m x) p fun q n => (List.range 7).any fun j => m.getLsbD j && inClass j (q.ra a x i n)) ∧
  (∀ i p a x, SetsPred (.vtop i p a x) p fun q n => decide (q.ra a x i n ≠ 0#32)) ∧
  (∀ p u v, SetsPred (.pand p u v) p fun q n => decide (q.pred u n = true ∧ q.pred v n = true)) ∧
  (∀ p u v, SetsPred (.por p u v) p fun q n => decide (q.pred u n = true ∨ q.pred v n = true)) ∧
  (∀ p u v, SetsPred (.pxor p u v) p fun q n => decide (¬(q.pred u n = true ↔ q.pred v n = true))) ∧
  (∀ p u v, SetsPred (.pandn p u v) p fun q n => decide (q.pred u n = true ∧ ¬ q.pred v n = true)) ∧
  (∀ q : Iss, ∀ n, n < 1024 → q.pred 0#3 n = true)

/-- O4. The votes and lane queries of Table 13.4 (VOTE.ANY, VOTE.ALL, ELECT, BALLOT, NLANES, FIRSTL) that issue answer a next state: they combine values over the active lanes of the issuing path only and deliver the result to every active lane, and nothing else changes but the pc and popped tokens. -/
def Obligations.VotesAndQueries : Prop :=
  (∀ p u, SetsPred (.voteAny p u) p fun q _ => decide (∃ n ∈ q.lanes, q.pred u n = true)) ∧
  (∀ p u, SetsPred (.voteAll p u) p fun q _ => decide (∀ n ∈ q.lanes, q.pred u n = true)) ∧
  (∀ p, SetsPred (.elect p) p fun q n => decide (∀ m ∈ q.lanes, n ≤ m)) ∧
  (∀ d p b y, ∃ f : Iss → Word, Computes (.ballot d p b y) (Use.dst d) (fun q _ => [f q]) ∧
    ∀ (q : Iss) (j : Nat), j < 32 → (f q).getLsbD j =
      decide ((q.rb b y (lowest q.lanes)).toNat < q.w.k ∧ 32 * (q.rb b y (lowest q.lanes)).toNat + j ∈ q.lanes ∧
        q.pred p (32 * (q.rb b y (lowest q.lanes)).toNat + j) = true)) ∧
  (∀ d, Computes (.nlanes d) (Use.dst d) fun q _ => [BitVec.ofNat 32 q.lanes.length]) ∧
  (∀ d, Computes (.firstl d) (Use.dst d) fun q _ => [BitVec.ofNat 32 (lowest q.lanes)]) ∧
  (∀ w p, (Warp.active w p).Pairwise (· < ·))

/-- O5. SEL, PTOV, MOV, MOVX and the four shuffles that issue deliver, per active lane, the selected, converted, copied or shuffled value: a shuffle takes a of the source lane of the same row where that lane is active, and of its own lane otherwise, in the passes of the unpacked placement; MOVX adds xi to the destination index. On a packed path a shuffle marks its destination empty at issue and the step it plans lands the value. For each of them exec answers a next state, and nothing else changes but the pc and popped tokens. -/
def Obligations.MovesAndShuffles : Prop :=
  (∀ i d a b x y c, Computes (.sel i d a b x y c) (Use.dst d) fun q n =>
    [if q.pred (BitVec.ofNat 3 (4 + c.toNat)) n then q.ra a x i n else q.rb b y n]) ∧
  (∀ d p, Computes (.ptov d p) (Use.dst d) fun q n => [BitVec.ofNat 32 (q.pred p n).toNat]) ∧
  (∀ i d a x, Computes (.mov i d a x) (Use.dst d) fun q n => [q.ra a x i n]) ∧
  (∀ d a x, Delivers (.movx d a x) { Use.dst d with idx := true } fun q n => [q.ra a x false n]) ∧
  Shuffles .shflIdx (fun _ b => some (b.toNat % 32)) ∧
  Shuffles .shflUp (fun j b => if b.toNat > j then none else some (j - b.toNat)) ∧
  Shuffles .shflDn (fun j b => if j + b.toNat > 31 then none else some (j + b.toNat)) ∧
  Shuffles .shflXor (fun j b => some (j ^^^ (b.toNat % 32)))

/-- O6. RDLANE and BCAST that issue deliver to every active lane the value of a of the selected active lane, or 0 where the selector names none. WRLANE writes d of the selected lane only, where that lane is active, with a of the lowest active lane, and with a d that is no vector register it raises ILLEGAL. PACK changes no register and no predicate, and packs the path exactly where that saves rows. Each answers a next state. -/
def Obligations.LaneOperations : Prop :=
  (∀ i d a b x y, Computes (.rdlane i d a b x y) (Use.dst d) fun q _ =>
    [if (q.rb b y (lowest q.lanes)).toNat ∈ q.lanes then q.ra a x i (q.rb b y (lowest q.lanes)).toNat else 0#32]) ∧
  (∀ i d a b x y, Computes (.bcast i d a b x y) (Use.dst d) fun q _ =>
    [((q.lanes[(q.rb b y (lowest q.lanes)).toNat]?).map fun n => q.ra a x i n).getD 0#32]) ∧
  (∀ i d a b x y s q, Issues (.wrlane i d a b x y) s q → ∃ t w, exec (.wrlane i d a b x y) s = .next t ∧
    Framed (.wrlane i d a b x y) q s t w ∧ QueuesPopped (.wrlane i d a b x y) q w ∧ GoesTo q w (after q) ∧
    w.preds = q.w.preds ∧ w.uregs = q.w.uregs ∧ w.empty = q.w.empty ∧
    ∀ r n, n < 1024 → w.getV r n =
      if r = q.w.wbase + d.toNat ∧ n = (q.rb b y (lowest q.lanes)).toNat ∧ n ∈ q.lanes then q.ra a x i (lowest q.lanes)
      else q.w.getV r n) ∧
  (∀ i d a b x y, 96 ≤ d.toNat → Unlawful (.wrlane i d a b x y)) ∧
  (∀ s q, Issues .pack s q → ∃ t w, exec .pack s = .next t ∧ Framed .pack q s t w ∧ QueuesPopped .pack q w ∧ GoesTo q w (after q) ∧
    RegsKept q w ∧ w.preds = q.w.preds ∧ ((w.path q.x).packed = true ↔ q.p.packed = true ∨
      ((q.lanes.map (· / 8)).eraseDups.length + 3) / 4 < (q.lanes.map (· / 32)).eraseDups.length))

/-- O7. The six reductions (RDX.ADD, RDX.MAX, RDX.MIN, RDX.OR, RDX.AND, RDX.FADD) that issue answer a next state: they deliver to every active lane the sum, the largest or smallest signed value, the bitwise or, the bitwise and, or the FP32 sum in ascending lane order of a over the active lanes of the path; RDX.FADD of one active lane is its value, flushed, and canonicalised if a NaN. Nothing else changes but the pc and popped tokens. -/
def Obligations.WarpReductions : Prop :=
  (∀ i d a x, Computes (.rdxAdd i d a x) (Use.dst d) fun q _ =>
    [BitVec.ofNat 32 (q.lanes.map fun n => (q.ra a x i n).toNat).sum]) ∧
  (∀ i d a x, ∃ f : Iss → Word, Computes (.rdxMax i d a x) (Use.dst d) (fun q _ => [f q]) ∧
    ∀ q : Iss, q.lanes ≠ [] → (∃ n ∈ q.lanes, f q = q.ra a x i n) ∧ ∀ n ∈ q.lanes, (q.ra a x i n).toInt ≤ (f q).toInt) ∧
  (∀ i d a x, ∃ f : Iss → Word, Computes (.rdxMin i d a x) (Use.dst d) (fun q _ => [f q]) ∧
    ∀ q : Iss, q.lanes ≠ [] → (∃ n ∈ q.lanes, f q = q.ra a x i n) ∧ ∀ n ∈ q.lanes, (f q).toInt ≤ (q.ra a x i n).toInt) ∧
  (∀ i d a x, ∃ f : Iss → Word, Computes (.rdxOr i d a x) (Use.dst d) (fun q _ => [f q]) ∧
    ∀ (q : Iss) j, (f q).getLsbD j = decide (∃ n ∈ q.lanes, (q.ra a x i n).getLsbD j = true)) ∧
  (∀ i d a x, ∃ f : Iss → Word, Computes (.rdxAnd i d a x) (Use.dst d) (fun q _ => [f q]) ∧
    ∀ (q : Iss) j, q.lanes ≠ [] → (f q).getLsbD j = decide (∀ n ∈ q.lanes, (q.ra a x i n).getLsbD j = true)) ∧
  (∀ i d a x, ∃ f : Iss → Word, Computes (.rdxFadd i d a x) (Use.dst d) (fun q _ => [f q]) ∧
    (∀ (q : Iss) n0 n1 ns, q.lanes = n0 :: n1 :: ns → f q =
      (n1 :: ns).foldl (fun v n => BitVec.ofNat 32 (Fmt.fp32.add q.mode q.ver v.toNat (q.ra a x i n).toNat)) (q.ra a x i n0)) ∧
    ∀ (q : Iss) n, q.lanes = [n] → f q =
      let v := Fmt.fp32.flushIn q.ver (q.ra a x i n).toNat
      BitVec.ofNat 32 (if (Fmt.fp32.val v).isNan = true then 0x7FC00000 else v))

/-- O8. Each FP32 operation (FADD, FSUB, FMUL, FFMA, FMIN, FMAX, FCPYS, FSCALE) that issues answers a next state: it delivers, per active lane, the exact IEEE result of the operands flushed by R238, rounded once by the sampled mode (R234, R237); FMIN and FMAX the smaller or larger flushed operand with -0 below +0 and a NaN giving way; FCPYS moves the sign bit; FSCALE scales by a power of two. Nothing else changes but the pc and popped tokens. The rounding itself is the subject of RoundingIsDirected. -/
def Obligations.FloatArithmetic : Prop :=
  FpBinary .fadd (fun m v a b => Fmt.fp32.bits m v ((Fmt.fp32.operand v a).add m (Fmt.fp32.operand v b))) ∧
  FpBinary .fsub (fun m v a b => Fmt.fp32.bits m v ((Fmt.fp32.operand v a).add m (Fmt.fp32.operand v b).neg)) ∧
  FpBinary .fmul (fun m v a b => Fmt.fp32.bits m v ((Fmt.fp32.operand v a).mul (Fmt.fp32.operand v b))) ∧
  FpTernary .ffma (fun m v d a b =>
    Fmt.fp32.bits m v (((Fmt.fp32.operand v a).mul (Fmt.fp32.operand v b)).add m (Fmt.fp32.operand v d))) ∧
  FpBinary .fmin (fun _ v a b => lesser Fmt.fp32 (Fmt.fp32.flushIn v a) (Fmt.fp32.flushIn v b)) ∧
  FpBinary .fmax (fun _ v a b => greater Fmt.fp32 (Fmt.fp32.flushIn v a) (Fmt.fp32.flushIn v b)) ∧
  Binary .fcpys (fun a b => BitVec.ofNat 32 (a.toNat % 2 ^ 31 + b.toNat / 2 ^ 31 * 2 ^ 31)) ∧
  FpBinary .fscale (fun m v a b => match Fmt.fp32.val (Fmt.fp32.flushIn v a) with
    | .nan => 0x7FC00000
    | .inf _ => Fmt.fp32.flushIn v a
    | .fin n k e => if k = 0 then Fmt.fp32.flushIn v a else Fmt.fp32.bits m v (.fin n k (e + (BitVec.ofNat 32 b).toInt)))

/-- O9. Each packed form that issues, and each of DADD, DMUL and DFMA, answers a next state. A packed form computes each 16-bit element by the FP32 rule of the same name in its own format, no element affecting the other; DADD, DMUL and DFMA deliver the exact result rounded once in binary64, low word in the even register and high word in the odd one, both written together. Nothing else changes but the pc and popped tokens. -/
def Obligations.PackedAndDouble : Prop :=
  FpBinary .badd2 (fun m v a b => elements (Fmt.bf16.add m v) a b) ∧
  FpBinary .bmul2 (fun m v a b => elements (Fmt.bf16.mul m v) a b) ∧
  FpTernary .bfma2 (fun m v d a b => Fmt.bf16.fma m v (a % 2 ^ 16) (b % 2 ^ 16) (d % 2 ^ 16)
    + 2 ^ 16 * Fmt.bf16.fma m v (a / 2 ^ 16) (b / 2 ^ 16) (d / 2 ^ 16)) ∧
  FpBinary .bmax2 (fun _ v a b => elements (fun a b => greater Fmt.bf16 (Fmt.bf16.flushIn v a) (Fmt.bf16.flushIn v b)) a b) ∧
  FpBinary .hadd2 (fun m v a b => elements (Fmt.fp16.add m v) a b) ∧
  FpBinary .hmul2 (fun m v a b => elements (Fmt.fp16.mul m v) a b) ∧
  FpTernary .hfma2 (fun m v d a b => Fmt.fp16.fma m v (a % 2 ^ 16) (b % 2 ^ 16) (d % 2 ^ 16)
    + 2 ^ 16 * Fmt.fp16.fma m v (a / 2 ^ 16) (b / 2 ^ 16) (d / 2 ^ 16)) ∧
  FpBinary .hmax2 (fun _ _ a b => elements (greater Fmt.fp16) a b) ∧
  (∀ i d a b x y, Computes (.dadd i d a b x y) ((Use.dst d).wide 2) fun q n =>
    wordPair (Fmt.fp64.bits q.mode q.ver ((Fmt.fp64.val (q.ra64 a x i n).toNat).add q.mode (Fmt.fp64.val (q.rb64 b y n).toNat)))) ∧
  (∀ i d a b x y, Computes (.dmul i d a b x y) ((Use.dst d).wide 2) fun q n =>
    wordPair (Fmt.fp64.bits q.mode q.ver ((Fmt.fp64.val (q.ra64 a x i n).toNat).mul (Fmt.fp64.val (q.rb64 b y n).toNat)))) ∧
  (∀ i d a b x y, Computes (.dfma i d a b x y) ((Use.dst d).wide 2) fun q n =>
    wordPair (Fmt.fp64.bits q.mode q.ver (((Fmt.fp64.val (q.ra64 a x i n).toNat).mul (Fmt.fp64.val (q.rb64 b y n).toNat)).add
      q.mode (Fmt.fp64.val (q.w.read64 (Use.both d) n).toNat))))

/-- O10. Each conversion, and FRND, that issues answers a next state: it delivers the value of Table 15.4: a float source flushed by R238, rounded once by the sampled mode, saturated to the range of an integer destination (a NaN gives 0, or under NBV 1 the lowest value of a signed range), or rounded to the destination format; 16-bit results lie in [15:0] with zeros above. FRND rounds to an integral value keeping the sign of a. Nothing else changes but the pc and popped tokens. -/
def Obligations.Conversions : Prop :=
  FpUnary .cvtFI (fun m v a => BitVec.ofNat 32 (Fmt.fp32.bits m v (.fin (decide (a.toInt < 0)) a.toInt.natAbs 0))) ∧
  FpUnary .cvtFZ (fun m v a => BitVec.ofNat 32 (Fmt.fp32.bits m v (.fin false a.toNat 0))) ∧
  FpUnary .cvtIF (fun m v a => BitVec.ofInt 32 (asInteger m v a.toNat (-2 ^ 31) (2 ^ 31 - 1))) ∧
  FpUnary .cvtZF (fun m v a => BitVec.ofInt 32 (asInteger m v a.toNat 0 (2 ^ 32 - 1))) ∧
  FpUnary .cvtI8F (fun m v a => BitVec.ofInt 32 (asInteger m v a.toNat (-128) 127)) ∧
  FpUnary .cvtBfF (fun m v a => BitVec.ofNat 32 (Fmt.bf16.bits m v (Fmt.fp32.operand v a.toNat))) ∧
  FpUnary .cvtHF (fun m v a => BitVec.ofNat 32 (Fmt.fp16.bits m v (Fmt.fp32.operand v a.toNat))) ∧
  FpUnary .cvtFBf (fun m v a => BitVec.ofNat 32 (Fmt.fp32.bits m v (Fmt.bf16.operand v (a.toNat % 2 ^ 16)))) ∧
  FpUnary .cvtFH (fun m v a => BitVec.ofNat 32 (Fmt.fp32.bits m v (Fmt.fp16.val (a.toNat % 2 ^ 16)))) ∧
  (∀ i d a x, Computes (.cvtDF i d a x) ((Use.dst d).wide 2) fun q n =>
    wordPair (Fmt.fp64.bits q.mode q.ver (Fmt.fp32.operand q.ver (q.ra a x i n).toNat))) ∧
  (∀ i d a x, Computes (.cvtFD i d a x) (Use.dst d) fun q n =>
    [BitVec.ofNat 32 (Fmt.fp32.bits q.mode q.ver (Fmt.fp64.val (q.ra64 a x i n).toNat))]) ∧
  (∃ f : Nat → Nat → Word → Word, FpUnary .frnd f ∧ ∀ m v a, f m v a = match Fmt.fp32.val (Fmt.fp32.flushIn v a.toNat) with
    | .nan => 0x7FC00000#32
    | .inf _ => BitVec.ofNat 32 (Fmt.fp32.flushIn v a.toNat)
    | .fin n k e => if k = 0 ∨ 0 ≤ e then BitVec.ofNat 32 (Fmt.fp32.flushIn v a.toNat)
      else BitVec.ofNat 32 (Fmt.fp32.bits 0 0 (.fin n (roundAt m n k e 0) 0)))

/-- O11. Each nested-integer instruction that issues delivers the value of its rule: NIQ the scaled operand rounded and saturated to S planes, NIDQ the value v(x) of Table 9.7 scaled by 2^E, SEXP the smallest exponent that lets the largest finite magnitude of the lane group fit S planes, NIPL the bit plane of its row; an out-of-range descriptor gives 0. On a packed path SEXP and NIPL mark d empty at issue and the step they plan lands the value. Each answers a next state. Nothing else changes but the pc and popped tokens. -/
def Obligations.NestedIntegers : Prop :=
  FpBinary .niq (fun m v a d =>
    let s := d % 16
    if s < 2 ∨ 8 < s then 0
    else (BitVec.ofInt 32 (match Fmt.fp32.operand v a with
      | .nan => if v = 1 then -2 ^ (s - 1) else 0
      | .inf n => if n then -2 ^ (s - 1) else 2 ^ (s - 1) - 1
      | .fin n k e => max (-2 ^ (s - 1)) (min (2 ^ (s - 1) - 1)
          ((if n then -1 else 1) * (roundAt m n k (e - (BitVec.ofNat 8 (d / 256)).toInt) 0 : Int))))).toNat) ∧
  FpBinary .nidq (fun m v a d =>
    let s := d % 16
    let p := if d / 16 % 16 = 0 then s else d / 16 % 16
    if s < 2 ∨ 8 < s ∨ p < 2 ∨ s < p then 0
    else
      let q : Int := (BitVec.ofNat s a).toInt / 2 ^ (s - p)
      let x : Int := if p = s then (BitVec.ofNat s a).toInt else if v = 3 then (2 * q + 1) * 2 ^ (s - p - 1) else q * 2 ^ (s - p)
      Fmt.fp32.bits m v (.fin (decide (x < 0)) x.natAbs (BitVec.ofNat 8 (d / 256)).toInt)) ∧
  (∀ i d a l x, ∃ f : Iss → Nat → Int, Exchanges (.sexp i d a l x) (Use.dst d) (fun q n => [BitVec.ofInt 32 (f q n)]) ∧
    (∀ q n, -128 ≤ f q n ∧ f q n ≤ 127) ∧
    (∀ q n l' s m e, l' ∈ q.lanes → sameGroup (2 ^ (l.toNat % 8)) n l' → f q n < 127 → 2 ≤ l.toNat / 8 →
      Fmt.fp32.operand q.ver (q.ra a x i l').toNat = .fin s m e → (m : ℚ) * 2 ^ (e - f q n) ≤ 2 ^ (l.toNat / 8 - 1) - 1) ∧
    (∀ q n, -128 < f q n → 2 ≤ l.toNat / 8 → ∃ l' s m e, l' ∈ q.lanes ∧ sameGroup (2 ^ (l.toNat % 8)) n l' ∧
      Fmt.fp32.operand q.ver (q.ra a x i l').toNat = .fin s m e ∧ (2 : ℚ) ^ (l.toNat / 8 - 1) - 1 < m * 2 ^ (e - (f q n - 1)))) ∧
  (∀ i d a b x y, ∃ f : Iss → Nat → Word, Exchanges (.nipl i d a b x y) (Use.dst d) (fun q n => [f q n]) ∧
    ∀ (q : Iss) n j, j < 32 → (f q n).getLsbD j =
      (let ds := (q.rb b y (lowest (q.lanes.filter fun l => l / 32 == n / 32))).toNat
       decide (2 ≤ ds % 16 ∧ ds % 16 ≤ 8 ∧ ds / 16 % 16 < ds % 16 ∧ 32 * (n / 32) + j ∈ q.lanes) &&
         (q.ra a x i (32 * (n / 32) + j)).getLsbD (ds % 16 - 1 - ds / 16 % 16)))

/-- O12. FRCP and FRSQ that issue answer a next state and deliver one value per active lane, a function of the generation and the operand alone: RMODE has no effect. Special operands give the results of Table 9.5: a NaN gives 0x7FC00000, FRCP of a zero the infinity and of an infinity the zero of its sign; FRSQ of a zero the infinity of its sign, of +inf +0, and of a negative nonzero number a NaN. The value within the error bound of Table 9.6 elsewhere is the model's free value (log 15). -/
def Obligations.ReciprocalsWithinBounds : Prop :=
  (∃ f : Nat → Nat → Nat, FpUnary .frcp (fun _ v a => BitVec.ofNat 32 (f v a.toNat)) ∧ ∀ v a,
    match Fmt.fp32.operand v a with
    | .nan => f v a = 0x7FC00000
    | .inf n => f v a = if n then 0x80000000 else 0
    | .fin n m _ => m = 0 → f v a = if n then 0xFF800000 else 0x7F800000) ∧
  (∃ f : Nat → Nat → Nat, FpUnary .frsq (fun _ v a => BitVec.ofNat 32 (f v a.toNat)) ∧ ∀ v a,
    match Fmt.fp32.operand v a with
    | .nan => f v a = 0x7FC00000
    | .inf n => f v a = if n then 0x7FC00000 else 0
    | .fin n m _ => (m = 0 → f v a = if n then 0xFF800000 else 0x7F800000) ∧ (m ≠ 0 → n = true → f v a = 0x7FC00000))

/-- O13. Each iterative instruction that issues (DIV, DIVU, REM, REMU, FDIV, FSQRT, FEXP2, FLOG2, FSIN, FCOS, DDIV) answers a next state under conditions on the state and operands alone: exec sends off the value computed from its operands as they were at issue, marks a vector destination empty in the active lanes, leaves every register, predicate, byte and other warp as it was, and goes on at pc + 4; the return it has planned answers a next state in which the destination holds the value in every active lane; a push register takes the values at once. The values of DIV, DIVU, REM, REMU and DDIV are those of R316 and R386, those of the others functions of the sampled mode, the generation and the operands alone. -/
def Obligations.IterativeInstructions : Prop :=
  (∀ i d a b x y, Iterates (.divu i d a b x y) ((Use.dst d).wide 1) fun q n =>
    [if q.rb b y n = 0#32 then 0xFFFFFFFF#32 else BitVec.ofNat 32 ((q.ra a x i n).toNat / (q.rb b y n).toNat)]) ∧
  (∀ i d a b x y, Iterates (.remu i d a b x y) ((Use.dst d).wide 1) fun q n =>
    [if q.rb b y n = 0#32 then q.ra a x i n else BitVec.ofNat 32 ((q.ra a x i n).toNat % (q.rb b y n).toNat)]) ∧
  (∀ i d a b x y, Iterates (.div i d a b x y) ((Use.dst d).wide 1) fun q n =>
    [if q.rb b y n = 0#32 then 0xFFFFFFFF#32 else BitVec.ofInt 32 ((q.ra a x i n).toInt.tdiv (q.rb b y n).toInt)]) ∧
  (∀ i d a b x y, Iterates (.rem i d a b x y) ((Use.dst d).wide 1) fun q n =>
    [if q.rb b y n = 0#32 then q.ra a x i n else BitVec.ofInt 32
      ((q.ra a x i n).toInt - (q.rb b y n).toInt * (q.ra a x i n).toInt.tdiv (q.rb b y n).toInt)]) ∧
  (∀ i d a b x y, ∃ f : Nat → Nat → Nat → Nat → Nat, Iterates (.fdiv i d a b x y) ((Use.dst d).wide 1) fun q n =>
    [BitVec.ofNat 32 (f q.mode q.ver (q.ra a x i n).toNat (q.rb b y n).toNat)]) ∧
  (∀ i d a x, ∃ f : Nat → Nat → Nat → Nat, Iterates (.fsqrt i d a x) ((Use.dst d).wide 1) fun q n =>
    [BitVec.ofNat 32 (f q.mode q.ver (q.ra a x i n).toNat)]) ∧
  (∀ i d a x, ∃ f : Nat → Nat → Nat, Iterates (.fexp2 i d a x) ((Use.dst d).wide 1) fun q n =>
    [BitVec.ofNat 32 (f q.ver (q.ra a x i n).toNat)]) ∧
  (∀ i d a x, ∃ f : Nat → Nat → Nat, Iterates (.flog2 i d a x) ((Use.dst d).wide 1) fun q n =>
    [BitVec.ofNat 32 (f q.ver (q.ra a x i n).toNat)]) ∧
  (∀ i d a x, ∃ f : Nat → Nat → Nat, Iterates (.fsin i d a x) ((Use.dst d).wide 1) fun q n =>
    [BitVec.ofNat 32 (f q.ver (q.ra a x i n).toNat)]) ∧
  (∀ i d a x, ∃ f : Nat → Nat → Nat, Iterates (.fcos i d a x) ((Use.dst d).wide 1) fun q n =>
    [BitVec.ofNat 32 (f q.ver (q.ra a x i n).toNat)]) ∧
  (∀ i d a b x y, Iterates (.ddiv i d a b x y) ((Use.dst d).wide 2) fun q n =>
    wordPair (Fmt.fp64.div q.mode q.ver (q.ra64 a x i n).toNat (q.rb64 b y n).toNat))

/-- O14. What the iterative FP32 instructions send off for special operands: FDIV of a finite nonzero value by a zero is the infinity of the XOR of the signs, 0/0 and inf/inf are NaN, finite by infinite is a zero; FSQRT of a zero is that zero, of +inf +inf, of a negative number NaN; FEXP2 of -inf is 0 and of +inf +inf, FLOG2 of a zero -inf, of a negative number NaN, FSIN and FCOS of an infinity NaN, and any NaN operand gives 0x7FC00000. For every exact value m * 2^e and unit 2^q, the rounded magnitude is one of the two multiples of the unit that enclose it: RZ takes the lower, RUP the one not below the signed value and RDN the one not above it, RNE and RMM one within half a unit, RNE the even multiple and RMM the greater magnitude in a tie; a value that is a multiple is itself. -/
def Obligations.DivisionAndRounding : Prop :=
  ((∀ m v a b, match Fmt.fp32.operand v a, Fmt.fp32.operand v b with
    | .nan, _ => fdiv32 m v a b = 0x7FC00000
    | _, .nan => fdiv32 m v a b = 0x7FC00000
    | .inf _, .inf _ => fdiv32 m v a b = 0x7FC00000
    | .inf x, .fin y _ _ => fdiv32 m v a b = if x = y then 0x7F800000 else 0xFF800000
    | .fin x _ _, .inf y => fdiv32 m v a b = if x = y then 0 else 0x80000000
    | .fin x k _, .fin y n _ => n = 0 → fdiv32 m v a b = if k = 0 then 0x7FC00000 else if x = y then 0x7F800000 else 0xFF800000) ∧
  (∀ m v a, match Fmt.fp32.operand v a with
    | .nan => fsqrt32 m v a = 0x7FC00000
    | .inf n => fsqrt32 m v a = if n then 0x7FC00000 else 0x7F800000
    | .fin n k _ => (k = 0 → fsqrt32 m v a = if n then 0x80000000 else 0) ∧ (k ≠ 0 → n = true → fsqrt32 m v a = 0x7FC00000)) ∧
  (∀ v a, match Fmt.fp32.operand v a with
    | .nan => fexp2_32 v a = 0x7FC00000 ∧ flog2_32 v a = 0x7FC00000 ∧ ftrig32 true v a = 0x7FC00000 ∧ ftrig32 false v a = 0x7FC00000
    | .inf n => fexp2_32 v a = (if n then 0 else 0x7F800000) ∧ flog2_32 v a = (if n then 0x7FC00000 else 0x7F800000) ∧
        ftrig32 true v a = 0x7FC00000 ∧ ftrig32 false v a = 0x7FC00000
    | .fin n k _ => (k = 0 → flog2_32 v a = 0xFF800000) ∧ (k ≠ 0 → n = true → flog2_32 v a = 0x7FC00000))) ∧
  (∀ (mode : Nat) (neg : Bool) (m : Nat) (e q : Int), mode ≤ 4 →
    let n : ℚ := roundAt mode neg m e q
    let x : ℚ := m * 2 ^ (e - q)
    (n ≤ x ∧ x < n + 1 ∨ n - 1 < x ∧ x ≤ n) ∧
    (mode = 1 → n ≤ x) ∧
    (mode = 2 → if neg then n ≤ x else x ≤ n) ∧
    (mode = 3 → if neg then x ≤ n else n ≤ x) ∧
    (mode = 0 ∨ mode = 4 → |n - x| ≤ 1 / 2) ∧
    (mode = 0 → |n - x| = 1 / 2 → roundAt mode neg m e q % 2 = 0) ∧
    (mode = 4 → |n - x| = 1 / 2 → x ≤ n))

/-- O15. A .d load that issues and whose accesses pass every check of R276 sends off a flight with, per active lane, the bytes at the effective address as the core sees them (its own L1 bytes, else memory; scratchpad; a unit's guarded bytes; the barrier alias), extended by the size code; its destination is empty in those lanes until it lands; no byte of memory, scratchpad or of any core's view of a line changes, nor anything of another warp. The address is the pair at a plus the scaled signed off6, or plus the scaled signed index. Exact values are stated where the core's L1 evicts no line; where it does, bytes of memory change only to its own dirty bytes. A load for a push register sends off its flight and waits; the values once returned are pushed and the path goes on. An instruction that was held midway in its pushes goes on with the words that are left. Each answers a next state. -/
def Obligations.LoadsReadWhatTheCoreSees : Prop :=
  (∀ t a z o, LoadsPlain (.ld t a 0#3 z o) ((Use.dst t).wide (szRegs z)) z.toNat fun q n =>
    q.w.read64 ((Use.src a).wide 2) n + BitVec.ofInt 64 (o.toInt * szBytes z.toNat)) ∧
  (∀ i d a b x y, LoadsPlain (.ldxW i d a b x y) (Use.dst d) 4 fun q n =>
    q.w.read64 ((Use.srcC a x i).wide 2) n + BitVec.ofInt 64 ((q.rb b y n).toInt * 4)) ∧
  (∀ i d a b x y, LoadsPlain (.ldxD i d a b x y) ((Use.dst d).wide 2) 5 fun q n =>
    q.w.read64 ((Use.srcC a x i).wide 2) n + BitVec.ofInt 64 ((q.rb b y n).toInt * 8)) ∧
  (∀ i d a b x y s q as, Issues (.ldxW i d a b x y) s q → inQueue (Use.dst d) → Iss.answered s.hw q = none →
    Accesses s q ⟨.data, false, false, 4, 0, false, false, none⟩
      (fun n => q.w.read64 ((Use.srcC a x i).wide 2) n + BitVec.ofInt 64 ((q.rb b y n).toInt * 4)) as →
    ∃ t f, exec (.ldxW i d a b x y) s = .next t ∧ Waits q t 2 ∧ Tab.find? t.hw.flights s.hw.nextId = some f ∧
      f.kind = .load 0 .warp 4 false ∧ f.dreg = 1000 + d.toNat ∧ f.nreg = 1 ∧ f.pc = q.p.pc ∧
      t.hw.agenda = s.hw.agenda ++ [.event .loadReturn { Occasion.none with unit := s.hw.nextId, aux := f.tag }]) ∧
  (∀ i d a b x y s q id f, Issues (.ldxW i d a b x y) s q → inQueue (Use.dst d) → Iss.answered s.hw q = some (id, f) →
    s.hw.ownsEngine q.fn q.core (queueKind d.toNat) = true → f.dreg = 1000 + d.toNat → f.nreg = 1 →
    Stages (queueKind d.toNat) (q.w.queue (queueKind d.toNat)).staging
      (f.lanes.map fun l => (Tab.getD f.vals l.1 0#128).extractLsb' 0 32) →
    ∃ t w, exec (.ldxW i d a b x y) s = .next t ∧ t.hw.warp? q.wk = some w ∧ Tab.find? t.hw.flights id = none ∧
      GoesTo q w (after q) ∧ w.preds = q.w.preds ∧ RegsKept q w ∧ t.mem = s.mem ∧
      (w.queue (queueKind d.toNat)).staging = (q.w.queue (queueKind d.toNat)).staging ++
        f.lanes.map fun l => (Tab.getD f.vals l.1 0#128).extractLsb' 0 32) ∧
  (∀ i d a b x y s q p, s.Inv → Iss.of s.hw = some q → q.rank2 s.hw (.fadd i d a b x y) = .ok () → Room s q 1 →
    q.p.pushing = some p → Stages p.kind (q.w.queue p.kind).staging p.words →
    ∃ t w, exec (.fadd i d a b x y) s = .next t ∧ t.hw.warp? q.wk = some w ∧ GoesTo q w (after q) ∧ w.preds = q.w.preds ∧
      RegsKept q w ∧ t.mem = s.mem ∧ (w.path q.x).pushing = none ∧
      (w.queue p.kind).staging = (q.w.queue p.kind).staging ++ p.words)

/-- O16. A .flg load that issues reads at the home in the step that issues it: its flight carries, per lane, the bytes of memory, the core's own dirty bytes of the line having been written back first; no other byte changes. An .acq load reads nothing yet: its flight carries the lanes' addresses, the path is held until the load has been performed, and no byte changes. In both exec answers a next state, the destination is empty until it lands and nothing of another warp changes. -/
def Obligations.FlagAndAcquireLoads : Prop :=
  (∀ t a z o, LoadsFlag (.ld t a 5#3 z o) ((Use.dst t).wide (szRegs z)) z.toNat (scopeOfNat (o.toNat / 8)) fun q n =>
    q.w.read64 ((Use.src a).wide 2) n + BitVec.ofInt 64 ((BitVec.ofNat 3 o.toNat).toInt * szBytes z.toNat)) ∧
  (∀ t a z o, LoadsAcquire (.ld t a 1#3 z o) ((Use.dst t).wide (szRegs z)) z.toNat (scopeOfNat (o.toNat / 8)) fun q n =>
    q.w.read64 ((Use.src a).wide 2) n + BitVec.ofInt 64 ((BitVec.ofNat 3 o.toNat).toInt * szBytes z.toNat))

/-- O17. The return of a flight whose generation tag is the one it was sent with writes its values to its destination registers, marks them full, ends the flight, and changes nothing else; a return of another generation, or of a flight that is gone, changes nothing at all. A replay packet lands so when its turn has come. An acquire load is performed at its return, at the place it was translated to: it lands the bytes that memory holds then. Each answers a next state. -/
def Obligations.ResultsLand : Prop :=
  (∀ s id f v, s.Inv → s.hw.occ.unit = id → Tab.find? s.hw.flights id = some f → f.tag = s.hw.occ.aux →
    s.hw.warp? f.wk = some v → f.dreg < 1000 → f.nreg ≤ 4 → (f.vals.map (·.1)).Nodup → (∀ x ∈ f.vals, x.1 < 1024) →
    (f.replay = false ∨ (v.stopped = false ∧ (f.handler = true ∨ v.mode = .user) ∧ v.held = none ∧ s.hw.replayTurn v id f = true) →
      Lands .iterativePassResult s id f v f.vals) ∧
    (∀ l sc z b, f.kind = .load l sc z b → l ≠ 1 → f.replay = false → Lands .loadReturn s id f v f.vals)) ∧
  (∀ s, s.Inv → (∀ f, Tab.find? s.hw.flights s.hw.occ.unit = some f → f.tag ≠ s.hw.occ.aux) →
    exec .loadReturn s = .next s ∧ exec .iterativePassResult s = .next s) ∧
  (∀ s id f v b sc z g, s.Inv → s.hw.occ.unit = id → Tab.find? s.hw.flights id = some f → f.tag = s.hw.occ.aux →
    s.hw.warp? f.wk = some v → s.hw.block? (wkBlock f.wk) = some b → f.kind = .load 1 sc z g → f.replay = false →
    s.hw.elemsOf f.wk = false → f.dreg < 1000 → f.nreg ≤ 4 → (f.lanes.map (·.1)).Nodup → (∀ x ∈ f.lanes, x.1 < 1024) →
    Iss.causes s.hw (f.iss v b) ⟨.flg, false, false, szBytes z, 0, false, true, some id⟩ (f.accs (szBytes z)) = none →
    Iss.held s.hw (f.iss v b) ⟨.flg, false, false, szBytes z, 0, false, true, some id⟩ (f.accs (szBytes z)) = none →
    OneView s (f.iss v b) (f.accs (szBytes z)) →
    ∃ t w, exec .loadReturn s = .next t ∧ t.hw.warp? f.wk = some w ∧ Tab.find? t.hw.flights id = none ∧
      Landed f ((f.accs (szBytes z)).map fun a => (a.lane, loaded z ((List.range a.size).map (flagByte s (f.iss v b) a)))) v w ∧
      ∀ x, FromOwn s (f.iss v b) x (t.byte x))

/-- O18. A .d store that issues and whose accesses pass every check writes, per active lane in rising order, the low bytes of its data operand: to the core's own view of the line, to scratchpad, or to the unit's guarded bytes; a later lane's byte stands. Every other byte of every core's view, of scratchpad and of guarded memory, and every byte of memory itself, is unchanged, as are the registers, special registers and other warps, where the core's L1 evicts no line for it; where it does, bytes of memory change only to dirty bytes of that L1. Each answers a next state and the pc moves on by 4. -/
def Obligations.PlainStores : Prop :=
  (∀ t a z o, StoresPlain (.st t a 0#3 z o) ((Use.src t).wide (szRegs z)) z.toNat fun q n =>
    q.w.read64 ((Use.src a).wide 2) n + BitVec.ofInt 64 (o.toInt * szBytes z.toNat)) ∧
  (∀ i d a b x y, StoresPlain (.stxW i d a b x y) (Use.src d) 4 fun q n =>
    q.w.read64 ((Use.srcC a x i).wide 2) n + BitVec.ofInt 64 ((q.rb b y n).toInt * 4)) ∧
  (∀ i d a b x y, StoresPlain (.stxD i d a b x y) ((Use.src d).wide 2) 5 fun q n =>
    q.w.read64 ((Use.srcC a x i).wide 2) n + BitVec.ofInt 64 ((q.rb b y n).toInt * 8))

/-- O19. A .flg or .rel store that issues, whose accesses pass every check and whose releases, its own and those a fence left pending, do not wait, answers a next state: it writes its bytes at the home in the step: memory holds them, the highest lane's where lanes overlap; the active lanes' pending releases are gone; every other byte of memory is as it was or is the storing core's own dirty byte, written back; scratchpad and guarded bytes change only where they are stored to. Registers, special registers and other warps are unchanged. -/
def Obligations.FlagAndReleaseStores : Prop :=
  (∀ t a z o, StoresHome (.st t a 5#3 z o) ((Use.src t).wide (szRegs z)) false (scopeOfNat (o.toNat / 8)) z.toNat fun q n =>
    q.w.read64 ((Use.src a).wide 2) n + BitVec.ofInt 64 ((BitVec.ofNat 3 o.toNat).toInt * szBytes z.toNat)) ∧
  (∀ t a z o, StoresHome (.st t a 2#3 z o) ((Use.src t).wide (szRegs z)) true (scopeOfNat (o.toNat / 8)) z.toNat fun q n =>
    q.w.read64 ((Use.src a).wide 2) n + BitVec.ofInt 64 ((BitVec.ofNat 3 o.toNat).toInt * szBytes z.toNat))

/-- O20. Each of the twenty atomics and reductions (ATOM.ADD, MIN, MAX, AND, OR, XOR, MINU, MAXU, FADD, XCHG, CAS, ATOM.ADD.D, XCHG.D, CAS.D; RED.ADD, MIN, MAX, OR, FADD, BFADD2) that issues and whose accesses pass every check answers a next state. On memory it appends one element per active lane, in lane order, to the queue of the retriever of the element's home, with its operation and operands; an atomic sends off a flight that leaves its destination empty. On scratchpad, and on a peer package's memory at system scope, the operation of one lane is performed in the step: the bytes hold the value of Table 14.5 and an atomic's destination the old value. Apart from the core's own dirty bytes written back, no other byte changes, nor another warp. -/
def Obligations.AtomicsAndReductions : Prop :=
  (∀ s d a b, Atomics (.atomAdd s d a b) .add .cnt (some (Use.dst d)) ((Use.src a).wide 2) (.src b) s.toNat) ∧
  (∀ s d a b, Atomics (.atomMin s d a b) .min .cnt (some (Use.dst d)) ((Use.src a).wide 2) (.src b) s.toNat) ∧
  (∀ s d a b, Atomics (.atomMax s d a b) .max .cnt (some (Use.dst d)) ((Use.src a).wide 2) (.src b) s.toNat) ∧
  (∀ s d a b, Atomics (.atomAnd s d a b) .and .cnt (some (Use.dst d)) ((Use.src a).wide 2) (.src b) s.toNat) ∧
  (∀ s d a b, Atomics (.atomOr s d a b) .or .cnt (some (Use.dst d)) ((Use.src a).wide 2) (.src b) s.toNat) ∧
  (∀ s d a b, Atomics (.atomXor s d a b) .xor .cnt (some (Use.dst d)) ((Use.src a).wide 2) (.src b) s.toNat) ∧
  (∀ s d a b, Atomics (.atomMinu s d a b) .minu .cnt (some (Use.dst d)) ((Use.src a).wide 2) (.src b) s.toNat) ∧
  (∀ s d a b, Atomics (.atomMaxu s d a b) .maxu .cnt (some (Use.dst d)) ((Use.src a).wide 2) (.src b) s.toNat) ∧
  (∀ s d a b, Atomics (.atomFadd s d a b) .fadd .cnt (some (Use.dst d)) ((Use.src a).wide 2) (.src b) s.toNat) ∧
  (∀ s d a b, Atomics (.xchg s d a b) .xchg .xch (some (Use.dst d)) ((Use.src a).wide 2) (.src b) s.toNat) ∧
  (∀ s d a b, Atomics (.cas s d a b) .cas .xch (some (Use.both d)) ((Use.src a).wide 2) (.src b) s.toNat) ∧
  (∀ s d a b, Atomics (.atomAddD s d a b) .addD .cnt (some ((Use.dst d).wide 2)) ((Use.src a).wide 2) ((Use.src b).wide 2) s.toNat) ∧
  (∀ s d a b, Atomics (.xchgD s d a b) .xchgD .xch (some ((Use.dst d).wide 2)) ((Use.src a).wide 2) ((Use.src b).wide 2) s.toNat) ∧
  (∀ s d a b, Atomics (.casD s d a b) .casD .xch (some ((Use.both d).wide 2)) ((Use.src a).wide 2) ((Use.src b).wide 2) s.toNat) ∧
  (∀ s a b, Atomics (.redAdd s a b) .add .red none ((Use.src a).wide 2) (.src b) s.toNat) ∧
  (∀ s a b, Atomics (.redMin s a b) .min .red none ((Use.src a).wide 2) (.src b) s.toNat) ∧
  (∀ s a b, Atomics (.redMax s a b) .max .red none ((Use.src a).wide 2) (.src b) s.toNat) ∧
  (∀ s a b, Atomics (.redOr s a b) .or .red none ((Use.src a).wide 2) (.src b) s.toNat) ∧
  (∀ s a b, Atomics (.redFadd s a b) .fadd .red none ((Use.src a).wide 2) (.src b) s.toNat) ∧
  (∀ s a b, Atomics (.redBfadd2 s a b) .bfadd2 .red none ((Use.src a).wide 2) (.src b) s.toNat)

/-- O21. RETRIEVER_ELEMENT answers a next state in every case. It takes the oldest element of the queue of ring `unit`. Where the element waits for a link or a channel, or at its line's home behind an engine or an earlier access, it stays first and the step is planned again. Otherwise it leaves the queue, one that waited for a place takes it, and the element is performed indivisibly: memory at its address holds the value of Table 14.5, every other byte of memory and of scratchpad is unchanged, and an atomic's old value lands in the lane's destination register, a host AtomicOp's is sent to the host. On a poisoned line it is not performed and its warp owes ECC. An empty queue changes nothing. -/
def Obligations.RetrieverPerformsOneElement : Prop :=
  (∀ s, s.Inv → (s.hw.ring s.hw.occ.unit).retq = [] → exec .retrieverElement s = .next s) ∧
  (∀ s x xs pa, s.Inv → (s.hw.ring s.hw.occ.unit).retq = x :: xs → x.loc = .mem pa →
    (s.hw.waitsOnWay x.ctx (s.hw.occ.unit / 5) x.leaf pa = true ∨
      x.ticket.isSome = true ∧ s.hw.lineHeld (x.ticket.getD s.hw.nextId) (lineOf pa) = true) →
    exec .retrieverElement s = .next { s with hw := { s.hw with
      agenda := s.hw.agenda ++ [.event .retrieverElement { Occasion.none with unit := s.hw.occ.unit }] } }) ∧
  (∀ s x xs pa, s.Inv → (s.hw.ring s.hw.occ.unit).retq = x :: xs → x.loc = .mem pa →
    s.hw.waitsOnWay x.ctx (s.hw.occ.unit / 5) x.leaf pa = false → x.ticket = none → s.hw.lineHeld s.hw.nextId (lineOf pa) = true →
    ∃ t, exec .retrieverElement s = .next t ∧ t.mem = s.mem ∧ t.clk = s.clk ∧ t.hw.warps = s.hw.warps ∧
      (t.hw.ring s.hw.occ.unit).retq = { x with ticket := some s.hw.nextId } :: xs ∧
      Planned t .retrieverElement { Occasion.none with unit := s.hw.occ.unit }) ∧
  (∀ s x xs pa, s.Inv → (s.hw.ring s.hw.occ.unit).retq = x :: xs → x.loc = .mem pa →
    s.hw.waitsOnWay x.ctx (s.hw.occ.unit / 5) x.leaf pa = false → s.hw.lineHeld (x.ticket.getD s.hw.nextId) (lineOf pa) = false →
    ∃ t, exec .retrieverElement s = .next t ∧ t.clk = s.clk ∧
      (t.hw.ring s.hw.occ.unit).retq = xs ++ (s.hw.ring s.hw.occ.unit).pend.take 1 ∧
      (t.hw.ring s.hw.occ.unit).pend = (s.hw.ring s.hw.occ.unit).pend.drop 1 ∧
      (∀ r, r ≠ s.hw.occ.unit → (t.hw.ring r).retq = (s.hw.ring r).retq) ∧
      (∀ f c, (t.hw.fcore f c).spad = (s.hw.fcore f c).spad) ∧
      (s.hw.poison.contains (lineOf pa) = true → t.mem = s.mem ∧ (x.host = false → ∀ v, s.hw.warp? x.wk = some v → v.done = false →
        (t.hw.warp? x.wk).map (fun w => w.owed.map fun o => (o.c, o.pc, o.a)) =
          some (v.owed.map (fun o => (o.c, o.pc, o.a)) ++ [(BitVec.ofNat 64 cECC, x.pc, x.va)]))) ∧
      (s.hw.poison.contains (lineOf pa) = false →
        let old := BitVec.ofNat 64 (leNat ((List.range x.op.size).map fun j => asRead s (pa + j) (s.byte (pa + j))))
        let new := rmw x.op (x.rmode.toNat % 8) (x.nbv.toNat % 4) old x.b x.cmp
        (∀ a, t.byte a = if pa ≤ a ∧ a < pa + x.op.size then
          match new with
          | some v => BitVec.ofNat 8 (v.toNat / 256 ^ (a - pa))
          | none => s.byte a
          else s.byte a) ∧
        (x.host = true → t.hw.out.head? = some (.data (natLe x.op.size old.toNat))) ∧
        (∀ k, x.ret = none → (t.hw.warp? k).map (fun w => (w.vregs, w.uregs, w.preds, w.empty)) =
          (s.hw.warp? k).map fun w => (w.vregs, w.uregs, w.preds, w.empty)) ∧
        ∀ id f v, x.host = false → x.ret = some id → Tab.find? s.hw.flights id = some f → f.dreg < 256 → f.nreg ≤ 4 → x.lane < 1024 →
          s.hw.warp? f.wk = some v →
          ∃ w, t.hw.warp? f.wk = some w ∧ w.uregs = v.uregs ∧ w.preds = v.preds ∧ ∀ r n, n < 1024 → w.getV r n =
            if n = x.lane ∧ f.dreg ≤ r ∧ r < f.dreg + f.nreg then old.extractLsb' (32 * (r - f.dreg)) 32 else v.getV r n))

/-- O22. A fence that issues with none of its warp's elements outstanding, for the acquiring forms none of the path's loads or atomics, and for the releasing ones no dirty line that an engine owns, answers a next state and goes on. A releasing fence of cluster scope or wider puts every dirty byte of its context of the core's L1 into memory and leaves each active lane a pending release at the wider of its scope and the one pending; an acquiring fence of cluster scope or wider leaves no clean byte of its context or of context 0 in the L1. No other byte, register or warp changes. -/
def Obligations.Fences : Prop :=
  ∀ i acq rel sc, ((i = Instr.fenceAcq sc ∧ acq = true ∧ rel = false) ∨ (i = .fenceRel sc ∧ acq = false ∧ rel = true) ∨
      (i = .fenceAr sc ∧ acq = true ∧ rel = true) ∨ (i = .fenceSc sc ∧ acq = true ∧ rel = true)) →
    ∀ s q, Issues i s q → Room s q 2 → InContext s q → s.hw.elemsOf q.wk = false →
    (rel = true → s.hw.backHeld q.core (Iss.ctx s.hw q) = false) → (acq = true → s.hw.returning q.wk q.x = false) →
    ∃ t w, exec i s = .next t ∧ Around i q s t w ∧ w.empty = q.w.empty ∧ w.sync = q.w.sync ∧
      (∀ f c, (t.hw.fcore f c).spad = (s.hw.fcore f c).spad) ∧ (∀ x, FromOwn s q x (t.byte x)) ∧
      (∀ n, Tab.find? w.pend n = if rel = true ∧ n ∈ q.lanes then
          some (match Tab.find? q.w.pend n with
            | some o => if o.rank ≤ (scopeOfNat sc.toNat).rank then scopeOfNat sc.toNat else o
            | none => scopeOfNat sc.toNat)
        else Tab.find? q.w.pend n) ∧
      (rel = false → t.mem = s.mem) ∧
      (rel = true → 2 ≤ sc.toNat → ((s.hw.core q.core).l1.map (·.1)).Nodup → ∀ l k, l < 2 ^ 45 → k < 128 → (s.hw.l1 q.core (Iss.ctx s.hw q) l).dirty.getLsbD k = true →
        t.byte (128 * l + k) = Tab.getD (s.hw.l1 q.core (Iss.ctx s.hw q) l).bytes k 0#8 ∧
        (t.hw.l1 q.core (Iss.ctx s.hw q) l).dirty.getLsbD k = false) ∧
      (acq = true → 2 ≤ sc.toNat → ((s.hw.core q.core).l1.map (·.1)).Nodup → ∀ l k, l < 2 ^ 45 → (s.hw.l1 q.core (Iss.ctx s.hw q) l).dirty.getLsbD k = false →
        (t.hw.l1 q.core (Iss.ctx s.hw q) l).valid.getLsbD k = false)

/-- O23. An arrival on an initialised barrier whose ARR is not EXP counts one party (BAREXP adds b to BYTES as well), completes the phase when ARR reaches EXP with BYTES 0, and leaves every other barrier as it was. BARARR and BAREXP deliver the PHASE before the arrival, to a register or a push register, and go on; BARSYNC goes on if its arrival completed the phase, else it waits at its own address with the token it will wait for, without arriving again. The block's interval advances by one event. Each of the three answers a next state where it may arrive and its release does not wait. -/
def Obligations.BarrierArrivals : Prop :=
  (∀ i d a x s q k n r, Issues (.bararr i d a x) s q → Room s q 2 → Iss.arrivalWaits s.hw q r = false →
    s.hw.liveBarrier q.bk q.b (q.ra a x i q.lane0) = .ok (k, n, r) → r.arr ≠ r.exp →
    let val (_ : Nat) : List Word := [BitVec.ofNat 32 r.phase]
    CanReceive s q (Use.dst d) val →
    ∃ t w, exec (.bararr i d a x) s = .next t ∧ Beside (.bararr i d a x) q s t w (stagedFor q (Use.dst d) val) ∧
      w.preds = q.w.preds ∧ w.batch = q.w.batch ∧ Receives q w (Use.dst d) val ∧
      (barrierAt t k n).map face = some (afterArrival r none) ∧
      OtherBarriers s t k n ∧ (q.w.poppedRels (.bararr i d a x) = [] → (t.hw.block? q.bk).map (·.c) = some (q.b.c + 1))) ∧
  (∀ i d a b x y s q k n r, Issues (.barexp i d a b x y) s q → Room s q 2 → Iss.arrivalWaits s.hw q r = false →
    s.hw.liveBarrier q.bk q.b (q.ra a x i q.lane0) = .ok (k, n, r) → r.arr ≠ r.exp →
    let val (_ : Nat) : List Word := [BitVec.ofNat 32 r.phase]
    CanReceive s q (Use.dst d) val →
    ∃ t w, exec (.barexp i d a b x y) s = .next t ∧ Beside (.barexp i d a b x y) q s t w (stagedFor q (Use.dst d) val) ∧
      w.preds = q.w.preds ∧ w.batch = q.w.batch ∧ Receives q w (Use.dst d) val ∧
      (barrierAt t k n).map face = some (afterArrival r (some (q.rb b y q.lane0).toNat)) ∧ OtherBarriers s t k n ∧
      (q.w.poppedRels (.barexp i d a b x y) = [] → (t.hw.block? q.bk).map (·.c) = some (q.b.c + 1))) ∧
  (∀ i a x s q k n r, Issues (.barsync i a x) s q → Room s q 3 → Iss.arrivalWaits s.hw q r = false → q.p.barTok = none →
    s.hw.liveBarrier q.bk q.b (q.ra a x i q.lane0) = .ok (k, n, r) → r.arr ≠ r.exp →
    (r.arr + 1 = r.exp ∧ r.bytes = 0 → ∃ t w, exec (.barsync i a x) s = .next t ∧ Beside (.barsync i a x) q s t w ∧
      RegsKept q w ∧ w.preds = q.w.preds ∧ (barrierAt t k n).map face = some (afterArrival r none) ∧ OtherBarriers s t k n ∧
      (w.path q.x).barTok = none) ∧
    (¬(r.arr + 1 = r.exp ∧ r.bytes = 0) → ∃ t, exec (.barsync i a x) s = .next t ∧ Waits q t 6 ∧
      (barrierAt t k n).map face = some (afterArrival r none) ∧ OtherBarriers s t k n ∧
      (t.hw.warp? q.wk).map (fun w => ((w.path q.x).barTok, (w.path q.x).barOn)) =
        some (some (q.ra a x i q.lane0, r.phase), some (k, n))))

/-- O24. BARWAIT on an initialised barrier whose PHASE differs from the token goes on; while they are equal it waits at its own address. A BARSYNC that has arrived does the same with the token it kept. BARTRY sets its predicate to whether PHASE differs from the token and goes on in both cases. BARQRY delivers the state word of Table 14.8, also of a barrier of the other kind than its word names. None of them changes a barrier, memory, or another warp. BARWAIT, BARTRY and BARQRY answer a next state. -/
def Obligations.BarrierWaits : Prop :=
  (∀ ins word token s q k n r, Issues ins s q → Room s q 2 →
    ((∃ i a b x y, ins = .barwait i a b x y ∧ word = q.ra a x i q.lane0 ∧ token = (q.rb b y q.lane0).toNat % 256) ∨
     (∃ i a x, ins = .barsync i a x ∧ q.p.barTok = some (word, token))) →
    s.hw.liveBarrier q.bk q.b word = .ok (k, n, r) →
    (r.phase ≠ token → ∃ t w, exec ins s = .next t ∧ Beside ins q s t w ∧ RegsKept q w ∧ w.preds = q.w.preds ∧ t.mem = s.mem ∧
      (w.path q.x).barTok = none ∧ (w.path q.x).barOn = none ∧ ∀ k' n', barrierAt t k' n' = barrierAt s k' n') ∧
    (r.phase = token → ∃ t, exec ins s = .next t ∧ Waits q t 6 ∧ t.mem = s.mem ∧ t.hw.blocks = s.hw.blocks ∧
      (t.hw.warp? q.wk).map (fun w => (w.path q.x).barOn) = some (some (k, n)))) ∧
  (∀ i p a b x y s q k n r, Issues (.bartry i p a b x y) s q → Room s q 2 →
    s.hw.liveBarrier q.bk q.b (q.ra a x i q.lane0) = .ok (k, n, r) →
    ∃ t w, exec (.bartry i p a b x y) s = .next t ∧ Beside (.bartry i p a b x y) q s t w ∧ RegsKept q w ∧ t.mem = s.mem ∧
      (∀ k' n', barrierAt t k' n' = barrierAt s k' n') ∧
      ∀ m l, l < 1024 → (w.getP m).getLsbD l =
        if m = p.toNat ∧ m ≠ 0 ∧ l ∈ q.lanes then decide (r.phase ≠ (q.rb b y q.lane0).toNat % 256) else (q.w.getP m).getLsbD l) ∧
  (∀ i d a x s q k n r v, Issues (.barqry i d a x) s q → CanReceive s q (Use.dst d) (fun _ => [v]) →
    s.hw.barrier q.bk q.b (q.ra a x i q.lane0) = some (k, n, r) →
    r.arr ≤ r.exp → r.exp < 2 ^ 16 → r.phase < 256 →
    v.extractLsb' 0 16 = BitVec.ofNat 16 (if r.init then r.exp - r.arr else 0) → v.extractLsb' 16 8 = BitVec.ofNat 8 r.phase →
    v.getLsbD 24 = r.init → v.getLsbD 25 = r.bcnt → v.getLsbD 26 = s.hw.creditPending k n → v.getLsbD 27 = r.cluster →
    v.getLsbD 28 = decide (r.bytes ≠ 0) → v.getLsbD 29 = decide (r.bytes < 0) → v.extractLsb' 30 2 = 0#2 →
    ∃ t w, exec (.barqry i d a x) s = .next t ∧ Framed (.barqry i d a x) q s t w ∧ GoesTo q w (after q) ∧ w.preds = q.w.preds ∧
      QueuesStaged (.barqry i d a x) q w (stagedFor q (Use.dst d) fun _ => [v]) ∧ Receives q w (Use.dst d) fun _ => [v])

/-- O25. BARINIT on a barrier with neither blocked waiters nor credit pending, and not initialised with the other cluster bit, answers a next state that initialises it: EXP the low 16 bits of b, ARR and BYTES 0, byte counting off, the cluster flag that of the word, PHASE kept. BARINV so answers a next state that makes it uninitialised, and leaves one that already is as it was. Every other barrier, every register, byte of memory and other warp is unchanged. With waiters or credit pending each raises BARBUSY, and the barrier stays as it was. -/
def Obligations.BarrierSetup : Prop :=
  (∀ i a b x y s q k n r, Issues (.barinit i a b x y) s q → s.hw.barrier q.bk q.b (q.ra a x i q.lane0) = some (k, n, r) →
    (q.rb b y q.lane0).toNat % 2 ^ 16 ≠ 0 → (r.init = true → r.cluster = (q.ra a x i q.lane0).getLsbD 11) →
    s.hw.barrierBusy k n = false →
    ∃ t w, exec (.barinit i a b x y) s = .next t ∧ Beside (.barinit i a b x y) q s t w ∧ RegsKept q w ∧ w.preds = q.w.preds ∧
      t.mem = s.mem ∧ OtherBarriers s t k n ∧ (barrierAt t k n).map face =
        some (true, (q.rb b y q.lane0).toNat % 2 ^ 16, 0, r.phase, 0, false, (q.ra a x i q.lane0).getLsbD 11)) ∧
  (∀ i a x s q k n r, Issues (.barinv i a x) s q → s.hw.barrier q.bk q.b (q.ra a x i q.lane0) = some (k, n, r) →
    (r.init = true → r.cluster = (q.ra a x i q.lane0).getLsbD 11) → s.hw.barrierBusy k n = false →
    ∃ t w, exec (.barinv i a x) s = .next t ∧ Beside (.barinv i a x) q s t w ∧ RegsKept q w ∧ w.preds = q.w.preds ∧
      t.mem = s.mem ∧ OtherBarriers s t k n ∧ (barrierAt t k n).map face = some (false, (face r).2)) ∧
  (∀ ins word s q k n r, Issues ins s q →
    ((∃ i a b x y, ins = .barinit i a b x y ∧ word = q.ra a x i q.lane0 ∧ (q.rb b y q.lane0).toNat % 2 ^ 16 ≠ 0) ∨
     (∃ i a x, ins = .barinv i a x ∧ word = q.ra a x i q.lane0)) →
    s.hw.barrier q.bk q.b word = some (k, n, r) → (r.init = true → r.cluster = word.getLsbD 11) →
    s.hw.barrierBusy k n = true → q.w.mode = .user →
    (s.hw.part (s.hw.partOf q.fn)).phvec ≠ 0#64 → (s.hw.part (s.hw.partOf q.fn)).imask.getLsbD 0 = false →
    ∃ t w, exec ins s = .next t ∧ t.hw.warp? q.wk = some w ∧ w.mode = .handler ∧ w.trapc = 0x09#64 ∧
      w.trappc = q.p.pc ∧ w.p0.pc = (s.hw.part (s.hw.partOf q.fn)).phvec ∧ t.hw.blocks = s.hw.blocks)

/-- O26. MON arms the path's monitor on its aligned 8 bytes at its scope, reading nothing. MWAIT on a triggered monitor, and SWAIT on a word whose low half has reached b, deliver the 8 bytes read at the home, and go on (MWAIT disarms); an armed and untriggered monitor, or a word not yet reached, leaves the path waiting at its own address. TWAIT goes on once the core's local TICK has reached its operand, else it waits. MONITOR_TIMEOUT triggers every monitor of a warp armed for 2^20 cycles. Each answers a next state. -/
def Obligations.MonitorsAndWaits : Prop :=
  (∀ sc a s q loc leaf, Issues (.mon sc a) s q → (q.w.read64 ((Use.src a).wide 2) q.lane0).toNat % 8 = 0 →
    Iss.locate s.hw ⟨s.clk, s.mem⟩ q ⟨false, false⟩ (q.w.read64 ((Use.src a).wide 2) q.lane0) 8 = .ok (loc, leaf) →
    (∀ o, loc ≠ .alias_ o) →
    ∃ t w, exec (.mon sc a) s = .next t ∧ Beside (.mon sc a) q s t w ∧ RegsKept q w ∧ w.preds = q.w.preds ∧ t.mem = s.mem ∧
      (w.path q.x).mon = some ⟨q.w.read64 ((Use.src a).wide 2) q.lane0, loc, scopeOfNat sc.toNat, true, false, s.clk.cycle⟩) ∧
  (∀ d s q m a, Issues (.mwait d) s q → Room s q 2 → q.p.mon = some m → (m.armed = false ∨ m.trig = true) →
    s.hw.elemsOf q.wk = false → Accesses s q.one ⟨.flg, false, false, 8, if m.scope = .warp then 0 else 1, false, true, none⟩
      (fun _ => m.va) [a] → (∀ v, q.w.stampFailure a.loc v = none) → (∀ o, a.loc ≠ .alias_ o) →
    let val (_ : Nat) : List Word := halves (BitVec.ofNat 64 (leNat ((List.range 8).map (flagByte s q a))))
    ∃ t w, exec (.mwait d) s = .next t ∧ Beside (.mwait d) q s t w ∧ w.preds = q.w.preds ∧
      (w.path q.x).mon = some { m with armed := false } ∧ Holds q w ((Use.dst d).wide 2) val) ∧
  (∀ d s q m, Issues (.mwait d) s q → q.p.mon = some m → m.armed = true → m.trig = false →
    ∃ t, exec (.mwait d) s = .next t ∧ Waits q t 7 ∧ t.mem = s.mem) ∧
  (∀ sc d a b s q x, Issues (.swait sc d a b) s q → Room s q 2 →
    Accesses s q.one ⟨.flg, false, false, 8, if scopeOfNat sc.toNat = .warp then 0 else 1, false, true, none⟩
      (fun _ => q.w.read64 ((Use.src a).wide 2) q.lane0) [x] → (∀ v, q.w.stampFailure x.loc v = none) →
    let v := BitVec.ofNat 64 (leNat ((List.range 8).map (flagByte s q x)))
    ((v.extractLsb' 0 32 - q.w.read (.src b) q.lane0).toNat < 2 ^ 31 ∧ s.hw.elemsOf q.wk = false →
      ∃ t w, exec (.swait sc d a b) s = .next t ∧
        Beside (.swait sc d a b) q s t w ∧ w.preds = q.w.preds ∧
        Holds q w ((Use.dst d).wide 2) fun _ => halves v) ∧
    (2 ^ 31 ≤ (v.extractLsb' 0 32 - q.w.read (.src b) q.lane0).toNat →
      ∃ t, exec (.swait sc d a b) s = .next t ∧ Waits q t 7 ∧ ∀ x, FromOwn s q x (t.byte x))) ∧
  (∀ i a x s q, Issues (.twait i a x) s q →
    ((q.w.read64 ((Use.srcC a x i).wide 2) q.lane0).toNat ≤ localTick ⟨s.clk, s.mem⟩ q.core →
      ∃ t w, exec (.twait i a x) s = .next t ∧ Framed (.twait i a x) q s t w ∧ QueuesPopped (.twait i a x) q w ∧
        GoesTo q w (after q) ∧ RegsKept q w ∧ w.preds = q.w.preds) ∧
    (localTick ⟨s.clk, s.mem⟩ q.core < (q.w.read64 ((Use.srcC a x i).wide 2) q.lane0).toNat →
      ∃ t, exec (.twait i a x) s = .next t ∧ Waits q t 8 ∧ t.mem = s.mem)) ∧
  (∀ s v m, s.Inv → s.hw.warp? s.hw.occ.unit = some v → v.p0.mon = some m → m.armed = true → m.since + 2 ^ 20 ≤ s.clk.cycle →
    ∃ t w, exec .monitorTimeout s = .next t ∧ t.hw.warp? s.hw.occ.unit = some w ∧ w.p0.mon = some { m with trig := true } ∧
      calmWarp w = calmWarp v ∧ (∀ k, k ≠ s.hw.occ.unit → t.hw.warp? k = s.hw.warp? k) ∧ t.mem = s.mem ∧ t.clk = s.clk)

/-- O27. CBATCH closes the open batch: d and the warp's batch number become the old number plus one. CSTAMP delivers the sequence number of the last pushed copy or ring command. With no copy or ring command of batches up to a (or the last closed one) outstanding and no undelivered failure among them, CWAIT goes on and CPOLL sets its predicate; with one outstanding CWAIT waits at its own address and CPOLL clears its predicate and goes on. Memory and other warps are unchanged. Each answers a next state. -/
def Obligations.CopyBatches : Prop :=
  (∀ d s q, Issues (.cbatch d) s q →
    let val (_ : Nat) : List Word := [BitVec.ofNat 32 (q.w.batch + 1)]
    CanReceive s q (Use.dst d) val →
    ∃ t w, exec (.cbatch d) s = .next t ∧ Beside (.cbatch d) q s t w (stagedFor q (Use.dst d) val) ∧ w.preds = q.w.preds ∧
      w.batch = q.w.batch + 1 ∧ t.mem = s.mem ∧ Receives q w (Use.dst d) val) ∧
  (∀ d, Computes (.cstamp d) (Use.dst d) fun q _ => [BitVec.ofNat 32 q.w.seq]) ∧
  (∀ i a x s q, Issues (.cwait i a x) s q → Room s q 2 →
    let n := min (q.ra a x i q.lane0).toNat q.w.batch
    (s.hw.batchDone q.wk n = true → q.w.batchFailure n = none → ∃ t w, exec (.cwait i a x) s = .next t ∧
      Beside (.cwait i a x) q s t w ∧ RegsKept q w ∧ w.preds = q.w.preds ∧ w.batch = q.w.batch ∧ t.mem = s.mem) ∧
    (s.hw.batchDone q.wk n = false → ∃ t, exec (.cwait i a x) s = .next t ∧ Waits q t 9 ∧ t.mem = s.mem)) ∧
  (∀ i p a x s q, Issues (.cpoll i p a x) s q → Room s q 2 →
    let n := min (q.ra a x i q.lane0).toNat q.w.batch
    (s.hw.batchDone q.wk n = true → q.w.batchFailure n = none) →
    ∃ t w, exec (.cpoll i p a x) s = .next t ∧ Beside (.cpoll i p a x) q s t w ∧ RegsKept q w ∧ w.batch = q.w.batch ∧
      t.mem = s.mem ∧ ∀ m l, l < 1024 → (w.getP m).getLsbD l =
        if m = p.toNat ∧ m ≠ 0 ∧ l ∈ q.lanes then s.hw.batchDone q.wk n else (q.w.getP m).getLsbD l)

/-- O28. Each of these that issues answers a next state. BRA goes to pc + 4 plus four times its signed offset. BRP goes there when its predicate (inverted by n) holds in every active lane, and to pc + 4 when it holds in none. CALL writes pc + 4 to the pair a in every active lane and goes to its target. JMPR goes to the address in the pair, where it is aligned and the same in every active lane. Lanes, join stack, the other path, registers, memory and other warps stay. -/
def Obligations.Branches : Prop :=
  (∀ k s q, Issues (.bra k) s q → Jumps (.bra k) s q (branchTarget q k)) ∧
  (∀ u n p k s q, Issues (.brp u n p k) s q → q.p.mask ≠ 0#1024 →
    (q.p.mask &&& (if n then ~~~q.w.getP p.toNat else q.w.getP p.toNat) = q.p.mask →
      Jumps (.brp u n p k) s q (branchTarget q k)) ∧
    (q.p.mask &&& (if n then ~~~q.w.getP p.toNat else q.w.getP p.toNat) = 0#1024 → Jumps (.brp u n p k) s q (after q))) ∧
  (∀ a k s q, Issues (.call a k) s q → ∃ t w, exec (.call a k) s = .next t ∧ Framed (.call a k) q s t w ∧
    QueuesPopped (.call a k) q w ∧ GoesTo q w (branchTarget q k) ∧ w.preds = q.w.preds ∧
    Holds q w ((Use.dst a).wide 2) fun _ => halves (after q)) ∧
  (∀ a x s q v, Issues (.jmpr a x) s q → q.lanes ≠ [] → v.toNat % 4 = 0 →
    (∀ n ∈ q.lanes, q.w.read64 (Use.srcC a x false) n = v) → Jumps (.jmpr a x) s q v)

/-- O29. Each of these that issues answers a next state. JPT pushes its JOIN entry while the stack holds fewer than 16. A BRP that holds in some active lanes and not in others splits a one-path warp whose path has a JOIN entry on top (path 1 takes the taken lanes at the target), or, in a warp of two paths, defers the untaken lanes. JOIN at the entry's address resumes the deferred lanes, or all lanes of the JOIN entry that have not exited at pc + 4; at the split join the first path waits and the second merges the two. BRKJ n pops down to the nth JOIN entry and goes to its target. -/
def Obligations.DivergenceAndJoins : Prop :=
  (∀ k s q, Issues (.jpt k) s q → q.p.stack.length < 16 →
    Steers (.jpt k) s q (after q, q.p.mask, ⟨branchTarget q k, none, q.p.mask⟩ :: q.p.stack, q.p.base)) ∧
  (∀ n p k s q, Issues (.brp false n p k) s q →
    let tk := q.p.mask &&& (if n then ~~~q.w.getP p.toNat else q.w.getP p.toNat)
    let nt := q.p.mask &&& ~~~tk
    ∀ t m l, q.p.above = ⟨t, none, m⟩ :: l → tk ≠ 0#1024 → nt ≠ 0#1024 →
    (q.w.split = none → ∃ z w, exec (.brp false n p k) s = .next z ∧ Steered (.brp false n p k) q s z w ∧ w.split = some (t, m) ∧
      stands w.p0 = (after q, nt, q.p.stack.tail, q.p.stack.length - 1) ∧
      stands w.p1 = (branchTarget q k, tk, [], 0) ∧ w.p1.live = true ∧ w.exited = q.w.exited) ∧
    (q.w.split.isSome = true → q.p.stack.length < 16 →
      Steers (.brp false n p k) s q (branchTarget q k, tk, ⟨t, some (after q), nt⟩ :: q.p.stack, q.p.base))) ∧
  (∀ s q t m l, Issues .join s q → q.p.above = ⟨t, none, m⟩ :: l → q.p.pc = t → m &&& ~~~q.w.exited ≠ 0#1024 →
    (q.w.split = none → q.x = false) → Steers .join s q (t + 4#64, m &&& ~~~q.w.exited, q.p.stack.tail, q.p.base)) ∧
  (∀ s q t pc m l, Issues .join s q → q.p.above = ⟨t, some pc, m⟩ :: l → q.p.pc = t → m ≠ 0#1024 →
    (q.w.split = none → q.x = false) → Steers .join s q (pc, m, q.p.stack.tail, q.p.base)) ∧
  (∀ s q m, Issues .join s q → q.p.above = [] → q.w.split = some (q.p.pc, m) → q.p.mask ≠ 0#1024 →
    (q.w.path (!q.x)).live = true → (q.w.path (!q.x)).atJoin = false →
    ∃ z w, exec .join s = .next z ∧ Steered .join q s z w ∧ (w.path q.x).atJoin = true ∧ w.split = q.w.split ∧
      stands (w.path q.x) = (q.p.pc, q.p.mask, q.p.stack, q.p.base)) ∧
  (∀ s q m, Issues .join s q → q.p.above = [] → q.w.split = some (q.p.pc, m) → m &&& ~~~q.w.exited ≠ 0#1024 →
    ((q.w.path (!q.x)).live = false ∨ (q.w.path (!q.x)).atJoin = true) →
    ∃ z w, exec .join s = .next z ∧ Steered .join q s z w ∧ w.split = none ∧ w.p1.live = false ∧ w.p0.live = true ∧
      stands w.p0 = (q.p.pc + 4#64, m &&& ~~~q.w.exited, q.w.p0.below, 0)) ∧
  (∀ a n x s q v pre t m rest, Issues (.brkj a n x) s q → q.lanes ≠ [] → v.toNat % 4 = 0 →
    (∀ l ∈ q.lanes, q.w.read64 (Use.srcC a x false) l = v) → q.p.above = pre ++ ⟨t, none, m⟩ :: rest →
    (pre.filter fun e => e.defer.isNone).length + 1 = n.toNat → m &&& ~~~q.w.exited ≠ 0#1024 →
    (∀ e l, rest = e :: l → v.toNat < e.t.toNat) → (∀ z, rest = [] → q.w.split = some z → v.toNat < z.1.toNat) →
    Steers (.brkj a n x) s q (v, m &&& ~~~q.w.exited, rest ++ q.p.below, q.p.base))

/-- O30. EXIT in user mode with no engine failure held answers a next state, and adds the path's lanes to the exited ones. A path with a stack entry above its base goes on at the entry's address with no active lane; the last path of a warp ends the warp; a path of a split warp whose other path still runs ends alone; one whose other path waits at the split join, or has ended, merges it. Registers, memory and other warps stay. -/
def Obligations.Exits : Prop :=
  ∀ s q, Issues .exit s q → q.w.mode = .user → q.w.failure = none →
    (∀ e l, q.p.above = e :: l → ∃ t w, exec .exit s = .next t ∧ Steered .exit q s t w ∧ w.exited = q.w.exited ||| q.p.mask ∧
      stands (w.path q.x) = (e.t, 0#1024, q.p.stack, q.p.base) ∧ w.split = q.w.split ∧
      w.pend = Tab.keep (fun l _ => !q.p.mask.getLsbD l) q.w.pend) ∧
    (q.p.above = [] → q.w.split = none → ∃ t w, exec .exit s = .next t ∧ t.hw.warp? q.wk = some w ∧ w.done = true ∧
      w.p0.live = false ∧ w.p1.live = false ∧ w.pend = [] ∧ RegsKept q w ∧ w.preds = q.w.preds ∧ t.mem = s.mem ∧
      ∀ k, k ≠ q.wk → t.hw.warp? k = s.hw.warp? k) ∧
    (q.p.above = [] → q.w.split.isSome = true → (q.w.path (!q.x)).live = true → (q.w.path (!q.x)).atJoin = false →
      ∃ t w, exec .exit s = .next t ∧ Steered .exit q s t w ∧ w.exited = q.w.exited ||| q.p.mask ∧ (w.path q.x).live = false ∧
        w.split = q.w.split ∧ calm (w.path (!q.x)) = calm (q.w.path (!q.x))) ∧
    (∀ j m, q.p.above = [] → q.w.split = some (j, m) →
      ((q.w.path (!q.x)).live = false ∨ (q.w.path (!q.x)).atJoin = true) → m &&& ~~~(q.w.exited ||| q.p.mask) ≠ 0#1024 →
      ∃ t w, exec .exit s = .next t ∧ Steered .exit q s t w ∧ w.exited = q.w.exited ||| q.p.mask ∧ w.split = none ∧
        w.p1.live = false ∧ w.p0.live = true ∧ w.p0.pc = j + 4#64 ∧ w.p0.mask = m &&& ~~~(q.w.exited ||| q.p.mask) ∧ w.p0.base = 0)

/-- O31. TRAP n and BKPT that issue in user mode, with a handler that takes entries, enter handler mode: TRAPC is 0x18 with TRAPO n, or 0x0E with TRAPO 0, TRAPA is 0, TRAPPC the instruction's address; the paths and the split join become the trap frame; the warp goes on at PHVEC as one path of every lane that has not exited, with an empty join stack, unpacked and with a watchdog count of 0; the other path's loads and iterative passes become replay packets; every other register, warp and byte is kept. Each answers a next state. -/
def Obligations.SoftwareTraps : Prop :=
  (∀ n s q, Issues (.trap n) s q → CanEnter q s → ∃ t w, exec (.trap n) s = .next t ∧ Enters q s t w 0x18#64 0#64 (BitVec.ofNat 64 n.toNat)) ∧
  (∀ s q, Issues .bkpt s q → CanEnter q s → ∃ t w, exec .bkpt s = .next t ∧ Enters q s t w 0x0E#64 0#64 0#64)

/-- O32. Every instruction that has an encoding and does not pass the checks of rank 2 in user mode, with a handler that takes entries, changes nothing but to enter handler mode with the cause the checks give: TRAPPC is its address and TRAPO the path number unless the cause gives it. One that must wait for a register changes nothing and stays at its address. An illegal encoding, or an instruction illegal for what the machine or its operands hold, takes ILLEGAL; otherwise a handler-only instruction in user mode, or one denied for its operands, PRIV; otherwise operands out of bounds REGBOUND. Every such instruction answers a next state. -/
def Obligations.RankTwoTraps : Prop :=
  (∀ i s q c a o p, (encode? i).isSome = true → s.Inv → Iss.of s.hw = some q → CanEnter q s →
    q.rank2 s.hw i = .error (.trap c a o p) →
    ∃ t w, exec i s = .next t ∧ Enters q s t w c a (o.getD (pathNumber q))) ∧
  (∀ i s q r, (encode? i).isSome = true → s.Inv → Iss.of s.hw = some q → q.rank2 s.hw i = .error (.wait r) →
    ∃ t, exec i s = .next t ∧ Waits q t r ∧ t.mem = s.mem ∧ t.clk = s.clk) ∧
  (∀ bad deny i w l, Instr.legal w.xi.toNat i = false ∨ bad = true → rank2 bad deny i w l = .error (.trap 0x01#64 0#64 none 0#64)) ∧
  (∀ deny i w l, Instr.legal w.xi.toNat i = true → Instr.handlerOnly i = true ∨ deny = true → w.mode = .user →
    rank2 false deny i w l = .error (.trap 0x13#64 0#64 none 0#64)) ∧
  (∀ i w l, Instr.legal w.xi.toNat i = true → privStop i w.mode = none → (∃ u ∈ Instr.uses i, w.inBounds u = false) →
    rank2 false false i w l = .error (.trap 0x02#64 0#64 none 0#64))

/-- O33. A trap of a user-mode warp while the partition's IMASK bit 0 is set leaves both paths waiting with stall reason 24, queues the warp behind those held before it, with its trap, and makes replay packets of the other path's loads and iterative passes. With a PHVEC of 0, or in handler mode, it is DOUBLE: a user warp's block is killed with cause 0x19; the handler warp loses its paths and the end of its entry as DECLINE is planned. TRAP n stands for the trap: it takes one whenever it issues, and answers a next state. -/
def Obligations.HeldAndDoubleExceptions : Prop :=
  (∀ n s q, Issues (.trap n) s q → q.w.mode = .user → (s.hw.part (s.hw.partOf q.fn)).phvec ≠ 0#64 →
    (s.hw.part (s.hw.partOf q.fn)).imask.getLsbD 0 = true →
    ∃ t w, exec (.trap n) s = .next t ∧ t.hw.warp? q.wk = some w ∧ w.p0.stall = 24 ∧ w.p1.stall = 24 ∧
      w.held = some (⟨0x18#64, q.p.pc, 0#64, BitVec.ofNat 64 n.toNat, 0#64⟩, q.x) ∧
      w = { q.w with
        held := w.held, replayFirst := w.replayFirst, p0 := { q.w.p0 with stall := 24 }, p1 := { q.w.p1 with stall := 24 } } ∧
      (∀ id f, Tab.find? s.hw.flights id = some f → Packs q f →
        Tab.find? t.hw.flights id = some { f with replay := true, held := [] } ∧ id ∈ w.replayFirst) ∧
      (t.hw.part (s.hw.partOf q.fn)).heldTraps = (s.hw.part (s.hw.partOf q.fn)).heldTraps ++ [q.wk] ∧ t.mem = s.mem ∧
      ∀ k, k ≠ q.wk → t.hw.warp? k = s.hw.warp? k) ∧
  (∀ n s q, Issues (.trap n) s q → q.slot ≠ 0xFFF → (q.w.mode = .handler ∨ (s.hw.part (s.hw.partOf q.fn)).phvec = 0#64) →
    (s.hw.cmds.map (·.1)).Nodup → ∃ t, exec (.trap n) s = .next t ∧ Killed s t q.bk 0x19 q.b) ∧
  (∀ n s q, Issues (.trap n) s q → q.slot = 0xFFF → q.w.mode = .handler →
    ∃ t w, exec (.trap n) s = .next t ∧ t.hw.warp? q.wk = some w ∧ w.p0.live = false ∧ w.p1.live = false ∧ t.mem = s.mem ∧
      t.hw.agenda = s.hw.agenda ++ [.event .handlerTaskEntry { Occasion.none with unit := q.fn - 320, flag := true }])

/-- O34. ERET in a user warp that holds a trap frame leaves handler mode and restores the frame: the trapping path resumes at TRAPPC, or at TRAPPC + 4 where TRAPC is 0x18, or 0x0E with TRAPO[3:0] 0 (where TRAPPC is unchanged since the entry, at its saved address, which differs from TRAPPC only for a replay packet's trap, log 12); the other path at its saved address; both watchdog counts are 0; registers and memory stay. IMASK delivers the partition's old entry mask and sets it to a[1:0]; clearing bit 0 lets a held warp enter with the trap it raised. Both answer a next state. -/
def Obligations.ReturnsFromExceptions : Prop :=
  (∀ s q f, Issues .eret s q → q.w.mode = .handler → q.slot ≠ 0xFFF → q.w.frame = some f →
    ∃ t w, exec .eret s = .next t ∧ t.hw.warp? q.wk = some w ∧ w.mode = .user ∧ w.frame = none ∧ w.split = f.split ∧
      RegsKept q w ∧ w.preds = q.w.preds ∧ w.trapc = q.w.trapc ∧ w.trappc = q.w.trappc ∧ t.mem = s.mem ∧
      (let back := if q.w.trapc.toNat % 256 = 0x18 ∨ (q.w.trapc.toNat % 256 = 0x0E ∧ q.w.trapo.toNat % 16 = 0)
        then q.w.trappc + 4#64
        else if q.w.trappc = f.orig then (if f.trapPath then f.p1.pc else f.p0.pc) else q.w.trappc
       w.p0.pc = (if f.trapPath then f.p0.pc else back) ∧ w.p1.pc = if f.trapPath then back else f.p1.pc) ∧
      w.p0.mask = f.p0.mask ∧ w.p1.mask = f.p1.mask ∧ w.p0.stack = f.p0.stack ∧ w.p1.stack = f.p1.stack ∧
      w.p0.base = f.p0.base ∧ w.p1.base = f.p1.base ∧ w.p0.live = f.p0.live ∧ w.p1.live = f.p1.live ∧
      w.p0.resume = (if w.p0.pc = f.p0.pc then f.p0.resume else 0#32) ∧
      w.p1.resume = (if w.p1.pc = f.p1.pc then f.p1.resume else 0#32) ∧ w.p0.count = 0 ∧ w.p1.count = 0 ∧
      ∀ k, k ≠ q.wk → wkBlock k ≠ q.bk → t.hw.warp? k = s.hw.warp? k) ∧
  (∀ d a s q, Issues (.imask d a) s q → q.w.mode = .handler → (s.hw.part (s.hw.partOf q.fn)).heldTraps = [] →
    let val (_ : Nat) : List Word := [BitVec.ofNat 32 (s.hw.part (s.hw.partOf q.fn)).imask.toNat]
    ∃ t w, exec (.imask d a) s = .next t ∧ t.hw.warp? q.wk = some w ∧ (w.path q.x).pc = after q ∧ w.mode = .handler ∧
      Holds q w (Use.dst d) val ∧ QueuesPopped (.imask d a) q w ∧ t.mem = s.mem ∧
      t.hw.part (s.hw.partOf q.fn) = { s.hw.part (s.hw.partOf q.fn) with
        imask := BitVec.ofNat 2 (q.w.read (.src a) q.lane0).toNat } ∧ ∀ k, k ≠ q.wk → t.hw.warp? k = s.hw.warp? k) ∧
  (∀ d a s q k v tr, Issues (.imask d a) s q → q.w.mode = .handler →
    (q.w.read (.src a) q.lane0).getLsbD 0 = false → (s.hw.part (s.hw.partOf q.fn)).heldTraps = [k] → k ≠ q.wk →
    s.hw.warp? k = some v → v.held = some (tr, false) → v.mode = .user → s.hw.partOf (wkFn k) = s.hw.partOf q.fn →
    (s.hw.part (s.hw.partOf q.fn)).phvec ≠ 0#64 → tr.c.toNat % 256 ≠ 0x07 →
    ∃ t w, exec (.imask d a) s = .next t ∧ t.hw.warp? k = some w ∧ w.mode = .handler ∧ w.held = none ∧ w.trapc = tr.c ∧
      w.trappc = tr.pc ∧ w.trapa = tr.a ∧ w.trapo = tr.o ∧ w.p0.pc = (s.hw.part (s.hw.partOf q.fn)).phvec ∧
      (t.hw.part (s.hw.partOf q.fn)).heldTraps = [])

/-- O35. ENTER pushes its identifier on the region stack, dropping the bottom entry and counting the loss where it holds 16; LEAVE pops the top, or on an empty stack takes one from a nonzero loss count. With no stop asked for they answer a next state and go on; with one, a user-mode warp takes REGIONSTOP after the instruction has retired. TRACE emits one USER record of a and b of the lowest lane where TRCTL.EN and TREN allow and the core's buffer has room, and answers a next state and goes on in every case. -/
def Obligations.RegionsAndTrace : Prop :=
  (∀ h m l s q, Issues (.enter h m l) s q → s.hw.stopAsked q.wk = (false, false) →
    ∃ t w, exec (.enter h m l) s = .next t ∧ t.hw.warp? q.wk = some w ∧ stands (w.path q.x) = (after q, q.p.mask, q.p.stack, q.p.base) ∧
      w.region = BitVec.ofNat 16 (h.toNat * 2 ^ 14 + m.toNat * 2 ^ 7 + l.toNat) :: q.w.region.take 15 ∧
      w.lost = (if q.w.region.length < 16 then q.w.lost else min 255 (q.w.lost + 1)) ∧ RegsKept q w ∧ w.preds = q.w.preds ∧
      w.mode = q.w.mode ∧ t.mem = s.mem ∧ ∀ k, k ≠ q.wk → t.hw.warp? k = s.hw.warp? k) ∧
  (∀ s q, Issues .leave s q → s.hw.stopAsked q.wk = (false, false) →
    ∃ t w, exec .leave s = .next t ∧ t.hw.warp? q.wk = some w ∧ stands (w.path q.x) = (after q, q.p.mask, q.p.stack, q.p.base) ∧
      w.region = q.w.region.tail ∧ w.lost = (if q.w.region = [] then q.w.lost - 1 else q.w.lost) ∧ RegsKept q w ∧
      w.preds = q.w.preds ∧ w.mode = q.w.mode ∧ t.mem = s.mem ∧ ∀ k, k ≠ q.wk → t.hw.warp? k = s.hw.warp? k) ∧
  (∀ ins s q n, (ins = Instr.leave ∨ ∃ h m l, ins = .enter h m l) → Issues ins s q → CanEnter q s → s.hw.stopAsked q.wk = (true, n) →
    ∃ t w, exec ins s = .next t ∧ t.hw.warp? q.wk = some w ∧ w.mode = .handler ∧ w.trapc = 0x10#64 ∧
      w.trappc = after q ∧ (ins = .leave → w.region = q.w.region.tail) ∧ (n = true → (t.hw.fn q.fn).dbg.stopReq = false)) ∧
  (∀ i a b x y s q, Issues (.trace i a b x y) s q → ∃ t w, exec (.trace i a b x y) s = .next t ∧ t.hw.warp? q.wk = some w ∧
    stands (w.path q.x) = (after q, q.p.mask, q.p.stack, q.p.base) ∧ RegsKept q w ∧ w.preds = q.w.preds ∧ t.mem = s.mem ∧
    (∀ k, k ≠ q.wk → t.hw.warp? k = s.hw.warp? k) ∧
    (s.hw.trace.ctl.getLsbD 0 = false ∨ (s.hw.fn q.fn).dbg.tren.getLsbD 3 = false → t.hw.trace = s.hw.trace) ∧
    (s.hw.trace.ctl.getLsbD 0 = true → (s.hw.fn q.fn).dbg.tren.getLsbD 3 = true → (s.hw.core q.core).trace.recs.length < 16 →
      (t.hw.core q.core).trace.recs = (s.hw.core q.core).trace.recs ++
        [⟨0x05, q.core, ctxOf q.fn, localTick ⟨s.clk, s.mem⟩ q.core, BitVec.ofNat 128 ((partyOf q.slot q.widx q.b.gen).toNat +
          2 ^ 32 * (q.p.pc.toNat % 2 ^ 32) + 2 ^ 64 * (q.ra a x i q.lane0).toNat + 2 ^ 96 * (q.rb b y q.lane0).toNat)⟩]))

/-- O36. Each engine instruction (MMA, MMA.P, MMA.Z, MMA.PZ, DRAIN, MZERO, MLOAD, COPY, COPYO, COPY.AT, GATHER, SEND, SEND.AT, RRED, RBCAST) that issues with an empty staging buffer, room in its hardware queue and for its token, answers a next state in which it has pushed one command: its words are those of Tables 16.2 to 16.5 from the named uniform registers, SCOPE, TOK and TAG from EHDR, and it stands last in the queue, not started, with the warp's RMODE, NBV and CHINT. The matrix forms change no register; the others deliver the new sequence number. The core's own L1 bytes may be written back; other warps, memory and scratchpad stay otherwise. -/
def Obligations.EngineCommands : Prop :=
  (∀ d a b s q, unitFits (groupAt q d 0) (groupAt q d 1) false → ∀ i opc,
    ((i = Instr.mma d a b ∧ opc = 1) ∨ (i = .mmaP d a b ∧ opc = 2) ∨ (i = .mmaZ d a b ∧ opc = 3) ∨ (i = .mmaPz d a b ∧ opc = 4)) →
    MatrixPush i s q [commandHeader q.w.ehdr 4 opc false false, unitWord (groupAt q d 0) (groupAt q d 1) false, groupAt q a 0, groupAt q b 0]) ∧
  (∀ d a s q, unitFits (groupAt q d 0) (groupAt q d 1) true → MatrixPush (.drain d a) s q
    [commandHeader q.w.ehdr 3 5 false false, unitWord (groupAt q d 0) (groupAt q d 1) true, groupAt q a 0]) ∧
  (∀ d s q, unitFits (groupAt q d 0) (groupAt q d 1) true → MatrixPush (.mzero d) s q
    [commandHeader q.w.ehdr 2 6 false false, unitWord (groupAt q d 0) (groupAt q d 1) true]) ∧
  (∀ d a s q, unitFits (groupAt q d 0) (groupAt q d 1) false → MatrixPush (.mload d a) s q
    [commandHeader q.w.ehdr 3 7 false false, unitWord (groupAt q d 0) (groupAt q d 1) false, groupAt q a 0]) ∧
  (∀ d a b s q, SequencedPush (.copy d a b) d .copy s q (copyCommand q 12 0x10 false a b) ∧
    SequencedPush (.copyo d a b) d .copy s q (copyCommand q 12 0x11 false a b) ∧
    SequencedPush (.copyAt d a b) d .copy s q (copyCommand q 14 0x10 true a b) ∧
    SequencedPush (.gather d a b) d .ring s q (copyCommand q 12 0x20 false a b)) ∧
  (∀ d a s q, SequencedPush (.send d a) d .ring s q (ringCommand q 7 0x21 false a) ∧
    SequencedPush (.sendAt d a) d .ring s q (ringCommand q 9 0x21 true a) ∧
    SequencedPush (.rred d a) d .ring s q (ringCommand q 7 0x22 false a) ∧
    SequencedPush (.rbcast d a) d .ring s q (ringCommand q 7 0x23 false a))

/-- O37. Each of these that issues answers a next state. MWAITA goes on once the warp has no matrix command left and holds no matrix failure, and waits before. TASK adds its entry behind those of the core's table. TREADY sets or clears the ready bits of its units. RESID raises the unsealed unit's residual to the greatest magnitude of the active lanes' operands, a NaN staying; GCHK seals the unit, its verdict being whether the residual is at most GTOL, and sets its predicate to it. Registers, memory and other warps stay. -/
def Obligations.TasksAndUnits : Prop :=
  (∀ s q, Issues .mwaita s q → Room s q 2 → q.w.mseq = 0 → q.w.q0.failure = none →
    ∃ t w, exec .mwaita s = .next t ∧ Beside .mwaita q s t w ∧ RegsKept q w ∧ w.preds = q.w.preds ∧ t.mem = s.mem) ∧
  (∀ s q, Issues .mwaita s q → q.w.mseq ≠ 0 → ∃ t r, exec .mwaita s = .next t ∧ (r = 10 ∨ r = 14) ∧ Waits q t r ∧ t.mem = s.mem) ∧
  (∀ a b s q, Issues (.task a b) s q →
    let v := groupAt q a 0
    let kind := v.toNat % 4
    let ins := (List.range (v.toNat / 4 % 8)).map fun j => (groupAt q a 1).toNat / 256 ^ j % 256
    let n := if kind = 3 then 1 else (groupAt q b 0).toNat % 32
    v.toNat < 32 → v.toNat / 4 % 8 ≤ 4 → (∀ k, depEngine kind = some k → hdrBad k (groupAt q b 0) = false ∧ (q.w.queue k).staging = []) →
    q.w.inBounds (Use.group b n) = true → (kind = 3 → (groupAt q b 0).toNat % 2 ^ 11 < q.b.shape.bars) →
    (∀ u ∈ ins, 4096 * (u + 1) ≤ q.b.spBytes) → (s.hw.fcore q.fn q.core).deps.length < 64 →
    s.hw.roomTaken q.wk 13 (roomKey q.core none) = false →
    ∃ t w, exec (.task a b) s = .next t ∧ Beside (.task a b) q s t w ∧ RegsKept q w ∧ w.preds = q.w.preds ∧ t.mem = s.mem ∧
      ∃ d, (t.hw.fcore q.fn q.core).deps = (s.hw.fcore q.fn q.core).deps ++ [d] ∧ d.kind = kind ∧ d.wk = q.wk ∧ d.ins = ins ∧
        d.cmd = (List.range n).map (groupAt q b) ∧ d.rmode.toNat = q.w.rmode.toNat % 16 ∧ d.nbv.toNat = q.w.nbv.toNat % 4 ∧
        d.age = (s.hw.fcore q.fn q.core).age ∧ (t.hw.fcore q.fn q.core).age = (s.hw.fcore q.fn q.core).age + 1) ∧
  (∀ a s q, Issues (.tready a) s q → Room s q 2 → s.hw.elemsOf q.wk = false →
    let first := (groupAt q a 0).toNat % 256
    let n := (groupAt q a 0).toNat / 256 % 256 + 1
    4096 * (first + n) ≤ q.b.spBytes →
    ∃ t w c, exec (.tready a) s = .next t ∧ Beside (.tready a) q s t w ∧ RegsKept q w ∧ w.preds = q.w.preds ∧ t.mem = s.mem ∧
      t.hw.block? q.bk = some c ∧ c.c = q.b.c + 1 ∧ ∀ u, Tab.has c.ready u =
        if first ≤ u ∧ u < first + n then (groupAt q a 0).getLsbD 31 else Tab.has q.b.ready u) ∧
  (∀ i a x s q u g, Issues (.resid i a x) s q → s.hw.unitOf q.b = some u → Tab.find? s.hw.units u = some g → g.sealed = false →
    q.w.nbv ≠ 1#32 → g.res.toNat ≤ 0x7F800000 →
    ∃ t w g', exec (.resid i a x) s = .next t ∧ Beside (.resid i a x) q s t w ∧ RegsKept q w ∧ w.preds = q.w.preds ∧ t.mem = s.mem ∧
      Tab.find? t.hw.units u = some g' ∧ g' = { g with res := g'.res } ∧
      ((∃ n ∈ q.lanes, 0x7F800000 < (q.ra a x i n).toNat % 2 ^ 31) → g'.res = 0x7FC00000#32) ∧
      ((∀ n ∈ q.lanes, (q.ra a x i n).toNat % 2 ^ 31 ≤ 0x7F800000) → g.res.toNat ≤ g'.res.toNat ∧
        (∀ n ∈ q.lanes, (q.ra a x i n).toNat % 2 ^ 31 ≤ g'.res.toNat) ∧
        (g'.res = g.res ∨ ∃ n ∈ q.lanes, g'.res.toNat = (q.ra a x i n).toNat % 2 ^ 31))) ∧
  (∀ p s q u g, Issues (.gchk p) s q → s.hw.unitOf q.b = some u → Tab.find? s.hw.units u = some g →
    ∃ t w g', exec (.gchk p) s = .next t ∧ Beside (.gchk p) q s t w ∧ RegsKept q w ∧ t.mem = s.mem ∧ Tab.find? t.hw.units u = some g' ∧
      g' = { g with sealed := true, verdict := g'.verdict } ∧
      g'.verdict = (if g.sealed then g.verdict else decide (g.res.toNat ≤ 0x7F800000 ∧ g.res.toNat ≤ g.gtol.toNat % 2 ^ 31)) ∧
      ∀ m l, l < 1024 → (w.getP m).getLsbD l = if m = p.toNat ∧ m ≠ 0 ∧ l ∈ q.lanes then g'.verdict else (q.w.getP m).getLsbD l)

/-- O38. Each of these that issues answers a next state. TAGRD delivers each active lane the tag of the tile of its address. TAGWR with legal tags, in user mode of STATE 0 or 1 and onto tiles of STATE 0 or 1, gives each addressed tile the tag of its highest lane and leaves every other tag. TAGCHK whose lanes all match under their masks changes nothing; a lane that does not takes TAGMISMATCH with its 4 KiB base in TRAPA. Registers but TAGRD's destination, memory and other warps stay. -/
def Obligations.TileTags : Prop :=
  (∀ d a x s q loc, Issues (.tagrd d a x) s q → TilesAt s q false ((Use.srcC a x false).wide 2) loc →
    let val (n : Nat) : List Word := [(tagAt s q.fn (loc n)).setWidth 32]
    ∃ t w, exec (.tagrd d a x) s = .next t ∧ Beside (.tagrd d a x) q s t w ∧ w.preds = q.w.preds ∧
      t.mem = s.mem ∧ t.hw.tags = s.hw.tags ∧ Holds q w (Use.dst d) val) ∧
  (∀ a b x y s q loc, Issues (.tagwr a b x y) s q → TilesAt s q true ((Use.srcC a x false).wide 2) loc →
    (∀ n ∈ q.lanes, tagOk ((q.rb b y n).extractLsb' 0 16) = true) →
    (q.w.mode = .user → ∀ n ∈ q.lanes, ((q.rb b y n).getLsbD 13) = false ∧ (tagAt s q.fn (loc n)).getLsbD 13 = false) →
    ∃ t w, exec (.tagwr a b x y) s = .next t ∧ Beside (.tagwr a b x y) q s t w ∧ RegsKept q w ∧ w.preds = q.w.preds ∧
      t.mem = s.mem ∧ ∀ l, (∀ o, l ≠ .alias_ o) → (∀ pa, l = .mem pa → paKind pa = .hbm) → tagAt t q.fn l =
        match lastLane q fun n => sameTile (loc n) l with
        | some n => (q.rb b y n).extractLsb' 0 16
        | none => tagAt s q.fn l) ∧
  (∀ a b x y s q loc, Issues (.tagchk a b x y) s q → TilesAt s q false ((Use.srcC a x false).wide 2) loc →
    (∀ n ∈ q.lanes, (tagAt s q.fn (loc n) ^^^ (q.rb b y n).extractLsb' 0 16) &&& (q.rb b y n).extractLsb' 16 16 = 0#16) →
    ∃ t w, exec (.tagchk a b x y) s = .next t ∧ Beside (.tagchk a b x y) q s t w ∧ RegsKept q w ∧ w.preds = q.w.preds ∧
      t.mem = s.mem ∧ t.hw.tags = s.hw.tags) ∧
  (∀ a b x y s q loc n, Issues (.tagchk a b x y) s q → CanEnter q s → TilesAt s q false ((Use.srcC a x false).wide 2) loc →
    q.lanes.find? (fun n => (tagAt s q.fn (loc n) ^^^ (q.rb b y n).extractLsb' 0 16) &&& (q.rb b y n).extractLsb' 16 16 != 0#16) = some n →
    ∃ t w, exec (.tagchk a b x y) s = .next t ∧ Enters q s t w 0x0D#64
      (q.w.read64 ((Use.srcC a x false).wide 2) n &&& 0xFFFFFFFFFFFFF000#64) (pathNumber q))

/-- O39. Each of these that issues, and whose aligned record nothing keeps from being read, answers a next state. MDISP whose lookup finds an entry launches what it found and delivers the task word: the entry's index and the number of conversions; the function's launch count rises by one and the launched grids stand at the end of the list. SETMT delivers its code; with code 0 on an entry its image, or zeros where the image is not valid, is in the table in memory, and with another code the table is as it was. Other bytes change only as the core writes its own back; registers stay, and other warps but for their monitors. -/
def Obligations.DispatchTables : Prop :=
  (∀ d a x s q pa leaf i m ops ss, Issues (.mdisp d a x) s q →
    let va := q.w.read64 ((Use.srcC a x false).wide 2) q.lane0
    Iss.locate s.hw ⟨s.clk, s.mem⟩ q ⟨false, false⟩ va 64 = .ok (.mem pa, leaf) → Iss.recordStop s.hw q ⟨q.lane0, va, 64, .mem pa, leaf⟩ = none →
    let r := Iss.readHome s.hw ⟨s.clk, s.mem⟩ q false ⟨q.lane0, va, 64, .mem pa, leaf⟩
    r.1.lookup ⟨s.clk, s.mem⟩ q.fn false (taskRecBad r.2) (bytesNat r.2 0 2 % 4096)
      ((List.range (bytesNat r.2 0 2 / 4096 % 8)).map fun i => BitVec.ofNat 64 (bytesNat r.2 (8 + 8 * i) 8)) = .entry i m ops ss →
    let val (_ : Nat) : List Word := [BitVec.ofNat 32 (i + 4096 * (ss.filter (·.isSome)).length)]
    ∃ t w, exec (.mdisp d a x) s = .next t ∧ t.hw.warp? q.wk = some w ∧ stands (w.path q.x) = (after q, q.p.mask, q.p.stack, q.p.base) ∧
      w.preds = q.w.preds ∧ (∀ k, k ≠ q.wk → t.hw.warp? k = s.hw.warp? k) ∧ (∀ x, FromOwn s q x (t.byte x)) ∧
      QueuesPopped (.mdisp d a x) q w ∧ Holds q w (Use.dst d) val ∧
      (t.hw.fn q.fn).gridCount = (s.hw.fn q.fn).gridCount + 1 ∧
      ∃ l, t.hw.grids = s.hw.grids ++ l ∧ l.length = (ss.filter (·.isSome)).length + 1 ∧ ∀ g ∈ l, g.2.fn = q.fn ∧
        g.2.gridid = BitVec.ofNat 64 ((s.hw.fn q.fn).gridCount % 2 ^ 48 + 2 ^ 63)) ∧
  (∀ d a s q pa leaf, Issues (.setmt d a) s q → q.w.mode = .handler →
    let va := groupAt q a 1 ++ groupAt q a 0
    let conv := (groupAt q a 2).getLsbD 31
    let n := if conv then 16 else 64
    let idx := (groupAt q a 2).toNat % 4096
    let p := s.hw.part (s.hw.partOf q.fn)
    let base := (if conv then p.pcvbase else p.pmtbase).toNat + n * idx
    Iss.locate s.hw ⟨s.clk, s.mem⟩ q ⟨false, false⟩ va n = .ok (.mem pa, leaf) → Iss.recordStop s.hw q ⟨q.lane0, va, n, .mem pa, leaf⟩ = none →
    let bs := (List.range n).map (flagByte s q ⟨q.lane0, va, n, .mem pa, leaf⟩)
    let valid := (bs.getD (if conv then 7 else 1) 0#8).getLsbD 7
    let code := if (if conv then min p.pcvcnt 256 else min p.pmtcnt 4096) ≤ idx then 1
      else if !valid then 0 else if conv then convCode bs else methodCode bs
    ∃ t w, exec (.setmt d a) s = .next t ∧ t.hw.warp? q.wk = some w ∧ stands (w.path q.x) = (after q, q.p.mask, q.p.stack, q.p.base) ∧
      w.preds = q.w.preds ∧ QueuesPopped (.setmt d a) q w ∧
      Holds q w (Use.dst d) (fun _ => [BitVec.ofNat 32 code]) ∧
      (∀ k, k ≠ q.wk → (t.hw.warp? k).map calmWarp = (s.hw.warp? k).map calmWarp) ∧
      ∀ x, if code = 0 ∧ p.ownsAddr base = true ∧ base ≤ x ∧ x < base + n then
          t.byte x = if valid then bs.getD (x - base) 0#8 else 0#8
        else FromOwn s q x (t.byte x))

/-- O40. Each of these that issues answers a next state. SRD delivers the register of Table 16.7 that it names, a 64-bit one in the pair: the local TICK, the warp's own RMODE, NBV, XI, CHINT, EHDR, trap and debug registers, the interval, the party, the partition's PHVEC, the block's place. SWR in a mode that may write the register replaces its defined bits and nothing else; INTV starts the rebase of its slot. WIN in range sets both bases. Memory, general registers and other warps stay. -/
def Obligations.SystemRegisters : Prop :=
  (∀ d n s q v, Issues (.srd d n) s q →
    (n.toNat, v) ∈ [(0x00, BitVec.ofNat 64 (localTick ⟨s.clk, s.mem⟩ q.core)), (0x01, q.w.rmode.setWidth 64), (0x02, q.w.nbv.setWidth 64),
      (0x04, BitVec.ofNat 64 (q.b.c % 2 ^ 24)), (0x05, BitVec.ofNat 64 (q.slot + 2 ^ 12 * q.widx + 2 ^ 17 * (q.b.gen % 8))),
      (0x07, BitVec.ofNat 64 (q.b.lin % max 1 q.b.shape.gx + 2 ^ 16 * (q.b.lin / max 1 q.b.shape.gx % max 1 q.b.shape.gy) +
        2 ^ 32 * (q.b.lin / (max 1 q.b.shape.gx * max 1 q.b.shape.gy)))),
      (0x08, BitVec.ofNat 64 (q.b.lin / max 1 q.b.shape.bpc % 2 ^ 48 + 2 ^ 48 * (q.b.lin % max 1 q.b.shape.bpc))),
      (0x0A, BitVec.ofNat 64 (q.b.shape.gx + 2 ^ 16 * q.b.shape.gy + 2 ^ 32 * q.b.shape.gz + 2 ^ 48 * q.b.shape.bpc)),
      (0x0C, q.w.xi.setWidth 64), (0x0D, BitVec.ofNat 64 (q.core % 8 * 2 ^ 20 + q.b.spBase)), (0x0E, q.w.chint.setWidth 64),
      (0x10, q.w.ehdr.setWidth 64), (0x20, q.w.trapc), (0x21, q.w.trappc), (0x22, q.w.trapa), (0x23, q.w.trapo), (0x24, q.w.raceopc),
      (0x25, (s.hw.part (s.hw.partOf q.fn)).phvec), (0x30, q.w.bpctl.setWidth 64), (0x35, q.w.wpctl.setWidth 64)] ++
      (List.range 4).map (fun j => (0x31 + j, Tab.getD q.w.bpaddr j 0#64)) ++
      (List.range 4).map (fun j => (0x36 + j, Tab.getD q.w.wpaddr j 0#64)) →
    let val (_ : Nat) : List Word := (halves v).take (sysRegs n)
    ∃ t w, exec (.srd d n) s = .next t ∧ Framed (.srd d n) q s t w ∧ GoesTo q w (after q) ∧ w.preds = q.w.preds ∧ w.empty = q.w.empty ∧
      QueuesPopped (.srd d n) q w ∧ Holds q w ((Use.dst d).wide (sysRegs n)) val) ∧
  (∀ n b y s q x v f, Issues (.swr n b y) s q →
    x = q.rb b y q.lane0 → v = q.w.read64 ((Use.srcC b y false).wide 2) q.lane0 →
    ((n = 0x01#7 ∧ x.toNat % 8 < 5 ∧ f = fun w => { w with rmode := BitVec.ofNat 32 (x.toNat % 16) }) ∨
     (n = 0x02#7 ∧ x.toNat % 4 ≠ 0 ∧ f = fun w => { w with nbv := BitVec.ofNat 32 (x.toNat % 4) }) ∨
     (n = 0x0C#7 ∧ f = fun (w : Warp) => { w with xi := BitVec.ofNat 8 x.toNat }) ∨
     (n = 0x0E#7 ∧ f = fun w => { w with chint := BitVec.ofNat 32 (x.toNat % 16) }) ∨
     (n = 0x10#7 ∧ x.toNat / 2 ^ 9 % 8 < 5 ∧ f = fun w => { w with ehdr := BitVec.ofNat 32 (x.toNat % 2 ^ 12) }) ∨
     (n = 0x20#7 ∧ f = fun w => { w with trapc := v }) ∨ (n = 0x21#7 ∧ f = fun w => { w with trappc := v }) ∨
     (n = 0x22#7 ∧ f = fun w => { w with trapa := v }) ∨ (n = 0x23#7 ∧ f = fun w => { w with trapo := v }) ∨
     (n = 0x24#7 ∧ f = fun w => { w with raceopc := v }) ∨ (n = 0x30#7 ∧ f = fun w => { w with bpctl := BitVec.ofNat 32 (x.toNat % 16) }) ∨
     (n = 0x35#7 ∧ f = fun w => { w with wpctl := x }) ∨
     (∃ j, j < 4 ∧ n = 0x31#7 + BitVec.ofNat 7 j ∧ f = fun w => { w with bpaddr := Tab.store 0#64 w.bpaddr j (BitVec.ofNat 64 (v.toNat / 4 * 4)) }) ∨
     (∃ j, j < 4 ∧ n = 0x36#7 + BitVec.ofNat 7 j ∧ f = fun w => { w with wpaddr := Tab.store 0#64 w.wpaddr j v })) →
    ∃ t w, exec (.swr n b y) s = .next t ∧ Serves (.swr n b y) q s t w ∧ Alone q s t ∧ t.hw.parts = s.hw.parts ∧
      w = { f q.w with p0 := w.p0, p1 := w.p1, q0 := w.q0, q2 := w.q2, q4 := w.q4 }) ∧
  (∀ b y s q, Issues (.swr 0x25#7 b y) s q → q.w.mode = .handler → ∃ t w, exec (.swr 0x25#7 b y) s = .next t ∧
    Serves (.swr 0x25#7 b y) q s t w ∧ Alone q s t ∧ t.hw.part (s.hw.partOf q.fn) = { s.hw.part (s.hw.partOf q.fn) with
      phvec := BitVec.ofNat 64 ((q.w.read64 ((Use.srcC b y false).wide 2) q.lane0).toNat / 4 * 4) }) ∧
  (∀ b y s q, Issues (.swr 0x04#7 b y) s q → q.w.mode = .handler → q.rb b y q.lane0 = 0#32 → ∃ t w, exec (.swr 0x04#7 b y) s = .next t ∧
    Serves (.swr 0x04#7 b y) q s t w ∧ Alone q s t ∧ (t.hw.block? q.bk).map (·.rebasing) = some true ∧
    t.hw.agenda = s.hw.agenda ++ [.event .rebaseComplete { Occasion.none with unit := q.fn, id := q.slot }]) ∧
  (∀ w u s q, Issues (.win w u) s q → 8 * w.toNat < q.w.vallot → 24 * u.toNat < 24 * q.w.uwin →
    ∃ t v, exec (.win w u) s = .next t ∧ Serves (.win w u) q s t v ∧ Alone q s t ∧ v = { q.w with
      wbase := 8 * w.toNat, ubase := 24 * u.toNat, p0 := v.p0, p1 := v.p1 })

/-- O41. Each of these that issues answers a next state. RDCTR delivers the counter named by a[1:0]: its 48 bits, OVF, SEIZED and LOST above. CTRCTL on a counter that is not claimed, with b[31:29] zero, clears its value and OVF and selects b; on a claimed one it changes nothing. TICK delivers the core's local copy of TICK. YIELD keeps its path from issuing until 64 cycles have passed, and YIELD_END releases the paths of a warp for which they have. Memory and other warps stay. -/
def Obligations.CountersAndTime : Prop :=
  (∀ i d a x s q c, Issues (.rdctr i d a x) s q → c = Tab.getD (s.hw.fn q.fn).ctrs ((q.ra a x i q.lane0).toNat % 4) Ctr.reset →
    let val (_ : Nat) : List Word := wordPair ((if c.lost then 2 ^ 48 - 1
      else if q.fn ≠ 0 ∧ c.sel.toNat % 16 = 3 then 0 else c.val) + c.ovf.toNat * 2 ^ 48 + c.hold.toNat * 2 ^ 49 + c.lost.toNat * 2 ^ 50)
    ∃ t w, exec (.rdctr i d a x) s = .next t ∧ Framed (.rdctr i d a x) q s t w ∧ GoesTo q w (after q) ∧ w.preds = q.w.preds ∧
      w.empty = q.w.empty ∧ QueuesPopped (.rdctr i d a x) q w ∧ Holds q w ((Use.dst d).wide 2) val) ∧
  (∀ i a b x y s q c, Issues (.ctrctl i a b x y) s q → c = Tab.getD (s.hw.fn q.fn).ctrs ((q.ra a x i q.lane0).toNat % 4) Ctr.reset →
    (q.rb b y q.lane0).toNat < 2 ^ 29 → ∃ t w, exec (.ctrctl i a b x y) s = .next t ∧ Serves (.ctrctl i a b x y) q s t w ∧ Alone q s t ∧
      (c.hold = false → q.w.poppedRels (.ctrctl i a b x y) = [] →
        selCounts (q.rb b y q.lane0) 0 q.core 2 0 = false →
        Tab.getD (t.hw.fn q.fn).ctrs ((q.ra a x i q.lane0).toNat % 4) Ctr.reset = { c with
          sel := q.rb b y q.lane0, lost := !s.hw.selAvailable q.fn (q.rb b y q.lane0), val := 0, ovf := false }) ∧
      (c.hold = true → let c' := Tab.getD (t.hw.fn q.fn).ctrs ((q.ra a x i q.lane0).toNat % 4) Ctr.reset
        c'.sel = c.sel ∧ c'.val = c.val ∧ c'.ovf = c.ovf ∧ c'.hold = true)) ∧
  (∀ d s q, Issues (.tick d) s q →
    let val (_ : Nat) : List Word := wordPair (localTick ⟨s.clk, s.mem⟩ q.core)
    ∃ t w, exec (.tick d) s = .next t ∧ Framed (.tick d) q s t w ∧ GoesTo q w (after q) ∧ w.preds = q.w.preds ∧ w.empty = q.w.empty ∧
      QueuesPopped (.tick d) q w ∧ Holds q w ((Use.dst d).wide 2) val) ∧
  (∀ s q, Issues .yield s q → ∃ t w, exec .yield s = .next t ∧ Framed .yield q s t w ∧ GoesTo q w (after q) ∧ RegsKept q w ∧
    w.preds = q.w.preds ∧ (w.path q.x).yieldTo = some (s.clk.cycle + 64) ∧
    (q.p.atJoin = false → q.p.hold = none → (w.path q.x).stall = 31)) ∧
  (∀ s v, s.Inv → s.hw.warp? s.hw.occ.id = some v → v.frame = none →
    let one (p : Path) : Path := if (p.yieldTo.any fun t => decide (t ≤ s.clk.cycle)) then { p with yieldTo := none, stall := 0 } else p
    ∃ t, exec .yieldEnd s = .next t ∧ t.hw.warp? s.hw.occ.id = some { v with p0 := one v.p0, p1 := one v.p1 } ∧ t.mem = s.mem ∧
      t.clk = s.clk ∧ t.hw = { s.hw with warps := t.hw.warps, tried := [] } ∧ ∀ k, k ≠ s.hw.occ.id → t.hw.warp? k = s.hw.warp? k)

/-- O42. Each of these that issues answers a next state. TLBIR and TLBIA for a context of the partition leave no translation of the range, or of the context, in the core's cache nor its die's, and keep every other entry. SHOOT of an empty range does nothing; of a nonempty one it joins the shootdowns under way and its path waits with reason 31; SHOOT_COMPLETE, once no access that used an entry of the range is to be performed, answers a next state that holds no translation of the oldest one's range in any core or die, has ended it, and in which its SHOOT has retired: the path stands at the next instruction. Memory and registers stay, and other warps but for their monitors. -/
def Obligations.TranslationInvalidation : Prop :=
  (∀ i s q ctx hit, Issues i s q → q.w.mode = .handler → (s.hw.contexts (s.hw.partOf q.fn)).contains ctx = true →
    ((∃ a base len, i = Instr.tlbir a ∧ base = (groupAt q a 1 ++ groupAt q a 0).toNat % 2 ^ 57 ∧
        len = (groupAt q a 3 ++ groupAt q a 2).toNat ∧ ctx = (groupAt q a 4).toNat % 1024 ∧
        hit = fun (t : Tlb) => t.ctx == ctx && (len == 2 ^ 64 - 1 || (len != 0 && decide (t.base < base + len ∧ base < t.base + 2 ^ t.lg)))) ∨
     (∃ a, i = .tlbia a ∧ ctx = (q.w.read (.src a) q.lane0).toNat % 1024 ∧ hit = fun t => t.ctx == ctx)) →
    ∃ t w, exec i s = .next t ∧ Serves i q s t w ∧ Alone q s t ∧
      (t.hw.core q.core).tlb = (s.hw.core q.core).tlb.filter (fun x => !hit x) ∧
      (∀ d, Tab.getD t.hw.dieTlb d [] = if d = q.core / 40 then (Tab.getD s.hw.dieTlb d []).filter (fun x => !hit x)
        else Tab.getD s.hw.dieTlb d []) ∧ ∀ c, c ≠ q.core → t.hw.core c = s.hw.core c) ∧
  (∀ a s q, Issues (.shoot a) s q → q.w.mode = .handler →
    let ctx := (groupAt q a 4).toNat % 1024
    let len := (groupAt q a 3 ++ groupAt q a 2).toNat
    (s.hw.contexts (s.hw.partOf q.fn)).contains ctx = true →
    ∃ t, exec (.shoot a) s = .next t ∧ Alone q s t ∧
      (len = 0 → t.hw.parts = s.hw.parts ∧ ∃ w, Serves (.shoot a) q s t w) ∧
      (len ≠ 0 → Waits q t 31 ∧ ((t.hw.warp? q.wk).bind fun w => (w.path q.x).hold) = some (2 ^ 60 + 2 * q.wk + q.x.toNat) ∧
        (∃ o, Planned t .shootComplete o ∧ o.unit = s.hw.partOf q.fn) ∧
        (t.hw.part (s.hw.partOf q.fn)).shooting = (s.hw.part (s.hw.partOf q.fn)).shooting ++
          [(ctx, (groupAt q a 1 ++ groupAt q a 0).toNat % 2 ^ 57, len, q.wk, q.x)])) ∧
  (∀ s ctx base len wk x l v, s.Inv → s.hw.occ.flag = false → (s.hw.part s.hw.occ.unit).shooting = (ctx, base, len, wk, x) :: l →
    s.hw.undrained ctx base len = false → s.hw.warp? wk = some v → (v.path x).hold = some (2 ^ 60 + 2 * wk + x.toNat) →
    let hit (t : Tlb) : Bool := t.ctx == ctx && (len == 2 ^ 64 - 1 || (len != 0 && decide (t.base < base + len ∧ base < t.base + 2 ^ t.lg)))
    ∃ t w, exec .shootComplete s = .next t ∧ (∀ c, ∀ y ∈ (t.hw.core c).tlb, hit y = false) ∧
      (∀ d, ∀ y ∈ Tab.getD t.hw.dieTlb d [], hit y = false) ∧ (∀ f, ∀ y ∈ (t.hw.fn f).wake.spill, hit y.2 = false) ∧
      (t.hw.part s.hw.occ.unit).shooting = l ∧ t.hw.warp? wk = some w ∧ (w.path x).hold = none ∧ (w.path x).pc = (v.path x).pc + 4#64 ∧
      (∀ k, k ≠ wk → (t.hw.warp? k).map calmWarp = (s.hw.warp? k).map calmWarp) ∧ w.vregs = v.vregs ∧ w.uregs = v.uregs ∧ w.preds = v.preds ∧ t.mem = s.mem ∧ t.clk = s.clk)

/-- O43. Each of these that issues answers a next state. L1WB for a context of the partition, or for all of them, where no engine owns a line it writes back, puts every dirty byte that the core's L1 holds under it into memory and leaves no byte of it dirty; L1INV leaves under it, and under context 0, no valid byte that is not dirty, and loses no dirty byte. L2CLN of a range that the partition owns leaves no line of the range in its slices dirty and keeps every line. No other byte of memory, no register and no other warp changes. -/
def Obligations.CacheSubOperations : Prop :=
  (∀ a s q l, Issues (.l1wb a) s q → q.w.mode = .handler → q.ctxArg s.hw a = some l → ((s.hw.core q.core).l1.map (·.1)).Nodup →
    (∀ c ∈ l, ∀ d ∈ l, c ≠ d → ∀ n, n < 2 ^ 45 → (s.hw.l1 q.core c n).dirty &&& (s.hw.l1 q.core d n).dirty = 0#128) → s.hw.owners = [] →
    ∃ t w, exec (.l1wb a) s = .next t ∧ Serves (.l1wb a) q s t w ∧ (∀ k, k ≠ q.wk → t.hw.warp? k = s.hw.warp? k) ∧
      (∀ c ∈ l, ∀ n k, n < 2 ^ 45 → k < 128 → (s.hw.l1 q.core c n).dirty.getLsbD k = true →
        t.byte (128 * n + k) = Tab.getD (s.hw.l1 q.core c n).bytes k 0#8 ∧ (t.hw.l1 q.core c n).dirty.getLsbD k = false) ∧
      ∀ x, t.byte x = s.byte x ∨ ∃ c ∈ l, (s.hw.l1 q.core c (lineOf x)).dirty.getLsbD (x % 128) = true) ∧
  (∀ a s q l, Issues (.l1inv a) s q → q.w.mode = .handler → q.ctxArg s.hw a = some l → ((s.hw.core q.core).l1.map (·.1)).Nodup →
    ∃ t w, exec (.l1inv a) s = .next t ∧ Serves (.l1inv a) q s t w ∧ Alone q s t ∧ ∀ c n k, n < 2 ^ 45 → k < 128 →
      (t.hw.l1 q.core c n).dirty = (s.hw.l1 q.core c n).dirty ∧
      ((s.hw.l1 q.core c n).dirty.getLsbD k = true → Tab.getD (t.hw.l1 q.core c n).bytes k 0#8 = Tab.getD (s.hw.l1 q.core c n).bytes k 0#8) ∧
      ((c ∈ l ∨ (c = 0 ∧ l ≠ [])) → (s.hw.l1 q.core c n).dirty.getLsbD k = false → (t.hw.l1 q.core c n).valid.getLsbD k = false)) ∧
  (∀ a s q, Issues (.l2cln a) s q → q.w.mode = .handler →
    let base := (groupAt q a 1 ++ groupAt q a 0).toNat
    let len := (groupAt q a 3 ++ groupAt q a 2).toNat
    (len = 0 ∨ len = 2 ^ 64 - 1 ∨ (s.hw.part (s.hw.partOf q.fn)).ownsRange base len = true) →
    ∃ t w, exec (.l2cln a) s = .next t ∧ Serves (.l2cln a) q s t w ∧ Alone q s t ∧
      t.hw.l2.map (fun x => (x.line, x.ctx, x.fill, x.cls)) = s.hw.l2.map (fun x => (x.line, x.ctx, x.fill, x.cls)) ∧
      (len ≠ 0 → ∀ x ∈ t.hw.l2, (s.hw.part (s.hw.partOf q.fn)).owns.slices.getLsbD x.slice = true →
        (len = 2 ^ 64 - 1 ∨ (128 * x.line < base + len ∧ base < 128 * x.line + 128)) → x.dirty = false))

/-- O44. Each of these that issues answers a next state. HALTB on a slot whose generation matches halts, resumes or kills the block, or ends one warp, and delivers status 0, else 1, 2 or 3. CTXSV writes the warp's image to its buffer and CTXLD loads one that lies in no poisoned line and whose WSHAPE is the warp's own: registers, predicates and the frame's addresses stand at their places of Table 11.9. DUMPW waits with reason 31 while started commands of its block are outstanding, its other warps halted; with none, and nothing it must wait for, it writes the dump, complete (STATE 1), and the block rests. RACEW gives the path that trapped a waiver for the address in TRAPPC. -/
def Obligations.HaltsDumpsAndImages : Prop :=
  (∀ d a s q f bk b op, Issues (.haltb d a) s q → q.w.mode = .handler → q.haltFn s.hw = some f →
    bk = bkOf f ((groupAt q a 0).toNat % 4096) → s.hw.block? bk = some b → (groupAt q a 0).toNat % 4096 < 2560 →
    (s.hw.part (s.hw.partOf q.fn)).owns.rings.getLsbD ((groupAt q a 0).toNat % 4096 / 128) = true →
    b.gen = (groupAt q a 0).toNat / 2 ^ 12 % 8 → op = (groupAt q a 1).toNat % 4 →
    let st := if (op = 0 ∧ b.halted = true) ∨ (op = 1 ∧ b.halted = false) then 3
      else if op = 3 ∧ b.nWarps ≤ (groupAt q a 0).toNat / 2 ^ 15 % 32 then 1 else 0
    ∃ t, exec (.haltb d a) s = .next t ∧ t.mem = s.mem ∧
      (bk ≠ q.bk → ∃ w, t.hw.warp? q.wk = some w ∧ Holds q w (Use.dst d) (fun _ => [BitVec.ofNat 32 st]) ∧
        QueuesPopped (.haltb d a) q w ∧ (w.path q.x).pc = after q) ∧
      (op = 0 → (t.hw.block? bk).map (·.halted) = some true) ∧ (op = 1 → b.halted = true → (t.hw.block? bk).map (·.halted) = some false) ∧
      (op = 2 → (t.hw.block? bk).map (fun c => (c.killed, c.halted)) = some (true, false) ∧
        ∀ k w, wkBlock k = bk → bk ≠ q.bk → t.hw.warp? k = some w → w.done = true) ∧
      (op = 3 → st = 0 → bk ≠ q.bk → ∀ w, t.hw.warp? (32 * bk + (groupAt q a 0).toNat / 2 ^ 15 % 32) = some w → w.done = true)) ∧
  (∀ a s q pa, Issues (.ctxsv a) s q → q.w.mode = .handler → AtRest s → (q.w.read64 ((Use.src a).wide 2) q.lane0).toNat % 256 = 0 →
    BufferAt s q true (q.w.read64 ((Use.src a).wide 2) q.lane0) q.w.imageLen pa →
    ∃ t w, exec (.ctxsv a) s = .next t ∧ t.hw.warp? q.wk = some w ∧ stands (w.path q.x) = (after q, q.p.mask, q.p.stack, q.p.base) ∧
      RegsKept q w ∧ numberAt t pa 4 = q.wshape.toNat ∧ (∀ r, r < 96 → numberAt t (pa + 64 + 4 * r) 4 = (q.w.getU r).toNat) ∧
      (∀ r l, r < q.w.vallot → l < 32 * q.w.k → numberAt t (pa + 6144 + 32 * q.w.k + 4 * (32 * q.w.k * r + l)) 4 = (q.w.getV r l).toNat) ∧
      (∀ p l, p < 8 → l < 32 * q.w.k → (t.byte (pa + 6144 + l)).getLsbD p = (q.w.getP p).getLsbD l) ∧
      (∀ f, q.w.frame = some f → numberAt t (pa + 16) 8 = f.p0.pc.toNat ∧ numberAt t (pa + 24) 8 = f.p1.pc.toNat) ∧
      ∀ x, ¬(pa ≤ x ∧ x < pa + q.w.imageLen) → FromOwn s q x (t.byte x)) ∧
  (∀ a s q bs, Issues (.ctxld a) s q → q.w.mode = .handler → AtRest s → (q.w.read64 ((Use.src a).wide 2) q.lane0).toNat % 256 = 0 →
    Iss.getBuf s.hw ⟨s.clk, s.mem⟩ q (q.w.read64 ((Use.src a).wide 2) q.lane0) q.w.imageLen = .ok bs →
    q.bufPoisoned s.hw (env s) (q.w.read64 ((Use.src a).wide 2) q.lane0) q.w.imageLen = none →
    leNat (bs.take 4) = q.wshape.toNat → ∃ t w, exec (.ctxld a) s = .next t ∧ t.hw.warp? q.wk = some w ∧ Alone q s t ∧
      (w.path q.x).pc = after q ∧ (∀ r, r < 96 → (w.getU r).toNat = leNat ((bs.drop (64 + 4 * r)).take 4)) ∧
      (∀ r l, r < q.w.vallot → l < 32 * q.w.k → l < 1024 → (w.getV r l).toNat =
        leNat ((bs.drop (6144 + 32 * q.w.k + 4 * (32 * q.w.k * r + l))).take 4)) ∧
      (∀ p l, 1 ≤ p → p < 8 → l < 32 * q.w.k → l < 1024 → (w.getP p).getLsbD l = (bs.getD (6144 + l) 0#8).getLsbD p) ∧
      (∀ f, w.frame = some f → f.p0.pc.toNat = leNat ((bs.drop 16).take 8))) ∧
  (∀ a s q, Issues (.dumpw a) s q → q.w.mode = .handler → q.slot ≠ 0xFFF →
    (q.w.read64 ((Use.src a).wide 2) q.lane0).toNat % 4096 = 0 → s.hw.startedCmds q.bk ≠ 0 →
    ∃ t, exec (.dumpw a) s = .next t ∧ Waits q t 31 ∧ t.mem = s.mem ∧ ((t.hw.block? q.bk).bind (·.dump)).isSome = true ∧
      ∀ k w, k ≠ q.wk → wkBlock k = q.bk → t.hw.warp? k = some w → w.done = true ∨ w.stopped = true) ∧
  (∀ a s q pa, Issues (.dumpw a) s q → q.w.mode = .handler → q.slot ≠ 0xFFF → Room s q 2 → AtRest s →
    (∀ f ∈ s.hw.flights, f.2.kind = .late → wkBlock f.2.wk ≠ q.bk) →
    (q.w.read64 ((Use.src a).wide 2) q.lane0).toNat % 4096 = 0 → s.hw.startedCmds q.bk = 0 → s.hw.blockElems q.bk = false →
    s.hw.block? q.bk = some q.b → BufferAt s q true (q.w.read64 ((Use.src a).wide 2) q.lane0) (dumpLength s q) pa →
    ∃ t w, exec (.dumpw a) s = .next t ∧ t.hw.warp? q.wk = some w ∧ stands (w.path q.x) = (after q, q.p.mask, q.p.stack, q.p.base) ∧
      RegsKept q w ∧ numberAt t pa 4 = 0x50444D59 ∧ t.byte (pa + 6) = 1#8 ∧ numberAt t (pa + 32) 8 = q.w.trapc.toNat ∧
      numberAt t (pa + 40) 8 = q.w.trappc.toNat ∧ ((t.hw.block? q.bk).bind (·.dump)).isSome = true ∧
      ∀ x, ¬(pa ≤ x ∧ x < pa + dumpLength s q) → FromOwn s q x (t.byte x)) ∧
  (∀ s q f, Issues .racew s q → q.w.mode = .handler → q.w.trapc.toNat % 256 = 0x07 → q.w.frame = some f → ∃ t w, exec .racew s = .next t ∧
    Serves .racew q s t w ∧ Alone q s t ∧ w.frame = some (if f.trapPath then { f with p1 := { f.p1 with waiver := some q.w.trappc } }
      else { f with p0 := { f.p0 with waiver := some q.w.trappc } }))

/-- O45. Each of these events answers a next state in every case. PACKAGE_RESET leaves the package at reset with TICK 0, and the boot chain run: READY exactly where all four stages pass, each passed stage measured. Links, channels, poison, heat, throttle step and the host link change as named and nothing else does (UCIE_RETRAIN, PACKAGE_FATAL_EVENT, PATROL_SCRUB, HBM_HOT_REFRESH, THROTTLE_STEP_UP, HOST_LINK_TRAIN); a corrected error is counted on its channel, an uncorrectable one poisons its line or the tag of its tile. A thermal trip, a step down and PCLK.BREAK break the clock locks on their rings; CLKCTL.LOCK locks the unthrottled rings. That a failed link stays failed is the model's reading (log 61). -/
def Obligations.PackageAndHeat : Prop :=
  (∀ s, ∃ b, exec .packageReset s = .next { s with clk := ⟨0, 0, s.clk.step⟩, hw := { Hw.reset with agenda := [], boot := b } } ∧
    (b.ready = true ↔ ∀ i, i < 4 → bootStep i = true) ∧ (b.ready = false ↔ b.failed.isSome = true) ∧
    (∀ i, b.failed = some i → i < 4 ∧ bootStep i = false ∧ ∀ j, j < i → bootStep j = true) ∧
    ∀ i, i < 4 → b.meas.getD i 0#512 = if (∀ j, j ≤ i → bootStep j = true) then measured 0#512 (bootDigest i) else 0#512) ∧
  (∀ s, s.Inv → Turns .ucieRetrain s (if 8 ≤ s.hw.occ.unit ∨ Tab.getD s.hw.links s.hw.occ.unit .up = .failed then s.hw else
    { s.hw with tried := [], links := if s.hw.occ.flag then Tab.del s.hw.links s.hw.occ.unit
        else Tab.put s.hw.links s.hw.occ.unit (.retraining s.clk.tick) })) ∧
  (∀ s, s.Inv → Turns .packageFatalEvent s (if 8 ≤ s.hw.occ.unit then s.hw else
    { s.hw with links := Tab.put s.hw.links s.hw.occ.unit .failed, fatal := true })) ∧
  (∀ s, s.Inv → s.hw.occ.aux = 0 → Turns .patrolScrub s s.hw) ∧
  (∀ s, s.Inv → s.hw.occ.aux = 1 → ∃ t, exec .patrolScrub s = .next t ∧ t.mem = s.mem ∧ t.clk = s.clk ∧
    t.hw = { s.hw with chans := t.hw.chans, fns := t.hw.fns, out := t.hw.out } ∧
    (∀ c, Tab.getD t.hw.chans c (.active, 0) = let x := Tab.getD s.hw.chans c (.active, 0)
      if c = chanOf (128 * s.hw.occ.unit) then (x.1, x.2 + 1) else x) ∧
    ∀ f, t.hw.fn f = { s.hw.fn f with ctrs := (t.hw.fn f).ctrs, intstat := (t.hw.fn f).intstat }) ∧
  (∀ s, s.Inv → s.hw.occ.aux = 2 → s.hw.occ.flag = false →
    ∃ t, exec .patrolScrub s = .next t ∧ t.mem = s.mem ∧ t.hw = { s.hw with poison := t.hw.poison } ∧
      ∀ l, l ∈ t.hw.poison ↔ l = s.hw.occ.unit ∨ l ∈ s.hw.poison) ∧
  (∀ s, s.Inv → s.hw.occ.aux = 2 → s.hw.occ.flag = true → Turns .patrolScrub s
    { s.hw with units := Tab.modify s.hw.units s.hw.occ.id fun u => { u with poisoned := true } }) ∧
  (∀ s, s.Inv → s.hw.occ.aux = 3 → Turns .patrolScrub s (s.hw.onFCore s.hw.occ.val.toNat s.hw.occ.id fun c =>
    { c with poison := s.hw.occ.unit :: c.poison })) ∧
  (∀ s, s.Inv → s.hw.occ.aux = 4 → paKind (4096 * s.hw.occ.unit) = .hbm → ∃ t, exec .patrolScrub s = .next t ∧ t.mem = s.mem ∧
    t.clk = s.clk ∧ t.hw = { s.hw with tags := t.hw.tags } ∧ ∀ x, t.hw.tag x =
      if x / 4096 = s.hw.occ.unit then withSt (s.hw.tag x) 3 else s.hw.tag x) ∧
  (∀ s, s.Inv → Tab.rising s.hw.fns = true → ∃ t, exec .thermalTrip s = .next t ∧ t.mem = s.mem ∧ t.clk = s.clk ∧
    t.hw = { s.hw with trip := true, fns := t.hw.fns, rings := t.hw.rings, trace := t.hw.trace, agenda := t.hw.agenda } ∧
    Unlocked s t (fun r => decide (r < 20)) 3 ∧ ∀ r, t.hw.ring r = { s.hw.ring r with opp := (t.hw.ring r).opp }) ∧
  (∀ s, s.Inv → Turns .hbmHotRefresh s { s.hw with hotHbm :=
    (if s.hw.occ.flag then [] else [s.hw.occ.unit]) ++ s.hw.hotHbm.filter fun x => x != s.hw.occ.unit }) ∧
  (∀ s, s.Inv → Tab.rising s.hw.fns = true → ∃ t, exec .throttleStepDown s = .next t ∧ t.mem = s.mem ∧ t.clk = s.clk ∧
    t.hw = { s.hw with fns := t.hw.fns, rings := t.hw.rings, trace := t.hw.trace, agenda := t.hw.agenda } ∧
    Unlocked s t (fun r => r == s.hw.occ.unit) 1 ∧ ∀ r, t.hw.ring r = { s.hw.ring r with
      opp := (t.hw.ring r).opp, step := if r = s.hw.occ.unit then min 6 ((s.hw.ring r).step + 1) else (s.hw.ring r).step }) ∧
  (∀ s, s.Inv → Turns .throttleStepUp s { (s.hw.onRing s.hw.occ.unit fun r => { r with step := r.step - 1 }) with tried := [] }) ∧
  (∀ s p, s.Inv → Tab.rising s.hw.fns = true → p = s.hw.occ.unit % 64 → ∃ t, exec .pclkBreak s = .next t ∧ t.mem = s.mem ∧
    t.clk = s.clk ∧ t.hw = { s.hw with fns := t.hw.fns, rings := t.hw.rings, trace := t.hw.trace, agenda := t.hw.agenda } ∧
    Unlocked s t (fun r => (s.hw.part p).rings.contains r) 2 ∧ ∀ r, t.hw.ring r = { s.hw.ring r with opp := (t.hw.ring r).opp }) ∧
  (∀ s f opp rs, s.Inv → f = s.hw.occ.unit → opp = s.hw.occ.aux % 8 → rs = (if (s.hw.fn f).bind.bound then
      (s.hw.part (s.hw.partOf f)).rings.filter fun r => (s.hw.ring r).step == 0 else []) →
    ∃ t, exec .clkctlLock s = .next t ∧ t.mem = s.mem ∧ t.clk = s.clk ∧
      t.hw = { s.hw with fns := t.hw.fns, rings := t.hw.rings, trace := t.hw.trace, agenda := t.hw.agenda } ∧
      (∀ g, t.hw.fn g = if g = f then { s.hw.fn f with dbg := { (s.hw.fn f).dbg with opp := opp, lock := true, locks := rs } }
        else s.hw.fn g) ∧
      ∀ r, t.hw.ring r = if (s.hw.part (s.hw.partOf f)).running = some f ∧ r ∈ rs then
        { s.hw.ring r with opp := if opp < 4 then opp else 0 } else s.hw.ring r) ∧
  (∀ s, s.Inv → 1 ≤ s.hw.occ.unit → s.hw.occ.unit ≤ 7 → s.hw.occ.id ∈ [1, 2, 4, 8, 16] →
    Turns .hostLinkTrain s { s.hw with host := some ⟨s.hw.occ.unit, s.hw.occ.id⟩ })

/-- O46. Each of these events answers a next state (CREDIT_LAPSE, TIMED_ACTION_FIRE, DBGCTL_STOPREQ, DBGCTL_STOPALL, COUNTER_SELECT, COUNTER_HOLD, PATH_PROMOTION, ACCESS_COUNT_HALVING). Credit younger than 100 ms stays; of what is due, all lapses where the function has no work, and otherwise what no other function of the partition has had work against since; what does not lapse is paid into the running slice, or waits for the one that the scheduler starts for it. A timed wait, engine command or grid goes on once its core's tick has reached its own, and is late where its slice does not run. A counter takes its selection unless it is claimed; a claim keeps the function's own selection; STOPREQ, STOPALL, path promotion and the halving of access counts do what they name and nothing else. -/
def Obligations.CreditsAndTimedActions : Prop :=
  (∀ s f, s.Inv → f = s.hw.occ.unit → (∀ x ∈ (s.hw.fn f).wake.earned, s.clk.tick < x.1 + 100000000) →
    Turns .creditLapse s s.hw) ∧
  (∀ s f due lost k, s.Inv → f = s.hw.occ.unit →
    due = (s.hw.fn f).wake.earned.filter (fun x => decide (x.1 + 100000000 ≤ s.clk.tick)) → due ≠ [] →
    lost = (if s.hw.hasWork f then due.filter fun x => decide ((s.hw.fn f).wake.rivalAt < x.1) else due) →
    k = { (s.hw.fn f).wake with
      credit := (s.hw.fn f).wake.credit - (lost.map (·.2)).sum, earned := (s.hw.fn f).wake.earned.filter fun x => !lost.contains x } →
    (lost = due → Turns .creditLapse s (s.hw.onFn f fun x => { x with wake := k })) ∧
    (lost ≠ due → (s.hw.part (s.hw.partOf f)).running = some f →
      Turns .creditLapse s ((s.hw.onFn f fun x => { x with wake := { k with
          credit := 0, earned := [], paid := (k.paid + k.credit) % 2 ^ 48 } }).onPart (s.hw.partOf f) fun q =>
        { q with bonus := q.bonus + k.credit / 2500 })) ∧
    (lost ≠ due → (s.hw.part (s.hw.partOf f)).running ≠ some f → ∃ t, exec .creditLapse s = .next t ∧ t.mem = s.mem ∧ t.clk = s.clk ∧
      t.hw = { ((s.hw.onFn f fun x => { x with wake := k }).onPart (s.hw.partOf f) fun q => { q with saved := some f }) with
        agenda := t.hw.agenda } ∧
      Planned t .sliceEnd { Occasion.none with unit := s.hw.partOf f })) ∧
  (∀ s w b t, s.Inv → s.hw.occ.aux = 0 → s.hw.warp? s.hw.occ.id = some w → s.hw.block? (wkBlock s.hw.occ.id) = some b →
    (w.path s.hw.occ.flag).wakeAt = some t → t ≤ localTick (env s) b.core →
    Turns .timedActionFire s { s.hw with
      tried := [], warps := (Tab.put s.hw.warps s.hw.occ.id
        (w.setPath s.hw.occ.flag { (w.path s.hw.occ.flag) with wakeAt := none })) }) ∧
  (∀ s c n, s.Inv → s.hw.occ.aux = 1 → Tab.find? s.hw.cmds s.hw.occ.id = some c → c.at_ = some n → c.fired = false →
    n ≤ localTick (env s) c.core → ∃ t, exec .timedActionFire s = .next t ∧ t.mem = s.mem ∧ t.clk = s.clk ∧
      t.hw = { s.hw with agenda := t.hw.agenda, cmds := Tab.put s.hw.cmds s.hw.occ.id { c with
        fired := true, late := c.late || !s.hw.runs c.fn } }) ∧
  (∀ s g n, s.Inv → s.hw.occ.aux ≠ 0 → s.hw.occ.aux ≠ 1 → s.hw.grid? s.hw.occ.id = some g → g.startAt = some n →
    ∃ t, exec .timedActionFire s = .next t ∧ t.mem = s.mem ∧ t.clk = s.clk ∧ t.hw.warps = s.hw.warps ∧
      (∀ k b, s.hw.block? k = some b → t.hw.block? k = some (if b.grid = s.hw.occ.id ∧ n ≤ localTick (env s) b.core then
        { b with startAt := none } else b)) ∧
      t.hw.grid? s.hw.occ.id = some (if n ≤ s.clk.tick ∧ s.hw.runs g.fn = false then { g with startAt := none } else g)) ∧
  (∀ s, s.Inv → Turns .dbgctlStopreq s (s.hw.onFn s.hw.occ.unit fun x => { x with dbg := { x.dbg with
    stopReq := true, slot := s.hw.occ.id % 4096, warp := s.hw.occ.aux % 32 } })) ∧
  (∀ s, s.Inv → Turns .dbgctlStopall s (s.hw.onFn s.hw.occ.unit fun x => { x with dbg := { x.dbg with stopAll := s.hw.occ.flag } })) ∧
  (∀ s f n c, s.Inv → f = s.hw.occ.unit → n = s.hw.occ.id % 4 → c = Tab.getD (s.hw.fn f).ctrs n Ctr.reset → s.hw.occ.val.toNat < 2 ^ 29 →
    ∃ t, exec .counterSelect s = .next t ∧ t.mem = s.mem ∧ t.clk = s.clk ∧ t.hw = { s.hw with fns := t.hw.fns } ∧
      (∀ g, g ≠ f → t.hw.fn g = s.hw.fn g) ∧ t.hw.fn f = { s.hw.fn f with ctrs := (t.hw.fn f).ctrs } ∧
      (∀ m, m ≠ n → Tab.getD (t.hw.fn f).ctrs m Ctr.reset = Tab.getD (s.hw.fn f).ctrs m Ctr.reset) ∧
      (c.hold = false → Tab.getD (t.hw.fn f).ctrs n Ctr.reset = { c with
        sel := s.hw.occ.val.setWidth 32, lost := !s.hw.selAvailable f (s.hw.occ.val.setWidth 32)
        val := if c.lost && s.hw.selAvailable f (s.hw.occ.val.setWidth 32) then 0 else c.val }) ∧
      (c.hold = true → Tab.getD (t.hw.fn f).ctrs n Ctr.reset = c)) ∧
  (∀ s f n c, s.Inv → f = s.hw.occ.unit → 1 ≤ f → f ≤ 256 → n = s.hw.occ.id % 4 → c = Tab.getD (s.hw.fn f).ctrs n Ctr.reset →
    ∃ t, exec .counterHold s = .next t ∧ t.mem = s.mem ∧ t.clk = s.clk ∧ t.hw = { s.hw with fns := t.hw.fns, free := t.hw.free } ∧
      (∀ g, g ≠ f → t.hw.fn g = s.hw.fn g) ∧ t.hw.fn f = { s.hw.fn f with ctrs := (t.hw.fn f).ctrs } ∧
      (s.hw.occ.val.getLsbD 29 = true → ∃ v o, Tab.getD (t.hw.fn f).ctrs n Ctr.reset = { c with
        hold := true, pfSel := s.hw.occ.val.setWidth 32 &&& 0x1FFFFFFF#32, pfVal := v, pfOvf := o } ∧
        (c.hold = true → o = c.pfOvf ∧ v = if s.hw.selAvailable f c.pfSel = false ∧
          s.hw.selAvailable f (s.hw.occ.val.setWidth 32 &&& 0x1FFFFFFF#32) = true then 0 else c.pfVal) ∧ (c.hold = false → o = false)) ∧
      (s.hw.occ.val.getLsbD 29 = false → Tab.getD (t.hw.fn f).ctrs n Ctr.reset = { c with hold := false })) ∧
  (∀ s w, s.Inv → s.hw.warp? s.hw.occ.id = some w → (w.path s.hw.occ.flag).live = true → 16384 ≤ (w.path s.hw.occ.flag).ready →
    Turns .pathPromotion s { s.hw with
      warps := (Tab.put s.hw.warps s.hw.occ.id
        (w.setPath s.hw.occ.flag { (w.path s.hw.occ.flag) with promoted := true })) }) ∧
  (∀ s, s.Inv → ∃ t, exec .accessCountHalving s = .next t ∧ t.mem = s.mem ∧ t.clk = s.clk ∧ t.hw = { s.hw with access := t.hw.access } ∧
    ∀ k, Tab.getD t.hw.access k [] = (Tab.getD s.hw.access k []).map fun x => { x with cnt := x.cnt.map (· / 2 ^ s.hw.occ.aux) })

/-- O47. Each of these events answers a next state. A BAR 2 read that reaches memory answers its bytes and changes none; a write changes exactly its bytes and makes its tile raw; an AtomicOp takes its place in the queue of its home ring's retriever with its operation and operands (RETRIEVER_ELEMENT performs and answers it). A read in the journal window answers the journal. An access that the function cannot make is answered Unsupported Request and changes nothing; so is one held for 40 us, all ones for a read or an AtomicOp, with its journal entry and interrupt, and it is gone. A snooped host line leaves L2. -/
def Obligations.HostAccesses : Prop :=
  (∀ s a pa l va, a = hostAccess s false s.hw.occ.aux none → HostReaches s a pa l va → (linesOf pa a.size).any s.hw.poison.contains = false →
    ∃ t, exec .bar2Read s = .next t ∧ t.mem = s.mem ∧ t.clk = s.clk ∧ t.hw.warps = s.hw.warps ∧ t.hw.blocks = s.hw.blocks ∧
      t.hw.fcores = s.hw.fcores ∧ t.hw.tags = s.hw.tags ∧
      t.hw.out.head? = some (.data ((List.range a.size).map fun j => s.byte (pa + j)))) ∧
  (∀ s a k, a = hostAccess s false s.hw.occ.aux none → s.Inv → s.hw.occ.flag = false → s.hw.reaches a.fn a.off a.size = true →
    (s.hw.fn a.fn).wake.state = .active → s.hw.window a.fn a.off = .journal k →
    Turns .bar2Read s (s.hw.send (.data ((List.range a.size).map fun j => (s.hw.fn a.fn).journalByte (k + j))))) ∧
  (∀ s a pa l va, a = hostAccess s true s.hw.occ.bytes.length none → HostReaches s a pa l va →
    ∃ t, exec .bar2Write s = .next t ∧ Overwritten s t pa a.bytes ∧ t.clk = s.clk ∧ WarpsCalm s t ∧ t.hw.blocks = s.hw.blocks ∧
      (∀ x, t.hw.tag x = if tileOf x = tileOf pa then rawTag (s.hw.tag x) else s.hw.tag x) ∧
      ∀ w, w ∈ wordsOf pa a.size → Tab.find? t.hw.recs w = none) ∧
  (∀ s a pa l va, a = hostAccess s true s.hw.occ.bytes.length (some s.hw.occ.aux) → HostReaches s a pa l va →
    (a.size = 4 ∨ a.size = 8) → a.off % a.size = 0 →
    let key (x : Elem) := (x.op, x.loc, x.b, x.cmp, x.host, x.fn, x.intv)
    let ring := s.hw.elemRing (ctxOf a.fn) l pa 0
    ∃ t, exec .hostAtomicop s = .next t ∧ t.mem = s.mem ∧ t.clk = s.clk ∧ t.hw.warps = s.hw.warps ∧ t.hw.heldAcc = s.hw.heldAcc ∧
      Planned t .retrieverElement { Occasion.none with unit := ring } ∧
      ∀ r, ((t.hw.ring r).retq ++ (t.hw.ring r).pend).map key = ((s.hw.ring r).retq ++ (s.hw.ring r).pend).map key ++
        if r = ring then [(match a.size, s.hw.occ.aux with
          | 8, 0 => .addD
          | 8, 1 => .xchgD
          | 8, _ => .casD
          | _, 0 => .add
          | _, 1 => .xchg
          | _, _ => .cas, .mem pa, BitVec.ofNat 64 (leNat a.bytes), a.cmp, true, a.fn, s.clk.tick)] else []) ∧
  (∀ s, s.Inv → s.hw.occ.flag = false → s.hw.reaches s.hw.occ.unit s.hw.occ.id s.hw.occ.aux = false →
    Turns .bar2Read s (s.hw.send .unsupported)) ∧
  (∀ i s, (i = Instr.bar2Write ∨ i = .hostAtomicop) → s.Inv → s.hw.occ.flag = false →
    s.hw.reaches s.hw.occ.unit s.hw.occ.id s.hw.occ.bytes.length = false → Turns i s (s.hw.send .unsupported)) ∧
  (∀ s a, s.Inv → (s.hw.heldAcc.find? fun a => decide (a.since + 40000 ≤ s.clk.tick)) = some a →
    ∃ t, exec .heldAccessTimeout s = .next t ∧ t.mem = s.mem ∧ t.clk = s.clk ∧ t.hw.heldAcc = s.hw.heldAcc.erase a ∧
      t.hw = { s.hw with heldAcc := t.hw.heldAcc, fns := t.hw.fns, out := t.hw.out, agenda := t.hw.agenda } ∧
      (if a.write = true ∧ a.atom = none then Out.unsupported else .unsupportedOnes (List.replicate a.size 0xFF#8)) ∈ t.hw.out ∧
      (t.hw.fn a.fn).intstat.getLsbD 4 = true ∧
      ((s.hw.fn a.fn).jFree = true → (s.hw.fn a.fn).jbuf = [] → let n := (s.hw.fn a.fn).jnext
        Tab.find? (t.hw.fn a.fn).journal (n % 8192) = some ⟨n, 3, 3, a.src, 0, 0, false, 4, 0, s.clk.tick⟩)) ∧
  (∀ s r x, s.Inv → (∀ a ∈ s.hw.heldAcc, s.clk.tick < a.since + 40000) → s.hw.staleAtom (env s) = some (r, x) →
    ∃ t, exec .heldAccessTimeout s = .next t ∧ t.mem = s.mem ∧ t.clk = s.clk ∧ (t.hw.ring r).retq = (s.hw.ring r).retq.erase x ∧
      (t.hw.ring r).pend = (s.hw.ring r).pend.erase x ∧ Out.unsupportedOnes (List.replicate x.op.size 0xFF#8) ∈ t.hw.out ∧
      (t.hw.fn x.fn).intstat.getLsbD 4 = true) ∧
  (∀ s va l pa, s.Inv → va = s.hw.occ.val.toNat % 2 ^ 64 % 2 ^ 57 → s.hw.leafFor (env s) frontEnd s.hw.occ.unit va = .ok l →
    pa = l.frame + va % 2 ^ l.lg → paKind pa = .host → (s.hw.l2.any fun x => x.line == lineOf pa) = true →
    ∃ t, exec .hostSnoop s = .next t ∧ t.mem = s.mem ∧ t.clk = s.clk ∧ t.hw.warps = s.hw.warps ∧
      t.hw.l2 = s.hw.l2.filter fun x => x.line != lineOf pa)

/-- O48. Each of these events answers a next state (REGISTER_WRITE, REGISTER_READ_CLEAR, FABRIC_FRAME_RECEIVE, FABRIC_LINK_UP, FABRIC_LAUNCH). A register access that may not be made is answered Unsupported Request and changes nothing. INTSTAT bits clear by writing one, INTEN takes its bits, B2VA is aligned, journal registers and rsv offsets ignore writes, every other write completes. A read answers the value, changes no register that is not RC, and clears JLOST, FV.DROPS, PNOMETH, PMOLOST, RC.LOST and TRDROP. A frame is stamped and counted; a datagram that fails a check is dropped, one that passes is accepted with its sequence number and wakes its function. -/
def Obligations.RegistersAndFabric : Prop :=
  (∀ i s, (i = Instr.registerWrite ∨ i = .registerReadClear) → s.Inv →
    s.hw.regOk s.hw.occ.unit s.hw.occ.id s.hw.occ.aux = false → Turns i s (s.hw.send .unsupported)) ∧
  (∀ s, s.Inv → s.hw.regOk s.hw.occ.unit s.hw.occ.id s.hw.occ.aux = true → ∃ t, exec .registerWrite s = .next t ∧ t.clk = s.clk) ∧
  (∀ s f r v, s.Inv → f = s.hw.occ.unit → s.hw.regOk f s.hw.occ.id s.hw.occ.aux = true → s.hw.occ.id % 8 = 0 →
    r = regAt f s.hw.occ.id → v = s.hw.occ.val →
    (r = .intr 0 → Turns .registerWrite s { (s.hw.onFn f fun x => { x with intstat := x.intstat &&& ~~~(v.setWidth 8) }) with tried := [] }) ∧
    (r = .intr 8 → Turns .registerWrite s { (s.hw.onFn f fun x => { x with inten := v.setWidth 8 }) with tried := [] }) ∧
    (r = .function 0x028 → s.hw.occ.aux = 8 → Turns .registerWrite s
      { (s.hw.onFn f fun x => { x with b2va := ((v.setWidth 64 : DWord) >>> x.b2sz) <<< x.b2sz }) with tried := [] }) ∧
    ((r = .rsv ∨ ∃ k, r = .journal k) → Turns .registerWrite s { s.hw with tried := [] })) ∧
  (∀ s f off n r, s.Inv → f = s.hw.occ.unit → off = s.hw.occ.id → n = s.hw.occ.aux → s.hw.regOk f off n = true →
    r = regAt f (off / 8 * 8) → ∃ t, exec .registerReadClear s = .next t ∧ t.mem = s.mem ∧ t.clk = s.clk ∧
      t.hw = { s.hw with
        fns := t.hw.fns, parts := t.hw.parts, trace := t.hw.trace
        out := .data (natLe n ((s.hw.readReg f r).toNat / 2 ^ (8 * (off % 8)))) :: s.hw.out } ∧
      (r ≠ .journal 0x010 → (∀ g, r ≠ .fab g 0x48) → (∀ g, r ≠ .race g 0x18) → t.hw.fns = s.hw.fns) ∧
      ((∀ p, r ≠ .part p 0xA0) → (∀ p, r ≠ .part p 0xD8) → t.hw.parts = s.hw.parts) ∧
      (r ≠ .debug 0x110 → t.hw.trace = s.hw.trace) ∧
      (off % 8 = 0 → (r = .journal 0x010 → (t.hw.fn f).jlost = 0) ∧ (∀ g, r = .fab g 0x48 → (t.hw.fn g).fab.drops = 0) ∧
        (∀ p, r = .part p 0xA0 → (t.hw.part p).pnometh = 0) ∧ (∀ p, r = .part p 0xD8 → (t.hw.part p).pmolost = 0) ∧
        (∀ g, r = .race g 0x18 → (t.hw.fn g).race.lost = 0) ∧
        (f = 0 → n = 8 → r = .debug 0x110 → t.hw.trace.drop = 0))) ∧
  (∀ s p, s.Inv → p = s.hw.occ.unit → ∃ t, exec .fabricFrameReceive s = .next t ∧ t.mem = s.mem ∧ t.clk = s.clk ∧
    t.hw = { s.hw with ports := t.hw.ports, fns := t.hw.fns, out := t.hw.out } ∧
    (∀ q, t.hw.port q = if q = p then { s.hw.port p with
      recv := (s.hw.port p).recv + 1, drop := (s.hw.port p).drop + (if s.hw.occ.aux = 0 then 1 else 0)
      stamps := localTick (env s) (160 + p) :: (s.hw.port p).stamps } else s.hw.port q) ∧
    t.hw.out.head? = some (if s.hw.occ.aux = 0 then .fabricDrop p else .toManager p)) ∧
  (∀ s, s.Inv → Turns .fabricLinkUp s (s.hw.onPort s.hw.occ.unit fun x => { x with up := true, fast := s.hw.occ.flag })) ∧
  (∀ s p, s.Inv → p = s.hw.occ.unit → s.hw.boot.ready = true → s.hw.occ.flag = false →
    s.hw.fabCode (s.hw.occ.val.setWidth 128) s.hw.occ.aux s.hw.occ.bytes ≠ 0 →
    ∃ t, exec .fabricLaunch s = .next t ∧ t.mem = s.mem ∧ t.clk = s.clk ∧ (∀ f, (t.hw.fn f).cmds = (s.hw.fn f).cmds) ∧
      (t.hw.port p).recv = (s.hw.port p).recv + 1 ∧ (t.hw.port p).drop = (s.hw.port p).drop + 1 ∧ Out.fabricDrop p ∈ t.hw.out) ∧
  (∀ s p bs f q, s.Inv → p = s.hw.occ.unit → bs = s.hw.occ.bytes → f = bytesNat bs 2 2 → q = s.hw.part (s.hw.partOf f) →
    s.hw.boot.ready = true → s.hw.occ.flag = false → s.hw.fabCode (s.hw.occ.val.setWidth 128) s.hw.occ.aux bs = 0 →
    q.quiescing = false → q.quiet = false → (s.hw.fn f).jFree = true → (s.hw.fn f).jbuf = [] →
    ∃ t, exec .fabricLaunch s = .next t ∧ t.clk = s.clk ∧ (t.hw.port p).recv = (s.hw.port p).recv + 1 ∧
      (t.hw.fn f).fab.last = bytesNat bs 8 8 ∧ (t.hw.fn f).jnext = (s.hw.fn f).jnext + 1 ∧
      ((s.hw.fn f).wake.state = .collapsing ∨ (s.hw.fn f).wake.state = .collapsed →
        (t.hw.fn f).wake.state = .waking ∧ (t.hw.fn f).wake.cause = 2))

/-- O49. Each of these events answers a next state (SQ_ENABLE, SQ_DOORBELL, SQ_GEOMETRY_WRITE, SQ_RESET, FCTL_ABORT, FUNCTION_LEVEL_RESET, COMMAND_FETCH, FETCH_TIMEOUT, ATTEST_REQUEST, ATTEST_DONE). Enabling a queue or ringing its doorbell validates it; a doorbell while the function is not active is held; a write to its base or size while it is enabled is an error; a reset clears it and ends its pending commands, as FCTL.ABORT does for all queues and a function-level reset for every command. A fetch takes the 64 bytes at the read index, which moves on: an accepted command stands in the queue with an ACCEPTED journal entry, a rejected one ends. A fetch that is not answered is an error. ATCTL.GO starts one report, which ends with its bytes written or an address error. -/
def Obligations.QueuesAndAcceptance : Prop :=
  (∀ s f q, s.Inv → f = s.hw.occ.unit → q = s.hw.occ.id % 16 → (s.hw.sq f q).en = false →
    ∃ t, exec .sqEnable s = .next t ∧ Validated s t f q { s.hw.sq f q with en := true } { s.hw.sq f q with en := true }) ∧
  (∀ s f q, s.Inv → f = s.hw.occ.unit → q = s.hw.occ.id % 16 → (s.hw.sq f q).en = true → Turns .sqEnable s s.hw) ∧
  (∀ s f q x, s.Inv → f = s.hw.occ.unit → q = s.hw.occ.id % 16 → x = { s.hw.sq f q with wr := s.hw.occ.val.toNat % 65536 } →
    ∃ t, exec .sqDoorbell s = .next t ∧ (x.en = true → Validated s t f q x { x with held := true }) ∧
      (x.en = false → t.hw.sq f q = x ∧ OtherQueues s t f q ∧ t.hw = { s.hw with fns := t.hw.fns } ∧ t.mem = s.mem)) ∧
  (∀ s f q x, s.Inv → f = s.hw.occ.unit → q = s.hw.occ.id % 16 → x = s.hw.sq f q →
    ((x.en = false ∨ x.err = true) → Turns .sqGeometryWrite s s.hw) ∧
    (x.en = true → x.err = false → ∃ t, exec .sqGeometryWrite s = .next t ∧ t.hw.sq f q = { x with err := true, code := 1 } ∧
      OtherQueues s t f q ∧ (t.hw.fn f).intstat.getLsbD 1 = true ∧ t.mem = s.mem ∧ t.clk = s.clk)) ∧
  (∀ s f q, s.Inv → f = s.hw.occ.unit → q = s.hw.occ.id % 16 → Tab.rising (s.hw.fn f).cmds = true →
    ∃ t, exec .sqReset s = .next t ∧ t.clk = s.clk ∧ OtherQueues s t f q ∧
      t.hw.sq f q = { s.hw.sq f q with en := false, err := false, code := 0, rd := 0, wr := 0 } ∧
      ∀ n c, Tab.find? (t.hw.fn f).cmds n = some c ↔
        (Tab.find? (s.hw.fn f).cmds n = some c ∧ ¬(c.disp = false ∧ c.queue = q))) ∧
  (∀ s f, s.Inv → f = s.hw.occ.unit → Tab.rising (s.hw.fn f).cmds = true →
    ∃ t, exec .fctlAbort s = .next t ∧ t.clk = s.clk ∧ WarpsCalm s t ∧
      (∀ n c, Tab.find? (t.hw.fn f).cmds n = some c ↔ (Tab.find? (s.hw.fn f).cmds n = some c ∧ c.disp = true)) ∧
      ∀ n c j, Tab.find? (s.hw.fn f).cmds n = some c → c.disp = false → (s.hw.fn f).jbuf = [] →
        Tab.find? (s.hw.fn f).journal (n % 8192) = some j → j.seq = n → j.terminal = false →
        Tab.find? (t.hw.fn f).journal (n % 8192) = some { j with state := 4, status := 6, cause := 0, tstamp := s.clk.tick }) ∧
  (∀ s f, s.Inv → f = s.hw.occ.unit → ∃ t, exec .functionLevelReset s = .next t ∧ t.clk = s.clk ∧ WarpsCalm s t ∧
    (∀ n, Tab.find? (t.hw.fn f).cmds n = none) ∧ (t.hw.fn f).wake = { (s.hw.fn f).wake with count := 0, paid := 0 } ∧
    let n := (t.hw.fn f).jnext - 1
    Tab.find? (t.hw.fn f).journal (n % 8192) = some ⟨n, 5, 3, 18, 0, 0, false, 0, 0, s.clk.tick⟩) ∧
  (∀ s f q x c pa, s.Inv → f = s.hw.occ.unit → q = s.hw.occ.id → x = s.hw.sq f q → s.hw.fetches f q = true →
    (s.hw.fn f).jFree = true → (s.hw.fn f).jbuf = [] → pa = hostPa x.base + 64 * x.rd → s.hw.poison.contains (lineOf pa) = false →
    c = nextFetch s f q →
    (s.hw.acceptStatus (env s) f c = 0 → ∃ t, exec .commandFetch s = .next t ∧ t.mem = s.mem ∧ t.clk = s.clk ∧
      OtherQueues s t f q ∧ t.hw.sq f q = { x with rd := (x.rd + 1) % 2 ^ x.log2, seq := (s.hw.fn f).jnext } ∧
      (t.hw.fn f).jnext = (s.hw.fn f).jnext + 1 ∧ Tab.find? (t.hw.fn f).cmds (s.hw.fn f).jnext = some c ∧
      Tab.find? (t.hw.fn f).journal ((s.hw.fn f).jnext % 8192) =
        some ⟨(s.hw.fn f).jnext, 1, 1, q, 0, 0, false, c.ctag, c.opc, s.clk.tick⟩) ∧
    (s.hw.acceptStatus (env s) f c ≠ 0 → ∃ t, exec .commandFetch s = .next t ∧ t.clk = s.clk ∧ OtherQueues s t f q ∧
      (t.hw.sq f q).rd = (x.rd + 1) % 2 ^ x.log2 ∧ (t.hw.fn f).jnext = (s.hw.fn f).jnext + 1 ∧
      Tab.find? (t.hw.fn f).cmds (s.hw.fn f).jnext = none ∧
      Tab.find? (t.hw.fn f).journal ((s.hw.fn f).jnext % 8192) =
        some ⟨(s.hw.fn f).jnext, 1, 5, q, s.hw.acceptStatus (env s) f c, 0, false, c.ctag, c.opc, s.clk.tick⟩)) ∧
  (∀ s f q, s.Inv → f = s.hw.occ.unit → q = s.hw.occ.id → s.hw.fetches f q = true →
    ∃ t, exec .fetchTimeout s = .next t ∧ t.mem = s.mem ∧ t.clk = s.clk ∧ OtherQueues s t f q ∧
      t.hw.sq f q = { s.hw.sq f q with err := true, code := 6 } ∧ (t.hw.fn f).intstat.getLsbD 1 = true) ∧
  (∀ s f, s.Inv → f = s.hw.occ.unit → s.hw.boot.ready = true → ∃ t, exec .attestRequest s = .next t ∧ t.mem = s.mem ∧
    t.clk = s.clk ∧ t.hw = { (s.hw.onFn f fun x => { x with attest := if x.attest.go then { x.attest with stat := 3 }
      else { x.attest with go := true, stat := 1 } }) with agenda := t.hw.agenda } ∧
    Planned t .attestDone { Occasion.none with unit := f }) ∧
  (∀ s f a ok, s.Inv → f = s.hw.occ.unit → a = (s.hw.fn f).attest → a.go = true →
    ok = (s.hw.inWindow f a.addr 32768 && (a.cert == 0#64 || s.hw.inWindow f a.cert 65536)) →
    ∃ t, exec .attestDone s = .next t ∧ t.clk = s.clk ∧ WarpsCalm s t ∧ (t.hw.fn f).intstat.getLsbD 7 = true ∧
      (t.hw.fn f).attest = { a with go := false, stat := if ok then 2 else 4 } ∧ (ok = false → t.mem = s.mem) ∧
      (ok = true → a.cert = 0#64 → ∀ k, k < 512 → t.byte (hostPa a.addr + k) = (reportBody s.hw (env s) f).getD k 0#8))

/-- O50. Each of these events answers a next state. The next command of a queue whose addresses pass does what its opcode names. NOP and INTR end at once, INTR with its vector sent; a LAUNCH that fits and whose function has slot areas becomes a grid, else ends NORES; a TASK becomes its routine's grid and its conversions', a record for the handler warp, or ends; a GSLAUNCH becomes one grid of units. COPY moves its bytes, WRITEVAL stores its word, WAITVAL ends when its condition holds or its timeout passes. The handler warp takes its entries in order. That a function without slot areas launches nothing at dispatch is a reading (log 55). -/
def Obligations.QueueCommands : Prop :=
  (∀ s f seq c, Dispatches s f seq c 0 → ∃ t, exec .nop s = .next t ∧ Ended s t f seq c 0 0 false ∧ WordOnly s t c ∧
    t.clk = s.clk ∧ WarpsCalm s t) ∧
  (∀ s f seq c, Dispatches s f seq c 7 → ∃ t, exec .intr s = .next t ∧ Ended s t f seq c 0 0 false ∧ WordOnly s t c ∧
    t.clk = s.clk ∧ WarpsCalm s t ∧ Out.msix f (c.num 16 1 % 32) ∈ t.hw.out) ∧
  (∀ s f seq c sh, Dispatches s f seq c 1 → sh = Shape.ofLaunch c.bytes →
    (((s.hw.partFor f).neverFits sh none = true ∨ (s.hw.fn f).race.frbase = 0#64 ∨ (s.hw.fn f).race.rrcnt < 2) →
      ∃ t, exec .launchCommand s = .next t ∧ Ended s t f seq c 4 0 false ∧ WordOnly s t c ∧ t.hw.grids = s.hw.grids) ∧
    ((s.hw.partFor f).neverFits sh none = false → (s.hw.fn f).race.frbase ≠ 0#64 → 2 ≤ (s.hw.fn f).race.rrcnt →
      ∃ t, exec .launchCommand s = .next t ∧ t.mem = s.mem ∧ t.clk = s.clk ∧ t.hw.warps = s.hw.warps ∧
        t.hw.nextId = s.hw.nextId + 1 ∧ t.hw.grids = s.hw.grids ++ [(s.hw.nextId,
          { Grid.plain .launch f seq (BitVec.ofNat 64 seq) sh with
            startAt := if c.timed = true ∧ s.clk.tick ≤ c.num 56 8 then some (c.num 56 8) else none })] ∧
        Tab.find? (t.hw.fn f).cmds seq = some { c with disp := true, left := 1 } ∧
        Planned t .blockPlacement { Occasion.none with unit := s.hw.partOf f })) ∧
  (∀ s f seq c, Dispatches s f seq c 2 → (s.hw.fn f).bind.bound = true →
    (∀ st, s.hw.lookup (env s) f true false (c.num 16 2 % 4096) c.descs = .bad st →
      ∃ t, exec .taskCommand s = .next t ∧ Ended s t f seq c st 0 false ∧ WordOnly s t c) ∧
    (∀ r i keys, s.hw.lookup (env s) f true false (c.num 16 2 % 4096) c.descs = .noMethod r i keys →
      ((s.hw.partFor f).rings = [] → ∃ t, exec .taskCommand s = .next t ∧ Ended s t f seq c 8 0 false ∧ WordOnly s t c) ∧
      (∀ k p, (s.hw.partFor f).rings ≠ [] → p = s.hw.partOf f →
        ((List.range 64).find? fun k => !(s.hw.part p).slots.contains k) = some k →
        ∃ t, exec .taskCommand s = .next t ∧ Overwritten s t (recordSlot p k) (handlerRecord c seq r keys) ∧ t.clk = s.clk ∧
          t.hw.part p = { s.hw.part p with
            pnometh := ((s.hw.part p).pnometh + 1) % 2 ^ 32, slots := k :: (s.hw.part p).slots
            tasks := (s.hw.part p).tasks ++ [⟨f, seq, k, noMethodO r i⟩] } ∧
          Tab.find? (t.hw.fn f).cmds seq = some { c with disp := true, nomSlot := none })) ∧
    (∀ i m ops ss n, s.hw.lookup (env s) f true false (c.num 16 2 % 4096) c.descs = .entry i m ops ss →
      n = (ss.filter (·.isSome)).length → ∃ t g, exec .taskCommand s = .next t ∧ t.mem = s.mem ∧ t.clk = s.clk ∧
        t.hw.warps = s.hw.warps ∧ t.hw.grids.take s.hw.grids.length = s.hw.grids ∧
        t.hw.grids.length = s.hw.grids.length + n + 1 ∧ t.hw.grids.getLast? = some (s.hw.nextId + n, g) ∧
        g.kind = .routine ∧ g.fn = f ∧ g.seq = seq ∧ g.waits.length = n ∧ g.task = BitVec.ofNat 32 (i + 4096 * n) ∧
        g.shape = { m.shape with gx := g.shape.gx } ∧
        g.descs = ((ops.zip ss).map fun x => if x.2.isSome then x.1.desc + 64#64 else x.1.desc) ∧
        (n = 0 → ∀ x ∈ g.outs, x.2 = m.outtag ∧ (paKind (4096 * x.1) = .hbm → tagSt (t.hw.tag (4096 * x.1)) = 2)) ∧
        Tab.find? (t.hw.fn f).cmds seq = some { c with disp := true, left := 1 + n })) ∧
  (∀ s f seq c, Dispatches s f seq c 3 →
    (∀ st, s.hw.shapeStatus f c = st → st ≠ 0 →
      ∃ t, exec .gslaunchCommand s = .next t ∧ Ended s t f seq c st 0 false ∧ WordOnly s t c) ∧
    (∀ sh ck ex l, s.hw.shapeStatus f c = 0 → c.recs.map Shape.ofLaunch = [sh, ck, ex] →
      l = c.tileList → ∃ t, exec .gslaunchCommand s = .next t ∧ t.mem = s.mem ∧ t.clk = s.clk ∧
        t.hw.grids = s.hw.grids ++ [(s.hw.nextId, { Grid.plain .units f seq (BitVec.ofNat 64 seq) sh with cons := some ck })] ∧
        Tab.find? (t.hw.fn f).cmds seq = some { c with disp := true, left := 1 } ∧
        ∀ j x, l[j]? = some x → ∃ u, Tab.find? t.hw.units (s.hw.nextId + 1 + j) = some u ∧ u.fn = f ∧ u.seq = seq ∧ u.idx = j ∧
          u.grid = s.hw.nextId ∧ u.exact = ex ∧ u.base = x.base.toNat ∧ u.nt = x.nt ∧ u.outtag = x.outtag ∧ u.outcome = 0)) ∧
  (∀ s f seq c n src dst, Dispatches s f seq c 4 → src = c.addr 16 → dst = c.addr 24 → n = c.num 32 8 → AtRest s →
    (∃ r, r < 20 ∧ (s.hw.partFor f).owns.eng.getLsbD (2 * r) = true) →
    (∃ t st, exec .queueCopy s = .next t ∧ Ended s t f seq c st 0 false ∧ (st = 0 ∨ st = 9) ∧ t.clk = s.clk ∧ WarpsCalm s t) ∧
    (∀ pd l ss, 0 < n → dst.toNat % 128 + n ≤ 128 → s.hw.poison = [] → c.caddr = 0#64 →
      s.hw.devAt (env s) f true true dst n = some (pd, l) → s.hw.devRange (env s) f true false src n = some ss →
      ∃ t, exec .queueCopy s = .next t ∧ Ended s t f seq c 0 0 false ∧
        Overwritten s t pd (ss.flatMap fun x => (List.range x.2).map fun j => s.byte (x.1 + j)))) ∧
  (∀ s f seq c pa, Dispatches s f seq c 5 → s.hw.wordPlace (env s) f c true = some (pa, false) →
    ∃ t, exec .writeval s = .next t ∧ Ended s t f seq c 0 0 false ∧ t.clk = s.clk ∧ WarpsCalm s t ∧
      (c.caddr = 0#64 → Overwritten s t pa (natLe c.wordSize (c.num 24 8)))) ∧
  (∀ s f seq c pa, Dispatches s f seq c 6 → s.hw.wordPlace (env s) f c false = some (pa, false) →
    (c.holds (numberAt s pa c.wordSize) = true → ∃ t, exec .waitval s = .next t ∧ Ended s t f seq c 0 0 false ∧ WordOnly s t c) ∧
    (c.waitAt = none → c.holds (numberAt s pa c.wordSize) = false → ∃ t, exec .waitval s = .next t ∧ t.mem = s.mem ∧ t.clk = s.clk ∧
      Tab.find? (t.hw.fn f).cmds seq = some { c with disp := true, waitAt := some s.clk.tick } ∧
      Planned t .waitval { Occasion.none with unit := f, id := seq })) ∧
  (∀ s f seq c n, s.Inv → f = s.hw.occ.unit → seq = s.hw.occ.id → Tab.find? (s.hw.fn f).cmds seq = some c → c.waitAt = some n →
    c.opc = 6 → c.num 36 4 ≠ 0 → n + 1000 * c.num 36 4 ≤ s.clk.tick →
    ∃ t, exec .waitvalTimeout s = .next t ∧ Ended s t f seq c 7 0 false ∧ WordOnly s t c) ∧
  (∀ s p x l w, s.Inv → p = s.hw.occ.unit → s.hw.occ.flag = false → (s.hw.part p).serving = none →
    (s.hw.part p).imask.getLsbD 1 = false → (s.hw.part p).live = true → (s.hw.part p).tasks = x :: l →
    (s.hw.part p).phvec ≠ 0#64 → s.hw.warp? (wkOf (handlerFn p) handlerSlot 0) = some w →
    ∃ t v, exec .handlerTaskEntry s = .next t ∧ t.mem = s.mem ∧ t.clk = s.clk ∧
      t.hw.part p = { s.hw.part p with serving := some x, tasks := l } ∧ t.hw.warp? (wkOf (handlerFn p) handlerSlot 0) = some v ∧
      v.mode = .handler ∧ stands v.p0 = ((s.hw.part p).phvec, allMask w.k, [], 0) ∧ v.p0.live = true ∧ v.p1.live = false ∧
      v.trapc = 0x0C#64 ∧ v.trapa = BitVec.ofNat 64 (recordSlot p x.slot) ∧ v.trapo = x.trapo ∧
      v.vregs = w.vregs ∧ v.uregs = w.uregs ∧ v.preds = w.preds ∧
      ∀ k, k ≠ wkOf (handlerFn p) handlerSlot 0 → t.hw.warp? k = s.hw.warp? k)

/-- O51. Each of these events answers a next state. A commit that fails a check only sets its code; one that passes applies the staged ownership, raw-tags the tiles of new channels, and makes or removes the handler warp. Quiescence, bindings, windows and translation roots change what they name: a bound function is active with its counters and records at their start and its partition's channels awake, an unbound one keeps no command, block or warp, and a window write checks every queue. A slice's end halts its function: its loads and iterative passes are replay packets and its packed placements are undone. A drained halt ends it, with its blocks' frontier areas in memory; a restore starts the next turn and pays its credit. A collapse goes step by step: what its class writes back, spills and invalidates, and its end; a wake stops it, gives the translations back, releases the queues and sets WOKEN. -/
def Obligations.TenancyAndTurns : Prop :=
  (∀ s p, s.Inv → p = s.hw.occ.unit % 64 → s.hw.commitCode p ≠ 0 →
    Turns .pctlCommit s (s.hw.onPart p fun q => { q with err := s.hw.commitCode p })) ∧
  (∀ s p q new, s.Inv → p = s.hw.occ.unit % 64 → q = s.hw.part p → new = q.staged.chans &&& ~~~q.tagged → s.hw.commitCode p = 0 →
    q.en = true → ∃ t, exec .pctlCommit s = .next t ∧ t.mem = s.mem ∧ t.clk = s.clk ∧
      t.hw.part p = { q with err := 0, live := true, owns := q.staged, imask := 0#2, tagged := q.tagged ||| q.staged.chans } ∧
      (∀ r, r ≠ p → t.hw.part r = { s.hw.part r with tagged := (s.hw.part r).tagged &&& ~~~new }) ∧
      (∀ k, Tab.find? t.hw.tags k = if new.getLsbD (chanOf (4096 * k)) then none else Tab.find? s.hw.tags k) ∧
      (q.staged.rings ≠ 0#20 →
        ∃ w, t.hw.warp? (wkOf (handlerFn p) handlerSlot 0) = some w ∧ w.mode = .handler ∧ w.p0.live = false ∧ w.p1.live = false)) ∧
  (∀ s p q, s.Inv → p = s.hw.occ.unit % 64 → q = s.hw.part p → s.hw.commitCode p = 0 → q.en = false →
    ∃ t, exec .pctlCommit s = .next t ∧ t.mem = s.mem ∧ t.clk = s.clk ∧
      t.hw.part p = { q with err := 0, live := false, owns := Owns.none, running := none, halting := false } ∧
      (∀ r, r ≠ p → t.hw.part r = s.hw.part r) ∧ t.hw.warp? (wkOf (handlerFn p) handlerSlot 0) = none) ∧
  (∀ s, s.Inv → Turns .pctlQuiesce s (s.hw.onPart (s.hw.occ.unit % 64) fun q => { q with quiescing := true })) ∧
  (∀ s p, s.Inv → p = s.hw.occ.unit → (s.hw.part p).quiescing = true → (s.hw.part p).quiet = false → s.hw.partIdle p = true →
    ∃ t, exec .quiesceComplete s = .next t ∧ t.clk = s.clk ∧ t.hw.warps = s.hw.warps ∧ (t.hw.part p).quiet = true ∧
      (∀ k c n, (s.hw.part p).owns.rings.getLsbD (ringOf k) = true → n < 2 ^ 45 → (t.hw.l1 k c n).dirty = 0#128) ∧
      (∀ x ∈ t.hw.l2, (s.hw.part p).owns.slices.getLsbD x.slice = true → x.dirty = false) ∧
      ∀ x, t.byte x = s.byte x ∨ ∃ k c, (s.hw.part p).owns.rings.getLsbD (ringOf k) = true ∧
        (s.hw.l1 k c (lineOf x)).dirty.getLsbD (x % 128) = true) ∧
  (∀ s p, s.Inv → p = s.hw.occ.unit % 64 → ∃ t, exec .pctlResume s = .next t ∧ t.mem = s.mem ∧ t.clk = s.clk ∧
    t.hw = { (s.hw.onPart p fun q => { q with quiescing := false, quiet := false }) with agenda := t.hw.agenda } ∧
    ∀ f q, q < 16 → f ≤ 256 → Tab.rising s.hw.fns = true → (s.hw.fn f).bind.bound = true → (s.hw.fn f).bind.part = p →
      s.hw.boot.ready = true → (s.hw.fn f).wake.state = .active → (s.hw.sq f q).en = true → (s.hw.sq f q).err = false →
      (s.hw.sq f q).rd ≠ (s.hw.sq f q).wr → Planned t .commandFetch { Occasion.none with unit := f, id := q }) ∧
  (∀ s f w b code, s.Inv → f = s.hw.occ.unit → 1 ≤ f → f ≤ 256 → w = s.hw.occ.val.setWidth 32 → w.getLsbD 0 = true →
    (s.hw.fn f).bind.en = false → (s.hw.fn f).bind.bound = false →
    b = { (s.hw.fn f).bind with en := true, part := (w.extractLsb' 1 6).toNat, wclass := (w.extractLsb' 7 2).toNat
                                slice := (w.extractLsb' 16 16).toNat } →
    code = s.hw.bindCode f b.part b.wclass b.slice →
    (code ≠ 0 → Turns .vbBind s (s.hw.onFn f fun x => { x with bind := { b with err := code } })) ∧
    (code = 0 → ∃ t, exec .vbBind s = .next t ∧ t.mem = s.mem ∧ t.clk = s.clk ∧
      t.hw = { s.hw with fns := t.hw.fns, recs := t.hw.recs, fcores := t.hw.fcores, chans := t.hw.chans, tried := t.hw.tried } ∧
      (∀ g, g ≠ f → t.hw.fn g = s.hw.fn g) ∧ (t.hw.fn f = { s.hw.fn f with
        bind := { b with bound := true, err := 0 }, race := { (s.hw.fn f).race with ctr := [], gen := [], order := [], retired := none }
        wake := { (s.hw.fn f).wake with state := .active, since := s.clk.tick, spill := [] }, ctrs := (t.hw.fn f).ctrs }) ∧
      (∀ k x, Tab.find? t.hw.recs k = some x → x.fn ≠ f) ∧ (∀ c, c < 256 → (t.hw.fcore f c).recs = []) ∧
      ∀ c, c < 384 → (s.hw.part b.part).owns.chans.getLsbD c = true → (Tab.getD t.hw.chans c (.active, 0)).1 = .active)) ∧
  (∀ i s f, ((i = Instr.vbUnbind ∧ f = s.hw.occ.unit ∧ 1 ≤ f ∧ f ≤ 256 ∧ (s.hw.fn f).bind.en = true) ∨
      (i = .pfbindEn ∧ f = 0 ∧ s.hw.occ.val.getLsbD 0 = false)) → s.Inv → (s.hw.fn f).bind.bound = true →
    ∃ t, exec i s = .next t ∧ t.clk = s.clk ∧ (t.hw.fn f).bind = { (s.hw.fn f).bind with en := false, bound := false } ∧
      (∀ n, Tab.find? (t.hw.fn f).cmds n = none) ∧
      (∀ k, t.hw.block? k = if bkFn k = f then none else s.hw.block? k) ∧
      ∀ k, (t.hw.warp? k).map calmWarp = if wkFn k = f then none else (s.hw.warp? k).map calmWarp) ∧
  (∀ s f, s.Inv → f = s.hw.occ.unit → 1 ≤ f → f ≤ 256 → (s.hw.fn f).bind.en = true → (s.hw.fn f).bind.bound = false →
    Turns .vbUnbind s (s.hw.onFn f fun x => { x with bind := { x.bind with en := false } })) ∧
  (∀ s f w b, s.Inv → f = s.hw.occ.unit → 1 ≤ f → f ≤ 256 → w = s.hw.occ.val.setWidth 32 → w.getLsbD 0 = true →
    b = (s.hw.fn f).bind → b.bound = true →
    Turns .vbFieldWrite s (if b.part = (w.extractLsb' 1 6).toNat ∧ b.wclass = (w.extractLsb' 7 2).toNat ∧
      b.slice = (w.extractLsb' 16 16).toNat then s.hw else s.hw.onFn f fun x => { x with bind := { x.bind with err := 4 } })) ∧
  (∀ s f v h, s.Inv → f = s.hw.occ.unit → 1 ≤ f → f ≤ 256 → v = s.hw.occ.val.setWidth 64 &&& 0xFFFFFFFFFFFFF000#64 →
    h = (s.hw.onFn f fun x => { x with bind := if s.hw.occ.flag then { x.bind with winhi := v } else { x.bind with winlo := v } }) →
    ∃ t, exec .vbWindowWrite s = .next t ∧ t.mem = s.mem ∧ t.clk = s.clk ∧
      (t.hw.fn f).bind = (h.fn f).bind ∧ ∀ q, q < 16 → t.hw.sq f q =
        if (s.hw.sq f q).en = true ∧ (s.hw.sq f q).err = false ∧ h.queueCode f (s.hw.sq f q) ≠ 0 then
          { s.hw.sq f q with err := true, code := h.queueCode f (s.hw.sq f q) } else s.hw.sq f q) ∧
  (∀ s w b part slice, s.Inv → w = s.hw.occ.val.setWidth 32 → b = (s.hw.fn 0).bind → b.bound = false →
    part = (w.extractLsb' 1 6).toNat → slice = (w.extractLsb' 16 16).toNat →
    (w.getLsbD 0 = false → Turns .pfbindEn s (s.hw.onFn 0 fun x => { x with bind := { b with part := part, slice := slice } })) ∧
    (w.getLsbD 0 = true → ((s.hw.part part).live = false ∨ slice < 100) → Turns .pfbindEn s s.hw) ∧
    (w.getLsbD 0 = true → (s.hw.part part).live = true → 100 ≤ slice → ∃ t, exec .pfbindEn s = .next t ∧ t.mem = s.mem ∧ t.clk = s.clk ∧
      t.hw = { s.hw with fns := t.hw.fns, chans := t.hw.chans, tried := t.hw.tried } ∧ (∀ g, g ≠ 0 → t.hw.fn g = s.hw.fn g) ∧
      (t.hw.fn 0 = { s.hw.fn 0 with
        bind := { b with en := true, bound := true, err := 0, part := part, slice := slice, wclass := 0 }
        wake := { (s.hw.fn 0).wake with state := .active, since := s.clk.tick, spill := [] }, ctrs := (t.hw.fn 0).ctrs }) ∧
      ∀ c, c < 384 → (s.hw.part part).owns.chans.getLsbD c = true → (Tab.getD t.hw.chans c (.active, 0)).1 = .active)) ∧
  (∀ s c, s.Inv → c = s.hw.occ.unit → 1 ≤ c → c ≤ 383 → ∃ t m, exec .trRootWrite s = .next t ∧ t.mem = s.mem ∧ t.clk = s.clk ∧
    t.hw.warps = s.hw.warps ∧ Tab.find? t.hw.roots c = some (s.hw.occ.val.setWidth 64 &&& 0x000FFFFFFFFF0001#64, m) ∧
    (∀ d, d ≠ c → Tab.find? t.hw.roots d = Tab.find? s.hw.roots d) ∧
    (∀ k, (t.hw.core k).tlb = (s.hw.core k).tlb.filter fun y => y.ctx != c) ∧
    (∀ d, Tab.getD t.hw.dieTlb d [] = (Tab.getD s.hw.dieTlb d []).filter fun y => y.ctx != c) ∧
    ∀ f, ∀ y ∈ (t.hw.fn f).wake.spill, y.2.ctx ≠ c) ∧
  (∀ s p f, s.Inv → p = s.hw.occ.unit → (s.hw.part p).running = some f → (s.hw.part p).halting = false →
    s.hw.sliceOver (env s) p f = true → Tab.rising s.hw.warps = true →
    ∃ t, exec .sliceEnd s = .next t ∧ t.mem = s.mem ∧ t.clk = s.clk ∧ (t.hw.part p) = { s.hw.part p with halting := true } ∧
      t.hw.cmds = s.hw.cmds ∧ (∀ c, c < 160 → (t.hw.fcore f c).latchA = none ∧ (t.hw.fcore f c).latchB = none) ∧
      (∀ k w, s.hw.warp? k = some w → ∃ v, t.hw.warp? k = some v ∧ v.vregs = w.vregs ∧ v.uregs = w.uregs ∧ v.preds = w.preds ∧
        v.p0 = { w.p0 with packed := v.p0.packed } ∧ v.p1 = { w.p1 with packed := v.p1.packed } ∧ v.stopped = w.stopped ∧
        v.progressAt = w.progressAt ∧ ((wkFn k ≠ f ∨ w.done = true ∨ w.stopped = true) → v = w) ∧
        (wkFn k = f → w.done = false → w.stopped = false → v.p0.packed = false ∧ v.p1.packed = false)) ∧
      ∀ id x w, Tab.find? s.hw.flights id = some x → s.hw.warp? x.wk = some w → wkFn x.wk = f → w.done = false → w.stopped = false →
        x.kind ≠ .atomic → x.kind ≠ .late → ∃ y, Tab.find? t.hw.flights id = some y ∧ y.replay = true) ∧
  (∀ s p f, s.Inv → p = s.hw.occ.unit → (s.hw.part p).running = some f → (s.hw.part p).halting = true → s.hw.drained f = true →
    ∃ t, exec .haltComplete s = .next t ∧ t.clk = s.clk ∧
      t.hw = (s.hw.onPart p fun q => { q with running := none, halting := false }) ∧
      ((s.hw.fn f).race.frbase = 0#64 → (s.hw.fn f).race.rrbase = 0#64 → (s.hw.part p).pmosize < 16 → t.mem = s.mem) ∧
      ((s.hw.fn f).race.rrbase = 0#64 → (s.hw.part p).pmosize < 16 → (s.hw.fn f).race.frbase ≠ 0#64 → Tab.rising s.hw.blocks = true →
        ∀ k b, s.hw.block? k = some b → bkFn k = f → let a := (s.hw.fn f).race.frbase.toNat + 16384 * bkSlot k
          numberAt t (a + 7688) 4 = b.st % 2 ^ 24 ∧ numberAt t (a + 7692) 4 = b.c % 2 ^ 24 ∧
          ∀ n, n < 2560 → numberAt t (a + 3 * n) 3 = Tab.getD b.front n 0 % 2 ^ 24)) ∧
  (∀ s p f due, s.Inv → p = s.hw.occ.unit → (s.hw.part p).live = true → (s.hw.part p).running = none → s.hw.trip = false →
    due = (s.hw.part p).saved.filter s.hw.hasWork → due.or (s.hw.nextTurn p (s.hw.part p).turn) = some f → Tab.rising s.hw.warps = true →
    ∃ t, exec .worldSwitchRestore s = .next t ∧ t.clk = s.clk ∧
      (∀ x, t.byte x = s.byte x ∨ ∃ k c, (s.hw.l1 k c (lineOf x)).dirty.getLsbD (x % 128) = true) ∧
      t.hw.part p = { s.hw.part p with
        running := some f, saved := none, sliceAt := s.clk.tick, sliceCycle := s.clk.cycle, bonus := (s.hw.fn f).wake.credit / 2500
        turn := if due.isSome then (s.hw.part p).turn else f } ∧
      (t.hw.fn f).wake = { (s.hw.fn f).wake with
        credit := 0, earned := [], paid := ((s.hw.fn f).wake.paid + (s.hw.fn f).wake.credit) % 2 ^ 48 } ∧
      ∀ k w, s.hw.warp? k = some w → ∃ v, t.hw.warp? k = some v ∧ v.vregs = w.vregs ∧ v.uregs = w.uregs ∧ v.preds = w.preds ∧
        v.p0.pc = w.p0.pc ∧ v.p1.pc = w.p1.pc ∧ v.stopped = w.stopped ∧ ((wkFn k ≠ f ∨ w.done = true ∨ w.stopped = true) → v = w)) ∧
  (∀ i s f, ((i = Instr.idleCollapse ∧ s.hw.occ.aux = 0 ∧ s.hw.idleDue (env s) f = true) ∨ (i = .colctlNow ∧ s.hw.collapsible f = true)) →
    s.Inv → f = s.hw.occ.unit → Turns i s ((s.hw.onFn f fun x => { x with wake := { x.wake with state := .collapsing } }).plan .idleCollapse
      { Occasion.none with unit := f, aux := 1 })) ∧
  (∀ s f n c, s.Inv → f = s.hw.occ.unit → n = s.hw.occ.aux → 0 < n → c = (s.hw.fn f).bind.wclass →
    ((s.hw.fn f).wake.state ≠ .collapsing → Turns .idleCollapse s s.hw) ∧
    ((s.hw.fn f).wake.state = .collapsing → ∃ t, exec .idleCollapse s = .next t ∧ t.clk = s.clk ∧ t.hw.warps = s.hw.warps ∧
      t.hw.tags = s.hw.tags ∧ t.hw.recs = s.hw.recs ∧
      (c ≠ 0 → n < 4 → Planned t .idleCollapse { Occasion.none with unit := f, aux := n + 1 } ∧ (t.hw.fn f).wake.state = .collapsing) ∧
      (c ≠ 0 → n = 1 → (∀ k m, m < 2 ^ 45 → (t.hw.l1 k (ctxOf f) m).dirty = 0#128) ∧
        (∀ x ∈ t.hw.l2, x.ctx = ctxOf f → x.dirty = false) ∧
        ∀ x, t.byte x = s.byte x ∨ ∃ k, (s.hw.l1 k (ctxOf f) (lineOf x)).dirty.getLsbD (x % 128) = true) ∧
      (c ≠ 0 → n = 2 → t.mem = s.mem ∧ (∀ k, ∀ y ∈ (t.hw.core k).tlb, y.ctx ≠ ctxOf f) ∧
        (∀ d, ∀ y ∈ Tab.getD t.hw.dieTlb d [], y.ctx ≠ ctxOf f) ∧ ∀ y ∈ (t.hw.fn f).wake.spill, y.2.ctx = ctxOf f) ∧
      (c ≠ 0 → n = 3 → t.mem = s.mem ∧ (∀ k m, m < 2 ^ 45 → t.hw.l1 k (ctxOf f) m = L1Line.empty) ∧ ∀ x ∈ t.hw.l2, x.ctx ≠ ctxOf f) ∧
      ((c = 0 ∨ 4 ≤ n) → t.mem = s.mem ∧ t.hw = { s.hw with fns := t.hw.fns, chans := t.hw.chans } ∧
        (t.hw.fn f).wake = { (s.hw.fn f).wake with state := .collapsed, count := ((s.hw.fn f).wake.count + 1) % 2 ^ 32 } ∧
        (c = 2 → t.hw.allDeep (s.hw.partOf f) = true → ∀ x, x < 384 →
          (s.hw.part (s.hw.partOf f)).owns.chans.getLsbD x = true → (Tab.getD t.hw.chans x (.active, 0)).1 = .selfRefresh)))) ∧
  (∀ i s, ((i = Instr.idleCollapse ∧ s.hw.occ.aux = 0 ∧ s.hw.idleDue (env s) s.hw.occ.unit = false) ∨
    (i = .colctlNow ∧ s.hw.collapsible s.hw.occ.unit = false)) → s.Inv → Turns i s s.hw) ∧
  (∀ s f, s.Inv → f = s.hw.occ.unit → 1 ≤ f → f ≤ 256 → ((s.hw.fn f).wake.state = .active ∨ (s.hw.fn f).wake.state = .waking) →
    Turns .wakeGo s s.hw) ∧
  (∀ s f, s.Inv → f = s.hw.occ.unit → 1 ≤ f → f ≤ 256 → ((s.hw.fn f).wake.state = .collapsed ∨ (s.hw.fn f).wake.state = .collapsing) →
    ∃ t, exec .wakeGo s = .next t ∧ t.mem = s.mem ∧ t.clk = s.clk ∧ t.hw = { (s.hw.onFn f fun x => { x with
      wake := { x.wake with state := .waking, cause := 1, since := s.clk.tick } }) with agenda := t.hw.agenda } ∧
      Planned t .wakeComplete { Occasion.none with unit := f }) ∧
  (∀ s f k, s.Inv → f = s.hw.occ.unit → k = (s.hw.fn f).wake → k.state = .waking →
    ∃ t, exec .wakeComplete s = .next t ∧ t.mem = s.mem ∧ t.clk = s.clk ∧ t.hw.warps = s.hw.warps ∧
      (t.hw.fn f).wake = { k with
        state := .active, ticks := (s.clk.tick - k.since) % 2 ^ 32, since := s.clk.tick, spill := [] } ∧
      (t.hw.fn f).intstat.getLsbD 6 = true ∧ (s.hw.occ.aux ≠ 1 → ∀ q, t.hw.sq f q = { s.hw.sq f q with held := false }) ∧
      (s.hw.occ.aux = 1 → ∀ q, (s.hw.sq f q).held = true → (s.hw.sq f q).err = false →
        t.hw.sq f q = { s.hw.sq f q with held := false, err := true, code := 6 }) ∧
      (s.hw.occ.flag = false → ∀ c y, (c, y) ∈ k.spill → c < 1000 → (s.hw.core c).bloom.length + 2 * k.spill.length ≤ 1024 →
        y ∈ (t.hw.core c).tlb))

/-- O52. Each of these events answers a next state (BLOCK_PLACEMENT, PLACEMENT_WAIT_LIMIT, RESOURCE_REPORT, BLOCK_FREE, DEPENDENCY_TASK_ISSUE, WATCHDOG_EXPIRY, UNIT_COMMIT, EXACT_KERNEL_END, ROUTINE_END). The distributor places the next block or cluster of the first waiting grid, after compacting where that is what makes room, each block with its generation, interval and warps at their entry; a grid that does not fit starts to wait and after 100 us holds later ones. A report returns what freed blocks held; a freed block is gone, its interval kept, its grid one block nearer its end. A ready table entry is issued for its warp, the watchdog stops a warp in its handler, a unit commits its bytes and tags or goes to its exact kernel, and a routine settles its tiles and its command. -/
def Obligations.PlacementAndEnds : Prop :=
  (∀ s p f gid g rest h l, s.Inv → p = s.hw.occ.unit → s.hw.placing p = some f → s.hw.waitingGrids f = (gid, g) :: rest →
    s.hw.grid? gid = some g → g.kind ≠ .units → s.hw.find f (s.hw.part (s.hw.partOf f)).rings g.shape g.cons = some (h, l) →
    (l.map fun x => 16 * x.core + x.slot).Nodup → (warpsOf g.shape g.cons).length ≤ 32 →
    ∃ t, exec .blockPlacement s = .next t ∧ t.clk = s.clk ∧
      t.hw.grid? gid = some { g with next := g.next + l.length, waitSince := none, limited := false } ∧
      (∀ k, wkBlock k ∉ l.map (fun x => bkOf f (16 * x.core + x.slot)) → t.hw.warp? k = h.warp? k) ∧
      (∀ x ∈ l, Planned t .resourceReport { Occasion.none with unit := f, id := x.core }) ∧
      ∀ j x slot, l[j]? = some x → slot = 16 * x.core + x.slot → ∃ b, t.hw.block? (bkOf f slot) = some b ∧ b.core = x.core ∧
        b.grid = gid ∧ b.lin = g.next + j ∧ b.shape = g.shape ∧ b.cons = g.cons ∧ b.spBase = 1024 * x.sp.1 ∧
        b.spBytes = 1024 * x.sp.2 ∧ b.st = Tab.getD (s.hw.fn f).race.ctr slot 0 + 1 ∧ b.c = b.st ∧
        b.gen = (Tab.getD (s.hw.fn f).race.gen slot 0 + 1) % 8 ∧ b.bars = [] ∧ b.ready = [] ∧ b.killed = false ∧
        ∀ i r, (warpsOf g.shape g.cons)[i]? = some r → ∃ w, t.hw.warp? (wkOf f slot i) = some w ∧ w.role = r.1 ∧ w.vallot = r.2 ∧
          w.mode = .user ∧ w.vregs = [] ∧ w.preds = [] ∧ w.done = false ∧ w.p1.live = false ∧ stands w.p0 =
            ((match g.cons with | some c => if r.1 then g.shape.entry else c.entry | none => g.shape.entry), allMask g.shape.k, [], 0)) ∧
  (∀ s p f gid g rest, s.Inv → p = s.hw.occ.unit → s.hw.placing p = some f → s.hw.waitingGrids f = (gid, g) :: rest →
    (∀ x ∈ (gid, g) :: rest, s.hw.placeOne (env s) x.1 x.2 = none) → g.waitSince = none →
    Turns .blockPlacement s (s.hw.onGrid gid fun g => { g with waitSince := some s.clk.tick })) ∧
  (∀ s p f gid g rest n, s.Inv → p = s.hw.occ.unit → s.hw.placing p = some f → s.hw.waitingGrids f = (gid, g) :: rest →
    g.waitSince = some n → n + 100000 ≤ s.clk.tick →
    Turns .placementWaitLimit s (s.hw.onGrid gid fun g => { g with limited := true })) ∧
  (∀ s f c, s.Inv → f = s.hw.occ.unit → c = s.hw.occ.id → ∃ t, exec .resourceReport s = .next t ∧ t.mem = s.mem ∧ t.clk = s.clk ∧
    t.hw = { s.hw with fcores := t.hw.fcores, agenda := t.hw.agenda } ∧
    t.hw.fcore f c = { s.hw.fcore f c with
      ghosts := [], report := (t.hw.view f c).report
      split := if (s.hw.blocks.any fun x => bkFn x.1 == f && x.2.core == c) then (s.hw.fcore f c).split else 128 } ∧
    ∀ g d, fcKey g d ≠ fcKey f c → t.hw.fcore g d = s.hw.fcore g d) ∧
  (∀ s f slot bk b g, s.Inv → f = s.hw.occ.unit → slot = s.hw.occ.id → bk = bkOf f slot → s.hw.block? bk = some b →
    s.hw.blockDone bk = true → (s.hw.cmds.any fun c => wkBlock c.2.wk == bk) = false → s.hw.grid? b.grid = some g → g.kind = .launch →
    ∃ t, exec .blockFree s = .next t ∧ t.clk = s.clk ∧ (∀ k, t.hw.block? k = if k = bk then none else s.hw.block? k) ∧
      (∀ k, (t.hw.warp? k).map calmWarp = if wkBlock k = bk then none else (s.hw.warp? k).map calmWarp) ∧
      Tab.getD (t.hw.fn f).race.ctr slot 0 = b.c ∧ Planned t .resourceReport { Occasion.none with unit := f, id := b.core } ∧
      let cause := if g.cause = 0 then b.cause else g.cause
      (g.freed + 1 < g.total → t.mem = s.mem ∧ t.hw.grid? b.grid = some { g with freed := g.freed + 1, cause := cause }) ∧
      (g.total ≤ g.freed + 1 → t.hw.grids = s.hw.grids.filter (fun x => x.1 != b.grid) ∧
        ∀ c, Tab.find? (s.hw.fn g.fn).cmds g.seq = some c → c.left ≤ 1 → let all := if c.cause = 0 then cause else c.cause
          Ended s t g.fn g.seq c (if all = 0 then 0 else 5) all false)) ∧
  (∀ s f core d b, s.Inv → f = s.hw.occ.unit → core = s.hw.occ.id →
    ((s.hw.fcore f core).deps.find? fun d => s.hw.depReady f core d && !(d.kind == 3 && s.hw.elemsOf d.wk)) = some d →
    s.hw.block? (wkBlock d.wk) = some b → b.core = core → wkFn d.wk = f → s.hw.wraps (wkBlock d.wk) 3 = false → AtRest s →
    (d.kind < 3 → (∀ k, depEngine d.kind = some k → s.hw.ownsEngine f core k = true) →
      ∃ t c, exec .dependencyTaskIssue s = .next t ∧ t.clk = s.clk ∧ Tab.find? t.hw.cmds s.hw.nextId = some c ∧ c.words = d.cmd ∧
        c.wk = d.wk ∧ c.rmode = d.rmode ∧ c.nbv = d.nbv ∧
        (t.hw.fcore f core).deps = (s.hw.fcore f core).deps.filter fun x => x.age != d.age) ∧
    (∀ k i x, 3 ≤ d.kind → s.hw.mayArrive (wkBlock d.wk) b ((d.cmd.headD 0#32) &&& 0x7FF#32) 0 = .ok (k, i, x) →
      ∃ t, exec .dependencyTaskIssue s = .next t ∧ t.clk = s.clk ∧ (barrierAt t k i).map face = some (afterArrival x none) ∧
        (t.hw.fcore f core).deps = (s.hw.fcore f core).deps.filter fun x => x.age != d.age)) ∧
  (∀ s k w b p, s.Inv → k = s.hw.occ.id → s.hw.warp? k = some w → s.hw.block? (wkBlock k) = some b →
    Hw.watchdogDue (env s) b w = true → s.hw.runs (wkFn k) = true → p = s.hw.part (s.hw.partOf (wkFn k)) → w.mode = .user →
    p.phvec ≠ 0#64 → p.imask.getLsbD 0 = false →
    ∃ t v, exec .watchdogExpiry s = .next t ∧ t.mem = s.mem ∧ t.clk = s.clk ∧
      t.hw = { s.hw with warps := t.hw.warps, flights := t.hw.flights, agenda := t.hw.agenda, tried := [] } ∧ (∀ n, n ≠ k → t.hw.warp? n = s.hw.warp? n) ∧
      t.hw.warp? k = some v ∧ v.mode = .handler ∧ v.trapc = 0x0B#64 ∧ v.trappc = (w.path w.looping).pc ∧
      v.frame = some ⟨{ w.p0 with later := 0#32 }, { w.p1 with later := 0#32 }, w.split, w.looping, (w.path w.looping).pc⟩ ∧ stands v.p0 = (p.phvec, w.remaining, [], 0) ∧
      v.trapo = BitVec.ofNat 64 (w.looping.toNat + 2 * w.split.isSome.toNat +
        2 ^ 32 * min (w.path w.looping).count 0xFFFFFFFF) ∧
      v.vregs = w.vregs ∧ v.uregs = w.uregs ∧ v.preds = w.preds) ∧
  (∀ s u g, s.Inv → u = s.hw.occ.unit → Tab.find? s.hw.units u = some g → g.outcome = 0 →
    (g.faulted = false → g.poisoned = false → g.sealed = true → g.verdict = true → s.hw.mergeConflict g = false → g.status = 0 →
      (g.gmem.any fun x => Tab.has s.hw.owners (lineOf x.1)) = false → Tab.rising g.gmem = true →
      (∃ v y, v ≠ u ∧ Tab.find? s.hw.units v = some y ∧ y.fn = g.fn ∧ y.seq = g.seq ∧ y.ended = false) →
      ∃ t, exec .unitCommit s = .next t ∧ t.clk = s.clk ∧ WarpsCalm s t ∧
        (∀ x, t.byte x = match Tab.find? g.gmem x with | some b => b | none => s.byte x) ∧
        Tab.find? t.hw.units u = some { g with outcome := 1, gmem := [], gmarks := [], ring := none, ended := true } ∧
        (∀ r, g.ring = some r → (t.hw.ring r).guard = (s.hw.ring r).guard - 4096 * g.nt) ∧
        ∀ k ∈ g.tiles, paKind (4096 * k) = .hbm → tagSt (s.hw.tag (4096 * k)) = 2 → t.hw.tag (4096 * k) = withSt g.outtag 0) ∧
    ((g.faulted = true ∨ g.poisoned = true ∨ g.sealed = false ∨ g.verdict = false ∨ s.hw.mergeConflict g = true) →
      ∃ t gid, exec .unitCommit s = .next t ∧ t.mem = s.mem ∧ t.clk = s.clk ∧ t.hw.warps = s.hw.warps ∧
        t.hw.grids = s.hw.grids ++ [(s.hw.nextId, { Grid.plain .exact g.fn g.seq gid g.exact with unit := some u })] ∧
        Tab.find? t.hw.units u = some { g with
          outcome := if g.faulted || g.poisoned then 5 else if g.sealed && g.verdict then 4 else 2
          gmem := [], gmarks := [], ring := none })) ∧
  (∀ s u g gid x, s.Inv → u = s.hw.occ.unit → Tab.find? s.hw.units u = some g →
    (s.hw.grids.find? fun (x : Nat × Grid) => x.2.kind == .exact && x.2.unit == some u) = some (gid, x) → x.total ≤ x.freed →
    g.status = 0 → (∃ v y, v ≠ u ∧ Tab.find? s.hw.units v = some y ∧ y.fn = g.fn ∧ y.seq = g.seq ∧ y.ended = false) →
    ∃ t, exec .exactKernelEnd s = .next t ∧ t.mem = s.mem ∧ t.clk = s.clk ∧ t.hw.warps = s.hw.warps ∧
      t.hw.grids = s.hw.grids.filter (fun y => y.1 != gid) ∧
      Tab.find? t.hw.units u = some { g with ecause := x.cause, ended := true } ∧
      ∀ k ∈ g.tiles, paKind (4096 * k) = .hbm → tagSt (s.hw.tag (4096 * k)) = 2 →
        t.hw.tag (4096 * k) = if x.cause = 0 then withSt g.outtag 0 else withSt (s.hw.tag (4096 * k)) 3) ∧
  (∀ s gid g, s.Inv → gid = s.hw.occ.unit → s.hw.grid? gid = some g → g.total ≤ g.freed → (g.outs.map (·.1)).Nodup →
    g.next_ ≠ some gid → ∃ t, exec .routineEnd s = .next t ∧ t.clk = s.clk ∧ WarpsCalm s t ∧ t.hw.grid? gid = none ∧
      (g.next_ = none → ∀ x ∈ g.outs, paKind (4096 * x.1) = .hbm → tagSt (s.hw.tag (4096 * x.1)) = 2 →
        t.hw.tag (4096 * x.1) = if g.cause = 0 then withSt x.2 0 else withSt (s.hw.tag (4096 * x.1)) 3) ∧
      (∀ n r, g.next_ = some n → s.hw.grid? n = some r → t.hw.grid? n = some { r with
        waits := r.waits.filter (· != gid), exitF := Tab.maxMerge r.exitF g.exitF }) ∧
      ∀ c, Tab.find? (s.hw.fn g.fn).cmds g.seq = some c → let all := if c.cause = 0 then g.cause else c.cause
        (c.left ≤ 1 → Ended s t g.fn g.seq c (if all = 0 then 0 else 5) all false) ∧
        (2 ≤ c.left → Tab.find? (t.hw.fn g.fn).cmds g.seq = some { c with left := c.left - 1, cause := all }))

/-- O53. Each of these events answers a next state (WRITE_BACK_MERGE, MIGRATION_START, MIGRATION_SWITCH, MIGRATION_END, REBASE_COMPLETE, PC_SAMPLE, TRACE_FORWARD). A write-back puts exactly a line's dirty bytes into memory and drops the line; of a line that an engine owns it waits. A migration sets MIG and the new home in every leaf entry of its page, switches its home once nothing owns the page, waits while an access that used the page is to be performed, and then closes the entries and drops the page's translations. A rebase sets its block's interval to 1, removes the slot's marks and forgets the slot in every frontier. A PC sample emits the sampled path's address; the I/O die forwards the oldest record of a buffer as TRCTL says, one record a tick, and a place so freed takes the DROP record of what was dropped before. -/
def Obligations.HomesAndObservation : Prop :=
  (∀ s core ctx line l, s.Inv → core = s.hw.occ.unit → ctx = s.hw.occ.aux → line = s.hw.occ.id → l = s.hw.l1 core ctx line →
    (l.dirty = 0#128 ∨ Tab.has s.hw.owners line = false) →
    ∃ t, exec .writeBackMerge s = .next t ∧ t.clk = s.clk ∧ t.hw.warps = s.hw.warps ∧ t.hw.l1 core ctx line = L1Line.empty ∧
      (∀ c k n, (c, l1Key k n) ≠ (core, l1Key ctx line) → t.hw.l1 c k n = s.hw.l1 c k n) ∧
      ∀ x, t.byte x = if ctx < 2 ^ 20 ∧ lineOf x = line ∧ l.dirty.getLsbD (x % 128) = true then Tab.getD l.bytes (x % 128) 0#8 else s.byte x) ∧
  (∀ s core ctx line, s.Inv → core = s.hw.occ.unit → ctx = s.hw.occ.aux → line = s.hw.occ.id →
    (s.hw.l1 core ctx line).dirty ≠ 0#128 → Tab.has s.hw.owners line = true →
    Turns .writeBackMerge s (s.hw.plan .writeBackMerge s.hw.occ)) ∧
  (∀ s slice c p root l entry a home n, s.Inv → slice = s.hw.occ.unit → c = s.hw.occ.id →
    p = s.hw.part (s.hw.ctxPart c) → Tab.find? s.hw.roots c = some (root, true) →
    ((Tab.getD s.hw.access slice []).find? fun x => x.ctx == c && x.page == s.hw.occ.val.toNat) = some a →
    walk (fun a => numberAt s a 8) p (s.hw.root c).1 a.page = .ok (l, entry) → a.page % 2 ^ Leaf.lg l = 0 →
    home = p.legalHome s.hw.occ.aux → n = a.cnt.getD s.hw.occ.aux 0 → Leaf.mig l = false → Tab.has s.hw.migs slice = false →
    home ≠ Leaf.homeAgent l → (home = 4 → paKind (Leaf.frame l) = .host) → 128 ≤ n → a.cnt.getD (Leaf.homeAgent l) 0 + 64 ≤ n →
    (∀ x ∈ leafEntries entry (Leaf.lg l), numberAt s x 8 = BitVec.toNat l) →
    ∃ t m, exec .migrationStart s = .next t ∧ t.clk = s.clk ∧ WarpsCalm s t ∧ Tab.find? t.hw.migs slice = some m ∧ m.ctx = c ∧
      m.base = a.page ∧ m.lg = Leaf.lg l ∧ m.old = l ∧ m.entry = entry ∧ m.switched = false ∧ m.shootDone = false ∧
      m.nhost = decide (home = 4) ∧ m.ndie = (if home = 4 then Leaf.hdie l else home) ∧
      (∀ x ∈ leafEntries entry (Leaf.lg l), numberAt t x 8 = BitVec.toNat (leafOpen l m.ndie m.nhost)) ∧
      Planned t .shootComplete { Occasion.none with unit := s.hw.ctxPart c, flag := true, aux := slice }) ∧
  (∀ s m, s.Inv → Tab.find? s.hw.migs s.hw.occ.unit = some m → s.hw.mayMove m = true →
    ∃ t, exec .migrationSwitch s = .next t ∧ t.mem = s.mem ∧ t.clk = s.clk ∧ WarpsCalm s t ∧
      Tab.find? t.hw.migs s.hw.occ.unit = some { m with switched := true } ∧
      t.hw = { s.hw with migs := t.hw.migs, l2 := t.hw.l2, warps := t.hw.warps, tried := [], agenda := t.hw.agenda } ∧
      (m.nhost = false → t.hw.l2 = s.hw.l2) ∧ Planned t .migrationEnd { Occasion.none with unit := s.hw.occ.unit }) ∧
  (∀ s m, s.Inv → Tab.find? s.hw.migs s.hw.occ.unit = some m → m.switched = true → s.hw.undrained m.ctx m.base (2 ^ m.lg) = true →
    Turns .migrationEnd s (s.hw.plan .migrationEnd s.hw.occ)) ∧
  (∀ s m was, s.Inv → Tab.find? s.hw.migs s.hw.occ.unit = some m → m.switched = true → s.hw.undrained m.ctx m.base (2 ^ m.lg) = false →
    was = leafOpen m.old m.ndie m.nhost → (∀ x ∈ leafEntries m.entry m.lg, numberAt s x 8 = BitVec.toNat was) →
    ∃ t, exec .migrationEnd s = .next t ∧ t.clk = s.clk ∧ WarpsCalm s t ∧ Tab.find? t.hw.migs s.hw.occ.unit = none ∧
      (∀ x ∈ leafEntries m.entry m.lg, numberAt t x 8 = BitVec.toNat (leafClose was m.ndie m.nhost)) ∧
      ∀ c, ∀ y ∈ (t.hw.core c).tlb, ¬(y.ctx = m.ctx ∧ y.base < m.base + 2 ^ m.lg ∧ m.base < y.base + 2 ^ y.lg)) ∧
  (∀ s f n b, s.Inv → f = s.hw.occ.unit → n = s.hw.occ.id → s.hw.block? (bkOf f n) = some b → b.rebasing = true → n < 4096 →
    Tab.rising s.hw.marks = true →
    ∃ t y, exec .rebaseComplete s = .next t ∧ t.mem = s.mem ∧ t.clk = s.clk ∧ t.hw.block? (bkOf f n) = some y ∧ y.c = 1 ∧
      y.st = 1 ∧ y.intra = [] ∧ y.rebasing = false ∧
      (∀ k z, t.hw.block? k = some z → bkFn k = f → Tab.find? z.front n = none) ∧
      (∀ w r, Tab.getD s.hw.mctx (w / 32) 0 = ctxOf f → (r ∈ (t.hw.marksAt (.mem w)).records ↔
        (r ∈ (s.hw.marksAt (.mem w)).records ∧ Mark.slot r ≠ n))) ∧
      ∀ k w, s.hw.warp? k = some w → ∃ v, t.hw.warp? k = some v ∧ v.vregs = w.vregs ∧ v.uregs = w.uregs ∧ v.preds = w.preds ∧
        v.p0 = w.p0 ∧ v.p1 = w.p1 ∧ v.mode = w.mode) ∧
  (∀ s core p q f, s.Inv → core = s.hw.occ.unit →
    List.find? (fun (x : Nat × Part) => x.2.live && x.2.owns.rings.getLsbD (ringOf core)) s.hw.parts = some (p, q) → q.running = some f →
    (s.hw.samples f = false → Turns .pcSample s s.hw) ∧
    (∀ last k w, s.hw.samples f = true → last = Tab.getD (s.hw.core core).samplePtr (s.hw.occ.id % 4) 99 →
      (((s.hw.slotWarps f core (s.hw.occ.id % 4)).find? fun x => decide (last < x.2.ctx)).or
        (s.hw.slotWarps f core (s.hw.occ.id % 4)).head?) = some (k, w) →
      (s.hw.core core).trace.recs.length < 16 →
      ∃ t r x, exec .pcSample s = .next t ∧ t.mem = s.mem ∧ t.clk = s.clk ∧
        t.hw = { s.hw with cores := t.hw.cores, agenda := t.hw.agenda } ∧
        (t.hw.core core).trace.recs = (s.hw.core core).trace.recs ++ [r] ∧ r.ty = 1 ∧ r.src = core ∧ r.ctx = ctxOf f ∧
        r.tick = localTick (env s) core ∧ r.pay.extractLsb' 0 64 = (w.path x).pc ∧
        (s.hw.occ.flag = false → s.hw.stallNow (env s) k w x < 32 →
          r.pay.extractLsb' 64 8 = BitVec.ofNat 8 (s.hw.stallNow (env s) k w x + 64 * x.toNat)) ∧
        (w.p0.live ≠ w.p1.live → (w.path x).live = true) ∧
        Tab.getD (t.hw.core core).samplePtr (s.hw.occ.id % 4) 99 = w.ctx)) ∧
  (∀ s src, s.Inv → src = s.hw.occ.unit → ((s.hw.traceBuf src).recs = [] → Turns .traceForward s s.hw) ∧
    (∀ r l, (s.hw.traceBuf src).recs = r :: l → s.hw.trace.last = some s.clk.tick →
      Turns .traceForward s (s.hw.plan .traceForward s.hw.occ)) ∧
    (∀ r l, (s.hw.traceBuf src).recs = r :: l → s.hw.trace.last ≠ some s.clk.tick →
      ∃ t, exec .traceForward s = .next t ∧ t.mem = s.mem ∧ t.clk = s.clk ∧ t.hw.warps = s.hw.warps ∧
        (t.hw.traceBuf src).drops = 0 ∧ (t.hw.traceBuf src).recs = l ++ (if (s.hw.traceBuf src).drops = 0 then []
          else [⟨0x08, r.src, r.ctx, localTick (env s) src, BitVec.ofNat 128 (s.hw.traceBuf src).drops⟩]) ∧ t.hw.trace.last = some s.clk.tick ∧
        t.hw.trace.port = (if s.hw.trace.ctl.getLsbD 1 then r :: s.hw.trace.port else s.hw.trace.port) ∧
        (s.hw.trace.ctl.getLsbD 2 = true → (s.hw.trace.ctl.getLsbD 3 = true ∨ s.hw.trace.wr < 2 ^ 29) →
          t.hw.trace.wr = s.hw.trace.wr + 32 ∧ Tab.find? t.hw.trace.carve (s.hw.trace.wr % 2 ^ 29 / 32) = some r) ∧
        (s.hw.trace.ctl.getLsbD 2 = true → s.hw.trace.ctl.getLsbD 3 = false → 2 ^ 29 ≤ s.hw.trace.wr →
          t.hw.trace.drop = (s.hw.trace.drop + 1) % 2 ^ 48 ∧ t.hw.trace.wr = s.hw.trace.wr)))

/-- O54. Each of the four array events (ARRAY_MMA, ARRAY_DRAIN, ARRAY_MZERO, ARRAY_MLOAD) answers a next state: where an access has to wait the command stands as it was and is planned again. Otherwise the first matrix command of its core is accepted in one step: it starts, its payload ends and its retirement is planned; other commands, other units and warps stay, and only DRAIN writes scratchpad. With a malformed word it fails with reason 1. Where it meets no failure, MMA adds to each element the exact scaled dot product of a row of A and a row of B, both read from scratchpad or from the latches, rounded once, in the follower too when paired; DRAIN writes the converted elements where R260 says; MZERO zeroes its units; MLOAD loads FP32 elements. REUSE fills the latches. -/
def Obligations.ArrayWork : Prop :=
  (∀ i s id c b, Starts s id c b → ((i = Instr.arrayMma ∧ 1 ≤ c.opc ∧ c.opc ≤ 4) ∨ (i = .arrayDrain ∧ c.opc = 5) ∨
      (i = .arrayMzero ∧ c.opc = 6) ∨ (i = .arrayMload ∧ c.opc = 7)) →
    (∃ t, exec i s = .next t ∧ (t = { s with hw := s.hw.plan i { Occasion.none with unit := id } } ∨
      ∃ d, ArrayFrame s t id c ∧ Moved t id c d)) ∧
    (AtRest s → ∃ t d, exec i s = .next t ∧ ArrayFrame s t id c ∧ Moved t id c d ∧
      (c.arrayBad = true → d.status = 1 ∧ ∀ f k, (t.hw.fcore f k).acc = (s.hw.fcore f k).acc ∧ (t.hw.fcore f k).spad = (s.hw.fcore f k).spad))) ∧
  (∀ s id c b, Starts s id c b → AtRest s → 1 ≤ c.opc → c.opc ≤ 4 → c.arrayBad = false → LatchesLocal s c b →
    (∀ k, Tab.rising (s.hw.fcore c.fn k).acc = true) →
    ∃ t d, exec .arrayMma s = .next t ∧ Tab.find? t.hw.cmds id = some d ∧
      (d.status ≠ 0 → ∀ f k, (t.hw.fcore f k).acc = (s.hw.fcore f k).acc) ∧
      (d.status = 0 → Multiplied s t c b c.core (operandFrag s c b 2) ∧
        (c.paired = true → Multiplied s t c b (c.core + 1)
          (groupBytes s c.fn (c.core + 1) (operandBase s c b 2) (Rec.of (operandBits s c b 2)) 0)) ∧
        (t.hw.fcore c.fn c.core).latchA = (if (latched s c b 2).isSome || (Rec.of (operandBits s c b 2)).reuse then
          some (b.spBase + (c.word 2).toNat, operandBase s c b 2, operandBits s c b 2) else none) ∧
        (t.hw.fcore c.fn c.core).latchB = if (latched s c b 3).isSome || (Rec.of (operandBits s c b 3)).reuse then
          some (b.spBase + (c.word 3).toNat, operandBase s c b 3, operandBits s c b 3) else none)) ∧
  (∀ s id c b r, Starts s id c b → AtRest s → c.opc = 5 → c.arrayBad = false →
    r = Rec.of (BitVec.ofNat 512 (scrNumber s c.fn c.core (b.spBase + (c.word 2).toNat) 64)) →
    (r.drainRanges (16 * c.steps)).Pairwise (fun x y => x.1 + x.2 ≤ y.1 ∨ y.1 + y.2 ≤ x.1) →
    ∃ t d, exec .arrayDrain s = .next t ∧ Tab.find? t.hw.cmds id = some d ∧
      (d.status = 0 → r.ts.toNat / 2 ^ 23 % 256 ≠ 0 ∧ r.ts.toNat / 2 ^ 23 % 256 ≠ 255 ∧ Drained s t c c.core b.spBase r ∧
        (c.paired = true → Drained s t c (c.core + 1) b.spBase r)) ∧
      ∀ f k o, k < 200 → scrByte t f k o = scrByte s f k o ∨ (f = c.fn ∧ (k = c.core ∨ (c.paired = true ∧ k = c.core + 1)) ∧
        ∃ x ∈ r.drainRanges (16 * c.steps), b.spBase + offsetOf r.base + x.1 ≤ o ∧ o < b.spBase + offsetOf r.base + x.1 + x.2)) ∧
  (∀ s id c b, Starts s id c b → AtRest s → c.opc = 6 → c.arrayBad = false →
    ∃ t d, exec .arrayMzero s = .next t ∧ Tab.find? t.hw.cmds id = some d ∧ d.status = 0 ∧
      ∀ k i j, (k = c.core ∨ (c.paired = true ∧ k = c.core + 1)) → i < 128 → j < 16 * c.steps → accAt t c.fn k c.unit i j = 0#32) ∧
  (∀ s id c b r, Starts s id c b → AtRest s → c.opc = 7 → c.arrayBad = false →
    r = Rec.of (BitVec.ofNat 512 (scrNumber s c.fn c.core (b.spBase + (c.word 2).toNat) 64)) →
    ∃ t d, exec .arrayMload s = .next t ∧ Tab.find? t.hw.cmds id = some d ∧
      (d.status ≠ 0 → (t.hw.fcore c.fn c.core).acc = (s.hw.fcore c.fn c.core).acc) ∧
      (d.status = 0 → ∀ i j, i < 128 → j < 16 * c.steps → accAt t c.fn c.core c.unit i j =
        BitVec.ofNat 32 (scrNumber s c.fn c.core (b.spBase + offsetOf r.base + i * Rec.dim r.str 0 + 4 * j) 4))) ∧
  (∀ (f : Frag) (r : Rec) ver i k, r.spar = 0 → i < 128 → k < 64 → ((f.rows r ver).getD i #[]).getD k 0 =
    let s := r.effFmt 0 - 0x10
    niValue ver s r.pread ((BitVec.ofNat r.pread (((List.range r.pread).map fun j =>
      if (f.planes.getD (1024 * j + 8 * i + k / 8) 0#8).getLsbD (k % 8) then 2 ^ (r.pread - 1 - j) else 0).sum)).toInt * 2 ^ (s - r.pread)))

/-- O55. Each event answers a next state (ENGINE_COPY, ENGINE_COPYO, ENGINE_GATHER, BYTE_CREDIT, ENGINE_SEND, ENGINE_RRED, ENGINE_RBCAST, PACKET_HOP, PACKET_EJECT, MATRIX_RETIRE, COPY_COMMAND_END, RING_COMMAND_END). A copy or gather that may start starts; a malformed one fails with its reason; one that meets no failure leaves in every destination byte the source byte or 0, and nothing else in memory or scratchpad changes. SEND and RBCAST put one packet per 256 bytes and destination on the ring; a packet crosses one link, or waits where it has no place or another goes first; its last stop writes its bytes. RRED joins, and its root writes the reduction in ascending stop order. A byte credit lowers its barrier's byte count. A command ends once its payload and credits are over: it leaves its queue and lines, and its token and failure reach its warp. -/
def Obligations.EngineWork : Prop :=
  Transfers .engineCopy 0x10 ∧ Transfers .engineCopyo 0x11 ∧ Transfers .engineGather 0x20 ∧
  (∀ s id c bk (n : Nat) l b x, s.Inv → id = s.hw.occ.unit → Tab.find? s.hw.cmds id = some c → c.credit = (bk, n) :: l →
    s.hw.block? bk = some b → c.barIdx < b.shape.bars → barrierAt s bk c.barIdx = some x →
    ∃ t y, exec .byteCredit s = .next t ∧ t.clk = s.clk ∧ (c.scope = .warp → t.mem = s.mem) ∧
      (∀ k, (t.hw.warp? k).map unblockedWarp = (s.hw.warp? k).map unblockedWarp) ∧
      Tab.find? t.hw.cmds id = some { c with credit := l } ∧ (∀ k, k ≠ id → Tab.find? t.hw.cmds k = Tab.find? s.hw.cmds k) ∧
      OtherBarriers s t bk c.barIdx ∧ barrierAt t bk c.barIdx = some y ∧
      face y = if x.init = true ∧ x.arr = x.exp ∧ x.bytes = (n : Int) then (true, x.exp, 0, (x.phase + 1) % 256, 0, false, x.cluster)
        else (x.init, x.exp, x.arr, x.phase, x.bytes - (n : Int), x.bcnt, x.cluster)) ∧
  EndsCommand .matrixRetire ∧ EndsCommand .copyCommandEnd ∧ EndsCommand .ringCommandEnd ∧
  (∀ i s id c b, Starts s id c b → ((i = Instr.engineSend ∧ c.opc = 0x21) ∨ (i = .engineRbcast ∧ c.opc = 0x23)) →
    AtRest s → c.packets = 0 → 2 ^ 20 > c.srcOff + c.len →
    ∃ t d, exec i s = .next t ∧ t.clk = s.clk ∧ WarpsCalm s t ∧ t.mem = s.mem ∧ Tab.find? t.hw.cmds id = some d ∧
      d.started = true ∧ d.words = c.words ∧ (∀ f k, (t.hw.fcore f k).spad = (s.hw.fcore f k).spad) ∧
      (c.ringBad = true → c.stampVa = 0#64 → d.status = 1 ∧ d.moved = true ∧ t.hw.packets = s.hw.packets) ∧
      (d.status = 0 → ∀ p, p ∈ c.destStops →
        Injected s t id c p (if c.opc = 0x21 then !(c.word 3).getLsbD 19 else decide ((p + 8 - stopOf c.core) % 8 ≤ 4)))) ∧
  (∀ s id c b, Starts s id c b → AtRest s → c.opc = 0x22 → c.packets = 0 → 2 ^ 20 > c.srcOff + c.len →
    ∃ t d, exec .engineRred s = .next t ∧ t.clk = s.clk ∧ WarpsCalm s t ∧ t.mem = s.mem ∧ Tab.find? t.hw.cmds id = some d ∧
      d.started = true ∧ d.words = c.words ∧
      (d.status = 0 → c.members.contains (stopOf c.core) = true →
        d.data = (List.range c.len).map fun x => scrByte s c.fn c.core (c.srcOff + x)) ∧
      (d.status = 0 → c.members.contains (stopOf c.core) = true → c.rootStop ≠ stopOf c.core →
        Injected s t id c c.rootStop (decide ((c.rootStop + 8 - stopOf c.core) % 8 ≤ 4)))) ∧
  (∀ op mode ver root data w, op < 4 → root < 8 → (∀ x ∈ data, x.2.length % 4 = 0 ∧ 4 * w + 4 ≤ x.2.length) →
    (∃ j, j < 8 ∧ (data.map (fun x => x.1)).contains j = true) → ∀ k, k < 4 →
    (combineAll op mode ver root data).getD (4 * w + k) 0#8 = BitVec.ofNat 8 ((reduced op mode ver root data w).toNat / 256 ^ k)) ∧
  (∀ s id p hold, s.Inv → id = s.hw.occ.unit → Tab.find? s.hw.packets id = some p → s.hw.placeNext id p = some hold →
    (∀ x ∈ s.hw.packets, x.1 ≠ id → x.2.ring = p.ring → x.2.dest ≠ x.2.at_ → s.hw.placeNext x.1 x.2 ≠ none →
      ¬(x.2.at_ = p.at_ ∧ x.2.up = p.up ∧ ranksBefore (x.2.rank (s.hw.grantsOf p)) (p.rank (s.hw.grantsOf p)) = true) ∧
      ¬(hold = .shared ∧ p.up = false ∧ x.2.up = true ∧ x.2.next = p.next ∧ s.hw.placeNext x.1 x.2 = some .shared)) →
    ∃ t, exec .packetHop s = .next t ∧ t.mem = s.mem ∧ t.clk = s.clk ∧
      t.hw = { s.hw with packets := t.hw.packets, rings := t.hw.rings, agenda := t.hw.agenda } ∧
      (∀ r, t.hw.ring r = { s.hw.ring r with grants := (t.hw.ring r).grants }) ∧
      (∀ k, k ≠ id → Tab.find? t.hw.packets k = Tab.find? s.hw.packets k) ∧
      Tab.find? t.hw.packets id = some { p with
        at_ := (p.at_ + (if p.up then 1 else 7)) % 8, hold := hold
        vc1 := p.vc1 || decide ((p.at_ + (if p.up then 1 else 7)) % 8 = 0) } ∧
      Planned t (if p.next = p.dest then .packetEject else .packetHop) { Occasion.none with unit := id }) ∧
  (∀ s id p, s.Inv → id = s.hw.occ.unit → Tab.find? s.hw.packets id = some p →
    (s.hw.placeNext id p = none ∨ ∃ hold, s.hw.placeNext id p = some hold ∧ s.hw.yields id p hold = true) →
    Turns .packetHop s (s.hw.plan .packetHop s.hw.occ)) ∧
  (∀ s id p c b, s.Inv → id = s.hw.occ.unit → Tab.find? s.hw.packets id = some p → p.at_ = p.dest →
    (∀ x ∈ s.hw.packets, x.1 < id → x.2.cmd = p.cmd → x.2.dest ≠ p.dest) → Tab.find? s.hw.cmds p.cmd = some c → c.opc ≠ 0x22 →
    AtRest s → c.status = 0 → s.hw.block? (wkBlock c.wk) = some b → b.core < 160 → p.dest < 8 → ringOf b.core = p.ring →
    p.off + p.bytes.length ≤ 2 ^ 20 →
    ∃ t d, exec .packetEject s = .next t ∧ t.clk = s.clk ∧ WarpsCalm s t ∧ t.mem = s.mem ∧ Tab.find? t.hw.packets id = none ∧
      (∀ k, k ≠ id → Tab.find? t.hw.packets k = Tab.find? s.hw.packets k) ∧ Tab.find? t.hw.cmds p.cmd = some d ∧
      d.packets = c.packets - 1 ∧ d.words = c.words ∧ (c.packets ≤ 1 → d.moved = true) ∧
      (d.status = 0 → ∀ k, k < p.bytes.length → scrByte t c.fn (8 * p.ring + p.dest) (p.off + k) = p.bytes.getD k 0#8) ∧
      (∀ f k o, k < 200 → ¬(f = c.fn ∧ k = 8 * p.ring + p.dest ∧ p.off ≤ o ∧ o < p.off + p.bytes.length) →
        scrByte t f k o = scrByte s f k o) ∧
      (d.status = 0 → c.bc = true → d.paid = c.paid + p.bytes.length))

/-- O56. Every instruction that has a word decodes back from that word, with every operand at every value its fields hold, and every word that decodes is the word of the instruction it decodes to: no bit of an encoding is dropped, no two words mean one instruction, and no two instructions share a word. Words whose reserved bits are set decode to nothing. -/
def Obligations.EncodeDecodeRoundTrip : Prop :=
  (∀ i w, encode? i = some w → decode w = .ok i) ∧ (∀ w i, decode w = .ok i → encode? i = some w)

/-- O57. Words that the spec writes out in its encoding tables, for every format and for the arithmetic, memory, control, engine and system families, decode to the instruction and the fields that stand beside them there. -/
def Obligations.WordsOfTheSpec : Prop :=
  decode 0x00143070#32 = .ok (.add false 5#7 6#7 7#7 false false) ∧
  decode 0x02044024#32 = .ok (.add true 1#7 8#7 2#7 false true) ∧
  decode 0x40482050#32 = .ok (.cmp false 2#4 2#3 4#7 5#7 false false) ∧
  decode 0x202047FF#32 = .ok (.addi 4#7 4#7 false 0x7FF#11) ∧
  decode 0x34183405#32 = .ok (.shi 3#7 3#7 false 2#2 5#5) ∧
  decode 0x90202312#32 = .ok (.ld 4#7 2#7 1#3 4#3 0b010010#6) ∧
  decode 0x9E10106C#32 = .ok (.atomAdd 7#3 4#7 2#7 6#7) ∧
  decode 0xC407FFFC#32 = .ok (.bra 0x7FFFC#19) ∧
  decode 0xC8D80002#32 = .ok (.brp true true 3#3 2#19) ∧
  decode 0xFCC00000#32 = .ok (.racew) ∧
  decode 0x94206518#32 = .ok (.st 4#7 6#7 2#3 4#3 0b011000#6) ∧
  decode 0x9046217E#32 = .ok (.ld 8#7 98#7 0#3 5#3 0x3E#6) ∧
  decode 0x980C5050#32 = .ok (.ldxW false 3#7 10#7 5#7 false false) ∧
  decode 0xA418107D#32 = .ok (.cas 3#3 6#7 2#7 7#7) ∧
  decode 0xA8001098#32 = .ok (.redAdd 2#3 2#7 9#7) ∧
  decode 0xB800000D#32 = .ok (.fenceRel 3#3) ∧
  decode 0xB0030002#32 = .ok (.barsync false 96#7 false) ∧
  decode 0xB1870623#32 = .ok (.barexp false 97#7 96#7 98#7 false false) ∧
  decode 0xBC10106E#32 = .ok (.swait 3#3 4#7 2#7 6#7) ∧
  decode 0xC0031801#32 = .ok (.cwait false 99#7 false) ∧
  decode 0x640C0823#32 = .ok (.ffma false 3#7 1#7 2#7 false false) ∧
  decode 0x6C142009#32 = .ok (.fsqrt false 5#7 4#7 true) ∧
  decode 0x781C4622#32 = .ok (.hfma2 false 7#7 8#7 98#7 false false) ∧
  decode 0x7C1040A2#32 = .ok (.dfma false 4#7 8#7 10#7 false false) ∧
  decode 0x84080800#32 = .ok (.cvtBfF false 2#7 1#7 false) ∧
  decode 0x8C100A52#32 = .ok (.sexp false 4#7 1#7 0x25#7 false) ∧
  decode 0x8C180850#32 = .ok (.niq false 6#7 1#7 5#7 false false) ∧
  decode 0xF0012340#32 = .ok (.enter 0#2 0x24#7 0x34#7) ∧
  decode 0xF4000050#32 = .ok (.trap 5#7) ∧
  decode 0xF4100001#32 = .ok (.srd 4#7 0#7) ∧
  decode 0xF4002013#32 = .ok (.win 4#5 1#2) ∧
  decode 0xF8180002#32 = .ok (.tick 6#7) ∧
  decode 0xEC080003#32 = .ok (.gchk 2#3) ∧
  decode 0xFC000000#32 = .ok (.eret) ∧
  decode 0xFC401800#32 = .ok (.shoot 96#7) ∧
  decode 0xFCD07A00#32 = .ok (.setmt 3#7 104#7) ∧
  decode 0xE0134700#32 = .ok (.copy 4#7 104#7 112#7) ∧
  decode 0xD9B376F2#32 = .ok (.mmaZ 108#7 110#7 111#7) ∧
  decode 0xDDB39000#32 = .ok (.drain 108#7 114#7) ∧
  decode 0x3C718004#32 = .ok (.lui 14#7 0x18004#19) ∧
  decode 0xFCB00380#32 = .ok (.dumpw 14#7) ∧
  decode 0x3888100A#32 = .ok (.cmpi 2#4 1#3 1#7 false 10#11) ∧
  decode 0xD0000004#32 = .ok (.jpt 4#19) ∧
  decode 0x5D801002#32 = .ok (.rdxAdd false 96#7 2#7 false) ∧
  decode 0x00000000#32 = .ok (.add false 0#7 0#7 0#7 false false)

/-- O58. Where a path is next, it owes no trap, no breakpoint stands at its pc, which translates for fetch to a line that is not poisoned and for which nothing makes it wait, and the four bytes at the place decode to an instruction, the step is exec of it at the state in which that path is the issuing one, the translation is cached and the rows that issue now are chosen, followed by the record of whom its slot served and the passing of time; bytes that decode to nothing raise ILLEGAL, TRAPC code 1, with nothing else changed. Where a step of the package is next, the step is exec of it at the state that holds its occasion, followed by the passing of time. Where nothing is next only time passes. Which of them is next is log 7, which rows issue now log 10. -/
def Obligations.StepRunsTheDecodedInstruction : Prop :=
  (∀ (s : State) (c : Cand) (h : Hw) q leaf pa, s.Inv → s.hw.next (env s) = .issue c h → Iss.of (h.take c) = some q → q.owedNow = none →
    (q.quiet = true ∨ q.p.resume ≠ 0#32 ∨ q.p.pushing.isSome = true ∨ q.w.breakAt q.p.pc = none) → isScr q.p.pc = false →
    (h.take c).walkHeld (env s) q.core (Iss.ctx (h.take c) q) (q.p.pc.toNat % 2 ^ 57) = false →
    (h.take c).translate (env s) q.core (Iss.ctx (h.take c) q) ⟨false, true, decide (q.w.mode = .handler), false⟩ q.p.pc = .ok (leaf, pa) →
    (h.take c).waitsOnWay (Iss.ctx (h.take c) q) (dieOf q.core) leaf pa = false →
    (h.take c).lineHeld ((h.take c).ticketOf q.p 18) (lineOf pa) = false → (h.take c).poison.contains (lineOf pa) = false →
    let word := wordOfBytes (s.byte pa) (s.byte (pa + 1)) (s.byte (pa + 2)) (s.byte (pa + 3))
    (∀ i, decode word = .ok i → step s = elapsed (served h c (exec i { s with
      hw := ((h.take c).fillTlb q.core (Iss.ctx (h.take c) q) q.p.pc leaf).withRows (env s) i }))) ∧
    (∀ r, decode word = .error r → ∃ u, step s = .next u.elapse ∧ (CanEnter q { s with hw := h.take c } →
      ∃ w, Enters q { s with hw := h.take c } u w 0x01#64 0#64 (pathNumber q)))) ∧
  (∀ (h : Hw) e i, h.withRows e i = { h with warps := (h.withRows e i).warps }) ∧
  (∀ old c (t : State), served old c (.next t) = .next { t with hw := t.hw.serve old c } ∧
    t.hw.serve old c = { t.hw with cores := (t.hw.serve old c).cores }) ∧
  (∀ (s : State) i o h, s.hw.next (env s) = .event i o h → step s = elapsed (exec i { s with hw := { h with occ := o, cur := none } })) ∧
  (∀ (s : State) (h : Hw), s.hw.next (env s) = .idle h → step s = .next (State.elapse { s with hw := h })) ∧
  (∀ (s : State) (c : Cand) (h : Hw), s.hw.next (env s) = .issue c h → (h.take c).cur = some ⟨c.wk, c.path⟩) ∧
  (∀ t : State, elapsed (.next t) = .next t.elapse) ∧
  (∀ t : State, t.elapse.clk.tick = t.clk.tick + Config.tickAdvance t.clk.step ∧ t.elapse.mem = t.mem ∧ t.elapse.hw.wq = [])

/-- O59. From every state whose memory is in its canonical form (addresses strictly rising, no entry equal to what an unlisted address reads as) and in which no byte waits to be written, every step that goes on leaves such a state: of every instruction, every step of the package, every trap, and the passing of time. -/
def Obligations.StepKeepsTheInvariant : Prop :=
  (∀ (s t : State), s.Inv → step s = .next t → t.Inv) ∧ (∀ i (s t : State), s.Inv → exec i s = .next t → t.Inv)

/-- O60. The state after reset meets the invariant; TICK is 0, the package is not ready and not fatal, tracing is off; every function has B2VA 0, B2SZ 20, no interrupt, JNEXT and JOLDEST 1, empty queues, an unbound entry with slice 1000, no fabric entry, idle collapse enabled at 1000 microseconds in state active, a sample period of 2^16, no race area and no counter; every partition is disabled with no resource and no table; every translation root is disabled. -/
def Obligations.ResetState : Prop :=
  let s := State.reset
  s.Inv ∧ s.clk.tick = 0 ∧ s.hw.boot.ready = false ∧ s.hw.fatal = false ∧ s.hw.trace.ctl = 0#4 ∧ s.hw.trace.wr = 0 ∧ s.hw.trace.drop = 0 ∧
  (∀ f, let x := s.hw.fn f
    x.b2va = 0#64 ∧ x.b2sz = 20 ∧ x.intstat = 0#8 ∧ x.inten = 0#8 ∧ x.jfull = false ∧ x.jnext = 1 ∧ x.jlost = 0 ∧
    x.bind.en = false ∧ x.bind.part = 0 ∧ x.bind.wclass = 0 ∧ x.bind.slice = 1000 ∧ x.bind.quota = 0 ∧ x.bind.winlo = 0#64 ∧
    x.bind.winhi = 0#64 ∧ x.bind.bound = false ∧ x.bind.err = 0 ∧
    x.fab.en = false ∧ x.fab.plen = 0 ∧ x.fab.ops = 0#8 ∧ x.fab.queue = 0 ∧ x.fab.src = 0#128 ∧ x.fab.key = 0#256 ∧ x.fab.last = 0 ∧ x.fab.drops = 0 ∧
    x.attest.go = false ∧ x.attest.stat = 0 ∧ x.attest.addr = 0#64 ∧ x.attest.nonce = 0#256 ∧ x.attest.cert = 0#64 ∧
    x.race.frbase = 0#64 ∧ x.race.rrbase = 0#64 ∧ x.race.rrcnt = 0 ∧ x.race.pcrec = false ∧ x.race.lost = 0 ∧
    x.wake.en = true ∧ x.wake.idle = 1000 ∧ x.wake.state = .active ∧ x.wake.cause = 0 ∧ x.wake.ticks = 0 ∧ x.wake.count = 0 ∧ x.wake.credit = 0 ∧ x.wake.paid = 0 ∧
    x.dbg.sampEn = false ∧ x.dbg.sampK = 16 ∧ x.dbg.stopReq = false ∧ x.dbg.stopAll = false ∧ x.dbg.slot = 0 ∧ x.dbg.warp = 0 ∧ x.dbg.opp = 0 ∧
    x.dbg.lock = false ∧ x.dbg.locks = [] ∧ x.dbg.broken = false ∧ x.dbg.bcause = 0 ∧ x.dbg.tren = 0#4 ∧ x.ctrs = []) ∧
  (∀ f q, s.hw.sq f q = ⟨0#64, 0, false, 0, 0, 0, false, false, 0, 0⟩) ∧
  (∀ p, let x := s.hw.part p
    x.en = false ∧ x.live = false ∧ x.quiet = false ∧ x.err = 0 ∧ x.staged = ⟨0#20, 0#40, 0#96, 0#384⟩ ∧ x.owns = ⟨0#20, 0#40, 0#96, 0#384⟩ ∧
    x.pmtbase = 0#64 ∧ x.pmtcnt = 0 ∧ x.pcvbase = 0#64 ∧ x.pcvcnt = 0 ∧ x.pnometh = 0 ∧ x.slots = [] ∧ x.phvec = 0#64 ∧
    x.pmobase = 0#64 ∧ x.pmosize = 0 ∧ x.pmolost = 0) ∧
  (∀ c, s.hw.root c = (0, false))

end
end

