-- ==== Sys2Proof/Laws/State.lean ====
section
/-! SUPPORT. Sys2Proof/Laws/State.lean: what each update of a part of the machine leaves alone, one lemma per field. -/
set_option Elab.async false
namespace Sys2Proof.Machine

/-! ### Hw.setFn changes only `fns` -/
section
variable (h : Hw) (f : Nat) (x : Fn)
@[simp] theorem Hw.setFn_boot : (h.setFn f x).boot = h.boot := rfl
@[simp] theorem Hw.setFn_links : (h.setFn f x).links = h.links := rfl
@[simp] theorem Hw.setFn_chans : (h.setFn f x).chans = h.chans := rfl
@[simp] theorem Hw.setFn_rings : (h.setFn f x).rings = h.rings := rfl
@[simp] theorem Hw.setFn_ports : (h.setFn f x).ports = h.ports := rfl
@[simp] theorem Hw.setFn_host : (h.setFn f x).host = h.host := rfl
@[simp] theorem Hw.setFn_hotHbm : (h.setFn f x).hotHbm = h.hotHbm := rfl
@[simp] theorem Hw.setFn_trip : (h.setFn f x).trip = h.trip := rfl
@[simp] theorem Hw.setFn_fatal : (h.setFn f x).fatal = h.fatal := rfl
@[simp] theorem Hw.setFn_poison : (h.setFn f x).poison = h.poison := rfl
@[simp] theorem Hw.setFn_trace : (h.setFn f x).trace = h.trace := rfl
@[simp] theorem Hw.setFn_out : (h.setFn f x).out = h.out := rfl
@[simp] theorem Hw.setFn_heldAcc : (h.setFn f x).heldAcc = h.heldAcc := rfl
@[simp] theorem Hw.setFn_parts : (h.setFn f x).parts = h.parts := rfl
@[simp] theorem Hw.setFn_roots : (h.setFn f x).roots = h.roots := rfl
@[simp] theorem Hw.setFn_cores : (h.setFn f x).cores = h.cores := rfl
@[simp] theorem Hw.setFn_dieTlb : (h.setFn f x).dieTlb = h.dieTlb := rfl
@[simp] theorem Hw.setFn_fcores : (h.setFn f x).fcores = h.fcores := rfl
@[simp] theorem Hw.setFn_blocks : (h.setFn f x).blocks = h.blocks := rfl
@[simp] theorem Hw.setFn_warps : (h.setFn f x).warps = h.warps := rfl
@[simp] theorem Hw.setFn_grids : (h.setFn f x).grids = h.grids := rfl
@[simp] theorem Hw.setFn_units : (h.setFn f x).units = h.units := rfl
@[simp] theorem Hw.setFn_flights : (h.setFn f x).flights = h.flights := rfl
@[simp] theorem Hw.setFn_cmds : (h.setFn f x).cmds = h.cmds := rfl
@[simp] theorem Hw.setFn_packets : (h.setFn f x).packets = h.packets := rfl
@[simp] theorem Hw.setFn_rred : (h.setFn f x).rred = h.rred := rfl
@[simp] theorem Hw.setFn_marks : (h.setFn f x).marks = h.marks := rfl
@[simp] theorem Hw.setFn_mctx : (h.setFn f x).mctx = h.mctx := rfl
@[simp] theorem Hw.setFn_spare : (h.setFn f x).spare = h.spare := rfl
@[simp] theorem Hw.setFn_ovf : (h.setFn f x).ovf = h.ovf := rfl
@[simp] theorem Hw.setFn_recs : (h.setFn f x).recs = h.recs := rfl
@[simp] theorem Hw.setFn_owners : (h.setFn f x).owners = h.owners := rfl
@[simp] theorem Hw.setFn_tags : (h.setFn f x).tags = h.tags := rfl
@[simp] theorem Hw.setFn_l2 : (h.setFn f x).l2 = h.l2 := rfl
@[simp] theorem Hw.setFn_access : (h.setFn f x).access = h.access := rfl
@[simp] theorem Hw.setFn_migs : (h.setFn f x).migs = h.migs := rfl
@[simp] theorem Hw.setFn_agenda : (h.setFn f x).agenda = h.agenda := rfl
@[simp] theorem Hw.setFn_cur : (h.setFn f x).cur = h.cur := rfl
@[simp] theorem Hw.setFn_occ : (h.setFn f x).occ = h.occ := rfl
@[simp] theorem Hw.setFn_tried : (h.setFn f x).tried = h.tried := rfl
@[simp] theorem Hw.setFn_slotPtr : (h.setFn f x).slotPtr = h.slotPtr := rfl
@[simp] theorem Hw.setFn_nextId : (h.setFn f x).nextId = h.nextId := rfl
@[simp] theorem Hw.setFn_free : (h.setFn f x).free = h.free := rfl
@[simp] theorem Hw.setFn_wq : (h.setFn f x).wq = h.wq := rfl
end

/-! ### Hw.onFn changes only `fns` -/
section
variable (h : Hw) (f : Nat) (g : Fn → Fn)
@[simp] theorem Hw.onFn_boot : (h.onFn f g).boot = h.boot := rfl
@[simp] theorem Hw.onFn_links : (h.onFn f g).links = h.links := rfl
@[simp] theorem Hw.onFn_chans : (h.onFn f g).chans = h.chans := rfl
@[simp] theorem Hw.onFn_rings : (h.onFn f g).rings = h.rings := rfl
@[simp] theorem Hw.onFn_ports : (h.onFn f g).ports = h.ports := rfl
@[simp] theorem Hw.onFn_host : (h.onFn f g).host = h.host := rfl
@[simp] theorem Hw.onFn_hotHbm : (h.onFn f g).hotHbm = h.hotHbm := rfl
@[simp] theorem Hw.onFn_trip : (h.onFn f g).trip = h.trip := rfl
@[simp] theorem Hw.onFn_fatal : (h.onFn f g).fatal = h.fatal := rfl
@[simp] theorem Hw.onFn_poison : (h.onFn f g).poison = h.poison := rfl
@[simp] theorem Hw.onFn_trace : (h.onFn f g).trace = h.trace := rfl
@[simp] theorem Hw.onFn_out : (h.onFn f g).out = h.out := rfl
@[simp] theorem Hw.onFn_heldAcc : (h.onFn f g).heldAcc = h.heldAcc := rfl
@[simp] theorem Hw.onFn_parts : (h.onFn f g).parts = h.parts := rfl
@[simp] theorem Hw.onFn_roots : (h.onFn f g).roots = h.roots := rfl
@[simp] theorem Hw.onFn_cores : (h.onFn f g).cores = h.cores := rfl
@[simp] theorem Hw.onFn_dieTlb : (h.onFn f g).dieTlb = h.dieTlb := rfl
@[simp] theorem Hw.onFn_fcores : (h.onFn f g).fcores = h.fcores := rfl
@[simp] theorem Hw.onFn_blocks : (h.onFn f g).blocks = h.blocks := rfl
@[simp] theorem Hw.onFn_warps : (h.onFn f g).warps = h.warps := rfl
@[simp] theorem Hw.onFn_grids : (h.onFn f g).grids = h.grids := rfl
@[simp] theorem Hw.onFn_units : (h.onFn f g).units = h.units := rfl
@[simp] theorem Hw.onFn_flights : (h.onFn f g).flights = h.flights := rfl
@[simp] theorem Hw.onFn_cmds : (h.onFn f g).cmds = h.cmds := rfl
@[simp] theorem Hw.onFn_packets : (h.onFn f g).packets = h.packets := rfl
@[simp] theorem Hw.onFn_rred : (h.onFn f g).rred = h.rred := rfl
@[simp] theorem Hw.onFn_marks : (h.onFn f g).marks = h.marks := rfl
@[simp] theorem Hw.onFn_mctx : (h.onFn f g).mctx = h.mctx := rfl
@[simp] theorem Hw.onFn_spare : (h.onFn f g).spare = h.spare := rfl
@[simp] theorem Hw.onFn_ovf : (h.onFn f g).ovf = h.ovf := rfl
@[simp] theorem Hw.onFn_recs : (h.onFn f g).recs = h.recs := rfl
@[simp] theorem Hw.onFn_owners : (h.onFn f g).owners = h.owners := rfl
@[simp] theorem Hw.onFn_tags : (h.onFn f g).tags = h.tags := rfl
@[simp] theorem Hw.onFn_l2 : (h.onFn f g).l2 = h.l2 := rfl
@[simp] theorem Hw.onFn_access : (h.onFn f g).access = h.access := rfl
@[simp] theorem Hw.onFn_migs : (h.onFn f g).migs = h.migs := rfl
@[simp] theorem Hw.onFn_agenda : (h.onFn f g).agenda = h.agenda := rfl
@[simp] theorem Hw.onFn_cur : (h.onFn f g).cur = h.cur := rfl
@[simp] theorem Hw.onFn_occ : (h.onFn f g).occ = h.occ := rfl
@[simp] theorem Hw.onFn_tried : (h.onFn f g).tried = h.tried := rfl
@[simp] theorem Hw.onFn_slotPtr : (h.onFn f g).slotPtr = h.slotPtr := rfl
@[simp] theorem Hw.onFn_nextId : (h.onFn f g).nextId = h.nextId := rfl
@[simp] theorem Hw.onFn_free : (h.onFn f g).free = h.free := rfl
@[simp] theorem Hw.onFn_wq : (h.onFn f g).wq = h.wq := rfl
end

/-! ### Hw.setPart changes only `parts` -/
section
variable (h : Hw) (p : Nat) (x : Part)
@[simp] theorem Hw.setPart_boot : (h.setPart p x).boot = h.boot := rfl
@[simp] theorem Hw.setPart_links : (h.setPart p x).links = h.links := rfl
@[simp] theorem Hw.setPart_chans : (h.setPart p x).chans = h.chans := rfl
@[simp] theorem Hw.setPart_rings : (h.setPart p x).rings = h.rings := rfl
@[simp] theorem Hw.setPart_ports : (h.setPart p x).ports = h.ports := rfl
@[simp] theorem Hw.setPart_host : (h.setPart p x).host = h.host := rfl
@[simp] theorem Hw.setPart_hotHbm : (h.setPart p x).hotHbm = h.hotHbm := rfl
@[simp] theorem Hw.setPart_trip : (h.setPart p x).trip = h.trip := rfl
@[simp] theorem Hw.setPart_fatal : (h.setPart p x).fatal = h.fatal := rfl
@[simp] theorem Hw.setPart_poison : (h.setPart p x).poison = h.poison := rfl
@[simp] theorem Hw.setPart_trace : (h.setPart p x).trace = h.trace := rfl
@[simp] theorem Hw.setPart_out : (h.setPart p x).out = h.out := rfl
@[simp] theorem Hw.setPart_heldAcc : (h.setPart p x).heldAcc = h.heldAcc := rfl
@[simp] theorem Hw.setPart_fns : (h.setPart p x).fns = h.fns := rfl
@[simp] theorem Hw.setPart_roots : (h.setPart p x).roots = h.roots := rfl
@[simp] theorem Hw.setPart_cores : (h.setPart p x).cores = h.cores := rfl
@[simp] theorem Hw.setPart_dieTlb : (h.setPart p x).dieTlb = h.dieTlb := rfl
@[simp] theorem Hw.setPart_fcores : (h.setPart p x).fcores = h.fcores := rfl
@[simp] theorem Hw.setPart_blocks : (h.setPart p x).blocks = h.blocks := rfl
@[simp] theorem Hw.setPart_warps : (h.setPart p x).warps = h.warps := rfl
@[simp] theorem Hw.setPart_grids : (h.setPart p x).grids = h.grids := rfl
@[simp] theorem Hw.setPart_units : (h.setPart p x).units = h.units := rfl
@[simp] theorem Hw.setPart_flights : (h.setPart p x).flights = h.flights := rfl
@[simp] theorem Hw.setPart_cmds : (h.setPart p x).cmds = h.cmds := rfl
@[simp] theorem Hw.setPart_packets : (h.setPart p x).packets = h.packets := rfl
@[simp] theorem Hw.setPart_rred : (h.setPart p x).rred = h.rred := rfl
@[simp] theorem Hw.setPart_marks : (h.setPart p x).marks = h.marks := rfl
@[simp] theorem Hw.setPart_mctx : (h.setPart p x).mctx = h.mctx := rfl
@[simp] theorem Hw.setPart_spare : (h.setPart p x).spare = h.spare := rfl
@[simp] theorem Hw.setPart_ovf : (h.setPart p x).ovf = h.ovf := rfl
@[simp] theorem Hw.setPart_recs : (h.setPart p x).recs = h.recs := rfl
@[simp] theorem Hw.setPart_owners : (h.setPart p x).owners = h.owners := rfl
@[simp] theorem Hw.setPart_tags : (h.setPart p x).tags = h.tags := rfl
@[simp] theorem Hw.setPart_l2 : (h.setPart p x).l2 = h.l2 := rfl
@[simp] theorem Hw.setPart_access : (h.setPart p x).access = h.access := rfl
@[simp] theorem Hw.setPart_migs : (h.setPart p x).migs = h.migs := rfl
@[simp] theorem Hw.setPart_agenda : (h.setPart p x).agenda = h.agenda := rfl
@[simp] theorem Hw.setPart_cur : (h.setPart p x).cur = h.cur := rfl
@[simp] theorem Hw.setPart_occ : (h.setPart p x).occ = h.occ := rfl
@[simp] theorem Hw.setPart_tried : (h.setPart p x).tried = h.tried := rfl
@[simp] theorem Hw.setPart_slotPtr : (h.setPart p x).slotPtr = h.slotPtr := rfl
@[simp] theorem Hw.setPart_nextId : (h.setPart p x).nextId = h.nextId := rfl
@[simp] theorem Hw.setPart_free : (h.setPart p x).free = h.free := rfl
@[simp] theorem Hw.setPart_wq : (h.setPart p x).wq = h.wq := rfl
end

/-! ### Hw.onPart changes only `parts` -/
section
variable (h : Hw) (p : Nat) (g : Part → Part)
@[simp] theorem Hw.onPart_boot : (h.onPart p g).boot = h.boot := rfl
@[simp] theorem Hw.onPart_links : (h.onPart p g).links = h.links := rfl
@[simp] theorem Hw.onPart_chans : (h.onPart p g).chans = h.chans := rfl
@[simp] theorem Hw.onPart_rings : (h.onPart p g).rings = h.rings := rfl
@[simp] theorem Hw.onPart_ports : (h.onPart p g).ports = h.ports := rfl
@[simp] theorem Hw.onPart_host : (h.onPart p g).host = h.host := rfl
@[simp] theorem Hw.onPart_hotHbm : (h.onPart p g).hotHbm = h.hotHbm := rfl
@[simp] theorem Hw.onPart_trip : (h.onPart p g).trip = h.trip := rfl
@[simp] theorem Hw.onPart_fatal : (h.onPart p g).fatal = h.fatal := rfl
@[simp] theorem Hw.onPart_poison : (h.onPart p g).poison = h.poison := rfl
@[simp] theorem Hw.onPart_trace : (h.onPart p g).trace = h.trace := rfl
@[simp] theorem Hw.onPart_out : (h.onPart p g).out = h.out := rfl
@[simp] theorem Hw.onPart_heldAcc : (h.onPart p g).heldAcc = h.heldAcc := rfl
@[simp] theorem Hw.onPart_fns : (h.onPart p g).fns = h.fns := rfl
@[simp] theorem Hw.onPart_roots : (h.onPart p g).roots = h.roots := rfl
@[simp] theorem Hw.onPart_cores : (h.onPart p g).cores = h.cores := rfl
@[simp] theorem Hw.onPart_dieTlb : (h.onPart p g).dieTlb = h.dieTlb := rfl
@[simp] theorem Hw.onPart_fcores : (h.onPart p g).fcores = h.fcores := rfl
@[simp] theorem Hw.onPart_blocks : (h.onPart p g).blocks = h.blocks := rfl
@[simp] theorem Hw.onPart_warps : (h.onPart p g).warps = h.warps := rfl
@[simp] theorem Hw.onPart_grids : (h.onPart p g).grids = h.grids := rfl
@[simp] theorem Hw.onPart_units : (h.onPart p g).units = h.units := rfl
@[simp] theorem Hw.onPart_flights : (h.onPart p g).flights = h.flights := rfl
@[simp] theorem Hw.onPart_cmds : (h.onPart p g).cmds = h.cmds := rfl
@[simp] theorem Hw.onPart_packets : (h.onPart p g).packets = h.packets := rfl
@[simp] theorem Hw.onPart_rred : (h.onPart p g).rred = h.rred := rfl
@[simp] theorem Hw.onPart_marks : (h.onPart p g).marks = h.marks := rfl
@[simp] theorem Hw.onPart_mctx : (h.onPart p g).mctx = h.mctx := rfl
@[simp] theorem Hw.onPart_spare : (h.onPart p g).spare = h.spare := rfl
@[simp] theorem Hw.onPart_ovf : (h.onPart p g).ovf = h.ovf := rfl
@[simp] theorem Hw.onPart_recs : (h.onPart p g).recs = h.recs := rfl
@[simp] theorem Hw.onPart_owners : (h.onPart p g).owners = h.owners := rfl
@[simp] theorem Hw.onPart_tags : (h.onPart p g).tags = h.tags := rfl
@[simp] theorem Hw.onPart_l2 : (h.onPart p g).l2 = h.l2 := rfl
@[simp] theorem Hw.onPart_access : (h.onPart p g).access = h.access := rfl
@[simp] theorem Hw.onPart_migs : (h.onPart p g).migs = h.migs := rfl
@[simp] theorem Hw.onPart_agenda : (h.onPart p g).agenda = h.agenda := rfl
@[simp] theorem Hw.onPart_cur : (h.onPart p g).cur = h.cur := rfl
@[simp] theorem Hw.onPart_occ : (h.onPart p g).occ = h.occ := rfl
@[simp] theorem Hw.onPart_tried : (h.onPart p g).tried = h.tried := rfl
@[simp] theorem Hw.onPart_slotPtr : (h.onPart p g).slotPtr = h.slotPtr := rfl
@[simp] theorem Hw.onPart_nextId : (h.onPart p g).nextId = h.nextId := rfl
@[simp] theorem Hw.onPart_free : (h.onPart p g).free = h.free := rfl
@[simp] theorem Hw.onPart_wq : (h.onPart p g).wq = h.wq := rfl
end

/-! ### Hw.onCore changes only `cores` -/
section
variable (h : Hw) (c : Nat) (g : Core → Core)
@[simp] theorem Hw.onCore_boot : (h.onCore c g).boot = h.boot := rfl
@[simp] theorem Hw.onCore_links : (h.onCore c g).links = h.links := rfl
@[simp] theorem Hw.onCore_chans : (h.onCore c g).chans = h.chans := rfl
@[simp] theorem Hw.onCore_rings : (h.onCore c g).rings = h.rings := rfl
@[simp] theorem Hw.onCore_ports : (h.onCore c g).ports = h.ports := rfl
@[simp] theorem Hw.onCore_host : (h.onCore c g).host = h.host := rfl
@[simp] theorem Hw.onCore_hotHbm : (h.onCore c g).hotHbm = h.hotHbm := rfl
@[simp] theorem Hw.onCore_trip : (h.onCore c g).trip = h.trip := rfl
@[simp] theorem Hw.onCore_fatal : (h.onCore c g).fatal = h.fatal := rfl
@[simp] theorem Hw.onCore_poison : (h.onCore c g).poison = h.poison := rfl
@[simp] theorem Hw.onCore_trace : (h.onCore c g).trace = h.trace := rfl
@[simp] theorem Hw.onCore_out : (h.onCore c g).out = h.out := rfl
@[simp] theorem Hw.onCore_heldAcc : (h.onCore c g).heldAcc = h.heldAcc := rfl
@[simp] theorem Hw.onCore_fns : (h.onCore c g).fns = h.fns := rfl
@[simp] theorem Hw.onCore_parts : (h.onCore c g).parts = h.parts := rfl
@[simp] theorem Hw.onCore_roots : (h.onCore c g).roots = h.roots := rfl
@[simp] theorem Hw.onCore_dieTlb : (h.onCore c g).dieTlb = h.dieTlb := rfl
@[simp] theorem Hw.onCore_fcores : (h.onCore c g).fcores = h.fcores := rfl
@[simp] theorem Hw.onCore_blocks : (h.onCore c g).blocks = h.blocks := rfl
@[simp] theorem Hw.onCore_warps : (h.onCore c g).warps = h.warps := rfl
@[simp] theorem Hw.onCore_grids : (h.onCore c g).grids = h.grids := rfl
@[simp] theorem Hw.onCore_units : (h.onCore c g).units = h.units := rfl
@[simp] theorem Hw.onCore_flights : (h.onCore c g).flights = h.flights := rfl
@[simp] theorem Hw.onCore_cmds : (h.onCore c g).cmds = h.cmds := rfl
@[simp] theorem Hw.onCore_packets : (h.onCore c g).packets = h.packets := rfl
@[simp] theorem Hw.onCore_rred : (h.onCore c g).rred = h.rred := rfl
@[simp] theorem Hw.onCore_marks : (h.onCore c g).marks = h.marks := rfl
@[simp] theorem Hw.onCore_mctx : (h.onCore c g).mctx = h.mctx := rfl
@[simp] theorem Hw.onCore_spare : (h.onCore c g).spare = h.spare := rfl
@[simp] theorem Hw.onCore_ovf : (h.onCore c g).ovf = h.ovf := rfl
@[simp] theorem Hw.onCore_recs : (h.onCore c g).recs = h.recs := rfl
@[simp] theorem Hw.onCore_owners : (h.onCore c g).owners = h.owners := rfl
@[simp] theorem Hw.onCore_tags : (h.onCore c g).tags = h.tags := rfl
@[simp] theorem Hw.onCore_l2 : (h.onCore c g).l2 = h.l2 := rfl
@[simp] theorem Hw.onCore_access : (h.onCore c g).access = h.access := rfl
@[simp] theorem Hw.onCore_migs : (h.onCore c g).migs = h.migs := rfl
@[simp] theorem Hw.onCore_agenda : (h.onCore c g).agenda = h.agenda := rfl
@[simp] theorem Hw.onCore_cur : (h.onCore c g).cur = h.cur := rfl
@[simp] theorem Hw.onCore_occ : (h.onCore c g).occ = h.occ := rfl
@[simp] theorem Hw.onCore_tried : (h.onCore c g).tried = h.tried := rfl
@[simp] theorem Hw.onCore_slotPtr : (h.onCore c g).slotPtr = h.slotPtr := rfl
@[simp] theorem Hw.onCore_nextId : (h.onCore c g).nextId = h.nextId := rfl
@[simp] theorem Hw.onCore_free : (h.onCore c g).free = h.free := rfl
@[simp] theorem Hw.onCore_wq : (h.onCore c g).wq = h.wq := rfl
end

/-! ### Hw.onFCore changes only `fcores` -/
section
variable (h : Hw) (f c : Nat) (g : FCore → FCore)
@[simp] theorem Hw.onFCore_boot : (h.onFCore f c g).boot = h.boot := rfl
@[simp] theorem Hw.onFCore_links : (h.onFCore f c g).links = h.links := rfl
@[simp] theorem Hw.onFCore_chans : (h.onFCore f c g).chans = h.chans := rfl
@[simp] theorem Hw.onFCore_rings : (h.onFCore f c g).rings = h.rings := rfl
@[simp] theorem Hw.onFCore_ports : (h.onFCore f c g).ports = h.ports := rfl
@[simp] theorem Hw.onFCore_host : (h.onFCore f c g).host = h.host := rfl
@[simp] theorem Hw.onFCore_hotHbm : (h.onFCore f c g).hotHbm = h.hotHbm := rfl
@[simp] theorem Hw.onFCore_trip : (h.onFCore f c g).trip = h.trip := rfl
@[simp] theorem Hw.onFCore_fatal : (h.onFCore f c g).fatal = h.fatal := rfl
@[simp] theorem Hw.onFCore_poison : (h.onFCore f c g).poison = h.poison := rfl
@[simp] theorem Hw.onFCore_trace : (h.onFCore f c g).trace = h.trace := rfl
@[simp] theorem Hw.onFCore_out : (h.onFCore f c g).out = h.out := rfl
@[simp] theorem Hw.onFCore_heldAcc : (h.onFCore f c g).heldAcc = h.heldAcc := rfl
@[simp] theorem Hw.onFCore_fns : (h.onFCore f c g).fns = h.fns := rfl
@[simp] theorem Hw.onFCore_parts : (h.onFCore f c g).parts = h.parts := rfl
@[simp] theorem Hw.onFCore_roots : (h.onFCore f c g).roots = h.roots := rfl
@[simp] theorem Hw.onFCore_cores : (h.onFCore f c g).cores = h.cores := rfl
@[simp] theorem Hw.onFCore_dieTlb : (h.onFCore f c g).dieTlb = h.dieTlb := rfl
@[simp] theorem Hw.onFCore_blocks : (h.onFCore f c g).blocks = h.blocks := rfl
@[simp] theorem Hw.onFCore_warps : (h.onFCore f c g).warps = h.warps := rfl
@[simp] theorem Hw.onFCore_grids : (h.onFCore f c g).grids = h.grids := rfl
@[simp] theorem Hw.onFCore_units : (h.onFCore f c g).units = h.units := rfl
@[simp] theorem Hw.onFCore_flights : (h.onFCore f c g).flights = h.flights := rfl
@[simp] theorem Hw.onFCore_cmds : (h.onFCore f c g).cmds = h.cmds := rfl
@[simp] theorem Hw.onFCore_packets : (h.onFCore f c g).packets = h.packets := rfl
@[simp] theorem Hw.onFCore_rred : (h.onFCore f c g).rred = h.rred := rfl
@[simp] theorem Hw.onFCore_marks : (h.onFCore f c g).marks = h.marks := rfl
@[simp] theorem Hw.onFCore_mctx : (h.onFCore f c g).mctx = h.mctx := rfl
@[simp] theorem Hw.onFCore_spare : (h.onFCore f c g).spare = h.spare := rfl
@[simp] theorem Hw.onFCore_ovf : (h.onFCore f c g).ovf = h.ovf := rfl
@[simp] theorem Hw.onFCore_recs : (h.onFCore f c g).recs = h.recs := rfl
@[simp] theorem Hw.onFCore_owners : (h.onFCore f c g).owners = h.owners := rfl
@[simp] theorem Hw.onFCore_tags : (h.onFCore f c g).tags = h.tags := rfl
@[simp] theorem Hw.onFCore_l2 : (h.onFCore f c g).l2 = h.l2 := rfl
@[simp] theorem Hw.onFCore_access : (h.onFCore f c g).access = h.access := rfl
@[simp] theorem Hw.onFCore_migs : (h.onFCore f c g).migs = h.migs := rfl
@[simp] theorem Hw.onFCore_agenda : (h.onFCore f c g).agenda = h.agenda := rfl
@[simp] theorem Hw.onFCore_cur : (h.onFCore f c g).cur = h.cur := rfl
@[simp] theorem Hw.onFCore_occ : (h.onFCore f c g).occ = h.occ := rfl
@[simp] theorem Hw.onFCore_tried : (h.onFCore f c g).tried = h.tried := rfl
@[simp] theorem Hw.onFCore_slotPtr : (h.onFCore f c g).slotPtr = h.slotPtr := rfl
@[simp] theorem Hw.onFCore_nextId : (h.onFCore f c g).nextId = h.nextId := rfl
@[simp] theorem Hw.onFCore_free : (h.onFCore f c g).free = h.free := rfl
@[simp] theorem Hw.onFCore_wq : (h.onFCore f c g).wq = h.wq := rfl
end

/-! ### Hw.onRing changes only `rings` -/
section
variable (h : Hw) (r : Nat) (g : Ring → Ring)
@[simp] theorem Hw.onRing_boot : (h.onRing r g).boot = h.boot := rfl
@[simp] theorem Hw.onRing_links : (h.onRing r g).links = h.links := rfl
@[simp] theorem Hw.onRing_chans : (h.onRing r g).chans = h.chans := rfl
@[simp] theorem Hw.onRing_ports : (h.onRing r g).ports = h.ports := rfl
@[simp] theorem Hw.onRing_host : (h.onRing r g).host = h.host := rfl
@[simp] theorem Hw.onRing_hotHbm : (h.onRing r g).hotHbm = h.hotHbm := rfl
@[simp] theorem Hw.onRing_trip : (h.onRing r g).trip = h.trip := rfl
@[simp] theorem Hw.onRing_fatal : (h.onRing r g).fatal = h.fatal := rfl
@[simp] theorem Hw.onRing_poison : (h.onRing r g).poison = h.poison := rfl
@[simp] theorem Hw.onRing_trace : (h.onRing r g).trace = h.trace := rfl
@[simp] theorem Hw.onRing_out : (h.onRing r g).out = h.out := rfl
@[simp] theorem Hw.onRing_heldAcc : (h.onRing r g).heldAcc = h.heldAcc := rfl
@[simp] theorem Hw.onRing_fns : (h.onRing r g).fns = h.fns := rfl
@[simp] theorem Hw.onRing_parts : (h.onRing r g).parts = h.parts := rfl
@[simp] theorem Hw.onRing_roots : (h.onRing r g).roots = h.roots := rfl
@[simp] theorem Hw.onRing_cores : (h.onRing r g).cores = h.cores := rfl
@[simp] theorem Hw.onRing_dieTlb : (h.onRing r g).dieTlb = h.dieTlb := rfl
@[simp] theorem Hw.onRing_fcores : (h.onRing r g).fcores = h.fcores := rfl
@[simp] theorem Hw.onRing_blocks : (h.onRing r g).blocks = h.blocks := rfl
@[simp] theorem Hw.onRing_warps : (h.onRing r g).warps = h.warps := rfl
@[simp] theorem Hw.onRing_grids : (h.onRing r g).grids = h.grids := rfl
@[simp] theorem Hw.onRing_units : (h.onRing r g).units = h.units := rfl
@[simp] theorem Hw.onRing_flights : (h.onRing r g).flights = h.flights := rfl
@[simp] theorem Hw.onRing_cmds : (h.onRing r g).cmds = h.cmds := rfl
@[simp] theorem Hw.onRing_packets : (h.onRing r g).packets = h.packets := rfl
@[simp] theorem Hw.onRing_rred : (h.onRing r g).rred = h.rred := rfl
@[simp] theorem Hw.onRing_marks : (h.onRing r g).marks = h.marks := rfl
@[simp] theorem Hw.onRing_mctx : (h.onRing r g).mctx = h.mctx := rfl
@[simp] theorem Hw.onRing_spare : (h.onRing r g).spare = h.spare := rfl
@[simp] theorem Hw.onRing_ovf : (h.onRing r g).ovf = h.ovf := rfl
@[simp] theorem Hw.onRing_recs : (h.onRing r g).recs = h.recs := rfl
@[simp] theorem Hw.onRing_owners : (h.onRing r g).owners = h.owners := rfl
@[simp] theorem Hw.onRing_tags : (h.onRing r g).tags = h.tags := rfl
@[simp] theorem Hw.onRing_l2 : (h.onRing r g).l2 = h.l2 := rfl
@[simp] theorem Hw.onRing_access : (h.onRing r g).access = h.access := rfl
@[simp] theorem Hw.onRing_migs : (h.onRing r g).migs = h.migs := rfl
@[simp] theorem Hw.onRing_agenda : (h.onRing r g).agenda = h.agenda := rfl
@[simp] theorem Hw.onRing_cur : (h.onRing r g).cur = h.cur := rfl
@[simp] theorem Hw.onRing_occ : (h.onRing r g).occ = h.occ := rfl
@[simp] theorem Hw.onRing_tried : (h.onRing r g).tried = h.tried := rfl
@[simp] theorem Hw.onRing_slotPtr : (h.onRing r g).slotPtr = h.slotPtr := rfl
@[simp] theorem Hw.onRing_nextId : (h.onRing r g).nextId = h.nextId := rfl
@[simp] theorem Hw.onRing_free : (h.onRing r g).free = h.free := rfl
@[simp] theorem Hw.onRing_wq : (h.onRing r g).wq = h.wq := rfl
end

/-! ### Hw.onBlock changes only `blocks` -/
section
variable (h : Hw) (b : Nat) (g : Block → Block)
@[simp] theorem Hw.onBlock_boot : (h.onBlock b g).boot = h.boot := rfl
@[simp] theorem Hw.onBlock_links : (h.onBlock b g).links = h.links := rfl
@[simp] theorem Hw.onBlock_chans : (h.onBlock b g).chans = h.chans := rfl
@[simp] theorem Hw.onBlock_rings : (h.onBlock b g).rings = h.rings := rfl
@[simp] theorem Hw.onBlock_ports : (h.onBlock b g).ports = h.ports := rfl
@[simp] theorem Hw.onBlock_host : (h.onBlock b g).host = h.host := rfl
@[simp] theorem Hw.onBlock_hotHbm : (h.onBlock b g).hotHbm = h.hotHbm := rfl
@[simp] theorem Hw.onBlock_trip : (h.onBlock b g).trip = h.trip := rfl
@[simp] theorem Hw.onBlock_fatal : (h.onBlock b g).fatal = h.fatal := rfl
@[simp] theorem Hw.onBlock_poison : (h.onBlock b g).poison = h.poison := rfl
@[simp] theorem Hw.onBlock_trace : (h.onBlock b g).trace = h.trace := rfl
@[simp] theorem Hw.onBlock_out : (h.onBlock b g).out = h.out := rfl
@[simp] theorem Hw.onBlock_heldAcc : (h.onBlock b g).heldAcc = h.heldAcc := rfl
@[simp] theorem Hw.onBlock_fns : (h.onBlock b g).fns = h.fns := rfl
@[simp] theorem Hw.onBlock_parts : (h.onBlock b g).parts = h.parts := rfl
@[simp] theorem Hw.onBlock_roots : (h.onBlock b g).roots = h.roots := rfl
@[simp] theorem Hw.onBlock_cores : (h.onBlock b g).cores = h.cores := rfl
@[simp] theorem Hw.onBlock_dieTlb : (h.onBlock b g).dieTlb = h.dieTlb := rfl
@[simp] theorem Hw.onBlock_fcores : (h.onBlock b g).fcores = h.fcores := rfl
@[simp] theorem Hw.onBlock_warps : (h.onBlock b g).warps = h.warps := rfl
@[simp] theorem Hw.onBlock_grids : (h.onBlock b g).grids = h.grids := rfl
@[simp] theorem Hw.onBlock_units : (h.onBlock b g).units = h.units := rfl
@[simp] theorem Hw.onBlock_flights : (h.onBlock b g).flights = h.flights := rfl
@[simp] theorem Hw.onBlock_cmds : (h.onBlock b g).cmds = h.cmds := rfl
@[simp] theorem Hw.onBlock_packets : (h.onBlock b g).packets = h.packets := rfl
@[simp] theorem Hw.onBlock_rred : (h.onBlock b g).rred = h.rred := rfl
@[simp] theorem Hw.onBlock_marks : (h.onBlock b g).marks = h.marks := rfl
@[simp] theorem Hw.onBlock_mctx : (h.onBlock b g).mctx = h.mctx := rfl
@[simp] theorem Hw.onBlock_spare : (h.onBlock b g).spare = h.spare := rfl
@[simp] theorem Hw.onBlock_ovf : (h.onBlock b g).ovf = h.ovf := rfl
@[simp] theorem Hw.onBlock_recs : (h.onBlock b g).recs = h.recs := rfl
@[simp] theorem Hw.onBlock_owners : (h.onBlock b g).owners = h.owners := rfl
@[simp] theorem Hw.onBlock_tags : (h.onBlock b g).tags = h.tags := rfl
@[simp] theorem Hw.onBlock_l2 : (h.onBlock b g).l2 = h.l2 := rfl
@[simp] theorem Hw.onBlock_access : (h.onBlock b g).access = h.access := rfl
@[simp] theorem Hw.onBlock_migs : (h.onBlock b g).migs = h.migs := rfl
@[simp] theorem Hw.onBlock_agenda : (h.onBlock b g).agenda = h.agenda := rfl
@[simp] theorem Hw.onBlock_cur : (h.onBlock b g).cur = h.cur := rfl
@[simp] theorem Hw.onBlock_occ : (h.onBlock b g).occ = h.occ := rfl
@[simp] theorem Hw.onBlock_tried : (h.onBlock b g).tried = h.tried := rfl
@[simp] theorem Hw.onBlock_slotPtr : (h.onBlock b g).slotPtr = h.slotPtr := rfl
@[simp] theorem Hw.onBlock_nextId : (h.onBlock b g).nextId = h.nextId := rfl
@[simp] theorem Hw.onBlock_free : (h.onBlock b g).free = h.free := rfl
@[simp] theorem Hw.onBlock_wq : (h.onBlock b g).wq = h.wq := rfl
end

/-! ### Hw.setWarp changes only `warps` -/
section
variable (h : Hw) (k : Nat) (w : Warp)
@[simp] theorem Hw.setWarp_boot : (h.setWarp k w).boot = h.boot := rfl
@[simp] theorem Hw.setWarp_links : (h.setWarp k w).links = h.links := rfl
@[simp] theorem Hw.setWarp_chans : (h.setWarp k w).chans = h.chans := rfl
@[simp] theorem Hw.setWarp_rings : (h.setWarp k w).rings = h.rings := rfl
@[simp] theorem Hw.setWarp_ports : (h.setWarp k w).ports = h.ports := rfl
@[simp] theorem Hw.setWarp_host : (h.setWarp k w).host = h.host := rfl
@[simp] theorem Hw.setWarp_hotHbm : (h.setWarp k w).hotHbm = h.hotHbm := rfl
@[simp] theorem Hw.setWarp_trip : (h.setWarp k w).trip = h.trip := rfl
@[simp] theorem Hw.setWarp_fatal : (h.setWarp k w).fatal = h.fatal := rfl
@[simp] theorem Hw.setWarp_poison : (h.setWarp k w).poison = h.poison := rfl
@[simp] theorem Hw.setWarp_trace : (h.setWarp k w).trace = h.trace := rfl
@[simp] theorem Hw.setWarp_out : (h.setWarp k w).out = h.out := rfl
@[simp] theorem Hw.setWarp_heldAcc : (h.setWarp k w).heldAcc = h.heldAcc := rfl
@[simp] theorem Hw.setWarp_fns : (h.setWarp k w).fns = h.fns := rfl
@[simp] theorem Hw.setWarp_parts : (h.setWarp k w).parts = h.parts := rfl
@[simp] theorem Hw.setWarp_roots : (h.setWarp k w).roots = h.roots := rfl
@[simp] theorem Hw.setWarp_cores : (h.setWarp k w).cores = h.cores := rfl
@[simp] theorem Hw.setWarp_dieTlb : (h.setWarp k w).dieTlb = h.dieTlb := rfl
@[simp] theorem Hw.setWarp_fcores : (h.setWarp k w).fcores = h.fcores := rfl
@[simp] theorem Hw.setWarp_blocks : (h.setWarp k w).blocks = h.blocks := rfl
@[simp] theorem Hw.setWarp_grids : (h.setWarp k w).grids = h.grids := rfl
@[simp] theorem Hw.setWarp_units : (h.setWarp k w).units = h.units := rfl
@[simp] theorem Hw.setWarp_flights : (h.setWarp k w).flights = h.flights := rfl
@[simp] theorem Hw.setWarp_cmds : (h.setWarp k w).cmds = h.cmds := rfl
@[simp] theorem Hw.setWarp_packets : (h.setWarp k w).packets = h.packets := rfl
@[simp] theorem Hw.setWarp_rred : (h.setWarp k w).rred = h.rred := rfl
@[simp] theorem Hw.setWarp_marks : (h.setWarp k w).marks = h.marks := rfl
@[simp] theorem Hw.setWarp_mctx : (h.setWarp k w).mctx = h.mctx := rfl
@[simp] theorem Hw.setWarp_spare : (h.setWarp k w).spare = h.spare := rfl
@[simp] theorem Hw.setWarp_ovf : (h.setWarp k w).ovf = h.ovf := rfl
@[simp] theorem Hw.setWarp_recs : (h.setWarp k w).recs = h.recs := rfl
@[simp] theorem Hw.setWarp_owners : (h.setWarp k w).owners = h.owners := rfl
@[simp] theorem Hw.setWarp_tags : (h.setWarp k w).tags = h.tags := rfl
@[simp] theorem Hw.setWarp_l2 : (h.setWarp k w).l2 = h.l2 := rfl
@[simp] theorem Hw.setWarp_access : (h.setWarp k w).access = h.access := rfl
@[simp] theorem Hw.setWarp_migs : (h.setWarp k w).migs = h.migs := rfl
@[simp] theorem Hw.setWarp_agenda : (h.setWarp k w).agenda = h.agenda := rfl
@[simp] theorem Hw.setWarp_cur : (h.setWarp k w).cur = h.cur := rfl
@[simp] theorem Hw.setWarp_occ : (h.setWarp k w).occ = h.occ := rfl
@[simp] theorem Hw.setWarp_tried : (h.setWarp k w).tried = h.tried := rfl
@[simp] theorem Hw.setWarp_slotPtr : (h.setWarp k w).slotPtr = h.slotPtr := rfl
@[simp] theorem Hw.setWarp_nextId : (h.setWarp k w).nextId = h.nextId := rfl
@[simp] theorem Hw.setWarp_free : (h.setWarp k w).free = h.free := rfl
@[simp] theorem Hw.setWarp_wq : (h.setWarp k w).wq = h.wq := rfl
end

/-! ### Hw.onWarp changes only `warps` -/
section
variable (h : Hw) (k : Nat) (g : Warp → Warp)
@[simp] theorem Hw.onWarp_boot : (h.onWarp k g).boot = h.boot := rfl
@[simp] theorem Hw.onWarp_links : (h.onWarp k g).links = h.links := rfl
@[simp] theorem Hw.onWarp_chans : (h.onWarp k g).chans = h.chans := rfl
@[simp] theorem Hw.onWarp_rings : (h.onWarp k g).rings = h.rings := rfl
@[simp] theorem Hw.onWarp_ports : (h.onWarp k g).ports = h.ports := rfl
@[simp] theorem Hw.onWarp_host : (h.onWarp k g).host = h.host := rfl
@[simp] theorem Hw.onWarp_hotHbm : (h.onWarp k g).hotHbm = h.hotHbm := rfl
@[simp] theorem Hw.onWarp_trip : (h.onWarp k g).trip = h.trip := rfl
@[simp] theorem Hw.onWarp_fatal : (h.onWarp k g).fatal = h.fatal := rfl
@[simp] theorem Hw.onWarp_poison : (h.onWarp k g).poison = h.poison := rfl
@[simp] theorem Hw.onWarp_trace : (h.onWarp k g).trace = h.trace := rfl
@[simp] theorem Hw.onWarp_out : (h.onWarp k g).out = h.out := rfl
@[simp] theorem Hw.onWarp_heldAcc : (h.onWarp k g).heldAcc = h.heldAcc := rfl
@[simp] theorem Hw.onWarp_fns : (h.onWarp k g).fns = h.fns := rfl
@[simp] theorem Hw.onWarp_parts : (h.onWarp k g).parts = h.parts := rfl
@[simp] theorem Hw.onWarp_roots : (h.onWarp k g).roots = h.roots := rfl
@[simp] theorem Hw.onWarp_cores : (h.onWarp k g).cores = h.cores := rfl
@[simp] theorem Hw.onWarp_dieTlb : (h.onWarp k g).dieTlb = h.dieTlb := rfl
@[simp] theorem Hw.onWarp_fcores : (h.onWarp k g).fcores = h.fcores := rfl
@[simp] theorem Hw.onWarp_blocks : (h.onWarp k g).blocks = h.blocks := rfl
@[simp] theorem Hw.onWarp_grids : (h.onWarp k g).grids = h.grids := rfl
@[simp] theorem Hw.onWarp_units : (h.onWarp k g).units = h.units := rfl
@[simp] theorem Hw.onWarp_flights : (h.onWarp k g).flights = h.flights := rfl
@[simp] theorem Hw.onWarp_cmds : (h.onWarp k g).cmds = h.cmds := rfl
@[simp] theorem Hw.onWarp_packets : (h.onWarp k g).packets = h.packets := rfl
@[simp] theorem Hw.onWarp_rred : (h.onWarp k g).rred = h.rred := rfl
@[simp] theorem Hw.onWarp_marks : (h.onWarp k g).marks = h.marks := rfl
@[simp] theorem Hw.onWarp_mctx : (h.onWarp k g).mctx = h.mctx := rfl
@[simp] theorem Hw.onWarp_spare : (h.onWarp k g).spare = h.spare := rfl
@[simp] theorem Hw.onWarp_ovf : (h.onWarp k g).ovf = h.ovf := rfl
@[simp] theorem Hw.onWarp_recs : (h.onWarp k g).recs = h.recs := rfl
@[simp] theorem Hw.onWarp_owners : (h.onWarp k g).owners = h.owners := rfl
@[simp] theorem Hw.onWarp_tags : (h.onWarp k g).tags = h.tags := rfl
@[simp] theorem Hw.onWarp_l2 : (h.onWarp k g).l2 = h.l2 := rfl
@[simp] theorem Hw.onWarp_access : (h.onWarp k g).access = h.access := rfl
@[simp] theorem Hw.onWarp_migs : (h.onWarp k g).migs = h.migs := rfl
@[simp] theorem Hw.onWarp_agenda : (h.onWarp k g).agenda = h.agenda := rfl
@[simp] theorem Hw.onWarp_cur : (h.onWarp k g).cur = h.cur := rfl
@[simp] theorem Hw.onWarp_occ : (h.onWarp k g).occ = h.occ := rfl
@[simp] theorem Hw.onWarp_tried : (h.onWarp k g).tried = h.tried := rfl
@[simp] theorem Hw.onWarp_slotPtr : (h.onWarp k g).slotPtr = h.slotPtr := rfl
@[simp] theorem Hw.onWarp_nextId : (h.onWarp k g).nextId = h.nextId := rfl
@[simp] theorem Hw.onWarp_free : (h.onWarp k g).free = h.free := rfl
@[simp] theorem Hw.onWarp_wq : (h.onWarp k g).wq = h.wq := rfl
end

/-! ### Hw.onPath changes only `warps` -/
section
variable (h : Hw) (k : Nat) (x : Bool) (g : Path → Path)
@[simp] theorem Hw.onPath_boot : (h.onPath k x g).boot = h.boot := rfl
@[simp] theorem Hw.onPath_links : (h.onPath k x g).links = h.links := rfl
@[simp] theorem Hw.onPath_chans : (h.onPath k x g).chans = h.chans := rfl
@[simp] theorem Hw.onPath_rings : (h.onPath k x g).rings = h.rings := rfl
@[simp] theorem Hw.onPath_ports : (h.onPath k x g).ports = h.ports := rfl
@[simp] theorem Hw.onPath_host : (h.onPath k x g).host = h.host := rfl
@[simp] theorem Hw.onPath_hotHbm : (h.onPath k x g).hotHbm = h.hotHbm := rfl
@[simp] theorem Hw.onPath_trip : (h.onPath k x g).trip = h.trip := rfl
@[simp] theorem Hw.onPath_fatal : (h.onPath k x g).fatal = h.fatal := rfl
@[simp] theorem Hw.onPath_poison : (h.onPath k x g).poison = h.poison := rfl
@[simp] theorem Hw.onPath_trace : (h.onPath k x g).trace = h.trace := rfl
@[simp] theorem Hw.onPath_out : (h.onPath k x g).out = h.out := rfl
@[simp] theorem Hw.onPath_heldAcc : (h.onPath k x g).heldAcc = h.heldAcc := rfl
@[simp] theorem Hw.onPath_fns : (h.onPath k x g).fns = h.fns := rfl
@[simp] theorem Hw.onPath_parts : (h.onPath k x g).parts = h.parts := rfl
@[simp] theorem Hw.onPath_roots : (h.onPath k x g).roots = h.roots := rfl
@[simp] theorem Hw.onPath_cores : (h.onPath k x g).cores = h.cores := rfl
@[simp] theorem Hw.onPath_dieTlb : (h.onPath k x g).dieTlb = h.dieTlb := rfl
@[simp] theorem Hw.onPath_fcores : (h.onPath k x g).fcores = h.fcores := rfl
@[simp] theorem Hw.onPath_blocks : (h.onPath k x g).blocks = h.blocks := rfl
@[simp] theorem Hw.onPath_grids : (h.onPath k x g).grids = h.grids := rfl
@[simp] theorem Hw.onPath_units : (h.onPath k x g).units = h.units := rfl
@[simp] theorem Hw.onPath_flights : (h.onPath k x g).flights = h.flights := rfl
@[simp] theorem Hw.onPath_cmds : (h.onPath k x g).cmds = h.cmds := rfl
@[simp] theorem Hw.onPath_packets : (h.onPath k x g).packets = h.packets := rfl
@[simp] theorem Hw.onPath_rred : (h.onPath k x g).rred = h.rred := rfl
@[simp] theorem Hw.onPath_marks : (h.onPath k x g).marks = h.marks := rfl
@[simp] theorem Hw.onPath_mctx : (h.onPath k x g).mctx = h.mctx := rfl
@[simp] theorem Hw.onPath_spare : (h.onPath k x g).spare = h.spare := rfl
@[simp] theorem Hw.onPath_ovf : (h.onPath k x g).ovf = h.ovf := rfl
@[simp] theorem Hw.onPath_recs : (h.onPath k x g).recs = h.recs := rfl
@[simp] theorem Hw.onPath_owners : (h.onPath k x g).owners = h.owners := rfl
@[simp] theorem Hw.onPath_tags : (h.onPath k x g).tags = h.tags := rfl
@[simp] theorem Hw.onPath_l2 : (h.onPath k x g).l2 = h.l2 := rfl
@[simp] theorem Hw.onPath_access : (h.onPath k x g).access = h.access := rfl
@[simp] theorem Hw.onPath_migs : (h.onPath k x g).migs = h.migs := rfl
@[simp] theorem Hw.onPath_agenda : (h.onPath k x g).agenda = h.agenda := rfl
@[simp] theorem Hw.onPath_cur : (h.onPath k x g).cur = h.cur := rfl
@[simp] theorem Hw.onPath_occ : (h.onPath k x g).occ = h.occ := rfl
@[simp] theorem Hw.onPath_tried : (h.onPath k x g).tried = h.tried := rfl
@[simp] theorem Hw.onPath_slotPtr : (h.onPath k x g).slotPtr = h.slotPtr := rfl
@[simp] theorem Hw.onPath_nextId : (h.onPath k x g).nextId = h.nextId := rfl
@[simp] theorem Hw.onPath_free : (h.onPath k x g).free = h.free := rfl
@[simp] theorem Hw.onPath_wq : (h.onPath k x g).wq = h.wq := rfl
end

/-! ### Hw.goto changes only `warps` -/
section
variable (h : Hw) (k : Nat) (x : Bool) (a : DWord)
@[simp] theorem Hw.goto_boot : (h.goto k x a).boot = h.boot := rfl
@[simp] theorem Hw.goto_links : (h.goto k x a).links = h.links := rfl
@[simp] theorem Hw.goto_chans : (h.goto k x a).chans = h.chans := rfl
@[simp] theorem Hw.goto_rings : (h.goto k x a).rings = h.rings := rfl
@[simp] theorem Hw.goto_ports : (h.goto k x a).ports = h.ports := rfl
@[simp] theorem Hw.goto_host : (h.goto k x a).host = h.host := rfl
@[simp] theorem Hw.goto_hotHbm : (h.goto k x a).hotHbm = h.hotHbm := rfl
@[simp] theorem Hw.goto_trip : (h.goto k x a).trip = h.trip := rfl
@[simp] theorem Hw.goto_fatal : (h.goto k x a).fatal = h.fatal := rfl
@[simp] theorem Hw.goto_poison : (h.goto k x a).poison = h.poison := rfl
@[simp] theorem Hw.goto_trace : (h.goto k x a).trace = h.trace := rfl
@[simp] theorem Hw.goto_out : (h.goto k x a).out = h.out := rfl
@[simp] theorem Hw.goto_heldAcc : (h.goto k x a).heldAcc = h.heldAcc := rfl
@[simp] theorem Hw.goto_fns : (h.goto k x a).fns = h.fns := rfl
@[simp] theorem Hw.goto_parts : (h.goto k x a).parts = h.parts := rfl
@[simp] theorem Hw.goto_roots : (h.goto k x a).roots = h.roots := rfl
@[simp] theorem Hw.goto_cores : (h.goto k x a).cores = h.cores := rfl
@[simp] theorem Hw.goto_dieTlb : (h.goto k x a).dieTlb = h.dieTlb := rfl
@[simp] theorem Hw.goto_fcores : (h.goto k x a).fcores = h.fcores := rfl
@[simp] theorem Hw.goto_blocks : (h.goto k x a).blocks = h.blocks := rfl
@[simp] theorem Hw.goto_grids : (h.goto k x a).grids = h.grids := rfl
@[simp] theorem Hw.goto_units : (h.goto k x a).units = h.units := rfl
@[simp] theorem Hw.goto_flights : (h.goto k x a).flights = h.flights := rfl
@[simp] theorem Hw.goto_cmds : (h.goto k x a).cmds = h.cmds := rfl
@[simp] theorem Hw.goto_packets : (h.goto k x a).packets = h.packets := rfl
@[simp] theorem Hw.goto_rred : (h.goto k x a).rred = h.rred := rfl
@[simp] theorem Hw.goto_marks : (h.goto k x a).marks = h.marks := rfl
@[simp] theorem Hw.goto_mctx : (h.goto k x a).mctx = h.mctx := rfl
@[simp] theorem Hw.goto_spare : (h.goto k x a).spare = h.spare := rfl
@[simp] theorem Hw.goto_ovf : (h.goto k x a).ovf = h.ovf := rfl
@[simp] theorem Hw.goto_recs : (h.goto k x a).recs = h.recs := rfl
@[simp] theorem Hw.goto_owners : (h.goto k x a).owners = h.owners := rfl
@[simp] theorem Hw.goto_tags : (h.goto k x a).tags = h.tags := rfl
@[simp] theorem Hw.goto_l2 : (h.goto k x a).l2 = h.l2 := rfl
@[simp] theorem Hw.goto_access : (h.goto k x a).access = h.access := rfl
@[simp] theorem Hw.goto_migs : (h.goto k x a).migs = h.migs := rfl
@[simp] theorem Hw.goto_agenda : (h.goto k x a).agenda = h.agenda := rfl
@[simp] theorem Hw.goto_cur : (h.goto k x a).cur = h.cur := rfl
@[simp] theorem Hw.goto_occ : (h.goto k x a).occ = h.occ := rfl
@[simp] theorem Hw.goto_tried : (h.goto k x a).tried = h.tried := rfl
@[simp] theorem Hw.goto_slotPtr : (h.goto k x a).slotPtr = h.slotPtr := rfl
@[simp] theorem Hw.goto_nextId : (h.goto k x a).nextId = h.nextId := rfl
@[simp] theorem Hw.goto_free : (h.goto k x a).free = h.free := rfl
@[simp] theorem Hw.goto_wq : (h.goto k x a).wq = h.wq := rfl
end

/-! ### Hw.onCmd changes only `cmds` -/
section
variable (h : Hw) (i : Nat) (g : Cmd → Cmd)
@[simp] theorem Hw.onCmd_boot : (h.onCmd i g).boot = h.boot := rfl
@[simp] theorem Hw.onCmd_links : (h.onCmd i g).links = h.links := rfl
@[simp] theorem Hw.onCmd_chans : (h.onCmd i g).chans = h.chans := rfl
@[simp] theorem Hw.onCmd_rings : (h.onCmd i g).rings = h.rings := rfl
@[simp] theorem Hw.onCmd_ports : (h.onCmd i g).ports = h.ports := rfl
@[simp] theorem Hw.onCmd_host : (h.onCmd i g).host = h.host := rfl
@[simp] theorem Hw.onCmd_hotHbm : (h.onCmd i g).hotHbm = h.hotHbm := rfl
@[simp] theorem Hw.onCmd_trip : (h.onCmd i g).trip = h.trip := rfl
@[simp] theorem Hw.onCmd_fatal : (h.onCmd i g).fatal = h.fatal := rfl
@[simp] theorem Hw.onCmd_poison : (h.onCmd i g).poison = h.poison := rfl
@[simp] theorem Hw.onCmd_trace : (h.onCmd i g).trace = h.trace := rfl
@[simp] theorem Hw.onCmd_out : (h.onCmd i g).out = h.out := rfl
@[simp] theorem Hw.onCmd_heldAcc : (h.onCmd i g).heldAcc = h.heldAcc := rfl
@[simp] theorem Hw.onCmd_fns : (h.onCmd i g).fns = h.fns := rfl
@[simp] theorem Hw.onCmd_parts : (h.onCmd i g).parts = h.parts := rfl
@[simp] theorem Hw.onCmd_roots : (h.onCmd i g).roots = h.roots := rfl
@[simp] theorem Hw.onCmd_cores : (h.onCmd i g).cores = h.cores := rfl
@[simp] theorem Hw.onCmd_dieTlb : (h.onCmd i g).dieTlb = h.dieTlb := rfl
@[simp] theorem Hw.onCmd_fcores : (h.onCmd i g).fcores = h.fcores := rfl
@[simp] theorem Hw.onCmd_blocks : (h.onCmd i g).blocks = h.blocks := rfl
@[simp] theorem Hw.onCmd_warps : (h.onCmd i g).warps = h.warps := rfl
@[simp] theorem Hw.onCmd_grids : (h.onCmd i g).grids = h.grids := rfl
@[simp] theorem Hw.onCmd_units : (h.onCmd i g).units = h.units := rfl
@[simp] theorem Hw.onCmd_flights : (h.onCmd i g).flights = h.flights := rfl
@[simp] theorem Hw.onCmd_packets : (h.onCmd i g).packets = h.packets := rfl
@[simp] theorem Hw.onCmd_rred : (h.onCmd i g).rred = h.rred := rfl
@[simp] theorem Hw.onCmd_marks : (h.onCmd i g).marks = h.marks := rfl
@[simp] theorem Hw.onCmd_mctx : (h.onCmd i g).mctx = h.mctx := rfl
@[simp] theorem Hw.onCmd_spare : (h.onCmd i g).spare = h.spare := rfl
@[simp] theorem Hw.onCmd_ovf : (h.onCmd i g).ovf = h.ovf := rfl
@[simp] theorem Hw.onCmd_recs : (h.onCmd i g).recs = h.recs := rfl
@[simp] theorem Hw.onCmd_owners : (h.onCmd i g).owners = h.owners := rfl
@[simp] theorem Hw.onCmd_tags : (h.onCmd i g).tags = h.tags := rfl
@[simp] theorem Hw.onCmd_l2 : (h.onCmd i g).l2 = h.l2 := rfl
@[simp] theorem Hw.onCmd_access : (h.onCmd i g).access = h.access := rfl
@[simp] theorem Hw.onCmd_migs : (h.onCmd i g).migs = h.migs := rfl
@[simp] theorem Hw.onCmd_agenda : (h.onCmd i g).agenda = h.agenda := rfl
@[simp] theorem Hw.onCmd_cur : (h.onCmd i g).cur = h.cur := rfl
@[simp] theorem Hw.onCmd_occ : (h.onCmd i g).occ = h.occ := rfl
@[simp] theorem Hw.onCmd_tried : (h.onCmd i g).tried = h.tried := rfl
@[simp] theorem Hw.onCmd_slotPtr : (h.onCmd i g).slotPtr = h.slotPtr := rfl
@[simp] theorem Hw.onCmd_nextId : (h.onCmd i g).nextId = h.nextId := rfl
@[simp] theorem Hw.onCmd_free : (h.onCmd i g).free = h.free := rfl
@[simp] theorem Hw.onCmd_wq : (h.onCmd i g).wq = h.wq := rfl
end

/-! ### Hw.onGrid changes only `grids` -/
section
variable (h : Hw) (i : Nat) (g : Grid → Grid)
@[simp] theorem Hw.onGrid_boot : (h.onGrid i g).boot = h.boot := rfl
@[simp] theorem Hw.onGrid_links : (h.onGrid i g).links = h.links := rfl
@[simp] theorem Hw.onGrid_chans : (h.onGrid i g).chans = h.chans := rfl
@[simp] theorem Hw.onGrid_rings : (h.onGrid i g).rings = h.rings := rfl
@[simp] theorem Hw.onGrid_ports : (h.onGrid i g).ports = h.ports := rfl
@[simp] theorem Hw.onGrid_host : (h.onGrid i g).host = h.host := rfl
@[simp] theorem Hw.onGrid_hotHbm : (h.onGrid i g).hotHbm = h.hotHbm := rfl
@[simp] theorem Hw.onGrid_trip : (h.onGrid i g).trip = h.trip := rfl
@[simp] theorem Hw.onGrid_fatal : (h.onGrid i g).fatal = h.fatal := rfl
@[simp] theorem Hw.onGrid_poison : (h.onGrid i g).poison = h.poison := rfl
@[simp] theorem Hw.onGrid_trace : (h.onGrid i g).trace = h.trace := rfl
@[simp] theorem Hw.onGrid_out : (h.onGrid i g).out = h.out := rfl
@[simp] theorem Hw.onGrid_heldAcc : (h.onGrid i g).heldAcc = h.heldAcc := rfl
@[simp] theorem Hw.onGrid_fns : (h.onGrid i g).fns = h.fns := rfl
@[simp] theorem Hw.onGrid_parts : (h.onGrid i g).parts = h.parts := rfl
@[simp] theorem Hw.onGrid_roots : (h.onGrid i g).roots = h.roots := rfl
@[simp] theorem Hw.onGrid_cores : (h.onGrid i g).cores = h.cores := rfl
@[simp] theorem Hw.onGrid_dieTlb : (h.onGrid i g).dieTlb = h.dieTlb := rfl
@[simp] theorem Hw.onGrid_fcores : (h.onGrid i g).fcores = h.fcores := rfl
@[simp] theorem Hw.onGrid_blocks : (h.onGrid i g).blocks = h.blocks := rfl
@[simp] theorem Hw.onGrid_warps : (h.onGrid i g).warps = h.warps := rfl
@[simp] theorem Hw.onGrid_units : (h.onGrid i g).units = h.units := rfl
@[simp] theorem Hw.onGrid_flights : (h.onGrid i g).flights = h.flights := rfl
@[simp] theorem Hw.onGrid_cmds : (h.onGrid i g).cmds = h.cmds := rfl
@[simp] theorem Hw.onGrid_packets : (h.onGrid i g).packets = h.packets := rfl
@[simp] theorem Hw.onGrid_rred : (h.onGrid i g).rred = h.rred := rfl
@[simp] theorem Hw.onGrid_marks : (h.onGrid i g).marks = h.marks := rfl
@[simp] theorem Hw.onGrid_mctx : (h.onGrid i g).mctx = h.mctx := rfl
@[simp] theorem Hw.onGrid_spare : (h.onGrid i g).spare = h.spare := rfl
@[simp] theorem Hw.onGrid_ovf : (h.onGrid i g).ovf = h.ovf := rfl
@[simp] theorem Hw.onGrid_recs : (h.onGrid i g).recs = h.recs := rfl
@[simp] theorem Hw.onGrid_owners : (h.onGrid i g).owners = h.owners := rfl
@[simp] theorem Hw.onGrid_tags : (h.onGrid i g).tags = h.tags := rfl
@[simp] theorem Hw.onGrid_l2 : (h.onGrid i g).l2 = h.l2 := rfl
@[simp] theorem Hw.onGrid_access : (h.onGrid i g).access = h.access := rfl
@[simp] theorem Hw.onGrid_migs : (h.onGrid i g).migs = h.migs := rfl
@[simp] theorem Hw.onGrid_agenda : (h.onGrid i g).agenda = h.agenda := rfl
@[simp] theorem Hw.onGrid_cur : (h.onGrid i g).cur = h.cur := rfl
@[simp] theorem Hw.onGrid_occ : (h.onGrid i g).occ = h.occ := rfl
@[simp] theorem Hw.onGrid_tried : (h.onGrid i g).tried = h.tried := rfl
@[simp] theorem Hw.onGrid_slotPtr : (h.onGrid i g).slotPtr = h.slotPtr := rfl
@[simp] theorem Hw.onGrid_nextId : (h.onGrid i g).nextId = h.nextId := rfl
@[simp] theorem Hw.onGrid_free : (h.onGrid i g).free = h.free := rfl
@[simp] theorem Hw.onGrid_wq : (h.onGrid i g).wq = h.wq := rfl
end

/-! ### Hw.plan changes only `agenda` -/
section
variable (h : Hw) (i : Instr) (o : Occasion)
@[simp] theorem Hw.plan_boot : (h.plan i o).boot = h.boot := rfl
@[simp] theorem Hw.plan_links : (h.plan i o).links = h.links := rfl
@[simp] theorem Hw.plan_chans : (h.plan i o).chans = h.chans := rfl
@[simp] theorem Hw.plan_rings : (h.plan i o).rings = h.rings := rfl
@[simp] theorem Hw.plan_ports : (h.plan i o).ports = h.ports := rfl
@[simp] theorem Hw.plan_host : (h.plan i o).host = h.host := rfl
@[simp] theorem Hw.plan_hotHbm : (h.plan i o).hotHbm = h.hotHbm := rfl
@[simp] theorem Hw.plan_trip : (h.plan i o).trip = h.trip := rfl
@[simp] theorem Hw.plan_fatal : (h.plan i o).fatal = h.fatal := rfl
@[simp] theorem Hw.plan_poison : (h.plan i o).poison = h.poison := rfl
@[simp] theorem Hw.plan_trace : (h.plan i o).trace = h.trace := rfl
@[simp] theorem Hw.plan_out : (h.plan i o).out = h.out := rfl
@[simp] theorem Hw.plan_heldAcc : (h.plan i o).heldAcc = h.heldAcc := rfl
@[simp] theorem Hw.plan_fns : (h.plan i o).fns = h.fns := rfl
@[simp] theorem Hw.plan_parts : (h.plan i o).parts = h.parts := rfl
@[simp] theorem Hw.plan_roots : (h.plan i o).roots = h.roots := rfl
@[simp] theorem Hw.plan_cores : (h.plan i o).cores = h.cores := rfl
@[simp] theorem Hw.plan_dieTlb : (h.plan i o).dieTlb = h.dieTlb := rfl
@[simp] theorem Hw.plan_fcores : (h.plan i o).fcores = h.fcores := rfl
@[simp] theorem Hw.plan_blocks : (h.plan i o).blocks = h.blocks := rfl
@[simp] theorem Hw.plan_warps : (h.plan i o).warps = h.warps := rfl
@[simp] theorem Hw.plan_grids : (h.plan i o).grids = h.grids := rfl
@[simp] theorem Hw.plan_units : (h.plan i o).units = h.units := rfl
@[simp] theorem Hw.plan_flights : (h.plan i o).flights = h.flights := rfl
@[simp] theorem Hw.plan_cmds : (h.plan i o).cmds = h.cmds := rfl
@[simp] theorem Hw.plan_packets : (h.plan i o).packets = h.packets := rfl
@[simp] theorem Hw.plan_rred : (h.plan i o).rred = h.rred := rfl
@[simp] theorem Hw.plan_marks : (h.plan i o).marks = h.marks := rfl
@[simp] theorem Hw.plan_mctx : (h.plan i o).mctx = h.mctx := rfl
@[simp] theorem Hw.plan_spare : (h.plan i o).spare = h.spare := rfl
@[simp] theorem Hw.plan_ovf : (h.plan i o).ovf = h.ovf := rfl
@[simp] theorem Hw.plan_recs : (h.plan i o).recs = h.recs := rfl
@[simp] theorem Hw.plan_owners : (h.plan i o).owners = h.owners := rfl
@[simp] theorem Hw.plan_tags : (h.plan i o).tags = h.tags := rfl
@[simp] theorem Hw.plan_l2 : (h.plan i o).l2 = h.l2 := rfl
@[simp] theorem Hw.plan_access : (h.plan i o).access = h.access := rfl
@[simp] theorem Hw.plan_migs : (h.plan i o).migs = h.migs := rfl
@[simp] theorem Hw.plan_cur : (h.plan i o).cur = h.cur := rfl
@[simp] theorem Hw.plan_occ : (h.plan i o).occ = h.occ := rfl
@[simp] theorem Hw.plan_tried : (h.plan i o).tried = h.tried := rfl
@[simp] theorem Hw.plan_slotPtr : (h.plan i o).slotPtr = h.slotPtr := rfl
@[simp] theorem Hw.plan_nextId : (h.plan i o).nextId = h.nextId := rfl
@[simp] theorem Hw.plan_free : (h.plan i o).free = h.free := rfl
@[simp] theorem Hw.plan_wq : (h.plan i o).wq = h.wq := rfl
end

/-! ### Hw.moved changes only `tried` -/
section
variable (h : Hw)
@[simp] theorem Hw.moved_boot : (h.moved).boot = h.boot := rfl
@[simp] theorem Hw.moved_links : (h.moved).links = h.links := rfl
@[simp] theorem Hw.moved_chans : (h.moved).chans = h.chans := rfl
@[simp] theorem Hw.moved_rings : (h.moved).rings = h.rings := rfl
@[simp] theorem Hw.moved_ports : (h.moved).ports = h.ports := rfl
@[simp] theorem Hw.moved_host : (h.moved).host = h.host := rfl
@[simp] theorem Hw.moved_hotHbm : (h.moved).hotHbm = h.hotHbm := rfl
@[simp] theorem Hw.moved_trip : (h.moved).trip = h.trip := rfl
@[simp] theorem Hw.moved_fatal : (h.moved).fatal = h.fatal := rfl
@[simp] theorem Hw.moved_poison : (h.moved).poison = h.poison := rfl
@[simp] theorem Hw.moved_trace : (h.moved).trace = h.trace := rfl
@[simp] theorem Hw.moved_out : (h.moved).out = h.out := rfl
@[simp] theorem Hw.moved_heldAcc : (h.moved).heldAcc = h.heldAcc := rfl
@[simp] theorem Hw.moved_fns : (h.moved).fns = h.fns := rfl
@[simp] theorem Hw.moved_parts : (h.moved).parts = h.parts := rfl
@[simp] theorem Hw.moved_roots : (h.moved).roots = h.roots := rfl
@[simp] theorem Hw.moved_cores : (h.moved).cores = h.cores := rfl
@[simp] theorem Hw.moved_dieTlb : (h.moved).dieTlb = h.dieTlb := rfl
@[simp] theorem Hw.moved_fcores : (h.moved).fcores = h.fcores := rfl
@[simp] theorem Hw.moved_blocks : (h.moved).blocks = h.blocks := rfl
@[simp] theorem Hw.moved_warps : (h.moved).warps = h.warps := rfl
@[simp] theorem Hw.moved_grids : (h.moved).grids = h.grids := rfl
@[simp] theorem Hw.moved_units : (h.moved).units = h.units := rfl
@[simp] theorem Hw.moved_flights : (h.moved).flights = h.flights := rfl
@[simp] theorem Hw.moved_cmds : (h.moved).cmds = h.cmds := rfl
@[simp] theorem Hw.moved_packets : (h.moved).packets = h.packets := rfl
@[simp] theorem Hw.moved_rred : (h.moved).rred = h.rred := rfl
@[simp] theorem Hw.moved_marks : (h.moved).marks = h.marks := rfl
@[simp] theorem Hw.moved_mctx : (h.moved).mctx = h.mctx := rfl
@[simp] theorem Hw.moved_spare : (h.moved).spare = h.spare := rfl
@[simp] theorem Hw.moved_ovf : (h.moved).ovf = h.ovf := rfl
@[simp] theorem Hw.moved_recs : (h.moved).recs = h.recs := rfl
@[simp] theorem Hw.moved_owners : (h.moved).owners = h.owners := rfl
@[simp] theorem Hw.moved_tags : (h.moved).tags = h.tags := rfl
@[simp] theorem Hw.moved_l2 : (h.moved).l2 = h.l2 := rfl
@[simp] theorem Hw.moved_access : (h.moved).access = h.access := rfl
@[simp] theorem Hw.moved_migs : (h.moved).migs = h.migs := rfl
@[simp] theorem Hw.moved_agenda : (h.moved).agenda = h.agenda := rfl
@[simp] theorem Hw.moved_cur : (h.moved).cur = h.cur := rfl
@[simp] theorem Hw.moved_occ : (h.moved).occ = h.occ := rfl
@[simp] theorem Hw.moved_slotPtr : (h.moved).slotPtr = h.slotPtr := rfl
@[simp] theorem Hw.moved_nextId : (h.moved).nextId = h.nextId := rfl
@[simp] theorem Hw.moved_free : (h.moved).free = h.free := rfl
@[simp] theorem Hw.moved_wq : (h.moved).wq = h.wq := rfl
end

/-! ### Hw.send changes only `out` -/
section
variable (h : Hw) (o : Out)
@[simp] theorem Hw.send_boot : (h.send o).boot = h.boot := rfl
@[simp] theorem Hw.send_links : (h.send o).links = h.links := rfl
@[simp] theorem Hw.send_chans : (h.send o).chans = h.chans := rfl
@[simp] theorem Hw.send_rings : (h.send o).rings = h.rings := rfl
@[simp] theorem Hw.send_ports : (h.send o).ports = h.ports := rfl
@[simp] theorem Hw.send_host : (h.send o).host = h.host := rfl
@[simp] theorem Hw.send_hotHbm : (h.send o).hotHbm = h.hotHbm := rfl
@[simp] theorem Hw.send_trip : (h.send o).trip = h.trip := rfl
@[simp] theorem Hw.send_fatal : (h.send o).fatal = h.fatal := rfl
@[simp] theorem Hw.send_poison : (h.send o).poison = h.poison := rfl
@[simp] theorem Hw.send_trace : (h.send o).trace = h.trace := rfl
@[simp] theorem Hw.send_heldAcc : (h.send o).heldAcc = h.heldAcc := rfl
@[simp] theorem Hw.send_fns : (h.send o).fns = h.fns := rfl
@[simp] theorem Hw.send_parts : (h.send o).parts = h.parts := rfl
@[simp] theorem Hw.send_roots : (h.send o).roots = h.roots := rfl
@[simp] theorem Hw.send_cores : (h.send o).cores = h.cores := rfl
@[simp] theorem Hw.send_dieTlb : (h.send o).dieTlb = h.dieTlb := rfl
@[simp] theorem Hw.send_fcores : (h.send o).fcores = h.fcores := rfl
@[simp] theorem Hw.send_blocks : (h.send o).blocks = h.blocks := rfl
@[simp] theorem Hw.send_warps : (h.send o).warps = h.warps := rfl
@[simp] theorem Hw.send_grids : (h.send o).grids = h.grids := rfl
@[simp] theorem Hw.send_units : (h.send o).units = h.units := rfl
@[simp] theorem Hw.send_flights : (h.send o).flights = h.flights := rfl
@[simp] theorem Hw.send_cmds : (h.send o).cmds = h.cmds := rfl
@[simp] theorem Hw.send_packets : (h.send o).packets = h.packets := rfl
@[simp] theorem Hw.send_rred : (h.send o).rred = h.rred := rfl
@[simp] theorem Hw.send_marks : (h.send o).marks = h.marks := rfl
@[simp] theorem Hw.send_mctx : (h.send o).mctx = h.mctx := rfl
@[simp] theorem Hw.send_spare : (h.send o).spare = h.spare := rfl
@[simp] theorem Hw.send_ovf : (h.send o).ovf = h.ovf := rfl
@[simp] theorem Hw.send_recs : (h.send o).recs = h.recs := rfl
@[simp] theorem Hw.send_owners : (h.send o).owners = h.owners := rfl
@[simp] theorem Hw.send_tags : (h.send o).tags = h.tags := rfl
@[simp] theorem Hw.send_l2 : (h.send o).l2 = h.l2 := rfl
@[simp] theorem Hw.send_access : (h.send o).access = h.access := rfl
@[simp] theorem Hw.send_migs : (h.send o).migs = h.migs := rfl
@[simp] theorem Hw.send_agenda : (h.send o).agenda = h.agenda := rfl
@[simp] theorem Hw.send_cur : (h.send o).cur = h.cur := rfl
@[simp] theorem Hw.send_occ : (h.send o).occ = h.occ := rfl
@[simp] theorem Hw.send_tried : (h.send o).tried = h.tried := rfl
@[simp] theorem Hw.send_slotPtr : (h.send o).slotPtr = h.slotPtr := rfl
@[simp] theorem Hw.send_nextId : (h.send o).nextId = h.nextId := rfl
@[simp] theorem Hw.send_free : (h.send o).free = h.free := rfl
@[simp] theorem Hw.send_wq : (h.send o).wq = h.wq := rfl
end

/-! ### Hw.putByte changes only `wq` -/
section
variable (h : Hw) (a : Nat) (b : Byte)
@[simp] theorem Hw.putByte_boot : (h.putByte a b).boot = h.boot := rfl
@[simp] theorem Hw.putByte_links : (h.putByte a b).links = h.links := rfl
@[simp] theorem Hw.putByte_chans : (h.putByte a b).chans = h.chans := rfl
@[simp] theorem Hw.putByte_rings : (h.putByte a b).rings = h.rings := rfl
@[simp] theorem Hw.putByte_ports : (h.putByte a b).ports = h.ports := rfl
@[simp] theorem Hw.putByte_host : (h.putByte a b).host = h.host := rfl
@[simp] theorem Hw.putByte_hotHbm : (h.putByte a b).hotHbm = h.hotHbm := rfl
@[simp] theorem Hw.putByte_trip : (h.putByte a b).trip = h.trip := rfl
@[simp] theorem Hw.putByte_fatal : (h.putByte a b).fatal = h.fatal := rfl
@[simp] theorem Hw.putByte_poison : (h.putByte a b).poison = h.poison := rfl
@[simp] theorem Hw.putByte_trace : (h.putByte a b).trace = h.trace := rfl
@[simp] theorem Hw.putByte_out : (h.putByte a b).out = h.out := rfl
@[simp] theorem Hw.putByte_heldAcc : (h.putByte a b).heldAcc = h.heldAcc := rfl
@[simp] theorem Hw.putByte_fns : (h.putByte a b).fns = h.fns := rfl
@[simp] theorem Hw.putByte_parts : (h.putByte a b).parts = h.parts := rfl
@[simp] theorem Hw.putByte_roots : (h.putByte a b).roots = h.roots := rfl
@[simp] theorem Hw.putByte_cores : (h.putByte a b).cores = h.cores := rfl
@[simp] theorem Hw.putByte_dieTlb : (h.putByte a b).dieTlb = h.dieTlb := rfl
@[simp] theorem Hw.putByte_fcores : (h.putByte a b).fcores = h.fcores := rfl
@[simp] theorem Hw.putByte_blocks : (h.putByte a b).blocks = h.blocks := rfl
@[simp] theorem Hw.putByte_warps : (h.putByte a b).warps = h.warps := rfl
@[simp] theorem Hw.putByte_grids : (h.putByte a b).grids = h.grids := rfl
@[simp] theorem Hw.putByte_units : (h.putByte a b).units = h.units := rfl
@[simp] theorem Hw.putByte_flights : (h.putByte a b).flights = h.flights := rfl
@[simp] theorem Hw.putByte_cmds : (h.putByte a b).cmds = h.cmds := rfl
@[simp] theorem Hw.putByte_packets : (h.putByte a b).packets = h.packets := rfl
@[simp] theorem Hw.putByte_rred : (h.putByte a b).rred = h.rred := rfl
@[simp] theorem Hw.putByte_marks : (h.putByte a b).marks = h.marks := rfl
@[simp] theorem Hw.putByte_mctx : (h.putByte a b).mctx = h.mctx := rfl
@[simp] theorem Hw.putByte_spare : (h.putByte a b).spare = h.spare := rfl
@[simp] theorem Hw.putByte_ovf : (h.putByte a b).ovf = h.ovf := rfl
@[simp] theorem Hw.putByte_recs : (h.putByte a b).recs = h.recs := rfl
@[simp] theorem Hw.putByte_owners : (h.putByte a b).owners = h.owners := rfl
@[simp] theorem Hw.putByte_tags : (h.putByte a b).tags = h.tags := rfl
@[simp] theorem Hw.putByte_l2 : (h.putByte a b).l2 = h.l2 := rfl
@[simp] theorem Hw.putByte_access : (h.putByte a b).access = h.access := rfl
@[simp] theorem Hw.putByte_migs : (h.putByte a b).migs = h.migs := rfl
@[simp] theorem Hw.putByte_agenda : (h.putByte a b).agenda = h.agenda := rfl
@[simp] theorem Hw.putByte_cur : (h.putByte a b).cur = h.cur := rfl
@[simp] theorem Hw.putByte_occ : (h.putByte a b).occ = h.occ := rfl
@[simp] theorem Hw.putByte_tried : (h.putByte a b).tried = h.tried := rfl
@[simp] theorem Hw.putByte_slotPtr : (h.putByte a b).slotPtr = h.slotPtr := rfl
@[simp] theorem Hw.putByte_nextId : (h.putByte a b).nextId = h.nextId := rfl
@[simp] theorem Hw.putByte_free : (h.putByte a b).free = h.free := rfl
end

/-! ### Warp.setV changes only `vregs` -/
section
variable (w : Warp) (r n : Nat) (v : Word)
@[simp] theorem Warp.setV_k : (w.setV r n v).k = w.k := rfl
@[simp] theorem Warp.setV_role : (w.setV r n v).role = w.role := rfl
@[simp] theorem Warp.setV_vallot : (w.setV r n v).vallot = w.vallot := rfl
@[simp] theorem Warp.setV_uwin : (w.setV r n v).uwin = w.uwin := rfl
@[simp] theorem Warp.setV_ctx : (w.setV r n v).ctx = w.ctx := rfl
@[simp] theorem Warp.setV_vrBase : (w.setV r n v).vrBase = w.vrBase := rfl
@[simp] theorem Warp.setV_vrSize : (w.setV r n v).vrSize = w.vrSize := rfl
@[simp] theorem Warp.setV_empty : (w.setV r n v).empty = w.empty := rfl
@[simp] theorem Warp.setV_uregs : (w.setV r n v).uregs = w.uregs := rfl
@[simp] theorem Warp.setV_preds : (w.setV r n v).preds = w.preds := rfl
@[simp] theorem Warp.setV_xi : (w.setV r n v).xi = w.xi := rfl
@[simp] theorem Warp.setV_wbase : (w.setV r n v).wbase = w.wbase := rfl
@[simp] theorem Warp.setV_ubase : (w.setV r n v).ubase = w.ubase := rfl
@[simp] theorem Warp.setV_p0 : (w.setV r n v).p0 = w.p0 := rfl
@[simp] theorem Warp.setV_p1 : (w.setV r n v).p1 = w.p1 := rfl
@[simp] theorem Warp.setV_split : (w.setV r n v).split = w.split := rfl
@[simp] theorem Warp.setV_exited : (w.setV r n v).exited = w.exited := rfl
@[simp] theorem Warp.setV_done : (w.setV r n v).done = w.done := rfl
@[simp] theorem Warp.setV_mode : (w.setV r n v).mode = w.mode := rfl
@[simp] theorem Warp.setV_frame : (w.setV r n v).frame = w.frame := rfl
@[simp] theorem Warp.setV_held : (w.setV r n v).held = w.held := rfl
@[simp] theorem Warp.setV_owed : (w.setV r n v).owed = w.owed := rfl
@[simp] theorem Warp.setV_stopped : (w.setV r n v).stopped = w.stopped := rfl
@[simp] theorem Warp.setV_replayFirst : (w.setV r n v).replayFirst = w.replayFirst := rfl
@[simp] theorem Warp.setV_progressAt : (w.setV r n v).progressAt = w.progressAt := rfl
@[simp] theorem Warp.setV_rmode : (w.setV r n v).rmode = w.rmode := rfl
@[simp] theorem Warp.setV_nbv : (w.setV r n v).nbv = w.nbv := rfl
@[simp] theorem Warp.setV_chint : (w.setV r n v).chint = w.chint := rfl
@[simp] theorem Warp.setV_ehdr : (w.setV r n v).ehdr = w.ehdr := rfl
@[simp] theorem Warp.setV_trapc : (w.setV r n v).trapc = w.trapc := rfl
@[simp] theorem Warp.setV_trappc : (w.setV r n v).trappc = w.trappc := rfl
@[simp] theorem Warp.setV_trapa : (w.setV r n v).trapa = w.trapa := rfl
@[simp] theorem Warp.setV_trapo : (w.setV r n v).trapo = w.trapo := rfl
@[simp] theorem Warp.setV_raceopc : (w.setV r n v).raceopc = w.raceopc := rfl
@[simp] theorem Warp.setV_bpctl : (w.setV r n v).bpctl = w.bpctl := rfl
@[simp] theorem Warp.setV_bpaddr : (w.setV r n v).bpaddr = w.bpaddr := rfl
@[simp] theorem Warp.setV_wpctl : (w.setV r n v).wpctl = w.wpctl := rfl
@[simp] theorem Warp.setV_wpaddr : (w.setV r n v).wpaddr = w.wpaddr := rfl
@[simp] theorem Warp.setV_region : (w.setV r n v).region = w.region := rfl
@[simp] theorem Warp.setV_lost : (w.setV r n v).lost = w.lost := rfl
@[simp] theorem Warp.setV_q0 : (w.setV r n v).q0 = w.q0 := rfl
@[simp] theorem Warp.setV_q2 : (w.setV r n v).q2 = w.q2 := rfl
@[simp] theorem Warp.setV_q4 : (w.setV r n v).q4 = w.q4 := rfl
@[simp] theorem Warp.setV_seq : (w.setV r n v).seq = w.seq := rfl
@[simp] theorem Warp.setV_mseq : (w.setV r n v).mseq = w.mseq := rfl
@[simp] theorem Warp.setV_batch : (w.setV r n v).batch = w.batch := rfl
@[simp] theorem Warp.setV_batchOf : (w.setV r n v).batchOf = w.batchOf := rfl
@[simp] theorem Warp.setV_acqDone : (w.setV r n v).acqDone = w.acqDone := rfl
@[simp] theorem Warp.setV_macqDone : (w.setV r n v).macqDone = w.macqDone := rfl
@[simp] theorem Warp.setV_pend : (w.setV r n v).pend = w.pend := rfl
@[simp] theorem Warp.setV_sync : (w.setV r n v).sync = w.sync := rfl
end

/-! ### Warp.setU changes only `uregs` -/
section
variable (w : Warp) (r : Nat) (v : Word)
@[simp] theorem Warp.setU_k : (w.setU r v).k = w.k := rfl
@[simp] theorem Warp.setU_role : (w.setU r v).role = w.role := rfl
@[simp] theorem Warp.setU_vallot : (w.setU r v).vallot = w.vallot := rfl
@[simp] theorem Warp.setU_uwin : (w.setU r v).uwin = w.uwin := rfl
@[simp] theorem Warp.setU_ctx : (w.setU r v).ctx = w.ctx := rfl
@[simp] theorem Warp.setU_vrBase : (w.setU r v).vrBase = w.vrBase := rfl
@[simp] theorem Warp.setU_vrSize : (w.setU r v).vrSize = w.vrSize := rfl
@[simp] theorem Warp.setU_vregs : (w.setU r v).vregs = w.vregs := rfl
@[simp] theorem Warp.setU_empty : (w.setU r v).empty = w.empty := rfl
@[simp] theorem Warp.setU_preds : (w.setU r v).preds = w.preds := rfl
@[simp] theorem Warp.setU_xi : (w.setU r v).xi = w.xi := rfl
@[simp] theorem Warp.setU_wbase : (w.setU r v).wbase = w.wbase := rfl
@[simp] theorem Warp.setU_ubase : (w.setU r v).ubase = w.ubase := rfl
@[simp] theorem Warp.setU_p0 : (w.setU r v).p0 = w.p0 := rfl
@[simp] theorem Warp.setU_p1 : (w.setU r v).p1 = w.p1 := rfl
@[simp] theorem Warp.setU_split : (w.setU r v).split = w.split := rfl
@[simp] theorem Warp.setU_exited : (w.setU r v).exited = w.exited := rfl
@[simp] theorem Warp.setU_done : (w.setU r v).done = w.done := rfl
@[simp] theorem Warp.setU_mode : (w.setU r v).mode = w.mode := rfl
@[simp] theorem Warp.setU_frame : (w.setU r v).frame = w.frame := rfl
@[simp] theorem Warp.setU_held : (w.setU r v).held = w.held := rfl
@[simp] theorem Warp.setU_owed : (w.setU r v).owed = w.owed := rfl
@[simp] theorem Warp.setU_stopped : (w.setU r v).stopped = w.stopped := rfl
@[simp] theorem Warp.setU_replayFirst : (w.setU r v).replayFirst = w.replayFirst := rfl
@[simp] theorem Warp.setU_progressAt : (w.setU r v).progressAt = w.progressAt := rfl
@[simp] theorem Warp.setU_rmode : (w.setU r v).rmode = w.rmode := rfl
@[simp] theorem Warp.setU_nbv : (w.setU r v).nbv = w.nbv := rfl
@[simp] theorem Warp.setU_chint : (w.setU r v).chint = w.chint := rfl
@[simp] theorem Warp.setU_ehdr : (w.setU r v).ehdr = w.ehdr := rfl
@[simp] theorem Warp.setU_trapc : (w.setU r v).trapc = w.trapc := rfl
@[simp] theorem Warp.setU_trappc : (w.setU r v).trappc = w.trappc := rfl
@[simp] theorem Warp.setU_trapa : (w.setU r v).trapa = w.trapa := rfl
@[simp] theorem Warp.setU_trapo : (w.setU r v).trapo = w.trapo := rfl
@[simp] theorem Warp.setU_raceopc : (w.setU r v).raceopc = w.raceopc := rfl
@[simp] theorem Warp.setU_bpctl : (w.setU r v).bpctl = w.bpctl := rfl
@[simp] theorem Warp.setU_bpaddr : (w.setU r v).bpaddr = w.bpaddr := rfl
@[simp] theorem Warp.setU_wpctl : (w.setU r v).wpctl = w.wpctl := rfl
@[simp] theorem Warp.setU_wpaddr : (w.setU r v).wpaddr = w.wpaddr := rfl
@[simp] theorem Warp.setU_region : (w.setU r v).region = w.region := rfl
@[simp] theorem Warp.setU_lost : (w.setU r v).lost = w.lost := rfl
@[simp] theorem Warp.setU_q0 : (w.setU r v).q0 = w.q0 := rfl
@[simp] theorem Warp.setU_q2 : (w.setU r v).q2 = w.q2 := rfl
@[simp] theorem Warp.setU_q4 : (w.setU r v).q4 = w.q4 := rfl
@[simp] theorem Warp.setU_seq : (w.setU r v).seq = w.seq := rfl
@[simp] theorem Warp.setU_mseq : (w.setU r v).mseq = w.mseq := rfl
@[simp] theorem Warp.setU_batch : (w.setU r v).batch = w.batch := rfl
@[simp] theorem Warp.setU_batchOf : (w.setU r v).batchOf = w.batchOf := rfl
@[simp] theorem Warp.setU_acqDone : (w.setU r v).acqDone = w.acqDone := rfl
@[simp] theorem Warp.setU_macqDone : (w.setU r v).macqDone = w.macqDone := rfl
@[simp] theorem Warp.setU_pend : (w.setU r v).pend = w.pend := rfl
@[simp] theorem Warp.setU_sync : (w.setU r v).sync = w.sync := rfl
end

/-! ### Warp.setFull changes only `empty` -/
section
variable (w : Warp) (r n : Nat)
@[simp] theorem Warp.setFull_k : (w.setFull r n).k = w.k := rfl
@[simp] theorem Warp.setFull_role : (w.setFull r n).role = w.role := rfl
@[simp] theorem Warp.setFull_vallot : (w.setFull r n).vallot = w.vallot := rfl
@[simp] theorem Warp.setFull_uwin : (w.setFull r n).uwin = w.uwin := rfl
@[simp] theorem Warp.setFull_ctx : (w.setFull r n).ctx = w.ctx := rfl
@[simp] theorem Warp.setFull_vrBase : (w.setFull r n).vrBase = w.vrBase := rfl
@[simp] theorem Warp.setFull_vrSize : (w.setFull r n).vrSize = w.vrSize := rfl
@[simp] theorem Warp.setFull_vregs : (w.setFull r n).vregs = w.vregs := rfl
@[simp] theorem Warp.setFull_uregs : (w.setFull r n).uregs = w.uregs := rfl
@[simp] theorem Warp.setFull_preds : (w.setFull r n).preds = w.preds := rfl
@[simp] theorem Warp.setFull_xi : (w.setFull r n).xi = w.xi := rfl
@[simp] theorem Warp.setFull_wbase : (w.setFull r n).wbase = w.wbase := rfl
@[simp] theorem Warp.setFull_ubase : (w.setFull r n).ubase = w.ubase := rfl
@[simp] theorem Warp.setFull_p0 : (w.setFull r n).p0 = w.p0 := rfl
@[simp] theorem Warp.setFull_p1 : (w.setFull r n).p1 = w.p1 := rfl
@[simp] theorem Warp.setFull_split : (w.setFull r n).split = w.split := rfl
@[simp] theorem Warp.setFull_exited : (w.setFull r n).exited = w.exited := rfl
@[simp] theorem Warp.setFull_done : (w.setFull r n).done = w.done := rfl
@[simp] theorem Warp.setFull_mode : (w.setFull r n).mode = w.mode := rfl
@[simp] theorem Warp.setFull_frame : (w.setFull r n).frame = w.frame := rfl
@[simp] theorem Warp.setFull_held : (w.setFull r n).held = w.held := rfl
@[simp] theorem Warp.setFull_owed : (w.setFull r n).owed = w.owed := rfl
@[simp] theorem Warp.setFull_stopped : (w.setFull r n).stopped = w.stopped := rfl
@[simp] theorem Warp.setFull_replayFirst : (w.setFull r n).replayFirst = w.replayFirst := rfl
@[simp] theorem Warp.setFull_progressAt : (w.setFull r n).progressAt = w.progressAt := rfl
@[simp] theorem Warp.setFull_rmode : (w.setFull r n).rmode = w.rmode := rfl
@[simp] theorem Warp.setFull_nbv : (w.setFull r n).nbv = w.nbv := rfl
@[simp] theorem Warp.setFull_chint : (w.setFull r n).chint = w.chint := rfl
@[simp] theorem Warp.setFull_ehdr : (w.setFull r n).ehdr = w.ehdr := rfl
@[simp] theorem Warp.setFull_trapc : (w.setFull r n).trapc = w.trapc := rfl
@[simp] theorem Warp.setFull_trappc : (w.setFull r n).trappc = w.trappc := rfl
@[simp] theorem Warp.setFull_trapa : (w.setFull r n).trapa = w.trapa := rfl
@[simp] theorem Warp.setFull_trapo : (w.setFull r n).trapo = w.trapo := rfl
@[simp] theorem Warp.setFull_raceopc : (w.setFull r n).raceopc = w.raceopc := rfl
@[simp] theorem Warp.setFull_bpctl : (w.setFull r n).bpctl = w.bpctl := rfl
@[simp] theorem Warp.setFull_bpaddr : (w.setFull r n).bpaddr = w.bpaddr := rfl
@[simp] theorem Warp.setFull_wpctl : (w.setFull r n).wpctl = w.wpctl := rfl
@[simp] theorem Warp.setFull_wpaddr : (w.setFull r n).wpaddr = w.wpaddr := rfl
@[simp] theorem Warp.setFull_region : (w.setFull r n).region = w.region := rfl
@[simp] theorem Warp.setFull_lost : (w.setFull r n).lost = w.lost := rfl
@[simp] theorem Warp.setFull_q0 : (w.setFull r n).q0 = w.q0 := rfl
@[simp] theorem Warp.setFull_q2 : (w.setFull r n).q2 = w.q2 := rfl
@[simp] theorem Warp.setFull_q4 : (w.setFull r n).q4 = w.q4 := rfl
@[simp] theorem Warp.setFull_seq : (w.setFull r n).seq = w.seq := rfl
@[simp] theorem Warp.setFull_mseq : (w.setFull r n).mseq = w.mseq := rfl
@[simp] theorem Warp.setFull_batch : (w.setFull r n).batch = w.batch := rfl
@[simp] theorem Warp.setFull_batchOf : (w.setFull r n).batchOf = w.batchOf := rfl
@[simp] theorem Warp.setFull_acqDone : (w.setFull r n).acqDone = w.acqDone := rfl
@[simp] theorem Warp.setFull_macqDone : (w.setFull r n).macqDone = w.macqDone := rfl
@[simp] theorem Warp.setFull_pend : (w.setFull r n).pend = w.pend := rfl
@[simp] theorem Warp.setFull_sync : (w.setFull r n).sync = w.sync := rfl
end

/-! ### Path.retired ends what belongs to one instruction, and leaves where the path stands -/
section
variable (p : Path) (pc : DWord)
@[simp] theorem Path.retired_live : (p.retired pc).live = p.live := rfl
@[simp] theorem Path.retired_pc : (p.retired pc).pc = p.pc := rfl
@[simp] theorem Path.retired_mask : (p.retired pc).mask = p.mask := rfl
@[simp] theorem Path.retired_stack : (p.retired pc).stack = p.stack := rfl
@[simp] theorem Path.retired_base : (p.retired pc).base = p.base := rfl
@[simp] theorem Path.retired_atJoin : (p.retired pc).atJoin = p.atJoin := rfl
@[simp] theorem Path.retired_packed : (p.retired pc).packed = p.packed := rfl
@[simp] theorem Path.retired_mon : (p.retired pc).mon = p.mon := rfl
@[simp] theorem Path.retired_barTok : (p.retired pc).barTok = p.barTok := rfl
@[simp] theorem Path.retired_barOn : (p.retired pc).barOn = p.barOn := rfl
@[simp] theorem Path.retired_yieldTo : (p.retired pc).yieldTo = p.yieldTo := rfl
@[simp] theorem Path.retired_hold : (p.retired pc).hold = p.hold := rfl
@[simp] theorem Path.retired_resume : (p.retired pc).resume = p.later := rfl
@[simp] theorem Path.retired_later : (p.retired pc).later = 0#32 := rfl
end

end Sys2Proof.Machine
end

