-- ==== Sys2Proof/Laws/Tab.lean ====
section
/-! SUPPORT. Sys2Proof/Laws/Tab.lean: reading a table after changing it, the canonical form of memory, and the bytes
of memory after the writes of a step. -/
set_option Elab.async false
namespace Sys2Proof.Machine

variable {α : Type}

@[simp] theorem Tab.find?_nil (k : Nat) : Tab.find? ([] : Tab α) k = none := rfl

@[simp] theorem Tab.find?_put_same (t : Tab α) (k : Nat) (v : α) : Tab.find? (Tab.put t k v) k = some v := by
  induction t with
  | nil => simp [Tab.put, Tab.find?]
  | cons e t ih =>
    obtain ⟨j, w⟩ := e
    simp only [Tab.put]
    split
    · simp [Tab.find?]
    · split
      · simp [Tab.find?]
      · rename_i h
        simp [Tab.find?, ih, Ne.symm h]

theorem Tab.find?_put_other (t : Tab α) {k j : Nat} (v : α) (h : j ≠ k) :
    Tab.find? (Tab.put t k v) j = Tab.find? t j := by
  induction t with
  | nil => simp [Tab.put, Tab.find?, Ne.symm h]
  | cons e t ih =>
    obtain ⟨i, w⟩ := e
    simp only [Tab.put]
    split
    · simp [Tab.find?, Ne.symm h]
    · split
      · rename_i h2; subst h2; simp [Tab.find?, Ne.symm h]
      · simp [Tab.find?, ih]

@[simp] theorem Tab.getD_put_same (t : Tab α) (k : Nat) (v d : α) : Tab.getD (Tab.put t k v) k d = v := by
  simp [Tab.getD]

theorem Tab.getD_put_other (t : Tab α) {k j : Nat} (v d : α) (h : j ≠ k) :
    Tab.getD (Tab.put t k v) j d = Tab.getD t j d := by
  simp [Tab.getD, Tab.find?_put_other t v h]

@[simp] theorem Tab.find?_del_same (t : Tab α) (k : Nat) : Tab.find? (Tab.del t k) k = none := by
  induction t with
  | nil => rfl
  | cons e t ih =>
    obtain ⟨j, w⟩ := e
    simp only [Tab.del]
    split
    · exact ih
    · simp [Tab.find?, *]

theorem Tab.find?_del_other (t : Tab α) {k j : Nat} (h : j ≠ k) : Tab.find? (Tab.del t k) j = Tab.find? t j := by
  induction t with
  | nil => rfl
  | cons e t ih =>
    obtain ⟨i, w⟩ := e
    simp only [Tab.del]
    split
    · rename_i hi; subst hi; simp [Tab.find?, ih, Ne.symm h]
    · simp [Tab.find?, ih]

@[simp] theorem Tab.getD_store_same [DecidableEq α] (d : α) (t : Tab α) (k : Nat) (v : α) :
    Tab.getD (Tab.store d t k v) k d = v := by
  unfold Tab.store
  split
  · simp [Tab.getD, *]
  · simp

theorem Tab.getD_store_other [DecidableEq α] (d : α) (t : Tab α) {k j : Nat} (v : α) (h : j ≠ k) :
    Tab.getD (Tab.store d t k v) j d = Tab.getD t j d := by
  unfold Tab.store
  split
  · simp [Tab.getD, Tab.find?_del_other t h]
  · exact Tab.getD_put_other t v d h

theorem Tab.find?_modify_same (t : Tab α) (k : Nat) (f : α → α) :
    Tab.find? (Tab.modify t k f) k = (Tab.find? t k).map f := by
  unfold Tab.modify
  split <;> simp [*]

theorem Tab.find?_modify_other (t : Tab α) {k j : Nat} (f : α → α) (h : j ≠ k) :
    Tab.find? (Tab.modify t k f) j = Tab.find? t j := by
  unfold Tab.modify
  split
  · exact Tab.find?_put_other t _ h
  · rfl

theorem Tab.above_mono {t : Tab α} {a b : Nat} (h : a ≤ b) (hb : Tab.above b t = true) : Tab.above a t = true := by
  cases t with
  | nil => rfl
  | cons e t => simp [Tab.above] at *; exact ⟨by omega, hb.2⟩

theorem Tab.above_put (t : Tab α) {b k : Nat} (v : α) (hk : b < k) (h : Tab.above b t = true) :
    Tab.above b (Tab.put t k v) = true := by
  induction t generalizing b with
  | nil => simp [Tab.put, Tab.above, hk]
  | cons e t ih =>
    obtain ⟨j, w⟩ := e
    simp [Tab.above] at h
    simp only [Tab.put]
    split
    · simp [Tab.above, *]
    · split
      · simp [Tab.above, *]
      · simp [Tab.above, h.1]; exact ih (by omega) h.2

theorem Tab.above_del (t : Tab α) {b : Nat} (k : Nat) (h : Tab.above b t = true) : Tab.above b (Tab.del t k) = true := by
  induction t generalizing b with
  | nil => rfl
  | cons e t ih =>
    obtain ⟨j, w⟩ := e
    simp [Tab.above] at h
    simp only [Tab.del]
    split
    · exact Tab.above_mono (by omega) (ih h.2)
    · simp [Tab.above, h.1]; exact ih h.2

theorem Tab.rising_of_above {t : Tab α} {b : Nat} (h : Tab.above b t = true) : Tab.rising t = true := by
  cases t with
  | nil => rfl
  | cons e t => simp [Tab.above] at h; simpa [Tab.rising] using h.2

theorem Tab.rising_put (t : Tab α) (k : Nat) (v : α) (h : Tab.rising t = true) : Tab.rising (Tab.put t k v) = true := by
  cases t with
  | nil => simp [Tab.put, Tab.rising, Tab.above]
  | cons e t =>
    obtain ⟨j, w⟩ := e
    simp [Tab.rising] at h
    simp only [Tab.put]
    split
    · simp [Tab.rising, Tab.above, *]
    · split
      · rename_i h1; subst h1; simpa [Tab.rising] using h
      · simp [Tab.rising]; exact Tab.above_put t v (by omega) h

theorem Tab.rising_del (t : Tab α) (k : Nat) (h : Tab.rising t = true) : Tab.rising (Tab.del t k) = true := by
  cases t with
  | nil => rfl
  | cons e t =>
    obtain ⟨j, w⟩ := e
    simp [Tab.rising] at h
    simp only [Tab.del]
    split
    · exact Tab.rising_of_above (Tab.above_del t k h)
    · simp [Tab.rising]; exact Tab.above_del t k h

theorem Tab.all_put (p : Nat × α → Bool) (t : Tab α) (k : Nat) (v : α) (hv : p (k, v) = true) (h : t.all p = true) :
    (Tab.put t k v).all p = true := by
  induction t with
  | nil => simp [Tab.put, hv]
  | cons e t ih =>
    obtain ⟨j, w⟩ := e
    rw [List.all_cons, Bool.and_eq_true] at h
    simp only [Tab.put]
    split
    · rw [List.all_cons, List.all_cons, hv, h.1, h.2]; rfl
    · split
      · rw [List.all_cons, hv, h.2]; rfl
      · rw [List.all_cons, h.1, ih h.2]; rfl

theorem Tab.all_del (p : Nat × α → Bool) (t : Tab α) (k : Nat) (h : t.all p = true) : (Tab.del t k).all p = true := by
  induction t with
  | nil => rfl
  | cons e t ih =>
    obtain ⟨j, w⟩ := e
    rw [List.all_cons, Bool.and_eq_true] at h
    simp only [Tab.del]
    split
    · exact ih h.2
    · rw [List.all_cons, h.1, ih h.2]; rfl

/-- Every operation over memory goes through `Tab.store`, which keeps the canonical form. -/
theorem Tab.wf_store [DecidableEq α] (d : α) (t : Tab α) (k : Nat) (v : α) (h : Tab.wf d t = true) :
    Tab.wf d (Tab.store d t k v) = true := by
  simp only [Tab.wf, Bool.and_eq_true] at *
  unfold Tab.store
  split
  · exact ⟨Tab.rising_del t k h.1, Tab.all_del _ t k h.2⟩
  · exact ⟨Tab.rising_put t k v h.1, Tab.all_put _ t k v (by simpa) h.2⟩

/-- The bytes a step writes leave memory in canonical form. -/
theorem flush_wf (ws mem : List Host.Cell) (h : Memory.wf mem = true) : Memory.wf (flush ws mem) = true := by
  induction ws with
  | nil => exact h
  | cons e ws ih => obtain ⟨a, b⟩ := e; exact Tab.wf_store 0#8 _ a b ih

/-- What memory reads after a step's writes: the newest byte written there, else the byte before. -/
theorem flush_getD (ws mem : List Host.Cell) (a : Nat) :
    Tab.getD (flush ws mem) a 0#8 = match Tab.find? ws a with
      | some b => b
      | none => Tab.getD mem a 0#8 := by
  induction ws with
  | nil => rfl
  | cons e ws ih =>
    obtain ⟨k, b⟩ := e
    by_cases h : k = a
    · subst h; simp [flush, Tab.find?]
    · simp [flush, Tab.find?, h, Tab.getD_store_other 0#8 _ b (Ne.symm h), ih]


end Sys2Proof.Machine
end

