-- ==== Sys2Proof/Laws/Parts.lean ====
section
/-! SUPPORT. Sys2Proof/Laws/Parts.lean: reading a part of the machine after changing a part of the same kind. -/
set_option Elab.async false
namespace Sys2Proof.Machine

variable (h : Hw)

@[simp] theorem Hw.fn_setFn_same (f : Nat) (x : Fn) : (h.setFn f x).fn f = x := by simp [Hw.fn, Hw.setFn]
theorem Hw.fn_setFn_other {f g : Nat} (x : Fn) (hne : g ≠ f) : (h.setFn f x).fn g = h.fn g :=
  Tab.getD_put_other _ _ _ hne
@[simp] theorem Hw.fn_onFn_same (f : Nat) (g : Fn → Fn) : (h.onFn f g).fn f = g (h.fn f) := by simp [Hw.onFn]
theorem Hw.fn_onFn_other {f k : Nat} (g : Fn → Fn) (hne : k ≠ f) : (h.onFn f g).fn k = h.fn k :=
  Hw.fn_setFn_other h _ hne

@[simp] theorem Hw.part_onPart_same (p : Nat) (g : Part → Part) : (h.onPart p g).part p = g (h.part p) := by
  simp [Hw.onPart, Hw.setPart, Hw.part]
theorem Hw.part_onPart_other {p k : Nat} (g : Part → Part) (hne : k ≠ p) : (h.onPart p g).part k = h.part k :=
  Tab.getD_put_other _ _ _ hne

@[simp] theorem Hw.core_onCore_same (c : Nat) (g : Core → Core) : (h.onCore c g).core c = g (h.core c) := by
  simp [Hw.onCore, Hw.core]
theorem Hw.core_onCore_other {c k : Nat} (g : Core → Core) (hne : k ≠ c) : (h.onCore c g).core k = h.core k :=
  Tab.getD_put_other _ _ _ hne

@[simp] theorem Hw.fcore_onFCore_same (f c : Nat) (g : FCore → FCore) :
    (h.onFCore f c g).fcore f c = g (h.fcore f c) := by
  simp [Hw.onFCore, Hw.fcore]

@[simp] theorem Hw.warp?_setWarp_same (k : Nat) (w : Warp) : (h.setWarp k w).warp? k = some w := by
  simp [Hw.setWarp, Hw.warp?]
theorem Hw.warp?_setWarp_other {k j : Nat} (w : Warp) (hne : j ≠ k) : (h.setWarp k w).warp? j = h.warp? j :=
  Tab.find?_put_other _ _ hne
@[simp] theorem Hw.warp?_onWarp_same (k : Nat) (g : Warp → Warp) : (h.onWarp k g).warp? k = (h.warp? k).map g :=
  Tab.find?_modify_same _ _ _
theorem Hw.warp?_onWarp_other {k j : Nat} (g : Warp → Warp) (hne : j ≠ k) : (h.onWarp k g).warp? j = h.warp? j :=
  Tab.find?_modify_other _ _ hne

@[simp] theorem Hw.block?_onBlock_same (k : Nat) (g : Block → Block) : (h.onBlock k g).block? k = (h.block? k).map g :=
  Tab.find?_modify_same _ _ _
theorem Hw.block?_onBlock_other {k j : Nat} (g : Block → Block) (hne : j ≠ k) : (h.onBlock k g).block? j = h.block? j :=
  Tab.find?_modify_other _ _ hne

/-- Updates of one part leave the reading of another kind of part alone. -/
@[simp] theorem Hw.warp?_onFn (f : Nat) (g : Fn → Fn) (k : Nat) : (h.onFn f g).warp? k = h.warp? k := rfl
@[simp] theorem Hw.warp?_onCore (f : Nat) (g : Core → Core) (k : Nat) : (h.onCore f g).warp? k = h.warp? k := rfl
@[simp] theorem Hw.warp?_onFCore (f c : Nat) (g : FCore → FCore) (k : Nat) : (h.onFCore f c g).warp? k = h.warp? k := rfl
@[simp] theorem Hw.warp?_onBlock (f : Nat) (g : Block → Block) (k : Nat) : (h.onBlock f g).warp? k = h.warp? k := rfl
@[simp] theorem Hw.block?_onWarp (f : Nat) (g : Warp → Warp) (k : Nat) : (h.onWarp f g).block? k = h.block? k := rfl
@[simp] theorem Hw.block?_onFn (f : Nat) (g : Fn → Fn) (k : Nat) : (h.onFn f g).block? k = h.block? k := rfl
@[simp] theorem Hw.block?_onFCore (f c : Nat) (g : FCore → FCore) (k : Nat) :
    (h.onFCore f c g).block? k = h.block? k := rfl
@[simp] theorem Hw.fn_onWarp (f : Nat) (g : Warp → Warp) (k : Nat) : (h.onWarp f g).fn k = h.fn k := rfl
@[simp] theorem Hw.part_onWarp (f : Nat) (g : Warp → Warp) (k : Nat) : (h.onWarp f g).part k = h.part k := rfl

@[simp] theorem Hw.warp?_plan (i : Instr) (o : Occasion) (k : Nat) : (h.plan i o).warp? k = h.warp? k := rfl
@[simp] theorem Hw.block?_plan (i : Instr) (o : Occasion) (k : Nat) : (h.plan i o).block? k = h.block? k := rfl
@[simp] theorem Hw.fn_plan (i : Instr) (o : Occasion) (k : Nat) : (h.plan i o).fn k = h.fn k := rfl
@[simp] theorem Hw.part_plan (i : Instr) (o : Occasion) (k : Nat) : (h.plan i o).part k = h.part k := rfl

end Sys2Proof.Machine
end

