-- ==== Sys2Proof/Laws/Operands.lean ====
section
/-! SUPPORT. Sys2Proof/Laws/Operands.lean: what reading registers, predicates and masks gives after writing them. -/
set_option Elab.async false
namespace Sys2Proof.Machine

/-! ## Lanes -/

theorem Warp.active_lt {w : Warp} {p : Path} {n : Nat} (h : n ∈ w.active p) : n < 1024 := by
  simp only [Warp.active, List.mem_filter, Path.issueMask, Bool.and_eq_true] at h
  exact BitVec.lt_of_getLsbD h.2.1.1

theorem Iss.lanes_lt {h : Hw} {q : Iss} (hq : Iss.of h = some q) : ∀ n ∈ q.lanes, n < 1024 := by
  intro n hn
  unfold Iss.of at hq
  split at hq
  · exact absurd hq (by simp)
  · split at hq
    · simp only [Option.some.injEq] at hq
      subst hq
      exact Warp.active_lt hn
    · exact absurd hq (by simp)

theorem Iss.of_warp {h : Hw} {q : Iss} (hq : Iss.of h = some q) : h.warp? q.wk = some q.w := by
  unfold Iss.of at hq
  split at hq
  · exact absurd hq (by simp)
  · split at hq
    · simp only [Option.some.injEq] at hq
      subst hq; assumption
    · exact absurd hq (by simp)

theorem Iss.of_block {h : Hw} {q : Iss} (hq : Iss.of h = some q) : h.block? q.bk = some q.b := by
  unfold Iss.of at hq
  split at hq
  · exact absurd hq (by simp)
  · split at hq
    · simp only [Option.some.injEq] at hq
      subst hq; assumption
    · exact absurd hq (by simp)

/-! ## Masks -/

theorem maskOf_getLsbD (l : List Nat) (f : Nat → Bool) (n : Nat) (hn : n < 1024) :
    (maskOf l f).getLsbD n = (decide (n ∈ l) && f n) := by
  have key : ∀ (l : List Nat) (m : Mask),
      (l.foldl (fun m n => if f n then m ||| (1#1024 <<< n) else m) m).getLsbD n
        = (m.getLsbD n || (decide (n ∈ l) && f n)) := by
    intro l
    induction l with
    | nil => intro m; simp
    | cons a l ih =>
      intro m
      rw [List.foldl_cons, ih]
      by_cases h : n = a
      · subst h
        cases f n <;> simp [hn]
      · have hb : (1#1024 <<< a).getLsbD n = false := by
          rw [BitVec.getLsbD_shiftLeft]
          by_cases hl : n < a
          · simp [hl]
          · have : n - a ≠ 0 := by omega
            simp [this]
        cases f a <;> simp [hb, h]
  simpa [maskOf] using key l 0#1024

/-! ## Registers -/

@[simp] theorem Warp.getV_setV_same (w : Warp) (r n : Nat) (v : Word) : (w.setV r n v).getV r n = v := by
  simp [Warp.getV, Warp.setV]

theorem Warp.getV_setV_other (w : Warp) {r n r' n' : Nat} (v : Word) (h : 1024 * r' + n' ≠ 1024 * r + n) :
    (w.setV r n v).getV r' n' = w.getV r' n' :=
  Tab.getD_store_other _ _ _ h

theorem Warp.getV_setV (w : Warp) {r n r' n' : Nat} (v : Word) (hn : n < 1024) (hn' : n' < 1024) :
    (w.setV r n v).getV r' n' = if r' = r ∧ n' = n then v else w.getV r' n' := by
  split
  · rename_i h; obtain ⟨rfl, rfl⟩ := h; simp
  · exact Warp.getV_setV_other w v (by omega)

theorem Warp.getU_setU (w : Warp) (r r' : Nat) (v : Word) :
    (w.setU r v).getU r' = if r' = r then v else w.getU r' := by
  split
  · rename_i h; subst h; simp [Warp.getU, Warp.setU]
  · rename_i h; exact Tab.getD_store_other _ _ _ h

/-- The words of one lane. -/
theorem Warp.getV_setVs (ws : List Word) (w : Warp) (r n j : Nat) {r' n' : Nat} (hn : n < 1024) (hn' : n' < 1024) :
    ((ws.zipIdx j).foldl (fun w (x : Word × Nat) => w.setV (r + x.2) n x.1) w).getV r' n'
      = if n' = n ∧ r + j ≤ r' ∧ r' < r + j + ws.length then ws.getD (r' - (r + j)) 0#32 else w.getV r' n' := by
  induction ws generalizing w j with
  | nil => simp
  | cons a ws ih =>
    rw [List.zipIdx_cons, List.foldl_cons, ih]
    rw [Warp.getV_setV w a hn hn']
    by_cases h : n' = n
    · subst h
      by_cases h1 : r' = r + j
      · subst h1; simp
      · by_cases h2 : r + (j + 1) ≤ r' ∧ r' < r + (j + 1) + ws.length
        · have h3 : r + j ≤ r' ∧ r' < r + j + (a :: ws).length := by simp; omega
          have h4 : r' - (r + j) = (r' - (r + (j + 1))) + 1 := by omega
          simp only [true_and]
          rw [if_pos h2, if_pos h3, h4]; simp
        · have h3 : ¬(r + j ≤ r' ∧ r' < r + j + (a :: ws).length) := by simp; omega
          simp only [true_and]
          rw [if_neg h2, if_neg h3, if_neg (by omega)]
    · simp [h]

theorem Warp.getV_writeV (w : Warp) (r : Nat) (lanes : List Nat) (val : Nat → List Word) {r' n' : Nat}
    (hl : ∀ n ∈ lanes, n < 1024) (hn' : n' < 1024) :
    (w.writeV r lanes val).getV r' n'
      = if n' ∈ lanes ∧ r ≤ r' ∧ r' < r + (val n').length then (val n').getD (r' - r) 0#32 else w.getV r' n' := by
  unfold Warp.writeV
  induction lanes generalizing w with
  | nil => simp
  | cons a l ih =>
    rw [List.foldl_cons, ih _ (fun n hn => hl n (List.mem_cons_of_mem a hn))]
    have := Warp.getV_setVs (val a) w r a 0 (r' := r') (n' := n') (hl a (by simp)) hn'
    simp only [Nat.add_zero] at this
    rw [this]
    by_cases h : n' = a
    · subst h
      by_cases h2 : r ≤ r' ∧ r' < r + (val n').length <;> simp [h2]
    · simp [h]

theorem Warp.getU_setUs (ws : List Word) (w : Warp) (r j r' : Nat) :
    ((ws.zipIdx j).foldl (fun w (x : Word × Nat) => w.setU (r + x.2) x.1) w).getU r'
      = if r + j ≤ r' ∧ r' < r + j + ws.length then ws.getD (r' - (r + j)) 0#32 else w.getU r' := by
  induction ws generalizing w j with
  | nil => simp
  | cons a ws ih =>
    rw [List.zipIdx_cons, List.foldl_cons, ih, Warp.getU_setU]
    by_cases h1 : r' = r + j
    · subst h1; simp
    · by_cases h2 : r + (j + 1) ≤ r' ∧ r' < r + (j + 1) + ws.length
      · have h3 : r + j ≤ r' ∧ r' < r + j + (a :: ws).length := by simp; omega
        have h4 : r' - (r + j) = (r' - (r + (j + 1))) + 1 := by omega
        rw [if_pos h2, if_pos h3, h4]; simp
      · have h3 : ¬(r + j ≤ r' ∧ r' < r + j + (a :: ws).length) := by simp; omega
        rw [if_neg h2, if_neg h3, if_neg h1]

theorem Warp.getU_writeU (w : Warp) (r : Nat) (ws : List Word) (r' : Nat) :
    (w.writeU r ws).getU r' = if r ≤ r' ∧ r' < r + ws.length then ws.getD (r' - r) 0#32 else w.getU r' := by
  have h := Warp.getU_setUs ws w r 0 r'
  simp only [Nat.add_zero] at h
  exact h

/-- `writeV` and `writeU` change only their own registers. -/
theorem Warp.writeV_eq (w : Warp) (r : Nat) (lanes : List Nat) (val : Nat → List Word) :
    w.writeV r lanes val = { w with vregs := (w.writeV r lanes val).vregs } := by
  have one : ∀ (l : List (Word × Nat)) (n : Nat) (w : Warp),
      l.foldl (fun w (x : Word × Nat) => w.setV (r + x.2) n x.1) w
        = { w with vregs := (l.foldl (fun w (x : Word × Nat) => w.setV (r + x.2) n x.1) w).vregs } := by
    intro l n
    induction l with
    | nil => intro w; rfl
    | cons a l ih => intro w; simp only [List.foldl_cons]; rw [ih]; rfl
  unfold Warp.writeV
  induction lanes generalizing w with
  | nil => rfl
  | cons a l ih => simp only [List.foldl_cons]; rw [ih, one]

theorem Warp.writeU_eq (w : Warp) (r : Nat) (ws : List Word) :
    w.writeU r ws = { w with uregs := (w.writeU r ws).uregs } := by
  have one : ∀ (l : List (Word × Nat)) (w : Warp),
      l.foldl (fun w (x : Word × Nat) => w.setU (r + x.2) x.1) w
        = { w with uregs := (l.foldl (fun w (x : Word × Nat) => w.setU (r + x.2) x.1) w).uregs } := by
    intro l
    induction l with
    | nil => intro w; rfl
    | cons a l ih => intro w; simp only [List.foldl_cons]; rw [ih]; rfl
  exact one _ w

theorem Warp.writeDst_eq (w : Warp) (u : Use) (lanes : List Nat) (val : Nat → List Word) :
    w.writeDst u lanes val = { w with vregs := (w.writeDst u lanes val).vregs, uregs := (w.writeDst u lanes val).uregs } := by
  simp only [Warp.writeDst]
  split
  · rw [Warp.writeV_eq]
  · split
    · rw [Warp.writeU_eq]
    · rfl

theorem Warp.getV_of_vregs {w w' : Warp} (h : w'.vregs = w.vregs) (r n : Nat) : w'.getV r n = w.getV r n := by
  simp [Warp.getV, h]
theorem Warp.getU_of_uregs {w w' : Warp} (h : w'.uregs = w.uregs) (r : Nat) : w'.getU r = w.getU r := by
  simp [Warp.getU, h]

/-- Every vector register after a destination is written (R160, R310). -/
theorem Warp.getV_writeDst (w : Warp) (u : Use) (lanes : List Nat) (val : Nat → List Word) {r n : Nat}
    (hl : ∀ n ∈ lanes, n < 1024) (hn : n < 1024) (hv : ∀ n, (val n).length = u.n) :
    (w.writeDst u lanes val).getV r n
      = if u.r.toNat < 96 ∧ n ∈ lanes ∧ w.vIndex u ≤ r ∧ r < w.vIndex u + u.n then (val n).getD (r - w.vIndex u) 0#32
        else w.getV r n := by
  simp only [Warp.writeDst]
  split
  · rw [Warp.getV_writeV w _ lanes val hl hn, hv]; simp [*]
  · split
    · rw [Warp.writeU_eq]; simp [Warp.getV, *]
    · simp [*]

/-- Every uniform register after a destination is written (R160, R310). -/
theorem Warp.getU_writeDst (w : Warp) (u : Use) (lanes : List Nat) (val : Nat → List Word) (r : Nat)
    (hv : ∀ n, (val n).length = u.n) :
    (w.writeDst u lanes val).getU r
      = if 96 ≤ u.r.toNat ∧ u.r.toNat < 120 ∧ w.uIndex u ≤ r ∧ r < w.uIndex u + u.n then
          (val (lowest lanes)).getD (r - w.uIndex u) 0#32
        else w.getU r := by
  simp only [Warp.writeDst]
  split
  · rw [Warp.writeV_eq]
    rename_i h
    simp [Warp.getU, show ¬ 96 ≤ u.r.toNat by omega]
  · split
    · rename_i h _
      rw [Warp.getU_writeU, hv]; simp [*, show 96 ≤ u.r.toNat by omega]
    · rename_i h1 h2
      simp [h2]

/-! ## Predicates -/

theorem Warp.setP_eq (w : Warp) (p : Nat) (lanes : List Nat) (f : Nat → Bool) :
    w.setP p lanes f = { w with preds := (w.setP p lanes f).preds } := by
  unfold Warp.setP; split <;> rfl

theorem Warp.getP_setP (w : Warp) (p r : Nat) (lanes : List Nat) (f : Nat → Bool) {n : Nat} (hn : n < 1024) :
    ((w.setP p lanes f).getP r).getLsbD n
      = if r = p ∧ r ≠ 0 ∧ n ∈ lanes then f n else (w.getP r).getLsbD n := by
  unfold Warp.setP
  by_cases hp : p = 0
  · subst hp
    simp only [if_true]
    by_cases hr : r = 0 <;> simp [hr]
  · simp only [hp, if_false]
    by_cases hr : r = p
    · subst hr
      simp only [hp, if_false, Warp.getP, Tab.getD_store_same, BitVec.getLsbD_or, BitVec.getLsbD_and, BitVec.getLsbD_not,
        maskOf_getLsbD _ _ _ hn]
      by_cases hm : n ∈ lanes <;> simp [hm, hn, hp]
    · by_cases h0 : r = 0
      · simp [Warp.getP, h0]
      · simp only [Warp.getP, h0, if_false, hr, false_and]
        rw [Tab.getD_store_other _ _ _ hr]

end Sys2Proof.Machine
end

