-- ==== Sys2Proof/Laws/Issue.lean ====
section
/-! SUPPORT. Sys2Proof/Laws/Issue.lean: what issuing and retiring an instruction can do, said once. -/
set_option Elab.async false
namespace Sys2Proof.Machine

/-! ## Counting, acquiring -/

theorem Hw.raiseInt_eq (h : Hw) (f bit vec : Nat) :
    h.raiseInt f bit vec = { h with fns := (h.raiseInt f bit vec).fns, out := (h.raiseInt f bit vec).out } := by
  unfold Hw.raiseInt
  dsimp only
  split
  · rfl
  · split <;> rfl

/-- Two functions that differ only in their counters and interrupt status. -/
def Fn.sameButCounters (x y : Fn) : Prop := y = { x with ctrs := y.ctrs, intstat := y.intstat }

theorem Fn.sameButCounters_refl (x : Fn) : x.sameButCounters x := rfl
theorem Fn.sameButCounters_trans {x y z : Fn} (h : x.sameButCounters y) (k : y.sameButCounters z) :
    x.sameButCounters z := by
  unfold Fn.sameButCounters at *; rw [k, h]

theorem Hw.raiseInt_fn (h : Hw) (f bit vec g : Nat) : (h.fn g).sameButCounters ((h.raiseInt f bit vec).fn g) := by
  unfold Hw.raiseInt
  dsimp only
  split
  · exact Fn.sameButCounters_refl _
  · have key : (h.fn g).sameButCounters ((h.setFn f { h.fn f with intstat := (h.fn f).intstat ||| (1#8 <<< bit) }).fn g) := by
      by_cases hg : g = f
      · subst hg; simp [Fn.sameButCounters]
      · rw [Hw.fn_setFn_other _ _ hg]; exact Fn.sameButCounters_refl _
    split <;> exact key

/-- Two machines that differ only in counters, interrupt status and what was sent to the host. -/
def Hw.countersOnly (h k : Hw) : Prop :=
  k = { h with fns := k.fns, out := k.out } ∧ ∀ g, (h.fn g).sameButCounters (k.fn g)

theorem Hw.countersOnly_refl (h : Hw) : h.countersOnly h := ⟨rfl, fun _ => Fn.sameButCounters_refl _⟩
theorem Hw.countersOnly_trans {h k l : Hw} (a : h.countersOnly k) (b : k.countersOnly l) : h.countersOnly l := by
  refine ⟨?_, fun g => Fn.sameButCounters_trans (a.2 g) (b.2 g)⟩
  rw [b.1, a.1]

theorem Hw.countersOnly_raiseInt (h : Hw) (f bit vec : Nat) : h.countersOnly (h.raiseInt f bit vec) :=
  ⟨Hw.raiseInt_eq h f bit vec, fun g => Hw.raiseInt_fn h f bit vec g⟩

theorem Hw.countersOnly_ctrs (h : Hw) (f k : Nat) (c : Ctr) :
    h.countersOnly (h.onFn f fun x => { x with ctrs := Tab.put x.ctrs k c }) := by
  refine ⟨rfl, fun g => ?_⟩
  by_cases hg : g = f
  · subst hg; simp [Fn.sameButCounters]
  · rw [Hw.fn_onFn_other _ _ hg]; exact Fn.sameButCounters_refl _

/-- A fold of steps that change only counters changes only counters. -/
theorem Hw.countersOnly_foldl {α : Type} (f : Hw → α → Hw) (hf : ∀ (h : Hw) (x : α), h.countersOnly (f h x)) (l : List α) (h : Hw) :
    h.countersOnly (l.foldl f h) := by
  induction l generalizing h with
  | nil => exact Hw.countersOnly_refl h
  | cons x l ih => exact Hw.countersOnly_trans (hf h x) (ih (f h x))

theorem Hw.count_fn_out (h : Hw) (f cls unit ev reason n : Nat) : h.countersOnly (h.count f cls unit ev reason n) := by
  unfold Hw.count
  refine Hw.countersOnly_foldl _ (fun h e => ?_) _ h
  dsimp only
  split
  · split
    · split
      · exact Hw.countersOnly_trans (Hw.countersOnly_ctrs h _ _ _) (Hw.countersOnly_raiseInt _ _ _ _)
      · exact Hw.countersOnly_ctrs h _ _ _
    · exact Hw.countersOnly_refl h
  · split
    · split
      · exact Hw.countersOnly_trans (Hw.countersOnly_ctrs h _ _ _) (Hw.countersOnly_raiseInt _ _ _ _)
      · exact Hw.countersOnly_ctrs h _ _ _
    · exact Hw.countersOnly_refl h

theorem Hw.acquireRec_eq (h : Hw) (bk u : Nat) (s : Scope) (r : RelRec) :
    h.acquireRec bk u s r = { h with blocks := (h.acquireRec bk u s r).blocks } := by
  unfold Hw.acquireRec
  split
  · rfl
  · split
    · rfl
    · split
      · rfl
      · split <;> rfl

theorem Hw.acquireRec_c (h : Hw) (bk u k : Nat) (s : Scope) (r : RelRec) :
    ((h.acquireRec bk u s r).block? k).map (fun b => (b.c, b.core)) = (h.block? k).map fun b => (b.c, b.core) := by
  unfold Hw.acquireRec
  split
  · rfl
  · split
    · rfl
    · split
      · rfl
      · split
        · by_cases hk : k = bk
          · subst hk
            simp only [Hw.block?_onBlock_same, Option.map_map]
            cases h.block? k with
            | none => rfl
            | some b =>
              simp only [Option.map_some, Function.comp, Block.acquire]
              split <;> split <;> rfl
          · rw [Hw.block?_onBlock_other _ _ hk]
        · rfl

theorem Hw.acquireSync_eq (h : Hw) (core ctx : Nat) (s : Scope) :
    h.acquireSync core ctx s = { h with cores := (h.acquireSync core ctx s).cores, l2 := (h.acquireSync core ctx s).l2 } := by
  unfold Hw.acquireSync
  cases hs : s.far <;> by_cases h2 : s = .system <;> simp [h2, Hw.peerInvalidate, Hw.clearClean, Hw.onCore]

/-! ## Retirement -/

/-- What an instruction's retirement leaves alone, and how it leaves the warp. -/
structure Retired (q : Iss) (i : Instr) (h k : Hw) : Prop where
  warp   : k.warp? q.wk = (h.warp? q.wk).map fun w => (w.popTokens i).retired q.x q.p.pc
  others : ∀ j, j ≠ q.wk → k.warp? j = h.warp? j
  fns    : ∀ g, (h.fn g).sameButCounters (k.fn g)
  rest   : k = { h with warps := k.warps, fns := k.fns, out := k.out, blocks := k.blocks, cores := k.cores, l2 := k.l2, tried := [] }
  quiet  : (q.w.poppedRels i).filter (fun r => r.scope ≠ .warp) = [] → k.blocks = h.blocks ∧ k.cores = h.cores ∧ k.l2 = h.l2

theorem Retired.of_count {q : Iss} {i : Instr} {h m : Hw} (hm : m = { h with blocks := m.blocks, cores := m.cores, l2 := m.l2 })
    (hq : (q.w.poppedRels i).filter (fun r => r.scope ≠ .warp) = [] → m.blocks = h.blocks ∧ m.cores = h.cores ∧ m.l2 = h.l2) :
    Retired q i h { ((m.onWarp q.wk fun w => (w.popTokens i).retired q.x q.p.pc).count q.fn 0 q.core 0x02 0 (q.passes i)) with tried := [] } := by
  obtain ⟨e, f⟩ := Hw.count_fn_out (m.onWarp q.wk fun w => (w.popTokens i).retired q.x q.p.pc) q.fn 0 q.core 0x02 0 (q.passes i)
  have hw : m.warps = h.warps := by rw [hm]
  have hf : m.fns = h.fns := by rw [hm]
  refine ⟨?_, ?_, ?_, ?_, ?_⟩
  · rw [e]; simp [Hw.warp?, Hw.onWarp, hw]
    exact Tab.find?_modify_same _ _ _
  · intro j hj; rw [e]; simp only [Hw.warp?, Hw.onWarp, hw]
    exact Tab.find?_modify_other _ _ hj
  · intro g; have := f g; simpa [Hw.fn, Hw.onWarp, hf] using this
  · rw [e, hm]; rfl
  · intro hn; obtain ⟨h1, h2, h3⟩ := hq hn
    rw [e]; exact ⟨h1, h2, h3⟩

theorem acquireTokens_eq (q : Iss) (rels : List RelRec) (h : Hw) :
    let k := rels.foldl (fun h r => (h.acquireRec q.bk q.widx r.scope r).acquireSync q.core (Iss.ctx h q) r.scope) h
    k = { h with blocks := k.blocks, cores := k.cores, l2 := k.l2 } := by
  induction rels generalizing h with
  | nil => rfl
  | cons r l ih =>
    simp only [List.foldl_cons]
    have := ih ((h.acquireRec q.bk q.widx r.scope r).acquireSync q.core (Iss.ctx h q) r.scope)
    simp only at this
    rw [this, Hw.acquireSync_eq, Hw.acquireRec_eq]

/-- An instruction retires unless an acquiring token would carry the interval counter past its end (R209). -/
theorem Iss.retire_spec (q : Iss) (i : Instr) (h : Hw)
    (hb : (q.w.poppedRels i).filter (fun r => r.scope ≠ .warp) = [] ∨ h.wraps q.bk 1 = false) :
    ∃ k, q.retire i h = .ok k ∧ Retired q i h k := by
  unfold Iss.retire
  dsimp only
  generalize hrels : (q.w.poppedRels i).filter (fun r => r.scope ≠ .warp) = rels at *
  rw [if_neg (by
    intro hc
    rcases hb with hb | hb <;> simp [hb] at hc)]
  refine ⟨_, rfl, ?_⟩
  by_cases hr : rels.isEmpty
  · simp only [hr, if_true]
    exact Retired.of_count rfl fun _ => ⟨rfl, rfl, rfl⟩
  · simp only [hr]
    refine Retired.of_count ?_ ?_
    · have := acquireTokens_eq q rels h
      simp only at this
      rw [if_neg (by decide), Hw.advance, Hw.onBlock, this]
    · intro hn; rw [hrels] at hn; simp [hn] at hr

/-! ## Issue -/

@[simp] theorem Hw.wraps_goto (h : Hw) (wk : Nat) (x : Bool) (pc : DWord) (k n : Nat) : (h.goto wk x pc).wraps k n = h.wraps k n := rfl

/-- An instruction whose checks of rank 2 pass and whose effect succeeds answers a next state, and retires. -/
theorem issueCtl_next {i : Instr} {s : State} {q : Iss} {f : Env → Hw → Iss → Except Stop Hw} {h : Hw}
    (hq : Iss.of s.hw = some q) (hr : q.rank2 s.hw i = .ok ()) (hf : f ⟨s.clk, s.mem⟩ s.hw q = .ok h)
    (hb : (q.w.poppedRels i).filter (fun r => r.scope ≠ .warp) = [] ∨ h.wraps q.bk 1 = false) :
    ∃ k, Retired q i h k ∧ issueCtl i s f = .next { s with mem := flush k.wq s.mem, hw := { k with wq := [] } } := by
  obtain ⟨k, hk, hR⟩ := Iss.retire_spec q i h hb
  refine ⟨k, hR, ?_⟩
  unfold issueCtl State.run
  simp only [hq, hr, hf, bind, Except.bind, hk, settle]

/-- The same for an instruction that goes on at pc + 4. -/
theorem issue_next {i : Instr} {s : State} {q : Iss} {f : Env → Hw → Iss → Except Stop Hw} {h : Hw}
    (hq : Iss.of s.hw = some q) (hr : q.rank2 s.hw i = .ok ()) (hp : q.p.pushing = none) (hf : f ⟨s.clk, s.mem⟩ s.hw q = .ok h)
    (hb : (q.w.poppedRels i).filter (fun r => r.scope ≠ .warp) = [] ∨ h.wraps q.bk 1 = false) :
    ∃ k, Retired q i (h.goto q.wk q.x q.next) k ∧
      issue i s f = .next { s with mem := flush k.wq s.mem, hw := { k with wq := [] } } := by
  unfold issue
  refine issueCtl_next hq hr ?_ (by simpa using hb)
  simp only [hp, hf, bind, Except.bind]

end Sys2Proof.Machine
end

