-- ==== Sys2Proof/Laws/Deliver.lean ====
section
/-! SUPPORT. Sys2Proof/Laws/Deliver.lean: once for all instructions of a shape: a result per lane in a destination, a
predicate per lane, a jump. -/
set_option Elab.async false
namespace Sys2Proof.Machine

open Sys2Proof.Terms

/-! ## The warp after retirement -/

theorem Warp.queue_setQueue_same (w : Warp) (e : EngKind) (q : WarpQueue) : (w.setQueue e q).queue e = q := by
  cases e <;> rfl
theorem Warp.queue_setQueue_other (w : Warp) {e f : EngKind} (q : WarpQueue) (h : f ≠ e) :
    (w.setQueue e q).queue f = w.queue f := by
  cases e <;> cases f <;> first | rfl | exact absurd rfl h

/-- A warp but for its queues. -/
def Warp.sameButQueues (w v : Warp) : Prop := v = { w with q0 := v.q0, q2 := v.q2, q4 := v.q4 }

theorem Warp.sameButQueues_setQueue (w : Warp) (e : EngKind) (q : WarpQueue) : w.sameButQueues (w.setQueue e q) := by
  cases e <;> rfl
theorem Warp.sameButQueues_refl (w : Warp) : w.sameButQueues w := rfl
theorem Warp.sameButQueues_trans {u v w : Warp} (a : u.sameButQueues v) (b : v.sameButQueues w) : u.sameButQueues w := by
  unfold Warp.sameButQueues at *; rw [b, a]

theorem Warp.popTokens_spec (w : Warp) (i : Instr) :
    w.sameButQueues (w.popTokens i) ∧ ∀ e, (w.popTokens i).queue e =
      if pops i e then { w.queue e with tokens := (w.queue e).tokens.tail } else w.queue e := by
  have one : ∀ (w : Warp) (v : Nat),
      w.sameButQueues (if (Instr.uses i).any (fun u => u.rd && u.r.toNat == v) then
        w.setQueue (queueKind v) { w.queue (queueKind v) with tokens := (w.queue (queueKind v)).tokens.tail } else w) ∧
      ∀ e, (if (Instr.uses i).any (fun u => u.rd && u.r.toNat == v) then
        w.setQueue (queueKind v) { w.queue (queueKind v) with tokens := (w.queue (queueKind v)).tokens.tail } else w).queue e
        = if (Instr.uses i).any (fun u => u.rd && u.r.toNat == v) ∧ e = queueKind v then
            { w.queue e with tokens := (w.queue e).tokens.tail } else w.queue e := by
    intro w v
    by_cases h : (Instr.uses i).any (fun u => u.rd && u.r.toNat == v) = true
    · simp only [h, if_true]
      refine ⟨Warp.sameButQueues_setQueue _ _ _, fun e => ?_⟩
      by_cases he : e = queueKind v
      · subst he; simp [Warp.queue_setQueue_same]
      · simp [Warp.queue_setQueue_other _ _ he, he]
    · simp only [h]
      exact ⟨Warp.sameButQueues_refl w, fun e => by simp⟩
  unfold Warp.popTokens
  dsimp only
  obtain ⟨a1, b1⟩ := one w 121
  generalize (if (Instr.uses i).any (fun u => u.rd && u.r.toNat == 121) then
    w.setQueue (queueKind 121) { w.queue (queueKind 121) with tokens := (w.queue (queueKind 121)).tokens.tail } else w) = w1 at *
  obtain ⟨a2, b2⟩ := one w1 123
  generalize (if (Instr.uses i).any (fun u => u.rd && u.r.toNat == 123) then
    w1.setQueue (queueKind 123) { w1.queue (queueKind 123) with tokens := (w1.queue (queueKind 123)).tokens.tail } else w1) = w2 at *
  obtain ⟨a3, b3⟩ := one w2 125
  refine ⟨Warp.sameButQueues_trans a1 (Warp.sameButQueues_trans a2 a3), fun e => ?_⟩
  rw [b3, b2, b1]
  cases e <;> simp [queueKind, pops]

theorem Warp.setPath_path (w : Warp) (x : Bool) (p : Path) : (w.setPath x p).path x = p := by cases x <;> rfl
theorem Warp.setPath_other (w : Warp) (x : Bool) (p : Path) : (w.setPath x p).path (!x) = w.path (!x) := by cases x <;> rfl

/-- A warp but for what retirement changes. -/
theorem Warp.retired_eq (w : Warp) (x : Bool) (pc : DWord) :
    w.retired x pc = { w with p0 := (w.retired x pc).p0, p1 := (w.retired x pc).p1 } := by
  cases x <;> rfl
theorem Warp.retired_path (w : Warp) (x : Bool) (pc : DWord) : (w.retired x pc).path x = (w.path x).retired pc := by
  cases x <;> rfl
theorem Warp.retired_other (w : Warp) (x : Bool) (pc : DWord) : (w.retired x pc).path (!x) = w.path (!x) := by
  cases x <;> rfl
theorem Warp.retired_queue (w : Warp) (x : Bool) (pc : DWord) (e : EngKind) : (w.retired x pc).queue e = w.queue e := by
  cases x <;> cases e <;> rfl
theorem Warp.queue_of_eqs {v w : Warp} (h0 : v.q0 = w.q0) (h2 : v.q2 = w.q2) (h4 : v.q4 = w.q4) (e : EngKind) :
    v.queue e = w.queue e := by
  cases e <;> assumption

/-- The warp an instruction leaves that changed only registers and predicates, then went to `pc`. -/
def Warp.left (w v : Warp) (x : Bool) (i : Instr) (pc old : DWord) : Warp :=
  (((v.setPath x { w.path x with pc := pc })).popTokens i).retired x old

theorem Iss.of_eqs {h : Hw} {q : Iss} (hq : Iss.of h = some q) : h.warp? q.wk = some q.w ∧ h.block? q.bk = some q.b ∧
    ∀ n ∈ q.lanes, n < 1024 := ⟨Iss.of_warp hq, Iss.of_block hq, Iss.lanes_lt hq⟩

/-- What an instruction does that changes only its own warp's registers and predicates and goes to `pc`. -/
theorem issueCtl_frame {i : Instr} {s : State} {q : Iss} {f : Env → Hw → Iss → Except Stop Hw} {v : Warp} {pc : DWord}
    (hI : Issues i s q)
    (hv : v = { q.w with vregs := v.vregs, empty := v.empty, uregs := v.uregs, preds := v.preds })
    (hf : ∃ h, f ⟨s.clk, s.mem⟩ s.hw q = .ok h ∧ h.warp? q.wk = some (v.setPath q.x { q.p with pc := pc }) ∧
      (∀ k, k ≠ q.wk → h.warp? k = s.hw.warp? k) ∧ h = { s.hw with warps := h.warps }) :
    ∃ t w, issueCtl i s f = .next t ∧ Framed i q s t w ∧ QueuesPopped i q w ∧ GoesTo q w pc ∧
      w.vregs = v.vregs ∧ w.uregs = v.uregs ∧ w.preds = v.preds ∧ w.empty = v.empty := by
  obtain ⟨hInv, hq, hr, hc, -⟩ := hI
  obtain ⟨h, hf, hw, ho, he⟩ := hf
  obtain ⟨hwarp, hblk, hl⟩ := Iss.of_eqs hq
  obtain ⟨k, hR, hk⟩ := issueCtl_next hq hr hf (Or.inr (by rw [he]; exact hc))
  have hkw := hR.warp
  rw [hw] at hkw
  simp only [Option.map_some] at hkw
  obtain ⟨sq, tq⟩ := Warp.popTokens_spec (v.setPath q.x { q.p with pc := pc }) i
  have hwq : k.wq = [] := by rw [hR.rest, he]; exact hInv.2
  refine ⟨_, _, hk, ⟨hkw, ?_, rfl, ?_, ?_, ?_, ?_, ?_, ?_⟩, ?_, ?_, ?_, ?_, ?_, ?_⟩
  · intro j hj; exact (hR.others j hj).trans (ho j hj)
  · simp [hwq, flush]
  · have := hR.rest
    rw [he] at this
    show ({ k with wq := [] } : Hw) = _
    have hs : s.hw.wq = [] := hInv.2
    rw [this]
    simp only [hs]
  · intro g
    have := hR.fns g
    have hh : h.fn g = s.hw.fn g := by rw [he]; rfl
    rw [hh] at this
    exact this
  · intro hn
    obtain ⟨a, b, c⟩ := hR.quiet (by rw [hn]; rfl)
    exact ⟨a.trans (by rw [he]), b.trans (by rw [he]), c.trans (by rw [he])⟩
  · rw [Warp.retired_eq, sq, hv]; cases q.x <;> rfl
  · rw [Warp.retired_other, sq]
    show (v.setPath q.x { q.p with pc := pc }).path (!q.x) = _
    rw [Warp.setPath_other, hv]; cases q.x <;> rfl
  · intro e
    have h1 : (v.setPath q.x { q.p with pc := pc }).queue e = q.w.queue e := by
      rw [hv]; cases q.x <;> cases e <;> rfl
    rw [Warp.retired_queue, tq, h1]
  · unfold GoesTo
    rw [Warp.retired_path, sq]
    have h1 : (Warp.path { v.setPath q.x { q.p with pc := pc } with
        q0 := ((v.setPath q.x { q.p with pc := pc }).popTokens i).q0
        q2 := ((v.setPath q.x { q.p with pc := pc }).popTokens i).q2
        q4 := ((v.setPath q.x { q.p with pc := pc }).popTokens i).q4 } q.x) = { q.p with pc := pc } := by
      cases q.x <;> rfl
    rw [h1]
    refine ⟨rfl, rfl, rfl, rfl, rfl, rfl, ?_, ?_⟩ <;> (rw [hv]; cases q.x <;> rfl)
  all_goals (rw [Warp.retired_eq, sq]; cases q.x <;> rfl)

/-- The same where the instruction goes on. -/
theorem issue_frame {i : Instr} {s : State} {q : Iss} {f : Env → Hw → Iss → Except Stop Hw} {g : Warp → Warp}
    (hI : Issues i s q)
    (hv : g q.w = { q.w with vregs := (g q.w).vregs, empty := (g q.w).empty, uregs := (g q.w).uregs, preds := (g q.w).preds })
    (hf : f ⟨s.clk, s.mem⟩ s.hw q = .ok (s.hw.onWarp q.wk g)) :
    ∃ t w, issue i s f = .next t ∧ Framed i q s t w ∧ QueuesPopped i q w ∧ GoesTo q w (after q) ∧
      w.vregs = (g q.w).vregs ∧ w.uregs = (g q.w).uregs ∧ w.preds = (g q.w).preds ∧ w.empty = (g q.w).empty := by
  have hp : q.p.pushing = none := hI.2.2.2.2
  refine issueCtl_frame hI hv ⟨_, by simp only [hp, hf, bind, Except.bind]; rfl, ?_, ?_, rfl⟩
  · have hw := Iss.of_warp hI.2.1
    simp only [Hw.goto, Hw.onPath, Hw.warp?_onWarp_same, hw, Option.map_some]
    have : (g q.w).path q.x = q.p := by rw [hv]; cases h : q.x <;> simp [Iss.p, Warp.path, h]
    rw [this]; rfl
  · intro k hk
    simp only [Hw.goto, Hw.onPath]
    rw [Hw.warp?_onWarp_other _ _ hk, Hw.warp?_onWarp_other _ _ hk]

theorem dstPushes_none {u : Use} {lanes : List Nat} {val : Nat → List Word} (h : ¬ inQueue u) :
    dstPushes u lanes val = none := by
  unfold dstPushes; exact if_neg h

/-- Every instruction that puts one value per active lane into a destination. -/
theorem delivers_of_put {i : Instr} {u : Use} {val : Iss → Nat → List Word}
    (hexec : ∀ s, exec i s = issue i s fun e h q => Iss.put e q u (val q) h)
    (hlen : ∀ q n, (val q n).length = u.n) : Delivers i u val := by
  intro s q hI hnq
  have hf : Iss.put ⟨s.clk, s.mem⟩ q u (val q) s.hw
      = .ok (s.hw.onWarp q.wk fun w => w.writeDst u q.lanes (val q)) := by
    simp only [Iss.put, dstPushes_none hnq]
  obtain ⟨t, w, ht, hF, hQ, hG, h1, h2, h3, h4⟩ := issue_frame
    (f := fun e h q => Iss.put e q u (val q) h) (g := fun w => w.writeDst u q.lanes (val q)) hI
    (by dsimp only; rw [Warp.writeDst_eq]) hf
  refine ⟨t, w, (hexec s).trans ht, hF, hQ, hG, ?_, ?_, ?_, ?_⟩
  · rw [h3, Warp.writeDst_eq]
  · rw [h4, Warp.writeDst_eq]
  · intro r n hn
    rw [Warp.getV_of_vregs h1]
    exact Warp.getV_writeDst q.w u q.lanes (val q) (Iss.lanes_lt hI.2.1) hn (hlen q)
  · intro r
    rw [Warp.getU_of_uregs h2]
    exact Warp.getU_writeDst q.w u q.lanes (val q) r (hlen q)

/-- Two descriptions of one value per lane. -/
theorem Delivers.congr {i : Instr} {u : Use} {val val' : Iss → Nat → List Word} (h : Delivers i u val)
    (hv : ∀ q n, val q n = val' q n) : Delivers i u val' := by
  have : val = val' := funext fun q => funext fun n => hv q n
  rw [← this]; exact h

/-- Every instruction that sets one predicate per active lane. -/
theorem setsPred_of_setp {i : Instr} {p : BitVec 3} {val : Iss → Nat → Bool}
    (hexec : ∀ s, exec i s = setp i p s val) : SetsPred i p val := by
  intro s q hI
  obtain ⟨t, w, ht, hF, hQ, hG, h1, h2, h3, h4⟩ := issue_frame (i := i) (s := s)
    (f := fun _ h q => .ok (h.onWarp q.wk fun w => w.setP p.toNat q.lanes (val q)))
    (g := fun w => w.setP p.toNat q.lanes (val q)) hI (by dsimp only; rw [Warp.setP_eq]) rfl
  refine ⟨t, w, (hexec s).trans ht, hF, hQ, hG, ⟨?_, ?_, ?_⟩, ?_⟩
  · rw [h1, Warp.setP_eq]
  · rw [h2, Warp.setP_eq]
  · rw [h4, Warp.setP_eq]
  · intro r n hn
    have : w.getP r = (q.w.setP p.toNat q.lanes (val q)).getP r := by unfold Warp.getP; rw [h3]
    rw [this]
    exact Warp.getP_setP q.w p.toNat r q.lanes (val q) hn

theorem SetsPred.congr {i : Instr} {p : BitVec 3} {val val' : Iss → Nat → Bool} (h : SetsPred i p val)
    (hv : ∀ q n, val q n = val' q n) : SetsPred i p val' := by
  have : val = val' := funext fun q => funext fun n => hv q n
  rw [← this]; exact h

end Sys2Proof.Machine
end

