-- ==== Sys2Proof/Laws/Encoding.lean ====
section
/-! SUPPORT. Sys2Proof/Laws/Encoding.lean: each format's fields come back from its word, and each word from its fields. -/
set_option Elab.async false
namespace Sys2Proof

/-! ## Parts of a concatenation -/

theorem slice_low {m n : Nat} (x : BitVec m) (y : BitVec n) (k l : Nat) (h : k + l ≤ n) :
    (x ++ y).extractLsb' k l = y.extractLsb' k l := by
  ext i hi
  simp only [BitVec.getElem_extractLsb', BitVec.getLsbD_append]
  rw [if_pos (by omega)]

theorem slice_high {m n : Nat} (x : BitVec m) (y : BitVec n) : (x ++ y).extractLsb' n m = x := by
  ext i hi
  simp [BitVec.getLsbD_append, BitVec.getLsbD_eq_getElem hi]

theorem slice_all {n : Nat} (x : BitVec n) : x.extractLsb' 0 n = x := by
  ext i hi
  simp

theorem bit_low {m n : Nat} (x : BitVec m) (y : BitVec n) (k : Nat) (h : k < n) : (x ++ y).getLsbD k = y.getLsbD k := by
  rw [BitVec.getLsbD_append, if_pos h]

theorem bit_high {n : Nat} (b : Bool) (y : BitVec n) : (BitVec.ofBool b ++ y).getLsbD n = b := by
  rw [BitVec.getLsbD_append, if_neg (Nat.lt_irrefl n), Nat.sub_self]
  cases b <;> rfl

theorem join {n : Nat} (w : BitVec n) (k l : Nat) (y : BitVec k) (h : y = w.extractLsb' 0 k) :
    w.extractLsb' k l ++ y = w.extractLsb' 0 (l + k) := by
  subst h
  ext i hi
  simp only [BitVec.getElem_append, BitVec.getElem_extractLsb', Nat.zero_add]
  split
  · rfl
  · rw [Nat.add_sub_cancel' (by omega)]

theorem joinBit {n : Nat} (w : BitVec n) (k : Nat) (y : BitVec k) (h : y = w.extractLsb' 0 k) :
    BitVec.ofBool (w.getLsbD k) ++ y = w.extractLsb' 0 (1 + k) := by
  rw [← join w k 1 y h]
  congr 1
  ext i hi
  obtain rfl : i = 0 := by omega
  simp

/-! ## The six formats -/

theorem unpackA_packA (op : BitVec 6) (x : FmtA) : unpackA (packA op x) = x := by
  obtain ⟨i, d, a, b, ea, eb, f⟩ := x
  simp only [unpackA, FmtA.mk.injEq]
  refine ⟨?_, ?_, ?_, ?_, ?_, ?_, ?_⟩
  · exact (bit_low op _ 25 (by decide)).trans <| bit_high _ _
  · exact (slice_low op _ 18 7 (by decide)).trans <| (slice_low (BitVec.ofBool i) _ 18 7 (by decide)).trans <| slice_high _ _
  · exact (slice_low op _ 11 7 (by decide)).trans <| (slice_low (BitVec.ofBool i) _ 11 7 (by decide)).trans <| (slice_low d _ 11 7 (by decide)).trans <| slice_high _ _
  · exact (slice_low op _ 4 7 (by decide)).trans <| (slice_low (BitVec.ofBool i) _ 4 7 (by decide)).trans <| (slice_low d _ 4 7 (by decide)).trans <| (slice_low a _ 4 7 (by decide)).trans <| slice_high _ _
  · exact (bit_low op _ 3 (by decide)).trans <| (bit_low (BitVec.ofBool i) _ 3 (by decide)).trans <| (bit_low d _ 3 (by decide)).trans <| (bit_low a _ 3 (by decide)).trans <| (bit_low b _ 3 (by decide)).trans <| bit_high _ _
  · exact (bit_low op _ 2 (by decide)).trans <| (bit_low (BitVec.ofBool i) _ 2 (by decide)).trans <| (bit_low d _ 2 (by decide)).trans <| (bit_low a _ 2 (by decide)).trans <| (bit_low b _ 2 (by decide)).trans <| (bit_low (BitVec.ofBool ea) _ 2 (by decide)).trans <| bit_high _ _
  · exact (slice_low op _ 0 2 (by decide)).trans <| (slice_low (BitVec.ofBool i) _ 0 2 (by decide)).trans <| (slice_low d _ 0 2 (by decide)).trans <| (slice_low a _ 0 2 (by decide)).trans <| (slice_low b _ 0 2 (by decide)).trans <| (slice_low (BitVec.ofBool ea) _ 0 2 (by decide)).trans <| (slice_low (BitVec.ofBool eb) _ 0 2 (by decide)).trans <| slice_all _
theorem majorOf_packA (op : BitVec 6) (x : FmtA) : majorOf (packA op x) = op := slice_high _ _

theorem packA_unpackA (w : Word) : packA (majorOf w) (unpackA w) = w :=
  (join w 26 6 _ (joinBit w 25 _ ((join w 18 7 _ ((join w 11 7 _ ((join w 4 7 _ ((joinBit w 3 _ ((joinBit w 2 _ (rfl))))))))))))).trans (slice_all w)

theorem unpackI_packI (op : BitVec 6) (x : FmtI) : unpackI (packI op x) = x := by
  obtain ⟨d, a, ea, imm⟩ := x
  simp only [unpackI, FmtI.mk.injEq]
  refine ⟨?_, ?_, ?_, ?_⟩
  · exact (slice_low op _ 19 7 (by decide)).trans <| slice_high _ _
  · exact (slice_low op _ 12 7 (by decide)).trans <| (slice_low d _ 12 7 (by decide)).trans <| slice_high _ _
  · exact (bit_low op _ 11 (by decide)).trans <| (bit_low d _ 11 (by decide)).trans <| (bit_low a _ 11 (by decide)).trans <| bit_high _ _
  · exact (slice_low op _ 0 11 (by decide)).trans <| (slice_low d _ 0 11 (by decide)).trans <| (slice_low a _ 0 11 (by decide)).trans <| (slice_low (BitVec.ofBool ea) _ 0 11 (by decide)).trans <| slice_all _
theorem majorOf_packI (op : BitVec 6) (x : FmtI) : majorOf (packI op x) = op := slice_high _ _

theorem packI_unpackI (w : Word) : packI (majorOf w) (unpackI w) = w :=
  (join w 26 6 _ (join w 19 7 _ ((join w 12 7 _ ((joinBit w 11 _ (rfl))))))).trans (slice_all w)

theorem unpackL_packL (op : BitVec 6) (x : FmtL) : unpackL (packL op x) = x := by
  obtain ⟨d, imm⟩ := x
  simp only [unpackL, FmtL.mk.injEq]
  refine ⟨?_, ?_⟩
  · exact (slice_low op _ 19 7 (by decide)).trans <| slice_high _ _
  · exact (slice_low op _ 0 19 (by decide)).trans <| (slice_low d _ 0 19 (by decide)).trans <| slice_all _
theorem majorOf_packL (op : BitVec 6) (x : FmtL) : majorOf (packL op x) = op := slice_high _ _

theorem packL_unpackL (w : Word) : packL (majorOf w) (unpackL w) = w :=
  (join w 26 6 _ (join w 19 7 _ (rfl))).trans (slice_all w)

theorem unpackJ_packJ (op : BitVec 6) (x : FmtJ) : unpackJ (packJ op x) = x := by
  obtain ⟨a, off⟩ := x
  simp only [unpackJ, FmtJ.mk.injEq]
  refine ⟨?_, ?_⟩
  · exact (slice_low op _ 19 7 (by decide)).trans <| slice_high _ _
  · exact (slice_low op _ 0 19 (by decide)).trans <| (slice_low a _ 0 19 (by decide)).trans <| slice_all _
theorem majorOf_packJ (op : BitVec 6) (x : FmtJ) : majorOf (packJ op x) = op := slice_high _ _

theorem packJ_unpackJ (w : Word) : packJ (majorOf w) (unpackJ w) = w :=
  (join w 26 6 _ (join w 19 7 _ (rfl))).trans (slice_all w)

theorem unpackM_packM (op : BitVec 6) (x : FmtM) : unpackM (packM op x) = x := by
  obtain ⟨t, a, lbl, sz, off⟩ := x
  simp only [unpackM, FmtM.mk.injEq]
  refine ⟨?_, ?_, ?_, ?_, ?_⟩
  · exact (slice_low op _ 19 7 (by decide)).trans <| slice_high _ _
  · exact (slice_low op _ 12 7 (by decide)).trans <| (slice_low t _ 12 7 (by decide)).trans <| slice_high _ _
  · exact (slice_low op _ 9 3 (by decide)).trans <| (slice_low t _ 9 3 (by decide)).trans <| (slice_low a _ 9 3 (by decide)).trans <| slice_high _ _
  · exact (slice_low op _ 6 3 (by decide)).trans <| (slice_low t _ 6 3 (by decide)).trans <| (slice_low a _ 6 3 (by decide)).trans <| (slice_low lbl _ 6 3 (by decide)).trans <| slice_high _ _
  · exact (slice_low op _ 0 6 (by decide)).trans <| (slice_low t _ 0 6 (by decide)).trans <| (slice_low a _ 0 6 (by decide)).trans <| (slice_low lbl _ 0 6 (by decide)).trans <| (slice_low sz _ 0 6 (by decide)).trans <| slice_all _
theorem majorOf_packM (op : BitVec 6) (x : FmtM) : majorOf (packM op x) = op := slice_high _ _

theorem packM_unpackM (w : Word) : packM (majorOf w) (unpackM w) = w :=
  (join w 26 6 _ (join w 19 7 _ ((join w 12 7 _ ((join w 9 3 _ ((join w 6 3 _ (rfl))))))))).trans (slice_all w)

theorem unpackX_packX (op : BitVec 6) (x : FmtX) : unpackX (packX op x) = x := by
  obtain ⟨sub, d, a, rsv⟩ := x
  simp only [unpackX, FmtX.mk.injEq]
  refine ⟨?_, ?_, ?_, ?_⟩
  · exact (slice_low op _ 20 6 (by decide)).trans <| slice_high _ _
  · exact (slice_low op _ 13 7 (by decide)).trans <| (slice_low sub _ 13 7 (by decide)).trans <| slice_high _ _
  · exact (slice_low op _ 6 7 (by decide)).trans <| (slice_low sub _ 6 7 (by decide)).trans <| (slice_low d _ 6 7 (by decide)).trans <| slice_high _ _
  · exact (slice_low op _ 0 6 (by decide)).trans <| (slice_low sub _ 0 6 (by decide)).trans <| (slice_low d _ 0 6 (by decide)).trans <| (slice_low a _ 0 6 (by decide)).trans <| slice_all _
theorem majorOf_packX (op : BitVec 6) (x : FmtX) : majorOf (packX op x) = op := slice_high _ _

theorem packX_unpackX (w : Word) : packX (majorOf w) (unpackX w) = w :=
  (join w 26 6 _ (join w 20 6 _ ((join w 13 7 _ ((join w 6 7 _ (rfl))))))).trans (slice_all w)

end Sys2Proof
end

