-- ==== Sys2Proof/Laws/Pushing.lean ====
section
/-! SUPPORT. Sys2Proof/Laws/Pushing.lean: words that do not complete a command go into the staging buffer (R166). -/
set_option Elab.async false
namespace Sys2Proof.Machine

open Sys2Proof.Terms

/-- A warp with words in a staging buffer. -/
def Warp.staged (w : Warp) (k : EngKind) (ws : List Word) : Warp := w.setQueue k { w.queue k with staging := ws }

theorem Warp.staged_queue (w : Warp) (k e : EngKind) (ws : List Word) :
    (w.staged k ws).queue e = { w.queue e with staging := if e = k then ws else (w.queue e).staging } := by
  cases e <;> cases k <;> rfl
theorem Warp.staged_staged (w : Warp) (k : EngKind) (a b : List Word) : (w.staged k a).staged k b = w.staged k b := by
  cases k <;> rfl
theorem Warp.staged_eq (w : Warp) (k : EngKind) (ws : List Word) : w.sameButQueues (w.staged k ws) := by
  cases k <;> rfl

/-- One word that completes nothing. -/
theorem Hw.pushWord_stage {h : Hw} {e : Env} {wk : Nat} {k : EngKind} {rm nbv v : Word} {w : Warp} (hw : h.warp? wk = some w)
    (hl : ((w.queue k).staging ++ [v]).length ≠ hdrLen (((w.queue k).staging ++ [v]).headD 0#32)) :
    h.pushWord e wk k rm nbv v = .ok (h.setStaging wk k ((w.queue k).staging ++ [v])) := by
  unfold Hw.pushWord
  simp only [hw]
  rw [if_neg hl]

theorem headD_append_of {a b : List Word} (v : Word) (hb : a ≠ []) : (a ++ b).headD v = a.headD v := by
  cases a with
  | nil => exact absurd rfl hb
  | cons x l => rfl

/-- Words that complete nothing plan no command. -/
theorem pushPlan_stage (k : EngKind) (vs : List Word) : ∀ st, (st = [] → vs ≠ [] → hdrBad k (vs.headD 0#32) = false) →
    (st ++ vs).length < hdrLen ((st ++ vs).headD 0#32) → pushPlan k st vs = some 0 := by
  induction vs with
  | nil => intro st _ _; rfl
  | cons v vs ih =>
    intro st hb hl
    have hne : st ++ [v] ≠ [] := by simp
    have hh : (st ++ v :: vs).headD 0#32 = (st ++ [v]).headD 0#32 := by
      rw [show st ++ v :: vs = (st ++ [v]) ++ vs by simp, headD_append_of _ hne]
    rw [hh] at hl
    simp only [List.length_append, List.length_cons] at hl
    unfold pushPlan
    dsimp only
    rw [if_neg, if_neg]
    · refine ih _ (fun h => absurd h hne) ?_
      rw [headD_append_of _ hne]; simp only [List.length_append, List.length_cons, List.length_nil]; omega
    · simp only [List.length_append, List.length_cons, List.length_nil]; omega
    · rintro ⟨h1, h2⟩
      cases st with
      | nil => have h3 := hb rfl (by simp); exact absurd (h2.symm.trans h3) (by simp)
      | cons a l => simp at h1

/-- Several words that complete nothing: every other part of the machine stays. -/
theorem pushLoop_stage (vs : List Word) : ∀ {h : Hw} {e : Env} {wk : Nat} {x begun : Bool} {k : EngKind} {rm nbv : Word} {w : Warp},
    h.warp? wk = some w → ((w.queue k).staging ++ vs).length < hdrLen (((w.queue k).staging ++ vs).headD 0#32) →
    ∃ g, pushLoop e wk x k rm nbv begun h vs = .ok g ∧ g.warp? wk = some (w.staged k ((w.queue k).staging ++ vs)) ∧
      (∀ j, j ≠ wk → g.warp? j = h.warp? j) ∧ g = { h with warps := g.warps } := by
  induction vs with
  | nil =>
    intro h e wk x begun k rm nbv w hw hl
    refine ⟨h, rfl, ?_, fun _ _ => rfl, rfl⟩
    rw [hw, List.append_nil]; cases k <;> rfl
  | cons v vs ih =>
    intro h e wk x begun k rm nbv w hw hl
    have hne : (w.queue k).staging ++ [v] ≠ [] := by simp
    have hh : ((w.queue k).staging ++ v :: vs).headD 0#32 = ((w.queue k).staging ++ [v]).headD 0#32 := by
      rw [show (w.queue k).staging ++ v :: vs = ((w.queue k).staging ++ [v]) ++ vs by simp, headD_append_of _ hne]
    rw [hh] at hl
    simp only [List.length_append, List.length_cons] at hl
    have h1 : h.pushWord e wk k rm nbv v = .ok (h.setStaging wk k ((w.queue k).staging ++ [v])) :=
      Hw.pushWord_stage hw (by simp only [List.length_append, List.length_cons, List.length_nil]; omega)
    have hw1 : (h.setStaging wk k ((w.queue k).staging ++ [v])).warp? wk = some (w.staged k ((w.queue k).staging ++ [v])) := by
      simp only [Hw.setStaging, Hw.warp?_onWarp_same, hw, Option.map_some]; rfl
    have hst : ((w.staged k ((w.queue k).staging ++ [v])).queue k).staging = (w.queue k).staging ++ [v] := by
      rw [Warp.staged_queue]; simp
    obtain ⟨g, hg, hgw, hgo, hge⟩ := ih (h := h.setStaging wk k ((w.queue k).staging ++ [v])) (e := e)
      (x := x) (begun := true) (rm := rm) (nbv := nbv) hw1
      (by rw [hst, headD_append_of _ hne]; simp only [List.length_append, List.length_cons, List.length_nil]; omega)
    refine ⟨g, ?_, ?_, ?_, ?_⟩
    · unfold pushLoop; rw [h1]; exact hg
    · rw [hgw, hst, Warp.staged_staged, List.append_assoc]; rfl
    · intro j hj; rw [hgo j hj, Hw.setStaging, Hw.warp?_onWarp_other _ _ hj]
    · rw [hge]; rfl

/-- Every instruction that puts one value per active lane into a push register. -/
theorem pushes_of_put {i : Instr} {u : Use} {val : Iss → Nat → List Word}
    (hexec : ∀ s, exec i s = issue i s fun e h q => Iss.put e q u (val q) h) : Pushes i u val := by
  intro s q hI hq ho hs
  obtain ⟨hwarp, hblk, -⟩ := Iss.of_eqs hI.2.1
  obtain ⟨g, hg, hgw, hgo, hge⟩ := pushLoop_stage (q.lanes.flatMap (val q)) (h := s.hw) (e := ⟨s.clk, s.mem⟩) (x := q.x) (begun := false)
    (k := queueKind u.r.toNat) (rm := q.w.rmode) (nbv := q.w.nbv) hwarp hs.2
  have hplan := pushPlan_stage (queueKind u.r.toNat) (q.lanes.flatMap (val q)) (q.w.queue (queueKind u.r.toNat)).staging
    (fun h _ => hs.1 h) hs.2
  have hmay : s.hw.mayPush q.wk (queueKind u.r.toNat) (q.lanes.flatMap (val q)) 0 = .ok () := by
    have ho' : s.hw.ownsEngine (wkFn q.wk) q.b.core (queueKind u.r.toNat) = true := ho
    have hb' : s.hw.block? (wkBlock q.wk) = some q.b := hblk
    unfold Hw.mayPush
    simp only [hwarp, hb', ho', hplan, Bool.not_true, Bool.false_eq_true, if_false]
    rfl
  have hf : Iss.put ⟨s.clk, s.mem⟩ q u (val q) s.hw = .ok g := by
    have hd : dstPushes u q.lanes (val q) = some (queueKind u.r.toNat, q.lanes.flatMap (val q)) := by
      unfold dstPushes; exact if_pos hq
    simp only [Iss.put, hd, Hw.pushWords, hmay, hwarp]
    exact hg
  obtain ⟨k, hR, hk⟩ := issue_next (f := fun e h q => Iss.put e q u (val q) h) hI.2.1 hI.2.2.1 hI.2.2.2.2 hf (Or.inr (by
    rw [hge]; exact hI.2.2.2.1))
  generalize hv : q.w.staged (queueKind u.r.toNat) ((q.w.queue (queueKind u.r.toNat)).staging ++ q.lanes.flatMap (val q)) = v at *
  have hsq : q.w.sameButQueues v := by rw [← hv]; exact Warp.staged_eq _ _ _
  have hgw' : (g.goto q.wk q.x q.next).warp? q.wk = some (v.setPath q.x { q.p with pc := q.next }) := by
    simp only [Hw.goto, Hw.onPath, Hw.warp?_onWarp_same, hgw, Option.map_some]
    have : v.path q.x = q.p := by rw [hsq]; cases h : q.x <;> simp [Iss.p, Warp.path, h]
    rw [this]
  have hkw := hR.warp
  rw [hgw'] at hkw
  simp only [Option.map_some] at hkw
  obtain ⟨sq, tq⟩ := Warp.popTokens_spec (v.setPath q.x { q.p with pc := q.next }) i
  have hwq : k.wq = [] := by
    rw [hR.rest, Hw.goto_wq, hge]; exact hI.1.2
  refine ⟨_, _, (hexec s).trans hk, ⟨hkw, ?_, rfl, ?_, ?_, ?_, ?_, ?_, ?_⟩, ?_, ?_, ?_, ?_⟩
  · intro j hj
    rw [show (({ k with wq := [] } : Hw).warp? j) = k.warp? j from rfl, hR.others j hj, Hw.goto, Hw.onPath,
      Hw.warp?_onWarp_other _ _ hj, hgo j hj]
  · simp [hwq, flush]
  · have := hR.rest
    have hs : s.hw.wq = [] := hI.1.2
    have hg2 : g.goto q.wk q.x q.next = { s.hw with warps := (g.goto q.wk q.x q.next).warps } := by
      conv_lhs => rw [hge]
      rfl
    rw [hg2] at this
    show ({ k with wq := [] } : Hw) = _
    rw [this]
    simp only [hs]
  · intro f
    have := hR.fns f
    have hh : (g.goto q.wk q.x q.next).fn f = s.hw.fn f := by
      show g.fn f = _
      rw [hge]; rfl
    rw [hh] at this
    exact this
  · intro hn
    obtain ⟨a, b, c⟩ := hR.quiet (by rw [hn]; rfl)
    refine ⟨a.trans ?_, b.trans ?_, c.trans ?_⟩
    · rw [Hw.goto_blocks, hge]
    · rw [Hw.goto_cores, hge]
    · rw [Hw.goto_l2, hge]
  · rw [Warp.retired_eq, sq, hsq]; cases q.x <;> rfl
  · rw [Warp.retired_other, sq]
    show (v.setPath q.x { q.p with pc := q.next }).path (!q.x) = _
    rw [Warp.setPath_other, hsq]; cases q.x <;> rfl
  · unfold GoesTo
    rw [Warp.retired_path, sq]
    have h1 : (Warp.path { v.setPath q.x { q.p with pc := q.next } with
        q0 := ((v.setPath q.x { q.p with pc := q.next }).popTokens i).q0
        q2 := ((v.setPath q.x { q.p with pc := q.next }).popTokens i).q2
        q4 := ((v.setPath q.x { q.p with pc := q.next }).popTokens i).q4 } q.x) = { q.p with pc := q.next } := by
      cases q.x <;> rfl
    rw [h1]
    refine ⟨rfl, rfl, rfl, rfl, rfl, rfl, ?_, ?_⟩ <;> (rw [hsq]; cases q.x <;> rfl)
  · rw [Warp.retired_eq, sq, hsq]; cases q.x <;> rfl
  · refine ⟨?_, ?_, ?_⟩ <;> (rw [Warp.retired_eq, sq, hsq]; cases q.x <;> rfl)
  · intro e
    have h1 : (v.setPath q.x { q.p with pc := q.next }).queue e = v.queue e := by cases q.x <;> cases e <;> rfl
    rw [Warp.retired_queue, tq, h1, ← hv, Warp.staged_queue]
    by_cases he : e = queueKind u.r.toNat
    · subst he; by_cases hp : pops i (queueKind u.r.toNat) = true <;> simp [hp]
    · by_cases hp : pops i e = true <;> simp [hp, he]

end Sys2Proof.Machine
end

