-- ==== Sys2Proof/Laws/Flying.lean ====
section
/-! SUPPORT. Sys2Proof/Laws/Flying.lean: iterative instructions, once for all (R76, R163). -/
set_option Elab.async false
namespace Sys2Proof.Machine

open Sys2Proof.Terms

/-! ## Marking a destination empty -/

theorem Warp.isEmpty_setEmpty (w : Warp) (r n r' n' : Nat) (hn : n < 1024) (hn' : n' < 1024) :
    (w.setEmpty r n).isEmpty r' n' = true ↔ (w.isEmpty r' n' = true ∨ (r' = r ∧ n' = n)) := by
  unfold Warp.setEmpty
  split
  · rename_i h
    constructor
    · intro a; exact Or.inl a
    · rintro (a | ⟨rfl, rfl⟩)
      · exact a
      · exact h
  · simp only [Warp.isEmpty, List.contains_eq_mem, List.mem_cons, decide_eq_true_eq]
    constructor
    · rintro (a | a)
      · right; omega
      · left; exact a
    · rintro (a | ⟨rfl, rfl⟩)
      · right; exact a
      · left; rfl

theorem Warp.setEmpty_eq (w : Warp) (r n : Nat) : w.setEmpty r n = { w with empty := (w.setEmpty r n).empty } := by
  unfold Warp.setEmpty; split <;> rfl

theorem Warp.setEmpties_spec (m r n : Nat) (hn : n < 1024) : ∀ w : Warp,
    ((List.range m).foldl (fun w j => w.setEmpty (r + j) n) w
      = { w with empty := ((List.range m).foldl (fun w j => w.setEmpty (r + j) n) w).empty }) ∧
    ∀ r' n', n' < 1024 → (((List.range m).foldl (fun w j => w.setEmpty (r + j) n) w).isEmpty r' n' = true ↔
      (w.isEmpty r' n' = true ∨ (n' = n ∧ r ≤ r' ∧ r' < r + m))) := by
  induction m with
  | zero => intro w; refine ⟨rfl, fun r' n' _ => ?_⟩; simp
  | succ m ih =>
    intro w
    obtain ⟨e, h⟩ := ih w
    rw [List.range_succ, List.foldl_append]
    simp only [List.foldl_cons, List.foldl_nil]
    refine ⟨?_, fun r' n' hn' => ?_⟩
    · rw [Warp.setEmpty_eq, e]
    · rw [Warp.isEmpty_setEmpty _ _ _ _ _ hn hn', h r' n' hn']
      constructor
      · rintro ((a | ⟨a, b, c⟩) | ⟨a, b⟩)
        · exact Or.inl a
        · right; exact ⟨a, b, by omega⟩
        · right; exact ⟨b, by omega, by omega⟩
      · rintro (a | ⟨a, b, c⟩)
        · exact Or.inl (Or.inl a)
        · by_cases hr : r' < r + m
          · exact Or.inl (Or.inr ⟨a, b, hr⟩)
          · exact Or.inr ⟨by omega, a⟩

theorem Warp.markEmpty_spec (w : Warp) (u : Use) (lanes : List Nat) (hl : ∀ n ∈ lanes, n < 1024) :
    w.markEmpty u lanes = { w with empty := (w.markEmpty u lanes).empty } ∧
    ∀ r n, n < 1024 → ((w.markEmpty u lanes).isEmpty r n = true ↔ (w.isEmpty r n = true ∨
      (u.r.toNat < 96 ∧ n ∈ lanes ∧ w.vIndex u ≤ r ∧ r < w.vIndex u + u.n))) := by
  unfold Warp.markEmpty
  split
  · rename_i hv
    generalize hbase : w.vIndex u = base
    have key : ∀ (l : List Nat), (∀ n ∈ l, n < 1024) → ∀ v : Warp, v.vIndex u = base →
        (l.foldl (fun w n => (List.range u.n).foldl (fun w j => w.setEmpty (w.vIndex u + j) n) w) v
          = { v with empty := (l.foldl (fun w n => (List.range u.n).foldl (fun w j => w.setEmpty (w.vIndex u + j) n) w) v).empty }) ∧
        ∀ r n, n < 1024 → ((l.foldl (fun w n => (List.range u.n).foldl (fun w j => w.setEmpty (w.vIndex u + j) n) w) v).isEmpty r n = true
          ↔ (v.isEmpty r n = true ∨ (n ∈ l ∧ base ≤ r ∧ r < base + u.n))) := by
      intro l
      induction l with
      | nil => intro _ v _; refine ⟨rfl, fun r n _ => ?_⟩; simp
      | cons a l ih =>
        intro hl v hv
        -- the index does not move while registers are marked
        have idx : ∀ (m : Nat) (x : Warp), x.vIndex u = base →
            (List.range m).foldl (fun w j => w.setEmpty (w.vIndex u + j) a) x
              = (List.range m).foldl (fun w j => w.setEmpty (base + j) a) x := by
          intro m
          induction m with
          | zero => intro x _; rfl
          | succ m ihm =>
            intro x hx
            rw [List.range_succ, List.foldl_append, List.foldl_append, ihm x hx]
            simp only [List.foldl_cons, List.foldl_nil]
            have : ((List.range m).foldl (fun w j => w.setEmpty (base + j) a) x).vIndex u = base := by
              rw [(Warp.setEmpties_spec m base a (hl a (by simp)) x).1]; exact hx
            rw [this]
        rw [List.foldl_cons, idx u.n v hv]
        obtain ⟨e1, h1⟩ := Warp.setEmpties_spec u.n base a (hl a (by simp)) v
        generalize (List.range u.n).foldl (fun w j => w.setEmpty (base + j) a) v = v1 at *
        obtain ⟨e2, h2⟩ := ih (fun n hn => hl n (List.mem_cons_of_mem a hn)) v1 (by rw [e1]; exact hv)
        refine ⟨?_, fun r n hn => ?_⟩
        · rw [e2, e1]
        · rw [h2 r n hn, h1 r n hn]
          constructor
          · rintro ((b | ⟨b, c⟩) | ⟨b, c⟩)
            · exact Or.inl b
            · right; exact ⟨by simp [b], c⟩
            · right; exact ⟨List.mem_cons_of_mem a b, c⟩
          · rintro (b | ⟨b, c⟩)
            · exact Or.inl (Or.inl b)
            · rcases List.mem_cons.mp b with b | b
              · exact Or.inl (Or.inr ⟨b, c⟩)
              · exact Or.inr ⟨b, c⟩
    obtain ⟨e, h⟩ := key lanes hl w hbase
    exact ⟨e, fun r n hn => by rw [h r n hn]; simp [hv]⟩
  · rename_i hv
    exact ⟨rfl, fun r n _ => by simp [hv]⟩

/-! ## The value a flight carries -/

theorem wordsOfVal_pack (ws : List Word) (h : ws.length ≤ 2) :
    wordsOfVal ws.length (ws.reverse.foldl (fun (a : BitVec 128) w => (a <<< 32) ||| w.setWidth 128) 0#128) = ws := by
  have ext : ∀ (x y : Word), (∀ i, i < 32 → x.getLsbD i = y.getLsbD i) → x = y := fun x y h => BitVec.eq_of_getLsbD_eq h
  match ws, h with
  | [], _ => rfl
  | [a], _ =>
    simp only [wordsOfVal, quarters, List.reverse_cons, List.reverse_nil, List.nil_append, List.foldl_cons, List.foldl_nil,
      List.length_cons, List.length_nil, List.take, List.cons.injEq, and_true]
    refine ext _ _ fun i hi => ?_
    simp (disch := omega)
  | [a, b], _ =>
    simp only [wordsOfVal, quarters, List.reverse_cons, List.reverse_nil, List.nil_append, List.foldl_cons, List.foldl_nil,
      List.length_cons, List.length_nil, List.take, List.cons.injEq, and_true, List.cons_append]
    refine ⟨ext _ _ fun i hi => ?_, ext _ _ fun i hi => ?_⟩
    · simp [hi]; intro; omega
    · have h1 : 32 + i < 128 := by omega
      simp [hi, h1]

theorem Tab.getD_map {α : Type} (l : List Nat) (f : Nat → α) (d : α) {n : Nat} (hn : n ∈ l) :
    Tab.getD (l.map fun x => (x, f x)) n d = f n := by
  induction l with
  | nil => simp at hn
  | cons a l ih =>
    by_cases h : a = n
    · subst h; simp [Tab.getD, Tab.find?]
    · have : n ∈ l := by rcases List.mem_cons.mp hn with h1 | h1; exact absurd h1.symm h; exact h1
      have := ih this
      simpa [Tab.getD, Tab.find?, h] using this

/-! ## Sending off -/

/-- What sending off a flight changes. -/
theorem Hw.fly_eq (h : Hw) (q : Iss) (u : Use) (f : Flight) (back : Instr) :
    h.fly q u f back = { h with
      warps := (h.fly q u f back).warps, nextId := h.nextId + 1, flights := Tab.put h.flights h.nextId f
      agenda := h.agenda ++ [.event back { Occasion.none with unit := h.nextId, aux := f.tag }] } := by
  unfold Hw.fly Hw.sendOff
  dsimp only
  split <;> rfl

/-- Putting an entry that fails a test makes no more entries that meet it. -/
theorem Tab.filter_put_le {α : Type} (p : Nat × α → Bool) (t : Tab α) (k : Nat) (v : α) (hv : p (k, v) = false) :
    ((Tab.put t k v).filter p).length ≤ (t.filter p).length := by
  induction t with
  | nil => simp [Tab.put, hv]
  | cons e t ih =>
    obtain ⟨j, w⟩ := e
    simp only [Tab.put]
    split
    · simp [List.filter_cons, hv]
    · split
      · rw [List.filter_cons, if_neg (by simp [hv])]
        exact ((List.sublist_cons_self _ _).filter p).length_le
      · simp only [List.filter_cons]; split <;> simp [ih]

/-- Sending off a flight that acquires nothing uses no room of the interval counter (R209). -/
theorem Hw.fly_wraps (h : Hw) (q : Iss) (u : Use) (f : Flight) (back : Instr) (bk n : Nat) (hf : f.acquires = false)
    (hw : h.wraps bk n = false) : (h.fly q u f back).wraps bk n = false := by
  rw [Hw.fly_eq]
  have ha := Tab.filter_put_le (fun x : Nat × Flight => wkBlock x.2.wk == bk && x.2.acquires) h.flights h.nextId f (by simp [hf])
  simp only [Hw.wraps, Hw.acqsOf, Hw.relsOf, Hw.block?] at *
  cases hb : Tab.find? h.blocks bk with
  | none => simp
  | some b =>
    rw [hb] at hw
    simp only [Bool.and_eq_false_iff] at hw ⊢
    exact hw.imp_right fun hw => decide_eq_false fun hc => absurd (of_decide_eq_false hw) (by omega)

/-- An instruction that sends off its values as a flight of some kind. -/
theorem sent_of_fly {i : Instr} {u : Use} {kind : FlightKind} {val : Iss → Nat → List Word} {F : Env → Hw → Iss → Except Stop Hw}
    {s : State} {q : Iss} (hexec : exec i s = issue i s F) (hn : u.n ≤ 2) (hlen : ∀ l, (val q l).length = u.n) (hI : Issues i s q)
    (hk1 : (Iss.flight s.hw q kind u (fun _ => 0#64) (q.flyVals (val q))).acquires = false)
    (hF : F ⟨s.clk, s.mem⟩ s.hw q
      = .ok (s.hw.fly q u (Iss.flight s.hw q kind u (fun _ => 0#64) (q.flyVals (val q))) .iterativePassResult)) :
    ∃ t w f, Sent i u kind val s q t w f := by
    obtain ⟨hwarp, hblk, hl⟩ := Iss.of_eqs hI.2.1
    let f := Iss.flight s.hw q kind u (fun _ => 0#64) (q.flyVals (val q))
    have hgw1 := Hw.fly_wraps s.hw q u f .iterativePassResult q.bk 1 hk1 hI.2.2.2.1
    change F _ _ _ = .ok (s.hw.fly q u f .iterativePassResult) at hF
    obtain ⟨g, hgd⟩ : ∃ g, g = s.hw.fly q u f .iterativePassResult := ⟨_, rfl⟩
    rw [← hgd] at hF hgw1
    -- the warp after the flight was sent off
    obtain ⟨me, mspec⟩ := Warp.markEmpty_spec q.w u q.lanes hl
    generalize hv0 : q.w.markEmpty u q.lanes = v0 at me mspec
    have h0 : v0.path q.x = q.p := by rw [me]; cases h : q.x <;> simp [Iss.p, Warp.path, h]
    have hex : ∃ v : Warp, g.warp? q.wk = some v ∧ v = { q.w with empty := v0.empty, p0 := v.p0, p1 := v.p1 } ∧
        (v.path q.x).mask = q.p.mask ∧ (v.path q.x).stack = q.p.stack ∧ (v.path q.x).base = q.p.base ∧
        (v.path q.x).mon = q.p.mon ∧ (v.path q.x).later = q.p.later := by
      rw [hgd]
      unfold Hw.fly Hw.sendOff
      dsimp only
      split
      · refine ⟨v0.setPath q.x { v0.path q.x with hold := some s.hw.nextId, stall := 2 }, ?_, ?_, ?_⟩
        · rw [Hw.warp?_plan]
          simp only [Hw.onPath, Hw.warp?_onWarp_same]
          show Option.map _ (Option.map _ (s.hw.warp? q.wk)) = _
          rw [hwarp, ← hv0]; rfl
        · rw [me]; cases q.x <;> rfl
        · rw [Warp.setPath_path, h0]; exact ⟨rfl, rfl, rfl, rfl, rfl⟩
      · refine ⟨v0, ?_, ?_, ?_⟩
        · rw [Hw.warp?_plan, Hw.warp?_onWarp_same]
          show Option.map _ (s.hw.warp? q.wk) = _
          rw [hwarp, ← hv0]; rfl
        · rw [me]
        · rw [h0]; exact ⟨rfl, rfl, rfl, rfl, rfl⟩
    obtain ⟨v, hgw, hvk, hpath⟩ := hex
    have hgo : ∀ k, k ≠ q.wk → g.warp? k = s.hw.warp? k := by
      intro k hk
      rw [hgd]
      unfold Hw.fly Hw.sendOff
      dsimp only
      split
      · rw [Hw.warp?_plan, Hw.onPath, Hw.warp?_onWarp_other _ _ hk, Hw.warp?_onWarp_other _ _ hk]; rfl
      · rw [Hw.warp?_plan, Hw.warp?_onWarp_other _ _ hk]; rfl
    have hge : g = { s.hw with
        warps := g.warps, nextId := s.hw.nextId + 1, flights := Tab.put s.hw.flights s.hw.nextId f
        agenda := s.hw.agenda ++ [.event .iterativePassResult { Occasion.none with unit := s.hw.nextId, aux := f.tag }] } := by
      rw [hgd]; exact Hw.fly_eq s.hw q u f .iterativePassResult
    obtain ⟨k, hR, hk⟩ := issue_next (f := F) hI.2.1 hI.2.2.1 hI.2.2.2.2 hF
      (Or.inr hgw1)
    have hgw' : (g.goto q.wk q.x q.next).warp? q.wk = some (v.setPath q.x { v.path q.x with pc := q.next }) := by
      simp only [Hw.goto, Hw.onPath, Hw.warp?_onWarp_same, hgw, Option.map_some]
    have hkw := hR.warp
    rw [hgw'] at hkw
    simp only [Option.map_some] at hkw
    generalize hv1 : v.setPath q.x { v.path q.x with pc := q.next } = v1 at *
    have hv1k : v1 = { v with p0 := v1.p0, p1 := v1.p1 } := by rw [← hv1]; cases q.x <;> rfl
    obtain ⟨sq, tq⟩ := Warp.popTokens_spec v1 i
    have hrest := hR.rest
    have hgg : g.goto q.wk q.x q.next = { g with warps := (g.goto q.wk q.x q.next).warps } := rfl
    have hwq : k.wq = [] := by rw [hrest, Hw.goto_wq, hge]; exact hI.1.2
    refine ⟨_, _, f, hexec.trans hk, ⟨hkw, ?_, rfl, ?_, ?_, ?_, ?_, ?_, ?_, ?_, ?_, ?_⟩, ?_, ?_, ⟨rfl, rfl, rfl, rfl, rfl, ?_⟩, ⟨?_, ?_⟩, ?_⟩
    · intro j hj
      rw [show (({ k with wq := [] } : Hw).warp? j) = k.warp? j from rfl, hR.others j hj, Hw.goto, Hw.onPath,
        Hw.warp?_onWarp_other _ _ hj, hgo j hj]
    · simp [hwq, flush]
    · show Tab.find? k.flights s.hw.nextId = _
      rw [hrest, Hw.goto_flights, hge]; simp
    · intro j hj
      show Tab.find? k.flights j = _
      rw [hrest, Hw.goto_flights, hge]; exact Tab.find?_put_other _ _ hj
    · show k.nextId = _
      rw [hrest, Hw.goto_nextId, hge]
    · show k.agenda = _
      rw [hrest, Hw.goto_agenda, hge]
    · show k.parts = _
      rw [hrest, Hw.goto_parts, hge]
    · show k.fcores = _
      rw [hrest, Hw.goto_fcores, hge]
    · refine ⟨?_, ?_, ?_⟩ <;> (rw [Warp.retired_eq, sq, hv1k, hvk])
    · rw [Warp.retired_eq, sq, hv1k, hvk]
    · intro e
      have h1 : v1.queue e = q.w.queue e := by rw [hv1k, hvk]; cases e <;> rfl
      rw [Warp.retired_queue, tq, h1]
    · unfold GoesTo
      rw [Warp.retired_path, sq]
      have h1 : (Warp.path { v1 with q0 := (v1.popTokens i).q0, q2 := (v1.popTokens i).q2, q4 := (v1.popTokens i).q4 } q.x)
          = { v.path q.x with pc := q.next } := by
        rw [← hv1]; cases q.x <;> rfl
      rw [h1]
      obtain ⟨a, b, c, d, e⟩ := hpath
      refine ⟨rfl, e, a, b, c, d, ?_, ?_⟩ <;> (rw [Warp.retired_eq]; rw [hv1k, hvk])
    · show (q.lanes.map fun n => (n, _)).map (·.1) = q.lanes
      simp [Function.comp_def]
    · show (q.flyVals (val q)).map (·.1) = q.lanes
      simp [Iss.flyVals, Function.comp_def]
    · intro l hl'
      show wordsOfVal u.n (Tab.getD (q.flyVals (val q)) l 0#128) = _
      unfold Iss.flyVals
      rw [Tab.getD_map q.lanes _ _ hl', ← hlen l]
      exact wordsOfVal_pack _ (by rw [hlen]; exact hn)
    · intro r m hm
      have : ∀ x : Warp, x.empty = v0.empty → (x.isEmpty r m = true ↔ v0.isEmpty r m = true) := by
        intro x hx; simp [Warp.isEmpty, hx]
      rw [this _ (by rw [Warp.retired_eq, sq, hv1k, hvk])]
      exact mspec r m hm

/-- Every iterative instruction. -/
theorem sent_of_iterative {i : Instr} {d : RField} {n : Nat} {val : Iss → Nat → List Word}
    (hexec : ∀ s, exec i s = iterative i d n s val) (hn : n ≤ 2) (hlen : ∀ q l, (val q l).length = n) {s : State} {q : Iss}
    (hI : Issues i s q) (hq : ¬ inQueue ((Use.dst d).wide n)) : ∃ t w f, Sent i ((Use.dst d).wide n) .iter val s q t w f := by
  refine sent_of_fly (hexec s) hn (fun l => hlen q l) hI rfl ?_
  have h0 : (dstPushes ((Use.dst d).wide n) q.lanes (val q)).isSome = false := by rw [dstPushes_none hq]; rfl
  simp only [h0, Bool.false_eq_true, if_false]

/-- An iterative instruction whose destination is a push register. -/
theorem pushes_of_iterative {i : Instr} {d : RField} {n : Nat} {val : Iss → Nat → List Word}
    (hexec : ∀ s, exec i s = iterative i d n s val) : Pushes i ((Use.dst d).wide n) val := by
  intro s q hI hq
  have hsome : ∀ q : Iss, (dstPushes ((Use.dst d).wide n) q.lanes (val q)).isSome = true := by
    intro q
    have : dstPushes ((Use.dst d).wide n) q.lanes (val q) = some (queueKind ((Use.dst d).wide n).r.toNat, q.lanes.flatMap (val q)) := by
      unfold dstPushes; exact if_pos hq
    rw [this]; rfl
  refine pushes_of_put (i := i) (u := (Use.dst d).wide n) (val := val) ?_ s q hI hq
  intro s
  rw [hexec s]
  unfold iterative
  congr 1
  funext e h q
  simp only [hsome q, if_true]

end Sys2Proof.Machine
end

