-- ==== Sys2Proof/Laws/Keeps.lean ====
section
/-! SUPPORT. Sys2Proof/Laws/Keeps.lean: the bookkeeping of an access - translations cached, marks, counters, recency in
L2 - leaves registers, scratchpad bytes, L1 bytes, guarded bytes and memory alone. -/
set_option Elab.async false
namespace Sys2Proof.Machine

/-- A line of a core's L1 without its copy of mark records. -/
def L1Line.bare (l : L1Line) : L1Line := { l with recs := [] }

/-- Two machines that differ only in bookkeeping. -/
structure Keeps (h k : Hw) : Prop where
  rest  : k = { h with
    cores := k.cores, dieTlb := k.dieTlb, fcores := k.fcores, parts := k.parts, fns := k.fns, out := k.out, ports := k.ports
    units := k.units, marks := k.marks, mctx := k.mctx, spare := k.spare, ovf := k.ovf, l2 := k.l2, poison := k.poison
    free := k.free }
  l1    : ∀ c x l, (k.l1 c x l).bare = (h.l1 c x l).bare
  spad  : ∀ f c, (k.fcore f c).spad = (h.fcore f c).spad
  units : ∀ u, (Tab.find? k.units u).map (fun x => { x with gmarks := [] })
    = (Tab.find? h.units u).map (fun x => { x with gmarks := [] })
  parts : ∀ p, k.part p = { h.part p with pmolost := (k.part p).pmolost }
  fns   : ∀ f, (h.fn f).sameButCounters (k.fn f)

theorem Keeps.refl (h : Hw) : Keeps h h :=
  ⟨rfl, fun _ _ _ => rfl, fun _ _ => rfl, fun _ => rfl, fun _ => rfl, fun _ => Fn.sameButCounters_refl _⟩

theorem Keeps.trans {h k l : Hw} (a : Keeps h k) (b : Keeps k l) : Keeps h l := by
  refine ⟨?_, fun c x l => (b.l1 c x l).trans (a.l1 c x l), fun f c => (b.spad f c).trans (a.spad f c),
    fun u => (b.units u).trans (a.units u), fun p => ?_,
    fun f => Fn.sameButCounters_trans (a.fns f) (b.fns f)⟩
  · rw [b.rest, a.rest]
  · rw [b.parts p, a.parts p]

theorem Keeps.foldl {α : Type} (f : Hw → α → Hw) (hf : ∀ (h : Hw) (x : α), Keeps h (f h x)) (l : List α) (h : Hw) :
    Keeps h (l.foldl f h) := by
  induction l generalizing h with
  | nil => exact Keeps.refl h
  | cons x l ih => exact Keeps.trans (hf h x) (ih (f h x))

section
variable {h k : Hw}
theorem Keeps.warps (a : Keeps h k) : k.warps = h.warps := by rw [a.rest]
theorem Keeps.wq (a : Keeps h k) : k.wq = h.wq := by rw [a.rest]
theorem Keeps.flights (a : Keeps h k) : k.flights = h.flights := by rw [a.rest]
theorem Keeps.nextId (a : Keeps h k) : k.nextId = h.nextId := by rw [a.rest]
theorem Keeps.agenda (a : Keeps h k) : k.agenda = h.agenda := by rw [a.rest]
theorem Keeps.recs (a : Keeps h k) : k.recs = h.recs := by rw [a.rest]
theorem Keeps.scrBytes (a : Keeps h k) (fn core off n : Nat) : k.scrBytes fn core off n = h.scrBytes fn core off n := by
  simp only [Hw.scrBytes, a.spad fn core]
theorem Keeps.unit (a : Keeps h k) (u : Nat) :
    (Tab.find? k.units u).map (fun x => (x.base, x.nt, x.gmem)) = (Tab.find? h.units u).map (fun x => (x.base, x.nt, x.gmem)) := by
  have := congrArg (Option.map fun x : GUnit => (x.base, x.nt, x.gmem)) (a.units u)
  simpa [Option.map_map, Function.comp_def] using this
theorem Keeps.block (a : Keeps h k) (b : Nat) : k.block? b = h.block? b := by unfold Hw.block?; rw [a.rest]
theorem Keeps.guarded (a : Keeps h k) (b : Block) (va : DWord) (n : Nat) : k.guarded b va n = h.guarded b va n := by
  unfold Hw.guarded
  cases b.unit with
  | none => rfl
  | some u =>
    have := a.unit u
    cases hk : Tab.find? k.units u <;> cases hh : Tab.find? h.units u <;> simp [hk, hh] at this ⊢
    rw [this.1, this.2.1]
theorem Keeps.guardOf (a : Keeps h k) (s : Iss) (va : DWord) (n : Nat) : Iss.guardOf k s va n = Iss.guardOf h s va n := by
  unfold Iss.guardOf; rw [a.guarded]
theorem Keeps.partOf (a : Keeps h k) (f : Nat) : k.partOf f = h.partOf f := by
  unfold Hw.partOf; rw [a.fns f]
theorem Keeps.ctx (a : Keeps h k) (s : Iss) : Iss.ctx k s = Iss.ctx h s := by
  unfold Iss.ctx; rw [a.partOf]
theorem Keeps.byte (a : Keeps h k) (e : Env) (pa : Nat) : k.byte e pa = h.byte e pa := by unfold Hw.byte; rw [a.wq]
end

/-! ## The pieces of bookkeeping -/

theorem Keeps.of_counters {h k : Hw} (a : h.countersOnly k) : Keeps h k := by
  have e := a.1
  refine ⟨by rw [e], ?_, ?_, ?_, ?_, a.2⟩
  · intro c x l; rw [e]; rfl
  · intro f c; rw [e]; rfl
  · intro u; rw [e]
  · intro p; rw [e]; rfl

theorem Keeps.count (h : Hw) (f cls unit ev reason n : Nat) : Keeps h (h.count f cls unit ev reason n) :=
  Keeps.of_counters (Hw.count_fn_out h f cls unit ev reason n)

theorem Keeps.onPort (h : Hw) (p : Nat) (g : Port → Port) : Keeps h (h.onPort p g) :=
  ⟨rfl, fun _ _ _ => rfl, fun _ _ => rfl, fun _ => rfl, fun _ => rfl, fun _ => Fn.sameButCounters_refl _⟩
/-- A change of L2, spare bits, free-value counter, die TLB, memory marks, their contexts or overflow entries. -/
theorem Keeps.fields (h : Hw) (l2 : List L2Line) (spare : Tab (BitVec 64)) (free : Nat) (d : Tab (List Tlb))
    (marks : Tab WordMarks) (mctx : Tab Nat) (ovf : Tab (List Nat)) (poison : List Nat) :
    Keeps h { h with l2 := l2, spare := spare, free := free, dieTlb := d, marks := marks, mctx := mctx, ovf := ovf, poison := poison } :=
  ⟨rfl, fun _ _ _ => rfl, fun _ _ => rfl, fun _ => rfl, fun _ => rfl, fun _ => Fn.sameButCounters_refl _⟩

theorem Keeps.onCore (h : Hw) (c : Nat) (g : Core → Core)
    (hg : ∀ x k, (Tab.getD (g x).l1 k L1Line.empty).bare = (Tab.getD x.l1 k L1Line.empty).bare) : Keeps h (h.onCore c g) := by
  refine ⟨rfl, fun j x l => ?_, fun _ _ => rfl, fun _ => rfl, fun _ => rfl, fun _ => Fn.sameButCounters_refl _⟩
  unfold Hw.l1
  by_cases hj : j = c
  · subst hj; rw [Hw.core_onCore_same, hg]
  · rw [Hw.core_onCore_other _ _ hj]
theorem Keeps.onCoreTlb (h : Hw) (c : Nat) (g : Core → Core) (hg : ∀ x, (g x).l1 = x.l1) : Keeps h (h.onCore c g) :=
  Keeps.onCore h c g fun x k => by rw [hg]

theorem Keeps.onFCoreMarks (h : Hw) (f c : Nat) (g : FCore → FCore) (hg : ∀ x, (g x).spad = x.spad) :
    Keeps h (h.onFCore f c g) := by
  refine ⟨rfl, fun _ _ _ => rfl, fun j d => ?_, fun _ => rfl, fun _ => rfl, fun _ => Fn.sameButCounters_refl _⟩
  simp only [Hw.fcore, Hw.onFCore]
  by_cases hj : fcKey j d = fcKey f c
  · rw [hj, Tab.getD_put_same, hg]
  · rw [Tab.getD_put_other _ _ _ hj]

theorem Keeps.onUnitMarks (h : Hw) (u : Nat) (g : GUnit → GUnit) (hg : ∀ x, { g x with gmarks := [] } = { x with gmarks := [] }) :
    Keeps h (h.onUnit u g) := by
  refine ⟨rfl, fun _ _ _ => rfl, fun _ _ => rfl, fun j => ?_, fun _ => rfl, fun _ => Fn.sameButCounters_refl _⟩
  simp only [Hw.onUnit]
  by_cases hj : j = u
  · subst hj; rw [Tab.find?_modify_same, Option.map_map]
    cases Tab.find? h.units j <;> simp [hg]
  · rw [Tab.find?_modify_other _ _ hj]

theorem Keeps.lostMark (h : Hw) (p : Nat) : Keeps h (h.lostMark p) := by
  refine ⟨rfl, fun _ _ _ => rfl, fun _ _ => rfl, fun _ => rfl, fun q => ?_, fun _ => Fn.sameButCounters_refl _⟩
  by_cases hq : q = p
  · subst hq; simp [Hw.lostMark]
  · simp only [Hw.lostMark]; rw [Hw.part_onPart_other _ _ hq]

theorem Keeps.tookEntries (h : Hw) (p line n : Nat) : Keeps h (h.tookEntries p line n) := Keeps.count h _ _ _ _ _ _

theorem Keeps.tidyLine (h : Hw) (line : Nat) : Keeps h (h.tidyLine line) := by
  unfold Hw.tidyLine
  split
  · exact Keeps.fields h h.l2 _ h.free h.dieTlb h.marks _ _ h.poison
  · exact Keeps.refl h

theorem Keeps.setMarks (h : Hw) (s : Site) (m : WordMarks) : Keeps h (h.setMarks s m) := by
  cases s with
  | mem w => exact Keeps.trans (Keeps.fields h h.l2 h.spare h.free h.dieTlb _ h.mctx h.ovf h.poison) (Keeps.tidyLine _ _)
  | scr f c w =>
    simp only [Hw.setMarks]
    refine Keeps.onFCoreMarks h f c _ ?_
    intro _; rfl
  | guard u w => refine Keeps.onUnitMarks h u _ ?_; intro _; rfl

theorem Keeps.install (h : Hw) (ctx : Nat) (s : Site) (q : Claim) : Keeps h (h.install ctx s q) := by
  cases s with
  | mem w =>
    simp only [Hw.install]
    split
    · exact Keeps.fields h h.l2 h.spare h.free h.dieTlb _ _ h.ovf h.poison
    · split
      · exact Keeps.trans (Keeps.fields h h.l2 h.spare h.free h.dieTlb _ _ _ h.poison) (Keeps.tookEntries _ _ _ _)
      · split
        · exact Keeps.trans (Keeps.fields h h.l2 h.spare h.free h.dieTlb _ _ h.ovf h.poison) (Keeps.lostMark _ _)
        · exact Keeps.refl h
  | scr f c w =>
    simp only [Hw.install]
    split
    · refine Keeps.onFCoreMarks h f c _ ?_; intro _; rfl
    · split
      · refine Keeps.onFCoreMarks h f c _ ?_; intro _; rfl
      · split
        · exact Keeps.trans ((by refine Keeps.onFCoreMarks h f c _ ?_; intro _; rfl)) (Keeps.lostMark _ _)
        · exact Keeps.refl h
  | guard u w => exact Keeps.setMarks h (.guard u w) _

theorem Keeps.seenAdd (h : Hw) (core ctx w : Nat) (m : Mark) : Keeps h (h.seenAdd core ctx w m) := by
  refine Keeps.onCore h core _ fun x k => ?_
  simp only [Tab.getD]
  by_cases hk : k = l1Key ctx (w / 32)
  · subst hk
    rw [Tab.find?_modify_same]
    cases Tab.find? x.l1 (l1Key ctx (w / 32)) <;> rfl
  · rw [Tab.find?_modify_other _ _ hk]

theorem Keeps.dieCache (h : Hw) (die : Nat) (t : Tlb) : Keeps h (h.dieCache die t) :=
  Keeps.fields h h.l2 h.spare h.free _ h.marks h.mctx h.ovf h.poison

theorem Keeps.fillTlb (h : Hw) (core ctx : Nat) (va : DWord) (l : Leaf) : Keeps h (h.fillTlb core ctx va l) := by
  unfold Hw.fillTlb
  dsimp only
  generalize hr : (if (h.core core).tlb.any (Tlb.hits ctx (va.toNat % 2 ^ 57)) = true then h else _) = r
  have key : Keeps h r := by
    subst hr
    split
    · exact Keeps.refl h
    · refine Keeps.onCoreTlb h core _ ?_
      intro x
      unfold Core.cacheTlb
      dsimp only
      split <;> rfl
  split
  · exact key
  · exact Keeps.trans key (Keeps.dieCache r _ _)

theorem Keeps.iteTlb (h : Hw) (s : Iss) (as : List Acc) : Keeps h (Iss.fill h s as) := by
  unfold Iss.fill
  refine Keeps.foldl _ (fun h a => ?_) as h
  split
  · exact Keeps.fillTlb _ _ _ _ _
  · exact Keeps.refl _

theorem Keeps.markAll (h : Hw) (s : Iss) (cls : Cls) (w : Bool) (as : List Acc) : Keeps h (Iss.markAll h s cls w as) := by
  unfold Iss.markAll
  refine Keeps.foldl _ (fun h a => ?_) as h
  refine Keeps.trans ?_ (Keeps.foldl _ (fun h t => ?_) _ _)
  · split
    · refine Keeps.foldl _ (fun h t => ?_) _ _
      split
      · exact Keeps.setMarks _ _ _
      · exact Keeps.refl _
    · exact Keeps.refl _
  · split
    · exact Keeps.refl _
    · split
      · exact Keeps.install _ _ _ _
      · split
        · exact Keeps.setMarks _ _ _
        · exact Keeps.refl _

theorem Keeps.peerFrames (h : Hw) : Keeps h h.peerFrames := by
  unfold Hw.peerFrames
  refine Keeps.trans ?_ (Keeps.count _ _ _ _ _ _ _)
  exact Keeps.trans (Keeps.onPort h _ _) (Keeps.fields _ _ _ _ _ _ _ _ _)

theorem Keeps.writtenOut (h : Hw) (x : L2Line) : Keeps h (h.writtenOut x) := by
  unfold Hw.writtenOut
  split
  · exact Keeps.refl h
  · split
    · exact Keeps.count _ _ _ _ _ _ _
    · exact Keeps.peerFrames h
    · exact Keeps.refl h

theorem Keeps.takePointer (n : Nat) (h : Hw) (line : Nat) : Keeps h (Hw.takePointer n h line) := by
  induction n generalizing h with
  | zero => exact Keeps.refl h
  | succ n ih =>
    unfold Hw.takePointer
    dsimp only
    split
    · exact Keeps.refl h
    · split
      · exact Keeps.trans (Keeps.fields h h.l2 h.spare h.free h.dieTlb h.marks h.mctx _ h.poison) (Keeps.tookEntries _ _ _ _)
      · split
        · exact Keeps.trans (Keeps.trans (Keeps.fields h h.l2 h.spare h.free h.dieTlb _ h.mctx h.ovf h.poison) (Keeps.lostMark _ _)) (ih _)
        · exact Keeps.refl h

theorem Keeps.leaveL2 (h : Hw) (line : Nat) : Keeps h (h.leaveL2 line) := by
  unfold Hw.leaveL2
  split
  · exact Keeps.fields h h.l2 _ h.free h.dieTlb h.marks h.mctx h.ovf h.poison
  · refine Keeps.trans (Keeps.takePointer ((lineRecords h.marks line).length + 1) h line) ?_
    exact Keeps.fields _ _ _ _ _ _ _ _ _

theorem Keeps.evicted (h : Hw) (v : L2Line) : Keeps h (h.evicted v) := by
  unfold Hw.evicted
  dsimp only
  split
  · exact Keeps.writtenOut h v
  · exact Keeps.trans (Keeps.writtenOut h v) (Keeps.leaveL2 _ _)

theorem Keeps.takenOut (h : Hw) (line : Nat) : Keeps h (h.takenOut line) := by
  unfold Hw.takenOut
  exact Keeps.trans (Keeps.fields h _ h.spare h.free h.dieTlb h.marks h.mctx h.ovf h.poison)
    (Keeps.foldl _ (fun h x => Keeps.evicted h x) _ _)

theorem Keeps.homeCounts (g : Hw) (f slice pa : Nat) (hit : Bool) :
    Keeps g (let h := g.count f 1 slice 0x10 0 1
      if hit then h
      else
        let h := h.count f 1 slice 0x11 0 1
        if paKind pa = .hbm then h.count f 2 (chanOf pa) 0x20 0 2 else if paKind pa = .peer then h.peerFrames else h) := by
  dsimp only
  refine Keeps.trans (Keeps.count g f 1 slice 0x10 0 1) ?_
  split
  · exact Keeps.refl _
  · refine Keeps.trans (Keeps.count _ f 1 slice 0x11 0 1) ?_
    split
    · exact Keeps.count _ _ _ _ _ _ _
    · split
      · exact Keeps.peerFrames _
      · exact Keeps.refl _

/-- A touch of a line at its home. -/
theorem Keeps.touchHome (h : Hw) (q : HomeReq) (pa : Nat) (w : Bool) : Keeps h (h.touchHome q pa w) := by
  unfold Hw.touchHome
  dsimp only
  generalize hm : (if (paKind pa == PaKind.host && w && !q.leaf.hwb) = true then h.takenOut (lineOf pa) else h) = m
  have k0 : Keeps h m := by
    subst hm
    split
    · exact Keeps.takenOut _ _
    · exact Keeps.refl _
  generalize (if (m.hostHome q.leaf pa || _) = true then (m.l2, (none : Option L2Line), false) else _) = r
  obtain ⟨l2, ev, hit⟩ := r
  refine Keeps.trans (Keeps.trans k0 (Keeps.fields m l2 (Tab.del m.spare (lineOf pa)) m.free m.dieTlb m.marks m.mctx m.ovf
    (if (!hit && spareBad (Tab.getD m.spare (lineOf pa) 0#64)) = true then lineOf pa :: m.poison else m.poison))) ?_
  cases ev with
  | none => exact Keeps.homeCounts _ _ _ _ _
  | some v => exact Keeps.trans (Keeps.evicted _ _) (Keeps.homeCounts _ _ _ _ _)

theorem Keeps.atHome (h : Hw) (q : HomeReq) (pa : Nat) (w : Bool) : Keeps h (h.atHome q pa w) := by
  unfold Hw.atHome
  split
  · split
    · exact Keeps.peerFrames h
    · exact Keeps.refl h
  · exact Keeps.touchHome h q pa w

end Sys2Proof.Machine
end

