-- ==== Sys2Proof/Laws/Loads.lean ====
section
/-! SUPPORT. Sys2Proof/Laws/Loads.lean: what the lanes of a .d load read (R185). -/
set_option Elab.async false
namespace Sys2Proof.Machine

/-- Byte k of a line as a core has it under a context. -/
def Hw.lineSight (h : Hw) (e : Env) (core ctx line k : Nat) : Byte :=
  if (h.l1 core ctx line).valid.getLsbD k then Tab.getD (h.l1 core ctx line).bytes k 0#8 else h.homeByte e (128 * line + k)

/-- Two machines that differ only in bookkeeping and in which bytes the L1 holds a copy of. -/
structure Views (e : Env) (h k : Hw) : Prop where
  rest  : k = { h with
    cores := k.cores, dieTlb := k.dieTlb, fcores := k.fcores, parts := k.parts, fns := k.fns, out := k.out, ports := k.ports
    units := k.units, marks := k.marks, mctx := k.mctx, spare := k.spare, ovf := k.ovf, l2 := k.l2, poison := k.poison
    free := k.free }
  view  : ∀ c x l b, l < 2 ^ 45 → k.lineSight e c x l b = h.lineSight e c x l b
  spad  : ∀ f c, (k.fcore f c).spad = (h.fcore f c).spad
  units : ∀ u, (Tab.find? k.units u).map (fun x => { x with gmarks := [] })
    = (Tab.find? h.units u).map (fun x => { x with gmarks := [] })
  parts : ∀ p, k.part p = { h.part p with pmolost := (k.part p).pmolost }
  fns   : ∀ f, (h.fn f).sameButCounters (k.fn f)

theorem Keeps.views {h k : Hw} (e : Env) (a : Keeps h k) : Views e h k := by
  refine ⟨a.rest, fun c x l b _ => ?_, a.spad, a.units, a.parts, a.fns⟩
  have hl := a.l1 c x l
  have hv : (k.l1 c x l).valid = (h.l1 c x l).valid := by have := congrArg L1Line.valid hl; exact this
  have hb : (k.l1 c x l).bytes = (h.l1 c x l).bytes := by have := congrArg L1Line.bytes hl; exact this
  simp only [Hw.lineSight, Hw.homeByte, a.byte e, hv, hb]

theorem Views.refl (e : Env) (h : Hw) : Views e h h := (Keeps.refl h).views e

theorem Views.trans {e : Env} {h k l : Hw} (a : Views e h k) (b : Views e k l) : Views e h l := by
  refine ⟨?_, fun c x l' i hl => (b.view c x l' i hl).trans (a.view c x l' i hl), fun f c => (b.spad f c).trans (a.spad f c),
    fun u => (b.units u).trans (a.units u), fun p => ?_,
    fun f => Fn.sameButCounters_trans (a.fns f) (b.fns f)⟩
  · rw [b.rest, a.rest]
  · rw [b.parts p, a.parts p]

section
variable {e : Env} {h k : Hw}
theorem Views.wq (a : Views e h k) : k.wq = h.wq := by rw [a.rest]
theorem Views.warps (a : Views e h k) : k.warps = h.warps := by rw [a.rest]
theorem Views.byte (a : Views e h k) (pa : Nat) : k.byte e pa = h.byte e pa := by unfold Hw.byte; rw [a.wq]
theorem Views.unit (a : Views e h k) (u : Nat) :
    (Tab.find? k.units u).map (fun x => (x.base, x.nt, x.gmem)) = (Tab.find? h.units u).map (fun x => (x.base, x.nt, x.gmem)) := by
  have := congrArg (Option.map fun x : GUnit => (x.base, x.nt, x.gmem)) (a.units u)
  simpa [Option.map_map, Function.comp_def] using this
theorem Views.block (a : Views e h k) (b : Nat) : k.block? b = h.block? b := by unfold Hw.block?; rw [a.rest]
theorem Views.guarded (a : Views e h k) (b : Block) (va : DWord) (n : Nat) : k.guarded b va n = h.guarded b va n := by
  unfold Hw.guarded
  cases b.unit with
  | none => rfl
  | some u =>
    have := a.unit u
    cases hk : Tab.find? k.units u <;> cases hh : Tab.find? h.units u <;> simp [hk, hh] at this ⊢
    rw [this.1, this.2.1]
theorem Views.guardOf (a : Views e h k) (s : Iss) (va : DWord) (n : Nat) : Iss.guardOf k s va n = Iss.guardOf h s va n := by
  unfold Iss.guardOf; rw [a.guarded]
theorem Views.partOf (a : Views e h k) (f : Nat) : k.partOf f = h.partOf f := by
  unfold Hw.partOf; rw [a.fns f]
theorem Views.ctx (a : Views e h k) (s : Iss) : Iss.ctx k s = Iss.ctx h s := by unfold Iss.ctx; rw [a.partOf]
theorem Views.lineCtx (a : Views e h k) (s : Iss) (x : Acc) : Iss.lineCtx k s x = Iss.lineCtx h s x := by
  unfold Iss.lineCtx; rw [a.ctx]
end

/-! ## Filling a sector -/

theorem lineBits_getLsbD (lo n k : Nat) (h : lo + n ≤ 128) :
    (lineBits lo n).getLsbD k = decide (lo ≤ k ∧ k < lo + n) := by
  unfold lineBits
  rw [BitVec.getLsbD_ofNat]
  by_cases hk : k < 128
  · simp only [hk, decide_true, Bool.true_and]
    rw [Nat.mul_comm, Nat.testBit_two_pow_mul, Nat.testBit_two_pow_sub_one]
    by_cases h1 : lo ≤ k
    · simp [h1]; omega
    · simp [h1]
  · simp [hk]; omega

theorem fill_getD (l : L1Line) (sector : Nat) (home : Nat → Byte) (k : Nat) :
    Tab.getD (l.fill sector home).bytes k 0#8
      = if 32 * sector ≤ k ∧ k < 32 * sector + 32 ∧ l.valid.getLsbD k = false then home k else Tab.getD l.bytes k 0#8 := by
  have key : ∀ (n : Nat) (t : List (Nat × Byte)),
      Tab.getD ((List.range n).foldl (fun t j =>
        let k := 32 * sector + j
        if l.valid.getLsbD k then t else Tab.put t k (home k)) t) k 0#8
      = if 32 * sector ≤ k ∧ k < 32 * sector + n ∧ l.valid.getLsbD k = false then home k else Tab.getD t k 0#8 := by
    intro n
    induction n with
    | zero => intro t; simp; omega
    | succ n ih =>
      intro t
      rw [List.range_succ, List.foldl_append]
      simp only [List.foldl_cons, List.foldl_nil]
      by_cases hv : l.valid.getLsbD (32 * sector + n) = true
      · rw [if_pos hv, ih]
        by_cases hk : k = 32 * sector + n
        · subst hk; simp [hv]
        · by_cases h1 : 32 * sector ≤ k ∧ k < 32 * sector + n ∧ l.valid.getLsbD k = false
          · rw [if_pos h1, if_pos ⟨h1.1, by omega, h1.2.2⟩]
          · rw [if_neg h1, if_neg (by rintro ⟨a, b, c⟩; exact h1 ⟨a, by omega, c⟩)]
      · rw [if_neg hv]
        by_cases hk : k = 32 * sector + n
        · subst hk
          rw [Tab.getD_put_same, if_pos ⟨by omega, by omega, by simpa using hv⟩]
        · rw [Tab.getD_put_other _ _ _ hk, ih]
          by_cases h1 : 32 * sector ≤ k ∧ k < 32 * sector + n ∧ l.valid.getLsbD k = false
          · rw [if_pos h1, if_pos ⟨h1.1, by omega, h1.2.2⟩]
          · rw [if_neg h1, if_neg (by rintro ⟨a, b, c⟩; exact h1 ⟨a, by omega, c⟩)]
  exact key 32 l.bytes

theorem fill_valid (l : L1Line) (sector : Nat) (home : Nat → Byte) (k : Nat) (hs : sector < 4) :
    (l.fill sector home).valid.getLsbD k = (l.valid.getLsbD k || decide (32 * sector ≤ k ∧ k < 32 * sector + 32)) := by
  simp only [L1Line.fill, BitVec.getLsbD_or]
  rw [lineBits_getLsbD _ _ _ (by omega)]

theorem Hw.l1_setL1_same (h : Hw) (core ctx line : Nat) (l : L1Line) (hl : l.valid ≠ 0#128) :
    (h.setL1 core ctx line l).l1 core ctx line = l := by
  simp only [Hw.l1, Hw.setL1, Hw.core_onCore_same]
  rw [if_neg (by simp [hl])]
  simp

theorem Hw.l1_setL1_other (h : Hw) (core ctx line : Nat) (l : L1Line) (c x n : Nat)
    (hne : ¬(c = core ∧ l1Key x n = l1Key ctx line)) : (h.setL1 core ctx line l).l1 c x n = h.l1 c x n := by
  simp only [Hw.l1, Hw.setL1]
  by_cases hc : c = core
  · subst hc
    have hk : l1Key x n ≠ l1Key ctx line := fun hk => hne ⟨rfl, hk⟩
    rw [Hw.core_onCore_same]
    dsimp only
    split
    · simp only [Tab.getD, Tab.find?_del_other _ hk]
    · rw [Tab.getD_put_other _ _ _ hk]
  · rw [Hw.core_onCore_other _ _ hc]

theorem Hw.l1_key {h : Hw} {core x n ctx line : Nat} (hk : l1Key x n = l1Key ctx line) : h.l1 core x n = h.l1 core ctx line := by
  simp only [Hw.l1, hk]

/-- Filling a sector of a line changes no byte as the core sees it. -/
theorem Views.setL1_fill (h : Hw) (e : Env) (core ctx line sector : Nat) (hs : sector < 4) (hx : line < 2 ^ 45) :
    Views e h (h.setL1 core ctx line ((h.l1 core ctx line).fill sector fun k => h.homeByte e (128 * line + k))) := by
  refine ⟨rfl, fun c x n b hn => ?_, fun _ _ => rfl, fun _ => rfl, fun _ => rfl, fun _ => Fn.sameButCounters_refl _⟩
  have hv : ((h.l1 core ctx line).fill sector fun k => h.homeByte e (128 * line + k)).valid ≠ 0#128 := by
    intro h0
    have := fill_valid (h.l1 core ctx line) sector (fun k => h.homeByte e (128 * line + k)) (32 * sector) hs
    rw [h0] at this
    simp at this
  by_cases hk : c = core ∧ l1Key x n = l1Key ctx line
  · obtain ⟨rfl, hk⟩ := hk
    have hline : n = line := by simp only [l1Key] at hk; omega
    subst hline
    simp only [Hw.lineSight]
    rw [Hw.l1_key hk, Hw.l1_setL1_same _ _ _ _ _ hv, Hw.l1_key (h := h) hk, fill_valid _ _ _ _ hs, fill_getD]
    show _ = if _ then _ else h.homeByte e (128 * n + b)
    have hb : (h.setL1 c ctx n ((h.l1 c ctx n).fill sector fun k => h.homeByte e (128 * n + k))).homeByte e (128 * n + b)
        = h.homeByte e (128 * n + b) := rfl
    rw [hb]
    by_cases h1 : (h.l1 c ctx n).valid.getLsbD b = true
    · simp [h1]
    · by_cases h2 : 32 * sector ≤ b ∧ b < 32 * sector + 32
      · simp [h1, h2]
      · simp only [h1, h2, Bool.false_or, decide_false, Bool.false_eq_true, if_false]
  · simp only [Hw.lineSight]
    rw [Hw.l1_setL1_other _ _ _ _ _ _ _ _ hk]; rfl

/-! ## Room -/

theorem Hw.fitL1_of_le (n : Nat) (h : Hw) (core cap : Nat) (hle : (h.core core).l1.length ≤ cap) : h.fitL1 n core cap = h := by
  cases n with
  | zero => rfl
  | succ n => unfold Hw.fitL1; exact if_pos hle

/-- A line that the core's L1 holds, or has a place for, goes in without an eviction (R1, R185). -/
theorem Hw.fillL1_room (h : Hw) (core ctx line : Nat) (l : L1Line)
    (hr : Tab.has (h.core core).l1 (l1Key ctx line) = true ∨ (h.core core).l1.length < Machine.l1Lines (h.splitAt core)) :
    h.fillL1 core ctx line l = h.setL1 core ctx line l := by
  unfold Hw.fillL1
  split
  · rfl
  · rename_i hn
    have hlt := hr.resolve_left hn
    rw [Hw.fitL1_of_le _ _ _ _ (by omega)]

/-! ## One lane -/

/-- What the guarded line and the guard store of a unit lay over the bytes a lane reads (R110). -/
theorem overGuard_spec (h : Hw) (s : Iss) (a : Acc) (pa : Nat) (bs : List Byte) (j : Nat) (hj : j < bs.length) :
    (h.overGuard s a pa bs).getD j 0#8 =
      match Iss.guardOf h s a.va a.size with
      | none => bs.getD j 0#8
      | some u => match Tab.find? h.units u with
        | none => bs.getD j 0#8
        | some x =>
          let l := h.l1 s.core (guardCtx u) (lineOf pa)
          if l.dirty.getLsbD (pa % 128 + j) then Tab.getD l.bytes (pa % 128 + j) 0#8 else (Tab.find? x.gmem (pa + j)).getD (bs.getD j 0#8) := by
  unfold Hw.overGuard
  cases hg : Iss.guardOf h s a.va a.size with
  | none => simp
  | some u =>
    cases hu : Tab.find? h.units u with
    | none => simp [hu]
    | some x =>
      simp only [hu]
      rw [List.getD_eq_getElem?_getD, List.getElem?_map, List.getElem?_zipIdx]
      simp only [List.getElem?_eq_getElem hj, Option.map_some, Option.getD_some, Nat.zero_add]
      rw [List.getD_eq_getElem?_getD, List.getElem?_eq_getElem hj, Option.getD_some]

theorem overGuard_length (h : Hw) (s : Iss) (a : Acc) (pa : Nat) (bs : List Byte) : (h.overGuard s a pa bs).length = bs.length := by
  unfold Hw.overGuard
  split
  · rfl
  · split
    · rfl
    · simp

end Sys2Proof.Machine
end

