-- ==== Sys2Proof/Laws/PerInstr.lean ====
section
/-! SUPPORT. Sys2Proof/Laws/PerInstr.lean: for each instruction, its word decodes to it (R289 to R299). -/
set_option Elab.async false

namespace Sys2Proof

/-! ## Fields inside a field -/

@[simp] theorem pred3?_pred3 (p : BitVec 3) : pred3? (pred3 p) = some p := by
  have h : (pred3 p).extractLsb' 3 4 = 0#4 := slice_high _ _
  rw [pred3?, if_pos h]
  exact congrArg some ((slice_low _ _ 0 3 (by decide)).trans (slice_all p))
@[simp] theorem ccOf_ccPack (c : BitVec 4) (p : BitVec 3) : ccOf (ccPack c p) = c := slice_high _ _
@[simp] theorem ccPred_ccPack (c : BitVec 4) (p : BitVec 3) : ccPred (ccPack c p) = p :=
  (slice_low _ _ 0 3 (by decide)).trans (slice_all p)
@[simp] theorem brp?_brpPack (u n : Bool) (p : BitVec 3) : brp? (brpPack u n p) = some (u, n, p) := by
  have h : (brpPack u n p).extractLsb' 5 2 = 0#2 := slice_high _ _
  have h4 : (brpPack u n p).getLsbD 4 = u := (bit_low _ _ 4 (by decide)).trans (bit_high _ _)
  have h3 : (brpPack u n p).getLsbD 3 = n := (bit_low _ _ 3 (by decide)).trans ((bit_low _ _ 3 (by decide)).trans (bit_high _ _))
  have hp : (brpPack u n p).extractLsb' 0 3 = p := (slice_low _ _ 0 3 (by decide)).trans
    ((slice_low _ _ 0 3 (by decide)).trans ((slice_low _ _ 0 3 (by decide)).trans (slice_all p)))
  rw [brp?, if_pos h, h4, h3, hp]
@[simp] theorem lit4?_lit4 (n : BitVec 4) : lit4? (lit4 n) = some n := by
  have h : (lit4 n).extractLsb' 4 3 = 0#3 := slice_high _ _
  rw [lit4?, if_pos h]
  exact congrArg some ((slice_low _ _ 0 4 (by decide)).trans (slice_all n))
@[simp] theorem lit2?_lit2 (n : BitVec 2) : lit2? (lit2 n) = some n := by
  have h : (lit2 n).extractLsb' 2 5 = 0#5 := slice_high _ _
  rw [lit2?, if_pos h]
  exact congrArg some ((slice_low _ _ 0 2 (by decide)).trans (slice_all n))
@[simp] theorem lit5?_lit5 (n : BitVec 5) : lit5? (lit5 n) = some n := by
  have h : (lit5 n).extractLsb' 5 2 = 0#2 := slice_high _ _
  rw [lit5?, if_pos h]
  exact congrArg some ((slice_low _ _ 0 5 (by decide)).trans (slice_all n))
@[simp] theorem shi?_shiPack (h : BitVec 2) (n : BitVec 5) : shi? (shiPack h n) = some (h, n) := by
  have e : (shiPack h n).extractLsb' 5 4 = 0#4 := (slice_low _ _ 5 4 (by decide)).trans (slice_high _ _)
  have eh : (shiPack h n).extractLsb' 9 2 = h := slice_high _ _
  have en : (shiPack h n).extractLsb' 0 5 = n := (slice_low _ _ 0 5 (by decide)).trans
    ((slice_low _ _ 0 5 (by decide)).trans (slice_all n))
  rw [shi?, if_pos e, eh, en]
theorem scopeOf_bits (s : BitVec 3) (d a b : BitVec 7) (f : BitVec 2) :
    scopeOf ⟨s.getLsbD 2, d, a, b, s.getLsbD 1, s.getLsbD 0, f⟩ = s := by
  refine (joinBit s 2 _ (joinBit s 1 _ ?_)).trans (slice_all s)
  ext i hi
  obtain rfl : i = 0 := by omega
  simp

/-! ## Majors -/

theorem decode_00 (x : FmtA) : decode (packA 0x00#6 x) = major00 x := by
  unfold decode
  rw [majorOf_packA, unpackA_packA]
  rfl

theorem decode_01 (x : FmtA) : decode (packA 0x01#6 x) = major01 x := by
  unfold decode
  rw [majorOf_packA, unpackA_packA]
  rfl

theorem decode_02 (x : FmtA) : decode (packA 0x02#6 x) = major02 x := by
  unfold decode
  rw [majorOf_packA, unpackA_packA]
  rfl

theorem decode_03 (x : FmtA) : decode (packA 0x03#6 x) = major03 x := by
  unfold decode
  rw [majorOf_packA, unpackA_packA]
  rfl

theorem decode_04 (x : FmtA) : decode (packA 0x04#6 x) = major04 x := by
  unfold decode
  rw [majorOf_packA, unpackA_packA]
  rfl

theorem decode_05 (x : FmtA) : decode (packA 0x05#6 x) = major05 x := by
  unfold decode
  rw [majorOf_packA, unpackA_packA]
  rfl

theorem decode_06 (x : FmtA) : decode (packA 0x06#6 x) = major06 x := by
  unfold decode
  rw [majorOf_packA, unpackA_packA]
  rfl

theorem decode_07 (x : FmtA) : decode (packA 0x07#6 x) = major07 x := by
  unfold decode
  rw [majorOf_packA, unpackA_packA]
  rfl

theorem decode_08 (x : FmtI) : decode (packI 0x08#6 x) = major08 x := by
  unfold decode
  rw [majorOf_packI, unpackI_packI]
  rfl

theorem decode_09 (x : FmtI) : decode (packI 0x09#6 x) = major09 x := by
  unfold decode
  rw [majorOf_packI, unpackI_packI]
  rfl

theorem decode_0A (x : FmtI) : decode (packI 0x0A#6 x) = major0A x := by
  unfold decode
  rw [majorOf_packI, unpackI_packI]
  rfl

theorem decode_0B (x : FmtI) : decode (packI 0x0B#6 x) = major0B x := by
  unfold decode
  rw [majorOf_packI, unpackI_packI]
  rfl

theorem decode_0C (x : FmtI) : decode (packI 0x0C#6 x) = major0C x := by
  unfold decode
  rw [majorOf_packI, unpackI_packI]
  rfl

theorem decode_0D (x : FmtI) : decode (packI 0x0D#6 x) = major0D x := by
  unfold decode
  rw [majorOf_packI, unpackI_packI]
  rfl

theorem decode_0E (x : FmtI) : decode (packI 0x0E#6 x) = major0E x := by
  unfold decode
  rw [majorOf_packI, unpackI_packI]
  rfl

theorem decode_0F (x : FmtL) : decode (packL 0x0F#6 x) = major0F x := by
  unfold decode
  rw [majorOf_packL, unpackL_packL]
  rfl

theorem decode_10 (x : FmtA) : decode (packA 0x10#6 x) = major10 x := by
  unfold decode
  rw [majorOf_packA, unpackA_packA]
  rfl

theorem decode_11 (x : FmtA) : decode (packA 0x11#6 x) = major11 x := by
  unfold decode
  rw [majorOf_packA, unpackA_packA]
  rfl

theorem decode_12 (x : FmtA) : decode (packA 0x12#6 x) = major12 x := by
  unfold decode
  rw [majorOf_packA, unpackA_packA]
  rfl

theorem decode_13 (x : FmtA) : decode (packA 0x13#6 x) = major13 x := by
  unfold decode
  rw [majorOf_packA, unpackA_packA]
  rfl

theorem decode_14 (x : FmtA) : decode (packA 0x14#6 x) = major14 x := by
  unfold decode
  rw [majorOf_packA, unpackA_packA]
  rfl

theorem decode_15 (x : FmtA) : decode (packA 0x15#6 x) = major15 x := by
  unfold decode
  rw [majorOf_packA, unpackA_packA]
  rfl

theorem decode_16 (x : FmtA) : decode (packA 0x16#6 x) = major16 x := by
  unfold decode
  rw [majorOf_packA, unpackA_packA]
  rfl

theorem decode_17 (x : FmtA) : decode (packA 0x17#6 x) = major17 x := by
  unfold decode
  rw [majorOf_packA, unpackA_packA]
  rfl

theorem decode_18 (x : FmtA) : decode (packA 0x18#6 x) = major18 x := by
  unfold decode
  rw [majorOf_packA, unpackA_packA]
  rfl

theorem decode_19 (x : FmtA) : decode (packA 0x19#6 x) = major19 x := by
  unfold decode
  rw [majorOf_packA, unpackA_packA]
  rfl

theorem decode_1A (x : FmtA) : decode (packA 0x1A#6 x) = major1A x := by
  unfold decode
  rw [majorOf_packA, unpackA_packA]
  rfl

theorem decode_1B (x : FmtA) : decode (packA 0x1B#6 x) = major1B x := by
  unfold decode
  rw [majorOf_packA, unpackA_packA]
  rfl

theorem decode_1C (x : FmtA) : decode (packA 0x1C#6 x) = major1C x := by
  unfold decode
  rw [majorOf_packA, unpackA_packA]
  rfl

theorem decode_1D (x : FmtA) : decode (packA 0x1D#6 x) = major1D x := by
  unfold decode
  rw [majorOf_packA, unpackA_packA]
  rfl

theorem decode_1E (x : FmtA) : decode (packA 0x1E#6 x) = major1E x := by
  unfold decode
  rw [majorOf_packA, unpackA_packA]
  rfl

theorem decode_1F (x : FmtA) : decode (packA 0x1F#6 x) = major1F x := by
  unfold decode
  rw [majorOf_packA, unpackA_packA]
  rfl

theorem decode_20 (x : FmtA) : decode (packA 0x20#6 x) = major20 x := by
  unfold decode
  rw [majorOf_packA, unpackA_packA]
  rfl

theorem decode_21 (x : FmtA) : decode (packA 0x21#6 x) = major21 x := by
  unfold decode
  rw [majorOf_packA, unpackA_packA]
  rfl

theorem decode_22 (x : FmtA) : decode (packA 0x22#6 x) = major22 x := by
  unfold decode
  rw [majorOf_packA, unpackA_packA]
  rfl

theorem decode_23 (x : FmtA) : decode (packA 0x23#6 x) = major23 x := by
  unfold decode
  rw [majorOf_packA, unpackA_packA]
  rfl

theorem decode_24 (x : FmtM) : decode (packM 0x24#6 x) = major24 x := by
  unfold decode
  rw [majorOf_packM, unpackM_packM]
  rfl

theorem decode_25 (x : FmtM) : decode (packM 0x25#6 x) = major25 x := by
  unfold decode
  rw [majorOf_packM, unpackM_packM]
  rfl

theorem decode_26 (x : FmtA) : decode (packA 0x26#6 x) = major26 x := by
  unfold decode
  rw [majorOf_packA, unpackA_packA]
  rfl

theorem decode_27 (x : FmtA) : decode (packA 0x27#6 x) = major27 x := by
  unfold decode
  rw [majorOf_packA, unpackA_packA]
  rfl

theorem decode_28 (x : FmtA) : decode (packA 0x28#6 x) = major28 x := by
  unfold decode
  rw [majorOf_packA, unpackA_packA]
  rfl

theorem decode_29 (x : FmtA) : decode (packA 0x29#6 x) = major29 x := by
  unfold decode
  rw [majorOf_packA, unpackA_packA]
  rfl

theorem decode_2A (x : FmtA) : decode (packA 0x2A#6 x) = major2A x := by
  unfold decode
  rw [majorOf_packA, unpackA_packA]
  rfl

theorem decode_2B (x : FmtA) : decode (packA 0x2B#6 x) = major2B x := by
  unfold decode
  rw [majorOf_packA, unpackA_packA]
  rfl

theorem decode_2C (x : FmtA) : decode (packA 0x2C#6 x) = major2C x := by
  unfold decode
  rw [majorOf_packA, unpackA_packA]
  rfl

theorem decode_2D (x : FmtA) : decode (packA 0x2D#6 x) = major2D x := by
  unfold decode
  rw [majorOf_packA, unpackA_packA]
  rfl

theorem decode_2E (x : FmtA) : decode (packA 0x2E#6 x) = major2E x := by
  unfold decode
  rw [majorOf_packA, unpackA_packA]
  rfl

theorem decode_2F (x : FmtA) : decode (packA 0x2F#6 x) = major2F x := by
  unfold decode
  rw [majorOf_packA, unpackA_packA]
  rfl

theorem decode_30 (x : FmtA) : decode (packA 0x30#6 x) = major30 x := by
  unfold decode
  rw [majorOf_packA, unpackA_packA]
  rfl

theorem decode_31 (x : FmtJ) : decode (packJ 0x31#6 x) = major31 x := by
  unfold decode
  rw [majorOf_packJ, unpackJ_packJ]
  rfl

theorem decode_32 (x : FmtJ) : decode (packJ 0x32#6 x) = major32 x := by
  unfold decode
  rw [majorOf_packJ, unpackJ_packJ]
  rfl

theorem decode_33 (x : FmtJ) : decode (packJ 0x33#6 x) = major33 x := by
  unfold decode
  rw [majorOf_packJ, unpackJ_packJ]
  rfl

theorem decode_34 (x : FmtJ) : decode (packJ 0x34#6 x) = major34 x := by
  unfold decode
  rw [majorOf_packJ, unpackJ_packJ]
  rfl

theorem decode_35 (x : FmtA) : decode (packA 0x35#6 x) = major35 x := by
  unfold decode
  rw [majorOf_packA, unpackA_packA]
  rfl

theorem decode_36 (x : FmtA) : decode (packA 0x36#6 x) = major36 x := by
  unfold decode
  rw [majorOf_packA, unpackA_packA]
  rfl

theorem decode_37 (x : FmtA) : decode (packA 0x37#6 x) = major37 x := by
  unfold decode
  rw [majorOf_packA, unpackA_packA]
  rfl

theorem decode_38 (x : FmtA) : decode (packA 0x38#6 x) = major38 x := by
  unfold decode
  rw [majorOf_packA, unpackA_packA]
  rfl

theorem decode_39 (x : FmtA) : decode (packA 0x39#6 x) = major39 x := by
  unfold decode
  rw [majorOf_packA, unpackA_packA]
  rfl

theorem decode_3A (x : FmtA) : decode (packA 0x3A#6 x) = major3A x := by
  unfold decode
  rw [majorOf_packA, unpackA_packA]
  rfl

theorem decode_3B (x : FmtA) : decode (packA 0x3B#6 x) = major3B x := by
  unfold decode
  rw [majorOf_packA, unpackA_packA]
  rfl

theorem decode_3C (x : FmtA) : decode (packA 0x3C#6 x) = major3C x := by
  unfold decode
  rw [majorOf_packA, unpackA_packA]
  rfl

theorem decode_3D (x : FmtA) : decode (packA 0x3D#6 x) = major3D x := by
  unfold decode
  rw [majorOf_packA, unpackA_packA]
  rfl

theorem decode_3E (x : FmtA) : decode (packA 0x3E#6 x) = major3E x := by
  unfold decode
  rw [majorOf_packA, unpackA_packA]
  rfl

theorem decode_3F (x : FmtX) : decode (packX 0x3F#6 x) = major3F x := by
  unfold decode
  rw [majorOf_packX, unpackX_packX]
  rfl


end Sys2Proof

/-! ## One lemma for each instruction -/

namespace Sys2Proof.Laws.RoundTrip

/-- The word of the instruction, if it has one, decodes to it. -/
def Statement (i : Instr) : Prop := ∀ w, encode? i = some w → decode w = .ok i

theorem add (i : Bool) (d : BitVec 7) (a : BitVec 7) (b : BitVec 7) (x : Bool) (y : Bool) : Statement (.add i d a b x y) := by
  rintro w ⟨⟩
  exact (decode_00 _).trans rfl

theorem sub (i : Bool) (d : BitVec 7) (a : BitVec 7) (b : BitVec 7) (x : Bool) (y : Bool) : Statement (.sub i d a b x y) := by
  rintro w ⟨⟩
  exact (decode_00 _).trans rfl

theorem min (i : Bool) (d : BitVec 7) (a : BitVec 7) (b : BitVec 7) (x : Bool) (y : Bool) : Statement (.min i d a b x y) := by
  rintro w ⟨⟩
  exact (decode_00 _).trans rfl

theorem max (i : Bool) (d : BitVec 7) (a : BitVec 7) (b : BitVec 7) (x : Bool) (y : Bool) : Statement (.max i d a b x y) := by
  rintro w ⟨⟩
  exact (decode_00 _).trans rfl

theorem minu (i : Bool) (d : BitVec 7) (a : BitVec 7) (b : BitVec 7) (x : Bool) (y : Bool) : Statement (.minu i d a b x y) := by
  rintro w ⟨⟩
  exact (decode_01 _).trans rfl

theorem maxu (i : Bool) (d : BitVec 7) (a : BitVec 7) (b : BitVec 7) (x : Bool) (y : Bool) : Statement (.maxu i d a b x y) := by
  rintro w ⟨⟩
  exact (decode_01 _).trans rfl

theorem absd (i : Bool) (d : BitVec 7) (a : BitVec 7) (b : BitVec 7) (x : Bool) (y : Bool) : Statement (.absd i d a b x y) := by
  rintro w ⟨⟩
  exact (decode_01 _).trans rfl

theorem addsat (i : Bool) (d : BitVec 7) (a : BitVec 7) (b : BitVec 7) (x : Bool) (y : Bool) : Statement (.addsat i d a b x y) := by
  rintro w ⟨⟩
  exact (decode_01 _).trans rfl

theorem mul (i : Bool) (d : BitVec 7) (a : BitVec 7) (b : BitVec 7) (x : Bool) (y : Bool) : Statement (.mul i d a b x y) := by
  rintro w ⟨⟩
  exact (decode_02 _).trans rfl

theorem mulh (i : Bool) (d : BitVec 7) (a : BitVec 7) (b : BitVec 7) (x : Bool) (y : Bool) : Statement (.mulh i d a b x y) := by
  rintro w ⟨⟩
  exact (decode_02 _).trans rfl

theorem mulhu (i : Bool) (d : BitVec 7) (a : BitVec 7) (b : BitVec 7) (x : Bool) (y : Bool) : Statement (.mulhu i d a b x y) := by
  rintro w ⟨⟩
  exact (decode_02 _).trans rfl

theorem mad (i : Bool) (d : BitVec 7) (a : BitVec 7) (b : BitVec 7) (x : Bool) (y : Bool) : Statement (.mad i d a b x y) := by
  rintro w ⟨⟩
  exact (decode_02 _).trans rfl

theorem and (i : Bool) (d : BitVec 7) (a : BitVec 7) (b : BitVec 7) (x : Bool) (y : Bool) : Statement (.and i d a b x y) := by
  rintro w ⟨⟩
  exact (decode_03 _).trans rfl

theorem or (i : Bool) (d : BitVec 7) (a : BitVec 7) (b : BitVec 7) (x : Bool) (y : Bool) : Statement (.or i d a b x y) := by
  rintro w ⟨⟩
  exact (decode_03 _).trans rfl

theorem xor (i : Bool) (d : BitVec 7) (a : BitVec 7) (b : BitVec 7) (x : Bool) (y : Bool) : Statement (.xor i d a b x y) := by
  rintro w ⟨⟩
  exact (decode_03 _).trans rfl

theorem andn (i : Bool) (d : BitVec 7) (a : BitVec 7) (b : BitVec 7) (x : Bool) (y : Bool) : Statement (.andn i d a b x y) := by
  rintro w ⟨⟩
  exact (decode_03 _).trans rfl

theorem shl (i : Bool) (d : BitVec 7) (a : BitVec 7) (b : BitVec 7) (x : Bool) (y : Bool) : Statement (.shl i d a b x y) := by
  rintro w ⟨⟩
  exact (decode_04 _).trans rfl

theorem shr (i : Bool) (d : BitVec 7) (a : BitVec 7) (b : BitVec 7) (x : Bool) (y : Bool) : Statement (.shr i d a b x y) := by
  rintro w ⟨⟩
  exact (decode_04 _).trans rfl

theorem sha (i : Bool) (d : BitVec 7) (a : BitVec 7) (b : BitVec 7) (x : Bool) (y : Bool) : Statement (.sha i d a b x y) := by
  rintro w ⟨⟩
  exact (decode_04 _).trans rfl

theorem rot (i : Bool) (d : BitVec 7) (a : BitVec 7) (b : BitVec 7) (x : Bool) (y : Bool) : Statement (.rot i d a b x y) := by
  rintro w ⟨⟩
  exact (decode_04 _).trans rfl

theorem div (i : Bool) (d : BitVec 7) (a : BitVec 7) (b : BitVec 7) (x : Bool) (y : Bool) : Statement (.div i d a b x y) := by
  rintro w ⟨⟩
  exact (decode_05 _).trans rfl

theorem divu (i : Bool) (d : BitVec 7) (a : BitVec 7) (b : BitVec 7) (x : Bool) (y : Bool) : Statement (.divu i d a b x y) := by
  rintro w ⟨⟩
  exact (decode_05 _).trans rfl

theorem rem (i : Bool) (d : BitVec 7) (a : BitVec 7) (b : BitVec 7) (x : Bool) (y : Bool) : Statement (.rem i d a b x y) := by
  rintro w ⟨⟩
  exact (decode_05 _).trans rfl

theorem remu (i : Bool) (d : BitVec 7) (a : BitVec 7) (b : BitVec 7) (x : Bool) (y : Bool) : Statement (.remu i d a b x y) := by
  rintro w ⟨⟩
  exact (decode_05 _).trans rfl

theorem clz (i : Bool) (d : BitVec 7) (a : BitVec 7) (x : Bool) : Statement (.clz i d a x) := by
  rintro w ⟨⟩
  exact (decode_06 _).trans rfl

theorem popc (i : Bool) (d : BitVec 7) (a : BitVec 7) (x : Bool) : Statement (.popc i d a x) := by
  rintro w ⟨⟩
  exact (decode_06 _).trans rfl

theorem brev (i : Bool) (d : BitVec 7) (a : BitVec 7) (x : Bool) : Statement (.brev i d a x) := by
  rintro w ⟨⟩
  exact (decode_06 _).trans rfl

theorem ffs (i : Bool) (d : BitVec 7) (a : BitVec 7) (x : Bool) : Statement (.ffs i d a x) := by
  rintro w ⟨⟩
  exact (decode_06 _).trans rfl

theorem bfx (i : Bool) (d : BitVec 7) (a : BitVec 7) (b : BitVec 7) (x : Bool) (y : Bool) : Statement (.bfx i d a b x y) := by
  rintro w ⟨⟩
  exact (decode_07 _).trans rfl

theorem bfxz (i : Bool) (d : BitVec 7) (a : BitVec 7) (b : BitVec 7) (x : Bool) (y : Bool) : Statement (.bfxz i d a b x y) := by
  rintro w ⟨⟩
  exact (decode_07 _).trans rfl

theorem bfi (i : Bool) (d : BitVec 7) (a : BitVec 7) (b : BitVec 7) (x : Bool) (y : Bool) : Statement (.bfi i d a b x y) := by
  rintro w ⟨⟩
  exact (decode_07 _).trans rfl

theorem permb (i : Bool) (d : BitVec 7) (a : BitVec 7) (b : BitVec 7) (x : Bool) (y : Bool) : Statement (.permb i d a b x y) := by
  rintro w ⟨⟩
  exact (decode_07 _).trans rfl

theorem addi (d : BitVec 7) (a : BitVec 7) (x : Bool) (k : BitVec 11) : Statement (.addi d a x k) := by
  rintro w ⟨⟩
  exact (decode_08 _).trans rfl

theorem muli (d : BitVec 7) (a : BitVec 7) (x : Bool) (k : BitVec 11) : Statement (.muli d a x k) := by
  rintro w ⟨⟩
  exact (decode_09 _).trans rfl

theorem andi (d : BitVec 7) (a : BitVec 7) (x : Bool) (k : BitVec 11) : Statement (.andi d a x k) := by
  rintro w ⟨⟩
  exact (decode_0A _).trans rfl

theorem ori (d : BitVec 7) (a : BitVec 7) (x : Bool) (k : BitVec 11) : Statement (.ori d a x k) := by
  rintro w ⟨⟩
  exact (decode_0B _).trans rfl

theorem xori (d : BitVec 7) (a : BitVec 7) (x : Bool) (k : BitVec 11) : Statement (.xori d a x k) := by
  rintro w ⟨⟩
  exact (decode_0C _).trans rfl

theorem shi (d : BitVec 7) (a : BitVec 7) (x : Bool) (h : BitVec 2) (n : BitVec 5) : Statement (.shi d a x h n) := by
  rintro w ⟨⟩
  exact (decode_0D _).trans (by simp [major0D, guardRsv, guardSome])

theorem cmpi (c : BitVec 4) (p : BitVec 3) (a : BitVec 7) (x : Bool) (k : BitVec 11) : Statement (.cmpi c p a x k) := by
  rintro w ⟨⟩
  exact (decode_0E _).trans (by simp [major0E, guardRsv])

theorem lui (d : BitVec 7) (k : BitVec 19) : Statement (.lui d k) := by
  rintro w ⟨⟩
  exact (decode_0F _).trans rfl

theorem cmp (i : Bool) (c : BitVec 4) (p : BitVec 3) (a : BitVec 7) (b : BitVec 7) (x : Bool) (y : Bool) : Statement (.cmp i c p a b x y) := by
  rintro w ⟨⟩
  exact (decode_10 _).trans (by simp [major10, guardRsv])

theorem fcmp (i : Bool) (c : BitVec 4) (p : BitVec 3) (a : BitVec 7) (b : BitVec 7) (x : Bool) (y : Bool) : Statement (.fcmp i c p a b x y) := by
  rintro w ⟨⟩
  exact (decode_10 _).trans (by simp [major10, guardRsv])

theorem dcmp (i : Bool) (c : BitVec 4) (p : BitVec 3) (a : BitVec 7) (b : BitVec 7) (x : Bool) (y : Bool) : Statement (.dcmp i c p a b x y) := by
  rintro w ⟨⟩
  exact (decode_10 _).trans (by simp [major10, guardRsv])

theorem fclass (i : Bool) (p : BitVec 3) (a : BitVec 7) (m : BitVec 7) (x : Bool) : Statement (.fclass i p a m x) := by
  rintro w ⟨⟩
  exact (decode_10 _).trans (by simp [major10, guardRsv, guardSome])

theorem sel (i : Bool) (d : BitVec 7) (a : BitVec 7) (b : BitVec 7) (x : Bool) (y : Bool) (c : BitVec 2) : Statement (.sel i d a b x y c) := by
  rintro w ⟨⟩
  exact (decode_11 _).trans rfl

theorem pand (p : BitVec 3) (q : BitVec 3) (r : BitVec 3) : Statement (.pand p q r) := by
  rintro w ⟨⟩
  exact (decode_12 _).trans (by simp [major12, guardRsv, guardSome])

theorem por (p : BitVec 3) (q : BitVec 3) (r : BitVec 3) : Statement (.por p q r) := by
  rintro w ⟨⟩
  exact (decode_12 _).trans (by simp [major12, guardRsv, guardSome])

theorem pxor (p : BitVec 3) (q : BitVec 3) (r : BitVec 3) : Statement (.pxor p q r) := by
  rintro w ⟨⟩
  exact (decode_12 _).trans (by simp [major12, guardRsv, guardSome])

theorem pandn (p : BitVec 3) (q : BitVec 3) (r : BitVec 3) : Statement (.pandn p q r) := by
  rintro w ⟨⟩
  exact (decode_12 _).trans (by simp [major12, guardRsv, guardSome])

theorem ptov (d : BitVec 7) (p : BitVec 3) : Statement (.ptov d p) := by
  rintro w ⟨⟩
  exact (decode_13 _).trans (by simp [major13, guardRsv, guardSome])

theorem vtop (i : Bool) (p : BitVec 3) (a : BitVec 7) (x : Bool) : Statement (.vtop i p a x) := by
  rintro w ⟨⟩
  exact (decode_13 _).trans (by simp [major13, guardRsv, guardSome])

theorem voteAny (p : BitVec 3) (q : BitVec 3) : Statement (.voteAny p q) := by
  rintro w ⟨⟩
  exact (decode_13 _).trans (by simp [major13, guardRsv, guardSome])

theorem voteAll (p : BitVec 3) (q : BitVec 3) : Statement (.voteAll p q) := by
  rintro w ⟨⟩
  exact (decode_13 _).trans (by simp [major13, guardRsv, guardSome])

theorem mov (i : Bool) (d : BitVec 7) (a : BitVec 7) (x : Bool) : Statement (.mov i d a x) := by
  rintro w ⟨⟩
  exact (decode_14 _).trans rfl

theorem movx (d : BitVec 7) (a : BitVec 7) (x : Bool) : Statement (.movx d a x) := by
  rintro w ⟨⟩
  exact (decode_14 _).trans rfl

theorem ballot (d : BitVec 7) (p : BitVec 3) (b : BitVec 7) (y : Bool) : Statement (.ballot d p b y) := by
  rintro w ⟨⟩
  exact (decode_14 _).trans (by simp [major14, guardRsv, guardSome])

theorem nlanes (d : BitVec 7) : Statement (.nlanes d) := by
  rintro w ⟨⟩
  exact (decode_14 _).trans rfl

theorem shflIdx (i : Bool) (d : BitVec 7) (a : BitVec 7) (b : BitVec 7) (x : Bool) (y : Bool) : Statement (.shflIdx i d a b x y) := by
  rintro w ⟨⟩
  exact (decode_15 _).trans rfl

theorem shflUp (i : Bool) (d : BitVec 7) (a : BitVec 7) (b : BitVec 7) (x : Bool) (y : Bool) : Statement (.shflUp i d a b x y) := by
  rintro w ⟨⟩
  exact (decode_15 _).trans rfl

theorem shflDn (i : Bool) (d : BitVec 7) (a : BitVec 7) (b : BitVec 7) (x : Bool) (y : Bool) : Statement (.shflDn i d a b x y) := by
  rintro w ⟨⟩
  exact (decode_15 _).trans rfl

theorem shflXor (i : Bool) (d : BitVec 7) (a : BitVec 7) (b : BitVec 7) (x : Bool) (y : Bool) : Statement (.shflXor i d a b x y) := by
  rintro w ⟨⟩
  exact (decode_15 _).trans rfl

theorem elect (p : BitVec 3) : Statement (.elect p) := by
  rintro w ⟨⟩
  exact (decode_16 _).trans (by simp [major16, guardRsv, guardSome])

theorem firstl (d : BitVec 7) : Statement (.firstl d) := by
  rintro w ⟨⟩
  exact (decode_16 _).trans rfl

theorem pack : Statement .pack := by
  rintro w ⟨⟩
  exact (decode_16 _).trans rfl

theorem rdlane (i : Bool) (d : BitVec 7) (a : BitVec 7) (b : BitVec 7) (x : Bool) (y : Bool) : Statement (.rdlane i d a b x y) := by
  rintro w ⟨⟩
  exact (decode_16 _).trans rfl

theorem bcast (i : Bool) (d : BitVec 7) (a : BitVec 7) (b : BitVec 7) (x : Bool) (y : Bool) : Statement (.bcast i d a b x y) := by
  rintro w ⟨⟩
  exact (decode_17 _).trans rfl

theorem wrlane (i : Bool) (d : BitVec 7) (a : BitVec 7) (b : BitVec 7) (x : Bool) (y : Bool) : Statement (.wrlane i d a b x y) := by
  rintro w ⟨⟩
  exact (decode_17 _).trans rfl

theorem rdxAdd (i : Bool) (d : BitVec 7) (a : BitVec 7) (x : Bool) : Statement (.rdxAdd i d a x) := by
  rintro w ⟨⟩
  exact (decode_17 _).trans rfl

theorem rdxMax (i : Bool) (d : BitVec 7) (a : BitVec 7) (x : Bool) : Statement (.rdxMax i d a x) := by
  rintro w ⟨⟩
  exact (decode_17 _).trans rfl

theorem rdxMin (i : Bool) (d : BitVec 7) (a : BitVec 7) (x : Bool) : Statement (.rdxMin i d a x) := by
  rintro w ⟨⟩
  exact (decode_18 _).trans rfl

theorem rdxOr (i : Bool) (d : BitVec 7) (a : BitVec 7) (x : Bool) : Statement (.rdxOr i d a x) := by
  rintro w ⟨⟩
  exact (decode_18 _).trans rfl

theorem rdxAnd (i : Bool) (d : BitVec 7) (a : BitVec 7) (x : Bool) : Statement (.rdxAnd i d a x) := by
  rintro w ⟨⟩
  exact (decode_18 _).trans rfl

theorem rdxFadd (i : Bool) (d : BitVec 7) (a : BitVec 7) (x : Bool) : Statement (.rdxFadd i d a x) := by
  rintro w ⟨⟩
  exact (decode_18 _).trans rfl

theorem fadd (i : Bool) (d : BitVec 7) (a : BitVec 7) (b : BitVec 7) (x : Bool) (y : Bool) : Statement (.fadd i d a b x y) := by
  rintro w ⟨⟩
  exact (decode_19 _).trans rfl

theorem fsub (i : Bool) (d : BitVec 7) (a : BitVec 7) (b : BitVec 7) (x : Bool) (y : Bool) : Statement (.fsub i d a b x y) := by
  rintro w ⟨⟩
  exact (decode_19 _).trans rfl

theorem fmul (i : Bool) (d : BitVec 7) (a : BitVec 7) (b : BitVec 7) (x : Bool) (y : Bool) : Statement (.fmul i d a b x y) := by
  rintro w ⟨⟩
  exact (decode_19 _).trans rfl

theorem ffma (i : Bool) (d : BitVec 7) (a : BitVec 7) (b : BitVec 7) (x : Bool) (y : Bool) : Statement (.ffma i d a b x y) := by
  rintro w ⟨⟩
  exact (decode_19 _).trans rfl

theorem fmin (i : Bool) (d : BitVec 7) (a : BitVec 7) (b : BitVec 7) (x : Bool) (y : Bool) : Statement (.fmin i d a b x y) := by
  rintro w ⟨⟩
  exact (decode_1A _).trans rfl

theorem fmax (i : Bool) (d : BitVec 7) (a : BitVec 7) (b : BitVec 7) (x : Bool) (y : Bool) : Statement (.fmax i d a b x y) := by
  rintro w ⟨⟩
  exact (decode_1A _).trans rfl

theorem fcpys (i : Bool) (d : BitVec 7) (a : BitVec 7) (b : BitVec 7) (x : Bool) (y : Bool) : Statement (.fcpys i d a b x y) := by
  rintro w ⟨⟩
  exact (decode_1A _).trans rfl

theorem fscale (i : Bool) (d : BitVec 7) (a : BitVec 7) (b : BitVec 7) (x : Bool) (y : Bool) : Statement (.fscale i d a b x y) := by
  rintro w ⟨⟩
  exact (decode_1A _).trans rfl

theorem fdiv (i : Bool) (d : BitVec 7) (a : BitVec 7) (b : BitVec 7) (x : Bool) (y : Bool) : Statement (.fdiv i d a b x y) := by
  rintro w ⟨⟩
  exact (decode_1B _).trans rfl

theorem fsqrt (i : Bool) (d : BitVec 7) (a : BitVec 7) (x : Bool) : Statement (.fsqrt i d a x) := by
  rintro w ⟨⟩
  exact (decode_1B _).trans rfl

theorem frcp (i : Bool) (d : BitVec 7) (a : BitVec 7) (x : Bool) : Statement (.frcp i d a x) := by
  rintro w ⟨⟩
  exact (decode_1B _).trans rfl

theorem frsq (i : Bool) (d : BitVec 7) (a : BitVec 7) (x : Bool) : Statement (.frsq i d a x) := by
  rintro w ⟨⟩
  exact (decode_1B _).trans rfl

theorem fexp2 (i : Bool) (d : BitVec 7) (a : BitVec 7) (x : Bool) : Statement (.fexp2 i d a x) := by
  rintro w ⟨⟩
  exact (decode_1C _).trans rfl

theorem flog2 (i : Bool) (d : BitVec 7) (a : BitVec 7) (x : Bool) : Statement (.flog2 i d a x) := by
  rintro w ⟨⟩
  exact (decode_1C _).trans rfl

theorem fsin (i : Bool) (d : BitVec 7) (a : BitVec 7) (x : Bool) : Statement (.fsin i d a x) := by
  rintro w ⟨⟩
  exact (decode_1C _).trans rfl

theorem fcos (i : Bool) (d : BitVec 7) (a : BitVec 7) (x : Bool) : Statement (.fcos i d a x) := by
  rintro w ⟨⟩
  exact (decode_1C _).trans rfl

theorem badd2 (i : Bool) (d : BitVec 7) (a : BitVec 7) (b : BitVec 7) (x : Bool) (y : Bool) : Statement (.badd2 i d a b x y) := by
  rintro w ⟨⟩
  exact (decode_1D _).trans rfl

theorem bmul2 (i : Bool) (d : BitVec 7) (a : BitVec 7) (b : BitVec 7) (x : Bool) (y : Bool) : Statement (.bmul2 i d a b x y) := by
  rintro w ⟨⟩
  exact (decode_1D _).trans rfl

theorem bfma2 (i : Bool) (d : BitVec 7) (a : BitVec 7) (b : BitVec 7) (x : Bool) (y : Bool) : Statement (.bfma2 i d a b x y) := by
  rintro w ⟨⟩
  exact (decode_1D _).trans rfl

theorem bmax2 (i : Bool) (d : BitVec 7) (a : BitVec 7) (b : BitVec 7) (x : Bool) (y : Bool) : Statement (.bmax2 i d a b x y) := by
  rintro w ⟨⟩
  exact (decode_1D _).trans rfl

theorem hadd2 (i : Bool) (d : BitVec 7) (a : BitVec 7) (b : BitVec 7) (x : Bool) (y : Bool) : Statement (.hadd2 i d a b x y) := by
  rintro w ⟨⟩
  exact (decode_1E _).trans rfl

theorem hmul2 (i : Bool) (d : BitVec 7) (a : BitVec 7) (b : BitVec 7) (x : Bool) (y : Bool) : Statement (.hmul2 i d a b x y) := by
  rintro w ⟨⟩
  exact (decode_1E _).trans rfl

theorem hfma2 (i : Bool) (d : BitVec 7) (a : BitVec 7) (b : BitVec 7) (x : Bool) (y : Bool) : Statement (.hfma2 i d a b x y) := by
  rintro w ⟨⟩
  exact (decode_1E _).trans rfl

theorem hmax2 (i : Bool) (d : BitVec 7) (a : BitVec 7) (b : BitVec 7) (x : Bool) (y : Bool) : Statement (.hmax2 i d a b x y) := by
  rintro w ⟨⟩
  exact (decode_1E _).trans rfl

theorem dadd (i : Bool) (d : BitVec 7) (a : BitVec 7) (b : BitVec 7) (x : Bool) (y : Bool) : Statement (.dadd i d a b x y) := by
  rintro w ⟨⟩
  exact (decode_1F _).trans rfl

theorem dmul (i : Bool) (d : BitVec 7) (a : BitVec 7) (b : BitVec 7) (x : Bool) (y : Bool) : Statement (.dmul i d a b x y) := by
  rintro w ⟨⟩
  exact (decode_1F _).trans rfl

theorem dfma (i : Bool) (d : BitVec 7) (a : BitVec 7) (b : BitVec 7) (x : Bool) (y : Bool) : Statement (.dfma i d a b x y) := by
  rintro w ⟨⟩
  exact (decode_1F _).trans rfl

theorem ddiv (i : Bool) (d : BitVec 7) (a : BitVec 7) (b : BitVec 7) (x : Bool) (y : Bool) : Statement (.ddiv i d a b x y) := by
  rintro w ⟨⟩
  exact (decode_1F _).trans rfl

theorem cvtFI (i : Bool) (d : BitVec 7) (a : BitVec 7) (x : Bool) : Statement (.cvtFI i d a x) := by
  rintro w ⟨⟩
  exact (decode_20 _).trans rfl

theorem cvtFZ (i : Bool) (d : BitVec 7) (a : BitVec 7) (x : Bool) : Statement (.cvtFZ i d a x) := by
  rintro w ⟨⟩
  exact (decode_20 _).trans rfl

theorem cvtIF (i : Bool) (d : BitVec 7) (a : BitVec 7) (x : Bool) : Statement (.cvtIF i d a x) := by
  rintro w ⟨⟩
  exact (decode_20 _).trans rfl

theorem cvtZF (i : Bool) (d : BitVec 7) (a : BitVec 7) (x : Bool) : Statement (.cvtZF i d a x) := by
  rintro w ⟨⟩
  exact (decode_20 _).trans rfl

theorem cvtBfF (i : Bool) (d : BitVec 7) (a : BitVec 7) (x : Bool) : Statement (.cvtBfF i d a x) := by
  rintro w ⟨⟩
  exact (decode_21 _).trans rfl

theorem cvtHF (i : Bool) (d : BitVec 7) (a : BitVec 7) (x : Bool) : Statement (.cvtHF i d a x) := by
  rintro w ⟨⟩
  exact (decode_21 _).trans rfl

theorem cvtFBf (i : Bool) (d : BitVec 7) (a : BitVec 7) (x : Bool) : Statement (.cvtFBf i d a x) := by
  rintro w ⟨⟩
  exact (decode_21 _).trans rfl

theorem cvtFH (i : Bool) (d : BitVec 7) (a : BitVec 7) (x : Bool) : Statement (.cvtFH i d a x) := by
  rintro w ⟨⟩
  exact (decode_21 _).trans rfl

theorem cvtDF (i : Bool) (d : BitVec 7) (a : BitVec 7) (x : Bool) : Statement (.cvtDF i d a x) := by
  rintro w ⟨⟩
  exact (decode_22 _).trans rfl

theorem cvtFD (i : Bool) (d : BitVec 7) (a : BitVec 7) (x : Bool) : Statement (.cvtFD i d a x) := by
  rintro w ⟨⟩
  exact (decode_22 _).trans rfl

theorem cvtI8F (i : Bool) (d : BitVec 7) (a : BitVec 7) (x : Bool) : Statement (.cvtI8F i d a x) := by
  rintro w ⟨⟩
  exact (decode_22 _).trans rfl

theorem frnd (i : Bool) (d : BitVec 7) (a : BitVec 7) (x : Bool) : Statement (.frnd i d a x) := by
  rintro w ⟨⟩
  exact (decode_22 _).trans rfl

theorem niq (i : Bool) (d : BitVec 7) (a : BitVec 7) (b : BitVec 7) (x : Bool) (y : Bool) : Statement (.niq i d a b x y) := by
  rintro w ⟨⟩
  exact (decode_23 _).trans rfl

theorem nidq (i : Bool) (d : BitVec 7) (a : BitVec 7) (b : BitVec 7) (x : Bool) (y : Bool) : Statement (.nidq i d a b x y) := by
  rintro w ⟨⟩
  exact (decode_23 _).trans rfl

theorem sexp (i : Bool) (d : BitVec 7) (a : BitVec 7) (m : BitVec 7) (x : Bool) : Statement (.sexp i d a m x) := by
  rintro w ⟨⟩
  exact (decode_23 _).trans rfl

theorem nipl (i : Bool) (d : BitVec 7) (a : BitVec 7) (b : BitVec 7) (x : Bool) (y : Bool) : Statement (.nipl i d a b x y) := by
  rintro w ⟨⟩
  exact (decode_23 _).trans rfl

theorem ld (t : BitVec 7) (a : BitVec 7) (l : BitVec 3) (z : BitVec 3) (o : BitVec 6) : Statement (.ld t a l z o) := by
  rintro w ⟨⟩
  exact (decode_24 _).trans rfl

theorem st (t : BitVec 7) (a : BitVec 7) (l : BitVec 3) (z : BitVec 3) (o : BitVec 6) : Statement (.st t a l z o) := by
  rintro w ⟨⟩
  exact (decode_25 _).trans rfl

theorem ldxW (i : Bool) (d : BitVec 7) (a : BitVec 7) (b : BitVec 7) (x : Bool) (y : Bool) : Statement (.ldxW i d a b x y) := by
  rintro w ⟨⟩
  exact (decode_26 _).trans rfl

theorem ldxD (i : Bool) (d : BitVec 7) (a : BitVec 7) (b : BitVec 7) (x : Bool) (y : Bool) : Statement (.ldxD i d a b x y) := by
  rintro w ⟨⟩
  exact (decode_26 _).trans rfl

theorem stxW (i : Bool) (d : BitVec 7) (a : BitVec 7) (b : BitVec 7) (x : Bool) (y : Bool) : Statement (.stxW i d a b x y) := by
  rintro w ⟨⟩
  exact (decode_26 _).trans rfl

theorem stxD (i : Bool) (d : BitVec 7) (a : BitVec 7) (b : BitVec 7) (x : Bool) (y : Bool) : Statement (.stxD i d a b x y) := by
  rintro w ⟨⟩
  exact (decode_26 _).trans rfl

theorem atomAdd (s : BitVec 3) (d : BitVec 7) (a : BitVec 7) (b : BitVec 7) : Statement (.atomAdd s d a b) := by
  rintro w ⟨⟩
  exact (decode_27 _).trans (congrArg (fun s => Except.ok (Instr.atomAdd s d a b)) (scopeOf_bits s d a b 0#2))

theorem atomMin (s : BitVec 3) (d : BitVec 7) (a : BitVec 7) (b : BitVec 7) : Statement (.atomMin s d a b) := by
  rintro w ⟨⟩
  exact (decode_27 _).trans (congrArg (fun s => Except.ok (Instr.atomMin s d a b)) (scopeOf_bits s d a b 1#2))

theorem atomMax (s : BitVec 3) (d : BitVec 7) (a : BitVec 7) (b : BitVec 7) : Statement (.atomMax s d a b) := by
  rintro w ⟨⟩
  exact (decode_27 _).trans (congrArg (fun s => Except.ok (Instr.atomMax s d a b)) (scopeOf_bits s d a b 2#2))

theorem atomAnd (s : BitVec 3) (d : BitVec 7) (a : BitVec 7) (b : BitVec 7) : Statement (.atomAnd s d a b) := by
  rintro w ⟨⟩
  exact (decode_27 _).trans (congrArg (fun s => Except.ok (Instr.atomAnd s d a b)) (scopeOf_bits s d a b 3#2))

theorem atomOr (s : BitVec 3) (d : BitVec 7) (a : BitVec 7) (b : BitVec 7) : Statement (.atomOr s d a b) := by
  rintro w ⟨⟩
  exact (decode_28 _).trans (congrArg (fun s => Except.ok (Instr.atomOr s d a b)) (scopeOf_bits s d a b 0#2))

theorem atomXor (s : BitVec 3) (d : BitVec 7) (a : BitVec 7) (b : BitVec 7) : Statement (.atomXor s d a b) := by
  rintro w ⟨⟩
  exact (decode_28 _).trans (congrArg (fun s => Except.ok (Instr.atomXor s d a b)) (scopeOf_bits s d a b 1#2))

theorem atomMinu (s : BitVec 3) (d : BitVec 7) (a : BitVec 7) (b : BitVec 7) : Statement (.atomMinu s d a b) := by
  rintro w ⟨⟩
  exact (decode_28 _).trans (congrArg (fun s => Except.ok (Instr.atomMinu s d a b)) (scopeOf_bits s d a b 2#2))

theorem atomMaxu (s : BitVec 3) (d : BitVec 7) (a : BitVec 7) (b : BitVec 7) : Statement (.atomMaxu s d a b) := by
  rintro w ⟨⟩
  exact (decode_28 _).trans (congrArg (fun s => Except.ok (Instr.atomMaxu s d a b)) (scopeOf_bits s d a b 3#2))

theorem xchg (s : BitVec 3) (d : BitVec 7) (a : BitVec 7) (b : BitVec 7) : Statement (.xchg s d a b) := by
  rintro w ⟨⟩
  exact (decode_29 _).trans (congrArg (fun s => Except.ok (Instr.xchg s d a b)) (scopeOf_bits s d a b 0#2))

theorem cas (s : BitVec 3) (d : BitVec 7) (a : BitVec 7) (b : BitVec 7) : Statement (.cas s d a b) := by
  rintro w ⟨⟩
  exact (decode_29 _).trans (congrArg (fun s => Except.ok (Instr.cas s d a b)) (scopeOf_bits s d a b 1#2))

theorem xchgD (s : BitVec 3) (d : BitVec 7) (a : BitVec 7) (b : BitVec 7) : Statement (.xchgD s d a b) := by
  rintro w ⟨⟩
  exact (decode_29 _).trans (congrArg (fun s => Except.ok (Instr.xchgD s d a b)) (scopeOf_bits s d a b 2#2))

theorem casD (s : BitVec 3) (d : BitVec 7) (a : BitVec 7) (b : BitVec 7) : Statement (.casD s d a b) := by
  rintro w ⟨⟩
  exact (decode_29 _).trans (congrArg (fun s => Except.ok (Instr.casD s d a b)) (scopeOf_bits s d a b 3#2))

theorem redAdd (s : BitVec 3) (a : BitVec 7) (b : BitVec 7) : Statement (.redAdd s a b) := by
  rintro w ⟨⟩
  exact (decode_2A _).trans (congrArg (fun s => Except.ok (Instr.redAdd s a b)) (scopeOf_bits s 0#7 a b 0#2))

theorem redMin (s : BitVec 3) (a : BitVec 7) (b : BitVec 7) : Statement (.redMin s a b) := by
  rintro w ⟨⟩
  exact (decode_2A _).trans (congrArg (fun s => Except.ok (Instr.redMin s a b)) (scopeOf_bits s 0#7 a b 1#2))

theorem redMax (s : BitVec 3) (a : BitVec 7) (b : BitVec 7) : Statement (.redMax s a b) := by
  rintro w ⟨⟩
  exact (decode_2A _).trans (congrArg (fun s => Except.ok (Instr.redMax s a b)) (scopeOf_bits s 0#7 a b 2#2))

theorem redOr (s : BitVec 3) (a : BitVec 7) (b : BitVec 7) : Statement (.redOr s a b) := by
  rintro w ⟨⟩
  exact (decode_2A _).trans (congrArg (fun s => Except.ok (Instr.redOr s a b)) (scopeOf_bits s 0#7 a b 3#2))

theorem atomFadd (s : BitVec 3) (d : BitVec 7) (a : BitVec 7) (b : BitVec 7) : Statement (.atomFadd s d a b) := by
  rintro w ⟨⟩
  exact (decode_2B _).trans (congrArg (fun s => Except.ok (Instr.atomFadd s d a b)) (scopeOf_bits s d a b 0#2))

theorem redFadd (s : BitVec 3) (a : BitVec 7) (b : BitVec 7) : Statement (.redFadd s a b) := by
  rintro w ⟨⟩
  exact (decode_2B _).trans (congrArg (fun s => Except.ok (Instr.redFadd s a b)) (scopeOf_bits s 0#7 a b 1#2))

theorem redBfadd2 (s : BitVec 3) (a : BitVec 7) (b : BitVec 7) : Statement (.redBfadd2 s a b) := by
  rintro w ⟨⟩
  exact (decode_2B _).trans (congrArg (fun s => Except.ok (Instr.redBfadd2 s a b)) (scopeOf_bits s 0#7 a b 2#2))

theorem atomAddD (s : BitVec 3) (d : BitVec 7) (a : BitVec 7) (b : BitVec 7) : Statement (.atomAddD s d a b) := by
  rintro w ⟨⟩
  exact (decode_2B _).trans (congrArg (fun s => Except.ok (Instr.atomAddD s d a b)) (scopeOf_bits s d a b 3#2))

theorem bararr (i : Bool) (d : BitVec 7) (a : BitVec 7) (x : Bool) : Statement (.bararr i d a x) := by
  rintro w ⟨⟩
  exact (decode_2C _).trans rfl

theorem barwait (i : Bool) (a : BitVec 7) (b : BitVec 7) (x : Bool) (y : Bool) : Statement (.barwait i a b x y) := by
  rintro w ⟨⟩
  exact (decode_2C _).trans rfl

theorem barsync (i : Bool) (a : BitVec 7) (x : Bool) : Statement (.barsync i a x) := by
  rintro w ⟨⟩
  exact (decode_2C _).trans rfl

theorem barexp (i : Bool) (d : BitVec 7) (a : BitVec 7) (b : BitVec 7) (x : Bool) (y : Bool) : Statement (.barexp i d a b x y) := by
  rintro w ⟨⟩
  exact (decode_2C _).trans rfl

theorem barinit (i : Bool) (a : BitVec 7) (b : BitVec 7) (x : Bool) (y : Bool) : Statement (.barinit i a b x y) := by
  rintro w ⟨⟩
  exact (decode_2D _).trans rfl

theorem barinv (i : Bool) (a : BitVec 7) (x : Bool) : Statement (.barinv i a x) := by
  rintro w ⟨⟩
  exact (decode_2D _).trans rfl

theorem barqry (i : Bool) (d : BitVec 7) (a : BitVec 7) (x : Bool) : Statement (.barqry i d a x) := by
  rintro w ⟨⟩
  exact (decode_2D _).trans rfl

theorem bartry (i : Bool) (p : BitVec 3) (a : BitVec 7) (b : BitVec 7) (x : Bool) (y : Bool) : Statement (.bartry i p a b x y) := by
  rintro w ⟨⟩
  exact (decode_2D _).trans (by simp [major2D, guardRsv, guardSome])

theorem fenceAcq (s : BitVec 3) : Statement (.fenceAcq s) := by
  rintro w ⟨⟩
  exact (decode_2E _).trans (congrArg (fun s => Except.ok (Instr.fenceAcq s)) (scopeOf_bits s 0#7 0#7 0#7 0#2))

theorem fenceRel (s : BitVec 3) : Statement (.fenceRel s) := by
  rintro w ⟨⟩
  exact (decode_2E _).trans (congrArg (fun s => Except.ok (Instr.fenceRel s)) (scopeOf_bits s 0#7 0#7 0#7 1#2))

theorem fenceAr (s : BitVec 3) : Statement (.fenceAr s) := by
  rintro w ⟨⟩
  exact (decode_2E _).trans (congrArg (fun s => Except.ok (Instr.fenceAr s)) (scopeOf_bits s 0#7 0#7 0#7 2#2))

theorem fenceSc (s : BitVec 3) : Statement (.fenceSc s) := by
  rintro w ⟨⟩
  exact (decode_2E _).trans (congrArg (fun s => Except.ok (Instr.fenceSc s)) (scopeOf_bits s 0#7 0#7 0#7 3#2))

theorem mon (s : BitVec 3) (a : BitVec 7) : Statement (.mon s a) := by
  rintro w ⟨⟩
  exact (decode_2F _).trans (congrArg (fun s => Except.ok (Instr.mon s a)) (scopeOf_bits s 0#7 a 0#7 0#2))

theorem mwait (d : BitVec 7) : Statement (.mwait d) := by
  rintro w ⟨⟩
  exact (decode_2F _).trans rfl

theorem swait (s : BitVec 3) (d : BitVec 7) (a : BitVec 7) (b : BitVec 7) : Statement (.swait s d a b) := by
  rintro w ⟨⟩
  exact (decode_2F _).trans (congrArg (fun s => Except.ok (Instr.swait s d a b)) (scopeOf_bits s d a b 2#2))

theorem twait (i : Bool) (a : BitVec 7) (x : Bool) : Statement (.twait i a x) := by
  rintro w ⟨⟩
  exact (decode_2F _).trans rfl

theorem cbatch (d : BitVec 7) : Statement (.cbatch d) := by
  rintro w ⟨⟩
  exact (decode_30 _).trans rfl

theorem cwait (i : Bool) (a : BitVec 7) (x : Bool) : Statement (.cwait i a x) := by
  rintro w ⟨⟩
  exact (decode_30 _).trans rfl

theorem cpoll (i : Bool) (p : BitVec 3) (a : BitVec 7) (x : Bool) : Statement (.cpoll i p a x) := by
  rintro w ⟨⟩
  exact (decode_30 _).trans (by simp [major30, guardRsv, guardSome])

theorem cstamp (d : BitVec 7) : Statement (.cstamp d) := by
  rintro w ⟨⟩
  exact (decode_30 _).trans rfl

theorem bra (k : BitVec 19) : Statement (.bra k) := by
  rintro w ⟨⟩
  exact (decode_31 _).trans rfl

theorem brp (u : Bool) (n : Bool) (p : BitVec 3) (k : BitVec 19) : Statement (.brp u n p k) := by
  rintro w ⟨⟩
  exact (decode_32 _).trans (by simp [major32, guardRsv, guardSome])

theorem call (a : BitVec 7) (k : BitVec 19) : Statement (.call a k) := by
  rintro w ⟨⟩
  exact (decode_33 _).trans rfl

theorem jpt (k : BitVec 19) : Statement (.jpt k) := by
  rintro w ⟨⟩
  exact (decode_34 _).trans rfl

theorem join : Statement .join := by
  rintro w ⟨⟩
  exact (decode_35 _).trans rfl

theorem brkj (a : BitVec 7) (n : BitVec 4) (x : Bool) : Statement (.brkj a n x) := by
  rintro w ⟨⟩
  exact (decode_35 _).trans (by simp [major35, guardRsv, guardSome])

theorem exit : Statement .exit := by
  rintro w ⟨⟩
  exact (decode_35 _).trans rfl

theorem jmpr (a : BitVec 7) (x : Bool) : Statement (.jmpr a x) := by
  rintro w ⟨⟩
  exact (decode_35 _).trans rfl

theorem mma (d : BitVec 7) (a : BitVec 7) (b : BitVec 7) : Statement (.mma d a b) := by
  rintro w ⟨⟩
  exact (decode_36 _).trans rfl

theorem mmaP (d : BitVec 7) (a : BitVec 7) (b : BitVec 7) : Statement (.mmaP d a b) := by
  rintro w ⟨⟩
  exact (decode_36 _).trans rfl

theorem mmaZ (d : BitVec 7) (a : BitVec 7) (b : BitVec 7) : Statement (.mmaZ d a b) := by
  rintro w ⟨⟩
  exact (decode_36 _).trans rfl

theorem mmaPz (d : BitVec 7) (a : BitVec 7) (b : BitVec 7) : Statement (.mmaPz d a b) := by
  rintro w ⟨⟩
  exact (decode_36 _).trans rfl

theorem drain (d : BitVec 7) (a : BitVec 7) : Statement (.drain d a) := by
  rintro w ⟨⟩
  exact (decode_37 _).trans rfl

theorem mzero (d : BitVec 7) : Statement (.mzero d) := by
  rintro w ⟨⟩
  exact (decode_37 _).trans rfl

theorem mload (d : BitVec 7) (a : BitVec 7) : Statement (.mload d a) := by
  rintro w ⟨⟩
  exact (decode_37 _).trans rfl

theorem mwaita : Statement .mwaita := by
  rintro w ⟨⟩
  exact (decode_37 _).trans rfl

theorem copy (d : BitVec 7) (a : BitVec 7) (b : BitVec 7) : Statement (.copy d a b) := by
  rintro w ⟨⟩
  exact (decode_38 _).trans rfl

theorem copyo (d : BitVec 7) (a : BitVec 7) (b : BitVec 7) : Statement (.copyo d a b) := by
  rintro w ⟨⟩
  exact (decode_38 _).trans rfl

theorem copyAt (d : BitVec 7) (a : BitVec 7) (b : BitVec 7) : Statement (.copyAt d a b) := by
  rintro w ⟨⟩
  exact (decode_38 _).trans rfl

theorem gather (d : BitVec 7) (a : BitVec 7) (b : BitVec 7) : Statement (.gather d a b) := by
  rintro w ⟨⟩
  exact (decode_38 _).trans rfl

theorem send (d : BitVec 7) (a : BitVec 7) : Statement (.send d a) := by
  rintro w ⟨⟩
  exact (decode_39 _).trans rfl

theorem sendAt (d : BitVec 7) (a : BitVec 7) : Statement (.sendAt d a) := by
  rintro w ⟨⟩
  exact (decode_39 _).trans rfl

theorem rred (d : BitVec 7) (a : BitVec 7) : Statement (.rred d a) := by
  rintro w ⟨⟩
  exact (decode_39 _).trans rfl

theorem rbcast (d : BitVec 7) (a : BitVec 7) : Statement (.rbcast d a) := by
  rintro w ⟨⟩
  exact (decode_39 _).trans rfl

theorem tagrd (d : BitVec 7) (a : BitVec 7) (x : Bool) : Statement (.tagrd d a x) := by
  rintro w ⟨⟩
  exact (decode_3A _).trans rfl

theorem tagwr (a : BitVec 7) (b : BitVec 7) (x : Bool) (y : Bool) : Statement (.tagwr a b x y) := by
  rintro w ⟨⟩
  exact (decode_3A _).trans rfl

theorem tagchk (a : BitVec 7) (b : BitVec 7) (x : Bool) (y : Bool) : Statement (.tagchk a b x y) := by
  rintro w ⟨⟩
  exact (decode_3A _).trans rfl

theorem mdisp (d : BitVec 7) (a : BitVec 7) (x : Bool) : Statement (.mdisp d a x) := by
  rintro w ⟨⟩
  exact (decode_3A _).trans rfl

theorem task (a : BitVec 7) (b : BitVec 7) : Statement (.task a b) := by
  rintro w ⟨⟩
  exact (decode_3B _).trans rfl

theorem tready (a : BitVec 7) : Statement (.tready a) := by
  rintro w ⟨⟩
  exact (decode_3B _).trans rfl

theorem resid (i : Bool) (a : BitVec 7) (x : Bool) : Statement (.resid i a x) := by
  rintro w ⟨⟩
  exact (decode_3B _).trans rfl

theorem gchk (p : BitVec 3) : Statement (.gchk p) := by
  rintro w ⟨⟩
  exact (decode_3B _).trans (by simp [major3B, guardRsv, guardSome])

theorem enter (h : BitVec 2) (m : BitVec 7) (l : BitVec 7) : Statement (.enter h m l) := by
  rintro w ⟨⟩
  exact (decode_3C _).trans (by simp [major3C, guardRsv, guardSome])

theorem leave : Statement .leave := by
  rintro w ⟨⟩
  exact (decode_3C _).trans rfl

theorem bkpt : Statement .bkpt := by
  rintro w ⟨⟩
  exact (decode_3C _).trans rfl

theorem trace (i : Bool) (a : BitVec 7) (b : BitVec 7) (x : Bool) (y : Bool) : Statement (.trace i a b x y) := by
  rintro w ⟨⟩
  exact (decode_3C _).trans rfl

theorem trap (n : BitVec 7) : Statement (.trap n) := by
  rintro w ⟨⟩
  exact (decode_3D _).trans rfl

theorem srd (d : BitVec 7) (n : BitVec 7) : Statement (.srd d n) := by
  rintro w ⟨⟩
  exact (decode_3D _).trans rfl

theorem swr (n : BitVec 7) (b : BitVec 7) (y : Bool) : Statement (.swr n b y) := by
  rintro w ⟨⟩
  exact (decode_3D _).trans rfl

theorem win (w : BitVec 5) (u : BitVec 2) : Statement (.win w u) := by
  rintro w ⟨⟩
  exact (decode_3D _).trans (by simp [major3D, guardRsv, guardSome])

theorem rdctr (i : Bool) (d : BitVec 7) (a : BitVec 7) (x : Bool) : Statement (.rdctr i d a x) := by
  rintro w ⟨⟩
  exact (decode_3E _).trans rfl

theorem ctrctl (i : Bool) (a : BitVec 7) (b : BitVec 7) (x : Bool) (y : Bool) : Statement (.ctrctl i a b x y) := by
  rintro w ⟨⟩
  exact (decode_3E _).trans rfl

theorem tick (d : BitVec 7) : Statement (.tick d) := by
  rintro w ⟨⟩
  exact (decode_3E _).trans rfl

theorem yield : Statement .yield := by
  rintro w ⟨⟩
  exact (decode_3E _).trans rfl

theorem eret : Statement .eret := by
  rintro w ⟨⟩
  exact (decode_3F _).trans rfl

theorem imask (d : BitVec 7) (a : BitVec 7) : Statement (.imask d a) := by
  rintro w ⟨⟩
  exact (decode_3F _).trans rfl

theorem tlbir (a : BitVec 7) : Statement (.tlbir a) := by
  rintro w ⟨⟩
  exact (decode_3F _).trans rfl

theorem tlbia (a : BitVec 7) : Statement (.tlbia a) := by
  rintro w ⟨⟩
  exact (decode_3F _).trans rfl

theorem shoot (a : BitVec 7) : Statement (.shoot a) := by
  rintro w ⟨⟩
  exact (decode_3F _).trans rfl

theorem l1wb (a : BitVec 7) : Statement (.l1wb a) := by
  rintro w ⟨⟩
  exact (decode_3F _).trans rfl

theorem l1inv (a : BitVec 7) : Statement (.l1inv a) := by
  rintro w ⟨⟩
  exact (decode_3F _).trans rfl

theorem l2cln (a : BitVec 7) : Statement (.l2cln a) := by
  rintro w ⟨⟩
  exact (decode_3F _).trans rfl

theorem haltb (d : BitVec 7) (a : BitVec 7) : Statement (.haltb d a) := by
  rintro w ⟨⟩
  exact (decode_3F _).trans rfl

theorem ctxsv (a : BitVec 7) : Statement (.ctxsv a) := by
  rintro w ⟨⟩
  exact (decode_3F _).trans rfl

theorem ctxld (a : BitVec 7) : Statement (.ctxld a) := by
  rintro w ⟨⟩
  exact (decode_3F _).trans rfl

theorem dumpw (a : BitVec 7) : Statement (.dumpw a) := by
  rintro w ⟨⟩
  exact (decode_3F _).trans rfl

theorem racew : Statement .racew := by
  rintro w ⟨⟩
  exact (decode_3F _).trans rfl

theorem setmt (d : BitVec 7) (a : BitVec 7) : Statement (.setmt d a) := by
  rintro w ⟨⟩
  exact (decode_3F _).trans rfl

theorem packageReset : Statement .packageReset := by
  rintro w ⟨⟩

theorem timedActionFire : Statement .timedActionFire := by
  rintro w ⟨⟩

theorem ucieRetrain : Statement .ucieRetrain := by
  rintro w ⟨⟩

theorem packageFatalEvent : Statement .packageFatalEvent := by
  rintro w ⟨⟩

theorem patrolScrub : Statement .patrolScrub := by
  rintro w ⟨⟩

theorem thermalTrip : Statement .thermalTrip := by
  rintro w ⟨⟩

theorem hbmHotRefresh : Statement .hbmHotRefresh := by
  rintro w ⟨⟩

theorem throttleStepDown : Statement .throttleStepDown := by
  rintro w ⟨⟩

theorem throttleStepUp : Statement .throttleStepUp := by
  rintro w ⟨⟩

theorem creditLapse : Statement .creditLapse := by
  rintro w ⟨⟩

theorem fabricLaunch : Statement .fabricLaunch := by
  rintro w ⟨⟩

theorem bar2Read : Statement .bar2Read := by
  rintro w ⟨⟩

theorem bar2Write : Statement .bar2Write := by
  rintro w ⟨⟩

theorem hostAtomicop : Statement .hostAtomicop := by
  rintro w ⟨⟩

theorem heldAccessTimeout : Statement .heldAccessTimeout := by
  rintro w ⟨⟩

theorem registerWrite : Statement .registerWrite := by
  rintro w ⟨⟩

theorem fctlAbort : Statement .fctlAbort := by
  rintro w ⟨⟩

theorem sqEnable : Statement .sqEnable := by
  rintro w ⟨⟩

theorem sqDoorbell : Statement .sqDoorbell := by
  rintro w ⟨⟩

theorem sqGeometryWrite : Statement .sqGeometryWrite := by
  rintro w ⟨⟩

theorem sqReset : Statement .sqReset := by
  rintro w ⟨⟩

theorem commandFetch : Statement .commandFetch := by
  rintro w ⟨⟩

theorem fetchTimeout : Statement .fetchTimeout := by
  rintro w ⟨⟩

theorem nop : Statement .nop := by
  rintro w ⟨⟩

theorem launchCommand : Statement .launchCommand := by
  rintro w ⟨⟩

theorem taskCommand : Statement .taskCommand := by
  rintro w ⟨⟩

theorem gslaunchCommand : Statement .gslaunchCommand := by
  rintro w ⟨⟩

theorem queueCopy : Statement .queueCopy := by
  rintro w ⟨⟩

theorem writeval : Statement .writeval := by
  rintro w ⟨⟩

theorem waitval : Statement .waitval := by
  rintro w ⟨⟩

theorem waitvalTimeout : Statement .waitvalTimeout := by
  rintro w ⟨⟩

theorem intr : Statement .intr := by
  rintro w ⟨⟩

theorem functionLevelReset : Statement .functionLevelReset := by
  rintro w ⟨⟩

theorem attestRequest : Statement .attestRequest := by
  rintro w ⟨⟩

theorem attestDone : Statement .attestDone := by
  rintro w ⟨⟩

theorem pctlCommit : Statement .pctlCommit := by
  rintro w ⟨⟩

theorem pctlQuiesce : Statement .pctlQuiesce := by
  rintro w ⟨⟩

theorem quiesceComplete : Statement .quiesceComplete := by
  rintro w ⟨⟩

theorem pctlResume : Statement .pctlResume := by
  rintro w ⟨⟩

theorem pclkBreak : Statement .pclkBreak := by
  rintro w ⟨⟩

theorem vbBind : Statement .vbBind := by
  rintro w ⟨⟩

theorem vbUnbind : Statement .vbUnbind := by
  rintro w ⟨⟩

theorem vbFieldWrite : Statement .vbFieldWrite := by
  rintro w ⟨⟩

theorem vbWindowWrite : Statement .vbWindowWrite := by
  rintro w ⟨⟩

theorem pfbindEn : Statement .pfbindEn := by
  rintro w ⟨⟩

theorem trRootWrite : Statement .trRootWrite := by
  rintro w ⟨⟩

theorem sliceEnd : Statement .sliceEnd := by
  rintro w ⟨⟩

theorem haltComplete : Statement .haltComplete := by
  rintro w ⟨⟩

theorem worldSwitchRestore : Statement .worldSwitchRestore := by
  rintro w ⟨⟩

theorem loadReturn : Statement .loadReturn := by
  rintro w ⟨⟩

theorem idleCollapse : Statement .idleCollapse := by
  rintro w ⟨⟩

theorem colctlNow : Statement .colctlNow := by
  rintro w ⟨⟩

theorem wakeGo : Statement .wakeGo := by
  rintro w ⟨⟩

theorem wakeComplete : Statement .wakeComplete := by
  rintro w ⟨⟩

theorem blockPlacement : Statement .blockPlacement := by
  rintro w ⟨⟩

theorem placementWaitLimit : Statement .placementWaitLimit := by
  rintro w ⟨⟩

theorem resourceReport : Statement .resourceReport := by
  rintro w ⟨⟩

theorem blockFree : Statement .blockFree := by
  rintro w ⟨⟩

theorem pathPromotion : Statement .pathPromotion := by
  rintro w ⟨⟩

theorem watchdogExpiry : Statement .watchdogExpiry := by
  rintro w ⟨⟩

theorem dependencyTaskIssue : Statement .dependencyTaskIssue := by
  rintro w ⟨⟩

theorem handlerTaskEntry : Statement .handlerTaskEntry := by
  rintro w ⟨⟩

theorem writeBackMerge : Statement .writeBackMerge := by
  rintro w ⟨⟩

theorem retrieverElement : Statement .retrieverElement := by
  rintro w ⟨⟩

theorem monitorTimeout : Statement .monitorTimeout := by
  rintro w ⟨⟩

theorem migrationStart : Statement .migrationStart := by
  rintro w ⟨⟩

theorem migrationSwitch : Statement .migrationSwitch := by
  rintro w ⟨⟩

theorem migrationEnd : Statement .migrationEnd := by
  rintro w ⟨⟩

theorem accessCountHalving : Statement .accessCountHalving := by
  rintro w ⟨⟩

theorem shootComplete : Statement .shootComplete := by
  rintro w ⟨⟩

theorem rebaseComplete : Statement .rebaseComplete := by
  rintro w ⟨⟩

theorem arrayMma : Statement .arrayMma := by
  rintro w ⟨⟩

theorem arrayDrain : Statement .arrayDrain := by
  rintro w ⟨⟩

theorem arrayMzero : Statement .arrayMzero := by
  rintro w ⟨⟩

theorem arrayMload : Statement .arrayMload := by
  rintro w ⟨⟩

theorem matrixRetire : Statement .matrixRetire := by
  rintro w ⟨⟩

theorem engineCopy : Statement .engineCopy := by
  rintro w ⟨⟩

theorem engineCopyo : Statement .engineCopyo := by
  rintro w ⟨⟩

theorem engineGather : Statement .engineGather := by
  rintro w ⟨⟩

theorem byteCredit : Statement .byteCredit := by
  rintro w ⟨⟩

theorem copyCommandEnd : Statement .copyCommandEnd := by
  rintro w ⟨⟩

theorem engineSend : Statement .engineSend := by
  rintro w ⟨⟩

theorem engineRred : Statement .engineRred := by
  rintro w ⟨⟩

theorem engineRbcast : Statement .engineRbcast := by
  rintro w ⟨⟩

theorem packetHop : Statement .packetHop := by
  rintro w ⟨⟩

theorem packetEject : Statement .packetEject := by
  rintro w ⟨⟩

theorem ringCommandEnd : Statement .ringCommandEnd := by
  rintro w ⟨⟩

theorem unitCommit : Statement .unitCommit := by
  rintro w ⟨⟩

theorem exactKernelEnd : Statement .exactKernelEnd := by
  rintro w ⟨⟩

theorem routineEnd : Statement .routineEnd := by
  rintro w ⟨⟩

theorem dbgctlStopreq : Statement .dbgctlStopreq := by
  rintro w ⟨⟩

theorem dbgctlStopall : Statement .dbgctlStopall := by
  rintro w ⟨⟩

theorem clkctlLock : Statement .clkctlLock := by
  rintro w ⟨⟩

theorem counterSelect : Statement .counterSelect := by
  rintro w ⟨⟩

theorem counterHold : Statement .counterHold := by
  rintro w ⟨⟩

theorem pcSample : Statement .pcSample := by
  rintro w ⟨⟩

theorem traceForward : Statement .traceForward := by
  rintro w ⟨⟩

theorem registerReadClear : Statement .registerReadClear := by
  rintro w ⟨⟩

theorem hostSnoop : Statement .hostSnoop := by
  rintro w ⟨⟩

theorem fabricFrameReceive : Statement .fabricFrameReceive := by
  rintro w ⟨⟩

theorem fabricLinkUp : Statement .fabricLinkUp := by
  rintro w ⟨⟩

theorem hostLinkTrain : Statement .hostLinkTrain := by
  rintro w ⟨⟩

theorem iterativePassResult : Statement .iterativePassResult := by
  rintro w ⟨⟩

theorem yieldEnd : Statement .yieldEnd := by
  rintro w ⟨⟩

end Sys2Proof.Laws.RoundTrip
end

