-- ==== Sys2Proof/WellFormed.lean ====
section
/-! DEFINITION. Sys2Proof/WellFormed.lean: the instructions that raise no ILLEGAL from their bits, with xi at 0. -/
namespace Sys2Proof

/-- No check of Table 12.8 refuses the instruction when xi is 0. -/
def WellFormed (i : Instr) : Bool := Machine.Instr.legal 0 i

end Sys2Proof
end

