-- ==== Sys2Proof/Tests/Slice0.lean ====
section
/-! SUPPORT. Sys2Proof/Tests/Slice0.lean: tests of the decoder, of well-formedness and of single steps. Expected results are from
the spec's tables and worked examples, or computed by hand from its rules. -/
set_option Elab.async false
namespace Sys2Proof.Tests

open Sys2Proof.Machine Sys2Proof.Terms

/-! ## A small state: VF 1, one block of one warp on core 0, about to issue -/

def wk0 : Nat := wkOf 1 0 0
def bk0 : Nat := bkOf 1 0
/-- The state in which that warp issues, changed by `f`. -/
def start (f : Hw → Hw) : State :=
  let s := State.reset.withFetchWord 32 0
  { s with hw := f { s.hw with cur := some ⟨wk0, false⟩ } }
/-- With lanes 0 to 3 of registers 0 to 15 holding `v r n`, and no register empty. -/
def regs (v : Nat → Nat → Nat) (h : Hw) : Hw :=
  h.onWarp wk0 fun w => { w with
    empty := []
    vregs := (List.range 16).flatMap fun r => (List.range 4).filterMap fun n =>
      if v r n = 0 then none else some (1024 * r + n, BitVec.ofNat 32 (v r n)) }
/-- What `f` says of the state after instruction i. -/
def after (i : Instr) (s : State) (f : State → Bool) : Bool :=
  match exec i s with
  | .next t => f t
  | _ => false
/-- Register r of lane n of the warp. -/
def vec (s : State) (r n : Nat) : Nat := ((s.hw.warp? wk0).map fun w => (w.getV r n).toNat).getD 0

/-! ## Meeting the hypotheses of a statement -/

/-- Instruction i issues at s, and what issues meets p. -/
def meets (i : Instr) (s : State) (p : Iss → Bool) : Bool :=
  Memory.wf s.mem && s.hw.wq.isEmpty && match Iss.of s.hw with
    | none => false
    | some q => decide (q.rank2 s.hw i = .ok ()) && !s.hw.wraps q.bk 1 && q.p.pushing.isNone && p q

/-- A state at which `meets` holds is one at which the instruction issues. -/
theorem meets_issues {i : Instr} {s : State} {p : Iss → Bool} (h : meets i s p = true) : ∃ q, Issues i s q ∧ p q = true := by
  unfold meets at h
  split at h
  · simp at h
  · rename_i q hq
    simp only [Bool.and_eq_true, decide_eq_true_eq, Bool.not_eq_true', Option.isNone_iff_eq_none] at h
    exact ⟨q, ⟨⟨h.1.1, List.isEmpty_iff.mp h.1.2⟩, hq, h.2.1.1.1, h.2.1.1.2, h.2.1.2⟩, h.2.2⟩

/-! ## Instructions that issue (Issues, R276, R300): one state for the forms that write registers -/

/-- Lane n of register r holds r + n; all are full; the warp has its 32 lanes. -/
def full : State := start (regs fun r n => r + n)
/-- One active lane, and a command begun in the staging buffer of queue k. -/
def pushing (k : EngKind) : State := start fun h => (regs (fun r n => r + n) h).onWarp wk0 fun w =>
  (w.setQueue k { w.queue k with staging := [match k with | .matrix => 36#32 | .copy => 524#32 | .ring => 1063#32] }).setPath false { w.p0 with mask := 1#1024 }

/-- Forms with one destination d and sources of one register. -/
def narrow (d a b : RField) : List Instr :=
  [.add false d a b false false, .sub false d a b false false, .min false d a b false false, .max false d a b false false,
    .minu false d a b false false, .maxu false d a b false false, .absd false d a b false false,
    .addsat false d a b false false, .mul false d a b false false, .mulh false d a b false false,
    .mulhu false d a b false false, .and false d a b false false, .or false d a b false false, .xor false d a b false false,
    .andn false d a b false false, .shl false d a b false false, .shr false d a b false false, .sha false d a b false false,
    .rot false d a b false false, .bfx false d a b false false, .bfxz false d a b false false, .permb false d a b false false,
    .fadd false d a b false false, .fsub false d a b false false, .fmul false d a b false false, .fmin false d a b false false,
    .fmax false d a b false false, .fcpys false d a b false false, .fscale false d a b false false,
    .badd2 false d a b false false, .bmul2 false d a b false false, .bmax2 false d a b false false,
    .hadd2 false d a b false false, .hmul2 false d a b false false, .hmax2 false d a b false false,
    .niq false d a b false false, .nidq false d a b false false, .nipl false d a b false false,
    .shflIdx false d a b false false, .shflUp false d a b false false, .shflDn false d a b false false,
    .shflXor false d a b false false, .rdlane false d a b false false, .bcast false d a b false false, .clz false d a false,
    .popc false d a false, .brev false d a false, .ffs false d a false, .mov false d a false, .rdxAdd false d a false,
    .rdxMax false d a false, .rdxMin false d a false, .rdxOr false d a false, .rdxAnd false d a false,
    .rdxFadd false d a false, .frcp false d a false, .frsq false d a false, .cvtFI false d a false, .cvtFZ false d a false,
    .cvtIF false d a false, .cvtZF false d a false, .cvtBfF false d a false, .cvtHF false d a false, .cvtFBf false d a false,
    .cvtFH false d a false, .cvtFD false d a false, .cvtI8F false d a false, .frnd false d a false] ++
  [.sel false d a b false false 3#2, .sexp false d a 0x25#7 false, .ptov d 1#3, .ballot d 1#3 b false, .nlanes d, .firstl d, .cstamp d,
    .lui d 5#19, .addi d a false 0x7FF#11, .muli d a false 3#11, .andi d a false 0x400#11, .ori d a false 0#11, .xori d a false 1#11,
    .shi d a false 0#2 31#5, .shi d a false 1#2 0#5, .shi d a false 2#2 4#5, .shi d a false 3#2 1#5]
/-- Forms that read d as well, and forms of register pairs. -/
def others (d a b : RField) : List Instr :=
  [.mad false d a b false false, .bfi false d a b false false, .ffma false d a b false false, .bfma2 false d a b false false,
    .hfma2 false d a b false false, .dadd false d a b false false, .dmul false d a b false false, .dfma false d a b false false,
    .cvtDF false d a false, .movx d a false]
/-- Forms that set predicate p. -/
def setting (p : BitVec 3) (a b : RField) : List Instr :=
  [.cmp false 9#4 p a b false false, .cmpi 0#4 p a false 5#11, .fcmp false 11#4 p a b false false, .dcmp false 10#4 p a b false false,
    .fclass false p a 0x7F#7 false, .vtop false p a false, .pand p 1#3 2#3, .por p 1#3 2#3, .pxor p 1#3 2#3, .pandn p 1#3 2#3,
    .voteAny p 1#3, .voteAll p 1#3, .elect p]
/-- The iterative forms. -/
def iterative (d a b : RField) : List Instr :=
  [.div false d a b false false, .divu false d a b false false, .rem false d a b false false, .remu false d a b false false,
    .fdiv false d a b false false, .fsqrt false d a false, .fexp2 false d a false, .flog2 false d a false, .fsin false d a false,
    .fcos false d a false]

/-- Delivers, SetsPred, Goes and Iterates: vector, uniform and zr destinations, p0 and p7, a pair at the last even field. -/
theorem witness_register_forms : ((narrow 5#7 6#7 7#7 ++ (narrow 63#7 96#7 126#7).take 4 ++ (narrow 96#7 98#7 119#7).drop 60 ++ (narrow 126#7 0#7 1#7).take 4 ++
    others 4#7 6#7 8#7 ++ others 62#7 8#7 10#7 ++ setting 0#3 6#7 8#7 ++ setting 7#3 126#7 98#7 ++ iterative 5#7 6#7 7#7 ++
    iterative 98#7 6#7 7#7 ++ ([.ddiv false 62#7 6#7 8#7 false false, .pack, .wrlane false 63#7 6#7 7#7 false false] : List Instr)).all fun i =>
      meets i full fun _ => true) = true := by
  decide +kernel
/-- Pushes: a push register of each engine as the destination, the command begun and not completed. -/
theorem witness_pushing_forms : ([(120, EngKind.matrix), (122, .copy), (124, .ring)].all fun (x : Nat × EngKind) =>
    ((narrow (BitVec.ofNat 7 x.1) 6#7 7#7 ++ iterative (BitVec.ofNat 7 x.1) 6#7 7#7).drop (if x.1 = 120 then 0 else 85)).all fun i =>
      meets i (pushing x.2) fun q => queueKind x.1 == x.2 && (pushing x.2).hw.ownsEngine q.fn q.core x.2 &&
        !(q.w.queue x.2).staging.isEmpty && decide ((q.w.queue x.2).staging.length + q.lanes.length <
          hdrLen ((q.w.queue x.2).staging.headD 0#32))) = true := by
  decide +kernel
/-- RdxFadd over two lanes, a reduction over a path that has lanes, WRLANE's path. -/
theorem witness_lanes : meets (.rdxFadd false 5#7 6#7 false) full (fun q => decide (2 ≤ q.lanes.length) && q.lanes == List.range 32) = true := by
  decide +kernel

/-- RdxFadd over one lane. -/
theorem witness_one_lane :
    meets (.rdxFadd false 5#7 6#7 false) (start fun h => (regs (fun r n => r + n) h).onWarp wk0 fun w => w.setPath false { w.p0 with mask := 4#1024 })
      (fun q => q.lanes == [2]) = true := by
  decide +kernel
/-- Unlawful at the edges of its register ranges and condition codes, and next to them. -/
theorem test_unlawful : (([.mad false 120#7 6#7 7#7 false false, .mad false 124#7 6#7 7#7 false false, .bfi false 122#7 6#7 7#7 false false,
    .lui 121#7 5#19, .lui 127#7 5#19, .cmp false 10#4 1#3 6#7 7#7 false false, .cmpi 15#4 1#3 6#7 false 5#11,
    .wrlane false 96#7 6#7 7#7 false false, .wrlane false 126#7 6#7 7#7 false false] : List Instr).all fun i => !Instr.legal 0 i) = true ∧
    (([.lui 120#7 5#19, .cmp false 9#4 1#3 6#7 7#7 false false, .wrlane false 95#7 6#7 7#7 false false] : List Instr).all (Instr.legal 0)) = true := by
  decide +kernel

/-- Exchanges on a packed path, and sources and destinations of every register number a field names (Exchanges, Numbered). -/
theorem witness_packed : (([.shflIdx false 5#7 6#7 7#7 false false, .shflUp false 63#7 6#7 7#7 false false, .shflDn false 126#7 6#7 7#7 false false,
    .shflXor false 119#7 6#7 7#7 false false, .rdlane false 5#7 6#7 7#7 false false, .bcast false 5#7 6#7 7#7 false false,
    .sexp false 4#7 1#7 0b1000_101#7 false, .nipl false 5#7 6#7 7#7 false false] : List Instr).all fun i =>
    let s := start fun h => (regs (fun r n => r + n) h).onWarp wk0 fun w => w.setPath false { w.p0 with packed := true }
    meets i s fun q => q.p.packed && !q.lanes.isEmpty && (Instr.uses i).all fun u => !u.wr ||
      decide (¬(120 ≤ u.r.toNat ∧ u.r.toNat < 126) ∧ (u.r.toNat < 96 → q.w.vIndex u < 256) ∧ (u.r.toNat < 120 → q.w.uIndex u < 256))) = true := by
  decide +kernel

/-! ## Decoding: words written out field by field (Tables 12.1, 12.6 and 12.7) -/

/-- Words of the six formats (Table 12.1). -/
def fA (op : BitVec 6) (i : BitVec 1) (d a b : BitVec 7) (ea eb : BitVec 1) (f : BitVec 2) : Word := op ++ i ++ d ++ a ++ b ++ ea ++ eb ++ f
def fI (op : BitVec 6) (d a : BitVec 7) (ea : BitVec 1) (k : BitVec 11) : Word := op ++ d ++ a ++ ea ++ k
def fL (op : BitVec 6) (d : BitVec 7) (k : BitVec 19) : Word := op ++ d ++ k
def fM (op : BitVec 6) (t a : BitVec 7) (l z : BitVec 3) (o : BitVec 6) : Word := op ++ t ++ a ++ l ++ z ++ o
def fX (sub : BitVec 6) (k : BitVec 20) : Word := 0x3F#6 ++ sub ++ k
def reads (w : Word) (i : Instr) : Bool := match decode w with
  | .ok j => j == i
  | .error _ => false
def rejected (w : Word) : Bool := match decode w with
  | .ok _ => false
  | .error _ => true

def integerWords : List Bool :=
  [reads (fA 0x02#6 1#1 5#7 6#7 7#7 0#1 1#1 3#2) (.mad true 5#7 6#7 7#7 false true), reads (fA 0x05#6 0#1 0#7 127#7 126#7 1#1 0#1 2#2) (.rem false 0#7 127#7 126#7 true false),
   reads (fA 0x06#6 0#1 5#7 6#7 0#7 1#1 0#1 1#2) (.popc false 5#7 6#7 true), reads (fA 0x07#6 0#1 5#7 6#7 7#7 0#1 0#1 2#2) (.bfi false 5#7 6#7 7#7 false false),
   reads (fI 0x09#6 5#7 6#7 1#1 0x400#11) (.muli 5#7 6#7 true 0x400#11), reads (fI 0x0D#6 5#7 6#7 0#1 0b10_0000_11111#11) (.shi 5#7 6#7 false 2#2 31#5),
   reads (fI 0x0E#6 0b1001_111#7 6#7 0#1 1#11) (.cmpi 9#4 7#3 6#7 false 1#11), reads (fL 0x0F#6 5#7 0x7FFFF#19) (.lui 5#7 0x7FFFF#19)]
theorem test_decode_integer : integerWords.all id = true := by decide
def laneWords : List Bool :=
  [reads (fA 0x10#6 0#1 0b0000_011#7 6#7 0b1100001#7 0#1 0#1 3#2) (.fclass false 3#3 6#7 0b1100001#7 false),
   reads (fA 0x11#6 0#1 5#7 6#7 7#7 0#1 0#1 3#2) (.sel false 5#7 6#7 7#7 false false 3#2), reads (fA 0x12#6 0#1 1#7 2#7 7#7 0#1 0#1 3#2) (.pandn 1#3 2#3 7#3),
   reads (fA 0x13#6 0#1 1#7 2#7 0#7 0#1 0#1 2#2) (.voteAny 1#3 2#3), reads (fA 0x14#6 0#1 5#7 2#7 7#7 0#1 1#1 2#2) (.ballot 5#7 2#3 7#7 true),
   reads (fA 0x15#6 0#1 5#7 6#7 7#7 0#1 0#1 3#2) (.shflXor false 5#7 6#7 7#7 false false), reads (fA 0x16#6 0#1 0#7 0#7 0#7 0#1 0#1 2#2) .pack,
   reads (fA 0x17#6 0#1 5#7 6#7 7#7 0#1 0#1 1#2) (.wrlane false 5#7 6#7 7#7 false false)]
theorem test_decode_lanes : laneWords.all id = true := by decide
def floatWords : List Bool :=
  [reads (fA 0x18#6 0#1 5#7 6#7 0#7 0#1 0#1 3#2) (.rdxFadd false 5#7 6#7 false), reads (fA 0x1A#6 0#1 5#7 6#7 7#7 0#1 0#1 2#2) (.fcpys false 5#7 6#7 7#7 false false),
   reads (fA 0x1C#6 0#1 5#7 6#7 0#7 0#1 0#1 3#2) (.fcos false 5#7 6#7 false), reads (fA 0x1D#6 0#1 5#7 6#7 7#7 0#1 0#1 3#2) (.bmax2 false 5#7 6#7 7#7 false false),
   reads (fA 0x20#6 0#1 5#7 6#7 0#7 0#1 0#1 1#2) (.cvtFZ false 5#7 6#7 false), reads (fA 0x22#6 0#1 5#7 6#7 0#7 0#1 0#1 3#2) (.frnd false 5#7 6#7 false),
   reads (fA 0x23#6 0#1 5#7 6#7 7#7 0#1 0#1 3#2) (.nipl false 5#7 6#7 7#7 false false)]
theorem test_decode_float : floatWords.all id = true := by decide
def memoryWords : List Bool :=
  [reads (fM 0x24#6 8#7 2#7 5#3 5#3 0b100_111#6) (.ld 8#7 2#7 5#3 5#3 0b100111#6), reads (fM 0x25#6 8#7 2#7 0#3 6#3 0x3F#6) (.st 8#7 2#7 0#3 6#3 0x3F#6),
   reads (fA 0x26#6 0#1 5#7 2#7 7#7 0#1 1#1 2#2) (.stxW false 5#7 2#7 7#7 false true), reads (fA 0x27#6 0#1 5#7 2#7 7#7 1#1 0#1 3#2) (.atomAnd 2#3 5#7 2#7 7#7),
   reads (fA 0x29#6 1#1 4#7 2#7 6#7 1#1 1#1 3#2) (.casD 7#3 4#7 2#7 6#7), reads (fA 0x2B#6 0#1 0#7 2#7 6#7 0#1 1#1 2#2) (.redBfadd2 1#3 2#7 6#7),
   reads (fA 0x2E#6 1#1 0#7 0#7 0#7 1#1 1#1 0#2) (.fenceAcq 7#3)]
theorem test_decode_memory : memoryWords.all id = true := by decide
def controlWords : List Bool :=
  [reads (fL 0x31#6 0#7 0x40000#19) (.bra 0x40000#19), reads (fL 0x32#6 0b0011101#7 1#19) (.brp true true 5#3 1#19), reads (fL 0x33#6 62#7 1#19) (.call 62#7 1#19),
   reads (fA 0x35#6 0#1 0#7 4#7 15#7 1#1 0#1 1#2) (.brkj 4#7 15#4 true), reads (fA 0x35#6 0#1 0#7 0#7 0#7 0#1 0#1 2#2) .exit]
def engineWords : List Bool :=
  [reads (fA 0x36#6 0#1 96#7 99#7 100#7 0#1 0#1 1#2) (.mmaP 96#7 99#7 100#7), reads (fA 0x37#6 0#1 0#7 0#7 0#7 0#1 0#1 3#2) .mwaita,
   reads (fA 0x38#6 0#1 5#7 96#7 106#7 0#1 0#1 3#2) (.gather 5#7 96#7 106#7), reads (fA 0x39#6 0#1 5#7 96#7 0#7 0#1 0#1 3#2) (.rbcast 5#7 96#7)]
theorem test_decode_control : controlWords.all id = true := by decide
theorem test_decode_engines : engineWords.all id = true := by decide
def systemWords : List Bool :=
  [reads (fA 0x3A#6 0#1 5#7 8#7 0#7 0#1 0#1 0#2) (.tagrd 5#7 8#7 false), reads (fX 1#6 (5#7 ++ 12#7 ++ 0#6)) (.imask 5#7 12#7), reads (fX 5#6 (0#7 ++ 96#7 ++ 0#6)) (.l1wb 96#7)]
theorem test_decode_system : systemWords.all id = true := by decide

/-- Reserved encodings (Table 12.8): sub 14, an rsv field of each format, an I bit without a source. -/
def reservedWords : List Bool :=
  [fX 14#6 0#20, fX 63#6 0#20, fX 0#6 1#20, fA 0x06#6 0#1 5#7 6#7 1#7 0#1 0#1 0#2, fA 0x06#6 0#1 5#7 6#7 0#7 0#1 1#1 0#2, fA 0x12#6 0#1 8#7 0#7 0#7 0#1 0#1 0#2,
   fA 0x16#6 1#1 0#7 0#7 0#7 0#1 0#1 2#2, fI 0x0D#6 5#7 6#7 0#1 0b00_0001_00000#11, fA 0x35#6 0#1 0#7 4#7 16#7 0#1 0#1 1#2, fL 0x32#6 0b0100000#7 0#19].map rejected
theorem test_reserved_words : reservedWords.all id = true := by decide

/-! ## Well-formedness: one term that each check of Table 12.8 refuses, beside one that it passes -/

def illFormed : List Instr :=
  [.cmp false 10#4 1#3 4#7 5#7 false false, .cmpi 15#4 1#3 4#7 false 0#11, .fcmp false 6#4 1#3 4#7 5#7 false false, .dcmp false 9#4 1#3 4#7 6#7 false false,
   .ld 4#7 2#7 2#3 4#3 0#6, .ld 4#7 2#7 0#3 7#3 0#6, .ld 4#7 2#7 1#3 4#3 0b101000#6, .ld 120#7 2#7 0#3 4#3 0#6, .ld 4#7 3#7 0#3 4#3 0#6, .ld 4#7 121#7 0#3 4#3 0#6,
   .ld 4#7 127#7 0#3 4#3 0#6, .ld 5#7 2#7 0#3 5#3 0#6, .ld 6#7 2#7 0#3 6#3 0#6, .st 4#7 2#7 1#3 4#3 0#6, .st 4#7 2#7 0#3 1#3 0#6, .st 4#7 2#7 0#3 3#3 0#6, .st 4#7 2#7 0#3 7#3 0#6,
   .st 4#7 2#7 2#3 4#3 0b111000#6, .atomAdd 4#3 4#7 2#7 6#7, .redAdd 5#3 2#7 6#7, .fenceRel 6#3, .swait 5#3 4#7 2#7 6#7, .brkj 4#7 0#4 false, .call 63#7 0#19, .call 96#7 0#19,
   .add false 121#7 6#7 7#7 false false, .add false 127#7 6#7 7#7 false false, .add false 5#7 120#7 7#7 false false, .mad false 122#7 6#7 7#7 false false,
   .add true 5#7 121#7 7#7 false false, .add true 5#7 127#7 7#7 false false, .add true 5#7 126#7 7#7 false false, .dadd false 4#7 5#7 6#7 false false, .dadd false 4#7 97#7 6#7 false false,
   .mma 97#7 98#7 99#7, .mma 96#7 5#7 99#7, .mma 96#7 98#7 120#7, .copy 5#7 97#7 106#7, .wrlane false 96#7 6#7 7#7 false false, .movx 120#7 6#7 false, .movx 126#7 6#7 false,
   .sexp false 4#7 1#7 0b0010_110#7 false, .sexp false 4#7 1#7 0b0001_101#7 false, .sexp false 4#7 1#7 0b1001_101#7 false, .srd 4#7 0x11#7, .srd 5#7 0x00#7, .swr 0x26#7 4#7 false,
   .setmt 120#7 96#7, .tlbia 127#7]
def wellFormed : List Instr :=
  [.cmp false 9#4 1#3 4#7 5#7 false false, .fcmp false 11#4 1#3 4#7 5#7 false false, .ld 4#7 2#7 1#3 4#3 0b100000#6, .ld 8#7 98#7 5#3 6#3 0#6, .ld 126#7 126#7 0#3 6#3 0#6,
   .st 4#7 2#7 2#3 2#3 0b100111#6, .atomAdd 7#3 120#7 2#7 127#7, .redAdd 3#3 2#7 121#7, .fenceRel 0#3, .brkj 4#7 15#4 false, .call 62#7 0#19, .add true 124#7 95#7 125#7 true true,
   .dadd false 94#7 126#7 118#7 false false, .mma 118#7 98#7 119#7, .wrlane false 95#7 6#7 7#7 false false, .movx 119#7 6#7 false, .sexp false 4#7 1#7 0b1000_101#7 false,
   .srd 4#7 0x00#7, .srd 5#7 0x01#7, .setmt 126#7 96#7]
theorem test_ill_formed : illFormed.all (fun i => !WellFormed i) = true := by decide
theorem test_well_formed : wellFormed.all WellFormed = true := by decide

/-! ## Single steps; expected values by hand from the rules named -/

/-- Register r of lane n holds what `v` says; lane 0's result. -/
def result (v : Nat → Nat) (i : Instr) (d x : Nat) : Bool := after i (start (regs fun r _ => v r)) fun t => vec t d 0 == x
def ab (a b : Nat) : Nat → Nat := fun r => if r = 1 then a else if r = 2 then b else 0
def integerResults : List Bool :=
  [result (ab 0xFFFFFFFF 1) (.add false 1#7 1#7 2#7 false false) 1 0, result (ab 0 1) (.sub false 3#7 1#7 2#7 false false) 3 0xFFFFFFFF,
   result (ab 0x80000000 0xFFFFFFFF) (.mulh false 3#7 1#7 2#7 false false) 3 0, result (ab 0x80000000 0xFFFFFFFF) (.mulhu false 3#7 1#7 2#7 false false) 3 0x7FFFFFFF,
   result (ab 0x7FFFFFFF 1) (.addsat false 3#7 1#7 2#7 false false) 3 0x7FFFFFFF, result (ab 0x80000000 33) (.sha false 3#7 1#7 2#7 false false) 3 0xFFFFFFFF,
   result (ab 0x80000001 1) (.rot false 3#7 1#7 2#7 false false) 3 3, result (ab 0 0) (.clz false 3#7 1#7 false) 3 32, result (ab 0 5) (.addi 3#7 2#7 false 0x7FF#11) 3 4,
   result (ab 0 0) (.lui 3#7 0x7FFFF#19) 3 0xFFFFE000]
theorem test_integer_results : integerResults.all id = true := by decide +kernel
def floatResults : List Bool :=
  [result (ab 0x3F800000 0x40000000) (.fadd false 3#7 1#7 2#7 false false) 3 0x40400000, result (ab 0x3FC00000 0x40000000) (.fmul false 3#7 1#7 2#7 false false) 3 0x40400000,
   result (ab 0x3F80C000 0) (.cvtBfF false 3#7 1#7 false) 3 0x3F81, result (ab 0xFFFFFFFB 0) (.cvtFI false 3#7 1#7 false) 3 0xC0A00000,
   result (ab 0xBFC00000 0) (.cvtIF false 3#7 1#7 false) 3 0xFFFFFFFE]
theorem test_float_results : floatResults.all id = true := by decide +kernel
/-- Each lane of a shuffle reads the lane 1 above it in the row; a ballot; a sum over the row of four active lanes. -/
def laneResults : List Bool :=
  let s := start fun h => (regs (fun r n => if r = 1 then n + 10 else if r = 2 then 1 else 0) h).onWarp wk0 fun w =>
    (w.setPath false { w.p0 with mask := 15#1024 })
  [after (.shflXor false 3#7 1#7 2#7 false false) s fun t => vec t 3 0 == 11 && vec t 3 3 == 12, after (.rdxAdd false 3#7 1#7 false) s fun t => vec t 3 2 == 46,
   after (.cmp false 4#4 1#3 1#7 2#7 false false) s fun t => vec t 1 0 == 10]
theorem test_lane_results : laneResults.all id = true := by decide +kernel
end Sys2Proof.Tests
end

