-- ==== Sys2Proof/Tests/Memory.lean ====
section
/-! SUPPORT. Sys2Proof/Tests/Memory.lean: states that meet the hypotheses of the statements about loads, stores, atomics,
fences, barriers, monitors and batches. -/
set_option Elab.async false
namespace Sys2Proof.Tests

open Sys2Proof.Machine Sys2Proof.Terms

/-! ## A state with one page of data -/

/-- Page 0x20000 is at 0x60000, writable, for atomics of system scope too. -/
def page : Tlb := ⟨1, 0x20000, 16, 0x60131#64⟩
/-- Lanes 0 to 3 are active. v8:v9 hold 0x20400 + 16 n, v10:v11 the scratchpad address 16 n, v12 and v13 n + 1. -/
def data (r n : Nat) : Nat :=
  if r = 8 then 0x20400 + 16 * n else if r = 10 then 16 * n else if r = 11 then 0xFE000000 else if r = 12 ∨ r = 13 then n + 1 else 0
/-- The state, changed by `f`, with those lanes active and the page's translation cached. -/
def memo (lanes : Nat) (f : Hw → Hw) : State := start fun h =>
  f (((regs data h).onWarp wk0 fun w => w.setPath false { w.p0 with mask := allMask 1 &&& BitVec.ofNat 1024 (2 ^ lanes - 1) }).onCore 0
    fun c => { c with tlb := [page] })
def onW (f : Warp → Warp) (h : Hw) : Hw := h.onWarp wk0 f
def onP (f : Path → Path) : Hw → Hw := onW fun w => w.setPath false (f w.p0)
def onB (f : Block → Block) (h : Hw) : Hw := h.onBlock bk0 f

/-- No access has to wait (AtRest). -/
def atRest (s : State) : Bool := s.hw.owners.isEmpty && s.hw.links.isEmpty && s.hw.chans.isEmpty && s.hw.blocks.all fun x => !x.2.rebasing
theorem atRest_sound {s : State} (h : atRest s = true) : AtRest s := by
  simp only [atRest, Bool.and_eq_true, List.isEmpty_iff, List.all_eq_true, Bool.not_eq_true'] at h
  refine ⟨h.1.1.1, fun a b => ?_, fun c => ?_, h.2⟩
  · simp [Hw.carries, h.1.1.2, Tab.getD]
  · simp [Hw.asleep, h.1.2, Tab.getD]
/-- A destination takes its result (CanReceive). -/
def receives (s : State) (q : Iss) (d : RField) (words : List Word) : Bool :=
  !decide (120 ≤ d.toNat ∧ d.toNat < 126) || (let k := queueKind d.toNat; let l := (q.w.queue k).staging ++ words
    s.hw.ownsEngine q.fn q.core k && (!(q.w.queue k).staging.isEmpty || !hdrBad k (words.headD 0#32)) && decide (l.length < hdrLen (l.headD 0#32)))
/-- A command begun in the staging buffer of a queue, which one more word does not complete, and one active lane. -/
def partly (k : EngKind) (h : Hw) : Hw := h.onWarp wk0 fun w =>
  (w.setQueue k { w.queue k with staging := [match k with | .matrix => 36#32 | .copy => 524#32 | .ring => 1063#32] }).setPath false { w.p0 with mask := 1#1024 }
/-- The accesses pass every check and meet p (Accesses). -/
def passes (s : State) (q : Iss) (k : Ask) (addr : Nat → DWord) (p : List Acc → Bool) : Bool :=
  decide (Iss.ctx s.hw q < 2 ^ 20) && match Iss.check s.hw (env s) q k addr with
  | .ok as => p as
  | .error _ => false
/-- One L1 context for all of them. -/
def oneCtx (s : State) (q : Iss) (as : List Acc) : Bool := decide (Iss.ctx s.hw q < 2 ^ 20) && as.all fun a => as.all fun b => Iss.lineCtx s.hw q a == Iss.lineCtx s.hw q b
theorem oneCtx_oneView {s : State} {q : Iss} {as : List Acc} (h : oneCtx s q as = true) : OneView s q as := by
  simp only [oneCtx, Bool.and_eq_true, decide_eq_true_eq, List.all_eq_true, beq_iff_eq] at h
  exact ⟨h.1, fun a ha b hb _ _ _ _ _ => h.2 a ha b hb⟩
def inMem (as : List Acc) : Bool := as.all fun a => match a.loc with | .mem _ => true | _ => false
def inScr (as : List Acc) : Bool := as.length == 1 && as.all fun a => match a.loc with | .scr _ _ => true | _ => false

/-! ## Loads, stores and their returns -/

def plainAsk (wr : Bool) (z : Nat) : Ask := ⟨.data, wr, false, szBytes z, 0, false, false, none⟩
def flagAsk (n events : Nat) (silent : Bool := false) (who : Option Nat := none) : Ask := ⟨.flg, false, false, n, events, false, silent, who⟩
def mAddr (q : Iss) (a : RField) (o : BitVec 6) (z n : Nat) : DWord := q.w.read64 ((Use.src a).wide 2) n + BitVec.ofInt 64 (o.toInt * szBytes z)
def fAddr (q : Iss) (a : RField) (o : BitVec 6) (z n : Nat) : DWord :=
  q.w.read64 ((Use.src a).wide 2) n + BitVec.ofInt 64 ((BitVec.ofNat 3 o.toNat).toInt * szBytes z)
def xAddr (q : Iss) (a b : RField) (z n : Nat) : DWord :=
  q.w.read64 ((Use.srcC a false false).wide 2) n + BitVec.ofInt 64 ((q.rb b false n).toInt * z)

/-- A value that has returned for queue register 120, at the instruction's address. -/
def answer : Flight := ⟨wk0, false, .atomic, 0, 1120, 1, [(0, 0#64)], [], [(0, 9#128)], 0x10000#64, 1, false, false, 0#32, false, []⟩

def loadWitnesses : List Bool :=
  [(0, 0x1F), (4, 0x20), (5, 0), (6, 0x3F)].map (fun (x : Nat × Nat) =>
    let z := BitVec.ofNat 3 x.1; let o := BitVec.ofNat 6 x.2; let s := memo 4 id
    meets (.ld 16#7 8#7 0#3 z o) s fun q => passes s q (plainAsk false x.1) (mAddr q 8#7 o x.1) inMem) ++
  [1, 2, 3].map (fun (x : Nat) =>
    let z := BitVec.ofNat 3 x; let s := memo 4 id
    meets (.ld 16#7 10#7 0#3 z 0#6) s fun q => passes s q (plainAsk false x) (mAddr q 10#7 0#6 x) fun as => !inMem as) ++
  (let s := memo 4 id
   [meets (.ldxW false 16#7 8#7 12#7 false false) s fun q => passes s q (plainAsk false 4) (xAddr q 8#7 12#7 4) inMem,
    meets (.ldxD false 16#7 8#7 12#7 false false) s fun q => passes s q (plainAsk false 5) (xAddr q 8#7 12#7 8) inMem]) ++
  (let s := memo 1 fun h => onW (fun w => { w with q0 := { w.q0 with staging := [36#32] } }) { h with flights := [(3, answer)] }
   [meets (.ldxW false 120#7 8#7 12#7 false false) s fun q => Iss.answered s.hw q == some (3, answer) && s.hw.ownsEngine q.fn q.core .matrix &&
      !q.w.q0.staging.isEmpty && q.w.q0.staging.length + answer.lanes.length < hdrLen (q.w.q0.staging.headD 0#32)]) ++
  (let s := memo 1 id
   [meets (.ldxW false 120#7 8#7 12#7 false false) s fun q => (Iss.answered s.hw q).isNone && passes s q (plainAsk false 4) (xAddr q 8#7 12#7 4) inMem]) ++
  (let s := memo 4 fun h => onP (fun p => { p with pushing := some { kind := .matrix, words := [7#32], rmode := 0#32, nbv := 3#32 } })
     (onW (fun w => { w with q0 := { w.q0 with staging := [36#32] } }) h)
   [match Iss.of s.hw with
    | some q => Memory.wf s.mem && s.hw.wq.isEmpty && decide (q.rank2 s.hw (.fadd false 120#7 6#7 7#7 false false) = .ok ()) && !s.hw.wraps q.bk 1 &&
        q.p.pushing.isSome && q.w.q0.staging.length + 1 < hdrLen (q.w.q0.staging.headD 0#32)
    | none => false])
theorem witness_loads : loadWitnesses.all id = true := by decide +kernel

def homeWitnesses : List Bool :=
  (let s := memo 4 id
   [meets (.ld 16#7 8#7 5#3 4#3 0x23#6) s fun q => passes s q (flagAsk 4 0) (fAddr q 8#7 0x23#6 4) fun as => inMem as && oneCtx s q as,
    meets (.ld 16#7 8#7 1#3 5#3 0x24#6) s fun q => passes s q (flagAsk 8 1) (fAddr q 8#7 0x24#6 5) inMem,
    meets (.ld 16#7 10#7 1#3 4#3 0#6) s fun q => passes s q (flagAsk 4 0) (fAddr q 10#7 0#6 4) fun as => !inMem as])
theorem witness_flag_loads : homeWitnesses.all id = true := by decide +kernel

/-- A load in flight with four words for register 255 - 3, and one for zr. -/
def flight (dreg nreg tag l : Nat) : Flight :=
  ⟨wk0, false, .load l .device 4 false, tag, dreg, nreg, [(0, 0x20400#64), (3, 0x20430#64)],
    [(.mem 0x60400, 0x60131#64), (.mem 0x60430, 0x60131#64)], if l = 1 then [] else [(0, 7#128), (3, 1#128)], 0x10000#64, 1, false, false, 0#32, false, []⟩
def flying (f : Flight) (aux : Nat) : State :=
  memo 4 fun h => { h with flights := [(6, f)], occ := { Occasion.none with unit := 6, aux := aux } }
def returnWitnesses : List Bool :=
  [(252, 4), (999, 1), (256, 2)].map (fun (x : Nat × Nat) =>
    let f := flight x.1 x.2 2 0; let s := flying f 2
    Memory.wf s.mem && s.hw.wq.isEmpty && Tab.find? s.hw.flights 6 == some f && f.tag == s.hw.occ.aux && (s.hw.warp? f.wk).isSome &&
      decide (f.dreg < 1000 ∧ f.nreg ≤ 4 ∧ (f.vals.map (·.1)).Nodup ∧ ∀ x ∈ f.vals, x.1 < 1024)) ++
  (let f := flight 16 1 2 0; let s := flying f 3
   [Memory.wf s.mem && s.hw.wq.isEmpty && decide (f.tag ≠ s.hw.occ.aux)]) ++
  (let f := flight 16 1 0 1; let s := flying f 0
   [match s.hw.warp? f.wk, s.hw.block? (wkBlock f.wk) with
    | some v, some b => Tab.find? s.hw.flights 6 == some f && f.tag == s.hw.occ.aux && !f.replay && !s.hw.elemsOf f.wk &&
        decide (f.dreg < 1000 ∧ f.nreg ≤ 4 ∧ (f.lanes.map (·.1)).Nodup ∧ ∀ x ∈ f.lanes, x.1 < 1024) && (f.accs 4).length == 2 &&
        (Iss.causes s.hw (f.iss v b) (flagAsk 4 0 true (some 6)) (f.accs 4)).isNone && (Iss.held s.hw (f.iss v b) (flagAsk 4 0 true (some 6)) (f.accs 4)).isNone &&
        oneCtx s (f.iss v b) (f.accs 4)
    | _, _ => false]) ++
  (let f := { flight 16 1 2 0 with replay := true }
   let s := memo 4 fun h => { onW (fun w => { w with replayFirst := [6] }) h with flights := [(6, f)], occ := { Occasion.none with unit := 6, aux := 2 } }
   [match s.hw.warp? f.wk with
    | some v => !v.stopped && v.mode == .user && v.held.isNone && s.hw.replayTurn v 6 f
    | none => false])
theorem witness_returns : returnWitnesses.all id = true := by decide +kernel

def storeWitnesses : List Bool :=
  (let s := memo 4 id
   [(0, 0x1F), (4, 0x20), (5, 0), (6, 0x3F)].map (fun (x : Nat × Nat) =>
     let z := BitVec.ofNat 3 x.1; let o := BitVec.ofNat 6 x.2
     meets (.st 16#7 8#7 0#3 z o) s fun q => passes s q (plainAsk true x.1) (mAddr q 8#7 o x.1) inMem) ++
   [meets (.st 16#7 10#7 0#3 4#3 0#6) s fun q => passes s q (plainAsk true 4) (mAddr q 10#7 0#6 4) fun as => !inMem as,
    meets (.stxW false 16#7 8#7 12#7 false false) s fun q => passes s q (plainAsk true 4) (xAddr q 8#7 12#7 4) inMem,
    meets (.stxD false 16#7 8#7 12#7 false false) s fun q => passes s q (plainAsk true 5) (xAddr q 8#7 12#7 8) inMem])
theorem witness_stores : storeWitnesses.all id = true := by decide +kernel

/-- The releases do not wait (ReleasesNow). -/
def releasesNow (s : State) (q : Iss) (l : List Scope) : Bool := l.isEmpty || !s.hw.releaseWaits q.wk q.core (Iss.ctx s.hw q) (widest l)
/-- A .flg store with and without a pending release, a .rel store. -/
def flagStoreWitnesses : List Bool :=
  [(5, false, 0, []), (5, false, 0, [(1, Scope.device)]), (2, true, 4, [])].map fun (x : Nat × Bool × Nat × Tab Scope) =>
    let s := memo 4 (onW fun w => { w with pend := x.2.2.2 }); let o := BitVec.ofNat 6 (8 * x.2.2.1)
    meets (.st 16#7 8#7 (BitVec.ofNat 3 x.1) 4#3 o) s fun q =>
      let l := releases q x.2.1 (scopeOfNat (o.toNat / 8))
      !s.hw.wraps q.bk 2 && releasesNow s q l && l.isEmpty == (x.1 == 5 && x.2.2.2.isEmpty) &&
        passes s q ⟨.flg, true, false, 4, if widest l ≠ .warp then 1 else 0, false, false, none⟩ (fAddr q 8#7 o 4) fun as => inMem as && oneCtx s q as
theorem witness_flag_stores : flagStoreWitnesses.all id = true := by decide +kernel

/-! ## Atomics -/

/-- Every atomic and reduction with its operation, class, destination and operands, at scope code s. -/
def atomics (s : BitVec 3) (d a b : RField) : List (Instr × AtomOp × Cls × Option Use × Use) :=
  [(.atomAdd s d a b, .add, .cnt, some (Use.dst d), .src b), (.atomMin s d a b, .min, .cnt, some (Use.dst d), .src b),
    (.atomMax s d a b, .max, .cnt, some (Use.dst d), .src b), (.atomAnd s d a b, .and, .cnt, some (Use.dst d), .src b),
    (.atomOr s d a b, .or, .cnt, some (Use.dst d), .src b), (.atomXor s d a b, .xor, .cnt, some (Use.dst d), .src b),
    (.atomMinu s d a b, .minu, .cnt, some (Use.dst d), .src b), (.atomMaxu s d a b, .maxu, .cnt, some (Use.dst d), .src b),
    (.atomFadd s d a b, .fadd, .cnt, some (Use.dst d), .src b), (.xchg s d a b, .xchg, .xch, some (Use.dst d), .src b),
    (.cas s d a b, .cas, .xch, some (Use.both d), .src b),
    (.atomAddD s d a b, .addD, .cnt, some ((Use.dst d).wide 2), (Use.src b).wide 2),
    (.xchgD s d a b, .xchgD, .xch, some ((Use.dst d).wide 2), (Use.src b).wide 2),
    (.casD s d a b, .casD, .xch, some ((Use.both d).wide 2), (Use.src b).wide 2),
    (.redAdd s a b, .add, .red, none, .src b), (.redMin s a b, .min, .red, none, .src b), (.redMax s a b, .max, .red, none, .src b),
    (.redOr s a b, .or, .red, none, .src b), (.redFadd s a b, .fadd, .red, none, .src b), (.redBfadd2 s a b, .bfadd2, .red, none, .src b)]
/-- Sends and PerformsAtOnce: every form on memory at system scope, on one word of scratchpad at warp scope, and on one word of a peer's
memory at system scope. -/
def atomicMeets (s : State) (sc : BitVec 3) (a : RField) (p : List Acc → Bool) (x : Instr × AtomOp × Cls × Option Use × Use) : Bool :=
  meets x.1 s fun q => !s.hw.wraps q.bk 2 && releasesNow s q (releases q false (scopeOfNat sc.toNat)) && (Iss.answered s.hw q).isNone &&
    x.2.2.2.1.all (fun u => decide (u.r.toNat < 120)) &&
    passes s q (atomAsk x.2.1 x.2.2.1 q sc.toNat) (q.w.read64 ((Use.src a).wide 2)) fun as => p as &&
      as.all fun a => match a.loc with | .mem pa => farOf a.leaf pa (scopeOfNat sc.toNat == .system) true == (paKind pa == .peer) | _ => true
def atPeer (as : List Acc) : Bool := as.length == 1 && as.all fun a => match a.loc with | .mem pa => paKind pa == .peer | _ => false
/-- Page 0x20000 is in a peer package's memory. -/
def peerData : State := memo 1 fun h => h.onCore 0 fun c => { c with tlb := [⟨1, 0x20000, 16, 0x4000000060131#64⟩] }
theorem witness_atomics_sent : ((atomics 7#3 16#7 8#7 12#7).all (atomicMeets (memo 4 id) 7#3 8#7 inMem)) = true := by decide +kernel
theorem witness_atomics_in_scratchpad : ((atomics 0#3 16#7 10#7 12#7).all (atomicMeets (memo 1 id) 0#3 10#7 inScr)) = true := by decide +kernel
theorem witness_atomics_at_a_peer : ((atomics 7#3 16#7 8#7 12#7).all (atomicMeets peerData 7#3 8#7 atPeer)) = true := by decide +kernel

def element (op : AtomOp) (ret : Option Nat) (ticket : Option Nat) (host : Bool) : Elem :=
  { op := op, loc := .mem 0x60400, b := 3#64, cmp := 0#64, ret := ret, closes := false, ticket := ticket, host := host, far := false, wk := wk0
    path := false, pc := 0x10000#64, declared := [], lane := 1023, fn := 1, core := 0, intv := 1, rmode := 0#32, nbv := 3#32, rel := none
    chint := 0#32, ctx := 1, va := 0x20400#64, leaf := 0x60131#64 }
def retrieving (q : List Elem) (f : Hw → Hw) : State := memo 4 fun h =>
  { f (h.onRing 0 fun r => { r with retq := q }) with
    occ := Occasion.none, flights := [(6, { flight 252 2 0 0 with kind := .atomic })] }
/-- The element stands first at a place that no link or channel keeps from it, and its line's home holds it as said. -/
def firstElement (s : State) (l : List Elem) (held : Bool) : Bool :=
  Memory.wf s.mem && s.hw.wq.isEmpty && (s.hw.ring s.hw.occ.unit).retq == l && match l with
    | x :: _ => !s.hw.waitsOnWay x.ctx (s.hw.occ.unit / 5) x.leaf 0x60400 && s.hw.lineHeld (x.ticket.getD s.hw.nextId) (lineOf 0x60400) == held
    | [] => false
/-- An empty queue; a channel asleep; an owned line, met now and before; a poisoned line; a line that nothing holds, with a reply to
deliver, and for the host. -/
def retrieverWitnesses : List Bool :=
  let owned (h : Hw) : Hw := { h with owners := [(lineOf 0x60400, 9)] }
  let x := element .casD (some 6) none false
  let asleep := retrieving [x] fun h => { h with chans := [(chanOf 0x60400, (.selfRefresh, 0))] }
  let poisoned := retrieving [x] fun h => { h with poison := [lineOf 0x60400] }
  [((retrieving [] id).hw.ring 0).retq.isEmpty, asleep.hw.waitsOnWay x.ctx (asleep.hw.occ.unit / 5) x.leaf 0x60400,
   firstElement (retrieving [element .addD (some 6) (some 0) false] owned) [element .addD (some 6) (some 0) false] true,
   firstElement (retrieving [element .addD (some 6) none false] owned) [element .addD (some 6) none false] true,
   firstElement poisoned [x] false && poisoned.hw.poison.contains (lineOf 0x60400) && (match poisoned.hw.warp? x.wk with | some v => !v.done | none => false),
   firstElement (retrieving [x, element .bfadd2 none none false] id) [x, element .bfadd2 none none false] false,
   (match Tab.find? (retrieving [x] id).hw.flights 6 with
    | some f => decide (f.dreg < 256 ∧ f.nreg ≤ 4 ∧ x.lane < 1024) && ((retrieving [x] id).hw.warp? f.wk).isSome
    | none => false),
   firstElement (retrieving [element .cas none none true] id) [element .cas none none true] false]
theorem witness_retriever : retrieverWitnesses.all id = true := by decide +kernel

/-! ## Fences, barriers, monitors, batches -/

/-- The core's L1 holds a dirty byte 127 of a line of the warp's context, and a clean line of context 0. -/
def cached (h : Hw) : Hw := h.onCore 0 fun c => { c with l1 :=
  [(l1Key 0 5, ⟨1#128, 0#128, [(0, 7#8)], 0#32, 0#64, []⟩), (l1Key 1 (lineOf 0x60400), ⟨1#128 <<< 127, 1#128 <<< 127, [(127, 9#8)], 0#32, 0#64, []⟩)] }
def fenceWitnesses : List Bool :=
  ([.fenceAcq 7#3, .fenceRel 2#3, .fenceAr 0#3, .fenceSc 3#3] : List Instr).map fun i =>
    let s := memo 4 cached
    meets i s fun q => !s.hw.wraps q.bk 2 && decide (Iss.ctx s.hw q < 2 ^ 20) && !s.hw.elemsOf q.wk && !s.hw.returning q.wk q.x && !s.hw.backHeld q.core (Iss.ctx s.hw q) &&
      decide (((s.hw.core q.core).l1.map (·.1)).Nodup) && (s.hw.l1 q.core (Iss.ctx s.hw q) (lineOf 0x60400)).dirty.getLsbD 127 &&
      (s.hw.l1 q.core 0 5).dirty == 0#128
theorem witness_fences : fenceWitnesses.all id = true := by decide +kernel

/-- Barrier 15, the last of the block, as `x`. -/
def barred (x : Barrier) (p : Path → Path) : State := start fun h =>
  onP p (onB (fun b => { b with bars := [(15, x)] }) (regs (fun r n => if r = 12 ∧ n = 0 then 15 else 0) h))
def bar (exp arr phase : Nat) (bytes : Int) : Barrier := { Barrier.fresh with init := true, exp := exp, arr := arr, phase := phase, bytes := bytes }
def alive (s : State) (q : Iss) (word : Word) (p : Nat → Nat → Barrier → Bool) : Bool :=
  match s.hw.liveBarrier q.bk q.b word with
  | .ok (k, n, r) => p k n r
  | .error _ => false
/-- An arrival that is not the last, one that completes the phase 255, one that a missing byte keeps from completing it. -/
def arrivalWitnesses : List Bool :=
  [bar 0xFFFF 0 0 0, bar 1 0 255 0, bar 1 0 255 (-1)].flatMap fun x =>
    let s := barred x id
    ([.bararr false 5#7 12#7 false, .barexp false 5#7 12#7 13#7 false false, .barsync false 12#7 false] : List Instr).map fun i =>
      meets i s fun q => !s.hw.wraps q.bk 3 && q.p.barTok.isNone && (q.w.poppedRels i).isEmpty &&
        alive s q (q.ra 12#7 false false q.lane0) fun _ n r => n == 15 && r.arr != r.exp && !Iss.arrivalWaits s.hw q r
theorem witness_arrivals : arrivalWitnesses.all id = true := by decide +kernel
/-- PHASE equal to the token and different from it, for BARWAIT, an arrived BARSYNC and BARTRY; BARQRY at the widest fields, of either kind. -/
def waitWitnesses : List Bool :=
  [0, 1].flatMap (fun (ph : Nat) =>
    let s := barred (bar 2 1 ph 0) id
    let t := barred (bar 2 1 ph 0) fun p => { p with barTok := some (15#32, 0) }
    [meets (.barwait false 12#7 13#7 false false) s fun q => !s.hw.wraps q.bk 2 && alive s q (q.ra 12#7 false false q.lane0) fun _ _ r =>
      (r.phase == (q.rb 13#7 false q.lane0).toNat % 256) == (ph == 0),
     meets (.barsync false 12#7 false) t fun q => q.p.barTok == some (15#32, 0) && alive t q 15#32 fun _ _ r => (r.phase == 0) == (ph == 0),
     meets (.bartry false 7#3 12#7 13#7 false false) s fun q => alive s q (q.ra 12#7 false false q.lane0) fun _ _ _ => true]) ++
  [false, true].map fun cluster =>
    let s := barred { bar 0xFFFF 0xFFFF 255 (-1) with cluster } id
    meets (.barqry false 5#7 12#7 false) s fun q => match s.hw.barrier q.bk q.b (q.ra 12#7 false false q.lane0) with
    | some (_, _, r) => decide (r.arr ≤ r.exp ∧ r.exp < 2 ^ 16 ∧ r.phase < 256) && r.init && r.cluster == cluster
    | none => false
theorem witness_barrier_waits : waitWitnesses.all id = true := by decide +kernel
/-- BARINIT and BARINV on a barrier without waiters, BARINIT on one that another path is blocked on. -/
def setupWitnesses : List Bool :=
  let s := start fun h => regs (fun r n => if n = 0 then (if r = 12 then 15 else if r = 13 then 0xFFFF else 0) else 0) h
  let t := start fun h => (onW (fun w => { w with p1 := { freshPath 0#64 1#1024 with barOn := some (bk0, 15), stall := 6 } })
    (regs (fun r n => if n = 0 then (if r = 12 then 15 else if r = 13 then 1 else 0) else 0) h)).onPart 0 fun p => { p with phvec := 0x10000#64 }
  let free (s : State) (q : Iss) (busy : Bool) : Bool := match s.hw.barrier q.bk q.b (q.ra 12#7 false false q.lane0) with
    | some (k, n, r) => s.hw.barrierBusy k n == busy && !r.init
    | none => false
  [meets (.barinit false 12#7 13#7 false false) s fun q => free s q false && decide ((q.rb 13#7 false q.lane0).toNat % 2 ^ 16 ≠ 0),
   meets (.barinv false 12#7 false) s fun q => free s q false,
   meets (.barinit false 12#7 13#7 false false) t fun q => free t q true && decide ((q.rb 13#7 false q.lane0).toNat % 2 ^ 16 ≠ 0) &&
     q.w.mode == .user && decide ((t.hw.part (t.hw.partOf q.fn)).phvec ≠ 0#64) && !(t.hw.part (t.hw.partOf q.fn)).imask.getLsbD 0]
theorem witness_barrier_setup : setupWitnesses.all id = true := by decide +kernel

/-- No engine failure is kept, so that no value meets a stamp. -/
def unfailed (w : Warp) : Bool := [EngKind.matrix, .copy, .ring].all fun k => (w.queue k).failure.isNone
theorem unfailed_stamp {w : Warp} (h : unfailed w = true) (l : Loc) (v : DWord) : w.stampFailure l v = none := by
  simp only [unfailed, List.all_cons, List.all_nil, Bool.and_true, Bool.and_eq_true, Option.isNone_iff_eq_none] at h
  simp [Warp.stampFailure, h.1, h.2.1, h.2.2]
def monitor (armed trig : Bool) : Monitor := ⟨0x20400#64, .mem 0x60400, .system, armed, trig, 0⟩
/-- A word at 0x20400 whose low half is `v`. -/
def word64 (v : Nat) (s : State) : State := { s with mem := pokeBytes s.mem 0x60400 4 v }
def monitorWitnesses : List Bool :=
  (let s := memo 4 id
   [meets (.mon 7#3 8#7) s fun q => (q.w.read64 ((Use.src 8#7).wide 2) q.lane0).toNat % 8 == 0 &&
      match Iss.locate s.hw (env s) q ⟨false, false⟩ (q.w.read64 ((Use.src 8#7).wide 2) q.lane0) 8 with
      | .ok (.mem _, _) => true
      | _ => false]) ++
  [(true, true), (false, false)].map (fun (x : Bool × Bool) =>
    let s := memo 4 (onP fun p => { p with mon := some (monitor x.1 x.2) })
    meets (.mwait 16#7) s fun q => !s.hw.wraps q.bk 2 && q.p.mon == some (monitor x.1 x.2) && !s.hw.elemsOf q.wk &&
      unfailed q.w && passes s q.one (flagAsk 8 1 true) (fun _ => 0x20400#64) fun as => as.length == 1 && inMem as) ++
  (let s := memo 4 (onP fun p => { p with mon := some (monitor true false) })
   [meets (.mwait 16#7) s fun q => q.p.mon == some (monitor true false)]) ++
  [1, 0x80000000, 0x80000001].map (fun (v : Nat) =>
    let s := word64 v (memo 4 id)
    meets (.swait 7#3 16#7 8#7 12#7) s fun q => !s.hw.wraps q.bk 2 && unfailed q.w && !s.hw.elemsOf q.wk &&
      passes s q.one (flagAsk 8 1 true) (fun _ => q.w.read64 ((Use.src 8#7).wide 2) q.lane0) fun as =>
        as.length == 1 && as.all fun x => decide
          ((((BitVec.ofNat 64 (leNat ((List.range 8).map (flagByte s q x)))).extractLsb' 0 32 - q.w.read (.src 12#7) q.lane0).toNat < 2 ^ 31) ↔
            v ≠ 0x80000001)) ++
  (let s := memo 4 fun h => { onP (fun p => { p with mon := some { monitor true false with since := 5 } }) h with
      occ := { Occasion.none with unit := wk0 } }
   let t := { s with clk := ⟨0, 5 + 2 ^ 20, 0⟩ }
   [match t.hw.warp? t.hw.occ.unit with
    | some v => match v.p0.mon with
      | some m => m.armed && decide (m.since + 2 ^ 20 ≤ t.clk.cycle)
      | none => false
    | none => false])
theorem witness_monitors : monitorWitnesses.all id = true := by decide +kernel
/-- TWAIT: tick 0 has been reached by every core, tick 3 by none at TICK 0. -/
theorem witness_twait : (∃ q, Issues (.twait false 14#7 false) (memo 4 id) q ∧
      (q.w.read64 ((Use.srcC 14#7 false false).wide 2) q.lane0).toNat ≤ localTick ⟨(memo 4 id).clk, (memo 4 id).mem⟩ q.core) ∧
    ∃ q, Issues (.twait false 2#7 false) (start (regs fun r _ => if r = 2 then 3 else 0)) q ∧
      localTick ⟨(start (regs fun r _ => if r = 2 then 3 else 0)).clk, (start (regs fun r _ => if r = 2 then 3 else 0)).mem⟩ q.core
        < (q.w.read64 ((Use.srcC 2#7 false false).wide 2) q.lane0).toNat := by
  constructor
  · obtain ⟨q, h, p⟩ := meets_issues (i := .twait false 14#7 false) (s := memo 4 id)
      (p := fun q => (q.w.read64 ((Use.srcC 14#7 false false).wide 2) q.lane0).toNat == 0) (by decide +kernel)
    exact ⟨q, h, by rw [beq_iff_eq] at p; omega⟩
  · obtain ⟨q, h, p⟩ := meets_issues (i := .twait false 2#7 false) (s := start (regs fun r _ => if r = 2 then 3 else 0))
      (p := fun q => (q.w.read64 ((Use.srcC 2#7 false false).wide 2) q.lane0).toNat == 3) (by decide +kernel)
    refine ⟨q, h, ?_⟩
    rw [beq_iff_eq] at p
    rw [p]
    show 0 + Config.tickSkew q.core % 3 - 1 < 3
    omega

/-- A command of the warp, of the open batch or of batch 1, not started. -/
def cmd (k : EngKind) (opc : Nat) (words : List Word) : Cmd :=
  { fn := 1, wk := wk0, core := 0, kind := k, opc := opc, words := words, rec_ := none, intv := 1
    snap := ⟨1, [], none, [], .device, bk0, 0, 0, false⟩, front := [], ctx := 1, chint := 0#32, rmode := 0#32, nbv := 3#32, scope := .device, tok := false
    tag := 0#8, bc := false, at_ := none, fired := false, late := false, seq := 1, batch := 1, size := 0, started := false, moved := false
    status := 0, failW := false, failA := 0#64, failO := 0#64, failP := 0#64, owned := [], tiles := [], outTag := 0#16, units := [], credit := []
    unwritten := [], paid := 0, packets := 0, data := [], paired := false, pc := none }
def batchWitnesses : List Bool :=
  let s := memo 4 id
  let t := memo 4 fun h => { onW (fun w => { w with batch := 1, seq := 1, batchOf := [(1, 1)] }) h with cmds := [(4, cmd .copy 0x10 [])] }
  [meets (.cbatch 5#7) s fun _ => true, meets (.cstamp 5#7) s fun _ => true] ++
  [.cbatch 120#7, .bararr false 122#7 12#7 false, .barexp false 124#7 12#7 13#7 false false, .barqry false 120#7 12#7 false].map (fun i =>
    let k := match (Instr.uses i).head? with | some u => queueKind u.r.toNat | none => .matrix
    let u := barred (bar 0xFFFF 0 0 0) id
    let v := { u with hw := partly k u.hw }
    meets i v fun q => !v.hw.wraps q.bk 3 && receives v q (match k with | .matrix => 120#7 | .copy => 122#7 | .ring => 124#7)
      (q.lanes.map fun _ => 0#32)) ++
  ([.cwait false 12#7 false, .cpoll false 7#3 12#7 false] : List Instr).flatMap fun i =>
    [meets i s fun q => !s.hw.wraps q.bk 2 && s.hw.batchDone q.wk (min (q.ra 12#7 false false q.lane0).toNat q.w.batch) &&
      (q.w.batchFailure (min (q.ra 12#7 false false q.lane0).toNat q.w.batch)).isNone,
     meets i t fun q => !t.hw.wraps q.bk 2 && !t.hw.batchDone q.wk (min (q.ra 12#7 false false q.lane0).toNat q.w.batch)]
theorem witness_batches : batchWitnesses.all id = true := by decide +kernel

end Sys2Proof.Tests
end

