-- ==== Sys2Proof/Tests/Control.lean ====
section
/-! SUPPORT. Sys2Proof/Tests/Control.lean: states that meet the hypotheses of the statements about control flow, traps,
regions, engine commands, tags, tables, system registers, translations, caches, halts and dumps. -/
set_option Elab.async false
namespace Sys2Proof.Tests

open Sys2Proof.Machine Sys2Proof.Terms

/-! ## Branches and joins -/

/-- Four lanes, v2:v3 and v4:v5 the same aligned address in each, p1 true in lanes 0 and 2. -/
def flow (f : Hw → Hw) : State := memo 4 fun h => f (onW (fun w => { w with
  preds := [(1, 5#1024)]
  vregs := (List.range 4).map (fun n => (1024 * 2 + n, 0x10100#32)) ++ (List.range 4).map (fun n => (1024 * 4 + n, 0x10000#32)) }) h)
def split (other : Path → Path) : Warp → Warp := fun w => { w with
  split := some (0x10000#64, 0xFF#1024), p1 := other { freshPath 0x10080#64 0xF0#1024 with live := true } }
def pushed (l : List JEntry) : Hw → Hw := onP fun p => { p with stack := l }
def joinAt (t : DWord) (m : Mask) : JEntry := ⟨t, none, m⟩
def branchWitnesses : List Bool :=
  let s := flow id
  [meets (.bra 0x40000#19) s fun _ => true, meets (.bra 0x3FFFF#19) s fun _ => true,
   meets (.brp true false 0#3 1#19) s fun q => decide (q.p.mask ≠ 0#1024) && q.p.mask &&& q.w.getP 0 == q.p.mask,
   meets (.brp true true 0#3 1#19) s fun q => q.p.mask &&& ~~~q.w.getP 0 == 0#1024,
   meets (.call 62#7 1#19) s fun _ => true,
   meets (.jmpr 2#7 false) s fun q => !q.lanes.isEmpty && q.lanes.all fun n => q.w.read64 (Use.srcC 2#7 false false) n == 0x10100#64]
theorem witness_branches : branchWitnesses.all id = true := by decide +kernel

def joinWitnesses : List Bool :=
  let j := joinAt 0x10000#64 0xF#1024
  [meets (.jpt 0x40000#19) (flow (pushed (List.replicate 15 (joinAt 0#64 0#1024)))) fun q => q.p.stack.length < 16,
   -- a BRP that splits, and one that defers in a warp of two paths
   meets (.brp false false 1#3 8#19) (flow (pushed [j])) fun q => q.p.above == [j] && decide (q.p.mask &&& q.w.getP 1 ≠ 0#1024) &&
     decide (q.p.mask &&& ~~~(q.p.mask &&& q.w.getP 1) ≠ 0#1024) && q.w.split.isNone,
   meets (.brp false true 1#3 8#19) (flow fun h => onW (split id) (pushed [j] h)) fun q => q.p.above == [j] && q.w.split.isSome &&
     decide (q.p.mask &&& ~~~q.w.getP 1 ≠ 0#1024),
   -- JOIN: a JOIN entry, a DEFER entry, the first path at the split join, the second
   meets .join (flow fun h => onW (fun w => { w with exited := 1#1024 }) (pushed [j] h)) fun q => q.p.above == [j] && q.p.pc == j.t &&
     decide (j.m &&& ~~~q.w.exited ≠ 0#1024) && q.w.split.isNone && !q.x,
   meets .join (flow (pushed [⟨0x10000#64, some 0x10040#64, 2#1024⟩, j])) fun q => q.p.above == [⟨0x10000#64, some 0x10040#64, 2#1024⟩, j] && !q.x,
   meets .join (flow (onW (split id))) fun q => q.p.above.isEmpty && q.w.split == some (q.p.pc, 0xFF#1024) && decide (q.p.mask ≠ 0#1024) &&
     (q.w.path (!q.x)).live && !(q.w.path (!q.x)).atJoin,
   meets .join (flow (onW (split fun p => { p with atJoin := true }))) fun q => q.p.above.isEmpty && q.w.split == some (q.p.pc, 0xFF#1024) &&
     (q.w.path (!q.x)).atJoin && decide (0xFF#1024 &&& ~~~q.w.exited ≠ 0#1024),
   meets .join (flow (onW (split fun p => { p with live := false }))) fun q => q.p.above.isEmpty && !(q.w.path (!q.x)).live,
   -- BRKJ 2 over a DEFER entry, to an address below the next entry's
   meets (.brkj 4#7 2#4 false) (flow (pushed [j, ⟨0x10000#64, some 0x10040#64, 2#1024⟩, joinAt 0x10020#64 3#1024, joinAt 0x10040#64 0xF#1024])) fun q =>
     !q.lanes.isEmpty && (q.lanes.all fun n => q.w.read64 (Use.srcC 4#7 false false) n == 0x10000#64) &&
     q.p.above == [j, ⟨0x10000#64, some 0x10040#64, 2#1024⟩] ++ joinAt 0x10020#64 3#1024 :: [joinAt 0x10040#64 0xF#1024] &&
     (([j, ⟨0x10000#64, some 0x10040#64, 2#1024⟩] : List JEntry).filter fun e => e.defer.isNone).length + 1 == 2]
theorem witness_joins : joinWitnesses.all id = true := by decide +kernel

def exitWitnesses : List Bool :=
  let user (q : Iss) : Bool := q.w.mode == .user && q.w.failure.isNone
  [meets .exit (flow (pushed [joinAt 0x10000#64 0xF#1024])) fun q => user q && !q.p.above.isEmpty,
   meets .exit (flow id) fun q => user q && q.p.above.isEmpty && q.w.split.isNone,
   meets .exit (flow (onW (split id))) fun q => user q && q.p.above.isEmpty && q.w.split.isSome && (q.w.path (!q.x)).live && !(q.w.path (!q.x)).atJoin,
   meets .exit (flow (onW (split fun p => { p with atJoin := true }))) fun q => user q && q.p.above.isEmpty && (q.w.path (!q.x)).atJoin &&
     decide (0xFF#1024 &&& ~~~(q.w.exited ||| q.p.mask) ≠ 0#1024)]
theorem witness_exits : exitWitnesses.all id = true := by decide +kernel

/-! ## Traps -/

/-- A handler that takes entries at 0x18000, and user mode. -/
def caught (f : Hw → Hw) : State := memo 4 fun h => f (h.onPart 0 fun p => { p with phvec := 0x18000#64 })
def entersOk (s : State) (q : Iss) : Bool := q.w.mode == .user && decide ((s.hw.part (s.hw.partOf q.fn)).phvec ≠ 0#64) &&
  !(s.hw.part (s.hw.partOf q.fn)).imask.getLsbD 0
/-- Handler mode, the trap frame of a TRAP on path 1 or a fault on path 0. -/
def handling (onOne : Bool) (c : DWord) (f : Hw → Hw) : State := caught fun h => f (onW (fun w => { w with
  mode := .handler, trapc := c, trappc := 0x10010#64, frame := some ⟨{ w.p0 with pc := 0x10010#64 }, deadPath, none, onOne, 0x10010#64⟩ }) h)
def softwareWitnesses : List Bool :=
  [meets (.trap 127#7) (caught id) (entersOk (caught id)), meets .bkpt (caught id) (entersOk (caught id))]
theorem witness_software_traps : softwareWitnesses.all id = true := by decide +kernel

/-- Does the check of rank 2 answer this trap, or this wait? -/
def traps (s : State) (i : Instr) (c : Nat) : Bool := match Iss.of s.hw with
  | some q => (encode? i).isSome && match q.rank2 s.hw i with
    | .error (.trap d _ _ _) => d.toNat == c
    | _ => false
  | none => false
def waits (s : State) (i : Instr) : Bool := match Iss.of s.hw with
  | some q => (encode? i).isSome && match q.rank2 s.hw i with
    | .error (.wait _) => true
    | _ => false
  | none => false
def rankWitnesses : List Bool :=
  let s := caught (onW fun w => { w with empty := [1024 * 5 + 3] })
  [traps s (.cmp false 10#4 1#3 4#7 6#7 false false) 0x01, traps s (.dadd false 5#7 6#7 8#7 false false) 0x01, traps s .eret 0x13, traps s (.mwait 16#7) 0x01,
   traps s (.add false 64#7 6#7 7#7 false false) 0x02, traps s (.add false 0#7 95#7 7#7 false false) 0x02,
   traps s (.add false 0#7 5#7 7#7 true false) 0x03, waits s (.add false 0#7 5#7 7#7 false false), waits s (.add false 5#7 6#7 7#7 false false),
   (match Iss.of s.hw with
    | some q => Instr.legal q.w.xi.toNat .eret && Instr.handlerOnly .eret && q.w.mode == .user &&
      Instr.legal q.w.xi.toNat (.add false 64#7 6#7 7#7 false false) && !(Instr.uses (.add false 64#7 6#7 7#7 false false)).all q.w.inBounds &&
      !Instr.legal q.w.xi.toNat (.cmp false 10#4 1#3 4#7 6#7 false false)
    | none => false)]
theorem witness_rank_two : rankWitnesses.all id = true := by decide +kernel

/-- The handler warp of partition 0, about to issue in handler mode. -/
def handlerWarp (f : Warp → Warp) : State :=
  let s := start id
  let k := wkOf (handlerFn 0) handlerSlot 0
  { s with hw := { s.hw with
      cur := some ⟨k, false⟩
      blocks := s.hw.blocks ++ [(bkOf (handlerFn 0) handlerSlot, newBlock 0 0 0 0 soloShape none 0 0 4096 0 1)]
      warps := s.hw.warps ++ [(k, f { newWarp 1 false 64 4 31 0 8 0x18000#64 0 with mode := .handler })] } }
def heldWitnesses : List Bool :=
  let s := caught fun h => h.onPart 0 fun p => { p with imask := 3#2 }
  let t := memo 4 id
  let u := handling false 0x18#64 id
  [meets (.trap 0#7) s fun q => q.w.mode == .user && decide ((s.hw.part (s.hw.partOf q.fn)).phvec ≠ 0#64) && (s.hw.part (s.hw.partOf q.fn)).imask.getLsbD 0,
   meets (.trap 0#7) t fun q => q.slot != 0xFFF && (t.hw.part (t.hw.partOf q.fn)).phvec == 0#64 && decide (t.hw.cmds.map (·.1)).Nodup,
   meets (.trap 0#7) u fun q => q.slot != 0xFFF && q.w.mode == .handler,
   meets (.trap 0#7) (handlerWarp id) fun q => q.slot == 0xFFF && q.w.mode == .handler]
theorem witness_held_and_double : heldWitnesses.all id = true := by decide +kernel

def returningWitnesses : List Bool :=
  [(false, 0x18#64), (true, 0x0E#64), (false, 0x05#64)].map (fun (x : Bool × DWord) =>
    meets .eret (handling x.1 x.2 id) fun q => q.w.mode == .handler && q.slot != 0xFFF && q.w.frame.isSome) ++
  (let s := handling false 0x18#64 id
   [meets (.imask 126#7 12#7) s fun q => q.w.mode == .handler && (s.hw.part (s.hw.partOf q.fn)).heldTraps.isEmpty]) ++
  (let k := wkOf 1 1 0
   let tr : Trap := ⟨0x05#64, 0x10000#64, 8#64, 0#64, 0#64⟩
   let s := handling false 0x18#64 fun h => { (h.onPart 0 fun p => { p with imask := 1#2, heldTraps := [k] }) with
     blocks := h.blocks ++ [(bkOf 1 1, newBlock 0 0 0 1 soloShape none 1 4096 4096 16 1)]
     warps := h.warps ++ [(k, { newWarp 1 false 64 4 1 8 8 0x10000#64 0 with held := some (tr, false) })] }
   [meets (.imask 5#7 14#7) s fun q => q.w.mode == .handler && !(q.w.read (.src 14#7) q.lane0).getLsbD 0 &&
     (s.hw.part (s.hw.partOf q.fn)).heldTraps == [k] && k != q.wk && s.hw.partOf (wkFn k) == s.hw.partOf q.fn &&
     (s.hw.part (s.hw.partOf q.fn)).phvec != 0#64 && decide (tr.c.toNat % 256 ≠ 0x07) && match s.hw.warp? k with
     | some v => v.held == some (tr, false) && v.mode == .user
     | none => false])
theorem witness_returns_from_traps : returningWitnesses.all id = true := by decide +kernel

def regionWitnesses : List Bool :=
  let s := caught id
  let full := caught (onW fun w => { w with region := List.replicate 16 1#16, lost := 255 })
  let asked := caught fun h => h.onFn 1 fun f => { f with dbg := { f.dbg with stopReq := true } }
  let tracing := caught fun h => (({ h with trace := { h.trace with ctl := 1#4 } } : Hw).onFn 1 fun f => { f with dbg := { f.dbg with tren := 8#4 } })
  [meets (.enter 3#2 0x7F#7 0#7) full fun q => full.hw.stopAsked q.wk == (false, false), meets (.enter 0#2 0#7 1#7) s fun q => s.hw.stopAsked q.wk == (false, false),
   meets .leave s fun q => s.hw.stopAsked q.wk == (false, false), meets .leave full fun q => full.hw.stopAsked q.wk == (false, false),
   meets .leave asked fun q => asked.hw.stopAsked q.wk == (true, true) && entersOk asked q,
   meets (.trace false 6#7 7#7 false false) s fun _ => !s.hw.trace.ctl.getLsbD 0,
   meets (.trace false 6#7 7#7 false false) tracing fun q => tracing.hw.trace.ctl.getLsbD 0 && (tracing.hw.fn q.fn).dbg.tren.getLsbD 3 &&
     (tracing.hw.core q.core).trace.recs.length < 16 && (tracing.hw.core q.core).trace.drops == 0]
theorem witness_regions : regionWitnesses.all id = true := by decide +kernel

/-! ## Engine instructions -/

/-- Uniform registers from w0 on (field 96), the rest zero. -/
def uni (l : List Nat) : Hw → Hw := onW fun w => { w with
  uregs := l.zipIdx.filterMap fun x => if x.1 = 0 then none else some (x.2, BitVec.ofNat 32 x.1) }
/-- The engine of queue k takes a command of these words (CanPush). -/
def canPush (s : State) (q : Iss) (k : EngKind) (ws : List Word) : Bool :=
  atRest s && (q.w.queue k).staging.isEmpty && s.hw.ownsEngine q.fn q.core k && !s.hw.roomTaken q.wk 11 (roomKey q.core (some k)) &&
    !s.hw.queueFull q.fn q.core k (pairedCmd (hdrOpc (ws.headD 0#32)) (ws.getD 1 0#32) && q.core % 2 == 0) &&
    (!(ws.headD 0#32).getLsbD 15 || (q.w.queue k).tokens.length + (q.w.queue k).reserved < 16)
def fits (u n : Word) (pair : Bool) : Bool :=
  (u.toNat < 64 || (pair && 256 ≤ u.toNat && u.toNat < 320)) && 16 ≤ n.toNat && n.toNat ≤ 512 && n.toNat % 16 == 0
/-- Units 63 of 512 columns, or the pair's unit 0; a token asked for with 15 places taken. -/
def matrixWitnesses : List Bool :=
  [(63, 512), (0, 16)].flatMap (fun (x : Nat × Nat) =>
    let s := memo 4 fun h => onW (fun w => { w with ehdr := 0x302#32, q0 := { w.q0 with reserved := 15 } }) (uni [x.1, x.2, 0x1000, 0x2000] h)
    ([(.mma 96#7 98#7 99#7, 1), (.mmaP 96#7 98#7 99#7, 2), (.mmaZ 96#7 98#7 99#7, 3), (.mmaPz 96#7 98#7 99#7, 4)] : List (Instr × Nat)).map (fun i =>
      meets i.1 s fun q => fits (groupAt q 96#7 0) (groupAt q 96#7 1) false && !s.hw.wraps q.bk 3 && canPush s q .matrix
        [commandHeader q.w.ehdr 4 i.2 false false, unitWord (groupAt q 96#7 0) (groupAt q 96#7 1) false, groupAt q 98#7 0, groupAt q 99#7 0]) ++
    [meets (.mload 96#7 98#7) s fun q => fits (groupAt q 96#7 0) (groupAt q 96#7 1) false && canPush s q .matrix
        [commandHeader q.w.ehdr 3 7 false false, unitWord (groupAt q 96#7 0) (groupAt q 96#7 1) false, groupAt q 98#7 0]]) ++
  (let s := memo 4 (uni [319, 16, 0x1000])
   [meets (.drain 96#7 98#7) s fun q => fits (groupAt q 96#7 0) (groupAt q 96#7 1) true && canPush s q .matrix
      [commandHeader q.w.ehdr 3 5 false false, unitWord (groupAt q 96#7 0) (groupAt q 96#7 1) true, groupAt q 98#7 0],
    meets (.mzero 96#7) s fun q => fits (groupAt q 96#7 0) (groupAt q 96#7 1) true && canPush s q .matrix
      [commandHeader q.w.ehdr 2 6 false false, unitWord (groupAt q 96#7 0) (groupAt q 96#7 1) true]])
theorem witness_matrix_pushes : matrixWitnesses.all id = true := by decide +kernel
def copyWitnesses : List Bool :=
  let s := memo 4 (uni [0x20000, 0, 0x20400, 0, 0, 0, 0x80000000, 0, 5, 0, 128, 1, 0, 0])
  ([(.copy 5#7 96#7 106#7, .copy, 12, 0x10, false), (.copyo 5#7 96#7 106#7, .copy, 12, 0x11, false), (.copyAt 5#7 96#7 106#7, .copy, 14, 0x10, true),
    (.gather 119#7 96#7 106#7, .ring, 12, 0x20, false)] : List (Instr × EngKind × Nat × Nat × Bool)).map (fun (i, k, n, o, t) =>
      meets i s fun q => !s.hw.wraps q.bk 3 && canPush s q k (copyCommand q n o t 96#7 106#7)) ++
  ([(.send 5#7 96#7, 7, 0x21, false), (.sendAt 5#7 96#7, 9, 0x21, true), (.rred 126#7 96#7, 7, 0x22, false), (.rbcast 5#7 96#7, 7, 0x23, false)] :
    List (Instr × Nat × Nat × Bool)).map (fun (i, n, o, t) => meets i s fun q => !s.hw.wraps q.bk 3 && canPush s q .ring (ringCommand q n o t 96#7))
theorem witness_copy_and_ring_pushes : copyWitnesses.all id = true := by decide +kernel

/-- A guarded unit 9 of the block's grid. -/
def gunit (res gtol : Word) (isSealed : Bool) : GUnit :=
  ⟨1, 5, 0, 0, soloShape, gtol, 0, 1, 0#16, 0, [], none, res, isSealed, false, false, false, 0, 0, false, [], [], []⟩
def taskWitnesses : List Bool :=
  let busy := memo 4 (onW fun w => { w with mseq := 1 })
  let arrive := memo 4 (uni [3 + 4 * 4, 0, 15])           -- KIND 3 on barrier 15, four inputs, all unit 0
  let mult := memo 4 (uni [0 + 4 * 0, 0, 2 + 6 * 32, 0])  -- KIND 0, an MZERO command of two words
  let taskOk (s : State) (q : Iss) : Bool :=
    let v := groupAt q 96#7 0
    let kind := v.toNat % 4
    let ins := (List.range (v.toNat / 4 % 8)).map fun j => (groupAt q 96#7 1).toNat / 256 ^ j % 256
    let n := if kind = 3 then 1 else (groupAt q 98#7 0).toNat % 32
    v.toNat < 32 && v.toNat / 4 % 8 ≤ 4 && (depEngine kind).all (fun k => !hdrBad k (groupAt q 98#7 0) && (q.w.queue k).staging.isEmpty) &&
      q.w.inBounds (Use.group 98#7 n) && (kind != 3 || (groupAt q 98#7 0).toNat % 2 ^ 11 < q.b.shape.bars) &&
      (ins.all fun u => 4096 * (u + 1) ≤ q.b.spBytes) && (s.hw.fcore q.fn q.core).deps.length < 64 && !s.hw.roomTaken q.wk 13 (roomKey q.core none)
  let ready := memo 4 (uni [0x80000000])
  let unit (g : GUnit) := memo 4 fun h => onB (fun b => { b with unit := some 9 }) { h with units := [(9, g)] }
  let g0 := gunit 0x7F800000#32 0x7F800000#32 false
  let g1 := gunit 0x7FC00000#32 0#32 true
  [meets .mwaita (memo 4 id) fun q => q.w.mseq == 0 && q.w.q0.failure.isNone && !(memo 4 id).hw.wraps q.bk 2, meets .mwaita busy fun q => q.w.mseq != 0,
   meets (.task 96#7 98#7) arrive (taskOk arrive), meets (.task 96#7 98#7) mult (taskOk mult),
   meets (.tready 96#7) ready fun q => !ready.hw.wraps q.bk 2 && !ready.hw.elemsOf q.wk && 4096 * ((groupAt q 96#7 0).toNat % 256 + ((groupAt q 96#7 0).toNat / 256 % 256 + 1)) ≤ q.b.spBytes,
   meets (.resid false 12#7 false) (unit g0) fun q => (unit g0).hw.unitOf q.b == some 9 && !g0.sealed && q.w.nbv != 1#32 && g0.res.toNat ≤ 0x7F800000,
   meets (.gchk 7#3) (unit g0) fun q => (unit g0).hw.unitOf q.b == some 9, meets (.gchk 0#3) (unit g1) fun q => (unit g1).hw.unitOf q.b == some 9]
theorem witness_tasks : taskWitnesses.all id = true := by decide +kernel

end Sys2Proof.Tests
end

