-- ==== Sys2Proof/Tests/System.lean ====
section
/-! SUPPORT. Sys2Proof/Tests/System.lean: states that meet the hypotheses of the statements about tags, tables, system
registers, time, translations, caches, halts, images and dumps. -/
set_option Elab.async false
namespace Sys2Proof.Tests

open Sys2Proof.Machine Sys2Proof.Terms

/-- Bytes written to memory: address, size, value. -/
def pokes (l : List (Nat × Nat × Nat)) (s : State) : State :=
  { s with mem := l.foldl (fun m x => pokeBytes m x.1 x.2.1 x.2.2) s.mem }
/-- The page's table entry as well, so that the device translates too. -/
def paged (f : Hw → Hw) : State := pokes [(0x50010, 8, 0x60131)] (memo 4 f)
/-- Handler mode, the page mapped in the handler's context, w0 on holding `l`. -/
def served (l : List Nat) (f : Hw → Hw) : State := handling false 0x18#64 fun h => f ((uni l h).onCore 0 fun c =>
  { c with tlb := [{ page with ctx := 320 }] })

/-! ## Tags, tables -/

/-- Every lane's address is in memory or scratchpad (TilesAt). -/
def tilesAt (s : State) (q : Iss) (wr : Bool) (u : Use) : Bool := q.lanes.all fun n =>
  match Iss.locate s.hw (env s) q ⟨wr, false⟩ (q.w.read64 u n) 1 with
  | .ok (.mem pa, _) => paKind pa == .hbm
  | .ok (.scr _ _, _) => true
  | _ => false
def tagWitnesses : List Bool :=
  let u (a : RField) := (Use.srcC a false false).wide 2
  let s := paged fun h => { h with tags := [(0x60, 0x0003#16)] }
  let t := caught fun h => { h with tags := [(0x60, 0x0003#16)] }
  [meets (.tagrd 5#7 8#7 false) s fun q => tilesAt s q false (u 8#7), meets (.tagrd 126#7 10#7 false) s fun q => tilesAt s q false (u 10#7),
   meets (.tagwr 8#7 126#7 false false) s fun q => tilesAt s q true (u 8#7) && q.w.mode == .user && q.lanes.all fun n =>
     tagOk ((q.rb 126#7 false n).extractLsb' 0 16) && !(q.rb 126#7 false n).getLsbD 13 && !(Tab.getD s.hw.tags 0x60 0#16).getLsbD 13,
   meets (.tagchk 8#7 126#7 false false) s fun q => tilesAt s q false (u 8#7),
   meets (.tagchk 8#7 5#7 false false) (paged (onW fun w => { w with vregs := (1024 * 5 + 3, 0xFFFF1000#32) :: w.vregs })) fun q =>
     q.lanes.any fun n => (0x1000#16 ^^^ (q.rb 5#7 false n).extractLsb' 0 16) &&& (q.rb 5#7 false n).extractLsb' 16 16 == 0#16,
   meets (.tagchk 8#7 12#7 false false) (caught (onW fun w => { w with vregs := w.vregs ++ [] })) fun q => tilesAt t q false (u 8#7),
   meets (.tagchk 8#7 5#7 false false) (caught (onW fun w => { w with vregs := [(1024 * 5 + 2, 0x00010000#32)] ++ w.vregs })) fun q => entersOk t q]
theorem witness_tags : tagWitnesses.all id = true := by decide +kernel

/-- An FP32 record of one element at a base. -/
def recordAt (pa base fmt : Nat) : List (Nat × Nat × Nat) :=
  [(pa, 8, base), (pa + 8, 1, fmt), (pa + 14, 2, 1), (pa + 20, 4, 1), (pa + 24, 4, 1), (pa + 28, 4, 1), (pa + 32, 4, 1), (pa + 51, 1, 1),
    (pa + 52, 2, 1), (pa + 54, 2, 1)]
/-- A method entry for opcode 5 and one operand, of any tag, that it writes. -/
def methodAt (pa : Nat) : List (Nat × Nat × Nat) :=
  [(pa, 2, 0x9005), (pa + 2, 1, 1), (pa + 24, 8, 0x10000), (pa + 32, 1, 1), (pa + 33, 1, 1), (pa + 34, 2, 64), (pa + 39, 1, 1), (pa + 40, 2, 4),
    (pa + 44, 1, 1), (pa + 48, 2, 1)]
/-- Method table at 0x70000, task record at 0x60400, descriptor at 0x60800, its tensor at 0x21000. -/
def tables : State := pokes ([(0x60400, 2, 0x1005), (0x60408, 8, 0x20800)] ++ recordAt 0x60800 0x21000 3 ++ methodAt 0x70000)
  (paged fun h => h.onPart 0 fun p => { p with pmtbase := 0x70000#64, pmtcnt := 1 })
def tableWitnesses : List Bool :=
  let image (l : List (Nat × Nat × Nat)) (g : List Nat) := pokes l (served g fun h => h.onPart 0 fun p => { p with
    pmtbase := 0x70000#64, pmtcnt := 4096, pcvbase := 0x78000#64, pcvcnt := 256 })
  let setOk (s : State) (q : Iss) : Bool :=
    let va := groupAt q 96#7 1 ++ groupAt q 96#7 0
    let n := if (groupAt q 96#7 2).getLsbD 31 then 16 else 64
    q.w.mode == .handler && match Iss.locate s.hw (env s) q ⟨false, false⟩ va n with
    | .ok (.mem pa, leaf) => (Iss.recordStop s.hw q ⟨q.lane0, va, n, .mem pa, leaf⟩).isNone
    | _ => false
  let whole := image (methodAt 0x60400) [0x20400, 0, 4095]
  let empty := image [] [0x20400, 0, 0]
  let conv := image [(0x60407, 1, 0x80)] [0x20400, 0, 0x800000FF]
  let past := image [] [0x20400, 0, 4096 - 1 + 0x80000000]
  [meets (.mdisp 5#7 8#7 false) tables fun q =>
     let va := q.w.read64 ((Use.srcC 8#7 false false).wide 2) q.lane0
     match Iss.locate tables.hw (env tables) q ⟨false, false⟩ va 64 with
     | .ok (.mem pa, leaf) =>
       (Iss.recordStop tables.hw q ⟨q.lane0, va, 64, .mem pa, leaf⟩).isNone &&
       let r := Iss.readHome tables.hw (env tables) q false ⟨q.lane0, va, 64, .mem pa, leaf⟩
       match r.1.lookup (env tables) q.fn false (taskRecBad r.2) (bytesNat r.2 0 2 % 4096)
         ((List.range (bytesNat r.2 0 2 / 4096 % 8)).map fun i => BitVec.ofNat 64 (bytesNat r.2 (8 + 8 * i) 8)) with
       | .entry 0 _ ops _ => ops.length == 1
       | _ => false
     | _ => false,
   meets (.setmt 5#7 96#7) whole (setOk whole), meets (.setmt 126#7 96#7) empty (setOk empty), meets (.setmt 5#7 96#7) conv (setOk conv),
   meets (.setmt 5#7 96#7) past (setOk past)]
theorem witness_tables : tableWitnesses.all id = true := by decide +kernel

/-! ## System registers, counters, time -/

/-- SRD of every register of the statement in handler mode; SWR of each kind at a boundary of its operand; WIN at its ranges' ends. -/
def registerWitnesses : List Bool :=
  let s := served [0xFFFFFFFF, 0xFFFFFFFF, 4, 0xF, 3, 0x8FF, 0, 0] id
  ([0x00, 0x01, 0x02, 0x04, 0x05, 0x07, 0x08, 0x0A, 0x0C, 0x0D, 0x0E, 0x10, 0x20, 0x21, 0x22, 0x23, 0x24, 0x25, 0x30, 0x31, 0x34, 0x35, 0x36, 0x39] :
    List Nat).map (fun n => meets (.srd 62#7 (BitVec.ofNat 7 n)) s fun _ => true) ++
  ([(0x01, 98), (0x02, 100), (0x0C, 96), (0x0E, 99), (0x10, 101), (0x20, 96), (0x21, 96), (0x22, 96), (0x23, 96), (0x24, 96), (0x30, 96), (0x35, 96),
    (0x31, 96), (0x34, 96), (0x36, 96), (0x39, 96), (0x25, 96), (0x04, 102)] : List (Nat × Nat)).map (fun x =>
      meets (.swr (BitVec.ofNat 7 x.1) (BitVec.ofNat 7 x.2) false) s fun q => q.w.mode == .handler &&
        (x.1 != 0x01 || (q.rb 98#7 false q.lane0).toNat % 8 < 5) && (x.1 != 0x02 || (q.rb 100#7 false q.lane0).toNat % 4 != 0) &&
        (x.1 != 0x10 || (q.rb 101#7 false q.lane0).toNat / 2 ^ 9 % 8 < 5) && (x.1 != 0x04 || q.rb 102#7 false q.lane0 == 0#32)) ++
  [meets (.win 7#5 3#2) s fun q => decide (8 * 7 < q.w.vallot ∧ 24 * 3 < 24 * q.w.uwin), meets (.win 0#5 0#2) s fun q => decide (0 < q.w.vallot ∧ 0 < q.w.uwin)]
theorem witness_system_registers : registerWitnesses.all id = true := by decide +kernel

def counterWitnesses : List Bool :=
  let withCtr (c : Ctr) := memo 4 fun h => h.onFn 1 fun f => { f with ctrs := [(3, c)] }
  let full := withCtr { Ctr.reset with sel := 3#32, val := 2 ^ 48 - 1, ovf := true }
  let lost := withCtr { Ctr.reset with lost := true, hold := true }
  let timed := memo 4 fun h => { onP (fun p => { p with yieldTo := some 0, stall := 31 }) h with occ := { Occasion.none with id := wk0 } }
  let three (s : State) := { s with hw := onW (fun w => { w with uregs := [(0, 3#32), (1, 0x0800C001#32)] }) s.hw }
  [meets (.rdctr false 62#7 96#7 false) (three full) fun _ => true, meets (.rdctr false 126#7 96#7 false) (three lost) fun _ => true,
   meets (.ctrctl false 96#7 97#7 false false) (three full) fun q => (q.rb 97#7 false q.lane0).toNat < 2 ^ 29 && !full.hw.trip &&
     !selCounts (q.rb 97#7 false q.lane0) 0 q.core 2 0 && (q.w.poppedRels (.ctrctl false 96#7 97#7 false false)).isEmpty &&
     !(Tab.getD (full.hw.fn q.fn).ctrs ((q.ra 96#7 false false q.lane0).toNat % 4) Ctr.reset).hold,
   meets (.ctrctl false 96#7 97#7 false false) (three lost) fun q =>
     (Tab.getD (lost.hw.fn q.fn).ctrs ((q.ra 96#7 false false q.lane0).toNat % 4) Ctr.reset).hold,
   meets (.tick 62#7) (memo 4 id) fun _ => true, meets .yield (memo 4 id) fun q => !q.p.atJoin && q.p.hold.isNone,
   match timed.hw.warp? timed.hw.occ.id with
   | some v => v.frame.isNone && v.p0.yieldTo == some 0
   | none => false]
theorem witness_counters : counterWitnesses.all id = true := by decide +kernel

/-! ## Translations and caches -/

def invalidateWitnesses : List Bool :=
  let s := served [0x20000, 0, 0x10000, 0, 1] id
  let all := served [0, 0, 0xFFFFFFFF, 0xFFFFFFFF, 320] id
  let none_ := served [0, 0, 0, 0, 1] id
  let done := memo 4 fun h => (onP (fun p => { p with hold := some (2 ^ 60 + 2 * wk0) })
    { h with occ := Occasion.none }).onPart 0 fun p => { p with shooting := [(1, 0x20000, 0x10000, wk0, false)] }
  let ctxOk (s : State) (q : Iss) (c : Nat) : Bool := q.w.mode == .handler && (s.hw.contexts (s.hw.partOf q.fn)).contains c
  [s, all, none_].flatMap (fun s => [meets (.tlbir 96#7) s fun q => ctxOk s q ((groupAt q 96#7 4).toNat % 1024),
    meets (.shoot 96#7) s fun q => ctxOk s q ((groupAt q 96#7 4).toNat % 1024)]) ++
  [meets (.tlbia 100#7) s fun q => ctxOk s q ((q.w.read (.src 100#7) q.lane0).toNat % 1024),
   !done.hw.occ.flag && (done.hw.part done.hw.occ.unit).shooting == [(1, 0x20000, 0x10000, wk0, false)] && !done.hw.undrained 1 0x20000 0x10000 &&
     match done.hw.warp? wk0 with
     | some v => (v.path false).hold == some (2 ^ 60 + 2 * wk0 + false.toNat)
     | none => false]
theorem witness_invalidation : invalidateWitnesses.all id = true := by decide +kernel

/-- L1WB and L1INV of one context and of all; L2CLN of nothing, of an owned range, of everything. -/
def cacheWitnesses : List Bool :=
  [1, 320, 0x3FF].flatMap (fun (c : Nat) =>
    let s := served [c] cached
    [meets (.l1wb 96#7) s fun q => q.w.mode == .handler && s.hw.owners.isEmpty && (q.ctxArg s.hw 96#7).isSome && decide (((s.hw.core q.core).l1.map (·.1)).Nodup),
     meets (.l1inv 96#7) s fun q => q.w.mode == .handler && (q.ctxArg s.hw 96#7).isSome]) ++
  [[0x60000, 0, 0, 0], [0x60000, 0, 0x10000, 0], [0, 0, 0xFFFFFFFF, 0xFFFFFFFF]].map (fun (l : List Nat) =>
    let s := served l id
    meets (.l2cln 96#7) s fun q =>
      let base := (groupAt q 96#7 1 ++ groupAt q 96#7 0).toNat
      let len := (groupAt q 96#7 3 ++ groupAt q 96#7 2).toNat
      q.w.mode == .handler && (len == 0 || len == 2 ^ 64 - 1 || (s.hw.part (s.hw.partOf q.fn)).ownsRange base len))
theorem witness_caches : cacheWitnesses.all id = true := by decide +kernel

/-- The dirty bytes of two contexts of one core do not meet: only context 1 has any. -/
theorem dirty_of_two {a b c : Nat} {x y : L1Line} (hx : x.dirty = 0#128) (h : a ≠ b) :
    (Tab.getD [(a, x), (b, y)] c L1Line.empty).dirty = if c = b then y.dirty else 0#128 := by
  by_cases e : c = a
  · subst e; rw [if_neg h]; simp [Tab.getD, Tab.find?, hx]
  · by_cases f : c = b
    · subst f; rw [if_pos rfl]; simp [Tab.getD, Tab.find?, h]
    · rw [if_neg f]; simp [Tab.getD, Tab.find?, Ne.symm e, Ne.symm f, L1Line.empty]
theorem cached_dirty (g : Hw) (k m : Nat) :
    ((cached g).l1 0 k m).dirty = if l1Key k m = l1Key 1 (lineOf 0x60400) then 1#128 <<< 127 else 0#128 := by
  have e : (cached g).l1 0 k m = Tab.getD ((cached g).core 0).l1 (l1Key k m) L1Line.empty := rfl
  rw [e, cached, Hw.core_onCore_same]
  exact dirty_of_two rfl (by decide)
theorem l1Key_apart {c d n k : Nat} (h : c ≠ d) (hc : l1Key c n = k) (hd : l1Key d n = k) : False := by
  unfold l1Key at *
  omega
theorem cached_apart (g : Hw) (c d n : Nat) (h : c ≠ d) : ((cached g).l1 0 c n).dirty &&& ((cached g).l1 0 d n).dirty = 0#128 := by
  rw [cached_dirty, cached_dirty]
  generalize l1Key 1 (lineOf 0x60400) = b
  split
  · rename_i hc
    rw [if_neg fun hd => l1Key_apart h hc hd]; simp
  · simp

/-! ## Halts, images, dumps -/

/-- An address in the page as a number. -/
theorem isScr_low (n : Nat) (h : n < 2 ^ 32) : isScr (BitVec.ofNat 64 n) = false := by
  have e : (BitVec.ofNat 64 n).extractLsb' 56 8 = 0#8 := by
    apply BitVec.eq_of_toNat_eq
    simp only [BitVec.extractLsb'_toNat, BitVec.toNat_ofNat, Nat.shiftRight_eq_div_pow]
    omega
  simp [isScr, e]
theorem canonical_low (n : Nat) (h : n < 2 ^ 32) : canonical (BitVec.ofNat 64 n) = true := by
  have e : (BitVec.ofNat 64 n).extractLsb' 57 7 = 0#7 := by
    apply BitVec.eq_of_toNat_eq
    simp only [BitVec.extractLsb'_toNat, BitVec.toNat_ofNat, Nat.shiftRight_eq_div_pow]
    omega
  have f : (BitVec.ofNat 64 n).getLsbD 56 = false := by
    simp only [BitVec.getLsbD_ofNat]
    rw [Nat.testBit_lt_two_pow (by omega)]; rfl
  unfold canonical
  rw [e, f]
  rfl

/-- A buffer in the page, from its first byte (BufferAt). -/
theorem buffer_in_page {s : State} {q : Iss} {len : Nat} (hl : len < 0x10000)
    (ht : (s.hw.core q.core).tlb = [⟨Iss.ctx s.hw q, 0x20000, 16, 0x60131#64⟩]) : BufferAt s q true 0x20000#64 len 0x60000 := by
  refine ⟨by decide, by omega, fun x n hx hn => ?_⟩
  have h0 : x < 0x10000 := by omega
  · have ev : (0x20000#64 + BitVec.ofNat 64 x : DWord) = BitVec.ofNat 64 (0x20000 + x) := by
      apply BitVec.eq_of_toNat_eq; simp only [BitVec.toNat_add, BitVec.toNat_ofNat]; omega
    have en : (BitVec.ofNat 64 (0x20000 + x)).toNat % 2 ^ 57 = 0x20000 + x := by simp only [BitVec.toNat_ofNat]; omega
    have hit : Tlb.hits (Iss.ctx s.hw q) (0x20000 + x) ⟨Iss.ctx s.hw q, 0x20000, 16, 0x60131#64⟩ = true := by
      simp only [Tlb.hits, beq_self_eq_true, Bool.true_and, beq_iff_eq]; omega
    have hc : s.hw.cached q.core (Iss.ctx s.hw q) (0x20000 + x) = some 0x60131#64 := by
      simp [Hw.cached, ht, hit]
    rw [ev, en, hc]
    refine ⟨rfl, 0x60131#64, ?_⟩
    have hp : ∀ m, permitted ⟨true, false, m, false⟩ 0x60131#64 (0x60000 + x) = true := by
      intro m
      have a : paKind (0x60000 + x) = .hbm := by simp only [paKind]; rw [if_pos (by omega)]
      have b : inSaveReserve (0x60000 + x) = false := by
        simp only [inSaveReserve, decide_eq_false_iff_not]; omega
      have d : leafPermits ⟨true, false, m, false⟩ 0x60131#64 = true := by cases m <;> decide
      simp [permitted, d, mapPermits, a, b]
    have fr : Leaf.frame 0x60131#64 + (0x20000 + x) % 2 ^ Leaf.lg 0x60131#64 = 0x60000 + x := by
      have l : Leaf.lg 0x60131#64 = 16 := by decide
      have f : Leaf.frame 0x60131#64 = 0x60000 := by decide
      rw [l, f]; omega
    simp only [Iss.locate, isScr_low _ (show 0x20000 + x < 2 ^ 32 by omega), Bool.false_eq_true, if_false, Hw.translate,
      canonical_low _ (show 0x20000 + x < 2 ^ 32 by omega), Bool.not_true, Hw.leafFor, en, hc, fr, hp, if_true]
    simp

/-- The block halts, resumes, kills itself and another block, ends a warp of the other; a resume of a running block, a warp that is not there. -/
def haltWitnesses : List Bool :=
  let two (g : Nat) (x : Block → Block) (l : List Nat) := served l fun h => { h with
    blocks := h.blocks ++ [(bkOf 1 127, x (newBlock g 0 0 1 soloShape none 1 4096 4096 16 1))]
    warps := h.warps ++ [(wkOf 1 127 0, newWarp 1 false 64 4 1 8 8 0x10000#64 0)] }
  let ok (s : State) (q : Iss) : Bool := match q.haltFn s.hw with
    | none => false
    | some f =>
      let slot := (groupAt q 96#7 0).toNat % 4096
      q.w.mode == .handler && slot < 2560 && (s.hw.part (s.hw.partOf q.fn)).owns.rings.getLsbD (slot / 128) &&
        match s.hw.block? (bkOf f slot) with
        | some b => b.gen == (groupAt q 96#7 0).toNat / 2 ^ 12 % 8
        | none => false
  [(0, id, [0, 2]), (0, id, [0, 0]), (7, id, [127 + 7 * 2 ^ 12, 0]), (7, (fun (b : Block) => { b with halted := true }), [127 + 7 * 2 ^ 12, 1]),
    (7, id, [127 + 7 * 2 ^ 12, 1]), (7, id, [127 + 7 * 2 ^ 12, 2]), (7, id, [127 + 7 * 2 ^ 12, 3]), (7, id, [127 + 7 * 2 ^ 12 + 31 * 2 ^ 15, 3])].map
    fun (x : Nat × (Block → Block) × List Nat) => meets (.haltb 5#7 96#7) (two x.1 x.2.1 x.2.2) (ok (two x.1 x.2.1 x.2.2))
theorem witness_halts : haltWitnesses.all id = true := by decide +kernel

/-- A small warp in handler mode, w0:w1 the page's address, its saved shape there. -/
def saving (f : Hw → Hw) : State := pokes [(0x60000, 4, 1 + 2 ^ 12 + 8 * 2 ^ 18 + 4 * 2 ^ 27)]
  (served [0x20000, 0] fun h => f (onW (fun w => { w with vallot := 8, trapc := 0x07#64 }) h))
theorem saving_atRest : AtRest (saving id) := atRest_sound (by decide +kernel)
theorem witness_image_saved : ∃ q, Issues (.ctxsv 96#7) (saving id) q ∧ q.w.mode = .handler ∧ AtRest (saving id) ∧
    (q.w.read64 ((Use.src 96#7).wide 2) q.lane0).toNat % 256 = 0 ∧
    BufferAt (saving id) q true (q.w.read64 ((Use.src 96#7).wide 2) q.lane0) q.w.imageLen 0x60000 := by
  obtain ⟨q, h, p⟩ := meets_issues (i := .ctxsv 96#7) (s := saving id) (p := fun q => q.w.mode == .handler &&
    q.w.read64 ((Use.src 96#7).wide 2) q.lane0 == 0x20000#64 && decide (q.w.imageLen < 0x10000) &&
    ((saving id).hw.core q.core).tlb == [⟨Iss.ctx (saving id).hw q, 0x20000, 16, 0x60131#64⟩]) (by decide +kernel)
  simp only [Bool.and_eq_true, beq_iff_eq, decide_eq_true_eq] at p
  refine ⟨q, h, p.1.1.1, saving_atRest, by rw [p.1.1.2]; decide, ?_⟩
  rw [p.1.1.2]
  exact buffer_in_page p.1.2 p.2
theorem saving_flights : (saving id).hw.flights = [] := by decide +kernel
theorem witness_dump : ∃ q, Issues (.dumpw 96#7) (saving id) q ∧ q.w.mode = .handler ∧ q.slot ≠ 0xFFF ∧ Room (saving id) q 2 ∧ AtRest (saving id) ∧
    (∀ f ∈ (saving id).hw.flights, f.2.kind = .late → wkBlock f.2.wk ≠ q.bk) ∧
    (q.w.read64 ((Use.src 96#7).wide 2) q.lane0).toNat % 4096 = 0 ∧ (saving id).hw.startedCmds q.bk = 0 ∧
    (saving id).hw.blockElems q.bk = false ∧ (saving id).hw.block? q.bk = some q.b ∧
    BufferAt (saving id) q true (q.w.read64 ((Use.src 96#7).wide 2) q.lane0) (dumpLength (saving id) q) 0x60000 := by
  obtain ⟨q, h, p⟩ := meets_issues (i := .dumpw 96#7) (s := saving id) (p := fun q => q.w.mode == .handler &&
    q.w.read64 ((Use.src 96#7).wide 2) q.lane0 == 0x20000#64 && decide (dumpLength (saving id) q < 0x10000) &&
    ((saving id).hw.core q.core).tlb == [⟨Iss.ctx (saving id).hw q, 0x20000, 16, 0x60131#64⟩] && decide (q.slot ≠ 0xFFF) &&
    !(saving id).hw.wraps q.bk 2 && (saving id).hw.startedCmds q.bk == 0 && !(saving id).hw.blockElems q.bk &&
    (saving id).hw.block? q.bk == some q.b) (by decide +kernel)
  simp only [Bool.and_eq_true, beq_iff_eq, decide_eq_true_eq, Bool.not_eq_true'] at p
  refine ⟨q, h, p.1.1.1.1.1.1.1.1, p.1.1.1.1.2, p.1.1.1.2, saving_atRest, fun f hf => ?_, ?_, p.1.1.2, p.1.2, p.2, ?_⟩
  · exact absurd hf (by rw [saving_flights]; simp)
  · rw [p.1.1.1.1.1.1.1.2]; decide
  · rw [p.1.1.1.1.1.1.1.2]
    exact buffer_in_page p.1.1.1.1.1.1.2 p.1.1.1.1.1.2
def imageWitnesses : List Bool :=
  let s := saving id
  let busy := saving fun h => { h with cmds := [(4, { cmd .copy 0x10 [] with started := true })] }
  [meets (.ctxld 96#7) s fun q => q.w.mode == .handler && atRest s && match Iss.getBuf s.hw (env s) q (q.w.read64 ((Use.src 96#7).wide 2) q.lane0) q.w.imageLen with
    | .ok bs => (q.bufPoisoned s.hw (env s) (q.w.read64 ((Use.src 96#7).wide 2) q.lane0) q.w.imageLen).isNone &&
      leNat (bs.take 4) == q.wshape.toNat
    | .error _ => false,
   meets (.dumpw 96#7) busy fun q => q.slot != 0xFFF && (q.w.read64 ((Use.src 96#7).wide 2) q.lane0).toNat % 4096 == 0 &&
     busy.hw.startedCmds q.bk != 0,
   meets .racew s fun q => q.w.mode == .handler && q.w.trapc.toNat % 256 == 0x07]
theorem witness_images : imageWitnesses.all id = true := by decide +kernel

end Sys2Proof.Tests
end

