-- ==== Sys2Proof/Tests/Package.lean ====
section
/-! SUPPORT. Sys2Proof/Tests/Package.lean: states that meet the hypotheses of the statements about steps of the package:
resets, links, clocks, timed actions, counters, host accesses, registers, datagrams and queues. -/
set_option Elab.async false
namespace Sys2Proof.Tests

open Sys2Proof.Machine Sys2Proof.Terms

def inv (s : State) : Bool := Memory.wf s.mem && s.hw.wq.isEmpty
/-- The premise that every step of the package shares. -/
theorem inv_sound {s : State} (h : inv s = true) : s.Inv := by
  simp only [inv, Bool.and_eq_true] at h
  exact ⟨h.1, List.isEmpty_iff.mp h.2⟩
/-- The step about `o`, at tick `n`: the package and the partition are at work, the page is open to the host. -/
def turn (n : Nat) (o : Occasion) (f : Hw → Hw) : State :=
  let s := pokes [(0x50010, 8, 0x601B1)] (memo 4 fun h =>
    { f (({ h with boot := { h.boot with ready := true } } : Hw).onPart 0 fun p => { p with quiet := false }) with occ := o })
  { s with clk := { s.clk with tick := n } }
def occ (unit id aux : Nat) : Occasion := { Occasion.none with unit := unit, id := id, aux := aux }
def fn1 (g : Fn → Fn) (h : Hw) : Hw := h.onFn 1 g

/-! ## Package, links, clocks (PackageAndHeat) -/

def packageWitnesses : List Bool :=
  [(0, 0, false), (0, 1, false), (3, 2, false), (3, 2, true), (2047, 3, false), (0x8FFFFFF, 4, false)].map (fun (x : Nat × Nat × Bool) =>
    let s := turn 0 { occ x.1 0 x.2.1 with flag := x.2.2 } id
    inv s && Tab.rising s.hw.fns && s.hw.occ.aux == x.2.1 && s.hw.occ.flag == x.2.2 && (x.2.1 != 4 || paKind (4096 * s.hw.occ.unit) == .hbm)) ++
  [(1, 1), (7, 16)].map (fun (x : Nat × Nat) =>
    let s := turn 0 (occ x.1 x.2 0) id
    inv s && 1 ≤ s.hw.occ.unit && s.hw.occ.unit ≤ 7 && [1, 2, 4, 8, 16].contains s.hw.occ.id) ++
  [(turn 0 (occ 1 0 3) fun h => h.onFn 1 fun f => { f with dbg := { f.dbg with locks := [0] } })].map fun s =>
    inv s && Tab.rising s.hw.fns && (s.hw.part (s.hw.partOf 1)).rings.contains 0 && (s.hw.fn 1).dbg.locks.contains 0
theorem witness_package : packageWitnesses.all id = true := by decide +kernel

/-! ## Credits, timed actions, counters (CreditsAndTimedActions) -/

/-- Credit earned at tick `a`, rivals at work last at tick 0; in the running slice, with work, or not. -/
def credited (n a : Nat) (work run : Bool) : State := turn n (occ 1 0 0) fun h =>
  let h := (fn1 (fun f => { f with wake := { f.wake with credit := 5000, earned := [(a, 5000)] } }) h).onPart (h.partOf 1) fun p =>
    { p with running := if run then some 1 else none }
  if work then h else { h with blocks := [], warps := [] }
def creditWitnesses : List Bool :=
  let young (s : State) := inv s && (s.hw.fn 1).wake.earned.all fun x => decide (s.clk.tick < x.1 + 100000000)
  let due (s : State) (work run lost : Bool) := inv s && !(s.hw.fn 1).wake.earned.isEmpty && s.hw.hasWork 1 == work &&
    ((s.hw.fn 1).wake.earned.all fun x => decide (x.1 + 100000000 ≤ s.clk.tick) && (!s.hw.hasWork 1 || decide ((s.hw.fn 1).wake.rivalAt < x.1)) == lost) &&
    ((s.hw.part (s.hw.partOf 1)).running == some 1) == run
  [young (credited 99999999 0 true true), due (credited 100000000 0 false false) false false true, due (credited 100000001 1 true true) true true true,
   due (credited 100000000 0 true true) true true false, due (credited 100000000 0 true false) true false false]
theorem witness_credits : creditWitnesses.all id = true := by decide +kernel

/-- A wait, a command and a grid for tick 0, which every core's tick has reached. -/
def timedWitnesses : List Bool :=
  let a := turn 0 (occ 0 wk0 0) (onP fun p => { p with wakeAt := some 0 })
  let c := { cmd .copy 0x10 [] with at_ := some 0, fired := false }
  let b := turn 0 (occ 0 4 1) fun h => { h with cmds := [(4, c)] }
  let g := { Grid.plain .launch 1 1 1#64 soloShape with startAt := some 0 }
  let d := turn 0 (occ 0 0 2) fun h => { h.onPart 0 (fun p => { p with running := none }) with grids := [(0, g)] }
  [inv a && a.hw.occ.aux == 0 && (match a.hw.warp? a.hw.occ.id, a.hw.block? (wkBlock a.hw.occ.id) with
     | some w, some _ => (w.path a.hw.occ.flag).wakeAt == some 0
     | _, _ => false),
   inv b && b.hw.occ.aux == 1 && Tab.find? b.hw.cmds b.hw.occ.id == some c && c.at_ == some 0 && !c.fired,
   inv d && d.hw.occ.aux == 2 && (d.hw.grid? d.hw.occ.id) == some g && (d.hw.block? bk0).any (·.grid == d.hw.occ.id) && !d.hw.runs g.fn]
theorem witness_timed_actions : timedWitnesses.all id = true := by decide +kernel

def selectWitnesses : List Bool :=
  let s (hold : Bool) (f n v : Nat) := turn 0 { occ f n 0 with val := BitVec.ofNat 256 v } fun h =>
    h.onFn f fun x => { x with ctrs := [(3, { Ctr.reset with hold := hold, lost := true })] }
  [false, true].flatMap (fun b => [(1, 0), (1, 2 ^ 29 - 1), (1, 2 ^ 29), (256, 2 ^ 29 + 3)].map fun (x : Nat × Nat) =>
    let t := s b x.1 7 x.2
    inv t && 1 ≤ t.hw.occ.unit && t.hw.occ.unit ≤ 256 && (Tab.getD (t.hw.fn x.1).ctrs (t.hw.occ.id % 4) Ctr.reset).hold == b) ++
  [(let t := s false 1 7 (2 ^ 29 - 1); decide (t.hw.occ.val.toNat < 2 ^ 29)), (let t := s false 1 7 (2 ^ 29); t.hw.occ.val.getLsbD 29),
   (let t := turn 0 (occ 0 wk0 0) (onP fun p => { p with ready := 16384 })
    inv t && match t.hw.warp? t.hw.occ.id with
    | some w => (w.path t.hw.occ.flag).live && 16384 ≤ (w.path t.hw.occ.flag).ready
    | none => false)]
theorem witness_selections : selectWitnesses.all id = true := by decide +kernel

/-! ## Host accesses (HostAccesses) -/

/-- VF 1's BAR 2 shows its page at 0x20000. -/
def shown : Occasion → (Hw → Hw) → State := turn 50000
/-- HostReaches. -/
def hostReaches (s : State) (a : HeldAccess) (p : Nat → Bool) : Bool :=
  inv s && !s.hw.occ.flag && s.hw.reaches a.fn a.off a.size && (s.hw.fn a.fn).wake.state == .active &&
    s.hw.window a.fn a.off == .memory && match s.hw.hostPlace (env s) a with
    | .ok (pa, l, _) => !s.hw.blocked a.fn s.hw.nextId l pa a.size &&
      !s.hw.behindHost s.hw.heldAcc { a with homes := s.hw.homesOf a.fn l pa a.size } && p pa
    | .error _ => false
theorem hostReaches_sound {s : State} {a : HeldAccess} {p : Nat → Bool} (h : hostReaches s a p = true) : ∃ pa l va, HostReaches s a pa l va ∧ p pa = true := by
  simp only [hostReaches, Bool.and_eq_true, Bool.not_eq_true', beq_iff_eq] at h
  obtain ⟨⟨⟨⟨⟨h1, h2⟩, h3⟩, h4⟩, h5⟩, h6⟩ := h
  split at h6
  · rename_i pa l va e
    simp only [Bool.and_eq_true, Bool.not_eq_true'] at h6
    exact ⟨pa, l, va, ⟨inv_sound h1, h2, h3, h4, h5, e, h6.1.1, h6.1.2⟩, h6.2⟩
  · simp at h6
def hostWitnesses : List Bool :=
  let calm := onP id
  [(0, 1), (0xFFF, 1), (0x1000, 64), (0xFFC0, 64)].flatMap (fun (x : Nat × Nat) =>
    let r := shown (occ 1 (0x20000 + x.1) x.2) calm
    let w := shown { occ 1 (0x20000 + x.1) 0 with bytes := List.replicate x.2 0x5A#8 } calm
    [hostReaches r (hostAccess r false r.hw.occ.aux none) fun pa => !(linesOf pa x.2).any r.hw.poison.contains,
     hostReaches w (hostAccess w true w.hw.occ.bytes.length none) fun _ => true]) ++
  [0, 1, 2].flatMap (fun (op : Nat) => [4, 8].map fun (n : Nat) =>
    let s := shown { occ 1 0x20408 op with bytes := List.replicate n 0x5A#8 } calm
    let a := hostAccess s true s.hw.occ.bytes.length (some s.hw.occ.aux)
    hostReaches s a fun _ => a.size == n && a.off % n == 0) ++
  [(let s := shown (occ 1 0xC0000 64) calm
    inv s && s.hw.reaches 1 0xC0000 64 && (s.hw.fn 1).wake.state == .active && s.hw.window 1 0xC0000 == .journal 0),
   (let s := shown { occ 1 0xFFF 2 with bytes := [1#8, 2#8] } calm; inv s && !s.hw.reaches 1 0xFFF 2 && s.hw.occ.bytes.length == 2),
   (let a : HeldAccess := ⟨1, false, 0, [], 4, none, 0#64, 10000, [], 0, []⟩
    let s := shown (occ 1 0 0) fun h => { h with heldAcc := [a] }
    inv s && (s.hw.heldAcc.find? fun a => decide (a.since + 40000 ≤ s.clk.tick)) == some a && (s.hw.fn a.fn).jFree && (s.hw.fn a.fn).jbuf.isEmpty),
   (let x := { element .cas none (some 7) true with intv := 10000 }
    let s := shown (occ 1 0 0) fun h => h.onRing 0 fun r => { r with retq := [x] }
    inv s && s.hw.heldAcc.isEmpty && s.hw.staleAtom (env s) == some (0, x))]
theorem witness_host_accesses : hostWitnesses.all id = true := by decide +kernel

/-- A page of host memory at VA 0x30000, one of its lines in L2. -/
def hosted : State := pokes [(0x50018, 8, 0x8000000000031)]
  (turn 0 { occ 1 0 0 with val := 0x30080#256 } fun h => { h with l2 := [⟨lineOf 0x8000000000080, 1, 1, .normal, false, 0⟩] })
def snoopWitnesses : List Bool :=
  let va := hosted.hw.occ.val.toNat % 2 ^ 64 % 2 ^ 57
  [inv hosted && match hosted.hw.leafFor (env hosted) frontEnd hosted.hw.occ.unit va with
   | .ok l => paKind (Leaf.frame l + va % 2 ^ Leaf.lg l) == .host && hosted.hw.l2.any fun x => x.line == lineOf (Leaf.frame l + va % 2 ^ Leaf.lg l)
   | .error _ => false]
theorem witness_snoop : snoopWitnesses.all id = true := by decide +kernel

end Sys2Proof.Tests
end

