-- ==== Sys2Proof/Tests/Queues.lean ====
section
/-! SUPPORT. Sys2Proof/Tests/Queues.lean: states that meet the hypotheses of the statements about registers, datagrams,
submission queues and the commands that they carry. -/
set_option Elab.async false
namespace Sys2Proof.Tests

open Sys2Proof.Machine Sys2Proof.Terms

/-! ## Registers, datagrams (RegistersAndFabric) -/

def regWitnesses : List Bool :=
  let acc (f off n : Nat) := turn 0 (occ f off n) id
  let ok (f off n : Nat) (r : Reg) := let s := acc f off n; inv s && s.hw.regOk f s.hw.occ.id s.hw.occ.aux && regAt f (off / 8 * 8) == r
  [inv (acc 1 2 4) && !(acc 1 2 4).hw.regOk 1 2 4, inv (acc 0 0x400000 8) && !(acc 0 0x400000 8).hw.regOk 0 0x400000 8,
   inv (acc 7 0 8) && !(acc 7 0 8).hw.regOk 7 0 8,
   ok 1 0x1000 8 (.intr 0), ok 1 0x1008 4 (.intr 8), ok 1 0x28 8 (.function 0x028), ok 1 0x2000 8 .rsv, ok 0 0x3FFFF8 8 .rsv, ok 1 0x20010 8 (.journal 0x010),
   ok 0 0x107FC8 8 (.fab 256 0x48), ok 0 0x143FA0 8 (.part 63 0xA0), ok 0 0x1400D8 8 (.part 0 0xD8), ok 0 0x152018 8 (.race 256 0x18),
   ok 0 0x150018 4 (.race 0 0x18), ok 0 0x40110 8 (.debug 0x110)]
theorem witness_registers : regWitnesses.all id = true := by decide +kernel

/-- A field in a list of bytes: where, size, value. -/
def image (n : Nat) (l : List (Nat × Nat × Nat)) : List Byte := (List.range n).map fun i =>
  match l.find? fun x => decide (x.1 ≤ i) && decide (i < x.1 + x.2.1) with
  | some x => BitVec.ofNat 8 (x.2.2 / 256 ^ (i - x.1))
  | none => 0#8
/-- The bytes of a datagram for VF 1 before its MAC. -/
def datagram : List Byte := image 80 [(0, 1, 1), (2, 2, 1), (8, 8, 5)]
def mac (key : BitVec 256) : BitVec 128 :=
  Config.kmac256 key ("YUTAL-FL".toUTF8.toList.map fun c => BitVec.ofNat 8 c.toNat) (natBe 16 0 ++ natBe 2 0 ++ datagram)
/-- Its validation entry admits every source and NOP. -/
def validating (bs : List Byte) : State := turn 0 { occ 2 0 0 with bytes := bs } (fn1 fun x => { x with fab := { x.fab with en := true, ops := 1#8 } })
theorem natLe_length (n v : Nat) : (natLe n v).length = n := by induction n generalizing v <;> simp_all [natLe]
theorem leNat_natLe (n v : Nat) (h : v < 256 ^ n) : leNat (natLe n v) = v := by
  induction n generalizing v with
  | zero => simp at h; simp [natLe, leNat, h]
  | succ n ih =>
    rw [natLe, leNat, ih _ (by rw [Nat.pow_succ] at h; omega), BitVec.toNat_ofNat]
    omega
theorem fabCode_of_datagram (tl : List Byte) (hl : tl.length = 16) (hm : leNat tl = (mac 0#256).toNat) :
    (validating (datagram ++ tl)).hw.fabCode 0#128 0 (datagram ++ tl) = 0 := by
  have hd : datagram.length = 80 := by decide
  have field : ∀ k n, k + n ≤ 80 → bytesNat (datagram ++ tl) k n = bytesNat datagram k n := by
    intro k n h
    unfold bytesNat
    rw [List.drop_append_of_le_length (by omega), List.take_append_of_le_length (by rw [List.length_drop]; omega)]
  have ht : (datagram ++ tl).take 80 = datagram := by rw [List.take_append_of_le_length (by omega), List.take_of_length_le (by omega)]
  have hr : (datagram ++ tl).drop 80 = tl := by rw [List.drop_append_of_le_length (by omega), List.drop_of_length_le (by omega)]; rfl
  have hfn : (validating (datagram ++ tl)).hw.fns = (validating []).hw.fns := rfl
  unfold Hw.fabCode
  simp only [field 1 1 (by omega), field 4 4 (by omega), field 2 2 (by omega), field 16 1 (by omega), field 0 1 (by omega), field 8 8 (by omega), ht, hr, List.length_append, hd, hl, Hw.fn, hfn]
  have hmac : Config.kmac256 (Tab.getD (validating []).hw.fns (bytesNat datagram 2 2) Fn.reset).fab.key
      ("YUTAL-FL".toUTF8.toList.map fun c => BitVec.ofNat 8 c.toNat) (natBe 16 (0#128).toNat ++ natBe 2 0 ++ datagram) = BitVec.ofNat 128 (leNat tl) := by
    rw [hm, BitVec.ofNat_toNat, BitVec.setWidth_eq]; rfl
  rw [hmac]
  simp only [ne_eq, not_true_eq_false, if_false]
  decide +kernel

/-- A datagram that passes every check, and one that is too short. -/
theorem witness_datagrams : (∃ s : State, s.Inv ∧ s.hw.boot.ready = true ∧ s.hw.occ.flag = false ∧
      s.hw.fabCode (s.hw.occ.val.setWidth 128) s.hw.occ.aux s.hw.occ.bytes = 0 ∧
      let f := bytesNat s.hw.occ.bytes 2 2
      (s.hw.part (s.hw.partOf f)).quiescing = false ∧ (s.hw.part (s.hw.partOf f)).quiet = false ∧ (s.hw.fn f).jFree = true ∧ (s.hw.fn f).jbuf = []) ∧
    ∃ s : State, s.Inv ∧ s.hw.boot.ready = true ∧ s.hw.occ.flag = false ∧ s.hw.fabCode (s.hw.occ.val.setWidth 128) s.hw.occ.aux s.hw.occ.bytes ≠ 0 := by
  refine ⟨⟨validating (datagram ++ natLe 16 (mac 0#256).toNat), ?_, rfl, rfl, ?_, ?_⟩, validating [], inv_sound (by decide +kernel), rfl, rfl, by decide +kernel⟩
  · have h := inv_sound (s := validating []) (by decide +kernel)
    exact ⟨h.1, h.2⟩
  · exact fabCode_of_datagram _ (by rw [natLe_length]) (leNat_natLe 16 _ (mac 0#256).isLt)
  · have e : bytesNat (datagram ++ natLe 16 (mac 0#256).toNat) 2 2 = 1 := by
      unfold bytesNat
      rw [List.drop_append_of_le_length (by decide), List.take_append_of_le_length (by decide)]; decide
    show let f := bytesNat (datagram ++ natLe 16 (mac 0#256).toNat) 2 2; _
    rw [e]
    decide +kernel

/-! ## Queues (QueuesAndAcceptance) -/

/-- Queue 15 of the function as `q`, an image of its memory at host address 0x100000. -/
def queued (o : Occasion) (g : SQ → SQ) (f : Fn → Fn) (bs : List (Nat × Nat × Nat)) : State :=
  pokes bs (turn 0 o fun h => (h.onSq 1 15 fun q => g { q with base := 0x100000#64, log2 := 16, en := true, wr := 65535 }).onFn 1 fun x =>
    f { x with bind := { x.bind with winlo := 0x100000#64, winhi := 0x1000000#64 } })
def queueWitnesses : List Bool :=
  let s (o : Occasion) (g : SQ → SQ) (f : Fn → Fn) (p : State → Bool) : Bool := let s := queued o g f []; inv s && s.hw.occ.unit == 1 && s.hw.occ.id % 16 == 15 && p s
  let o := occ 1 15 0
  let q (s : State) := s.hw.sq 1 15
  let waiting (x : Fn) : Fn := { x with cmds := [(1, ⟨15, [], false, none, none, 0, 0, [], []⟩), (2, ⟨15, [], true, none, none, 0, 0, [], []⟩)], jnext := 3
                                        journal := [(1, ⟨1, 1, 1, 15, 0, 0, false, 0, 0, 0⟩), (2, ⟨2, 1, 2, 15, 0, 0, false, 0, 0, 0⟩)] }
  [s o (fun q => { q with en := false }) id fun s => !(q s).en && s.hw.queueCode 1 (q s) == 0, s o id id fun s => (q s).en && !(q s).err && s.hw.accepts 1,
   s o (fun q => { q with en := false, log2 := 17 }) id fun s => !(q s).en && s.hw.queueCode 1 (q s) != 0,
   s o (fun q => { q with en := false, err := true }) id fun s => (q s).err,
   s o (fun q => { q with en := false }) (fun x => { x with wake := { x.wake with state := .collapsed } }) fun s => (s.hw.fn 1).wake.state != .active,
   s { o with val := 65535#256 } id id fun s => (q s).en, s { o with val := 0#256 } (fun q => { q with en := false }) id fun s => !(q s).en,
   s o id waiting fun s => Tab.rising (s.hw.fn 1).cmds && (s.hw.fn 1).jbuf.isEmpty && (match Tab.find? (s.hw.fn 1).cmds 1, Tab.find? (s.hw.fn 1).journal 1 with
     | some c, some j => !c.disp && j.seq == 1 && !j.terminal
     | _, _ => false),
   s o id id fun s => s.hw.fetches 1 15, s o id id fun s => s.hw.boot.ready]
theorem witness_queues : queueWitnesses.all id = true := by decide +kernel

def fetchWitnesses : List Bool :=
  [(0, true), (8, false)].map (fun (x : Nat × Bool) =>
    let s := queued (occ 1 15 0) (fun q => { q with rd := 65534 }) id [(0x8000000000000 + 0x100000 + 64 * 65534, 1, x.1)]
    inv s && s.hw.fetches 1 15 && (s.hw.fn 1).jFree && (s.hw.fn 1).jbuf.isEmpty &&
      !s.hw.poison.contains (lineOf (hostPa (s.hw.sq 1 15).base + 64 * (s.hw.sq 1 15).rd)) &&
      (s.hw.acceptStatus (env s) 1 (nextFetch s 1 15) == 0) == x.2) ++
  [(0x100000, 0, true), (0xFF8000, 0, true), (0xFF8001, 0, false), (0x100000, 0x200000, true), (0x100000, 0x100, false)].map (fun (x : Nat × Nat × Bool) =>
    let s := queued (occ 1 0 0) id (fun f => { f with attest := { f.attest with go := true, addr := BitVec.ofNat 64 x.1, cert := BitVec.ofNat 64 x.2.1 } }) []
    let a := (s.hw.fn 1).attest
    inv s && a.go && (s.hw.inWindow 1 a.addr 32768 && (a.cert == 0#64 || s.hw.inWindow 1 a.cert 65536)) == x.2.2)
theorem witness_fetches : fetchWitnesses.all id = true := by decide +kernel

/-! ## Commands (QueueCommands) -/

/-- Command 7 of the function, an image of 64 bytes, is next. -/
def carrying (n : Nat) (s : State) (l : List (Nat × Nat × Nat)) (f : Hw → Hw) : State :=
  let q : QCmd := s.hw.withRecords (env s) 1 ⟨15, image 64 l, false, none, none, 0, 0, [], []⟩
  { s with
    clk := { s.clk with tick := n }
    hw := f { s.hw.onFn 1 fun x => { x with cmds := [(7, q)], jnext := 8 } with
      occ := occ 1 7 0, boot := { s.hw.boot with ready := true } } }
/-- Dispatches. -/
def dispatches (s : State) (opc : Nat) (p : QCmd → Bool) : Bool :=
  inv s && s.hw.occ.unit == 1 && s.hw.occ.id == 7 && match Tab.find? (s.hw.fn 1).cmds 7 with
  | some c => c.opc == opc && !c.disp && !s.hw.trip && (s.hw.fn 1).wake.state == .active && (s.hw.nextCommand 1 c.queue).map (·.1) == some 7 &&
    s.hw.addressesOk (env s) 1 c && p c
  | none => false
/-- A launch image at `k`: 1 block of 1 warp of 32 lanes, 8 registers, entry 0x10000. -/
def launchAt (k : Nat) : List (Nat × Nat × Nat) :=
  [(k, 1, 1), (k + 16, 8, 0x10000), (k + 32, 2, 1), (k + 34, 2, 1), (k + 36, 2, 1), (k + 38, 1, 1), (k + 39, 1, 1), (k + 40, 2, 8), (k + 45, 1, 1),
    (k + 50, 1, 1)]
def shortWitnesses : List Bool :=
  let s := turn 0 Occasion.none id
  [dispatches (carrying 0 s [] id) 0 fun _ => true, dispatches (carrying 0 s [(0, 1, 7), (16, 1, 31)] id) 7 fun _ => true,
   dispatches (carrying 0 s [(0, 1, 5), (16, 8, 0x20404), (24, 8, 5)] id) 5 fun c => (s.hw.wordPlace (env s) 1 c true) == some (0x60404, false) && c.caddr == 0#64,
   dispatches (carrying 0 s [(0, 1, 5), (16, 8, 0x2FFF8), (32, 1, 1)] id) 5 fun c => (s.hw.wordPlace (env s) 1 c true) == some (0x6FFF8, false) && c.wordSize == 8,
   dispatches (carrying 0 s [(0, 1, 6), (16, 8, 0x20404)] id) 6 fun c => (s.hw.wordPlace (env s) 1 c false) == some (0x60404, false) && c.holds (numberAt s 0x60404 4),
   dispatches (carrying 0 s [(0, 1, 6), (16, 8, 0x20404), (24, 8, 5)] id) 6 fun c =>
     (s.hw.wordPlace (env s) 1 c false) == some (0x60404, false) && !c.holds (numberAt s 0x60404 4) && c.waitAt.isNone,
   dispatches (carrying 0 s [(0, 1, 4), (16, 8, 0x20400), (24, 8, 0x20800), (32, 8, 128)] id) 4 fun c => atRest s && s.hw.poison.isEmpty &&
     c.caddr == 0#64 && (s.hw.partFor 1).owns.eng.getLsbD 0 && (c.addr 24).toNat % 128 + c.num 32 8 ≤ 128 && 0 < c.num 32 8 &&
     (s.hw.devAt (env s) 1 true true (c.addr 24) 128).isSome && (s.hw.devRange (env s) 1 true false (c.addr 16) 128).isSome,
   dispatches (carrying 0 s [(0, 1, 4), (16, 8, 0x2FF40), (24, 8, 0x2FFC0), (32, 8, 64)] id) 4 fun c => atRest s && (s.hw.partFor 1).owns.eng.getLsbD 0 && s.hw.poison.isEmpty && c.caddr == 0#64 && 0 < c.num 32 8 &&
     (c.addr 24).toNat % 128 + c.num 32 8 ≤ 128 && (s.hw.devAt (env s) 1 true true (c.addr 24) 64).isSome &&
     (s.hw.devRange (env s) 1 true false (c.addr 16) 64).isSome,
   (let t := carrying 5000 s [(0, 1, 6), (16, 8, 0x20404), (24, 8, 5), (36, 4, 5)] fun h => fn1 (fun x => { x with
      cmds := Tab.modify x.cmds 7 fun c => { c with disp := true, waitAt := some 0 } }) h
    inv t && match Tab.find? (t.hw.fn 1).cmds 7 with
    | some c => c.opc == 6 && c.num 36 4 != 0 && c.waitAt == some 0 && 0 + 1000 * c.num 36 4 ≤ t.clk.tick
    | none => false)]
theorem witness_short_commands : shortWitnesses.all id = true := by decide +kernel

/-- A launch that fits (timed, at its tick), one without slot areas, one that no core can hold. -/
def launchWitnesses : List Bool :=
  let s := turn 0 Occasion.none id
  let area := fn1 fun x => { x with race := { x.race with frbase := 0x1000#64, rrcnt := 2 } }
  let ok (t : State) (fits : Bool) := dispatches t 1 fun c =>
    ((t.hw.partFor 1).neverFits (Shape.ofLaunch c.bytes) none || (t.hw.fn 1).race.frbase == 0#64 || decide ((t.hw.fn 1).race.rrcnt < 2)) == !fits
  [ok (carrying 9 s (launchAt 0) area) true, ok (carrying 9 s ((1, 1, 4) :: (56, 8, 9) :: launchAt 0) area) true, ok (carrying 9 s (launchAt 0) id) false,
   ok (carrying 9 s ((38, 1, 32) :: (39, 1, 32) :: launchAt 0) area) false]
theorem witness_launches : launchWitnesses.all id = true := by decide +kernel

/-- Tasks: an entry, no method (with a handler warp's partition and without a ring), a record that is malformed. -/
def taskCommandWitnesses : List Bool :=
  let s := pokes ((0x50010, 8, 0x601B1) :: recordAt 0x60880 0x21000 9) tables
  let task (op desc : Nat) (f : Hw → Hw) := carrying 0 s [(0, 1, 2), (16, 2, op), (18, 1, 1), (24, 8, desc)] f
  let found (t : State) (p : Found → Bool) := dispatches t 2 fun c => (t.hw.fn 1).bind.bound && p (t.hw.lookup (env t) 1 true false (c.num 16 2 % 4096) c.descs)
  [found (task 5 0x20800 id) fun r => match r with
     | .entry 0 _ ops ss => ops.length == 1 && (ss.filter (·.isSome)).isEmpty
     | _ => false,
   found (task 6 0x20800 id) fun r => (match r with
     | .noMethod _ _ _ => true
     | _ => false) && !(s.hw.partFor 1).rings.isEmpty,
   (let t := task 6 0x20800 fun h => h.onPart 0 fun p => { p with owns := { p.owns with rings := 0#20 } }
    found t fun r => (match r with
     | .noMethod _ _ _ => true
     | _ => false) && (t.hw.partFor 1).rings.isEmpty),
   found (task 5 0x20880 id) fun r => match r with
     | .bad _ => true
     | _ => false]
theorem witness_tasks_of_queues : taskCommandWitnesses.all id = true := by decide +kernel

/-- Guarded launches of one unit of one tile: one that passes, one whose tile list names no tile at all. -/
def gsWitnesses : List Bool :=
  [(1, true), (0, false)].map fun (x : Nat × Bool) =>
    let s := pokes (launchAt 0x60400 ++ launchAt 0x60440 ++ launchAt 0x60480 ++ [(0x60600, 8, 0x22000), (0x60608, 4, x.1)]) (turn 0 Occasion.none id)
    let t := carrying 0 s [(0, 1, 3), (16, 8, 0x20400), (24, 8, 0x20440), (32, 8, 0x20480), (44, 4, 1), (48, 8, 0x20600)] id
    dispatches t 3 fun c => (t.hw.shapeStatus 1 c == 0) == x.2 && c.recs.length == 3 && c.tileList.length == 1
theorem witness_guarded_launches : gsWitnesses.all id = true := by decide +kernel

def entryWitnesses : List Bool :=
  let s := handlerWarp id
  let x : HEntry := ⟨1, 7, 0, 1#64⟩
  let t : State := { s with hw := { s.hw.onPart 0 fun p => { p with tasks := [x], phvec := 0x18000#64 } with occ := Occasion.none } }
  let p := t.hw.part 0
  [inv t && t.hw.occ.unit == 0 && !t.hw.occ.flag && p.serving.isNone && !p.imask.getLsbD 1 && p.live && p.tasks == [x] && p.phvec != 0#64 &&
    (t.hw.warp? (wkOf (handlerFn 0) handlerSlot 0)).isSome]
theorem witness_task_entry : entryWitnesses.all id = true := by decide +kernel

end Sys2Proof.Tests
end

