-- ==== Sys2Proof/Tests/Engines.lean ====
section
/-! SUPPORT. Sys2Proof/Tests/Engines.lean: states that meet the hypotheses of the statements about homes and observation, arrays,
copies, packets, ends of engine commands, and steps. -/
set_option Elab.async false
namespace Sys2Proof.Tests

open Sys2Proof.Machine Sys2Proof.Terms

/-! ## Homes, rebases, samples, traces (HomesAndObservation) -/

def backWitnesses : List Bool :=
  [(1, lineOf 0x60400), (7, 5)].map fun (x : Nat × Nat) =>
    let s := turn 0 (occ 0 x.2 x.1) cached
    let l := s.hw.l1 0 x.1 x.2
    inv s && (l.dirty == 0#128 || !Tab.has s.hw.owners x.2)
/-- A dirty line that an engine owns waits. -/
theorem witness_owned_write_back : (let s := turn 0 (occ 0 (lineOf 0x60400) 1) fun h => { cached h with owners := [(lineOf 0x60400, 9)] }
    inv s && (s.hw.l1 0 1 (lineOf 0x60400)).dirty != 0#128 && Tab.has s.hw.owners (lineOf 0x60400)) = true := by decide +kernel
theorem witness_write_back : backWitnesses.all id = true := by decide +kernel

/-- The page's leaf entry at 0x50010, which two dies' slices may own. -/
def moving (f : Hw → Hw) : State := turn 0 { occ 0 1 1 with val := 0x20400#256 } fun h =>
  f { h.onPart 0 (fun p => { p with owns := { p.owns with slices := 0xFFFFFFFFFFFF#96 } }) with roots := [(1, (0x10001#64, true))] }
def migration (host done sw : Bool) : Migration := ⟨1, 0x20000, 16, 0x50010, 0x601B1#64, 1, host, done, sw, 0⟩
def migrationWitnesses : List Bool :=
  let s := moving fun h => { h with access := [(0, [⟨1, 0x20000, [64, 128, 0, 0, 0]⟩])] }
  let p := s.hw.part (s.hw.ctxPart 1)
  let w (va : Nat) := walk (fun a => numberAt s a 8) p (s.hw.root 1).1 va
  let switch (host : Bool) := moving fun h => { h with migs := [(0, migration host true false)] }
  let was := leafOpen 0x601B1#64 1 false
  let late := moving fun h => (h.onRing 0 fun r => { r with retq := [element .cas none none true] }).onPart 0 fun p => p
  let late := { late with hw := { late.hw with migs := [(0, migration false true true)] } }
  let fin := pokes [(0x50010, 8, was.toNat)] (moving fun h => { h with migs := [(0, migration false true true)] })
  [inv s && Tab.find? s.hw.roots 1 == some (0x10001#64, true) && (match w 0x20400, w 0x20000 with
     | .ok (l, _), .ok (l', entry) => l == l' && entry == 0x50010 && Leaf.lg l == 16 && !Leaf.mig l && !Tab.has s.hw.migs 0 && p.legalHome 1 == 1 &&
         p.legalHome 1 != Leaf.homeAgent l && Leaf.homeAgent l == 0 && (leafEntries entry 16).all fun x => numberAt s x 8 == l.toNat
     | _, _ => false) && ((Tab.getD s.hw.access 0 []).find? fun x => x.ctx == 1 && x.page == 0x20000) == some ⟨1, 0x20000, [64, 128, 0, 0, 0]⟩,
   inv (switch false) && (switch false).hw.mayMove (migration false true false), inv (switch true) && (switch true).hw.mayMove (migration true true false),
   inv late && (migration false true true).switched && late.hw.undrained 1 0x20000 (2 ^ 16), inv fin && !fin.hw.undrained 1 0x20000 (2 ^ 16) && (leafEntries 0x50010 16).all fun x => numberAt fin x 8 == was.toNat]
theorem witness_migrations : migrationWitnesses.all id = true := by decide +kernel

/-- A source at its unit: the core's buffer holds a record; samples are taken. -/
def traced (ctl : Nat) (last : Option Nat) (wr : Nat) (full : Bool) : State := turn 5 (occ 0 4 0) fun h =>
  (fn1 (fun f => { f with dbg := { f.dbg with sampEn := true, tren := 1#4 } }) { h with trace := { h.trace with ctl := BitVec.ofNat 4 ctl, last := last, wr := wr } }).onCore 0
    fun c => { c with trace := if full then ⟨[⟨1, 0, 1, 5, 0#128⟩], 0⟩ else c.trace }
def observeWitnesses : List Bool :=
  let r := turn 0 (occ 1 0 0) (onB fun b => { b with rebasing := true })
  let s := traced 1 none 0 false
  let q := turn 5 (occ 0 4 0) id
  let f (c : Nat) (l : Option Nat) (n : Nat) := inv (traced c l n true) && ((traced c l n true).hw.traceBuf 0).recs.length == 1
  let runs (s : State) := match List.find? (fun (x : Nat × Part) => x.2.live && x.2.owns.rings.getLsbD 0) s.hw.parts with
    | some (_, q) => q.running == some 1
    | none => false
  [inv r && (r.hw.block? (bkOf 1 0)).any (·.rebasing) && Tab.rising r.hw.marks, inv q && runs q && !q.hw.samples 1,
   inv s && runs s && s.hw.samples 1 && (s.hw.core 0).trace.drops == 0 && decide ((s.hw.core 0).trace.recs.length < 16) &&
     (((s.hw.slotWarps 1 0 (4 % 4)).find? fun x => decide (Tab.getD (s.hw.core 0).samplePtr (4 % 4) 99 < x.2.ctx)).or (s.hw.slotWarps 1 0 (4 % 4)).head?).isSome,
   inv s && ((s.hw.traceBuf 0).recs).isEmpty, f 7 (some 5) 0, f 7 (some 4) (2 ^ 29 - 32), f 7 none (2 ^ 29), f 15 none (2 ^ 29), f 2 none 0]
theorem witness_observation : observeWitnesses.all id = true := by decide +kernel

/-! ## Engine commands that start (ArrayWork, EngineWork) -/

/-- Command 4 stands first in its queue. -/
def begun (c : Cmd) (f : FCore → FCore) (g : Hw → Hw) : State := turn 0 (occ 4 0 0) fun h =>
  g ({ h with cmds := [(4, c)] }.onFCore 1 0 fun x => f (match c.kind with
    | .matrix => { x with mq := [4] }
    | .copy => { x with cq := [4] }
    | .ring => { x with gq := [4] }))
def starts (s : State) (p : Cmd → Block → Bool) : Bool :=
  inv s && s.hw.occ.unit == 4 && s.hw.mayStart 4 && match Tab.find? s.hw.cmds 4 with
  | some c => (match s.hw.block? (wkBlock c.wk) with
    | some b => c.status == 0 && !c.moved && b.core == c.core && decide (c.core < 160) && (!c.paired || c.core % 2 == 0) &&
        (s.hw.blocks.all fun x => decide (x.2.spBase + x.2.spBytes ≤ 0xA0000)) && atRest s && p c b
    | none => false)
  | none => false
theorem starts_sound {s : State} {p : Cmd → Block → Bool} (h : starts s p = true) : ∃ c b, (Starts s 4 c b ∧ AtRest s) ∧ p c b = true := by
  simp only [starts, Bool.and_eq_true, beq_iff_eq] at h
  obtain ⟨⟨⟨h1, h2⟩, h3⟩, h4⟩ := h
  split at h4
  · rename_i c hc
    split at h4
    · rename_i b hb
      simp only [Bool.and_eq_true, beq_iff_eq, decide_eq_true_eq, Bool.not_eq_true', Bool.or_eq_true, List.all_eq_true] at h4
      refine ⟨c, b, ⟨⟨inv_sound h1, h2.symm, hc, hb, h3, h4.1.1.1.1.1.1.1, h4.1.1.1.1.1.1.2, h4.1.1.1.1.1.2, h4.1.1.1.1.2, fun hp => ?_,
        h4.1.1.2⟩, atRest_sound h4.1.2⟩, h4.2⟩
      rcases h4.1.1.1.2 with x | x
      · rw [hp] at x; simp at x
      · exact x
    · simp at h4
  · simp at h4

/-- Paired with core 1 or not; units 60 to 63; a word malformed. -/
def arrayWitnesses : List Bool :=
  let w1 (u n : Nat) : Word := BitVec.ofNat 32 (u + 64 * (n - 1))
  let two (c : Cmd) : Cmd := { c with paired := true }
  let lend (h : Hw) : Hw := h.onFCore 1 1 fun x => { x with mq := [4] }
  ([1, 3, 7].map fun (o : Nat) => starts (begun (cmd .matrix o [0#32, w1 60 4, 0x40#32, 0x80#32]) id id) fun c _ => !c.arrayBad) ++
  [starts (begun (two (cmd .matrix 4 [0#32, w1 60 4, 0x40#32, 0x80#32])) id lend) fun c _ => c.paired && !c.arrayBad,
   starts (begun (two (cmd .matrix 2 [0#32, w1 60 4 ||| 2048#32, 0x40#32, 0x80#32])) id lend) fun c _ => c.arrayBad,
   starts (begun (two (cmd .matrix 2 [0#32, w1 0 1, 0x40#32, 0x80#32])) id lend) fun c _ => c.paired && !c.arrayBad,
   starts (begun (cmd .matrix 1 [0#32, w1 61 4, 0x40#32, 0x80#32]) id id) fun c _ => c.arrayBad,
   starts (begun (cmd .matrix 6 [0#32, w1 60 4]) id id) fun c _ => !c.arrayBad,
   starts (begun (cmd .matrix 5 [0#32, w1 60 4, 0x40#32]) (fun x => { x with spad := [(0x40 + 12, 0x18#8), (0x40 + 13, 2#8)] }) id) fun c _ => !c.arrayBad]
theorem witness_arrays : arrayWitnesses.all id = true := by decide +kernel

/-- An NI8 destination: the ranges of four steps do not meet. -/
theorem witness_drain : ∃ s c b r, (Starts s 4 c b ∧ AtRest s) ∧ c.opc = 5 ∧ c.arrayBad = false ∧
    r = Rec.of (BitVec.ofNat 512 (scrNumber s c.fn c.core (b.spBase + (c.word 2).toNat) 64)) ∧
    (r.drainRanges (16 * c.steps)).Pairwise (fun x y => x.1 + x.2 ≤ y.1 ∨ y.1 + y.2 ≤ x.1) ∧ r.drainRanges (16 * c.steps) ≠ [] := by
  let s := begun (cmd .matrix 5 [0#32, 0xC0#32, 0x40#32]) (fun x => { x with spad := [(0x40 + 12, 0x18#8), (0x40 + 13, 2#8)] }) id
  let good (c : Cmd) (b : Block) : Bool :=
    let l := (Rec.of (BitVec.ofNat 512 (scrNumber s c.fn c.core (b.spBase + (c.word 2).toNat) 64))).drainRanges (16 * c.steps)
    c.opc == 5 && !c.arrayBad && decide (l.Pairwise fun x y => x.1 + x.2 ≤ y.1 ∨ y.1 + y.2 ≤ x.1) && !l.isEmpty
  obtain ⟨c, b, h, p⟩ := starts_sound (s := s) (p := good) (by decide +kernel)
  simp only [good, Bool.and_eq_true, beq_iff_eq, Bool.not_eq_true', decide_eq_true_eq] at p
  refine ⟨s, c, b, _, h, p.1.1.1, p.1.1.2, rfl, p.1.2, fun hl => ?_⟩
  have := p.2
  rw [hl] at this
  simp at this

/-- A latch that holds a local record. -/
def localLatch (x : Option (Nat × Nat × BitVec 512)) : Bool := x.all fun x =>
  let near (a : DWord) : Bool := a.toNat / 2 ^ 20 == 0xFE000000000 && decide (a.toNat % 2 ^ 20 < 0xA0000)
  decide (x.2.1 ≤ 0xA0000) && near (Rec.of x.2.2).base && ((Rec.of x.2.2).geom == 0 || near (Rec.of x.2.2).scb)
theorem localLatch_sound {s : State} {c : Cmd} {b : Block} (ha : localLatch (s.hw.fcore c.fn c.core).latchA = true)
    (hb : localLatch (s.hw.fcore c.fn c.core).latchB = true) : LatchesLocal s c b := by
  intro k x hx
  let near (a : DWord) : Prop := a.toNat / 2 ^ 20 = 0xFE000000000 ∧ a.toNat % 2 ^ 20 < 0xA0000
  have key : ∀ (l : Option (Nat × Nat × BitVec 512)) (t : List (Nat × Byte)) (n : Nat), localLatch l = true →
      (match l with
        | some (o, base, bits) => if o = n then some (base, bits, t) else none
        | none => none) = some x → x.1 ≤ 0xA0000 ∧ near (Rec.of x.2.1).base ∧ ((Rec.of x.2.1).geom ≠ 0 → near (Rec.of x.2.1).scb) := by
    intro l t n hl hx
    cases l with
    | none => simp at hx
    | some y =>
      simp only at hx
      split at hx
      · cases hx
        simp only [localLatch, Option.all_some, Bool.and_eq_true, beq_iff_eq, Bool.or_eq_true, decide_eq_true_eq] at hl
        exact ⟨hl.1.1, hl.1.2, fun hg => hl.2.resolve_left hg⟩
      · cases hx
  unfold latched at hx
  dsimp only at hx
  by_cases e : k = 3
  · rw [if_pos e] at hx; exact key _ _ _ hb hx
  · rw [if_neg e] at hx; exact key _ _ _ ha hx
def latching (on : Bool) : State :=
  begun (cmd .matrix 1 [0#32, 0xC0#32, 0x40#32, 0x80#32]) (fun x => if on then { x with
    latchA := some (0x40, 0, 0xFE00000000000000#512) } else x) id
theorem witness_latches : ∀ on, ∃ c b, (Starts (latching on) 4 c b ∧ AtRest (latching on)) ∧ 1 ≤ c.opc ∧ c.opc ≤ 4 ∧ c.arrayBad = false ∧ LatchesLocal (latching on) c b ∧
    (∀ k, Tab.rising ((latching on).hw.fcore c.fn k).acc = true) ∧ (latched (latching on) c b 2).isSome = on := by
  intro on
  obtain ⟨c, b, h, p⟩ := starts_sound (s := latching on) (p := fun c b => c.opc == 1 && !c.arrayBad && c.fn == 1 && c.core == 0 &&
    localLatch ((latching on).hw.fcore c.fn c.core).latchA && localLatch ((latching on).hw.fcore c.fn c.core).latchB &&
    (latched (latching on) c b 2).isSome == on && (latching on).hw.fcores.all fun x => Tab.rising x.2.acc) (by cases on <;> decide +kernel)
  simp only [Bool.and_eq_true, beq_iff_eq, Bool.not_eq_true', List.all_eq_true] at p
  obtain ⟨⟨⟨⟨⟨⟨⟨p1, p2⟩, p3⟩, p4⟩, p5⟩, p6⟩, p7⟩, p8⟩ := p
  refine ⟨c, b, h, by omega, by omega, p2, localLatch_sound p5 p6, fun k => ?_, p7⟩
  have key : ∀ (t : Tab FCore), (∀ x ∈ t, Tab.rising x.2.acc = true) → Tab.rising (Tab.getD t (fcKey c.fn k) FCore.reset).acc = true := by
    intro t
    induction t with
    | nil => intro _; rfl
    | cons x t ih =>
      intro h
      by_cases e : x.1 = fcKey c.fn k
      · have hx := h x (by simp)
        simpa [Tab.getD, Tab.find?, e] using hx
      · have ht := ih fun y hy => h y (by simp [hy])
        simpa [Tab.getD, Tab.find?, e] using ht
  exact key _ p8

/-! ## Copies and gathers -/

/-- A plain copy of 128 bytes: memory to scratchpad, and back; a row that a gather picks. -/
def copying : State := begun (cmd .copy 0x10 [0#32, 0#32, 0#32, 0#32, 0xFE000000#32, 128#32, 0x20000#32, 0#32, 0#32, 0#32, 0#32, 0#32]) id id
def copyingOut : State := begun (cmd .copy 0x11 [0#32, 0#32, 0#32, 0#32, 0xFE000000#32, 128#32, 0x20000#32, 0#32, 0#32, 0#32, 0#32, 0#32]) id id
def gathering : State := begun { cmd .ring 0x20 [0#32, 0x20800#32, 0#32, 0x800#32, 0xFE000000#32, 0#32, 1#32, 0#32, 0#32, 0#32, 0#32, 0#32] with
  rec_ := some (BitVec.ofNat 512 (leNat (image 64 ((12, 1, 3) :: recordAt 0 0x21000 3)))) } id id
/-- One move, its places, the translations it needs. -/
def oneMove (s : State) (src dst : Loc) (n : Nat) (c : Cmd) : Bool :=
  let j := s.hw.jobOf (env s) c
  let near (va : DWord) : Bool := isScr va || (s.hw.cached c.core c.ctx (va.toNat % 2 ^ 57)).isSome
  let lands (w : Bool) (va : DWord) (l : Loc) : Bool := near va && match s.hw.engLocate (env s) c w va n with
    | .ok (l', _) => l' == l
    | .error _ => false
  j.bad == 0 && match j.moves with
  | [(some a, d, m)] => m == n && lands true d dst && lands false a src && (match dst with
    | .mem pa => (Tab.find? s.hw.owners (lineOf pa)).isNone
    | _ => true)
  | _ => false
theorem oneMove_sound {s : State} {src dst : Loc} {n : Nat} {c : Cmd} (h : oneMove s src dst n c = true) (ha : Apart dst n src n) :
    (s.hw.jobOf (env s) c).bad = 0 ∧ Placed s c (s.hw.jobOf (env s) c) [⟨some src, dst, n⟩] := by
  have lands : ∀ {w va l}, ((isScr va || (s.hw.cached c.core c.ctx (va.toNat % 2 ^ 57)).isSome) &&
      match s.hw.engLocate (env s) c w va n with
      | .ok (l', _) => l' == l
      | .error _ => false) = true → EngineAt s c w va n l := by
    intro w va l h
    rw [Bool.and_eq_true] at h
    refine ⟨by simpa using h.1, ?_⟩
    have h2 := h.2
    split at h2
    · rename_i l' f e
      rw [beq_iff_eq] at h2
      exact ⟨f, by rw [e, h2]⟩
    · simp at h2
  unfold oneMove at h
  simp only [Bool.and_eq_true, beq_iff_eq] at h
  refine ⟨h.1, ?_⟩
  have h2 := h.2
  split at h2
  · rename_i a d m hm
    simp only [Bool.and_eq_true, beq_iff_eq] at h2
    obtain ⟨⟨⟨e, hd⟩, hs⟩, ho⟩ := h2
    unfold Placed
    rw [hm]
    subst e
    refine ⟨.cons ⟨rfl, lands (by simpa using hd), lands (by simpa using hs)⟩ .nil, List.pairwise_singleton _ _, ?_, ?_⟩
    · intro x hx y hy p hp
      simp only [List.mem_singleton] at hx hy
      subst hx; subst hy
      cases hp
      exact ha
    · intro x hx pa hp
      simp only [List.mem_singleton] at hx
      subst hx
      cases hp
      simpa using ho
  · simp at h2
theorem witness_copies : (∃ c b l, (Starts copying 4 c b ∧ AtRest copying) ∧ c.opc = 0x10 ∧ (copying.hw.jobOf (env copying) c).bad = 0 ∧ Placed copying c (copying.hw.jobOf (env copying) c) l) ∧
    (∃ c b l, (Starts copyingOut 4 c b ∧ AtRest copyingOut) ∧ c.opc = 0x11 ∧ (copyingOut.hw.jobOf (env copyingOut) c).bad = 0 ∧
      Placed copyingOut c (copyingOut.hw.jobOf (env copyingOut) c) l) ∧
    ∃ c b l, (Starts gathering 4 c b ∧ AtRest gathering) ∧ c.opc = 0x20 ∧ (gathering.hw.jobOf (env gathering) c).bad = 0 ∧ Placed gathering c (gathering.hw.jobOf (env gathering) c) l := by
  refine ⟨?_, ?_, ?_⟩
  · obtain ⟨c, b, h, p⟩ := starts_sound (s := copying) (p := fun c _ => c.opc == 0x10 && oneMove copying (.mem 0x60000) (.scr 0 0) 128 c) (by decide +kernel)
    rw [Bool.and_eq_true, beq_iff_eq] at p
    exact ⟨c, b, _, h, p.1, oneMove_sound p.2 trivial⟩
  · obtain ⟨c, b, h, p⟩ := starts_sound (s := copyingOut) (p := fun c _ => c.opc == 0x11 && oneMove copyingOut (.scr 0 0) (.mem 0x60000) 128 c) (by decide +kernel)
    rw [Bool.and_eq_true, beq_iff_eq] at p
    exact ⟨c, b, _, h, p.1, oneMove_sound p.2 trivial⟩
  · obtain ⟨c, b, h, p⟩ := starts_sound (s := gathering) (p := fun c _ => c.opc == 0x20 && oneMove gathering (.mem 0x61000) (.scr 0 0x800) 4 c) (by decide +kernel)
    rw [Bool.and_eq_true, beq_iff_eq] at p
    exact ⟨c, b, _, h, p.1, oneMove_sound p.2 trivial⟩
/-- A copy with a stamp that is not aligned is refused. -/
def refusedWitnesses : List Bool :=
  [(EngKind.copy, 0x10), (.copy, 0x11), (.ring, 0x20)].map fun (x : EngKind × Nat) =>
    let s := begun (cmd x.1 x.2 [0#32, 0#32, 0#32, 0#32, 0#32, 0#32, 0#32, 0#32, 0#32, 4#32, 0#32, 0#32]) id id
    starts s fun c _ => (s.hw.jobOf (env s) c).bad != 0
theorem witness_refused_copies : refusedWitnesses.all id = true := by decide +kernel

/-! ## Credits, ends, packets -/

def byteCreditWitnesses : List Bool :=
  [(128, true), (100, false)].map fun (x : Nat × Bool) =>
    let s := begun { cmd .copy 0x10 [0#32, 0#32, 0#32, 0#32, 0#32, 0#32, 0#32, 0#32, 0#32, 0#32, 0#32, 15#32] with credit := [(bk0, x.1)] } id
      (onB fun b => { b with bars := [(15, { Barrier.fresh with init := true, exp := 1, arr := 1, bytes := 128 })] })
    inv s && match Tab.find? s.hw.cmds 4, s.hw.block? bk0 with
    | some c, some b => c.credit == [(bk0, x.1)] && decide (c.barIdx < b.shape.bars) && match Tab.find? b.bars c.barIdx with
      | some y => y.init && y.arr == y.exp && (y.bytes == (x.1 : Int)) == x.2
      | none => false
    | _, _ => false
theorem witness_byte_credits : byteCreditWitnesses.all id = true := by decide +kernel

/-- With success and a token, and with a failure. -/
def endWitnesses : List Bool :=
  ([(.matrix, 1, .matrixRetire), (.matrix, 7, .matrixRetire), (.copy, 0x10, .copyCommandEnd), (.copy, 0x11, .copyCommandEnd), (.ring, 0x20, .copyCommandEnd),
    (.ring, 0x21, .ringCommandEnd), (.ring, 0x22, .ringCommandEnd), (.ring, 0x23, .ringCommandEnd)] : List (EngKind × Nat × Instr)).flatMap fun x =>
    [(0, true), (9, false)].map fun (y : Nat × Bool) =>
      let s := begun { cmd x.1 x.2.1 [] with started := true, moved := true, status := y.1, tok := y.2 } id id
      inv s && match Tab.find? s.hw.cmds 4 with
      | some c => endStep c.opc == x.2.2 && c.moved && c.credit.isEmpty && c.packets == 0 && !c.bc && c.stampVa == 0#64 && (s.hw.warp? c.wk).isSome
      | none => false
theorem witness_ends : endWitnesses.all id = true := by decide +kernel

/-- SEND up and down, RBCAST, RRED as a member with the root elsewhere; a SEND of no hop. -/
def sendWitnesses : List Bool :=
  let s (o w3 : Nat) (p : Cmd → Bool) := starts (begun (cmd .ring o [0#32, 0#32, 0x100#32, BitVec.ofNat 32 w3, 0#32, 0#32, 0#32]) id id) fun c _ =>
    c.packets == 0 && decide (c.srcOff + c.len < 2 ^ 20) && c.stampVa == 0#64 && p c
  [s 0x21 (511 + 65536 * 7) fun c => !c.ringBad && c.destStops == [7], s 0x21 (511 + 65536 * 15) fun c => !c.ringBad && c.destStops == [1],
   s 0x21 511 fun c => c.ringBad, s 0x23 (3 + 2 ^ 26) fun c => !c.members.isEmpty,
   s 0x22 (3 + 65536 * 7 + 2 ^ 19 + 2 ^ 26) fun c => c.members.contains 0 && c.rootStop != stopOf c.core]
theorem witness_ring_commands : sendWitnesses.all id = true := by decide +kernel
theorem witness_reduction : ∃ (data : List (Nat × List Byte)), (∀ x ∈ data, x.2.length % 4 = 0 ∧ 4 * 1 + 4 ≤ x.2.length) ∧
    ∃ j, j < 8 ∧ (data.map (fun x => x.1)).contains j = true :=
  ⟨[(0, List.replicate 8 1#8), (7, List.replicate 8 2#8)], by decide, 7, by decide⟩

def packet (at_ dest : Nat) : Packet := ⟨4, 0, at_, dest, true, false, .source, 1, 0x100, [7#8], .data, true⟩
def packetWitnesses : List Bool :=
  let s (l : List (Nat × Packet)) (f : Cmd → Cmd) := turn 0 (occ 9 0 0) fun h => { h with packets := l, cmds := [(4, f { cmd .ring 0x21 [] with started := true, packets := 1 })] }
  let hop (p : Packet) := s [(9, p)] id
  let stuck := s [(8, packet 7 1), (9, packet 7 1)] id
  let out := s [(9, packet 3 3)] id
  let urgent := s [(8, { packet 6 0 with cls := .timed }), (9, packet 6 7)] id
  [(6, 7), (7, 1)].map (fun (x : Nat × Nat) => inv (hop (packet x.1 x.2)) && ((hop (packet x.1 x.2)).hw.placeNext 9 (packet x.1 x.2)).isSome) ++
  [inv urgent && match Tab.find? urgent.hw.packets 9 with
   | some p => (urgent.hw.placeNext 9 p).any fun hold => urgent.hw.yields 9 p hold
   | none => false,
   inv stuck && (stuck.hw.placeNext 9 (packet 7 1)).isNone,
   inv out && atRest out && match Tab.find? out.hw.packets 9, Tab.find? out.hw.cmds 4 with
   | some p, some c => p.at_ == p.dest && p.cmd == 4 && c.opc != 0x22 && c.status == 0 && decide (p.dest < 8) && decide (p.off + p.bytes.length ≤ 2 ^ 20) &&
       (out.hw.block? (wkBlock c.wk)).any fun b => b.core < 160 && ringOf b.core == p.ring
   | _, _ => false]
theorem witness_packets : packetWitnesses.all id = true := by decide +kernel

/-! ## Steps (StepRunsTheDecodedInstruction) -/

/-- A word that decodes, one that decodes to nothing and meets a handler, a step of the package, nothing at all. -/
def stepWitnesses : List Bool :=
  let s (w : Nat) (f : Hw → Hw) : State := let t := State.reset.withFetchWord 32 w; { t with hw := f t.hw }
  let fetched (s : State) (p : Iss → Hw → Word → Bool) : Bool := inv s && match s.hw.next (env s) with
    | .issue c h => (match Iss.of (h.take c) with
      | some q => q.owedNow.isNone && (q.quiet || q.p.resume != 0#32 || q.p.pushing.isSome || (q.w.breakAt q.p.pc).isNone) && !isScr q.p.pc &&
        !(h.take c).walkHeld (env s) q.core (Iss.ctx (h.take c) q) (q.p.pc.toNat % 2 ^ 57) && (match (h.take c).translate (env s) q.core (Iss.ctx (h.take c) q) ⟨false, true, decide (q.w.mode = .handler), false⟩ q.p.pc with
        | .ok (leaf, pa) => !(h.take c).waitsOnWay (Iss.ctx (h.take c) q) (dieOf q.core) leaf pa &&
            !(h.take c).lineHeld ((h.take c).ticketOf q.p 18) (lineOf pa) && !(h.take c).poison.contains (lineOf pa) && p q (h.take c) (wordOfBytes (s.byte pa) (s.byte (pa + 1)) (s.byte (pa + 2)) (s.byte (pa + 3)))
        | .error _ => false)
      | none => false)
    | _ => false
  let ready := { s 0 id with hw := { Hw.reset with agenda := [.event .thermalTrip Occasion.none] } }
  let none_ := { s 0 id with hw := { Hw.reset with agenda := [] } }
  [fetched (s 0x00143070 id) fun q _ w => q.w.mode == .user && (match decode w with
     | .ok i => i == .add false 5#7 6#7 7#7 false false
     | .error _ => false),
   fetched (s 0xFFFFFFFF (fun h => h.onPart 0 fun p => { p with phvec := 0x18000#64 })) fun q h w => (match decode w with
     | .ok _ => false
     | .error _ => true) && q.w.mode == .user && (h.part (h.partOf q.fn)).phvec != 0#64 && !(h.part (h.partOf q.fn)).imask.getLsbD 0,
   (match ready.hw.next (env ready) with
    | .event i _ _ => i == .thermalTrip
    | _ => false),
   (match none_.hw.next (env none_) with
    | .idle _ => true
    | _ => false)]
theorem witness_steps : stepWitnesses.all id = true := by decide +kernel

end Sys2Proof.Tests
end

