-- ==== Sys2Proof/Tests/Tenancy.lean ====
section
/-! SUPPORT. Sys2Proof/Tests/Tenancy.lean: states that meet the hypotheses of the statements about partitions, bindings, slices,
collapse and wake, and about placement and the ends of blocks, units, routines and commands. -/
set_option Elab.async false
namespace Sys2Proof.Tests

open Sys2Proof.Machine Sys2Proof.Terms

/-! ## Partitions and bindings (TenancyAndTurns) -/

/-- Without a block: no function has work. -/
def idling (h : Hw) : Hw := { h with blocks := [], warps := [] }
def onPt (g : Part → Part) (h : Hw) : Hw := h.onPart 0 g
def partitionWitnesses : List Bool :=
  let o := occ 64 0 0   -- the index is taken modulo 64
  let bad := turn 0 o (onPt fun q => { q with en := true, staged := ⟨1#20, 0#40, 0#96, 1#384⟩ })
  let good := turn 0 o fun h => idling (onPt (fun q => { q with quiet := true, staged := ⟨3#20, 3#40, 0xFFFFFF#96, 3#384⟩ }) h)
  let off := turn 0 o fun h => idling (onPt (fun q => { q with en := false, quiet := true }) h)
  let quiesce := turn 0 (occ 0 0 0) fun h => idling (onPt (fun q => { q with quiescing := true }) h)
  [inv bad && bad.hw.commitCode 0 != 0, inv good && good.hw.commitCode 0 == 0 && (good.hw.part 0).en && (good.hw.part 0).staged.rings != 0#20,
   inv off && off.hw.commitCode 0 == 0 && !(off.hw.part 0).en, inv quiesce && (quiesce.hw.part 0).quiescing && !(quiesce.hw.part 0).quiet && quiesce.hw.partIdle 0,
   (let s := turn 0 (occ 64 0 0) fun h => h.onSq 1 15 fun q => { q with en := true, wr := 1 }
    inv s && Tab.rising s.hw.fns && (s.hw.fn 1).bind.bound && (s.hw.fn 1).bind.part == 0 && s.hw.boot.ready && (s.hw.fn 1).wake.state == .active &&
      (s.hw.sq 1 15).en && !(s.hw.sq 1 15).err && (s.hw.sq 1 15).rd != (s.hw.sq 1 15).wr)]
theorem witness_partitions : partitionWitnesses.all id = true := by decide +kernel

def bindWitnesses : List Bool :=
  let word (p c s : Nat) : BitVec 256 := BitVec.ofNat 256 (1 + 2 * p + 128 * c + 65536 * s)
  let b (f : Nat) (v : BitVec 256) := turn 0 { occ f 0 0 with val := v } id
  let code (s : State) (w : Word) := s.hw.bindCode s.hw.occ.unit (w.extractLsb' 1 6).toNat (w.extractLsb' 7 2).toNat (w.extractLsb' 16 16).toNat
  let free (s : State) (f : Nat) := inv s && !(s.hw.fn f).bind.en && !(s.hw.fn f).bind.bound
  [(2, 0, 0, 100, true), (256, 0, 2, 65535, true), (2, 0, 0, 99, false), (2, 0, 3, 100, false), (2, 63, 0, 100, false)].map
    (fun (x : Nat × Nat × Nat × Nat × Bool) =>
      let s := b x.1 (word x.2.1 x.2.2.1 x.2.2.2.1)
      free s x.1 && (s.hw.occ.val.setWidth 32 : Word).getLsbD 0 && (code s (s.hw.occ.val.setWidth 32) == 0) == x.2.2.2.2) ++
  [(let s := b 1 0#256; inv s && (s.hw.fn 1).bind.en && (s.hw.fn 1).bind.bound),
   (let s := turn 0 (occ 0 0 0) fun h => h.onFn 0 fun f => { f with bind := { f.bind with en := true, bound := true } }
    inv s && !s.hw.occ.val.getLsbD 0 && (s.hw.fn 0).bind.bound),
   (let s := turn 0 (occ 2 0 0) fun h => h.onFn 2 fun f => { f with bind := { f.bind with en := true } }
    inv s && (s.hw.fn 2).bind.en && !(s.hw.fn 2).bind.bound),
   (let s := b 1 (word 0 0 100); inv s && (s.hw.occ.val.setWidth 32 : Word).getLsbD 0 && (s.hw.fn 1).bind.bound),
   (let s := b 2 0xFFFFF#256; inv s && !(s.hw.fn 2).bind.bound),
   (let s := turn 0 { occ 1 0 0 with val := 0x200000#256 } fun h => h.onSq 1 15 fun q => { q with en := true, base := 0x100000#64, log2 := 6 }
    inv s && (s.hw.fn 1).bind.bound && (s.hw.sq 1 15).en && !(s.hw.sq 1 15).err),
   (let s := b 0 0#256; inv s && !(s.hw.fn 0).bind.bound && !s.hw.occ.val.getLsbD 0),
   (let s := turn 0 { occ 2 0 0 with val := 0x200000#256 } fun h => h.onSq 2 15 fun q => { q with en := true, base := 0x100000#64, log2 := 6 }
    inv s && !(s.hw.fn 2).bind.bound && (s.hw.sq 2 15).en && !(s.hw.sq 2 15).err),
   (let s := b 0 (word 0 0 99); inv s && !(s.hw.fn 0).bind.bound && (s.hw.part 0).live),
   (let s := b 0 (word 63 0 100); inv s && !(s.hw.fn 0).bind.bound && !(s.hw.part 63).live),
   (let s := b 0 (word 0 0 100); inv s && !(s.hw.fn 0).bind.bound && (s.hw.part 0).live && (s.hw.occ.val.setWidth 32 : Word).getLsbD 0),
   inv (b 383 0x10001#256)]
theorem witness_bindings : bindWitnesses.all id = true := by decide +kernel

/-- Function 2 of the partition has a block too. -/
def shared (h : Hw) : Hw := { h.onFn 2 fun f => { f with bind := { f.bind with en := true, bound := true } } with
  blocks := h.blocks ++ [(bkOf 2 5, newBlock 0 0 0 1 soloShape none 1 4096 4096 16 1)] }
def turnWitnesses : List Bool :=
  let slice := turn 1000000 (occ 0 0 0) fun h => shared (onPt (fun q => { q with sliceAt := 0 }) h)
  let halt (g : Hw → Hw) := turn 0 (occ 0 0 0) fun h => g (onPt (fun q => { q with halting := true }) h)
  let area := fn1 fun f => { f with race := { f.race with frbase := 0x80000#64 } }
  let ends (s : State) := inv s && (s.hw.part 0).running == some 1 && (s.hw.part 0).halting && s.hw.drained 1
  let rest (saved : Option Nat) := turn 0 (occ 0 0 0) (onPt fun q => { q with running := none, saved := saved })
  let restores (s : State) := inv s && (s.hw.part 0).live && (s.hw.part 0).running.isNone && !s.hw.trip && Tab.rising s.hw.warps &&
    (((s.hw.part 0).saved.filter s.hw.hasWork).or (s.hw.nextTurn 0 (s.hw.part 0).turn)) == some 1
  [inv slice && (slice.hw.part 0).running == some 1 && !(slice.hw.part 0).halting && slice.hw.sliceOver (env slice) 0 1 && Tab.rising slice.hw.warps,
   ends (halt id) && ((halt id).hw.fn 1).race.frbase == 0#64 && ((halt id).hw.fn 1).race.rrbase == 0#64 && decide (((halt id).hw.part 0).pmosize < 16),
   ends (halt area) && ((halt area).hw.fn 1).race.frbase != 0#64 && ((halt area).hw.fn 1).race.rrbase == 0#64 && decide (((halt area).hw.part 0).pmosize < 16) &&
     Tab.rising (halt area).hw.blocks && ((halt area).hw.block? bk0).isSome, restores (rest none), restores (rest (some 1))]
theorem witness_turns : turnWitnesses.all id = true := by decide +kernel

def collapseWitnesses : List Bool :=
  let s (n c : Nat) := turn n (occ 1 0 0) fun h => idling (fn1 (fun f => { f with bind := { f.bind with wclass := c }, wake := { f.wake with idle := 1000, since := 0 } }) h)
  let w (st : ColState) (aux : Nat) := turn 9 (occ 1 0 aux) fun h => (fn1 (fun f => { f with wake := { f.wake with state := st, spill := [(0, page)] } }) h).onSq 1 3
    fun q => { q with held := true }
  [0, 1, 2].map (fun (c : Nat) => inv (s 1000000 c) && (s 1000000 c).hw.idleDue (env (s 1000000 c)) 1 && (s 1000000 c).hw.collapsible 1) ++
  [inv (s 999999 1) && !(s 999999 1).hw.idleDue (env (s 999999 1)) 1, !(turn 0 (occ 1 0 0) id).hw.collapsible 1,
   inv (w .active 0) && inv (w .collapsing 0),
   inv (w .waking 0) && !(w .waking 0).hw.occ.flag && decide (((w .waking 0).hw.core 0).bloom.length + 2 ≤ 1024) && ((w .waking 0).hw.fn 1).wake.state == .waking && (0, page) ∈ ((w .waking 0).hw.fn 1).wake.spill,
   inv (w .waking 1) && (w .waking 1).hw.occ.aux == 1 && ((w .waking 1).hw.sq 1 3).held && !((w .waking 1).hw.sq 1 3).err,
   inv (w .collapsed 0) && ((w .collapsed 0).hw.fn 1).wake.state == .collapsed]
/-- Each step of a collapse, for each class, and one that a wake has stopped. -/
def collapseSteps : List Bool :=
  let s (c n : Nat) (st : ColState) := turn 0 (occ 1 0 n) fun h => idling (fn1 (fun f => { f with
    bind := { f.bind with wclass := c }, wake := { f.wake with state := st } }) (cached h))
  [inv (s 1 2 .waking) && ((s 1 2 .waking).hw.fn 1).wake.state != .collapsing] ++
  [(1, 1), (2, 2), (1, 3), (2, 4), (0, 1)].map fun (x : Nat × Nat) =>
    let t := s x.1 x.2 .collapsing
    inv t && 0 < t.hw.occ.aux && (t.hw.fn 1).bind.wclass == x.1 && (t.hw.fn 1).wake.state == .collapsing &&
      (x.2 != 4 || (t.hw.onFn 1 fun f => { f with wake := { f.wake with state := .collapsed } }).allDeep (t.hw.partOf 1))
theorem witness_collapse_steps : collapseSteps.all id = true := by decide +kernel
theorem witness_collapse_and_wake : collapseWitnesses.all id = true := by decide +kernel

/-! ## Placement and ends (PlacementAndEnds) -/

/-- Grid 0 of a shape waits for its first block. -/
def gridded (n : Nat) (g : Grid → Grid) (f : Hw → Hw) : State := turn n (occ 0 0 0) fun h =>
  f { h with grids := [(0, g { Grid.plain .launch 1 1 1#64 soloShape with total := 4 })] }
def placeWitnesses : List Bool :=
  let ok (s : State) (p : Nat × Grid → Bool) := inv s && s.hw.placing 0 == some 1 && match s.hw.waitingGrids 1 with
    | [x] => s.hw.grid? x.1 == some x.2 && p x
    | _ => false
  let placed (s : State) (n : Nat) := ok s fun x => x.2.kind != .units && decide ((warpsOf x.2.shape x.2.cons).length ≤ 32) &&
    match s.hw.find 1 (s.hw.part (s.hw.partOf 1)).rings x.2.shape x.2.cons with
    | some (_, l) => l.length == n && decide (l.map fun x => 16 * x.core + x.slot).Nodup
    | none => false
  let huge := gridded 0 (fun g => { g with shape := { soloShape with wpb := 32, k := 32 } }) id
  let late := gridded 100000 (fun g => { g with waitSince := some 0 }) id
  [placed (gridded 0 id id) 1, placed (gridded 0 (fun g => { g with shape := { soloShape with bpc := 2, wpb := 2, pwarps := 1, pregs := 8 } }) id) 2,
   ok huge fun x => (huge.hw.placeOne (env huge) x.1 x.2).isNone && x.2.waitSince.isNone,
   ok late fun x => x.2.waitSince == some 0]
theorem witness_placement : placeWitnesses.all id = true := by decide +kernel

/-- The block's warps have ended; its grid has `total` blocks and no other has ended. -/
def ending (total : Nat) (f : Hw → Hw) : State := turn 0 (occ 1 0 0) fun h => f (onW (fun w => { w with done := true }) { h with
  grids := [(0, { Grid.plain .launch 1 7 1#64 soloShape with total := total })] })
def blockEndWitnesses : List Bool :=
  let q : QCmd := ⟨15, List.replicate 64 0#8, true, none, none, 1, 0, [], []⟩
  [1, 2].map (fun (n : Nat) =>
    let s := ending n (fn1 fun f => { f with cmds := [(7, q)] })
    inv s && s.hw.blockDone bk0 && !(s.hw.cmds.any fun c => wkBlock c.2.wk == bk0) && match s.hw.block? bk0 with
    | some b => (s.hw.grid? b.grid).any fun g => g.kind == .launch && decide (g.total ≤ g.freed + 1) == decide (n = 1) &&
        (Tab.find? (s.hw.fn g.fn).cmds g.seq).any fun c => c.left ≤ 1
    | none => false)
theorem witness_block_ends : blockEndWitnesses.all id = true := by decide +kernel

def depWitnesses : List Bool :=
  let s (d : DepEntry) (f : Hw → Hw) := turn 0 (occ 1 0 0) fun h => f (h.onFCore 1 0 fun c => { c with deps := [d] })
  let first (s : State) (d : DepEntry) := inv s && ((s.hw.fcore 1 0).deps.find? fun d => s.hw.depReady 1 0 d && !(d.kind == 3 && s.hw.elemsOf d.wk)) == some d &&
    !s.hw.wraps (wkBlock d.wk) 3 && atRest s && (s.hw.block? (wkBlock d.wk)).any fun b => b.core == 0
  let zero : DepEntry := ⟨0, wk0, false, [], [2#32 ||| 0xC0#32, 0#32], 0#32, 0#32, 0⟩
  let arr : DepEntry := ⟨3, wk0, false, [], [15#32], 0#32, 0#32, 0⟩
  [first (s zero id) zero && depEngine 0 == some .matrix && (s zero id).hw.ownsEngine 1 0 .matrix,
   (let t := s arr (onB fun b => { b with bars := [(15, { Barrier.fresh with init := true, exp := 1 })] })
    first t arr && (t.hw.block? bk0).any fun b => match t.hw.mayArrive bk0 b ((arr.cmd.headD 0#32) &&& 0x7FF#32) 0 with
    | .ok _ => true
    | .error _ => false)]
theorem witness_dependencies : depWitnesses.all id = true := by decide +kernel

def watchdogWitnesses : List Bool :=
  let s (f : Hw → Hw) : State := let t := turn 0 (occ 0 wk0 0) fun h => f (onPt (fun q => { q with phvec := 0x18000#64 }) h)
    { t with clk := { t.clk with cycle := 2 ^ 40 + 1 } }
  [s id, s (onW (split fun p => { p with count := 9 }))].map fun t => inv t && match t.hw.warp? wk0, t.hw.block? (wkBlock wk0) with
    | some w, some b => Hw.watchdogDue (env t) b w && t.hw.runs 1 && w.mode == .user && (t.hw.part (t.hw.partOf 1)).phvec != 0#64 &&
        !(t.hw.part (t.hw.partOf 1)).imask.getLsbD 0
    | _, _ => false
theorem witness_watchdog : watchdogWitnesses.all id = true := by decide +kernel

/-- Unit 9 beside unit 10 of the same launch. -/
def united (g : GUnit → GUnit) (f : Hw → Hw) : State := turn 0 (occ 9 0 0) fun h =>
  f { h with units := [(9, g (gunit 0#32 0#32 true)), (10, gunit 0#32 0#32 false)] }
def unitWitnesses : List Bool :=
  let other (s : State) (g : GUnit) := match Tab.find? s.hw.units 10 with
    | some y => y.fn == g.fn && y.seq == g.seq && !y.ended
    | none => false
  let is (s : State) (p : GUnit → Bool) := inv s && match Tab.find? s.hw.units s.hw.occ.unit with
    | some g => p g && other s g
    | none => false
  let good := united (fun g => { g with verdict := true, gmem := [(0x60400, 7#8), (0x60401, 0#8)], tiles := [0x60], ring := some 0 }) fun h =>
    { h with tags := [(0x60, withSt 0x0003#16 2)] }
  let ends (c : Nat) := united (fun g => { g with tiles := [0x60] }) fun h => { h with
    tags := [(0x60, withSt 0x0003#16 2)]
    grids := [(3, { Grid.plain .exact 1 5 1#64 soloShape with unit := some 9, total := 1, freed := 1, cause := c })] }
  [is good fun g => g.outcome == 0 && !g.faulted && !g.poisoned && g.sealed && g.verdict && !good.hw.mergeConflict g && g.status == 0 &&
     !(g.gmem.any fun x => Tab.has good.hw.owners (lineOf x.1)) && Tab.rising g.gmem && (g.tiles.all fun k => paKind (4096 * k) == .hbm &&
     tagSt (good.hw.tag (4096 * k)) == 2) && g.ring.isSome] ++
  [{ gunit 0#32 0#32 true with verdict := true, faulted := true }, { gunit 0#32 0#32 true with poisoned := true }, gunit 0#32 0#32 false].map
    (fun (x : GUnit) => let s := united (fun _ => x) id; is s fun g => g.outcome == 0 && (g.faulted || g.poisoned || !g.sealed || !g.verdict)) ++
  [0, 5].map (fun (c : Nat) => is (ends c) fun g => g.status == 0 && match (ends c).hw.grids.find? fun (x : Nat × Grid) => x.2.kind == .exact && x.2.unit == some 9 with
    | some (_, x) => decide (x.total ≤ x.freed) && x.cause == c
    | none => false)
theorem witness_units : unitWitnesses.all id = true := by decide +kernel

/-- A routine that has ended, and a conversion that a routine waits for. -/
def routineWitnesses : List Bool :=
  let q (n : Nat) : QCmd := ⟨15, List.replicate 64 0#8, true, none, none, n, 0, [], []⟩
  let g : Grid := { Grid.plain .routine 1 7 1#64 soloShape with total := 1, freed := 1, outs := [(0x60, 0x0003#16)] }
  let s (n : Nat) (gs : List (Nat × Grid)) := turn 0 (occ 0 0 0) fun h => { fn1 (fun f => { f with cmds := [(7, q n)] }) h with
    tags := [(0x60, withSt 0x0003#16 2)], grids := gs }
  let ok (t : State) := inv t && match t.hw.grid? t.hw.occ.unit with
    | some g => decide (g.total ≤ g.freed) && decide (g.outs.map (·.1)).Nodup && g.next_ != some 0 && (Tab.find? (t.hw.fn g.fn).cmds g.seq).isSome &&
        (g.outs.all fun x => paKind (4096 * x.1) == .hbm && tagSt (t.hw.tag (4096 * x.1)) == 2)
    | none => false
  [ok (s 1 [(0, g)]), ok (s 1 [(0, { g with cause := 5 })]), ok (s 2 [(0, { g with kind := .conversion, next_ := some 1 }), (1, { g with waits := [0], freed := 0 })])]
theorem witness_routines : routineWitnesses.all id = true := by decide +kernel

end Sys2Proof.Tests
end

section
/-! # The invariant

Every meaning but that of PACKAGE_RESET is run by `State.run`, so that memory's one
form, and that no byte waits to be written, are kept by every instruction and by every step (R3, R288). -/
namespace Sys2Proof.Machine

/-! ## What is run on the package -/

/-- A meaning that is run on the package: what it writes is put into memory at its end, and nothing waits after it. -/
def Runs (m : State → Host.Outcome State Fault Refusal) : Prop :=
  ∃ f : Env → Hw → Host.Outcome Hw Fault Refusal, ∀ s, m s = s.run f

section
variable {i : Instr}

theorem runs_event {f} : Runs fun s => s.event f := ⟨_, fun _ => rfl⟩
theorem runs_issueCtl {f} : Runs fun s => issueCtl i s f := ⟨_, fun _ => rfl⟩
theorem runs_issue {f} : Runs fun s => issue i s f := runs_issueCtl
theorem runs_regionEdge {f} : Runs fun s => regionEdge i s f := ⟨_, fun _ => rfl⟩
theorem runs_alu {d val} : Runs fun s => alu i d s val := runs_issue
theorem runs_alu64 {d val} : Runs fun s => alu64 i d s val := runs_issue
theorem runs_alu1 {d a im x f} : Runs fun s => alu1 i d a im x s f := runs_alu
theorem runs_alu2 {d a b im x y f} : Runs fun s => alu2 i d a b im x y s f := runs_alu
theorem runs_alu3 {d a b im x y f} : Runs fun s => alu3 i d a b im x y s f := runs_alu
theorem runs_fp1 {d a im x f} : Runs fun s => fp1 i d a im x s f := runs_alu
theorem runs_fp2 {d a b im x y f} : Runs fun s => fp2 i d a b im x y s f := runs_alu
theorem runs_reduce {d im a x f one} : Runs fun s => reduce i d im a x s f one := runs_alu
theorem runs_setp {p val} : Runs fun s => setp i p s val := runs_issue
theorem runs_exchange {d val} : Runs fun s => exchange i d s val := runs_issue
theorem runs_shuffle {im d a b x y src} : Runs fun s => shuffle i im d a b x y s src := runs_exchange
theorem runs_iterative {d n val} : Runs fun s => iterative i d n s val := runs_issue
theorem runs_loadInto {u l scope z addr} : Runs fun s => loadInto i u l scope z s addr := runs_issue
theorem runs_storeFrom {u l scope z addr} : Runs fun s => storeFrom i u l scope z s addr := runs_issue
theorem runs_atomic {op cls ret ua ub sc} : Runs fun s => atomic i op cls ret ua ub sc s := runs_issue
theorem runs_fence {acq rel sc} : Runs fun s => fence i acq rel sc s := runs_issue
theorem runs_matrixPush {ws} : Runs fun s => matrixPush i s ws := runs_issue
theorem runs_sequencedPush {d k ws} : Runs fun s => sequencedPush i d k s ws := runs_issue
theorem runs_execEret : Runs execEret := ⟨_, fun _ => rfl⟩
end

/-- Every meaning but that of PACKAGE_RESET, which sets the clock, is run on the package. -/
theorem runs_exec {i : Instr} (hi : i ≠ .packageReset) : Runs (exec i) := by
  unfold exec
  cases i with
  | lui | sel | ptov | ballot | nlanes | firstl | rdlane | bcast | ffma | fscale | bfma2 | hfma2 | cvtFI
  | cvtIF | cvtZF | cvtFD | cvtI8F | cstamp => exact runs_alu
  | clz | popc | brev | ffs | addi | muli | andi | ori | xori | shi | mov => exact runs_alu1
  | add | sub | min | max | minu | maxu | absd | addsat | mul | mulh | mulhu | and | or | xor | andn | shl
  | shr | sha | rot | bfx | bfxz | permb | fcpys => exact runs_alu2
  | mad | bfi => exact runs_alu3
  | dadd | dmul | dfma | cvtDF => exact runs_alu64
  | frcp | frsq | cvtFZ | cvtBfF | cvtHF | cvtFBf | cvtFH | frnd => exact runs_fp1
  | fadd | fsub | fmul | fmin | fmax | badd2 | bmul2 | bmax2 | hadd2 | hmul2 | hmax2 | niq | nidq => exact runs_fp2
  | rdxAdd | rdxMax | rdxMin | rdxOr | rdxAnd | rdxFadd => exact runs_reduce
  | cmpi | cmp | fcmp | dcmp | fclass | pand | por | pxor | pandn | vtop | voteAny | voteAll | elect => exact runs_setp
  | sexp | nipl => exact runs_exchange
  | shflIdx | shflUp | shflDn | shflXor => exact runs_shuffle
  | div | divu | rem | remu | fdiv | fsqrt | fexp2 | flog2 | fsin | fcos | ddiv => exact runs_iterative
  | ld | ldxW | ldxD => exact runs_loadInto
  | st | stxW | stxD => exact runs_storeFrom
  | atomAdd | atomMin | atomMax | atomAnd | atomOr | atomXor | atomMinu | atomMaxu | xchg | cas | xchgD
  | casD | redAdd | redMin | redMax | redOr | atomFadd | redFadd | redBfadd2 | atomAddD => exact runs_atomic
  | fenceAcq | fenceRel | fenceAr | fenceSc => exact runs_fence
  | mma | mmaP | mmaZ | mmaPz | drain | mzero | mload => exact runs_matrixPush
  | copy | copyo | copyAt | gather | send | sendAt | rred | rbcast => exact runs_sequencedPush
  | bra | brp | call | join | brkj | exit | jmpr => exact runs_issueCtl
  | enter | leave => exact runs_regionEdge
  | movx | pack | wrlane | bararr | barwait | barsync | barexp | barinit | barinv | barqry | bartry | mon
  | mwait | swait | twait | cbatch | cwait | cpoll | jpt | mwaita | tagrd | tagwr | tagchk | mdisp | task
  | tready | resid | gchk | bkpt | trace | trap | srd | swr | win | rdctr | ctrctl | tick | yield | imask
  | tlbir | tlbia | shoot | l1wb | l1inv | l2cln | haltb | ctxsv | ctxld | dumpw | racew | setmt => exact runs_issue
  | eret => exact runs_execEret
  | packageReset => exact absurd rfl hi
  | _ => exact runs_event

/-! ## What keeps the invariant -/

/-- Whatever a meaning writes goes through `flush`, which keeps memory in its one form. -/
theorem inv_of_run {s t : State} {f} (hs : Memory.wf s.mem = true) (h : s.run f = .next t) : t.Inv := by
  unfold State.run at h
  split at h
  case h_1 k _ =>
    obtain rfl := Host.Outcome.next.inj h
    exact ⟨flush_wf k.wq s.mem hs, rfl⟩
  all_goals contradiction

theorem inv_of_exec {i : Instr} {s t : State} (hs : Memory.wf s.mem = true) (h : exec i s = .next t) : t.Inv := by
  by_cases hi : i = .packageReset
  · subst hi
    obtain rfl := Host.Outcome.next.inj (show execPackageReset s = .next t from h)
    exact ⟨hs, rfl⟩
  · obtain ⟨f, hf⟩ := runs_exec hi
    exact inv_of_run hs (hf s ▸ h)

theorem inv_elapse {s : State} (hs : Memory.wf s.mem = true) : s.elapse.Inv := ⟨hs, rfl⟩

theorem elapsed_eq_next {o : Host.Outcome State Fault Refusal} {t : State} (h : elapsed o = .next t) :
    ∃ u, o = .next u ∧ t = u.elapse := by
  cases o with
  | next u => exact ⟨u, rfl, (Host.Outcome.next.inj h).symm⟩
  | fault => contradiction
  | refused => contradiction

theorem served_eq_next {old : Hw} {c : Cand} {o : Host.Outcome State Fault Refusal} {t : State}
    (h : served old c o = .next t) : ∃ u, o = .next u ∧ t = { u with hw := u.hw.serve old c } := by
  cases o with
  | next u => exact ⟨u, rfl, (Host.Outcome.next.inj h).symm⟩
  | fault => contradiction
  | refused => contradiction

/-- A step is an event, an issue, a fetch that fails, or none of them, and then time passes. -/
theorem inv_of_step {s t : State} (hs : Memory.wf s.mem = true) (h : step s = .next t) : t.Inv := by
  simp only [step] at h
  split at h
  case h_1 =>
    obtain ⟨u, hu, rfl⟩ := elapsed_eq_next h
    exact inv_elapse (inv_of_exec (by exact hs) hu).1
  case h_2 =>
    split at h
    · obtain ⟨u, hu, rfl⟩ := elapsed_eq_next h
      obtain ⟨v, hv, rfl⟩ := served_eq_next hu
      exact inv_elapse (s := { v with hw := _ }) (inv_of_exec (by exact hs) hv).1
    · obtain rfl := Host.Outcome.next.inj h
      exact inv_elapse (flush_wf _ s.mem hs)
  case h_3 k _ =>
    obtain rfl := Host.Outcome.next.inj h
    exact inv_elapse (s := { s with hw := k }) hs

/-- Settles O59: each step is made of meanings that write memory only through `flush`, and of time passing. -/
theorem stepKeepsTheInvariant : Obligations.StepKeepsTheInvariant := by
  unfold Obligations.StepKeepsTheInvariant
  exact ⟨fun _ _ hs h => inv_of_step hs.1 h, fun _ _ _ hs h => inv_of_exec hs.1 h⟩

end Sys2Proof.Machine
end

section
/-! # Reset

What the parts of the package read as right after reset (R29). -/
namespace Sys2Proof.Machine

/-! ## Nothing is listed, so every part reads as its reset value -/

theorem fn_reset (f : Nat) : State.reset.hw.fn f = Fn.reset := rfl
theorem sq_reset (f q : Nat) : State.reset.hw.sq f q = SQ.reset := rfl
theorem part_reset (p : Nat) : State.reset.hw.part p = Part.reset := rfl
theorem root_reset (c : Nat) : State.reset.hw.root c = (0, false) := rfl
theorem inv_reset : State.reset.Inv := ⟨rfl, rfl⟩

/-- Settles O60: each function, queue, partition and root reads as its reset value, whose fields are those of the tables. -/
theorem resetState : Obligations.ResetState := by
  unfold Obligations.ResetState
  refine ⟨inv_reset, rfl, rfl, rfl, rfl, rfl, rfl, fun f => ?_, sq_reset, fun p => ?_, root_reset⟩
  · simp [fn_reset, Fn.reset, Bind.reset, FabEntry.reset, Attest.reset, Race.reset, Wake.reset, Debug.reset]
  · simp [part_reset, Part.reset, Owns.none]

end Sys2Proof.Machine
end

section
/-! # Registers

A REGISTER_WRITE to the Resizable BAR capability is no access of BAR 0, so `Hw.regOk`
says nothing of it (R33; log 17). -/
namespace Sys2Proof.Machine

/-- The host sets the PF's BAR 2 to 2 MiB through its Resizable BAR capability. -/
def resizeRequest : State :=
  { State.reset with hw := { Hw.reset with occ := { Occasion.none with val := 21, flag := true } } }

/-- `Hw.regOk` is false of the request, and yet the write is made: B2SZ is 21, and nothing is answered. -/
theorem resizeRequest_sets_b2sz : resizeRequest.hw.regOk 0 0 0 = false ∧
    ∃ t, exec .registerWrite resizeRequest = .next t ∧ (t.hw.fn 0).b2sz = 21 ∧ t.hw.out = [] :=
  ⟨by decide, _, rfl, by decide, by decide⟩

/-- Refutes O48: its first clause leaves out `flag`. From reset, the host writes 21 to the PF's Resizable BAR capability; the
occasion is no BAR 0 access, so `Hw.regOk` is false of it, yet the write is made and no Unsupported Request is answered. -/
theorem not_registersAndFabric : ¬ Obligations.RegistersAndFabric := by
  unfold Obligations.RegistersAndFabric
  rintro ⟨refused, -⟩
  obtain ⟨hno, t, ht, -, hout⟩ := resizeRequest_sets_b2sz
  have answered : exec .registerWrite resizeRequest = .next { resizeRequest with hw := resizeRequest.hw.send .unsupported } :=
    refused .registerWrite resizeRequest (.inl rfl) ⟨rfl, rfl⟩ hno
  obtain rfl := Host.Outcome.next.inj (ht.symm.trans answered)
  have silent : [Out.unsupported] = [] := hout
  contradiction

end Sys2Proof.Machine
end

section
/-! # Steps of the package

What running a step of the package answers, and what the package's own bookkeeping (the agenda, the trace of the I/O
die) leaves alone. -/
namespace Sys2Proof.Machine

open Sys2Proof.Terms

/-! ## Running a step -/

/-- A step that leaves no byte to be written changes the package alone. -/
theorem event_eq_next {s : State} {f : Env → Hw → Hw} {k : Hw} (hk : f (env s) s.hw = k) (hq : k.wq = []) :
    s.event f = .next { s with hw := k } := by
  have run : s.event f = .next { s with mem := flush k.wq s.mem, hw := { k with wq := [] } } := by
    rw [← hk]; rfl
  rw [run, hq, show { k with wq := [] } = k by rw [← hq]]
  rfl

theorem turns_of_event {i : Instr} {s : State} {f : Env → Hw → Hw} {k : Hw} (hi : exec i s = s.event f)
    (hk : f (env s) s.hw = k) (hq : k.wq = []) : Turns i s k := hi.trans (event_eq_next hk hq)

/-! ## Tables -/

variable {α : Type}

theorem Tab.put_put (t : Tab α) (k : Nat) (v w : α) : Tab.put (Tab.put t k v) k w = Tab.put t k w := by
  induction t with
  | nil => simp [Tab.put]
  | cons e t ih =>
    obtain ⟨j, x⟩ := e
    simp only [Tab.put]
    split
    · simp [Tab.put]
    · split
      · simp [Tab.put]
      · simp [Tab.put, *]

theorem Tab.find?_mapVals (g : Nat → α → α) (t : Tab α) (k : Nat) :
    Tab.find? (Tab.mapVals g t) k = (Tab.find? t k).map (g k) := by
  induction t with
  | nil => rfl
  | cons e t ih =>
    obtain ⟨j, x⟩ := e
    by_cases hj : j = k
    · subst hj; simp [Tab.mapVals, Tab.find?]
    · simp [Tab.mapVals, Tab.find?, hj, ih]

theorem Tab.modify_eq_put {t : Tab α} {k : Nat} {v : α} (g : α → α) (h : Tab.find? t k = some v) :
    Tab.modify t k g = Tab.put t k (g v) := by
  simp [Tab.modify, h]

theorem Tab.lt_of_mem_above {t : Tab α} {b k : Nat} {v : α} (h : Tab.above b t = true) (hm : (k, v) ∈ t) : b < k := by
  induction t generalizing b with
  | nil => simp at hm
  | cons e t ih =>
    obtain ⟨j, x⟩ := e
    simp only [Tab.above, Bool.and_eq_true, decide_eq_true_eq] at h
    rcases List.mem_cons.mp hm with he | ht
    · obtain ⟨rfl, -⟩ := Prod.mk.inj he; exact h.1
    · exact h.1.trans (ih h.2 ht)

/-- In a table with rising keys, what is listed is what is read. -/
theorem Tab.mem_iff_find? {t : Tab α} (h : Tab.rising t = true) (k : Nat) (v : α) : (k, v) ∈ t ↔ Tab.find? t k = some v := by
  induction t with
  | nil => simp
  | cons e t ih =>
    obtain ⟨j, x⟩ := e
    have ht : Tab.above j t = true := h
    by_cases hj : j = k
    · subst hj
      have later : (j, v) ∉ t := fun hm => absurd (Tab.lt_of_mem_above ht hm) (lt_irrefl j)
      simp [Tab.find?, later, eq_comm]
    · simp [Tab.find?, hj, Ne.symm hj, ih (Tab.rising_of_above ht)]

/-! ## Rings and functions -/

section
variable (h : Hw)

theorem Hw.ring_onRing (r k : Nat) (g : Ring → Ring) :
    (h.onRing r g).ring k = if k = r then g (h.ring r) else h.ring k := by
  split
  · next e => subst e; exact Tab.getD_put_same _ _ _ _
  · next e => exact Tab.getD_put_other _ _ _ e

theorem Hw.fn_onFn (f k : Nat) (g : Fn → Fn) : (h.onFn f g).fn k = if k = f then g (h.fn f) else h.fn k := by
  split
  · next e => subst e; exact Hw.fn_onFn_same _ _ _
  · next e => exact Hw.fn_onFn_other _ _ e

/-! ## The agenda -/

/-- Two machines that differ only in what is planned. -/
def Hw.agendaOnly (h k : Hw) : Prop := k = { h with agenda := k.agenda }

theorem Hw.agendaOnly_refl : h.agendaOnly h := rfl
theorem Hw.agendaOnly_trans {h k l : Hw} (a : h.agendaOnly k) (b : k.agendaOnly l) : h.agendaOnly l := by
  unfold Hw.agendaOnly
  rw [b, a]

theorem Hw.agendaOnly_planOnce (i : Instr) (o : Occasion) : h.agendaOnly (h.planOnce i o) := by
  unfold Hw.planOnce
  split <;> rfl

theorem Hw.mem_planOnce (i : Instr) (o : Occasion) : Move.event i o ∈ (h.planOnce i o).agenda := by
  unfold Hw.planOnce
  split
  · next e => exact List.contains_iff_mem.mp e
  · exact List.mem_append_right _ (List.mem_singleton_self _)

/-- Kicking a core's engines plans starts, and does nothing else. -/
theorem Hw.agendaOnly_kick (fn core : Nat) : h.agendaOnly (h.kick fn core) := by
  unfold Hw.kick
  refine List.foldlRecOn (motive := h.agendaOnly) _ _ h.agendaOnly_refl fun k hk id _ => ?_
  split
  · split
    · exact Hw.agendaOnly_trans hk (Hw.agendaOnly_planOnce k _ _)
    · exact hk
  · exact hk

/-! ## The trace of the I/O die -/

/-- A record of the I/O die goes to its trace buffer, and plans that it is forwarded. -/
theorem Hw.emitIo_eq (e : Env) (f ty : Nat) (pay : BitVec 128) : h.emitIo e f ty pay =
    { h with trace := (h.emitIo e f ty pay).trace, agenda := (h.emitIo e f ty pay).agenda } := by
  unfold Hw.emitIo
  split
  · dsimp only
    split
    · rw [Hw.agendaOnly_planOnce]
    · rfl
  · rfl

theorem Hw.emitIo_fns (e : Env) (f ty : Nat) (pay : BitVec 128) : (h.emitIo e f ty pay).fns = h.fns := by
  rw [Hw.emitIo_eq]
theorem Hw.emitIo_rings (e : Env) (f ty : Nat) (pay : BitVec 128) : (h.emitIo e f ty pay).rings = h.rings := by
  rw [Hw.emitIo_eq]
end

end Sys2Proof.Machine
end

section
/-! # The boot chain

Which stage ends the chain, and what each stage's measurement reads (R61, R62). -/
namespace Sys2Proof.Machine

open Sys2Proof.Terms

/-- One stage: it runs once measured, or it ends the chain. -/
theorem bootFrom_succ (n i : Nat) (b : Boot) : bootFrom (n + 1) i b =
    if bootStep i = true then bootFrom n (i + 1) { b with meas := b.meas.modify i fun m => measured m (bootDigest i) }
    else { b with failed := some i } := rfl

/-- The stage that failed is the first of the chain that may not run. -/
theorem bootFrom_failed (n i : Nat) {b : Boot} (hb : b.failed = none) :
    (bootFrom n i b).failed = (List.range' i n).find? fun j => !bootStep j := by
  induction n generalizing i b with
  | zero => exact hb
  | succ n ih =>
    rw [bootFrom_succ, List.range'_succ, List.find?_cons]
    split
    · next ok => simp only [ok, Bool.not_true]; exact ih (i + 1) hb
    · next bad => simp [bad]

/-- The chain ends either in READY or in a failed stage. -/
theorem bootFrom_ready (n i : Nat) {b : Boot} (hr : b.ready = false) (hb : b.failed = none) :
    (bootFrom n i b).ready = (bootFrom n i b).failed.isNone := by
  induction n generalizing i b with
  | zero => simp [bootFrom, hb]
  | succ n ih =>
    rw [bootFrom_succ]
    split
    · exact ih (i + 1) hr hb
    · exact hr

/-- A stage before the place where the chain stands keeps its measurement. -/
theorem bootFrom_meas_before (n i : Nat) (b : Boot) {j : Nat} (hj : j < i) :
    (bootFrom n i b).meas.getD j 0#512 = b.meas.getD j 0#512 := by
  induction n generalizing i b with
  | zero => rfl
  | succ n ih =>
    rw [bootFrom_succ]
    split
    · rw [ih (i + 1) _ (by omega)]
      simp [Nat.ne_of_gt hj]
    · rfl

/-- A stage is measured where it and every one before it pass. -/
theorem bootFrom_meas_passed (n i : Nat) (b : Boot) {j : Nat} (hij : i ≤ j) (hj : j < i + n) (hl : i + n ≤ b.meas.length)
    (ok : ∀ k, i ≤ k → k ≤ j → bootStep k = true) :
    (bootFrom n i b).meas.getD j 0#512 = measured (b.meas.getD j 0#512) (bootDigest j) := by
  induction n generalizing i b with
  | zero => omega
  | succ n ih =>
    rw [bootFrom_succ, if_pos (ok i le_rfl hij)]
    rcases Nat.eq_or_lt_of_le hij with rfl | hlt
    · have listed : i < b.meas.length := by omega
      rw [bootFrom_meas_before n (i + 1) _ (Nat.lt_succ_self i)]
      simp [listed]
    · rw [ih (i + 1) _ hlt (by omega) (by simpa using (by omega : i + 1 + n ≤ b.meas.length))
        fun k hk => ok k (by omega)]
      simp [Nat.ne_of_lt hlt]

/-- A stage is not measured where it or one before it fails. -/
theorem bootFrom_meas_stopped (n i : Nat) (b : Boot) {j k : Nat} (hik : i ≤ k) (hkj : k ≤ j) (bad : bootStep k = false) :
    (bootFrom n i b).meas.getD j 0#512 = b.meas.getD j 0#512 := by
  induction n generalizing i b with
  | zero => rfl
  | succ n ih =>
    rw [bootFrom_succ]
    split
    · next ok =>
      have hne : i ≠ k := by rintro rfl; simp [bad] at ok
      rw [ih (i + 1) _ (by omega)]
      simp [show i ≠ j by omega]
    · rfl

/-! ## The chain from reset -/

/-- The package as the boot chain leaves it after reset. -/
def booted : Boot := bootFrom 4 0 Boot.reset

theorem booted_failed : booted.failed = (List.range 4).find? fun j => !bootStep j := bootFrom_failed 4 0 rfl

theorem booted_ready : booted.ready = true ↔ ∀ i, i < 4 → bootStep i = true := by
  have ready : booted.ready = booted.failed.isNone := bootFrom_ready 4 0 rfl rfl
  rw [ready, booted_failed, Option.isNone_iff_eq_none, List.find?_range_eq_none]
  simp

theorem booted_not_ready : booted.ready = false ↔ booted.failed.isSome = true := by
  have ready : booted.ready = booted.failed.isNone := bootFrom_ready 4 0 rfl rfl
  rw [ready]
  simp

theorem booted_failed_at {i : Nat} (h : booted.failed = some i) :
    i < 4 ∧ bootStep i = false ∧ ∀ j, j < i → bootStep j = true := by
  rw [booted_failed, List.find?_range_eq_some] at h
  obtain ⟨bad, hi, before⟩ := h
  exact ⟨List.mem_range.mp hi, by simpa using bad, fun j hj => by simpa using before j hj⟩

theorem booted_meas {i : Nat} (hi : i < 4) : booted.meas.getD i 0#512 =
    if (∀ j, j ≤ i → bootStep j = true) then measured 0#512 (bootDigest i) else 0#512 := by
  have zero : Boot.reset.meas.getD i 0#512 = 0#512 := by
    match i, hi with
    | 0, _ | 1, _ | 2, _ | 3, _ => rfl
  split
  · next ok =>
    rw [booted, bootFrom_meas_passed 4 0 _ (Nat.zero_le i) (by omega) (by decide) fun k _ => ok k, zero]
  · next stops =>
    push Not at stops
    obtain ⟨k, hk, bad⟩ := stops
    rw [booted, bootFrom_meas_stopped 4 0 _ (Nat.zero_le k) hk (by simpa using bad), zero]

end Sys2Proof.Machine
end

section
/-! # Clock locks

What breaking the locks on rings does to the functions that hold them and to the rings (R285). -/
namespace Sys2Proof.Machine

open Sys2Proof.Terms

/-! ## What changes of the package -/

/-- Two machines that differ only in functions, rings, trace and what is planned. -/
def Hw.clocksOnly (h k : Hw) : Prop :=
  k = { h with fns := k.fns, rings := k.rings, trace := k.trace, agenda := k.agenda }

theorem Hw.clocksOnly_refl (h : Hw) : h.clocksOnly h := rfl
theorem Hw.clocksOnly_trans {h k l : Hw} (a : h.clocksOnly k) (b : k.clocksOnly l) : h.clocksOnly l := by
  unfold Hw.clocksOnly
  rw [b, a]
theorem Hw.clocksOnly.wq {h k : Hw} (a : h.clocksOnly k) : k.wq = h.wq := by rw [a]

theorem Hw.clocksOnly_onRing (h : Hw) (r : Nat) (g : Ring → Ring) : h.clocksOnly (h.onRing r g) := rfl
theorem Hw.clocksOnly_onFn (h : Hw) (f : Nat) (g : Fn → Fn) : h.clocksOnly (h.onFn f g) := rfl
theorem Hw.clocksOnly_emitIo (h : Hw) (e : Env) (f ty : Nat) (pay : BitVec 128) : h.clocksOnly (h.emitIo e f ty pay) := by
  unfold Hw.clocksOnly
  rw [Hw.emitIo_eq]

/-! ## A ring's operating point -/

section
variable (h : Hw) (e : Env) (f r opp : Nat) (lock : Bool)

theorem Hw.clocksOnly_setPoint : h.clocksOnly (h.setPoint e f r opp lock) := by
  unfold Hw.setPoint
  dsimp only
  split
  · exact Hw.clocksOnly_trans (h.clocksOnly_onRing r _) (Hw.clocksOnly_emitIo _ _ _ _ _)
  · exact h.clocksOnly_onRing r _

theorem Hw.setPoint_fns : (h.setPoint e f r opp lock).fns = h.fns := by
  unfold Hw.setPoint
  dsimp only
  split
  · rw [Hw.emitIo_fns]; rfl
  · rfl

theorem Hw.ring_setPoint (k : Nat) :
    (h.setPoint e f r opp lock).ring k = if k = r then { h.ring r with opp := opp } else h.ring k := by
  have rings : (h.setPoint e f r opp lock).rings = (h.onRing r fun x => { x with opp := opp }).rings := by
    unfold Hw.setPoint
    dsimp only
    split
    · rw [Hw.emitIo_rings]
    · rfl
  rw [← Hw.ring_onRing h r k fun x => { x with opp := opp }]
  exact congrArg (fun t => Tab.getD t k Ring.reset) rings
end

/-! ## A function that loses locks -/

/-- A function whose locks on the rings that meet `rs` are broken. -/
def Fn.unlocked (x : Fn) (rs : Nat → Bool) (cause : Nat) : Fn := { x with dbg := { x.dbg with
  locks := x.dbg.locks.filter fun r => !rs r
  broken := x.dbg.broken || x.dbg.locks.any rs
  bcause := if x.dbg.locks.any rs = true then cause else x.dbg.bcause } }

/-- A function that holds none of the locks is not concerned. -/
theorem Fn.unlocked_of_none (x : Fn) {rs : Nat → Bool} (cause : Nat) (h : ∀ r ∈ x.dbg.locks, rs r = false) :
    x.unlocked rs cause = x := by
  have none : x.dbg.locks.any rs = false := List.any_eq_false.mpr fun r hr => by simp [h r hr]
  have all : (x.dbg.locks.filter fun r => !rs r) = x.dbg.locks := List.filter_eq_self.mpr fun r hr => by simp [h r hr]
  simp [Fn.unlocked, none, all]

/-- Locks broken in two turns are the locks broken at once. -/
theorem Fn.unlocked_unlocked (x : Fn) (p q : Nat → Bool) (cause : Nat) :
    (x.unlocked p cause).unlocked q cause = x.unlocked (fun r => p r || q r) cause := by
  have any (l : List Nat) : (l.any fun r => p r || q r) = (l.any p || (l.filter fun r => !p r).any q) := by
    induction l with
    | nil => rfl
    | cons r l ih => cases hp : p r <;> simp [ih, hp, Bool.or_left_comm]
  have kept : ((x.dbg.locks.filter fun r => !p r).filter fun r => !q r) = x.dbg.locks.filter fun r => !(p r || q r) := by
    rw [List.filter_filter]
    exact congrArg (List.filter · _) (funext fun r => by cases p r <;> cases q r <;> rfl)
  unfold Fn.unlocked
  simp only [kept, any, Bool.or_assoc]
  cases x.dbg.locks.any p <;> simp

/-! ## The functions that hold a lock on a ring -/

/-- The functions that hold a lock on a ring. -/
def Hw.holders (h : Hw) (r : Nat) : List Nat := (h.fns.filter fun x => x.2.dbg.locks.contains r).map (·.1)

theorem Hw.mem_holders {h : Hw} (hr : Tab.rising h.fns = true) (f r : Nat) : f ∈ h.holders r ↔ r ∈ (h.fn f).dbg.locks := by
  have listed : f ∈ h.holders r ↔ ∃ x, Tab.find? h.fns f = some x ∧ r ∈ x.dbg.locks := by
    simp [Hw.holders, Tab.mem_iff_find? hr]
  rw [listed]
  unfold Hw.fn Tab.getD
  cases Tab.find? h.fns f <;> simp [Fn.reset, Debug.reset]

theorem Hw.holders_ne_nil {h : Hw} (hr : Tab.rising h.fns = true) (r : Nat) :
    h.holders r ≠ [] ↔ ∃ f, r ∈ (h.fn f).dbg.locks := by
  simp [List.eq_nil_iff_forall_not_mem, Hw.mem_holders hr]

/-! ## Breaking the locks on one ring -/

/-- A function that held a lock on a ring, broken with a cause. -/
def Fn.released (x : Fn) (r cause : Nat) : Fn :=
  { x with dbg := { x.dbg with locks := x.dbg.locks.filter (· != r), broken := true, bcause := cause } }

theorem Fn.released_released (x : Fn) (r cause : Nat) : (x.released r cause).released r cause = x.released r cause := by
  simp [Fn.released]

theorem Fn.released_eq_unlocked {x : Fn} {r : Nat} (cause : Nat) (h : r ∈ x.dbg.locks) :
    x.released r cause = x.unlocked (· == r) cause := by
  have held : (x.dbg.locks.any (· == r)) = true := List.any_eq_true.mpr ⟨r, h, beq_self_eq_true r⟩
  simp only [Fn.released, Fn.unlocked, held, Bool.or_true, if_true]
  rfl

/-- A function loses its lock on a ring, with the record CLKBREAK. -/
def Hw.release (e : Env) (r cause : Nat) (h : Hw) (f : Nat) : Hw :=
  (h.onFn f fun x => x.released r cause).emitIo e f 0x07 (payAt 16 (oppOf (h.fn f).dbg.opp) ||| payAt 17 r ||| payAt 18 cause)

theorem Hw.clkBreak_of_free {h : Hw} (e : Env) {r : Nat} (cause : Nat) (hf : h.holders r = []) : h.clkBreak e r cause = h := by
  unfold Hw.holders at hf
  simp only [Hw.clkBreak, hf, List.foldl_nil]

theorem Hw.clkBreak_of_held {h : Hw} (e : Env) {r : Nat} (cause : Nat) {f : Nat} {l : List Nat} (hf : h.holders r = f :: l) :
    h.clkBreak e r cause = ((f :: l).foldl (Hw.release e r cause) h).setPoint e f r 0 false := by
  unfold Hw.holders at hf
  simp only [Hw.clkBreak, hf]
  rfl

section
variable (h : Hw) (e : Env) (r cause : Nat)

theorem Hw.release_fns (f : Nat) : (Hw.release e r cause h f).fns = (h.onFn f fun x => x.released r cause).fns :=
  Hw.emitIo_fns _ _ _ _ _
theorem Hw.release_rings (f : Nat) : (Hw.release e r cause h f).rings = h.rings := Hw.emitIo_rings _ _ _ _ _
theorem Hw.clocksOnly_release (f : Nat) : h.clocksOnly (Hw.release e r cause h f) :=
  Hw.clocksOnly_trans (h.clocksOnly_onFn f _) (Hw.clocksOnly_emitIo _ _ _ _ _)

theorem Hw.fn_release (f k : Nat) :
    (Hw.release e r cause h f).fn k = if k = f then (h.fn f).released r cause else h.fn k := by
  rw [← Hw.fn_onFn h f k fun x => x.released r cause]
  exact congrArg (fun t => Tab.getD t k Fn.reset) (Hw.release_fns h e r cause f)

theorem Hw.rings_foldl_release (l : List Nat) : (l.foldl (Hw.release e r cause) h).rings = h.rings :=
  List.foldlRecOn (motive := fun k => k.rings = h.rings) l _ rfl fun k hk f _ => (Hw.release_rings k e r cause f).trans hk

theorem Hw.rising_foldl_release (hr : Tab.rising h.fns = true) (l : List Nat) :
    Tab.rising (l.foldl (Hw.release e r cause) h).fns = true :=
  List.foldlRecOn (motive := fun k => Tab.rising k.fns = true) l _ hr fun k hk f _ =>
    (congrArg Tab.rising (Hw.release_fns k e r cause f)).trans (Tab.rising_put _ _ _ hk)

theorem Hw.fn_foldl_release (l : List Nat) (k : Nat) :
    (l.foldl (Hw.release e r cause) h).fn k = if k ∈ l then (h.fn k).released r cause else h.fn k := by
  induction l generalizing h with
  | nil => rfl
  | cons f l ih =>
    rw [List.foldl_cons, ih, Hw.fn_release]
    by_cases hk : k = f
    · subst hk; simp [Fn.released_released]
    · simp [hk]

/-- Breaking the locks on a ring changes functions, rings, trace and agenda alone. -/
theorem Hw.clocksOnly_clkBreak : h.clocksOnly (h.clkBreak e r cause) := by
  cases hf : h.holders r with
  | nil => rw [Hw.clkBreak_of_free e cause hf]; exact h.clocksOnly_refl
  | cons f l =>
    rw [Hw.clkBreak_of_held e cause hf]
    refine Hw.clocksOnly_trans ?_ (Hw.clocksOnly_setPoint _ _ _ _ _ _)
    exact List.foldlRecOn (motive := h.clocksOnly) _ _ h.clocksOnly_refl fun k hk g _ =>
      Hw.clocksOnly_trans hk (Hw.clocksOnly_release k e r cause g)

theorem Hw.rising_clkBreak (hr : Tab.rising h.fns = true) : Tab.rising (h.clkBreak e r cause).fns = true := by
  cases hf : h.holders r with
  | nil => rw [Hw.clkBreak_of_free e cause hf]; exact hr
  | cons f l =>
    rw [Hw.clkBreak_of_held e cause hf, Hw.setPoint_fns]
    exact Hw.rising_foldl_release h e r cause hr _

/-- Each function loses its lock on the ring, if it holds one. -/
theorem Hw.fn_clkBreak (hr : Tab.rising h.fns = true) (k : Nat) :
    (h.clkBreak e r cause).fn k = (h.fn k).unlocked (· == r) cause := by
  have free (hk : k ∉ h.holders r) : h.fn k = (h.fn k).unlocked (· == r) cause := by
    refine (Fn.unlocked_of_none _ cause fun x hx => beq_eq_false_iff_ne.mpr ?_).symm
    rintro rfl
    exact hk ((Hw.mem_holders hr k x).mpr hx)
  cases hf : h.holders r with
  | nil => rw [Hw.clkBreak_of_free e cause hf]; exact free (by simp [hf])
  | cons f l =>
    have fns : (h.clkBreak e r cause).fn k = ((f :: l).foldl (Hw.release e r cause) h).fn k := by
      rw [Hw.clkBreak_of_held e cause hf]
      exact congrArg (fun t => Tab.getD t k Fn.reset) (Hw.setPoint_fns _ _ _ _ _ _)
    rw [fns, Hw.fn_foldl_release, ← hf]
    split
    · next held => exact Fn.released_eq_unlocked cause ((Hw.mem_holders hr k r).mp held)
    · next hk => exact free hk

/-- The ring returns to operating point 0, if a function holds a lock on it. -/
theorem Hw.ring_clkBreak (k : Nat) :
    (h.clkBreak e r cause).ring k = if k = r ∧ h.holders k ≠ [] then { h.ring k with opp := 0 } else h.ring k := by
  cases hf : h.holders r with
  | nil =>
    rw [Hw.clkBreak_of_free e cause hf, if_neg]
    rintro ⟨rfl, held⟩
    exact held hf
  | cons f l =>
    have rings : ((f :: l).foldl (Hw.release e r cause) h).ring = h.ring :=
      funext fun j => congrArg (fun t => Tab.getD t j Ring.reset) (Hw.rings_foldl_release h e r cause _)
    rw [Hw.clkBreak_of_held e cause hf, Hw.ring_setPoint, rings]
    by_cases hk : k = r
    · subst hk; simp [hf]
    · simp [hk]
end

/-! ## Breaking the locks on rings -/

/-- The locks on each ring of a list are broken. -/
def Hw.clkBreaks (h : Hw) (e : Env) (l : List Nat) (cause : Nat) : Hw := l.foldl (fun h r => h.clkBreak e r cause) h

section
variable (h : Hw) (e : Env) (cause : Nat)

theorem Hw.clocksOnly_clkBreaks (l : List Nat) : h.clocksOnly (h.clkBreaks e l cause) :=
  List.foldlRecOn (motive := h.clocksOnly) l _ h.clocksOnly_refl fun k hk r _ =>
    Hw.clocksOnly_trans hk (Hw.clocksOnly_clkBreak k e r cause)

theorem Hw.fn_clkBreaks (hr : Tab.rising h.fns = true) (l : List Nat) (k : Nat) :
    (h.clkBreaks e l cause).fn k = (h.fn k).unlocked l.contains cause := by
  induction l generalizing h with
  | nil => exact (Fn.unlocked_of_none _ cause fun _ _ => rfl).symm
  | cons r l ih =>
    have ahead : h.clkBreaks e (r :: l) cause = (h.clkBreak e r cause).clkBreaks e l cause := rfl
    rw [ahead, ih _ (Hw.rising_clkBreak h e r cause hr), Hw.fn_clkBreak h e r cause hr, Fn.unlocked_unlocked]
    rfl

theorem Hw.ring_clkBreaks (hr : Tab.rising h.fns = true) (l : List Nat) (k : Nat) :
    (h.clkBreaks e l cause).ring k = if k ∈ l ∧ h.holders k ≠ [] then { h.ring k with opp := 0 } else h.ring k := by
  induction l generalizing h with
  | nil => simp [Hw.clkBreaks]
  | cons r l ih =>
    have ahead : h.clkBreaks e (r :: l) cause = (h.clkBreak e r cause).clkBreaks e l cause := rfl
    have hr' := Hw.rising_clkBreak h e r cause hr
    have held : (h.clkBreak e r cause).holders k ≠ [] ↔ h.holders k ≠ [] ∧ k ≠ r := by
      rw [Hw.holders_ne_nil hr', Hw.holders_ne_nil hr, ← exists_and_right]
      refine exists_congr fun f => ?_
      rw [Hw.fn_clkBreak h e r cause hr]
      simp [Fn.unlocked]
    rw [ahead, ih _ hr', Hw.ring_clkBreak]
    simp only [held, List.mem_cons]
    by_cases hk : k = r <;> simp [hk]
end

/-- Breaking locks changes nothing of a ring but its operating point. -/
theorem Hw.ring_clkBreaks_but_opp {h : Hw} (hr : Tab.rising h.fns = true) (e : Env) (l : List Nat) (cause k : Nat) :
    (h.clkBreaks e l cause).ring k = { h.ring k with opp := ((h.clkBreaks e l cause).ring k).opp } := by
  rw [Hw.ring_clkBreaks h e cause hr]
  split <;> rfl

/-- The locks on the rings of a list are broken, from a package with the functions and the operating points of `s`. -/
theorem unlocked_clkBreaks {s : State} {h : Hw} {l : List Nat} {cause : Nat} (e : Env)
    (hr : Tab.rising s.hw.fns = true) (hfns : h.fns = s.hw.fns) (hopp : ∀ r, (h.ring r).opp = (s.hw.ring r).opp) :
    Unlocked s { s with hw := h.clkBreaks e l cause } l.contains cause := by
  have hr' : Tab.rising h.fns = true := by rw [hfns]; exact hr
  have fn (f : Nat) : h.fn f = s.hw.fn f := congrArg (fun t => Tab.getD t f Fn.reset) hfns
  have held (r : Nat) : h.holders r ≠ [] ↔ ∃ f, r ∈ (s.hw.fn f).dbg.locks := by
    simp only [Hw.holders_ne_nil hr', fn]
  refine ⟨fun f => ?_, fun r hl hf => ?_, fun r hno => ?_⟩
  · rw [Hw.fn_clkBreaks h e cause hr', fn]; rfl
  · rw [Hw.ring_clkBreaks h e cause hr', if_pos ⟨List.contains_iff_mem.mp hl, (held r).mpr hf⟩]
  · rw [Hw.ring_clkBreaks h e cause hr', if_neg, hopp]
    rintro ⟨hl, hf⟩
    obtain ⟨f, hf⟩ := (held r).mp hf
    rcases hno with hno | hno
    · simp [hl] at hno
    · exact hno f hf

end Sys2Proof.Machine
end

section
/-! # Package, links, memory errors, heat and throttling

The steps of R15, R18, R25, R32, R74 and R285, each by what it answers. -/
namespace Sys2Proof.Machine

open Sys2Proof.Terms

section
variable {s : State}

/-! ## Links and the host link -/

theorem turns_ucieRetrain (hs : s.Inv) : Turns .ucieRetrain s
    (if 8 ≤ s.hw.occ.unit ∨ Tab.getD s.hw.links s.hw.occ.unit .up = .failed then s.hw else
      { s.hw with tried := [], links := if s.hw.occ.flag then Tab.del s.hw.links s.hw.occ.unit
          else Tab.put s.hw.links s.hw.occ.unit (.retraining s.clk.tick) }) :=
  turns_of_event (show _ = execUcieRetrain s from rfl) rfl (by split <;> exact hs.2)

theorem turns_packageFatalEvent (hs : s.Inv) : Turns .packageFatalEvent s (if 8 ≤ s.hw.occ.unit then s.hw else
    { s.hw with links := Tab.put s.hw.links s.hw.occ.unit .failed, fatal := true }) :=
  turns_of_event (show _ = execPackageFatalEvent s from rfl) rfl (by split <;> exact hs.2)

theorem turns_hostLinkTrain (hs : s.Inv) (lo : 1 ≤ s.hw.occ.unit) (hi : s.hw.occ.unit ≤ 7)
    (width : s.hw.occ.id ∈ [1, 2, 4, 8, 16]) :
    Turns .hostLinkTrain s { s.hw with host := some ⟨s.hw.occ.unit, s.hw.occ.id⟩ } :=
  turns_of_event (show _ = execHostLinkTrain s from rfl) (if_pos ⟨lo, hi, List.contains_iff_mem.mpr width⟩) hs.2

/-! ## Errors of memory -/

theorem turns_patrolScrub_clean (hs : s.Inv) (clean : s.hw.occ.aux = 0) : Turns .patrolScrub s s.hw :=
  turns_of_event (show _ = execPatrolScrub s from rfl) (by simp [clean]) hs.2

/-- A corrected error, counted on its channel (R18). -/
def Hw.corrected (h : Hw) (c : Nat) : Hw :=
  let x := Tab.getD h.chans c (.active, 0)
  { h with chans := Tab.put h.chans c (x.1, x.2 + 1) }

theorem Hw.chan_corrected (h : Hw) (c k : Nat) : Tab.getD (h.corrected c).chans k (.active, 0) =
    let x := Tab.getD h.chans k (.active, 0)
    if k = c then (x.1, x.2 + 1) else x := by
  dsimp only
  split
  · next e => subst e; exact Tab.getD_put_same _ _ _ _
  · next e => exact Tab.getD_put_other _ _ _ e

/-- Beside its channel, a corrected error concerns the counters of the function whose request met it. -/
theorem turns_patrolScrub_corrected (hs : s.Inv) (corrected : s.hw.occ.aux = 1) :
    ∃ k, Turns .patrolScrub s k ∧ (s.hw.corrected (chanOf (128 * s.hw.occ.unit))).countersOnly k := by
  by_cases idle : s.hw.occ.id = 0
  · refine ⟨_, turns_of_event (show _ = execPatrolScrub s from rfl) ?_ ?_, Hw.countersOnly_refl _⟩
    · simp [corrected, idle, Hw.corrected]
    · exact hs.2
  · have counted := Hw.count_fn_out (s.hw.corrected (chanOf (128 * s.hw.occ.unit)))
      (fnOfCtx s.hw.occ.id) 2 (chanOf (128 * s.hw.occ.unit)) 0x22 0 1
    refine ⟨_, turns_of_event (show _ = execPatrolScrub s from rfl) ?_ ?_, counted⟩
    · simp [corrected, idle, Hw.corrected]
    · rw [counted.1]; exact hs.2

/-- An uncorrectable error poisons its line. -/
theorem turns_patrolScrub_line (hs : s.Inv) (line : s.hw.occ.aux = 2) (home : s.hw.occ.flag = false) :
    Turns .patrolScrub s (if s.hw.poison.contains s.hw.occ.unit then s.hw
      else { s.hw with poison := s.hw.occ.unit :: s.hw.poison }) :=
  turns_of_event (show _ = execPatrolScrub s from rfl) (by simp [line, home]) (by split <;> exact hs.2)

/-- An uncorrectable error of a guarded line poisons the unit's copy. -/
theorem turns_patrolScrub_guarded (hs : s.Inv) (line : s.hw.occ.aux = 2) (guarded : s.hw.occ.flag = true) :
    Turns .patrolScrub s { s.hw with units := Tab.modify s.hw.units s.hw.occ.id fun u => { u with poisoned := true } } :=
  turns_of_event (show _ = execPatrolScrub s from rfl) (by simp [line, guarded, Hw.onUnit]) hs.2

/-- An uncorrectable error of the scratchpad poisons the line of the function's scratchpad. -/
theorem turns_patrolScrub_scratchpad (hs : s.Inv) (scr : s.hw.occ.aux = 3) :
    Turns .patrolScrub s (s.hw.onFCore s.hw.occ.val.toNat s.hw.occ.id fun c => { c with poison := s.hw.occ.unit :: c.poison }) :=
  turns_of_event (show _ = execPatrolScrub s from rfl) (by simp [scr]) hs.2

/-- An uncorrectable error of the tag table poisons the tag of its tile. -/
theorem turns_patrolScrub_tag (hs : s.Inv) (tag : s.hw.occ.aux = 4) :
    Turns .patrolScrub s (s.hw.setTag (4096 * s.hw.occ.unit) (withSt (s.hw.tag (4096 * s.hw.occ.unit)) 3)) :=
  turns_of_event (show _ = execPatrolScrub s from rfl) (by simp [tag]) (by unfold Hw.setTag; split <;> exact hs.2)
end

theorem paKind_eq_hbm (pa : Nat) : paKind pa = .hbm ↔ pa < 0x9000000000 := by
  unfold paKind
  repeat' split
  all_goals simp_all

/-- A tile lies in the stacks as its first byte does. -/
theorem paKind_tile (pa : Nat) : paKind (4096 * (pa / 4096)) = .hbm ↔ paKind pa = .hbm := by
  rw [paKind_eq_hbm, paKind_eq_hbm]
  omega

theorem Hw.setTag_eq (h : Hw) (pa : Nat) (t : BitVec 16) : h.setTag pa t = { h with tags := (h.setTag pa t).tags } := by
  unfold Hw.setTag
  split <;> rfl

/-- Writing the tag of a tile of the stacks: every byte of it reads the new tag, every other byte its old one. -/
theorem Hw.tag_setTag (h : Hw) {u : Nat} (hbm : paKind (4096 * u) = .hbm) (t : BitVec 16) (pa : Nat) :
    (h.setTag (4096 * u) t).tag pa = if pa / 4096 = u then t else h.tag pa := by
  have tile : tileOf (4096 * u) = u := Nat.mul_div_cancel_left _ (by decide)
  simp only [Hw.setTag, if_pos hbm, Hw.tag, tile]
  by_cases hu : pa / 4096 = u
  · subst hu
    rw [if_pos ((paKind_tile pa).mp hbm), if_pos rfl]
    exact Tab.getD_store_same _ _ _ _
  · rw [if_neg hu]
    split
    · exact Tab.getD_store_other _ _ _ hu
    · rfl

/-- All bytes of a tile have one tag. -/
theorem Hw.tag_tile (h : Hw) (pa : Nat) : h.tag (4096 * (pa / 4096)) = h.tag pa := by
  have tile : tileOf (4096 * (pa / 4096)) = tileOf pa := Nat.mul_div_cancel_left _ (by decide)
  simp only [Hw.tag, paKind_tile, tile]

section
variable {s : State}

/-! ## Heat and throttling -/

theorem turns_hbmHotRefresh (hs : s.Inv) : Turns .hbmHotRefresh s { s.hw with
    hotHbm := (if s.hw.occ.flag then [] else [s.hw.occ.unit]) ++ s.hw.hotHbm.filter fun x => x != s.hw.occ.unit } :=
  turns_of_event (show _ = execHbmHotRefresh s from rfl) (by cases s.hw.occ.flag <;> rfl) hs.2

theorem turns_throttleStepUp (hs : s.Inv) :
    Turns .throttleStepUp s { (s.hw.onRing s.hw.occ.unit fun r => { r with step := r.step - 1 }) with tried := [] } :=
  turns_of_event (show _ = execThrottleStepUp s from rfl) rfl hs.2

/-! ## What breaks clock locks -/

/-- A step that breaks the locks on the rings of a list, from the package `h`: what it changes, whose locks it breaks, and
that the rings change in their operating point alone. -/
theorem turns_clkBreaks {i : Instr} {h : Hw} {l : List Nat} {cause : Nat} (turns : Turns i s (h.clkBreaks (env s) l cause))
    (hr : Tab.rising s.hw.fns = true) (hfns : h.fns = s.hw.fns) (hopp : ∀ r, (h.ring r).opp = (s.hw.ring r).opp) :
    ∃ k, Turns i s k ∧ h.clocksOnly k ∧ Unlocked s { s with hw := k } l.contains cause ∧
      ∀ r, k.ring r = { h.ring r with opp := (k.ring r).opp } :=
  ⟨_, turns, Hw.clocksOnly_clkBreaks h _ _ _, unlocked_clkBreaks _ hr hfns hopp,
    Hw.ring_clkBreaks_but_opp (by rw [hfns]; exact hr) _ _ _⟩

theorem turns_thermalTrip (hs : s.Inv) :
    Turns .thermalTrip s (({ s.hw with trip := true } : Hw).clkBreaks (env s) (List.range 20) 3) :=
  turns_of_event (show _ = execThermalTrip s from rfl) rfl ((Hw.clocksOnly_clkBreaks _ _ _ _).wq.trans hs.2)

theorem turns_throttleStepDown (hs : s.Inv) : Turns .throttleStepDown s
    ((s.hw.onRing s.hw.occ.unit fun r => { r with step := min 6 (r.step + 1) }).clkBreaks (env s) [s.hw.occ.unit] 1) :=
  turns_of_event (show _ = execThrottleStepDown s from rfl) rfl ((Hw.clocksOnly_clkBreaks _ _ _ _).wq.trans hs.2)

theorem turns_pclkBreak (hs : s.Inv) : Turns .pclkBreak s
    (s.hw.clkBreaks (env s) (s.hw.part (s.hw.occ.unit % 64)).rings 2) :=
  turns_of_event (show _ = execPclkBreak s from rfl) rfl ((Hw.clocksOnly_clkBreaks _ _ _ _).wq.trans hs.2)

/-- Ring `unit` after THROTTLE_STEP_DOWN, but for its locks. -/
theorem ring_stepDown (h : Hw) (u r : Nat) : (h.onRing u fun r => { r with step := min 6 (r.step + 1) }).ring r =
    { h.ring r with step := if r = u then min 6 ((h.ring r).step + 1) else (h.ring r).step } := by
  rw [Hw.ring_onRing]
  split
  · next e => rw [e]
  · rfl
end

/-! ## The clock lock -/

/-- The rings of a list are locked for a function, at a point while its slice runs. -/
def Hw.lockRings (h : Hw) (e : Env) (f p opp : Nat) (l : List Nat) : Hw :=
  l.foldl (fun h r => h.setPoint e f r (if (h.part p).running = some f then oppOf (opp % 8) else (h.ring r).opp) true) h

section
variable (h : Hw) (e : Env) (f p opp : Nat) (l : List Nat)

theorem Hw.clocksOnly_lockRings : h.clocksOnly (h.lockRings e f p opp l) :=
  List.foldlRecOn (motive := h.clocksOnly) l _ h.clocksOnly_refl fun k hk _ _ =>
    Hw.clocksOnly_trans hk (Hw.clocksOnly_setPoint k e f _ _ _)

theorem Hw.lockRings_fns : (h.lockRings e f p opp l).fns = h.fns :=
  List.foldlRecOn (motive := fun k => k.fns = h.fns) l _ rfl fun k hk _ _ => (Hw.setPoint_fns k e f _ _ _).trans hk

theorem Hw.ring_lockRings (k : Nat) : (h.lockRings e f p opp l).ring k =
    if (h.part p).running = some f ∧ k ∈ l then { h.ring k with opp := oppOf (opp % 8) } else h.ring k := by
  induction l generalizing h with
  | nil => simp [Hw.lockRings]
  | cons r l ih =>
    have ahead : h.lockRings e f p opp (r :: l) = (h.setPoint e f r
        (if (h.part p).running = some f then oppOf (opp % 8) else (h.ring r).opp) true).lockRings e f p opp l := rfl
    have part (x : Nat) : (h.setPoint e f r x true).part p = h.part p := by
      rw [Hw.clocksOnly_setPoint h e f r x true]; rfl
    rw [ahead, ih, part, Hw.ring_setPoint]
    by_cases hk : k = r
    · subst hk
      by_cases runs : (h.part p).running = some f <;> simp [runs]
    · simp [hk]
end

/-- CLKCTL.LOCK: the rings of the function's partition that are not throttled are locked. -/
theorem turns_clkctlLock {s : State} (hs : s.Inv) {f opp : Nat} {rs : List Nat} (hf : f = s.hw.occ.unit)
    (hopp : opp = s.hw.occ.aux % 8) (hrs : rs = (if (s.hw.fn f).bind.bound then
      (s.hw.part (s.hw.partOf f)).rings.filter fun r => (s.hw.ring r).step == 0 else [])) :
    Turns .clkctlLock s ((s.hw.onFn f fun x => { x with dbg := { x.dbg with opp := opp % 8, lock := true, locks := rs } }).lockRings
      (env s) f (s.hw.partOf f) opp rs) := by
  subst hf hopp hrs
  exact turns_of_event (show _ = execClkctlLock s from rfl) rfl ((Hw.clocksOnly_lockRings _ _ _ _ _ _).wq.trans hs.2)

end Sys2Proof.Machine
end

section
/-! # The statement about package and heat

Each clause from the step's own lemma. -/
namespace Sys2Proof.Machine

open Sys2Proof.Terms

/-- Settles O45: each step answers the package that its lemma gives; a lock break is followed ring by ring. -/
theorem packageAndHeat : Obligations.PackageAndHeat := by
  unfold Obligations.PackageAndHeat
  refine ⟨fun s => ?_, fun s => turns_ucieRetrain, fun s => turns_packageFatalEvent, fun s => turns_patrolScrub_clean,
    fun s hs corrected => ?_, fun s hs line home => ?_, fun s => turns_patrolScrub_guarded,
    fun s => turns_patrolScrub_scratchpad, fun s hs tag hbm => ?_, fun s hs hr => ?_, fun s => turns_hbmHotRefresh,
    fun s hs hr => ?_, fun s => turns_throttleStepUp, fun s p hs hr hp => ?_, fun s f opp rs hs hf hopp hrs => ?_,
    fun s => turns_hostLinkTrain⟩
  · -- PACKAGE_RESET
    exact ⟨booted, rfl, booted_ready, booted_not_ready, fun i => booted_failed_at, fun i => booted_meas⟩
  · -- a corrected error
    obtain ⟨k, turns, rest, fns⟩ := turns_patrolScrub_corrected hs corrected
    have chans : k.chans = (s.hw.corrected (chanOf (128 * s.hw.occ.unit))).chans := by rw [rest]
    refine ⟨_, turns, rfl, rfl, ?_, fun c => ?_, fns⟩
    · show k = { s.hw with chans := k.chans, fns := k.fns, out := k.out }
      rw [chans]; exact rest
    · show Tab.getD k.chans c (.active, 0) = _
      rw [chans]; exact Hw.chan_corrected s.hw _ c
  · -- an uncorrectable error of a line
    refine ⟨_, turns_patrolScrub_line hs line home, rfl, ?_, fun l => ?_⟩
    · dsimp only
      split <;> rfl
    · dsimp only
      split
      · next known => simpa using fun h : l = s.hw.occ.unit => h ▸ List.contains_iff_mem.mp known
      · simp
  · -- an uncorrectable error of a tag
    refine ⟨_, turns_patrolScrub_tag hs tag, rfl, rfl, Hw.setTag_eq _ _ _, fun x => ?_⟩
    rw [Hw.tag_setTag s.hw hbm]
    by_cases hx : x / 4096 = s.hw.occ.unit
    · rw [if_pos hx, if_pos hx, ← hx, Hw.tag_tile]
    · rw [if_neg hx, if_neg hx]
  · -- THERMAL_TRIP
    obtain ⟨k, turns, rest, unlocked, rings⟩ := turns_clkBreaks (turns_thermalTrip hs) hr rfl fun _ => rfl
    rw [show (List.range 20).contains = fun r => decide (r < 20) from funext fun r => by simp] at unlocked
    exact ⟨_, turns, rfl, rfl, rest, unlocked, rings⟩
  · -- THROTTLE_STEP_DOWN
    obtain ⟨k, turns, rest, unlocked, rings⟩ := turns_clkBreaks (turns_throttleStepDown hs) hr rfl
      fun r => by rw [ring_stepDown]
    rw [show [s.hw.occ.unit].contains = fun r => r == s.hw.occ.unit from
      funext fun r => by rw [Bool.eq_iff_iff]; simp] at unlocked
    refine ⟨_, turns, rfl, rfl, rest, unlocked, fun r => (rings r).trans ?_⟩
    rw [ring_stepDown]
  · -- PCLK.BREAK
    subst hp
    obtain ⟨k, turns, rest, unlocked, rings⟩ := turns_clkBreaks (turns_pclkBreak hs) hr rfl fun _ => rfl
    exact ⟨_, turns, rfl, rfl, rest, unlocked, rings⟩
  · -- CLKCTL.LOCK
    have small : opp % 8 = opp := by omega
    refine ⟨_, turns_clkctlLock hs hf hopp hrs, rfl, rfl, Hw.clocksOnly_lockRings _ _ _ _ _ _, fun g => ?_, fun r => ?_⟩
    · refine (congrArg (fun t => Tab.getD t g Fn.reset) (Hw.lockRings_fns _ _ _ _ _ _)).trans ?_
      refine (Hw.fn_onFn s.hw f g _).trans ?_
      rw [small]
    · refine (Hw.ring_lockRings _ _ _ _ _ _ r).trans ?_
      rw [small]; rfl

end Sys2Proof.Machine
end

section
/-! # Credits and timed actions

CREDIT_LAPSE (R75), TIMED_ACTION_FIRE (R30, R73, R135) and PATH_PROMOTION (R138), each by what it answers. -/
namespace Sys2Proof.Machine

open Sys2Proof.Terms

/-! ## Changes of one function, one path, one grid -/

section
variable (h : Hw)

theorem Hw.onFn_onFn (f : Nat) (g g' : Fn → Fn) : (h.onFn f g).onFn f g' = h.onFn f fun x => g' (g x) := by
  simp [Hw.onFn, Hw.setFn, Hw.fn, Tab.put_put]

theorem Hw.onPath_eq {wk : Nat} {w : Warp} (x : Bool) (g : Path → Path) (hw : h.warp? wk = some w) :
    h.onPath wk x g = { h with warps := Tab.put h.warps wk (w.setPath x (g (w.path x))) } := by
  unfold Hw.onPath Hw.onWarp
  rw [Tab.modify_eq_put _ hw]

theorem Hw.grid?_onGrid (i : Nat) (g : Grid → Grid) : (h.onGrid i g).grid? i = (h.grid? i).map g := by
  unfold Hw.grid? Hw.onGrid
  generalize h.grids = l
  induction l with
  | nil => rfl
  | cons e l ih =>
    obtain ⟨j, x⟩ := e
    by_cases hj : j = i
    · subst hj; simp [Tab.find?]
    · simpa [Tab.find?, hj] using ih

/-! ## The journal -/

/-- Two machines that differ only in functions, what was sent to the host and what is planned. -/
def Hw.journalOnly (h k : Hw) : Prop := k = { h with fns := k.fns, out := k.out, agenda := k.agenda }

theorem Hw.journalOnly_refl : h.journalOnly h := rfl
theorem Hw.journalOnly_trans {h k l : Hw} (a : h.journalOnly k) (b : k.journalOnly l) : h.journalOnly l := by
  unfold Hw.journalOnly
  rw [b, a]
theorem Hw.journalOnly_setFn (f : Nat) (x : Fn) : h.journalOnly (h.setFn f x) := rfl
theorem Hw.journalOnly_planOnce (i : Instr) (o : Occasion) : h.journalOnly (h.planOnce i o) := by
  unfold Hw.journalOnly
  rw [Hw.agendaOnly_planOnce h i o]
theorem Hw.journalOnly_raiseInt (f bit vec : Nat) : h.journalOnly (h.raiseInt f bit vec) := by
  unfold Hw.journalOnly
  rw [Hw.raiseInt_eq h f bit vec]

/-- Acceptance pauses, or goes on with the fetches of the function's queues. -/
theorem Hw.journalOnly_jPause (f : Nat) : h.journalOnly (h.jPause f) := by
  unfold Hw.jPause
  dsimp only
  split
  · split
    · exact h.journalOnly_refl
    · exact Hw.journalOnly_trans (h.journalOnly_setFn f _) (Hw.journalOnly_raiseInt _ _ _ _)
  · split
    · refine List.foldlRecOn (motive := h.journalOnly) _ _ (h.journalOnly_setFn f _) fun k hk q _ => ?_
      split
      · exact Hw.journalOnly_trans hk (Hw.journalOnly_planOnce k _ _)
      · exact hk
    · exact h.journalOnly_refl

theorem Hw.journalOnly_jState (e : Env) (f seq state status cause : Nat) (late : Bool) :
    h.journalOnly (h.jState e f seq state status cause late) :=
  Hw.journalOnly_trans (h.journalOnly_setFn f _) (Hw.journalOnly_jPause _ f)
end

/-! ## Credit -/

/-- Credit that has come due: what lapses is taken off; the rest is paid at once, or by a slice that is to start. -/
theorem creditLapse_of_due {e : Env} {h : Hw} {f : Nat} {due lost : List (Nat × Nat)} {k : Wake} (hf : f = h.occ.unit)
    (hdue : due = (h.fn f).wake.dueCredit e.clk.tick) (hne : due ≠ [])
    (hlost : lost = if h.hasWork f then due.filter fun x => decide ((h.fn f).wake.rivalAt < x.1) else due)
    (hk : k = (h.fn f).wake.lapse lost) :
    creditLapse e h =
      if lost = due then h.onFn f fun x => { x with wake := k }
      else if (h.part (h.partOf f)).running = some f then (h.onFn f fun x => { x with wake := k }).payCredit (h.partOf f) f
      else ((h.onFn f fun x => { x with wake := k }).onPart (h.partOf f) fun q => { q with saved := some f }).planOnce .sliceEnd
        { Occasion.none with unit := h.partOf f } := by
  have all : lost.length = due.length ↔ lost = due := by
    rw [hlost]
    split
    · exact List.filter_sublist.length_eq
    · simp
  have nonempty : due.isEmpty = false := by simpa using hne
  subst hf hk
  simp only [creditLapse, ← hdue, nonempty, ← hlost, all]
  rfl

/-- Credit that is paid: it ends, and lengthens the running slice. -/
theorem Hw.payCredit_onFn (h : Hw) (p f : Nat) (k : Wake) : (h.onFn f fun x => { x with wake := k }).payCredit p f =
    (h.onFn f fun x => { x with wake := { k with credit := 0, earned := [], paid := (k.paid + k.credit) % 2 ^ 48 } }).onPart p
      fun q => { q with bonus := q.bonus + k.credit / 2500 } := by
  unfold Hw.payCredit
  dsimp only
  rw [Hw.fn_onFn_same, Hw.onFn_onFn]

/-! ## Timed actions -/

section
variable {s : State}

/-- A TWAIT whose tick has come goes on. -/
theorem turns_timedWait {w : Warp} {b : Block} {t : Nat} (hs : s.Inv) (kind : s.hw.occ.aux = 0)
    (hw : s.hw.warp? s.hw.occ.id = some w) (hb : s.hw.block? (wkBlock s.hw.occ.id) = some b)
    (ht : (w.path s.hw.occ.flag).wakeAt = some t) (due : t ≤ localTick (env s) b.core) :
    Turns .timedActionFire s { s.hw with
      tried := [], warps := (Tab.put s.hw.warps s.hw.occ.id
        (w.setPath s.hw.occ.flag { (w.path s.hw.occ.flag) with wakeAt := none })) } := by
  refine turns_of_event (show _ = execTimedActionFire s from rfl) ?_ hs.2
  simp [timedActionFire, kind, hw, hb, ht, due, Hw.moved, Hw.onPath_eq s.hw _ _ hw]

/-- A timed engine command whose tick has come is fired, and is late where its function's slice does not run. -/
theorem turns_timedCommand {c : Cmd} {n : Nat} (hs : s.Inv) (kind : s.hw.occ.aux = 1)
    (hc : Tab.find? s.hw.cmds s.hw.occ.id = some c) (hn : c.at_ = some n) (waits : c.fired = false)
    (due : n ≤ localTick (env s) c.core) : ∃ k, Turns .timedActionFire s k ∧
      ({ s.hw with
        cmds := Tab.put s.hw.cmds s.hw.occ.id { c with fired := true, late := c.late || !s.hw.runs c.fn } } : Hw).agendaOnly k := by
  have frame := Hw.agendaOnly_kick { s.hw with
    cmds := Tab.put s.hw.cmds s.hw.occ.id { c with fired := true, late := c.late || !s.hw.runs c.fn } } c.fn c.core
  refine ⟨_, turns_of_event (show _ = execTimedActionFire s from rfl) ?_ ?_, frame⟩
  · simp [timedActionFire, kind, hc, hn, waits, Nat.not_lt.mpr due, Hw.onCmd, Tab.modify_eq_put _ hc]
  · rw [frame]; exact hs.2

/-- The blocks of a timed grid whose core's tick has reached the grid's go on. -/
def Hw.startBlocks (h : Hw) (e : Env) (g n : Nat) : Hw :=
  { h with blocks := Tab.mapVals (fun _ (b : Block) =>
      if b.grid = g ∧ n ≤ localTick e b.core then { b with startAt := none } else b) h.blocks }

theorem Hw.block?_startBlocks {h : Hw} (e : Env) (g n : Nat) {k : Nat} {b : Block} (hb : h.block? k = some b) :
    (h.startBlocks e g n).block? k = some (if b.grid = g ∧ n ≤ localTick e b.core then { b with startAt := none } else b) := by
  unfold Hw.block? at hb
  simp [Hw.block?, Hw.startBlocks, Tab.find?_mapVals, hb]

/-- A timed grid: its blocks go on, and where its slice does not run it starts late, which its journal entry says. -/
theorem turns_timedGrid {g : Grid} {n : Nat} (hs : s.Inv) (wait : s.hw.occ.aux ≠ 0) (cmd : s.hw.occ.aux ≠ 1)
    (hg : s.hw.grid? s.hw.occ.id = some g) (hn : g.startAt = some n) :
    ∃ k, Turns .timedActionFire s k ∧ k.warps = s.hw.warps ∧ k.blocks = (s.hw.startBlocks (env s) s.hw.occ.id n).blocks ∧
      k.grid? s.hw.occ.id = some (if n ≤ s.clk.tick ∧ s.hw.runs g.fn = false then { g with startAt := none } else g) := by
  by_cases late : n ≤ s.clk.tick ∧ s.hw.runs g.fn = false
  · have frame := Hw.journalOnly_jState ((s.hw.startBlocks (env s) s.hw.occ.id n).onGrid s.hw.occ.id fun g => { g with startAt := none })
      (env s) g.fn g.seq 2 0 0 true
    have grid : ((s.hw.startBlocks (env s) s.hw.occ.id n).onGrid s.hw.occ.id fun g => { g with startAt := none }).grid? s.hw.occ.id =
        some { g with startAt := none } :=
      (Hw.grid?_onGrid _ _ _).trans (congrArg _ hg)
    generalize hk : ((s.hw.startBlocks (env s) s.hw.occ.id n).onGrid s.hw.occ.id fun g => { g with startAt := none }).jState
      (env s) g.fn g.seq 2 0 0 true = k at frame
    refine ⟨k.moved, turns_of_event (show _ = execTimedActionFire s from rfl) ?_ ?_, ?_, ?_, ?_⟩
    · simp only [timedActionFire, wait, cmd, hg, hn, if_false]
      rw [← hk]
      exact if_pos late
    · show k.wq = []
      rw [frame]; exact hs.2
    · show k.warps = _
      rw [frame]; rfl
    · show k.blocks = _
      rw [frame]; rfl
    · rw [if_pos late, ← grid]
      show Tab.find? k.grids _ = _
      rw [frame]; rfl
  · refine ⟨(s.hw.startBlocks (env s) s.hw.occ.id n).moved, turns_of_event (show _ = execTimedActionFire s from rfl) ?_ hs.2,
      rfl, rfl, ?_⟩
    · simp only [timedActionFire, wait, cmd, hg, hn, if_false]
      exact if_neg late
    · rw [if_neg late]; exact hg

/-- A path that has been ready for 16,384 counted cycles is promoted. -/
theorem turns_pathPromotion {w : Warp} (hs : s.Inv) (hw : s.hw.warp? s.hw.occ.id = some w)
    (live : (w.path s.hw.occ.flag).live = true) (ready : 16384 ≤ (w.path s.hw.occ.flag).ready) :
    Turns .pathPromotion s { s.hw with
      warps := (Tab.put s.hw.warps s.hw.occ.id
        (w.setPath s.hw.occ.flag { (w.path s.hw.occ.flag) with promoted := true })) } := by
  refine turns_of_event (show _ = execPathPromotion s from rfl) ?_ hs.2
  simp [Hw.onPath_eq s.hw _ _ hw, live, ready]
end

end Sys2Proof.Machine
end

section
/-! # Counter selections, stop requests, access counts

COUNTER_SELECT and COUNTER_HOLD (R282, R283), and the statement about credits and timed actions. -/
namespace Sys2Proof.Machine

open Sys2Proof.Terms

/-! ## One counter of a function -/

section
variable (h : Hw) (f n : Nat) (c : Ctr)

@[simp] theorem Hw.ctr_setCtr_same : Tab.getD ((h.setCtr f n c).fn f).ctrs n Ctr.reset = c := by
  simp [Hw.setCtr]
theorem Hw.ctr_setCtr_other {m : Nat} (hm : m ≠ n) :
    Tab.getD ((h.setCtr f n c).fn f).ctrs m Ctr.reset = Tab.getD (h.fn f).ctrs m Ctr.reset := by
  simp [Hw.setCtr, Tab.getD_put_other _ _ _ hm]
theorem Hw.fn_setCtr_other {g : Nat} (hg : g ≠ f) : (h.setCtr f n c).fn g = h.fn g := Hw.fn_onFn_other h _ hg
theorem Hw.fn_setCtr_same : (h.setCtr f n c).fn f = { h.fn f with ctrs := ((h.setCtr f n c).fn f).ctrs } := by
  simp [Hw.setCtr]
end

/-- Counter `n` of function `f` is now `c`, and no other counter and nothing else of any function has changed. -/
structure CtrSet (h k : Hw) (f n : Nat) (c : Ctr) : Prop where
  others : ∀ g, g ≠ f → k.fn g = h.fn g
  rest : k.fn f = { h.fn f with ctrs := (k.fn f).ctrs }
  kept : ∀ m, m ≠ n → Tab.getD (k.fn f).ctrs m Ctr.reset = Tab.getD (h.fn f).ctrs m Ctr.reset
  set : Tab.getD (k.fn f).ctrs n Ctr.reset = c

theorem ctrSet_setCtr (h : Hw) (f n : Nat) (c : Ctr) : CtrSet h (h.setCtr f n c) f n c :=
  ⟨fun _ => h.fn_setCtr_other f n c, h.fn_setCtr_same f n c, fun _ => h.ctr_setCtr_other f n c, h.ctr_setCtr_same f n c⟩
theorem ctrSet_same (h : Hw) (f n : Nat) : CtrSet h h f n (h.ctr f n) := ⟨fun _ _ => rfl, rfl, fun _ _ => rfl, rfl⟩

/-! ## Selections -/

/-- A counter that takes a selection (R283). -/
def Hw.selected (h : Hw) (f : Nat) (c : Ctr) (sel : Word) : Ctr := { c with
  sel := sel, lost := !h.selAvailable f sel, val := if c.lost && h.selAvailable f sel then 0 else c.val }

/-- The counter takes the selection, unless the PF claims it. -/
theorem ctrSet_selectCtr (h : Hw) (f n : Nat) {sel : Word} (small : sel &&& 0x1FFFFFFF#32 = sel) :
    (h.selectCtr f n sel) = { h with fns := (h.selectCtr f n sel).fns } ∧
    CtrSet h (h.selectCtr f n sel) f n (if (h.ctr f n).hold = true then h.ctr f n else h.selected f (h.ctr f n) sel) := by
  unfold Hw.selectCtr
  simp only [small]
  split
  · exact ⟨rfl, ctrSet_same h f n⟩
  · exact ⟨rfl, ctrSet_setCtr h f n _⟩

/-- A selection written with the bits above its fields at 0 is taken whole. -/
theorem selection_small {v : BitVec 256} (h : v.toNat < 2 ^ 29) : v.setWidth 32 &&& 0x1FFFFFFF#32 = (v.setWidth 32 : Word) := by
  apply BitVec.eq_of_toNat_eq
  have mask : (0x1FFFFFFF#32).toNat = 2 ^ 29 - 1 := rfl
  rw [BitVec.toNat_and, mask, Nat.and_two_pow_sub_one_eq_mod, BitVec.toNat_setWidth]
  omega

theorem turns_counterSelect {s : State} (hs : s.Inv) : Turns .counterSelect s
    (s.hw.selectCtr s.hw.occ.unit (s.hw.occ.id % 4) (s.hw.occ.val.setWidth 32)) := by
  refine turns_of_event (show _ = execCounterSelect s from rfl) rfl ?_
  unfold Hw.selectCtr
  dsimp only
  split <;> exact hs.2

/-! ## Claims -/

/-- A counter that the PF claims with a selection, its count starting at `v` (R282). -/
def Ctr.claimed (c : Ctr) (w : Word) (v : Nat) : Ctr :=
  { c with hold := true, pfSel := w &&& 0x1FFFFFFF#32, pfVal := v, pfOvf := c.hold && c.pfOvf }

/-- The value at which a claim leaves the PF's count. -/
def Hw.claimStart (h : Hw) (f : Nat) (c : Ctr) (w : Word) : Nat :=
  if (c.hold && !h.selAvailable f c.pfSel && h.selAvailable f (w &&& 0x1FFFFFFF#32)) = true then 0
  else if c.hold then c.pfVal else Config.claimedCount h.free % 2 ^ 48

/-- A claim that goes on starts its count anew where its selection becomes available. -/
theorem Hw.claimStart_of_hold (h : Hw) (f : Nat) {c : Ctr} (w : Word) (held : c.hold = true) :
    h.claimStart f c w = if h.selAvailable f c.pfSel = false ∧ h.selAvailable f (w &&& 0x1FFFFFFF#32) = true then 0 else c.pfVal := by
  simp [Hw.claimStart, held]

/-- A claim, new or going on; a new one takes a free value. -/
theorem Hw.holdCtr_of_claim (h : Hw) (f n : Nat) {w : Word} (claim : w.getLsbD 29 = true) : h.holdCtr f n w =
    (if (h.ctr f n).hold then h else { h with free := h.free + 1 }).setCtr f n
      ((h.ctr f n).claimed w (h.claimStart f (h.ctr f n) w)) := by
  unfold Hw.holdCtr
  exact if_pos claim

/-- Without HOLD a claimed counter is released, and an unclaimed one stays. -/
theorem Hw.holdCtr_of_release (h : Hw) (f n : Nat) {w : Word} (release : w.getLsbD 29 ≠ true) : h.holdCtr f n w =
    if (h.ctr f n).hold then h.setCtr f n { h.ctr f n with hold := false } else h := by
  unfold Hw.holdCtr
  exact if_neg release

/-- The PF's write claims the counter, or releases it. -/
theorem ctrSet_holdCtr (h : Hw) (f n : Nat) (w : Word) :
    h.holdCtr f n w = { h with fns := (h.holdCtr f n w).fns, free := (h.holdCtr f n w).free } ∧
    CtrSet h (h.holdCtr f n w) f n (if w.getLsbD 29 = true then (h.ctr f n).claimed w (h.claimStart f (h.ctr f n) w)
      else { h.ctr f n with hold := false }) := by
  split
  · next claim =>
    rw [Hw.holdCtr_of_claim h f n claim]
    split
    · exact ⟨rfl, ctrSet_setCtr h f n _⟩
    · -- the counter of free values is no part of a function
      have set := ctrSet_setCtr { h with free := h.free + 1 } f n ((h.ctr f n).claimed w (h.claimStart f (h.ctr f n) w))
      exact ⟨rfl, set.others, set.rest, set.kept, set.set⟩
  · next release =>
    rw [Hw.holdCtr_of_release h f n release]
    split
    · exact ⟨rfl, ctrSet_setCtr h f n _⟩
    · next free =>
      rw [show { h.ctr f n with hold := false } = h.ctr f n by simp at free; rw [← free]]
      exact ⟨rfl, ctrSet_same h f n⟩

theorem turns_counterHold {s : State} (hs : s.Inv) (lo : 1 ≤ s.hw.occ.unit) (hi : s.hw.occ.unit ≤ 256) :
    Turns .counterHold s (s.hw.holdCtr s.hw.occ.unit (s.hw.occ.id % 4) (s.hw.occ.val.setWidth 32)) := by
  refine turns_of_event (show _ = execCounterHold s from rfl) (if_pos (by simp [isVf, lo, hi])) ?_
  rw [(ctrSet_holdCtr _ _ _ _).1]
  exact hs.2

/-! ## Stop requests, access counts -/

section
variable {s : State}

theorem turns_dbgctlStopreq (hs : s.Inv) : Turns .dbgctlStopreq s (s.hw.onFn s.hw.occ.unit fun x => { x with dbg := { x.dbg with
    stopReq := true, slot := s.hw.occ.id % 4096, warp := s.hw.occ.aux % 32 } }) :=
  turns_of_event (show _ = execDbgctlStopreq s from rfl) rfl hs.2

theorem turns_dbgctlStopall (hs : s.Inv) :
    Turns .dbgctlStopall s (s.hw.onFn s.hw.occ.unit fun x => { x with dbg := { x.dbg with stopAll := s.hw.occ.flag } }) :=
  turns_of_event (show _ = execDbgctlStopall s from rfl) rfl hs.2

/-- Access counts halved once for each period that has ended. -/
def Hw.halved (h : Hw) : Hw := { h with
  access := Tab.mapVals (fun _ (l : List AccEntry) => l.map fun x => { x with cnt := x.cnt.map (· / 2 ^ h.occ.aux) }) h.access }

theorem Hw.access_halved (h : Hw) (k : Nat) : Tab.getD h.halved.access k [] =
    (Tab.getD h.access k []).map fun x => { x with cnt := x.cnt.map (· / 2 ^ h.occ.aux) } := by
  unfold Tab.getD Hw.halved
  rw [Tab.find?_mapVals]
  cases Tab.find? h.access k <;> rfl

theorem turns_accessCountHalving (hs : s.Inv) : Turns .accessCountHalving s s.hw.halved :=
  turns_of_event (show _ = execAccessCountHalving s from rfl) rfl hs.2

/-! ## The credit of a function -/

theorem turns_creditLapse_young {f : Nat} (hs : s.Inv) (hf : f = s.hw.occ.unit)
    (young : ∀ x ∈ (s.hw.fn f).wake.earned, s.clk.tick < x.1 + 100000000) : Turns .creditLapse s s.hw := by
  have none : (s.hw.fn s.hw.occ.unit).wake.dueCredit s.clk.tick = [] := by
    subst hf
    exact List.filter_eq_nil_iff.mpr fun x hx => by simpa using young x hx
  refine turns_of_event (show _ = execCreditLapse s from rfl) ?_ hs.2
  simp [creditLapse, env, none]

/-- Credit that is due lapses, is paid into the running slice, or waits for one that is to start. -/
theorem turns_creditLapse_due (hs : s.Inv) {f : Nat} {due lost : List (Nat × Nat)} {k : Wake} (hf : f = s.hw.occ.unit)
    (hdue : due = (s.hw.fn f).wake.dueCredit s.clk.tick) (hne : due ≠ [])
    (hlost : lost = if s.hw.hasWork f then due.filter fun x => decide ((s.hw.fn f).wake.rivalAt < x.1) else due)
    (hk : k = (s.hw.fn f).wake.lapse lost) :
    (lost = due → Turns .creditLapse s (s.hw.onFn f fun x => { x with wake := k })) ∧
    (lost ≠ due → (s.hw.part (s.hw.partOf f)).running = some f →
      Turns .creditLapse s ((s.hw.onFn f fun x => { x with wake := k }).payCredit (s.hw.partOf f) f)) ∧
    (lost ≠ due → (s.hw.part (s.hw.partOf f)).running ≠ some f → Turns .creditLapse s
      (((s.hw.onFn f fun x => { x with wake := k }).onPart (s.hw.partOf f) fun q => { q with saved := some f }).planOnce .sliceEnd
        { Occasion.none with unit := s.hw.partOf f })) := by
  have answer := creditLapse_of_due (e := env s) hf hdue hne hlost hk
  refine ⟨fun all => ?_, fun left runs => ?_, fun left idle => ?_⟩
  · rw [if_pos all] at answer
    exact turns_of_event (show _ = execCreditLapse s from rfl) answer hs.2
  · rw [if_neg left, if_pos runs] at answer
    exact turns_of_event (show _ = execCreditLapse s from rfl) answer hs.2
  · rw [if_neg left, if_neg idle] at answer
    exact turns_of_event (show _ = execCreditLapse s from rfl) answer (by rw [Hw.agendaOnly_planOnce]; exact hs.2)
end

/-- Settles O46: each step answers the package that its lemma gives, case by case of what it finds. -/
theorem creditsAndTimedActions : Obligations.CreditsAndTimedActions := by
  unfold Obligations.CreditsAndTimedActions
  refine ⟨fun s f => turns_creditLapse_young, fun s f due lost k hs hf hdue hne hlost hk => ?_,
    fun s w b t => turns_timedWait, fun s c n hs kind hc hn waits due => ?_, fun s g n hs wait cmd hg hn => ?_,
    fun s => turns_dbgctlStopreq, fun s => turns_dbgctlStopall, fun s f n c hs hf hn hc small => ?_,
    fun s f n c hs hf lo hi hn hc => ?_, fun s w => turns_pathPromotion, fun s hs => ?_⟩
  · -- credit that is due
    obtain ⟨lapses, paid, waits⟩ := turns_creditLapse_due hs hf hdue hne hlost hk
    refine ⟨lapses, fun left runs => ?_, fun left idle => ⟨_, waits left idle, rfl, rfl, Hw.agendaOnly_planOnce _ _ _,
      Hw.mem_planOnce _ _ _⟩⟩
    rw [← Hw.payCredit_onFn]
    exact paid left runs
  · -- a timed engine command
    obtain ⟨k, turns, rest⟩ := turns_timedCommand hs kind hc hn waits due
    exact ⟨_, turns, rfl, rfl, rest⟩
  · -- a timed grid
    obtain ⟨k, turns, warps, blocks, grid⟩ := turns_timedGrid hs wait cmd hg hn
    refine ⟨_, turns, rfl, rfl, warps, fun j b hb => ?_, grid⟩
    exact (congrArg (Tab.find? · j) blocks).trans (Hw.block?_startBlocks (env s) _ n hb)
  · -- COUNTER_SELECT
    subst hf hn
    obtain rfl : c = s.hw.ctr s.hw.occ.unit (s.hw.occ.id % 4) := hc
    obtain ⟨rest, set⟩ := ctrSet_selectCtr s.hw s.hw.occ.unit (s.hw.occ.id % 4) (selection_small small)
    refine ⟨_, turns_counterSelect hs, rfl, rfl, rest, set.others, set.rest, set.kept, fun free => ?_, fun held => ?_⟩
    · exact set.set.trans (if_neg (Bool.eq_false_iff.mp free))
    · exact set.set.trans (if_pos held)
  · -- COUNTER_HOLD
    subst hf hn
    obtain rfl : c = s.hw.ctr s.hw.occ.unit (s.hw.occ.id % 4) := hc
    obtain ⟨rest, set⟩ := ctrSet_holdCtr s.hw s.hw.occ.unit (s.hw.occ.id % 4) (s.hw.occ.val.setWidth 32)
    have bit : (s.hw.occ.val.setWidth 32 : Word).getLsbD 29 = s.hw.occ.val.getLsbD 29 := by simp
    rw [bit] at set
    refine ⟨_, turns_counterHold hs lo hi, rfl, rfl, rest, set.others, set.rest, fun claim => ?_, fun release => ?_⟩
    · rw [if_pos claim] at set
      exact ⟨_, _, set.set, fun held => ⟨by simp [held], Hw.claimStart_of_hold s.hw _ _ held⟩,
        fun free => by simp [free]⟩
    · rw [if_neg (Bool.eq_false_iff.mp release)] at set
      exact set.set
  · -- halving
    exact ⟨_, turns_accessCountHalving hs, rfl, rfl, rfl, s.hw.access_halved⟩

end Sys2Proof.Machine
end

section
/-! # Host accesses

A BAR 2 read of a line whose spare bits no line may hold poisons the line as it reaches the home (R214), and answers a
poisoned completion (R18). -/
namespace Sys2Proof.Machine

open Sys2Proof.Terms

/-- Bytes of the tables that map address 0 for the PF: three tables, and the leaf, of a page at 0x60000 that the host may
read. -/
def tablesOfPf : List Host.Cell :=
  [(0x10000, 0x03#8), (0x10002, 0x02#8), (0x20000, 0x03#8), (0x20002, 0x03#8), (0x30000, 0x03#8), (0x30002, 0x04#8),
    (0x40000, 0x81#8), (0x40002, 0x06#8)]

/-- The package after its boot, with that page mapped, where the spare bits of the page's first line have FORM 3. The host
reads one byte at offset 0 of the PF's BAR 2. -/
def readOfBadSpare : State :=
  { clk := State.reset.clk, mem := tablesOfPf
    hw := { Hw.reset with
      boot := { Boot.reset with ready := true }
      parts := [(0, { Part.reset with owns := { Owns.none with chans := 1#384 } })]
      roots := [(257, (0x10001#64, false))], spare := [(lineOf 0x60000, 3#64)], occ := { Occasion.none with aux := 1 } } }

/-- The read reaches memory at 0x60000. -/
theorem readOfBadSpare_reaches : HostReaches readOfBadSpare (hostAccess readOfBadSpare false 1 none) 0x60000 0x60081#64 0#64 :=
  ⟨⟨by decide, rfl⟩, rfl, by decide, rfl, by decide, by decide +kernel, by decide +kernel, by decide +kernel⟩

/-- It is answered with a poisoned completion. -/
theorem readOfBadSpare_poisoned : ∃ t, exec .bar2Read readOfBadSpare = .next t ∧ t.hw.out = [.poisoned [0xFF#8]] :=
  ⟨_, rfl, by decide +kernel⟩

/-- Refutes O47: its first clause excludes only a line that is poisoned before the read. The line of the PF's page is not, but
its spare bits are malformed: the read itself poisons it, and the answer is a poisoned completion, not the data. -/
theorem not_hostAccesses : ¬ Obligations.HostAccesses := by
  unfold Obligations.HostAccesses
  rintro ⟨answers, -⟩
  obtain ⟨t, ht, -, -, -, -, -, -, answer⟩ := answers readOfBadSpare _ _ _ _ rfl readOfBadSpare_reaches rfl
  obtain ⟨u, hu, out⟩ := readOfBadSpare_poisoned
  obtain rfl := Host.Outcome.next.inj (hu.symm.trans ht)
  rw [out] at answer
  cases answer

end Sys2Proof.Machine
end

section
/-! # Steps that write memory

A step of the package writes memory through the bytes that wait at its end. What a write by no party changes beside
its bytes (R38, R51, R213, R219, R371). -/
namespace Sys2Proof.Machine

open Sys2Proof.Terms

/-! ## The end of a step -/

/-- The machine after a step that leaves the package as `k`: the bytes that wait have gone to memory. -/
def State.after (s : State) (k : Hw) : State := { s with mem := flush k.wq s.mem, hw := { k with wq := [] } }

theorem event_eq_after {s : State} {f : Env → Hw → Hw} {k : Hw} (hk : f (env s) s.hw = k) : s.event f = .next (s.after k) := by
  rw [← hk]; rfl

section
variable (s : State) (k : Hw)

@[simp] theorem State.after_clk : (s.after k).clk = s.clk := rfl
@[simp] theorem State.after_fn (f : Nat) : (s.after k).hw.fn f = k.fn f := rfl
@[simp] theorem State.after_sq (f q : Nat) : (s.after k).hw.sq f q = k.sq f q := rfl
@[simp] theorem State.after_part (p : Nat) : (s.after k).hw.part p = k.part p := rfl
@[simp] theorem State.after_warp? (w : Nat) : (s.after k).hw.warp? w = k.warp? w := rfl
theorem State.byte_after (x : Nat) : (s.after k).byte x = k.byte (env s) x := flush_getD _ _ _
end

/-- Where no byte waits, memory stays. -/
theorem State.mem_after {s : State} {k : Hw} (hq : k.wq = []) : (s.after k).mem = s.mem := by
  simp [State.after, hq, flush]

/-- Where no byte has been written in this step, the package reads memory as it stood. -/
theorem Hw.byte_of_unwritten {s : State} {h : Hw} (hq : h.wq = []) (x : Nat) : h.byte (env s) x = s.byte x := by
  simp [Hw.byte, State.byte, env, hq]

/-! ## Bytes -/

theorem Tab.find?_written (bs : List Byte) (pa n x : Nat) (t : Tab Byte) :
    Tab.find? (((bs.zipIdx n).map fun (y : Byte × Nat) => (pa + y.2, y.1)).reverse ++ t) x =
      if pa + n ≤ x ∧ x < pa + n + bs.length then some (bs.getD (x - (pa + n)) 0#8) else Tab.find? t x := by
  induction bs generalizing n t with
  | nil => simp [show ¬(pa + n ≤ x ∧ x < pa + n) by omega]
  | cons b bs ih =>
    rw [List.zipIdx_cons, List.map_cons, List.reverse_cons, List.append_assoc, ih]
    simp only [List.singleton_append, Tab.find?, List.length_cons]
    by_cases first : x = pa + n
    · subst first
      simp
    · rw [if_neg (Ne.symm first)]
      refine if_ctx_congr (by omega) (fun within => ?_) fun _ => rfl
      rw [show x - (pa + n) = x - (pa + (n + 1)) + 1 by omega, List.getD_cons_succ]

/-- What memory reads after bytes are written from `pa` on. -/
theorem Hw.byte_putBytes (h : Hw) (e : Env) (pa x : Nat) (bs : List Byte) : (h.putBytes pa bs).byte e x =
    if pa ≤ x ∧ x < pa + bs.length then bs.getD (x - pa) 0#8 else h.byte e x := by
  have found := Tab.find?_written bs pa 0 x h.wq
  simp only [Nat.add_zero] at found
  unfold Hw.byte Hw.putBytes
  rw [found]
  by_cases within : pa ≤ x ∧ x < pa + bs.length
  · rw [if_pos within, if_pos within]
  · rw [if_neg within, if_neg within]

/-! ## Monitors -/

/-- A path whose monitor may have been triggered. -/
def Path.triggered (f : Monitor → Bool) (p : Path) : Path := match p.mon with
  | some m => if m.armed && f m then { p with mon := some { m with trig := true } } else p
  | none => p

theorem calm_triggered (f : Monitor → Bool) (p : Path) : calm (p.triggered f) = calm p := by
  unfold Path.triggered
  split
  · split <;> rfl
  · rfl

/-- A warp whose monitors may have been triggered. -/
def Warp.triggered (f : Monitor → Bool) (w : Warp) : Warp :=
  if (w.p0.mon.isSome || w.p1.mon.isSome || w.frame.isSome) then
    { w with p0 := w.p0.triggered f, p1 := w.p1.triggered f
             frame := w.frame.map fun x => { x with p0 := x.p0.triggered f, p1 := x.p1.triggered f } }
  else w

theorem calmWarp_triggered (f : Monitor → Bool) (w : Warp) : calmWarp (w.triggered f) = calmWarp w := by
  unfold Warp.triggered
  split
  · simp [calmWarp, calm_triggered, Function.comp_def]
  · rfl

theorem Hw.trigger_eq (h : Hw) (f : Monitor → Bool) :
    h.trigger f = { h with warps := Tab.mapVals (fun _ (w : Warp) => w.triggered f) h.warps, tried := [] } := rfl

/-- Every warp as before, but that a monitor may have been triggered. -/
def Hw.warpsCalm (h k : Hw) : Prop := ∀ w, (k.warp? w).map calmWarp = (h.warp? w).map calmWarp

theorem Hw.warpsCalm_refl (h : Hw) : h.warpsCalm h := fun _ => rfl
theorem Hw.warpsCalm_trans {h k l : Hw} (a : h.warpsCalm k) (b : k.warpsCalm l) : h.warpsCalm l :=
  fun w => (b w).trans (a w)
theorem Hw.warpsCalm_of_warps {h k : Hw} (a : k.warps = h.warps) : h.warpsCalm k := fun w => by
  unfold Hw.warp?; rw [a]

theorem Hw.warpsCalm_trigger (h : Hw) (f : Monitor → Bool) : h.warpsCalm (h.trigger f) := fun w => by
  have found : (h.trigger f).warp? w = (h.warp? w).map (·.triggered f) := Tab.find?_mapVals _ _ _
  rw [found, Option.map_map]
  exact congrFun (congrArg Option.map (funext (calmWarp_triggered f))) _

theorem warpsCalm_after {s : State} {k : Hw} (a : s.hw.warpsCalm k) : WarpsCalm s (s.after k) :=
  fun w => (congrArg (Option.map calmWarp) (s.after_warp? k w)).trans (a w)

/-! ## Marks and records of words -/

/-- Two machines that differ only in what a write by no party changes beside its bytes: marks, records and which of them a
function recycles first, and triggered monitors. -/
structure Hw.Unmarked (h k : Hw) : Prop where
  rest : k = { h with
    fns := k.fns, recs := k.recs, marks := k.marks, mctx := k.mctx, ovf := k.ovf, spare := k.spare, warps := k.warps, tried := k.tried }
  fns : ∀ g, k.fn g = { h.fn g with race := { (h.fn g).race with order := (k.fn g).race.order } }
  calm : h.warpsCalm k

theorem Hw.Unmarked.refl (h : Hw) : h.Unmarked h := ⟨rfl, fun _ => rfl, h.warpsCalm_refl⟩
theorem Hw.Unmarked.trans {h k l : Hw} (a : h.Unmarked k) (b : k.Unmarked l) : h.Unmarked l :=
  ⟨by rw [b.rest, a.rest], fun g => by rw [b.fns, a.fns], Hw.warpsCalm_trans a.calm b.calm⟩

theorem Hw.Unmarked.dropRec (h : Hw) (w : Nat) : h.Unmarked (h.dropRec (.mem w)) := by
  unfold Hw.dropRec
  split
  · exact .refl h
  · next r _ =>
    refine ⟨rfl, fun g => ?_, fun _ => rfl⟩
    have put (k : Hw) : (k.putRec (.mem w) none).fn g = k.fn g := rfl
    rw [put, Hw.fn_onFn]
    split
    · next at_ => subst at_; rfl
    · rfl

theorem Hw.Unmarked.setMarks (h : Hw) (w : Nat) (m : WordMarks) : h.Unmarked (h.setMarks (.mem w) m) := by
  simp only [Hw.setMarks, Hw.tidyLine]
  split <;> exact ⟨rfl, fun _ => rfl, fun _ => rfl⟩

theorem Hw.Unmarked.clearMarks (h : Hw) (pa n : Nat) : h.Unmarked (h.clearMarks pa n) :=
  List.foldlRecOn (motive := h.Unmarked) _ _ (.refl h) fun k hk w _ =>
    (hk.trans (.dropRec k w)).trans (.setMarks _ w _)

theorem Hw.Unmarked.trigger (h : Hw) (f : Monitor → Bool) : h.Unmarked (h.trigger f) :=
  ⟨rfl, fun _ => rfl, h.warpsCalm_trigger f⟩

/-! ## A write by no party -/

/-- Two machines that differ only in what writes by no party and bookkeeping change. -/
structure Hw.Written (h k : Hw) : Prop where
  rest : k = { h with
    cores := k.cores, dieTlb := k.dieTlb, fcores := k.fcores, parts := k.parts, fns := k.fns, out := k.out, ports := k.ports
    units := k.units, marks := k.marks, mctx := k.mctx, spare := k.spare, ovf := k.ovf, l2 := k.l2, poison := k.poison
    free := k.free, recs := k.recs, warps := k.warps, tried := k.tried, wq := k.wq, tags := k.tags }
  fns : ∀ g, k.fn g = { h.fn g with
    ctrs := (k.fn g).ctrs, intstat := (k.fn g).intstat, race := { (h.fn g).race with order := (k.fn g).race.order } }
  calm : h.warpsCalm k

theorem Hw.Written.refl (h : Hw) : h.Written h := ⟨rfl, fun _ => rfl, h.warpsCalm_refl⟩
theorem Hw.Written.trans {h k l : Hw} (a : h.Written k) (b : k.Written l) : h.Written l :=
  ⟨by rw [b.rest, a.rest], fun g => by rw [b.fns, a.fns], Hw.warpsCalm_trans a.calm b.calm⟩
theorem Hw.Written.of_keeps {h k : Hw} (a : Keeps h k) : h.Written k :=
  ⟨by rw [a.rest], fun g => by rw [a.fns g], Hw.warpsCalm_of_warps a.warps⟩
theorem Hw.Written.of_unmarked {h k : Hw} (a : h.Unmarked k) : h.Written k :=
  ⟨by rw [a.rest], fun g => by rw [a.fns g], a.calm⟩
theorem Hw.Written.putBytes (h : Hw) (pa : Nat) (bs : List Byte) : h.Written (h.putBytes pa bs) :=
  ⟨rfl, fun _ => rfl, h.warpsCalm_refl⟩
theorem Hw.Written.deviceWrite (h : Hw) (pa : Nat) (bs : List Byte) : h.Written (h.deviceWrite pa bs) :=
  ((Hw.Written.of_unmarked (.clearMarks h pa _)).trans (.putBytes _ pa bs)).trans (.of_unmarked (.trigger _ _))

theorem Hw.Written.upkeep (h : Hw) (l : List Nat) (pa : Nat) : h.Written (h.upkeep l pa) := by
  unfold Hw.upkeep
  split
  · exact .refl h
  · have frame := h.setTag_eq pa (rawTag (h.tag pa))
    refine ⟨by rw [frame], fun g => ?_, Hw.warpsCalm_of_warps (by rw [frame])⟩
    rw [frame]; rfl
theorem Hw.Written.queueWrite (h : Hw) (pa : Nat) (bs : List Byte) : h.Written (h.queueWrite pa bs) :=
  (Hw.Written.deviceWrite h pa bs).trans (.upkeep _ _ _)
theorem Hw.Written.peerWriteBack (h : Hw) : h.Written h.peerWriteBack :=
  .of_keeps ((Keeps.foldl _ (fun k x => Keeps.writtenOut k x) _ h).trans (Keeps.fields _ _ _ _ _ _ _ _ _))

/-! ## Which bytes it writes -/

theorem Hw.byte_of_wq {h k : Hw} (e : Env) (a : k.wq = h.wq) (x : Nat) : k.byte e x = h.byte e x := by
  unfold Hw.byte; rw [a]

theorem Hw.byte_deviceWrite (h : Hw) (e : Env) (pa x : Nat) (bs : List Byte) : (h.deviceWrite pa bs).byte e x =
    if pa ≤ x ∧ x < pa + bs.length then bs.getD (x - pa) 0#8 else h.byte e x := by
  have cleared : (h.clearMarks pa bs.length).byte e x = h.byte e x :=
    Hw.byte_of_wq e (by rw [(Hw.Unmarked.clearMarks h pa bs.length).rest]) x
  have triggered : (h.deviceWrite pa bs).byte e x = ((h.clearMarks pa bs.length).putBytes pa bs).byte e x := rfl
  rw [triggered, Hw.byte_putBytes, cleared]

theorem Hw.wq_upkeep (h : Hw) (l : List Nat) (pa : Nat) : (h.upkeep l pa).wq = h.wq := by
  unfold Hw.upkeep
  split
  · rfl
  · rw [Hw.setTag_eq]
theorem Hw.byte_queueWrite (h : Hw) (e : Env) (pa x : Nat) (bs : List Byte) : (h.queueWrite pa bs).byte e x =
    if pa ≤ x ∧ x < pa + bs.length then bs.getD (x - pa) 0#8 else h.byte e x :=
  (Hw.byte_of_wq e (Hw.wq_upkeep _ _ _) x).trans (Hw.byte_deviceWrite h e pa x bs)
theorem Hw.wq_peerWriteBack (h : Hw) : h.peerWriteBack.wq = h.wq :=
  (Keeps.foldl _ (fun k x => Keeps.writtenOut k x) _ h).wq

/-- A write by no party sends nothing to the host. -/
theorem Hw.out_deviceWrite (h : Hw) (pa : Nat) (bs : List Byte) : (h.deviceWrite pa bs).out = h.out := by
  show (h.clearMarks pa bs.length).out = h.out
  rw [(Hw.Unmarked.clearMarks h pa bs.length).rest]

end Sys2Proof.Machine
end

section
/-! # The journal

What the journal's steps change of a function, and the entry that they leave (R36, R57 to R59, R451). -/
namespace Sys2Proof.Machine

open Sys2Proof.Terms

/-! ## What interrupts and pauses change -/

/-- Two machines that differ only in interrupt status, JFULL, what was sent to the host and what is planned. -/
structure Hw.Signals (h k : Hw) : Prop where
  rest : h.journalOnly k
  fns : ∀ g, k.fn g = { h.fn g with intstat := (k.fn g).intstat, jfull := (k.fn g).jfull }
  out : ∀ o ∈ h.out, o ∈ k.out

theorem Hw.Signals.refl (h : Hw) : h.Signals h := ⟨h.journalOnly_refl, fun _ => rfl, fun _ ho => ho⟩
theorem Hw.Signals.trans {h k l : Hw} (a : h.Signals k) (b : k.Signals l) : h.Signals l :=
  ⟨Hw.journalOnly_trans a.rest b.rest, fun g => by rw [b.fns, a.fns], fun o ho => b.out o (a.out o ho)⟩

theorem Hw.Signals.wq {h k : Hw} (a : h.Signals k) : k.wq = h.wq := by rw [a.rest]
theorem Hw.Signals.byte {h k : Hw} (a : h.Signals k) (e : Env) (x : Nat) : k.byte e x = h.byte e x := Hw.byte_of_wq e a.wq x
theorem Hw.Signals.of_agenda {h k : Hw} (a : h.agendaOnly k) : h.Signals k := by
  rw [a]
  exact ⟨rfl, fun _ => rfl, fun _ ho => ho⟩
theorem Hw.Signals.planOnce (h : Hw) (i : Instr) (o : Occasion) : h.Signals (h.planOnce i o) :=
  .of_agenda (h.agendaOnly_planOnce i o)

theorem Hw.Signals.setFn (h : Hw) (f : Nat) {x : Fn} (hx : x = { h.fn f with intstat := x.intstat, jfull := x.jfull }) :
    h.Signals (h.setFn f x) := by
  refine ⟨h.journalOnly_setFn f x, fun g => ?_, fun _ ho => ho⟩
  by_cases at_ : g = f
  · subst at_
    rw [Hw.fn_setFn_same]
    exact hx
  · rw [Hw.fn_setFn_other _ _ at_]

theorem Hw.Signals.send (h : Hw) (o : Out) : h.Signals (h.send o) := ⟨rfl, fun _ => rfl, fun _ hx => List.mem_cons_of_mem o hx⟩

theorem Hw.Signals.raiseInt (h : Hw) (f bit vec : Nat) : h.Signals (h.raiseInt f bit vec) := by
  unfold Hw.raiseInt
  dsimp only
  split
  · exact .refl h
  · refine .trans (k := h.setFn f { h.fn f with intstat := (h.fn f).intstat ||| (1#8 <<< bit) }) (.setFn h f rfl) ?_
    split
    · exact .send _ _
    · exact .refl _

/-- The bit of an interrupt that has been raised. -/
theorem Hw.intstat_raiseInt (h : Hw) (f vec : Nat) {bit : Nat} (hb : bit < 8) :
    ((h.raiseInt f bit vec).fn f).intstat.getLsbD bit = true := by
  unfold Hw.raiseInt
  dsimp only
  split
  · next set => exact set
  · have set : ((h.setFn f { h.fn f with intstat := (h.fn f).intstat ||| (1#8 <<< bit) }).fn f).intstat.getLsbD bit = true := by
      simp [hb]
    split <;> exact set

/-- The fetches of a function's queues are planned. -/
theorem Hw.agendaOnly_planEach (h : Hw) (f : Nat) (p : Nat → Bool) (l : List Nat) : h.agendaOnly (l.foldl (fun h q =>
    if p q then h.planOnce .commandFetch { Occasion.none with unit := f, id := q } else h) h) :=
  List.foldlRecOn (motive := h.agendaOnly) l _ h.agendaOnly_refl fun k hk q _ => by
    split
    · exact Hw.agendaOnly_trans hk (Hw.agendaOnly_planOnce k _ _)
    · exact hk

theorem Hw.Signals.jPause (h : Hw) (f : Nat) : h.Signals (h.jPause f) := by
  unfold Hw.jPause
  dsimp only
  split
  · split
    · exact .refl h
    · exact (Hw.Signals.setFn h f (x := { h.fn f with jfull := true }) rfl).trans (.raiseInt _ _ _ _)
  · split
    · exact (Hw.Signals.setFn h f (x := { h.fn f with jfull := false }) rfl).trans (.of_agenda (Hw.agendaOnly_planEach _ f _ _))
    · exact .refl h

/-- Where the next index is free and no entry waits, acceptance goes on. -/
theorem Hw.jfull_jPause (h : Hw) {f : Nat} (free : (h.fn f).jFree = true) (empty : (h.fn f).jbuf = []) :
    ((h.jPause f).fn f).jfull = false := by
  unfold Hw.jPause
  dsimp only
  rw [if_neg (by simp [free, empty])]
  split
  · rw [Hw.agendaOnly_planEach]
    show ((h.setFn f { h.fn f with jfull := false }).fn f).jfull = false
    rw [Hw.fn_setFn_same]
  · next hf => simpa using hf

/-! ## Entries -/

/-- Where no entry waits, none is written. -/
theorem Fn.jDrain_of_empty {x : Fn} (empty : x.jbuf = []) (n : Nat) : x.jDrain n = x := by
  cases n with
  | zero => rfl
  | succ n => unfold Fn.jDrain; rw [empty]

theorem Fn.jPut_eq (x : Fn) (j : JEnt) : x.jPut j = { x with journal := (x.jPut j).journal, jnext := x.jnext + 1 } := rfl
theorem Fn.find?_jPut (x : Fn) (j : JEnt) : Tab.find? (x.jPut j).journal (x.jnext % 8192) = some { j with seq := x.jnext } :=
  Tab.find?_put_same _ _ _

theorem Fn.jDrain_eq (n : Nat) (x : Fn) :
    x.jDrain n = { x with journal := (x.jDrain n).journal, jnext := (x.jDrain n).jnext, jbuf := (x.jDrain n).jbuf } := by
  induction n generalizing x with
  | zero => rfl
  | succ n ih =>
    unfold Fn.jDrain
    split
    · rfl
    · next j js _ =>
      split
      · rw [ih]; rfl
      · rfl

/-- A function whose entry of command `seq` is rewritten (R57, R58). -/
def Fn.jSet (x : Fn) (tick seq state status cause : Nat) (late : Bool) : Fn :=
  match Tab.find? x.journal (seq % 8192) with
  | some j =>
    if j.seq = seq ∧ !j.terminal then
      let j := { j with state := state, status := status, cause := cause, late := j.late || late, tstamp := tick }
      Fn.jDrain 17 { x with journal := Tab.put x.journal (seq % 8192) j }
    else x
  | none => x

theorem Hw.jState_eq (h : Hw) (e : Env) (f seq state status cause : Nat) (late : Bool) :
    h.jState e f seq state status cause late =
      (h.onFn f fun x => x.jSet e.clk.tick seq state status cause late).jPause f := rfl

section
variable (x : Fn) (tick seq state status cause : Nat) (late : Bool)

theorem Fn.jSet_eq : x.jSet tick seq state status cause late = { x with
    journal := (x.jSet tick seq state status cause late).journal, jnext := (x.jSet tick seq state status cause late).jnext
    jbuf := (x.jSet tick seq state status cause late).jbuf } := by
  unfold Fn.jSet
  split
  · dsimp only
    split
    · rw [Fn.jDrain_eq]
    · rfl
  · rfl

/-- Where no entry waits, one is rewritten and none written. -/
theorem Fn.jSet_of_empty {x : Fn} (empty : x.jbuf = []) : (x.jSet tick seq state status cause late).jbuf = [] ∧
    (x.jSet tick seq state status cause late).jnext = x.jnext := by
  unfold Fn.jSet
  split
  · dsimp only
    split
    · rw [Fn.jDrain_of_empty (by exact empty)]
      exact ⟨empty, rfl⟩
    · exact ⟨empty, rfl⟩
  · exact ⟨empty, rfl⟩
end

/-- Command `n`'s entry `j` is open: it stands in the journal and is not terminal, and no entry waits for a place. -/
structure Fn.Open (x : Fn) (n : Nat) (j : JEnt) : Prop where
  empty : x.jbuf = []
  entry : Tab.find? x.journal (n % 8192) = some j
  seq : j.seq = n
  open_ : j.terminal = false

/-- An open entry is rewritten. -/
theorem Fn.Open.find?_jSet {x : Fn} {n : Nat} {j : JEnt} (a : x.Open n j) (tick state status cause : Nat) (late : Bool) :
    Tab.find? (x.jSet tick n state status cause late).journal (n % 8192) =
      some { j with state := state, status := status, cause := cause, late := j.late || late, tstamp := tick } := by
  unfold Fn.jSet
  simp only [a.entry, a.seq, a.open_, Bool.not_false, and_self, if_true]
  rw [Fn.jDrain_of_empty (by exact a.empty)]
  exact Tab.find?_put_same _ _ _

/-- Another command's entry is left as it is. -/
theorem Fn.find?_jSet_other {x : Fn} {n m : Nat} {j : JEnt} (empty : x.jbuf = []) (entry : Tab.find? x.journal (n % 8192) = some j)
    (seq : j.seq = n) (hm : m ≠ n) (tick state status cause : Nat) (late : Bool) :
    Tab.find? (x.jSet tick m state status cause late).journal (n % 8192) = some j := by
  unfold Fn.jSet
  split
  · next i found =>
    split
    · next same =>
      rw [Fn.jDrain_of_empty (by exact empty)]
      refine (Tab.find?_put_other _ _ fun place => hm ?_).trans entry
      rw [← place, entry] at found
      rw [← same.1, ← Option.some.inj found, seq]
    · exact entry
  · exact entry

/-! ## What the journal's steps change -/

/-- Two machines that differ only in what the journal's steps, acceptance and dispatch change: interrupts, queues, journal and
commands of functions. -/
structure Hw.Logged (h k : Hw) : Prop where
  rest : h.journalOnly k
  fns : ∀ g, k.fn g = { h.fn g with
    intstat := (k.fn g).intstat, jfull := (k.fn g).jfull, queues := (k.fn g).queues, jnext := (k.fn g).jnext, jlost := (k.fn g).jlost
    journal := (k.fn g).journal, jbuf := (k.fn g).jbuf, cmds := (k.fn g).cmds }

theorem Hw.Logged.refl (h : Hw) : h.Logged h := ⟨h.journalOnly_refl, fun _ => rfl⟩
theorem Hw.Logged.trans {h k l : Hw} (a : h.Logged k) (b : k.Logged l) : h.Logged l :=
  ⟨Hw.journalOnly_trans a.rest b.rest, fun g => by rw [b.fns, a.fns]⟩
theorem Hw.Logged.of_signals {h k : Hw} (a : h.Signals k) : h.Logged k := ⟨a.rest, fun g => by rw [a.fns g]⟩

theorem Hw.Logged.setFn (h : Hw) (f : Nat) {x : Fn} (hx : x = { h.fn f with
    intstat := x.intstat, jfull := x.jfull, queues := x.queues, jnext := x.jnext, jlost := x.jlost
    journal := x.journal, jbuf := x.jbuf, cmds := x.cmds }) : h.Logged (h.setFn f x) := by
  refine ⟨h.journalOnly_setFn f x, fun g => ?_⟩
  by_cases at_ : g = f
  · subst at_
    rw [Hw.fn_setFn_same]
    exact hx
  · rw [Hw.fn_setFn_other _ _ at_]

theorem Hw.Logged.onSq (h : Hw) (f q : Nat) (g : SQ → SQ) : h.Logged (h.onSq f q g) := .setFn h f rfl
theorem Hw.Logged.onQCmd (h : Hw) (f seq : Nat) (g : QCmd → QCmd) : h.Logged (h.onQCmd f seq g) := .setFn h f rfl
theorem Hw.Logged.jState (h : Hw) (e : Env) (f seq state status cause : Nat) (late : Bool) :
    h.Logged (h.jState e f seq state status cause late) :=
  (Hw.Logged.setFn h f (x := (h.fn f).jSet e.clk.tick seq state status cause late) (by rw [Fn.jSet_eq])).trans
    (.of_signals (.jPause _ f))
theorem Hw.Logged.markDispatched (h : Hw) (e : Env) (f seq : Nat) : h.Logged (h.markDispatched e f seq) :=
  (Hw.Logged.onQCmd h f seq _).trans (.jState _ e f seq _ _ _ _)

end Sys2Proof.Machine
end

section
/-! # The end of a command

A command that ends is gone; its journal entry is terminal, its completion word stands, and its interrupt is raised (R52). -/
namespace Sys2Proof.Machine

open Sys2Proof.Terms

@[simp] theorem length_natLe (n v : Nat) : (natLe n v).length = n := by
  induction n generalizing v with
  | zero => rfl
  | succ n ih => rw [natLe, List.length_cons, ih]

/-! ## Its steps -/

/-- The command is gone, and owns no line. -/
def Hw.forgetCmd (h : Hw) (f seq : Nat) : Hw :=
  { (h.onFn f fun x => { x with cmds := Tab.del x.cmds seq }) with owners := Tab.keep (fun _ o => o != queueOwner f seq) h.owners }
/-- Its completion word is written, where it asks for one. -/
def Hw.putWord (h : Hw) (f : Nat) (c : QCmd) (word : Nat) : Hw :=
  if c.caddr = 0#64 ∨ c.caddr.toNat % 8 ≠ 0 ∨ ¬ h.inWindow f c.caddr 8 then h else h.deviceWrite (hostPa c.caddr) (natLe 8 word)
/-- Its interrupt is raised, where it asks for one. -/
def Hw.signalEnd (h : Hw) (f : Nat) (c : QCmd) : Hw :=
  if c.irq then h.raiseInt f iCMPL (Tab.getD (h.fn f).queues c.queue SQ.reset).vec else h
/-- The state of an ended command. -/
def endState (status : Nat) (rejected : Bool) : Nat := if rejected then 5 else if status = 0 then 3 else 4

section
variable (h : Hw) (e : Env) (f seq status cause : Nat) (rejected : Bool)

/-- The command has ended, and what follows is still to be planned. -/
def Hw.closed (c : QCmd) : Hw :=
  (((h.forgetCmd f seq).jState e f seq (endState status rejected) status (if status = 5 then cause else 0) false).putWord f c
    (completionWord c.ctag status cause seq)).signalEnd f c

theorem Hw.endCommand_of_none (hc : Tab.find? (h.fn f).cmds seq = none) : h.endCommand e f seq status cause rejected = h := by
  unfold Hw.endCommand; rw [hc]
theorem Hw.endCommand_of_some {c : QCmd} (hc : Tab.find? (h.fn f).cmds seq = some c) :
    h.endCommand e f seq status cause rejected = ((h.closed e f seq status cause rejected c).planDispatch f c.queue).moved := by
  unfold Hw.endCommand; rw [hc]; rfl
end

/-! ## What it changes -/

theorem Hw.agendaOnly_planDispatch (h : Hw) (f q : Nat) : h.agendaOnly (h.planDispatch f q) := by
  unfold Hw.planDispatch
  split
  · exact h.agendaOnly_planOnce _ _
  · exact h.agendaOnly_refl

/-- Two machines that differ only in what the end of a command changes. -/
structure Hw.Ends (h k : Hw) : Prop where
  rest : k = { h with
    fns := k.fns, out := k.out, agenda := k.agenda, tried := k.tried, owners := k.owners, recs := k.recs, marks := k.marks
    mctx := k.mctx, ovf := k.ovf, spare := k.spare, wq := k.wq, warps := k.warps }
  fns : ∀ g, k.fn g = { h.fn g with
    intstat := (k.fn g).intstat, jfull := (k.fn g).jfull, jnext := (k.fn g).jnext, journal := (k.fn g).journal
    jbuf := (k.fn g).jbuf, cmds := (k.fn g).cmds, race := { (h.fn g).race with order := (k.fn g).race.order } }
  calm : h.warpsCalm k
  out : ∀ o ∈ h.out, o ∈ k.out

theorem Hw.Ends.refl (h : Hw) : h.Ends h := ⟨rfl, fun _ => rfl, h.warpsCalm_refl, fun _ ho => ho⟩
theorem Hw.Ends.trans {h k l : Hw} (a : h.Ends k) (b : k.Ends l) : h.Ends l :=
  ⟨by rw [b.rest, a.rest], fun g => by rw [b.fns, a.fns], Hw.warpsCalm_trans a.calm b.calm, fun o ho => b.out o (a.out o ho)⟩

theorem Hw.Ends.of_signals {h k : Hw} (a : h.Signals k) : h.Ends k :=
  ⟨by rw [a.rest], fun g => by rw [a.fns g], Hw.warpsCalm_of_warps (by rw [a.rest]), a.out⟩
theorem Hw.Ends.of_unmarked {h k : Hw} (a : h.Unmarked k) : h.Ends k :=
  ⟨by rw [a.rest], fun g => by rw [a.fns g], a.calm, fun o ho => by rw [a.rest]; exact ho⟩
theorem Hw.Ends.putBytes (h : Hw) (pa : Nat) (bs : List Byte) : h.Ends (h.putBytes pa bs) :=
  ⟨rfl, fun _ => rfl, h.warpsCalm_refl, fun _ ho => ho⟩
theorem Hw.Ends.deviceWrite (h : Hw) (pa : Nat) (bs : List Byte) : h.Ends (h.deviceWrite pa bs) :=
  ((Hw.Ends.of_unmarked (.clearMarks h pa _)).trans (.putBytes _ pa bs)).trans (.of_unmarked (.trigger _ _))
theorem Hw.Ends.moved (h : Hw) : h.Ends h.moved := ⟨rfl, fun _ => rfl, h.warpsCalm_refl, fun _ ho => ho⟩

theorem Hw.fn_forgetCmd (h : Hw) (f seq g : Nat) : (h.forgetCmd f seq).fn g =
    if g = f then { h.fn f with cmds := Tab.del (h.fn f).cmds seq } else h.fn g :=
  Hw.fn_onFn h f g fun x => { x with cmds := Tab.del x.cmds seq }
theorem Hw.Ends.forgetCmd (h : Hw) (f seq : Nat) : h.Ends (h.forgetCmd f seq) := by
  refine ⟨rfl, fun g => ?_, fun _ => rfl, fun _ ho => ho⟩
  rw [Hw.fn_forgetCmd]
  split
  · next at_ => subst at_; rfl
  · rfl

theorem Hw.Ends.onFn_jSet (h : Hw) (f tick seq state status cause : Nat) (late : Bool) :
    h.Ends (h.onFn f fun x => x.jSet tick seq state status cause late) := by
  refine ⟨rfl, fun g => ?_, fun _ => rfl, fun _ ho => ho⟩
  rw [Hw.fn_onFn]
  split
  · next at_ =>
    subst at_
    rw [Fn.jSet_eq]
  · rfl

theorem Hw.Ends.jState (h : Hw) (e : Env) (f seq state status cause : Nat) (late : Bool) :
    h.Ends (h.jState e f seq state status cause late) :=
  (Hw.Ends.onFn_jSet h f _ _ _ _ _ _).trans (.of_signals (.jPause _ f))

theorem Hw.Ends.putWord (h : Hw) (f : Nat) (c : QCmd) (word : Nat) : h.Ends (h.putWord f c word) := by
  unfold Hw.putWord
  split
  · exact .refl h
  · exact .deviceWrite h _ _
theorem Hw.Signals.signalEnd (h : Hw) (f : Nat) (c : QCmd) : h.Signals (h.signalEnd f c) := by
  unfold Hw.signalEnd
  split
  · exact .raiseInt h _ _ _
  · exact .refl h

section
variable (h : Hw) (e : Env) (f seq status cause : Nat) (rejected : Bool)

theorem Hw.Ends.closed (c : QCmd) : h.Ends (h.closed e f seq status cause rejected c) :=
  (((Hw.Ends.forgetCmd h f seq).trans (.jState _ _ _ _ _ _ _ _)).trans (.putWord _ f c _)).trans (.of_signals (.signalEnd _ f c))

theorem Hw.Ends.endCommand : h.Ends (h.endCommand e f seq status cause rejected) := by
  cases hc : Tab.find? (h.fn f).cmds seq with
  | none => rw [Hw.endCommand_of_none h e f seq status cause rejected hc]; exact .refl h
  | some c =>
    rw [Hw.endCommand_of_some h e f seq status cause rejected hc]
    exact (Hw.Ends.closed h e f seq status cause rejected c).trans
      ((Hw.Ends.of_signals (.of_agenda (Hw.agendaOnly_planDispatch _ _ _))).trans (.moved _))
end

/-! ## The command, its entry and its bytes -/

theorem Hw.inWindow_of_bind {h k : Hw} {f : Nat} (a : (k.fn f).bind = (h.fn f).bind) (x : DWord) (n : Nat) :
    k.inWindow f x n = h.inWindow f x n := by
  unfold Hw.inWindow; rw [a]

/-- Putting the word changes nothing of a function but which record it recycles first. -/
theorem Hw.fn_putWord (h : Hw) (f g : Nat) (c : QCmd) (word : Nat) : (h.putWord f c word).fn g =
    { h.fn g with race := { (h.fn g).race with order := ((h.putWord f c word).fn g).race.order } } := by
  unfold Hw.putWord
  split
  · rfl
  · exact (Hw.Unmarked.clearMarks h (hostPa c.caddr) (natLe 8 word).length).fns g

/-- Where the word is put, and what else the package reads. -/
theorem Hw.byte_putWord (h : Hw) (e : Env) (f : Nat) (c : QCmd) (word x : Nat) : (h.putWord f c word).byte e x =
    if (c.caddr ≠ 0#64 ∧ c.caddr.toNat % 8 = 0 ∧ h.inWindow f c.caddr 8 = true) ∧ hostPa c.caddr ≤ x ∧ x < hostPa c.caddr + 8 then
      (natLe 8 word).getD (x - hostPa c.caddr) 0#8 else h.byte e x := by
  unfold Hw.putWord
  split
  · next bad =>
    rw [if_neg fun good => ?_]
    rcases bad with bad | bad | bad
    · exact good.1.1 bad
    · exact bad good.1.2.1
    · exact bad good.1.2.2
  · next good =>
    rw [not_or, not_or, not_not, not_not] at good
    rw [Hw.byte_deviceWrite, length_natLe]
    simp only [ne_eq, good, not_false_eq_true, and_self, true_and]

section
variable (h : Hw) (e : Env) (f seq status cause : Nat) (rejected : Bool)

/-- The function as the end of its command leaves it, but for interrupts and recycled records. -/
def Fn.closed (x : Fn) (tick seq status cause : Nat) (rejected : Bool) : Fn :=
  { x with cmds := Tab.del x.cmds seq }.jSet tick seq (endState status rejected) status (if status = 5 then cause else 0) false

theorem Hw.fn_closed (c : QCmd) (g : Nat) : (h.closed e f seq status cause rejected c).fn g =
    { (if g = f then (h.fn f).closed e.clk.tick seq status cause rejected else h.fn g) with
      intstat := ((h.closed e f seq status cause rejected c).fn g).intstat
      jfull := ((h.closed e f seq status cause rejected c).fn g).jfull
      race := ((h.closed e f seq status cause rejected c).fn g).race } := by
  unfold Hw.closed
  rw [(Hw.Signals.signalEnd _ f c).fns, Hw.fn_putWord, Hw.jState_eq, (Hw.Signals.jPause _ f).fns, Hw.fn_onFn, Hw.fn_forgetCmd,
    if_pos rfl, Hw.fn_forgetCmd]
  split <;> rfl

theorem Fn.closed_cmds (x : Fn) (tick : Nat) : (x.closed tick seq status cause rejected).cmds = Tab.del x.cmds seq := by
  unfold Fn.closed; rw [Fn.jSet_eq]
theorem Fn.closed_of_empty {x : Fn} (tick : Nat) (empty : x.jbuf = []) : (x.closed tick seq status cause rejected).jbuf = [] ∧
    (x.closed tick seq status cause rejected).jnext = x.jnext := Fn.jSet_of_empty _ _ _ _ _ _ empty
theorem Fn.Open.closed {x : Fn} {n : Nat} {j : JEnt} (a : x.Open n j) (tick : Nat) :
    Tab.find? (x.closed tick n status cause rejected).journal (n % 8192) = some { j with
      state := endState status rejected, status := status, cause := if status = 5 then cause else 0, tstamp := tick } := by
  have opened : ({ x with cmds := Tab.del x.cmds n } : Fn).Open n j := ⟨a.empty, a.entry, a.seq, a.open_⟩
  unfold Fn.closed
  simpa using opened.find?_jSet tick (endState status rejected) status (if status = 5 then cause else 0) false

/-- What is still to be planned changes no function and writes nothing. -/
theorem Hw.endCommand_fns_wq {c : QCmd} (hc : Tab.find? (h.fn f).cmds seq = some c) :
    (h.endCommand e f seq status cause rejected).fns = (h.closed e f seq status cause rejected c).fns ∧
    (h.endCommand e f seq status cause rejected).wq = (h.closed e f seq status cause rejected c).wq := by
  rw [Hw.endCommand_of_some h e f seq status cause rejected hc]
  unfold Hw.moved
  rw [Hw.agendaOnly_planDispatch]
  exact ⟨rfl, rfl⟩

theorem Hw.fn_of_fns {h k : Hw} (a : k.fns = h.fns) (g : Nat) : k.fn g = h.fn g := by unfold Hw.fn; rw [a]

theorem Hw.fn_endCommand {c : QCmd} (hc : Tab.find? (h.fn f).cmds seq = some c) (g : Nat) :
    (h.endCommand e f seq status cause rejected).fn g =
    { (if g = f then (h.fn f).closed e.clk.tick seq status cause rejected else h.fn g) with
      intstat := ((h.endCommand e f seq status cause rejected).fn g).intstat
      jfull := ((h.endCommand e f seq status cause rejected).fn g).jfull
      race := ((h.endCommand e f seq status cause rejected).fn g).race } := by
  rw [Hw.fn_of_fns (Hw.endCommand_fns_wq h e f seq status cause rejected hc).1]
  exact Hw.fn_closed h e f seq status cause rejected c g

/-- The command is gone, and no other. -/
theorem Hw.cmds_endCommand (g n : Nat) : Tab.find? ((h.endCommand e f seq status cause rejected).fn g).cmds n =
    if g = f ∧ n = seq then none else Tab.find? (h.fn g).cmds n := by
  cases hc : Tab.find? (h.fn f).cmds seq with
  | none =>
    rw [Hw.endCommand_of_none h e f seq status cause rejected hc]
    split
    · next at_ => rw [at_.1, at_.2, hc]
    · rfl
  | some c =>
    rw [Hw.fn_endCommand h e f seq status cause rejected hc]
    by_cases at_ : g = f
    · subst at_
      simp only [if_true, Fn.closed_cmds, true_and]
      split
      · next n_ => rw [n_]; exact Tab.find?_del_same _ _
      · next n_ => exact Tab.find?_del_other _ n_
    · simp only [at_, if_false, false_and]

/-- No byte but the completion word's changes. -/
theorem Hw.byte_endCommand_far {c : QCmd} (hc : Tab.find? (h.fn f).cmds seq = some c) {x : Nat}
    (far : c.caddr = 0#64 ∨ x < hostPa c.caddr ∨ hostPa c.caddr + 8 ≤ x) :
    (h.endCommand e f seq status cause rejected).byte e x = h.byte e x := by
  rw [Hw.byte_of_wq e (Hw.endCommand_fns_wq h e f seq status cause rejected hc).2]
  unfold Hw.closed
  rw [(Hw.Signals.signalEnd _ f c).byte, Hw.byte_putWord, if_neg]
  · exact (Hw.Signals.jPause _ f).byte e x
  · rintro ⟨⟨asked, -, -⟩, within⟩
    rcases far with far | far
    · exact asked far
    · omega

/-- The completion word stands where the command asked for it. -/
theorem Hw.byte_endCommand_word {c : QCmd} (hc : Tab.find? (h.fn f).cmds seq = some c) (asked : c.caddr ≠ 0#64)
    (aligned : c.caddr.toNat % 8 = 0) (inside : h.inWindow f c.caddr 8 = true) {k : Nat} (hk : k < 8) :
    (h.endCommand e f seq status cause rejected).byte e (hostPa c.caddr + k) =
      (natLe 8 (completionWord c.ctag status cause seq)).getD k 0#8 := by
  have window : ((h.forgetCmd f seq).jState e f seq (endState status rejected) status (if status = 5 then cause else 0) false).inWindow
      f c.caddr 8 = true := by
    refine (Hw.inWindow_of_bind ?_ _ _).trans inside
    rw [((Hw.Ends.forgetCmd h f seq).trans (.jState _ _ _ _ _ _ _ _)).fns]
  rw [Hw.byte_of_wq e (Hw.endCommand_fns_wq h e f seq status cause rejected hc).2]
  unfold Hw.closed
  rw [(Hw.Signals.signalEnd _ f c).byte, Hw.byte_putWord, if_pos ⟨⟨asked, aligned, window⟩, by omega⟩,
    Nat.add_sub_cancel_left]

/-- Its interrupt is raised, where it asks for one. -/
theorem Hw.intstat_endCommand {c : QCmd} (hc : Tab.find? (h.fn f).cmds seq = some c) (asked : c.irq = true) :
    ((h.endCommand e f seq status cause rejected).fn f).intstat.getLsbD 0 = true := by
  rw [Hw.fn_of_fns (Hw.endCommand_fns_wq h e f seq status cause rejected hc).1]
  unfold Hw.closed Hw.signalEnd
  rw [if_pos asked]
  exact Hw.intstat_raiseInt _ f _ (by decide)
end

/-! ## A command that is to end -/

/-- From state `s` on, the package has come to `h`, where command `seq` of function f still stands: its bytes are those of `c`, its
journal entry is open where it was, and the function has its host window. -/
structure Running (s : State) (h : Hw) (f seq : Nat) (c : QCmd) : Prop where
  cmd : ∃ d, Tab.find? (h.fn f).cmds seq = some d ∧ d.bytes = c.bytes
  entry : ∀ j, (s.hw.fn f).Open seq j → ∃ i, (h.fn f).Open seq i ∧
    j = { i with state := j.state, status := j.status, cause := j.cause, tstamp := j.tstamp }
  bind : (h.fn f).bind = (s.hw.fn f).bind

section
variable {s : State} {h : Hw} {f seq : Nat} {c : QCmd}

theorem Running.start (hc : Tab.find? (s.hw.fn f).cmds seq = some c) : Running s s.hw f seq c :=
  ⟨⟨c, hc, rfl⟩, fun j hj => ⟨j, hj, rfl⟩, rfl⟩

/-- Where the function's commands, journal and window stay, the command stands as it did. -/
theorem Running.of_fn {k : Hw} (a : Running s h f seq c) (cmds : (k.fn f).cmds = (h.fn f).cmds)
    (journal : (k.fn f).journal = (h.fn f).journal) (jbuf : (k.fn f).jbuf = (h.fn f).jbuf) (bind : (k.fn f).bind = (h.fn f).bind) :
    Running s k f seq c := by
  obtain ⟨cmd, entry, bound⟩ := a
  refine ⟨by rw [cmds]; exact cmd, fun j hj => ?_, bind.trans bound⟩
  obtain ⟨i, hi, same⟩ := entry j hj
  exact ⟨i, ⟨jbuf.trans hi.empty, by rw [journal]; exact hi.entry, hi.seq, hi.open_⟩, same⟩

theorem Running.of_written {k : Hw} (a : Running s h f seq c) (w : h.Written k) : Running s k f seq c :=
  a.of_fn (by rw [w.fns]) (by rw [w.fns]) (by rw [w.fns]) (by rw [w.fns])
theorem Running.of_signals {k : Hw} (a : Running s h f seq c) (w : h.Signals k) : Running s k f seq c :=
  a.of_fn (by rw [w.fns]) (by rw [w.fns]) (by rw [w.fns]) (by rw [w.fns])
theorem Running.of_fns {k : Hw} (a : Running s h f seq c) (w : k.fns = h.fns) : Running s k f seq c :=
  a.of_fn (by rw [Hw.fn_of_fns w]) (by rw [Hw.fn_of_fns w]) (by rw [Hw.fn_of_fns w]) (by rw [Hw.fn_of_fns w])

/-- A command whose other fields change still has its bytes. -/
theorem Running.onQCmd (a : Running s h f seq c) {g : QCmd → QCmd} (hg : ∀ d, (g d).bytes = d.bytes) :
    Running s (h.onQCmd f seq g) f seq c := by
  obtain ⟨⟨d, hd, bytes⟩, entry, bound⟩ := a
  have fn : (h.onQCmd f seq g).fn f = { h.fn f with cmds := Tab.modify (h.fn f).cmds seq g } := Hw.fn_onFn_same _ _ _
  refine ⟨⟨g d, ?_, (hg d).trans bytes⟩, fun j hj => ?_, by rw [fn]; exact bound⟩
  · rw [fn]
    exact (Tab.find?_modify_same _ _ _).trans (by rw [hd]; rfl)
  · obtain ⟨i, hi, same⟩ := entry j hj
    rw [fn]
    exact ⟨i, ⟨hi.empty, hi.entry, hi.seq, hi.open_⟩, same⟩

/-- A command whose entry takes a state that is not terminal still has it open. -/
theorem Running.jState (a : Running s h f seq c) (e : Env) {state : Nat} (hs : state < 3) (status cause : Nat) :
    Running s (h.jState e f seq state status cause false) f seq c := by
  rw [Hw.jState_eq]
  refine Running.of_signals ?_ (.jPause _ f)
  obtain ⟨cmd, entry, bound⟩ := a
  refine ⟨?_, fun j hj => ?_, ?_⟩
  · rw [Hw.fn_onFn_same, Fn.jSet_eq]
    exact cmd
  · obtain ⟨i, hi, same⟩ := entry j hj
    rw [Hw.fn_onFn_same]
    refine ⟨_, ⟨(Fn.jSet_of_empty _ _ _ _ _ _ hi.empty).1, hi.find?_jSet _ _ _ _ _, hi.seq, ?_⟩, ?_⟩
    · simp [JEnt.terminal, hs]
    · rw [same]; simp
  · rw [Hw.fn_onFn_same, Fn.jSet_eq]
    exact bound

theorem Running.markDispatched (a : Running s h f seq c) (e : Env) : Running s (h.markDispatched e f seq) f seq c :=
  (a.onQCmd (g := fun c => { c with disp := true }) fun _ => rfl).jState e (by decide) 0 0

/-- A command that stands, ended: whatever follows changes no function and writes nothing. -/
theorem Running.ended (a : Running s h f seq c) (status cause : Nat) (rejected : Bool) {k : Hw}
    (fns : k.fns = (h.endCommand (env s) f seq status cause rejected).fns)
    (wq : k.wq = (h.endCommand (env s) f seq status cause rejected).wq) :
    Ended s (s.after k) f seq c status cause rejected := by
  obtain ⟨⟨d, hd, bytes⟩, entry, bound⟩ := a
  have caddr : d.caddr = c.caddr := by unfold QCmd.caddr QCmd.num; rw [bytes]
  have ctag : d.ctag = c.ctag := by unfold QCmd.ctag QCmd.num; rw [bytes]
  have irq : d.irq = c.irq := by unfold QCmd.irq QCmd.byte; rw [bytes]
  have fn (g : Nat) : (s.after k).hw.fn g = (h.endCommand (env s) f seq status cause rejected).fn g := Hw.fn_of_fns fns g
  refine ⟨?_, fun j hj seq_ open_ empty => ?_, fun asked aligned inside n hn => ?_, fun asked => ?_⟩
  · rw [fn, Hw.cmds_endCommand, if_pos ⟨rfl, rfl⟩]
  · obtain ⟨i, hi, same⟩ := entry j ⟨empty, hj, seq_, open_⟩
    rw [fn, Hw.fn_endCommand h (env s) f seq status cause rejected hd, if_pos rfl, hi.closed, same]
    rfl
  · rw [State.byte_after, Hw.byte_of_wq _ wq, ← caddr, ← ctag]
    refine Hw.byte_endCommand_word h (env s) f seq status cause rejected hd (caddr ▸ asked) (caddr ▸ aligned) ?_ hn
    rw [Hw.inWindow_of_bind bound, caddr]
    exact inside
  · rw [fn]
    exact Hw.intstat_endCommand h (env s) f seq status cause rejected hd (irq.trans asked)

/-- No byte but the completion word's has changed, where none had been written before the end. -/
theorem Running.wordOnly (a : Running s h f seq c) (unwritten : h.wq = []) (status cause : Nat) (rejected : Bool) {k : Hw}
    (wq : k.wq = (h.endCommand (env s) f seq status cause rejected).wq) : WordOnly s (s.after k) c := by
  obtain ⟨⟨d, hd, bytes⟩, -, -⟩ := a
  have caddr : d.caddr = c.caddr := by unfold QCmd.caddr QCmd.num; rw [bytes]
  intro x far
  rw [State.byte_after, Hw.byte_of_wq _ wq,
    Hw.byte_endCommand_far h (env s) f seq status cause rejected hd (.inr (caddr ▸ far)), Hw.byte_of_unwritten unwritten]

/-- A command that asks for no word writes none. -/
theorem Running.byte_of_silent (a : Running s h f seq c) (silent : c.caddr = 0#64) (status cause : Nat) (rejected : Bool) (x : Nat) :
    (h.endCommand (env s) f seq status cause rejected).byte (env s) x = h.byte (env s) x := by
  obtain ⟨⟨d, hd, bytes⟩, -, -⟩ := a
  have caddr : d.caddr = c.caddr := by unfold QCmd.caddr QCmd.num; rw [bytes]
  exact Hw.byte_endCommand_far h (env s) f seq status cause rejected hd (.inl (caddr.trans silent))
end

end Sys2Proof.Machine
end

section
/-! # Queues

What validation, errors and resets leave of a function's queues (R44, R45, Table 2.5). -/
namespace Sys2Proof.Machine

open Sys2Proof.Terms

/-! ## One queue -/

theorem Hw.sq_onSq (h : Hw) (f q g r : Nat) (k : SQ → SQ) :
    (h.onSq f q k).sq g r = if (g, r) = (f, q) then k (h.sq f q) else h.sq g r := by
  unfold Hw.sq Hw.onSq
  rw [Hw.fn_onFn]
  by_cases fn : g = f
  · subst fn
    rw [if_pos rfl]
    by_cases queue : r = q
    · subst queue
      rw [if_pos rfl]
      exact Tab.getD_put_same _ _ _ _
    · rw [if_neg (by simp [queue])]
      exact Tab.getD_put_other _ _ _ queue
  · rw [if_neg fn, if_neg (by simp [fn])]

theorem Hw.fn_onSq (h : Hw) (f q g : Nat) (k : SQ → SQ) :
    (h.onSq f q k).fn g = { h.fn g with queues := ((h.onSq f q k).fn g).queues } := by
  unfold Hw.onSq
  rw [Hw.fn_onFn]
  split
  · next at_ => subst at_; rfl
  · rfl

theorem Hw.sq_of_queues {h k : Hw} {g : Nat} (a : (k.fn g).queues = (h.fn g).queues) (r : Nat) : k.sq g r = h.sq g r := by
  unfold Hw.sq; rw [a]
theorem Hw.Signals.sq {h k : Hw} (a : h.Signals k) (g r : Nat) : k.sq g r = h.sq g r := Hw.sq_of_queues (by rw [a.fns]) r
theorem Hw.Ends.sq {h k : Hw} (a : h.Ends k) (g r : Nat) : k.sq g r = h.sq g r := Hw.sq_of_queues (by rw [a.fns]) r

/-! ## What a function's checks read -/

section
variable {h k : Hw} (a : h.Logged k)
include a

theorem Hw.Logged.bind (f : Nat) : (k.fn f).bind = (h.fn f).bind := by rw [a.fns]
theorem Hw.Logged.wake (f : Nat) : (k.fn f).wake = (h.fn f).wake := by rw [a.fns]
theorem Hw.Logged.part (p : Nat) : k.part p = h.part p := by rw [a.rest]; rfl
theorem Hw.Logged.partOf (f : Nat) : k.partOf f = h.partOf f := by unfold Hw.partOf; rw [a.bind]
theorem Hw.Logged.partFor (f : Nat) : k.partFor f = h.partFor f := by unfold Hw.partFor; rw [a.bind, a.partOf, a.part]
theorem Hw.Logged.inWindow (f : Nat) (x : DWord) (n : Nat) : k.inWindow f x n = h.inWindow f x n := Hw.inWindow_of_bind (a.bind f) x n
theorem Hw.Logged.queueCode (f : Nat) (x : SQ) : k.queueCode f x = h.queueCode f x := by
  unfold Hw.queueCode Hw.winLo Hw.winHi; rw [a.bind]
theorem Hw.Logged.accepts (f : Nat) : k.accepts f = h.accepts f := by
  have ready : k.ready f = h.ready f := by
    unfold Hw.ready Hw.exists_
    rw [a.bind, a.partOf, a.part, a.rest]
  unfold Hw.accepts
  rw [ready, a.wake]
theorem Hw.Logged.wq : k.wq = h.wq := by rw [a.rest]
end

/-! ## Errors of a queue -/

/-- A function after an entry of kind QERR, HOSTUR or FABDROP: written, buffered, or lost. -/
def Fn.noted (x : Fn) (j : JEnt) : Fn :=
  if x.jbuf.isEmpty && x.jFree then x.jPut j
  else if x.jbuf.length < 16 then { x with jbuf := x.jbuf ++ [j] }
  else { x with jlost := min (x.jlost + 1) 0xFFFFFFFF }

theorem Fn.noted_eq (x : Fn) (j : JEnt) : x.noted j = { x with
    journal := (x.noted j).journal, jnext := (x.noted j).jnext, jbuf := (x.noted j).jbuf, jlost := (x.noted j).jlost } := by
  unfold Fn.noted
  split
  · rfl
  · split <;> rfl

theorem Hw.jNote_eq (h : Hw) (e : Env) (f kind src status tag : Nat) : h.jNote e f kind src status tag =
    (h.setFn f ((h.fn f).noted ⟨0, kind, 3, src, status, 0, false, tag, 0, e.clk.tick⟩)).jPause f := rfl

theorem Hw.Logged.jNote (h : Hw) (e : Env) (f kind src status tag : Nat) : h.Logged (h.jNote e f kind src status tag) := by
  rw [Hw.jNote_eq]
  refine (Hw.Logged.setFn h f ?_).trans (.of_signals (.jPause _ f))
  rw [Fn.noted_eq]
theorem Hw.sq_jNote (h : Hw) (e : Env) (f kind src status tag g r : Nat) : (h.jNote e f kind src status tag).sq g r = h.sq g r := by
  rw [Hw.jNote_eq, (Hw.Signals.jPause _ f).sq]
  refine Hw.sq_of_queues ?_ r
  by_cases at_ : g = f
  · rw [at_, Hw.fn_setFn_same, Fn.noted_eq]
  · rw [Hw.fn_setFn_other _ _ at_]

section
variable (h : Hw) (e : Env) (f q code : Nat)

theorem Hw.queueError_of_err (err : (h.sq f q).err = true) : h.queueError e f q code = h := by
  unfold Hw.queueError; rw [if_pos err]

theorem Hw.queueError_of_ok (ok : (h.sq f q).err = false) : h.queueError e f q code =
    ((h.onSq f q fun x => { x with err := true, code := code }).jNote e f 2 q code 0).raiseInt f iQERR 0 := by
  unfold Hw.queueError; rw [ok]; rfl

theorem Hw.Logged.queueError : h.Logged (h.queueError e f q code) := by
  unfold Hw.queueError
  split
  · exact .refl h
  · exact ((Hw.Logged.onSq h f q _).trans (.jNote _ e f 2 q code 0)).trans (.of_signals (.raiseInt _ f iQERR 0))

/-- A queue that was not in error enters it; no other queue changes. -/
theorem Hw.sq_queueError (ok : (h.sq f q).err = false) (g r : Nat) : (h.queueError e f q code).sq g r =
    if (g, r) = (f, q) then { h.sq f q with err := true, code := code } else h.sq g r := by
  rw [Hw.queueError_of_ok h e f q code ok, (Hw.Signals.raiseInt _ f iQERR 0).sq, Hw.sq_jNote, Hw.sq_onSq]

theorem Hw.intstat_queueError (ok : (h.sq f q).err = false) : ((h.queueError e f q code).fn f).intstat.getLsbD 1 = true := by
  rw [Hw.queueError_of_ok h e f q code ok]
  exact Hw.intstat_raiseInt _ f 0 (by decide)
end

/-! ## Fetches -/

theorem Hw.agendaOnly_planFetch (h : Hw) (f q : Nat) : h.agendaOnly (h.planFetch f q) := by
  unfold Hw.planFetch
  split
  · exact h.agendaOnly_planOnce _ _
  · exact h.agendaOnly_refl

/-! ## Validation -/

section
variable {s : State} {f q : Nat} {x : SQ}

theorem Hw.Logged.validate (h : Hw) (e : Env) (f q : Nat) : h.Logged (h.validate e f q) := by
  unfold Hw.validate
  dsimp only
  split
  · exact .refl h
  · split
    · exact .queueError h e f q _
    · exact .of_signals (.of_agenda (h.agendaOnly_planFetch f q))

/-- A queue that has become `x` is validated. -/
theorem validated_validate (hs : s.Inv) : Validated s (s.after ((s.hw.onSq f q fun _ => x).validate (env s) f q)) f q x x := by
  have logged := Hw.Logged.onSq s.hw f q fun _ => x
  have queue : (s.hw.onSq f q fun _ => x).sq f q = x := by rw [Hw.sq_onSq, if_pos rfl]
  have others (g r : Nat) (other : (g, r) ≠ (f, q)) : (s.hw.onSq f q fun _ => x).sq g r = s.hw.sq g r := by
    rw [Hw.sq_onSq, if_neg other]
  generalize s.hw.onSq f q (fun _ => x) = h at logged queue others
  have still : (s.after (h.validate (env s) f q)).mem = s.mem :=
    State.mem_after (((logged.trans (.validate h (env s) f q)).wq).trans hs.2)
  by_cases err : x.err = true
  · have stays : h.validate (env s) f q = h := by unfold Hw.validate; rw [queue, if_pos err]
    rw [stays] at still ⊢
    exact ⟨others, ⟨still, rfl⟩, fun _ => queue, fun ok => by simp [err] at ok, fun ok => by simp [err] at ok,
      fun ok => by simp [err] at ok⟩
  · rw [Bool.not_eq_true] at err
    have hq : (h.sq f q).err = false := queue ▸ err
    by_cases bad : s.hw.queueCode f x = 0
    · have fetches : h.validate (env s) f q = h.planFetch f q := by
        unfold Hw.validate
        simp [queue, err, logged.queueCode, bad]
      have sq (g r : Nat) : (h.planFetch f q).sq g r = h.sq g r := (Hw.Signals.of_agenda (h.agendaOnly_planFetch f q)).sq g r
      rw [fetches] at still ⊢
      refine ⟨fun g r other => (sq g r).trans (others g r other), ⟨still, rfl⟩, fun is => by simp [err] at is,
        fun _ is => absurd bad is, fun _ _ _ => (sq f q).trans queue, fun _ _ _ => ⟨(sq f q).trans queue, fun en entries accepts => ?_⟩⟩
      have may : h.fetches f q = true := by
        unfold Hw.fetches
        simp [queue, en, err, entries, logged.accepts, accepts]
      show Move.event _ _ ∈ (h.planFetch f q).agenda
      unfold Hw.planFetch
      rw [if_pos may]
      exact h.mem_planOnce _ _
    · have errs : h.validate (env s) f q = h.queueError (env s) f q (s.hw.queueCode f x) := by
        unfold Hw.validate
        simp [queue, err, logged.queueCode, bad]
      rw [errs] at still ⊢
      refine ⟨fun g r other => ?_, ⟨still, rfl⟩, fun is => by simp [err] at is, fun _ _ => ⟨?_, ?_⟩, fun _ is => absurd is bad,
        fun _ is => absurd is bad⟩
      · rw [State.after_sq, Hw.sq_queueError h _ f q _ hq, if_neg other]
        exact others g r other
      · rw [State.after_sq, Hw.sq_queueError h _ f q _ hq, if_pos rfl, queue]
      · exact Hw.intstat_queueError h _ f q _ hq

/-- A doorbell that a function which is not active takes is held (R81). -/
theorem validated_held {h : Hw} (hs : s.Inv) (logged : s.hw.Logged h) (v : Validated s (s.after h) f q x x) :
    Validated s (s.after (if (h.fn f).wake.state = .active ∨ (h.sq f q).err = true then h
      else h.onSq f q fun x => { x with held := true })) f q x { x with held := true } := by
  obtain ⟨others, still, inErr, errs, held, goes⟩ := v
  by_cases taken : (h.fn f).wake.state = .active ∨ (h.sq f q).err = true
  · rw [if_pos taken]
    refine ⟨others, still, inErr, errs, fun ok good asleep => ?_, goes⟩
    rw [logged.wake] at taken
    rcases taken with active | err
    · exact absurd active asleep
    · rw [show h.sq f q = x from held ok good asleep, ok] at err
      contradiction
  · rw [if_neg taken]
    rw [not_or, logged.wake] at taken
    obtain ⟨asleep, noErr⟩ := taken
    refine ⟨fun g r other => ?_, ⟨State.mem_after (logged.wq.trans hs.2), rfl⟩, fun err => ?_, fun ok bad => ?_,
      fun ok good _ => ?_, fun _ _ active => absurd active asleep⟩
    · rw [State.after_sq, Hw.sq_onSq, if_neg other]
      exact others g r other
    · rw [show h.sq f q = x from inErr err] at noErr
      exact absurd err noErr
    · rw [show h.sq f q = _ from (errs ok bad).1] at noErr
      exact absurd rfl noErr
    · rw [State.after_sq, Hw.sq_onSq, if_pos rfl, show h.sq f q = x from held ok good asleep]
end

end Sys2Proof.Machine
end

section
/-! # Aborts and resets

SQ_RESET, FCTL_ABORT and FUNCTION_LEVEL_RESET end commands one after another (R45, R59, Table 2.2). -/
namespace Sys2Proof.Machine

open Sys2Proof.Terms

theorem Tab.mem_of_find? {α : Type} {t : Tab α} {k : Nat} {v : α} (h : Tab.find? t k = some v) : (k, v) ∈ t := by
  induction t with
  | nil => simp at h
  | cons e t ih =>
    obtain ⟨j, x⟩ := e
    by_cases hj : j = k
    · subst hj
      simp only [Tab.find?, if_true, Option.some.injEq] at h
      subst h
      exact List.mem_cons_self
    · simp only [Tab.find?, hj, if_false] at h
      exact List.mem_cons_of_mem _ (ih h)

/-! ## Commands that end one after another -/

/-- Commands of a function end, in the order of a list. -/
def Hw.endAll (h : Hw) (e : Env) (f status : Nat) (l : List Nat) : Hw := l.foldl (fun h seq => h.endCommand e f seq status 0) h

section
variable (h : Hw) (e : Env) (f status : Nat)

theorem Hw.endAll_cons (n : Nat) (l : List Nat) : h.endAll e f status (n :: l) = (h.endCommand e f n status 0).endAll e f status l := rfl

theorem Hw.Ends.endAll (l : List Nat) : h.Ends (h.endAll e f status l) :=
  List.foldlRecOn (motive := h.Ends) l _ (.refl h) fun k hk n _ => hk.trans (.endCommand k e f n status 0 false)

/-- They are gone, and no other. -/
theorem Hw.cmds_endAll (l : List Nat) (g n : Nat) : Tab.find? ((h.endAll e f status l).fn g).cmds n =
    if g = f ∧ n ∈ l then none else Tab.find? (h.fn g).cmds n := by
  induction l generalizing h with
  | nil => simp [Hw.endAll]
  | cons m l ih =>
    rw [Hw.endAll_cons, ih, Hw.cmds_endCommand]
    by_cases fn : g = f <;> by_cases head : n = m <;> simp [fn, head]

theorem Hw.abortPending_eq (p : QCmd → Bool) : h.abortPending e f p =
    h.endAll e f 6 (((h.fn f).cmds.filter fun (c : Nat × QCmd) => !c.2.disp && p c.2).map (·.1)) := by
  unfold Hw.abortPending Hw.endAll
  rw [List.foldl_map]
  rfl

theorem Hw.Ends.abortPending (p : QCmd → Bool) : h.Ends (h.abortPending e f p) := by
  rw [Hw.abortPending_eq]
  exact .endAll h e f 6 _

variable {h f} {n : Nat} {j : JEnt}

/-- Another command's entry is left as it is, and no entry comes to wait. -/
theorem Hw.entry_endCommand_other (empty : (h.fn f).jbuf = []) (entry : Tab.find? (h.fn f).journal (n % 8192) = some j)
    (seq : j.seq = n) {m : Nat} (other : m ≠ n ∨ Tab.find? (h.fn f).cmds m = none) :
    ((h.endCommand e f m status 0).fn f).jbuf = [] ∧
      Tab.find? ((h.endCommand e f m status 0).fn f).journal (n % 8192) = some j := by
  cases hc : Tab.find? (h.fn f).cmds m with
  | none =>
    rw [Hw.endCommand_of_none h e f m status 0 false hc]
    exact ⟨empty, entry⟩
  | some c =>
    rw [Hw.fn_endCommand h e f m status 0 false hc, if_pos rfl]
    refine ⟨(Fn.closed_of_empty _ _ _ _ _ empty).1, ?_⟩
    refine Fn.find?_jSet_other (x := { h.fn f with cmds := Tab.del (h.fn f).cmds m }) empty entry seq ?_ _ _ _ _ _
    rcases other with other | none
    · exact other
    · rw [hc] at none; contradiction

/-- The entry of a command that is gone stays as it is. -/
theorem Hw.entry_endAll_of_gone (l : List Nat) (empty : (h.fn f).jbuf = [])
    (entry : Tab.find? (h.fn f).journal (n % 8192) = some j) (seq : j.seq = n) (gone : Tab.find? (h.fn f).cmds n = none) :
    Tab.find? ((h.endAll e f status l).fn f).journal (n % 8192) = some j := by
  induction l generalizing h with
  | nil => exact entry
  | cons m l ih =>
    have other : m ≠ n ∨ Tab.find? (h.fn f).cmds m = none := by
      by_cases head : m = n
      · subst head; exact .inr gone
      · exact .inl head
    obtain ⟨empty', entry'⟩ := Hw.entry_endCommand_other e status empty entry seq other
    rw [Hw.endAll_cons]
    refine ih empty' entry' ?_
    rw [Hw.cmds_endCommand, gone, ite_self]

/-- The open entry of a command that ends becomes terminal. -/
theorem Hw.entry_endAll {l : List Nat} (listed : n ∈ l) (a : (h.fn f).Open n j) {c : QCmd}
    (hc : Tab.find? (h.fn f).cmds n = some c) : Tab.find? ((h.endAll e f status l).fn f).journal (n % 8192) = some { j with
      state := endState status false, status := status, cause := if status = 5 then 0 else 0, tstamp := e.clk.tick } := by
  induction l generalizing h with
  | nil => simp at listed
  | cons m l ih =>
    rw [Hw.endAll_cons]
    by_cases head : m = n
    · subst head
      have fn := Hw.fn_endCommand h e f m status 0 false hc f
      rw [if_pos rfl] at fn
      refine Hw.entry_endAll_of_gone e status l ?_ ?_ a.seq ?_
      · rw [fn]; exact (Fn.closed_of_empty _ _ _ _ _ a.empty).1
      · rw [fn]; exact a.closed status 0 false _
      · rw [Hw.cmds_endCommand, if_pos ⟨rfl, rfl⟩]
    · obtain ⟨empty', entry'⟩ := Hw.entry_endCommand_other e status a.empty a.entry a.seq (.inl head)
      refine ih ((List.mem_cons.mp listed).resolve_left (Ne.symm head)) ⟨empty', entry', a.seq, a.open_⟩ ?_
      rw [Hw.cmds_endCommand, if_neg fun at_ => head at_.2.symm, hc]
end

/-- What of the commands is left after an abort. -/
theorem Hw.cmds_abortPending {h : Hw} {f : Nat} (e : Env) (hr : Tab.rising (h.fn f).cmds = true) (p : QCmd → Bool) (n : Nat)
    (c : QCmd) : Tab.find? ((h.abortPending e f p).fn f).cmds n = some c ↔
      (Tab.find? (h.fn f).cmds n = some c ∧ ¬(c.disp = false ∧ p c = true)) := by
  have listed : n ∈ ((h.fn f).cmds.filter fun (c : Nat × QCmd) => !c.2.disp && p c.2).map (·.1) ↔
      ∃ d, Tab.find? (h.fn f).cmds n = some d ∧ d.disp = false ∧ p d = true := by
    simp [Tab.mem_iff_find? hr]
  rw [Hw.abortPending_eq, Hw.cmds_endAll]
  simp only [true_and, listed]
  constructor
  · intro found
    split at found
    · contradiction
    · next kept => exact ⟨found, fun ends => kept ⟨c, found, ends⟩⟩
  · rintro ⟨found, stays⟩
    rw [if_neg, found]
    rintro ⟨d, hd, ends⟩
    rw [found] at hd
    obtain rfl := Option.some.inj hd
    exact stays ends

/-! ## The steps -/

theorem Hw.sq_resetQueue (h : Hw) (e : Env) (f q g r : Nat) : (h.resetQueue e f q).sq g r =
    if (g, r) = (f, q) then { h.sq f q with en := false, err := false, code := 0, rd := 0, wr := 0 } else h.sq g r := by
  unfold Hw.resetQueue
  rw [(Hw.Ends.abortPending _ e f _).sq, Hw.sq_onSq]

theorem Hw.cmds_resetQueue {h : Hw} {f : Nat} (e : Env) (q : Nat) (hr : Tab.rising (h.fn f).cmds = true) (n : Nat) (c : QCmd) :
    Tab.find? ((h.resetQueue e f q).fn f).cmds n = some c ↔ (Tab.find? (h.fn f).cmds n = some c ∧ ¬(c.disp = false ∧ c.queue = q)) := by
  have cmds : ((h.onSq f q fun x => { x with en := false, err := false, code := 0, rd := 0, wr := 0 }).fn f).cmds = (h.fn f).cmds := by
    rw [Hw.fn_onSq]
  unfold Hw.resetQueue
  rw [Hw.cmds_abortPending e (by rw [cmds]; exact hr), cmds]
  simp

section
variable {s : State} {f q : Nat}

/-- SQCTL.RESET: the queue is cleared, and its commands that are not dispatched end. -/
theorem sqReset_clears (hf : f = s.hw.occ.unit) (hq : q = s.hw.occ.id % 16) (hr : Tab.rising (s.hw.fn f).cmds = true) :
    ∃ t, exec .sqReset s = .next t ∧ t.clk = s.clk ∧ OtherQueues s t f q ∧
      t.hw.sq f q = { s.hw.sq f q with en := false, err := false, code := 0, rd := 0, wr := 0 } ∧
      ∀ n c, Tab.find? (t.hw.fn f).cmds n = some c ↔ (Tab.find? (s.hw.fn f).cmds n = some c ∧ ¬(c.disp = false ∧ c.queue = q)) := by
  refine ⟨s.after (s.hw.resetQueue (env s) f q), ?_, rfl, fun g r other => ?_, ?_, fun n c => ?_⟩
  · subst hf hq
    exact (show _ = execSqReset s from rfl).trans (event_eq_after rfl)
  · rw [State.after_sq, Hw.sq_resetQueue, if_neg other]
  · rw [State.after_sq, Hw.sq_resetQueue, if_pos rfl]
  · exact Hw.cmds_resetQueue (env s) q hr n c

/-- FCTL.ABORT: every command that is not dispatched ends with ABORTED. -/
theorem fctlAbort_ends (hf : f = s.hw.occ.unit) (hr : Tab.rising (s.hw.fn f).cmds = true) :
    ∃ t, exec .fctlAbort s = .next t ∧ t.clk = s.clk ∧ WarpsCalm s t ∧
      (∀ n c, Tab.find? (t.hw.fn f).cmds n = some c ↔ (Tab.find? (s.hw.fn f).cmds n = some c ∧ c.disp = true)) ∧
      ∀ n c j, Tab.find? (s.hw.fn f).cmds n = some c → c.disp = false → (s.hw.fn f).jbuf = [] →
        Tab.find? (s.hw.fn f).journal (n % 8192) = some j → j.seq = n → j.terminal = false →
        Tab.find? (t.hw.fn f).journal (n % 8192) = some { j with state := 4, status := 6, cause := 0, tstamp := s.clk.tick } := by
  subst hf
  refine ⟨_, (show _ = execFctlAbort s from rfl).trans (event_eq_after rfl), rfl, ?_, fun n c => ?_,
    fun n c j hc undispatched empty entry seq open_ => ?_⟩
  · exact warpsCalm_after (Hw.Ends.abortPending s.hw (env s) _ _).calm
  · rw [State.after_fn, Hw.cmds_abortPending _ hr]
    simp
  · rw [State.after_fn, Hw.abortPending_eq]
    refine Hw.entry_endAll _ 6 ?_ ⟨empty, entry, seq, open_⟩ hc
    exact List.mem_map.mpr ⟨(n, c), List.mem_filter.mpr ⟨Tab.mem_of_find? hc, by simp [undispatched]⟩, rfl⟩

/-! ## Function-level reset -/

/-- The commands of a function have ended, and the partition's handler has lost their entries. -/
def Hw.flrEnded (h : Hw) (e : Env) (f : Nat) : Hw :=
  let k := h.endAll e f 6 ((h.fn f).cmds.map (·.1))
  let gone := (k.part (h.partOf f)).tasks.filter fun x => x.fn == f
  k.onPart (h.partOf f) fun q =>
    { q with tasks := q.tasks.filter fun x => x.fn != f, slots := q.slots.filter fun k => !(gone.any fun x => x.slot == k) }
/-- A function after its reset: its wake counts are 0, entries that waited are written, and then the reset's own. -/
def Fn.flr (x : Fn) (tick : Nat) : Fn :=
  (Fn.jDrain 17 { x with wake := { x.wake with count := 0, paid := 0 } }).jPut ⟨0, 5, 3, 18, 0, 0, false, 0, 0, tick⟩

theorem Hw.flr_eq (h : Hw) (e : Env) (f : Nat) : h.flr e f = ((h.flrEnded e f).onFn f fun x => x.flr e.clk.tick).jPause f := by
  unfold Hw.flr Hw.flrEnded Fn.flr
  dsimp only
  rw [Hw.onFn_onFn]
  rfl

theorem Fn.flr_eq (x : Fn) (tick : Nat) : x.flr tick =
    { x with wake := { x.wake with count := 0, paid := 0 }, journal := (x.flr tick).journal, jnext := (x.flr tick).jnext, jbuf := (x.flr tick).jbuf } := by
  unfold Fn.flr
  rw [Fn.jPut_eq, Fn.jDrain_eq]

theorem Fn.find?_flr (x : Fn) (tick : Nat) : Tab.find? (x.flr tick).journal (((x.flr tick).jnext - 1) % 8192) =
    some ⟨(x.flr tick).jnext - 1, 5, 3, 18, 0, 0, false, 0, 0, tick⟩ := Fn.find?_jPut _ _

section
variable (h : Hw) (e : Env) (f : Nat)

theorem Hw.fn_flrEnded (g : Nat) : (h.flrEnded e f).fn g = (h.endAll e f 6 ((h.fn f).cmds.map (·.1))).fn g := rfl
theorem Hw.fn_flr : (h.flr e f).fn f = { ((h.flrEnded e f).fn f).flr e.clk.tick with
    intstat := ((h.flr e f).fn f).intstat, jfull := ((h.flr e f).fn f).jfull } := by
  rw [Hw.flr_eq, (Hw.Signals.jPause _ _).fns, Hw.fn_onFn_same]
theorem Hw.fn_moved (g : Nat) : h.moved.fn g = h.fn g := rfl
theorem Hw.warpsCalm_flr : h.warpsCalm (h.flr e f) := by
  refine Hw.warpsCalm_trans (Hw.Ends.endAll h e f 6 ((h.fn f).cmds.map (·.1))).calm (Hw.warpsCalm_of_warps ?_)
  rw [Hw.flr_eq, (Hw.Signals.jPause _ _).rest]
  rfl

theorem Hw.cmds_flr (n : Nat) : Tab.find? ((h.flr e f).fn f).cmds n = none := by
  rw [Hw.fn_flr, Fn.flr_eq, Hw.fn_flrEnded]
  refine (Hw.cmds_endAll h e f 6 _ f n).trans ?_
  split
  · rfl
  · next unlisted =>
    refine Option.eq_none_iff_forall_not_mem.mpr fun c hc => unlisted ⟨rfl, ?_⟩
    exact List.mem_map.mpr ⟨(n, c), Tab.mem_of_find? hc, rfl⟩
theorem Hw.wake_flr : ((h.flr e f).fn f).wake = { (h.fn f).wake with count := 0, paid := 0 } := by
  rw [Hw.fn_flr, Fn.flr_eq, Hw.fn_flrEnded, (Hw.Ends.endAll h e f 6 _).fns]
theorem Hw.entry_flr : Tab.find? ((h.flr e f).fn f).journal ((((h.flr e f).fn f).jnext - 1) % 8192) =
    some ⟨((h.flr e f).fn f).jnext - 1, 5, 3, 18, 0, 0, false, 0, 0, e.clk.tick⟩ := by
  rw [Hw.fn_flr]
  exact Fn.find?_flr _ _
end

theorem functionLevelReset_ends (hf : f = s.hw.occ.unit) :
    ∃ t, exec .functionLevelReset s = .next t ∧ t.clk = s.clk ∧ WarpsCalm s t ∧
      (∀ n, Tab.find? (t.hw.fn f).cmds n = none) ∧ (t.hw.fn f).wake = { (s.hw.fn f).wake with count := 0, paid := 0 } ∧
      let n := (t.hw.fn f).jnext - 1
      Tab.find? (t.hw.fn f).journal (n % 8192) = some ⟨n, 5, 3, 18, 0, 0, false, 0, 0, s.clk.tick⟩ := by
  refine ⟨s.after (s.hw.flr (env s) f).moved, ?_, rfl,
    warpsCalm_after (Hw.warpsCalm_trans (Hw.warpsCalm_flr s.hw (env s) f) (Hw.Ends.moved _).calm), ?_⟩
  · subst hf
    exact (show _ = execFunctionLevelReset s from rfl).trans (event_eq_after rfl)
  · rw [State.after_fn, Hw.fn_moved]
    exact ⟨Hw.cmds_flr s.hw (env s) f, Hw.wake_flr s.hw (env s) f, Hw.entry_flr s.hw (env s) f⟩
end

end Sys2Proof.Machine
end

section
/-! # What checks read

The checks of acceptance and dispatch (R47, R49, R50, R100 to R103, R107) read nothing that the journal, acceptance or dispatch
itself changes of a function. -/
namespace Sys2Proof.Machine

open Sys2Proof.Terms

section
variable {h k : Hw} (a : h.Logged k)
include a

/-! ## Memory and translation -/

theorem Hw.Logged.byte (e : Env) (x : Nat) : k.byte e x = h.byte e x := Hw.byte_of_wq e a.wq x
theorem Hw.Logged.bytes (e : Env) (x n : Nat) : k.bytes e x n = h.bytes e x n := by
  unfold Hw.bytes; simp only [a.byte]
theorem Hw.Logged.read (e : Env) (x n : Nat) : k.read e x n = h.read e x n := by
  unfold Hw.read; rw [a.bytes]
theorem Hw.Logged.ctxPart (c : Nat) : k.ctxPart c = h.ctxPart c := by
  unfold Hw.ctxPart; simp only [a.partOf]
theorem Hw.Logged.cached (c x v : Nat) : k.cached c x v = h.cached c x v := by rw [a.rest]; rfl
theorem Hw.Logged.root (c : Nat) : k.root c = h.root c := by rw [a.rest]; rfl
theorem Hw.Logged.leafFor (e : Env) (c x v : Nat) : k.leafFor e c x v = h.leafFor e c x v := by
  unfold Hw.leafFor
  simp only [a.cached, a.root, a.read, a.part, a.ctxPart]
theorem Hw.Logged.translate (e : Env) (c x : Nat) (n : Need) (v : DWord) : k.translate e c x n v = h.translate e c x n v := by
  unfold Hw.translate
  simp only [a.leafFor]

/-! ## Addresses of a function (R49) -/

theorem Hw.Logged.devAt (e : Env) (f : Nat) (cmd write : Bool) (v : DWord) (n : Nat) :
    k.devAt e f cmd write v n = h.devAt e f cmd write v n := by
  unfold Hw.devAt
  simp only [a.translate, a.inWindow]
theorem Hw.Logged.devRange (e : Env) (f : Nat) (cmd write : Bool) (v : DWord) (n : Nat) :
    k.devRange e f cmd write v n = h.devRange e f cmd write v n := by
  unfold Hw.devRange
  simp only [a.devAt]
theorem Hw.Logged.devRead (e : Env) (f : Nat) (cmd : Bool) (v : DWord) (n : Nat) : k.devRead e f cmd v n = h.devRead e f cmd v n := by
  unfold Hw.devRead
  simp only [a.devRange, a.bytes]
theorem Hw.Logged.copyPage (e : Env) (f : Nat) (write : Bool) (v : DWord) (n : Nat) :
    k.copyPage e f write v n = h.copyPage e f write v n := by
  unfold Hw.copyPage
  simp only [a.leafFor, a.inWindow]
theorem Hw.Logged.rangeOk (e : Env) (f opc : Nat) (write : Bool) (v : DWord) (n : Nat) :
    k.rangeOk e f opc write v n = h.rangeOk e f opc write v n := by
  unfold Hw.rangeOk
  simp only [a.copyPage, a.devRange]
theorem Hw.Logged.addressesOk (e : Env) (f : Nat) (c : QCmd) : k.addressesOk e f c = h.addressesOk e f c := by
  unfold Hw.addressesOk
  simp only [a.rangeOk, a.devRange]

/-! ## Acceptance (R47, R50, R52, R107) -/

theorem Hw.Logged.withRecords (e : Env) (f : Nat) (c : QCmd) : k.withRecords e f c = h.withRecords e f c := by
  unfold Hw.withRecords
  simp only [a.devRead]
theorem Hw.Logged.recordBad (f : Nat) : k.recordBad f = h.recordBad f := by
  funext bs
  unfold Hw.recordBad
  simp only [a.inWindow]
theorem Hw.Logged.caddrBad (f : Nat) (c : QCmd) : k.caddrBad f c = h.caddrBad f c := by
  unfold Hw.caddrBad
  simp only [a.inWindow]
theorem Hw.Logged.shapeStatus (f : Nat) (c : QCmd) : k.shapeStatus f c = h.shapeStatus f c := by
  unfold Hw.shapeStatus
  simp only [a.partFor]
theorem Hw.Logged.acceptStatus (e : Env) (f : Nat) (c : QCmd) : k.acceptStatus e f c = h.acceptStatus e f c := by
  unfold Hw.acceptStatus
  simp only [a.caddrBad, a.recordBad, a.addressesOk, a.shapeStatus]

/-! ## Lookup (R97 to R103) -/

theorem Hw.Logged.tag (x : Nat) : k.tag x = h.tag x := by rw [a.rest]; rfl
theorem Hw.Logged.tableOk (p : Part) (b n : Nat) : k.tableOk p b n = h.tableOk p b n := by rw [a.rest]; rfl
theorem Hw.Logged.operandRec (e : Env) (f : Nat) (cmd : Bool) (bs : List Byte) : k.operandRec e f cmd bs = h.operandRec e f cmd bs := by
  unfold Hw.operandRec
  simp only [a.devAt, a.tag]
theorem Hw.Logged.operand (e : Env) (f : Nat) (cmd : Bool) : k.operand e f cmd = h.operand e f cmd := by
  funext d
  unfold Hw.operand
  simp only [a.devRead, a.operandRec]
theorem Hw.Logged.method (e : Env) (p : Part) : k.method e p = h.method e p := by
  funext i
  unfold Hw.method
  rw [a.bytes]
theorem Hw.Logged.conv (e : Env) (p : Part) : k.conv e p = h.conv e p := by
  funext i
  unfold Hw.conv
  rw [a.bytes]
theorem Hw.Logged.tilesWritable (e : Env) (f : Nat) (cmd : Bool) : k.tilesWritable e f cmd = h.tilesWritable e f cmd := by
  funext r
  unfold Hw.tilesWritable
  simp only [a.devAt]
theorem Hw.Logged.lookup (e : Env) (f : Nat) (cmd bad : Bool) (op : Nat) (ds : List DWord) :
    k.lookup e f cmd bad op ds = h.lookup e f cmd bad op ds := by
  unfold Hw.lookup
  simp only [a.part, a.partOf, a.tableOk, a.operand, a.method, a.conv, a.tilesWritable]

/-! ## What holds a copy or a word (R15, R19, R189) -/

theorem Hw.Logged.waitsOnWay (c d : Nat) (l : Leaf) (pa : Nat) : k.waitsOnWay c d l pa = h.waitsOnWay c d l pa := by
  have slice : k.sliceOf c l pa = h.sliceOf c l pa := by
    have die : k.homeDieOf l pa = h.homeDieOf l pa := by rw [a.rest]; rfl
    unfold Hw.sliceOf
    rw [a.part, a.ctxPart, die]
  have carries (x y : Nat) : k.carries x y = h.carries x y := by rw [a.rest]; rfl
  have asleep (x : Nat) : k.asleep x = h.asleep x := by rw [a.rest]; rfl
  have l2 : k.l2 = h.l2 := by rw [a.rest]
  unfold Hw.waitsOnWay
  simp only [slice, carries, asleep, l2]
theorem Hw.Logged.wordPlace (e : Env) (f : Nat) (c : QCmd) (write : Bool) : k.wordPlace e f c write = h.wordPlace e f c write := by
  have owners : k.owners = h.owners := by rw [a.rest]
  unfold Hw.wordPlace
  simp only [a.devAt, a.waitsOnWay, owners]
end

end Sys2Proof.Machine
end

section
/-! # Fetches and attestation

COMMAND_FETCH, FETCH_TIMEOUT, ATTEST_REQUEST and ATTEST_DONE (R46, R47, R57, R59, R64), and the statement about queues. -/
namespace Sys2Proof.Machine

open Sys2Proof.Terms

/-! ## Acceptance -/

/-- A command that has been read stands in its function, with an open entry at the next index. -/
def Hw.entered (h : Hw) (e : Env) (f q : Nat) (c : QCmd) : Hw :=
  let x := (h.fn f).jPut ⟨0, 1, 1, q, 0, 0, false, c.ctag, c.opc, e.clk.tick⟩
  h.setFn f { x with cmds := Tab.put x.cmds (h.fn f).jnext c }
/-- The command of 64 bytes that a queue has fetched, before its records are read. -/
def fetchedCmd (q : Nat) (bytes : List Byte) : QCmd :=
  { queue := q, bytes := bytes, disp := false, waitAt := none, nomSlot := none, left := 0, cause := 0, recs := [], list := [] }

section
variable {h : Hw} {e : Env} {f q : Nat} {bytes : List Byte} {c : QCmd}

theorem Hw.fn_entered : (h.entered e f q c).fn f =
    { (h.fn f).jPut ⟨0, 1, 1, q, 0, 0, false, c.ctag, c.opc, e.clk.tick⟩ with cmds := Tab.put (h.fn f).cmds (h.fn f).jnext c } :=
  Hw.fn_setFn_same _ _ _
theorem Hw.Logged.entered (h : Hw) (e : Env) (f q : Nat) (c : QCmd) : h.Logged (h.entered e f q c) := .setFn h f rfl
theorem Hw.sq_entered (g r : Nat) : (h.entered e f q c).sq g r = h.sq g r := by
  refine Hw.sq_of_queues ?_ r
  by_cases at_ : g = f
  · rw [at_, Hw.fn_entered]; rfl
  · exact congrArg Fn.queues (Hw.fn_setFn_other h _ at_)
theorem Hw.cmd_entered : Tab.find? ((h.entered e f q c).fn f).cmds (h.fn f).jnext = some c := by
  rw [Hw.fn_entered]
  exact Tab.find?_put_same _ _ _
/-- Its entry. -/
def acceptedEntry (e : Env) (q : Nat) (c : QCmd) (seq : Nat) : JEnt := ⟨seq, 1, 1, q, 0, 0, false, c.ctag, c.opc, e.clk.tick⟩
theorem Hw.open_entered (empty : (h.fn f).jbuf = []) :
    ((h.entered e f q c).fn f).Open (h.fn f).jnext (acceptedEntry e q c (h.fn f).jnext) := by
  rw [Hw.fn_entered]
  exact ⟨empty, Fn.find?_jPut _ _, rfl, rfl⟩

theorem Hw.accept_of_ok (hc : h.withRecords e f (fetchedCmd q bytes) = c) (ok : h.acceptStatus e f c = 0) :
    h.accept e f q bytes =
      (((h.entered e f q c).onSq f q fun y => { y with seq := (h.fn f).jnext }).planDispatch f q).jPause f := by
  subst hc
  exact if_neg (not_not.mpr ok)

theorem Hw.accept_of_bad (hc : h.withRecords e f (fetchedCmd q bytes) = c) (bad : h.acceptStatus e f c ≠ 0) :
    ∃ k, (h.entered e f q c).Signals k ∧
      h.accept e f q bytes = k.endCommand e f (h.fn f).jnext (h.acceptStatus e f c) 0 true := by
  subst hc
  refine ⟨_, ?_, if_pos bad⟩
  split
  · exact .raiseInt _ f iQERR 0
  · exact .refl _
end

/-! ## Fetches -/

section
variable {s : State} {f q : Nat}

/-- The package as a queue has taken its next 64 bytes. -/
def Hw.taken (h : Hw) (f q : Nat) : Hw := (h.jPause f).onSq f q fun y => { y with rd := (y.rd + 1) % 2 ^ y.log2 }

theorem Hw.Logged.taken (h : Hw) (f q : Nat) : h.Logged (h.taken f q) :=
  (Hw.Logged.of_signals (.jPause h f)).trans (.onSq _ f q _)
theorem Hw.fn_taken (h : Hw) (f q g : Nat) : (h.taken f q).fn g = { h.fn g with
    intstat := ((h.taken f q).fn g).intstat, jfull := ((h.taken f q).fn g).jfull, queues := ((h.taken f q).fn g).queues } := by
  unfold Hw.taken
  rw [Hw.fn_onSq, (Hw.Signals.jPause h f).fns]
theorem Hw.sq_taken (h : Hw) (f q g r : Nat) : (h.taken f q).sq g r =
    if (g, r) = (f, q) then { h.sq f q with rd := ((h.sq f q).rd + 1) % 2 ^ (h.sq f q).log2 } else h.sq g r := by
  unfold Hw.taken
  rw [Hw.sq_onSq, (Hw.Signals.jPause h f).sq, (Hw.Signals.jPause h f).sq]

/-- A queue that fetches, where acceptance does not pause and the entry is not poisoned. -/
theorem commandFetch_eq (hs : s.Inv) (hf : f = s.hw.occ.unit) (hq : q = s.hw.occ.id) (fetches : s.hw.fetches f q = true)
    (free : (s.hw.fn f).jFree = true) (empty : (s.hw.fn f).jbuf = [])
    (clean : s.hw.poison.contains (lineOf (hostPa (s.hw.sq f q).base + 64 * (s.hw.sq f q).rd)) = false) :
    commandFetch (env s) s.hw = (((s.hw.taken f q).accept (env s) f q ((List.range 64).map fun k =>
      s.byte (hostPa (s.hw.sq f q).base + 64 * (s.hw.sq f q).rd + k))).planFetch f q).moved := by
  subst hf hq
  have poison (k : Hw) (a : s.hw.Signals k) : k.poison = s.hw.poison := by rw [a.rest]
  have bytes (n : Nat) : (s.hw.taken s.hw.occ.unit s.hw.occ.id).bytes (env s) n 64 = (List.range 64).map fun k => s.byte (n + k) := by
    rw [(Hw.Logged.taken _ _ _).bytes]
    exact List.map_congr_left fun k _ => Hw.byte_of_unwritten hs.2 _
  have paused := Hw.Signals.jPause s.hw s.hw.occ.unit
  unfold commandFetch
  simp only [fetches, Bool.not_true, Bool.false_eq_true, if_false, Hw.jfull_jPause s.hw free empty, paused.sq, poison _ paused, clean]
  rw [← bytes]
  rfl

/-- A queue of the package has taken its next 64 bytes, and they stand as the function's newest command, with an open entry. -/
structure Fetched (s : State) (k : Hw) (f q : Nat) (c : QCmd) : Prop where
  logged : s.hw.Logged k
  sq : ∀ g r, k.sq g r =
    if (g, r) = (f, q) then { s.hw.sq f q with rd := ((s.hw.sq f q).rd + 1) % 2 ^ (s.hw.sq f q).log2 } else s.hw.sq g r
  jnext : (k.fn f).jnext = (s.hw.fn f).jnext + 1
  cmd : Tab.find? (k.fn f).cmds (s.hw.fn f).jnext = some c
  open_ : (k.fn f).Open (s.hw.fn f).jnext (acceptedEntry (env s) q c (s.hw.fn f).jnext)

theorem fetched_entered (empty : (s.hw.fn f).jbuf = []) (c : QCmd) :
    Fetched s ((s.hw.taken f q).entered (env s) f q c) f q c := by
  have jnext : ((s.hw.taken f q).fn f).jnext = (s.hw.fn f).jnext := by rw [Hw.fn_taken]
  have jbuf : ((s.hw.taken f q).fn f).jbuf = [] := by rw [Hw.fn_taken]; exact empty
  refine ⟨(Hw.Logged.taken s.hw f q).trans (.entered _ _ f q c), fun g r => ?_, ?_, ?_, ?_⟩
  · rw [Hw.sq_entered, Hw.sq_taken]
  · rw [Hw.fn_entered]
    exact congrArg (· + 1) jnext
  · rw [← jnext]
    exact Hw.cmd_entered
  · rw [← jnext]
    exact Hw.open_entered jbuf

theorem Fetched.of_signals {h k : Hw} {c : QCmd} (a : Fetched s h f q c) (signals : h.Signals k) : Fetched s k f q c := by
  obtain ⟨logged, sq, jnext, cmd, opened⟩ := a
  refine ⟨logged.trans (.of_signals signals), fun g r => (signals.sq g r).trans (sq g r), ?_, ?_, ?_⟩ <;> rw [signals.fns]
  · exact jnext
  · exact cmd
  · exact ⟨opened.empty, opened.entry, opened.seq, opened.open_⟩

section
variable {c : QCmd} (hs : s.Inv) (hf : f = s.hw.occ.unit) (hq : q = s.hw.occ.id) (fetches : s.hw.fetches f q = true)
  (free : (s.hw.fn f).jFree = true) (empty : (s.hw.fn f).jbuf = [])
  (clean : s.hw.poison.contains (lineOf (hostPa (s.hw.sq f q).base + 64 * (s.hw.sq f q).rd)) = false)
  (hc : c = nextFetch s f q)
include hs hf hq fetches free empty clean hc

theorem commandFetch_of_ok (ok : s.hw.acceptStatus (env s) f c = 0) : commandFetch (env s) s.hw =
    ((((((s.hw.taken f q).entered (env s) f q c).onSq f q fun y => { y with seq := (s.hw.fn f).jnext }).planDispatch f q).jPause
      f).planFetch f q).moved := by
  have taken := Hw.Logged.taken s.hw f q
  have jnext : ((s.hw.taken f q).fn f).jnext = (s.hw.fn f).jnext := by rw [Hw.fn_taken]
  rw [commandFetch_eq hs hf hq fetches free empty clean, Hw.accept_of_ok ((taken.withRecords _ _ _).trans hc.symm)
    ((taken.acceptStatus _ _ _).trans ok), jnext]

theorem commandFetch_of_bad (bad : s.hw.acceptStatus (env s) f c ≠ 0) : ∃ k, Fetched s k f q c ∧ commandFetch (env s) s.hw =
    ((k.endCommand (env s) f (s.hw.fn f).jnext (s.hw.acceptStatus (env s) f c) 0 true).planFetch f q).moved := by
  have taken := Hw.Logged.taken s.hw f q
  have jnext : ((s.hw.taken f q).fn f).jnext = (s.hw.fn f).jnext := by rw [Hw.fn_taken]
  obtain ⟨k, signals, rejected⟩ := Hw.accept_of_bad ((taken.withRecords _ _ _).trans hc.symm) (by rw [taken.acceptStatus]; exact bad)
  rw [jnext, taken.acceptStatus] at rejected
  exact ⟨k, (fetched_entered empty c).of_signals signals,
    by rw [commandFetch_eq hs hf hq fetches free empty clean, rejected]⟩

theorem commandFetch_accepts (ok : s.hw.acceptStatus (env s) f c = 0) :
    ∃ t, exec .commandFetch s = .next t ∧ t.mem = s.mem ∧ t.clk = s.clk ∧ OtherQueues s t f q ∧
      t.hw.sq f q = { s.hw.sq f q with rd := ((s.hw.sq f q).rd + 1) % 2 ^ (s.hw.sq f q).log2, seq := (s.hw.fn f).jnext } ∧
      (t.hw.fn f).jnext = (s.hw.fn f).jnext + 1 ∧ Tab.find? (t.hw.fn f).cmds (s.hw.fn f).jnext = some c ∧
      Tab.find? (t.hw.fn f).journal ((s.hw.fn f).jnext % 8192) =
        some ⟨(s.hw.fn f).jnext, 1, 1, q, 0, 0, false, c.ctag, c.opc, s.clk.tick⟩ := by
  have answer := commandFetch_of_ok hs hf hq fetches free empty clean hc ok
  have fetched := fetched_entered (q := q) empty c
  generalize (s.hw.taken f q).entered (env s) f q c = h at answer fetched
  have logged := fetched.logged.trans (.onSq h f q fun y => { y with seq := (s.hw.fn f).jnext })
  have sq := Hw.sq_onSq h f q
  have fn := Hw.fn_onSq h f q f fun y => { y with seq := (s.hw.fn f).jnext }
  generalize hk : (h.onSq f q fun y => { y with seq := (s.hw.fn f).jnext }) = k at answer logged fn
  have signals : k.Signals (((k.planDispatch f q).jPause f).planFetch f q) :=
    ((Hw.Signals.of_agenda (k.agendaOnly_planDispatch f q)).trans (.jPause _ f)).trans (.of_agenda (Hw.agendaOnly_planFetch _ f q))
  generalize ((k.planDispatch f q).jPause f).planFetch f q = m at answer signals
  refine ⟨s.after m.moved, (show _ = execCommandFetch s from rfl).trans (event_eq_after answer),
    State.mem_after ((signals.wq.trans logged.wq).trans hs.2), rfl, fun g r other => ?_, ?_, ?_⟩
  · exact (signals.sq g r).trans (by rw [← hk, sq, if_neg other, fetched.sq, if_neg other])
  · exact (signals.sq f q).trans (by rw [← hk, sq, if_pos rfl, fetched.sq, if_pos rfl])
  · rw [State.after_fn, Hw.fn_moved, signals.fns, fn]
    exact ⟨fetched.jnext, fetched.cmd, fetched.open_.entry⟩

theorem commandFetch_rejects (bad : s.hw.acceptStatus (env s) f c ≠ 0) :
    ∃ t, exec .commandFetch s = .next t ∧ t.clk = s.clk ∧ OtherQueues s t f q ∧
      (t.hw.sq f q).rd = ((s.hw.sq f q).rd + 1) % 2 ^ (s.hw.sq f q).log2 ∧ (t.hw.fn f).jnext = (s.hw.fn f).jnext + 1 ∧
      Tab.find? (t.hw.fn f).cmds (s.hw.fn f).jnext = none ∧
      Tab.find? (t.hw.fn f).journal ((s.hw.fn f).jnext % 8192) =
        some ⟨(s.hw.fn f).jnext, 1, 5, q, s.hw.acceptStatus (env s) f c, 0, false, c.ctag, c.opc, s.clk.tick⟩ := by
  obtain ⟨k, fetched, answer⟩ := commandFetch_of_bad hs hf hq fetches free empty clean hc bad
  generalize s.hw.acceptStatus (env s) f c = st at answer
  have ends := Hw.Ends.endCommand k (env s) f (s.hw.fn f).jnext st 0 true
  have ended := Hw.fn_endCommand k (env s) f (s.hw.fn f).jnext st 0 true fetched.cmd f
  have gone := Hw.cmds_endCommand k (env s) f (s.hw.fn f).jnext st 0 true f (s.hw.fn f).jnext
  rw [if_pos rfl] at ended
  rw [if_pos ⟨rfl, rfl⟩] at gone
  generalize k.endCommand (env s) f (s.hw.fn f).jnext st 0 true = m at answer ends ended gone
  have planned := Hw.Signals.of_agenda (m.agendaOnly_planFetch f q)
  have sq (g r : Nat) : (s.after (m.planFetch f q).moved).hw.sq g r = k.sq g r := (planned.sq g r).trans (ends.sq g r)
  refine ⟨s.after (m.planFetch f q).moved, (show _ = execCommandFetch s from rfl).trans (event_eq_after answer), rfl,
    fun g r other => ?_, ?_, ?_, ?_, ?_⟩
  · rw [sq, fetched.sq, if_neg other]
  · rw [sq, fetched.sq, if_pos rfl]
  all_goals rw [State.after_fn, Hw.fn_moved, planned.fns]
  · rw [ended]
    exact (Fn.closed_of_empty _ _ _ _ _ fetched.open_.empty).2.trans fetched.jnext
  · exact gone
  · rw [ended]
    refine (fetched.open_.closed st 0 true _).trans ?_
    rw [ite_self]
    rfl
end

/-- FETCH_TIMEOUT: the queue errs. -/
theorem fetchTimeout_errs (hs : s.Inv) (hf : f = s.hw.occ.unit) (hq : q = s.hw.occ.id) (fetches : s.hw.fetches f q = true) :
    ∃ t, exec .fetchTimeout s = .next t ∧ t.mem = s.mem ∧ t.clk = s.clk ∧ OtherQueues s t f q ∧
      t.hw.sq f q = { s.hw.sq f q with err := true, code := 6 } ∧ (t.hw.fn f).intstat.getLsbD 1 = true := by
  have ok : (s.hw.sq f q).err = false := by
    unfold Hw.fetches at fetches
    simp only [Bool.and_eq_true, Bool.not_eq_true'] at fetches
    exact fetches.1.1.2
  refine ⟨s.after (s.hw.queueError (env s) f q 6), ?_, State.mem_after ((Hw.Logged.queueError _ _ _ _ _).wq.trans hs.2), rfl,
    fun g r other => ?_, ?_, Hw.intstat_queueError _ _ _ _ _ ok⟩
  · subst hf hq
    exact (show _ = execFetchTimeout s from rfl).trans (event_eq_after (if_pos fetches))
  · rw [State.after_sq, Hw.sq_queueError _ _ _ _ _ ok, if_neg other]
  · rw [State.after_sq, Hw.sq_queueError _ _ _ _ _ ok, if_pos rfl]
end

end Sys2Proof.Machine
end

section
/-! # The statement about queues

Each clause from its step's lemma; ATTEST_REQUEST and ATTEST_DONE (R62, R64). -/
namespace Sys2Proof.Machine

open Sys2Proof.Terms

/-! ## Attestation -/

theorem length_fixLen (n : Nat) (l : List Byte) : (fixLen n l).length = n := by
  simp only [fixLen, List.length_take, List.length_append, List.length_replicate]
  omega

theorem length_reportBody (h : Hw) (e : Env) (f : Nat) : (reportBody h e f).length = 512 := by
  simp [reportBody, length_fixLen]

/-- A report is written, with the certificates where they are asked for. -/
def Hw.putReport (h : Hw) (e : Env) (f : Nat) : Hw :=
  let a := (h.fn f).attest
  let b := reportBody h e f
  let h := h.deviceWrite (hostPa a.addr) (b ++ fixLen 29792 (Config.slhSign identitySeed b))
  if a.cert = 0#64 then h
  else (h.deviceWrite (hostPa a.cert) deviceCert).deviceWrite (hostPa a.cert + 0x8000) (identityCert (h.boot.idcert.getD 0))

/-- Can the report and its certificates be written (R64)? -/
def Hw.reportOk (h : Hw) (f : Nat) : Bool :=
  let a := (h.fn f).attest
  h.inWindow f a.addr 32768 && (a.cert == 0#64 || h.inWindow f a.cert 65536)

section
variable (h : Hw) (e : Env) (f : Nat)

theorem Hw.Ends.putReport : h.Ends (h.putReport e f) := by
  unfold Hw.putReport
  dsimp only
  split
  · exact .deviceWrite h _ _
  · exact ((Hw.Ends.deviceWrite h _ _).trans (.deviceWrite _ _ _)).trans (.deviceWrite _ _ _)

theorem Hw.byte_putReport (bare : (h.fn f).attest.cert = 0#64) {k : Nat} (hk : k < 512) :
    (h.putReport e f).byte e (hostPa (h.fn f).attest.addr + k) = (reportBody h e f).getD k 0#8 := by
  unfold Hw.putReport
  dsimp only
  have length := length_reportBody h e f
  rw [if_pos bare, Hw.byte_deviceWrite, if_pos ⟨by omega, by rw [List.length_append]; omega⟩, Nat.add_sub_cancel_left,
    List.getD_append _ _ _ _ (by omega)]

theorem attestDone_of_go {h : Hw} {f : Nat} (hf : f = h.occ.unit) (go : (h.fn f).attest.go = true) : attestDone e h =
    ((if h.reportOk f then h.putReport e f else h).onFn f fun x =>
      { x with attest := { x.attest with go := false, stat := if h.reportOk f then 2 else 4 } }).raiseInt f iATTEST 0 := by
  subst hf
  have run : attestDone e h = ((if !h.reportOk h.occ.unit then h else h.putReport e h.occ.unit).onFn h.occ.unit fun x =>
      { x with attest := { x.attest with go := false, stat := if h.reportOk h.occ.unit then 2 else 4 } }).raiseInt h.occ.unit iATTEST 0 :=
    if_neg (by simp [go])
  rw [run]
  cases h.reportOk h.occ.unit <;> rfl
end

section
variable {s : State} {f : Nat}

theorem attestRequest_goes (hs : s.Inv) (hf : f = s.hw.occ.unit) (ready : s.hw.boot.ready = true) :
    ∃ t, exec .attestRequest s = .next t ∧ t.mem = s.mem ∧
    t.clk = s.clk ∧ t.hw = { (s.hw.onFn f fun x => { x with attest := if x.attest.go then { x.attest with stat := 3 }
      else { x.attest with go := true, stat := 1 } }) with agenda := t.hw.agenda } ∧
    Planned t .attestDone { Occasion.none with unit := f } := by
  subst hf
  generalize hk : (s.hw.onFn s.hw.occ.unit fun x => { x with attest := if x.attest.go then { x.attest with stat := 3 }
      else { x.attest with go := true, stat := 1 } }) = k
  have answer : s.hw.attestRequest s.hw.occ.unit = k.planOnce .attestDone { Occasion.none with unit := s.hw.occ.unit } := by
    unfold Hw.attestRequest
    rw [ready, ← hk]
    rfl
  have frame := k.agendaOnly_planOnce .attestDone { Occasion.none with unit := s.hw.occ.unit }
  refine ⟨_, turns_of_event (show _ = execAttestRequest s from rfl) answer ?_, rfl, rfl, frame, k.mem_planOnce _ _⟩
  rw [frame, ← hk]
  exact hs.2

theorem attestDone_ends {a : Attest} {ok : Bool} (hs : s.Inv) (hf : f = s.hw.occ.unit) (ha : a = (s.hw.fn f).attest)
    (go : a.go = true) (hok : ok = (s.hw.inWindow f a.addr 32768 && (a.cert == 0#64 || s.hw.inWindow f a.cert 65536))) :
    ∃ t, exec .attestDone s = .next t ∧ t.clk = s.clk ∧ WarpsCalm s t ∧ (t.hw.fn f).intstat.getLsbD 7 = true ∧
      (t.hw.fn f).attest = { a with go := false, stat := if ok then 2 else 4 } ∧ (ok = false → t.mem = s.mem) ∧
      (ok = true → a.cert = 0#64 → ∀ k, k < 512 → t.byte (hostPa a.addr + k) = (reportBody s.hw (env s) f).getD k 0#8) := by
  obtain rfl : ok = s.hw.reportOk f := by rw [hok, ha]; rfl
  subst ha
  have answer := attestDone_of_go (env s) hf go
  have ends : s.hw.Ends (if s.hw.reportOk f then s.hw.putReport (env s) f else s.hw) := by
    split
    · exact .putReport s.hw (env s) f
    · exact .refl s.hw
  have written (bad : s.hw.reportOk f = false) : (if s.hw.reportOk f then s.hw.putReport (env s) f else s.hw).wq = [] := by
    rw [bad]; exact hs.2
  have report (good : s.hw.reportOk f = true) :
      (if s.hw.reportOk f then s.hw.putReport (env s) f else s.hw) = s.hw.putReport (env s) f := if_pos good
  generalize (if s.hw.reportOk f then s.hw.putReport (env s) f else s.hw) = h at answer ends written report
  generalize hm : (h.onFn f fun x => { x with attest := { x.attest with go := false, stat := if s.hw.reportOk f then 2 else 4 } }) = m
    at answer
  have signals := Hw.Signals.raiseInt m f iATTEST 0
  refine ⟨_, (show _ = execAttestDone s from rfl).trans (event_eq_after answer), rfl, warpsCalm_after ?_,
    Hw.intstat_raiseInt m f 0 (by decide), ?_, fun bad => State.mem_after ?_, fun good bare k hk => ?_⟩
  · refine Hw.warpsCalm_trans ends.calm (Hw.warpsCalm_of_warps ?_)
    rw [signals.rest, ← hm]; rfl
  · rw [State.after_fn, signals.fns, ← hm, Hw.fn_onFn_same, ends.fns]
  · rw [signals.wq, ← hm]
    exact written bad
  · rw [State.byte_after, signals.byte, ← hm]
    show h.byte _ _ = _
    rw [report good]
    exact Hw.byte_putReport s.hw (env s) f bare hk
end

/-! ## Enables and doorbells -/

section
variable {s : State} {f q : Nat}

theorem sqEnable_validates (hs : s.Inv) (hf : f = s.hw.occ.unit) (hq : q = s.hw.occ.id % 16) (off : (s.hw.sq f q).en = false) :
    ∃ t, exec .sqEnable s = .next t ∧ Validated s t f q { s.hw.sq f q with en := true } { s.hw.sq f q with en := true } := by
  refine ⟨_, (show _ = execSqEnable s from rfl).trans (event_eq_after ?_), validated_validate hs⟩
  subst hf hq
  show s.hw.enableQueue _ _ _ = _
  unfold Hw.enableQueue
  rw [if_neg (by simp [off])]
  rfl

theorem turns_sqEnable_on (hs : s.Inv) (hf : f = s.hw.occ.unit) (hq : q = s.hw.occ.id % 16) (on : (s.hw.sq f q).en = true) :
    Turns .sqEnable s s.hw := by
  subst hf hq
  exact turns_of_event (show _ = execSqEnable s from rfl) (if_pos on) hs.2

theorem sqDoorbell_validates {x : SQ} (hs : s.Inv) (hf : f = s.hw.occ.unit) (hq : q = s.hw.occ.id % 16)
    (hx : x = { s.hw.sq f q with wr := s.hw.occ.val.toNat % 65536 }) :
    ∃ t, exec .sqDoorbell s = .next t ∧ (x.en = true → Validated s t f q x { x with held := true }) ∧
      (x.en = false → t.hw.sq f q = x ∧ OtherQueues s t f q ∧ t.hw = { s.hw with fns := t.hw.fns } ∧ t.mem = s.mem) := by
  have rung : s.hw.onSq f q (fun y => { y with wr := s.hw.occ.val.toNat % 65536 }) = s.hw.onSq f q fun _ => x := by
    rw [hx]; rfl
  have queue : (s.hw.onSq f q fun _ => x).sq f q = x := by rw [Hw.sq_onSq, if_pos rfl]
  have doorbell : s.hw.doorbell (env s) f q s.hw.occ.val.toNat =
      if x.en = true then
        let h := (s.hw.onSq f q fun _ => x).validate (env s) f q
        if (h.fn f).wake.state = .active ∨ (h.sq f q).err = true then h else h.onSq f q fun x => { x with held := true }
      else s.hw.onSq f q fun _ => x := by
    unfold Hw.doorbell
    rw [rung]
    simp only [queue]
  have runs : exec .sqDoorbell s = s.event fun e h => h.doorbell e h.occ.unit (h.occ.id % 16) h.occ.val.toNat := rfl
  by_cases on : x.en = true
  · rw [if_pos on] at doorbell
    refine ⟨_, runs.trans (event_eq_after ?_), fun _ => validated_held hs ?_ (validated_validate hs), fun off => by simp [on] at off⟩
    · rw [← hf, ← hq]; exact doorbell
    · exact (Hw.Logged.onSq s.hw f q _).trans (.validate _ _ f q)
  · rw [if_neg on] at doorbell
    refine ⟨{ s with hw := s.hw.onSq f q fun _ => x }, runs.trans (event_eq_next ?_ hs.2), fun is => absurd is on,
      fun _ => ⟨queue, fun g r other => ?_, rfl, rfl⟩⟩
    · rw [← hf, ← hq]; exact doorbell
    · show (s.hw.onSq f q fun _ => x).sq g r = _
      rw [Hw.sq_onSq, if_neg other]

theorem sqGeometryWrite_errs {x : SQ} (hs : s.Inv) (hf : f = s.hw.occ.unit) (hq : q = s.hw.occ.id % 16) (hx : x = s.hw.sq f q) :
    ((x.en = false ∨ x.err = true) → Turns .sqGeometryWrite s s.hw) ∧
    (x.en = true → x.err = false → ∃ t, exec .sqGeometryWrite s = .next t ∧ t.hw.sq f q = { x with err := true, code := 1 } ∧
      OtherQueues s t f q ∧ (t.hw.fn f).intstat.getLsbD 1 = true ∧ t.mem = s.mem ∧ t.clk = s.clk) := by
  subst hf hq hx
  have runs : exec .sqGeometryWrite s = execSqGeometryWrite s := rfl
  refine ⟨fun idle => turns_of_event runs ?_ hs.2, fun on ok => ?_⟩
  · split
    · next on => exact Hw.queueError_of_err _ _ _ _ _ (idle.resolve_left (by simp [on]))
    · rfl
  · refine ⟨s.after (s.hw.queueError (env s) _ _ 1), runs.trans (event_eq_after (if_pos on)), ?_, fun g r other => ?_,
      Hw.intstat_queueError _ _ _ _ _ ok, State.mem_after ((Hw.Logged.queueError _ _ _ _ _).wq.trans hs.2), rfl⟩
    · rw [State.after_sq, Hw.sq_queueError _ _ _ _ _ ok, if_pos rfl]
    · rw [State.after_sq, Hw.sq_queueError _ _ _ _ _ ok, if_neg other]
end

/-- Settles O49: each step leaves its queue, its commands and its journal as its lemma says. -/
theorem queuesAndAcceptance : Obligations.QueuesAndAcceptance := by
  unfold Obligations.QueuesAndAcceptance
  refine ⟨fun s f q => sqEnable_validates, fun s f q => turns_sqEnable_on, fun s f q x => sqDoorbell_validates,
    fun s f q x => sqGeometryWrite_errs, fun s f q hs => sqReset_clears, fun s f hs => fctlAbort_ends,
    fun s f hs => functionLevelReset_ends, fun s f q x c pa hs hf hq hx fetches free empty hpa clean hc => ?_,
    fun s f q => fetchTimeout_errs, fun s f => attestRequest_goes, fun s f a ok => attestDone_ends⟩
  subst hx hpa
  exact ⟨commandFetch_accepts hs hf hq fetches free empty clean hc, commandFetch_rejects hs hf hq fetches free empty clean hc⟩

end Sys2Proof.Machine
end

section
/-! # The dispatch of queue commands

The next command of a queue is marked dispatched, does what its opcode names, and the queue's next one is planned (R46, R49).
NOP, INTR and LAUNCH (R48, R50). -/
namespace Sys2Proof.Machine

open Sys2Proof.Terms

/-! ## A command that is dispatched -/

theorem Hw.Logged.race {h k : Hw} (a : h.Logged k) (f : Nat) : (k.fn f).race = (h.fn f).race := by rw [a.fns]

theorem Hw.cmds_jState (h : Hw) (e : Env) (f seq state status cause g : Nat) (late : Bool) :
    ((h.jState e f seq state status cause late).fn g).cmds = (h.fn g).cmds := by
  rw [Hw.jState_eq, (Hw.Signals.jPause _ f).fns, Hw.fn_onFn]
  split
  · next at_ => subst at_; rw [Fn.jSet_eq]
  · rfl

theorem Hw.cmds_onQCmd (h : Hw) (f seq : Nat) (g : QCmd → QCmd) {c : QCmd} (hc : Tab.find? (h.fn f).cmds seq = some c) :
    Tab.find? ((h.onQCmd f seq g).fn f).cmds seq = some (g c) := by
  unfold Hw.onQCmd
  rw [Hw.fn_onFn_same]
  exact (Tab.find?_modify_same _ _ _).trans (by rw [hc]; rfl)

/-- What is planned stays planned. -/
theorem Hw.agenda_planOnce (h : Hw) (i : Instr) (o : Occasion) : ∀ m ∈ h.agenda, m ∈ (h.planOnce i o).agenda := by
  intro m hm
  unfold Hw.planOnce
  split
  · exact hm
  · exact List.mem_append_left _ hm
theorem Hw.agenda_planDispatch (h : Hw) (f q : Nat) : ∀ m ∈ h.agenda, m ∈ (h.planDispatch f q).agenda := by
  unfold Hw.planDispatch
  split
  · exact h.agenda_planOnce _ _
  · exact fun _ hm => hm

/-- The queue's next command is planned. -/
def Hw.onward (h : Hw) (f q : Nat) : Hw := (h.planDispatch f q).moved

theorem Hw.agenda_onward (h : Hw) (f q : Nat) : ∀ m ∈ h.agenda, m ∈ (h.onward f q).agenda := h.agenda_planDispatch f q

/-- Two machines that differ only in what is planned and which paths have been tried. -/
def Hw.plansOnly (h k : Hw) : Prop := k = { h with agenda := k.agenda, tried := k.tried }

theorem Hw.plansOnly_trans {h k l : Hw} (a : h.plansOnly k) (b : k.plansOnly l) : h.plansOnly l := by
  unfold Hw.plansOnly
  rw [b, a]
theorem Hw.plansOnly_of_agenda {h k : Hw} (a : h.agendaOnly k) : h.plansOnly k := by
  unfold Hw.plansOnly
  rw [a]
theorem Hw.plansOnly_moved (h : Hw) : h.plansOnly h.moved := rfl
theorem Hw.plansOnly_onward (h : Hw) (f q : Nat) : h.plansOnly (h.onward f q) :=
  Hw.plansOnly_trans (Hw.plansOnly_of_agenda (h.agendaOnly_planDispatch f q)) (Hw.plansOnly_moved _)

section
variable {h k : Hw} (a : h.plansOnly k)
include a
theorem Hw.plansOnly.fn (g : Nat) : k.fn g = h.fn g := by rw [a]; rfl
theorem Hw.plansOnly.part (p : Nat) : k.part p = h.part p := by rw [a]; rfl
theorem Hw.plansOnly.tag (pa : Nat) : k.tag pa = h.tag pa := by rw [a]; rfl
theorem Hw.plansOnly.wq : k.wq = h.wq := by rw [a]
theorem Hw.plansOnly.warps : k.warps = h.warps := by rw [a]
theorem Hw.plansOnly.grids : k.grids = h.grids := by rw [a]
theorem Hw.plansOnly.units : k.units = h.units := by rw [a]
theorem Hw.plansOnly.nextId : k.nextId = h.nextId := by rw [a]
end

section
variable {s : State} {f seq opc : Nat} {c : QCmd}

/-- The package as the command has been marked. -/
def started (s : State) (f seq : Nat) : Hw := s.hw.markDispatched (env s) f seq

theorem logged_started : s.hw.Logged (started s f seq) := .markDispatched s.hw (env s) f seq
theorem cmd_started (hc : Tab.find? (s.hw.fn f).cmds seq = some c) :
    Tab.find? ((started s f seq).fn f).cmds seq = some { c with disp := true } := by
  unfold started Hw.markDispatched
  rw [Hw.cmds_jState]
  exact Hw.cmds_onQCmd s.hw f seq (fun c => { c with disp := true }) hc
theorem running_started (hc : Tab.find? (s.hw.fn f).cmds seq = some c) : Running s (started s f seq) f seq c :=
  (Running.start hc).markDispatched (env s)

/-- What the dispatch of the next command of a queue answers. -/
theorem exec_dispatched {i : Instr} {go : Env → Hw → Nat → Nat → QCmd → Hw} {k : Hw} (d : Dispatches s f seq c opc)
    (hi : exec i s = s.event (dispatched opc go)) (hk : go (env s) (started s f seq) f seq c = k) :
    exec i s = .next (s.after (k.onward f c.queue)) := by
  obtain ⟨hs, hf, hseq, hc, hopc, undispatched, cool, active, next, ok⟩ := d
  refine hi.trans (event_eq_after ?_)
  subst hf hseq
  have ok' : (started s s.hw.occ.unit s.hw.occ.id).addressesOk (env s) s.hw.occ.unit c = true :=
    (logged_started.addressesOk _ _ _).trans ok
  unfold dispatched
  simp only [hc, hopc, cool, active, undispatched, next, ne_eq, not_true_eq_false, Bool.false_eq_true, or_self, if_false]
  rw [← hk]
  exact congrArg Hw.moved (if_pos ok')

/-- A command has ended from `h`, where it stood, and nothing else has happened since. -/
structure Finishes (s t : State) (h : Hw) (f seq : Nat) (c : QCmd) (status : Nat) : Prop where
  ended : Ended s t f seq c status 0 false
  word : h.wq = [] → WordOnly s t c
  clock : t.clk = s.clk
  calm : s.hw.warpsCalm h → WarpsCalm s t
  grids : t.hw.grids = h.grids
  out : ∀ o ∈ h.out, o ∈ t.hw.out
  silent : c.caddr = 0#64 → ∀ x, t.byte x = h.byte (env s) x

theorem Running.finishes {h k : Hw} {status : Nat} (a : Running s h f seq c)
    (hk : (h.endCommand (env s) f seq status 0).plansOnly k) :
    Finishes s (s.after k) h f seq c status := by
  have ends := Hw.Ends.endCommand h (env s) f seq status 0 false
  have fns : k.fns = (h.endCommand (env s) f seq status 0).fns := by rw [hk]
  have wq : k.wq = (h.endCommand (env s) f seq status 0).wq := by rw [hk]
  have grids : k.grids = h.grids := by rw [hk, ends.rest]
  have out : k.out = (h.endCommand (env s) f seq status 0).out := by rw [hk]
  have warps : k.warps = (h.endCommand (env s) f seq status 0).warps := by rw [hk]
  refine ⟨a.ended status 0 false fns wq, fun unwritten => a.wordOnly unwritten status 0 false wq, rfl, fun calm => ?_, grids,
    fun o ho => ?_, fun silent x => ?_⟩
  · exact warpsCalm_after (Hw.warpsCalm_trans (Hw.warpsCalm_trans calm ends.calm) (Hw.warpsCalm_of_warps warps))
  · show o ∈ k.out
    rw [out]
    exact ends.out o ho
  · rw [State.byte_after, Hw.byte_of_wq _ wq]
    exact a.byte_of_silent silent status 0 false x

/-- A dispatched command that ends in this step. -/
theorem finishes_dispatched {i : Instr} {go : Env → Hw → Nat → Nat → QCmd → Hw} {h : Hw} {status : Nat}
    (d : Dispatches s f seq c opc) (hi : exec i s = s.event (dispatched opc go)) (a : Running s h f seq c)
    (hk : go (env s) (started s f seq) f seq c = h.endCommand (env s) f seq status 0 ∨
      go (env s) (started s f seq) f seq c = (h.endCommand (env s) f seq status 0).moved) :
    ∃ t, exec i s = .next t ∧ Finishes s t h f seq c status := by
  rcases hk with hk | hk
  · exact ⟨_, exec_dispatched d hi hk, a.finishes (Hw.plansOnly_onward _ _ _)⟩
  · exact ⟨_, exec_dispatched d hi hk, a.finishes (Hw.plansOnly_trans (Hw.plansOnly_moved _) (Hw.plansOnly_onward _ _ _))⟩

theorem inv_dispatched (d : Dispatches s f seq c opc) : s.Inv := d.1
theorem cmd_dispatched (d : Dispatches s f seq c opc) : Tab.find? (s.hw.fn f).cmds seq = some c := d.2.2.2.1
theorem running_dispatched (d : Dispatches s f seq c opc) : Running s (started s f seq) f seq c := running_started (cmd_dispatched d)
theorem unwritten_dispatched (d : Dispatches s f seq c opc) : (started s f seq).wq = [] := logged_started.wq.trans (inv_dispatched d).2
theorem Hw.Logged.calm {h k : Hw} (a : h.Logged k) : h.warpsCalm k := Hw.warpsCalm_of_warps (by rw [a.rest])

/-! ## NOP, INTR -/

theorem nop_ends (d : Dispatches s f seq c 0) :
    ∃ t, exec .nop s = .next t ∧ Ended s t f seq c 0 0 false ∧ WordOnly s t c ∧ t.clk = s.clk ∧ WarpsCalm s t := by
  obtain ⟨t, ht, fin⟩ := finishes_dispatched d (show exec .nop s = execNop s from rfl) (running_dispatched d) (.inl rfl)
  exact ⟨t, ht, fin.ended, fin.word (unwritten_dispatched d), fin.clock, fin.calm logged_started.calm⟩

theorem intr_ends (d : Dispatches s f seq c 7) :
    ∃ t, exec .intr s = .next t ∧ Ended s t f seq c 0 0 false ∧ WordOnly s t c ∧
    t.clk = s.clk ∧ WarpsCalm s t ∧ Out.msix f (c.num 16 1 % 32) ∈ t.hw.out := by
  have sent := Hw.Signals.send (started s f seq) (.msix f (c.num 16 1 % 32))
  obtain ⟨t, ht, fin⟩ := finishes_dispatched d (show exec .intr s = execIntr s from rfl)
    ((running_dispatched d).of_signals sent) (.inl rfl)
  exact ⟨t, ht, fin.ended, fin.word (unwritten_dispatched d), fin.clock, fin.calm (logged_started.trans (.of_signals sent)).calm,
    fin.out _ List.mem_cons_self⟩

/-! ## LAUNCH -/

theorem Hw.plansOnly_place (h : Hw) (p f q : Nat) : h.plansOnly ((h.place p).onward f q) :=
  Hw.plansOnly_trans (Hw.plansOnly_of_agenda (h.agendaOnly_planOnce _ _)) (Hw.plansOnly_onward _ f q)

/-- A LAUNCH that does not fit, or whose function has no slot areas, ends. -/
theorem launchCommand_refused {sh : Shape} (d : Dispatches s f seq c 1) (hsh : sh = Shape.ofLaunch c.bytes)
    (no : (s.hw.partFor f).neverFits sh none = true ∨ (s.hw.fn f).race.frbase = 0#64 ∨ (s.hw.fn f).race.rrcnt < 2) :
    ∃ t, exec .launchCommand s = .next t ∧ Ended s t f seq c 4 0 false ∧ WordOnly s t c ∧ t.hw.grids = s.hw.grids := by
  subst hsh
  have no' : ((((started s f seq).partFor f).neverFits (Shape.ofLaunch c.bytes) none || ((started s f seq).fn f).race.frbase == 0#64 ||
      decide (((started s f seq).fn f).race.rrcnt < 2))) = true := by
    rw [logged_started.partFor, logged_started.race]
    simpa [or_assoc] using no
  obtain ⟨t, ht, fin⟩ := finishes_dispatched d (show exec .launchCommand s = execLaunchCommand s from rfl) (running_dispatched d)
    (.inl (if_pos no'))
  exact ⟨t, ht, fin.ended, fin.word (unwritten_dispatched d), fin.grids.trans (by rw [logged_started.rest])⟩

/-- The grid of a LAUNCH: a timed one whose tick has not passed starts then. -/
def launchGrid (tick f seq : Nat) (c : QCmd) : Grid :=
  { Grid.plain .launch f seq (BitVec.ofNat 64 seq) (Shape.ofLaunch c.bytes) with
    startAt := if c.timed = true ∧ tick ≤ c.num 56 8 then some (c.num 56 8) else none }

/-- A LAUNCH that fits becomes a grid; a timed one that is late has it in its entry. -/
theorem goLaunch_of_fit {h : Hw} (e : Env) (fits : (h.partFor f).neverFits (Shape.ofLaunch c.bytes) none = false)
    (area : (h.fn f).race.frbase ≠ 0#64) (records : 2 ≤ (h.fn f).race.rrcnt) :
    ∃ k, (k = h ∨ k = h.jState e f seq 2 0 0 true) ∧ goLaunch e h f seq c =
      ((k.onQCmd f seq fun c => { c with left := 1 }).addGrid (launchGrid e.clk.tick f seq c)).1.place (k.partOf f) := by
  have ok : ¬((h.partFor f).neverFits (Shape.ofLaunch c.bytes) none || (h.fn f).race.frbase == 0#64 ||
      decide ((h.fn f).race.rrcnt < 2)) = true := by
    simp [fits, area, Nat.not_lt.mpr records]
  have grid : launchGrid e.clk.tick f seq c = { Grid.plain .launch f seq (BitVec.ofNat 64 seq) (Shape.ofLaunch c.bytes) with
      startAt := if c.timed && !(c.timed && decide (c.num 56 8 < e.clk.tick)) then some (c.num 56 8) else none } := by
    unfold launchGrid
    cases c.timed <;> simp
  refine ⟨if c.timed && decide (c.num 56 8 < e.clk.tick) then h.jState e f seq 2 0 0 true else h, ?_, ?_⟩
  · split
    · exact .inr rfl
    · exact .inl rfl
  · rw [grid]
    exact if_neg ok

theorem launchCommand_launches {sh : Shape} (d : Dispatches s f seq c 1) (hsh : sh = Shape.ofLaunch c.bytes)
    (fits : (s.hw.partFor f).neverFits sh none = false) (area : (s.hw.fn f).race.frbase ≠ 0#64)
    (records : 2 ≤ (s.hw.fn f).race.rrcnt) :
    ∃ t, exec .launchCommand s = .next t ∧ t.mem = s.mem ∧ t.clk = s.clk ∧ t.hw.warps = s.hw.warps ∧
        t.hw.nextId = s.hw.nextId + 1 ∧ t.hw.grids = s.hw.grids ++ [(s.hw.nextId,
          { Grid.plain .launch f seq (BitVec.ofNat 64 seq) sh with
            startAt := if c.timed = true ∧ s.clk.tick ≤ c.num 56 8 then some (c.num 56 8) else none })] ∧
        Tab.find? (t.hw.fn f).cmds seq = some { c with disp := true, left := 1 } ∧
        Planned t .blockPlacement { Occasion.none with unit := s.hw.partOf f } := by
  subst hsh
  obtain ⟨k, hk, go⟩ := goLaunch_of_fit (h := started s f seq) (f := f) (seq := seq) (c := c) (env s)
    (by rw [logged_started.partFor]; exact fits) (by rw [logged_started.race]; exact area) (by rw [logged_started.race]; exact records)
  have logged : s.hw.Logged k := by
    rcases hk with rfl | rfl
    · exact logged_started
    · exact logged_started.trans (.jState _ _ _ _ _ _ _ _)
  have cmd : Tab.find? (k.fn f).cmds seq = some { c with disp := true } := by
    rcases hk with rfl | rfl
    · exact cmd_started (cmd_dispatched d)
    · rw [Hw.cmds_jState]; exact cmd_started (cmd_dispatched d)
  have left := Hw.cmds_onQCmd k f seq (fun c => { c with left := 1 }) cmd
  have marked := logged.trans (.onQCmd k f seq fun c => { c with left := 1 })
  rw [logged.partOf] at go
  generalize k.onQCmd f seq (fun c => { c with left := 1 }) = m at go left marked
  have answer := exec_dispatched d (show exec .launchCommand s = execLaunchCommand s from rfl) go
  generalize hg : (m.addGrid (launchGrid (env s).clk.tick f seq c)).1 = w at answer
  have planned := (w.place (s.hw.partOf f)).agenda_onward f c.queue _ (w.mem_planOnce .blockPlacement _)
  have plans := w.plansOnly_place (s.hw.partOf f) f c.queue
  generalize (w.place (s.hw.partOf f)).onward f c.queue = z at answer planned plans
  subst hg
  refine ⟨_, answer, State.mem_after (plans.wq.trans (marked.wq.trans (inv_dispatched d).2)), rfl,
    plans.warps.trans ?_, plans.nextId.trans ?_, plans.grids.trans ?_, ?_, planned⟩
  · show m.warps = _
    rw [marked.rest]
  · show m.nextId + 1 = _
    rw [marked.rest]
  · show m.grids ++ [(m.nextId, _)] = _
    rw [marked.rest]
    rfl
  · rw [State.after_fn, plans.fn]
    exact left
end

end Sys2Proof.Machine
end

section
/-! # COPY, WRITEVAL and WAITVAL

The queue commands that the device carries out itself (R51): what they write, and when they end. -/
namespace Sys2Proof.Machine

open Sys2Proof.Terms

/-! ## Bytes read before anything is written -/

/-- Where no byte has been written in this step, bytes are read as memory stands. -/
theorem Hw.bytes_of_unwritten {s : State} {h : Hw} (hq : h.wq = []) (pa n : Nat) :
    h.bytes (env s) pa n = (List.range n).map fun j => s.byte (pa + j) :=
  List.map_congr_left fun _ _ => Hw.byte_of_unwritten hq _
theorem Hw.read_of_unwritten {s : State} {h : Hw} (hq : h.wq = []) (pa n : Nat) : h.read (env s) pa n = numberAt s pa n := by
  unfold Hw.read numberAt
  rw [Hw.bytes_of_unwritten hq]

/-! ## WRITEVAL -/

section
variable {s : State} {f seq : Nat} {c : QCmd}

theorem writeval_stores {pa : Nat} (d : Dispatches s f seq c 5) (place : s.hw.wordPlace (env s) f c true = some (pa, false)) :
    ∃ t, exec .writeval s = .next t ∧ Ended s t f seq c 0 0 false ∧ t.clk = s.clk ∧ WarpsCalm s t ∧
      (c.caddr = 0#64 → Overwritten s t pa (natLe c.wordSize (c.num 24 8))) := by
  have written := (Hw.Written.queueWrite (started s f seq) pa (natLe c.wordSize (c.num 24 8))).trans (.peerWriteBack _)
  have go : goWriteval (env s) (started s f seq) f seq c =
      (((started s f seq).queueWrite pa (natLe c.wordSize (c.num 24 8))).peerWriteBack.endCommand (env s) f seq 0 0).moved := by
    unfold goWriteval
    rw [logged_started.wordPlace, place]
    rfl
  obtain ⟨t, ht, fin⟩ := finishes_dispatched d (show exec .writeval s = execWriteval s from rfl)
    ((running_dispatched d).of_written written) (.inr go)
  refine ⟨t, ht, fin.ended, fin.clock, fin.calm (Hw.warpsCalm_trans logged_started.calm written.calm), fun silent x => ?_⟩
  rw [fin.silent silent, Hw.byte_of_wq _ (Hw.wq_peerWriteBack _), Hw.byte_queueWrite, Hw.byte_of_unwritten (unwritten_dispatched d)]

/-! ## WAITVAL -/

/-- The package as a WAITVAL polls: its first poll has the tick at which it began. -/
def Hw.polling (h : Hw) (e : Env) (f seq : Nat) (c : QCmd) : Hw :=
  if c.waitAt.isNone then h.onQCmd f seq fun c => { c with waitAt := some e.clk.tick } else h

theorem Hw.Logged.polling (h : Hw) (e : Env) (f seq : Nat) (c : QCmd) : h.Logged (h.polling e f seq c) := by
  unfold Hw.polling
  split
  · exact .onQCmd h f seq _
  · exact .refl h
theorem Running.polling {h : Hw} (a : Running s h f seq c) (e : Env) : Running s (h.polling e f seq c) f seq c := by
  unfold Hw.polling
  split
  · exact a.onQCmd fun _ => rfl
  · exact a

theorem goWaitval_of_place {h : Hw} {e : Env} {pa : Nat} (place : h.wordPlace e f c false = some (pa, false)) :
    goWaitval e h f seq c = if c.holds ((h.polling e f seq c).read e pa c.wordSize) then
      ((h.polling e f seq c).endCommand e f seq 0 0).moved
    else (h.polling e f seq c).planOnce .waitval { Occasion.none with unit := f, id := seq } := by
  have place' : (h.polling e f seq c).wordPlace e f c false = some (pa, false) :=
    ((Hw.Logged.polling h e f seq c).wordPlace _ _ _ _).trans place
  unfold goWaitval
  rw [show (if c.waitAt.isNone then h.onQCmd f seq fun c => { c with waitAt := some e.clk.tick } else h) = h.polling e f seq c from rfl]
  dsimp only
  rw [place']
  simp only [Bool.not_false, Bool.true_and]
  rfl

theorem waitval_ends {pa : Nat} (d : Dispatches s f seq c 6) (place : s.hw.wordPlace (env s) f c false = some (pa, false))
    (holds : c.holds (numberAt s pa c.wordSize) = true) :
    ∃ t, exec .waitval s = .next t ∧ Ended s t f seq c 0 0 false ∧ WordOnly s t c := by
  have go := goWaitval_of_place (h := started s f seq) (seq := seq) ((logged_started.wordPlace _ _ _ _).trans place)
  have unwritten : ((started s f seq).polling (env s) f seq c).wq = [] :=
    (Hw.Logged.polling _ _ _ _ _).wq.trans (unwritten_dispatched d)
  rw [Hw.read_of_unwritten unwritten, if_pos holds] at go
  obtain ⟨t, ht, fin⟩ := finishes_dispatched d (show exec .waitval s = execWaitval s from rfl)
    ((running_dispatched d).polling (env s)) (.inr go)
  exact ⟨t, ht, fin.ended, fin.word unwritten⟩

theorem waitval_polls {pa : Nat} (d : Dispatches s f seq c 6) (place : s.hw.wordPlace (env s) f c false = some (pa, false))
    (first : c.waitAt = none) (fails : c.holds (numberAt s pa c.wordSize) = false) :
    ∃ t, exec .waitval s = .next t ∧ t.mem = s.mem ∧ t.clk = s.clk ∧
      Tab.find? (t.hw.fn f).cmds seq = some { c with disp := true, waitAt := some s.clk.tick } ∧
      Planned t .waitval { Occasion.none with unit := f, id := seq } := by
  have go := goWaitval_of_place (h := started s f seq) (seq := seq) ((logged_started.wordPlace _ _ _ _).trans place)
  have polls : (started s f seq).polling (env s) f seq c =
      (started s f seq).onQCmd f seq fun c => { c with waitAt := some s.clk.tick } := by
    unfold Hw.polling
    rw [first]
    rfl
  have unwritten : ((started s f seq).polling (env s) f seq c).wq = [] :=
    (Hw.Logged.polling _ _ _ _ _).wq.trans (unwritten_dispatched d)
  have cmd := Hw.cmds_onQCmd (started s f seq) f seq (fun c => { c with waitAt := some s.clk.tick }) (cmd_started (cmd_dispatched d))
  rw [Hw.read_of_unwritten unwritten, if_neg (by simp [fails])] at go
  rw [← polls] at cmd
  generalize (started s f seq).polling (env s) f seq c = h at go unwritten cmd
  have answer := exec_dispatched d (show exec .waitval s = execWaitval s from rfl) go
  have plans := Hw.plansOnly_trans (Hw.plansOnly_of_agenda (h.agendaOnly_planOnce .waitval { Occasion.none with unit := f, id := seq }))
    (Hw.plansOnly_onward _ f c.queue)
  refine ⟨_, answer, State.mem_after (plans.wq.trans unwritten), rfl, ?_, Hw.agenda_onward _ _ _ _ (h.mem_planOnce _ _)⟩
  rw [State.after_fn, plans.fn]
  exact cmd

theorem waitvalTimeout_ends {n : Nat} (hs : s.Inv) (hf : f = s.hw.occ.unit) (hseq : seq = s.hw.occ.id)
    (hc : Tab.find? (s.hw.fn f).cmds seq = some c) (waits : c.waitAt = some n) (opc : c.opc = 6) (limited : c.num 36 4 ≠ 0)
    (passed : n + 1000 * c.num 36 4 ≤ s.clk.tick) :
    ∃ t, exec .waitvalTimeout s = .next t ∧ Ended s t f seq c 7 0 false ∧ WordOnly s t c := by
  have answer : waitvalTimeout (env s) s.hw = (s.hw.endCommand (env s) f seq 7 0).moved := by
    unfold waitvalTimeout
    rw [← hf, ← hseq, hc]
    dsimp only
    rw [waits]
    exact if_pos ⟨opc, limited, passed⟩
  have fin := (Running.start hc).finishes (status := 7) (Hw.plansOnly_moved _)
  exact ⟨_, (show exec .waitvalTimeout s = execWaitvalTimeout s from rfl).trans (event_eq_after answer), fin.ended, fin.word hs.2⟩

/-! ## COPY -/

theorem cutLines_of_line {k n : Nat} {a : DWord} (some_ : 0 < n) (within : a.toNat % 128 + n ≤ 128) : cutLines (k + 2) a n = [(a, n)] := by
  have all : min n (128 - a.toNat % 128) = n := by omega
  simp [cutLines, all, Nat.ne_of_gt some_]

theorem Hw.Written.queuePieces (e : Env) (f : Nat) (src dst : DWord) (l : List (DWord × Nat)) (h : Hw) :
    h.Written (h.queuePieces e f src dst l).1 := by
  induction l generalizing h with
  | nil => exact .refl h
  | cons x l ih =>
    obtain ⟨d, n⟩ := x
    unfold Hw.queuePieces
    split
    · split
      · exact .refl h
      · exact (Hw.Written.queueWrite h _ _).trans (ih _)
    · exact .refl h

/-- A piece that no poison meets is copied. -/
theorem Hw.queuePieces_single {h : Hw} {e : Env} {src dst : DWord} {n pd : Nat} {l : Leaf} {ss : List (Nat × Nat)}
    (clean : h.poison = []) (dest : h.devAt e f true true dst n = some (pd, l)) (source : h.devRange e f true false src n = some ss) :
    h.queuePieces e f src dst [(dst, n)] = (h.queueWrite pd (ss.flatMap fun x => h.bytes e x.1 x.2), true) := by
  have whole : src + (dst - dst) = src := by simp
  unfold Hw.queuePieces
  rw [whole, dest, source]
  simp only [clean, List.contains_nil, Bool.and_false, List.any_eq_true, Bool.false_eq_true, and_false, exists_false, if_false]
  rfl

/-- Nothing holds a copy where nothing is held. -/
theorem copyWaits_of_rest {h : Hw} (logged : s.hw.Logged h) (rest : AtRest s) (e : Env) (d : Nat) (write : Bool) (va : DWord) (n : Nat) :
    h.copyWaits e f d write va n = false := by
  obtain ⟨-, carries, asleep, -⟩ := rest
  have goes (x y : Nat) (l : Leaf) (pa : Nat) : h.waitsOnWay x y l pa = false := by
    rw [logged.waitsOnWay]
    unfold Hw.waitsOnWay
    simp only [carries, asleep, Bool.not_true, Bool.or_self, Bool.false_or]
    split <;> simp
  unfold Hw.copyWaits
  rw [Bool.and_eq_false_iff]
  refine .inr (List.any_eq_false.mpr fun x _ => ?_)
  split
  · simp [goes]
  · exact Bool.false_ne_true

/-- The package as a copy ends: its pieces have been moved, and it owns no line. -/
def Hw.copied (h : Hw) (f seq : Nat) : Hw :=
  ({ h with owners := Tab.keep (fun _ o => o != queueOwner f seq) h.owners } : Hw).peerWriteBack

theorem Hw.byte_copied (h : Hw) (f seq : Nat) (e : Env) (x : Nat) : (h.copied f seq).byte e x = h.byte e x :=
  Hw.byte_of_wq e (Hw.wq_peerWriteBack _) x
theorem Running.copied {h : Hw} (a : Running s h f seq c) : Running s (h.copied f seq) f seq c :=
  Running.of_written (h := { h with owners := Tab.keep (fun _ o => o != queueOwner f seq) h.owners }) (a.of_fns rfl) (.peerWriteBack _)
theorem Hw.warpsCalm_copied (h : Hw) (f seq : Nat) : h.warpsCalm (h.copied f seq) :=
  (Hw.Written.peerWriteBack { h with owners := Tab.keep (fun _ o => o != queueOwner f seq) h.owners }).calm

/-- A copy whose lines no engine owns, and that waits for nothing, moves its pieces and ends. -/
theorem goQueueCopy_of_rest {h : Hw} (logged : s.hw.Logged h) (rest : AtRest s) (e : Env)
    (engine : ∃ r, r < 20 ∧ (s.hw.partFor f).owns.eng.getLsbD (2 * r) = true) :
    let p := h.queuePieces e f (c.addr 16) (c.addr 24) (cutLines (c.num 32 8 / 128 + 2) (c.addr 24) (c.num 32 8))
    goQueueCopy e h f seq c = ((p.1.copied f seq).endCommand e f seq (if p.2 then 0 else 9) 0).moved := by
  have owners : h.owners = [] := by rw [logged.rest]; exact rest.1
  unfold goQueueCopy
  cases hr : (List.range 20).find? fun r => (h.partFor f).owns.eng.getLsbD (2 * r) with
  | none =>
    obtain ⟨r, lt, owned⟩ := engine
    rw [logged.partFor] at hr
    exact absurd owned (List.find?_eq_none.mp hr r (List.mem_range.mpr lt))
  | some ring =>
    dsimp only
    rw [copyWaits_of_rest logged rest, copyWaits_of_rest logged rest, if_neg (by simp)]
    split
    · next found =>
      have owned := List.find?_some found
      rw [owners] at owned
      exact absurd owned Bool.false_ne_true
    · rfl

theorem queueCopy_ends (d : Dispatches s f seq c 4) (rest : AtRest s)
    (engine : ∃ r, r < 20 ∧ (s.hw.partFor f).owns.eng.getLsbD (2 * r) = true) :
    ∃ t st, exec .queueCopy s = .next t ∧ Ended s t f seq c st 0 false ∧ (st = 0 ∨ st = 9) ∧ t.clk = s.clk ∧ WarpsCalm s t := by
  have go := goQueueCopy_of_rest (seq := seq) (c := c) (h := started s f seq) logged_started rest (env s) engine
  have written := Hw.Written.queuePieces (env s) f (c.addr 16) (c.addr 24)
    (cutLines (c.num 32 8 / 128 + 2) (c.addr 24) (c.num 32 8)) (started s f seq)
  dsimp only at go
  generalize (started s f seq).queuePieces (env s) f (c.addr 16) (c.addr 24)
    (cutLines (c.num 32 8 / 128 + 2) (c.addr 24) (c.num 32 8)) = p at go written
  obtain ⟨t, ht, fin⟩ := finishes_dispatched d (show exec .queueCopy s = execQueueCopy s from rfl)
    ((running_dispatched d).of_written written).copied (.inr go)
  refine ⟨t, _, ht, fin.ended, ?_, fin.clock, fin.calm ?_⟩
  · cases p.2
    · exact .inr rfl
    · exact .inl rfl
  · exact Hw.warpsCalm_trans (Hw.warpsCalm_trans logged_started.calm written.calm) (Hw.warpsCalm_copied _ f seq)

/-- A copy within one line of its destination, of bytes that no poison meets. -/
theorem queueCopy_moves {n pd : Nat} {src dst : DWord} {l : Leaf} {ss : List (Nat × Nat)} (d : Dispatches s f seq c 4)
    (hsrc : src = c.addr 16) (hdst : dst = c.addr 24) (hn : n = c.num 32 8) (rest : AtRest s)
    (engine : ∃ r, r < 20 ∧ (s.hw.partFor f).owns.eng.getLsbD (2 * r) = true) (some_ : 0 < n) (within : dst.toNat % 128 + n ≤ 128)
    (clean : s.hw.poison = []) (silent : c.caddr = 0#64) (dest : s.hw.devAt (env s) f true true dst n = some (pd, l))
    (source : s.hw.devRange (env s) f true false src n = some ss) :
    ∃ t, exec .queueCopy s = .next t ∧ Ended s t f seq c 0 0 false ∧
        Overwritten s t pd (ss.flatMap fun x => (List.range x.2).map fun j => s.byte (x.1 + j)) := by
  subst hsrc hdst hn
  have go := goQueueCopy_of_rest (seq := seq) (c := c) (h := started s f seq) logged_started rest (env s) engine
  have pieces := Hw.queuePieces_single (h := started s f seq) (by rw [logged_started.rest]; exact clean)
    ((logged_started.devAt _ _ _ _ _ _).trans dest) ((logged_started.devRange _ _ _ _ _ _).trans source)
  dsimp only at go
  rw [cutLines_of_line some_ within, pieces, if_pos rfl] at go
  simp only [Hw.bytes_of_unwritten (unwritten_dispatched d)] at go
  obtain ⟨t, ht, fin⟩ := finishes_dispatched d (show exec .queueCopy s = execQueueCopy s from rfl)
    ((running_dispatched d).of_written (.queueWrite _ _ _)).copied (.inr go)
  refine ⟨t, ht, fin.ended, fun x => ?_⟩
  rw [fin.silent silent, Hw.byte_copied, Hw.byte_queueWrite, Hw.byte_of_unwritten (unwritten_dispatched d)]
end

end Sys2Proof.Machine
end

section
/-! # TASK, GSLAUNCH and the handler warp's entries

A TASK that meets no method becomes a record for the handler warp, or ends (R103, R106); a GSLAUNCH becomes its units (R107,
R108); the handler warp takes its entries in order (R414). -/
namespace Sys2Proof.Machine

open Sys2Proof.Terms

section
variable {s : State} {f seq : Nat} {c : QCmd}

/-! ## TASK: no entry -/

theorem goTask_of_bound (d : Dispatches s f seq c 2) (bound : (s.hw.fn f).bind.bound = true) :
    goTask (env s) (started s f seq) f seq c =
      match s.hw.lookup (env s) f true false (c.num 16 2 % 4096) c.descs with
      | .bad st => (started s f seq).endCommand (env s) f seq st 0
      | .noMethod r i keys => ((started s f seq).countNoMethod (s.hw.partOf f)).raiseTask (env s) f seq r i keys
      | .entry i m ops ss =>
        ((started s f seq).onQCmd f seq fun c => { c with left := 1 + (ss.filter (·.isSome)).length }).launchFound (env s) f seq true
          (BitVec.ofNat 64 seq) i m ops ss := by
  obtain ⟨-, -, -, -, -, undispatched, -, -, -, -⟩ := d
  unfold goTask Hw.taskLookup
  rw [undispatched, logged_started.bind, bound, logged_started.lookup, logged_started.partOf]
  rfl

theorem taskCommand_bad {st : Nat} (d : Dispatches s f seq c 2) (bound : (s.hw.fn f).bind.bound = true)
    (found : s.hw.lookup (env s) f true false (c.num 16 2 % 4096) c.descs = .bad st) :
    ∃ t, exec .taskCommand s = .next t ∧ Ended s t f seq c st 0 false ∧ WordOnly s t c := by
  have go := goTask_of_bound d bound
  rw [found] at go
  obtain ⟨t, ht, fin⟩ := finishes_dispatched d (show exec .taskCommand s = execTaskCommand s from rfl) (running_dispatched d) (.inl go)
  exact ⟨t, ht, fin.ended, fin.word (unwritten_dispatched d)⟩

/-! ## TASK: no method -/

theorem Hw.part_countNoMethod (h : Hw) (p : Nat) :
    (h.countNoMethod p).part p = { h.part p with pnometh := ((h.part p).pnometh + 1) % 2 ^ 32 } := Hw.part_onPart_same _ _ _

/-- Counting the event changes no partition's rings. -/
theorem Hw.rings_countNoMethod (h : Hw) (p g : Nat) : ((h.countNoMethod p).partFor g).rings = (h.partFor g).rings := by
  have fn (k : Nat) : (h.countNoMethod p).fn k = h.fn k := rfl
  have partOf : (h.countNoMethod p).partOf g = h.partOf g := by unfold Hw.partOf; rw [fn]
  unfold Hw.partFor
  rw [fn, partOf]
  split
  · by_cases own : h.partOf g = p
    · subst own
      rw [Hw.part_countNoMethod]
      rfl
    · rw [show (h.countNoMethod p).part (h.partOf g) = h.part (h.partOf g) from Hw.part_onPart_other _ _ own]
  · rfl

theorem taskCommand_declined {r i : Nat} {keys : List (BitVec 16)} (d : Dispatches s f seq c 2)
    (bound : (s.hw.fn f).bind.bound = true)
    (found : s.hw.lookup (env s) f true false (c.num 16 2 % 4096) c.descs = .noMethod r i keys) (bare : (s.hw.partFor f).rings = []) :
    ∃ t, exec .taskCommand s = .next t ∧ Ended s t f seq c 8 0 false ∧ WordOnly s t c := by
  have go := goTask_of_bound d bound
  have cmd : Tab.find? (((started s f seq).countNoMethod (s.hw.partOf f)).fn f).cmds seq = some { c with disp := true } :=
    cmd_started (cmd_dispatched d)
  have declines : ((started s f seq).countNoMethod (s.hw.partOf f)).raiseTask (env s) f seq r i keys =
      ((started s f seq).countNoMethod (s.hw.partOf f)).endCommand (env s) f seq 8 0 := by
    unfold Hw.raiseTask
    rw [cmd]
    dsimp only
    rw [Hw.rings_countNoMethod, logged_started.partFor, bare]
    rfl
  rw [found] at go
  obtain ⟨t, ht, fin⟩ := finishes_dispatched d (show exec .taskCommand s = execTaskCommand s from rfl)
    ((running_dispatched d).of_fns (k := (started s f seq).countNoMethod (s.hw.partOf f)) rfl) (.inl (go.trans declines))
  exact ⟨t, ht, fin.ended, fin.word (unwritten_dispatched d)⟩

/-- The package as a command's record is in slot `k` of its partition and its entry is raised. -/
def Hw.recorded (h : Hw) (f seq p k reason operand : Nat) (c : QCmd) (keys : List (BitVec 16)) : Hw :=
  ((h.putBytes (recordSlot p k) (handlerRecord c seq reason keys)).onQCmd f seq fun c => { c with nomSlot := none }).onPart p fun x =>
    { x with slots := k :: x.slots, tasks := x.tasks ++ [⟨f, seq, k, noMethodO reason operand⟩] }

theorem Hw.part_putBytes (h : Hw) (pa p : Nat) (bs : List Byte) : (h.putBytes pa bs).part p = h.part p := rfl
theorem Hw.part_onQCmd (h : Hw) (f seq p : Nat) (g : QCmd → QCmd) : (h.onQCmd f seq g).part p = h.part p := rfl

theorem Hw.part_recorded (h : Hw) (f seq p k reason operand : Nat) (c : QCmd) (keys : List (BitVec 16)) :
    (h.recorded f seq p k reason operand c keys).part p = { h.part p with
      slots := k :: (h.part p).slots, tasks := (h.part p).tasks ++ [⟨f, seq, k, noMethodO reason operand⟩] } := by
  unfold Hw.recorded
  rw [Hw.part_onPart_same, Hw.part_onQCmd, Hw.part_putBytes]
theorem Hw.cmd_recorded {h : Hw} {f seq : Nat} {d : QCmd} (p k reason operand : Nat) (c : QCmd) (keys : List (BitVec 16))
    (hc : Tab.find? (h.fn f).cmds seq = some d) :
    Tab.find? ((h.recorded f seq p k reason operand c keys).fn f).cmds seq = some { d with nomSlot := none } :=
  Hw.cmds_onQCmd (h.putBytes _ _) f seq (fun c => { c with nomSlot := none }) hc
theorem Hw.wq_recorded (h : Hw) (f seq p k reason operand : Nat) (c : QCmd) (keys : List (BitVec 16)) :
    (h.recorded f seq p k reason operand c keys).wq = (h.putBytes (recordSlot p k) (handlerRecord c seq reason keys)).wq := rfl

theorem taskCommand_recorded {r i k p : Nat} {keys : List (BitVec 16)} (d : Dispatches s f seq c 2)
    (bound : (s.hw.fn f).bind.bound = true)
    (found : s.hw.lookup (env s) f true false (c.num 16 2 % 4096) c.descs = .noMethod r i keys) (rings : (s.hw.partFor f).rings ≠ [])
    (hp : p = s.hw.partOf f) (free : ((List.range 64).find? fun k => !(s.hw.part p).slots.contains k) = some k) :
    ∃ t, exec .taskCommand s = .next t ∧ Overwritten s t (recordSlot p k) (handlerRecord c seq r keys) ∧ t.clk = s.clk ∧
      t.hw.part p = { s.hw.part p with
        pnometh := ((s.hw.part p).pnometh + 1) % 2 ^ 32, slots := k :: (s.hw.part p).slots
        tasks := (s.hw.part p).tasks ++ [⟨f, seq, k, noMethodO r i⟩] } ∧
      Tab.find? (t.hw.fn f).cmds seq = some { c with disp := true, nomSlot := none } := by
  have go := goTask_of_bound d bound
  rw [found, ← hp] at go
  have cmd : Tab.find? (((started s f seq).countNoMethod p).fn f).cmds seq = some { c with disp := true } :=
    cmd_started (cmd_dispatched d)
  have partOf : ((started s f seq).countNoMethod p).partOf f = p := (logged_started.partOf f).trans hp.symm
  have part : ((started s f seq).countNoMethod p).part p = { s.hw.part p with pnometh := ((s.hw.part p).pnometh + 1) % 2 ^ 32 } := by
    rw [Hw.part_countNoMethod, logged_started.part]
  have bare : (((started s f seq).countNoMethod p).partFor f).rings.isEmpty = false := by
    rw [Hw.rings_countNoMethod, logged_started.partFor]
    simpa using rings
  have unwritten : ((started s f seq).countNoMethod p).wq = [] := unwritten_dispatched d
  generalize (started s f seq).countNoMethod p = h at go cmd partOf part bare unwritten
  have raises : h.raiseTask (env s) f seq r i keys = (h.recorded f seq p k r i c keys).planOnce .handlerTaskEntry
      { Occasion.none with unit := p } := by
    unfold Hw.raiseTask
    rw [cmd]
    dsimp only
    rw [bare, partOf, part]
    dsimp only
    rw [free]
    rfl
  have answer := exec_dispatched d (show exec .taskCommand s = execTaskCommand s from rfl) (go.trans raises)
  have plans := Hw.plansOnly_trans (Hw.plansOnly_of_agenda ((h.recorded f seq p k r i c keys).agendaOnly_planOnce .handlerTaskEntry
    { Occasion.none with unit := p })) (Hw.plansOnly_onward _ f c.queue)
  refine ⟨_, answer, fun x => ?_, rfl, ?_, ?_⟩
  · rw [State.byte_after, Hw.byte_of_wq _ (plans.wq.trans (Hw.wq_recorded _ _ _ _ _ _ _ _ _)), Hw.byte_putBytes,
      Hw.byte_of_unwritten unwritten]
  · rw [State.after_part, plans.part, Hw.part_recorded, part]
  · rw [State.after_fn, plans.fn, Hw.cmd_recorded p k r i c keys cmd]

/-! ## GSLAUNCH -/

theorem gslaunchCommand_refused {st : Nat} (d : Dispatches s f seq c 3) (status : s.hw.shapeStatus f c = st) (bad : st ≠ 0) :
    ∃ t, exec .gslaunchCommand s = .next t ∧ Ended s t f seq c st 0 false ∧ WordOnly s t c := by
  have go : goGslaunch (env s) (started s f seq) f seq c = (started s f seq).endCommand (env s) f seq st 0 := by
    obtain ⟨-, -, -, -, -, undispatched, -, -, -, -⟩ := d
    unfold goGslaunch
    rw [undispatched, logged_started.shapeStatus, status]
    exact if_pos bad
  obtain ⟨t, ht, fin⟩ := finishes_dispatched d (show exec .gslaunchCommand s = execGslaunchCommand s from rfl) (running_dispatched d)
    (.inl go)
  exact ⟨t, ht, fin.ended, fin.word (unwritten_dispatched d)⟩

/-- The unit of an entry of a tile list. -/
def unitOfEntry (f seq gid : Nat) (exact : Shape) (gtol : Word) (x : TileEntry × Nat) : GUnit :=
  { fn := f, seq := seq, idx := x.2, grid := gid, exact := exact, gtol := gtol, base := x.1.base.toNat, nt := x.1.nt
    outtag := x.1.outtag, status := x.1.status.toNat, tiles := [], ring := none, res := 0#32, sealed := false
    verdict := false, faulted := false, poisoned := false, outcome := 0, ecause := 0, ended := false, gmem := []
    gmarks := [], ends := [] }

/-- The units of a tile list take the next numbers, in its order. -/
structure UnitsAdded (h k : Hw) (f seq gid : Nat) (exact : Shape) (gtol : Word) (l : List TileEntry) (n : Nat) : Prop where
  rest : k = { h with nextId := k.nextId, units := k.units }
  before : ∀ j, j < h.nextId → Tab.find? k.units j = Tab.find? h.units j
  listed : ∀ j x, l[j]? = some x → Tab.find? k.units (h.nextId + j) = some (unitOfEntry f seq gid exact gtol (x, n + j))

theorem unitsAdded_foldl (f seq gid : Nat) (exact : Shape) (gtol : Word) (l : List TileEntry) (n : Nat) (h : Hw) :
    UnitsAdded h ((l.zipIdx n).foldl (fun (h : Hw) x =>
      { h with nextId := h.nextId + 1, units := Tab.put h.units h.nextId (unitOfEntry f seq gid exact gtol x) }) h)
      f seq gid exact gtol l n := by
  induction l generalizing n h with
  | nil => exact ⟨rfl, fun _ _ => rfl, fun j x hx => by simp at hx⟩
  | cons y l ih =>
    obtain ⟨rest, before, listed⟩ := ih (n + 1)
      { h with nextId := h.nextId + 1, units := Tab.put h.units h.nextId (unitOfEntry f seq gid exact gtol (y, n)) }
    refine ⟨rest, fun j hj => ?_, fun j x hx => ?_⟩
    · exact (before j (Nat.lt_succ_of_lt hj)).trans (Tab.find?_put_other _ _ (Nat.ne_of_lt hj))
    · cases j with
      | zero =>
        obtain rfl : y = x := by simpa using hx
        exact (before h.nextId (Nat.lt_succ_self _)).trans (Tab.find?_put_same _ _ _)
      | succ j =>
        have found := listed j x (by simpa using hx)
        rw [show h.nextId + 1 + j = h.nextId + (j + 1) by omega, show n + 1 + j = n + (j + 1) by omega] at found
        exact found

theorem unitsAdded_addUnits (h : Hw) (f seq gid : Nat) (exact : Shape) (gtol : Word) (l : List TileEntry) :
    UnitsAdded h (h.addUnits f seq gid exact gtol l) f seq gid exact gtol l 0 := unitsAdded_foldl f seq gid exact gtol l 0 h

theorem gslaunchCommand_launches {sh ck ex : Shape} {l : List TileEntry} (d : Dispatches s f seq c 3)
    (ok : s.hw.shapeStatus f c = 0) (recs : c.recs.map Shape.ofLaunch = [sh, ck, ex]) (hl : l = c.tileList) :
    ∃ t, exec .gslaunchCommand s = .next t ∧ t.mem = s.mem ∧ t.clk = s.clk ∧
        t.hw.grids = s.hw.grids ++ [(s.hw.nextId, { Grid.plain .units f seq (BitVec.ofNat 64 seq) sh with cons := some ck })] ∧
        Tab.find? (t.hw.fn f).cmds seq = some { c with disp := true, left := 1 } ∧
        ∀ j x, l[j]? = some x → ∃ u, Tab.find? t.hw.units (s.hw.nextId + 1 + j) = some u ∧ u.fn = f ∧ u.seq = seq ∧ u.idx = j ∧
          u.grid = s.hw.nextId ∧ u.exact = ex ∧ u.base = x.base.toNat ∧ u.nt = x.nt ∧ u.outtag = x.outtag ∧ u.outcome = 0 := by
  subst hl
  have logged := logged_started (s := s) (f := f) (seq := seq)
  have nextId : (started s f seq).nextId = s.hw.nextId := by rw [logged.rest]
  have grids : (started s f seq).grids = s.hw.grids := by rw [logged.rest]
  generalize hg : ({ Grid.plain .units f seq (BitVec.ofNat 64 seq) sh with cons := some ck } : Grid) = g
  have go : goGslaunch (env s) (started s f seq) f seq c = ((((started s f seq).addGrid g).1.addUnits f seq s.hw.nextId ex
      (BitVec.ofNat 32 (c.num 40 4)) c.tileList).onQCmd f seq fun c => { c with left := 1 }).place ((started s f seq).partOf f) := by
    obtain ⟨-, -, -, -, -, undispatched, -, -, -, -⟩ := d
    unfold goGslaunch
    rw [undispatched, logged.shapeStatus, ok, recs, ← nextId, ← hg]
    rfl
  obtain ⟨rest, -, listed⟩ := unitsAdded_addUnits ((started s f seq).addGrid g).1 f seq s.hw.nextId ex (BitVec.ofNat 32 (c.num 40 4))
    c.tileList
  have cmd : Tab.find? (((started s f seq).addGrid g).1.fn f).cmds seq = some { c with disp := true } :=
    cmd_started (cmd_dispatched d)
  have unwritten : ((started s f seq).addGrid g).1.wq = [] := unwritten_dispatched d
  have first : ((started s f seq).addGrid g).1.nextId = s.hw.nextId + 1 := congrArg (· + 1) nextId
  have added : ((started s f seq).addGrid g).1.grids = s.hw.grids ++ [(s.hw.nextId, g)] := by rw [← nextId, ← grids]; rfl
  generalize ((started s f seq).addGrid g).1 = h at go rest listed cmd unwritten first added
  generalize h.addUnits f seq s.hw.nextId ex (BitVec.ofNat 32 (c.num 40 4)) c.tileList = v at go rest listed
  have cmd' : Tab.find? (v.fn f).cmds seq = some { c with disp := true } := by rw [rest]; exact cmd
  have answer := exec_dispatched d (show exec .gslaunchCommand s = execGslaunchCommand s from rfl) go
  have plans := (v.onQCmd f seq fun c => { c with left := 1 }).plansOnly_place ((started s f seq).partOf f) f c.queue
  refine ⟨_, answer, State.mem_after (plans.wq.trans ?_), rfl, plans.grids.trans ?_, ?_,
    fun j x hx => ⟨unitOfEntry f seq s.hw.nextId ex (BitVec.ofNat 32 (c.num 40 4)) (x, j),
      (congrArg (Tab.find? · _) plans.units).trans ?_, rfl, rfl, rfl, rfl, rfl, rfl, rfl, rfl, rfl⟩⟩
  · show v.wq = []
    rw [rest]
    exact unwritten
  · show v.grids = _
    rw [rest]
    exact added
  · rw [State.after_fn, plans.fn]
    exact Hw.cmds_onQCmd v f seq (fun c => { c with left := 1 }) cmd'
  · have found := listed j x hx
    rw [first, Nat.zero_add] at found
    exact found
end

/-! ## The handler warp takes an entry -/

theorem handlerTaskEntry_enters {s : State} {p : Nat} {x : HEntry} {l : List HEntry} {w : Warp} (hs : s.Inv) (hp : p = s.hw.occ.unit)
    (takes : s.hw.occ.flag = false) (idle : (s.hw.part p).serving = none) (clear : (s.hw.part p).imask.getLsbD 1 = false)
    (live : (s.hw.part p).live = true) (tasks : (s.hw.part p).tasks = x :: l) (vec : (s.hw.part p).phvec ≠ 0#64)
    (hw : s.hw.warp? (wkOf (handlerFn p) handlerSlot 0) = some w) :
    ∃ t v, exec .handlerTaskEntry s = .next t ∧ t.mem = s.mem ∧ t.clk = s.clk ∧
      t.hw.part p = { s.hw.part p with serving := some x, tasks := l } ∧ t.hw.warp? (wkOf (handlerFn p) handlerSlot 0) = some v ∧
      v.mode = .handler ∧ stands v.p0 = ((s.hw.part p).phvec, allMask w.k, [], 0) ∧ v.p0.live = true ∧ v.p1.live = false ∧
      v.trapc = 0x0C#64 ∧ v.trapa = BitVec.ofNat 64 (recordSlot p x.slot) ∧ v.trapo = x.trapo ∧
      v.vregs = w.vregs ∧ v.uregs = w.uregs ∧ v.preds = w.preds ∧
      ∀ k, k ≠ wkOf (handlerFn p) handlerSlot 0 → t.hw.warp? k = s.hw.warp? k := by
  have answer : handlerTaskEntry (env s) s.hw = (s.hw.enterTask (env s) p x).moved := by
    unfold handlerTaskEntry
    rw [← hp]
    simp only [takes, idle, clear, live, tasks, vec, Option.isSome_none, Bool.not_true, Bool.or_self, Bool.false_eq_true, if_false]
  have turns : exec .handlerTaskEntry s = .next { s with hw := (s.hw.enterTask (env s) p x).moved } :=
    (show exec .handlerTaskEntry s = execHandlerTaskEntry s from rfl).trans (event_eq_next answer hs.2)
  refine ⟨_, _, turns, rfl, rfl, ?_, (Hw.warp?_onWarp_same _ _ _).trans (congrArg _ hw), rfl, rfl, rfl, rfl, rfl, rfl, rfl, rfl, rfl, rfl,
    fun k other => Hw.warp?_onWarp_other _ _ other⟩
  have drops : (s.hw.part p).tasks.drop 1 = l := by rw [tasks]; rfl
  rw [← drops]
  exact Tab.getD_put_same _ _ _ _

end Sys2Proof.Machine
end

section
/-! # A TASK that meets its entry

A TASK becomes its routine's grid and one grid for each of its conversions; a routine without conversions takes its tiles at
once (R91, R104, R105). -/
namespace Sys2Proof.Machine

open Sys2Proof.Terms

/-! ## A lookup that finds an entry gives each operand its step -/

theorem length_of_mapM {α β : Type} {g : α → Option β} {l : List α} {r : List β} (h : l.mapM g = some r) : r.length = l.length := by
  induction l generalizing r with
  | nil => simp_all
  | cons x xs ih =>
    simp only [List.mapM_cons, Option.bind_eq_bind, Option.bind_eq_some_iff] at h
    obtain ⟨y, -, ys, hys, hr⟩ := h
    cases hr
    exact congrArg (· + 1) (ih hys)

theorem length_stepsFor {p : Part} {ms : List Method} {cs : List Conv} {m : Method} {ops : List Operand}
    {ss : List (Option (Nat × Method))} (h : stepsFor p ms cs m ops = some ss) : ss.length = ops.length := by
  rw [length_of_mapM h, List.length_zipIdx]

/-- Has the choice of an entry, if there is one, a step for each operand? -/
def Stepped (ops : List Operand) (b : Option (Nat × Method × List (Option (Nat × Method)))) : Prop :=
  ∀ x ∈ b, x.2.2.length = ops.length

theorem stepped_bestEntry (p : Part) (ms : List Method) (cs : List Conv) (op : Nat) (ops : List Operand) :
    Stepped ops (bestEntry p ms cs op ops) := by
  refine List.foldlRecOn (motive := Stepped ops) _ _ (fun _ h => nomatch h) fun b hb x _ => ?_
  split
  · split
    · exact hb
    · next ss hss =>
      have new : Stepped ops (some (x.2, x.1, ss)) := by
        rintro _ ⟨⟩
        exact length_stepsFor hss
      dsimp only
      split
      · split
        · exact new
        · exact hb
      · exact new
  · exact hb

theorem Hw.steps_of_lookup {h : Hw} {e : Env} {f op i : Nat} {cmd bad : Bool} {descs : List DWord} {m : Method} {ops : List Operand}
    {ss : List (Option (Nat × Method))} (found : h.lookup e f cmd bad op descs = .entry i m ops ss) : ss.length = ops.length := by
  unfold Hw.lookup at found
  dsimp only at found
  split at found
  · cases found
  split at found
  · cases found
  split at found
  · cases found
  split at found
  · cases found
  split at found
  · cases found
  next best =>
    split at found
    · cases found
      exact stepped_bestEntry _ _ _ _ _ _ best
    · cases found

/-! ## Tiles that a grid takes -/

theorem tagSt_withSt_two (t : BitVec 16) : tagSt (withSt t 2) = 2 := by
  have bits : (withSt t 2).extractLsb' 12 2 = 2#2 := by
    unfold withSt
    ext i hi
    interval_cases i <;> simp
  unfold tagSt
  rw [bits]
  rfl

/-- Two machines that differ only in tags. -/
def Hw.tagsOnly (h k : Hw) : Prop := k = { h with tags := k.tags }

theorem Hw.tagsOnly_takeTiles (h : Hw) (ts : List Nat) : h.tagsOnly (h.takeTiles ts) := by
  refine List.foldlRecOn (motive := h.tagsOnly) ts _ rfl fun k hk t _ => ?_
  unfold Hw.tagsOnly at hk ⊢
  rw [Hw.setTag_eq, hk]

theorem Hw.tagSt_setTag_two (h : Hw) {u : Nat} (hbm : paKind (4096 * u) = .hbm) (v : Nat)
    (taken : u = v ∨ tagSt (h.tag (4096 * u)) = 2) :
    tagSt ((h.setTag (4096 * v) (withSt (h.tag (4096 * v)) 2)).tag (4096 * u)) = 2 := by
  have tile : 4096 * u / 4096 = u := Nat.mul_div_cancel_left _ (by decide)
  by_cases hv : paKind (4096 * v) = .hbm
  · rw [Hw.tag_setTag h hv, tile]
    split
    · exact tagSt_withSt_two _
    · next other => exact taken.resolve_left other
  · unfold Hw.setTag
    rw [if_neg hv]
    exact taken.resolve_left fun same => hv (same ▸ hbm)

/-- A taken tile is `setting`, and stays so. -/
theorem Hw.tagSt_takeTiles (h : Hw) (ts : List Nat) {u : Nat} (hbm : paKind (4096 * u) = .hbm)
    (taken : u ∈ ts ∨ tagSt (h.tag (4096 * u)) = 2) : tagSt ((h.takeTiles ts).tag (4096 * u)) = 2 := by
  induction ts generalizing h with
  | nil => exact taken.resolve_left List.not_mem_nil
  | cons t ts ih =>
    refine ih _ ?_
    rcases taken with listed | set
    · rcases List.mem_cons.mp listed with first | later
      · exact .inr (h.tagSt_setTag_two hbm t (.inl first))
      · exact .inl later
    · exact .inr (h.tagSt_setTag_two hbm t (.inr set))

/-! ## The grids that are added -/

/-- From `h` to `k`, `n` grids were added, and tiles taken; nothing else changed. -/
structure Hw.GridsAdded (h k : Hw) (n : Nat) : Prop where
  rest : k = { h with nextId := h.nextId + n, grids := k.grids, tags := k.tags }
  grids : ∃ l, k.grids = h.grids ++ l ∧ l.length = n

theorem Hw.GridsAdded.of_tagsOnly {h k : Hw} (a : h.tagsOnly k) : h.GridsAdded k 0 := by
  unfold Hw.tagsOnly at a
  exact ⟨by rw [a]; rfl, [], by rw [a, List.append_nil], rfl⟩
theorem Hw.GridsAdded.addGrid (h : Hw) (g : Grid) : h.GridsAdded (h.addGrid g).1 1 := ⟨rfl, [(h.nextId, g)], rfl, rfl⟩
theorem Hw.GridsAdded.trans {h k l : Hw} {m n : Nat} (a : h.GridsAdded k m) (b : k.GridsAdded l n) : h.GridsAdded l (m + n) := by
  obtain ⟨arest, x, ax, xm⟩ := a
  obtain ⟨brest, y, bx, yn⟩ := b
  refine ⟨?_, x ++ y, by rw [bx, ax, List.append_assoc], by rw [List.length_append, xm, yn]⟩
  rw [brest, arest, Nat.add_assoc]

theorem Hw.GridsAdded.nextId {h k : Hw} {n : Nat} (a : h.GridsAdded k n) : k.nextId = h.nextId + n := by rw [a.rest]

/-- The grid of the conversion that an operand's step names. -/
def Hw.convGrid (h : Hw) (e : Env) (f seq : Nat) (cmd : Bool) (gridid : DWord) (rid : Nat) (o : Operand) (ci : Nat) (cm : Method) :
    Grid :=
  { h.methodGrid e .conversion f seq cmd gridid ci 0 cm [o.desc, o.desc + 64#64] [o.served false, o.served true] with next_ := some rid }

/-- An operand's conversion, where it has one, takes its tiles and is launched. -/
def Hw.convertOne (e : Env) (f seq : Nat) (cmd : Bool) (gridid : DWord) (rid : Nat) (a : Hw × List Nat)
    (x : Operand × Option (Nat × Method)) : Hw × List Nat :=
  match x.2 with
  | none => a
  | some (ci, cm) =>
    let g := a.1.convGrid e f seq cmd gridid rid x.1 ci cm
    (((a.1.takeTiles (g.outs.map (·.1))).addGrid g).1, a.2 ++ [((a.1.takeTiles (g.outs.map (·.1))).addGrid g).2])

theorem Hw.added_convertOne {h : Hw} (e : Env) (f seq : Nat) (cmd : Bool) (gridid : DWord) (rid : Nat)
    (l : List (Operand × Option (Nat × Method))) (a : Hw × List Nat) (ha : h.GridsAdded a.1 a.2.length) :
    h.GridsAdded (l.foldl (Hw.convertOne e f seq cmd gridid rid) a).1 (l.foldl (Hw.convertOne e f seq cmd gridid rid) a).2.length ∧
      (l.foldl (Hw.convertOne e f seq cmd gridid rid) a).2.length = a.2.length + (l.filter fun x => x.2.isSome).length := by
  induction l generalizing a with
  | nil => exact ⟨ha, rfl⟩
  | cons x l ih =>
    obtain ⟨o, step⟩ := x
    cases step with
    | none => exact ih a ha
    | some x =>
      obtain ⟨ci, cm⟩ := x
      have next : h.GridsAdded (Hw.convertOne e f seq cmd gridid rid a (o, some (ci, cm))).1
          (Hw.convertOne e f seq cmd gridid rid a (o, some (ci, cm))).2.length := by
        have one := (Hw.GridsAdded.of_tagsOnly (a.1.tagsOnly_takeTiles
          ((a.1.convGrid e f seq cmd gridid rid o ci cm).outs.map (·.1)))).trans (.addGrid _ (a.1.convGrid e f seq cmd gridid rid o ci cm))
        have all := ha.trans one
        simpa [Hw.convertOne, List.length_append] using all
      obtain ⟨added, count⟩ := ih _ next
      refine ⟨added, count.trans ?_⟩
      have one : (Hw.convertOne e f seq cmd gridid rid a (o, some (ci, cm))).2.length = a.2.length + 1 := List.length_append
      rw [one, List.filter_cons_of_pos (by rfl), List.length_cons]
      omega

/-- As many operands have a step as there are steps. -/
theorem length_filter_zip {α β : Type} {l : List α} {r : List (Option β)} (same : r.length = l.length) :
    ((l.zip r).filter fun x => x.2.isSome).length = (r.filter (·.isSome)).length := by
  conv_rhs => rw [← List.map_snd_zip (l₁ := l) (l₂ := r) same.le]
  rw [List.filter_map, List.length_map]
  rfl

theorem Hw.outs_methodGrid (h : Hw) (e : Env) (kind : GridKind) (f seq : Nat) (cmd : Bool) (gridid : DWord) (i nconv : Nat)
    (m : Method) (descs : List DWord) (recs : List (Rec × Nat)) :
    ∀ x ∈ (h.methodGrid e kind f seq cmd gridid i nconv m descs recs).outs, x.2 = m.outtag := by
  intro x hx
  unfold Hw.methodGrid at hx
  simp only [List.mem_flatMap, List.mem_filterMap, Option.map_eq_some_iff] at hx
  obtain ⟨-, -, -, -, -, -, rfl⟩ := hx
  rfl

/-- The routine's grid of a found entry, before it has the identifiers of the conversions it waits for. -/
def Hw.routineGrid (h : Hw) (e : Env) (f seq : Nat) (cmd : Bool) (gridid : DWord) (i nconv : Nat) (m : Method) (ops : List Operand)
    (ss : List (Option (Nat × Method))) : Grid :=
  h.methodGrid e .routine f seq cmd gridid i nconv m ((ops.zip ss).map fun x => if x.2.isSome then x.1.desc + 64#64 else x.1.desc)
    ((ops.zip ss).map fun x => x.1.served x.2.isSome)

theorem Hw.outs_routineGrid (h : Hw) (e : Env) (f seq : Nat) (cmd : Bool) (gridid : DWord) (i nconv : Nat) (m : Method)
    (ops : List Operand) (ss : List (Option (Nat × Method))) :
    ∀ x ∈ (h.routineGrid e f seq cmd gridid i nconv m ops ss).outs, x.2 = m.outtag := h.outs_methodGrid _ _ _ _ _ _ _ _ _ _ _

/-- What a found entry launches: a grid for each step, then the routine's, which waits for them; without steps it has taken its
tiles. -/
theorem Hw.launchFound_adds (h : Hw) (e : Env) (f seq : Nat) (cmd : Bool) (gridid : DWord) (i : Nat) (m : Method)
    {ops : List Operand} {ss : List (Option (Nat × Method))} {n : Nat} (same : ss.length = ops.length)
    (hn : n = (ss.filter (·.isSome)).length) :
    ∃ k ids p, h.launchFound e f seq cmd gridid i m ops ss = k.place p ∧ ids.length = n ∧ h.GridsAdded k (n + 1) ∧
      k.grids.getLast? = some (h.nextId + n, { h.routineGrid e f seq cmd gridid i n m ops ss with waits := ids }) ∧
      (n = 0 → ∀ x ∈ (h.routineGrid e f seq cmd gridid i n m ops ss).outs,
        paKind (4096 * x.1) = .hbm → tagSt (k.tag (4096 * x.1)) = 2) := by
  have unfolds : h.launchFound e f seq cmd gridid i m ops ss =
      (let routine := h.routineGrid e f seq cmd gridid i n m ops ss
      let a := (ops.zip ss).foldl (Hw.convertOne e f seq cmd gridid (h.nextId + n)) (h, [])
      let k := if a.2.isEmpty then a.1.takeTiles (routine.outs.map (·.1)) else a.1
      ((k.addGrid { routine with waits := a.2 }).1).place (k.partOf f)) := by
    rw [hn]
    rfl
  generalize h.routineGrid e f seq cmd gridid i n m ops ss = routine at unfolds ⊢
  obtain ⟨added, count⟩ := Hw.added_convertOne e f seq cmd gridid (h.nextId + n) (ops.zip ss) (h, []) (.of_tagsOnly rfl)
  rw [length_filter_zip same, ← hn] at count
  simp only [List.length_nil, Nat.zero_add] at count
  generalize (ops.zip ss).foldl (Hw.convertOne e f seq cmd gridid (h.nextId + n)) (h, []) = a at unfolds added count
  rw [count] at added
  dsimp only at unfolds
  have taken : a.1.GridsAdded (if a.2.isEmpty then a.1.takeTiles (routine.outs.map (·.1)) else a.1) 0 := by
    split
    · exact .of_tagsOnly (a.1.tagsOnly_takeTiles _)
    · exact .of_tagsOnly rfl
  have set (none_ : n = 0) : ∀ x ∈ routine.outs, paKind (4096 * x.1) = .hbm →
      tagSt ((if a.2.isEmpty then a.1.takeTiles (routine.outs.map (·.1)) else a.1).tag (4096 * x.1)) = 2 := by
    intro x hx hbm
    rw [if_pos (List.isEmpty_iff_length_eq_zero.mpr (count.trans none_))]
    exact Hw.tagSt_takeTiles _ _ hbm (.inl (List.mem_map_of_mem hx))
  generalize (if a.2.isEmpty then a.1.takeTiles (routine.outs.map (·.1)) else a.1) = k at unfolds taken set
  have before := added.trans taken
  refine ⟨_, a.2, _, unfolds, count, before.trans (.addGrid k _), ?_, set⟩
  show (k.grids ++ [(k.nextId, _)]).getLast? = _
  rw [List.getLast?_append, before.nextId]
  rfl

section
variable {s : State} {f seq : Nat} {c : QCmd}

theorem taskCommand_launches {i n : Nat} {m : Method} {ops : List Operand} {ss : List (Option (Nat × Method))}
    (d : Dispatches s f seq c 2) (bound : (s.hw.fn f).bind.bound = true)
    (found : s.hw.lookup (env s) f true false (c.num 16 2 % 4096) c.descs = .entry i m ops ss)
    (hn : n = (ss.filter (·.isSome)).length) :
    ∃ t g, exec .taskCommand s = .next t ∧ t.mem = s.mem ∧ t.clk = s.clk ∧
        t.hw.warps = s.hw.warps ∧ t.hw.grids.take s.hw.grids.length = s.hw.grids ∧
        t.hw.grids.length = s.hw.grids.length + n + 1 ∧ t.hw.grids.getLast? = some (s.hw.nextId + n, g) ∧
        g.kind = .routine ∧ g.fn = f ∧ g.seq = seq ∧ g.waits.length = n ∧ g.task = BitVec.ofNat 32 (i + 4096 * n) ∧
        g.shape = { m.shape with gx := g.shape.gx } ∧
        g.descs = ((ops.zip ss).map fun x => if x.2.isSome then x.1.desc + 64#64 else x.1.desc) ∧
        (n = 0 → ∀ x ∈ g.outs, x.2 = m.outtag ∧ (paKind (4096 * x.1) = .hbm → tagSt (t.hw.tag (4096 * x.1)) = 2)) ∧
        Tab.find? (t.hw.fn f).cmds seq = some { c with disp := true, left := 1 + n } := by
  have go := goTask_of_bound d bound
  rw [found] at go
  dsimp only at go
  rw [← hn] at go
  have marked := logged_started.trans (.onQCmd (started s f seq) f seq fun c => { c with left := 1 + n })
  have left := Hw.cmds_onQCmd (started s f seq) f seq (fun c => { c with left := 1 + n }) (cmd_started (cmd_dispatched d))
  generalize (started s f seq).onQCmd f seq (fun c => { c with left := 1 + n }) = h at go marked left
  have grids : h.grids = s.hw.grids := by rw [marked.rest]
  have nextId : h.nextId = s.hw.nextId := by rw [marked.rest]
  obtain ⟨k, ids, p, launches, count, added, last, set⟩ := h.launchFound_adds (env s) f seq true (BitVec.ofNat 64 seq) i m
    (Hw.steps_of_lookup found) hn
  have answer := exec_dispatched d (show exec .taskCommand s = execTaskCommand s from rfl) (go.trans launches)
  have plans := k.plansOnly_place p f c.queue
  obtain ⟨l, appended, length⟩ := added.grids
  have wq : k.wq = h.wq := by rw [added.rest]
  have warps : k.warps = h.warps := by rw [added.rest]
  have fn : k.fn f = h.fn f := by rw [added.rest]; rfl
  refine ⟨_, { h.routineGrid (env s) f seq true (BitVec.ofNat 64 seq) i n m ops ss with waits := ids }, answer,
    State.mem_after (plans.wq.trans (wq.trans (marked.wq.trans (inv_dispatched d).2))), rfl,
    plans.warps.trans (warps.trans (by rw [marked.rest])), ?_, ?_,
    (congrArg List.getLast? plans.grids).trans (last.trans (by rw [nextId])), rfl, rfl, rfl, count, rfl, rfl, rfl,
    fun none_ x hx => ⟨h.outs_routineGrid (env s) f seq true (BitVec.ofNat 64 seq) i n m ops ss x hx, fun hbm => ?_⟩, ?_⟩
  · show List.take _ ((k.place p).onward f c.queue).grids = _
    rw [plans.grids, appended, grids, List.take_left]
  · show ((k.place p).onward f c.queue).grids.length = _
    rw [plans.grids, appended, grids, List.length_append, length, Nat.add_assoc]
  · show tagSt (((k.place p).onward f c.queue).tag (4096 * x.1)) = 2
    rw [plans.tag]
    exact set none_ x hx hbm
  · rw [State.after_fn, plans.fn, fn]
    exact left
end

/-! ## The obligation -/

/-- Settles O50, opcode by opcode: what a dispatched command's opcode does to the package it is marked in, and that the queue's
going on only plans. -/
theorem queueCommands : Obligations.QueueCommands := by
  unfold Obligations.QueueCommands
  refine ⟨fun _ _ _ _ d => nop_ends d, fun _ _ _ _ d => intr_ends d, fun s f seq c sh d hsh => ⟨?launchRefused, ?launches⟩,
    fun s f seq c d bound => ⟨?taskBad, fun r i keys found => ⟨?declined, ?recorded⟩, ?entry⟩,
    fun s f seq c d => ⟨?unitsRefused, ?units⟩, fun s f seq c n src dst d hsrc hdst hn rest engine => ⟨?copyEnds, ?copyMoves⟩,
    ?writeval, fun s f seq c pa d place => ⟨?holds, ?polls⟩, ?timeout, ?handler⟩
  case launchRefused => exact fun no => launchCommand_refused d hsh no
  case launches => exact fun fits area records => launchCommand_launches d hsh fits area records
  case taskBad => exact fun _ found => taskCommand_bad d bound found
  case declined => exact fun bare => taskCommand_declined d bound found bare
  case recorded => exact fun _ _ rings hp free => taskCommand_recorded d bound found rings hp free
  case entry => exact fun _ _ _ _ _ found hn => taskCommand_launches d bound found hn
  case unitsRefused => exact fun _ status bad => gslaunchCommand_refused d status bad
  case units => exact fun _ _ _ _ ok recs hl => gslaunchCommand_launches d ok recs hl
  case copyEnds => exact queueCopy_ends d rest engine
  case copyMoves => exact fun _ _ _ => queueCopy_moves d hsrc hdst hn rest engine
  case writeval => exact fun _ _ _ _ _ d place => writeval_stores d place
  case holds => exact waitval_ends d place
  case polls => exact waitval_polls d place
  case timeout => exact fun _ _ _ _ _ => waitvalTimeout_ends
  case handler => exact fun _ _ _ _ _ => handlerTaskEntry_enters

end Sys2Proof.Machine
end

section
/-! # Partitions and the thermal trip

After the thermal trip no command is fetched (R32; log 64), and the RESUME of a partition is no exception. -/
namespace Sys2Proof.Machine

open Sys2Proof.Terms

/-- Function 1 is bound to partition 0 and active, its queue 0 is enabled and holds one command, and the package has tripped. -/
def trippedWithCommand : State :=
  { State.reset with hw := { Hw.reset with
      trip := true, boot := { Hw.reset.boot with ready := true }, agenda := []
      fns := [(1, { Fn.reset with bind := { Bind.reset with bound := true }, queues := [(0, { SQ.reset with en := true, wr := 1 })] })]
      occ := { Occasion.none with unit := 0 } } }

/-- The RESUME of partition 0 leaves the agenda as it stood, empty. -/
theorem resume_trippedWithCommand : ∃ t, exec .pctlResume trippedWithCommand = .next t ∧ t.hw.agenda = [] :=
  ⟨_, rfl, by decide +kernel⟩

/-- Refutes O51: its clause of RESUME leaves out the thermal trip. Of `trippedWithCommand` it claims that the bound function's
waiting command is planned to be fetched, while the resumed partition of a tripped package plans nothing. -/
theorem not_tenancyAndTurns : ¬ Obligations.TenancyAndTurns := by
  unfold Obligations.TenancyAndTurns
  rintro ⟨-, -, -, -, -, resumes, -⟩
  obtain ⟨t, ht, -, -, -, fetches⟩ := resumes trippedWithCommand 0 ⟨rfl, rfl⟩ rfl
  have planned : Planned t .commandFetch { Occasion.none with unit := 1, id := 0 } :=
    fetches 1 0 (by decide) (by decide) rfl rfl rfl rfl rfl rfl rfl (by decide)
  obtain ⟨u, hu, silent⟩ := resume_trippedWithCommand
  obtain rfl := Host.Outcome.next.inj (hu.symm.trans ht)
  rw [Planned, silent] at planned
  exact List.not_mem_nil planned

end Sys2Proof.Machine
end

section
/-! # An acquire over a dirty byte that is not valid

An acquire is performed at the home: `Iss.homeward` first writes back its core's line, if any byte of it is valid (R181, R190;
log 49). A dirty byte of a line without a valid one stays where it is. -/
namespace Sys2Proof.Machine

open Sys2Proof.Terms

/-- The load of a word at the first address of a line, by lane 0 into v16. -/
def acquireFlight : Flight :=
  { wk := wkOf 1 0 0, path := false, kind := .load 1 .device 4 false, tag := 0, dreg := 16, nreg := 1, lanes := [(0, 0x20400#64)],
    locs := [(.mem 0x60400, 0x60131#64)], vals := [], pc := 0x10000#64, intv := 1, waived := false, handler := false,
    chint := 0#32, replay := false, held := [] }

/-- It returns, and in its core's L1 the line's first byte is dirty with value 7 and not valid. Memory holds 0 there. -/
def acquireOverInvalidDirty : State :=
  { State.reset with hw := { Hw.reset.solo with
      cores := [(0, { Core.reset with l1 := [(l1Key 1 (lineOf 0x60400), { L1Line.empty with dirty := 1#128, bytes := [(0, 7#8)] })] })]
      flights := [(6, acquireFlight)], occ := { Occasion.none with unit := 6 } } }

/-- The flight's warp and block, as `Hw.solo` has them, and what issued it. -/
def acquireWarp : Warp := newWarp 1 false 64 4 0 0 8 0x10000#64 0
def acquireBlock : Block := newBlock 0 0 0 0 soloShape none 0 0 4096 0 1
def acquireIss : Iss := acquireFlight.iss acquireWarp acquireBlock

theorem acquireOverInvalidDirty_oneView : OneView acquireOverInvalidDirty acquireIss (acquireFlight.accs 4) :=
  ⟨show Iss.ctx acquireOverInvalidDirty.hw acquireIss < 2 ^ 20 by decide, fun a ha b hb _ _ _ _ _ => by
    obtain rfl := List.mem_singleton.mp ha
    obtain rfl := List.mem_singleton.mp hb
    rfl⟩

/-- The return lands memory's 0. -/
theorem acquireOverInvalidDirty_lands_zero : ∃ t, exec .loadReturn acquireOverInvalidDirty = .next t ∧
    (t.hw.warp? acquireFlight.wk).map (·.getV 16 0) = some 0#32 :=
  ⟨_, rfl, by decide +kernel⟩

/-- Refutes O17: of `acquireOverInvalidDirty` its clause of acquires claims the value of `flagByte`, the dirty 7, for v16, while
the line is not written back and memory's 0 lands. -/
theorem not_resultsLand : ¬ Obligations.ResultsLand := by
  unfold Obligations.ResultsLand
  rintro ⟨-, -, acquires⟩
  obtain ⟨t, w, ht, hw, -, landed, -⟩ := acquires acquireOverInvalidDirty 6 acquireFlight acquireWarp acquireBlock .device 4 false
    ⟨rfl, rfl⟩ rfl rfl rfl rfl rfl rfl rfl rfl (by decide) (by decide) (by decide) (by decide) (by decide +kernel)
    (by decide +kernel) acquireOverInvalidDirty_oneView
  have seven : w.getV 16 0 = 7#32 := (landed.vec 16 0 (by decide)).trans (by decide +kernel)
  obtain ⟨u, hu, zero⟩ := acquireOverInvalidDirty_lands_zero
  obtain rfl := Host.Outcome.next.inj (hu.symm.trans ht)
  rw [hw, Option.map_some, seven] at zero
  exact absurd zero (by decide)

end Sys2Proof.Machine
end

section
/-! # A load whose mark drops a record

Where a line has no place for a load's mark, a record is dropped and PMOLOST counts it (R215). `Hw.lostMark` writes the partition's
entry, and `Hw.splitAt` takes the first entry that owns the core's ring: where the table of partitions is not in rising order,
the count can change which entry that is, and so how many lines the core's L1 has room for (R1, R125). -/
namespace Sys2Proof.Machine

open Sys2Proof.Terms

/-! ## What an instruction leaves to be written -/

/-- An instruction that issues, pops no token and has effect `h` answers a next state that holds the bytes `h` leaves to be written. -/
theorem issue_writes {i : Instr} {s : State} {q : Iss} {f : Env → Hw → Iss → Except Stop Hw} {written : List Host.Cell}
    (issues : Issues i s q) (popless : q.w.poppedRels i = []) (effect : ∃ h, f (env s) s.hw q = .ok h ∧ h.wq = written) :
    ∃ k, issue i s f = .next (s.after k) ∧ k.wq = written := by
  obtain ⟨-, hq, rank, -, unheld⟩ := issues
  obtain ⟨h, effect, writes⟩ := effect
  obtain ⟨k, retired, answer⟩ := issue_next hq rank unheld effect (.inl (by simp [popless]))
  exact ⟨k, answer, by rw [retired.rest, Hw.goto_wq, writes]⟩

theorem Keeps.noteSeen (h : Hw) (s : Iss) (w : Bool) (as : List Acc) : Keeps h (Iss.noteSeen h s w as) := by
  unfold Iss.noteSeen
  refine Keeps.foldl _ (fun h a => Keeps.foldl _ (fun h t => ?_) _ _) as h
  split
  · split
    · exact Keeps.seenAdd _ _ _ _ _
    · exact Keeps.refl _
  · exact Keeps.refl _

theorem Hw.wq_fly (h : Hw) (q : Iss) (u : Use) (f : Flight) (back : Instr) : (h.fly q u f back).wq = h.wq := by rw [Hw.fly_eq]

/-- What a plain load that issues and passes its checks leaves to be written is what reading its lanes leaves. -/
theorem loadInto_writes {i : Instr} {u : Use} {sc : Scope} {z : Nat} {s : State} {addr : Iss → Nat → DWord} {q : Iss} {as : List Acc}
    (issues : Issues i s q) (popless : q.w.poppedRels i = []) (hu : ¬ inQueue u)
    (passes : Iss.check s.hw (env s) q ⟨.data, false, false, szBytes z, 0, false, false, none⟩ (addr q) = .ok as) :
    ∃ k, loadInto i u 0 sc z s addr = .next (s.after k) ∧
      k.wq = (Iss.readAll (env s) q true (sc == .system) as (Iss.markAll (Iss.fill s.hw q as) q .data false as)).1.wq := by
  refine issue_writes issues popless ?_
  have notQueued : ¬(120 ≤ u.r.toNat ∧ u.r.toNat < 126) := hu
  have quiet : (Iss.flight s.hw q (.load 0 sc z false) u (addr q) []).acquires = false := rfl
  simp only [if_neg notQueued, quiet, Bool.toNat_false, passes, bind, Except.bind, zero_ne_one, ↓reduceIte]
  exact ⟨_, rfl, by rw [Hw.wq_fly, (Keeps.noteSeen _ _ _ _).wq]; rfl⟩

/-! ## An eviction -/

/-- A core's L1 that has one line and room for none gives it up. -/
theorem Hw.fitL1_of_single {h : Hw} {core k : Nat} {l : L1Line} (one : (h.core core).l1 = [(k, l)]) :
    h.fitL1 1 core 0 = (({ h with free := h.free + 1 }).writeBackLine core (k / 2 ^ 45) (k % 2 ^ 45)).setL1 core (k / 2 ^ 45) (k % 2 ^ 45)
      L1Line.empty := by
  simp only [Hw.fitL1, one, List.length_singleton, Nat.mod_one, List.getElem?_cons_zero, Option.map_some]
  rfl

/-- Putting another line into such an L1 writes back that line. -/
theorem Hw.wq_fillL1_of_single {h : Hw} {core ctx line k : Nat} {l new : L1Line} (one : (h.core core).l1 = [(k, l)])
    (other : k ≠ l1Key ctx line) (full : Machine.l1Lines (h.splitAt core) ≤ 1) :
    (h.fillL1 core ctx line new).wq = (({ h with free := h.free + 1 }).writeBackLine core (k / 2 ^ 45) (k % 2 ^ 45)).wq := by
  have absent : Tab.has (h.core core).l1 (l1Key ctx line) = false := by rw [one]; simp [Tab.has, Tab.find?, other]
  unfold Hw.fillL1
  rw [absent, one, show Machine.l1Lines (h.splitAt core) - 1 = 0 by omega]
  simp only [Bool.false_eq_true, ↓reduceIte, List.length_singleton, Hw.fitL1_of_single one]
  rfl

/-- A dirty line of an ordinary context leaves its dirty bytes to be written. -/
theorem Hw.wq_writeBackLine {h : Hw} {core ctx line : Nat} (dirty : (h.l1 core ctx line).dirty ≠ 0#128) (ordinary : ctx < 2 ^ 20) :
    (h.writeBackLine core ctx line).wq = (h.l1 core ctx line).dirtyBytes line ++ h.wq := by
  unfold Hw.writeBackLine
  simp only [dirty, Nat.not_le.mpr ordinary, ↓reduceIte]
  rw [Hw.setL1, Hw.onCore_wq, (Keeps.count _ _ _ _ _ _ _).wq, (Keeps.atHome _ _ _ _).wq]

/-- A .d load of memory whose line the L1 does not hold at all fills it. -/
theorem Iss.readD_absent {h : Hw} {e : Env} {s : Iss} {a : Acc} {pa : Nat} (memory : a.loc = .mem pa) (sized : lineBits (pa % 128) a.size ≠ 0#128)
    (absent : h.l1 s.core (Iss.lineCtx h s a) (lineOf pa) = L1Line.empty) (allocates : s.w.chint = 0#32) :
    ∃ new, (Iss.readD h e s a).1 = ((h.count s.fn 0 s.core 0x07 0 1).atHome (Iss.homeReq h s a false) pa false).fillL1 s.core
      (Iss.lineCtx h s a) (lineOf pa) new := by
  unfold Iss.readD
  simp only [memory, absent, allocates]
  rw [if_neg (by simpa [L1Line.empty] using sized.symm)]
  exact ⟨_, rfl⟩

/-! ## The state -/

/-- A live partition that owns ring 0 and runs that function, if one. -/
def ringHolder (running : Option Nat) : Part :=
  { Part.reset with live := true, owns := { Owns.none with rings := 1#20 }, running := running }

/-- A load is about to issue into a word that four other warps have read: its line has no place for a fifth record. Ring 0 has two
owners in the table of partitions, which is not in rising order: the first runs nothing, so that the L1 has 5120 lines, and the second
runs a function whose scratchpad takes them all. The core's L1 holds one line, in which the byte of address 128 is dirty. -/
def loadThatDropsRecord : State :=
  { State.reset with hw := { Hw.reset.solo with
      cur := some ⟨wkOf 1 0 0, false⟩
      warps := [(wkOf 1 0 0, { newWarp 1 false 64 4 0 0 8 0x10000#64 0 with p0 := freshPath 0x10000#64 1#1024 })]
      parts := [(1, ringHolder none), (0, ringHolder (some 0))]
      fcores := [(fcKey 0 0, { FCore.reset with split := 768 })]
      marks := [(wordOf 0x60000, ⟨none, [1#20, 2#20, 3#20, 4#20].map fun p => ⟨p, 1, .data, false, none⟩⟩)]
      cores := [(0, { Core.reset with
        tlb := [⟨1, 0, 16, 0x60131#64⟩]
        l1 := [(l1Key 1 1, { L1Line.empty with valid := 1#128, dirty := 1#128, bytes := [(0, 7#8)] })] })] } }

/-- What issues there, the one access, the instruction: a load of a word from address 0 into v16. -/
def droppingIss : Iss :=
  ⟨wkOf 1 0 0, false, { newWarp 1 false 64 4 0 0 8 0x10000#64 0 with p0 := freshPath 0x10000#64 1#1024 },
    newBlock 0 0 0 0 soloShape none 0 0 4096 0 1, [0]⟩
def droppingAcc : Acc := ⟨0, 0#64, 4, .mem 0x60000, 0x60131#64⟩
def droppingLoad : Instr := .ld 16#7 126#7 0#3 4#3 0#6
def plainWord : Ask := ⟨.data, false, false, 4, 0, false, false, none⟩

theorem loadThatDropsRecord_issues : Issues droppingLoad loadThatDropsRecord droppingIss :=
  ⟨⟨rfl, rfl⟩, by decide +kernel, by decide +kernel, show Hw.wraps _ _ _ = false by decide +kernel, rfl⟩
theorem loadThatDropsRecord_passes :
    Iss.check loadThatDropsRecord.hw (env loadThatDropsRecord) droppingIss plainWord (fun _ => 0#64) = .ok [droppingAcc] := by
  decide +kernel
theorem v16_not_queued : ¬ inQueue ((Use.dst 16#7).wide 1) := by unfold inQueue; decide
theorem droppingIss_popless : droppingIss.w.poppedRels droppingLoad = [] := by decide +kernel

/-- The package once the access is marked and a record is dropped, and once the load has gone to the line's home. -/
def recordDropped : Hw :=
  Iss.markAll (Iss.fill loadThatDropsRecord.hw droppingIss [droppingAcc]) droppingIss .data false [droppingAcc]
def wentHome : Hw :=
  (recordDropped.count droppingIss.fn 0 droppingIss.core 0x07 0 1).atHome (Iss.homeReq recordDropped droppingIss droppingAcc false)
    0x60000 false

/-- The L1 had room for the line, and has none once the record is dropped. -/
theorem loadThatDropsRecord_room : L1Room loadThatDropsRecord droppingIss false [droppingAcc] :=
  .inr (by decide +kernel)
theorem wentHome_full : Machine.l1Lines (wentHome.splitAt 0) ≤ 1 := by decide +kernel

/-- So reading the lane leaves the dirty byte of the L1's line to be written. -/
theorem wq_readAll_recordDropped :
    (Iss.readAll (env loadThatDropsRecord) droppingIss true false [droppingAcc] recordDropped).1.wq = [(128, 7#8)] := by
  have lane : (Iss.readAll (env loadThatDropsRecord) droppingIss true false [droppingAcc] recordDropped).1 =
      (Iss.readD recordDropped (env loadThatDropsRecord) droppingIss droppingAcc).1 := rfl
  obtain ⟨new, fill⟩ := Iss.readD_absent (h := recordDropped) (e := env loadThatDropsRecord) (s := droppingIss) (a := droppingAcc)
    (pa := 0x60000) rfl (by decide) (by decide +kernel) rfl
  have line : (wentHome.core 0).l1 = [(l1Key 1 1, { L1Line.empty with valid := 1#128, dirty := 1#128, bytes := [(0, 7#8)] })] := by
    decide +kernel
  have evicts := Hw.wq_fillL1_of_single (new := new) (ctx := 1) (line := lineOf 0x60000) line (by decide) wentHome_full
  have written : ({ wentHome with free := wentHome.free + 1 }.writeBackLine 0 (l1Key 1 1 / 2 ^ 45) (l1Key 1 1 % 2 ^ 45)).wq = [(128, 7#8)] :=
    (Hw.wq_writeBackLine (by decide +kernel) (by decide)).trans (by decide +kernel)
  rw [lane, fill]
  exact evicts.trans written

/-- The load changes memory. -/
theorem loadThatDropsRecord_writes : ∃ t, exec droppingLoad loadThatDropsRecord = .next t ∧ t.mem = [(128, 7#8)] := by
  obtain ⟨k, answer, writes⟩ := loadInto_writes (i := droppingLoad) (u := (Use.dst 16#7).wide 1) (sc := mScope 0#6) (z := 4)
    (addr := fun q n => q.mAddr 126#7 0#3 4 0#6 n) loadThatDropsRecord_issues droppingIss_popless v16_not_queued
    loadThatDropsRecord_passes
  refine ⟨_, answer, ?_⟩
  show flush k.wq [] = _
  rw [writes]
  exact (congrArg (flush · []) wq_readAll_recordDropped).trans (by decide)

/-! ## The obligation -/

/-- Refutes O15: of `loadThatDropsRecord`, where no line has to leave the L1 for the load, its clause of LD claims that memory stays
as it was, empty, while the load writes the dirty byte 7 of another line back to address 128. -/
theorem not_loadsReadWhatTheCoreSees : ¬ Obligations.LoadsReadWhatTheCoreSees := by
  unfold Obligations.LoadsReadWhatTheCoreSees
  rintro ⟨loads, -⟩
  obtain ⟨t, _, _, answer, -, -, -, -, -, kept⟩ := loads 16#7 126#7 4#3 0#6 loadThatDropsRecord droppingIss [droppingAcc]
    loadThatDropsRecord_issues v16_not_queued ⟨show Iss.ctx _ _ < 2 ^ 20 by decide, loadThatDropsRecord_passes⟩
  have unchanged : t.mem = [] := (kept loadThatDropsRecord_room).1.memory
  obtain ⟨u, written, changed⟩ := loadThatDropsRecord_writes
  obtain rfl := Host.Outcome.next.inj (written.symm.trans answer)
  rw [unchanged] at changed
  exact List.cons_ne_nil _ _ changed.symm

end Sys2Proof.Machine
end

section
/-! # What a step leaves in a uniform register -/
namespace Sys2Proof.Machine

/-- Uniform register `r` of warp `wk` once an instruction has answered a next state. -/
def uniformLeft (o : Host.Outcome State Fault Refusal) (wk r : Nat) : Option Word :=
  match o with
  | .next t => (t.hw.warp? wk).map (·.getU r)
  | _ => none

theorem uniformLeft_next {o : Host.Outcome State Fault Refusal} {t : State} {w : Warp} {wk r : Nat} (next : o = .next t)
    (warp : t.hw.warp? wk = some w) : uniformLeft o wk r = some (w.getU r) := by
  rw [next, uniformLeft, warp, Option.map_some]

end Sys2Proof.Machine
end

section
/-! # A tag read by no lane

A path whose mask is empty issues for no lane. A uniform destination of its TAGRD is written all the same, with 0, since there is no
address whose tile could be looked up. -/
namespace Sys2Proof.Machine

open Sys2Proof.Terms

/-- A warp whose path has no lane in its mask. -/
def emptyWarp : Warp := { newWarp 1 false 64 4 0 0 8 0x10000#64 0 with p0 := freshPath 0x10000#64 0#1024 }

/-- It is about to issue. -/
def emptyPathIssues : State :=
  { State.reset with hw := { Hw.reset.solo with cur := some ⟨wkOf 1 0 0, false⟩, warps := [(wkOf 1 0 0, emptyWarp)] } }
def emptyIss : Iss := ⟨wkOf 1 0 0, false, emptyWarp, newBlock 0 0 0 0 soloShape none 0 0 4096 0 1, []⟩

/-- TAGRD into w0 of the tile that v8 and v9 name. -/
def uniformTagrd : Instr := .tagrd 96#7 8#7 false

theorem emptyPathIssues_issues : Issues uniformTagrd emptyPathIssues emptyIss :=
  ⟨⟨rfl, rfl⟩, by decide +kernel, by decide +kernel, show Hw.wraps _ _ _ = false by decide +kernel, rfl⟩

/-- It leaves 0 in w0. -/
theorem uniformTagrd_leaves_zero : uniformLeft (exec uniformTagrd emptyPathIssues) (wkOf 1 0 0) 0 = some 0#32 := by
  decide +kernel

/-- Refutes O38: its clause of TAGRD claims the value of the lowest lane for a uniform destination even where no lane is active, so
that any place may be chosen for lane 0. Of `emptyPathIssues` and a place of tag 0x1000 it claims 0x1000 for w0, while w0 holds 0. -/
theorem not_tileTags : ¬ Obligations.TileTags := by
  unfold Obligations.TileTags
  rintro ⟨reads, -⟩
  obtain ⟨t, w, next, beside, -, -, -, -, delivered⟩ := reads 96#7 8#7 false emptyPathIssues emptyIss (fun _ => .alias_ 0)
    emptyPathIssues_issues (fun _ none_active => absurd none_active List.not_mem_nil)
  have tag : w.getU 0 = 0x1000#32 := (delivered 0).trans (by decide)
  have left := uniformLeft_next (r := 0) next beside.warp
  rw [tag] at left
  exact absurd (uniformTagrd_leaves_zero.symm.trans left) (by decide)

end Sys2Proof.Machine
end

section
/-! # A method entry in a dirty byte that is not valid

SETMT reads its image at the home: `Iss.homeward` first writes back its core's line, if any byte of it is valid (R181, R190;
log 49). A dirty byte of a line without a valid one stays where it is, and the image is read without it. -/
namespace Sys2Proof.Machine

open Sys2Proof.Terms

/-- A handler warp whose w0 and w1 hold the address of the image, with the entry's index 0 in w2. -/
def setmtWarp : Warp :=
  { newWarp 1 false 64 4 0 0 8 0x10000#64 0 with p0 := freshPath 0x10000#64 1#1024, mode := .handler, uregs := [(0, 0x20400#32)] }

/-- The image is all zeros in memory. In the core's L1 its line holds a dirty byte 1, with bit V set, that is not valid. -/
def setmtOverInvalidDirty : State :=
  { State.reset with hw := { Hw.reset.solo with
      cur := some ⟨wkOf 1 0 0, false⟩
      warps := [(wkOf 1 0 0, setmtWarp)]
      parts := [(0, { (Hw.reset.solo.part 0) with pmtcnt := 1 })]
      cores := [(0, { Core.reset with
        tlb := [⟨320, 0x20000, 16, 0x60131#64⟩]
        l1 := [(l1Key 320 (lineOf 0x60400), { L1Line.empty with dirty := 2#128, bytes := [(1, 0xFF#8)] })] })] } }
def setmtIss : Iss := ⟨wkOf 1 0 0, false, setmtWarp, newBlock 0 0 0 0 soloShape none 0 0 4096 0 1, [0]⟩

def imageAcc : Acc := ⟨0, 0x20400#64, 64, .mem 0x60400, 0x60131#64⟩

/-- SETMT of the entry into w3. -/
def uniformSetmt : Instr := .setmt 99#7 96#7

theorem setmtOverInvalidDirty_issues : Issues uniformSetmt setmtOverInvalidDirty setmtIss :=
  ⟨⟨rfl, rfl⟩, by decide +kernel, by decide +kernel, show Hw.wraps _ _ _ = false by decide +kernel, rfl⟩
theorem setmtOverInvalidDirty_locates :
    Iss.locate setmtOverInvalidDirty.hw (env setmtOverInvalidDirty) setmtIss ⟨false, false⟩ imageAcc.va 64 =
      .ok (imageAcc.loc, imageAcc.leaf) := by
  decide +kernel
theorem setmtOverInvalidDirty_reads : Iss.recordStop setmtOverInvalidDirty.hw setmtIss imageAcc = none := by decide +kernel

/-- SETMT answers 0. -/
theorem uniformSetmt_answers_zero : uniformLeft (exec uniformSetmt setmtOverInvalidDirty) (wkOf 1 0 0) 3 = some 0#32 := by
  decide +kernel

/-- Refutes O39: of `setmtOverInvalidDirty` its clause of SETMT claims the code 4 of the image with the byte that is dirty in the
L1, for w3, while that byte is not valid, the line is not written back and memory's zeros are set, with code 0. -/
theorem not_dispatchTables : ¬ Obligations.DispatchTables := by
  unfold Obligations.DispatchTables
  rintro ⟨-, sets⟩
  obtain ⟨t, w, next, warp, -, -, -, delivered, -⟩ := sets 99#7 96#7 setmtOverInvalidDirty setmtIss 0x60400 0x60131#64
    setmtOverInvalidDirty_issues rfl setmtOverInvalidDirty_locates setmtOverInvalidDirty_reads
  have code : w.getU 3 = 4#32 := (delivered.2 3).trans (by decide +kernel)
  have left := uniformLeft_next (r := 3) next warp
  rw [code] at left
  exact absurd (uniformSetmt_answers_zero.symm.trans left) (by decide)

end Sys2Proof.Machine
end

section
/-! # Tasks and guarded units

What an instruction leaves that changes no register and no other warp: MWAITA, TASK, TREADY, RESID and GCHK. -/
namespace Sys2Proof.Machine

open Sys2Proof.Terms

/-! ## An effect beside the warp -/

/-- What an instruction does before it goes on, where it changes no warp but for its own predicates, which become `ps`, no function,
no partition, no scratchpad byte and no byte of memory. -/
structure Steady (q : Iss) (s : State) (h : Hw) (ps : Tab Mask) : Prop where
  warp   : h.warp? q.wk = some { q.w with preds := ps }
  others : ∀ k, k ≠ q.wk → h.warp? k = s.hw.warp? k
  fns    : h.fns = s.hw.fns
  parts  : h.parts = s.hw.parts
  scr    : ∀ f c, (h.fcore f c).spad = (s.hw.fcore f c).spad
  wq     : h.wq = s.hw.wq

/-- What such an instruction that issues and goes on leaves of warp `q.wk`. -/
def Iss.gone (q : Iss) (i : Instr) (ps : Tab Mask) : Warp :=
  ((({ q.w with preds := ps }).setPath q.x { q.p with pc := q.next }).popTokens i).retired q.x q.p.pc

theorem Iss.gone_queue (q : Iss) (i : Instr) (ps : Tab Mask) (e : EngKind) : (q.gone i ps).queue e =
    if pops i e then { q.w.queue e with tokens := (q.w.queue e).tokens.tail } else q.w.queue e := by
  have before : (({ q.w with preds := ps }).setPath q.x { q.p with pc := q.next }).queue e = q.w.queue e := by
    cases q.x <;> cases e <;> rfl
  rw [Iss.gone, Warp.retired_queue, (Warp.popTokens_spec _ _).2, before]

theorem Iss.gone_path (q : Iss) (i : Instr) (ps : Tab Mask) :
    (q.gone i ps).path q.x = ({ q.p with pc := q.next } : Path).retired q.p.pc := by
  rw [Iss.gone, Warp.retired_path, (Warp.popTokens_spec _ _).1]
  congr 1
  cases q.x <;> rfl

theorem Iss.gone_other (q : Iss) (i : Instr) (ps : Tab Mask) : (q.gone i ps).path (!q.x) = q.w.path (!q.x) := by
  rw [Iss.gone, Warp.retired_other, (Warp.popTokens_spec _ _).1]
  cases q.x <;> rfl

/-- Only its predicates, its path and its queues differ. -/
theorem Iss.gone_eq (q : Iss) (i : Instr) (ps : Tab Mask) : q.gone i ps = { q.w with
    preds := ps, p0 := (q.gone i ps).p0, p1 := (q.gone i ps).p1, q0 := (q.gone i ps).q0, q2 := (q.gone i ps).q2
    q4 := (q.gone i ps).q4 } := by
  rw [Iss.gone, Warp.retired_eq, (Warp.popTokens_spec _ _).1]
  cases q.x <;> rfl

theorem iss_of_issues {i : Instr} {s : State} {q : Iss} (issues : Issues i s q) : Iss.of s.hw = some q := by
  obtain ⟨-, hq, -⟩ := issues
  exact hq
theorem room_of_issues {i : Instr} {s : State} {q : Iss} (issues : Issues i s q) : s.hw.wraps q.bk 1 = false := by
  obtain ⟨-, -, -, room, -⟩ := issues
  exact room

/-- An instruction with such an effect that issues answers a next state, which holds the units, tables and blocks of the effect. -/
theorem issue_beside {i : Instr} {s : State} {q : Iss} {f : Env → Hw → Iss → Except Stop Hw} {h : Hw} {ps : Tab Mask}
    (issues : Issues i s q) (effect : f (env s) s.hw q = .ok h) (steady : Steady q s h ps)
    (room : q.w.poppedRels i = [] ∨ h.wraps q.bk 1 = false) :
    ∃ t w, issue i s f = .next t ∧ Beside i q s t w ∧ RegsKept q w ∧ w.preds = ps ∧ t.mem = s.mem ∧
      t.hw.units = h.units ∧ t.hw.fcores = h.fcores ∧ (q.w.poppedRels i = [] → t.hw.blocks = h.blocks) := by
  obtain ⟨⟨-, unwritten⟩, hq, rank, -, unheld⟩ := issues
  obtain ⟨k, retired, answer⟩ := issue_next hq rank unheld effect (room.imp_left fun none => by simp [none])
  have left : k = { h with warps := k.warps, fns := k.fns, out := k.out, blocks := k.blocks, cores := k.cores, l2 := k.l2, tried := [] } :=
    retired.rest
  have unwritten : k.wq = [] := by rw [left]; exact steady.wq.trans unwritten
  have memory : flush k.wq s.mem = s.mem := by rw [unwritten]; rfl
  have warp : k.warp? q.wk = some (q.gone i ps) := by
    rw [retired.warp, Hw.goto, Hw.onPath, Hw.warp?_onWarp_same, steady.warp]
    simp only [Option.map_some]
    congr 4
  have fcore (g c : Nat) : k.fcore g c = h.fcore g c := by rw [left]; rfl
  have fn (g : Nat) : (s.hw.fn g).sameButCounters (k.fn g) := by
    have kept : (h.goto q.wk q.x q.next).fn g = s.hw.fn g := congrArg (Tab.getD · g Fn.reset) steady.fns
    exact kept ▸ retired.fns g
  have part (p : Nat) : k.part p = s.hw.part p := by rw [left, Hw.part, steady.parts]; rfl
  refine ⟨_, q.gone i ps, answer, ?_, ?_, by rw [Iss.gone_eq], memory, by rw [left], by rw [left], fun popless => ?_⟩
  · exact {
      warp := warp
      clock := rfl
      others := fun j hj => congrArg (Option.map unblockedWarp) <| (retired.others j hj).trans <|
        (Hw.warp?_onWarp_other _ _ hj).trans (steady.others j hj)
      kept := by rw [Iss.gone_eq]
      queues := fun e => by rw [Iss.gone_queue]; split <;> simp
      path := by rw [Iss.gone_path]; exact ⟨rfl, rfl, rfl, rfl⟩
      other := by rw [Iss.gone_other]
      fns := fun g => fn g
      parts := fun p => show k.part p = { s.hw.part p with pmolost := (k.part p).pmolost } by rw [part]
      scr := fun g c => (congrArg _ (fcore g c)).trans (steady.scr g c)
      bytes := fun x => .inl (congrArg (Tab.getD · x 0#8) memory) }
  · rw [Iss.gone_eq]; exact ⟨rfl, rfl, rfl⟩
  · exact (retired.quiet (by rw [popless]; rfl)).1

/-- An effect that leaves the warps leaves the issuing warp's predicates too. -/
theorem Steady.of_warps {q : Iss} {s : State} {h : Hw} (hq : Iss.of s.hw = some q) (warps : h.warps = s.hw.warps)
    (fns : h.fns = s.hw.fns) (parts : h.parts = s.hw.parts) (scr : ∀ f c, (h.fcore f c).spad = (s.hw.fcore f c).spad)
    (wq : h.wq = s.hw.wq) : Steady q s h q.w.preds where
  warp := (congrArg (Tab.find? · q.wk) warps).trans (Iss.of_warp hq)
  others k _ := congrArg (Tab.find? · k) warps
  fns := fns
  parts := parts
  scr := scr
  wq := wq

/-! ## MWAITA -/

/-- At most blocks and caches differ: what acquires and the interval counter change. -/
def Hw.acquiresOnly (h k : Hw) : Prop := k = { h with blocks := k.blocks, cores := k.cores, l2 := k.l2 }

theorem Hw.acquiresOnly_refl (h : Hw) : h.acquiresOnly h := rfl
theorem Hw.acquiresOnly_trans {h k l : Hw} (a : h.acquiresOnly k) (b : k.acquiresOnly l) : h.acquiresOnly l := by
  unfold Hw.acquiresOnly at *
  rw [b, a]
theorem Hw.acquiresOnly_acquireRec (h : Hw) (bk u : Nat) (sc : Scope) (r : RelRec) : h.acquiresOnly (h.acquireRec bk u sc r) := by
  unfold Hw.acquiresOnly
  rw [Hw.acquireRec_eq]
theorem Hw.acquiresOnly_acquireSync (h : Hw) (core ctx : Nat) (sc : Scope) : h.acquiresOnly (h.acquireSync core ctx sc) := by
  unfold Hw.acquiresOnly
  rw [Hw.acquireSync_eq]
theorem Hw.acquiresOnly_advance (h : Hw) (bk : Nat) : h.acquiresOnly (h.advance bk) := rfl
theorem Hw.acquiresOnly_foldl {α : Type} (f : Hw → α → Hw) (hf : ∀ (h : Hw) x, h.acquiresOnly (f h x)) (l : List α) (h : Hw) :
    h.acquiresOnly (l.foldl f h) := by
  induction l generalizing h with
  | nil => exact h.acquiresOnly_refl
  | cons x l ih => exact Hw.acquiresOnly_trans (hf h x) (ih _)

/-- Such a change is an effect beside the warp. -/
theorem Steady.of_acquiresOnly {q : Iss} {s : State} {h : Hw} (hq : Iss.of s.hw = some q) (only : s.hw.acquiresOnly h) :
    Steady q s h q.w.preds :=
  .of_warps hq (by rw [only]) (by rw [only]) (by rw [only]) (fun _ _ => by rw [only]; rfl) (by rw [only])

/-- MWAITA that has nothing to wait for succeeds, and acquires. -/
theorem mwaita_goes {s : State} {q : Iss} (issues : Issues .mwaita s q) (idle : q.w.mseq = 0) (sound : q.w.q0.failure = none) :
    ∃ t w, exec .mwaita s = .next t ∧ Beside .mwaita q s t w ∧ RegsKept q w ∧ w.preds = q.w.preds ∧ t.mem = s.mem := by
  have room : s.hw.wraps q.bk 1 = false := room_of_issues issues
  have effect : ∃ f, execMwaita s = issue .mwaita s f ∧ ∃ h, f (env s) s.hw q = .ok h ∧ s.hw.acquiresOnly h := by
    refine ⟨_, rfl, ?_⟩
    simp only [idle, room, sound, ne_eq, not_true_eq_false, ↓reduceIte, Bool.and_false, Bool.false_eq_true]
    split
    · exact ⟨_, rfl, Hw.acquiresOnly_refl _⟩
    · have records := Hw.acquiresOnly_foldl _ (fun h (r : Scope × RelRec) => h.acquiresOnly_acquireRec q.bk q.widx r.1 r.2)
      exact ⟨_, rfl, Hw.acquiresOnly_trans (Hw.acquiresOnly_trans (records _ _) (Hw.acquiresOnly_acquireSync _ _ _ _))
        (Hw.acquiresOnly_advance _ _)⟩
  obtain ⟨f, hf, h, effect, only⟩ := effect
  obtain ⟨t, w, next, beside, regs, preds, memory, -⟩ := issue_beside issues effect (.of_acquiresOnly (iss_of_issues issues) only) (.inl rfl)
  exact ⟨t, w, hf.trans next, beside, regs, preds, memory⟩

/-- A path that starts to wait waits. -/
theorem waits_waitOn {s : State} {q : Iss} (hq : Iss.of s.hw = some q) (r : Nat) : Waits q (s.after (s.hw.waitOn q.wk q.x r)) r := by
  refine ⟨q.w.setPath q.x { q.p with stall := r, later := 0#32, ticket := none }, ?_, ?_⟩
  · exact (Hw.warp?_onWarp_same _ _ _).trans (by rw [Iss.of_warp hq]; rfl)
  · rw [Warp.setPath_path]
    refine ⟨rfl, rfl, rfl, ?_, ?_, ?_, ?_, List.mem_cons_self⟩ <;> cases q.x <;> rfl

theorem mwaita_waits {s : State} {q : Iss} (issues : Issues .mwaita s q) (busy : q.w.mseq ≠ 0) :
    ∃ t r, exec .mwaita s = .next t ∧ (r = 10 ∨ r = 14) ∧ Waits q t r ∧ t.mem = s.mem := by
  obtain ⟨⟨-, unwritten⟩, hq, rank, -, unheld⟩ := issues
  have answer : execMwaita s =
      .next (s.after (s.hw.waitOn q.wk q.x (if (s.hw.fcore q.fn q.core).lent.isSome then 14 else 10))) := by
    simp only [execMwaita, issue, issueCtl, State.run, hq, rank, unheld, bind, Except.bind, ne_eq, busy, not_false_eq_true,
      ↓reduceIte, settle]
    rfl
  refine ⟨_, _, answer, by split <;> simp, waits_waitOn hq _, ?_⟩
  · show flush s.hw.wq s.mem = s.mem
    rw [unwritten]; rfl

/-! ## TASK -/

theorem Iss.grp_eq (q : Iss) (a : RField) (j : Nat) : q.grp a j = groupAt q a j := by
  simp only [Iss.grp, groupAt, Warp.uIndex, Warp.xiOf, Use.group, Bool.false_eq_true, ↓reduceIte, Nat.add_zero]

/-- The byte of a word that an input of TASK is. -/
theorem byte_extract (w : Word) (j : Nat) : (w.extractLsb' (8 * j) 8).toNat = w.toNat / 256 ^ j % 256 := by
  rw [BitVec.extractLsb'_toNat, Nat.shiftRight_eq_div_pow, Nat.pow_mul]

theorem and_low (w : Word) {n : Nat} (small : n ≤ 32) : (w &&& BitVec.ofNat 32 (2 ^ n - 1)).toNat = w.toNat % 2 ^ n := by
  have le : 2 ^ n ≤ 2 ^ 32 := Nat.pow_le_pow_right (by decide) small
  have pos : 0 < 2 ^ n := Nat.two_pow_pos n
  rw [BitVec.toNat_and, BitVec.toNat_ofNat, Nat.mod_eq_of_lt (by omega), Nat.and_two_pow_sub_one_eq_mod]

/-- A table of a core and function whose scratchpad stays. -/
theorem Hw.spad_onFCore (h : Hw) (f c : Nat) (g : FCore → FCore) (keeps : (g (h.fcore f c)).spad = (h.fcore f c).spad) (f' c' : Nat) :
    ((h.onFCore f c g).fcore f' c').spad = (h.fcore f' c').spad := by
  by_cases key : fcKey f' c' = fcKey f c
  · have same : h.fcore f' c' = h.fcore f c := by rw [Hw.fcore, key]; rfl
    rw [Hw.fcore, key, same, ← keeps]
    exact congrArg _ (Hw.fcore_onFCore_same h f c g)
  · rw [Hw.fcore, Hw.onFCore, Tab.getD_put_other _ _ _ key]; rfl

theorem task_goes {a b : RField} {s : State} {q : Iss} (issues : Issues (.task a b) s q) :
    let v := groupAt q a 0
    let kind := v.toNat % 4
    let ins := (List.range (v.toNat / 4 % 8)).map fun j => (groupAt q a 1).toNat / 256 ^ j % 256
    let n := if kind = 3 then 1 else (groupAt q b 0).toNat % 32
    v.toNat < 32 → v.toNat / 4 % 8 ≤ 4 → (∀ k, depEngine kind = some k → hdrBad k (groupAt q b 0) = false ∧ (q.w.queue k).staging = []) →
    q.w.inBounds (Use.group b n) = true → (kind = 3 → (groupAt q b 0).toNat % 2 ^ 11 < q.b.shape.bars) →
    (∀ u ∈ ins, 4096 * (u + 1) ≤ q.b.spBytes) → (s.hw.fcore q.fn q.core).deps.length < 64 →
    s.hw.roomTaken q.wk 13 (roomKey q.core none) = false →
    ∃ t w, exec (.task a b) s = .next t ∧ Beside (.task a b) q s t w ∧ RegsKept q w ∧ w.preds = q.w.preds ∧ t.mem = s.mem ∧
      ∃ d, (t.hw.fcore q.fn q.core).deps = (s.hw.fcore q.fn q.core).deps ++ [d] ∧ d.kind = kind ∧ d.wk = q.wk ∧ d.ins = ins ∧
        d.cmd = (List.range n).map (groupAt q b) ∧ d.rmode.toNat = q.w.rmode.toNat % 16 ∧ d.nbv.toNat = q.w.nbv.toNat % 4 ∧
        d.age = (s.hw.fcore q.fn q.core).age ∧ (t.hw.fcore q.fn q.core).age = (s.hw.fcore q.fn q.core).age + 1 := by
  intro v kind ins n small few sound bound barrier inside room free
  let entry : DepEntry := ⟨kind, q.wk, q.x, ins, (List.range n).map (groupAt q b), q.w.rmode &&& 0xF#32, q.w.nbv &&& 3#32,
    (s.hw.fcore q.fn q.core).age⟩
  have effect : ∃ f, execTask a b s = issue (.task a b) s f ∧ f (env s) s.hw q = .ok (s.hw.onFCore q.fn q.core fun f =>
      { f with deps := f.deps ++ [entry], age := f.age + 1 }) := by
    refine ⟨_, rfl, ?_⟩
    have kindEq : ((groupAt q a 0).extractLsb' 0 2).toNat = kind := by simp [kind, v]
    have countEq : ((groupAt q a 0).extractLsb' 2 3).toNat = v.toNat / 4 % 8 := by
      rw [BitVec.extractLsb'_toNat, Nat.shiftRight_eq_div_pow]
    have lengthEq : hdrLen (groupAt q b 0) = (groupAt q b 0).toNat % 32 := by simp [hdrLen]
    have barEq : ((groupAt q b 0).extractLsb' 0 11).toNat = (groupAt q b 0).toNat % 2 ^ 11 := by simp
    have insEq : ((List.range (v.toNat / 4 % 8)).map fun j => ((groupAt q a 1).extractLsb' (8 * j) 8).toNat) = ins := by
      simp only [byte_extract, ins]
    have upper : (groupAt q a 0).extractLsb' 5 27 = 0#27 := by
      apply BitVec.eq_of_toNat_eq
      rw [BitVec.extractLsb'_toNat, Nat.shiftRight_eq_div_pow, Nat.div_eq_of_lt small]; rfl
    have unpaired : (match depEngine kind with
      | some k => hdrBad k (groupAt q b 0) || !(q.w.queue k).staging.isEmpty
      | none => false) = false := by
      cases engine : depEngine kind with
      | none => rfl
      | some k => obtain ⟨good, rest⟩ := sound k engine; simp [good, rest]
    have inRange : ins.any (fun u => decide (q.b.spBytes < 4096 * (u + 1))) = false := by
      simpa using inside
    simp only [Iss.grp_eq, kindEq, countEq, lengthEq, barEq, insEq, upper]
    have within : (!q.w.inBounds (Use.group b n)) = false := by rw [bound]; rfl
    refine (if_neg ?_).trans <| (if_neg fun out => Bool.false_ne_true (within.symm.trans out)).trans <| (if_neg ?_).trans <|
      (if_neg ?_).trans rfl
    · rintro (reserved | many | paired)
      · exact reserved rfl
      · exact absurd few (Nat.not_le.mpr many)
      · exact Bool.false_ne_true (unpaired.symm.trans paired)
    · rintro (⟨three, beyond⟩ | outside)
      · exact absurd (barrier three) (Nat.not_lt.mpr beyond)
      · exact Bool.false_ne_true (inRange.symm.trans outside)
    · rintro (full | taken)
      · exact absurd room (Nat.not_lt.mpr full)
      · exact Bool.false_ne_true (free.symm.trans taken)
  obtain ⟨f, hf, effect⟩ := effect
  obtain ⟨t, w, next, beside, regs, preds, memory, -, tables, -⟩ := issue_beside issues effect
    (.of_warps (iss_of_issues issues) rfl rfl rfl (Hw.spad_onFCore _ _ _ _ rfl) rfl) (.inr (room_of_issues issues))
  have table : t.hw.fcore q.fn q.core = { s.hw.fcore q.fn q.core with
      deps := (s.hw.fcore q.fn q.core).deps ++ [entry], age := (s.hw.fcore q.fn q.core).age + 1 } := by
    rw [Hw.fcore, tables]
    exact Hw.fcore_onFCore_same _ _ _ _
  exact ⟨t, w, hf.trans next, beside, regs, preds, memory, entry, by rw [table], rfl, rfl, rfl, rfl,
    and_low (n := 4) _ (by decide), and_low (n := 2) _ (by decide), rfl, by rw [table]⟩

/-! ## TREADY -/

/-- What issues is legal. -/
theorem legal_of_issues {i : Instr} {s : State} {q : Iss} (issues : Issues i s q) : Instr.legal q.w.xi.toNat i = true := by
  obtain ⟨-, -, rank, -⟩ := issues
  cases legal : Instr.legal q.w.xi.toNat i with
  | true => rfl
  | false =>
    rw [Iss.rank2, Machine.rank2, legal, Bool.false_and, if_neg Bool.false_ne_true] at rank
    cases rank

/-- The unit word of TREADY is no pop register. -/
theorem tready_popless {a : RField} {q : Iss} (legal : Instr.legal q.w.xi.toNat (.tready a) = true) :
    q.w.poppedRels (.tready a) = [] := by
  have uniform : a.toNat < 120 := by
    simp only [Instr.legal, Instr.uses, List.all_cons, Use.legal, Use.group, RKind.allows, Bool.and_eq_true, decide_eq_true_eq] at legal
    exact legal.2.1.1.2
  have others (v : Nat) (hv : 120 ≤ v) : ((Instr.uses (.tready a)).any fun u => u.rd && u.r.toNat == v) = false := by
    simp [Instr.uses, Use.group]; omega
  simp only [Warp.poppedRels, List.filterMap_cons, List.filterMap_nil, others 121 (by decide), others 123 (by decide),
    others 125 (by decide), Bool.false_eq_true, ↓reduceIte]

/-- The ready bits once those of the units `us` are set with a record, or cleared. -/
theorem Tab.has_marked {α : Type} (on : Bool) (r : α) (us : List Nat) (t : Tab α) (u : Nat) :
    Tab.has (us.foldl (fun t u => if on then Tab.put t u r else Tab.del t u) t) u = if u ∈ us then on else Tab.has t u := by
  induction us generalizing t with
  | nil => rfl
  | cons k us ih =>
    rw [List.foldl_cons, ih]
    by_cases later : u ∈ us
    · simp [later]
    · by_cases now : u = k
      · subst now; cases on <;> simp [later, Tab.has]
      · cases on <;> simp [later, now, Tab.has, Tab.find?_put_other, Tab.find?_del_other]

theorem tready_marks {a : RField} {s : State} {q : Iss} (issues : Issues (.tready a) s q)
    (unheld : s.hw.elemsOf q.wk = false) :
    let first := (groupAt q a 0).toNat % 256
    let n := (groupAt q a 0).toNat / 256 % 256 + 1
    4096 * (first + n) ≤ q.b.spBytes →
    ∃ t w c, exec (.tready a) s = .next t ∧ Beside (.tready a) q s t w ∧ RegsKept q w ∧ w.preds = q.w.preds ∧ t.mem = s.mem ∧
      t.hw.block? q.bk = some c ∧ c.c = q.b.c + 1 ∧ ∀ u, Tab.has c.ready u =
        if first ≤ u ∧ u < first + n then (groupAt q a 0).getLsbD 31 else Tab.has q.b.ready u := by
  intro first n inside
  have popless := tready_popless (legal_of_issues issues)
  let marked (b : Block) : Block := { b with
    ready := ((List.range n).map (first + ·)).foldl (fun t u => if (groupAt q a 0).getLsbD 31
      then Tab.put t u (q.b.snapshot q.fn q.slot q.widx .block q.bk) else Tab.del t u) b.ready }
  have effect : ∃ f, execTready a s = issue (.tready a) s f ∧
      f (env s) s.hw q = .ok ((s.hw.onBlock q.bk marked).advance q.bk) := by
    refine ⟨_, rfl, ?_⟩
    have firstEq : ((groupAt q a 0).extractLsb' 0 8).toNat = first := by simp [first]
    have countEq : ((groupAt q a 0).extractLsb' 8 8).toNat + 1 = n := by
      rw [BitVec.extractLsb'_toNat, Nat.shiftRight_eq_div_pow]
    have roomy : s.hw.wraps q.bk 1 = false := room_of_issues issues
    simp only [Iss.grp_eq, firstEq, countEq, List.length_map, List.length_range]
    refine (if_neg (Nat.not_lt.mpr inside)).trans <| (if_neg fun wraps => Bool.false_ne_true (roomy.symm.trans wraps)).trans <|
      (if_neg fun held => Bool.false_ne_true (unheld.symm.trans held)).trans rfl
  obtain ⟨f, hf, effect⟩ := effect
  obtain ⟨t, w, next, beside, regs, preds, memory, -, -, blocks⟩ := issue_beside issues effect
    (.of_warps (iss_of_issues issues) rfl rfl rfl (fun _ _ => rfl) rfl) (.inl popless)
  have block : t.hw.block? q.bk = some { marked q.b with c := q.b.c + 1 } := by
    have left : t.hw.block? q.bk = ((s.hw.onBlock q.bk marked).advance q.bk).block? q.bk := congrArg (Tab.find? · q.bk) (blocks popless)
    rw [left, Hw.advance, Hw.block?_onBlock_same, Hw.block?_onBlock_same, Iss.of_block (iss_of_issues issues)]; rfl
  refine ⟨t, w, _, hf.trans next, beside, regs, preds, memory, block, rfl, fun u => ?_⟩
  have member : u ∈ (List.range n).map (first + ·) ↔ first ≤ u ∧ u < first + n := by
    simp only [List.mem_map, List.mem_range]
    constructor
    · rintro ⟨j, hj, rfl⟩; omega
    · rintro ⟨lo, hi⟩; exact ⟨u - first, by omega, by omega⟩
  exact (Tab.has_marked _ _ _ _ u).trans (if_congr member rfl rfl)

/-! ## RESID and GCHK -/

/-- The magnitude of an FP32 operand: above 0x7F800000 it is a NaN. -/
def magnitude (x : Word) : Nat := x.toNat % 2 ^ 31

section
variable {nbv : Nat} {res : Word}

theorem residOf_of_nan (x : Word) (nan : 0x7F800000 < res.toNat) : residOf nbv res x = res := if_pos nan

variable (unflushed : nbv ≠ 1)
include unflushed

/-- Where operands are not flushed, a number becomes the greater of itself and the operand's magnitude, or a NaN. -/
theorem residOf_eq (x : Word) (number : res.toNat ≤ 0x7F800000) : residOf nbv res x =
    if 0x7F800000 < magnitude x then 0x7FC00000#32 else if res.toNat < magnitude x then BitVec.ofNat 32 (magnitude x) else res := by
  have raw : Fmt.fp32.flushIn nbv x.toNat = x.toNat := by simp [Fmt.flushIn, Fmt.fl, unflushed]
  rw [residOf, raw, if_neg (Nat.not_lt.mpr number)]
  rfl

theorem residOf_number {x : Word} (number : res.toNat ≤ 0x7F800000) (operand : magnitude x ≤ 0x7F800000) :
    (residOf nbv res x).toNat = max res.toNat (magnitude x) ∧ (residOf nbv res x = res ∨ (residOf nbv res x).toNat = magnitude x) := by
  rw [residOf_eq unflushed x number, if_neg (Nat.not_lt.mpr operand)]
  split
  · have value : (BitVec.ofNat 32 (magnitude x)).toNat = magnitude x := by rw [BitVec.toNat_ofNat]; omega
    exact ⟨by omega, .inr value⟩
  · exact ⟨by omega, .inl rfl⟩

variable (val : Nat → Word)

/-- A NaN among the operands makes the residual a NaN, which it then stays. -/
theorem resid_of_nan (l : List Nat) (number : res.toNat ≤ 0x7F800000) (nan : ∃ n ∈ l, 0x7F800000 < magnitude (val n)) :
    l.foldl (fun r n => residOf nbv r (val n)) res = 0x7FC00000#32 := by
  have stays (l : List Nat) : l.foldl (fun r n => residOf nbv r (val n)) 0x7FC00000#32 = 0x7FC00000#32 := by
    induction l with
    | nil => rfl
    | cons n l ih => rw [List.foldl_cons, residOf_of_nan _ (by decide), ih]
  induction l generalizing res with
  | nil => obtain ⟨n, hn, -⟩ := nan; exact absurd hn List.not_mem_nil
  | cons n l ih =>
    rw [List.foldl_cons]
    by_cases now : 0x7F800000 < magnitude (val n)
    · rw [residOf_eq unflushed _ number, if_pos now, stays]
    · have greater := (residOf_number unflushed number (Nat.not_lt.mp now)).1
      refine ih (by omega) ?_
      obtain ⟨m, hm, nan⟩ := nan
      rcases List.mem_cons.mp hm with rfl | hm
      · exact absurd nan now
      · exact ⟨m, hm, nan⟩

/-- Numbers make it the greatest of them and itself. -/
theorem resid_of_numbers (l : List Nat) (number : res.toNat ≤ 0x7F800000) (operands : ∀ n ∈ l, magnitude (val n) ≤ 0x7F800000) :
    let r := l.foldl (fun r n => residOf nbv r (val n)) res
    res.toNat ≤ r.toNat ∧ (∀ n ∈ l, magnitude (val n) ≤ r.toNat) ∧ (r = res ∨ ∃ n ∈ l, r.toNat = magnitude (val n)) := by
  induction l generalizing res with
  | nil => exact ⟨le_rfl, fun n hn => absurd hn List.not_mem_nil, .inl rfl⟩
  | cons n l ih =>
    obtain ⟨greater, from_⟩ := residOf_number unflushed number (operands n List.mem_cons_self)
    have bound := operands n List.mem_cons_self
    obtain ⟨least, all, reached⟩ := ih (res := residOf nbv res (val n)) (by omega) fun m hm => operands m (List.mem_cons_of_mem _ hm)
    rw [List.foldl_cons]
    refine ⟨by omega, List.forall_mem_cons.mpr ⟨by omega, all⟩, ?_⟩
    rcases reached with same | ⟨m, hm, value⟩
    · rcases from_ with old | new
      · exact .inl (same.trans old)
      · exact .inr ⟨n, List.mem_cons_self, (congrArg BitVec.toNat same).trans new⟩
    · exact .inr ⟨m, List.mem_cons_of_mem _ hm, value⟩

end

theorem resid_raises {i x : Bool} {a : RField} {s : State} {q : Iss} {u : Nat} {g : GUnit} (issues : Issues (.resid i a x) s q)
    (unit : s.hw.unitOf q.b = some u) (hg : Tab.find? s.hw.units u = some g) (unsealed : g.sealed = false) (unflushed : q.w.nbv ≠ 1#32)
    (number : g.res.toNat ≤ 0x7F800000) :
    ∃ t w g', exec (.resid i a x) s = .next t ∧ Beside (.resid i a x) q s t w ∧ RegsKept q w ∧ w.preds = q.w.preds ∧ t.mem = s.mem ∧
      Tab.find? t.hw.units u = some g' ∧ g' = { g with res := g'.res } ∧
      ((∃ n ∈ q.lanes, 0x7F800000 < (q.ra a x i n).toNat % 2 ^ 31) → g'.res = 0x7FC00000#32) ∧
      ((∀ n ∈ q.lanes, (q.ra a x i n).toNat % 2 ^ 31 ≤ 0x7F800000) → g.res.toNat ≤ g'.res.toNat ∧
        (∀ n ∈ q.lanes, (q.ra a x i n).toNat % 2 ^ 31 ≤ g'.res.toNat) ∧
        (g'.res = g.res ∨ ∃ n ∈ q.lanes, g'.res.toNat = (q.ra a x i n).toNat % 2 ^ 31)) := by
  have effect : ∃ f, execResid i a x s = issue (.resid i a x) s f ∧ f (env s) s.hw q = .ok (s.hw.onUnit u fun g =>
      if g.sealed then g else { g with res := q.lanes.foldl (fun r n => residOf q.w.nbv.toNat r (q.ra a x i n)) g.res }) :=
    ⟨_, rfl, by simp only [unit]⟩
  obtain ⟨f, hf, effect⟩ := effect
  obtain ⟨t, w, next, beside, regs, preds, memory, units, -, -⟩ := issue_beside issues effect
    (.of_warps (iss_of_issues issues) rfl rfl rfl (fun _ _ => rfl) rfl) (.inr (room_of_issues issues))
  have found : Tab.find? t.hw.units u = some { g with res := q.lanes.foldl (fun r n => residOf q.w.nbv.toNat r (q.ra a x i n)) g.res } := by
    rw [units, Hw.onUnit, Tab.find?_modify_same, hg, Option.map_some, unsealed]
    rfl
  have unflushed : q.w.nbv.toNat ≠ 1 := fun one => unflushed (BitVec.eq_of_toNat_eq one)
  exact ⟨t, w, _, hf.trans next, beside, regs, preds, memory, found, rfl, resid_of_nan unflushed _ _ number,
    resid_of_numbers unflushed _ _ number⟩

theorem gchk_seals {p : BitVec 3} {s : State} {q : Iss} {u : Nat} {g : GUnit} (issues : Issues (.gchk p) s q)
    (unit : s.hw.unitOf q.b = some u) (hg : Tab.find? s.hw.units u = some g) :
    ∃ t w g', exec (.gchk p) s = .next t ∧ Beside (.gchk p) q s t w ∧ RegsKept q w ∧ t.mem = s.mem ∧ Tab.find? t.hw.units u = some g' ∧
      g' = { g with sealed := true, verdict := g'.verdict } ∧
      g'.verdict = (if g.sealed then g.verdict else decide (g.res.toNat ≤ 0x7F800000 ∧ g.res.toNat ≤ g.gtol.toNat % 2 ^ 31)) ∧
      ∀ m l, l < 1024 → (w.getP m).getLsbD l = if m = p.toNat ∧ m ≠ 0 ∧ l ∈ q.lanes then g'.verdict else (q.w.getP m).getLsbD l := by
  have sealed : Tab.find? (s.hw.onUnit u GUnit.seal).units u = some g.seal := by
    rw [Hw.onUnit, Tab.find?_modify_same, hg, Option.map_some]
  have effect : ∃ f, execGchk p s = issue (.gchk p) s f ∧ f (env s) s.hw q =
      .ok ((s.hw.onUnit u GUnit.seal).onWarp q.wk fun w => w.setP p.toNat q.lanes fun _ => g.seal.verdict) :=
    ⟨_, rfl, by simp only [unit, sealed]⟩
  obtain ⟨f, hf, effect⟩ := effect
  have steady : Steady q s ((s.hw.onUnit u GUnit.seal).onWarp q.wk fun w => w.setP p.toNat q.lanes fun _ => g.seal.verdict)
      (q.w.setP p.toNat q.lanes fun _ => g.seal.verdict).preds := {
    warp := by
      have here : (s.hw.onUnit u GUnit.seal).warp? q.wk = some q.w := Iss.of_warp (iss_of_issues issues)
      rw [Hw.warp?_onWarp_same, here, Option.map_some, Warp.setP_eq]
    others := fun k hk => Hw.warp?_onWarp_other _ _ hk
    fns := rfl, parts := rfl, scr := fun _ _ => rfl, wq := rfl }
  obtain ⟨t, w, next, beside, regs, preds, memory, units, -, -⟩ := issue_beside issues effect steady (.inl rfl)
  refine ⟨t, w, g.seal, hf.trans next, beside, regs, memory, (congrArg (Tab.find? · u) units).trans sealed, ?_, ?_, fun m l hl => ?_⟩
  · unfold GUnit.seal; split
    · next h => rw [← h]
    · rfl
  · unfold GUnit.seal; split
    · rfl
    · simp
  · have same : w.getP m = (q.w.setP p.toNat q.lanes fun _ => g.seal.verdict).getP m := by rw [Warp.getP, preds]; rfl
    rw [same, Warp.getP_setP _ _ _ _ _ hl]

/-! ## The obligation -/

/-- Settles O37, an instruction at a time: each but the waiting MWAITA has an effect beside its warp. -/
theorem tasksAndUnits : Obligations.TasksAndUnits := by
  unfold Obligations.TasksAndUnits
  exact ⟨fun _ _ issues _ => mwaita_goes issues, fun _ _ => mwaita_waits, fun _ _ _ _ => task_goes,
    fun _ _ _ issues _ => tready_marks issues, fun _ _ _ _ _ _ _ => resid_raises, fun _ _ _ _ _ => gchk_seals⟩

end Sys2Proof.Machine
end

section
/-! # Waiting for a place, and reports

What the distributor does where no block fits, and what a core's report changes (R117, R120, R125). -/
namespace Sys2Proof.Machine

open Sys2Proof.Terms

/-! ## Waiting -/

section
variable {s : State} {p f gid n : Nat} {g : Grid} {rest : List (Nat × Grid)}

/-- Where no waiting grid's next block fits, none is placed. -/
theorem Hw.placeFirst_none {h : Hw} {e : Env} {l : List (Nat × Grid)} (none_ : ∀ x ∈ l, h.placeOne e x.1 x.2 = none) :
    h.placeFirst e l = none := by
  induction l with
  | nil => rfl
  | cons x l ih =>
    obtain ⟨unfit, later⟩ := List.forall_mem_cons.mp none_
    rw [Hw.placeFirst, unfit]
    exact ih later

/-- The distributor looks at the oldest waiting grid alone once it has waited its limit, and at each otherwise. -/
def oldestFirst (l : List (Nat × Grid)) : List (Nat × Grid) :=
  match l with
  | x :: _ => if x.2.limited then [x] else l
  | [] => []

theorem oldestFirst_cons (x : Nat × Grid) (l : List (Nat × Grid)) : ∃ r, oldestFirst (x :: l) = x :: r ∧ ∀ y ∈ r, y ∈ l := by
  by_cases limited : x.2.limited = true
  · exact ⟨[], if_pos limited, fun _ hy => absurd hy List.not_mem_nil⟩
  · exact ⟨l, if_neg limited, fun _ hy => hy⟩

/-- The first of the grids that were looked at starts to wait, where it does not fit and does not wait yet. -/
def Hw.startWait (h : Hw) (e : Env) (l : List (Nat × Grid)) (k : Hw) : Hw :=
  match l with
  | (gid, g) :: _ =>
    if (h.placeOne e gid g).isNone && g.waitSince.isNone then k.onGrid gid fun g => { g with waitSince := some e.clk.tick } else k
  | [] => k

theorem blockPlacement_eq {e : Env} {h : Hw} {f : Nat} (places : h.placing h.occ.unit = some f) : blockPlacement e h =
    match h.placeFirst e (oldestFirst (h.waitingGrids f)) with
    | some k =>
      if ((h.startWait e (oldestFirst (h.waitingGrids f)) k).waitingGrids f).isEmpty then
        h.startWait e (oldestFirst (h.waitingGrids f)) k
      else
        (h.startWait e (oldestFirst (h.waitingGrids f)) k).place (h.startWait e (oldestFirst (h.waitingGrids f)) k).occ.unit
    | none => h.startWait e (oldestFirst (h.waitingGrids f)) h := by
  unfold blockPlacement
  rw [places]
  rfl

theorem turns_blockPlacement_waits (hs : s.Inv) (hp : p = s.hw.occ.unit) (places : s.hw.placing p = some f)
    (waiting : s.hw.waitingGrids f = (gid, g) :: rest) (unfit : ∀ x ∈ (gid, g) :: rest, s.hw.placeOne (env s) x.1 x.2 = none)
    (fresh : g.waitSince = none) :
    Turns .blockPlacement s (s.hw.onGrid gid fun g => { g with waitSince := some s.clk.tick }) := by
  subst hp
  obtain ⟨r, order, sub⟩ := oldestFirst_cons (gid, g) rest
  obtain ⟨first, later⟩ := List.forall_mem_cons.mp unfit
  refine turns_of_event rfl ?_ hs.2
  rw [blockPlacement_eq places, waiting, order,
    Hw.placeFirst_none (List.forall_mem_cons.mpr ⟨first, fun y hy => later y (sub y hy)⟩)]
  exact if_pos (by rw [first, fresh]; rfl)

theorem turns_placementWaitLimit (hs : s.Inv) (hp : p = s.hw.occ.unit) (places : s.hw.placing p = some f)
    (waiting : s.hw.waitingGrids f = (gid, g) :: rest) (since : g.waitSince = some n) (due : n + 100000 ≤ s.clk.tick) :
    Turns .placementWaitLimit s (s.hw.onGrid gid fun g => { g with limited := true }) := by
  subst hp
  refine turns_of_event rfl ?_ hs.2
  simp only [placementWaitLimit, places, waiting, since]
  exact if_pos due
end

/-! ## Reports -/

/-- What a core reports does not depend on its last report. -/
theorem Hw.view_onFCore (h : Hw) (f c : Nat) (g : FCore → FCore)
    (same : (g (h.fcore f c)).ghosts = (h.fcore f c).ghosts ∧ (g (h.fcore f c)).split = (h.fcore f c).split) :
    (h.onFCore f c g).view f c = h.view f c := by
  obtain ⟨ghosts, split⟩ := same
  simp only [Hw.view, Hw.fcore_onFCore_same, ghosts, split]
  rfl

theorem Hw.fcore_onFCore_other (h : Hw) {f c f' c' : Nat} (g : FCore → FCore) (other : fcKey f' c' ≠ fcKey f c) :
    (h.onFCore f c g).fcore f' c' = h.fcore f' c' := Tab.getD_put_other _ _ _ other

section
variable (h : Hw) (f c : Nat)

/-- What freed blocks held is free, and a core without a block of the function has its scratchpad back at 128 KiB. -/
def Hw.returned : Hw := h.onFCore f c fun x => { x with
  ghosts := [], split := if !h.blocks.any (fun x => bkFn x.1 == f && x.2.core == c) then 128 else x.split }
/-- The core has reported that. -/
def Hw.reported : Hw := (h.returned f c).onFCore f c fun x => { x with report := ((h.returned f c).view f c).report }

theorem Hw.fcore_reported : (h.reported f c).fcore f c = { h.fcore f c with
    ghosts := [], report := ((h.reported f c).view f c).report
    split := if h.blocks.any (fun x => bkFn x.1 == f && x.2.core == c) then (h.fcore f c).split else 128 } := by
  have view : (h.reported f c).view f c = (h.returned f c).view f c := Hw.view_onFCore _ _ _ _ ⟨rfl, rfl⟩
  rw [view, Hw.reported, Hw.fcore_onFCore_same, Hw.returned, Hw.fcore_onFCore_same]
  cases h.blocks.any fun x => bkFn x.1 == f && x.2.core == c <;> rfl

theorem Hw.fcore_reported_other {g d : Nat} (other : fcKey g d ≠ fcKey f c) : (h.reported f c).fcore g d = h.fcore g d :=
  (Hw.fcore_onFCore_other _ _ other).trans (Hw.fcore_onFCore_other _ _ other)

theorem resourceReport_eq (e : Env) : (h.reported h.occ.unit h.occ.id).agendaOnly (resourceReport e h) := by
  show Hw.agendaOnly _ (if ((h.reported h.occ.unit h.occ.id).waitingGrids h.occ.unit).isEmpty then h.reported h.occ.unit h.occ.id
    else (h.reported h.occ.unit h.occ.id).place ((h.reported h.occ.unit h.occ.id).partOf h.occ.unit))
  split
  · exact Hw.agendaOnly_refl _
  · exact Hw.agendaOnly_planOnce _ _ _
end

theorem resourceReport_reports {s : State} {f c : Nat} (hs : s.Inv) (hf : f = s.hw.occ.unit) (hc : c = s.hw.occ.id) :
    ∃ t, exec .resourceReport s = .next t ∧ t.mem = s.mem ∧ t.clk = s.clk ∧
      t.hw = { s.hw with fcores := t.hw.fcores, agenda := t.hw.agenda } ∧
      t.hw.fcore f c = { s.hw.fcore f c with
        ghosts := [], report := (t.hw.view f c).report
        split := if (s.hw.blocks.any fun x => bkFn x.1 == f && x.2.core == c) then (s.hw.fcore f c).split else 128 } ∧
      ∀ g d, fcKey g d ≠ fcKey f c → t.hw.fcore g d = s.hw.fcore g d := by
  subst hf hc
  have only := resourceReport_eq s.hw (env s)
  generalize step : resourceReport (env s) s.hw = k at only
  have unwritten : k.wq = [] := by rw [only]; exact hs.2
  refine ⟨_, (show exec .resourceReport s = s.event resourceReport from rfl).trans (event_eq_next step unwritten), rfl, rfl,
    by rw [only]; rfl, ?_, fun g d other => ?_⟩
  · rw [only]
    exact Hw.fcore_reported _ _ _
  · rw [only]
    exact Hw.fcore_reported_other _ _ _ other

end Sys2Proof.Machine
end

section
/-! # The ends of blocks and grids

What the end of a block and of a grid leaves of the package (R91, R104, R114, R117, R123). -/
namespace Sys2Proof.Machine

open Sys2Proof.Terms

/-! ## Tables -/

/-- Entries kept by their keys are read as before. -/
theorem Tab.find?_keep_key {α : Type} (p : Nat → Bool) (t : Tab α) (k : Nat) :
    Tab.find? (Tab.keep (fun j _ => p j) t) k = if p k then Tab.find? t k else none := by
  induction t with
  | nil => simp [Tab.keep, Tab.find?]
  | cons x t ih =>
    obtain ⟨j, v⟩ := x
    by_cases here : j = k
    · subst here
      cases kept : p j <;> simp [Tab.keep, Tab.find?, kept, ih]
    · cases kept : p j <;> simp [Tab.keep, Tab.find?, kept, ih, here]

/-! ## What stays planned -/

/-- What was planned still is. -/
def Hw.plansKept (h k : Hw) : Prop := ∀ m ∈ h.agenda, m ∈ k.agenda

theorem Hw.plansKept_of_agenda {h k : Hw} (a : k.agenda = h.agenda) : h.plansKept k := fun _ hm => a ▸ hm
theorem Hw.plansKept_trans {h k l : Hw} (a : h.plansKept k) (b : k.plansKept l) : h.plansKept l := fun m hm => b m (a m hm)
theorem Hw.plansKept_planOnce (h : Hw) (i : Instr) (o : Occasion) : h.plansKept (h.planOnce i o) := h.agenda_planOnce i o

theorem Hw.plansKept_jPause (h : Hw) (f : Nat) : h.plansKept (h.jPause f) := by
  unfold Hw.jPause
  dsimp only
  split
  · split
    · exact Hw.plansKept_of_agenda rfl
    · exact Hw.plansKept_of_agenda (by rw [Hw.raiseInt_eq]; rfl)
  · split
    · refine List.foldlRecOn (motive := h.plansKept) _ _ (Hw.plansKept_of_agenda rfl) fun k hk q _ => ?_
      split
      · exact Hw.plansKept_trans hk (k.plansKept_planOnce _ _)
      · exact hk
    · exact Hw.plansKept_of_agenda rfl

theorem Hw.plansKept_jState (h : Hw) (e : Env) (f seq state status cause : Nat) (late : Bool) :
    h.plansKept (h.jState e f seq state status cause late) :=
  Hw.plansKept_jPause (h.onFn f fun x => x.jSet e.clk.tick seq state status cause late) f

theorem Hw.plansKept_putWord (h : Hw) (f : Nat) (c : QCmd) (word : Nat) : h.plansKept (h.putWord f c word) := by
  unfold Hw.putWord
  split
  · exact Hw.plansKept_of_agenda rfl
  · exact Hw.plansKept_of_agenda (by rw [(Hw.Written.deviceWrite h (hostPa c.caddr) (natLe 8 word)).rest])

theorem Hw.plansKept_signalEnd (h : Hw) (f : Nat) (c : QCmd) : h.plansKept (h.signalEnd f c) := by
  unfold Hw.signalEnd
  split
  · exact Hw.plansKept_of_agenda (by rw [Hw.raiseInt_eq])
  · exact Hw.plansKept_of_agenda rfl

theorem Hw.plansKept_endCommand (h : Hw) (e : Env) (f seq status cause : Nat) (rejected : Bool) :
    h.plansKept (h.endCommand e f seq status cause rejected) := by
  cases hc : Tab.find? (h.fn f).cmds seq with
  | none => rw [Hw.endCommand_of_none h e f seq status cause rejected hc]; exact Hw.plansKept_of_agenda rfl
  | some c =>
    rw [Hw.endCommand_of_some h e f seq status cause rejected hc]
    refine Hw.plansKept_trans ?_ (Hw.agenda_planDispatch _ _ _)
    exact Hw.plansKept_trans (Hw.plansKept_trans (Hw.plansKept_jState (h.forgetCmd f seq) _ _ _ _ _ _ _)
      (Hw.plansKept_putWord _ f c _)) (Hw.plansKept_signalEnd _ f c)

/-! ## A part of a command that ends -/

/-- The cause of a command that is to end with another: its first stands (R114). -/
def QCmd.allCause (c : QCmd) (cause : Nat) : Nat := if c.cause = 0 then cause else c.cause

section
variable {h : Hw} {e : Env} {f seq : Nat} {c : QCmd} (cause : Nat)

theorem Hw.partEnded_last (hc : Tab.find? (h.fn f).cmds seq = some c) (last : c.left ≤ 1) : h.partEnded e f seq cause =
    h.endCommand e f seq (if c.allCause cause = 0 then 0 else 5) (c.allCause cause) := by
  unfold Hw.partEnded
  rw [hc]
  exact if_pos last

theorem Hw.partEnded_more (hc : Tab.find? (h.fn f).cmds seq = some c) (more : 2 ≤ c.left) : h.partEnded e f seq cause =
    h.onQCmd f seq fun d => { d with left := d.left - 1, cause := c.allCause cause } := by
  unfold Hw.partEnded
  rw [hc]
  exact if_neg (by omega)

theorem Hw.Ends.onQCmd (h : Hw) (f seq : Nat) (g : QCmd → QCmd) : h.Ends (h.onQCmd f seq g) := by
  refine ⟨rfl, fun j => ?_, fun _ => rfl, fun _ ho => ho⟩
  rw [Hw.onQCmd, Hw.fn_onFn]
  split
  · next at_ => subst at_; rfl
  · rfl

theorem Hw.Ends.partEnded (h : Hw) (e : Env) (f seq cause : Nat) : h.Ends (h.partEnded e f seq cause) := by
  cases hc : Tab.find? (h.fn f).cmds seq with
  | none => unfold Hw.partEnded; rw [hc]; exact .refl h
  | some c =>
    by_cases last : c.left ≤ 1
    · rw [Hw.partEnded_last cause hc last]; exact .endCommand _ _ _ _ _ _ _
    · rw [Hw.partEnded_more cause hc (by omega)]; exact .onQCmd _ _ _ _

theorem Hw.plansKept_partEnded (h : Hw) (e : Env) (f seq cause : Nat) : h.plansKept (h.partEnded e f seq cause) := by
  cases hc : Tab.find? (h.fn f).cmds seq with
  | none => unfold Hw.partEnded; rw [hc]; exact Hw.plansKept_of_agenda rfl
  | some c =>
    by_cases last : c.left ≤ 1
    · rw [Hw.partEnded_last cause hc last]; exact Hw.plansKept_endCommand _ _ _ _ _ _ _
    · rw [Hw.partEnded_more cause hc (by omega)]; exact Hw.plansKept_of_agenda rfl
end

/-- Where its last part ends, a command that stands as it did has ended. -/
theorem Running.ended_of_last {s : State} {h k : Hw} {f seq : Nat} {c : QCmd} (a : Running s h f seq c)
    (standing : Tab.find? (h.fn f).cmds seq = some c) (last : c.left ≤ 1) (cause : Nat)
    (fns : k.fns = (h.partEnded (env s) f seq cause).fns) (wq : k.wq = (h.partEnded (env s) f seq cause).wq) :
    Ended s (s.after k) f seq c (if c.allCause cause = 0 then 0 else 5) (c.allCause cause) false := by
  rw [Hw.partEnded_last cause standing last] at fns wq
  exact a.ended _ _ false fns wq

/-! ## The end of a block -/

section
variable (h : Hw) (f slot bk : Nat) (b : Block)

/-- The block is gone, and what it held waits for its core's report. -/
def Hw.freed : Hw :=
  (((h.onFCore f b.core fun c => { c with ghosts := h.ghostOf bk b :: c.ghosts }).onFn f fun x =>
    { x with race := { x.race with ctr := Tab.put x.race.ctr slot b.c } }).removeBlock bk).planOnce .resourceReport
      { Occasion.none with unit := f, id := b.core }

theorem Hw.freed_eq : h.freed f slot bk b = { h with
    fcores := (h.freed f slot bk b).fcores, fns := (h.freed f slot bk b).fns, blocks := Tab.del h.blocks bk
    warps := Tab.keep (fun k _ => wkBlock k != bk) h.warps
    flights := Tab.keep (fun _ (f : Flight) => wkBlock f.wk != bk) h.flights, agenda := (h.freed f slot bk b).agenda } := by
  unfold Hw.freed
  rw [Hw.agendaOnly_planOnce]
  rfl

theorem Hw.fn_freed (g : Nat) : (h.freed f slot bk b).fn g =
    if g = f then { h.fn f with race := { (h.fn f).race with ctr := Tab.put (h.fn f).race.ctr slot b.c } } else h.fn g := by
  have fns : (h.freed f slot bk b).fn g =
      (h.onFn f fun x => { x with race := { x.race with ctr := Tab.put x.race.ctr slot b.c } }).fn g := by
    unfold Hw.freed
    rw [Hw.agendaOnly_planOnce]
    rfl
  rw [fns, Hw.fn_onFn]

theorem Hw.block?_freed (k : Nat) : (h.freed f slot bk b).block? k = if k = bk then none else h.block? k := by
  rw [Hw.freed_eq]
  show Tab.find? (Tab.del h.blocks bk) k = _
  split
  · next at_ => rw [at_]; exact Tab.find?_del_same _ _
  · next at_ => exact Tab.find?_del_other _ at_

theorem Hw.warp?_freed (k : Nat) : (h.freed f slot bk b).warp? k = if wkBlock k = bk then none else h.warp? k := by
  rw [Hw.freed_eq]
  refine (Tab.find?_keep_key (fun k => wkBlock k != bk) h.warps k).trans ?_
  by_cases at_ : wkBlock k = bk <;> simp [at_, Hw.warp?]

end

/-- A grid whose block has been freed. -/
def Grid.oneFreed (g : Grid) (cause : Nat) : Grid :=
  { g with freed := g.freed + 1, cause := if g.cause = 0 then cause else g.cause }

/-- The units of a block that ended may take its marks; nothing else of the package changes. -/
def Hw.unitEnds (h : Hw) (bk : Nat) (b : Block) : Hw :=
  match b.unit with
  | some u => h.onUnit u fun x => { x with ends := x.ends ++ [(bk, b)], faulted := x.faulted || b.killed }
  | none => h

theorem Hw.unitEnds_eq (h : Hw) (bk : Nat) (b : Block) : h.unitEnds bk b = { h with units := (h.unitEnds bk b).units } := by
  unfold Hw.unitEnds
  split <;> rfl

/-- What follows when a block of grid `g` has been freed: its L1 is written back where the device orders what follows, its unit and
its grid take note. -/
def Hw.settleBlock (h : Hw) (e : Env) (f slot bk : Nat) (b : Block) (g : Grid) : Hw :=
  let h := if g.kind = .launch ∨ g.kind = .routine then h else h.writeBack b.core (ctxOf f)
  let g := { g with
    freed := g.freed + 1, cause := if g.cause = 0 then b.cause else g.cause
    exitF := if g.kind = .conversion ∨ g.kind = .exact then Tab.maxMerge g.exitF (b.exitFrontier slot) else g.exitF }
  (((h.unitEnds bk b).onGrid b.grid fun _ => g).gridStep e b.grid g b.unit).moved

theorem blockFree_of_block {e : Env} {h : Hw} {f slot bk : Nat} {b : Block} (hf : f = h.occ.unit) (hslot : slot = h.occ.id)
    (hbk : bk = bkOf f slot) (block : h.block? bk = some b) : blockFree e h =
    if !h.blockDone bk || h.cmds.any (fun c => wkBlock c.2.wk == bk) then h
    else match (h.freed f slot bk b).grid? b.grid with
      | none => (h.freed f slot bk b).moved
      | some g => (h.freed f slot bk b).settleBlock e f slot bk b g := by
  subst hf hslot hbk
  unfold blockFree
  dsimp only
  rw [block]
  rfl

/-- The grid has a block freed, and its block is gone. -/
def Hw.blockGone (h : Hw) (f slot bk : Nat) (b : Block) (g : Grid) : Hw :=
  ((h.freed f slot bk b).unitEnds bk b).onGrid b.grid fun _ => g.oneFreed b.cause

/-- The block of a launched grid has ended: the grid has it freed, and where it is the last the grid is over, and its part of the
command has ended. -/
theorem blockFree_of_launch {e : Env} {h : Hw} {f slot bk : Nat} {b : Block} {g : Grid} (hf : f = h.occ.unit) (hslot : slot = h.occ.id)
    (hbk : bk = bkOf f slot) (block : h.block? bk = some b) (done : h.blockDone bk = true)
    (quiet : (h.cmds.any fun c => wkBlock c.2.wk == bk) = false) (grid : h.grid? b.grid = some g) (launch : g.kind = .launch) :
    blockFree e h =
      (if g.total ≤ g.freed + 1 then
        ((h.blockGone f slot bk b g).dropGrid b.grid).partEnded e g.fn g.seq (g.oneFreed b.cause).cause
      else h.blockGone f slot bk b g).moved := by
  have there : (h.freed f slot bk b).grid? b.grid = some g := by rw [Hw.freed_eq]; exact grid
  rw [blockFree_of_block hf hslot hbk block, done, quiet, there]
  simp only [Bool.not_true, Bool.or_self, Bool.false_eq_true, ↓reduceIte, Hw.settleBlock, Hw.gridStep, launch, true_or,
    decide_eq_true_eq, reduceCtorEq, or_self, Hw.blockGone, Grid.oneFreed]

/-! ## What it changes -/

section
variable {s : State} {f slot bk : Nat} {b : Block} {g : Grid}

/-- A grid that is dropped takes what it was with it. -/
theorem Hw.filter_onGrid (h : Hw) (i : Nat) (g : Grid → Grid) :
    (h.onGrid i g).grids.filter (fun x => x.1 != i) = h.grids.filter fun x => x.1 != i := by
  unfold Hw.onGrid
  dsimp only
  induction h.grids with
  | nil => rfl
  | cons x l ih => by_cases here : x.1 = i <;> simp [here, ih]

theorem Hw.grids_blockGone (h : Hw) (f slot bk : Nat) (b : Block) (g : Grid) :
    (h.blockGone f slot bk b g).grids = (h.onGrid b.grid fun _ => g.oneFreed b.cause).grids := by
  unfold Hw.blockGone
  rw [Hw.unitEnds_eq, Hw.freed_eq]
  rfl
theorem Hw.wq_blockGone (h : Hw) (f slot bk : Nat) (b : Block) (g : Grid) : (h.blockGone f slot bk b g).wq = h.wq := by
  unfold Hw.blockGone
  rw [Hw.unitEnds_eq, Hw.freed_eq]
  rfl
/-- Of functions, a race counter changes at most. -/
theorem Hw.fn_blockGone (h : Hw) (f slot bk : Nat) (b : Block) (g : Grid) (k : Nat) :
    (h.blockGone f slot bk b g).fn k = { h.fn k with race := ((h.freed f slot bk b).fn k).race } := by
  have fn : (h.blockGone f slot bk b g).fn k = (h.freed f slot bk b).fn k := by
    unfold Hw.blockGone
    rw [Hw.unitEnds_eq]
    rfl
  rw [fn, Hw.fn_freed]
  split
  · next at_ => rw [at_]
  · rfl

/-- What a block's end leaves where its grid goes on, or ends. -/
structure BlockGone (h k : Hw) (f slot bk : Nat) (b : Block) : Prop where
  blocks : ∀ n, k.block? n = if n = bk then none else h.block? n
  warps : ∀ n, (k.warp? n).map calmWarp = if wkBlock n = bk then none else (h.warp? n).map calmWarp
  ctr : Tab.getD (k.fn f).race.ctr slot 0 = b.c
  report : Move.event .resourceReport { Occasion.none with unit := f, id := b.core } ∈ k.agenda

theorem blockGone_blockGone (h : Hw) (f slot bk : Nat) (b : Block) (g : Grid) : BlockGone h (h.blockGone f slot bk b g) f slot bk b := by
  unfold Hw.blockGone
  rw [Hw.unitEnds_eq]
  refine ⟨h.block?_freed f slot bk b, fun n => ?_, ?_, ?_⟩
  · refine (congrArg (Option.map calmWarp) (h.warp?_freed f slot bk b n)).trans ?_
    split <;> rfl
  · show Tab.getD ((h.freed f slot bk b).fn f).race.ctr slot 0 = b.c
    rw [Hw.fn_freed, if_pos rfl]
    exact Tab.getD_put_same _ _ _ _
  · exact Hw.mem_planOnce _ _ _

/-- The end of a command changes none of that. -/
theorem BlockGone.of_ends {h k l : Hw} (a : BlockGone h k f slot bk b) (ends : k.Ends l) (plans : k.plansKept l) :
    BlockGone h l f slot bk b where
  blocks n := by rw [ends.rest]; exact a.blocks n
  warps n := (ends.calm n).trans (a.warps n)
  ctr := by rw [ends.fns]; exact a.ctr
  report := plans _ a.report

theorem BlockGone.after {k : Hw} (a : BlockGone s.hw k f slot bk b) :
    (∀ n, (s.after k.moved).hw.block? n = if n = bk then none else s.hw.block? n) ∧
    (∀ n, ((s.after k.moved).hw.warp? n).map calmWarp = if wkBlock n = bk then none else (s.hw.warp? n).map calmWarp) ∧
    Tab.getD ((s.after k.moved).hw.fn f).race.ctr slot 0 = b.c ∧
    Planned (s.after k.moved) .resourceReport { Occasion.none with unit := f, id := b.core } :=
  ⟨a.blocks, a.warps, a.ctr, a.report⟩

theorem blockFree_frees (hs : s.Inv) (hf : f = s.hw.occ.unit) (hslot : slot = s.hw.occ.id) (hbk : bk = bkOf f slot)
    (block : s.hw.block? bk = some b) (done : s.hw.blockDone bk = true)
    (quiet : (s.hw.cmds.any fun c => wkBlock c.2.wk == bk) = false) (grid : s.hw.grid? b.grid = some g) (launch : g.kind = .launch) :
    ∃ t, exec .blockFree s = .next t ∧ t.clk = s.clk ∧ (∀ k, t.hw.block? k = if k = bk then none else s.hw.block? k) ∧
      (∀ k, (t.hw.warp? k).map calmWarp = if wkBlock k = bk then none else (s.hw.warp? k).map calmWarp) ∧
      Tab.getD (t.hw.fn f).race.ctr slot 0 = b.c ∧ Planned t .resourceReport { Occasion.none with unit := f, id := b.core } ∧
      let cause := if g.cause = 0 then b.cause else g.cause
      (g.freed + 1 < g.total → t.mem = s.mem ∧ t.hw.grid? b.grid = some { g with freed := g.freed + 1, cause := cause }) ∧
      (g.total ≤ g.freed + 1 → t.hw.grids = s.hw.grids.filter (fun x => x.1 != b.grid) ∧
        ∀ c, Tab.find? (s.hw.fn g.fn).cmds g.seq = some c → c.left ≤ 1 → let all := if c.cause = 0 then cause else c.cause
          Ended s t g.fn g.seq c (if all = 0 then 0 else 5) all false) := by
  have step := blockFree_of_launch (e := env s) hf hslot hbk block done quiet grid launch
  have gone := blockGone_blockGone s.hw f slot bk b g
  have exec_ : exec .blockFree s = s.event blockFree := rfl
  by_cases last : g.total ≤ g.freed + 1
  · rw [if_pos last] at step
    have dropped : BlockGone s.hw ((s.hw.blockGone f slot bk b g).dropGrid b.grid) f slot bk b :=
      ⟨gone.blocks, gone.warps, gone.ctr, gone.report⟩
    have ends := Hw.Ends.partEnded ((s.hw.blockGone f slot bk b g).dropGrid b.grid) (env s) g.fn g.seq (g.oneFreed b.cause).cause
    obtain ⟨blocks, warps, ctr, report⟩ := (dropped.of_ends ends (Hw.plansKept_partEnded _ _ _ _ _)).after
    refine ⟨_, exec_.trans (event_eq_after step), rfl, blocks, warps, ctr, report,
      fun more => absurd last (Nat.not_le.mpr more), fun _ => ⟨?_, fun c hc left => ?_⟩⟩
    · have grids := congrArg Hw.grids ends.rest
      refine grids.trans (Eq.trans ?_ (s.hw.filter_onGrid b.grid fun _ => g.oneFreed b.cause))
      exact congrArg (List.filter fun x => x.1 != b.grid) (Hw.grids_blockGone _ _ _ _ _ _)
    · have fn : ((s.hw.blockGone f slot bk b g).dropGrid b.grid).fn g.fn = _ := s.hw.fn_blockGone f slot bk b g g.fn
      have running : Running s ((s.hw.blockGone f slot bk b g).dropGrid b.grid) g.fn g.seq c :=
        (Running.start hc).of_fn (by rw [fn]) (by rw [fn]) (by rw [fn]) (by rw [fn])
      exact running.ended_of_last (by rw [fn]; exact hc) left _ rfl rfl
  · rw [if_neg last] at step
    obtain ⟨blocks, warps, ctr, report⟩ := gone.after
    refine ⟨_, exec_.trans (event_eq_after step), rfl, blocks, warps, ctr, report,
      fun _ => ⟨State.mem_after ((s.hw.wq_blockGone f slot bk b g).trans hs.2), ?_⟩, fun full => absurd full last⟩
    refine (congrArg (Tab.find? · b.grid) (Hw.grids_blockGone _ _ _ _ _ _)).trans ((Hw.grid?_onGrid _ _ _).trans ?_)
    rw [grid]
    rfl
end

end Sys2Proof.Machine
end

section
/-! # The end of a routine

A routine or conversion whose last block has been freed settles its tiles, hands over to the grid that waits for it, and ends its part
of the command (R91, R104). -/
namespace Sys2Proof.Machine

open Sys2Proof.Terms

/-! ## Tiles that are settled -/

theorem tagSt_withSt (t : BitVec 16) {st : Nat} (small : st < 4) : tagSt (withSt t st) = st := by
  have bits : (withSt t st).extractLsb' 12 2 = BitVec.ofNat 2 st := by
    unfold withSt
    interval_cases st <;> (ext i hi; interval_cases i <;> simp)
  unfold tagSt
  rw [bits]
  exact Nat.mod_eq_of_lt small

/-- A tag that a tile takes at the end of a grid that set it: its own, or poison (R91). -/
def settledTag (old new : BitVec 16) (ok : Bool) : BitVec 16 := if ok then withSt new 0 else withSt old 3

theorem tagSt_settledTag (old new : BitVec 16) (ok : Bool) : tagSt (settledTag old new ok) ≠ 2 := by
  unfold settledTag
  split <;> rw [tagSt_withSt _ (by decide)] <;> decide

/-- One tile settles, if it is still converting. -/
def Hw.settleTile (ok : Bool) (h : Hw) (t : Nat × BitVec 16) : Hw :=
  if tagSt (h.tag (4096 * t.1)) = 2 then h.setTag (4096 * t.1) (settledTag (h.tag (4096 * t.1)) t.2 ok) else h

theorem Hw.settleGrid_eq (h : Hw) (ts : List (Nat × BitVec 16)) (ok : Bool) : h.settleGrid ts ok = ts.foldl (Hw.settleTile ok) h := rfl

theorem Hw.tagsOnly_settleGrid (h : Hw) (ts : List (Nat × BitVec 16)) (ok : Bool) : h.tagsOnly (h.settleGrid ts ok) := by
  refine List.foldlRecOn (motive := h.tagsOnly) ts _ rfl fun k hk t _ => ?_
  dsimp only
  split
  · unfold Hw.tagsOnly at hk ⊢
    rw [Hw.setTag_eq, hk]
  · exact hk

section
variable {h : Hw} {u : Nat} {ok : Bool} (hbm : paKind (4096 * u) = .hbm)
include hbm

theorem Hw.tag_settleTile (t : Nat × BitVec 16) : (h.settleTile ok t).tag (4096 * u) =
    if t.1 = u ∧ tagSt (h.tag (4096 * u)) = 2 then settledTag (h.tag (4096 * u)) t.2 ok else h.tag (4096 * u) := by
  by_cases here : t.1 = u
  · subst here
    by_cases converting : tagSt (h.tag (4096 * t.1)) = 2
    · rw [Hw.settleTile, if_pos converting, Hw.tag_setTag h hbm, if_pos (Nat.mul_div_cancel_left _ (by decide)),
        if_pos ⟨rfl, converting⟩]
    · rw [Hw.settleTile, if_neg converting, if_neg fun both : _ ∧ _ => converting both.2]
  · rw [if_neg fun both : _ ∧ _ => here both.1, Hw.settleTile]
    split
    · by_cases memory : paKind (4096 * t.1) = .hbm
      · rw [Hw.tag_setTag h memory, Nat.mul_div_cancel_left _ (by decide), if_neg fun same => here same.symm]
      · rw [Hw.setTag, if_neg memory]
    · rfl

/-- A tile that is not converting stays as it is. -/
theorem Hw.tag_settleGrid_settled (ts : List (Nat × BitVec 16)) (settled : tagSt (h.tag (4096 * u)) ≠ 2) :
    (h.settleGrid ts ok).tag (4096 * u) = h.tag (4096 * u) := by
  rw [Hw.settleGrid_eq]
  induction ts generalizing h with
  | nil => rfl
  | cons t ts ih =>
    have same : (h.settleTile ok t).tag (4096 * u) = h.tag (4096 * u) := by
      rw [Hw.tag_settleTile hbm, if_neg fun both => settled both.2]
    rw [List.foldl_cons, ih (same ▸ settled), same]

/-- A converting tile takes the tag that the list has for it, or poison. -/
theorem Hw.tag_settleGrid {ts : List (Nat × BitVec 16)} {new : BitVec 16} (listed : (u, new) ∈ ts)
    (one : ∀ t ∈ ts, t.1 = u → t.2 = new) (converting : tagSt (h.tag (4096 * u)) = 2) :
    (h.settleGrid ts ok).tag (4096 * u) = settledTag (h.tag (4096 * u)) new ok := by
  rw [Hw.settleGrid_eq]
  induction ts generalizing h with
  | nil => exact absurd listed List.not_mem_nil
  | cons t ts ih =>
    obtain ⟨first, rest⟩ := List.forall_mem_cons.mp one
    have step := Hw.tag_settleTile (h := h) (ok := ok) hbm t
    rw [List.foldl_cons]
    by_cases here : t.1 = u
    · rw [if_pos ⟨here, converting⟩, first here] at step
      exact (Hw.tag_settleGrid_settled hbm ts (step ▸ tagSt_settledTag _ _ _)).trans step
    · rw [if_neg fun both => here both.1] at step
      have later : (u, new) ∈ ts := (List.mem_cons.mp listed).resolve_left fun same => here (same ▸ rfl)
      rw [ih later rest (by rw [step]; exact converting), step]
end

/-! ## Grids -/

theorem Hw.grid?_dropGrid (h : Hw) (i j : Nat) : (h.dropGrid i).grid? j = if j = i then none else h.grid? j := by
  unfold Hw.grid? Hw.dropGrid
  dsimp only
  induction h.grids with
  | nil => simp [Tab.find?]
  | cons x l ih =>
    obtain ⟨n, g⟩ := x
    by_cases dropped : n = i
    · subst dropped
      simp only [bne_self_eq_false, Bool.false_eq_true, not_false_eq_true, List.filter_cons_of_neg, ih, Tab.find?]
      split
      · rfl
      · next other => rw [if_neg fun same => other same.symm]
    · by_cases at_ : n = j
      · subst at_; simp [dropped, Tab.find?]
      · simp [dropped, Tab.find?, at_, ih]

theorem Hw.grid?_onGrid_other (h : Hw) {i j : Nat} (g : Grid → Grid) (other : j ≠ i) : (h.onGrid i g).grid? j = h.grid? j := by
  unfold Hw.grid? Hw.onGrid
  dsimp only
  induction h.grids with
  | nil => rfl
  | cons x l ih =>
    obtain ⟨n, y⟩ := x
    by_cases here : n = i
    · subst here; simp [Tab.find?, other.symm, ih]
    · by_cases at_ : n = j
      · subst at_; simp [Tab.find?, here]
      · simp [Tab.find?, here, at_, ih]

/-! ## The step -/

/-- A grid that has waited for grid `gid`, a conversion with exit frontier `front`. -/
def Grid.handed (gid : Nat) (front : Tab Nat) (r : Grid) : Grid :=
  { r with waits := r.waits.filter (· != gid), exitF := Tab.maxMerge r.exitF front }

/-- The grid that waits for a conversion has its exit frontier, and takes its tiles once it waits for no other (R104). -/
def Hw.handOver (h : Hw) (gid : Nat) (g : Grid) : Hw :=
  match g.next_ with
  | some n =>
    let h := h.onGrid n (Grid.handed gid g.exitF)
    match h.grid? n with
    | some r => if r.waits.isEmpty then h.takeTiles (r.outs.map fun (t : Nat × BitVec 16) => t.1) else h
    | none => h
  | none => h

/-- Two machines that differ only in grids and tags. -/
def Hw.gridsOnly (h k : Hw) : Prop := k = { h with grids := k.grids, tags := k.tags }

theorem Hw.gridsOnly_handOver (h : Hw) (gid : Nat) (g : Grid) : h.gridsOnly (h.handOver gid g) := by
  unfold Hw.handOver
  split
  · dsimp only
    split
    · split
      · unfold Hw.gridsOnly
        rw [Hw.tagsOnly_takeTiles]
        rfl
      · rfl
    · rfl
  · rfl

theorem Hw.grids_handOver (h : Hw) (gid : Nat) (g : Grid) : (h.handOver gid g).grids =
    match g.next_ with | some n => (h.onGrid n (Grid.handed gid g.exitF)).grids | none => h.grids := by
  unfold Hw.handOver
  split
  · dsimp only
    split
    · split
      · rw [Hw.tagsOnly_takeTiles]
      · rfl
    · rfl
  · rfl

/-- The routine's tiles have settled, it is gone, and the grid that waits has been handed its frontier. -/
def Hw.routineGone (h : Hw) (gid : Nat) (g : Grid) : Hw :=
  ((h.settleGrid g.outs (decide (g.cause = 0))).dropGrid gid).handOver gid g

theorem Hw.gridsOnly_routineGone (h : Hw) (gid : Nat) (g : Grid) : h.gridsOnly (h.routineGone gid g) := by
  unfold Hw.routineGone Hw.gridsOnly
  rw [Hw.gridsOnly_handOver, Hw.dropGrid, Hw.tagsOnly_settleGrid]

theorem Hw.grid?_routineGone (h : Hw) (gid : Nat) (g : Grid) (j : Nat) : (h.routineGone gid g).grid? j =
    if g.next_ = some j then (((h.dropGrid gid).grid? j).map (Grid.handed gid g.exitF)) else (h.dropGrid gid).grid? j := by
  have base (i : Nat) : ((h.settleGrid g.outs (decide (g.cause = 0))).dropGrid gid).grid? i = (h.dropGrid gid).grid? i := by
    rw [Hw.tagsOnly_settleGrid]; rfl
  rw [← base, Hw.grid?, Hw.routineGone, Hw.grids_handOver]
  cases next : g.next_ with
  | none => rfl
  | some n =>
    by_cases at_ : n = j
    · subst at_
      rw [if_pos rfl]
      exact Hw.grid?_onGrid _ _ _
    · rw [if_neg fun same => at_ (Option.some.inj same)]
      exact Hw.grid?_onGrid_other _ _ fun same => at_ same.symm

theorem routineEnd_of_grid {e : Env} {h : Hw} {gid : Nat} {g : Grid} (hgid : gid = h.occ.unit) (grid : h.grid? gid = some g)
    (all : g.total ≤ g.freed) : ∃ p, routineEnd e h = ((h.routineGone gid g).partEnded e g.fn g.seq g.cause).place p := by
  subst hgid
  unfold routineEnd
  dsimp only
  rw [grid]
  exact ⟨_, if_neg (Nat.not_lt.mpr all)⟩

theorem routineEnd_ends {s : State} {gid : Nat} {g : Grid} (hgid : gid = s.hw.occ.unit) (grid : s.hw.grid? gid = some g)
    (all : g.total ≤ g.freed) (nodup : (g.outs.map (·.1)).Nodup) (other : g.next_ ≠ some gid) :
    ∃ t, exec .routineEnd s = .next t ∧ t.clk = s.clk ∧ WarpsCalm s t ∧ t.hw.grid? gid = none ∧
      (g.next_ = none → ∀ x ∈ g.outs, paKind (4096 * x.1) = .hbm → tagSt (s.hw.tag (4096 * x.1)) = 2 →
        t.hw.tag (4096 * x.1) = if g.cause = 0 then withSt x.2 0 else withSt (s.hw.tag (4096 * x.1)) 3) ∧
      (∀ n r, g.next_ = some n → s.hw.grid? n = some r → t.hw.grid? n = some { r with
        waits := r.waits.filter (· != gid), exitF := Tab.maxMerge r.exitF g.exitF }) ∧
      ∀ c, Tab.find? (s.hw.fn g.fn).cmds g.seq = some c → let all := if c.cause = 0 then g.cause else c.cause
        (c.left ≤ 1 → Ended s t g.fn g.seq c (if all = 0 then 0 else 5) all false) ∧
        (2 ≤ c.left → Tab.find? (t.hw.fn g.fn).cmds g.seq = some { c with left := c.left - 1, cause := all }) := by
  obtain ⟨p, step⟩ := routineEnd_of_grid (e := env s) hgid grid all
  have gone := s.hw.gridsOnly_routineGone gid g
  have ends := Hw.Ends.partEnded (s.hw.routineGone gid g) (env s) g.fn g.seq g.cause
  have placed := Hw.agendaOnly_planOnce ((s.hw.routineGone gid g).partEnded (env s) g.fn g.seq g.cause) .blockPlacement
    { Occasion.none with unit := p }
  have gridOf (j : Nat) : (s.after ((((s.hw.routineGone gid g).partEnded (env s) g.fn g.seq g.cause).place p))).hw.grid? j =
      (s.hw.routineGone gid g).grid? j := by
    show (Hw.place _ p).grid? j = _
    rw [Hw.place, placed, ends.rest]
    rfl
  refine ⟨_, (show exec .routineEnd s = s.event routineEnd from rfl).trans (event_eq_after step), rfl, fun n => ?_, ?_,
    fun last x hx memory converting => ?_, fun n r next waiting => ?_, fun c hc => ⟨fun left => ?_, fun more => ?_⟩⟩
  · show ((Hw.place _ p).warp? n).map calmWarp = _
    rw [Hw.place, placed]
    refine (ends.calm n).trans ?_
    rw [gone]
    rfl
  · rw [gridOf, Hw.grid?_routineGone, if_neg other, Hw.grid?_dropGrid, if_pos rfl]
  · have tags : (s.after ((((s.hw.routineGone gid g).partEnded (env s) g.fn g.seq g.cause).place p))).hw.tag (4096 * x.1) =
        (s.hw.settleGrid g.outs (decide (g.cause = 0))).tag (4096 * x.1) := by
      show (Hw.place _ p).tag _ = _
      rw [Hw.place, placed, ends.rest, Hw.routineGone, Hw.handOver, last]
      rfl
    rw [tags, Hw.tag_settleGrid memory hx (fun t ht same => congrArg Prod.snd (List.inj_on_of_nodup_map nodup ht hx same)) converting,
      settledTag]
    simp only [decide_eq_true_eq]
  · have apart : n ≠ gid := fun same => other (same ▸ next)
    rw [gridOf, Hw.grid?_routineGone, if_pos next, Hw.grid?_dropGrid, if_neg apart, waiting]
    rfl
  · have fn : (s.hw.routineGone gid g).fn g.fn = s.hw.fn g.fn := by rw [gone]; rfl
    exact ((Running.start hc).of_fn (by rw [fn]) (by rw [fn]) (by rw [fn]) (by rw [fn])).ended_of_last
      (by rw [fn]; exact hc) left _ (by rw [Hw.place, placed]) (by rw [Hw.place, placed])
  · have standing : Tab.find? ((s.hw.routineGone gid g).fn g.fn).cmds g.seq = some c := by rw [gone]; exact hc
    show Tab.find? ((Hw.place _ p).fn g.fn).cmds g.seq = _
    rw [Hw.place, placed, Hw.partEnded_more _ standing more]
    exact Hw.cmds_onQCmd _ _ _ _ standing

end Sys2Proof.Machine
end

section
/-! # The end of a unit

A guarded unit whose last block has ended commits its bytes and tags, or goes to its exact kernel, whose end is its own (R112, R113). -/
namespace Sys2Proof.Machine

open Sys2Proof.Terms

/-! ## What the merge of marks changes -/

/-- A unit apart from its marks. -/
def GUnit.bare (x : GUnit) : GUnit := { x with gmarks := [] }

/-- Two machines that differ only in bookkeeping and release records. -/
structure Hw.Marked (h k : Hw) : Prop where
  rest : k = { h with
    cores := k.cores, dieTlb := k.dieTlb, fcores := k.fcores, parts := k.parts, fns := k.fns, out := k.out, ports := k.ports
    units := k.units, marks := k.marks, mctx := k.mctx, spare := k.spare, ovf := k.ovf, l2 := k.l2, poison := k.poison
    free := k.free, recs := k.recs }
  units : ∀ u, (Tab.find? k.units u).map GUnit.bare = (Tab.find? h.units u).map GUnit.bare

theorem Hw.Marked.refl (h : Hw) : h.Marked h := ⟨rfl, fun _ => rfl⟩
theorem Hw.Marked.trans {h k l : Hw} (a : h.Marked k) (b : k.Marked l) : h.Marked l :=
  ⟨by rw [b.rest, a.rest], fun u => (b.units u).trans (a.units u)⟩
theorem Hw.Marked.of_keeps {h k : Hw} (a : Keeps h k) : h.Marked k := ⟨by rw [a.rest], a.units⟩

theorem Hw.Marked.wq {h k : Hw} (a : h.Marked k) : k.wq = h.wq := by rw [a.rest]
theorem Hw.Marked.warps {h k : Hw} (a : h.Marked k) : k.warps = h.warps := by rw [a.rest]

theorem Hw.Marked.onFn (h : Hw) (f : Nat) (g : Fn → Fn) : h.Marked (h.onFn f g) := ⟨rfl, fun _ => rfl⟩
theorem Hw.Marked.putRec (h : Hw) (a : RecAt) (r : Option RelRec) : h.Marked (h.putRec a r) := by
  cases a <;> exact ⟨rfl, fun _ => rfl⟩
theorem Hw.Marked.dropRec (h : Hw) (a : RecAt) : h.Marked (h.dropRec a) := by
  unfold Hw.dropRec
  split
  · exact .refl h
  · exact (Hw.Marked.onFn _ _ _).trans (.putRec _ _ _)
theorem Hw.Marked.recycle (h : Hw) (fn : Nat) : h.Marked (h.recycle fn) := by
  unfold Hw.recycle
  dsimp only
  split
  · exact .refl h
  · split
    · exact .refl h
    · split
      · exact .onFn _ _ _
      · exact (Hw.Marked.onFn _ _ _).trans (.putRec _ _ _)
theorem Hw.Marked.attach (h : Hw) (a : RecAt) (r : RelRec) (rmw : Bool) : h.Marked (h.attach a r rmw) := by
  unfold Hw.attach
  exact (((Hw.Marked.dropRec h a).trans (.recycle _ r.fn)).trans (.onFn _ r.fn _)).trans (.putRec _ a _)
theorem Hw.Marked.foldl {α : Type} (f : Hw → α → Hw) (step : ∀ (h : Hw) (x : α), h.Marked (f h x)) (l : List α) (h : Hw) :
    h.Marked (l.foldl f h) :=
  List.foldlRecOn (motive := h.Marked) l f (.refl h) fun _ hk x _ => hk.trans (step _ x)

/-! ## The merge -/

section
variable (h : Hw) (u : Nat) (g : GUnit)

/-- The unit's marks are in memory. -/
def Hw.marksMerged : Hw := g.gmarks.foldl (fun h x => x.2.records.reverse.foldl (fun h r =>
  if h.checks (ctxOf g.fn) (.mem x.1) then h.install (ctxOf g.fn) (.mem x.1) (g.claim r)
  else if r.w then h.setMarks (.mem x.1) WordMarks.none else h) h) h
/-- Guarded bytes are in memory, and what watches them is triggered. -/
def Hw.bytesMerged (l : List Host.Cell) : Hw := l.foldl (fun h (x : Host.Cell) => (h.putByte x.1 x.2).triggerMem x.1 1) h
/-- The release records of the unit's words are memory's. -/
def Hw.recsMerged : Hw := (g.gmem.map fun x => wordOf x.1).eraseDups.foldl (fun h w =>
  match h.recAt (.mem (guardKey u w)) with
  | some r => (h.dropRec (.mem (guardKey u w))).attach (.mem w) r false
  | none => h.dropRec (.mem w)) h

theorem Hw.commitGuard_eq : h.commitGuard u g = ((h.marksMerged g).bytesMerged g.gmem).recsMerged u g := rfl

theorem Hw.Marked.marksMerged : h.Marked (h.marksMerged g) :=
  .foldl _ (fun k x => .foldl _ (fun k r => by
    split
    · exact .of_keeps (.install _ _ _ _)
    · split
      · exact .of_keeps (.setMarks _ _ _)
      · exact .refl k) _ k) _ h

theorem Hw.Marked.recsMerged : h.Marked (h.recsMerged u g) :=
  .foldl _ (fun k w => by
    split
    · exact (Hw.Marked.dropRec _ _).trans (.attach _ _ _ _)
    · exact .dropRec _ _) _ h

theorem Hw.bytesMerged_eq (l : List Host.Cell) : h.bytesMerged l = { h with
    wq := (h.bytesMerged l).wq, warps := (h.bytesMerged l).warps, tried := (h.bytesMerged l).tried } := by
  refine List.foldlRecOn (motive := fun k : Hw => k = { h with wq := k.wq, warps := k.warps, tried := k.tried }) l _ rfl
    fun k hk x _ => ?_
  rw [Hw.triggerMem, Hw.trigger_eq, Hw.putByte, hk]

theorem Hw.warpsCalm_bytesMerged (l : List Host.Cell) : h.warpsCalm (h.bytesMerged l) :=
  List.foldlRecOn (motive := h.warpsCalm) l _ h.warpsCalm_refl fun k hk x _ =>
    Hw.warpsCalm_trans hk (Hw.warpsCalm_trans (Hw.warpsCalm_of_warps rfl) ((k.putByte x.1 x.2).warpsCalm_trigger _))

theorem Tab.find?_of_above {α : Type} {t : Tab α} {k : Nat} (above : Tab.above k t = true) : Tab.find? t k = none := by
  cases found : Tab.find? t k with
  | none => rfl
  | some v => exact absurd (Tab.lt_of_mem_above above (Tab.mem_of_find? found)) (lt_irrefl k)

/-- Each guarded byte stands in memory. -/
theorem Hw.byte_bytesMerged (e : Env) {l : List Host.Cell} (rising : Tab.rising l = true) (x : Nat) :
    (h.bytesMerged l).byte e x = match Tab.find? l x with | some b => b | none => h.byte e x := by
  induction l generalizing h with
  | nil => rfl
  | cons c l ih =>
    obtain ⟨a, b⟩ := c
    have first : ((h.putByte a b).triggerMem a 1).byte e x = if a = x then b else h.byte e x := by
      unfold Hw.byte Hw.triggerMem Hw.trigger Hw.putByte
      rw [Tab.find?]
      by_cases at_ : a = x
      · rw [if_pos at_, if_pos at_]
      · rw [if_neg at_, if_neg at_]
    refine (ih ((h.putByte a b).triggerMem a 1) (Tab.rising_of_above rising)).trans ?_
    rw [first, Tab.find?]
    by_cases at_ : a = x
    · subst at_
      rw [if_pos rfl, if_pos rfl, Tab.find?_of_above rising]
    · rw [if_neg at_, if_neg at_]
end

/-! ## What it leaves -/

/-- Two machines that differ only in what a unit's merge changes. -/
structure Hw.Merged (h k : Hw) : Prop where
  rest : k = { h with
    cores := k.cores, dieTlb := k.dieTlb, fcores := k.fcores, parts := k.parts, fns := k.fns, out := k.out, ports := k.ports
    units := k.units, marks := k.marks, mctx := k.mctx, spare := k.spare, ovf := k.ovf, l2 := k.l2, poison := k.poison
    free := k.free, recs := k.recs, wq := k.wq, warps := k.warps, tried := k.tried }
  units : ∀ u, (Tab.find? k.units u).map GUnit.bare = (Tab.find? h.units u).map GUnit.bare
  calm : h.warpsCalm k

theorem Hw.merged_commitGuard (h : Hw) (u : Nat) (g : GUnit) : h.Merged (h.commitGuard u g) := by
  have marks := Hw.Marked.marksMerged h g
  have bytes := (h.marksMerged g).bytesMerged_eq g.gmem
  have recs := Hw.Marked.recsMerged ((h.marksMerged g).bytesMerged g.gmem) u g
  rw [Hw.commitGuard_eq]
  refine ⟨by rw [recs.rest, bytes, marks.rest], fun v => ?_, Hw.warpsCalm_trans (Hw.warpsCalm_of_warps marks.warps)
    (Hw.warpsCalm_trans (Hw.warpsCalm_bytesMerged _ g.gmem) (Hw.warpsCalm_of_warps recs.warps))⟩
  refine (recs.units v).trans (Eq.trans ?_ (marks.units v))
  rw [bytes]

theorem Hw.byte_commitGuard (h : Hw) (e : Env) (u : Nat) {g : GUnit} (rising : Tab.rising g.gmem = true) (x : Nat) :
    (h.commitGuard u g).byte e x = match Tab.find? g.gmem x with | some b => b | none => h.byte e x := by
  have before : (h.marksMerged g).byte e x = h.byte e x := Hw.byte_of_wq e (Hw.Marked.marksMerged h g).wq x
  rw [Hw.commitGuard_eq, Hw.byte_of_wq e (Hw.Marked.recsMerged _ u g).wq x, Hw.byte_bytesMerged _ e rising, before]

/-! ## What it held is free -/

section
variable (h : Hw) (u : Nat) (g : GUnit)

/-- The unit's release records are gone. -/
def Hw.guardRecsGone : Hw := ((Tab.keys h.recs).filter fun k => k / 2 ^ 52 == u + 1).foldl (fun h k => h.dropRec (.mem k)) h
/-- So are its guarded lines. -/
def Hw.guardGone : Hw := (Tab.keys (h.guardRecsGone u).cores).foldl (fun h k => h.dropL1 k (guardCtx u)) (h.guardRecsGone u)

theorem Hw.guardGone_eq : h.guardGone u = { h with
    fns := (h.guardGone u).fns, recs := (h.guardGone u).recs, cores := (h.guardGone u).cores } := by
  refine List.foldlRecOn (motive := fun k : Hw => k = { h with fns := k.fns, recs := k.recs, cores := k.cores }) _ _ ?_
    fun k hk x _ => by rw [Hw.dropL1, Hw.onCore, hk]
  refine List.foldlRecOn (motive := fun k : Hw => k = { h with fns := k.fns, recs := k.recs, cores := k.cores }) _ _ rfl
    fun k hk x _ => ?_
  unfold Hw.dropRec
  split
  · exact hk
  · rw [Hw.putRec, Hw.onFn, Hw.setFn, hk]

/-- A unit that holds nothing more. -/
def GUnit.cleared (g : GUnit) : GUnit := { g with gmem := [], gmarks := [], ring := none }

/-- The reservation of the unit's ring is free. -/
def Hw.ringFreed : Hw := match g.ring with
  | some r => h.onRing r fun x => { x with guard := x.guard - 4096 * g.nt }
  | none => h

theorem Hw.ringFreed_eq : h.ringFreed g = { h with rings := (h.ringFreed g).rings } := by
  unfold Hw.ringFreed
  split <;> rfl

theorem Hw.clearGuard_eq : h.clearGuard u g = ((h.guardGone u).ringFreed g).onUnit u GUnit.cleared := rfl

theorem Hw.clearGuard_rest : h.clearGuard u g = { h with
    fns := (h.guardGone u).fns, recs := (h.guardGone u).recs, cores := (h.guardGone u).cores
    rings := (h.clearGuard u g).rings, units := Tab.modify h.units u GUnit.cleared } := by
  rw [Hw.clearGuard_eq, Hw.onUnit, Hw.ringFreed_eq, Hw.guardGone_eq]

theorem Hw.ring_clearGuard {r : Nat} (ring : g.ring = some r) : ((h.clearGuard u g).ring r).guard = (h.ring r).guard - 4096 * g.nt := by
  have freed : (h.clearGuard u g).ring r = ((h.guardGone u).onRing r fun x => { x with guard := x.guard - 4096 * g.nt }).ring r := by
    rw [Hw.clearGuard_eq, Hw.ringFreed, ring]
    rfl
  rw [freed, Hw.ring_onRing, if_pos rfl, Hw.guardGone_eq]
  rfl
end

/-! ## The end of a unit that is not its command's last -/

section
variable {h : Hw} {e : Env} {u v : Nat} {g x y : GUnit}

/-- A unit is over, and its command goes on where another of its units is not. -/
theorem Hw.unitOver_of_other (apart : v ≠ u) (other : Tab.find? h.units v = some y) (fn : y.fn = g.fn) (seq : y.seq = g.seq)
    (open_ : y.ended = false) : h.unitOver e u g = h.onUnit u fun x => { x with ended := true } := by
  unfold Hw.unitOver
  dsimp only
  have there : Tab.find? (h.onUnit u fun x => { x with ended := true }).units v = some y :=
    (Tab.find?_modify_other _ _ apart).trans other
  refine if_neg fun all => ?_
  have ended := List.all_eq_true.mp all (v, y) (List.mem_filter.mpr ⟨Tab.mem_of_find? there, by simp [fn, seq]⟩)
  exact absurd (open_.symm.trans ended) Bool.false_ne_true

theorem Hw.writeStatus_none {front : Tab Nat} (status : g.status = 0) : h.writeStatus e g front = h := if_pos status

theorem GUnit.bare_fields (same : x.bare = y.bare) : x.fn = y.fn ∧ x.seq = y.seq ∧ x.ended = y.ended := by
  have fields := congrArg (fun z : GUnit => (z.fn, z.seq, z.ended)) same
  simpa [GUnit.bare] using fields

theorem GUnit.cleared_of_bare (same : x.bare = y.bare) : x.cleared = y.cleared :=
  show x.bare.cleared = y.bare.cleared from congrArg GUnit.cleared same
end

/-! ## UNIT_COMMIT -/

/-- The outcome of a unit (R112, R113). -/
def Hw.unitOut (h : Hw) (g : GUnit) : Nat :=
  if g.faulted || g.poisoned then 5 else if !(g.sealed && g.verdict) then 2 else if h.mergeConflict g then 4 else 1

section
variable {s : State} {u : Nat} {g : GUnit}

/-- The unit's outcome stands. -/
def Hw.judged (h : Hw) (u : Nat) (g : GUnit) (out : Nat) : Hw := h.onUnit u fun _ => { g with outcome := out }

theorem unitCommit_commits (e : Env) (h : Hw) (hu : u = h.occ.unit) (unit : Tab.find? h.units u = some g) (open_ : g.outcome = 0)
    (out : h.unitOut g = 1) (status : g.status = 0) (free : (g.gmem.any fun x => Tab.has h.owners (lineOf x.1)) = false) : ∃ p,
    unitCommit e h = (((((((h.judged u g 1).commitGuard u { g with outcome := 1 }).clearGuard u { g with outcome := 1 }).settleGrid
      (g.tiles.map fun t => (t, g.outtag)) true).unitOver e u { g with outcome := 1 }).place p)).moved := by
  subst hu
  unfold unitCommit
  dsimp only
  rw [unit]
  dsimp only
  rw [show (if g.faulted || g.poisoned then 5 else if !(g.sealed && g.verdict) then 2
        else if h.mergeConflict g then 4 else 1) = 1 from out, if_neg (not_not.mpr open_)]
  refine ⟨_, (if_neg ?_).trans ((if_pos rfl).trans (congrArg
    (fun k : Hw => ((k.unitOver e h.occ.unit { g with outcome := 1 }).place _).moved)
    (Hw.writeStatus_none (g := { g with outcome := 1 }) status)))⟩
  rw [free, status]
  simp

theorem unitCommit_discards (e : Env) (h : Hw) (hu : u = h.occ.unit) (unit : Tab.find? h.units u = some g) (open_ : g.outcome = 0)
    (out : h.unitOut g ≠ 1) : ∃ gid, unitCommit e h =
      (((h.judged u g (h.unitOut g)).clearGuard u { g with outcome := h.unitOut g }).launchExact u
        { g with outcome := h.unitOut g } gid).moved := by
  subst hu
  unfold unitCommit
  dsimp only
  rw [unit]
  dsimp only
  rw [show (if g.faulted || g.poisoned then 5 else if !(g.sealed && g.verdict) then 2
        else if h.mergeConflict g then 4 else 1) = h.unitOut g from rfl]
  simp only [open_, ne_eq, not_true_eq_false, if_false, out, false_and]
  exact ⟨_, rfl⟩
end

section
variable {s : State} {u : Nat} {g : GUnit}

theorem Hw.tagsOnly_settleTiles (h : Hw) (g : GUnit) (ok : Bool) : h.tagsOnly (h.settleGrid (g.tiles.map fun t => (t, g.outtag)) ok) :=
  Hw.tagsOnly_settleGrid _ _ _

theorem Hw.tag_settleTiles (h : Hw) {g : GUnit} {ok : Bool} {k : Nat} (tile : k ∈ g.tiles) (memory : paKind (4096 * k) = .hbm)
    (converting : tagSt (h.tag (4096 * k)) = 2) :
    (h.settleGrid (g.tiles.map fun t => (t, g.outtag)) ok).tag (4096 * k) = settledTag (h.tag (4096 * k)) g.outtag ok := by
  refine Hw.tag_settleGrid memory (List.mem_map.mpr ⟨k, tile, rfl⟩) (fun t ht _ => ?_) converting
  obtain ⟨_, -, rfl⟩ := List.mem_map.mp ht
  rfl

/-- The unit has its outcome, its bytes and marks are in memory, and it holds nothing more. -/
def Hw.committed (h : Hw) (u : Nat) (g : GUnit) : Hw :=
  ((h.judged u g 1).commitGuard u { g with outcome := 1 }).clearGuard u { g with outcome := 1 }

theorem Hw.unit_judged {h : Hw} (out : Nat) (unit : Tab.find? h.units u = some g) :
    Tab.find? (h.judged u g out).units u = some { g with outcome := out } :=
  (Tab.find?_modify_same _ _ _).trans (by rw [unit]; rfl)

theorem Hw.unit_judged_other (h : Hw) (out : Nat) {v : Nat} (other : v ≠ u) :
    Tab.find? (h.judged u g out).units v = Tab.find? h.units v := Tab.find?_modify_other _ _ other

/-- Two machines that differ only in what a unit's commit changes. -/
theorem Hw.committed_rest (h : Hw) (u : Nat) (g : GUnit) : (h.committed u g).tags = h.tags ∧ h.warpsCalm (h.committed u g) := by
  have merged := Hw.merged_commitGuard (h.judged u g 1) u { g with outcome := 1 }
  unfold Hw.committed
  rw [Hw.clearGuard_rest]
  refine ⟨?_, merged.calm⟩
  show ((h.judged u g 1).commitGuard u _).tags = _
  rw [merged.rest]
  rfl

theorem Hw.unit_committed {h : Hw} (unit : Tab.find? h.units u = some g) :
    Tab.find? (h.committed u g).units u = some { g with outcome := 1, gmem := [], gmarks := [], ring := none } := by
  have merged := (Hw.merged_commitGuard (h.judged u g 1) u { g with outcome := 1 }).units u
  rw [Hw.unit_judged 1 unit] at merged
  obtain ⟨x, there, same⟩ := Option.map_eq_some_iff.mp merged
  unfold Hw.committed
  rw [Hw.clearGuard_rest]
  refine (Tab.find?_modify_same _ _ _).trans ?_
  rw [there]
  exact congrArg some (GUnit.cleared_of_bare same)

theorem Hw.unit_committed_other {h : Hw} {v : Nat} {y : GUnit} (other : v ≠ u) (unit : Tab.find? h.units v = some y) :
    ∃ x, Tab.find? (h.committed u g).units v = some x ∧ x.fn = y.fn ∧ x.seq = y.seq ∧ x.ended = y.ended := by
  have merged := (Hw.merged_commitGuard (h.judged u g 1) u { g with outcome := 1 }).units v
  rw [Hw.unit_judged_other h 1 other, unit] at merged
  obtain ⟨x, there, same⟩ := Option.map_eq_some_iff.mp merged
  unfold Hw.committed
  rw [Hw.clearGuard_rest]
  exact ⟨x, (Tab.find?_modify_other _ _ other).trans there, GUnit.bare_fields same⟩

theorem Hw.byte_committed (h : Hw) (e : Env) (u : Nat) (rising : Tab.rising g.gmem = true) (x : Nat) :
    (h.committed u g).byte e x = match Tab.find? g.gmem x with | some b => b | none => h.byte e x := by
  refine (Hw.byte_of_wq e ?_ x).trans (Hw.byte_commitGuard (h.judged u g 1) e u (g := { g with outcome := 1 }) rising x)
  unfold Hw.committed
  rw [Hw.clearGuard_rest]

theorem Hw.ring_committed (h : Hw) (u : Nat) {r : Nat} (ring : g.ring = some r) :
    ((h.committed u g).ring r).guard = (h.ring r).guard - 4096 * g.nt := by
  refine (Hw.ring_clearGuard _ u { g with outcome := 1 } ring).trans ?_
  rw [(Hw.merged_commitGuard (h.judged u g 1) u { g with outcome := 1 }).rest]
  rfl

theorem unitCommit_commit (hs : s.Inv) (hu : u = s.hw.occ.unit) (unit : Tab.find? s.hw.units u = some g) (open_ : g.outcome = 0)
    (sound : g.faulted = false) (clean : g.poisoned = false) (sealed_ : g.sealed = true) (verdict : g.verdict = true)
    (apart : s.hw.mergeConflict g = false) (status : g.status = 0)
    (free : (g.gmem.any fun x => Tab.has s.hw.owners (lineOf x.1)) = false) (rising : Tab.rising g.gmem = true)
    (goes : ∃ v y, v ≠ u ∧ Tab.find? s.hw.units v = some y ∧ y.fn = g.fn ∧ y.seq = g.seq ∧ y.ended = false) :
    ∃ t, exec .unitCommit s = .next t ∧ t.clk = s.clk ∧ WarpsCalm s t ∧
      (∀ x, t.byte x = match Tab.find? g.gmem x with | some b => b | none => s.byte x) ∧
      Tab.find? t.hw.units u = some { g with outcome := 1, gmem := [], gmarks := [], ring := none, ended := true } ∧
      (∀ r, g.ring = some r → (t.hw.ring r).guard = (s.hw.ring r).guard - 4096 * g.nt) ∧
      ∀ k ∈ g.tiles, paKind (4096 * k) = .hbm → tagSt (s.hw.tag (4096 * k)) = 2 → t.hw.tag (4096 * k) = withSt g.outtag 0 := by
  obtain ⟨v, y, other, unit', fn, seq, more⟩ := goes
  obtain ⟨x, there, fn', seq', ended'⟩ := Hw.unit_committed_other (g := g) other unit'
  have out : s.hw.unitOut g = 1 := by simp [Hw.unitOut, sound, clean, sealed_, verdict, apart]
  obtain ⟨p, step⟩ := unitCommit_commits (env s) s.hw hu unit open_ out status free
  obtain ⟨tags, calm⟩ := s.hw.committed_rest u g
  have settled := (s.hw.committed u g).tagsOnly_settleTiles g true
  have ends : ((s.hw.committed u g).settleGrid (g.tiles.map fun t => (t, g.outtag)) true).unitOver (env s) u { g with outcome := 1 } =
      ((s.hw.committed u g).settleGrid (g.tiles.map fun t => (t, g.outtag)) true).onUnit u fun x => { x with ended := true } :=
    Hw.unitOver_of_other other (by rw [settled]; exact there) (fn'.trans fn) (seq'.trans seq) (ended'.trans more)
  have plan := Hw.agendaOnly_planOnce (((s.hw.committed u g).settleGrid (g.tiles.map fun t => (t, g.outtag)) true).onUnit u
    fun x => { x with ended := true }) .blockPlacement { Occasion.none with unit := p }
  have result := step.trans (congrArg (fun k : Hw => (k.place p).moved) ends)
  rw [Hw.place, plan, Hw.onUnit] at result
  refine ⟨_, (show exec .unitCommit s = s.event unitCommit from rfl).trans (event_eq_after result), rfl, ?_, fun x => ?_, ?_,
    fun r ring => ?_, fun k tile memory converting => ?_⟩
  · exact warpsCalm_after (Hw.warpsCalm_trans calm (Hw.warpsCalm_of_warps (by rw [settled]; rfl)))
  · rw [State.byte_after, ← Hw.byte_of_unwritten hs.2 x, ← s.hw.byte_committed (env s) u rising x]
    exact Hw.byte_of_wq _ (by rw [settled]; rfl) x
  · refine (Tab.find?_modify_same _ _ _).trans ?_
    rw [settled, Hw.unit_committed unit]
    rfl
  · refine Eq.trans ?_ (s.hw.ring_committed u ring)
    rw [settled]
    rfl
  · have before : (s.hw.committed u g).tag (4096 * k) = s.hw.tag (4096 * k) := by unfold Hw.tag; rw [tags]
    refine (Hw.tag_settleTiles _ tile memory (by rw [before]; exact converting)).trans ?_
    rw [settledTag, if_pos rfl]

theorem unitCommit_discard (hs : s.Inv) (hu : u = s.hw.occ.unit) (unit : Tab.find? s.hw.units u = some g) (open_ : g.outcome = 0)
    (bad : g.faulted = true ∨ g.poisoned = true ∨ g.sealed = false ∨ g.verdict = false ∨ s.hw.mergeConflict g = true) :
    ∃ t gid, exec .unitCommit s = .next t ∧ t.mem = s.mem ∧ t.clk = s.clk ∧ t.hw.warps = s.hw.warps ∧
      t.hw.grids = s.hw.grids ++ [(s.hw.nextId, { Grid.plain .exact g.fn g.seq gid g.exact with unit := some u })] ∧
      Tab.find? t.hw.units u = some { g with
        outcome := if g.faulted || g.poisoned then 5 else if g.sealed && g.verdict then 4 else 2
        gmem := [], gmarks := [], ring := none } := by
  have out : s.hw.unitOut g = if g.faulted || g.poisoned then 5 else if g.sealed && g.verdict then 4 else 2 := by
    unfold Hw.unitOut
    by_cases stopped : (g.faulted || g.poisoned) = true
    · rw [if_pos stopped, if_pos stopped]
    · rw [if_neg stopped, if_neg stopped]
      by_cases passed : (g.sealed && g.verdict) = true
      · have conflict : s.hw.mergeConflict g = true := by
          rw [Bool.or_eq_true, not_or] at stopped
          rw [Bool.and_eq_true] at passed
          simpa [stopped, passed] using bad
        rw [passed, conflict]
        rfl
      · rw [Bool.not_eq_true] at passed
        rw [passed]
        rfl
  have failed : s.hw.unitOut g ≠ 1 := by
    rw [out]
    split
    · decide
    · split <;> decide
  obtain ⟨gid, step⟩ := unitCommit_discards (env s) s.hw hu unit open_ failed
  have plan := Hw.agendaOnly_planOnce (((s.hw.judged u g (s.hw.unitOut g)).clearGuard u { g with outcome := s.hw.unitOut g }).addGrid
    { Grid.plain .exact g.fn g.seq gid g.exact with unit := some u }).1 .blockPlacement
      { Occasion.none with unit := ((s.hw.judged u g (s.hw.unitOut g)).clearGuard u { g with outcome := s.hw.unitOut g }).partOf g.fn }
  rw [Hw.launchExact, Hw.place, plan, Hw.addGrid, Hw.clearGuard_rest] at step
  refine ⟨_, gid, (show exec .unitCommit s = s.event unitCommit from rfl).trans (event_eq_after step),
    State.mem_after hs.2, rfl, rfl, rfl, ?_⟩
  refine (Tab.find?_modify_same _ _ _).trans ?_
  rw [Hw.unit_judged _ unit, ← out]
  rfl

/-! ## EXACT_KERNEL_END -/

/-- The exact kernel of the unit is gone, its cause is the unit's, and the unit's tiles have settled. -/
def Hw.exactEnded (h : Hw) (u : Nat) (g : GUnit) (gid cause : Nat) : Hw :=
  ((h.onUnit u fun _ => { g with ecause := cause }).dropGrid gid).settleGrid (g.tiles.map fun t => (t, g.outtag)) (cause = 0)

theorem exactKernelEnd_of_unit (e : Env) (h : Hw) {gid : Nat} {x : Grid} (hu : u = h.occ.unit) (unit : Tab.find? h.units u = some g)
    (kernel : (h.grids.find? fun (x : Nat × Grid) => x.2.kind == .exact && x.2.unit == some u) = some (gid, x))
    (all : x.total ≤ x.freed) (status : g.status = 0) : ∃ p,
    exactKernelEnd e h = (((h.exactEnded u g gid x.cause).unitOver e u { g with ecause := x.cause }).place p).moved := by
  subst hu
  unfold exactKernelEnd
  dsimp only
  rw [unit]
  dsimp only
  rw [kernel]
  exact ⟨_, (if_neg (Nat.not_lt.mpr all)).trans (congrArg
    (fun k : Hw => ((k.unitOver e h.occ.unit { g with ecause := x.cause }).place _).moved)
    (Hw.writeStatus_none (g := { g with ecause := x.cause }) status))⟩

/-- The unit is over with its exact kernel. -/
def Hw.exactOver (h : Hw) (u : Nat) (g : GUnit) (gid cause : Nat) : Hw :=
  (h.exactEnded u g gid cause).onUnit u fun x => { x with ended := true }

theorem Hw.exactEnded_rest (h : Hw) (u : Nat) (g : GUnit) (gid cause : Nat) : h.exactEnded u g gid cause = { h with
    units := Tab.modify h.units u fun _ => { g with ecause := cause }, grids := h.grids.filter (fun y => y.1 != gid)
    tags := (h.exactEnded u g gid cause).tags } := by
  rw [Hw.exactEnded, Hw.tagsOnly_settleTiles]
  rfl

theorem Hw.unit_exactOver {h : Hw} (unit : Tab.find? h.units u = some g) (gid cause : Nat) :
    Tab.find? (h.exactOver u g gid cause).units u = some { g with ecause := cause, ended := true } := by
  refine (Tab.find?_modify_same _ _ _).trans ?_
  rw [Hw.exactEnded_rest]
  refine (congrArg (Option.map _) (Tab.find?_modify_same _ _ _)).trans ?_
  rw [unit]
  rfl

theorem Hw.tag_exactOver (h : Hw) (u : Nat) (gid cause : Nat) {k : Nat} (tile : k ∈ g.tiles) (memory : paKind (4096 * k) = .hbm)
    (converting : tagSt (h.tag (4096 * k)) = 2) : (h.exactOver u g gid cause).tag (4096 * k) =
      if cause = 0 then withSt g.outtag 0 else withSt (h.tag (4096 * k)) 3 := by
  refine (Hw.tag_settleTiles ((h.onUnit u fun _ => { g with ecause := cause }).dropGrid gid) tile memory converting).trans ?_
  rw [settledTag]
  simp only [decide_eq_true_eq]
  rfl

/-- The unit's exact kernel ends where its command goes on. -/
theorem exactKernelEnd_goes {e : Env} {h : Hw} {gid : Nat} {x : Grid} (hu : u = h.occ.unit) (unit : Tab.find? h.units u = some g)
    (kernel : (h.grids.find? fun (x : Nat × Grid) => x.2.kind == .exact && x.2.unit == some u) = some (gid, x))
    (all : x.total ≤ x.freed) (status : g.status = 0)
    (goes : ∃ v y, v ≠ u ∧ Tab.find? h.units v = some y ∧ y.fn = g.fn ∧ y.seq = g.seq ∧ y.ended = false) :
    ∃ p, exactKernelEnd e h = ((h.exactOver u g gid x.cause).place p).moved := by
  obtain ⟨v, y, other, unit', fn, seq, more⟩ := goes
  obtain ⟨p, step⟩ := exactKernelEnd_of_unit e h hu unit kernel all status
  have there : Tab.find? (h.exactEnded u g gid x.cause).units v = some y := by
    rw [Hw.exactEnded_rest]
    exact (Tab.find?_modify_other _ _ other).trans unit'
  exact ⟨p, step.trans (congrArg (fun k : Hw => (k.place p).moved)
    (Hw.unitOver_of_other (g := { g with ecause := x.cause }) other there fn seq more))⟩

theorem exactKernelEnd_ends {gid : Nat} {x : Grid} (hs : s.Inv) (hu : u = s.hw.occ.unit) (unit : Tab.find? s.hw.units u = some g)
    (kernel : (s.hw.grids.find? fun (x : Nat × Grid) => x.2.kind == .exact && x.2.unit == some u) = some (gid, x))
    (all : x.total ≤ x.freed) (status : g.status = 0)
    (goes : ∃ v y, v ≠ u ∧ Tab.find? s.hw.units v = some y ∧ y.fn = g.fn ∧ y.seq = g.seq ∧ y.ended = false) :
    ∃ t, exec .exactKernelEnd s = .next t ∧ t.mem = s.mem ∧ t.clk = s.clk ∧ t.hw.warps = s.hw.warps ∧
      t.hw.grids = s.hw.grids.filter (fun y => y.1 != gid) ∧
      Tab.find? t.hw.units u = some { g with ecause := x.cause, ended := true } ∧
      ∀ k ∈ g.tiles, paKind (4096 * k) = .hbm → tagSt (s.hw.tag (4096 * k)) = 2 →
        t.hw.tag (4096 * k) = if x.cause = 0 then withSt g.outtag 0 else withSt (s.hw.tag (4096 * k)) 3 := by
  obtain ⟨p, step⟩ := exactKernelEnd_goes (e := env s) hu unit kernel all status goes
  have rest : s.hw.exactOver u g gid x.cause = { s.hw with
      units := (s.hw.exactOver u g gid x.cause).units, grids := s.hw.grids.filter (fun y => y.1 != gid)
      tags := (s.hw.exactOver u g gid x.cause).tags } := by
    rw [Hw.exactOver, Hw.exactEnded_rest]
    rfl
  have unit' := Hw.unit_exactOver unit gid x.cause
  have tags := fun k tile memory converting => s.hw.tag_exactOver (g := g) u gid x.cause (k := k) tile memory converting
  generalize s.hw.exactOver u g gid x.cause = k at step rest unit' tags
  have plan := Hw.agendaOnly_planOnce k .blockPlacement { Occasion.none with unit := p }
  rw [Hw.place, plan] at step
  refine ⟨_, (show exec .exactKernelEnd s = s.event exactKernelEnd from rfl).trans (event_eq_after step),
    State.mem_after (by rw [rest]; exact hs.2), rfl, by rw [rest]; rfl, by rw [rest]; rfl, unit', tags⟩
end

end Sys2Proof.Machine
end

section
/-! # The watchdog

A warp that makes no progress is stopped in its handler (R157, R413). -/
namespace Sys2Proof.Machine

open Sys2Proof.Terms

/-! ## Replay packets -/

section
variable (h : Hw) (wk : Nat) (sel : Flight → Bool)

theorem Hw.packetise_rest : h.packetise wk sel = { h with
    warps := (h.packetise wk sel).warps, flights := (h.packetise wk sel).flights, agenda := (h.packetise wk sel).agenda } := by
  unfold Hw.packetise Hw.toPackets
  dsimp only
  split <;> rfl

/-- A warp's packets change nothing of it but their order. -/
theorem Hw.warp?_packetise : ∃ l : Warp → List Nat, ∀ w, h.warp? wk = some w →
    (h.packetise wk sel).warp? wk = some { w with replayFirst := l w } := by
  unfold Hw.packetise Hw.toPackets
  dsimp only
  split
  · exact ⟨fun w => w.replayFirst, fun w there => there⟩
  · exact ⟨_, fun w there => (Tab.find?_modify_same _ _ _).trans (congrArg (Option.map _) there)⟩

theorem Hw.warp?_packetise_other {n : Nat} (other : n ≠ wk) : (h.packetise wk sel).warp? n = h.warp? n := by
  unfold Hw.packetise Hw.toPackets
  dsimp only
  split
  · rfl
  · exact Tab.find?_modify_other _ _ other
end

/-! ## A trap that is not a race -/

section
variable {h : Hw} {e : Env} {k : Nat} {w : Warp}

/-- Where the partition has a handler and its entry is not held, a user warp takes a trap in it. -/
theorem Hw.takeTrap_enters {x : Bool} {t : Trap} (there : h.warp? k = some w) (user : w.mode = .user)
    (handler : (h.part (h.partOf (wkFn k))).phvec ≠ 0#64) (free : (h.part (h.partOf (wkFn k))).imask.getLsbD 0 = false)
    (noRace : t.c.extractLsb' 0 8 ≠ 0x07#8) : h.takeTrap e k x t =
      ((h.packetise k fun f => f.path != x).onWarp k fun w => w.enter t x (h.part (h.partOf (wkFn k))).phvec e.clk.cycle).moved := by
  unfold Hw.takeTrap Hw.enterTrap
  rw [if_neg noRace, there]
  dsimp only
  rw [if_neg (not_or.mpr ⟨by rw [user]; decide, handler⟩), free]
  rfl

/-- The watchdog's trap (Table 8.9). -/
def Warp.watchdogTrap (w : Warp) : Trap :=
  ⟨BitVec.ofNat 64 cWDOG, (w.path w.looping).pc, 0#64, BitVec.ofNat 64 ((if w.looping then 1 else 0) +
    (if w.split.isSome then 2 else 0) + 2 ^ 32 * min (w.path w.looping).count 0xFFFFFFFF), 0#64⟩

theorem Warp.watchdogTrap_noRace (w : Warp) : w.watchdogTrap.c.extractLsb' 0 8 ≠ 0x07#8 := by
  show (BitVec.ofNat 64 cWDOG).extractLsb' 0 8 ≠ 0x07#8
  decide

theorem watchdogExpiry_due {b : Block} (hk : k = h.occ.id) (there : h.warp? k = some w) (block : h.block? (wkBlock k) = some b)
    (due : Hw.watchdogDue e b w = true) (runs : h.runs (wkFn k) = true) :
    watchdogExpiry e h = h.takeTrap e k w.looping w.watchdogTrap := by
  subst hk
  unfold watchdogExpiry
  dsimp only
  rw [there, block]
  exact if_neg (by rw [due, runs]; decide)
end

theorem watchdogExpiry_stops {s : State} {k : Nat} {w : Warp} {b : Block} {p : Part} (hs : s.Inv) (hk : k = s.hw.occ.id)
    (there : s.hw.warp? k = some w) (block : s.hw.block? (wkBlock k) = some b) (due : Hw.watchdogDue (env s) b w = true)
    (runs : s.hw.runs (wkFn k) = true) (hp : p = s.hw.part (s.hw.partOf (wkFn k))) (user : w.mode = .user)
    (handler : p.phvec ≠ 0#64) (free : p.imask.getLsbD 0 = false) :
    ∃ t v, exec .watchdogExpiry s = .next t ∧ t.mem = s.mem ∧ t.clk = s.clk ∧
      t.hw = { s.hw with warps := t.hw.warps, flights := t.hw.flights, agenda := t.hw.agenda, tried := [] } ∧
      (∀ n, n ≠ k → t.hw.warp? n = s.hw.warp? n) ∧
      t.hw.warp? k = some v ∧ v.mode = .handler ∧ v.trapc = 0x0B#64 ∧ v.trappc = (w.path w.looping).pc ∧
      v.frame = some ⟨{ w.p0 with later := 0#32 }, { w.p1 with later := 0#32 }, w.split, w.looping, (w.path w.looping).pc⟩ ∧
      stands v.p0 = (p.phvec, w.remaining, [], 0) ∧
      v.trapo = BitVec.ofNat 64 (w.looping.toNat + 2 * w.split.isSome.toNat +
        2 ^ 32 * min (w.path w.looping).count 0xFFFFFFFF) ∧
      v.vregs = w.vregs ∧ v.uregs = w.uregs ∧ v.preds = w.preds := by
  subst hp
  have step := (watchdogExpiry_due hk there block due runs).trans (Hw.takeTrap_enters there user handler free w.watchdogTrap_noRace)
  obtain ⟨l, packed⟩ := s.hw.warp?_packetise k fun f => f.path != w.looping
  have rest := s.hw.packetise_rest k fun f => f.path != w.looping
  have others := fun n other => s.hw.warp?_packetise_other k (fun f => f.path != w.looping) (n := n) other
  generalize s.hw.packetise k (fun f => f.path != w.looping) = j at step packed rest others
  have found := (Tab.find?_modify_same j.warps k fun v => v.enter w.watchdogTrap w.looping
    (s.hw.part (s.hw.partOf (wkFn k))).phvec (env s).clk.cycle).trans (congrArg _ (packed w there))
  have unwritten : j.wq = [] := by rw [rest]; exact hs.2
  refine ⟨_, _, (show exec .watchdogExpiry s = s.event watchdogExpiry from rfl).trans (event_eq_next step unwritten), rfl, rfl,
    by rw [rest]; rfl, fun n other => (Tab.find?_modify_other _ _ other).trans (others n other), found, rfl, rfl, rfl, rfl, rfl,
    ?_, rfl, rfl, rfl⟩
  show BitVec.ofNat 64 _ = BitVec.ofNat 64 _
  cases w.looping <;> cases w.split.isSome <;> rfl

end Sys2Proof.Machine
end

section
/-! # Placement

Where the distributor places the next block or cluster of a grid, and what stands there then (R117 to R129). -/
namespace Sys2Proof.Machine

open Sys2Proof.Terms

/-! ## What placement leaves -/

/-- Two machines with the same grids, and the same generation and interval of every slot. -/
structure Hw.Ranked (h k : Hw) : Prop where
  grids : k.grids = h.grids
  gen : ∀ f, (k.fn f).race.gen = (h.fn f).race.gen
  ctr : ∀ f, (k.fn f).race.ctr = (h.fn f).race.ctr

theorem Hw.Ranked.refl (h : Hw) : h.Ranked h := ⟨rfl, fun _ => rfl, fun _ => rfl⟩
theorem Hw.Ranked.trans {h k l : Hw} (a : h.Ranked k) (b : k.Ranked l) : h.Ranked l :=
  ⟨b.grids.trans a.grids, fun f => (b.gen f).trans (a.gen f), fun f => (b.ctr f).trans (a.ctr f)⟩
/-- Where a function's slots stand, so they do after a change of the rest of the function. -/
theorem Hw.Ranked.onFn (h : Hw) (f : Nat) {g : Fn → Fn} (gen : (g (h.fn f)).race.gen = (h.fn f).race.gen)
    (ctr : (g (h.fn f)).race.ctr = (h.fn f).race.ctr) : h.Ranked (h.onFn f g) := by
  refine ⟨rfl, fun k => ?_, fun k => ?_⟩
  · rw [Hw.fn_onFn]
    split
    · next at_ => rw [at_, gen]
    · rfl
  · rw [Hw.fn_onFn]
    split
    · next at_ => rw [at_, ctr]
    · rfl
theorem Hw.Ranked.of_rest {h k : Hw} (grids : k.grids = h.grids) (fns : k.fns = h.fns) : h.Ranked k := by
  have same (f : Nat) : k.fn f = h.fn f := by unfold Hw.fn; rw [fns]
  exact ⟨grids, fun f => by rw [same], fun f => by rw [same]⟩

/-- The same with every block and warp, and what was planned. -/
structure Hw.Steady (h k : Hw) : Prop extends Hw.Ranked h k where
  blocks : k.blocks = h.blocks
  warps : k.warps = h.warps
  plans : h.plansKept k

theorem Hw.Steady.refl (h : Hw) : h.Steady h := ⟨.refl h, rfl, rfl, Hw.plansKept_of_agenda rfl⟩
theorem Hw.Steady.trans {h k l : Hw} (a : h.Steady k) (b : k.Steady l) : h.Steady l :=
  ⟨a.toRanked.trans b.toRanked, b.blocks.trans a.blocks, b.warps.trans a.warps, Hw.plansKept_trans a.plans b.plans⟩
theorem Hw.Steady.of_keeps {h k : Hw} (a : Keeps h k) : h.Steady k :=
  ⟨⟨by rw [a.rest], fun f => by rw [a.fns f], fun f => by rw [a.fns f]⟩, by rw [a.rest], a.warps,
    Hw.plansKept_of_agenda a.agenda⟩
theorem Hw.Steady.setL1 (h : Hw) (core ctx line : Nat) (l : L1Line) : h.Steady (h.setL1 core ctx line l) :=
  ⟨.of_rest rfl rfl, rfl, rfl, Hw.plansKept_of_agenda rfl⟩
theorem Hw.Steady.onFCore (h : Hw) (f c : Nat) (g : FCore → FCore) : h.Steady (h.onFCore f c g) :=
  ⟨.of_rest rfl rfl, rfl, rfl, Hw.plansKept_of_agenda rfl⟩
theorem Hw.Steady.onUnit (h : Hw) (u : Nat) (g : GUnit → GUnit) : h.Steady (h.onUnit u g) :=
  ⟨.of_rest rfl rfl, rfl, rfl, Hw.plansKept_of_agenda rfl⟩
theorem Hw.Steady.planOnce (h : Hw) (i : Instr) (o : Occasion) : h.Steady (h.planOnce i o) := by
  have only := h.agendaOnly_planOnce i o
  exact ⟨.of_rest (by rw [only]) (by rw [only]), by rw [only], by rw [only], h.plansKept_planOnce i o⟩

theorem Hw.Steady.writeBackLine (h : Hw) (core ctx line : Nat) : h.Steady (h.writeBackLine core ctx line) := by
  unfold Hw.writeBackLine
  dsimp only
  split
  · exact .refl h
  · split
    · exact (Hw.Steady.onUnit h _ _).trans (.setL1 _ _ _ _ _)
    · have written : h.Steady { h with wq := (h.l1 core ctx line).dirtyBytes line ++ h.wq } :=
        ⟨.of_rest rfl rfl, rfl, rfl, Hw.plansKept_of_agenda rfl⟩
      exact ((written.trans (.of_keeps (.atHome _ _ _ _))).trans (.of_keeps (.count _ _ _ _ _ _ _))).trans (.setL1 _ _ _ _ _)

theorem Hw.Steady.fitL1 (n : Nat) (h : Hw) (core cap : Nat) : h.Steady (h.fitL1 n core cap) := by
  induction n generalizing h with
  | zero => exact .refl h
  | succ n ih =>
    unfold Hw.fitL1
    dsimp only
    split
    · exact .refl h
    · split
      · exact .refl h
      · next k _ =>
        have freed : h.Steady { h with free := h.free + 1 } := ⟨.of_rest rfl rfl, rfl, rfl, Hw.plansKept_of_agenda rfl⟩
        exact ((freed.trans (.writeBackLine _ core _ _)).trans (.setL1 _ _ _ _ _)).trans (ih _)

theorem Hw.Steady.jState (h : Hw) (e : Env) (f seq state status cause : Nat) (late : Bool) :
    h.Steady (h.jState e f seq state status cause late) := by
  have logged := Hw.Logged.jState h e f seq state status cause late
  exact ⟨⟨by rw [logged.rest], fun g => by rw [logged.fns], fun g => by rw [logged.fns]⟩, by rw [logged.rest], by rw [logged.rest],
    h.plansKept_jState e f seq state status cause late⟩

/-! ## Compaction -/

section
variable (h : Hw)

theorem Hw.Ranked.foldl {α : Type} {f : Hw → α → Hw} (step : ∀ (h : Hw) (x : α), h.Ranked (f h x)) (l : List α) :
    h.Ranked (l.foldl f h) := List.foldlRecOn (motive := h.Ranked) l f (.refl h) fun _ hk x _ => hk.trans (step _ x)

theorem Hw.Ranked.onWarp (wk : Nat) (g : Warp → Warp) : h.Ranked (h.onWarp wk g) := .of_rest rfl rfl
theorem Hw.Ranked.onBlock (bk : Nat) (g : Block → Block) : h.Ranked (h.onBlock bk g) := .of_rest rfl rfl
theorem Hw.Ranked.cmds (t : Tab Cmd) : h.Ranked { h with cmds := t } := .of_rest rfl rfl

theorem Hw.Ranked.moveSp (bk : Nat) (b : Block) (new : Nat) : h.Ranked (h.moveSp bk b new) := by
  unfold Hw.moveSp
  dsimp only
  exact ((((Hw.Steady.onFCore h _ _ _).toRanked.trans (.onFn _ (bkFn bk) rfl rfl)).trans (.cmds _ _)).trans
    (.foldl _ (fun k (x : Nat × Warp) => .onWarp k x.1 _) _)).trans (.onBlock _ bk _)

theorem Hw.Ranked.packRegs (f core wk : Nat) (w : Warp) : h.Ranked (h.packRegs f core wk w) := by
  unfold Hw.packRegs
  split
  · split
    · exact .of_rest rfl rfl
    · exact .refl h
  · exact .refl h

theorem Hw.Ranked.packSp (f core bk : Nat) (b : Block) : h.Ranked (h.packSp f core bk b) := by
  unfold Hw.packSp
  dsimp only
  split
  · exact .refl h
  · split
    · split
      · exact .moveSp h _ _ _
      · exact .refl h
    · exact .refl h

/-- Wherever a place was found, slots stand as they did. -/
theorem Hw.Ranked.compact {h k : Hw} {f core : Nat} {s : Shape} {cons : Option Shape} {x : Spot}
    (found : h.compact f core s cons = some (k, x)) :
    h.Ranked k := by
  have go (a : Hw × Option Spot) (move : Hw → Hw) (ranked : h.Ranked a.1) (step : ∀ j : Hw, j.Ranked (move j)) :
      h.Ranked (if a.2.isSome then a else (move a.1, ((move a.1).view f core).fit s cons)).1 := by
    split
    · exact ranked
    · exact ranked.trans (step _)
  unfold Hw.compact at found
  obtain ⟨y, -, same⟩ := Option.map_eq_some_iff.mp found
  obtain ⟨rfl, -⟩ := Prod.mk.inj same
  refine Hw.Ranked.trans ?_ (Hw.Steady.planOnce _ _ _).toRanked
  refine List.foldlRecOn (motive := fun a : Hw × Option Spot => h.Ranked a.1) _ _ ?_ fun a ranked y _ =>
    go a _ ranked fun j => .packSp j _ _ _ _
  exact List.foldlRecOn (motive := fun a : Hw × Option Spot => h.Ranked a.1) _ _ (.refl h) fun a ranked y _ =>
    go a _ ranked fun j => .packRegs j _ _ _ _

theorem Hw.Ranked.compactRing {k : Hw} {f ring : Nat} {s : Shape} {cons : Option Shape} {l : List Spot} (n : Nat) {h : Hw}
    (found : Hw.compactRing f s cons ring n h = some (k, l)) : h.Ranked k := by
  induction n generalizing h with
  | zero => exact absurd found (by simp [Hw.compactRing])
  | succ n ih =>
    unfold Hw.compactRing at found
    split at found
    · obtain ⟨rfl, -⟩ := Prod.mk.inj (Option.some.inj found)
      exact .refl h
    · split at found
      · exact absurd found (by simp)
      · split at found
        · exact absurd found (by simp)
        · next x compacted => exact (Hw.Ranked.compact (x := x.2) compacted).trans (ih found)

theorem Hw.Ranked.find {h k : Hw} {f : Nat} {rings : List Nat} {s : Shape} {cons : Option Shape} {l : List Spot}
    (found : h.find f rings s cons = some (k, l)) : h.Ranked k := by
  unfold Hw.find at found
  split at found
  · obtain ⟨rfl, -⟩ := Prod.mk.inj (Option.some.inj found)
    exact .refl h
  · split at found
    · obtain ⟨r, -, there⟩ := List.exists_of_findSome?_eq_some found
      exact .compactRing 9 there
    · split at found
      · exact absurd found (by simp)
      · obtain ⟨x, compacted, same⟩ := Option.map_eq_some_iff.mp found
        obtain ⟨rfl, -⟩ := Prod.mk.inj same
        exact .compact (x := x.2) compacted
end

/-! ## A block at its place -/

/-- The roles and allotments of a grid's warps. -/
def Grid.roles (g : Grid) : List (Bool × Nat) := warpsOf g.shape g.cons

/-- The slot of a block's place. -/
def Spot.place (t : Spot) : Nat := 16 * t.core + t.slot

/-- The generation and the interval that a slot's next block has. -/
def Hw.slotGen (h : Hw) (f slot : Nat) : Nat := (Tab.getD (h.fn f).race.gen slot 0 + 1) % 8
def Hw.slotIntv (h : Hw) (f slot : Nat) : Nat := Tab.getD (h.fn f).race.ctr slot 0 + 1

section
variable (h : Hw) (e : Env) (gid : Nat) (g : Grid) (unit : Option Nat) (lin : Nat) (t : Spot)

/-- The core's scratchpad holds the block. -/
def Hw.roomMade (f : Nat) : Hw :=
  if (h.fcore f t.core).split < t.split then
    (h.shrinkL1 t.core t.split).onFCore f t.core fun c => { c with split := t.split }
  else h

/-- The slot has its next generation and interval. -/
def Hw.slotTaken (f slot gen st : Nat) : Hw :=
  h.onFn f fun x => { x with race := { x.race with gen := Tab.put x.race.gen slot gen, ctr := Tab.put x.race.ctr slot st } }

/-- Does the block's launch time lie behind it? -/
def Grid.startsLate (g : Grid) (e : Env) (core : Nat) : Bool := match g.startAt with
  | some n => decide (n < localTick e core)
  | none => false

/-- A block as it is placed. -/
def placedBlock (gen st order : Nat) : Block :=
  { newBlock gen t.core gid lin g.shape g.cons order (1024 * t.sp.1) (1024 * t.sp.2) t.bar.1 st with
    front := if g.kind = .routine then g.exitF else [], startAt := if g.startsLate e t.core then none else g.startAt, unit := unit }

/-- The block's warps stand at their entry. -/
def Hw.warpsPut : Hw := g.roles.zipIdx.foldl (fun h (x : (Bool × Nat) × Nat) =>
  h.setWarp (32 * bkOf g.fn t.place + x.2) (placeWarp e g t x.2 x.1.1 x.1.2)) h

/-- The block stands, without its warps. -/
def Hw.blockPut (gen st : Nat) : Hw :=
  { h with nextId := h.nextId + 1, blocks := Tab.put h.blocks (bkOf g.fn t.place) (placedBlock e gid g unit lin t gen st h.nextId) }

/-- What the place was to an earlier block is gone. -/
def Hw.slotReady (gen st : Nat) : Hw :=
  ((((h.roomMade t g.fn).forgetBlock g.fn t.place gen).slotTaken g.fn t.place gen st).freshSp g.fn t.core
    (1024 * t.sp.1) (1024 * t.sp.2))

/-- The core forgets what a routine's block must not read, and a late launch is logged. -/
def Hw.placeNoted : Hw :=
  let k := if g.kind = .routine ∧ g.exitF ≠ [] then h.clearClean t.core (ctxOf g.fn) else h
  if g.startsLate e t.core then k.jState e g.fn g.seq 2 0 0 true else k

theorem Hw.putBlock_eq : h.putBlock e gid g unit lin t =
    ((((h.slotReady g t (h.slotGen g.fn t.place) (h.slotIntv g.fn t.place)).blockPut e gid g unit lin t
      (h.slotGen g.fn t.place) (h.slotIntv g.fn t.place)).warpsPut e g t).placeNoted e g t) := rfl

theorem Hw.Steady.roomMade (f : Nat) : h.Steady (h.roomMade t f) := by
  unfold Hw.roomMade
  split
  · exact (Hw.Steady.fitL1 _ h _ _).trans (.onFCore _ _ _ _)
  · exact .refl h

theorem Hw.Steady.forgetBlock (f slot gen : Nat) : h.Steady (h.forgetBlock f slot gen) := by
  refine ⟨?_, rfl, rfl, Hw.plansKept_of_agenda rfl⟩
  unfold Hw.forgetBlock
  dsimp only
  refine Hw.Ranked.trans (Hw.Ranked.of_rest (h := h) ?_ ?_) (.onFn _ f rfl rfl) <;> rfl

theorem Hw.Steady.freshSp (f core base n : Nat) : h.Steady (h.freshSp f core base n) := by
  refine ⟨?_, rfl, rfl, Hw.plansKept_of_agenda rfl⟩
  unfold Hw.freshSp
  exact (Hw.Steady.onFCore h f core _).toRanked.trans (.onFn _ f rfl rfl)

theorem Hw.Steady.placeNoted : h.Steady (h.placeNoted e g t) := by
  have cleared : h.Steady (h.clearClean t.core (ctxOf g.fn)) := ⟨.of_rest rfl rfl, rfl, rfl, Hw.plansKept_of_agenda rfl⟩
  have noted : h.Steady (if g.kind = .routine ∧ g.exitF ≠ [] then h.clearClean t.core (ctxOf g.fn) else h) := by
    split
    · exact cleared
    · exact .refl h
  unfold Hw.placeNoted
  dsimp only
  split
  · exact noted.trans (.jState _ _ _ _ _ _ _ _)
  · exact noted
end

/-- Warps are written from a place on. -/
theorem Hw.warp?_setWarps {α : Type} (base : Nat) (p : Nat → α → Warp) (l : List α) (n : Nat) (h : Hw) (k : Nat) :
    ((l.zipIdx n).foldl (fun h (x : α × Nat) => h.setWarp (base + x.2) (p x.2 x.1)) h).warp? k =
      if base + n ≤ k then match l[k - (base + n)]? with | some r => some (p (k - base) r) | none => h.warp? k else h.warp? k := by
  induction l generalizing n h with
  | nil => simp
  | cons a l ih =>
    rw [List.zipIdx_cons, List.foldl_cons, ih]
    rcases Nat.lt_trichotomy k (base + n) with below | rfl | beyond
    · rw [if_neg (by omega), if_neg (by omega), Hw.warp?_setWarp_other _ _ (by omega)]
    · rw [if_neg (by omega), if_pos le_rfl, Hw.warp?_setWarp_same, Nat.sub_self, Nat.add_sub_cancel_left]
      rfl
    · rw [if_pos (by omega), if_pos (by omega), Hw.warp?_setWarp_other _ _ (by omega),
        show k - (base + n) = k - (base + (n + 1)) + 1 by omega, List.getElem?_cons_succ]

section
variable {h k l : Hw} {e : Env} {gid : Nat} {g : Grid} {unit : Option Nat} {lin : Nat} {t : Spot}

theorem Hw.warp?_warpsPut {i : Nat} {r : Bool × Nat} (there : g.roles[i]? = some r) :
    (h.warpsPut e g t).warp? (wkOf g.fn t.place i) = some (placeWarp e g t i r.1 r.2) := by
  refine (Hw.warp?_setWarps (32 * bkOf g.fn t.place) (fun i (r : Bool × Nat) => placeWarp e g t i r.1 r.2) _ 0 h _).trans ?_
  rw [wkOf, Nat.add_zero, if_pos (Nat.le_add_right _ _), Nat.add_sub_cancel_left, there]

theorem Hw.warp?_warpsPut_other (few : g.roles.length ≤ 32) {n : Nat} (other : wkBlock n ≠ bkOf g.fn t.place) :
    (h.warpsPut e g t).warp? n = h.warp? n := by
  refine (Hw.warp?_setWarps (32 * bkOf g.fn t.place) (fun i (r : Bool × Nat) => placeWarp e g t i r.1 r.2) _ 0 h _).trans ?_
  split
  · next behind =>
    unfold wkBlock at other
    rw [List.getElem?_eq_none (by omega)]
  · rfl

/-- The block that was placed at a spot (R121, R125, R126, R131, R207). -/
def FreshBlock (gid : Nat) (g : Grid) (lin : Nat) (t : Spot) (st gen : Nat) (b : Block) : Prop :=
  b.core = t.core ∧ b.grid = gid ∧ b.lin = lin ∧ b.shape = g.shape ∧ b.cons = g.cons ∧ b.spBase = 1024 * t.sp.1 ∧
    b.spBytes = 1024 * t.sp.2 ∧ b.st = st ∧ b.c = b.st ∧ b.gen = gen ∧ b.bars = [] ∧ b.ready = [] ∧ b.killed = false

theorem freshBlock_placedBlock (e : Env) (gid : Nat) (g : Grid) (unit : Option Nat) (lin : Nat) (t : Spot) (gen st order : Nat) :
    FreshBlock gid g lin t st gen (placedBlock e gid g unit lin t gen st order) :=
  ⟨rfl, rfl, rfl, rfl, rfl, rfl, rfl, rfl, rfl, rfl, rfl, rfl, rfl⟩

/-- A warp of it (R143, R159 to R163). -/
def FreshWarp (g : Grid) (r : Bool × Nat) (w : Warp) : Prop :=
  w.role = r.1 ∧ w.vallot = r.2 ∧ w.mode = .user ∧ w.vregs = [] ∧ w.preds = [] ∧ w.done = false ∧ w.p1.live = false ∧
    stands w.p0 = ((match g.cons with | some c => if r.1 then g.shape.entry else c.entry | none => g.shape.entry),
      allMask g.shape.k, [], 0)

theorem freshWarp_placeWarp (e : Env) (g : Grid) (t : Spot) (i : Nat) (r : Bool × Nat) :
    FreshWarp g r (placeWarp e g t i r.1 r.2) := ⟨rfl, rfl, rfl, rfl, rfl, rfl, rfl, rfl⟩

/-- A block of the grid, and its warps, stand at a spot. -/
structure StandsAt (k : Hw) (gid : Nat) (g : Grid) (lin : Nat) (t : Spot) (st gen : Nat) : Prop where
  block : ∃ b, k.block? (bkOf g.fn t.place) = some b ∧ FreshBlock gid g lin t st gen b
  warp : ∀ i r, g.roles[i]? = some r → ∃ w, k.warp? (wkOf g.fn t.place i) = some w ∧ FreshWarp g r w

/-- What placing a block elsewhere leaves. -/
structure Hw.Elsewhere (h k : Hw) (f : Nat) (slots : List Nat) : Prop where
  grids : k.grids = h.grids
  gen : ∀ slot, slot ∉ slots → Tab.getD (k.fn f).race.gen slot 0 = Tab.getD (h.fn f).race.gen slot 0
  ctr : ∀ slot, slot ∉ slots → Tab.getD (k.fn f).race.ctr slot 0 = Tab.getD (h.fn f).race.ctr slot 0
  block : ∀ n, n ∉ slots.map (bkOf f) → k.block? n = h.block? n
  warp : ∀ n, wkBlock n ∉ slots.map (bkOf f) → k.warp? n = h.warp? n
  plans : h.plansKept k

theorem Hw.Elsewhere.of_steady {f : Nat} {slots : List Nat} (a : h.Steady k) : h.Elsewhere k f slots where
  grids := a.grids
  gen _ _ := by rw [a.gen]
  ctr _ _ := by rw [a.ctr]
  block n _ := by unfold Hw.block?; rw [a.blocks]
  warp n _ := by unfold Hw.warp?; rw [a.warps]
  plans := a.plans

theorem Hw.Elsewhere.trans {f : Nat} {slots more : List Nat} (a : h.Elsewhere k f slots) (b : k.Elsewhere l f more) :
    h.Elsewhere l f (slots ++ more) where
  grids := b.grids.trans a.grids
  gen slot out := (b.gen slot fun i => out (List.mem_append_right _ i)).trans (a.gen slot fun i => out (List.mem_append_left _ i))
  ctr slot out := (b.ctr slot fun i => out (List.mem_append_right _ i)).trans (a.ctr slot fun i => out (List.mem_append_left _ i))
  block n out := by
    rw [List.map_append, List.mem_append, not_or] at out
    exact (b.block n out.2).trans (a.block n out.1)
  warp n out := by
    rw [List.map_append, List.mem_append, not_or] at out
    exact (b.warp n out.2).trans (a.warp n out.1)
  plans := Hw.plansKept_trans a.plans b.plans

theorem Hw.elsewhere_slotTaken (h : Hw) (f slot gen st : Nat) : h.Elsewhere (h.slotTaken f slot gen st) f [slot] := by
  have taken : (h.slotTaken f slot gen st).fn f = { h.fn f with race := { (h.fn f).race with
      gen := Tab.put (h.fn f).race.gen slot gen, ctr := Tab.put (h.fn f).race.ctr slot st } } := Hw.fn_onFn_same _ _ _
  refine ⟨rfl, fun j out => ?_, fun j out => ?_, fun _ _ => rfl, fun _ _ => rfl, Hw.plansKept_of_agenda rfl⟩
  · rw [taken]
    exact Tab.getD_put_other _ _ _ (List.ne_of_not_mem_cons out)
  · rw [taken]
    exact Tab.getD_put_other _ _ _ (List.ne_of_not_mem_cons out)

theorem Hw.elsewhere_blockPut (gen st : Nat) : h.Elsewhere (h.blockPut e gid g unit lin t gen st) g.fn [t.place] :=
  ⟨rfl, fun _ _ => rfl, fun _ _ => rfl, fun _ out => Tab.find?_put_other _ _ (List.ne_of_not_mem_cons out), fun _ _ => rfl,
    Hw.plansKept_of_agenda rfl⟩

theorem Hw.warpsPut_rest (h : Hw) (e : Env) (g : Grid) (t : Spot) : h.warpsPut e g t = { h with warps := (h.warpsPut e g t).warps } := by
  refine List.foldlRecOn (motive := fun k : Hw => k = { h with warps := k.warps }) _ _ rfl fun k hk x _ => ?_
  rw [Hw.setWarp, hk]

theorem Hw.elsewhere_warpsPut (few : g.roles.length ≤ 32) : h.Elsewhere (h.warpsPut e g t) g.fn [t.place] := by
  have rest := h.warpsPut_rest e g t
  exact ⟨by rw [rest], fun _ _ => by rw [rest]; rfl, fun _ _ => by rw [rest]; rfl, fun _ _ => by rw [rest]; rfl,
    fun n out => Hw.warp?_warpsPut_other few (List.ne_of_not_mem_cons out), Hw.plansKept_of_agenda (by rw [rest])⟩

theorem Hw.Elsewhere.of_sub {f : Nat} {slots more : List Nat} (a : h.Elsewhere k f slots) (sub : slots ⊆ more) :
    h.Elsewhere k f more where
  grids := a.grids
  gen slot out := a.gen slot fun i => out (sub i)
  ctr slot out := a.ctr slot fun i => out (sub i)
  block n out := a.block n fun i => out (List.map_subset _ sub i)
  warp n out := a.warp n fun i => out (List.map_subset _ sub i)
  plans := a.plans

/-- Placing a block leaves every other slot's. -/
theorem Hw.elsewhere_putBlock (few : g.roles.length ≤ 32) : h.Elsewhere (h.putBlock e gid g unit lin t) g.fn [t.place] := by
  rw [Hw.putBlock_eq]
  have ready (gen st : Nat) : h.Elsewhere (h.slotReady g t gen st) g.fn ([] ++ [t.place] ++ []) :=
    ((Hw.Elsewhere.of_steady ((Hw.Steady.roomMade h t g.fn).trans (.forgetBlock _ g.fn t.place gen))).trans
      (Hw.elsewhere_slotTaken _ g.fn t.place gen st)).trans (.of_steady (.freshSp _ _ _ _ _))
  refine (((ready _ _).trans (Hw.elsewhere_blockPut _ _)).trans ((Hw.elsewhere_warpsPut few).trans
    (.of_steady (slots := []) (.placeNoted _ e g t)))).of_sub ?_
  simp

theorem StandsAt.of_same {st gen : Nat} (a : StandsAt h gid g lin t st gen)
    (block : k.block? (bkOf g.fn t.place) = h.block? (bkOf g.fn t.place))
    (warp : ∀ i, i < 32 → k.warp? (wkOf g.fn t.place i) = h.warp? (wkOf g.fn t.place i)) (few : g.roles.length ≤ 32) :
    StandsAt k gid g lin t st gen where
  block := by rw [block]; exact a.block
  warp i r there := by
    rw [warp i ((List.getElem?_eq_some_iff.mp there).1.trans_le few)]
    exact a.warp i r there

/-- A block stands where it was placed. -/
theorem placed_putBlock (few : g.roles.length ≤ 32) :
    StandsAt (h.putBlock e gid g unit lin t) gid g lin t (h.slotIntv g.fn t.place) (h.slotGen g.fn t.place) := by
  rw [Hw.putBlock_eq]
  generalize h.slotReady g t (h.slotGen g.fn t.place) (h.slotIntv g.fn t.place) = k
  generalize h.slotGen g.fn t.place = gen, h.slotIntv g.fn t.place = st
  have noted := Hw.Steady.placeNoted ((k.blockPut e gid g unit lin t gen st).warpsPut e g t) e g t
  refine StandsAt.of_same (h := (k.blockPut e gid g unit lin t gen st).warpsPut e g t)
    ⟨⟨_, ?_, freshBlock_placedBlock e gid g unit lin t _ _ k.nextId⟩, fun i r there =>
      ⟨_, Hw.warp?_warpsPut there, freshWarp_placeWarp e g t i r⟩⟩
    (by unfold Hw.block?; rw [noted.blocks]) (fun i _ => by unfold Hw.warp?; rw [noted.warps]) few
  rw [Hw.warpsPut_rest]
  exact Tab.find?_put_same _ _ _
end

/-! ## A cluster -/

section
variable {h : Hw} {e : Env} {gid : Nat} {g : Grid} {unit : Option Nat}

/-- Blocks from number n on stand at their spots, each reported. -/
def Hw.spotsPut (h : Hw) (e : Env) (gid : Nat) (g : Grid) (unit : Option Nat) (l : List Spot) (n : Nat) : Hw :=
  (l.zipIdx n).foldl (fun h (x : Spot × Nat) => (h.putBlock e gid g unit (g.next + x.2) x.1).planReport g.fn x.1.core) h

theorem Hw.elsewhere_spotsPut (few : g.roles.length ≤ 32) (l : List Spot) (n : Nat) :
    h.Elsewhere (h.spotsPut e gid g unit l n) g.fn (l.map Spot.place) := by
  induction l generalizing n h with
  | nil => exact .of_steady (.refl h)
  | cons t l ih =>
    exact ((Hw.elsewhere_putBlock few).trans (slots := [t.place]) (.of_steady (slots := []) (.planOnce _ _ _))).trans (ih (n + 1))

theorem Hw.planned_spotsPut (few : g.roles.length ≤ 32) (l : List Spot) (n : Nat) {x : Spot} (there : x ∈ l) :
    Move.event .resourceReport { Occasion.none with unit := g.fn, id := x.core } ∈ (h.spotsPut e gid g unit l n).agenda := by
  induction l generalizing n h with
  | nil => exact absurd there List.not_mem_nil
  | cons t l ih =>
    rcases List.mem_cons.mp there with rfl | later
    · exact (Hw.elsewhere_spotsPut few l (n + 1)).plans _ (Hw.mem_planOnce _ _ _)
    · exact ih (n + 1) later

theorem wkBlock_wkOf (f slot : Nat) {i : Nat} (small : i < 32) : wkBlock (wkOf f slot i) = bkOf f slot := by
  unfold wkBlock wkOf
  omega

theorem bkOf_inj {f a b : Nat} (same : bkOf f a = bkOf f b) : a = b := Nat.add_left_cancel same

theorem placed_spotsPut (few : g.roles.length ≤ 32) {l : List Spot} (nodup : (l.map Spot.place).Nodup) (n : Nat) {j : Nat} {x : Spot}
    (there : l[j]? = some x) :
    StandsAt (h.spotsPut e gid g unit l n) gid g (g.next + (n + j)) x (h.slotIntv g.fn x.place) (h.slotGen g.fn x.place) := by
  induction l generalizing n h j with
  | nil => exact absurd there (by simp)
  | cons t l ih =>
    obtain ⟨fresh, rest⟩ := List.nodup_cons.mp nodup
    cases j with
    | zero =>
      obtain rfl := Option.some.inj there
      have later := Hw.elsewhere_spotsPut (h := (h.putBlock e gid g unit (g.next + n) t).planReport g.fn t.core) (e := e) (gid := gid)
        (unit := unit) few l (n + 1)
      have report := Hw.Steady.planOnce (h.putBlock e gid g unit (g.next + n) t) .resourceReport
        { Occasion.none with unit := g.fn, id := t.core }
      have out : bkOf g.fn t.place ∉ (l.map Spot.place).map (bkOf g.fn) := fun inside => by
        obtain ⟨slot, slots, same⟩ := List.mem_map.mp inside
        exact fresh (bkOf_inj same ▸ slots)
      refine StandsAt.of_same (h := h.putBlock e gid g unit (g.next + n) t) (placed_putBlock few) ((later.block _ out).trans ?_)
        (fun i small => (later.warp _ (by rw [wkBlock_wkOf _ _ small]; exact out)).trans ?_) few
      · unfold Hw.block? Hw.planReport
        rw [report.blocks]
      · unfold Hw.warp? Hw.planReport
        rw [report.warps]
    | succ j =>
      have first : h.Elsewhere ((h.putBlock e gid g unit (g.next + n) t).planReport g.fn t.core) g.fn ([t.place] ++ []) :=
        (Hw.elsewhere_putBlock few).trans (.of_steady (.planOnce _ _ _))
      have apart : x.place ∉ [t.place] ++ [] := fun same => by
        have equal : x.place = t.place := by simpa using same
        exact fresh (equal ▸ List.mem_map_of_mem (List.mem_of_getElem? there))
      have placed := ih (h := (h.putBlock e gid g unit (g.next + n) t).planReport g.fn t.core) rest (n + 1) there
      unfold Hw.slotIntv Hw.slotGen at placed
      rw [first.gen _ apart, first.ctr _ apart, show n + 1 + j = n + (j + 1) by omega] at placed
      exact placed
end

/-! ## BLOCK_PLACEMENT -/

section
variable {h k : Hw} {e : Env} {f gid : Nat} {g : Grid} {l : List Spot} {rest : List (Nat × Grid)}

theorem Hw.placeOne_of_find (plain : g.kind ≠ .units)
    (found : h.find g.fn (h.part (h.partOf g.fn)).rings g.shape g.cons = some (k, l)) :
    h.placeOne e gid g = some (k.putCluster e gid g none l) := by
  unfold Hw.placeOne
  dsimp only
  split
  · next units => exact absurd units plain
  · rw [found]
    rfl

/-- The first waiting grid's next block is placed where there is a place for it. -/
theorem blockPlacement_places (places : h.placing h.occ.unit = some f) (waiting : h.waitingGrids f = (gid, g) :: rest)
    (plain : g.kind ≠ .units) (found : h.find g.fn (h.part (h.partOf g.fn)).rings g.shape g.cons = some (k, l)) :
    (k.putCluster e gid g none l).agendaOnly (blockPlacement e h) ∧ (k.putCluster e gid g none l).plansKept (blockPlacement e h) := by
  obtain ⟨r, order, -⟩ := oldestFirst_cons (gid, g) rest
  have one := Hw.placeOne_of_find (e := e) (gid := gid) plain found
  have still : h.startWait e ((gid, g) :: r) (k.putCluster e gid g none l) = k.putCluster e gid g none l :=
    if_neg (by rw [one]; exact Bool.false_ne_true)
  have step : blockPlacement e h = if ((k.putCluster e gid g none l).waitingGrids f).isEmpty then k.putCluster e gid g none l
      else (k.putCluster e gid g none l).place (k.putCluster e gid g none l).occ.unit := by
    rw [blockPlacement_eq places, waiting, order, Hw.placeFirst, one]
    dsimp only
    rw [still]
  rw [step]
  split
  · exact ⟨Hw.agendaOnly_refl _, Hw.plansKept_of_agenda rfl⟩
  · exact ⟨Hw.agendaOnly_planOnce _ _ _, Hw.plansKept_planOnce _ _ _⟩
end

theorem blockPlacement_placed {s : State} {p f gid : Nat} {g : Grid} {rest : List (Nat × Grid)} {h : Hw} {l : List Spot}
    (hp : p = s.hw.occ.unit) (places : s.hw.placing p = some f) (waiting : s.hw.waitingGrids f = (gid, g) :: rest)
    (grid : s.hw.grid? gid = some g) (plain : g.kind ≠ .units)
    (found : s.hw.find f (s.hw.part (s.hw.partOf f)).rings g.shape g.cons = some (h, l))
    (nodup : (l.map fun x => 16 * x.core + x.slot).Nodup) (few : (warpsOf g.shape g.cons).length ≤ 32) :
    ∃ t, exec .blockPlacement s = .next t ∧ t.clk = s.clk ∧
      t.hw.grid? gid = some { g with next := g.next + l.length, waitSince := none, limited := false } ∧
      (∀ k, wkBlock k ∉ l.map (fun x => bkOf f (16 * x.core + x.slot)) → t.hw.warp? k = h.warp? k) ∧
      (∀ x ∈ l, Planned t .resourceReport { Occasion.none with unit := f, id := x.core }) ∧
      ∀ j x slot, l[j]? = some x → slot = 16 * x.core + x.slot → ∃ b, t.hw.block? (bkOf f slot) = some b ∧ b.core = x.core ∧
        b.grid = gid ∧ b.lin = g.next + j ∧ b.shape = g.shape ∧ b.cons = g.cons ∧ b.spBase = 1024 * x.sp.1 ∧
        b.spBytes = 1024 * x.sp.2 ∧ b.st = Tab.getD (s.hw.fn f).race.ctr slot 0 + 1 ∧ b.c = b.st ∧
        b.gen = (Tab.getD (s.hw.fn f).race.gen slot 0 + 1) % 8 ∧ b.bars = [] ∧ b.ready = [] ∧ b.killed = false ∧
        ∀ i r, (warpsOf g.shape g.cons)[i]? = some r → ∃ w, t.hw.warp? (wkOf f slot i) = some w ∧ w.role = r.1 ∧
          w.vallot = r.2 ∧ w.mode = .user ∧ w.vregs = [] ∧ w.preds = [] ∧ w.done = false ∧ w.p1.live = false ∧ stands w.p0 =
            ((match g.cons with | some c => if r.1 then g.shape.entry else c.entry | none => g.shape.entry), allMask g.shape.k, [], 0) := by
  subst hp
  have fn : g.fn = f := by
    have listed : (gid, g) ∈ s.hw.waitingGrids f := waiting ▸ List.mem_cons_self
    have passed := (List.mem_filter.mp listed).2
    simp only [Bool.and_eq_true, beq_iff_eq] at passed
    exact passed.1.1
  subst fn
  obtain ⟨only, plans⟩ := blockPlacement_places (e := env s) places waiting plain found
  have ranked := Hw.Ranked.find found
  have elsewhere := Hw.elsewhere_spotsPut (h := h) (e := env s) (gid := gid) (unit := none) few l 0
  have planned := fun x there => Hw.planned_spotsPut (h := h) (e := env s) (gid := gid) (unit := none) few l 0 (x := x) there
  have placed := fun j x there => placed_spotsPut (h := h) (e := env s) (gid := gid) (unit := none) few nodup 0 (j := j) (x := x) there
  have cluster : h.putCluster (env s) gid g none l = ((h.spotsPut (env s) gid g none l 0).onGrid gid fun g =>
    { g with next := g.next + l.length, waitSince := none, limited := false }).moved := rfl
  rw [cluster] at only plans
  generalize h.spotsPut (env s) gid g none l 0 = k at only plans elsewhere planned placed
  refine ⟨_, (show exec .blockPlacement s = s.event blockPlacement from rfl).trans (event_eq_after rfl), rfl, ?_, ?_, ?_, ?_⟩
  · show (blockPlacement (env s) s.hw).grid? gid = _
    rw [only]
    refine (Hw.grid?_onGrid k gid fun g => { g with next := g.next + l.length, waitSince := none, limited := false }).trans ?_
    unfold Hw.grid?
    rw [elsewhere.grids, ranked.grids]
    exact congrArg (Option.map _) grid
  · intro n out
    show (blockPlacement (env s) s.hw).warp? n = _
    rw [only]
    exact elsewhere.warp n (by rw [List.map_map]; exact out)
  · exact fun x there => plans _ (planned x there)
  · rintro j x slot there rfl
    obtain ⟨⟨b, block, core, grid', lin, shape, cons, base, bytes, st, c, gen, bars, ready, killed⟩, warp⟩ := placed j x there
    unfold Hw.slotIntv at st
    unfold Hw.slotGen at gen
    rw [ranked.ctr] at st
    rw [ranked.gen] at gen
    rw [Nat.zero_add] at lin
    refine ⟨b, ?_, core, grid', lin, shape, cons, base, bytes, st, c, gen, bars, ready, killed, fun i r role => ?_⟩
    · show (blockPlacement (env s) s.hw).block? _ = _
      rw [only]
      exact block
    · obtain ⟨w, here, fresh⟩ := warp i r role
      refine ⟨w, ?_, fresh⟩
      show (blockPlacement (env s) s.hw).warp? _ = _
      rw [only]
      exact here

end Sys2Proof.Machine
end

section
/-! # A ready table entry

What the issue of a table entry leaves of the table, and why nothing holds it in a package at rest (R132, R133, R248, R449). -/
namespace Sys2Proof.Machine

open Sys2Proof.Terms

/-! ## What leaves the tables alone -/

/-- Two machines with the same dependency tables. -/
def Hw.depsKept (h k : Hw) : Prop := ∀ f c, (k.fcore f c).deps = (h.fcore f c).deps

theorem Hw.depsKept_of_fcores {h k : Hw} (same : k.fcores = h.fcores) : h.depsKept k := fun f c => by
  unfold Hw.fcore
  rw [same]
theorem Hw.depsKept_refl (h : Hw) : h.depsKept h := Hw.depsKept_of_fcores rfl
theorem Hw.depsKept_trans {h k l : Hw} (a : h.depsKept k) (b : k.depsKept l) : h.depsKept l := fun f c => (b f c).trans (a f c)
theorem Hw.depsKept_foldl {α : Type} {f : Hw → α → Hw} (step : ∀ (h : Hw) (x : α), h.depsKept (f h x)) (l : List α) (h : Hw) :
    h.depsKept (l.foldl f h) := List.foldlRecOn (motive := h.depsKept) l f h.depsKept_refl fun _ hk x _ => Hw.depsKept_trans hk (step _ x)
theorem Hw.depsKept_onFCore (h : Hw) (f c : Nat) {g : FCore → FCore} (same : ∀ x, (g x).deps = x.deps) :
    h.depsKept (h.onFCore f c g) := by
  intro f' c'
  by_cases here : fcKey f' c' = fcKey f c
  · unfold Hw.fcore Hw.onFCore
    rw [here, Tab.getD_put_same, same]
    rfl
  · rw [Hw.fcore_onFCore_other h g here]

section
variable (h : Hw)

/-- A change of L2, spare bits, marks, their contexts and overflow entries, poison or bytes that wait. -/
theorem Hw.depsKept_fields (l2 : List L2Line) (spare : Tab (BitVec 64)) (marks : Tab WordMarks) (mctx : Tab Nat) (ovf : Tab (List Nat))
    (poison : List Nat) (wq : List Host.Cell) :
    h.depsKept { h with l2 := l2, spare := spare, marks := marks, mctx := mctx, ovf := ovf, poison := poison, wq := wq } :=
  Hw.depsKept_of_fcores rfl
theorem Hw.depsKept_lostMark (p : Nat) : h.depsKept (h.lostMark p) := Hw.depsKept_of_fcores rfl
theorem Hw.depsKept_setL1 (core ctx line : Nat) (l : L1Line) : h.depsKept (h.setL1 core ctx line l) := Hw.depsKept_of_fcores rfl

theorem Hw.depsKept_count (f cls unit ev reason n : Nat) : h.depsKept (h.count f cls unit ev reason n) :=
  Hw.depsKept_of_fcores (by rw [(Hw.count_fn_out h f cls unit ev reason n).1])

theorem Hw.depsKept_setMarks (s : Site) (m : WordMarks) : h.depsKept (h.setMarks s m) := by
  cases s with
  | mem w =>
    simp only [Hw.setMarks, Hw.tidyLine]
    split <;> exact Hw.depsKept_of_fcores rfl
  | scr f c w => exact Hw.depsKept_onFCore h f c fun _ => rfl
  | guard u w => exact Hw.depsKept_of_fcores rfl

theorem Hw.depsKept_install (ctx : Nat) (s : Site) (q : Claim) : h.depsKept (h.install ctx s q) := by
  cases s with
  | mem w =>
    simp only [Hw.install]
    split
    · exact Hw.depsKept_of_fcores rfl
    · split
      · exact Hw.depsKept_trans (h.depsKept_fields h.l2 h.spare _ _ _ h.poison h.wq) (Hw.depsKept_count _ _ _ _ _ _ _)
      · split <;> exact Hw.depsKept_of_fcores rfl
  | scr f c w =>
    simp only [Hw.install]
    split
    · exact Hw.depsKept_onFCore h f c fun _ => rfl
    · split
      · exact Hw.depsKept_onFCore h f c fun _ => rfl
      · split
        · refine Hw.depsKept_trans ?_ (Hw.depsKept_lostMark _ _)
          exact Hw.depsKept_onFCore h f c fun _ => rfl
        · exact h.depsKept_refl
  | guard u w => exact h.depsKept_setMarks (.guard u w) _

theorem Hw.depsKept_peerFrames : h.depsKept h.peerFrames := by
  unfold Hw.peerFrames
  exact Hw.depsKept_trans (Hw.depsKept_of_fcores rfl) (Hw.depsKept_count _ _ _ _ _ _ _)

theorem Hw.depsKept_writtenOut (x : L2Line) : h.depsKept (h.writtenOut x) := by
  unfold Hw.writtenOut
  split
  · exact h.depsKept_refl
  · split
    · exact h.depsKept_count _ _ _ _ _ _
    · exact h.depsKept_peerFrames
    · exact h.depsKept_refl

theorem Hw.depsKept_takePointer (n line : Nat) : h.depsKept (Hw.takePointer n h line) := by
  induction n generalizing h with
  | zero => exact h.depsKept_refl
  | succ n ih =>
    unfold Hw.takePointer
    dsimp only
    split
    · exact h.depsKept_refl
    · split
      · exact Hw.depsKept_trans (Hw.depsKept_of_fcores rfl) (Hw.depsKept_count _ _ _ _ _ _ _)
      · split
        · exact Hw.depsKept_trans (Hw.depsKept_of_fcores rfl) (ih _)
        · exact h.depsKept_refl

theorem Hw.depsKept_leaveL2 (line : Nat) : h.depsKept (h.leaveL2 line) := by
  unfold Hw.leaveL2
  split
  · exact Hw.depsKept_of_fcores rfl
  · exact Hw.depsKept_trans (h.depsKept_takePointer _ line) (Hw.depsKept_of_fcores rfl)

theorem Hw.depsKept_evicted (v : L2Line) : h.depsKept (h.evicted v) := by
  unfold Hw.evicted
  dsimp only
  split
  · exact h.depsKept_writtenOut v
  · exact Hw.depsKept_trans (h.depsKept_writtenOut v) (Hw.depsKept_leaveL2 _ _)

theorem Hw.depsKept_takenOut (line : Nat) : h.depsKept (h.takenOut line) :=
  Hw.depsKept_trans (h.depsKept_fields _ h.spare h.marks h.mctx h.ovf h.poison h.wq)
    (Hw.depsKept_foldl (fun k x => k.depsKept_evicted x) _ _)

/-- What a home counts of an access. -/
theorem Hw.depsKept_homeCounts (f slice pa : Nat) (hit : Bool) : h.depsKept
    (if hit then h.count f 1 slice 0x10 0 1
    else if paKind pa = .hbm then ((h.count f 1 slice 0x10 0 1).count f 1 slice 0x11 0 1).count f 2 (chanOf pa) 0x20 0 2
    else if paKind pa = .peer then ((h.count f 1 slice 0x10 0 1).count f 1 slice 0x11 0 1).peerFrames
    else (h.count f 1 slice 0x10 0 1).count f 1 slice 0x11 0 1) := by
  have missed := Hw.depsKept_trans (h.depsKept_count f 1 slice 0x10 0 1) (Hw.depsKept_count _ f 1 slice 0x11 0 1)
  split
  · exact h.depsKept_count _ _ _ _ _ _
  · split
    · exact Hw.depsKept_trans missed (Hw.depsKept_count _ _ _ _ _ _ _)
    · split
      · exact Hw.depsKept_trans missed (Hw.depsKept_peerFrames _)
      · exact missed

theorem Hw.depsKept_touchHome (q : HomeReq) (pa : Nat) (w : Bool) : h.depsKept (h.touchHome q pa w) := by
  unfold Hw.touchHome
  dsimp only
  generalize past : (if (paKind pa == PaKind.host && w && !q.leaf.hwb) = true then h.takenOut (lineOf pa) else h) = m
  have before : h.depsKept m := by
    subst past
    split
    · exact h.depsKept_takenOut _
    · exact h.depsKept_refl
  generalize (if (m.hostHome q.leaf pa || _) = true then (m.l2, (none : Option L2Line), false) else _) = r
  obtain ⟨l2, ev, hit⟩ := r
  refine Hw.depsKept_trans before (Hw.depsKept_trans (m.depsKept_fields l2 (Tab.del m.spare (lineOf pa)) m.marks m.mctx
    m.ovf (if (!hit && spareBad (Tab.getD m.spare (lineOf pa) 0#64)) = true then lineOf pa :: m.poison else m.poison) m.wq) ?_)
  cases ev with
  | none => exact Hw.depsKept_homeCounts _ _ _ _ _
  | some v => exact Hw.depsKept_trans (Hw.depsKept_evicted _ _) (Hw.depsKept_homeCounts _ _ _ _ _)

theorem Hw.depsKept_atHome (q : HomeReq) (pa : Nat) (w : Bool) : h.depsKept (h.atHome q pa w) := by
  unfold Hw.atHome
  split
  · split
    · exact h.depsKept_peerFrames
    · exact h.depsKept_refl
  · exact h.depsKept_touchHome q pa w

theorem Hw.depsKept_writeBackLine (core ctx line : Nat) : h.depsKept (h.writeBackLine core ctx line) := by
  unfold Hw.writeBackLine
  dsimp only
  split
  · exact h.depsKept_refl
  · split
    · exact Hw.depsKept_of_fcores rfl
    · have written := h.depsKept_fields h.l2 h.spare h.marks h.mctx h.ovf h.poison ((h.l1 core ctx line).dirtyBytes line ++ h.wq)
      exact Hw.depsKept_trans (Hw.depsKept_trans (Hw.depsKept_trans written (Hw.depsKept_atHome _ _ _ _))
        (Hw.depsKept_count _ _ _ _ _ _ _)) (Hw.depsKept_setL1 _ _ _ _ _)
end

end Sys2Proof.Machine
end

section
/-! # A command issued in a package at rest

Where nothing is owned, no link retrains, no channel sleeps and no block is rebased, the issue of a command waits for nothing
(R15, R19, R189, R209, R248). -/
namespace Sys2Proof.Machine

open Sys2Proof.Terms

/-! ## A package at rest -/

/-- No access has to wait. -/
structure Hw.Resting (h : Hw) : Prop where
  owners : h.owners = []
  carries : ∀ a b, h.carries a b = true
  asleep : ∀ c, h.asleep c = false
  rebasing : ∀ x ∈ h.blocks, x.2.rebasing = false

theorem resting_of_atRest {s : State} (a : AtRest s) : s.hw.Resting := by
  obtain ⟨owners, carries, asleep, rebasing⟩ := a
  exact ⟨owners, carries, asleep, rebasing⟩

/-- A package whose owners, links and channels are those of one at rest is at rest, where none of its blocks is rebased. -/
theorem Hw.Resting.of_same {h k : Hw} (a : h.Resting) (owners : k.owners = h.owners) (links : k.links = h.links)
    (chans : k.chans = h.chans) (rebasing : ∀ x ∈ k.blocks, x.2.rebasing = false) : k.Resting where
  owners := owners.trans a.owners
  carries x y := by
    unfold Hw.carries
    rw [links]
    exact a.carries x y
  asleep c := by
    unfold Hw.asleep
    rw [chans]
    exact a.asleep c
  rebasing := rebasing

theorem Tab.mem_put {α : Type} {t : Tab α} {k : Nat} {v : α} {x : Nat × α} (there : x ∈ Tab.put t k v) : x = (k, v) ∨ x ∈ t := by
  induction t with
  | nil => exact .inl (List.mem_singleton.mp there)
  | cons y t ih =>
    obtain ⟨j, w⟩ := y
    rw [Tab.put] at there
    split at there
    · exact (List.mem_cons.mp there).imp_right fun old => old
    · split at there
      · exact (List.mem_cons.mp there).imp_right fun old => List.mem_cons_of_mem _ old
      · rcases List.mem_cons.mp there with first | later
        · exact .inr (first ▸ List.mem_cons_self)
        · exact (ih later).imp_right fun old => List.mem_cons_of_mem _ old

/-- What holds of every block still does after a change of one that keeps it. -/
theorem Hw.blocks_onBlock {h : Hw} {P : Block → Prop} (all : ∀ x ∈ h.blocks, P x.2) (bk : Nat) {g : Block → Block}
    (keeps : ∀ b, P b → P (g b)) : ∀ x ∈ (h.onBlock bk g).blocks, P x.2 := by
  intro x there
  unfold Hw.onBlock Tab.modify at there
  dsimp only at there
  cases found : Tab.find? h.blocks bk with
  | none =>
    rw [found] at there
    exact all x there
  | some b =>
    rw [found] at there
    rcases Tab.mem_put there with rfl | old
    · exact keeps b (all (bk, b) (Tab.mem_of_find? found))
    · exact all x old

theorem Hw.Resting.onBlock {h : Hw} (a : h.Resting) (bk : Nat) {g : Block → Block} (same : ∀ b, (g b).rebasing = b.rebasing) :
    (h.onBlock bk g).Resting :=
  a.of_same rfl rfl rfl (Hw.blocks_onBlock (P := fun b => b.rebasing = false) a.rebasing bk fun b old => (same b).trans old)

section
variable {h : Hw} {e : Env} {c : Cmd}

theorem Hw.Resting.waitsOnWay (a : h.Resting) (ctx d : Nat) (l : Leaf) (pa : Nat) : h.waitsOnWay ctx d l pa = false := by
  unfold Hw.waitsOnWay
  simp only [a.carries, a.asleep, Bool.not_true, Bool.or_self, Bool.false_or]
  split <;> simp

theorem Hw.Resting.engWalkWaits (a : h.Resting) (va : DWord) : h.engWalkWaits e c va = false := by
  unfold Hw.engWalkWaits Hw.walkHeld
  rw [a.owners]
  simp

theorem Hw.Resting.engWaits (a : h.Resting) (w : Bool) (l : Loc) (leaf : Leaf) (n : Nat) : h.engWaits c w l leaf n = false := by
  have none_ : (h.blocks.filterMap fun x => if bkFn x.1 == c.fn && x.2.rebasing then some (bkSlot x.1) else none) = [] :=
    List.filterMap_eq_nil_iff.mpr fun x there => by rw [a.rebasing x there, Bool.and_false]; rfl
  unfold Hw.engWaits
  dsimp only
  rw [none_, Bool.or_eq_false_iff]
  refine ⟨?_, rfl⟩
  split
  · exact a.waitsOnWay _ _ _ _
  · rfl

theorem Hw.Resting.backHeld (a : h.Resting) (core ctx : Nat) : h.backHeld core ctx = false := by
  unfold Hw.backHeld
  rw [a.owners]
  rfl
end

/-! ## A failure has a reason -/

theorem walkTable_error {rd : Nat → Nat} {p : Part} {tab idx r : Nat} (fails : walkTable rd p tab idx = .error r) : r ≠ 0 := by
  unfold walkTable at fails
  dsimp only at fails
  split at fails
  · obtain rfl := Except.error.inj fails; decide
  · split at fails
    · obtain rfl := Except.error.inj fails; decide
    · exact absurd fails (by simp)

theorem bind_error {α β : Type} {x : Except Nat α} {f : α → Except Nat β} {r : Nat} (fails : (x >>= f) = .error r) :
    x = .error r ∨ ∃ a, x = .ok a ∧ f a = .error r := by
  cases x with
  | error r' => exact .inl (congrArg Except.error (Except.error.inj fails))
  | ok a => exact .inr ⟨a, rfl, fails⟩

theorem walk_error {rd : Nat → Nat} {p : Part} {root va r : Nat} (fails : walk rd p root va = .error r) : r ≠ 0 := by
  unfold walk at fails
  split at fails
  · obtain rfl := Except.error.inj fails; decide
  · rcases bind_error fails with first | ⟨t2, -, fails⟩
    · exact walkTable_error first
    rcases bind_error fails with second | ⟨t1, -, fails⟩
    · exact walkTable_error second
    rcases bind_error fails with third | ⟨t0, -, fails⟩
    · exact walkTable_error third
    dsimp only at fails
    split at fails
    · obtain rfl := Except.error.inj fails; decide
    · split at fails
      · obtain rfl := Except.error.inj fails; decide
      · exact absurd fails (by simp)

section
variable {h : Hw} {e : Env} {c : Cmd} {va : DWord} {n r : Nat}

theorem Hw.leafFor_error {core ctx v : Nat} (fails : h.leafFor e core ctx v = .error r) : r ≠ 0 := by
  unfold Hw.leafFor at fails
  split at fails
  · exact absurd fails (by simp)
  · dsimp only at fails
    split at fails
    · obtain rfl := Except.error.inj fails; decide
    · cases walked : walk (fun a => h.read e a 8) (h.part (h.ctxPart ctx)) (h.root ctx).1 v with
      | error r' =>
        rw [walked] at fails
        obtain rfl := Except.error.inj fails
        exact walk_error walked
      | ok l =>
        rw [walked] at fails
        exact absurd fails (by simp [Except.map])

theorem Hw.translate_error {core ctx : Nat} {need : Need} (fails : h.translate e core ctx need va = .error r) : r ≠ 0 := by
  unfold Hw.translate at fails
  split at fails
  · obtain rfl := Except.error.inj fails; decide
  · dsimp only at fails
    split at fails
    · next r' leaf =>
      obtain rfl := Except.error.inj fails
      exact Hw.leafFor_error leaf
    · split at fails
      · exact absurd fails (by simp)
      · obtain rfl := Except.error.inj fails; decide

theorem Hw.engLocate_error {w : Bool} (fails : h.engLocate e c w va n = .error r) : r ≠ 0 := by
  unfold Hw.engLocate at fails
  split at fails
  · obtain rfl := Except.error.inj fails; decide
  · split at fails
    · split at fails
      · obtain rfl := Except.error.inj fails; decide
      · obtain rfl := Except.error.inj fails
        split <;> decide
      · exact absurd fails (by simp)
    · split at fails
      · next r' there =>
        obtain rfl := Except.error.inj fails
        exact Hw.translate_error there
      · split at fails
        · obtain rfl := Except.error.inj fails; decide
        · exact absurd fails (by simp)

theorem check_reason {bad : Bool} {o : Option Mark} {m : Option Mark}
    (fails : (if bad then some (0x17, none) else o.map fun r => (0x07, some r)) = some (r, m)) : r ≠ 0 := by
  split at fails
  · obtain ⟨rfl, -⟩ := Prod.mk.inj (Option.some.inj fails)
    decide
  · obtain ⟨x, -, same⟩ := Option.map_eq_some_iff.mp fails
    obtain ⟨rfl, -⟩ := Prod.mk.inj same
    decide

theorem Hw.engCheck_reason {cls : Cls} {w : Bool} {l : Loc} {leaf : Leaf} {m : Option Mark}
    (fails : h.engCheck c cls w l leaf n = some (r, m)) : r ≠ 0 := check_reason fails
end

/-! ## The record of a copy -/

section
variable {h k : Hw} {e : Env} {c d : Cmd}

theorem Hw.depsKept_engMark (h : Hw) (c : Cmd) (cls : Cls) (w : Bool) (l : Loc) (leaf : Leaf) (n : Nat) :
    h.depsKept (h.engMark c cls w l leaf n) :=
  Hw.depsKept_foldl (fun k t => by
    split
    · exact k.depsKept_install _ _ _
    · split
      · exact k.depsKept_setMarks _ _
      · exact k.depsKept_refl) _ _

theorem Hw.depsKept_engRead (h : Hw) (e : Env) (c : Cmd) (l : Loc) (leaf : Leaf) (n : Nat) : h.depsKept (h.engRead e c l leaf n).1 := by
  cases l with
  | scr core off => exact h.depsKept_refl
  | mem pa => exact h.depsKept_atHome _ _ _
  | alias_ n => exact h.depsKept_refl

/-- In a package at rest a read does not wait. -/
theorem Hw.Resting.engGet (a : h.Resting) (cls : Cls) (va : DWord) (n : Nat) :
    (∃ f, h.engGet e c cls va n = .error f ∧ f.isLater = false) ∨ ∃ k bs, h.engGet e c cls va n = .ok (k, bs) ∧ h.depsKept k := by
  have reasoned {r : Nat} {w : Bool} {m : Option Mark} (some_ : r ≠ 0) : EngFail.isLater ⟨r, va, w, m⟩ = false := by
    unfold EngFail.isLater
    exact beq_false_of_ne some_
  unfold Hw.engGet
  rw [a.engWalkWaits]
  simp only [Bool.false_eq_true, if_false]
  split
  · next located => exact .inl ⟨_, rfl, reasoned (Hw.engLocate_error located)⟩
  · rw [a.engWaits]
    simp only [Bool.false_eq_true, if_false]
    split
    · next checked => exact .inl ⟨_, rfl, reasoned (Hw.engCheck_reason checked)⟩
    · exact .inr ⟨_, _, rfl, Hw.depsKept_trans (h.depsKept_engMark _ _ _ _ _ _) (Hw.depsKept_engRead _ _ _ _ _ _)⟩

/-- What a command was given by its issuer. -/
def Cmd.given (c : Cmd) : List Word × Nat × Word × Word := (c.words, c.wk, c.rmode, c.nbv)

theorem Cmd.given_fail (c : Cmd) (f : EngFail) : (c.fail f).given = c.given := by
  unfold Cmd.fail
  split <;> rfl

theorem Hw.Resting.capture (a : h.Resting) (c : Cmd) : ∃ k d, h.capture e c = .ok (k, d) ∧ h.depsKept k ∧ d.given = c.given := by
  unfold Hw.capture
  dsimp only
  split
  · exact ⟨_, _, rfl, h.depsKept_refl, rfl⟩
  · split
    · exact ⟨_, _, rfl, h.depsKept_refl, c.given_fail _⟩
    · rcases a.engGet (e := e) (c := c) .eng (c.pair 1) 64 with ⟨f, failed, now⟩ | ⟨k, bs, read, kept⟩
      · rw [failed]
        dsimp only
        rw [now]
        exact ⟨_, _, rfl, h.depsKept_refl, c.given_fail _⟩
      · rw [read]
        exact ⟨_, _, rfl, kept, rfl⟩

/-! ## What the issue does -/

theorem Hw.depsKept_setTag (h : Hw) (pa : Nat) (t : BitVec 16) : h.depsKept (h.setTag pa t) :=
  Hw.depsKept_of_fcores (by rw [Hw.setTag_eq])
theorem Hw.depsKept_setSpTag (h : Hw) (f core off : Nat) (t : BitVec 16) : h.depsKept (h.setSpTag f core off t) :=
  h.depsKept_onFCore f core fun _ => rfl

theorem Hw.depsKept_issueActions (h : Hw) (e : Env) (c : Cmd) (b : Block) (bk : Nat) :
    h.depsKept (h.issueActions e c b bk).1 ∧ (h.issueActions e c b bk).2.given = c.given := by
  unfold Hw.issueActions
  split
  · exact ⟨Hw.depsKept_foldl (fun k t => k.depsKept_setSpTag _ _ _ _) _ _, rfl⟩
  · split
    · refine ⟨Hw.depsKept_trans (k := List.foldl _ _ _) ?_ (Hw.depsKept_of_fcores rfl), rfl⟩
      refine Hw.depsKept_trans (Hw.depsKept_trans (Hw.depsKept_foldl (fun k l => k.depsKept_writeBackLine _ _ l) _ _)
        (Hw.depsKept_foldl (fun k l => k.depsKept_setL1 _ _ l _) _ _)) (Hw.depsKept_foldl (fun k t => ?_) _ _)
      split
      · exact k.depsKept_setSpTag _ _ _ _
      · exact k.depsKept_setTag _ _
    · exact ⟨h.depsKept_refl, rfl⟩

theorem Hw.depsKept_enqueue (h : Hw) (c : Cmd) (id : Nat) : h.depsKept (h.enqueue c id) := by
  unfold Hw.enqueue
  split
  · have first := h.depsKept_onFCore c.fn c.core (g := fun f => { f with mq := f.mq ++ [id] }) fun _ => rfl
    dsimp only
    split
    · exact Hw.depsKept_trans first (Hw.depsKept_onFCore _ _ _ fun _ => rfl)
    · exact first
  · exact h.depsKept_onFCore _ _ fun _ => rfl
  · exact h.depsKept_onFCore _ _ fun _ => rfl

theorem Hw.cmds_enqueue (h : Hw) (c : Cmd) (id : Nat) : (h.enqueue c id).cmds = h.cmds := by
  unfold Hw.enqueue
  split
  · dsimp only
    split <;> rfl
  · rfl
  · rfl
end

/-! ## The command issued -/

section
variable {h : Hw} {e : Env} {wk : Nat} {k : EngKind} {ws : List Word} {rm nbv : Word} {w : Warp} {b : Block}

/-- A command stands in its queue; one whose tick has come is marked so, and its engine is told. -/
def Hw.queuedCmd (h : Hw) (c : Cmd) (id fn core : Nat) (due : Prop) [Decidable due] : Hw :=
  let h := ({ h with cmds := Tab.put h.cmds id c }).enqueue c id
  (if due then h.onCmd id fun c => { c with fired := true } else h).kick fn core

theorem Hw.queuedCmd_spec (h : Hw) (c : Cmd) (id fn core : Nat) (due : Prop) [Decidable due] : h.depsKept (h.queuedCmd c id fn core due) ∧
    ∃ d, Tab.find? (h.queuedCmd c id fn core due).cmds id = some d ∧ d.given = c.given := by
  have queue : h.depsKept (({ h with cmds := Tab.put h.cmds id c } : Hw).enqueue c id) :=
    Hw.depsKept_trans (k := { h with cmds := Tab.put h.cmds id c }) (Hw.depsKept_of_fcores rfl) (Hw.depsKept_enqueue _ c id)
  have there : Tab.find? (({ h with cmds := Tab.put h.cmds id c } : Hw).enqueue c id).cmds id = some c := by
    rw [Hw.cmds_enqueue]
    exact Tab.find?_put_same _ _ _
  unfold Hw.queuedCmd
  dsimp only
  rw [Hw.agendaOnly_kick]
  generalize Hw.enqueue _ c id = j at queue there
  split
  · exact ⟨queue, _, (Tab.find?_modify_same _ _ _).trans (congrArg (Option.map _) there), rfl⟩
  · exact ⟨queue, c, there, rfl⟩

theorem Hw.issued_of_queued {j : Hw} {c : Cmd} {id fn core : Nat} {due : Prop} [Decidable due] {g : List Word × Nat × Word × Word}
    (kept : h.depsKept j) (given : c.given = g) : h.depsKept (j.queuedCmd c id fn core due) ∧
      ∃ d, Tab.find? (j.queuedCmd c id fn core due).cmds id = some d ∧ d.given = g := by
  obtain ⟨queue, d, there, same⟩ := j.queuedCmd_spec c id fn core due
  exact ⟨Hw.depsKept_trans kept queue, d, there, same.trans given⟩

/-- In a package at rest, a push that has room and counts issues its command. -/
theorem Hw.Resting.issueCmd (a : h.Resting) (warp : h.warp? wk = some w) (block : h.block? (wkBlock wk) = some b)
    (owns : h.ownsEngine (wkFn wk) b.core k = true) (counts : h.wraps (wkBlock wk) 2 = false) (alone : h.cur = none)
    (tokens : ((ws.headD 0#32).getLsbD 15 && decide (16 ≤ (w.queue k).tokens.length + (w.queue k).reserved)) = false)
    (room : h.queueFull (wkFn wk) b.core k (pairedCmd (hdrOpc (ws.headD 0#32)) (ws.getD 1 0#32) && b.core % 2 == 0) = false) :
    ∃ j, h.issueCmd e wk k ws rm nbv = .ok j ∧ h.depsKept j ∧
      ∃ c, Tab.find? j.cmds h.nextId = some c ∧ c.given = (ws, wk, rm, nbv) := by
  have advanced : (h.advance (wkBlock wk)).block? (wkBlock wk) = some { b with c := b.c + 1 } := by
    unfold Hw.advance
    rw [Hw.block?_onBlock_same, block]
    rfl
  have taken : h.roomTaken wk 11 (roomKey b.core (some k)) = false := by
    unfold Hw.roomTaken
    rw [alone]
  have rests : ({ h.advance (wkBlock wk) with nextId := h.nextId + 1 } : Hw).Resting :=
    (a.onBlock (wkBlock wk) (g := fun b => { b with c := b.c + 1 }) fun _ => rfl).of_same rfl rfl rfl
      (a.onBlock (wkBlock wk) (g := fun b => { b with c := b.c + 1 }) fun _ => rfl).rebasing
  have capture := fun c => rests.capture (e := e) c
  unfold Hw.issueCmd
  dsimp only
  rw [warp, block]
  dsimp only
  rw [owns, counts, tokens, room, taken, a.backHeld, advanced]
  simp only [Bool.not_true, Bool.false_eq_true, if_false, Bool.or_self, and_false]
  split
  · next failed =>
    obtain ⟨_, _, captured, -⟩ := capture _
    exact absurd (captured.symm.trans failed) (by simp)
  · next j c captured' =>
    obtain ⟨_, _, captured, kept, given⟩ := capture _
    obtain ⟨rfl, rfl⟩ := Prod.mk.inj (Except.ok.inj (captured'.symm.trans captured))
    obtain ⟨acts, acted⟩ := Hw.depsKept_issueActions j e c { b with c := b.c + 1 } (wkBlock wk)
    refine ⟨_, rfl, ?_⟩
    exact Hw.issued_of_queued (Hw.depsKept_trans kept acts) (acted.trans given)
end

/-! ## The acquire of an entry's inputs -/

/-- A block apart from its frontiers and intervals. -/
def Block.settled (b : Block) : Block := { b with front := [], intra := [], c := 0 }

theorem Block.acquire_rest (b : Block) (slot u : Nat) (r : RelRec) :
    b.acquire slot u r = { b with front := (b.acquire slot u r).front, intra := (b.acquire slot u r).intra } := by
  unfold Block.acquire
  dsimp only
  split <;> split <;> rfl

/-- Two machines whose blocks differ only in frontiers and intervals, block bk's by n events. -/
structure Hw.Acquired (h k : Hw) (bk n : Nat) : Prop where
  rest : k = { h with blocks := k.blocks }
  block : ∀ j, (k.block? j).map Block.settled = (h.block? j).map Block.settled
  count : (k.block? bk).map (·.c) = (h.block? bk).map (·.c + n)
  resting : h.Resting → k.Resting

theorem Hw.Acquired.refl (h : Hw) (bk : Nat) : h.Acquired h bk 0 := ⟨rfl, fun _ => rfl, rfl, fun a => a⟩
theorem Hw.Acquired.trans {h k l : Hw} {bk n m : Nat} (a : h.Acquired k bk n) (b : k.Acquired l bk m) : h.Acquired l bk (n + m) where
  rest := by rw [b.rest, a.rest]
  block j := (b.block j).trans (a.block j)
  count := by
    have later := b.count
    have before := congrArg (Option.map (· + m)) a.count
    rw [Option.map_map, Option.map_map] at before
    refine later.trans (Eq.trans before ?_)
    congr 1
    funext x
    exact Nat.add_assoc _ _ _
  resting r := b.resting (a.resting r)

theorem Hw.Acquired.onBlock (h : Hw) (bk n : Nat) {g : Block → Block} (same : ∀ b, (g b).settled = b.settled)
    (count : ∀ b, (g b).c = b.c + n) : h.Acquired (h.onBlock bk g) bk n where
  rest := rfl
  block j := by
    by_cases here : j = bk
    · subst here
      rw [Hw.block?_onBlock_same, Option.map_map]
      exact congrFun (congrArg Option.map (funext same)) _
    · rw [Hw.block?_onBlock_other _ _ here]
  count := by
    rw [Hw.block?_onBlock_same, Option.map_map]
    exact congrFun (congrArg Option.map (funext count)) _
  resting r := r.onBlock bk fun b => show (g b).settled.rebasing = b.settled.rebasing by rw [same]

theorem Hw.Acquired.acquireRec (h : Hw) (bk u : Nat) (s : Scope) (r : RelRec) : h.Acquired (h.acquireRec bk u s r) bk 0 := by
  unfold Hw.acquireRec
  split
  · exact .refl h bk
  · split
    · exact .refl h bk
    · split
      · exact .refl h bk
      · split
        · exact .onBlock h bk 0 (fun b => by rw [Block.acquire_rest]; rfl) fun b => by rw [Block.acquire_rest]; rfl
        · exact .refl h bk

theorem Hw.Acquired.advance (h : Hw) (bk : Nat) : h.Acquired (h.advance bk) bk 1 := .onBlock h bk 1 (fun _ => rfl) fun _ => rfl

/-- Warp u of block bk has acquired what the releases published (R133, R208). -/
def Hw.acquired (h : Hw) (bk u : Nat) (rels : List RelRec) : Hw :=
  if rels.isEmpty then h else (rels.foldl (fun h r => h.acquireRec bk u .block r) h).advance bk

theorem Hw.Acquired.acquired (h : Hw) (bk u : Nat) (rels : List RelRec) :
    h.Acquired (h.acquired bk u rels) bk (!rels.isEmpty).toNat := by
  have folded : h.Acquired (rels.foldl (fun h r => h.acquireRec bk u .block r) h) bk 0 :=
    List.foldlRecOn (motive := fun k => h.Acquired k bk 0) rels _ (.refl h bk) fun _ hk r _ => hk.trans (.acquireRec _ bk u .block r)
  unfold Hw.acquired
  cases empty : rels.isEmpty with
  | true => exact .refl h bk
  | false => exact folded.trans (.advance _ bk)

section
variable {h k : Hw} {bk n : Nat}

theorem Hw.Acquired.block_settled (a : h.Acquired k bk n) {j : Nat} {b : Block} (there : h.block? j = some b) :
    ∃ d, k.block? j = some d ∧ d.settled = b.settled := by
  have same := a.block j
  rw [there] at same
  exact Option.map_eq_some_iff.mp same

/-- Events that a counter has room for leave room for the rest. -/
theorem Hw.Acquired.wraps (a : h.Acquired k bk n) {m : Nat} (room : h.wraps bk (n + m) = false) : k.wraps bk m = false := by
  cases m with
  | zero => rfl
  | succ m =>
    have count := a.count
    have under : k.acqsOf bk + k.relsOf bk = h.acqsOf bk + h.relsOf bk := by rw [a.rest]; rfl
    unfold Hw.wraps at room ⊢
    rw [under]
    cases before : h.block? bk with
    | none =>
      rw [before] at count
      rw [Option.map_eq_none_iff.mp count, Bool.and_false]
    | some b =>
      rw [before] at count room
      obtain ⟨d, after, counted⟩ := Option.map_eq_some_iff.mp count
      have more : d.c = b.c + n := counted
      rw [after]
      simp only [Bool.and_eq_false_iff, bne_eq_false_iff_eq, decide_eq_false_iff_not] at room ⊢
      omega

theorem Hw.wraps_le {m : Nat} (room : h.wraps bk m = false) (fewer : n ≤ m) : h.wraps bk n = false := by
  unfold Hw.wraps at room ⊢
  cases block : h.block? bk with
  | none => rw [Bool.and_false]
  | some b =>
    rw [block] at room
    simp only [Bool.and_eq_false_iff, bne_eq_false_iff_eq, decide_eq_false_iff_not] at room ⊢
    omega
end

/-! ## The push of an entry -/

section
variable {h : Hw} {e : Env} {d : DepEntry} {b : Block} {w : Warp} {k : EngKind}

/-- The releases that set an entry's inputs. -/
def DepEntry.rels (d : DepEntry) (b : Block) : List RelRec := d.ins.filterMap fun u => Tab.find? b.ready u

theorem depEvents_le (kind : Nat) (acq : Bool) : depEvents kind acq ≤ 3 := by
  unfold depEvents
  cases acq <;> split <;> decide

theorem Hw.issueDep_of_push (block : h.block? (wkBlock d.wk) = some b) (engine : depEngine d.kind = some k)
    (owns : h.ownsEngine (wkFn d.wk) b.core k = true) (counts : h.wraps (wkBlock d.wk) 3 = false) {j : Hw}
    (issued : (h.acquired (wkBlock d.wk) (wkIdx d.wk) (d.rels b)).issueCmd e d.wk k d.cmd d.rmode d.nbv = .ok j) :
    h.issueDep e d = some j := by
  have events := Hw.wraps_le counts (depEvents_le d.kind !(d.rels b).isEmpty)
  unfold Hw.issueDep
  dsimp only
  rw [block]
  dsimp only
  rw [engine]
  dsimp only
  rw [show h.ownsEngine (bkFn (wkBlock d.wk)) b.core k = true from owns]
  rw [show h.wraps (wkBlock d.wk) (depEvents d.kind (!(d.ins.filterMap fun u => Tab.find? b.ready u).isEmpty)) = false from events]
  simp only [Bool.not_true, Bool.false_eq_true, if_false]
  change (match (h.acquired (wkBlock d.wk) (wkIdx d.wk) (d.rels b)).issueCmd e d.wk k d.cmd d.rmode d.nbv with
    | .ok h' => some h'
    | .error (.trap c ..) => some (h.depTrap d c)
    | .error _ => none) = some j
  rw [issued]

theorem Hw.issueDep_of_arrival (block : h.block? (wkBlock d.wk) = some b) (engine : depEngine d.kind = none)
    (counts : h.wraps (wkBlock d.wk) 3 = false) {n i : Nat} {x : Barrier}
    (may : h.mayArrive (wkBlock d.wk) b ((d.cmd.headD 0#32) &&& 0x7FF#32) 0 = .ok (n, i, x)) :
    h.issueDep e d = some ((h.acquired (wkBlock d.wk) (wkIdx d.wk) (d.rels b)).arrive e d.wk none n i x none (ctxOf (wkFn d.wk))) := by
  have events := Hw.wraps_le counts (depEvents_le d.kind !(d.rels b).isEmpty)
  unfold Hw.issueDep
  dsimp only
  rw [block]
  dsimp only
  rw [engine]
  dsimp only
  rw [may]
  dsimp only
  rw [show h.wraps (wkBlock d.wk) (depEvents d.kind (!(d.ins.filterMap fun u => Tab.find? b.ready u).isEmpty)) = false from events]
  rfl
end

/-! ## DEPENDENCY_TASK_ISSUE -/

/-- The entry has left its table, and no instruction issues. -/
def Hw.depTaken (h : Hw) (f core : Nat) (d : DepEntry) : Hw :=
  ({ h with cur := none } : Hw).onFCore f core fun x => { x with deps := x.deps.filter fun y => y.age != d.age }

/-- Is the entry one that the table would issue? -/
def Hw.depDue (h : Hw) (f core : Nat) (d : DepEntry) : Bool := h.depReady f core d && !(d.kind == 3 && h.elemsOf d.wk)

section
variable {h : Hw} {e : Env} {f core : Nat} {d : DepEntry} {b : Block} {w : Warp} {k : EngKind}

/-- The first entry that is due is issued where nothing holds it. -/
theorem dependencyTaskIssue_of_due {j : Hw} (hf : f = h.occ.unit) (hc : core = h.occ.id)
    (due : (h.fcore f core).deps.find? (h.depDue f core) = some d) (issued : (h.depTaken f core d).issueDep e d = some j) :
    dependencyTaskIssue e h = j.moved := by
  subst hf hc
  obtain ⟨l, order⟩ : ∃ l, (h.fcore h.occ.unit h.occ.id).deps.filter (h.depDue h.occ.unit h.occ.id) = d :: l := by
    rw [← List.head?_filter] at due
    exact List.head?_eq_some_iff.mp due
  unfold dependencyTaskIssue
  dsimp only
  change (match (((h.fcore h.occ.unit h.occ.id).deps.filter (h.depDue h.occ.unit h.occ.id)).findSome? fun d =>
    (h.depTaken h.occ.unit h.occ.id d).issueDep e d) with | some h => h.moved | none => h) = _
  rw [order, List.findSome?_cons, issued]

theorem Hw.deps_depTaken (h : Hw) (f core : Nat) (d : DepEntry) :
    ((h.depTaken f core d).fcore f core).deps = (h.fcore f core).deps.filter fun x => x.age != d.age := by
  unfold Hw.depTaken
  rw [Hw.fcore_onFCore_same]
  rfl

theorem Hw.fcore_depTaken (h : Hw) (f core : Nat) (d : DepEntry) (f' core' : Nat) : (h.depTaken f core d).fcore f' core' =
    { h.fcore f' core' with deps := ((h.depTaken f core d).fcore f' core').deps } := by
  by_cases here : fcKey f' core' = fcKey f core
  · have same (k : Hw) : k.fcore f' core' = k.fcore f core := by unfold Hw.fcore; rw [here]
    rw [same, same, Hw.depTaken, Hw.fcore_onFCore_same]
    rfl
  · rw [Hw.depTaken, Hw.fcore_onFCore_other _ _ here]
    rfl

/-- An entry that is taken makes no room in an engine's queue. -/
theorem Hw.queueFull_depTaken (f' core' : Nat) (paired : Bool) :
    (h.depTaken f core d).queueFull f' core' k paired = h.queueFull f' core' k paired := by
  have mq (c : Nat) : ((h.depTaken f core d).fcore f' c).mq = (h.fcore f' c).mq := by rw [Hw.fcore_depTaken]
  have cq : ((h.depTaken f core d).fcore f' core').cq = (h.fcore f' core').cq := by rw [Hw.fcore_depTaken]
  have gq : ((h.depTaken f core d).fcore f' core').gq = (h.fcore f' core').gq := by rw [Hw.fcore_depTaken]
  unfold Hw.queueFull
  dsimp only
  rw [mq, mq, cq, gq]
  rfl

theorem Hw.Resting.depTaken (a : h.Resting) : (h.depTaken f core d).Resting := a.of_same rfl rfl rfl a.rebasing

/-- What an entry that is ready for an engine has: its warp, and room. -/
theorem Hw.depReady_engine (ready : h.depReady f core d = true) (block : h.block? (wkBlock d.wk) = some b)
    (engine : depEngine d.kind = some k) :
    h.queueFull f core k (pairedCmd (hdrOpc (d.cmd.headD 0#32)) (d.cmd.getD 1 0#32) && core % 2 == 0) = false ∧
    ∃ w, h.warp? d.wk = some w ∧
      ((d.cmd.headD 0#32).getLsbD 15 && decide (16 ≤ (w.queue k).tokens.length + (w.queue k).reserved)) = false := by
  unfold Hw.depReady at ready
  rw [block] at ready
  dsimp only at ready
  rw [engine] at ready
  dsimp only at ready
  obtain ⟨-, accepts⟩ := Bool.and_eq_true_iff.mp ready
  obtain ⟨room, tokens⟩ := Bool.and_eq_true_iff.mp accepts
  refine ⟨Bool.not_eq_true' _ |>.mp room, ?_⟩
  cases warp : h.warp? d.wk with
  | none =>
    rw [warp] at tokens
    exact absurd tokens Bool.false_ne_true
  | some w =>
    rw [warp] at tokens
    exact ⟨w, rfl, Bool.not_eq_true' _ |>.mp tokens⟩

/-- A ready entry's command is issued. -/
theorem Hw.Resting.issueDep (a : h.Resting) (ready : h.depReady f core d = true) (block : h.block? (wkBlock d.wk) = some b)
    (hcore : b.core = core) (hf : wkFn d.wk = f) (counts : h.wraps (wkBlock d.wk) 3 = false) (engine : depEngine d.kind = some k)
    (owns : h.ownsEngine f core k = true) :
    ∃ j, (h.depTaken f core d).issueDep e d = some j ∧
      (j.fcore f core).deps = ((h.fcore f core).deps.filter fun x => x.age != d.age) ∧
      ∃ c, Tab.find? j.cmds h.nextId = some c ∧ c.given = (d.cmd, d.wk, d.rmode, d.nbv) := by
  subst hcore hf
  obtain ⟨room, w, warp, tokens⟩ := Hw.depReady_engine ready block engine
  have got := Hw.Acquired.acquired (h.depTaken (wkFn d.wk) b.core d) (wkBlock d.wk) (wkIdx d.wk) (d.rels b)
  obtain ⟨b', block', same⟩ := got.block_settled (j := wkBlock d.wk) (b := b) block
  have core : b'.core = b.core := show b'.settled.core = b.settled.core by rw [same]
  have events : (!(d.rels b).isEmpty).toNat + 2 ≤ 3 := by cases (d.rels b).isEmpty <;> decide
  have after : ((h.depTaken (wkFn d.wk) b.core d).acquired (wkBlock d.wk) (wkIdx d.wk) (d.rels b)).wraps (wkBlock d.wk) 2 = false :=
    got.wraps (Hw.wraps_le (h := h.depTaken (wkFn d.wk) b.core d) (m := 3) counts events)
  have full := (Hw.queueFull_depTaken (h := h) (f := wkFn d.wk) (core := b.core) (d := d) (k := k) (wkFn d.wk) b.core
    (pairedCmd (hdrOpc (d.cmd.headD 0#32)) (d.cmd.getD 1 0#32) && b.core % 2 == 0)).trans room
  have resting := got.resting a.depTaken
  have rest := got.rest
  have push := fun j => Hw.issueDep_of_push (h := h.depTaken (wkFn d.wk) b.core d) (e := e) (d := d) (b := b) (k := k) block engine owns
    counts (j := j)
  generalize (h.depTaken (wkFn d.wk) b.core d).acquired (wkBlock d.wk) (wkIdx d.wk) (d.rels b) = g at *
  have warp' : g.warp? d.wk = some w := by rw [rest]; exact warp
  have owns' : g.ownsEngine (wkFn d.wk) b'.core k = true := by rw [core, rest]; exact owns
  have room' : g.queueFull (wkFn d.wk) b'.core k (pairedCmd (hdrOpc (d.cmd.headD 0#32)) (d.cmd.getD 1 0#32) && b'.core % 2 == 0) =
      false := by
    rw [core, rest]; exact full
  obtain ⟨j, issued, kept, c, there, given⟩ := resting.issueCmd (e := e) (rm := d.rmode) (nbv := d.nbv) warp' block' owns' after
    (by rw [rest]; rfl) tokens room'
  refine ⟨j, push j issued, (kept _ _).trans ?_, c, ?_, given⟩
  · rw [rest]
    exact h.deps_depTaken _ _ _
  · rw [rest] at there
    exact there
end

theorem dependencyTaskIssue_pushes {s : State} {f core : Nat} {d : DepEntry} {b : Block} (hf : f = s.hw.occ.unit) (hc : core = s.hw.occ.id)
    (due : (s.hw.fcore f core).deps.find? (s.hw.depDue f core) = some d)
    (block : s.hw.block? (wkBlock d.wk) = some b) (hcore : b.core = core) (hfn : wkFn d.wk = f)
    (counts : s.hw.wraps (wkBlock d.wk) 3 = false) (rest : AtRest s) (engine : d.kind < 3)
    (owns : ∀ k, depEngine d.kind = some k → s.hw.ownsEngine f core k = true) :
    ∃ t c, exec .dependencyTaskIssue s = .next t ∧ t.clk = s.clk ∧ Tab.find? t.hw.cmds s.hw.nextId = some c ∧ c.words = d.cmd ∧
      c.wk = d.wk ∧ c.rmode = d.rmode ∧ c.nbv = d.nbv ∧
      (t.hw.fcore f core).deps = (s.hw.fcore f core).deps.filter fun x => x.age != d.age := by
  obtain ⟨k, kind⟩ : ∃ k, depEngine d.kind = some k := by
    interval_cases d.kind <;> exact ⟨_, rfl⟩
  have ready : s.hw.depDue f core d = true := List.find?_some due
  obtain ⟨ready, -⟩ := Bool.and_eq_true_iff.mp ready
  obtain ⟨j, issued, deps, c, there, given⟩ :=
    (resting_of_atRest rest).issueDep (e := env s) ready block hcore hfn counts kind (owns k kind)
  obtain ⟨words, given⟩ := Prod.mk.inj given
  obtain ⟨wk, given⟩ := Prod.mk.inj given
  obtain ⟨rmode, nbv⟩ := Prod.mk.inj given
  exact ⟨_, c, (show exec .dependencyTaskIssue s = s.event dependencyTaskIssue from rfl).trans
    (event_eq_after (dependencyTaskIssue_of_due hf hc due issued)), rfl, there, words, wk, rmode, nbv, deps⟩

end Sys2Proof.Machine
end

section
/-! # A ready arrival

What an arrival that a table entry makes leaves at its barrier (R132, R221, R364). -/
namespace Sys2Proof.Machine

open Sys2Proof.Terms

/-! ## A release -/

section
variable (h : Hw)

theorem Hw.steady_foldl {α : Type} {f : Hw → α → Hw} (step : ∀ (h : Hw) (x : α), h.Steady (f h x)) (l : List α) (h : Hw) :
    h.Steady (l.foldl f h) := List.foldlRecOn (motive := h.Steady) l f (.refl h) fun _ hk x _ => hk.trans (step _ x)

theorem Hw.Steady.writeBack (core ctx : Nat) : h.Steady (h.writeBack core ctx) :=
  (Hw.steady_foldl (fun k line => Hw.Steady.writeBackLine k core ctx line) _ h).trans
    (Hw.steady_foldl (fun k (x : Nat × GUnit) =>
      Hw.steady_foldl (fun k line => Hw.Steady.writeBackLine k core (guardCtx x.1) line) (k.l1Lines core (guardCtx x.1)) k) _ _)

theorem Hw.depsKept_writeBack (core ctx : Nat) : h.depsKept (h.writeBack core ctx) :=
  Hw.depsKept_trans (Hw.depsKept_foldl (fun k line => k.depsKept_writeBackLine core ctx line) _ h)
    (Hw.depsKept_foldl (fun k (x : Nat × GUnit) =>
      Hw.depsKept_foldl (fun k line => k.depsKept_writeBackLine core (guardCtx x.1) line) (k.l1Lines core (guardCtx x.1)) k) _ _)

theorem Hw.depsKept_peerWriteBack : h.depsKept h.peerWriteBack :=
  Hw.depsKept_trans (Hw.depsKept_foldl (fun k x => k.depsKept_writtenOut x) _ _) (Hw.depsKept_fields _ _ _ _ _ _ _ _)

theorem Hw.Steady.peerWriteBack : h.Steady h.peerWriteBack :=
  .of_keeps ((Keeps.foldl _ (fun k x => Keeps.writtenOut k x) _ h).trans (Keeps.fields _ _ _ _ _ _ _ _ _))

/-- A release leaves blocks and tables alone. -/
theorem Hw.releaseSync_keeps (core ctx : Nat) (s : Scope) :
    h.Steady (h.releaseSync core ctx s) ∧ h.depsKept (h.releaseSync core ctx s) := by
  have back : h.Steady (if s.far then h.writeBack core ctx else h) ∧ h.depsKept (if s.far then h.writeBack core ctx else h) := by
    split
    · exact ⟨.writeBack h core ctx, h.depsKept_writeBack core ctx⟩
    · exact ⟨.refl h, h.depsKept_refl⟩
  unfold Hw.releaseSync
  dsimp only
  split
  · exact ⟨back.1.trans (.peerWriteBack _), Hw.depsKept_trans back.2 (Hw.depsKept_peerWriteBack _)⟩
  · exact back

/-! ## A completion -/

theorem Hw.emit_rest (e : Env) (f core bit ty : Nat) (pay : BitVec 128) : h.emit e f core bit ty pay = { h with
    cores := (h.emit e f core bit ty pay).cores, agenda := (h.emit e f core bit ty pay).agenda
    trace := (h.emit e f core bit ty pay).trace } := by
  unfold Hw.emit
  split
  · dsimp only
    split <;> rfl
  · rfl

theorem Hw.barDone_rest (e : Env) (k i : Nat) (old new : Barrier) : h.barDone e k i old new = { h with
    warps := (h.barDone e k i old new).warps, cores := (h.barDone e k i old new).cores
    agenda := (h.barDone e k i old new).agenda, trace := (h.barDone e k i old new).trace } := by
  unfold Hw.barDone
  split
  · rfl
  · split
    · rfl
    · rw [Hw.emit_rest]
      rfl
end

/-! ## The arrival -/

/-- Barrier x after an arrival by warp u of block bk. -/
def Barrier.arrived (x : Barrier) (b : Block) (bk u : Nat) : Barrier :=
  { x.contribute b bk u with arr := x.arr + 1, last := partyOf (bkSlot bk) u b.gen }

theorem Barrier.contribute_rest (x : Barrier) (b : Block) (bk u : Nat) :
    x.contribute b bk u = { x with pendRow := (x.contribute b bk u).pendRow, pendF := (x.contribute b bk u).pendF } := by
  unfold Barrier.contribute
  dsimp only
  split <;> rfl

theorem Barrier.face_arrived {x : Barrier} (live : x.init = true) (b : Block) (bk u : Nat) :
    face (x.arrived b bk u).complete = afterArrival x none := by
  unfold Barrier.arrived
  rw [Barrier.contribute_rest]
  unfold Barrier.complete afterArrival
  simp only [live, true_and, Option.getD_none, Nat.cast_zero, add_zero, Option.isSome_none, Bool.false_or]
  split
  · next last => simp only [face, last.2]
  · simp only [face]

section
variable {h : Hw} {e : Env} {wk n i : Nat} {x : Barrier} {b o : Block}

theorem Hw.barrier_some {bk : Nat} {word : Word} (named : h.barrier bk b word = some (n, i, x)) : ∃ o, h.block? n = some o := by
  unfold Hw.barrier at named
  dsimp only at named
  split at named
  · exact absurd named (by simp)
  · split at named
    · exact absurd named (by simp)
    · next k o there =>
      split at named
      · obtain ⟨rfl, -⟩ := Prod.mk.inj (Option.some.inj named)
        exact ⟨o, there⟩
      · exact absurd named (by simp)

theorem Hw.liveBarrier_ok {bk : Nat} {word : Word} (named : h.liveBarrier bk b word = .ok (n, i, x)) :
    x.init = true ∧ ∃ o, h.block? n = some o := by
  unfold Hw.liveBarrier at named
  split at named
  · next m j y found =>
    split at named
    · next live =>
      obtain ⟨rfl, same⟩ := Prod.mk.inj (Except.ok.inj named)
      obtain ⟨rfl, rfl⟩ := Prod.mk.inj same
      exact ⟨(Bool.and_eq_true_iff.mp live).1, Hw.barrier_some found⟩
    · exact absurd named (by simp)
  · exact absurd named (by simp)

theorem Hw.mayArrive_ok {bk events : Nat} {word : Word} (may : h.mayArrive bk b word events = .ok (n, i, x)) :
    x.init = true ∧ ∃ o, h.block? n = some o := by
  unfold Hw.mayArrive at may
  split at may
  · exact absurd may (by simp)
  · next m j y named =>
    split at may
    · exact absurd may (by simp)
    · split at may
      · exact absurd may (by simp)
      · exact Hw.liveBarrier_ok (named.trans (congrArg Except.ok (Except.ok.inj may)))

/-- The barrier has taken the arrival, and its waiters go on where that completes its phase. -/
def Hw.barrierPut (h : Hw) (e : Env) (n i : Nat) (old new : Barrier) : Hw := (h.setBarrier n i new).barDone e n i old new

theorem Hw.arrive_of_block (block : h.block? (wkBlock wk) = some b) (ctx : Nat) : h.arrive e wk none n i x none ctx =
    ((((h.releaseSync b.core ctx (if x.cluster then .cluster else .block)).barrierPut e n i (x.arrived b (wkBlock wk) (wkIdx wk))
      (x.arrived b (wkBlock wk) (wkIdx wk)).complete).onWarp wk fun w => w.progress none e.clk.cycle).advance (wkBlock wk)).moved := by
  have same : (x.contribute b (wkBlock wk) (wkIdx wk)).arr = x.arr := by rw [Barrier.contribute_rest]
  unfold Hw.arrive
  dsimp only
  rw [block, Barrier.arrived, ← same]
  rfl

theorem Hw.barrierPut_leaves (h : Hw) (e : Env) (there : h.block? n = some o) (old new : Barrier) :
    ((h.barrierPut e n i old new).block? n).map (fun b => face (Tab.getD b.bars i Barrier.fresh)) = some (face new) ∧
      (h.barrierPut e n i old new).fcores = h.fcores := by
  unfold Hw.barrierPut
  rw [Hw.barDone_rest]
  refine ⟨?_, rfl⟩
  refine (congrArg (Option.map _) ((h.block?_onBlock_same n fun b => { b with bars := Tab.put b.bars i new }).trans
    (congrArg (Option.map _) there))).trans ?_
  exact congrArg some (congrArg face (Tab.getD_put_same _ _ _ _))

theorem Hw.face_advance (h : Hw) (bk n i : Nat) : ((h.advance bk).block? n).map (fun b => face (Tab.getD b.bars i Barrier.fresh)) =
    (h.block? n).map fun b => face (Tab.getD b.bars i Barrier.fresh) := by
  unfold Hw.advance
  by_cases here : n = bk
  · subst here
    rw [Hw.block?_onBlock_same, Option.map_map]
    rfl
  · rw [Hw.block?_onBlock_other _ _ here]

/-- The barrier's face, and every table, after an arrival. -/
theorem Hw.arrive_leaves (block : h.block? (wkBlock wk) = some b) (holder : h.block? n = some o) (live : x.init = true) (ctx : Nat) :
    ((h.arrive e wk none n i x none ctx).block? n).map (fun b => face (Tab.getD b.bars i Barrier.fresh)) = some (afterArrival x none) ∧
      h.depsKept (h.arrive e wk none n i x none ctx) := by
  obtain ⟨steady, kept⟩ := h.releaseSync_keeps b.core ctx (if x.cluster then .cluster else .block)
  rw [Hw.arrive_of_block block]
  have there : (h.releaseSync b.core ctx (if x.cluster then .cluster else .block)).block? n = some o := by
    unfold Hw.block?
    rw [steady.blocks]
    exact holder
  generalize h.releaseSync b.core ctx (if x.cluster then .cluster else .block) = k at kept there
  obtain ⟨put, same⟩ := k.barrierPut_leaves e there (x.arrived b (wkBlock wk) (wkIdx wk)) (x.arrived b (wkBlock wk) (wkIdx wk)).complete
    (i := i)
  generalize k.barrierPut e n i _ _ = j at put same
  refine ⟨?_, Hw.depsKept_trans kept (Hw.depsKept_of_fcores same)⟩
  have faced := (Hw.face_advance (j.onWarp wk fun w => w.progress none e.clk.cycle) (wkBlock wk) n i).trans put
  rw [← Barrier.face_arrived live b (wkBlock wk) (wkIdx wk)]
  exact faced
end

theorem dependencyTaskIssue_arrives {s : State} {f core n i : Nat} {d : DepEntry} {b : Block} {x : Barrier} (hf : f = s.hw.occ.unit)
    (hc : core = s.hw.occ.id) (due : (s.hw.fcore f core).deps.find? (s.hw.depDue f core) = some d)
    (block : s.hw.block? (wkBlock d.wk) = some b) (counts : s.hw.wraps (wkBlock d.wk) 3 = false) (arrival : 3 ≤ d.kind)
    (may : s.hw.mayArrive (wkBlock d.wk) b ((d.cmd.headD 0#32) &&& 0x7FF#32) 0 = .ok (n, i, x)) :
    ∃ t, exec .dependencyTaskIssue s = .next t ∧ t.clk = s.clk ∧ (barrierAt t n i).map face = some (afterArrival x none) ∧
      (t.hw.fcore f core).deps = (s.hw.fcore f core).deps.filter fun x => x.age != d.age := by
  have engine : depEngine d.kind = none := by
    unfold depEngine
    rw [if_neg (by omega), if_neg (by omega), if_neg (by omega)]
  have issued := Hw.issueDep_of_arrival (h := s.hw.depTaken f core d) (e := env s) (d := d) (b := b) block engine counts may
  obtain ⟨live, o, holder⟩ := Hw.mayArrive_ok may
  have got := Hw.Acquired.acquired (s.hw.depTaken f core d) (wkBlock d.wk) (wkIdx d.wk) (d.rels b)
  obtain ⟨b', block', -⟩ := got.block_settled (j := wkBlock d.wk) (b := b) block
  obtain ⟨o', holder', -⟩ := got.block_settled (j := n) (b := o) holder
  obtain ⟨faced, kept⟩ := Hw.arrive_leaves (e := env s) (i := i) block' holder' live (ctxOf (wkFn d.wk))
  have start : (((s.hw.depTaken f core d).acquired (wkBlock d.wk) (wkIdx d.wk) (d.rels b)).fcore f core).deps =
      (s.hw.fcore f core).deps.filter fun x => x.age != d.age := by
    rw [got.rest]
    exact s.hw.deps_depTaken f core d
  generalize Hw.arrive _ (env s) d.wk none n i x none _ = k at issued faced kept
  refine ⟨_, (show exec .dependencyTaskIssue s = s.event dependencyTaskIssue from rfl).trans
    (event_eq_after (dependencyTaskIssue_of_due hf hc due issued)), rfl, ?_, (kept f core).trans start⟩
  unfold barrierAt
  rw [Option.map_map]
  exact faced

end Sys2Proof.Machine
end

section
/-! # The distributor and the ends of its work -/
namespace Sys2Proof.Machine

open Sys2Proof.Terms

/-- Settles O52: an event at a time, from what each leaves of blocks, grids, units and tables. -/
theorem placementAndEnds : Obligations.PlacementAndEnds := by
  unfold Obligations.PlacementAndEnds
  refine ⟨?_, ?_, ?_, ?_, ?_, ?_, ?_, ?_, ?_, ?_⟩
  · exact fun s p f gid g rest h l _ hp places waiting grid plain found nodup few =>
      blockPlacement_placed hp places waiting grid plain found nodup few
  · exact fun s p f gid g rest hs hp places waiting unfit fresh => turns_blockPlacement_waits hs hp places waiting unfit fresh
  · exact fun s p f gid g rest n hs hp places waiting since due => turns_placementWaitLimit hs hp places waiting since due
  · exact fun s f c hs hf hc => resourceReport_reports hs hf hc
  · exact fun s f slot bk b g hs hf hslot hbk block done quiet grid launch =>
      blockFree_frees hs hf hslot hbk block done quiet grid launch
  · exact fun s f core d b _ hf hc due block hcore hfn counts rest =>
      ⟨fun engine owns => dependencyTaskIssue_pushes hf hc due block hcore hfn counts rest engine owns,
        fun k i x arrival may => dependencyTaskIssue_arrives hf hc due block counts arrival may⟩
  · exact fun s k w b p hs hk there block due runs hp user handler free =>
      watchdogExpiry_stops hs hk there block due runs hp user handler free
  · exact fun s u g hs hu unit open_ =>
      ⟨fun sound clean sealed_ verdict apart status free rising goes =>
        unitCommit_commit hs hu unit open_ sound clean sealed_ verdict apart status free rising goes,
        fun bad => unitCommit_discard hs hu unit open_ bad⟩
  · exact fun s u g gid x hs hu unit kernel all status goes => exactKernelEnd_ends hs hu unit kernel all status goes
  · exact fun s gid g _ hgid grid all nodup other => routineEnd_ends hgid grid all nodup other

end Sys2Proof.Machine
end

section
/-! # The checks of rank 2

Every encoded instruction makes the checks of R276 and R300 before it does anything: what they answer, and the entry to handler mode
that follows where they answer a trap (R154, R413). -/
namespace Sys2Proof.Machine

open Sys2Proof.Terms

/-! ## They come first -/

/-- A meaning that a failed check of `i` settles: nothing of it has been done before. -/
def ChecksFirst (i : Instr) (m : State → Host.Outcome State Fault Refusal) : Prop :=
  ∀ (s : State) (q : Iss) (stop : Stop), Iss.of s.hw = some q → q.rank2 s.hw i = .error stop →
    m s = s.run fun e h => settle e h q (.error stop)

theorem checksFirst_issueCtl {i : Instr} {f : Env → Hw → Iss → Except Stop Hw} : ChecksFirst i fun s => issueCtl i s f := by
  intro s q stop hq failed
  unfold issueCtl State.run
  simp only [hq, failed, bind, Except.bind]

section
variable {i : Instr}

theorem checksFirst_issue {f} : ChecksFirst i fun s => issue i s f := checksFirst_issueCtl
theorem checksFirst_alu {d val} : ChecksFirst i fun s => alu i d s val := checksFirst_issue
theorem checksFirst_alu64 {d val} : ChecksFirst i fun s => alu64 i d s val := checksFirst_issue
theorem checksFirst_alu1 {d a im x f} : ChecksFirst i fun s => alu1 i d a im x s f := checksFirst_alu
theorem checksFirst_alu2 {d a b im x y f} : ChecksFirst i fun s => alu2 i d a b im x y s f := checksFirst_alu
theorem checksFirst_alu3 {d a b im x y f} : ChecksFirst i fun s => alu3 i d a b im x y s f := checksFirst_alu
theorem checksFirst_fp1 {d a im x f} : ChecksFirst i fun s => fp1 i d a im x s f := checksFirst_alu
theorem checksFirst_fp2 {d a b im x y f} : ChecksFirst i fun s => fp2 i d a b im x y s f := checksFirst_alu
theorem checksFirst_reduce {d im a x f one} : ChecksFirst i fun s => reduce i d im a x s f one := checksFirst_alu
theorem checksFirst_setp {p val} : ChecksFirst i fun s => setp i p s val := checksFirst_issue
theorem checksFirst_exchange {d val} : ChecksFirst i fun s => exchange i d s val := checksFirst_issue
theorem checksFirst_shuffle {im d a b x y src} : ChecksFirst i fun s => shuffle i im d a b x y s src := checksFirst_exchange
theorem checksFirst_iterative {d n val} : ChecksFirst i fun s => iterative i d n s val := checksFirst_issue
theorem checksFirst_loadInto {u l scope z addr} : ChecksFirst i fun s => loadInto i u l scope z s addr := checksFirst_issue
theorem checksFirst_storeFrom {u l scope z addr} : ChecksFirst i fun s => storeFrom i u l scope z s addr := checksFirst_issue
theorem checksFirst_atomic {op cls ret ua ub sc} : ChecksFirst i fun s => atomic i op cls ret ua ub sc s := checksFirst_issue
theorem checksFirst_fence {acq rel sc} : ChecksFirst i fun s => fence i acq rel sc s := checksFirst_issue
theorem checksFirst_matrixPush {ws} : ChecksFirst i fun s => matrixPush i s ws := checksFirst_issue
theorem checksFirst_sequencedPush {d k ws} : ChecksFirst i fun s => sequencedPush i d k s ws := checksFirst_issue
end

theorem checksFirst_regionEdge {i : Instr} {f : Warp → Warp} : ChecksFirst i fun s => regionEdge i s f := by
  intro s q stop hq failed
  unfold regionEdge State.run
  simp only [hq, failed, bind, Except.bind]

theorem checksFirst_execEret : ChecksFirst .eret execEret := by
  intro s q stop hq failed
  unfold execEret State.run
  simp only [hq, failed, bind, Except.bind]

/-- Every instruction that has an encoding makes the checks before it changes anything; the steps of the package have none. -/
theorem checksFirst_exec {i : Instr} (encoded : (encode? i).isSome = true) : ChecksFirst i (exec i) := by
  unfold exec
  cases i with
  | lui | sel | ptov | ballot | nlanes | firstl | rdlane | bcast | ffma | fscale | bfma2 | hfma2 | cvtFI
  | cvtIF | cvtZF | cvtFD | cvtI8F | cstamp => exact checksFirst_alu
  | clz | popc | brev | ffs | addi | muli | andi | ori | xori | shi | mov => exact checksFirst_alu1
  | add | sub | min | max | minu | maxu | absd | addsat | mul | mulh | mulhu | and | or | xor | andn | shl
  | shr | sha | rot | bfx | bfxz | permb | fcpys => exact checksFirst_alu2
  | mad | bfi => exact checksFirst_alu3
  | dadd | dmul | dfma | cvtDF => exact checksFirst_alu64
  | frcp | frsq | cvtFZ | cvtBfF | cvtHF | cvtFBf | cvtFH | frnd => exact checksFirst_fp1
  | fadd | fsub | fmul | fmin | fmax | badd2 | bmul2 | bmax2 | hadd2 | hmul2 | hmax2 | niq | nidq => exact checksFirst_fp2
  | rdxAdd | rdxMax | rdxMin | rdxOr | rdxAnd | rdxFadd => exact checksFirst_reduce
  | cmpi | cmp | fcmp | dcmp | fclass | pand | por | pxor | pandn | vtop | voteAny | voteAll | elect => exact checksFirst_setp
  | sexp | nipl => exact checksFirst_exchange
  | shflIdx | shflUp | shflDn | shflXor => exact checksFirst_shuffle
  | div | divu | rem | remu | fdiv | fsqrt | fexp2 | flog2 | fsin | fcos | ddiv => exact checksFirst_iterative
  | ld | ldxW | ldxD => exact checksFirst_loadInto
  | st | stxW | stxD => exact checksFirst_storeFrom
  | atomAdd | atomMin | atomMax | atomAnd | atomOr | atomXor | atomMinu | atomMaxu | xchg | cas | xchgD
  | casD | redAdd | redMin | redMax | redOr | atomFadd | redFadd | redBfadd2 | atomAddD => exact checksFirst_atomic
  | fenceAcq | fenceRel | fenceAr | fenceSc => exact checksFirst_fence
  | mma | mmaP | mmaZ | mmaPz | drain | mzero | mload => exact checksFirst_matrixPush
  | copy | copyo | copyAt | gather | send | sendAt | rred | rbcast => exact checksFirst_sequencedPush
  | bra | brp | call | join | brkj | exit | jmpr => exact checksFirst_issueCtl
  | enter | leave => exact checksFirst_regionEdge
  | movx | pack | wrlane | bararr | barwait | barsync | barexp | barinit | barinv | barqry | bartry | mon
  | mwait | swait | twait | cbatch | cwait | cpoll | jpt | mwaita | tagrd | tagwr | tagchk | mdisp | task
  | tready | resid | gchk | bkpt | trace | trap | srd | swr | win | rdctr | ctrctl | tick | yield | imask
  | tlbir | tlbia | shoot | l1wb | l1inv | l2cln | haltb | ctxsv | ctxld | dumpw | racew | setmt => exact checksFirst_issue
  | eret => exact checksFirst_execEret
  | _ => exact absurd encoded Bool.false_ne_true

/-! ## What they answer -/

theorem privStop_user {i : Instr} {c : Nat} (h : privStop i .user = some c) : c = cPRIV := by
  unfold privStop at h
  split at h <;> simp_all

theorem privStop_cause {i : Instr} {m : Mode} {c : Nat} (h : privStop i m = some c) : c = cPRIV ∨ c = cILLEGAL := by
  unfold privStop at h
  split at h <;> grind

/-- A check that fails is ILLEGAL, PRIV, REGBOUND, FEMPTY with the field of the empty source, or the wait for a register. -/
theorem rank2_error {bad deny : Bool} {i : Instr} {w : Warp} {l : List Nat} {stop : Stop} (h : rank2 bad deny i w l = .error stop) :
    (∃ c ∈ [cILLEGAL, cPRIV, cREGBOUND], stop = .plain c) ∨
      (∃ o, stop = .trap (BitVec.ofNat 64 cFEMPTY) 0#64 (some o) 0#64) ∨ stop = .wait 1 := by
  unfold rank2 at h
  split at h
  · split at h
    · next c stopped =>
      have cause : c = cPRIV ∨ c = cILLEGAL := by
        cases priv : privStop i w.mode with
        | some d => rw [priv] at stopped; exact Option.some.inj stopped ▸ privStop_cause priv
        | none => rw [priv] at stopped; cases deny <;> simp_all
      refine .inl ⟨c, ?_, (Except.error.inj h).symm⟩
      rcases cause with rfl | rfl <;> simp
    · split at h
      · split at h
        · split at h
          · exact .inr (.inl ⟨_, (Except.error.inj h).symm⟩)
          · exact .inr (.inr (Except.error.inj h).symm)
        · split at h
          · exact .inr (.inr (Except.error.inj h).symm)
          · exact absurd h nofun
      · exact .inl ⟨_, by simp, (Except.error.inj h).symm⟩
  · exact .inl ⟨_, by simp, (Except.error.inj h).symm⟩

/-- No check of rank 2 answers RACE, which alone would be counted (Table 11.7). -/
theorem rank2_not_race {bad deny : Bool} {i : Instr} {w : Warp} {l : List Nat} {c a d : DWord} {o : Option DWord}
    (h : rank2 bad deny i w l = .error (.trap c a o d)) : c.toNat % 256 ≠ 0x07 := by
  rcases rank2_error h with ⟨k, hk, e⟩ | ⟨_, e⟩ | e
  · obtain ⟨rfl, -⟩ := Stop.trap.inj e
    simp only [List.mem_cons, List.not_mem_nil, or_false] at hk
    rcases hk with rfl | rfl | rfl <;> decide
  · obtain ⟨rfl, -⟩ := Stop.trap.inj e
    decide
  · exact absurd e nofun

theorem rank2_illegal {bad : Bool} {i : Instr} {w : Warp} (deny : Bool) (l : List Nat)
    (h : Instr.legal w.xi.toNat i = false ∨ bad = true) : rank2 bad deny i w l = .error (.plain cILLEGAL) := by
  unfold rank2
  rw [if_neg]
  rcases h with h | h <;> simp [h]

theorem privStop_of_handlerOnly {i : Instr} (h : Instr.handlerOnly i = true) : privStop i .user = some cPRIV := by
  unfold privStop
  split
  · exact absurd h Bool.false_ne_true
  · exact absurd h Bool.false_ne_true
  · exact if_pos ⟨h, rfl⟩

theorem rank2_priv {deny : Bool} {i : Instr} {w : Warp} (l : List Nat) (legal : Instr.legal w.xi.toNat i = true)
    (h : Instr.handlerOnly i = true ∨ deny = true) (user : w.mode = .user) : rank2 false deny i w l = .error (.plain cPRIV) := by
  have stopped : (privStop i w.mode).or (if deny then some cPRIV else none) = some cPRIV := by
    rw [user]
    cases priv : privStop i .user with
    | some c => rw [privStop_user priv]; rfl
    | none =>
      rcases h with h | h
      · exact absurd ((privStop_of_handlerOnly h).symm.trans priv) nofun
      · rw [if_pos h]; rfl
  unfold rank2
  rw [if_pos (by simpa using legal), stopped]

theorem rank2_regbound {i : Instr} {w : Warp} (l : List Nat) (legal : Instr.legal w.xi.toNat i = true)
    (may : privStop i w.mode = none) (h : ∃ u ∈ Instr.uses i, w.inBounds u = false) :
    rank2 false false i w l = .error (.plain cREGBOUND) := by
  have out : ¬ (Instr.uses i).all w.inBounds = true := by simpa using h
  unfold rank2
  rw [if_pos (by simpa using legal), may, if_neg Bool.false_ne_true, Option.or_none]
  exact if_neg out

/-! ## Replay packets of the other path (R76, R154) -/

/-- A warp whose packets of `ids` are called after those it has. -/
def Warp.calling (w : Warp) (ids : List Nat) : Warp :=
  { w with replayFirst := w.replayFirst ++ ids.filter fun k => !w.replayFirst.contains k }

theorem Warp.mem_calling {w : Warp} {ids : List Nat} {id : Nat} (h : id ∈ ids) : id ∈ (w.calling ids).replayFirst := by
  by_cases called : id ∈ w.replayFirst
  · exact List.mem_append_left _ called
  · exact List.mem_append_right _ (List.mem_filter.mpr ⟨h, by simpa using called⟩)

@[simp] theorem Warp.calling_nil (w : Warp) : w.calling [] = w := by simp [Warp.calling]

section
variable (h : Hw) (wk : Nat) (sel : Flight → Bool)

/-- A flight as a packet, where it becomes one. -/
def Flight.packeted (f : Flight) : Flight := if f.packs wk && sel f then { f with replay := true, held := [] } else f
/-- The flights that become packets. -/
def Hw.packed : List Nat := (h.flights.filter fun f => f.2.packs wk && sel f.2).map (·.1)

variable {h wk sel} in
theorem Hw.mem_packed {id : Nat} {f : Flight} (there : Tab.find? h.flights id = some f) (packs : (f.packs wk && sel f) = true) :
    id ∈ h.packed wk sel :=
  List.mem_map.mpr ⟨(id, f), List.mem_filter.mpr ⟨Tab.mem_of_find? there, packs⟩, rfl⟩

theorem Move.returns_nil (m : Move) : m.returns [] = false := by
  unfold Move.returns
  split <;> rfl

variable {h wk sel} in
/-- Where no flight becomes one, nothing changes. -/
theorem Hw.packetise_of_none (none : h.packed wk sel = []) : h.packetise wk sel = h := by
  unfold Hw.packed at none
  simp [Hw.packetise, Hw.toPackets, none, Move.returns_nil]

variable {h wk sel} in
theorem Hw.packetise_of_some (some : h.packed wk sel ≠ []) : h.packetise wk sel =
    { (h.onWarp wk fun w => w.calling (h.packed wk sel)) with
      flights := Tab.mapVals (fun _ (f : Flight) => f.packeted wk sel) h.flights
      agenda := h.agenda.filter fun m => !m.returns (h.packed wk sel) } := by
  have listed : ((h.flights.filter fun f => f.2.packs wk && sel f.2).map (·.1)).isEmpty = false := by
    simpa [Hw.packed] using some
  unfold Hw.packetise Hw.toPackets
  dsimp only
  rw [listed]
  rfl

theorem Hw.find?_flights_packetise (id : Nat) :
    Tab.find? (h.packetise wk sel).flights id = (Tab.find? h.flights id).map fun f => f.packeted wk sel := by
  by_cases none : h.packed wk sel = []
  · rw [Hw.packetise_of_none none]
    cases there : Tab.find? h.flights id with
    | none => rfl
    | some f =>
      have stays : ¬ (f.packs wk && sel f) = true := fun packs => by simpa [none] using Hw.mem_packed there packs
      rw [Option.map_some, Flight.packeted, if_neg stays]
  · rw [Hw.packetise_of_some none]
    exact Tab.find?_mapVals _ _ _

theorem Hw.warp?_packetise_calling :
    (h.packetise wk sel).warp? wk = (h.warp? wk).map fun w => w.calling (h.packed wk sel) := by
  by_cases none : h.packed wk sel = []
  · rw [Hw.packetise_of_none none, none]
    simp
  · rw [Hw.packetise_of_some none]
    exact Hw.warp?_onWarp_same _ _ _
end

theorem packs_iff {q : Iss} {f : Flight} : Packs q f ↔ (f.packs q.wk && (f.path != q.x)) = true := by
  simp only [Packs, Flight.packs, Bool.and_eq_true, beq_iff_eq, bne_iff_ne]
  tauto

/-! ## Entering handler mode -/

theorem toNat_lowByte (c : DWord) : (c.extractLsb' 0 8).toNat = c.toNat % 256 := by simp

theorem fillsOpc_eq_false {c : DWord} (h7 : c.toNat % 256 ≠ 0x07) (h14 : c.toNat % 256 ≠ 0x14) (h15 : c.toNat % 256 ≠ 0x15) :
    fillsOpc c = false := by
  have other {n : BitVec 8} (hn : c.toNat % 256 ≠ n.toNat) : (c.extractLsb' 0 8 == n) = false :=
    beq_eq_false_iff_ne.mpr fun e => hn (by rw [← toNat_lowByte, e])
  unfold fillsOpc
  rw [other (n := 0x07#8) h7, other (n := 0x14#8) h14, other (n := 0x15#8) h15]
  rfl

/-- What the checks' trap does: the warp enters handler mode at the instruction's address, and nothing else of it has been done. -/
theorem enters_of_trap {s : State} {q : Iss} {c a d : DWord} (o : Option DWord) (hs : s.Inv) (hq : Iss.of s.hw = some q)
    (can : CanEnter q s) (noRace : c.toNat % 256 ≠ 0x07) :
    ∃ t w, (s.run fun e h => settle e h q (.error (.trap c a o d))) = .next t ∧ Enters q s t w c a (o.getD (pathNumber q)) := by
  obtain ⟨user, handler, free⟩ := can
  have entered := Hw.takeTrap_enters (e := env s) (x := q.x) (t := q.p.trapAt q.x c a o d) (Iss.of_warp hq) user handler free
    fun e => noRace (by rw [← toNat_lowByte]; exact congrArg BitVec.toNat e)
  have kept := Hw.packetise_rest s.hw q.wk fun f => f.path != q.x
  have flights := Hw.find?_flights_packetise s.hw q.wk fun f => f.path != q.x
  have others := fun k (hk : k ≠ q.wk) => s.hw.warp?_packetise_other q.wk (fun f => f.path != q.x) hk
  have warp := Hw.warp?_packetise_calling s.hw q.wk fun f => f.path != q.x
  have lone := Hw.packetise_of_none (h := s.hw) (wk := q.wk) (sel := fun f => f.path != q.x)
  have listed := fun id f => Hw.mem_packed (h := s.hw) (wk := q.wk) (sel := fun f => f.path != q.x) (id := id) (f := f)
  have none_listed : (∀ x ∈ s.hw.flights, ¬ Packs q x.2) → s.hw.packed q.wk (fun f => f.path != q.x) = [] := fun lone =>
    List.map_eq_nil_iff.mpr (List.filter_eq_nil_iff.mpr fun f hf => mt packs_iff.mpr (lone f hf))
  rw [Iss.of_warp hq, Option.map_some] at warp
  generalize s.hw.packetise q.wk (fun f => f.path != q.x) = h at *
  generalize s.hw.packed q.wk (fun f => f.path != q.x) = l at *
  refine ⟨s.after (s.hw.takeTrap (env s) q.wk q.x (q.p.trapAt q.x c a o d)), (q.w.calling l).enter
    (q.p.trapAt q.x c a o d) q.x (s.hw.part (s.hw.partOf q.fn)).phvec s.clk.cycle, rfl, ?_⟩
  rw [entered]
  refine {
    warp := (Hw.warp?_onWarp_same _ _ _).trans (congrArg _ warp)
    regs := ⟨rfl, rfl, rfl, rfl, rfl⟩
    frame := rfl
    path := rfl
    fresh := ⟨rfl, rfl, rfl, rfl, rfl, rfl⟩
    kept := rfl
    opc := fun h7 h14 h15 => if_neg (by rw [show fillsOpc (q.p.trapAt q.x c a o d).c = false from fillsOpc_eq_false h7 h14 h15]; decide)
    others := fun k hk => (Hw.warp?_onWarp_other _ _ hk).trans (others k hk)
    packs := fun id f there packs => ⟨(flights id).trans ?_, Warp.mem_calling (listed id f there (packs_iff.mp packs))⟩
    flies := fun id f there stays => (flights id).trans ?_
    lone := fun others => ?_
    rest := ⟨State.mem_after ?_, rfl, fun _ => ?_⟩ }
  · rw [there, Option.map_some, Flight.packeted, if_pos (packs_iff.mp packs)]
  · rw [there, Option.map_some, Flight.packeted, if_neg (mt packs_iff.mpr stays)]
  · have none := none_listed others
    refine ⟨(congrArg Hw.flights (lone none) :), (congrArg Hw.agenda (lone none) :), ?_⟩
    rw [none, Warp.calling_nil]
    rfl
  · show h.wq = []
    rw [kept]; exact hs.2
  · have unwritten := hs.2
    show { h.onWarp q.wk _ with tried := [], wq := [] } = _
    rw [kept]
    unfold Hw.onWarp State.after Hw.moved
    simp only [unwritten]

/-! ## Waiting -/

theorem waits_of_wait {s : State} {q : Iss} {r : Nat} (hs : s.Inv) (hq : Iss.of s.hw = some q) :
    ∃ t, (s.run fun e h => settle e h q (.error (.wait r))) = .next t ∧ Waits q t r ∧ t.mem = s.mem ∧ t.clk = s.clk := by
  have waits : s.hw.waitOn q.wk q.x r = { s.hw with
      warps := Tab.put s.hw.warps q.wk (q.w.setPath q.x { q.p with stall := r, later := 0#32, ticket := none })
      tried := (q.wk, q.x) :: s.hw.tried } := by
    unfold Hw.waitOn
    rw [Hw.onPath_eq _ _ _ (Iss.of_warp hq)]
    rfl
  refine ⟨s.after (s.hw.waitOn q.wk q.x r), rfl, ?_, ?_, rfl⟩
  · rw [waits]
    refine ⟨_, Tab.find?_put_same _ _ _, ?_⟩
    rw [Warp.setPath_path]
    exact ⟨rfl, rfl, rfl, by cases q.x <;> rfl, by cases q.x <;> rfl, by cases q.x <;> rfl, by cases q.x <;> rfl, List.mem_cons_self⟩
  · rw [waits]
    exact State.mem_after hs.2

/-- Settles O32. The checks come before everything else in each meaning, so what they answer is all that happens; what they answer
is read off them. -/
theorem rankTwoTraps : Obligations.RankTwoTraps := by
  unfold Obligations.RankTwoTraps
  refine ⟨fun i s q c a o d encoded hs hq can failed => ?_, fun i s q r encoded hs hq failed => ?_,
    fun bad deny i w l => rank2_illegal deny l, fun deny i w l => rank2_priv l, fun i w l => rank2_regbound l⟩
  · rw [checksFirst_exec encoded s q _ hq failed]
    exact enters_of_trap o hs hq can (rank2_not_race failed)
  · rw [checksFirst_exec encoded s q _ hq failed]
    exact waits_of_wait hs hq
end Sys2Proof.Machine
end

section
/-! # Divergence and joins

BRP, JPT, JOIN and BRKJ change the paths of their own warp and put it back (R149, R150, R152, R334, R337 to R339). -/
namespace Sys2Proof.Machine

open Sys2Proof.Terms

/-! ## A warp put back -/

/-- The warp that instruction `i` put back as `v`, after it has retired. -/
def Iss.leaving (q : Iss) (i : Instr) (v : Warp) : Warp := (v.popTokens i).retired q.x q.p.pc

section
variable (q : Iss) (i : Instr) (v : Warp)

/-- Only its paths and its queues differ. -/
theorem Iss.leaving_eq : q.leaving i v = { v with
    p0 := (q.leaving i v).p0, p1 := (q.leaving i v).p1, q0 := (q.leaving i v).q0, q2 := (q.leaving i v).q2
    q4 := (q.leaving i v).q4 } := by
  rw [Iss.leaving, Warp.retired_eq, (Warp.popTokens_spec _ _).1]

theorem Iss.leaving_path : (q.leaving i v).path q.x = (v.path q.x).retired q.p.pc := by
  rw [Iss.leaving, Warp.retired_path, (Warp.popTokens_spec _ _).1]
  cases q.x <;> rfl

theorem Iss.leaving_other : (q.leaving i v).path (!q.x) = v.path (!q.x) := by
  rw [Iss.leaving, Warp.retired_other, (Warp.popTokens_spec _ _).1]
  cases q.x <;> rfl

theorem Iss.leaving_queue (e : EngKind) : (q.leaving i v).queue e =
    if pops i e then { v.queue e with tokens := (v.queue e).tokens.tail } else v.queue e := by
  rw [Iss.leaving, Warp.retired_queue, (Warp.popTokens_spec _ _).2]

@[simp] theorem Iss.leaving_split : (q.leaving i v).split = v.split := by rw [Iss.leaving_eq]
@[simp] theorem Iss.leaving_exited : (q.leaving i v).exited = v.exited := by rw [Iss.leaving_eq]
@[simp] theorem Iss.leaving_pend : (q.leaving i v).pend = v.pend := by rw [Iss.leaving_eq]

/-- Each path stands where it was put. -/
theorem Iss.leaving_stands (x : Bool) : stands ((q.leaving i v).path x) = stands (v.path x) ∧
    ((q.leaving i v).path x).live = (v.path x).live ∧ ((q.leaving i v).path x).atJoin = (v.path x).atJoin := by
  by_cases own : x = q.x
  · subst own; rw [Iss.leaving_path]; exact ⟨rfl, rfl, rfl⟩
  · obtain rfl : x = !q.x := by cases x <;> cases h : q.x <;> simp_all
    rw [Iss.leaving_other]; exact ⟨rfl, rfl, rfl⟩
end

/-- What control flow may change of a warp before the instruction retires. -/
def Warp.resteered (w v : Warp) : Prop := v = { w with
  p0 := v.p0, p1 := v.p1, split := v.split, exited := v.exited, progressAt := v.progressAt, pend := v.pend, sync := v.sync }

section
variable {i : Instr} {s : State} {q : Iss} {f : Env → Hw → Iss → Except Stop Hw} {v : Warp}

/-- An instruction that only puts its warp back, its paths changed. -/
theorem steered_of_setWarp (meaning : exec i s = issueCtl i s f) (issues : Issues i s q) (same : q.w.resteered v)
    (put : f ⟨s.clk, s.mem⟩ s.hw q = .ok (s.hw.setWarp q.wk v)) :
    ∃ t, exec i s = .next t ∧ Steered i q s t (q.leaving i v) := by
  obtain ⟨inv, hq, passes, room, -⟩ := issues
  obtain ⟨k, retired, answer⟩ := issueCtl_next hq passes put (Or.inr room)
  have unwritten : k.wq = [] := by rw [retired.rest]; exact inv.2
  have warp : k.warp? q.wk = some (q.leaving i v) := by
    rw [retired.warp, Hw.setWarp, Hw.warp?, Tab.find?_put_same]; rfl
  refine ⟨_, meaning.trans answer, {
    warp := warp
    others := fun n hn => (retired.others n hn).trans (Tab.find?_put_other _ _ hn)
    clock := rfl
    memory := by rw [unwritten]; rfl
    quiet := fun none => ?_
    parts := by show k.parts = _; rw [retired.rest]; rfl
    scr := by show k.fcores = _; rw [retired.rest]; rfl
    kept := by rw [Iss.leaving_eq, same]
    queues := fun e => ?_ }⟩
  · obtain ⟨blocks, cores, -⟩ := retired.quiet (by rw [none]; rfl)
    exact ⟨blocks, cores⟩
  · have before : v.queue e = q.w.queue e := by rw [same]; cases e <;> rfl
    rw [Iss.leaving_queue, before]

/-- The same where the other path, the split join and the exited lanes stay. -/
theorem steers_of_setWarp (meaning : exec i s = issueCtl i s f) (issues : Issues i s q) (same : q.w.resteered v)
    (put : f ⟨s.clk, s.mem⟩ s.hw q = .ok (s.hw.setWarp q.wk v)) (waits : (v.path q.x).atJoin = q.p.atJoin)
    (other : calm (v.path (!q.x)) = calm (q.w.path (!q.x))) (split : v.split = q.w.split) (exited : v.exited = q.w.exited) :
    Steers i s q (stands (v.path q.x)) := by
  obtain ⟨t, answer, steered⟩ := steered_of_setWarp meaning issues same put
  obtain ⟨place, -, join⟩ := Iss.leaving_stands q i v q.x
  exact ⟨t, _, answer, steered, place, join.trans waits, by rw [Iss.leaving_other, other],
    by rw [Iss.leaving_split, split], by rw [Iss.leaving_exited, exited]⟩
end

/-- A path of its own put into the warp. -/
theorem Warp.resteered_setPath (w : Warp) (x : Bool) (p : Path) : w.resteered (w.setPath x p) := by
  cases x <;> rfl

@[simp] theorem Warp.setPath_split (w : Warp) (x : Bool) (p : Path) : (w.setPath x p).split = w.split := by cases x <;> rfl
@[simp] theorem Warp.setPath_exited (w : Warp) (x : Bool) (p : Path) : (w.setPath x p).exited = w.exited := by cases x <;> rfl

theorem Warp.setPath_setPath (w : Warp) (x : Bool) (p r : Path) : (w.setPath x p).setPath x r = w.setPath x r := by
  cases x <;> rfl

theorem Hw.onPath_eq_setWarp {h : Hw} {wk : Nat} {w : Warp} (x : Bool) (g : Path → Path) (there : h.warp? wk = some w) :
    h.onPath wk x g = h.setWarp wk (w.setPath x (g (w.path x))) := Hw.onPath_eq h x g there

theorem Hw.goto_setWarp (h : Hw) (wk : Nat) (x : Bool) (pc : DWord) (w : Warp) :
    (h.setWarp wk w).goto wk x pc = h.setWarp wk (w.setPath x { w.path x with pc := pc }) := by
  rw [Hw.goto, Hw.onPath_eq_setWarp _ _ (Hw.warp?_setWarp_same _ _ _), Hw.setWarp, Hw.setWarp, Tab.put_put]
  rfl

theorem steers_of_setPath {i : Instr} {s : State} {q : Iss} {f : Env → Hw → Iss → Except Stop Hw} {p : Path}
    (meaning : exec i s = issueCtl i s f) (issues : Issues i s q)
    (put : f ⟨s.clk, s.mem⟩ s.hw q = .ok (s.hw.setWarp q.wk (q.w.setPath q.x p))) (waits : p.atJoin = q.p.atJoin) :
    Steers i s q (stands p) := by
  have steers := steers_of_setWarp meaning issues (Warp.resteered_setPath _ _ _) put (by rw [Warp.setPath_path, waits])
    (by rw [Warp.setPath_other]) (Warp.setPath_split _ _ _) (Warp.setPath_exited _ _ _)
  rwa [Warp.setPath_path] at steers

/-! ## Targets -/

/-- The target of format J is the branch target of R295. -/
theorem jTarget_eq_branchTarget (q : Iss) (k : BitVec 19) : jTarget q.p.pc k = branchTarget q k := by
  have scaled : k.signExtend 64 <<< 2 = BitVec.ofInt 64 (4 * k.toInt) := by
    rw [BitVec.shiftLeft_eq_mul_twoPow, BitVec.ofInt_mul, BitVec.mul_comm]
    rfl
  rw [jTarget, branchTarget, scaled]

theorem Iss.lane0_mem {q : Iss} (active : q.lanes ≠ []) : q.lane0 ∈ q.lanes := by
  unfold Iss.lane0
  cases lanes : q.lanes with
  | nil => exact absurd lanes active
  | cons n l => exact List.mem_cons_self

/-- An aligned address that every active lane holds is the target (R336). -/
theorem Iss.target_eq {q : Iss} {a : RField} {x : Bool} {v : DWord} (active : q.lanes ≠ []) (aligned : v.toNat % 4 = 0)
    (uniform : ∀ n ∈ q.lanes, q.w.read64 (Use.srcC a x false) n = v) : q.target a x = .ok v := by
  have low : v.extractLsb' 0 2 = 0#2 := BitVec.eq_of_toNat_eq (by simpa using aligned)
  have lane0 := Iss.lane0_mem active
  unfold Iss.target
  dsimp only
  generalize q.w.read64 (Use.srcC a x false) = at_ at *
  generalize q.lane0 = l at *
  have none : (q.lanes.find? fun n => (at_ n).extractLsb' 0 2 != 0#2) = none :=
    List.find?_eq_none.mpr fun n hn => by rw [uniform n hn, low]; decide
  have same : (q.lanes.all fun n => at_ n == at_ l) = true :=
    List.all_eq_true.mpr fun n hn => by rw [uniform n hn, uniform l lane0]; exact beq_self_eq_true v
  rw [none]
  dsimp only
  rw [same, if_pos rfl, uniform l lane0]

/-! ## JPT and BRP -/

/-- A path with an entry pushed on its join stack, gone on at `pc`. -/
def Path.pushed (p : Path) (e : JEntry) (pc : DWord) : Path := { p with stack := e :: p.stack, pc := pc }

theorem jpt_pushes (k : BitVec 19) (s : State) (q : Iss) (issues : Issues (.jpt k) s q) (room : q.p.stack.length < 16) :
    Steers (.jpt k) s q (after q, q.p.mask, ⟨branchTarget q k, none, q.p.mask⟩ :: q.p.stack, q.p.base) := by
  have there := Iss.of_warp (iss_of_issues issues)
  obtain ⟨-, -, -, -, free⟩ := id issues
  have fits : ¬ 16 ≤ q.p.stack.length := by omega
  have meaning : exec (.jpt k) s = execJpt k s := rfl
  unfold execJpt issue at meaning
  exact steers_of_setPath (p := q.p.pushed ⟨branchTarget q k, none, q.p.mask⟩ q.next) meaning issues
    (by
      simp only [free, if_neg fits, bind, Except.bind]
      rw [Hw.onPath_eq_setWarp _ _ there, Hw.goto_setWarp, Warp.setPath_setPath, Warp.setPath_path, jTarget_eq_branchTarget]
      rfl) rfl

section
variable {w : Warp} {x : Bool} {tk nt m : Mask} {target next t : DWord} {l : List JEntry}

theorem Warp.diverge_splits (above : (w.path x).above = ⟨t, none, m⟩ :: l) (one : w.split = none) :
    w.diverge x tk nt target next = .ok { w with
      split := some (t, m)
      p0 := { w.path x with
        mask := nt, pc := next, stack := (w.path x).stack.tail, base := (w.path x).stack.tail.length, packed := false }
      p1 := freshPath target tk } := by
  unfold Warp.diverge
  simp only [above, one, Option.isNone_none, if_true]

theorem Warp.diverge_defers (above : (w.path x).above = ⟨t, none, m⟩ :: l) (two : w.split.isSome = true)
    (room : (w.path x).stack.length < 16) : w.diverge x tk nt target next = .ok (w.setPath x { w.path x with
      stack := ⟨t, some next, nt⟩ :: (w.path x).stack, mask := tk, pc := target, packed := false }) := by
  have fits : ¬ 16 ≤ (w.path x).stack.length := by omega
  have split : w.split.isNone = false := by rw [← Option.not_isSome, two]; rfl
  unfold Warp.diverge
  simp only [above, split, if_neg fits]
  rfl
end

section
variable {n : Bool} {p : BitVec 3} {k : BitVec 19} {s : State} {q : Iss} {t : DWord} {m : Mask} {l : List JEntry}

/-- The active lanes that take a BRP (R334), and those that do not. -/
def Iss.taken (q : Iss) (n : Bool) (p : BitVec 3) : Mask := q.p.mask &&& (if n then ~~~q.w.getP p.toNat else q.w.getP p.toNat)
def Iss.untaken (q : Iss) (n : Bool) (p : BitVec 3) : Mask := q.p.mask &&& ~~~q.taken n p

/-- A BRP whose lanes part leaves the warp as `Warp.diverge` says. -/
theorem execBrp_parts (takes : q.taken n p ≠ 0#1024) (rest : q.untaken n p ≠ 0#1024) : ∃ f,
    exec (.brp false n p k) s = issueCtl (.brp false n p k) s f ∧
    ∀ v, q.w.diverge q.x (q.taken n p) (q.untaken n p) (branchTarget q k) (after q) = .ok v →
      f ⟨s.clk, s.mem⟩ s.hw q = .ok (s.hw.setWarp q.wk v) := by
  have taken : (if n then q.p.mask &&& ~~~q.w.getP p.toNat else q.p.mask &&& q.w.getP p.toNat) = q.taken n p := by
    cases n <;> rfl
  have meaning : exec (.brp false n p k) s = execBrp false n p k s := rfl
  refine ⟨_, meaning, fun v diverges => ?_⟩
  have untaken : q.p.mask &&& ~~~q.taken n p = q.untaken n p := rfl
  have uniform : ¬ (q.untaken n p = 0#1024 ∧ q.taken n p ≠ 0#1024) := fun h => rest h.1
  dsimp only
  rw [taken, untaken, if_neg uniform, if_neg takes, jTarget_eq_branchTarget]
  rw [show q.next = after q from rfl, diverges]
  rfl

theorem brp_splits (issues : Issues (.brp false n p k) s q) (above : q.p.above = ⟨t, none, m⟩ :: l)
    (takes : q.taken n p ≠ 0#1024) (rest : q.untaken n p ≠ 0#1024) (one : q.w.split = none) :
    ∃ z w, exec (.brp false n p k) s = .next z ∧ Steered (.brp false n p k) q s z w ∧ w.split = some (t, m) ∧
      stands w.p0 = (after q, q.untaken n p, q.p.stack.tail, q.p.stack.length - 1) ∧
      stands w.p1 = (branchTarget q k, q.taken n p, [], 0) ∧ w.p1.live = true ∧ w.exited = q.w.exited := by
  obtain ⟨f, meaning, put⟩ := execBrp_parts (s := s) (k := k) takes rest
  obtain ⟨z, answer, steered⟩ := steered_of_setWarp meaning issues (by rfl) (put _ (Warp.diverge_splits above one))
  refine ⟨z, _, answer, steered, Iss.leaving_split _ _ _, (Iss.leaving_stands _ _ _ false).1.trans ?_,
    (Iss.leaving_stands _ _ _ true).1, (Iss.leaving_stands _ _ _ true).2.1, Iss.leaving_exited _ _ _⟩
  rw [← List.length_tail]
  rfl

theorem brp_defers (issues : Issues (.brp false n p k) s q) (above : q.p.above = ⟨t, none, m⟩ :: l)
    (takes : q.taken n p ≠ 0#1024) (rest : q.untaken n p ≠ 0#1024) (two : q.w.split.isSome = true) (room : q.p.stack.length < 16) :
    Steers (.brp false n p k) s q (branchTarget q k, q.taken n p, ⟨t, some (after q), q.untaken n p⟩ :: q.p.stack, q.p.base) := by
  obtain ⟨f, meaning, put⟩ := execBrp_parts (s := s) (k := k) takes rest
  exact steers_of_setPath meaning issues (put _ (Warp.diverge_defers above two room)) rfl
end

/-! ## JOIN -/

section
variable {w : Warp} {x : Bool}

/-- A path with active lanes loses nothing. -/
theorem Hw.afterMask_of_active (h : Hw) (wk : Nat) (active : (w.path x).mask ≠ 0#1024) : h.afterMask wk x w = h.setWarp wk w := by
  unfold Hw.afterMask Warp.emptied
  simp only [if_pos active]
  rfl

theorem Warp.progress_own (w : Warp) (x : Bool) (c : Nat) :
    (w.progress (some x) c).path x = { w.path x with count := 0, fresh := true } := by
  cases x <;> simp [Warp.progress, Warp.path]

theorem Warp.progress_other (w : Warp) (x : Bool) (c : Nat) :
    (w.progress (some x) c).path (!x) = { w.path (!x) with count := 0 } := by
  cases x <;> simp [Warp.progress, Warp.path]

theorem Warp.progress_stands (w : Warp) (y : Option Bool) (c : Nat) (x : Bool) : 
    stands ((w.progress y c).path x) = stands (w.path x) ∧ ((w.progress y c).path x).mask = (w.path x).mask ∧ 
    ((w.progress y c).path x).live = (w.path x).live ∧ ((w.progress y c).path x).atJoin = (w.path x).atJoin := by
  cases x <;> exact ⟨rfl, rfl, rfl, rfl⟩

theorem Warp.resteered_progress {v : Warp} (same : w.resteered v) (y : Option Bool) (c : Nat) : w.resteered (v.progress y c) := by
  rw [Warp.resteered, Warp.progress, same]
end

section
variable {s : State} {q : Iss} {v : Warp}

/-- A JOIN after which its path, or path 0 of a merged warp, has active lanes puts the joined warp back. -/
theorem join_puts (issues : Issues .join s q) (joins : q.w.join q.x = .ok v) (same : q.w.resteered v)
    (active : (v.path (if v.split.isNone then false else q.x)).mask ≠ 0#1024) :
    ∃ t, exec .join s = .next t ∧ Steered .join q s t (q.leaving .join (v.progress (some q.x) s.clk.cycle)) := by
  have meaning : exec .join s = execJoin s := rfl
  refine steered_of_setWarp meaning issues (Warp.resteered_progress same _ _) ?_
  dsimp only
  rw [joins]
  exact congrArg Except.ok (Hw.afterMask_of_active _ _ (by rwa [(Warp.progress_stands _ _ _ _).2.1]))

/-- A JOIN that puts its path elsewhere, with active lanes. -/
theorem join_moves {p : Path} (issues : Issues .join s q) (joins : q.w.join q.x = .ok (q.w.setPath q.x p)) (active : p.mask ≠ 0#1024)
    (first : q.w.split = none → q.x = false) :
    ∃ t w, exec .join s = .next t ∧ Steered .join q s t w ∧ stands (w.path q.x) = stands p ∧ (w.path q.x).atJoin = p.atJoin ∧
      calm (w.path (!q.x)) = calm (q.w.path (!q.x)) ∧ w.split = q.w.split ∧ w.exited = q.w.exited := by
  have own : (if (q.w.setPath q.x p).split.isNone then false else q.x) = q.x := by
    rw [Warp.setPath_split]
    cases split : q.w.split with
    | none => rw [first split]; rfl
    | some z => rfl
  obtain ⟨t, answer, steered⟩ := join_puts issues joins (Warp.resteered_setPath _ _ _) (by rwa [own, Warp.setPath_path])
  obtain ⟨place, -, waits⟩ := Iss.leaving_stands q .join ((q.w.setPath q.x p).progress (some q.x) s.clk.cycle) q.x
  rw [Warp.progress_own, Warp.setPath_path] at place waits
  refine ⟨t, _, answer, steered, place, waits, ?_, ?_, ?_⟩
  · rw [Iss.leaving_other, Warp.progress_other, Warp.setPath_other]
    rfl
  · exact (Iss.leaving_split _ _ _).trans (Warp.setPath_split _ _ _)
  · exact (Iss.leaving_exited _ _ _).trans (Warp.setPath_exited _ _ _)
end

section
variable {w : Warp} {x : Bool} {t pc : DWord} {m : Mask} {l : List JEntry}

theorem Warp.join_deferred (above : (w.path x).above = ⟨t, some pc, m⟩ :: l) (here : (w.path x).pc = t) : w.join x =
    .ok (w.setPath x { w.path x with stack := (w.path x).stack.tail, mask := m, pc := pc, packed := false }) := by
  unfold Warp.join
  simp only [above, here, ne_eq, not_true, if_false]

theorem Warp.join_entry (above : (w.path x).above = ⟨t, none, m⟩ :: l) (here : (w.path x).pc = t) : w.join x =
    .ok (w.setPath x { w.path x with
      stack := (w.path x).stack.tail, mask := m &&& ~~~w.exited, pc := t + 4#64, packed := false }) := by
  unfold Warp.join
  simp only [above, here, ne_eq, not_true, if_false]

theorem Warp.join_waits (above : (w.path x).above = []) (split : w.split = some ((w.path x).pc, m))
    (live : (w.path (!x)).live = true) (runs : (w.path (!x)).atJoin = false) : w.join x =
    .ok (w.setPath x { w.path x with atJoin := true, stall := 5, packed := false }) := by
  unfold Warp.join
  simp only [above, split, ne_eq, not_true, if_false, live, runs]
  rfl

theorem Warp.join_merges (above : (w.path x).above = []) (split : w.split = some ((w.path x).pc, m))
    (ends : (w.path (!x)).live = false ∨ (w.path (!x)).atJoin = true) : w.join x = .ok (w.merge (w.path x).pc m) := by
  have waits : ((w.path (!x)).live && !(w.path (!x)).atJoin) = false := by rcases ends with h | h <;> simp [h]
  unfold Warp.join
  simp only [above, split, ne_eq, not_true, if_false, waits]
  rfl
end

section
variable {s : State} {q : Iss} {t pc : DWord} {m : Mask} {l : List JEntry} (issues : Issues .join s q)
include issues

theorem join_steers {p : Path} (joins : q.w.join q.x = .ok (q.w.setPath q.x p)) (active : p.mask ≠ 0#1024)
    (first : q.w.split = none → q.x = false) (waits : p.atJoin = q.p.atJoin) : Steers .join s q (stands p) := by
  obtain ⟨t, w, answer, steered, place, join, rest⟩ := join_moves issues joins active first
  exact ⟨t, w, answer, steered, place, join.trans waits, rest⟩

theorem join_waits (above : q.p.above = []) (split : q.w.split = some (q.p.pc, m)) (active : q.p.mask ≠ 0#1024)
    (live : (q.w.path (!q.x)).live = true) (runs : (q.w.path (!q.x)).atJoin = false) :
    ∃ z w, exec .join s = .next z ∧ Steered .join q s z w ∧ (w.path q.x).atJoin = true ∧ w.split = q.w.split ∧
      stands (w.path q.x) = (q.p.pc, q.p.mask, q.p.stack, q.p.base) := by
  obtain ⟨z, w, answer, steered, place, join, -, kept, -⟩ := join_moves issues (Warp.join_waits above split live runs) active
    (by rw [split]; exact nofun)
  exact ⟨z, w, answer, steered, join, kept, place⟩

theorem join_merges (above : q.p.above = []) (split : q.w.split = some (q.p.pc, m)) (active : m &&& ~~~q.w.exited ≠ 0#1024)
    (ends : (q.w.path (!q.x)).live = false ∨ (q.w.path (!q.x)).atJoin = true) :
    ∃ z w, exec .join s = .next z ∧ Steered .join q s z w ∧ w.split = none ∧ w.p1.live = false ∧ w.p0.live = true ∧
      stands w.p0 = (q.p.pc + 4#64, m &&& ~~~q.w.exited, q.w.p0.below, 0) := by
  obtain ⟨z, answer, steered⟩ := join_puts issues (Warp.join_merges above split ends) (by rfl) active
  obtain ⟨place0, live0, -⟩ := Iss.leaving_stands q .join ((q.w.merge q.p.pc m).progress (some q.x) s.clk.cycle) false
  obtain ⟨-, live1, -⟩ := Iss.leaving_stands q .join ((q.w.merge q.p.pc m).progress (some q.x) s.clk.cycle) true
  exact ⟨z, _, answer, steered, Iss.leaving_split _ _ _, live1, live0, place0⟩
end

/-! ## BRKJ -/

/-- Popping to the nth JOIN entry passes the entries before it, of which n - 1 are JOIN entries. -/
theorem popJoins_append {n : Nat} {pre rest : List JEntry} {t : DWord} {m : Mask}
    (count : (pre.filter fun e => e.defer.isNone).length + 1 = n) : popJoins n (pre ++ ⟨t, none, m⟩ :: rest) = some (rest, m) := by
  induction pre generalizing n with
  | nil =>
    subst count
    rfl
  | cons e pre ih =>
    cases defers : e.defer with
    | some pc =>
      rw [List.filter_cons_of_neg (by simp [defers])] at count
      subst count
      rw [List.cons_append, popJoins, defers]
      exact ih rfl
    | none =>
      rw [List.filter_cons_of_pos (by simp [defers]), List.length_cons] at count
      subst count
      rw [List.cons_append, popJoins, defers]
      exact (if_neg (Nat.succ_ne_zero _)).trans (ih rfl)

section
variable {w : Warp} {x : Bool} {n : Nat} {v : DWord} {rest : List JEntry} {m : Mask}

/-- BRKJ goes to a target before the entry, or the split join, that is then on top (R152). -/
theorem Warp.breakJoin_of_pops (pops : popJoins n (w.path x).above = some (rest, m))
    (entry : ∀ e l, rest = e :: l → v.toNat < e.t.toNat)
    (join : ∀ z, rest = [] → w.split = some z → v.toNat < z.1.toNat) : w.breakJoin x n v = .ok (w.setPath x { w.path x with
      stack := rest ++ (w.path x).below, mask := m &&& ~~~w.exited, pc := v, packed := false }) := by
  unfold Warp.breakJoin
  simp only [pops]
  cases rest with
  | cons e l => exact if_pos (by simpa [BitVec.ult] using entry e l rfl)
  | nil =>
    cases split : w.split with
    | none => rfl
    | some z => exact if_pos (by simpa [BitVec.ult] using join z rfl split)
end

theorem brkj_breaks {a : RField} {n : BitVec 4} {x : Bool} {s : State} {q : Iss} {v t : DWord} {pre rest : List JEntry} {m : Mask}
    (issues : Issues (.brkj a n x) s q) (lanes : q.lanes ≠ []) (aligned : v.toNat % 4 = 0)
    (uniform : ∀ l ∈ q.lanes, q.w.read64 (Use.srcC a x false) l = v) (above : q.p.above = pre ++ ⟨t, none, m⟩ :: rest)
    (count : (pre.filter fun e => e.defer.isNone).length + 1 = n.toNat) (active : m &&& ~~~q.w.exited ≠ 0#1024)
    (entry : ∀ e l, rest = e :: l → v.toNat < e.t.toNat) (join : ∀ z, rest = [] → q.w.split = some z → v.toNat < z.1.toNat) :
    Steers (.brkj a n x) s q (v, m &&& ~~~q.w.exited, rest ++ q.p.below, q.p.base) := by
  have meaning : exec (.brkj a n x) s = execBrkj a n x s := rfl
  have popped : popJoins n.toNat q.p.above = some (rest, m) := by rw [above, popJoins_append count]
  have target := Iss.target_eq lanes aligned uniform
  have breaks := Warp.breakJoin_of_pops popped entry join
  refine steers_of_setPath (p := { q.p with
    stack := rest ++ q.p.below, mask := m &&& ~~~q.w.exited, pc := v, packed := false }) meaning issues ?_ rfl
  dsimp only
  rw [target]
  show (match q.w.breakJoin q.x n.toNat v with | .error c => _ | .ok w => _) = _
  rw [breaks]
  exact congrArg Except.ok (Hw.afterMask_of_active _ _ (by rw [Warp.setPath_path]; exact active))

/-- Settles O29. Each of the four puts its warp back with the paths that `Warp.diverge`, `Warp.join` and `Warp.breakJoin` give, and
a path that keeps active lanes loses nothing more. -/
theorem divergenceAndJoins : Obligations.DivergenceAndJoins := by
  unfold Obligations.DivergenceAndJoins
  refine ⟨fun k s q => jpt_pushes k s q, fun n p k s q issues => ?_, ?_, ?_, ?_, ?_, ?_⟩
  · intro tk nt t m l above takes rest
    exact ⟨brp_splits issues above takes rest, brp_defers issues above takes rest⟩
  · exact fun s q t m l issues above here active first => join_steers issues (Warp.join_entry above here) active first rfl
  · exact fun s q t pc m l issues above here active first => join_steers issues (Warp.join_deferred above here) active first rfl
  · exact fun s q m issues above split active live runs => join_waits issues above split active live runs
  · exact fun s q m issues above split active ends => join_merges issues above split active ends
  · exact fun a n x s q v pre t m rest issues lanes aligned uniform above count active entry join =>
      brkj_breaks issues lanes aligned uniform above count active entry join

end Sys2Proof.Machine
end

section
/-! # Exits

EXIT takes its lanes from the path; what is left of the path, or of the warp, goes on or ends (R151, R340). -/
namespace Sys2Proof.Machine

open Sys2Proof.Terms

/-! ## The end of a warp -/

/-- The end of the last warp of a block changes no warp. -/
theorem Hw.afterEnd_rest (h : Hw) (bk : Nat) : (h.afterEnd bk).warps = h.warps ∧ (h.afterEnd bk).wq = h.wq := by
  unfold Hw.afterEnd
  split
  · split <;> exact ⟨rfl, rfl⟩
  · exact ⟨rfl, rfl⟩

theorem Hw.clearStop_rest (h : Hw) (wk : Nat) : (h.clearStop wk).warps = h.warps ∧ (h.clearStop wk).wq = h.wq := by
  unfold Hw.clearStop
  dsimp only
  split <;> exact ⟨rfl, rfl⟩

/-- The end of a warp writes no byte and changes of the warps that warp alone. -/
theorem Hw.endWarp_rest (h : Hw) (wk : Nat) : (h.endWarp wk).warps = Tab.modify h.warps wk Warp.finish ∧ (h.endWarp wk).wq = h.wq := by
  obtain ⟨warps, wq⟩ := Hw.clearStop_rest (h.onWarp wk Warp.finish) wk
  unfold Hw.endWarp Hw.moved
  obtain ⟨warps', wq'⟩ := Hw.afterEnd_rest (((h.onWarp wk Warp.finish).clearStop wk).onPart (h.partOf (wkFn wk)) fun p =>
    { p with heldTraps := p.heldTraps.filter (· != wk) }) (wkBlock wk)
  exact ⟨warps'.trans warps, wq'.trans wq⟩

/-! ## A path without its lanes -/

/-- The warp whose path x has exited: its lanes have left the path, with what they held (R123, R360). -/
def Warp.exiting (w : Warp) (x : Bool) : Warp := { w with
  exited := w.exited ||| (w.path x).mask
  pend := Tab.keep (fun l _ => !(w.path x).mask.getLsbD l) w.pend
  sync := Tab.keep (fun l _ => !(w.path x).mask.getLsbD l) w.sync }.setPath x { w.path x with mask := 0#1024, packed := false }

section
variable (w : Warp) (x : Bool)

theorem Warp.exiting_path : (w.exiting x).path x = { w.path x with mask := 0#1024, packed := false } := Warp.setPath_path _ _ _
theorem Warp.exiting_other : (w.exiting x).path (!x) = w.path (!x) := by cases x <;> rfl
theorem Warp.exiting_split : (w.exiting x).split = w.split := by cases x <;> rfl
theorem Warp.exiting_exited : (w.exiting x).exited = w.exited ||| (w.path x).mask := by cases x <;> rfl
theorem Warp.exiting_above : ((w.exiting x).path x).above = (w.path x).above := by rw [Warp.exiting_path]; rfl
theorem Warp.resteered_exiting : w.resteered (w.exiting x) := by cases x <;> rfl
end

section
variable {w : Warp} {x : Bool} (none : (w.path x).mask = 0#1024)
include none

/-- Above its base it goes on at the entry's address (R151). -/
theorem Warp.emptied_entry {e : JEntry} {l : List JEntry} (above : (w.path x).above = e :: l) :
    w.emptied x = (w.setPath x { w.path x with pc := e.t, packed := false }, false) := by
  unfold Warp.emptied
  simp only [none, above, ne_eq, not_true, if_false]

theorem Warp.emptied_last (above : (w.path x).above = []) (one : w.split = .none) : w.emptied x = (w, true) := by
  unfold Warp.emptied
  simp only [none, above, one, ne_eq, not_true, if_false]

theorem Warp.emptied_alone {z : DWord × Mask} (above : (w.path x).above = []) (split : w.split = some z)
    (live : (w.path (!x)).live = true) (runs : (w.path (!x)).atJoin = false) :
    w.emptied x = (w.setPath x (w.path x).ended, false) := by
  have goes : ((w.path (!x)).live && !(w.path (!x)).atJoin) = true := by rw [live, runs]; rfl
  unfold Warp.emptied
  simp only [none, above, split, Warp.setPath_other, goes, ne_eq, not_true, if_false, if_true]

theorem Warp.emptied_merges {j : DWord} {m : Mask} (above : (w.path x).above = []) (split : w.split = some (j, m))
    (ends : (w.path (!x)).live = false ∨ (w.path (!x)).atJoin = true) (active : m &&& ~~~w.exited ≠ 0#1024) :
    w.emptied x = ((w.setPath x (w.path x).ended).merge j m, false) := by
  have waits : ((w.path (!x)).live && !(w.path (!x)).atJoin) = false := by rcases ends with h | h <;> simp [h]
  have goes : ((w.setPath x (w.path x).ended).merge j m).p0.mask ≠ 0#1024 := by
    show m &&& ~~~(w.setPath x (w.path x).ended).exited ≠ _
    rwa [Warp.setPath_exited]
  unfold Warp.emptied
  simp only [none, above, split, Warp.setPath_other, waits, goes, ne_eq, not_true, if_false]
  rfl
end

/-! ## EXIT -/

/-- EXIT in user mode, no failure held, takes the lanes from its path and puts the warp back. -/
theorem execExit_empties {s : State} {q : Iss} (user : q.w.mode = .user) (unfailed : q.w.failure = none) : ∃ f,
    exec .exit s = issueCtl .exit s f ∧ f ⟨s.clk, s.mem⟩ s.hw q = .ok (s.hw.afterMask q.wk q.x (q.w.exiting q.x)) := by
  have meaning : exec .exit s = execExit s := rfl
  refine ⟨_, meaning, ?_⟩
  have mode : ¬ q.w.mode = .handler := by rw [user]; exact nofun
  dsimp only
  rw [if_neg mode, unfailed]
  rfl

section
variable {s : State} {q : Iss} (issues : Issues .exit s q) (user : q.w.mode = .user) (unfailed : q.w.failure = none)
include issues user unfailed

/-- The warp goes on as `v`. -/
theorem exit_puts {v : Warp} (empties : (q.w.exiting q.x).emptied q.x = (v, false)) (same : q.w.resteered v) :
    ∃ t, exec .exit s = .next t ∧ Steered .exit q s t (q.leaving .exit v) := by
  obtain ⟨f, meaning, put⟩ := execExit_empties (s := s) user unfailed
  refine steered_of_setWarp meaning issues same (put.trans ?_)
  unfold Hw.afterMask
  rw [empties]
  rfl

theorem exit_unwinds {e : JEntry} {l : List JEntry} (above : q.p.above = e :: l) :
    ∃ t w, exec .exit s = .next t ∧ Steered .exit q s t w ∧ w.exited = q.w.exited ||| q.p.mask ∧
      stands (w.path q.x) = (e.t, 0#1024, q.p.stack, q.p.base) ∧ w.split = q.w.split ∧
      w.pend = Tab.keep (fun l _ => !q.p.mask.getLsbD l) q.w.pend := by
  have empties := Warp.emptied_entry (by rw [Warp.exiting_path]) ((Warp.exiting_above q.w q.x).trans above)
  obtain ⟨t, answer, steered⟩ := exit_puts issues user unfailed empties (by cases q.x <;> rfl)
  refine ⟨t, _, answer, steered, (Iss.leaving_exited _ _ _).trans ?_, (Iss.leaving_stands _ _ _ _).1.trans ?_,
    (Iss.leaving_split _ _ _).trans ?_, (Iss.leaving_pend _ _ _).trans ?_⟩
  · exact (Warp.setPath_exited _ _ _).trans (Warp.exiting_exited _ _)
  · rw [Warp.setPath_path, Warp.exiting_path]
    rfl
  · exact (Warp.setPath_split _ _ _).trans (Warp.exiting_split _ _)
  · unfold Iss.p
    cases q.x <;> rfl

theorem exit_ends (above : q.p.above = []) (one : q.w.split = none) : ∃ t w, exec .exit s = .next t ∧
    t.hw.warp? q.wk = some w ∧ w.done = true ∧ w.p0.live = false ∧ w.p1.live = false ∧ w.pend = [] ∧ RegsKept q w ∧
    w.preds = q.w.preds ∧ t.mem = s.mem ∧ ∀ k, k ≠ q.wk → t.hw.warp? k = s.hw.warp? k := by
  obtain ⟨f, meaning, put⟩ := execExit_empties (s := s) user unfailed
  have empties := Warp.emptied_last (by rw [Warp.exiting_path]) ((Warp.exiting_above q.w q.x).trans above)
    ((Warp.exiting_split q.w q.x).trans one)
  have ends : s.hw.afterMask q.wk q.x (q.w.exiting q.x) = (s.hw.setWarp q.wk (q.w.exiting q.x)).endWarp q.wk := by
    unfold Hw.afterMask
    rw [empties]
    rfl
  obtain ⟨warps, wq⟩ := Hw.endWarp_rest (s.hw.setWarp q.wk (q.w.exiting q.x)) q.wk
  obtain ⟨inv, hq, passes, -, -⟩ := issues
  obtain ⟨k, retired, answer⟩ := issueCtl_next hq passes (put.trans (congrArg _ ends)) (Or.inl rfl)
  have unwritten : k.wq = [] := by rw [retired.rest]; exact wq.trans inv.2
  have warp : k.warp? q.wk = some (q.leaving .exit (q.w.exiting q.x).finish) := by
    rw [retired.warp, Hw.warp?, warps, Tab.find?_modify_same]
    show Option.map _ (Option.map _ ((s.hw.setWarp q.wk (q.w.exiting q.x)).warp? q.wk)) = _
    rw [Hw.warp?_setWarp_same]
    rfl
  obtain ⟨-, live0, -⟩ := Iss.leaving_stands q .exit (q.w.exiting q.x).finish false
  obtain ⟨-, live1, -⟩ := Iss.leaving_stands q .exit (q.w.exiting q.x).finish true
  refine ⟨_, _, meaning.trans answer, warp, ?_, live0, live1, Iss.leaving_pend _ _ _, ⟨?_, ?_, ?_⟩, ?_, ?_, fun n hn => ?_⟩
  · rw [Iss.leaving_eq]; rfl
  · rw [Iss.leaving_eq, Warp.resteered_exiting]; rfl
  · rw [Iss.leaving_eq, Warp.resteered_exiting]; rfl
  · rw [Iss.leaving_eq, Warp.resteered_exiting]; rfl
  · rw [Iss.leaving_eq, Warp.resteered_exiting]; rfl
  · show flush k.wq s.mem = _
    rw [unwritten]
    rfl
  · refine (retired.others n hn).trans ?_
    rw [Hw.warp?, warps, Tab.find?_modify_other _ _ hn]
    exact Hw.warp?_setWarp_other _ _ hn

theorem exit_alone (above : q.p.above = []) (two : q.w.split.isSome = true) (live : (q.w.path (!q.x)).live = true)
    (runs : (q.w.path (!q.x)).atJoin = false) : ∃ t w, exec .exit s = .next t ∧ Steered .exit q s t w ∧
      w.exited = q.w.exited ||| q.p.mask ∧ (w.path q.x).live = false ∧ w.split = q.w.split ∧
      calm (w.path (!q.x)) = calm (q.w.path (!q.x)) := by
  obtain ⟨z, split⟩ := Option.isSome_iff_exists.mp two
  have empties := Warp.emptied_alone (by rw [Warp.exiting_path]) ((Warp.exiting_above q.w q.x).trans above)
    ((Warp.exiting_split q.w q.x).trans split) (by rwa [Warp.exiting_other]) (by rwa [Warp.exiting_other])
  obtain ⟨t, answer, steered⟩ := exit_puts issues user unfailed empties (by cases q.x <;> rfl)
  refine ⟨t, _, answer, steered, (Iss.leaving_exited _ _ _).trans ?_, (Iss.leaving_stands _ _ _ _).2.1.trans ?_,
    (Iss.leaving_split _ _ _).trans ?_, ?_⟩
  · exact (Warp.setPath_exited _ _ _).trans (Warp.exiting_exited _ _)
  · rw [Warp.setPath_path]
    rfl
  · exact (Warp.setPath_split _ _ _).trans (Warp.exiting_split _ _)
  · rw [Iss.leaving_other, Warp.setPath_other, Warp.exiting_other]

theorem exit_merges {j : DWord} {m : Mask} (above : q.p.above = []) (split : q.w.split = some (j, m))
    (ends : (q.w.path (!q.x)).live = false ∨ (q.w.path (!q.x)).atJoin = true)
    (active : m &&& ~~~(q.w.exited ||| q.p.mask) ≠ 0#1024) : ∃ t w, exec .exit s = .next t ∧ Steered .exit q s t w ∧
      w.exited = q.w.exited ||| q.p.mask ∧ w.split = none ∧ w.p1.live = false ∧ w.p0.live = true ∧ w.p0.pc = j + 4#64 ∧
      w.p0.mask = m &&& ~~~(q.w.exited ||| q.p.mask) ∧ w.p0.base = 0 := by
  have exited : (q.w.exiting q.x).exited = q.w.exited ||| q.p.mask := Warp.exiting_exited _ _
  have empties := Warp.emptied_merges (by rw [Warp.exiting_path]) ((Warp.exiting_above q.w q.x).trans above)
    ((Warp.exiting_split q.w q.x).trans split) (by rwa [Warp.exiting_other]) (by rwa [exited])
  obtain ⟨t, answer, steered⟩ := exit_puts issues user unfailed empties (by cases q.x <;> rfl)
  obtain ⟨place, live0, -⟩ := Iss.leaving_stands q .exit
    (((q.w.exiting q.x).setPath q.x ((q.w.exiting q.x).path q.x).ended).merge j m) false
  obtain ⟨-, live1, -⟩ := Iss.leaving_stands q .exit
    (((q.w.exiting q.x).setPath q.x ((q.w.exiting q.x).path q.x).ended).merge j m) true
  have lanes : (((q.w.exiting q.x).setPath q.x ((q.w.exiting q.x).path q.x).ended).merge j m).exited = q.w.exited ||| q.p.mask :=
    (Warp.setPath_exited _ _ _).trans exited
  simp only [stands, Prod.mk.injEq] at place
  obtain ⟨pc, mask, -, base⟩ := place
  refine ⟨t, _, answer, steered, (Iss.leaving_exited _ _ _).trans lanes, Iss.leaving_split _ _ _, live1, live0, pc,
    mask.trans (congrArg (fun l => m &&& ~~~l) lanes), base⟩
end

/-- Settles O30, by the four outcomes for a path that has lost its lanes (`Warp.emptied`). -/
theorem exits : Obligations.Exits := by
  unfold Obligations.Exits
  intro s q issues user unfailed
  exact ⟨fun e l above => exit_unwinds issues user unfailed above, exit_ends issues user unfailed,
    exit_alone issues user unfailed, fun j m => exit_merges issues user unfailed⟩

end Sys2Proof.Machine
end

section
/-! # System registers

SRD reads the registers of Table 16.7, SWR and WIN write those of their own warp (R159, R160, R416, R417). -/
namespace Sys2Proof.Machine

open Sys2Proof.Terms

/-! ## No queue register -/

theorem Use.not_inQueue {xi : Nat} {u : Use} (legal : (u.of .noQ).legal xi = true) : ¬ inQueue u := by
  simp only [Use.legal, Use.of, RKind.allows, Bool.and_eq_true, Bool.or_eq_true, decide_eq_true_eq] at legal
  unfold inQueue
  omega

/-- An instruction whose operands are no queue registers pops no token. -/
theorem Warp.poppedRels_of_not_inQueue {w : Warp} {i : Instr} (h : ∀ u ∈ Instr.uses i, ¬ inQueue u) : w.poppedRels i = [] := by
  have others (v : Nat) (hv : 120 ≤ v ∧ v < 126) : ((Instr.uses i).any fun u => u.rd && u.r.toNat == v) = false := by
    refine List.any_eq_false.mpr fun u hu read => h u hu ?_
    simp only [Bool.and_eq_true, beq_iff_eq] at read
    unfold inQueue
    omega
  simp only [Warp.poppedRels, List.filterMap_cons, List.filterMap_nil, others 121 (by decide), others 123 (by decide),
    others 125 (by decide), Bool.false_eq_true, ↓reduceIte]

/-! ## SRD -/

/-- The registers of Table 16.7 that the state and the warp hold, by their numbers. -/
def Iss.sysTable (s : State) (q : Iss) : List (Nat × DWord) :=
  [(0x00, BitVec.ofNat 64 (localTick ⟨s.clk, s.mem⟩ q.core)), (0x01, q.w.rmode.setWidth 64), (0x02, q.w.nbv.setWidth 64),
    (0x04, BitVec.ofNat 64 (q.b.c % 2 ^ 24)), (0x05, BitVec.ofNat 64 (q.slot + 2 ^ 12 * q.widx + 2 ^ 17 * (q.b.gen % 8))),
    (0x07, BitVec.ofNat 64 (q.b.lin % max 1 q.b.shape.gx + 2 ^ 16 * (q.b.lin / max 1 q.b.shape.gx % max 1 q.b.shape.gy) +
      2 ^ 32 * (q.b.lin / (max 1 q.b.shape.gx * max 1 q.b.shape.gy)))),
    (0x08, BitVec.ofNat 64 (q.b.lin / max 1 q.b.shape.bpc % 2 ^ 48 + 2 ^ 48 * (q.b.lin % max 1 q.b.shape.bpc))),
    (0x0A, BitVec.ofNat 64 (q.b.shape.gx + 2 ^ 16 * q.b.shape.gy + 2 ^ 32 * q.b.shape.gz + 2 ^ 48 * q.b.shape.bpc)),
    (0x0C, q.w.xi.setWidth 64), (0x0D, BitVec.ofNat 64 (q.core % 8 * 2 ^ 20 + q.b.spBase)), (0x0E, q.w.chint.setWidth 64),
    (0x10, q.w.ehdr.setWidth 64), (0x20, q.w.trapc), (0x21, q.w.trappc), (0x22, q.w.trapa), (0x23, q.w.trapo), (0x24, q.w.raceopc),
    (0x25, (s.hw.part (s.hw.partOf q.fn)).phvec), (0x30, q.w.bpctl.setWidth 64), (0x35, q.w.wpctl.setWidth 64)] ++
    (List.range 4).map (fun j => (0x31 + j, Tab.getD q.w.bpaddr j 0#64)) ++
    (List.range 4).map (fun j => (0x36 + j, Tab.getD q.w.wpaddr j 0#64))

/-- The party: slot, warp and the low bits of the slot's generation (R203). -/
theorem partyOf_setWidth {slot widx : Nat} (gen : Nat) (hs : slot < 2 ^ 12) (hw : widx < 2 ^ 5) :
    (partyOf slot widx gen).setWidth 64 = BitVec.ofNat 64 (slot + 2 ^ 12 * widx + 2 ^ 17 * (gen % 8)) := by
  refine BitVec.eq_of_toNat_eq ?_
  rw [partyOf, BitVec.toNat_setWidth, BitVec.toNat_ofNat, BitVec.toNat_ofNat]
  omega

theorem Iss.slot_lt (q : Iss) : q.slot < 2 ^ 12 := Nat.mod_lt _ (by decide)
theorem Iss.widx_lt (q : Iss) : q.widx < 2 ^ 5 := Nat.mod_lt _ (by decide)

theorem Iss.sysRead_of_mem {s : State} {q : Iss} : ∀ e ∈ q.sysTable s, q.sysRead ⟨s.clk, s.mem⟩ s.hw e.1 = e.2 := by
  unfold Iss.sysTable
  simp only [List.forall_mem_append, List.forall_mem_cons, List.forall_mem_map]
  refine ⟨⟨⟨rfl, rfl, rfl, rfl, partyOf_setWidth _ q.slot_lt q.widx_lt, congrArg (BitVec.ofNat 64) (by ring),
    congrArg (BitVec.ofNat 64) (by ring), congrArg (BitVec.ofNat 64) (by ring), rfl, rfl, rfl, rfl, rfl, rfl, rfl, rfl, rfl, rfl, rfl,
    rfl, nofun⟩, fun j hj => ?_⟩, fun j hj => ?_⟩
  all_goals
    have small := List.mem_range.mp hj
    interval_cases j <;> rfl

theorem sysRegs_cases (n : BitVec 7) : sysRegs n = 1 ∨ sysRegs n = 2 := by
  unfold sysRegs
  split
  · exact .inr rfl
  · exact .inl rfl

theorem srd_reads {d : RField} {n : BitVec 7} {s : State} {q : Iss} {v : DWord} (issues : Issues (.srd d n) s q)
    (listed : (n.toNat, v) ∈ q.sysTable s) :
    let val (_ : Nat) : List Word := (halves v).take (sysRegs n)
    ∃ t w, exec (.srd d n) s = .next t ∧ Framed (.srd d n) q s t w ∧ GoesTo q w (after q) ∧ w.preds = q.w.preds ∧ w.empty = q.w.empty ∧
      QueuesPopped (.srd d n) q w ∧ Holds q w ((Use.dst d).wide (sysRegs n)) val := by
  intro val
  have legal := legal_of_issues issues
  simp only [Instr.legal, Instr.uses, List.all_cons, List.all_nil, Bool.and_eq_true] at legal
  have noQueue : ¬ inQueue ((Use.dst d).wide (sysRegs n)) := Use.not_inQueue legal.2.1
  have lengths : ∀ m, (val m).length = ((Use.dst d).wide (sysRegs n)).n := fun m => by
    show ((halves v).take (sysRegs n)).length = sysRegs n
    rcases sysRegs_cases n with one | one <;> rw [one] <;> rfl
  have meaning : ∃ f, execSrd d n s = issue (.srd d n) s f ∧ f ⟨s.clk, s.mem⟩ s.hw q = q.put ⟨s.clk, s.mem⟩
      ((Use.dst d).wide (sysRegs n)) (fun _ => (halves (q.sysRead ⟨s.clk, s.mem⟩ s.hw n.toNat)).take (sysRegs n)) s.hw :=
    ⟨_, rfl, rfl⟩
  obtain ⟨f, meaning, effect⟩ := meaning
  rw [Iss.sysRead_of_mem _ listed, Iss.put, dstPushes_none noQueue] at effect
  obtain ⟨t, w, answer, framed, queues, goes, vregs, uregs, preds, empty⟩ := issue_frame
    (g := fun w => w.writeDst ((Use.dst d).wide (sysRegs n)) q.lanes val) issues (by dsimp only; rw [Warp.writeDst_eq]) effect
  refine ⟨t, w, meaning.trans answer, framed, goes, ?_, ?_, queues, fun r l hl => ?_, fun r => ?_⟩
  · rw [preds, Warp.writeDst_eq]
  · rw [empty, Warp.writeDst_eq]
  · rw [Warp.getV_of_vregs vregs]
    exact Warp.getV_writeDst q.w _ q.lanes val (Iss.lanes_lt (iss_of_issues issues)) hl lengths
  · rw [Warp.getU_of_uregs uregs]
    exact Warp.getU_writeDst q.w _ q.lanes val r lengths

/-! ## SWR and WIN -/

/-- Warps that differ in the registers of Table 16.7 and the window bases alone. -/
def Warp.sameButSystem (w v : Warp) : Prop := v = { w with
  rmode := v.rmode, nbv := v.nbv, xi := v.xi, chint := v.chint, ehdr := v.ehdr, trapc := v.trapc, trappc := v.trappc
  trapa := v.trapa, trapo := v.trapo, raceopc := v.raceopc, bpctl := v.bpctl, bpaddr := v.bpaddr, wpctl := v.wpctl
  wpaddr := v.wpaddr, wbase := v.wbase, ubase := v.ubase }

/-- The warp `v` once the instruction that left it has gone on. -/
def Iss.onward (q : Iss) (i : Instr) (v : Warp) : Warp := q.leaving i (v.setPath q.x { q.p with pc := q.next })

theorem Iss.onward_eq (q : Iss) (i : Instr) (v : Warp) : q.onward i v = { v with
    p0 := (q.onward i v).p0, p1 := (q.onward i v).p1, q0 := (q.onward i v).q0, q2 := (q.onward i v).q2, q4 := (q.onward i v).q4 } := by
  rw [Iss.onward, Iss.leaving_eq]
  cases q.x <;> rfl

section
variable {i : Instr} {s : State} {q : Iss} {f : Env → Hw → Iss → Except Stop Hw} {h : Hw} {v : Warp}

/-- An instruction without queue registers that changes of warps only system registers of its own. -/
theorem issue_serves (meaning : exec i s = issue i s f) (issues : Issues i s q) (noQueue : ∀ u ∈ Instr.uses i, ¬ inQueue u)
    (effect : f ⟨s.clk, s.mem⟩ s.hw q = .ok h) (warp : h.warp? q.wk = some v) (system : q.w.sameButSystem v)
    (others : ∀ n, n ≠ q.wk → h.warp? n = s.hw.warp? n) (unwritten : h.wq = s.hw.wq) (scr : h.fcores = s.hw.fcores) :
    ∃ t, exec i s = .next t ∧ Serves i q s t (q.onward i v) ∧ Alone q s t ∧ t.hw.parts = h.parts ∧ t.hw.blocks = h.blocks ∧
      t.hw.agenda = h.agenda := by
  obtain ⟨inv, hq, passes, -, free⟩ := issues
  have popless := Warp.poppedRels_of_not_inQueue (w := q.w) noQueue
  obtain ⟨k, retired, answer⟩ := issue_next hq passes free effect (Or.inl (by rw [popless]; rfl))
  have own : v.path q.x = q.p := by
    rw [system]
    rfl
  have gone : k.warp? q.wk = some (q.onward i v) := by
    rw [retired.warp, Hw.goto, Hw.onPath, Hw.warp?_onWarp_same, warp]
    simp only [Option.map_some, own]
    rfl
  have flushed : k.wq = [] := by rw [retired.rest]; exact unwritten.trans inv.2
  refine ⟨s.after k, meaning.trans answer, {
    warp := gone
    clock := rfl
    path := ?_
    regs := ?_
    queues := fun e => ?_
    scr := fun g c => ?_ }, ⟨State.mem_after flushed, fun n hn => ?_⟩, ?_, ?_, ?_⟩
  · rw [Iss.onward, (Iss.leaving_stands _ _ _ _).1, Warp.setPath_path]
    rfl
  · rw [Iss.onward_eq, system]
    exact ⟨⟨rfl, rfl, rfl⟩, rfl, rfl⟩
  · have before : (v.setPath q.x { q.p with pc := q.next }).queue e = q.w.queue e := by
      rw [system]; cases q.x <;> cases e <;> rfl
    rw [Iss.onward, Iss.leaving_queue, before]
  · have tables : k.fcores = s.hw.fcores := by rw [retired.rest]; exact scr
    show (k.fcore g c).spad = _
    unfold Hw.fcore
    rw [tables]
  · refine (retired.others n hn).trans ?_
    rw [Hw.goto, Hw.onPath, Hw.warp?_onWarp_other _ _ hn]
    exact others n hn
  · show k.parts = _
    rw [retired.rest]
    rfl
  · obtain ⟨blocks, -, -⟩ := retired.quiet (by rw [popless]; rfl)
    exact blocks
  · show k.agenda = _
    rw [retired.rest]
    rfl
end

theorem win_rebases {w : BitVec 5} {u : BitVec 2} {s : State} {q : Iss} (issues : Issues (.win w u) s q)
    (vector : 8 * w.toNat < q.w.vallot) (uniform : 24 * u.toNat < 24 * q.w.uwin) :
    ∃ t v, exec (.win w u) s = .next t ∧ Serves (.win w u) q s t v ∧ Alone q s t ∧ v = { q.w with
      wbase := 8 * w.toNat, ubase := 24 * u.toNat, p0 := v.p0, p1 := v.p1 } := by
  have inside : ¬ (q.w.vallot ≤ 8 * w.toNat ∨ 24 * q.w.uwin ≤ 24 * u.toNat) := by omega
  have meaning : ∃ f, execWin w u s = issue (.win w u) s f ∧ f ⟨s.clk, s.mem⟩ s.hw q =
      .ok (s.hw.onWarp q.wk fun v => { v with wbase := 8 * w.toNat, ubase := 24 * u.toNat }) := ⟨_, rfl, if_neg inside⟩
  obtain ⟨f, meaning, effect⟩ := meaning
  obtain ⟨t, answer, serves, alone, -⟩ := issue_serves (show exec (.win w u) s = issue (.win w u) s f from meaning) issues (fun _ => nofun) effect
    (v := { q.w with wbase := 8 * w.toNat, ubase := 24 * u.toNat })
    (by rw [Hw.warp?_onWarp_same, Iss.of_warp (iss_of_issues issues)]; rfl) rfl (fun n hn => Hw.warp?_onWarp_other _ _ hn) rfl rfl
  refine ⟨t, _, answer, serves, alone, ?_⟩
  have tokens (v : Warp) : v.popTokens (.win w u) = v := rfl
  rw [Iss.onward, Iss.leaving, tokens, Warp.retired_eq]
  cases q.x <;> rfl

theorem and_ones (w : Word) {n : Nat} (small : n ≤ 32) : w &&& BitVec.ofNat 32 (2 ^ n - 1) = BitVec.ofNat 32 (w.toNat % 2 ^ n) := by
  have le : 2 ^ n ≤ 2 ^ 32 := Nat.pow_le_pow_right (by decide) small
  have lt := Nat.mod_lt w.toNat (Nat.two_pow_pos n)
  refine BitVec.eq_of_toNat_eq ((and_low w small).trans ?_)
  rw [BitVec.toNat_ofNat]
  exact (Nat.mod_eq_of_lt (Nat.lt_of_lt_of_le lt le)).symm

/-- An address cut to the words. -/
theorem and_words (v : DWord) : v &&& 0xFFFFFFFFFFFFFFFC#64 = BitVec.ofNat 64 (v.toNat / 4 * 4) := by
  have words : v &&& 0xFFFFFFFFFFFFFFFC#64 = v >>> 2 <<< 2 := by
    have mask : ∀ i < 64, (0xFFFFFFFFFFFFFFFC#64).getLsbD i = decide (2 ≤ i) := by decide
    refine BitVec.eq_of_getLsbD_eq fun i hi => ?_
    rw [BitVec.getLsbD_and, mask i hi, BitVec.getLsbD_shiftLeft, BitVec.getLsbD_ushiftRight]
    by_cases kept : 2 ≤ i
    · simp [kept, hi, Nat.not_lt.mpr kept, Nat.add_sub_cancel' kept]
    · simp [kept, Nat.lt_of_not_le kept]
  refine BitVec.eq_of_toNat_eq ?_
  rw [words, BitVec.toNat_shiftLeft, BitVec.toNat_ushiftRight, Nat.shiftLeft_eq, Nat.shiftRight_eq_div_pow, BitVec.toNat_ofNat]

theorem low_of_setWidth (x : Word) : (x.setWidth 64).extractLsb' 0 32 = x := by
  ext i hi
  simp [hi]
  omega

/-- SWR of register `n` with the operand `x`, or the pair `v`, changes the warp by `f` (Table 16.7). -/
def SystemWrite (n : BitVec 7) (x : Word) (v : DWord) (f : Warp → Warp) : Prop :=
  (n = 0x01#7 ∧ x.toNat % 8 < 5 ∧ f = fun w => { w with rmode := BitVec.ofNat 32 (x.toNat % 16) }) ∨
  (n = 0x02#7 ∧ x.toNat % 4 ≠ 0 ∧ f = fun w => { w with nbv := BitVec.ofNat 32 (x.toNat % 4) }) ∨
  (n = 0x0C#7 ∧ f = fun (w : Warp) => { w with xi := BitVec.ofNat 8 x.toNat }) ∨
  (n = 0x0E#7 ∧ f = fun w => { w with chint := BitVec.ofNat 32 (x.toNat % 16) }) ∨
  (n = 0x10#7 ∧ x.toNat / 2 ^ 9 % 8 < 5 ∧ f = fun w => { w with ehdr := BitVec.ofNat 32 (x.toNat % 2 ^ 12) }) ∨
  (n = 0x20#7 ∧ f = fun w => { w with trapc := v }) ∨ (n = 0x21#7 ∧ f = fun w => { w with trappc := v }) ∨
  (n = 0x22#7 ∧ f = fun w => { w with trapa := v }) ∨ (n = 0x23#7 ∧ f = fun w => { w with trapo := v }) ∨
  (n = 0x24#7 ∧ f = fun w => { w with raceopc := v }) ∨ (n = 0x30#7 ∧ f = fun w => { w with bpctl := BitVec.ofNat 32 (x.toNat % 16) }) ∨
  (n = 0x35#7 ∧ f = fun w => { w with wpctl := x }) ∨
  (∃ j, j < 4 ∧ n = 0x31#7 + BitVec.ofNat 7 j ∧ f = fun w => { w with bpaddr := Tab.store 0#64 w.bpaddr j (BitVec.ofNat 64 (v.toNat / 4 * 4)) }) ∨
  (∃ j, j < 4 ∧ n = 0x36#7 + BitVec.ofNat 7 j ∧ f = fun w => { w with wpaddr := Tab.store 0#64 w.wpaddr j v })

theorem SystemWrite.sysWrite {n : BitVec 7} {x : Word} {v : DWord} {f : Warp → Warp} (write : SystemWrite n x v f) (w : Warp) :
    w.sysWrite n.toNat (if sysRegs n = 2 then v else x.setWidth 64) = some (f w) ∧ w.sameButSystem (f w) ∧
      n ≠ 0x04#7 ∧ n ≠ 0x25#7 := by
  have low := low_of_setWidth x
  rcases write with ⟨rfl, fits, rfl⟩ | ⟨rfl, fits, rfl⟩ | ⟨rfl, rfl⟩ | ⟨rfl, rfl⟩ | ⟨rfl, fits, rfl⟩ | ⟨rfl, rfl⟩ | ⟨rfl, rfl⟩ |
    ⟨rfl, rfl⟩ | ⟨rfl, rfl⟩ | ⟨rfl, rfl⟩ | ⟨rfl, rfl⟩ | ⟨rfl, rfl⟩ | ⟨j, hj, rfl, rfl⟩ | ⟨j, hj, rfl, rfl⟩
  · refine ⟨?_, rfl, by decide, by decide⟩
    have fits : ¬ 5 ≤ (x.extractLsb' 0 3).toNat := by rw [BitVec.extractLsb'_toNat]; omega
    have ones : x &&& 0xF#32 = BitVec.ofNat 32 (x.toNat % 16) := and_ones (n := 4) x (by decide)
    show (if 5 ≤ (((x.setWidth 64).extractLsb' 0 32).extractLsb' 0 3).toNat then none else
      some { w with rmode := (x.setWidth 64).extractLsb' 0 32 &&& 0xF#32 }) = _
    rw [low, if_neg fits, ones]
  · refine ⟨?_, rfl, by decide, by decide⟩
    have fits : ¬ x.extractLsb' 0 2 = 0#2 := fun zero => fits (by simpa using congrArg BitVec.toNat zero)
    have ones : x &&& 3#32 = BitVec.ofNat 32 (x.toNat % 4) := and_ones (n := 2) x (by decide)
    show (if ((x.setWidth 64).extractLsb' 0 32).extractLsb' 0 2 = 0#2 then none else
      some { w with nbv := (x.setWidth 64).extractLsb' 0 32 &&& 3#32 }) = _
    rw [low, if_neg fits, ones]
  · refine ⟨?_, rfl, by decide, by decide⟩
    have byte : x.extractLsb' 0 8 = BitVec.ofNat 8 x.toNat := BitVec.eq_of_toNat_eq (by simp)
    rw [← byte]
    show some { w with xi := ((x.setWidth 64).extractLsb' 0 32).extractLsb' 0 8 } = _
    rw [low]
  · refine ⟨?_, rfl, by decide, by decide⟩
    have ones : x &&& 0xF#32 = BitVec.ofNat 32 (x.toNat % 16) := and_ones (n := 4) x (by decide)
    show some { w with chint := (x.setWidth 64).extractLsb' 0 32 &&& 0xF#32 } = _
    rw [low, ones]
  · refine ⟨?_, rfl, by decide, by decide⟩
    have fits : ¬ 5 ≤ (x.extractLsb' 9 3).toNat := by rw [BitVec.extractLsb'_toNat, Nat.shiftRight_eq_div_pow]; omega
    have ones : x &&& 0xFFF#32 = BitVec.ofNat 32 (x.toNat % 2 ^ 12) := and_ones (n := 12) x (by decide)
    show (if 5 ≤ (((x.setWidth 64).extractLsb' 0 32).extractLsb' 9 3).toNat then none else
      some { w with ehdr := (x.setWidth 64).extractLsb' 0 32 &&& 0xFFF#32 }) = _
    rw [low, if_neg fits, ones]
  · exact ⟨rfl, rfl, by decide, by decide⟩
  · exact ⟨rfl, rfl, by decide, by decide⟩
  · exact ⟨rfl, rfl, by decide, by decide⟩
  · exact ⟨rfl, rfl, by decide, by decide⟩
  · exact ⟨rfl, rfl, by decide, by decide⟩
  · refine ⟨?_, rfl, by decide, by decide⟩
    have ones : x &&& 0xF#32 = BitVec.ofNat 32 (x.toNat % 16) := and_ones (n := 4) x (by decide)
    show some { w with bpctl := (x.setWidth 64).extractLsb' 0 32 &&& 0xF#32 } = _
    rw [low, ones]
  · refine ⟨?_, rfl, by decide, by decide⟩
    show some { w with wpctl := (x.setWidth 64).extractLsb' 0 32 } = _
    rw [low]
  · rw [← and_words]
    interval_cases j <;> exact ⟨rfl, rfl, by decide, by decide⟩
  · interval_cases j <;> exact ⟨rfl, rfl, by decide, by decide⟩

section
variable {b : RField} {y : Bool} {s : State} {q : Iss}

/-- SWR names no queue register. -/
theorem swr_queueless {n : BitVec 7} (issues : Issues (.swr n b y) s q) : ∀ u ∈ Instr.uses (.swr n b y), ¬ inQueue u := by
  have legal := legal_of_issues issues
  simp only [Instr.legal, Instr.uses, List.all_cons, List.all_nil, Bool.and_eq_true] at legal
  intro u hu
  rw [List.mem_singleton.mp hu]
  exact Use.not_inQueue legal.2.1

/-- The value that SWR writes: a pair for a 64-bit register. -/
def Iss.swrValue (q : Iss) (n : BitVec 7) (b : RField) (y : Bool) : DWord :=
  if sysRegs n = 2 then q.w.read64 ((Use.srcC b y false).wide 2) q.lane0 else (q.rb b y q.lane0).setWidth 64

/-- What SWR makes of the package before it goes on. -/
def Iss.swrEffect (q : Iss) (h : Hw) (n : BitVec 7) (v : DWord) : Except Stop Hw :=
  if n = 0x04#7 then
    if v ≠ 0#64 then .error (.plain cILLEGAL)
    else .ok ((h.onBlock q.bk fun b => { b with rebasing := true }).plan .rebaseComplete
      { Occasion.none with unit := q.fn, id := q.slot })
  else if n = 0x25#7 then .ok (h.onPart (h.partOf q.fn) fun p => { p with phvec := v &&& 0xFFFFFFFFFFFFFFFC#64 })
  else match q.w.sysWrite n.toNat v with
    | none => .error (.plain cILLEGAL)
    | some w => .ok (h.setWarp q.wk w)

theorem execSwr_effect (n : BitVec 7) : ∃ f, exec (.swr n b y) s = issue (.swr n b y) s f ∧
    f ⟨s.clk, s.mem⟩ s.hw q = q.swrEffect s.hw n (q.swrValue n b y) := by
  have meaning : ∃ f, execSwr n b y s = issue (.swr n b y) s f ∧ f ⟨s.clk, s.mem⟩ s.hw q = q.swrEffect s.hw n
      (if sysRegs n = 2 then q.w.read64 ((Use.srcC b y false).wide (sysRegs n)) q.lane0
        else (q.w.read ((Use.srcC b y false).wide (sysRegs n)) q.lane0).setWidth 64) := ⟨_, rfl, rfl⟩
  obtain ⟨f, meaning, effect⟩ := meaning
  refine ⟨f, meaning, effect.trans (congrArg _ ?_)⟩
  unfold Iss.swrValue
  rcases sysRegs_cases n with one | two
  · rw [one]; rfl
  · rw [two]; rfl

theorem swr_writes {n : BitVec 7} {x : Word} {v : DWord} {f : Warp → Warp} (issues : Issues (.swr n b y) s q)
    (word : x = q.rb b y q.lane0) (pair : v = q.w.read64 ((Use.srcC b y false).wide 2) q.lane0) (write : SystemWrite n x v f) :
    ∃ t w, exec (.swr n b y) s = .next t ∧ Serves (.swr n b y) q s t w ∧ Alone q s t ∧ t.hw.parts = s.hw.parts ∧
      w = { f q.w with p0 := w.p0, p1 := w.p1, q0 := w.q0, q2 := w.q2, q4 := w.q4 } := by
  obtain ⟨g, meaning, effect⟩ := execSwr_effect (b := b) (y := y) (s := s) (q := q) n
  obtain ⟨writes, system, noRebase, noVector⟩ := write.sysWrite q.w
  have value : q.swrValue n b y = if sysRegs n = 2 then v else x.setWidth 64 := by rw [word, pair]; rfl
  rw [Iss.swrEffect, if_neg noRebase, if_neg noVector, value, writes] at effect
  obtain ⟨t, answer, serves, alone, parts, -⟩ := issue_serves meaning issues (swr_queueless issues) effect
    (Hw.warp?_setWarp_same _ _ _) system (fun n hn => Hw.warp?_setWarp_other _ _ hn) rfl rfl
  exact ⟨t, _, answer, serves, alone, parts, Iss.onward_eq _ _ _⟩

/-- HVEC is the partition's PHVEC (R412). -/
theorem swr_vector (issues : Issues (.swr 0x25#7 b y) s q) : ∃ t w, exec (.swr 0x25#7 b y) s = .next t ∧
    Serves (.swr 0x25#7 b y) q s t w ∧ Alone q s t ∧ t.hw.part (s.hw.partOf q.fn) = { s.hw.part (s.hw.partOf q.fn) with
      phvec := BitVec.ofNat 64 ((q.w.read64 ((Use.srcC b y false).wide 2) q.lane0).toNat / 4 * 4) } := by
  obtain ⟨g, meaning, effect⟩ := execSwr_effect (b := b) (y := y) (s := s) (q := q) 0x25#7
  obtain ⟨t, answer, serves, alone, parts, -⟩ := issue_serves meaning issues (swr_queueless issues) effect
    (Iss.of_warp (iss_of_issues issues)) rfl (fun _ _ => rfl) rfl rfl
  refine ⟨t, _, answer, serves, alone, ?_⟩
  rw [Hw.part, parts, ← and_words]
  exact Hw.part_onPart_same _ _ _

/-- INTV starts the rebase of the slot (R209). -/
theorem swr_interval (issues : Issues (.swr 0x04#7 b y) s q) (zero : q.rb b y q.lane0 = 0#32) :
    ∃ t w, exec (.swr 0x04#7 b y) s = .next t ∧
      Serves (.swr 0x04#7 b y) q s t w ∧ Alone q s t ∧ (t.hw.block? q.bk).map (·.rebasing) = some true ∧
      t.hw.agenda = s.hw.agenda ++ [.event .rebaseComplete { Occasion.none with unit := q.fn, id := q.slot }] := by
  obtain ⟨g, meaning, effect⟩ := execSwr_effect (b := b) (y := y) (s := s) (q := q) 0x04#7
  have value : q.swrValue 0x04#7 b y = 0#64 := by
    show (q.rb b y q.lane0).setWidth 64 = _
    rw [zero]
    rfl
  rw [value] at effect
  have there := Iss.of_warp (iss_of_issues issues)
  obtain ⟨t, answer, serves, alone, -, blocks, agenda⟩ := issue_serves meaning issues (swr_queueless issues) effect
    there rfl (fun _ _ => rfl) rfl rfl
  refine ⟨t, _, answer, serves, alone, ?_, agenda⟩
  rw [Hw.block?, blocks]
  show Option.map _ ((s.hw.onBlock q.bk _).block? q.bk) = _
  rw [Hw.block?_onBlock_same, Iss.of_block (iss_of_issues issues)]
  rfl
end

/-- Settles O40. SRD's table is the model's, entry by entry; SWR and WIN change one place of their own warp, their partition or
their block. -/
theorem systemRegisters : Obligations.SystemRegisters := by
  unfold Obligations.SystemRegisters
  exact ⟨fun d n s q v issues listed => srd_reads issues listed,
    fun n b y s q x v f issues word pair write => swr_writes issues word pair write,
    fun b y s q issues _ => swr_vector issues, fun b y s q issues _ zero => swr_interval issues zero,
    fun w u s q issues vector uniform => win_rebases issues vector uniform⟩

end Sys2Proof.Machine
end

section
/-! # A flag load over a dirty byte that is not valid

A `.flg` load reads at the home: `Iss.homeward` first writes back its core's line, if any byte of it is valid (R181, R190;
log 49). A dirty byte of a line without a valid one stays where it is. -/
namespace Sys2Proof.Machine

open Sys2Proof.Terms

/-- The `.flg` load of a word from address 0 into v16. -/
def flagLoad : Instr := .ld 16#7 126#7 5#3 4#3 0#6
def flagWord : Ask := ⟨.flg, false, false, 4, 0, false, false, none⟩

/-- `droppingIss` is about to issue it. In its core's L1 the first byte of the line is dirty with value 7 and not valid. Memory holds
0 there. -/
def flagOverInvalidDirty : State :=
  { State.reset with hw := { Hw.reset.solo with
      cur := some ⟨wkOf 1 0 0, false⟩
      warps := [(wkOf 1 0 0, droppingIss.w)]
      cores := [(0, { Core.reset with
        tlb := [⟨1, 0, 16, 0x60131#64⟩]
        l1 := [(l1Key 1 (lineOf 0x60000), { L1Line.empty with dirty := 1#128, bytes := [(0, 7#8)] })] })] } }

theorem flagOverInvalidDirty_issues : Issues flagLoad flagOverInvalidDirty droppingIss :=
  ⟨⟨rfl, rfl⟩, by decide +kernel, by decide +kernel, show Hw.wraps _ _ _ = false by decide +kernel, rfl⟩

theorem flagOverInvalidDirty_passes :
    Iss.check flagOverInvalidDirty.hw (env flagOverInvalidDirty) droppingIss flagWord (fun _ => 0#64) = .ok [droppingAcc] := by
  decide +kernel

theorem flagOverInvalidDirty_oneView : OneView flagOverInvalidDirty droppingIss [droppingAcc] :=
  ⟨show Iss.ctx flagOverInvalidDirty.hw droppingIss < 2 ^ 20 by decide, fun a ha b hb _ _ _ _ _ => by
    obtain rfl := List.mem_singleton.mp ha
    obtain rfl := List.mem_singleton.mp hb
    rfl⟩

/-- What flight `id` carries for lane `n` once an instruction has answered a next state. -/
def carriedBy (o : Host.Outcome State Fault Refusal) (id n : Nat) : Option (BitVec 128) :=
  match o with
  | .next t => (Tab.find? t.hw.flights id).map fun f => Tab.getD f.vals n 0#128
  | _ => none

/-- The flight carries memory's 0. -/
theorem flagLoad_carries_zero :
    carriedBy (exec flagLoad flagOverInvalidDirty) flagOverInvalidDirty.hw.nextId 0 = some 0#128 := by
  decide +kernel

/-- Refutes O16: of `flagOverInvalidDirty` its clause of flag loads claims that the flight carries the dirty 7, while the line is not
written back and the flight carries memory's 0. -/
theorem not_flagAndAcquireLoads : ¬ Obligations.FlagAndAcquireLoads := by
  unfold Obligations.FlagAndAcquireLoads
  rintro ⟨flags, -⟩
  obtain ⟨t, w, f, answer, -, launches, -, carried⟩ := flags 16#7 126#7 4#3 0#6 flagOverInvalidDirty droppingIss [droppingAcc]
    flagOverInvalidDirty_issues v16_not_queued ⟨show Iss.ctx _ _ < 2 ^ 20 by decide, flagOverInvalidDirty_passes⟩
  have seven : Tab.getD f.vals 0 0#128 = 7#128 :=
    (carried flagOverInvalidDirty_oneView droppingAcc (List.mem_singleton.mpr rfl)).trans (by decide +kernel)
  have zero := flagLoad_carries_zero
  rw [show exec flagLoad _ = .next t from answer, carriedBy, launches.at_, Option.map_some, seven] at zero
  exact absurd zero (by decide)

end Sys2Proof.Machine
end

section
/-! # Two names of one scratchpad

The state keeps the cores of a function under `fcKey f c`, which is 256·f + c. A core number of 256 or more therefore names a core of
a later function: core 256 of function 0 is core 0 of function 1. What a statement says of the scratchpad of every function and every
core number it says of both names, and a store by function 1 changes what is found under the name of function 0. -/
namespace Sys2Proof.Machine

open Sys2Proof.Terms

/-- A warp of function 1 whose w0 and w1 hold the address 0x40 of its block's scratchpad. -/
def scratchWarp : Warp :=
  { newWarp 1 false 64 4 0 0 8 0x10000#64 0 with p0 := freshPath 0x10000#64 1#1024, uregs := [(0, 0x40#32), (1, 0xFE000000#32)] }

/-- It is about to issue, with lane 0 active, on core 0. Every byte of scratchpad is 0. -/
def scratchIssues : State :=
  { State.reset with hw := { Hw.reset.solo with
      cur := some ⟨wkOf 1 0 0, false⟩
      warps := [(wkOf 1 0 0, scratchWarp)] } }
def scratchIss : Iss := { droppingIss with w := scratchWarp }

/-- Its access, and the accesses that a plain store, a store at the home and a reduction ask for. -/
def scratchAcc : Acc := ⟨0, 0xFE00000000000040#64, 4, .scr 0 0x40, 0#64⟩
def storedWord (cls : Cls) : Ask := ⟨cls, true, false, 4, 0, false, false, none⟩
def reducedWord : Ask := ⟨.red, true, true, 4, 0, false, false, none⟩

theorem fcore_alias (h : Hw) : h.fcore 0 256 = h.fcore 1 0 := rfl

/-- The byte of address 0x40 of the scratchpad of core 0 of function 1 once an instruction has answered a next state. -/
def scratchLeft (o : Host.Outcome State Fault Refusal) : Option Byte :=
  match o with
  | .next t => some (Tab.getD (t.hw.fcore 1 0).spad 0x40 0#8)
  | _ => none

theorem scratchLeft_of_alias {o : Host.Outcome State Fault Refusal} {t : State} {b : Byte} (next : o = .next t)
    (there : Tab.getD (t.hw.fcore 0 256).spad 0x40 0#8 = b) : scratchLeft o = some b := by
  rw [next, scratchLeft, ← fcore_alias, there]

theorem scratchIssues_zero : Tab.getD (scratchIssues.hw.fcore 0 256).spad 0x40 0#8 = 0#8 := by decide +kernel

theorem scratchIssues_issues {i : Instr} (ranks : scratchIss.rank2 scratchIssues.hw i = .ok ()) : Issues i scratchIssues scratchIss :=
  ⟨⟨rfl, rfl⟩, by decide +kernel, ranks, show Hw.wraps _ _ _ = false by decide +kernel, rfl⟩

theorem scratchIssues_oneView : OneView scratchIssues scratchIss [scratchAcc] :=
  ⟨show Iss.ctx _ _ < 2 ^ 20 by decide, fun a ha _ _ _ _ memory => by
    obtain rfl := List.mem_singleton.mp ha
    exact nomatch memory⟩

theorem scratchIssues_room : Room scratchIssues scratchIss 2 := show Hw.wraps _ _ _ = false by decide +kernel

/-! ## Stores -/

/-- The store of w0 to it, with the label. -/
def scratchStore (label : BitVec 3) : Instr := .st 96#7 96#7 label 4#3 0#6

/-- Of the other name the statements claim the byte as it was. -/
theorem stored_alias_zero {u : Use} {t : State} (stored : Stored scratchIss u [scratchAcc] scratchIssues t) :
    Tab.getD (t.hw.fcore 0 256).spad 0x40 0#8 = 0#8 :=
  (stored.scr 0 256 0x40).trans ((if_neg (by decide +kernel)).trans scratchIssues_zero)

/-- Refutes O18: of `scratchIssues` its clause of ST claims that a byte 0 stays under the name of core 256 of function 0, while the
store leaves 0x40 under that of core 0 of function 1. -/
theorem not_plainStores : ¬ Obligations.PlainStores := by
  unfold Obligations.PlainStores
  rintro ⟨stores, -⟩
  obtain ⟨t, w, answer, -, -, -, -, stored, -⟩ := stores 96#7 96#7 4#3 0#6 scratchIssues scratchIss [scratchAcc]
    (scratchIssues_issues (by decide +kernel)) ⟨show Iss.ctx _ _ < 2 ^ 20 by decide,
      show Iss.check _ _ _ (storedWord .data) _ = _ by decide +kernel⟩
  have holds : scratchLeft (exec (scratchStore 0#3) scratchIssues) = some 0x40#8 := by decide +kernel
  exact absurd (holds.symm.trans (scratchLeft_of_alias answer (stored_alias_zero stored))) (by decide)

/-- Refutes O19: of `scratchIssues` its clause of flag stores claims that a byte 0 stays under the name of core 256 of function 0,
while the store leaves 0x40 under that of core 0 of function 1. -/
theorem not_flagAndReleaseStores : ¬ Obligations.FlagAndReleaseStores := by
  unfold Obligations.FlagAndReleaseStores
  rintro ⟨stores, -⟩
  obtain ⟨t, w, answer, -, -, -, -, stored, -⟩ := stores 96#7 96#7 4#3 0#6 scratchIssues scratchIss [scratchAcc]
    (scratchIssues_issues (by decide +kernel)) scratchIssues_room (.inl (by decide +kernel)) scratchIssues_oneView
    ⟨show Iss.ctx _ _ < 2 ^ 20 by decide, show Iss.check _ _ _ (storedWord .flg) _ = _ by decide +kernel⟩
  have holds : scratchLeft (exec (scratchStore 5#3) scratchIssues) = some 0x40#8 := by decide +kernel
  exact absurd (holds.symm.trans (scratchLeft_of_alias answer (stored_alias_zero stored))) (by decide)

/-! ## Reductions -/

/-- Refutes O20: of `scratchIssues` its clause of RED.OR on scratchpad claims that a byte 0 stays under the name of core 256 of
function 0, while the reduction leaves 0x40 under that of core 0 of function 1. -/
theorem not_atomicsAndReductions : ¬ Obligations.AtomicsAndReductions := by
  unfold Obligations.AtomicsAndReductions
  intro atomics
  obtain ⟨-, -, -, -, -, -, -, -, -, -, -, -, -, -, -, -, -, redOr, -⟩ := atomics
  obtain ⟨-, atOnce⟩ := redOr 0#3 96#7 96#7
  obtain ⟨t, w, answer, -, -, spad, -⟩ := atOnce scratchIssues scratchIss scratchAcc (scratchIssues_issues (by decide +kernel))
    ⟨scratchIssues_room, .inl rfl, nofun⟩ trivial
    ⟨show Iss.ctx _ _ < 2 ^ 20 by decide, show Iss.check _ _ _ reducedWord _ = _ by decide +kernel⟩
  have kept : Tab.getD (t.hw.fcore 0 256).spad 0x40 0#8 = 0#8 :=
    (spad 0 256 0x40).trans ((if_neg (by decide +kernel)).trans scratchIssues_zero)
  have holds : scratchLeft (exec (.redOr 0#3 96#7 96#7) scratchIssues) = some 0x40#8 := by decide +kernel
  exact absurd (holds.symm.trans (scratchLeft_of_alias answer kept)) (by decide)

end Sys2Proof.Machine
end

section
/-! # A function whose context is a guard's

The L1 keys the bytes that unit u guards as context 2^20 + u. A table of functions may hold a function under such a number: L1WB for
all contexts of its partition then writes the unit's lines back, which go to the unit's guarded memory (R110) and not to memory. -/
namespace Sys2Proof.Machine

open Sys2Proof.Terms

/-- A handler warp whose w0 is 0x3FF, which names every context of the partition. -/
def allContextsWarp : Warp :=
  { newWarp 1 false 64 4 0 0 8 0x10000#64 0 with p0 := freshPath 0x10000#64 1#1024, mode := .handler, uregs := [(0, 0x3FF#32)] }
def allContextsIss : Iss := { droppingIss with w := allContextsWarp }

/-- It is about to issue. Its partition has functions 1 and 2^20, and its core's L1 one line, of context 2^20, in which the byte of
address 0 is dirty with value 7. Memory holds 0 there. -/
def guardedContextIssues : State :=
  { State.reset with hw := { Hw.reset.solo with
      cur := some ⟨wkOf 1 0 0, false⟩
      warps := [(wkOf 1 0 0, allContextsWarp)]
      fns := Hw.reset.solo.fns ++ [(2 ^ 20, { Fn.reset with bind := { Bind.reset with en := true, bound := true } })]
      cores := [(0, { Core.reset with
        l1 := [(l1Key (2 ^ 20) 0, { L1Line.empty with valid := 1#128, dirty := 1#128, bytes := [(0, 7#8)] })] })] } }

theorem guardedContextIssues_issues : Issues (.l1wb 96#7) guardedContextIssues allContextsIss :=
  ⟨⟨rfl, rfl⟩, by decide +kernel, by decide +kernel, show Hw.wraps _ _ _ = false by decide +kernel, rfl⟩

theorem guardedContextIssues_contexts : allContextsIss.ctxArg guardedContextIssues.hw 96#7 = some [1, 2 ^ 20, 320] := by
  decide +kernel

/-- Only the line of context 2^20 is dirty. -/
theorem guardedContextIssues_clean {c n : Nat} (hc : c ∈ [1, 320]) (hn : n < 2 ^ 45) :
    (guardedContextIssues.hw.l1 0 c n).dirty = 0#128 := by
  have other : l1Key c n ≠ l1Key (2 ^ 20) 0 := by
    unfold l1Key
    obtain rfl | rfl : c = 1 ∨ c = 320 := by simpa using hc
    all_goals omega
  show (Tab.getD [(l1Key (2 ^ 20) 0, _)] (l1Key c n) L1Line.empty).dirty = 0#128
  rw [Tab.getD, Tab.find?, if_neg other.symm]
  rfl

/-- The byte of address 0 once an instruction has answered a next state. -/
def firstByteLeft (o : Host.Outcome State Fault Refusal) : Option Byte :=
  match o with
  | .next t => some (t.byte 0)
  | _ => none

theorem l1wb_leaves_zero : firstByteLeft (exec (.l1wb 96#7) guardedContextIssues) = some 0#8 := by decide +kernel

/-- Refutes O43: of `guardedContextIssues` its clause of L1WB claims that memory holds the dirty 7 at address 0, while the 7 goes to
the guarded memory of unit 0 and memory keeps its 0. -/
theorem not_cacheSubOperations : ¬ Obligations.CacheSubOperations := by
  unfold Obligations.CacheSubOperations
  rintro ⟨l1wb, -⟩
  have disjoint : ∀ c ∈ [1, 2 ^ 20, 320], ∀ d ∈ [1, 2 ^ 20, 320], c ≠ d → ∀ n, n < 2 ^ 45 →
      (guardedContextIssues.hw.l1 0 c n).dirty &&& (guardedContextIssues.hw.l1 0 d n).dirty = 0#128 := by
    intro c hc d hd apart n hn
    by_cases guard : c = 2 ^ 20
    · rw [guardedContextIssues_clean (c := d) (by grind) hn, BitVec.and_zero]
    · rw [guardedContextIssues_clean (c := c) (by grind) hn, BitVec.zero_and]
  obtain ⟨t, w, answer, -, -, written, -⟩ := l1wb 96#7 guardedContextIssues allContextsIss [1, 2 ^ 20, 320]
    guardedContextIssues_issues rfl guardedContextIssues_contexts (by decide) disjoint rfl
  obtain ⟨seven, -⟩ := written (2 ^ 20) (by decide) 0 0 (by decide) (by decide) (by decide +kernel)
  have zero := l1wb_leaves_zero
  rw [answer, firstByteLeft, show t.byte 0 = 7#8 from seven.trans (by decide +kernel)] at zero
  exact absurd zero (by decide)

end Sys2Proof.Machine
end

section
/-! # Invalidation of translations

TLBIR and TLBIA drop translations of a core and of its die, SHOOT waits for a shootdown, and SHOOT_COMPLETE drops the translations of
its range everywhere and lets the path that waits go on. -/
namespace Sys2Proof.Machine

open Sys2Proof.Terms

/-! ## Operands -/

/-- A uniform group of registers is no queue register. -/
theorem not_inQueue_of_groupEven {a : RField} {n xi : Nat} (legal : (Use.groupEven a n).legal xi = true) : ¬ inQueue (Use.groupEven a n) := by
  simp only [Use.legal, Use.groupEven, RKind.allows, Bool.and_eq_true, decide_eq_true_eq] at legal
  simp only [inQueue, Use.groupEven]
  omega

theorem not_inQueue_of_noQL {u : Use} {xi : Nat} (legal : (u.of .noQL).legal xi = true) : ¬ inQueue (u.of .noQL) := by
  simp only [Use.legal, Use.of, RKind.allows, Bool.and_eq_true, Bool.or_eq_true, decide_eq_true_eq, beq_iff_eq] at legal
  simp only [inQueue, Use.of]
  omega

/-- An instruction with one operand that is no queue register names no queue register. -/
theorem queueless_of_single {i : Instr} {s : State} {q : Iss} {u : Use} (issues : Issues i s q) (one : Instr.uses i = [u])
    (not : u.legal q.w.xi.toNat = true → ¬ inQueue u) : ∀ v ∈ Instr.uses i, ¬ inQueue v := by
  have legal := legal_of_issues issues
  simp only [Instr.legal, one, List.all_cons, List.all_nil, Bool.and_eq_true] at legal
  intro v hv
  rw [one, List.mem_singleton] at hv
  exact hv ▸ not legal.2.1

theorem toNat_low10 (w : Word) : (w.extractLsb' 0 10).toNat = w.toNat % 1024 := by simp

theorem Iss.rangeBlock_eq (q : Iss) (a : RField) : q.rangeBlock a =
    ((groupAt q a 1 ++ groupAt q a 0).toNat % 2 ^ 57, (groupAt q a 3 ++ groupAt q a 2).toNat, (groupAt q a 4).toNat % 1024) := by
  simp only [Iss.rangeBlock, Iss.grp_eq, toNat_low10]

/-! ## Entries of a range -/

/-- The entries that a range names, as the obligation writes them. -/
theorem rangeHits_eq (ctx base len : Nat) : rangeHits ctx base len = fun (t : Tlb) =>
    t.ctx == ctx && (len == 2 ^ 64 - 1 || (len != 0 && decide (t.base < base + len ∧ base < t.base + 2 ^ t.lg))) := by
  funext t
  unfold rangeHits Tlb.overlaps
  by_cases all : len = 2 ^ 64 - 1
  · simp [all]
  · rw [if_neg all, Bool.decide_and, beq_eq_false_iff_ne.mpr all, Bool.false_or]
    cases t.ctx == ctx <;> simp

section
variable (h : Hw) (core : Nat) (p : Tlb → Bool)

theorem Hw.tlb_dropTlb : ((h.dropTlb core p).core core).tlb = (h.core core).tlb.filter fun x => !p x :=
  congrArg Core.tlb (Hw.core_onCore_same h core fun c => { c with
    tlb := c.tlb.filter fun x => !p x, bloom := if (c.tlb.filter fun x => !p x).isEmpty then [] else c.bloom })

theorem Hw.core_dropTlb_other {c : Nat} (other : c ≠ core) : (h.dropTlb core p).core c = h.core c :=
  Hw.core_onCore_other h (fun c => { c with
    tlb := c.tlb.filter fun x => !p x, bloom := if (c.tlb.filter fun x => !p x).isEmpty then [] else c.bloom }) other

theorem Hw.dieTlb_dropTlb (d : Nat) : Tab.getD (h.dropTlb core p).dieTlb d [] =
    if d = core / 40 then (Tab.getD h.dieTlb d []).filter fun x => !p x else Tab.getD h.dieTlb d [] := by
  show Tab.getD (Tab.modify h.dieTlb (core / 40) _) d [] = _
  by_cases own : d = core / 40
  · rw [if_pos own, Tab.getD, ← own, Tab.find?_modify_same, Tab.getD]
    cases Tab.find? h.dieTlb d <;> rfl
  · rw [if_neg own, Tab.getD, Tab.find?_modify_other _ _ own, Tab.getD]

/-- Once they are dropped everywhere, no core and no die holds one. -/
theorem Hw.tlb_dropTlbAll (c : Nat) : ((h.dropTlbAll p).core c).tlb = (h.core c).tlb.filter fun x => !p x := by
  show (Tab.getD (Tab.mapVals _ h.cores) c Core.reset).tlb = _
  rw [Tab.getD, Tab.find?_mapVals, Hw.core, Tab.getD]
  cases Tab.find? h.cores c <;> rfl

theorem Hw.dieTlb_dropTlbAll (d : Nat) : Tab.getD (h.dropTlbAll p).dieTlb d [] = (Tab.getD h.dieTlb d []).filter fun x => !p x := by
  show Tab.getD (Tab.mapVals _ h.dieTlb) d [] = _
  rw [Tab.getD, Tab.find?_mapVals, Tab.getD]
  cases Tab.find? h.dieTlb d <;> rfl
end

/-! ## TLBIR and TLBIA -/

/-- An instruction without queue registers whose effect lies beside warps and blocks leaves the caches as the effect does. -/
theorem issue_serves_caches {i : Instr} {s : State} {q : Iss} {f : Env → Hw → Iss → Except Stop Hw} {h : Hw}
    (meaning : exec i s = issue i s f) (issues : Issues i s q) (noQueue : ∀ u ∈ Instr.uses i, ¬ inQueue u)
    (effect : f ⟨s.clk, s.mem⟩ s.hw q = .ok h) (warps : h.warps = s.hw.warps) (unwritten : h.wq = s.hw.wq) (scr : h.fcores = s.hw.fcores) :
    ∃ t, exec i s = .next t ∧ Serves i q s t (q.onward i q.w) ∧ Alone q s t ∧ t.hw.parts = h.parts ∧ t.hw.cores = h.cores ∧
      t.hw.dieTlb = h.dieTlb ∧ t.hw.l2 = h.l2 := by
  obtain ⟨t, answer, serves, alone, parts, -⟩ := issue_serves meaning issues noQueue effect (v := q.w)
    ((congrArg (Tab.find? · q.wk) warps).trans (Iss.of_warp (iss_of_issues issues))) rfl
    (fun n _ => congrArg (Tab.find? · n) warps) unwritten scr
  obtain ⟨-, hq, passes, -, free⟩ := issues
  have popless := Warp.poppedRels_of_not_inQueue (w := q.w) noQueue
  obtain ⟨k, retired, next⟩ := issue_next hq passes free effect (.inl (by rw [popless]; rfl))
  obtain ⟨-, cores, l2⟩ := retired.quiet (by rw [popless]; rfl)
  obtain rfl := Host.Outcome.next.inj ((answer.symm.trans meaning).trans next)
  exact ⟨_, answer, serves, alone, parts, cores, by rw [retired.rest]; rfl, l2⟩

/-- One that drops translations of its core and die. -/
theorem issue_drops {i : Instr} {s : State} {q : Iss} {f : Env → Hw → Iss → Except Stop Hw} {hit : Tlb → Bool}
    (meaning : exec i s = issue i s f) (issues : Issues i s q) (noQueue : ∀ u ∈ Instr.uses i, ¬ inQueue u)
    (effect : f ⟨s.clk, s.mem⟩ s.hw q = .ok (s.hw.dropTlb q.core hit)) :
    ∃ t w, exec i s = .next t ∧ Serves i q s t w ∧ Alone q s t ∧
      (t.hw.core q.core).tlb = (s.hw.core q.core).tlb.filter (fun x => !hit x) ∧
      (∀ d, Tab.getD t.hw.dieTlb d [] = if d = q.core / 40 then (Tab.getD s.hw.dieTlb d []).filter (fun x => !hit x)
        else Tab.getD s.hw.dieTlb d []) ∧ ∀ c, c ≠ q.core → t.hw.core c = s.hw.core c := by
  obtain ⟨t, answer, serves, alone, -, cores, dies, -⟩ := issue_serves_caches meaning issues noQueue effect rfl rfl rfl
  have core (c : Nat) : t.hw.core c = (s.hw.dropTlb q.core hit).core c := congrArg (Tab.getD · c Core.reset) cores
  refine ⟨t, _, answer, serves, alone, ?_, fun d => ?_, fun c other => ?_⟩
  · rw [core, Hw.tlb_dropTlb]
  · rw [dies, Hw.dieTlb_dropTlb]
  · rw [core, Hw.core_dropTlb_other _ _ _ other]

theorem tlbir_drops {a : RField} {s : State} {q : Iss} {base len ctx : Nat}
    (block : q.rangeBlock a = (base, len, ctx)) (owned : (s.hw.contexts (s.hw.partOf q.fn)).contains ctx = true) :
    ∃ f, execTlbir a s = issue (.tlbir a) s f ∧ f ⟨s.clk, s.mem⟩ s.hw q = .ok (s.hw.dropTlb q.core (rangeHits ctx base len)) := by
  refine ⟨_, rfl, ?_⟩
  simp only [block, owned, Bool.not_true, Bool.false_eq_true, ↓reduceIte]

theorem tlbia_drops {a : RField} {s : State} {q : Iss} {ctx : Nat}
    (named : (q.w.read (.src a) q.lane0).toNat % 1024 = ctx) (owned : (s.hw.contexts (s.hw.partOf q.fn)).contains ctx = true) :
    ∃ f, execTlbia a s = issue (.tlbia a) s f ∧ f ⟨s.clk, s.mem⟩ s.hw q = .ok (s.hw.dropTlb q.core fun t => t.ctx == ctx) := by
  refine ⟨_, rfl, ?_⟩
  simp only [toNat_low10, named, owned, Bool.not_true, Bool.false_eq_true, ↓reduceIte]

/-! ## SHOOT -/

section
variable {a : RField} {s : State} {q : Iss} {base len ctx : Nat}

theorem shoot_empty (issues : Issues (.shoot a) s q) (block : q.rangeBlock a = (base, 0, ctx))
    (owned : (s.hw.contexts (s.hw.partOf q.fn)).contains ctx = true) :
    ∃ t, exec (.shoot a) s = .next t ∧ Alone q s t ∧ t.hw.parts = s.hw.parts ∧ ∃ w, Serves (.shoot a) q s t w := by
  have meaning : ∃ f, execShoot a s = issue (.shoot a) s f ∧ f ⟨s.clk, s.mem⟩ s.hw q = .ok s.hw := by
    refine ⟨_, rfl, ?_⟩
    simp only [block, owned, Bool.not_true, Bool.false_eq_true, ↓reduceIte]
  obtain ⟨f, meaning, effect⟩ := meaning
  obtain ⟨t, answer, serves, alone, parts, -⟩ := issue_serves_caches (show exec (.shoot a) s = _ from meaning) issues
    (queueless_of_single issues rfl not_inQueue_of_groupEven) effect rfl rfl rfl
  exact ⟨t, answer, alone, parts, _, serves⟩

/-- The package once a SHOOT has joined the shootdowns under way. -/
def Hw.shooting (h : Hw) (q : Iss) (p : Nat) (x : Nat × Nat × Nat × Nat × Bool) : Hw :=
  ((h.onPart p fun y => { y with shooting := y.shooting ++ [x] }).onPath q.wk q.x fun y =>
    { y with hold := some (shootToken q.wk q.x) }).planOnce .shootComplete { Occasion.none with unit := p }

theorem shoot_answer (issues : Issues (.shoot a) s q) (block : q.rangeBlock a = (base, len, ctx)) (some_ : len ≠ 0)
    (owned : (s.hw.contexts (s.hw.partOf q.fn)).contains ctx = true) : exec (.shoot a) s =
      .next (s.after ((s.hw.shooting q (s.hw.partOf q.fn) (ctx, base, len, q.wk, q.x)).waitOn q.wk q.x 31)) := by
  obtain ⟨-, hq, rank, -, unheld⟩ := issues
  show execShoot a s = _
  simp only [execShoot, issue, issueCtl, State.run, hq, rank, unheld, bind, Except.bind, block, owned, some_, Bool.not_true,
    Bool.false_eq_true, ↓reduceIte, settle]
  rfl

theorem Hw.shooting_rest (h : Hw) (p : Nat) (x : Nat × Nat × Nat × Nat × Bool) : h.shooting q p x = { h with
    warps := (h.shooting q p x).warps, parts := (h.shooting q p x).parts, agenda := (h.shooting q p x).agenda } := by
  unfold Hw.shooting
  rw [Hw.agendaOnly_planOnce]
  rfl

theorem Hw.warps_shooting (h : Hw) (p : Nat) (x : Nat × Nat × Nat × Nat × Bool) : (h.shooting q p x).warps =
    (h.onPath q.wk q.x fun y => { y with hold := some (shootToken q.wk q.x) }).warps := by
  unfold Hw.shooting
  rw [Hw.agendaOnly_planOnce]
  rfl

theorem Hw.part_shooting (h : Hw) (p : Nat) (x : Nat × Nat × Nat × Nat × Bool) :
    ((h.shooting q p x).part p).shooting = (h.part p).shooting ++ [x] := by
  unfold Hw.shooting
  rw [Hw.agendaOnly_planOnce]
  exact congrArg Part.shooting (Hw.part_onPart_same h p fun y => { y with shooting := y.shooting ++ [x] })

/-- A path that has been given a hold starts to wait. -/
theorem waits_held {k : Hw} {n : Nat} (r : Nat) (held : k.warp? q.wk = some (q.w.setPath q.x { q.p with hold := some n }))
    (others : ∀ j, j ≠ q.wk → k.warp? j = s.hw.warp? j) (unwritten : k.wq = []) :
    ∃ t, s.after (k.waitOn q.wk q.x r) = t ∧ Alone q s t ∧ Waits q t r ∧
      ((t.hw.warp? q.wk).bind fun w => (w.path q.x).hold) = some n ∧ t.hw.agenda = k.agenda ∧ t.hw.parts = k.parts := by
  have own : (k.waitOn q.wk q.x r).warp? q.wk =
      some (q.w.setPath q.x { q.p with hold := some n, stall := r, later := 0#32, ticket := none }) := by
    refine (Hw.warp?_onWarp_same _ _ _).trans ?_
    rw [held, Option.map_some, Warp.setPath_path, Warp.setPath_setPath]
  refine ⟨_, rfl, ⟨State.mem_after unwritten, fun j other => (Hw.warp?_onWarp_other _ _ other).trans (others j other)⟩,
    ⟨_, own, ?_⟩, ?_, rfl, rfl⟩
  · rw [Warp.setPath_path]
    refine ⟨rfl, rfl, rfl, ?_, ?_, ?_, ?_, List.mem_cons_self⟩ <;> cases q.x <;> rfl
  · rw [State.after_warp?, own, Option.bind_some, Warp.setPath_path]

theorem shoot_waits (issues : Issues (.shoot a) s q) (block : q.rangeBlock a = (base, len, ctx)) (some_ : len ≠ 0)
    (owned : (s.hw.contexts (s.hw.partOf q.fn)).contains ctx = true) :
    ∃ t, exec (.shoot a) s = .next t ∧ Alone q s t ∧ Waits q t 31 ∧
      ((t.hw.warp? q.wk).bind fun w => (w.path q.x).hold) = some (2 ^ 60 + 2 * q.wk + q.x.toNat) ∧
      Planned t .shootComplete { Occasion.none with unit := s.hw.partOf q.fn } ∧
      (t.hw.part (s.hw.partOf q.fn)).shooting = (s.hw.part (s.hw.partOf q.fn)).shooting ++ [(ctx, base, len, q.wk, q.x)] := by
  have answer := shoot_answer issues block some_ owned
  obtain ⟨⟨-, unwritten⟩, hq, -⟩ := issues
  have held : (s.hw.shooting q (s.hw.partOf q.fn) (ctx, base, len, q.wk, q.x)).warp? q.wk =
      some (q.w.setPath q.x { q.p with hold := some (shootToken q.wk q.x) }) := by
    rw [Hw.warp?, Hw.warps_shooting]
    exact (Hw.warp?_onWarp_same _ _ _).trans (by rw [Iss.of_warp hq]; rfl)
  obtain ⟨t, ht, alone, waits, hold, agenda, parts⟩ := waits_held (s := s) 31 held
    (fun j other => by rw [Hw.warp?, Hw.warps_shooting]; exact Hw.warp?_onWarp_other _ _ other)
    (by rw [Hw.shooting_rest]; exact unwritten)
  refine ⟨t, answer.trans (congrArg _ ht), alone, waits, hold, ?_, ?_⟩
  · rw [Planned, agenda]
    exact Hw.mem_planOnce _ _ _
  · rw [Hw.part, parts]
    exact Hw.part_shooting _ _ _
end

/-! ## SHOOT_COMPLETE -/

section
variable {s : State} {ctx base len wk : Nat} {x : Bool} {l : List (Nat × Nat × Nat × Nat × Bool)} {v : Warp}

/-- Every warp as it was but for its monitors, its translations dropped. -/
theorem Hw.shootDown_rest (h : Hw) (ctx base len : Nat) : h.shootDown ctx base len = { h with
    cores := (h.dropTlbAll (rangeHits ctx base len)).cores, dieTlb := (h.dropTlbAll (rangeHits ctx base len)).dieTlb
    fns := (h.shootDown ctx base len).fns, warps := (h.shootDown ctx base len).warps, tried := [] } := rfl

/-- What it triggers. -/
def shotMonitor (base len : Nat) (m : Monitor) : Bool :=
  let v := m.va.toNat % 2 ^ 57
  match m.loc with
  | .mem _ => len == 2 ^ 64 - 1 || decide (v / 65536 * 65536 < base + len) && decide (base < v / 65536 * 65536 + 65536)
  | _ => false

theorem Hw.warp?_shootDown (h : Hw) (ctx base len k : Nat) :
    (h.shootDown ctx base len).warp? k = (h.warp? k).map (·.triggered (shotMonitor base len)) := Tab.find?_mapVals _ _ _

theorem Hw.warpsCalm_shootDown (h : Hw) (ctx base len : Nat) : h.warpsCalm (h.shootDown ctx base len) :=
  Hw.warpsCalm_trigger _ _

theorem Hw.spill_shootDown (h : Hw) (ctx base len f : Nat) : ((h.shootDown ctx base len).fn f).wake.spill =
    (h.fn f).wake.spill.filter fun t => !rangeHits ctx base len t.2 := by
  show (Tab.getD (Tab.mapVals _ h.fns) f Fn.reset).wake.spill = _
  rw [Tab.getD, Tab.find?_mapVals, Hw.fn, Tab.getD]
  cases Tab.find? h.fns f <;> rfl

/-- The package once the oldest shootdown of its partition is complete, apart from what is counted and planned. -/
def Hw.shot (h : Hw) (ctx base len wk : Nat) (x : Bool) (p : Nat) (l : List (Nat × Nat × Nat × Nat × Bool)) : Hw :=
  ((((h.shootDown ctx base len).onPart p fun y => { y with shooting := l }).onWarp wk fun w => w.shot (shootToken wk x))).moved

/-- Its caches hold no translation of the range. -/
theorem Hw.caches_shot (h : Hw) (p : Nat) : (h.shot ctx base len wk x p l).cores = (h.dropTlbAll (rangeHits ctx base len)).cores ∧
    (h.shot ctx base len wk x p l).dieTlb = (h.dropTlbAll (rangeHits ctx base len)).dieTlb := ⟨rfl, rfl⟩
theorem Hw.wq_shot (h : Hw) (p : Nat) : (h.shot ctx base len wk x p l).wq = h.wq := by
  rw [Hw.shot, Hw.moved, Hw.onWarp, Hw.onPart, Hw.setPart, Hw.shootDown_rest]

/-- At most what is counted and planned differs. -/
def Hw.countsAndPlans (h k : Hw) : Prop := k = { h with fns := k.fns, out := k.out, agenda := k.agenda } ∧
  ∀ f, (h.fn f).sameButCounters (k.fn f)

theorem Hw.countsAndPlans_same {h k : Hw} (a : h.countsAndPlans k) :
    k.cores = h.cores ∧ k.dieTlb = h.dieTlb ∧ k.parts = h.parts ∧ k.warps = h.warps ∧ k.wq = h.wq := by
  obtain ⟨rest, -⟩ := a
  rw [rest]
  exact ⟨rfl, rfl, rfl, rfl, rfl⟩

theorem Hw.countsAndPlans_refl (h : Hw) : h.countsAndPlans h := ⟨rfl, fun _ => Fn.sameButCounters_refl _⟩

theorem Hw.countsAndPlans_count (h : Hw) (f cls unit ev reason n : Nat) : h.countsAndPlans (h.count f cls unit ev reason n) := by
  obtain ⟨rest, fns⟩ := Hw.count_fn_out h f cls unit ev reason n
  refine ⟨?_, fns⟩
  rw [rest]

theorem Hw.countsAndPlans_planOnce {h k : Hw} (a : h.countsAndPlans k) (i : Instr) (o : Occasion) : h.countsAndPlans (k.planOnce i o) := by
  obtain ⟨rest, fns⟩ := a
  rw [Hw.agendaOnly_planOnce k i o]
  exact ⟨by rw [rest], fns⟩

theorem shootComplete_shoots {e : Env} {h : Hw} (own : h.occ.flag = false) (oldest : (h.part h.occ.unit).shooting = (ctx, base, len, wk, x) :: l)
    (drained : h.undrained ctx base len = false) : (h.shot ctx base len wk x h.occ.unit l).countsAndPlans (shootComplete e h) := by
  have counted (k : Hw) : k.countsAndPlans (match k.block? (wkBlock wk) with
      | some b => k.count (wkFn wk) 0 b.core 0x02 0 1
      | none => k) := by
    split
    · exact k.countsAndPlans_count _ _ _ _ _ _
    · exact k.countsAndPlans_refl
  simp only [shootComplete, own, oldest, drained, Bool.false_eq_true, ↓reduceIte]
  split
  · exact counted (h.shot ctx base len wk x h.occ.unit l)
  · exact Hw.countsAndPlans_planOnce (counted (h.shot ctx base len wk x h.occ.unit l)) _ _

/-! What the shootdown leaves of the warp whose path waits. -/

theorem Path.shot_held {p : Path} {n : Nat} (held : p.hold = some n) : (p.shot n).hold = none ∧ (p.shot n).pc = p.pc + 4#64 := by
  rw [Path.shot, if_pos held]
  exact ⟨rfl, rfl⟩

theorem Warp.shot_path (w : Warp) (n : Nat) (y : Bool) : (w.shot n).path y = (w.path y).shot n := by cases y <;> rfl

theorem Warp.triggered_path (f : Monitor → Bool) (w : Warp) (y : Bool) :
    ((w.triggered f).path y).hold = (w.path y).hold ∧ ((w.triggered f).path y).pc = (w.path y).pc := by
  have path (u : Warp) : (calmWarp u).path y = calm (u.path y) := by cases y <;> rfl
  have same := congrArg (Warp.path · y) (calmWarp_triggered f w)
  simp only [path] at same
  have fields (p r : Path) (h : calm p = calm r) : p.hold = r.hold ∧ p.pc = r.pc :=
    ⟨(congrArg Path.hold h : (calm p).hold = (calm r).hold), (congrArg Path.pc h : (calm p).pc = (calm r).pc)⟩
  exact fields _ _ same

theorem Warp.triggered_regs (f : Monitor → Bool) (w : Warp) :
    (w.triggered f).vregs = w.vregs ∧ (w.triggered f).uregs = w.uregs ∧ (w.triggered f).preds = w.preds := by
  unfold Warp.triggered
  split <;> exact ⟨rfl, rfl, rfl⟩

theorem shootComplete_completes (inv : s.Inv) (own : s.hw.occ.flag = false)
    (oldest : (s.hw.part s.hw.occ.unit).shooting = (ctx, base, len, wk, x) :: l) (drained : s.hw.undrained ctx base len = false)
    (warp : s.hw.warp? wk = some v) (held : (v.path x).hold = some (2 ^ 60 + 2 * wk + x.toNat)) :
    ∃ t w, exec .shootComplete s = .next t ∧ (∀ c, ∀ y ∈ (t.hw.core c).tlb, rangeHits ctx base len y = false) ∧
      (∀ d, ∀ y ∈ Tab.getD t.hw.dieTlb d [], rangeHits ctx base len y = false) ∧
      (∀ f, ∀ y ∈ (t.hw.fn f).wake.spill, rangeHits ctx base len y.2 = false) ∧
      (t.hw.part s.hw.occ.unit).shooting = l ∧ t.hw.warp? wk = some w ∧ (w.path x).hold = none ∧ (w.path x).pc = (v.path x).pc + 4#64 ∧
      (∀ k, k ≠ wk → (t.hw.warp? k).map calmWarp = (s.hw.warp? k).map calmWarp) ∧ w.vregs = v.vregs ∧ w.uregs = v.uregs ∧
      w.preds = v.preds ∧ t.mem = s.mem ∧ t.clk = s.clk := by
  have shoots := shootComplete_shoots (e := env s) own oldest drained
  generalize hk : shootComplete (env s) s.hw = k at shoots
  obtain ⟨shotCores, shotDies⟩ := s.hw.caches_shot (ctx := ctx) (base := base) (len := len) (wk := wk) (x := x) (l := l) s.hw.occ.unit
  obtain ⟨cores, dies, parts, warps, wq⟩ := Hw.countsAndPlans_same shoots
  have spill (f : Nat) : (k.fn f).wake.spill = (s.hw.fn f).wake.spill.filter fun t => !rangeHits ctx base len t.2 := by
    rw [shoots.2 f]
    exact Hw.spill_shootDown s.hw ctx base len f
  have left : (k.part s.hw.occ.unit).shooting = l := by
    rw [Hw.part, parts]
    exact congrArg Part.shooting (Hw.part_onPart_same (s.hw.shootDown ctx base len) _ fun y => { y with shooting := l })
  have shot : k.warp? wk = some ((v.triggered (shotMonitor base len)).shot (shootToken wk x)) := by
    rw [Hw.warp?, warps]
    refine (Hw.warp?_onWarp_same _ _ _).trans ?_
    show ((s.hw.shootDown ctx base len).warp? wk).map _ = _
    rw [Hw.warp?_shootDown, warp, Option.map_some, Option.map_some]
  obtain ⟨sameHold, samePc⟩ := v.triggered_path (shotMonitor base len) x
  have still : ((v.triggered (shotMonitor base len)).path x).hold = some (shootToken wk x) := by
    rw [sameHold, held, shootToken]
  obtain ⟨free, next⟩ := Path.shot_held still
  have answer : exec .shootComplete s = .next (s.after k) := (show execShootComplete s = s.event shootComplete from rfl).trans (event_eq_after hk)
  refine ⟨s.after k, _, answer, fun c y hy => ?_,
    fun d y hy => ?_, fun f y hy => ?_, left, shot, ?_, ?_, fun j other => ?_, ?_, ?_, ?_, State.mem_after ((wq.trans (Hw.wq_shot _ _)).trans inv.2), rfl⟩
  · change y ∈ (k.core c).tlb at hy
    rw [Hw.core, cores, shotCores] at hy
    change y ∈ ((s.hw.dropTlbAll (rangeHits ctx base len)).core c).tlb at hy
    rw [Hw.tlb_dropTlbAll] at hy
    simpa using (List.mem_filter.mp hy).2
  · change y ∈ Tab.getD k.dieTlb d [] at hy
    rw [dies, shotDies, Hw.dieTlb_dropTlbAll] at hy
    simpa using (List.mem_filter.mp hy).2
  · rw [State.after_fn, spill] at hy
    simpa using (List.mem_filter.mp hy).2
  · rw [Warp.shot_path, free]
  · rw [Warp.shot_path, next, samePc]
  · rw [State.after_warp?, Hw.warp?, warps]
    refine (congrArg _ (Hw.warp?_onWarp_other _ _ other)).trans ?_
    exact Hw.warpsCalm_shootDown s.hw ctx base len j
  all_goals obtain ⟨vregs, uregs, preds⟩ := v.triggered_regs (shotMonitor base len)
  · exact vregs
  · exact uregs
  · exact preds
end

/-! ## The obligation -/

/-- Settles O42: TLBIR and TLBIA keep the entries that their range does not hit, SHOOT retires at once or waits, and the shootdown
drops what is hit and lets the path go on. -/
theorem translationInvalidation : Obligations.TranslationInvalidation := by
  unfold Obligations.TranslationInvalidation
  refine ⟨?_, fun a s q issues _ owned => ?_, ?_⟩
  · rintro i s q ctx hit issues - owned (⟨a, base, len, rfl, rfl, rfl, rfl, rfl⟩ | ⟨a, rfl, rfl, rfl⟩)
    · obtain ⟨f, meaning, effect⟩ := tlbir_drops (q.rangeBlock_eq a) owned
      rw [rangeHits_eq] at effect
      exact issue_drops meaning issues (queueless_of_single issues rfl not_inQueue_of_groupEven) effect
    · obtain ⟨f, meaning, effect⟩ := tlbia_drops rfl owned
      exact issue_drops meaning issues (queueless_of_single issues rfl not_inQueue_of_noQL) effect
  · rcases eq_or_ne (groupAt q a 3 ++ groupAt q a 2).toNat 0 with none_ | some_
    · obtain ⟨t, answer, alone, parts, serves⟩ := shoot_empty issues (by rw [q.rangeBlock_eq, none_]) owned
      exact ⟨t, answer, alone, fun _ => ⟨parts, serves⟩, fun some_ => absurd none_ some_⟩
    · obtain ⟨t, answer, alone, waits, hold, planned, joined⟩ := shoot_waits issues (q.rangeBlock_eq a) some_ owned
      exact ⟨t, answer, alone, fun none_ => absurd none_ some_, fun _ => ⟨waits, hold, ⟨_, planned, rfl⟩, joined⟩⟩
  · intro s ctx base len wk x l v inv own oldest drained warp held
    rw [← rangeHits_eq]
    exact shootComplete_completes inv own oldest drained warp held

end Sys2Proof.Machine
end

section
/-! # A retriever's element

What RETRIEVER_ELEMENT changes: the element leaves its ring's queue, its bytes go to memory, and its old value lands in a lane. -/
namespace Sys2Proof.Machine

open Sys2Proof.Terms

/-! ## Values -/

theorem getD_natLe {n : Nat} (v : Nat) {i : Nat} (small : i < n) : (natLe n v).getD i 0#8 = BitVec.ofNat 8 (v / 256 ^ i) := by
  induction n generalizing v i with
  | zero => omega
  | succ n ih =>
    cases i with
    | zero => simp [natLe]
    | succ i =>
      rw [natLe, List.getD_cons_succ, ih _ (by omega), Nat.div_div_eq_div_mul, Nat.pow_succ, Nat.mul_comm 256]

/-- The bytes of a number are those of its low part. -/
theorem natLe_mod (n v : Nat) : natLe n (v % 256 ^ n) = natLe n v := by
  induction n generalizing v with
  | zero => rfl
  | succ n ih =>
    have low : v % 256 ^ (n + 1) % 256 = v % 256 := Nat.mod_mod_of_dvd _ (Dvd.intro_left _ rfl)
    have high : v % 256 ^ (n + 1) / 256 = v / 256 % 256 ^ n := by rw [Nat.pow_succ, Nat.mul_comm, Nat.mod_mul_right_div_self]
    have byte : BitVec.ofNat 8 (v % 256 ^ (n + 1)) = BitVec.ofNat 8 v := by
      apply BitVec.eq_of_toNat_eq
      simp only [BitVec.toNat_ofNat]
      exact low
    rw [natLe, natLe, high, ih, byte]

theorem low32_eq (x : DWord) : low32 x = BitVec.ofNat 32 x.toNat := by
  apply BitVec.eq_of_toNat_eq
  simp [low32]

theorem natLe_word {n m : Nat} (same : m % 2 ^ 32 = n % 2 ^ 32) : natLe 4 (BitVec.ofNat 64 n).toNat = natLe 4 (BitVec.ofNat 64 (m % 2 ^ 32)).toNat := by
  rw [← natLe_mod 4 (BitVec.ofNat 64 n).toNat, ← natLe_mod 4 (BitVec.ofNat 64 (m % 2 ^ 32)).toNat]
  simp only [BitVec.toNat_ofNat]
  congr 1
  omega

theorem natLe_of_word {w : Word} {m : Nat} (same : m % 2 ^ 32 = w.toNat % 2 ^ 32) :
    natLe 4 (w.setWidth 64).toNat = natLe 4 (BitVec.ofNat 64 (m % 2 ^ 32)).toNat := by
  have wide : w.setWidth 64 = BitVec.ofNat 64 w.toNat := (BitVec.ofNat_toNat 64 w).symm
  rw [wide, natLe_word same]

/-! What the integer operations leave, as numbers of 32 bits. -/

theorem toNat_smaller (o x : Word) : (smaller o x).toNat = if x.toInt < o.toInt then x.toNat else o.toNat := by
  unfold smaller
  by_cases less : o.toInt < x.toInt
  · rw [if_pos (by simpa [BitVec.slt] using less), if_neg (by omega)]
  · rw [if_neg (by simpa [BitVec.slt] using less)]
    split
    · rfl
    · rw [BitVec.eq_of_toInt_eq (x := x) (y := o) (by omega)]
theorem toNat_larger (o x : Word) : (larger o x).toNat = if o.toInt < x.toInt then x.toNat else o.toNat := by
  unfold larger
  by_cases less : x.toInt < o.toInt
  · rw [if_pos (by simpa [BitVec.slt] using less), if_neg (by omega)]
  · rw [if_neg (by simpa [BitVec.slt] using less)]
    split
    · rfl
    · rw [BitVec.eq_of_toInt_eq (x := x) (y := o) (by omega)]
theorem toNat_ite_ult (o x : Word) : (if o.ult x then o else x).toNat = min o.toNat x.toNat := by
  rw [Nat.min_def]
  by_cases less : o.toNat < x.toNat
  · rw [if_pos (by simpa [BitVec.ult] using less), if_pos (by omega)]
  · rw [if_neg (by simpa [BitVec.ult] using less)]
    split <;> omega
theorem toNat_ite_ugt (o x : Word) : (if x.ult o then o else x).toNat = max o.toNat x.toNat := by
  rw [Nat.max_def]
  by_cases less : x.toNat < o.toNat
  · rw [if_pos (by simpa [BitVec.ult] using less), if_neg (by omega)]
  · rw [if_neg (by simpa [BitVec.ult] using less)]
    split <;> omega

/-- The bytes that the model's operation writes are those of Table 14.5. -/
theorem apply_eq_rmw (op : AtomOp) (rm nbv : Word) (old b cmp : DWord) :
    (op.apply rm nbv old b cmp).map (fun v => natLe op.size v.toNat) =
      (rmw op (rm.toNat % 8) (nbv.toNat % 4) old b cmp).map fun v => natLe op.size v.toNat := by
  have mode : (rm.extractLsb' 0 3).toNat = rm.toNat % 8 := by simp
  have ver : (nbv.extractLsb' 0 2).toNat = nbv.toNat % 4 := by simp
  have half (w : Word) (k : Nat) : (w.extractLsb' k 16).toNat = w.toNat / 2 ^ k % 2 ^ 16 := by
    rw [BitVec.extractLsb'_toNat, Nat.shiftRight_eq_div_pow]
  simp only [AtomOp.apply, rmw, low32_eq, mode, ver]
  generalize BitVec.ofNat 32 old.toNat = o
  generalize BitVec.ofNat 32 b.toNat = x
  have narrow := o.isLt
  have narrow' := x.isLt
  cases op with
  | add => exact congrArg some (natLe_of_word (by rw [BitVec.toNat_add, Nat.mod_mod]))
  | min => exact congrArg some (natLe_of_word (by rw [toNat_smaller]))
  | max => exact congrArg some (natLe_of_word (by rw [toNat_larger]))
  | minu => exact congrArg some (natLe_of_word (by rw [toNat_ite_ult]))
  | maxu => exact congrArg some (natLe_of_word (by rw [toNat_ite_ugt]))
  | and => exact congrArg some (natLe_of_word rfl)
  | or => exact congrArg some (natLe_of_word rfl)
  | xor => exact congrArg some (natLe_of_word rfl)
  | fadd => exact congrArg some (natLe_word rfl)
  | bfadd2 =>
    refine congrArg some (natLe_word ?_)
    rw [half, half, half, half, elements, Nat.mod_eq_of_lt (a := o.toNat / 2 ^ 16) (by omega),
      Nat.mod_eq_of_lt (a := x.toNat / 2 ^ 16) (by omega), Nat.pow_zero, Nat.div_one, Nat.div_one]
    rfl
  | addD =>
    refine congrArg some (congrArg _ ?_)
    simp
  | xchg => exact congrArg some (natLe_of_word rfl)
  | xchgD => rfl
  | cas =>
    dsimp only
    split
    · exact congrArg some (natLe_of_word rfl)
    · rfl
  | casD => rfl

/-! ## A lane's value lands -/

/-- Consecutive registers of a lane. -/
theorem Warp.getV_setV_zipIdx (dreg : Nat) {lane r n : Nat} (hl : lane < 1024) (hn : n < 1024) (ws : List Word) (k : Nat) (w : Warp) :
    ((ws.zipIdx k).foldl (fun w (x : Word × Nat) => (w.setV (dreg + x.2) lane x.1).setFull (dreg + x.2) lane) w).getV r n =
      if n = lane ∧ dreg + k ≤ r ∧ r < dreg + k + ws.length then ws.getD (r - (dreg + k)) 0#32 else w.getV r n := by
  induction ws generalizing k w with
  | nil => exact (if_neg (by simp)).symm
  | cons v ws ih =>
    rw [List.zipIdx_cons, List.foldl_cons, ih]
    show (if _ then _ else (w.setV (dreg + k) lane v).getV r n) = _
    rw [Warp.getV_setV _ _ hl hn, List.length_cons]
    by_cases here : n = lane ∧ dreg + k ≤ r ∧ r < dreg + k + (ws.length + 1)
    · obtain ⟨lane_, le, lt⟩ := here
      rcases Nat.eq_or_lt_of_le le with first | later
      · rw [if_neg (by omega), if_pos ⟨by omega, lane_⟩, if_pos ⟨lane_, le, lt⟩, ← first, Nat.sub_self, List.getD_cons_zero]
      · rw [if_pos ⟨lane_, by omega, by omega⟩, if_pos ⟨lane_, le, lt⟩,
          show r - (dreg + k) = r - (dreg + (k + 1)) + 1 by omega, List.getD_cons_succ]
    · rw [if_neg (by omega), if_neg (by omega), if_neg here]

theorem Warp.regs_setV_zipIdx (dreg lane : Nat) (ws : List Word) (k : Nat) (w : Warp) :
    let u := (ws.zipIdx k).foldl (fun w (x : Word × Nat) => (w.setV (dreg + x.2) lane x.1).setFull (dreg + x.2) lane) w
    u.uregs = w.uregs ∧ u.preds = w.preds := by
  induction ws generalizing k w with
  | nil => exact ⟨rfl, rfl⟩
  | cons v ws ih => exact ih _ _

theorem getD_wordsOfVal {n i : Nat} (few : n ≤ 4) (here : i < n) (v : DWord) :
    (wordsOfVal n (v.setWidth 128)).getD i 0#32 = v.extractLsb' (32 * i) 32 := by
  have quarter : (quarters (v.setWidth 128)).getD i 0#32 = (v.setWidth 128).extractLsb' (32 * i) 32 := by
    match i, (show i < 4 by omega) with
    | 0, _ | 1, _ | 2, _ | 3, _ => rfl
  have narrow : (v.setWidth 128).extractLsb' (32 * i) 32 = v.extractLsb' (32 * i) 32 := by
    ext j hj
    simp only [BitVec.getElem_extractLsb', BitVec.getLsbD_setWidth, show 32 * i + j < 128 by omega, decide_true, Bool.true_and]
  rw [wordsOfVal, List.getD_eq_getElem?_getD, List.getElem?_take_of_lt here, ← List.getD_eq_getElem?_getD, quarter, narrow]

theorem length_wordsOfVal {n : Nat} (few : n ≤ 4) (v : BitVec 128) : (wordsOfVal n v).length = n := by
  rw [wordsOfVal, List.length_take]
  exact Nat.min_eq_left few

/-- The old value of an atomic lands in the lane's destination. -/
theorem Warp.land_value (w : Warp) {f : Flight} {lane : Nat} (old : DWord) (vector : f.dreg < 256) (few : f.nreg ≤ 4)
    (small : lane < 1024) : (w.land f lane (old.setWidth 128)).uregs = w.uregs ∧ (w.land f lane (old.setWidth 128)).preds = w.preds ∧
      ∀ r n, n < 1024 → (w.land f lane (old.setWidth 128)).getV r n =
        if n = lane ∧ f.dreg ≤ r ∧ r < f.dreg + f.nreg then old.extractLsb' (32 * (r - f.dreg)) 32 else w.getV r n := by
  rw [Warp.land, if_pos vector]
  obtain ⟨uregs, preds⟩ := Warp.regs_setV_zipIdx f.dreg lane (wordsOfVal f.nreg (old.setWidth 128)) 0 w
  refine ⟨uregs, preds, fun r n hn => ?_⟩
  rw [Warp.getV_setV_zipIdx _ small hn, length_wordsOfVal few, Nat.add_zero]
  by_cases here : n = lane ∧ f.dreg ≤ r ∧ r < f.dreg + f.nreg
  · rw [if_pos here, if_pos here, getD_wordsOfVal few (by omega)]
  · rw [if_neg here, if_neg here]

/-! ## What performing an element leaves alone -/

/-- Rings and the bytes of scratchpads are the same; the bytes `bs` have been written. -/
structure Hw.Puts (h k : Hw) (bs : List Host.Cell) : Prop where
  rings : k.rings = h.rings
  spad  : ∀ f c, (k.fcore f c).spad = (h.fcore f c).spad
  wq    : k.wq = bs ++ h.wq

/-- Registers and owed traps of a warp, and whether it is done. -/
def Warp.body (w : Warp) : Tab Word × Tab Word × Tab Mask × List Nat × List Trap × Bool :=
  (w.vregs, w.uregs, w.preds, w.empty, w.owed, w.done)

/-- The flights and the bodies of warps are the same too. -/
structure Hw.Aside (h k : Hw) (bs : List Host.Cell) : Prop extends Hw.Puts h k bs where
  flights : k.flights = h.flights
  bodies  : ∀ j, (k.warp? j).map Warp.body = (h.warp? j).map Warp.body

section
variable {h k l : Hw} {as bs : List Host.Cell}

theorem Hw.Puts.refl (h : Hw) : h.Puts h [] := ⟨rfl, fun _ _ => rfl, rfl⟩
theorem Hw.Puts.trans (a : h.Puts k as) (b : k.Puts l bs) : h.Puts l (bs ++ as) :=
  ⟨b.rings.trans a.rings, fun f c => (b.spad f c).trans (a.spad f c), by rw [b.wq, a.wq, List.append_assoc]⟩
theorem Hw.Puts.onWarp (h : Hw) (j : Nat) (g : Warp → Warp) : h.Puts (h.onWarp j g) [] := ⟨rfl, fun _ _ => rfl, rfl⟩

theorem Hw.Aside.refl (h : Hw) : h.Aside h [] := ⟨.refl h, rfl, fun _ => rfl⟩
theorem Hw.Aside.trans (a : h.Aside k as) (b : k.Aside l bs) : h.Aside l (bs ++ as) :=
  ⟨a.toPuts.trans b.toPuts, b.flights.trans a.flights, fun j => (b.bodies j).trans (a.bodies j)⟩

theorem Hw.Aside.of_keeps (a : Keeps h k) : h.Aside k [] :=
  ⟨⟨by rw [a.rest], a.spad, a.wq⟩, a.flights, fun j => by unfold Hw.warp?; rw [a.warps]⟩

/-- A monitor is no part of the body. -/
theorem body_calmWarp (w : Warp) : (calmWarp w).body = w.body := rfl
theorem Hw.Aside.of_unmarked (a : h.Unmarked k) : h.Aside k [] := by
  refine ⟨⟨by rw [a.rest], fun f c => by rw [a.rest]; rfl, by rw [a.rest]; rfl⟩, by rw [a.rest], fun j => ?_⟩
  have calm := congrArg (Option.map Warp.body) (a.calm j)
  simpa only [Option.map_map, Function.comp_def, body_calmWarp] using calm

theorem Hw.Aside.onWarp (h : Hw) (j : Nat) {g : Warp → Warp} (same : ∀ w, (g w).body = w.body) : h.Aside (h.onWarp j g) [] := by
  refine ⟨.onWarp h j g, rfl, fun n => ?_⟩
  by_cases own : n = j
  · rw [own, Hw.warp?_onWarp_same, Option.map_map]
    exact congrFun (congrArg Option.map (funext same)) _
  · rw [Hw.warp?_onWarp_other _ _ own]

theorem Hw.Aside.foldl {α : Type} {f : Hw → α → Hw} (step : ∀ (h : Hw) (x : α), h.Aside (f h x) []) (l : List α) (h : Hw) :
    h.Aside (l.foldl f h) [] :=
  List.foldlRecOn (motive := (h.Aside · [])) l f (.refl h) fun _ hk x _ => hk.trans (step _ x)

theorem Hw.Aside.putBytes (h : Hw) (pa : Nat) (l : List Byte) :
    h.Aside (h.putBytes pa l) (l.zipIdx.map fun (x : Byte × Nat) => (pa + x.2, x.1)).reverse :=
  ⟨⟨rfl, fun _ _ => rfl, rfl⟩, rfl, fun _ => rfl⟩

theorem Hw.Aside.upkeep (h : Hw) (l : List Nat) (pa : Nat) : h.Aside (h.upkeep l pa) [] := by
  unfold Hw.upkeep
  split
  · exact .refl h
  · rw [Hw.setTag_eq]
    exact ⟨⟨rfl, fun _ _ => rfl, rfl⟩, rfl, fun _ => rfl⟩

theorem Hw.Aside.forgetL1 (h : Hw) (core ctx pa n : Nat) : h.Aside (h.forgetL1 core ctx pa n) [] := by
  unfold Hw.forgetL1
  dsimp only
  split
  · exact ⟨⟨rfl, fun _ _ => rfl, rfl⟩, rfl, fun _ => rfl⟩
  · exact .refl h

theorem Hw.Aside.advance (h : Hw) (bk : Nat) : h.Aside (h.advance bk) [] := ⟨⟨rfl, fun _ _ => rfl, rfl⟩, rfl, fun _ => rfl⟩
theorem Hw.Aside.send (h : Hw) (o : Out) : h.Aside (h.send o) [] := ⟨⟨rfl, fun _ _ => rfl, rfl⟩, rfl, fun _ => rfl⟩
theorem Hw.Aside.onFn (h : Hw) (f : Nat) (g : Fn → Fn) : h.Aside (h.onFn f g) [] := ⟨⟨rfl, fun _ _ => rfl, rfl⟩, rfl, fun _ => rfl⟩

theorem Hw.Unmarked.triggerMem (h : Hw) (pa n : Nat) : h.Unmarked (h.triggerMem pa n) := .trigger h _

/-! Release records. -/

theorem Hw.Aside.putRec (h : Hw) (a : RecAt) (r : Option RelRec) : h.Aside (h.putRec a r) [] := by
  cases a with
  | mem w => exact ⟨⟨rfl, fun _ _ => rfl, rfl⟩, rfl, fun _ => rfl⟩
  | scr f c w => exact ⟨⟨rfl, Hw.spad_onFCore h f c _ rfl, rfl⟩, rfl, fun _ => rfl⟩
theorem Hw.Aside.dropRec (h : Hw) (a : RecAt) : h.Aside (h.dropRec a) [] := by
  unfold Hw.dropRec
  split
  · exact .refl h
  · exact (Hw.Aside.onFn _ _ _).trans (.putRec _ _ _)
theorem Hw.Aside.recycle (h : Hw) (fn : Nat) : h.Aside (h.recycle fn) [] := by
  unfold Hw.recycle
  dsimp only
  split
  · exact .refl h
  · split
    · exact .refl h
    · split
      · exact .onFn _ _ _
      · exact (Hw.Aside.onFn _ _ _).trans (.putRec _ _ _)
theorem Hw.Aside.attach (h : Hw) (a : RecAt) (r : RelRec) (rmw : Bool) : h.Aside (h.attach a r rmw) [] := by
  unfold Hw.attach
  exact (((Hw.Aside.dropRec h a).trans (.recycle _ r.fn)).trans (.onFn _ r.fn _)).trans (.putRec _ a _)
theorem Hw.Aside.attachAll (h : Hw) (l : List RecAt) (r : RelRec) (rmw : Bool) : h.Aside (h.attachAll l r rmw) [] :=
  .foldl (fun h a => .attach h a r rmw) l h
end

/-! ## An element performed -/

section
variable {s : State} {h : Hw} {x : Elem} {pa : Nat}

/-- What the home of an element's address does for it, and the access that its lane remembers. -/
def Hw.elementBegun (h : Hw) (x : Elem) (pa : Nat) : Hw :=
  let g := h.atHome ⟨x.ctx, (x.chint.extractLsb' 0 2).toNat, x.leaf, x.far⟩ pa true
  let g := if x.host then g else g.forgetL1 x.core x.ctx pa x.op.size
  if x.ret.isNone then g else g.onWarp x.wk fun w =>
    if w.done then w else { w with sync := Tab.put w.sync x.lane ((recWords x.fn x.loc x.op.size).filterMap g.recAt) }

/-- The new value written. -/
def Hw.elementWritten (h : Hw) (x : Elem) (pa : Nat) (v : Option DWord) : Hw :=
  match v with
  | none => h
  | some v => ((h.upkeep x.declared pa).putBytes pa (natLe x.op.size v.toNat)).triggerMem pa x.op.size

/-- Its release attached, and its interval closed. -/
def Hw.elementReleased (h : Hw) (x : Elem) : Hw :=
  let h := match x.rel with
    | some r => h.attachAll (recWords x.fn x.loc x.op.size) r true
    | none => h
  if x.closes then h.advance (wkBlock x.wk) else h

/-- The old value sent to the host or to its lane. -/
def Hw.elementAnswered (h : Hw) (x : Elem) (pa : Nat) (old : DWord) : Hw :=
  if x.host then (h.clearMarks pa x.op.size).send (.data (natLe x.op.size old.toNat))
  else match x.ret with
    | some id => h.reply id x.lane old
    | none => h

/-- The value that an element finds. -/
def Hw.elementOld (h : Hw) (e : Env) (x : Elem) (pa : Nat) : DWord := BitVec.ofNat 64 (leNat (h.homeBytes e pa x.op.size))

theorem Hw.element_eq (e : Env) (memory : x.loc = .mem pa) : h.element e x =
    (((h.elementBegun x pa).elementWritten x pa (x.op.apply x.rmode x.nbv (h.elementOld e x pa) x.b x.cmp)).elementReleased x).elementAnswered
      x pa (h.elementOld e x pa) := by
  unfold Hw.element Hw.elementBegun Hw.elementWritten Hw.elementReleased Hw.elementAnswered Hw.elementOld
  simp only [memory] <;> rfl

theorem Hw.aside_elementBegun (h : Hw) (x : Elem) (pa : Nat) : h.Aside (h.elementBegun x pa) [] := by
  unfold Hw.elementBegun
  dsimp only
  have home := Hw.Aside.of_keeps (Keeps.atHome h ⟨x.ctx, (x.chint.extractLsb' 0 2).toNat, x.leaf, x.far⟩ pa true)
  have forgets : h.Aside (if x.host then h.atHome ⟨x.ctx, (x.chint.extractLsb' 0 2).toNat, x.leaf, x.far⟩ pa true
      else (h.atHome ⟨x.ctx, (x.chint.extractLsb' 0 2).toNat, x.leaf, x.far⟩ pa true).forgetL1 x.core x.ctx pa x.op.size) [] := by
    split
    · exact home
    · exact home.trans (.forgetL1 _ _ _ _ _)
  split
  · exact forgets
  · refine forgets.trans (.onWarp _ _ fun w => ?_)
    split <;> rfl

theorem Hw.aside_elementReleased (h : Hw) (x : Elem) : h.Aside (h.elementReleased x) [] := by
  unfold Hw.elementReleased
  dsimp only
  have attached : h.Aside (match x.rel with
      | some r => h.attachAll (recWords x.fn x.loc x.op.size) r true
      | none => h) [] := by
    split
    · exact .attachAll _ _ _ _
    · exact .refl h
  split
  · exact attached.trans (.advance _ _)
  · exact attached

theorem Hw.aside_elementWritten (h : Hw) (x : Elem) (pa : Nat) (v : Option DWord) : ∃ bs, h.Aside (h.elementWritten x pa v) bs := by
  cases v with
  | none => exact ⟨_, .refl h⟩
  | some v =>
    exact ⟨_, ((Hw.Aside.upkeep h x.declared pa).trans (.putBytes _ pa (natLe x.op.size v.toNat))).trans
      (.of_unmarked (.triggerMem _ pa x.op.size))⟩

/-- The bytes of its value, and no others, are written. -/
theorem Hw.byte_elementWritten (h : Hw) (e : Env) (x : Elem) (pa : Nat) (v : Option DWord) (a : Nat) :
    (h.elementWritten x pa v).byte e a = if pa ≤ a ∧ a < pa + x.op.size then
      match v.map fun v => natLe x.op.size v.toNat with
      | some l => l.getD (a - pa) 0#8
      | none => h.byte e a
      else h.byte e a := by
  cases v with
  | none => exact (ite_self _).symm
  | some v =>
    have put : (h.elementWritten x pa (some v)).byte e a = ((h.upkeep x.declared pa).putBytes pa (natLe x.op.size v.toNat)).byte e a := rfl
    rw [put, Hw.byte_putBytes, length_natLe, Hw.byte_of_wq e (Hw.wq_upkeep _ _ _)]
    rfl

/-! The reply. -/

theorem Hw.puts_reply (h : Hw) (id lane : Nat) (old : DWord) : h.Puts (h.reply id lane old) [] := by
  unfold Hw.reply
  split
  · exact .refl h
  · dsimp only
    split
    · split
      · exact ⟨rfl, fun _ _ => rfl, rfl⟩
      · unfold Hw.landed
        split <;> exact ⟨rfl, fun _ _ => rfl, rfl⟩
    · exact ⟨rfl, fun _ _ => rfl, rfl⟩

theorem body_unhold (w : Warp) (id : Nat) : (w.unhold id).body = w.body := rfl

theorem Hw.bodies_landed (h : Hw) (id j : Nat) : ((h.landed id).warp? j).map Warp.body = (h.warp? j).map Warp.body := by
  unfold Hw.landed
  split
  · rfl
  · next f _ =>
    exact (Hw.Aside.onWarp { h with flights := Tab.del h.flights id } f.wk
      (g := fun w => { (w.unhold id) with replayFirst := w.replayFirst.filter (· != id) }) fun _ => rfl).bodies j

/-- Of warps it changes, apart from what a path waits for, the destination of the lane. -/
theorem Hw.bodies_reply {f : Flight} {id : Nat} (flight : Tab.find? h.flights id = some f) (lane : Nat) (old : DWord) (j : Nat) :
    ((h.reply id lane old).warp? j).map Warp.body =
      ((h.onWarp f.wk fun w => w.land f lane (old.setWidth 128)).warp? j).map Warp.body := by
  unfold Hw.reply
  simp only [flight]
  split
  · split
    · exact (Hw.Aside.onWarp _ _ fun w => body_unhold w id).bodies j
    · exact Hw.bodies_landed _ id j
  · rfl

theorem Hw.bodies_onWarp_same (h : Hw) (j : Nat) (g : Warp → Warp) : ((h.onWarp j g).warp? j).map Warp.body =
    (h.warp? j).map fun w => (g w).body := by
  rw [Hw.warp?_onWarp_same, Option.map_map]
  rfl

theorem Warp.land_owed (w : Warp) (f : Flight) (lane : Nat) (v : BitVec 128) : (w.land f lane v).owed = w.owed := by
  unfold Warp.land
  split
  · exact List.foldlRecOn (motive := fun u : Warp => u.owed = w.owed) _ _ rfl fun _ hu _ _ => hu
  · split
    · split
      · rw [Warp.writeU_eq]
      · rfl
    · rfl

theorem Hw.owed_reply (h : Hw) (id lane : Nat) (old : DWord) (j : Nat) :
    ((h.reply id lane old).warp? j).map Warp.owed = (h.warp? j).map Warp.owed := by
  cases flight : Tab.find? h.flights id with
  | none => simp only [Hw.reply, flight]
  | some f =>
    have bodies := congrArg (Option.map fun b : Tab Word × Tab Word × Tab Mask × List Nat × List Trap × Bool => b.2.2.2.2.1)
      (Hw.bodies_reply flight lane old j)
    simp only [Option.map_map] at bodies
    refine bodies.trans ?_
    by_cases own : j = f.wk
    · rw [own, Hw.warp?_onWarp_same, Option.map_map]
      exact congrFun (congrArg Option.map (funext fun w => w.land_owed f lane _)) _
    · rw [Hw.warp?_onWarp_other _ _ own]
      rfl

theorem Hw.puts_elementAnswered (h : Hw) (x : Elem) (pa : Nat) (old : DWord) : h.Puts (h.elementAnswered x pa old) [] := by
  unfold Hw.elementAnswered
  split
  · exact ((Hw.Aside.of_unmarked (.clearMarks h pa _)).trans (.send _ _)).toPuts
  · split
    · exact Hw.puts_reply h _ _ _
    · exact .refl h

/-- An element on a poisoned line writes nothing. -/
theorem Hw.puts_elementFails (h : Hw) (x : Elem) : h.Puts (h.elementFails x) [] := by
  have closed : h.Puts ((if x.closes then h.advance (wkBlock x.wk) else h).onWarp x.wk fun w => if w.done then w else
      { w with owed := w.owed ++ [⟨BitVec.ofNat 64 cECC, x.pc, x.va, if x.path then 1#64 else 0#64, 0#64⟩] }) [] := by
    split
    · exact (Hw.Aside.advance h _).toPuts.trans (.onWarp _ _ _)
    · exact .onWarp _ _ _
  unfold Hw.elementFails
  split
  · exact (Hw.Aside.send h _).toPuts
  · dsimp only
    split
    · split
      · exact closed.trans (Hw.puts_reply _ _ _ _)
      · exact closed
    · exact closed

/-! ## RETRIEVER_ELEMENT -/

variable {xs : List Elem}

/-- The oldest element is performed, or fails. -/
def Hw.elementTaken (h : Hw) (e : Env) (x : Elem) (pa : Nat) : Hw :=
  if h.poison.contains (lineOf pa) then (h.onRing h.occ.unit Ring.shift).elementFails x else (h.onRing h.occ.unit Ring.shift).element e x

theorem retrieverElement_waits {e : Env} (queue : (h.ring h.occ.unit).retq = x :: xs) (memory : x.loc = .mem pa)
    (waits : h.waitsOnWay x.ctx (h.occ.unit / 5) x.leaf pa = true ∨
      x.ticket.isSome = true ∧ h.lineHeld (x.ticket.getD h.nextId) (lineOf pa) = true) :
    retrieverElement e h = h.planOn .retrieverElement h.occ.unit := by
  simp only [retrieverElement, queue, memory]
  split
  · rfl
  · next free =>
    obtain ⟨ticket, held⟩ := waits.resolve_left free
    obtain ⟨n, ticket⟩ := Option.isSome_iff_exists.mp ticket
    rw [ticket] at held
    simp only [ticket, held, ↓reduceIte]

theorem retrieverElement_joins {e : Env} (queue : (h.ring h.occ.unit).retq = x :: xs) (memory : x.loc = .mem pa)
    (free : h.waitsOnWay x.ctx (h.occ.unit / 5) x.leaf pa = false) (first : x.ticket = none)
    (held : h.lineHeld h.nextId (lineOf pa) = true) : ∃ k, h.countersOnly k ∧
      retrieverElement e h = (({ k with nextId := k.nextId + 1 }.onRing h.occ.unit fun g =>
        { g with retq := { x with ticket := some k.nextId } :: g.retq.tail }).planOn .retrieverElement h.occ.unit) := by
  refine ⟨h.countHeld (fnOfCtx x.ctx) x.ctx [⟨x.lane, x.va, x.op.size, x.loc, x.leaf⟩], ?_, ?_⟩
  · refine Hw.countersOnly_foldl _ (fun k a => ?_) _ h
    split
    · exact Hw.count_fn_out _ _ _ _ _ _ _
    · exact Hw.countersOnly_refl _
  · simp only [retrieverElement, queue, memory, free, first, Option.getD_none, held, Bool.false_eq_true, ↓reduceIte]

theorem retrieverElement_takes {e : Env} (queue : (h.ring h.occ.unit).retq = x :: xs) (memory : x.loc = .mem pa)
    (free : h.waitsOnWay x.ctx (h.occ.unit / 5) x.leaf pa = false) (open_ : h.lineHeld (x.ticket.getD h.nextId) (lineOf pa) = false) :
    ∃ k, retrieverElement e h = k ∧ k.rings = (h.elementTaken e x pa).rings ∧ k.fcores = (h.elementTaken e x pa).fcores ∧
      k.warps = (h.elementTaken e x pa).warps ∧ k.out = (h.elementTaken e x pa).out ∧ k.wq = (h.elementTaken e x pa).wq := by
  have takes : retrieverElement e h =
      ((h.elementTaken e x pa).heat x.ctx x.va x.leaf pa (if x.host then 4 else dieOf x.core)).moved := by
    simp only [retrieverElement, queue, memory, free, open_, Bool.false_eq_true, ↓reduceIte]
    rfl
  exact ⟨_, takes, rfl, rfl, rfl, rfl, rfl⟩

theorem Ring.shift_queues {g : Ring} (queue : g.retq = x :: xs) : g.shift.retq = xs ++ g.pend.take 1 ∧ g.shift.pend = g.pend.drop 1 := by
  unfold Ring.shift
  split
  · next none_ => simp [queue, none_]
  · next y ys some_ => simp [queue, some_]

/-! ## What the step leaves -/

theorem elementOld_eq (unwritten : h.wq = []) : h.elementOld (env s) x pa =
    BitVec.ofNat 64 (leNat ((List.range x.op.size).map fun j => asRead s (pa + j) (s.byte (pa + j)))) := by
  have home (a : Nat) : h.homeByte (env s) a = asRead s a (s.byte a) := by
    rw [Hw.homeByte, Hw.byte_of_unwritten unwritten]
    rfl
  simp only [Hw.elementOld, Hw.homeBytes, home]

/-- The package once an element's value is written and its release attached. -/
def Hw.elementDone (h : Hw) (e : Env) (x : Elem) (pa : Nat) : Hw :=
  ((h.elementBegun x pa).elementWritten x pa (x.op.apply x.rmode x.nbv (h.elementOld e x pa) x.b x.cmp)).elementReleased x

theorem Hw.aside_elementDone (h : Hw) (e : Env) (x : Elem) (pa : Nat) : ∃ bs, h.Aside (h.elementDone e x pa) bs := by
  obtain ⟨bs, written⟩ := (h.elementBegun x pa).aside_elementWritten x pa (x.op.apply x.rmode x.nbv (h.elementOld e x pa) x.b x.cmp)
  exact ⟨_, ((h.aside_elementBegun x pa).trans written).trans (Hw.aside_elementReleased _ x)⟩

/-- Memory holds the value of Table 14.5 at the element's address, and is as it was elsewhere. -/
theorem Hw.byte_elementDone (unwritten : h.wq = []) (a : Nat) : (h.elementDone (env s) x pa).byte (env s) a =
    if pa ≤ a ∧ a < pa + x.op.size then
      match rmw x.op (x.rmode.toNat % 8) (x.nbv.toNat % 4) (h.elementOld (env s) x pa) x.b x.cmp with
      | some v => BitVec.ofNat 8 (v.toNat / 256 ^ (a - pa))
      | none => s.byte a
      else s.byte a := by
  have begun : (h.elementBegun x pa).byte (env s) a = s.byte a :=
    (Hw.byte_of_wq _ (h.aside_elementBegun x pa).wq a).trans (Hw.byte_of_unwritten unwritten a)
  rw [Hw.elementDone, Hw.byte_of_wq _ (Hw.aside_elementReleased _ x).wq, Hw.byte_elementWritten, begun, apply_eq_rmw]
  by_cases within : pa ≤ a ∧ a < pa + x.op.size
  · rw [if_pos within, if_pos within]
    cases rmw x.op (x.rmode.toNat % 8) (x.nbv.toNat % 4) (h.elementOld (env s) x pa) x.b x.cmp with
    | none => rfl
    | some v => exact getD_natLe _ (by omega)
  · rw [if_neg within, if_neg within]

theorem Warp.getV_of_body {w v : Warp} (same : w.body = v.body) (r n : Nat) : w.getV r n = v.getV r n :=
  congrArg (Tab.getD · (1024 * r + n) 0#32) (congrArg Prod.fst same)

/-- The old value has landed in the lane's destination. -/
theorem Hw.lands_elementAnswered {old : DWord} {id : Nat} {f : Flight} {v : Warp} (ours : x.host = false) (back : x.ret = some id)
    (flight : Tab.find? h.flights id = some f) (vector : f.dreg < 256) (few : f.nreg ≤ 4) (small : x.lane < 1024)
    (warp : (h.warp? f.wk).map Warp.body = some v.body) : ∃ w, (h.elementAnswered x pa old).warp? f.wk = some w ∧ w.uregs = v.uregs ∧
      w.preds = v.preds ∧ ∀ r n, n < 1024 → w.getV r n =
        if n = x.lane ∧ f.dreg ≤ r ∧ r < f.dreg + f.nreg then old.extractLsb' (32 * (r - f.dreg)) 32 else v.getV r n := by
  obtain ⟨u, there, body⟩ := Option.map_eq_some_iff.mp warp
  have answered : h.elementAnswered x pa old = h.reply id x.lane old := by
    simp only [Hw.elementAnswered, ours, back, Bool.false_eq_true, ↓reduceIte]
  have landed := Hw.bodies_reply flight x.lane old f.wk
  rw [Hw.warp?_onWarp_same, there, Option.map_some, Option.map_some] at landed
  obtain ⟨w, there, same⟩ := Option.map_eq_some_iff.mp landed
  obtain ⟨uregs, preds, regs⟩ := u.land_value old vector few small
  simp only [Warp.body, Prod.mk.injEq] at same body
  obtain ⟨vregs', uregs', preds', -⟩ := same
  obtain ⟨vregs'', uregs'', preds'', -⟩ := body
  refine ⟨w, answered ▸ there, by rw [uregs', uregs, uregs''], by rw [preds', preds, preds''], fun r n hn => ?_⟩
  rw [Warp.getV, vregs', ← Warp.getV, regs r n hn, Warp.getV, Warp.getV, vregs'']

/-- Without a flight that takes a reply every warp's body stays. -/
theorem Hw.bodies_elementAnswered {old : DWord} (none_ : x.ret = none) (j : Nat) :
    ((h.elementAnswered x pa old).warp? j).map Warp.body = (h.warp? j).map Warp.body := by
  unfold Hw.elementAnswered
  split
  · exact ((Hw.Aside.of_unmarked (.clearMarks h pa _)).trans (.send _ _)).bodies j
  · rw [none_]

/-- A warp that is not done owes ECC once its element has failed. -/
theorem Hw.owed_elementFails {v : Warp} (ours : x.host = false) (warp : h.warp? x.wk = some v) (live : v.done = false) :
    ((h.elementFails x).warp? x.wk).map (fun w => w.owed.map fun o => (o.c, o.pc, o.a)) =
      some (v.owed.map (fun o => (o.c, o.pc, o.a)) ++ [(BitVec.ofNat 64 cECC, x.pc, x.va)]) := by
  set g : Warp → Warp := fun w => if w.done then w else
    { w with owed := w.owed ++ [⟨BitVec.ofNat 64 cECC, x.pc, x.va, if x.path then 1#64 else 0#64, 0#64⟩] } with hg
  set k : Hw := (if x.closes then h.advance (wkBlock x.wk) else h).onWarp x.wk g with hk
  have owed : (k.warp? x.wk).map Warp.owed =
      some (v.owed ++ [⟨BitVec.ofNat 64 cECC, x.pc, x.va, if x.path then 1#64 else 0#64, 0#64⟩]) := by
    have before : (if x.closes then h.advance (wkBlock x.wk) else h).warp? x.wk = some v := by
      split
      · exact warp
      · exact warp
    rw [hk, Hw.warp?_onWarp_same, before, Option.map_some, Option.map_some, hg]
    simp only [live, Bool.false_eq_true, ↓reduceIte]
  have replied : ((h.elementFails x).warp? x.wk).map Warp.owed = (k.warp? x.wk).map Warp.owed := by
    unfold Hw.elementFails
    simp only [ours, Bool.false_eq_true, ↓reduceIte]
    split
    · split
      · exact Hw.owed_reply _ _ _ _ _
      · rfl
    · rfl
  have shown (o : Option Warp) : o.map (fun w => w.owed.map fun o => (o.c, o.pc, o.a)) =
      (o.map Warp.owed).map fun l => l.map fun o => (o.c, o.pc, o.a) := by cases o <;> rfl
  rw [shown, replied, owed, Option.map_some, List.map_append]
  rfl

theorem Hw.element_eq_answered (e : Env) (memory : x.loc = .mem pa) :
    h.element e x = (h.elementDone e x pa).elementAnswered x pa (h.elementOld e x pa) := Hw.element_eq e memory

/-- The queues and scratchpads once the oldest element has been taken. -/
theorem Hw.puts_elementTaken (h : Hw) (e : Env) (memory : x.loc = .mem pa) :
    ∃ bs, (h.onRing h.occ.unit Ring.shift).Puts (h.elementTaken e x pa) bs := by
  unfold Hw.elementTaken
  split
  · exact ⟨_, Hw.puts_elementFails _ x⟩
  · rw [Hw.element_eq_answered e memory]
    obtain ⟨bs, done⟩ := (h.onRing h.occ.unit Ring.shift).aside_elementDone e x pa
    exact ⟨_, done.toPuts.trans (Hw.puts_elementAnswered _ x pa _)⟩

theorem Hw.ring_of_puts {bs : List Host.Cell} (a : h.Puts k bs) (r : Nat) : k.ring r = h.ring r := congrArg (Tab.getD · r Ring.reset) a.rings

theorem retriever_joins (inv : s.Inv) (queue : (s.hw.ring s.hw.occ.unit).retq = x :: xs) (memory : x.loc = .mem pa)
    (free : s.hw.waitsOnWay x.ctx (s.hw.occ.unit / 5) x.leaf pa = false) (first : x.ticket = none)
    (held : s.hw.lineHeld s.hw.nextId (lineOf pa) = true) :
    ∃ t, exec .retrieverElement s = .next t ∧ t.mem = s.mem ∧ t.clk = s.clk ∧ t.hw.warps = s.hw.warps ∧
      (t.hw.ring s.hw.occ.unit).retq = { x with ticket := some s.hw.nextId } :: xs ∧
      Planned t .retrieverElement { Occasion.none with unit := s.hw.occ.unit } := by
  obtain ⟨k, counts, joins⟩ := retrieverElement_joins (e := env s) queue memory free first held
  obtain ⟨rest, -⟩ := counts
  have ring : k.ring s.hw.occ.unit = s.hw.ring s.hw.occ.unit := by rw [rest]; rfl
  have id : k.nextId = s.hw.nextId := by rw [rest]
  have unwritten : k.wq = [] := by rw [rest]; exact inv.2
  have warps : k.warps = s.hw.warps := by rw [rest]
  refine ⟨_, (show exec .retrieverElement s = s.event retrieverElement from rfl).trans (event_eq_after joins),
    State.mem_after unwritten, rfl, warps, ?_, List.mem_append_right _ (List.mem_singleton_self _)⟩
  refine (congrArg Ring.retq (Tab.getD_put_same k.rings s.hw.occ.unit _ Ring.reset)).trans ?_
  show { x with ticket := some k.nextId } :: (k.ring s.hw.occ.unit).retq.tail = _
  rw [ring, queue, id]
  rfl

/-- The old value, as the obligation writes it. -/
def oldValue (s : State) (x : Elem) (pa : Nat) : DWord :=
  BitVec.ofNat 64 (leNat ((List.range x.op.size).map fun j => asRead s (pa + j) (s.byte (pa + j))))

theorem retriever_takes (inv : s.Inv) (queue : (s.hw.ring s.hw.occ.unit).retq = x :: xs) (memory : x.loc = .mem pa)
    (free : s.hw.waitsOnWay x.ctx (s.hw.occ.unit / 5) x.leaf pa = false)
    (open_ : s.hw.lineHeld (x.ticket.getD s.hw.nextId) (lineOf pa) = false) :
    ∃ t, exec .retrieverElement s = .next t ∧ t.clk = s.clk ∧
      (t.hw.ring s.hw.occ.unit).retq = xs ++ (s.hw.ring s.hw.occ.unit).pend.take 1 ∧
      (t.hw.ring s.hw.occ.unit).pend = (s.hw.ring s.hw.occ.unit).pend.drop 1 ∧
      (∀ r, r ≠ s.hw.occ.unit → (t.hw.ring r).retq = (s.hw.ring r).retq) ∧
      (∀ f c, (t.hw.fcore f c).spad = (s.hw.fcore f c).spad) ∧
      (s.hw.poison.contains (lineOf pa) = true → t.mem = s.mem ∧ (x.host = false → ∀ v, s.hw.warp? x.wk = some v → v.done = false →
        (t.hw.warp? x.wk).map (fun w => w.owed.map fun o => (o.c, o.pc, o.a)) =
          some (v.owed.map (fun o => (o.c, o.pc, o.a)) ++ [(BitVec.ofNat 64 cECC, x.pc, x.va)]))) ∧
      (s.hw.poison.contains (lineOf pa) = false →
        (∀ a, t.byte a = if pa ≤ a ∧ a < pa + x.op.size then
          match rmw x.op (x.rmode.toNat % 8) (x.nbv.toNat % 4) (oldValue s x pa) x.b x.cmp with
          | some v => BitVec.ofNat 8 (v.toNat / 256 ^ (a - pa))
          | none => s.byte a
          else s.byte a) ∧
        (x.host = true → t.hw.out.head? = some (.data (natLe x.op.size (oldValue s x pa).toNat))) ∧
        (∀ k, x.ret = none → (t.hw.warp? k).map (fun w => (w.vregs, w.uregs, w.preds, w.empty)) =
          (s.hw.warp? k).map fun w => (w.vregs, w.uregs, w.preds, w.empty)) ∧
        ∀ id f v, x.host = false → x.ret = some id → Tab.find? s.hw.flights id = some f → f.dreg < 256 → f.nreg ≤ 4 → x.lane < 1024 →
          s.hw.warp? f.wk = some v →
          ∃ w, t.hw.warp? f.wk = some w ∧ w.uregs = v.uregs ∧ w.preds = v.preds ∧ ∀ r n, n < 1024 → w.getV r n =
            if n = x.lane ∧ f.dreg ≤ r ∧ r < f.dreg + f.nreg then (oldValue s x pa).extractLsb' (32 * (r - f.dreg)) 32 else v.getV r n) := by
  obtain ⟨k, takes, rings, fcores, warps, out, wq⟩ := retrieverElement_takes (e := env s) queue memory free open_
  obtain ⟨bs, puts⟩ := s.hw.puts_elementTaken (env s) memory
  have unwritten : (s.hw.onRing s.hw.occ.unit Ring.shift).wq = [] := inv.2
  obtain ⟨retq, pend⟩ := Ring.shift_queues queue
  have ring (r : Nat) : k.ring r = if r = s.hw.occ.unit then (s.hw.ring s.hw.occ.unit).shift else s.hw.ring r :=
    (congrArg (Tab.getD · r Ring.reset) rings).trans ((Hw.ring_of_puts puts r).trans (Hw.ring_onRing _ _ _ _))
  have fcore (f c : Nat) : k.fcore f c = (s.hw.elementTaken (env s) x pa).fcore f c := congrArg (Tab.getD · (fcKey f c) FCore.reset) fcores
  have warp (j : Nat) : k.warp? j = (s.hw.elementTaken (env s) x pa).warp? j := congrArg (Tab.find? · j) warps
  refine ⟨s.after k, (show exec .retrieverElement s = s.event retrieverElement from rfl).trans (event_eq_after takes), rfl, ?_, ?_,
    fun r other => ?_, fun f c => ?_, fun poisoned => ?_, fun sound => ?_⟩
  · exact (congrArg Ring.retq ((ring _).trans (if_pos rfl))).trans retq
  · exact (congrArg Ring.pend ((ring _).trans (if_pos rfl))).trans pend
  · exact congrArg Ring.retq ((ring r).trans (if_neg other))
  · exact (congrArg FCore.spad (fcore f c)).trans (puts.spad f c)
  · have fails : s.hw.elementTaken (env s) x pa = (s.hw.onRing s.hw.occ.unit Ring.shift).elementFails x := if_pos poisoned
    refine ⟨State.mem_after ?_, fun ours v there live => ?_⟩
    · rw [wq, fails, (Hw.puts_elementFails _ x).wq]
      exact unwritten
    · rw [State.after_warp?, warp, fails]
      exact Hw.owed_elementFails ours there live
  · have old := elementOld_eq (s := s) (x := x) (pa := pa) unwritten
    obtain ⟨cs, done⟩ := (s.hw.onRing s.hw.occ.unit Ring.shift).aside_elementDone (env s) x pa
    have taken : s.hw.elementTaken (env s) x pa = ((s.hw.onRing s.hw.occ.unit Ring.shift).elementDone (env s) x pa).elementAnswered x pa
        (oldValue s x pa) :=
      (if_neg (by rw [sound]; exact Bool.false_ne_true)).trans (by rw [Hw.element_eq_answered (env s) memory, old]; rfl)
    refine ⟨fun a => ?_, fun host => ?_, fun j none_ => ?_, fun id f v ours back flight vector few small there => ?_⟩
    · have byte := Hw.byte_elementDone (s := s) (x := x) (pa := pa) unwritten a
      rw [old] at byte
      refine (State.byte_after _ _ _).trans (Eq.trans ?_ byte)
      rw [Hw.byte_of_wq _ wq, taken]
      exact Hw.byte_of_wq _ (Hw.puts_elementAnswered _ x pa _).wq a
    · show k.out.head? = _
      rw [out, taken, Hw.elementAnswered, if_pos host]
      rfl
    · have bodies := (Hw.bodies_elementAnswered (pa := pa) (old := oldValue s x pa) none_ j).trans (done.bodies j)
      rw [← taken] at bodies
      have shown (o : Option Warp) : o.map (fun w => (w.vregs, w.uregs, w.preds, w.empty)) =
          (o.map Warp.body).map fun b => (b.1, b.2.1, b.2.2.1, b.2.2.2.1) := by cases o <;> rfl
      rw [shown, shown, State.after_warp?, warp]
      exact congrArg _ bodies
    · rw [State.after_warp?, warp, taken]
      refine Hw.lands_elementAnswered ours back ?_ vector few small ?_
      · rw [done.flights]
        exact flight
      · rw [done.bodies]
        exact congrArg _ there
end

/-- Settles O21: the element waits, takes a ticket, fails, or is performed. -/
theorem retrieverPerformsOneElement : Obligations.RetrieverPerformsOneElement := by
  unfold Obligations.RetrieverPerformsOneElement
  refine ⟨fun s inv empty => ?_, fun s x xs pa inv queue memory waits => ?_,
    fun s x xs pa inv queue memory free first held => retriever_joins inv queue memory free first held,
    fun s x xs pa inv queue memory free open_ => retriever_takes inv queue memory free open_⟩
  · have still : retrieverElement (env s) s.hw = s.hw := by simp only [retrieverElement, empty]
    exact (show exec .retrieverElement s = s.event retrieverElement from rfl).trans (event_eq_next still inv.2)
  · exact (show exec .retrieverElement s = s.event retrieverElement from rfl).trans
      (event_eq_next (retrieverElement_waits (e := env s) queue memory waits) inv.2)

end Sys2Proof.Machine
end

section
/-! # Write-backs

What WRITE_BACK_MERGE leaves: a line's dirty bytes in memory, and the line gone from the L1 (R186). -/
namespace Sys2Proof.Machine

open Sys2Proof.Terms

/-! ## A home leaves every L1 alone -/

section
variable (h : Hw)

@[simp] theorem Hw.cores_count (f cls unit ev reason n : Nat) : (h.count f cls unit ev reason n).cores = h.cores := by
  rw [(Hw.count_fn_out h f cls unit ev reason n).1]
@[simp] theorem Hw.cores_peerFrames : h.peerFrames.cores = h.cores := by
  rw [Hw.peerFrames, Hw.cores_count]
  rfl
@[simp] theorem Hw.cores_writtenOut (x : L2Line) : (h.writtenOut x).cores = h.cores := by
  unfold Hw.writtenOut
  split
  · rfl
  · split
    · exact h.cores_count _ _ _ _ _ _
    · exact h.cores_peerFrames
    · rfl
@[simp] theorem Hw.cores_takePointer (n line : Nat) : (Hw.takePointer n h line).cores = h.cores := by
  induction n generalizing h with
  | zero => rfl
  | succ n ih =>
    unfold Hw.takePointer
    dsimp only
    split
    · rfl
    · split
      · exact Hw.cores_count _ _ _ _ _ _ _
      · split
        · exact ih _
        · rfl
@[simp] theorem Hw.cores_leaveL2 (line : Nat) : (h.leaveL2 line).cores = h.cores := by
  unfold Hw.leaveL2
  split
  · rfl
  · exact h.cores_takePointer _ line
@[simp] theorem Hw.cores_evicted (v : L2Line) : (h.evicted v).cores = h.cores := by
  unfold Hw.evicted
  dsimp only
  split
  · exact h.cores_writtenOut v
  · rw [Hw.cores_leaveL2, Hw.cores_writtenOut]
@[simp] theorem Hw.cores_takenOut (line : Nat) : (h.takenOut line).cores = h.cores :=
  List.foldlRecOn (motive := fun k : Hw => k.cores = h.cores) _ _ rfl fun k hk v _ => (k.cores_evicted v).trans hk
/-- What a home counts of an access. -/
theorem Hw.cores_homeCounts (f slice pa : Nat) (hit : Bool) :
    (if hit then h.count f 1 slice 0x10 0 1
    else if paKind pa = .hbm then ((h.count f 1 slice 0x10 0 1).count f 1 slice 0x11 0 1).count f 2 (chanOf pa) 0x20 0 2
    else if paKind pa = .peer then ((h.count f 1 slice 0x10 0 1).count f 1 slice 0x11 0 1).peerFrames
    else (h.count f 1 slice 0x10 0 1).count f 1 slice 0x11 0 1).cores = h.cores := by
  split
  · simp
  · split
    · simp
    · split <;> simp
@[simp] theorem Hw.cores_touchHome (q : HomeReq) (pa : Nat) (w : Bool) : (h.touchHome q pa w).cores = h.cores := by
  unfold Hw.touchHome
  dsimp only
  generalize past : (if (paKind pa == PaKind.host && w && !q.leaf.hwb) = true then h.takenOut (lineOf pa) else h) = m
  have before : m.cores = h.cores := by
    subst past
    split
    · exact h.cores_takenOut _
    · rfl
  generalize (if (m.hostHome q.leaf pa || _) = true then (m.l2, (none : Option L2Line), false) else _) = r
  obtain ⟨l2, ev, hit⟩ := r
  refine Eq.trans ?_ before
  cases ev with
  | none => exact Hw.cores_homeCounts _ _ _ _ _
  | some v => exact (Hw.cores_homeCounts _ _ _ _ _).trans (Hw.cores_evicted _ v)
@[simp] theorem Hw.cores_atHome (q : HomeReq) (pa : Nat) (w : Bool) : (h.atHome q pa w).cores = h.cores := by
  unfold Hw.atHome
  split
  · split
    · exact h.cores_peerFrames
    · rfl
  · exact h.cores_touchHome q pa w
end

/-! ## A line written back -/

theorem Tab.find?_append {α : Type} (a b : Tab α) (k : Nat) : Tab.find? (a ++ b) k = (Tab.find? a k).or (Tab.find? b k) := by
  induction a with
  | nil => rfl
  | cons x a ih =>
    obtain ⟨j, v⟩ := x
    by_cases here : j = k
    · simp [Tab.find?, here]
    · simpa [Tab.find?, here] using ih

/-- The bytes of a line that are dirty. -/
theorem find?_filterMap_bytes (base : Nat) (d : Nat → Bool) (g : Nat → Byte) (ks : List Nat) (x : Nat) :
    Tab.find? (ks.filterMap fun k => if d k then some (base + k, g k) else none) x =
      if base ≤ x ∧ x - base ∈ ks ∧ d (x - base) = true then some (g (x - base)) else none := by
  induction ks with
  | nil => rw [if_neg (by simp)]; rfl
  | cons k ks ih =>
    rw [List.filterMap_cons]
    by_cases dirty : d k = true
    · simp only [dirty, ↓reduceIte, Tab.find?]
      by_cases here : base + k = x
      · rw [if_pos here, if_pos ⟨by omega, by simp [← here], by simpa [← here] using dirty⟩]
        simp [← here]
      · rw [if_neg here, ih]
        have apart : base ≤ x → x - base ≠ k := by omega
        congr 1
        simp only [List.mem_cons, eq_iff_iff]
        exact ⟨fun ⟨le, m, y⟩ => ⟨le, .inr m, y⟩, fun ⟨le, m, y⟩ => ⟨le, m.resolve_left (apart le), y⟩⟩
    · simp only [dirty, Bool.false_eq_true, ↓reduceIte, ih]
      have apart : d (x - base) = true → x - base ≠ k := fun yes same => dirty (same ▸ yes)
      congr 1
      simp only [List.mem_cons, eq_iff_iff]
      exact ⟨fun ⟨le, m, y⟩ => ⟨le, .inr m, y⟩, fun ⟨le, m, y⟩ => ⟨le, m.resolve_left (apart y), y⟩⟩

theorem L1Line.find?_dirtyBytes (l : L1Line) (line x : Nat) : Tab.find? (l.dirtyBytes line) x =
    if lineOf x = line ∧ l.dirty.getLsbD (x % 128) = true then some (Tab.getD l.bytes (x % 128) 0#8) else none := by
  refine (find?_filterMap_bytes (128 * line) (fun k => l.dirty.getLsbD k) (fun k => Tab.getD l.bytes k 0#8) _ x).trans ?_
  by_cases inside : lineOf x = line
  · have place : x - 128 * line = x % 128 := by unfold lineOf at inside; omega
    rw [place]
    congr 1
    simp only [List.mem_range, eq_iff_iff]
    exact ⟨fun ⟨_, _, y⟩ => ⟨inside, y⟩, fun ⟨_, y⟩ => ⟨by unfold lineOf at inside; omega, Nat.mod_lt _ (by decide), y⟩⟩
  · rw [if_neg (fun ⟨le, m, _⟩ => inside (by have := List.mem_range.mp m; unfold lineOf; omega)), if_neg fun ⟨same, _⟩ => inside same]

section
variable {h k : Hw} {core ctx line : Nat}

theorem Hw.l1_of_cores (same : k.cores = h.cores) (c n m : Nat) : k.l1 c n m = h.l1 c n m := by
  unfold Hw.l1 Hw.core
  rw [same]

/-- A line put down empty is gone. -/
theorem Hw.l1_setL1_empty (h : Hw) (core ctx line : Nat) : (h.setL1 core ctx line L1Line.empty).l1 core ctx line = L1Line.empty := by
  unfold Hw.l1 Hw.setL1
  rw [Hw.core_onCore_same, if_pos ⟨rfl, rfl⟩, Tab.getD, Tab.find?_del_same]

theorem Hw.l1_writeBackLine_other (h : Hw) {c x n : Nat} (other : ¬(c = core ∧ l1Key x n = l1Key ctx line)) :
    (h.writeBackLine core ctx line).l1 c x n = h.l1 c x n := by
  unfold Hw.writeBackLine
  dsimp only
  split
  · rfl
  · split
    · exact Hw.l1_setL1_other _ _ _ _ _ _ _ _ other
    · rw [Hw.l1_setL1_other _ _ _ _ _ _ _ _ other]
      exact Hw.l1_of_cores (by simp) c x n

theorem Hw.warps_writeBackLine (h : Hw) (core ctx line : Nat) : (h.writeBackLine core ctx line).warps = h.warps := by
  unfold Hw.writeBackLine
  dsimp only
  split
  · rfl
  · split
    · rfl
    · rw [Hw.setL1, Hw.onCore_warps, (Keeps.count _ _ _ _ _ _ _).warps, (Keeps.atHome _ _ _ _).warps]

/-- What it writes to memory: nothing where the line is a guard's. -/
theorem Hw.byte_writeBackLine (h : Hw) (e : Env) (core ctx line x : Nat) : (h.writeBackLine core ctx line).byte e x =
    if ctx < 2 ^ 20 ∧ lineOf x = line ∧ (h.l1 core ctx line).dirty.getLsbD (x % 128) = true then
      Tab.getD (h.l1 core ctx line).bytes (x % 128) 0#8 else h.byte e x := by
  by_cases dirty : (h.l1 core ctx line).dirty = 0#128
  · rw [if_neg (by simp [dirty]), Hw.writeBackLine, if_pos dirty]
  · by_cases ordinary : ctx < 2 ^ 20
    · unfold Hw.byte
      rw [Hw.wq_writeBackLine dirty ordinary, Tab.find?_append, L1Line.find?_dirtyBytes]
      by_cases within : lineOf x = line ∧ (h.l1 core ctx line).dirty.getLsbD (x % 128) = true
      · rw [if_pos within, if_pos ⟨ordinary, within⟩]
        rfl
      · rw [if_neg within, if_neg fun yes => within yes.2]
        rfl
    · rw [if_neg fun yes => ordinary yes.1, Hw.writeBackLine, if_neg dirty, if_pos (Nat.not_lt.mp ordinary)]
      rfl
end

theorem writeBackMerge_writes {s : State} {core ctx line : Nat} {l : L1Line} (inv : s.Inv) (hcore : core = s.hw.occ.unit)
    (hctx : ctx = s.hw.occ.aux) (hline : line = s.hw.occ.id) (hl : l = s.hw.l1 core ctx line)
    (free : l.dirty = 0#128 ∨ Tab.has s.hw.owners line = false) :
    ∃ t, exec .writeBackMerge s = .next t ∧ t.clk = s.clk ∧ t.hw.warps = s.hw.warps ∧ t.hw.l1 core ctx line = L1Line.empty ∧
      (∀ c k n, (c, l1Key k n) ≠ (core, l1Key ctx line) → t.hw.l1 c k n = s.hw.l1 c k n) ∧
      ∀ x, t.byte x = if ctx < 2 ^ 20 ∧ lineOf x = line ∧ l.dirty.getLsbD (x % 128) = true then Tab.getD l.bytes (x % 128) 0#8
        else s.byte x := by
  subst hl
  have step : writeBackMerge (env s) s.hw = (s.hw.writeBackLine core ctx line).setL1 core ctx line L1Line.empty := by
    rw [writeBackMerge, ← hcore, ← hctx, ← hline]
    refine if_neg fun ⟨dirty, owned⟩ => ?_
    rw [free.resolve_left dirty] at owned
    cases owned
  refine ⟨_, (show exec .writeBackMerge s = s.event writeBackMerge from rfl).trans (event_eq_after step), rfl,
    Hw.warps_writeBackLine _ _ _ _, Hw.l1_setL1_empty _ _ _ _, fun c k n other => ?_, fun x => ?_⟩
  · have apart : ¬(c = core ∧ l1Key k n = l1Key ctx line) := fun ⟨same, key⟩ => other (Prod.ext same key)
    exact (Hw.l1_setL1_other _ _ _ _ _ _ _ _ apart).trans (Hw.l1_writeBackLine_other _ apart)
  · refine (State.byte_after _ _ _).trans ((Hw.byte_writeBackLine s.hw (env s) core ctx line x).trans ?_)
    rw [Hw.byte_of_unwritten inv.2]

theorem writeBackMerge_waits {s : State} {core ctx line : Nat} (inv : s.Inv) (hcore : core = s.hw.occ.unit)
    (hctx : ctx = s.hw.occ.aux) (hline : line = s.hw.occ.id) (dirty : (s.hw.l1 core ctx line).dirty ≠ 0#128)
    (owned : Tab.has s.hw.owners line = true) : Turns .writeBackMerge s (s.hw.plan .writeBackMerge s.hw.occ) := by
  subst hcore hctx hline
  exact turns_of_event (show exec .writeBackMerge s = s.event writeBackMerge from rfl) (if_pos ⟨dirty, owned⟩) inv.2

end Sys2Proof.Machine
end

section
/-! # Migration of a page's home

What the three events of a migration leave: its leaf entries, its record, and no translation of its page (R196, R197). -/
namespace Sys2Proof.Machine

open Sys2Proof.Terms

/-! ## Leaf entries -/

theorem map_getD_range {α : Type} (l : List α) (d : α) : ((List.range l.length).map fun j => l.getD j d) = l := by
  refine List.ext_getElem (by simp) fun j _ hj => ?_
  rw [List.getElem_map, List.getElem_range, List.getD_eq_getElem _ _ hj]

theorem leNat_natLe {n v : Nat} (small : v < 256 ^ n) : leNat (natLe n v) = v := by
  induction n generalizing v with
  | zero => simp only [Nat.pow_zero, Nat.lt_one_iff] at small; rw [small]; rfl
  | succ n ih =>
    rw [natLe, leNat, ih (by rw [Nat.pow_succ] at small; omega), BitVec.toNat_ofNat]
    omega

/-- A page's leaf entries written one after another. -/
def Hw.writeLeaves (h : Hw) (l : List Nat) (new : Leaf) : Hw := l.foldl (fun h a => h.deviceWrite a (natLe 8 new.toNat)) h

theorem Hw.written_writeLeaves (h : Hw) (l : List Nat) (new : Leaf) : h.Written (h.writeLeaves l new) :=
  List.foldlRecOn (motive := h.Written) l _ (.refl h) fun _ hk a _ => hk.trans (.deviceWrite _ a _)

theorem Hw.swapLeaves_eq {s : State} {h : Hw} {entry lg : Nat} {was : Leaf} (new : Leaf) (unwritten : h.wq = [])
    (hold : ∀ x ∈ leafEntries entry lg, numberAt s x 8 = BitVec.toNat was) :
    h.swapLeaves (env s) entry lg was new = some (h.writeLeaves (leafEntries entry lg) new) := by
  refine if_pos (List.all_eq_true.mpr fun a ha => ?_)
  rw [Hw.read_of_unwritten unwritten, hold a ha]
  exact beq_self_eq_true _

/-- What memory reads after entries of a table are written. -/
theorem Hw.byte_writeLeaves (h : Hw) (e : Env) (entry : Nat) (ks : List Nat) (new : Leaf) (y : Nat) :
    (h.writeLeaves (ks.map fun k => entry + 8 * k) new).byte e y =
      if entry ≤ y ∧ (y - entry) / 8 ∈ ks then (natLe 8 new.toNat).getD ((y - entry) % 8) 0#8 else h.byte e y := by
  induction ks generalizing h with
  | nil => rw [if_neg (by simp)]; rfl
  | cons k ks ih =>
    refine (ih (h.deviceWrite (entry + 8 * k) (natLe 8 new.toNat))).trans ?_
    rw [Hw.byte_deviceWrite, length_natLe]
    by_cases later : entry ≤ y ∧ (y - entry) / 8 ∈ ks
    · rw [if_pos later, if_pos ⟨later.1, List.mem_cons_of_mem k later.2⟩]
    · rw [if_neg later]
      by_cases here : entry + 8 * k ≤ y ∧ y < entry + 8 * k + 8
      · rw [if_pos here, if_pos ⟨by omega, List.mem_cons.mpr (.inl (by omega))⟩]
        congr 1
        omega
      · rw [if_neg here, if_neg]
        rintro ⟨le, mem⟩
        rcases List.mem_cons.mp mem with same | mem
        · omega
        · exact later ⟨le, mem⟩

/-- Each entry holds the new leaf. -/
theorem numberAt_writeLeaves {t : State} {h : Hw} {e : Env} {entry lg : Nat} {new : Leaf}
    (bytes : ∀ y, t.byte y = (h.writeLeaves (leafEntries entry lg) new).byte e y) :
    ∀ x ∈ leafEntries entry lg, numberAt t x 8 = BitVec.toNat new := by
  intro x hx
  obtain ⟨k, hk, rfl⟩ := List.mem_map.mp hx
  have byte (j : Nat) (hj : j < 8) : t.byte (entry + 8 * k + j) = (natLe 8 new.toNat).getD j 0#8 := by
    rw [bytes, leafEntries, Hw.byte_writeLeaves, show entry + 8 * k + j - entry = 8 * k + j by omega,
      show (8 * k + j) / 8 = k by omega, show (8 * k + j) % 8 = j by omega, if_pos ⟨by omega, hk⟩]
  have listed : ((List.range 8).map fun j => t.byte (entry + 8 * k + j)) = natLe 8 new.toNat := by
    refine Eq.trans (List.map_congr_left fun j hj => byte j (List.mem_range.mp hj)) ?_
    simpa using map_getD_range (natLe 8 new.toNat) 0#8
  rw [numberAt, listed, leNat_natLe (n := 8) new.isLt]

/-! ## MIGRATION_START -/

theorem Hw.Written.ctxPart {h k : Hw} (a : h.Written k) (c : Nat) : k.ctxPart c = h.ctxPart c := by
  have part (f : Nat) : k.partOf f = h.partOf f := by
    unfold Hw.partOf
    rw [a.fns f]
  unfold Hw.ctxPart
  rw [part]

section
variable {s : State} {slice c entry home n : Nat} {l : Leaf} {a : AccEntry} {root : DWord}

theorem migTo_of_page (inv : s.Inv) (rooted : Tab.find? s.hw.roots a.ctx = some (root, true))
    (walks : walk (fun x => numberAt s x 8) (s.hw.part (s.hw.ctxPart a.ctx)) (s.hw.root a.ctx).1 a.page = .ok (l, entry))
    (aligned : a.page % 2 ^ Leaf.lg l = 0) {agent : Nat}
    (still : Leaf.mig l = false) (idle : Tab.has s.hw.migs slice = false)
    (elsewhere : (s.hw.part (s.hw.ctxPart a.ctx)).legalHome agent ≠ Leaf.homeAgent l)
    (host : (s.hw.part (s.hw.ctxPart a.ctx)).legalHome agent = 4 → paKind (Leaf.frame l) = .host)
    (many : 128 ≤ a.cnt.getD agent 0) (more : a.cnt.getD (Leaf.homeAgent l) 0 + 64 ≤ a.cnt.getD agent 0) :
    s.hw.migTo (env s) slice a agent = some (l, entry, (s.hw.part (s.hw.ctxPart a.ctx)).legalHome agent) := by
  have reads : (fun x => s.hw.read (env s) x 8) = fun x => numberAt s x 8 := funext fun x => Hw.read_of_unwritten inv.2 x 8
  have foreign : ((s.hw.part (s.hw.ctxPart a.ctx)).legalHome agent == 4 && paKind (Leaf.frame l) != .host) = false := by
    by_cases at_ : (s.hw.part (s.hw.ctxPart a.ctx)).legalHome agent = 4
    · simp [host at_]
    · simp [at_]
  simp only [Hw.migTo, rooted, reads, walks, idle, still, aligned, foreign, Nat.not_lt.mpr many, Nat.not_lt.mpr more,
    beq_eq_false_iff_ne.mpr elsewhere, Bool.false_eq_true, Bool.true_eq_false, Bool.or_self, bne_self_eq_false, decide_false,
    or_self, ↓reduceIte]

/-- The record of the migration of a page to `home`. -/
def migrationTo (s : State) (a : AccEntry) (l : Leaf) (entry home : Nat) : Migration :=
  { ctx := a.ctx, base := a.page, lg := l.lg, entry := entry, old := l, ndie := if home = 4 then l.hdie else home, nhost := home == 4
    shootDone := false, switched := false, since := s.clk.tick }

theorem migrationStart_eq (inv : s.Inv) (counted : ((Tab.getD s.hw.access s.hw.occ.unit []).find? fun x =>
      x.ctx == s.hw.occ.id && x.page == s.hw.occ.val.toNat) = some a)
    (moves : s.hw.migTo (env s) s.hw.occ.unit a s.hw.occ.aux = some (l, entry, home))
    (hold : ∀ x ∈ leafEntries entry (Leaf.lg l), numberAt s x 8 = BitVec.toNat l) :
    ∃ k, s.hw.Written k ∧ k = s.hw.writeLeaves (leafEntries entry (Leaf.lg l)) (leafOpen l (migrationTo s a l entry home).ndie (home == 4)) ∧
      migrationStart (env s) s.hw = { k with migs := Tab.put k.migs s.hw.occ.unit (migrationTo s a l entry home) }.plan .shootComplete
        { Occasion.none with unit := s.hw.ctxPart a.ctx, flag := true, aux := s.hw.occ.unit } := by
  have written := s.hw.written_writeLeaves (leafEntries entry (Leaf.lg l)) (leafOpen l (migrationTo s a l entry home).ndie (home == 4))
  refine ⟨_, written, rfl, ?_⟩
  rw [← written.ctxPart]
  have swaps := Hw.swapLeaves_eq (leafOpen l (migrationTo s a l entry home).ndie (home == 4)) inv.2 hold
  simp only [migrationTo] at swaps
  simp only [migrationStart, counted, moves, swaps] <;> rfl

theorem migrationStart_moves {p : Part} (inv : s.Inv) (hslice : slice = s.hw.occ.unit) (hc : c = s.hw.occ.id)
    (hp : p = s.hw.part (s.hw.ctxPart c)) (rooted : Tab.find? s.hw.roots c = some (root, true))
    (counted : ((Tab.getD s.hw.access slice []).find? fun x => x.ctx == c && x.page == s.hw.occ.val.toNat) = some a)
    (walks : walk (fun x => numberAt s x 8) p (s.hw.root c).1 a.page = .ok (l, entry)) (aligned : a.page % 2 ^ Leaf.lg l = 0)
    (hhome : home = p.legalHome s.hw.occ.aux) (hn : n = a.cnt.getD s.hw.occ.aux 0) (still : Leaf.mig l = false)
    (idle : Tab.has s.hw.migs slice = false) (elsewhere : home ≠ Leaf.homeAgent l) (host : home = 4 → paKind (Leaf.frame l) = .host)
    (many : 128 ≤ n) (more : a.cnt.getD (Leaf.homeAgent l) 0 + 64 ≤ n)
    (hold : ∀ x ∈ leafEntries entry (Leaf.lg l), numberAt s x 8 = BitVec.toNat l) :
    ∃ t m, exec .migrationStart s = .next t ∧ t.clk = s.clk ∧ WarpsCalm s t ∧ Tab.find? t.hw.migs slice = some m ∧ m.ctx = c ∧
      m.base = a.page ∧ m.lg = Leaf.lg l ∧ m.old = l ∧ m.entry = entry ∧ m.switched = false ∧ m.shootDone = false ∧
      m.nhost = decide (home = 4) ∧ m.ndie = (if home = 4 then Leaf.hdie l else home) ∧
      (∀ x ∈ leafEntries entry (Leaf.lg l), numberAt t x 8 = BitVec.toNat (leafOpen l m.ndie m.nhost)) ∧
      Planned t .shootComplete { Occasion.none with unit := s.hw.ctxPart c, flag := true, aux := slice } := by
  subst hslice hc
  have ofContext : a.ctx = s.hw.occ.id := by
    have found := List.find?_some counted
    simp only [Bool.and_eq_true, beq_iff_eq] at found
    exact found.1
  rw [← ofContext] at hp rooted walks ⊢
  subst hp hhome hn
  have moves := migTo_of_page inv rooted walks aligned still idle elsewhere host many more
  obtain ⟨k, written, hk, step⟩ := migrationStart_eq inv counted moves hold
  refine ⟨_, migrationTo s a l entry _, (show exec .migrationStart s = s.event migrationStart from rfl).trans (event_eq_after step), rfl,
    warpsCalm_after written.calm, Tab.find?_put_same _ _ _, rfl, rfl, rfl, rfl, rfl, rfl, rfl, rfl, rfl, ?_,
    List.mem_append_right _ (List.mem_singleton_self _)⟩
  exact numberAt_writeLeaves (h := s.hw) (e := env s) fun y =>
    (State.byte_after _ _ y).trans (show k.byte (env s) y = _ by rw [hk]; rfl)
end

/-! ## MIGRATION_SWITCH -/

/-- Is an address in the page that migrates? -/
def Migration.within (m : Migration) (pa : Nat) : Bool := decide (Leaf.frame m.old ≤ pa) && decide (pa < Leaf.frame m.old + 2 ^ m.lg)

/-- The package once slice `unit` has switched, apart from what is planned. -/
def Hw.switched (h : Hw) (m : Migration) : Hw :=
  Hw.trigger { h with
    migs := Tab.put h.migs h.occ.unit { m with switched := true }
    l2 := if m.nhost then h.l2.filter fun x => !m.within (128 * x.line) else h.l2 } fun x => match x.loc with
    | .mem pa => m.within pa
    | _ => false

theorem Hw.switched_rest (h : Hw) (m : Migration) : h.switched m = { h with
    migs := (h.switched m).migs, l2 := (h.switched m).l2, warps := (h.switched m).warps, tried := [] } := rfl
theorem Hw.migs_switched (h : Hw) (m : Migration) : (h.switched m).migs = Tab.put h.migs h.occ.unit { m with switched := true } := rfl

theorem migrationSwitch_eq {e : Env} {h : Hw} {m : Migration} (migrating : Tab.find? h.migs h.occ.unit = some m) (may : h.mayMove m = true) :
    migrationSwitch e h = (h.switched m).planOnce .migrationEnd { Occasion.none with unit := h.occ.unit } := by
  simp only [migrationSwitch, migrating, may, Bool.not_true, Bool.false_eq_true, ↓reduceIte] <;> rfl

theorem migrationSwitch_switches {s : State} {m : Migration} (inv : s.Inv) (migrating : Tab.find? s.hw.migs s.hw.occ.unit = some m)
    (may : s.hw.mayMove m = true) :
    ∃ t, exec .migrationSwitch s = .next t ∧ t.mem = s.mem ∧ t.clk = s.clk ∧ WarpsCalm s t ∧
      Tab.find? t.hw.migs s.hw.occ.unit = some { m with switched := true } ∧
      t.hw = { s.hw with migs := t.hw.migs, l2 := t.hw.l2, warps := t.hw.warps, tried := [], agenda := t.hw.agenda } ∧
      (m.nhost = false → t.hw.l2 = s.hw.l2) ∧ Planned t .migrationEnd { Occasion.none with unit := s.hw.occ.unit } := by
  have planned := Hw.mem_planOnce (h := s.hw.switched m) .migrationEnd { Occasion.none with unit := s.hw.occ.unit }
  generalize hk : (s.hw.switched m).planOnce .migrationEnd { Occasion.none with unit := s.hw.occ.unit } = k at planned
  have rest : k = { s.hw with
      migs := k.migs, l2 := k.l2, warps := k.warps, tried := [], agenda := k.agenda } := by
    rw [← hk, Hw.agendaOnly_planOnce, Hw.switched_rest]
  have same : k.migs = (s.hw.switched m).migs ∧ k.l2 = (s.hw.switched m).l2 ∧ k.warps = (s.hw.switched m).warps := by
    rw [← hk, Hw.agendaOnly_planOnce]
    exact ⟨rfl, rfl, rfl⟩
  obtain ⟨migs, l2, warps⟩ := same
  have unwritten : k.wq = [] := by rw [rest]; exact inv.2
  have calm : s.hw.warpsCalm k := Hw.warpsCalm_trans (Hw.warpsCalm_trigger _ _) (Hw.warpsCalm_of_warps warps)
  refine ⟨{ s with hw := k }, (show exec .migrationSwitch s = s.event migrationSwitch from rfl).trans
    (event_eq_next ((migrationSwitch_eq migrating may).trans hk) unwritten), rfl, rfl, calm, ?_, rest, fun own => ?_, planned⟩
  · show Tab.find? k.migs _ = _
    rw [migs, Hw.migs_switched, Tab.find?_put_same]
  · show k.l2 = _
    rw [l2]
    exact if_neg (by rw [own]; exact Bool.false_ne_true)

/-! ## MIGRATION_END -/

theorem migrationEnd_waits {s : State} {m : Migration} (inv : s.Inv) (migrating : Tab.find? s.hw.migs s.hw.occ.unit = some m)
    (switched : m.switched = true) (used : s.hw.undrained m.ctx m.base (2 ^ m.lg) = true) :
    Turns .migrationEnd s (s.hw.plan .migrationEnd s.hw.occ) := by
  refine turns_of_event (show exec .migrationEnd s = s.event migrationEnd from rfl) ?_ inv.2
  simp only [migrationEnd, migrating, switched, used, Bool.not_true, Bool.false_eq_true, ↓reduceIte]

/-- The lines of the page that L1s hold have its new home, and its translations are gone. -/
def Hw.rehomed (h : Hw) (m : Migration) : Hw := ((h.rehome m).shootDown m.ctx m.base (2 ^ m.lg)).moved

/-- The page's leaf entries name its new home. -/
def Hw.leavesClosed (h : Hw) (m : Migration) : Hw :=
  Hw.writeLeaves { h with migs := Tab.del h.migs h.occ.unit } (leafEntries m.entry m.lg)
    (leafClose (leafOpen m.old m.ndie m.nhost) m.ndie m.nhost)

theorem migrationEnd_eq {s : State} {m : Migration} (inv : s.Inv) (migrating : Tab.find? s.hw.migs s.hw.occ.unit = some m)
    (switched : m.switched = true) (drained : s.hw.undrained m.ctx m.base (2 ^ m.lg) = false)
    (hold : ∀ x ∈ leafEntries m.entry m.lg, numberAt s x 8 = BitVec.toNat (leafOpen m.old m.ndie m.nhost)) :
    migrationEnd (env s) s.hw = (s.hw.leavesClosed m).rehomed m := by
  have swaps := Hw.swapLeaves_eq (h := { s.hw with migs := Tab.del s.hw.migs s.hw.occ.unit })
    (leafClose (leafOpen m.old m.ndie m.nhost) m.ndie m.nhost) inv.2 hold
  simp only [migrationEnd, migrating, switched, drained, swaps, Bool.not_true, Bool.false_eq_true, ↓reduceIte] <;> rfl

theorem Hw.rest_rehomed (h : Hw) (m : Migration) : h.rehomed m = { h with
    cores := ((h.rehome m).dropTlbAll (rangeHits m.ctx m.base (2 ^ m.lg))).cores, dieTlb := (h.rehomed m).dieTlb
    fns := (h.rehomed m).fns, warps := (h.rehomed m).warps, tried := [] } := by
  unfold Hw.rehomed
  rw [Hw.moved, Hw.shootDown_rest]
  rfl

theorem Hw.warpsCalm_rehomed (h : Hw) (m : Migration) : h.warpsCalm (h.rehomed m) := Hw.warpsCalm_shootDown (h.rehome m) _ _ _

/-- No core holds a translation of the page. -/
theorem Hw.tlb_rehomed (h : Hw) (m : Migration) (c : Nat) {y : Tlb} (hy : y ∈ ((h.rehomed m).core c).tlb) :
    rangeHits m.ctx m.base (2 ^ m.lg) y = false := by
  have cores : (h.rehomed m).cores = ((h.rehome m).dropTlbAll (rangeHits m.ctx m.base (2 ^ m.lg))).cores := by rw [Hw.rest_rehomed]
  rw [Hw.core, cores] at hy
  change y ∈ (((h.rehome m).dropTlbAll (rangeHits m.ctx m.base (2 ^ m.lg))).core c).tlb at hy
  rw [Hw.tlb_dropTlbAll] at hy
  simpa using (List.mem_filter.mp hy).2

theorem migrationEnd_ends {s : State} {m : Migration} {was : Leaf} (inv : s.Inv)
    (migrating : Tab.find? s.hw.migs s.hw.occ.unit = some m) (switched : m.switched = true)
    (drained : s.hw.undrained m.ctx m.base (2 ^ m.lg) = false) (opened : was = leafOpen m.old m.ndie m.nhost)
    (hold : ∀ x ∈ leafEntries m.entry m.lg, numberAt s x 8 = BitVec.toNat was) :
    ∃ t, exec .migrationEnd s = .next t ∧ t.clk = s.clk ∧ WarpsCalm s t ∧ Tab.find? t.hw.migs s.hw.occ.unit = none ∧
      (∀ x ∈ leafEntries m.entry m.lg, numberAt t x 8 = BitVec.toNat (leafClose was m.ndie m.nhost)) ∧
      ∀ c, ∀ y ∈ (t.hw.core c).tlb, ¬(y.ctx = m.ctx ∧ y.base < m.base + 2 ^ m.lg ∧ m.base < y.base + 2 ^ y.lg) := by
  subst opened
  have step := migrationEnd_eq inv migrating switched drained hold
  have written : ({ s.hw with migs := Tab.del s.hw.migs s.hw.occ.unit } : Hw).Written (s.hw.leavesClosed m) := Hw.written_writeLeaves _ _ _
  have kept : (s.hw.leavesClosed m).migs = Tab.del s.hw.migs s.hw.occ.unit := by rw [written.rest]
  have wq : ((s.hw.leavesClosed m).rehomed m).wq = (s.hw.leavesClosed m).wq := by rw [Hw.rest_rehomed]
  have migs : ((s.hw.leavesClosed m).rehomed m).migs = (s.hw.leavesClosed m).migs := by rw [Hw.rest_rehomed]
  refine ⟨s.after ((s.hw.leavesClosed m).rehomed m), (show exec .migrationEnd s = s.event migrationEnd from rfl).trans (event_eq_after step), rfl,
    warpsCalm_after (Hw.warpsCalm_trans written.calm (Hw.warpsCalm_rehomed _ m)), ?_, ?_, fun c y hy => ?_⟩
  · show Tab.find? ((s.hw.leavesClosed m).rehomed m).migs _ = none
    rw [migs, kept]
    exact Tab.find?_del_same _ _
  · exact numberAt_writeLeaves fun y => (State.byte_after _ _ y).trans (Hw.byte_of_wq _ wq y)
  · have missed := Hw.tlb_rehomed _ m c hy
    rw [rangeHits_eq] at missed
    rintro ⟨same, below, above⟩
    simp [same, below, above] at missed

end Sys2Proof.Machine
end

section
/-! # The interval rebase

What REBASE_COMPLETE leaves of a slot: no marks, no entry in a frontier, and its block at interval 1 (R209). -/
namespace Sys2Proof.Machine

open Sys2Proof.Terms

/-! ## Tables whose keys rise -/

theorem Tab.nodup_keys_of_above {α : Type} {t : Tab α} {b : Nat} (above : Tab.above b t = true) : (t.map Prod.fst).Nodup := by
  induction t generalizing b with
  | nil => exact List.nodup_nil
  | cons x t ih =>
    obtain ⟨j, v⟩ := x
    rw [Tab.above, Bool.and_eq_true] at above
    refine List.nodup_cons.mpr ⟨fun there => ?_, ih above.2⟩
    obtain ⟨⟨i, u⟩, hi, rfl⟩ := List.mem_map.mp there
    exact absurd (Tab.lt_of_mem_above above.2 hi) (Nat.lt_irrefl _)

theorem Tab.nodup_keys {α : Type} {t : Tab α} (rising : Tab.rising t = true) : (t.map Prod.fst).Nodup := by
  cases t with
  | nil => exact List.nodup_nil
  | cons x t =>
    refine List.nodup_cons.mpr ⟨fun there => ?_, Tab.nodup_keys_of_above rising⟩
    obtain ⟨⟨i, u⟩, hi, same⟩ := List.mem_map.mp there
    exact absurd (Tab.lt_of_mem_above rising hi) (same ▸ Nat.lt_irrefl _)

theorem Tab.find?_eq_none {α : Type} {t : Tab α} {k : Nat} (absent : k ∉ t.map Prod.fst) : Tab.find? t k = none := by
  cases found : Tab.find? t k with
  | none => rfl
  | some v => exact absurd (List.mem_map.mpr ⟨(k, v), Tab.mem_of_find? found, rfl⟩) absent

theorem Tab.find?_filter_key {α : Type} (p : Nat → Bool) (t : Tab α) (k : Nat) :
    Tab.find? (t.filter fun x => p x.1) k = if p k then Tab.find? t k else none := by
  induction t with
  | nil => simp
  | cons x t ih =>
    obtain ⟨j, v⟩ := x
    by_cases here : j = k
    · subst here
      cases kept : p j <;> simp [Tab.find?, kept, ih]
    · cases kept : p j <;> simp [Tab.find?, kept, ih, here]

/-! ## The marks of a slot -/

/-- The records of a word. -/
def recordsAt (t : Tab WordMarks) (w : Nat) : List Mark := (Tab.getD t w WordMarks.none).records

theorem recordsAt_putMarks (t : Tab WordMarks) (w : Nat) (m : WordMarks) (x : Nat) :
    recordsAt (putMarks t w m) x = if x = w then m.records else recordsAt t x := by
  unfold recordsAt putMarks
  split
  next bare =>
    split
    next here =>
      subst here
      rw [Tab.getD, Tab.find?_del_same, List.isEmpty_iff.mp bare]
      rfl
    next other => rw [Tab.getD, Tab.find?_del_other _ other, Tab.getD]
  next =>
    split
    next here => rw [here, Tab.getD_put_same]
    next other => rw [Tab.getD_put_other _ _ _ other]

/-- A word without the records of slot `s`. -/
def WordMarks.without (m : WordMarks) (s : Nat) : WordMarks :=
  ⟨m.writer.filter fun r => r.slot != s, m.others.filter fun r => r.slot != s⟩

theorem WordMarks.records_without (m : WordMarks) (s : Nat) : (m.without s).records = m.records.filter fun r => r.slot != s := by
  obtain ⟨writer, others⟩ := m
  cases writer with
  | none => rfl
  | some r => cases slot : r.slot != s <;> simp [WordMarks.without, WordMarks.records, Option.filter, slot]

theorem killSlotMarks_cons (s j : Nat) (m : WordMarks) (t : Tab WordMarks) : killSlotMarks s ((j, m) :: t) =
    if (m.without s).records.isEmpty then killSlotMarks s t else (j, m.without s) :: killSlotMarks s t := by
  unfold killSlotMarks
  rw [Tab.mapVals, Tab.keep]
  cases bare : (m.without s).records.isEmpty with
  | true => exact if_neg (by rw [Bool.not_eq_true, Bool.not_eq_false']; exact bare)
  | false => exact if_pos (by rw [Bool.not_eq_true']; exact bare)

theorem find?_killSlotMarks_none {t : Tab WordMarks} {w : Nat} (s : Nat) (absent : Tab.find? t w = none) :
    Tab.find? (killSlotMarks s t) w = none := by
  induction t with
  | nil => rfl
  | cons x t ih =>
    obtain ⟨j, m⟩ := x
    obtain ⟨other, absent⟩ : j ≠ w ∧ Tab.find? t w = none := by
      rw [Tab.find?] at absent
      split at absent
      · cases absent
      · exact ⟨‹_›, absent⟩
    rw [killSlotMarks_cons]
    split
    · exact ih absent
    · rw [Tab.find?, if_neg other]
      exact ih absent

theorem recordsAt_killSlotMarks {t : Tab WordMarks} (s w : Nat) (nodup : (t.map Prod.fst).Nodup) :
    recordsAt (killSlotMarks s t) w = (recordsAt t w).filter fun r => r.slot != s := by
  induction t with
  | nil => rfl
  | cons x t ih =>
    obtain ⟨j, m⟩ := x
    obtain ⟨once, nodup⟩ := List.nodup_cons.mp nodup
    rw [killSlotMarks_cons]
    by_cases here : j = w
    · subst here
      have found : recordsAt ((j, m) :: t) j = m.records := by simp [recordsAt, Tab.getD, Tab.find?]
      rw [found, ← WordMarks.records_without]
      split
      next bare =>
        rw [recordsAt, Tab.getD, find?_killSlotMarks_none s (Tab.find?_eq_none once), List.isEmpty_iff.mp bare]
        rfl
      next => simp [recordsAt, Tab.getD, Tab.find?]
    · have past (m : WordMarks) (t : Tab WordMarks) : recordsAt ((j, m) :: t) w = recordsAt t w := by
        simp [recordsAt, Tab.getD, Tab.find?, here]
      rw [past]
      split
      · exact ih nodup
      · rw [past]
        exact ih nodup

/-- The words of memory that function `f`, or no one, checks. -/
def Hw.ownMarks (h : Hw) (f : Nat) : Tab WordMarks :=
  h.marks.filter fun (x : Nat × WordMarks) => Tab.getD h.mctx (x.1 / 32) 0 == ctxOf f || Tab.getD h.mctx (x.1 / 32) 0 == 0

/-- The marks of words are set as a table has them. -/
def Hw.marksSet (h : Hw) (live : Tab WordMarks) (dead : Tab WordMarks) : Hw :=
  dead.foldl (fun (h : Hw) (x : Nat × WordMarks) => h.setMarks (.mem x.1) (Tab.getD live x.1 WordMarks.none)) h

theorem Hw.marks_tidyLine (h : Hw) (line : Nat) : (h.tidyLine line).marks = h.marks := by
  unfold Hw.tidyLine
  split <;> rfl

theorem recordsAt_marksSet (live dead : Tab WordMarks) (h : Hw) (w : Nat) :
    recordsAt (h.marksSet live dead).marks w = if w ∈ dead.map Prod.fst then recordsAt live w else recordsAt h.marks w := by
  induction dead generalizing h with
  | nil => rfl
  | cons x dead ih =>
    have first : recordsAt (h.setMarks (.mem x.1) (Tab.getD live x.1 WordMarks.none)).marks w =
        if w = x.1 then recordsAt live x.1 else recordsAt h.marks w := by
      rw [Hw.setMarks, Hw.marks_tidyLine]
      exact recordsAt_putMarks _ _ _ _
    refine (ih _).trans ?_
    have members : w ∈ List.map Prod.fst (x :: dead) ↔ w = x.1 ∨ w ∈ List.map Prod.fst dead := List.mem_cons
    rw [first]
    by_cases here : w = x.1
    · subst here
      simp
    · simp only [members, here, false_or, ↓reduceIte]

/-- The package without the marks of a slot in the words that its function checks. -/
def Hw.unmarked (h : Hw) (f s : Nat) : Hw := h.marksSet (killSlotMarks s (h.ownMarks f)) (h.ownMarks f)

theorem Hw.keeps_unmarked (h : Hw) (f s : Nat) : Keeps h (h.unmarked f s) :=
  Keeps.foldl _ (fun h (x : Nat × WordMarks) => Keeps.setMarks h (.mem x.1) _) _ _

theorem recordsAt_unmarked {h : Hw} {f s w : Nat} (rising : Tab.rising h.marks = true)
    (own : Tab.getD h.mctx (w / 32) 0 = ctxOf f) :
    recordsAt (h.unmarked f s).marks w = (recordsAt h.marks w).filter fun r => r.slot != s := by
  have nodup : ((h.ownMarks f).map Prod.fst).Nodup := (List.filter_sublist.map Prod.fst).nodup (Tab.nodup_keys rising)
  have same : Tab.find? (h.ownMarks f) w = Tab.find? h.marks w :=
    (Tab.find?_filter_key (fun j => Tab.getD h.mctx (j / 32) 0 == ctxOf f || Tab.getD h.mctx (j / 32) 0 == 0) h.marks w).trans
      (if_pos (by rw [own, beq_self_eq_true, Bool.true_or]))
  have sameRecords : recordsAt (h.ownMarks f) w = recordsAt h.marks w := by rw [recordsAt, recordsAt, Tab.getD, Tab.getD, same]
  rw [Hw.unmarked, recordsAt_marksSet, recordsAt_killSlotMarks s w nodup, sameRecords]
  split
  next => rfl
  next absent =>
    rw [← sameRecords, recordsAt, Tab.getD, Tab.find?_eq_none absent]
    rfl

/-! ## REBASE_COMPLETE -/

/-- The blocks of a function forget one of its slots. -/
def blocksForget (f s : Nat) (t : Tab Block) : Tab Block := Tab.mapVals (fun k b => if bkFn k = f then b.zeroSlot s else b) t

/-- A block whose interval counts from 1 again. -/
def Block.rebased (b : Block) : Block := { b with intra := [], c := 1, st := 1, rebasing := false }

/-- The warps of a function forget one of its slots. -/
def warpsForget (f s : Nat) (t : Tab Warp) : Tab Warp := Tab.mapVals (fun k w => if wkFn k = f then w.zeroSlot s else w) t

theorem rebaseComplete_fields {e : Env} {h : Hw} {b : Block} (there : h.block? (bkOf h.occ.unit h.occ.id) = some b)
    (rebasing : b.rebasing = true) : ∃ k, rebaseComplete e h = k ∧ k.marks = (h.unmarked h.occ.unit h.occ.id).marks ∧
      k.blocks = Tab.modify (blocksForget h.occ.unit h.occ.id h.blocks) (bkOf h.occ.unit h.occ.id) Block.rebased ∧
      k.warps = warpsForget h.occ.unit h.occ.id h.warps ∧ k.wq = h.wq := by
  have kept := (h.keeps_unmarked h.occ.unit h.occ.id).rest
  have blocks : (h.unmarked h.occ.unit h.occ.id).blocks = h.blocks := by rw [kept]
  have warps : (h.unmarked h.occ.unit h.occ.id).warps = h.warps := by rw [kept]
  have wq : (h.unmarked h.occ.unit h.occ.id).wq = h.wq := by rw [kept]
  refine ⟨_, rfl, ?_⟩
  rw [← blocks, ← warps, ← wq]
  simp only [rebaseComplete, there, rebasing, Bool.not_true, Bool.false_eq_true, ↓reduceIte]
  exact ⟨rfl, rfl, rfl, rfl⟩

theorem rebaseComplete_rebases {s : State} {f n : Nat} {b : Block} (inv : s.Inv) (hf : f = s.hw.occ.unit) (hn : n = s.hw.occ.id)
    (there : s.hw.block? (bkOf f n) = some b) (rebasing : b.rebasing = true) (small : n < 4096) (rising : Tab.rising s.hw.marks = true) :
    ∃ t y, exec .rebaseComplete s = .next t ∧ t.mem = s.mem ∧ t.clk = s.clk ∧ t.hw.block? (bkOf f n) = some y ∧ y.c = 1 ∧
      y.st = 1 ∧ y.intra = [] ∧ y.rebasing = false ∧
      (∀ k z, t.hw.block? k = some z → bkFn k = f → Tab.find? z.front n = none) ∧
      (∀ w r, Tab.getD s.hw.mctx (w / 32) 0 = ctxOf f → (r ∈ (t.hw.marksAt (.mem w)).records ↔
        (r ∈ (s.hw.marksAt (.mem w)).records ∧ Mark.slot r ≠ n))) ∧
      ∀ k w, s.hw.warp? k = some w → ∃ v, t.hw.warp? k = some v ∧ v.vregs = w.vregs ∧ v.uregs = w.uregs ∧ v.preds = w.preds ∧
        v.p0 = w.p0 ∧ v.p1 = w.p1 ∧ v.mode = w.mode := by
  subst hf hn
  obtain ⟨k, run, marks, blocks, warps, wq⟩ := rebaseComplete_fields (e := env s) there rebasing
  have own : bkFn (bkOf s.hw.occ.unit s.hw.occ.id) = s.hw.occ.unit := by unfold bkFn bkOf; omega
  have forgot : Tab.find? (blocksForget s.hw.occ.unit s.hw.occ.id s.hw.blocks) (bkOf s.hw.occ.unit s.hw.occ.id) =
      some (b.zeroSlot s.hw.occ.id) := by
    rw [blocksForget, Tab.find?_mapVals, show Tab.find? s.hw.blocks _ = some b from there, Option.map_some, if_pos own]
  have block : k.block? (bkOf s.hw.occ.unit s.hw.occ.id) = some (b.zeroSlot s.hw.occ.id).rebased := by
    rw [Hw.block?, blocks, Tab.find?_modify_same, forgot, Option.map_some]
  refine ⟨{ s with hw := k }, _, (show exec .rebaseComplete s = s.event rebaseComplete from rfl).trans (event_eq_next run (wq.trans inv.2)),
    rfl, rfl, block, rfl, rfl, rfl, rfl, fun j z found ours => ?_, fun w r checked => ?_, fun j w found => ?_⟩
  · by_cases here : j = bkOf s.hw.occ.unit s.hw.occ.id
    · subst here
      obtain rfl : (b.zeroSlot s.hw.occ.id).rebased = z := Option.some.inj (block.symm.trans found)
      exact Tab.find?_del_same b.front s.hw.occ.id
    · have found : Tab.find? k.blocks j = some z := found
      rw [blocks, Tab.find?_modify_other _ _ here, blocksForget, Tab.find?_mapVals] at found
      obtain ⟨x, -, rfl⟩ := Option.map_eq_some_iff.mp found
      rw [if_pos ours]
      exact Tab.find?_del_same x.front s.hw.occ.id
  · show r ∈ recordsAt k.marks w ↔ r ∈ recordsAt s.hw.marks w ∧ _
    rw [marks, recordsAt_unmarked rising checked, List.mem_filter, bne_iff_ne]
  · have found : Tab.find? s.hw.warps j = some w := found
    refine ⟨if wkFn j = s.hw.occ.unit then w.zeroSlot s.hw.occ.id else w, ?_, ?_⟩
    · show Tab.find? k.warps j = _
      rw [warps, warpsForget, Tab.find?_mapVals, found, Option.map_some]
    · split <;> exact ⟨rfl, rfl, rfl, rfl, rfl, rfl⟩

end Sys2Proof.Machine
end

section
/-! # Samples and trace records

What PC_SAMPLE puts into its core's trace buffer (R277), and what TRACE_FORWARD takes from a source's buffer (R279). -/
namespace Sys2Proof.Machine

open Sys2Proof.Terms

/-! ## Payloads (Table 11.5) -/

theorem payAt_below {lo off n : Nat} (v : Nat) (below : off + n ≤ 8 * (lo - 16)) : (payAt lo v).extractLsb' off n = 0#n := by
  refine BitVec.eq_of_getLsbD_eq fun i hi => ?_
  rw [BitVec.getLsbD_extractLsb', payAt, BitVec.getLsbD_ofNat, Nat.testBit_mul_two_pow,
    decide_eq_false (show ¬ 8 * (lo - 16) ≤ off + i by omega)]
  simp only [Bool.false_and, Bool.and_false, BitVec.getLsbD_zero]

theorem payAt_above {lo off n v m : Nat} (small : v < 2 ^ m) (above : 8 * (lo - 16) + m ≤ off) : (payAt lo v).extractLsb' off n = 0#n := by
  refine BitVec.eq_of_getLsbD_eq fun i hi => ?_
  have gone : v.testBit (off + i - 8 * (lo - 16)) = false :=
    Nat.testBit_lt_two_pow (Nat.lt_of_lt_of_le small (Nat.pow_le_pow_right (by decide) (by omega)))
  rw [BitVec.getLsbD_extractLsb', payAt, BitVec.getLsbD_ofNat, Nat.testBit_mul_two_pow, gone]
  simp only [Bool.and_false, BitVec.getLsbD_zero]

theorem payAt_there {lo off n : Nat} (v : Nat) (starts : 8 * (lo - 16) = off) (fits : off + n ≤ 128) :
    (payAt lo v).extractLsb' off n = BitVec.ofNat n v := by
  refine BitVec.eq_of_getLsbD_eq fun i hi => ?_
  rw [BitVec.getLsbD_extractLsb', payAt, BitVec.getLsbD_ofNat, Nat.testBit_mul_two_pow, BitVec.getLsbD_ofNat, starts,
    decide_eq_true (show off ≤ off + i by omega), decide_eq_true hi, decide_eq_true (show off + i < 128 by omega),
    Nat.add_sub_cancel_left]
  simp only [Bool.true_and]

/-- The payload of a PC sample: the path's address, its reason, its context and its regions. -/
def samplePay (pc : DWord) (reason ctx a b : Nat) : BitVec 128 :=
  payAt 16 pc.toNat ||| payAt 24 reason ||| payAt 25 ctx ||| payAt 26 a ||| payAt 28 b

theorem samplePay_pc (pc : DWord) (reason ctx a b : Nat) : (samplePay pc reason ctx a b).extractLsb' 0 64 = pc := by
  simp only [samplePay, BitVec.extractLsb'_or]
  rw [payAt_there (off := 0) (n := 64) pc.toNat (by decide) (by decide), payAt_below reason (by decide), payAt_below ctx (by decide),
    payAt_below a (by decide), payAt_below b (by decide)]
  simp only [BitVec.or_zero, BitVec.ofNat_toNat, BitVec.setWidth_eq]

theorem samplePay_reason (pc : DWord) (reason ctx a b : Nat) :
    (samplePay pc reason ctx a b).extractLsb' 64 8 = BitVec.ofNat 8 reason := by
  simp only [samplePay, BitVec.extractLsb'_or]
  rw [payAt_above (off := 64) (n := 8) pc.isLt (by decide), payAt_there (off := 64) (n := 8) reason (by decide) (by decide),
    payAt_below ctx (by decide), payAt_below a (by decide), payAt_below b (by decide)]
  simp only [BitVec.or_zero, BitVec.zero_or]

/-! ## PC_SAMPLE -/

theorem Hw.core_planOn (h : Hw) (i : Instr) (unit c : Nat) : (h.planOn i unit).core c = h.core c := rfl

/-- A record of a source that traces takes a free place of its core's buffer. -/
theorem Hw.emit_fits {h : Hw} {e : Env} {f core bit : Nat} (ty : Nat) (pay : BitVec 128)
    (traces : (h.trace.ctl.getLsbD 0 && (h.fn f).dbg.tren.getLsbD bit) = true) (room : (h.core core).trace.recs.length < 16) :
    h.emit e f core bit ty pay = (h.onCore core fun c => { c with trace :=
      ⟨(h.core core).trace.recs ++ [⟨ty, core, ctxOf f, localTick e core, pay⟩], (h.core core).trace.drops⟩ }).planOn .traceForward core := by
  simp only [Hw.emit, traces, TraceBuf.add, room, ↓reduceIte]

/-- The path of a warp that a sample takes: of two live paths, the one that the last sample did not take. -/
def sampledPath (w : Warp) (old : Nat) : Bool := if w.p0.live && w.p1.live then old == 0 else w.p1.live

theorem live_sampledPath (w : Warp) (old : Nat) (one : w.p0.live ≠ w.p1.live) : (w.path (sampledPath w old)).live = true := by
  unfold sampledPath Warp.path
  cases h0 : w.p0.live <;> cases h1 : w.p1.live <;> simp_all

/-- The package once warp `w` has been sampled on path `x`: the core remembers both. -/
def Hw.remembered (h : Hw) (w : Warp) (x : Bool) : Hw := h.onCore h.occ.unit fun c =>
  { c with samplePtr := Tab.put (Tab.put c.samplePtr (h.occ.id % 4) w.ctx) (8 + w.ctx) x.toNat }

section
variable {s : State} {core p f : Nat} {q : Part} (inv : s.Inv) (hcore : core = s.hw.occ.unit)
  (here : List.find? (fun (x : Nat × Part) => x.2.live && x.2.owns.rings.getLsbD (ringOf core)) s.hw.parts = some (p, q))
  (runs : q.running = some f)
include inv hcore here runs

theorem pcSample_idle (off : s.hw.samples f = false) : Turns .pcSample s s.hw := by
  refine turns_of_event (show exec .pcSample s = s.event pcSample from rfl) ?_ inv.2
  subst hcore
  simp only [pcSample, here, runs, off, Bool.not_false, ↓reduceIte]

theorem pcSample_emits {last k : Nat} {w : Warp} (on : s.hw.samples f = true)
    (hlast : last = Tab.getD (s.hw.core core).samplePtr (s.hw.occ.id % 4) 99)
    (next : (((s.hw.slotWarps f core (s.hw.occ.id % 4)).find? fun x => decide (last < x.2.ctx)).or
        (s.hw.slotWarps f core (s.hw.occ.id % 4)).head?) = some (k, w))
    (room : (s.hw.core core).trace.recs.length < 16) :
    ∃ t r x, exec .pcSample s = .next t ∧ t.mem = s.mem ∧ t.clk = s.clk ∧
      t.hw = { s.hw with cores := t.hw.cores, agenda := t.hw.agenda } ∧
      (t.hw.core core).trace.recs = (s.hw.core core).trace.recs ++ [r] ∧ r.ty = 1 ∧ r.src = core ∧ r.ctx = ctxOf f ∧
      r.tick = localTick (env s) core ∧ r.pay.extractLsb' 0 64 = (w.path x).pc ∧
      (s.hw.occ.flag = false → s.hw.stallNow (env s) k w x < 32 →
        r.pay.extractLsb' 64 8 = BitVec.ofNat 8 (s.hw.stallNow (env s) k w x + 64 * x.toNat)) ∧
      (w.p0.live ≠ w.p1.live → (w.path x).live = true) ∧
      Tab.getD (t.hw.core core).samplePtr (s.hw.occ.id % 4) 99 = w.ctx := by
  subst hcore hlast
  obtain ⟨⟨sampled, tren⟩, ctl⟩ : ((s.hw.fn f).dbg.sampEn = true ∧ (s.hw.fn f).dbg.tren.getLsbD 0 = true) ∧
      s.hw.trace.ctl.getLsbD 0 = true := by simpa only [Hw.samples, Bool.and_eq_true] using on
  generalize hx : sampledPath w (Tab.getD (s.hw.core s.hw.occ.unit).samplePtr (8 + w.ctx) 1) = x
  generalize hissued : (s.hw.occ.flag && s.hw.occ.aux == 2 * k + x.toNat) = issued
  generalize hreason : (if issued then 0 else s.hw.stallNow (env s) k w x) + (if issued then 32 else 0) + (if x then 64 else 0) = reason
  generalize hpay : samplePay (w.path x).pc reason w.ctx (w.region.headD 0#16).toNat ((w.region.drop 1).headD 0#16).toNat = pay
  have traced : (s.hw.remembered w x).core s.hw.occ.unit = { s.hw.core s.hw.occ.unit with
      samplePtr := Tab.put (Tab.put (s.hw.core s.hw.occ.unit).samplePtr (s.hw.occ.id % 4) w.ctx) (8 + w.ctx) x.toNat } :=
    Hw.core_onCore_same s.hw _ _
  have emits : pcSample (env s) s.hw = (s.hw.remembered w x).emit (env s) f s.hw.occ.unit 0 0x01 pay := by
    subst hpay hreason hissued hx
    simp only [pcSample, here, runs, on, next, Bool.not_true, Bool.false_eq_true, ↓reduceIte] <;> rfl
  have fits := Hw.emit_fits (h := s.hw.remembered w x) (e := env s) (f := f) (core := s.hw.occ.unit) (bit := 0) 0x01 pay
    (by rw [Bool.and_eq_true]; exact ⟨ctl, tren⟩) (by rw [traced]; exact room)
  generalize hk : (s.hw.remembered w x).emit (env s) f s.hw.occ.unit 0 0x01 pay = k' at emits fits
  have core : k'.core s.hw.occ.unit = { (s.hw.remembered w x).core s.hw.occ.unit with trace :=
      ⟨((s.hw.remembered w x).core s.hw.occ.unit).trace.recs ++ [⟨1, s.hw.occ.unit, ctxOf f, localTick (env s) s.hw.occ.unit, pay⟩],
        ((s.hw.remembered w x).core s.hw.occ.unit).trace.drops⟩ } := by
    rw [fits, Hw.core_planOn, Hw.core_onCore_same]
  rw [traced] at core
  have rest : k' = { s.hw with cores := k'.cores, agenda := k'.agenda } := by rw [fits]; rfl
  refine ⟨{ s with hw := k' }, ⟨1, s.hw.occ.unit, ctxOf f, localTick (env s) s.hw.occ.unit, pay⟩, x,
    (show exec .pcSample s = s.event pcSample from rfl).trans (event_eq_next emits ?_), rfl, rfl, rest, congrArg (·.trace.recs) core,
    rfl, rfl, rfl, rfl, ?_, fun unflagged small => ?_, fun one => ?_, ?_⟩
  · rw [rest]
    exact inv.2
  · rw [← hpay, samplePay_pc]
  · rw [← hpay, samplePay_reason, ← hreason, ← hissued, unflagged]
    cases x <;> rfl
  · rw [← hx]
    exact live_sampledPath w _ one
  · show Tab.getD (k'.core _).samplePtr _ _ = _
    rw [core, Tab.getD_put_other _ _ _ (by omega), Tab.getD_put_same]
end

/-! ## TRACE_FORWARD -/

section
variable {h : Hw} (src : Nat) (b : TraceBuf)

theorem Hw.setTraceBuf_rest : h.setTraceBuf src b = { h with
    cores := (h.setTraceBuf src b).cores, ports := (h.setTraceBuf src b).ports, trace := { h.trace with io := (h.setTraceBuf src b).trace.io } } := by
  unfold Hw.setTraceBuf
  split
  · rfl
  · split <;> rfl

theorem Hw.traceBuf_setTraceBuf : (h.setTraceBuf src b).traceBuf src = b := by
  unfold Hw.setTraceBuf Hw.traceBuf
  split
  · rw [Hw.core_onCore_same]
  · split
    · exact congrArg Port.trace (Tab.getD_put_same _ _ _ _)
    · rfl
end

section
variable (t : TraceCtl) (r : TraceRec)

/-- A record for the port. -/
def TraceCtl.ported : TraceCtl := if t.ctl.getLsbD 1 then { t with port := r :: t.port } else t

/-- A record for the carve-out: a full one without WRAP drops it. -/
def TraceCtl.carved : TraceCtl :=
  if t.ctl.getLsbD 3 || decide (t.wr < 2 ^ 29) then { t with carve := Tab.put t.carve (t.wr % 2 ^ 29 / 32) r, wr := t.wr + 32 }
  else { t with drop := (t.drop + 1) % 2 ^ 48 }

theorem TraceCtl.take_eq : t.take r = if t.ctl.getLsbD 2 then (t.ported r).carved r else t.ported r := by
  unfold TraceCtl.take TraceCtl.ported TraceCtl.carved
  cases t.ctl.getLsbD 1 <;> rfl

theorem TraceCtl.rest_ported : t.ported r = { t with port := if t.ctl.getLsbD 1 then r :: t.port else t.port } := by
  unfold TraceCtl.ported
  split <;> rfl

theorem TraceCtl.carved_rest : t.carved r = { t with
    carve := (t.carved r).carve, wr := (t.carved r).wr, drop := (t.carved r).drop } := by
  unfold TraceCtl.carved
  split <;> rfl

theorem TraceCtl.take_rest : t.take r = { t with
    port := if t.ctl.getLsbD 1 then r :: t.port else t.port
    carve := (t.take r).carve, wr := (t.take r).wr, drop := (t.take r).drop } := by
  rw [TraceCtl.take_eq]
  split
  · rw [TraceCtl.carved_rest, TraceCtl.rest_ported]
  · rw [TraceCtl.rest_ported]

/-- The I/O die's own buffer has no part in it. -/
theorem TraceCtl.take_io (b : TraceBuf) : ({ t with io := b } : TraceCtl).take r = { t.take r with io := b } := by
  simp only [TraceCtl.take_eq, TraceCtl.rest_ported, TraceCtl.carved]
  split
  · split <;> rfl
  · rfl

variable {t}

/-- While the carve-out has room, or wraps, the record gets its place. -/
theorem TraceCtl.take_carves (carves : t.ctl.getLsbD 2 = true) (room : t.ctl.getLsbD 3 = true ∨ t.wr < 2 ^ 29) :
    (t.take r).wr = t.wr + 32 ∧ Tab.find? (t.take r).carve (t.wr % 2 ^ 29 / 32) = some r := by
  have fits : (t.ctl.getLsbD 3 || decide (t.wr < 2 ^ 29)) = true := by simpa only [Bool.or_eq_true, decide_eq_true_eq] using room
  rw [TraceCtl.take_eq, if_pos carves, TraceCtl.rest_ported, TraceCtl.carved, if_pos fits]
  exact ⟨rfl, Tab.find?_put_same _ _ _⟩

theorem TraceCtl.take_drops (carves : t.ctl.getLsbD 2 = true) (once : t.ctl.getLsbD 3 = false) (full : 2 ^ 29 ≤ t.wr) :
    (t.take r).drop = (t.drop + 1) % 2 ^ 48 ∧ (t.take r).wr = t.wr := by
  have closed : ¬ (t.ctl.getLsbD 3 || decide (t.wr < 2 ^ 29)) = true := by
    rw [once, decide_eq_false (Nat.not_lt.mpr full)]
    exact Bool.false_ne_true
  rw [TraceCtl.take_eq, if_pos carves, TraceCtl.rest_ported, TraceCtl.carved, if_neg closed]
  exact ⟨rfl, rfl⟩
end

/-- A buffer whose oldest record has left holds the later ones, and the DROP record of what it had dropped. -/
theorem TraceBuf.freed_eq (b : TraceBuf) (r : TraceRec) (tick : Nat) : b.freed r tick = ⟨b.recs.tail ++
    (if b.drops = 0 then [] else [⟨0x08, r.src, r.ctx, tick, BitVec.ofNat 128 b.drops⟩]), 0⟩ := by
  unfold TraceBuf.freed
  split
  · rw [List.append_nil]
  · rfl

/-- The package once the oldest record, `r`, of a source's buffer has been forwarded. -/
def Hw.forwarded (h : Hw) (e : Env) (src : Nat) (r : TraceRec) : Hw :=
  let h := h.setTraceBuf src ((h.traceBuf src).freed r (localTick e src))
  { h with trace := { h.trace.take r with last := some e.clk.tick } }

theorem Hw.rest_forwarded (h : Hw) (e : Env) (src : Nat) (r : TraceRec) : h.forwarded e src r = { h with
    cores := (h.forwarded e src r).cores, ports := (h.forwarded e src r).ports, trace := (h.forwarded e src r).trace } := by
  rw [Hw.forwarded, Hw.setTraceBuf_rest]

theorem Hw.trace_forwarded (h : Hw) (e : Env) (src : Nat) (r : TraceRec) : (h.forwarded e src r).trace =
    { h.trace.take r with io := (h.forwarded e src r).trace.io, last := some e.clk.tick } := by
  rw [Hw.forwarded, Hw.setTraceBuf_rest]
  dsimp only
  rw [TraceCtl.take_io]

theorem Hw.traceBuf_forwarded (h : Hw) (e : Env) (src : Nat) (r : TraceRec) :
    (h.forwarded e src r).traceBuf src = (h.traceBuf src).freed r (localTick e src) := by
  rw [← Hw.traceBuf_setTraceBuf (h := h) src ((h.traceBuf src).freed r (localTick e src)), Hw.forwarded]
  unfold Hw.traceBuf
  dsimp only
  rw [TraceCtl.take_rest]
  rfl

section
variable {s : State} {src : Nat} (inv : s.Inv) (hsrc : src = s.hw.occ.unit)
include inv hsrc

theorem traceForward_empty (empty : (s.hw.traceBuf src).recs = []) : Turns .traceForward s s.hw := by
  refine turns_of_event (show exec .traceForward s = s.event traceForward from rfl) ?_ inv.2
  subst hsrc
  simp only [traceForward, empty]

theorem traceForward_waits {r : TraceRec} {l : List TraceRec} (held : (s.hw.traceBuf src).recs = r :: l)
    (last : s.hw.trace.last = some s.clk.tick) : Turns .traceForward s (s.hw.plan .traceForward s.hw.occ) := by
  refine turns_of_event (show exec .traceForward s = s.event traceForward from rfl) ?_ inv.2
  subst hsrc
  simp only [traceForward, held]
  exact if_pos last

theorem traceForward_forwards {r : TraceRec} {l : List TraceRec} (held : (s.hw.traceBuf src).recs = r :: l)
    (last : s.hw.trace.last ≠ some s.clk.tick) :
    ∃ t, exec .traceForward s = .next t ∧ t.mem = s.mem ∧ t.clk = s.clk ∧ t.hw.warps = s.hw.warps ∧
      (t.hw.traceBuf src).drops = 0 ∧ (t.hw.traceBuf src).recs = l ++ (if (s.hw.traceBuf src).drops = 0 then []
        else [⟨0x08, r.src, r.ctx, localTick (env s) src, BitVec.ofNat 128 (s.hw.traceBuf src).drops⟩]) ∧ t.hw.trace.last = some s.clk.tick ∧
      t.hw.trace.port = (if s.hw.trace.ctl.getLsbD 1 then r :: s.hw.trace.port else s.hw.trace.port) ∧
      (s.hw.trace.ctl.getLsbD 2 = true → (s.hw.trace.ctl.getLsbD 3 = true ∨ s.hw.trace.wr < 2 ^ 29) →
        t.hw.trace.wr = s.hw.trace.wr + 32 ∧ Tab.find? t.hw.trace.carve (s.hw.trace.wr % 2 ^ 29 / 32) = some r) ∧
      (s.hw.trace.ctl.getLsbD 2 = true → s.hw.trace.ctl.getLsbD 3 = false → 2 ^ 29 ≤ s.hw.trace.wr →
        t.hw.trace.drop = (s.hw.trace.drop + 1) % 2 ^ 48 ∧ t.hw.trace.wr = s.hw.trace.wr) := by
  subst hsrc
  generalize hk : traceForward (env s) s.hw = k
  have plans : k = { s.hw.forwarded (env s) s.hw.occ.unit r with agenda := k.agenda } := by
    rw [← hk]
    simp only [traceForward, held]
    rw [if_neg (show ¬ s.hw.trace.last = some (env s).clk.tick from last)]
    split
    · rfl
    · exact Hw.agendaOnly_planOnce (h := s.hw.forwarded (env s) s.hw.occ.unit r) _ _
  have buffer : k.traceBuf s.hw.occ.unit = (s.hw.traceBuf s.hw.occ.unit).freed r (localTick (env s) s.hw.occ.unit) := by
    rw [plans]
    exact Hw.traceBuf_forwarded s.hw (env s) s.hw.occ.unit r
  rw [TraceBuf.freed_eq, held] at buffer
  obtain ⟨io, trace⟩ : ∃ io, k.trace = { s.hw.trace.take r with io := io, last := some s.clk.tick } := by
    rw [plans]
    exact ⟨_, Hw.trace_forwarded s.hw (env s) s.hw.occ.unit r⟩
  have unwritten : k.wq = [] := by
    rw [plans, Hw.rest_forwarded]
    exact inv.2
  refine ⟨{ s with hw := k }, (show exec .traceForward s = s.event traceForward from rfl).trans (event_eq_next hk unwritten),
    rfl, rfl, ?_, congrArg (·.drops) buffer, congrArg (·.recs) buffer, congrArg (·.last) trace, ?_, fun carves room => ?_, fun carves once full => ?_⟩
  · show k.warps = _
    rw [plans, Hw.rest_forwarded]
  · show k.trace.port = _
    rw [trace, TraceCtl.take_rest]
  · show k.trace.wr = _ ∧ Tab.find? k.trace.carve _ = _
    rw [trace]
    exact TraceCtl.take_carves r carves room
  · show k.trace.drop = _ ∧ k.trace.wr = _
    rw [trace]
    exact TraceCtl.take_drops r carves once full
end

end Sys2Proof.Machine
end

section
/-! # Homes and observation

O53: write-backs, migrations, the interval rebase, PC samples and trace forwarding. -/
namespace Sys2Proof.Machine

/-- Settles O53: one lemma for each event and outcome. -/
theorem homesAndObservation : Obligations.HomesAndObservation := by
  unfold Obligations.HomesAndObservation
  refine ⟨fun s core ctx line l inv hcore hctx hline hl free => writeBackMerge_writes inv hcore hctx hline hl free,
    fun s core ctx line inv hcore hctx hline dirty owned => writeBackMerge_waits inv hcore hctx hline dirty owned,
    fun s slice c p root l entry a home n inv hslice hc hp rooted counted walked aligned hhome hn mig idle moves host many more hold =>
      migrationStart_moves inv hslice hc hp rooted counted walked aligned hhome hn mig idle moves host many more hold,
    fun s m inv migrating may => migrationSwitch_switches inv migrating may,
    fun s m inv migrating switched used => migrationEnd_waits inv migrating switched used,
    fun s m was inv migrating switched drained hwas hold => migrationEnd_ends inv migrating switched drained hwas hold,
    fun s f n b inv hf hn there rebasing small rising => rebaseComplete_rebases inv hf hn there rebasing small rising,
    fun s core p q f inv hcore here runs => ⟨fun off => pcSample_idle inv hcore here runs off,
      fun last k w on hlast next room => pcSample_emits inv hcore here runs on hlast next room⟩,
    fun s src inv hsrc => ⟨fun empty => traceForward_empty inv hsrc empty, fun r l held last => traceForward_waits inv hsrc held last,
      fun r l held last => traceForward_forwards inv hsrc held last⟩⟩

end Sys2Proof.Machine
end
